-- ==== Sys2Proof/Word.lean ====
section
/-! DEFINITION. The word types of the TZ-48 model: bytes, 16-, 32- and 64-bit words, and the plain reading of a bit field
as a number (R5, R6). -/

namespace Sys2Proof

/-- One byte of memory. -/
abbrev Byte := BitVec 8
/-- A half word. -/
abbrev W16 := BitVec 16
/-- A register word (R125). -/
abbrev W32 := BitVec 32
/-- A 64-bit word: an address, an instruction word, a clause header (R91, R100). -/
abbrev W64 := BitVec 64

/-- Field [lo + len - 1 : lo] of a number, as a number. -/
def natBits (x lo len : Nat) : Nat := (x >>> lo) % 2 ^ len

/-- Field [lo + len - 1 : lo] of a bit vector, as a number. -/
def bitsOf {n : Nat} (x : BitVec n) (lo len : Nat) : Nat := natBits x.toNat lo len

/-- Bit i of a number. -/
def natBit (x i : Nat) : Bool := (x >>> i) % 2 == 1

end Sys2Proof
end

