-- ==== Sys2Proof/Machine/Exact.lean ====
section
/-! DEFINITION. Exact values and their rounding to a grid (R56 to R59, R72, R74): dyadic numbers, the irrational
powers of two of the logarithmic formats, and fixed-point evaluations of the irrational functions. A value that is no
dyadic number is carried as one with a sticky lowest bit far below every rounding position. -/

namespace Sys2Proof.Machine

/-- Every value a program can hold (03_numbers): a special value, an exact dyadic number (-1)^neg × m × 2^e (zero keeps
its sign, R58), or a logarithmic value (-1)^neg × 2^(l / 2^f) (R64, R65). -/
inductive Val where
  | nan
  | inf (neg : Bool)
  | fin (neg : Bool) (m : Nat) (e : Int)
  | log (neg : Bool) (l : Int) (f : Nat)
deriving DecidableEq, Repr

/-- Rounding modes of RND (R72). -/
inductive Rnd where
  | rne | rtz | rdn | rup | sr
deriving DecidableEq, Repr

/-- The RND field (R72); codes 101 to 111 are reserved. -/
def rndOf : Nat → Option Rnd
  | 0 => some .rne
  | 1 => some .rtz
  | 2 => some .rdn
  | 3 => some .rup
  | 4 => some .sr
  | _ => none

/-- Number of bits of a number. -/
def bitLen (m : Nat) : Nat := if m = 0 then 0 else Nat.log2 m + 1

/-- Choice of the upper grid point for a remainder `rem` of `2 ^ sh`, `0 < rem`, above the lower grid point `lo` (R72, R74).
`r` is the output of SrNext. -/
def takeHi (md : Rnd) (r : Nat) (neg : Bool) (lo rem sh : Nat) : Bool :=
  match md with
  | .rne => decide (2 ^ sh < 2 * rem) || (decide (2 * rem = 2 ^ sh) && lo % 2 == 1)
  | .rtz => false
  | .rdn => neg
  | .rup => !neg
  | .sr => decide (2 ^ 32 ≤ (rem * 2 ^ 32) / 2 ^ sh + r)

/-- The multiple of 2^q to which m × 2^e rounds, as a count of 2^q (R72). A remainder so far below the grid that only its
being nonzero counts is kept as one sticky bit, so that no huge shift is formed. -/
def roundGrid (md : Rnd) (r : Nat) (neg : Bool) (m : Nat) (e q : Int) : Nat :=
  if q ≤ e then m * 2 ^ (e - q).toNat
  else
    let sh := (q - e).toNat
    let big := bitLen m + 40
    let m' := if big < sh then (if m = 0 then 0 else 1) else m
    let s' := if big < sh then 40 else sh
    let lo := m' / 2 ^ s'
    let rem := m' % 2 ^ s'
    if rem = 0 then lo else if takeHi md r neg lo rem s' then lo + 1 else lo

/-- floor(log2 (m × 2^e)) for m ≠ 0. -/
def floorLog2 (m : Nat) (e : Int) : Int := (Nat.log2 m : Int) + e

/-- Rounding of a signed fixed-point number n × 2^(-w) to an integer by floor and remainder: the grid of the logs (R72).
`up` says that a directed mode takes the upper integer. -/
def roundLog (md : Rnd) (r : Nat) (up : Bool) (n : Int) (w : Nat) : Int :=
  let lo := n / (2 ^ w : Int)
  let rem := (n % (2 ^ w : Int)).toNat
  if rem = 0 then lo
  else
    let hi : Bool :=
      match md with
      | .rne => decide (2 ^ w < 2 * rem) || (decide (2 * rem = 2 ^ w) && lo % 2 == 1)
      | .rtz => false
      | .rdn => up
      | .rup => up
      | .sr => decide (2 ^ 32 ≤ (rem * 2 ^ 32) / 2 ^ w + r)
    if hi then lo + 1 else lo

/-! ### Irrational functions in fixed point

`wp` is the working precision in bits. Every function below returns the floor of a value computed with an error far below
2^(-wp); R137 and R72 ask for the correctly rounded result, and log entry 13 states why this precision gives it. -/

/-- Sum of z + z³/3 + z⁵/5 + … for z = num / den, in units of 2^(-wp): atanh z. -/
def atanhSum : Nat → Nat → Nat → Nat → Nat → Nat
  | 0, _, _, _, acc => acc
  | fuel + 1, t, z2, k, acc =>
    -- t = z^(2k+1) in units of 2^(-wp); z2 = z² in the same units, folded by the caller into `wp`
    if t = 0 then acc else atanhSum fuel ((t * z2) >>> 768) z2 (k + 1) (acc + t / (2 * k + 1))

/-- The working precision of the irrational functions. -/
def wp : Nat := 768

/-- 2^wp × 2 atanh(num / den), the natural logarithm of (den + num) / (den - num). -/
def lnRatio (num den : Nat) : Nat :=
  let z := (num * 2 ^ 768) / den
  2 * atanhSum 400 z ((z * z) >>> 768) 0 0

/-- 2^wp × ln 2. -/
def ln2Fix : Nat := lnRatio 1 3

/-- 2^wp × log2 x for x = m / 2^(bitLen m - 1), which lies in [1, 2). -/
def log2Frac (m : Nat) : Nat :=
  let d := 2 ^ (Nat.log2 m)
  if m = d then 0 else (lnRatio (m - d) (m + d) * 2 ^ 768) / ln2Fix

/-- 2^wp × log2 (m × 2^e), floor, for m ≠ 0; exact exactly when m is a power of two. -/
def log2Fix (m : Nat) (e : Int) : Int :=
  ((Nat.log2 m : Int) + e) * 2 ^ 768 + (log2Frac m : Int)

/-- Sum of the exponential series: t is the k-th term in units of 2^(-wp), x the argument in the same units. -/
def expSum : Nat → Nat → Nat → Nat → Nat → Nat
  | 0, _, _, _, acc => acc
  | fuel + 1, t, x, k, acc =>
    if t = 0 then acc else expSum fuel (((t * x) >>> 768) / (k + 1)) x (k + 1) (acc + t)

/-- 2^wp × 2^(x / 2^wp) for 0 ≤ x < 2^wp. -/
def exp2Frac (x : Nat) : Nat := expSum 400 (2 ^ 768) ((x * ln2Fix) >>> 768) 0 0

/-- The value 2^(n / 2^w) as a dyadic number with a sticky lowest bit; exact when n is a multiple of 2^w (R72). -/
def exp2Val (neg : Bool) (n : Int) (w : Nat) : Val :=
  let k := n / (2 ^ w : Int)
  let f := (n % (2 ^ w : Int)).toNat
  if f = 0 then .fin neg 1 k
  else .fin neg (2 * exp2Frac (if w ≤ 768 then f * 2 ^ (768 - w) else f >>> (w - 768)) + 1) (k - 769)

/-- Alternating sum z - z³/3 + z⁵/5 - … for atan, z and z2 = z² in units of 2^(-960). -/
def atanSum : Nat → Nat → Nat → Nat → Bool → Int → Int
  | 0, _, _, _, _, acc => acc
  | fuel + 1, t, inv2, k, neg, acc =>
    if t = 0 then acc
    else atanSum fuel (t / inv2) inv2 (k + 1) (!neg) (if neg then acc - (t / (2 * k + 1) : Nat) else acc + (t / (2 * k + 1) : Nat))

/-- 2^960 × atan(1 / n). -/
def atanInv (n : Nat) : Int := atanSum 500 (2 ^ 960 / n) (n * n) 0 false 0

/-- 2^960 × π / 2, by Machin's formula. -/
def halfPi : Nat := ((16 * atanInv 5 - 4 * atanInv 239) / 2).toNat

/-- Alternating series of sine and cosine: t is the term x^k / k! in units of 2^(-wp), x2 = x² likewise. -/
def trigSum : Nat → Nat → Nat → Nat → Bool → Int → Int
  | 0, _, _, _, _, acc => acc
  | fuel + 1, t, x2, k, neg, acc =>
    if t = 0 then acc
    else trigSum fuel (((t * x2) >>> 768) / ((k + 1) * (k + 2))) x2 (k + 2) (!neg) (if neg then acc - (t : Int) else acc + (t : Int))

/-- 2^wp × sin x for x in units of 2^(-wp). -/
def sinFix (x : Nat) : Int := trigSum 200 x ((x * x) >>> 768) 1 false 0
/-- 2^wp × cos x for x in units of 2^(-wp). -/
def cosFix (x : Nat) : Int := trigSum 200 (2 ^ 768) ((x * x) >>> 768) 0 false 0

/-- Quadrant and reduced argument, in units of 2^(-wp), of m × 2^e radians (R137: unreduced argument). -/
def trigReduce (m : Nat) (e : Int) : Nat × Nat :=
  -- the argument in units of 2^(-960)
  let x := if 0 ≤ e + 960 then m * 2 ^ (e + 960).toNat else m >>> (-(e + 960)).toNat
  (x / halfPi, (x % halfPi) >>> 192)

/-- A nonzero irrational fixed-point result in units of 2^(-wp) as a value with a sticky lowest bit. -/
def ofFix (n : Int) : Val := .fin (decide (n < 0)) (2 * n.natAbs + 1) (-769)

/-- sin of a nonzero dyadic argument. -/
def sinVal (neg : Bool) (m : Nat) (e : Int) : Val :=
  let qr := trigReduce m e
  let v : Int := match qr.1 % 4 with
    | 0 => sinFix qr.2
    | 1 => cosFix qr.2
    | 2 => - sinFix qr.2
    | _ => - cosFix qr.2
  ofFix (if neg then -v else v)

/-- cos of a nonzero dyadic argument. -/
def cosVal (m : Nat) (e : Int) : Val :=
  let qr := trigReduce m e
  let v : Int := match qr.1 % 4 with
    | 0 => cosFix qr.2
    | 1 => - sinFix qr.2
    | 2 => - cosFix qr.2
    | _ => sinFix qr.2
  ofFix v

/-! ### Quotients and square roots -/

/-- a / b of positive dyadic numbers: 128 quotient bits at least, with a sticky lowest bit when inexact. -/
def divVal (neg : Bool) (m1 : Nat) (e1 : Int) (m2 : Nat) (e2 : Int) : Val :=
  let k := 128 + bitLen m2
  let q := (m1 * 2 ^ k) / m2
  let rem := (m1 * 2 ^ k) % m2
  .fin neg (2 * q + (if rem = 0 then 0 else 1)) (e1 - e2 - k - 1)

/-- One pass of the bitwise square root: bits from 2^k down. -/
def isqrtLoop : Nat → Nat → Nat → Nat
  | 0, _, r => r
  | k + 1, n, r => isqrtLoop k n (if (r + 2 ^ k) * (r + 2 ^ k) ≤ n then r + 2 ^ k else r)

/-- floor(√n). -/
def isqrt (n : Nat) : Nat := isqrtLoop (bitLen n / 2 + 1) n 0

/-- √(m × 2^e) of a positive dyadic number, with a sticky lowest bit when inexact. -/
def sqrtVal (m : Nat) (e : Int) : Val :=
  let odd := (e % 2).toNat
  let n := m * 2 ^ (odd + 256)
  let r := isqrt n
  .fin false (2 * r + (if r * r = n then 0 else 1)) ((e - odd) / 2 - 129)

/-! ### Operations on exact values -/

/-- A logarithmic value as a dyadic number with a sticky bit; other values unchanged. -/
def Val.dy : Val → Val
  | .log s l f => exp2Val s l f
  | v => v

def Val.neg : Val → Val
  | .nan => .nan
  | .inf s => .inf (!s)
  | .fin s m e => .fin (!s) m e
  | .log s l f => .log (!s) l f

/-- The signed integer of a dyadic number counted in units of 2^q, for q ≤ e. -/
def scaled (s : Bool) (m : Nat) (e q : Int) : Int :=
  let n : Int := (m * 2 ^ (e - q).toNat : Nat)
  if s then -n else n

/-- Sum of two dyadic numbers. An exact zero sum takes the sign that IEEE 754 gives: -0 only when both are -0, or when the
mode rounds down and the signs differ (R58). -/
def addDy (rdn : Bool) (s1 : Bool) (m1 : Nat) (e1 : Int) (s2 : Bool) (m2 : Nat) (e2 : Int) : Val :=
  if m1 = 0 ∧ m2 = 0 then .fin (if s1 = s2 then s1 else rdn) 0 0
  else if m1 = 0 then .fin s2 m2 e2
  else if m2 = 0 then .fin s1 m1 e1
  else
    let q := min e1 e2
    let t := scaled s1 m1 e1 q + scaled s2 m2 e2 q
    if t = 0 then .fin rdn 0 0 else .fin (decide (t < 0)) t.natAbs q

/-- Exact a + b (R85, R137). -/
def Val.add (rdn : Bool) (a b : Val) : Val :=
  match a.dy, b.dy with
  | .nan, _ => .nan
  | _, .nan => .nan
  | .inf s, .inf t => if s = t then .inf s else .nan
  | .inf s, _ => .inf s
  | _, .inf t => .inf t
  | .fin s1 m1 e1, .fin s2 m2 e2 => addDy rdn s1 m1 e1 s2 m2 e2
  | _, _ => .nan

def Val.isZero : Val → Bool
  | .fin _ m _ => m == 0
  | _ => false

/-- Exact a × b; Inf × 0 is NaN (R85). -/
def Val.mul (a b : Val) : Val :=
  match a.dy, b.dy with
  | .nan, _ => .nan
  | _, .nan => .nan
  | .inf s, .inf t => .inf (s != t)
  | .inf s, .fin t m _ => if m = 0 then .nan else .inf (s != t)
  | .fin s m _, .inf t => if m = 0 then .nan else .inf (s != t)
  | .fin s1 m1 e1, .fin s2 m2 e2 => .fin (s1 != s2) (m1 * m2) (e1 + e2)
  | _, _ => .nan

/-- Exact multiplication by 2^k; under a logarithmic value k is added to the log (R77). -/
def Val.scl (k : Int) : Val → Val
  | .fin s m e => .fin s m (e + k)
  | .log s l f => .log s (l + k * 2 ^ f) f
  | v => v

/-- Comparison of two dyadic magnitudes: m1 × 2^e1 ≤ m2 × 2^e2. -/
def magLe (m1 : Nat) (e1 : Int) (m2 : Nat) (e2 : Int) : Bool :=
  if m1 = 0 then true
  else if m2 = 0 then false
  else
    let p1 := floorLog2 m1 e1
    let p2 := floorLog2 m2 e2
    if p1 < p2 then true
    else if p2 < p1 then false
    else
      let q := min e1 e2
      decide (m1 * 2 ^ (e1 - q).toNat ≤ m2 * 2 ^ (e2 - q).toNat)

/-- Signed a ≤ b on finite values and infinities, zeros equal; false with a NaN (R139). -/
def Val.le (a b : Val) : Bool :=
  match a.dy, b.dy with
  | .nan, _ => false
  | _, .nan => false
  | .inf s, .inf t => s || !t
  | .inf s, _ => s
  | _, .inf t => !t
  | .fin s1 m1 e1, .fin s2 m2 e2 =>
    if m1 = 0 ∧ m2 = 0 then true
    else if m1 = 0 then !s2
    else if m2 = 0 then s1
    else if s1 != s2 then s1
    else if s1 then magLe m2 e2 m1 e1 else magLe m1 e1 m2 e2
  | _, _ => false

def Val.isNaN : Val → Bool
  | .nan => true
  | _ => false

/-- Sign of a value; NaN has none. -/
def Val.sign : Val → Bool
  | .nan => false
  | .inf s => s
  | .fin s _ _ => s
  | .log s _ _ => s

end Sys2Proof.Machine
end

