-- ==== Sys2Proof/Machine/Num.lean ====
section
/-! DEFINITION. Number formats: decoding (Dec, R57 to R71), rounding and saturation (Round and Sat, R72 to R76), the
element encoders with their counts (R84), and the stochastic generator (R73 to R75). FMT codes are those of R56. -/

namespace Sys2Proof.Machine

/-! ### Format codes (R56) -/

/-- Element width in bits of an FMT code (R56); 0 for a reserved code. -/
def fmtBits (f : Nat) : Nat :=
  match f with
  | 0x01 | 0x02 | 0x08 | 0x09 | 0x0A | 0x0B | 0x0C | 0x0E => 8
  | 0x03 | 0x05 | 0x06 | 0x10 => 16
  | 0x04 | 0x07 => 32
  | 0x0D | 0x0F | 0x12 | 0x13 => 4
  | 0x11 => 2
  | 0x14 => 576
  | _ => 0

/-- The FMT code is listed in R56. -/
def fmtOk (f : Nat) : Bool := decide (1 ≤ f) && decide (f ≤ 0x14)

/-- An MX format (R61). -/
def fmtMx (f : Nat) : Bool := decide (0x0A ≤ f) && decide (f ≤ 0x0D)
/-- A DX format (R62). -/
def fmtDx (f : Nat) : Bool := decide (f = 0x0E) || decide (f = 0x0F)
/-- A block format (R61, R62). -/
def fmtBlock (f : Nat) : Bool := fmtMx f || fmtDx f

/-- Bytes of one in-line block (R62, R63). -/
def blockBytes (f : Nat) : Nat :=
  match f with
  | 0x0A | 0x0B | 0x0C => 33
  | 0x0D => 17
  | 0x0E => 34
  | 0x0F => 18
  | _ => 0

/-- Bytes of the scale at the head of an in-line block (R62, R63). -/
def blockHead (f : Nat) : Nat := if fmtDx f then 2 else 1

/-! ### Floating-point layouts (R57) -/

/-- Layout of a float format: exponent bits, fraction bits, bias, largest finite code, infinity (if any) and canonical NaN
(R57, R59). -/
structure FFmt where
  eb : Nat
  fb : Nat
  bias : Nat
  maxc : Nat
  inf : Option Nat
  nan : Option Nat
  flush : Bool
deriving DecidableEq, Repr

def ffF32 : FFmt := ⟨8, 23, 127, 0x7F7FFFFF, some 0x7F800000, some 0x7FC00000, false⟩
def ffF16 : FFmt := ⟨5, 10, 15, 0x7BFF, some 0x7C00, some 0x7E00, false⟩
def ffBf16 : FFmt := ⟨8, 7, 127, 0x7F7F, some 0x7F80, some 0x7FC0, true⟩
def ffE4m3 : FFmt := ⟨4, 3, 7, 0x7E, none, some 0x7F, false⟩
def ffE5m2 : FFmt := ⟨5, 2, 15, 0x7B, some 0x7C, some 0x7E, false⟩
def ffE2m1 : FFmt := ⟨2, 1, 1, 0x7, none, none, false⟩

/-- Decoding of a float code (R57, R58). -/
def decFloat (k : FFmt) (c : Nat) : Val :=
  let s := natBit c (k.eb + k.fb)
  let mag := c % 2 ^ (k.eb + k.fb)
  let ex := mag / 2 ^ k.fb
  let fr := mag % 2 ^ k.fb
  if k.inf = some mag then .inf s
  else if k.maxc < mag then .nan
  else if ex = 0 then
    (if k.flush then .fin s 0 0 else .fin s fr (1 - (k.bias : Int) - k.fb))
  else .fin s (2 ^ k.fb + fr) ((ex : Int) - k.bias - k.fb)

/-- A code with its effect on the converter counts (R84). -/
structure Enc where
  code : Nat
  sat : Bool := false
  nar : Bool := false
deriving DecidableEq, Repr

/-- Saturation policies (R76): the two a record selects, and IEEE for arithmetic. -/
inductive Pol where
  | satfin | satnan | ieee
deriving DecidableEq, Repr

/-- Magnitude code of m × 2^e in a float layout before saturation; `none` when the magnitude is certainly beyond the largest
finite value. Codes above `maxc` overflow as well (R72: exponent unbounded above). -/
def floatMag (k : FFmt) (md : Rnd) (r : Nat) (neg : Bool) (m : Nat) (e : Int) : Option Nat :=
  if m = 0 then some 0
  else
    let p := floorLog2 m e
    let emin : Int := 1 - (k.bias : Int)
    if (2 : Int) ^ (k.eb + 1) < p then none
    else
      let q := max p emin - k.fb
      let n := roundGrid md r neg m e q
      let c := (q - (emin - k.fb)).toNat * 2 ^ k.fb + n
      some (if k.flush && decide (c < 2 ^ k.fb) then 0 else c)

/-- Overflow result of an arithmetic word by IEEE 754 for its rounding mode (R76). -/
def ieeeOver (k : FFmt) (md : Rnd) (neg : Bool) : Nat :=
  let infc := k.inf.getD k.maxc
  match md with
  | .rne | .sr => infc
  | .rtz => k.maxc
  | .rdn => if neg then infc else k.maxc
  | .rup => if neg then k.maxc else infc

/-- Sign bit of a float layout. -/
def signBit (k : FFmt) (neg : Bool) : Nat := if neg then 2 ^ (k.eb + k.fb) else 0

/-- Rounding and saturation into a float layout (R72 to R76), with counts (R84). -/
def encFloat (k : FFmt) (pol : Pol) (md : Rnd) (r : Nat) (v : Val) : Enc :=
  match v.dy with
  | .nan => { code := k.nan.getD 0, nar := true }
  | .inf s =>
    match pol, k.inf with
    | .ieee, some c => { code := signBit k s + c }
    | .satnan, some c => { code := signBit k s + c }
    | .satnan, none => { code := k.nan.getD 0, nar := true }
    | _, _ => { code := signBit k s + k.maxc, sat := true }
  | .fin s m e =>
    match floatMag k md r s m e with
    | some c =>
      if c ≤ k.maxc then { code := signBit k s + c }
      else overflow s
    | none => overflow s
  | .log _ _ _ => { code := 0 }
where
  /-- Rounded overflow (R76). -/
  overflow (s : Bool) : Enc :=
    match pol, k.inf with
    | .ieee, _ => { code := signBit k s + ieeeOver k md s }
    | .satfin, _ => { code := signBit k s + k.maxc, sat := true }
    | .satnan, some c => { code := signBit k s + c, sat := true }
    | .satnan, none => { code := k.nan.getD 0, nar := true }

/-- RNE(x, fmt) of R90. -/
def rneFloat (k : FFmt) (v : Val) : Nat := (encFloat k .ieee .rne 0 v).code

/-! ### Integers, ternary, logarithmic codes -/

/-- Two's complement reading of the low w bits. -/
def sInt (w x : Nat) : Int := if natBit x (w - 1) then (x % 2 ^ w : Nat) - (2 ^ w : Int) else (x % 2 ^ w : Nat)

/-- An integer as an exact value. -/
def ofInt (i : Int) : Val := .fin (decide (i < 0)) i.natAbs 0

/-- Clamp to a range. -/
def clampInt (lo hi x : Int) : Int := max lo (min x hi)

/-- Low w bits of an integer. -/
def wrapInt (w : Nat) (x : Int) : Nat := (x % (2 ^ w : Int)).toNat

/-- Range of a w-bit integer. -/
def intMin (w : Nat) (signed : Bool) : Int := if signed then -(2 ^ (w - 1) : Int) else 0
def intMax (w : Nat) (signed : Bool) : Int := if signed then (2 ^ (w - 1) : Int) - 1 else (2 ^ w : Int) - 1

/-- The integer to which a dyadic value rounds; magnitudes above 2^80 are cut there, which every clamp absorbs. -/
def roundToInt (md : Rnd) (r : Nat) (s : Bool) (m : Nat) (e : Int) : Int :=
  if m = 0 then 0
  else if 80 < floorLog2 m e then (if s then -(2 ^ 80) else 2 ^ 80)
  else
    let n : Int := roundGrid md r s m e 0
    if s then -n else n

/-- Clamped encoding into an integer range, code in w bits (R76, R84). -/
def encRange (w : Nat) (lo hi : Int) (md : Rnd) (r : Nat) (v : Val) : Enc :=
  match v.dy with
  | .nan => { code := 0, nar := true }
  | .inf s => { code := wrapInt w (if s then lo else hi), sat := true }
  | .fin s m e =>
    let n := roundToInt md r s m e
    { code := wrapInt w (clampInt lo hi n), sat := decide (n < lo) || decide (hi < n) }
  | .log _ _ _ => { code := 0 }

/-- The LNS code of width w (16 or 32) with sign s and log l (Code of R90). -/
def lnsCode (w : Nat) (s : Bool) (l : Int) : Nat := (if s then 2 ^ (w - 1) else 0) + wrapInt (w - 1) l

/-- Zero code of width w (R64, R65). -/
def lnsZero (w : Nat) : Nat := 2 ^ (w - 2)
/-- NaR code of width w. -/
def lnsNaR (w : Nat) : Nat := 3 * 2 ^ (w - 2)
/-- Sign of an LNS code. -/
def lnsSign (w c : Nat) : Bool := natBit c (w - 1)
/-- Log of an LNS code, in units of 2^-8 or 2^-23. -/
def lnsLog (w c : Nat) : Int := sInt (w - 1) (c % 2 ^ (w - 1))
/-- Largest finite log of width w. -/
def lnsMax (w : Nat) : Int := (2 ^ (w - 2) : Int) - 1
/-- SatLog (R66). -/
def satLog (w : Nat) (l : Int) : Int := clampInt (-(lnsMax w)) (lnsMax w) l
/-- Fraction bits F of the log (R67). -/
def lnsF (w : Nat) : Nat := if w = 16 then 8 else 23

/-- Decoding of an LNS code (R64, R65). -/
def decLns (w c : Nat) : Val :=
  let c := c % 2 ^ w
  if c = lnsZero w then .fin false 0 0
  else if c = lnsNaR w then .nan
  else .log (lnsSign w c) (lnsLog w c) (lnsF w)

/-- Rounded log of a nonzero value in units of 2^-F (R72). -/
def roundToLog (w : Nat) (md : Rnd) (r : Nat) (v : Val) : Int :=
  match v with
  | .log s l f =>
    if lnsF w ≤ f then roundLog md r (if md = .rdn then s else !s) l (f - lnsF w) else l * 2 ^ (lnsF w - f)
  | .fin s m e => roundLog md r (if md = .rdn then s else !s) (log2Fix m e) (768 - lnsF w)
  | _ => 0

/-- Encoding into LNS16 (R72, R76, R84). -/
def encLns (w : Nat) (pol : Pol) (md : Rnd) (r : Nat) (v : Val) : Enc :=
  match v with
  | .nan => { code := lnsNaR w, nar := true }
  | .inf s =>
    if pol = .satnan then { code := lnsNaR w, nar := true } else { code := lnsCode w s (lnsMax w), sat := true }
  | _ =>
    if v.isZero then { code := lnsZero w }
    else
      let l := roundToLog w md r v
      if lnsMax w < l then
        (if pol = .satnan then { code := lnsNaR w, nar := true } else { code := lnsCode w v.sign (lnsMax w), sat := true })
      else { code := lnsCode w v.sign (max l (-(lnsMax w))) }

/-! ### Elements -/

/-- Decoding of one element of a non-block format, or of the element of an MX block without its scale (R57 to R70). -/
def decElem (f x : Nat) : Val :=
  match f with
  | 0x01 => ofInt (sInt 8 x)
  | 0x02 => ofInt (x % 256 : Nat)
  | 0x03 => ofInt (sInt 16 x)
  | 0x04 => ofInt (sInt 32 x)
  | 0x05 => decFloat ffF16 (x % 2 ^ 16)
  | 0x06 => decFloat ffBf16 (x % 2 ^ 16)
  | 0x07 => decFloat ffF32 (x % 2 ^ 32)
  | 0x08 | 0x0B => decFloat ffE4m3 (x % 256)
  | 0x09 | 0x0C => decFloat ffE5m2 (x % 256)
  | 0x0A => (ofInt (sInt 8 x)).scl (-6)
  | 0x0D => decFloat ffE2m1 (x % 16)
  | 0x10 => decLns 16 x
  | 0x11 => if x % 4 = 1 then ofInt 1 else if x % 4 = 3 then ofInt (-1) else ofInt 0
  | 0x12 => ofInt (sInt 4 x)
  | 0x13 => ofInt (x % 16 : Nat)
  | _ => .nan

/-- Decoding of a DX element under its two exponents (R62). -/
def decDx (f x e0 e1 : Nat) : Val :=
  let w := fmtBits f
  let ex := if natBit x (w - 1) then e1 else e0
  let mb := w - 2
  if ex = 0xFF then .nan
  else .fin (natBit x (w - 2)) (x % 2 ^ mb) ((ex : Int) - 127 - (mb - 1 : Nat))

/-- Decoding of an element of any block format under its scale: E8M0 in `sc0` for MX, E0 and E1 for DX (R60 to R62). -/
def decBlockElem (f x sc0 sc1 : Nat) : Val :=
  if fmtDx f then decDx f x sc0 sc1
  else if sc0 = 0xFF then .nan
  else (decElem f x).scl ((sc0 : Int) - 127)

/-- Encoding of one element of a non-block format (R77 step 4). -/
def encElem (f : Nat) (pol : Pol) (md : Rnd) (r : Nat) (v : Val) : Enc :=
  match f with
  | 0x01 => encRange 8 (-128) 127 md r v
  | 0x02 => encRange 8 0 255 md r v
  | 0x03 => encRange 16 (-(2 ^ 15)) (2 ^ 15 - 1) md r v
  | 0x04 => encRange 32 (-(2 ^ 31)) (2 ^ 31 - 1) md r v
  | 0x05 => encFloat ffF16 pol md r v
  | 0x06 => encFloat ffBf16 pol md r v
  | 0x07 => encFloat ffF32 pol md r v
  | 0x08 => encFloat ffE4m3 pol md r v
  | 0x09 => encFloat ffE5m2 pol md r v
  | 0x10 => encLns 16 pol md r v
  | 0x11 => encRange 2 (-1) 1 md r v
  | 0x12 => encRange 4 (-8) 7 md r v
  | 0x13 => encRange 4 0 15 md r v
  | _ => { code := 0 }

/-- An integer format whose result is sign-extended (R143). -/
def fmtSigned (f : Nat) : Bool := decide (f = 0x01) || decide (f = 0x03) || decide (f = 0x04) || decide (f = 0x12)

/-! ### Block scales (R78, R79, R432) -/

/-- emax of a block element format (R61; 0 for DX, R79). -/
def blockEmax (f : Nat) : Int :=
  match f with
  | 0x0B => 8
  | 0x0C => 15
  | 0x0D => 2
  | _ => 0

/-- Largest element magnitude as m × 2^e (R61, R79). -/
def blockLargest (f : Nat) : Nat × Int :=
  match f with
  | 0x0A => (127, -6)
  | 0x0B => (448, 0)
  | 0x0C => (57344, 0)
  | 0x0D => (6, 0)
  | 0x0E => (63, -5)
  | _ => (3, -1)

/-- Scale exponent X for the largest magnitude m × 2^e ≠ 0 (R78). -/
def blockX (f : Nat) (ceil : Bool) (m : Nat) (e : Int) : Int :=
  let lg := blockLargest f
  let a := floorLog2 m e
  let x :=
    if ceil then
      let x0 := a - floorLog2 lg.1 lg.2
      if magLe m e lg.1 (lg.2 + x0) then x0 else x0 + 1
    else a - blockEmax f
  clampInt (-127) 127 x

/-- Second DX exponent (R79). -/
def dxE1 (f e0 : Nat) : Nat := if f = 0x0E then e0 - 6 else e0 - 2

/-- R76: under SATFIN an infinite source element of a block counts as ±(2 - 2^-23) × 2^127. -/
def infAsMax (s : Bool) : Val := .fin s (2 ^ 24 - 1) 104

/-- R432: code and count of a NaN or infinite element under a finite block scale. -/
def encBlockSpecial (f : Nat) (pol : Pol) (v : Val) : Enc :=
  let largest (s : Bool) : Nat :=
    match f with
    | 0x0A => if s then 0x81 else 0x7F
    | 0x0B => if s then 0xFE else 0x7E
    | 0x0C => if s then 0xFB else 0x7B
    | 0x0D => if s then 0xF else 0x7
    | 0x0E => if s then 0x7F else 0x3F
    | _ => if s then 0x7 else 0x3
  match v with
  | .inf s =>
    if pol = .satnan then
      match f with
      | 0x0C => { code := if s then 0xFC else 0x7C }
      | 0x0B => { code := 0x7F, nar := true }
      | _ => { code := 0, nar := true }
    else { code := largest s, sat := true }
  | _ =>
    match f with
    | 0x0B => { code := 0x7F, nar := true }
    | 0x0C => { code := 0x7E, nar := true }
    | _ => { code := 0, nar := true }

/-- Encoding of a finite value as an MX element under scale exponent X: overflow gives the largest element under both
policies (R76, R78). -/
def encMx (f : Nat) (x : Int) (md : Rnd) (r : Nat) (v : Val) : Enc :=
  let u := v.dy.scl (-x)
  match f with
  | 0x0A => encRange 8 (-127) 127 md r (u.scl 6)
  | 0x0B => encFloat ffE4m3 .satfin md r u
  | 0x0C => encFloat ffE5m2 .satfin md r u
  | _ => encFloat ffE2m1 .satfin md r u

/-- Encoding of a finite value as a DX element under exponents E0 and E1 (R79). -/
def encDx (f e0 e1 : Nat) (md : Rnd) (r : Nat) (v : Val) : Enc :=
  match v.dy with
  | .fin s m e =>
    let lg := blockLargest f
    let w := fmtBits f
    let sel := magLe m e lg.1 (lg.2 + ((e1 : Int) - 127))
    let ex : Int := ((if sel then e1 else e0 : Nat) : Int) - 127
    let n := if m = 0 then 0 else
      if floorLog2 m e - ex > 80 then 2 ^ 60 else roundGrid md r s m e (ex + lg.2)
    { code := (if sel then 2 ^ (w - 1) else 0) + (if s then 2 ^ (w - 2) else 0) + min n lg.1, sat := decide (lg.1 < n) }
  | _ => { code := 0 }

/-- Encoding of one element of a block under a finite scale, special values by R432. -/
def encBlockElem (f sc0 sc1 : Nat) (pol : Pol) (md : Rnd) (r : Nat) (v : Val) : Enc :=
  match v with
  | .nan => encBlockSpecial f pol v
  | .inf _ => encBlockSpecial f pol v
  | _ => if fmtDx f then encDx f sc0 sc1 md r v else encMx f ((sc0 : Int) - 127) md r v

/-- One element offered to a block: its value and whether it is padding (R80). -/
structure BlkIn where
  v : Val
  pad : Bool
deriving DecidableEq, Repr

/-- The larger of two dyadic magnitudes. -/
def maxMag (a : Nat × Int) (v : Val) : Nat × Int :=
  match v.dy with
  | .fin _ m e => if magLe m e a.1 a.2 then a else (m, e)
  | _ => a

/-- A choice of block scale: the scale bytes, whether the block is a block NaN, and whether its amax is zero (R78, R79). -/
structure BlkScale where
  sc0 : Nat
  sc1 : Nat
  isNaN : Bool
  isZero : Bool
deriving DecidableEq, Repr

/-- Choice of the block scale over the elements that are no padding (R76, R78, R79, R80). -/
def blockScale (f : Nat) (ceil : Bool) (pol : Pol) (xs : List BlkIn) : BlkScale :=
  let live := (xs.filter (fun b => !b.pad)).map BlkIn.v
  let isInf : Val → Bool := fun v => match v with | .inf _ => true | _ => false
  if live.any Val.isNaN || (decide (pol = .satnan) && live.any isInf) then ⟨0xFF, 0xFF, true, false⟩
  else
    let fixed := live.map fun v => match v with | .inf s => infAsMax s | w => w
    let am := fixed.foldl maxMag (0, 0)
    if am.1 = 0 then ⟨0, 0, false, true⟩
    else
      let e0 := (blockX f ceil am.1 am.2 + 127).toNat
      ⟨e0, if fmtDx f then dxE1 f e0 else 0, false, false⟩

/-! ### The stochastic generator (R73) -/

/-- One step of SrNext on a generator state. -/
def srStep (x : Nat) : Nat :=
  let x := Nat.xor x ((x <<< 13) % 2 ^ 32)
  let x := Nat.xor x (x >>> 17)
  Nat.xor x ((x <<< 5) % 2 ^ 32)

/-- SrInit of R73 for a seed, thread index in team and phase. -/
def srInit (seed tid phase : Nat) : Nat :=
  let v := Nat.xor (Nat.xor (seed % 2 ^ 32) ((0x9E3779B9 * (tid + 1)) % 2 ^ 32)) ((0x85EBCA6B * phase) % 2 ^ 32)
  if v = 0 then 0x6D2B79F5 else v

/-- The (n+1)-th output of SrNext from a seed (R75). -/
def srNth : Nat → Nat → Nat
  | 0, x => srStep x
  | n + 1, x => srNth n (srStep x)

/-- The seed a converter without a thread starts from (R75). -/
def convSeed (seed : Nat) : Nat := if seed = 0 then 0x6D2B79F5 else seed

end Sys2Proof.Machine
end

