-- ==== Sys2Proof/Machine/Lns.lean ====
section
/-! DEFINITION. Logarithmic arithmetic: multiplication (R66), the tables PhiT and PsiT (R67), LnsAdd and negation (R68),
and the signed order of `lmax`. -/

namespace Sys2Proof.Machine

/-- Index precision G of the tables (R67). -/
def lnsG (w : Nat) : Nat := if w = 16 then 4 else 6

/-- RoundHalfUp of a fixed-point number n × 2^(-768) counted in units of 2^(-f) (R67). -/
def halfUpFix (n : Int) (f : Nat) : Int := (n + 2 ^ (767 - f)) / (2 ^ (768 - f) : Int)

/-- 2^768 × 2^(-n / 2^k) for n ≥ 0. -/
def exp2NegFix (n k : Nat) : Nat :=
  let e : Int := -(n : Int)
  let q := e / (2 ^ k : Int)
  let f := (e % (2 ^ k : Int)).toNat
  (if f = 0 then 2 ^ 768 else exp2Frac (f * 2 ^ (768 - k))) >>> (-q).toNat

/-- Entry j of PhiT (R67). -/
def phiT (w j : Nat) : Int := halfUpFix (log2Fix (2 ^ 768 + exp2NegFix j (lnsG w)) (-768)) (lnsF w)

/-- RoundHalfUp(2^F × log2(1 - 2^(-n / 2^k))), n ≥ 1 (R67, R68). -/
def psiAt (w n k : Nat) : Int := halfUpFix (log2Fix (2 ^ 768 - exp2NegFix n k) (-768)) (lnsF w)

/-- Entry j ≥ 1 of PsiT (R67). -/
def psiT (w j : Nat) : Int := psiAt w j (lnsG w)

/-- Linear interpolation between two entries, arithmetic shift (R68). -/
def lnsInterp (t0 t1 : Int) (f h sh : Nat) : Int := t0 + ((t1 - t0) * f + h) / (2 ^ sh : Int)

/-- A log clamped by SatLog, with the clamp's flag (R66, R177). -/
def satCode (w : Nat) (s : Bool) (l : Int) : Nat × Bool := (lnsCode w s (satLog w l), satLog w l != l)

/-- LnsAdd of R68, with whether SatLog clamped. -/
def lnsAddF (w x y : Nat) : Nat × Bool :=
  if x = lnsNaR w ∨ y = lnsNaR w then (lnsNaR w, false)
  else if x = lnsZero w then (y, false)
  else if y = lnsZero w then (x, false)
  else
    let big := if lnsLog w y ≤ lnsLog w x then x else y
    let small := if lnsLog w y ≤ lnsLog w x then y else x
    let d := (lnsLog w big - lnsLog w small).toNat
    let sh := lnsF w - lnsG w
    if 16 * 2 ^ lnsF w ≤ d then (big, false)
    else
      let j := d >>> sh
      let f := d % 2 ^ sh
      let h := 2 ^ (sh - 1)
      if lnsSign w x = lnsSign w y then
        satCode w (lnsSign w big) (lnsLog w big + lnsInterp (phiT w j) (phiT w (j + 1)) f h sh)
      else if d = 0 then (lnsZero w, false)
      else
        let p := if j = 0 then psiAt w d (lnsF w) else lnsInterp (psiT w j) (psiT w (j + 1)) f h sh
        satCode w (lnsSign w big) (lnsLog w big + p)

/-- LnsAdd of R68. -/
def lnsAdd (w x y : Nat) : Nat := (lnsAddF w x y).1

/-- Negation of a logarithmic code (R68). -/
def lnsNeg (w x : Nat) : Nat :=
  if x = lnsZero w ∨ x = lnsNaR w then x else Nat.xor x (2 ^ (w - 1))

/-- Logarithmic product (R66). -/
def lnsMul (w x y : Nat) : Nat :=
  if x = lnsNaR w ∨ y = lnsNaR w then lnsNaR w
  else if x = lnsZero w ∨ y = lnsZero w then lnsZero w
  else lnsCode w (lnsSign w x != lnsSign w y) (satLog w (lnsLog w x + lnsLog w y))

/-- Prod32: the widened LNS32 product of two LNS16 codes, exact (R66). -/
def prod32 (x y : Nat) : Nat :=
  if x = lnsNaR 16 ∨ y = lnsNaR 16 then lnsNaR 32
  else if x = lnsZero 16 ∨ y = lnsZero 16 then lnsZero 32
  else lnsCode 32 (lnsSign 16 x != lnsSign 16 y) ((lnsLog 16 x + lnsLog 16 y) * 2 ^ 15)

/-- Rank of a code among signed reals: an order-preserving integer, zero at 0 (R68). -/
def lnsRank (w x : Nat) : Int :=
  if x = lnsZero w then 0
  else
    let m := lnsLog w x + (2 ^ (w - 2) : Int)
    if lnsSign w x then -m else m

/-- `lmax` (R68, R142). -/
def lnsMaxOp (w x y : Nat) : Nat :=
  if x = lnsNaR w ∨ y = lnsNaR w then lnsNaR w
  else if lnsRank w y ≤ lnsRank w x then x else y

/-- An LNS32 code as an exact value (R65). -/
def decLns32 (c : Nat) : Val := decLns 32 c

end Sys2Proof.Machine
end

