-- ==== Sys2Proof/Machine/Convert.lean ====
section
/-! DEFINITION. The converters (R77 to R84): one element of `cvt` (R143), the conversion record and its validity (R81,
R82), and the conversion of a run of elements that siphons, copy engines and the quantisation engine make. -/

namespace Sys2Proof.Machine

/-- Converts one element between non-block formats under R77 with rescale `scl`. `r` is the output of SrNext. -/
def convElem (sf df : Nat) (scl : Int) (pol : Pol) (md : Rnd) (r x : Nat) : Enc :=
  if sf = df ∧ scl = 0 then { code := x % 2 ^ fmtBits sf }
  else encElem df pol md r ((decElem sf x).scl scl)

/-- Extension of a `cvt` result to 32 bits (R143). -/
def cvtExtend (df c : Nat) : Nat :=
  if fmtSigned df then wrapInt 32 (sInt (fmtBits df) c) else c % 2 ^ fmtBits df

/-- The set of formats of `cvt` (R143). -/
def cvtFmt (f : Nat) : Bool := (decide (1 ≤ f) && decide (f ≤ 9)) || decide (f = 0x10) || decide (f = 0x12) || decide (f = 0x13)

/-- A conversion record (R81). -/
structure ConvRec where
  sfmt : Nat
  dfmt : Nat
  rnd : Nat
  sat : Bool
  bpol : Nat
  scl : Int
  seed : Nat
  dw1 : Nat
deriving DecidableEq, Repr

/-- Reading of the two dwords of a conversion record (R81). -/
def convRecOf (d0 d1 : Nat) : ConvRec :=
  { sfmt := natBits d0 56 8, dfmt := natBits d0 48 8, rnd := natBits d0 45 3, sat := natBit d0 44,
    bpol := natBits d0 40 4, scl := sInt 8 (natBits d0 32 8), seed := natBits d0 0 32, dw1 := d1 }

/-- An identity transfer (R77, R82). -/
def ConvRec.identity (c : ConvRec) : Bool := decide (c.sfmt = c.dfmt) && decide (c.scl = 0)

/-- Index of the lowest nonzero byte of a number, counted from `k` (R431); `fuel` bounds the search. -/
def lowByte : Nat → Nat → Nat → Nat
  | 0, k, _ => k
  | fuel + 1, k, x => if x % 256 ≠ 0 then k else lowByte fuel (k + 1) (x / 256)

/-- The byte offset, within the record, of the field that makes it invalid (R82), the lowest one where several do (R431);
`none` for a valid record. -/
def ConvRec.badField (c : ConvRec) : Option Nat :=
  if 5 ≤ c.rnd then some 5
  else if 3 ≤ c.bpol then some 5
  else if fmtBlock c.dfmt && decide (c.bpol = 0) && !c.identity then some 5
  else if !fmtBlock c.dfmt && decide (c.bpol ≠ 0) then some 5
  else if !fmtOk c.dfmt || decide (c.dfmt = 0x14) then some 6
  else if !fmtOk c.sfmt || decide (c.sfmt = 0x14) then some 7
  else if c.dw1 ≠ 0 then some (lowByte 8 8 c.dw1)
  else none

def ConvRec.pol (c : ConvRec) : Pol := if c.sat then .satnan else .satfin
def ConvRec.mode (c : ConvRec) : Rnd := (rndOf c.rnd).getD .rne

/-- Result of converting a run: codes in element order, scale bytes of a block (empty otherwise), and the counts (R84). -/
structure ConvOut where
  scale : List Nat
  codes : List Nat
  sat : Nat
  nar : Nat
deriving DecidableEq, Repr

/-- Counts the flags of a list of encodings (R84). -/
def countEnc (es : List Enc) : Nat × Nat :=
  ((es.filter fun e => e.sat && !e.nar).length, (es.filter Enc.nar).length)

/-- Encoding of one block from its 32 elements, the first being destination element `n0` (R76, R78 to R80, R432). DEDUCED: an
infinite source under SATFIN is what R76 says of a converter, also where `bscale` differs (R83; log entry 36). DESIGN CHOICE: its value stands as it is,
not rescaled by SCL (log entry 91). -/
def convBlock (df : Nat) (ceil : Bool) (pol : Pol) (md : Rnd) (r : Nat → Nat) (n0 : Nat) (xs : List BlkIn) : ConvOut :=
  let sc := blockScale df ceil pol xs
  let scale := if fmtDx df then [sc.sc0, sc.sc1] else [sc.sc0]
  if sc.isNaN then ⟨scale, xs.map fun _ => 0, 0, xs.length⟩
  else if sc.isZero then ⟨scale, xs.map fun _ => 0, 0, 0⟩
  else
    let fix : BlkIn → Val := fun b => match b.v with
      | .inf s => if b.pad then .inf s else infAsMax s
      | v => v
    let es := (xs.zipIdx).map fun bi => encBlockElem df sc.sc0 sc.sc1 pol md (r (n0 + bi.2)) (fix bi.1)
    -- under SATFIN a source infinity is written as a finite value and counts as a saturation (R84)
    let es' := (xs.zip es).map fun be => match be.1.v with
      | .inf _ => if pol = .satfin then { be.2 with sat := true } else be.2
      | _ => be.2
    let c := countEnc es'
    ⟨scale, es'.map Enc.code, c.1, c.2⟩

/-- Encoding of a run of elements of a non-block destination (R77 step 4). -/
def convRun (df : Nat) (pol : Pol) (md : Rnd) (r : Nat → Nat) (n0 : Nat) (vs : List Val) : ConvOut :=
  let es := (vs.zipIdx).map fun vi => encElem df pol md (r (n0 + vi.2)) vi.1
  let c := countEnc es
  ⟨[], es.map Enc.code, c.1, c.2⟩

/-- Converts a run of decoded elements under a record (R77 to R80): one whole block for a block destination. -/
def ConvRec.run (c : ConvRec) (n0 : Nat) (xs : List BlkIn) : ConvOut :=
  let r := fun n => srNth n (convSeed c.seed)
  let xs := xs.map fun b => { b with v := b.v.scl c.scl }
  if fmtBlock c.dfmt then convBlock c.dfmt (decide (c.bpol = 2)) c.pol c.mode r n0 xs
  else convRun c.dfmt c.pol c.mode r n0 (xs.map BlkIn.v)

/-- Packs element codes of width w into bytes, element 0 in the lowest bits (R56). -/
def packCodes (w : Nat) (cs : List Nat) : List Nat :=
  match w with
  | 16 => cs.flatMap fun c => [c % 256, c / 256 % 256]
  | 32 => cs.flatMap fun c => [c % 256, c / 256 % 256, c / 65536 % 256, c / 16777216 % 256]
  | 8 => cs.map (· % 256)
  | _ =>
    let per := 8 / max w 1
    (List.range ((cs.length + per - 1) / per)).map fun j =>
      (List.range per).foldl (fun acc k => acc + ((cs.getD (j * per + k) 0) % 2 ^ w) * 2 ^ (w * k)) 0

/-- Element k of width w in a little-endian byte string (R56). -/
def elemAt (w : Nat) (bs : List Nat) (k : Nat) : Nat :=
  match w with
  | 8 => bs.getD k 0
  | 16 => bs.getD (2 * k) 0 + 256 * bs.getD (2 * k + 1) 0
  | 32 => bs.getD (4 * k) 0 + 256 * bs.getD (4 * k + 1) 0 + 65536 * bs.getD (4 * k + 2) 0 + 16777216 * bs.getD (4 * k + 3) 0
  | _ => (bs.getD (k * w / 8) 0 >>> (k * w % 8)) % 2 ^ w

/-- Decoding of element k of one in-line block (R60 to R63). -/
def decInline (f : Nat) (bs : List Nat) (k : Nat) : Val :=
  decBlockElem f (elemAt (fmtBits f) (bs.drop (blockHead f)) k) (bs.getD 0 0) (bs.getD 1 0)

end Sys2Proof.Machine
end

