-- ==== Sys2Proof/Syntax.lean ====
section
/-! DEFINITION. Abstract syntax: the word formats (R100, R101) and the one inductive of instructions and events (R115 and
the events that 95_what_each_step_holds lists). Raw operand fields are kept as the word has them, so that decoding loses
no bit; their reading is in WellFormed and in the machine. -/

namespace Sys2Proof

/-- The common fields of an instruction word but OPC (R100). -/
structure Hdr where
  look : BitVec 4
  hold : BitVec 2
  u : Bool
  pred : BitVec 3
  pneg : Bool
  dst : BitVec 6
deriving DecidableEq, Repr

/-- Formats F-R and F-X (R101): A, B, C and FUNC; in F-X these are the two descriptors, the retire register and the flags. -/
structure FR where
  h : Hdr
  a : BitVec 7
  b : BitVec 7
  c : BitVec 7
  func : BitVec 16
deriving DecidableEq, Repr

/-- Format F-I (R101). -/
structure FI where
  h : Hdr
  a : BitVec 7
  imm : BitVec 30
deriving DecidableEq, Repr

/-- Format F-M (R101). -/
structure FM where
  h : Hdr
  a : BitVec 7
  b : BitVec 7
  ofs : BitVec 23
deriving DecidableEq, Repr

/-- Format F-B (R101). -/
structure FB where
  h : Hdr
  ofs : BitVec 37
deriving DecidableEq, Repr

/-- Format F-S (R101); `rsv` is the reserved field [29:16]. -/
structure FS where
  h : Hdr
  a : BitVec 7
  rsv : BitVec 14
  sel : BitVec 16
deriving DecidableEq, Repr

/-- What firmware and Phimus set for a new context (R365, R366, R216). -/
structure CtxIn where
  num : Nat
  priv : Bool
  tenant : BitVec 16
  seed : BitVec 32
  ptroot : Nat
  savebase : Nat
  savesz : Nat
  fqhdr : Nat
  svcq : BitVec 64
  ranges : List (BitVec 64 × BitVec 64 × BitVec 64 × BitVec 64)
deriving DecidableEq, Repr

/-- An image offered for loading on a die (R395, R397, R403): the header with TYPE, VERSION and body length, the body, the two signatures, and
the rule version of a siphon image. -/
structure ImageIn where
  typ : Nat
  die : Nat
  version : BitVec 32
  len : Nat
  body : List (BitVec 8)
  ecdsa : List (BitVec 8)
  lms : List (BitVec 8)
  rules : Nat
deriving DecidableEq, Repr

/-- What the steps of a boot find (R392): whether the bridge and the HBM stacks train, the fuse record, the dies whose links train, and the
images offered to each die. -/
structure BootIn where
  bridge : Bool
  hbm : Bool
  fuse : BitVec 14
  train : BitVec 14
  images : List ImageIn
deriving DecidableEq, Repr

/-- An access from outside at a physical address (R21, R22, R399): a read, a write of bytes, an atomic with OP and TY of R245, or a message
transaction of UALink. -/
inductive HostAcc where
  | read (pa n : Nat)
  | write (pa : Nat) (bytes : List (BitVec 8))
  | atomic (pa op ty v cmp : Nat)
  | message
deriving DecidableEq, Repr

/-- What a relayed PTP message says (R354), in ticks of 0.25 ns: a two-step Sync and how long ago the NIC received it; the TAI time at which it was
sent; the data set of a foreign master, as one number in the order of comparison of IEEE 1588; the TAI time at which a Delay_Req was received and
how long ago the NIC sent it; and every message that the package does not support. -/
inductive PtpBody where
  | sync (age : Nat)
  | followUp (origin : Nat)
  | announce (rank : Nat)
  | delayResp (origin age : Nat)
  | other
deriving DecidableEq, Repr

/-- A PTP message that the host relays (R354): its domain, the port that sent it, and its sequence number. -/
structure PtpMsg where
  domain : Nat
  source : Nat
  seq : Nat
  body : PtpBody
deriving DecidableEq, Repr

/-- The instructions and events of the TZ-48, one constructor per row of the opcode table. The words of the opcode map carry
the fields of their format (R101, R115); the events, which no word encodes, carry the party they concern. -/
inductive Instr where
  /-- Integer add of a and b at the type width, wrapping or saturating. (R130) -/
  | add (w : FR)
  /-- Integer subtract a − b at the type width, wrapping or saturating. (R130) -/
  | sub (w : FR)
  /-- 32-bit add with carry-in that gives a 64-bit result holding the sum and the carry-out. (R130) -/
  | addc (w : FR)
  /-- 32-bit subtract with borrow-in that gives a 64-bit result holding the difference and the borrow-out. (R130) -/
  | subb (w : FR)
  /-- Integer multiply at the type width, wrapping or saturating. (R130) -/
  | mul (w : FR)
  /-- High half of the integer product. (R130) -/
  | mulh (w : FR)
  /-- Integer multiply-add a × b + c. (R130) -/
  | mad (w : FR)
  /-- Integer negation. (R130) -/
  | neg (w : FR)
  /-- Integer absolute value. (R130) -/
  | abs (w : FR)
  /-- Integer minimum. (R130) -/
  | min (w : FR)
  /-- Integer maximum. (R130) -/
  | max (w : FR)
  /-- Integer clamp of a between b and c. (R130) -/
  | clamp (w : FR)
  /-- Long-latency integer division truncated toward zero, with defined results for the boundary cases and no fault. (R131) -/
  | div (w : FR)
  /-- Long-latency integer remainder, with defined results for the boundary cases and no fault. (R131) -/
  | rem (w : FR)
  /-- Sum of absolute difference, |a − b| + c. (R130) -/
  | sad (w : FR)
  /-- Four-byte dot product accumulated into c. (R130) -/
  | dot4 (w : FR)
  /-- Bitwise AND. (R130) -/
  | and (w : FR)
  /-- Bitwise OR. (R130) -/
  | or (w : FR)
  /-- Bitwise XOR. (R130) -/
  | xor (w : FR)
  /-- Bitwise NOT. (R130) -/
  | not (w : FR)
  /-- Bitwise a AND NOT b. (R130) -/
  | andn (w : FR)
  /-- Three-input bitwise logic function given by an 8-bit LUT. (R130) -/
  | lgc3 (w : FR)
  /-- Shift left. (R130) -/
  | shl (w : FR)
  /-- Logical shift right. (R130) -/
  | shr (w : FR)
  /-- Arithmetic shift right. (R130) -/
  | sar (w : FR)
  /-- Rotate left within the type width. (R130) -/
  | rol (w : FR)
  /-- Extract a bit field. (R132) -/
  | bfx (w : FR)
  /-- Insert a bit field. (R132) -/
  | bfi (w : FR)
  /-- Population count. (R130) -/
  | pop (w : FR)
  /-- Count leading zero bits. (R130) -/
  | clz (w : FR)
  /-- Count trailing zero bits. (R130) -/
  | ctz (w : FR)
  /-- Reverse the order of the bits. (R130) -/
  | brev (w : FR)
  /-- Integer compare under CC, giving 1 or 0. (R130) -/
  | cmp (w : FR)
  /-- Select a or b by c. (R130) -/
  | sel (w : FR)
  /-- Combine two predicates through a 4-bit truth table. (R133) -/
  | pset (w : FR)
  /-- 64-bit address formation a + (b << N). (R134) -/
  | lea (w : FR)
  /-- Move a 32- or 64-bit value. (R134) -/
  | mov (w : FR)
  /-- Move a sign-extended 30-bit immediate. (R134) -/
  | movi (w : FI)
  /-- Set the high 16 bits from an immediate and keep the low 16 bits of a. (R134) -/
  | movh (w : FI)
  /-- Float add, rounded once. (R137) -/
  | fadd (w : FR)
  /-- Float subtract, rounded once. (R137) -/
  | fsub (w : FR)
  /-- Float multiply, rounded once. (R137) -/
  | fmul (w : FR)
  /-- Fused float multiply-add, rounded once. (R137) -/
  | fma (w : FR)
  /-- Float minimum. (R137) -/
  | fmin (w : FR)
  /-- Float maximum. (R137) -/
  | fmax (w : FR)
  /-- Float compare under CC, giving 1 or 0. (R139) -/
  | fcmp (w : FR)
  /-- Round to an integral value under RND. (R137) -/
  | frnd (w : FR)
  /-- Long-latency reciprocal, correctly rounded. (R137) -/
  | frcp (w : FR)
  /-- Long-latency reciprocal square root, correctly rounded. (R137) -/
  | frsq (w : FR)
  /-- Long-latency square root, correctly rounded. (R137) -/
  | fsqrt (w : FR)
  /-- Long-latency 2^a, correctly rounded. (R137) -/
  | fex2 (w : FR)
  /-- Long-latency log2 a, correctly rounded. (R137) -/
  | flg2 (w : FR)
  /-- Long-latency sine, correctly rounded. (R137) -/
  | fsin (w : FR)
  /-- Long-latency cosine, correctly rounded. (R137) -/
  | fcos (w : FR)
  /-- Long-latency float divide, correctly rounded. (R137) -/
  | fdiv (w : FR)
  /-- Scale a float by 2 raised to the integer b. (R137) -/
  | fscale (w : FR)
  /-- Classify a float into a one-hot mask. (R138) -/
  | fclass (w : FR)
  /-- Packed-half add. (R140) -/
  | padd (w : FR)
  /-- Packed-half multiply. (R140) -/
  | pmul (w : FR)
  /-- Packed-half fused multiply-add. (R140) -/
  | pfma (w : FR)
  /-- Packed-half minimum. (R140) -/
  | pmin (w : FR)
  /-- Packed-half maximum. (R140) -/
  | pmax (w : FR)
  /-- Logarithmic multiply with SatLog. (R142) -/
  | lmul (w : FR)
  /-- Logarithmic add by LnsAdd. (R142) -/
  | ladd (w : FR)
  /-- Logarithmic subtract, by LnsAdd of the negated b. (R142) -/
  | lsub (w : FR)
  /-- Logarithmic maximum. (R142) -/
  | lmax (w : FR)
  /-- Convert one element between formats under R77, counting saturations and NaRs. (R143) -/
  | cvt (w : FR)
  /-- Replace a narrow slot of a with b. (R144) -/
  | pack (w : FR)
  /-- Extract a narrow slot of a. (R144) -/
  | unpk (w : FR)
  /-- Choose the MX or DX block scales across 32 threads. (R145) -/
  | bmax (w : FR)
  /-- Encode one element under a given block scale. (R146) -/
  | bscale (w : FR)
  /-- Long-latency lane shuffle within segments. (R149) -/
  | shf (w : FR)
  /-- Long-latency vote over the active threads of a segment. (R150) -/
  | vote (w : FR)
  /-- Long-latency reduction over the active threads of a segment, in a fixed order. (R151) -/
  | redx (w : FR)
  /-- Long-latency broadcast of a lane's value within a segment. (R152) -/
  | bcst (w : FR)
  /-- Long-latency inclusive or exclusive prefix fold within a segment. (R151) -/
  | scan (w : FR)
  /-- Read a special or context system register. (R156) -/
  | rdsr (w : FS)
  /-- Privileged write of $seed or of a writable context system register. (R157) -/
  | wrsr (w : FS)
  /-- Branch on the active threads, pushing a PENDING entry when the branch diverges. (R163) -/
  | br (w : FB)
  /-- Jump through a jump table by a uniform index, with a landing check. (R171) -/
  | jt (w : FR)
  /-- Landing pad word, checked on arrival and issued as nop. (R173) -/
  | land (w : FS)
  /-- Push a CALL entry and transfer to the target. (R167) -/
  | call (w : FB)
  /-- Serialised per-thread indirect call through a jump table. (R172) -/
  | callt (w : FR)
  /-- Return by resuming from the divergence stack. (R167) -/
  | ret (w : FR)
  /-- End the active threads, and the group when no live thread remains. (R168) -/
  | exit (w : FS)
  /-- Push a RECONV entry for the reconvergence point. (R164) -/
  | split (w : FB)
  /-- Resume a waiting path from the divergence stack. (R165) -/
  | join (w : FR)
  /-- Team-collective arrival that ends a phase. (R280) -/
  | phase (w : FS)
  /-- Team-collective hand-over to a successor kernel, with checks at issue and when the arrivals are complete. (R283) -/
  | succ (w : FR)
  /-- Raise TRAP, which stops the context. (R386) -/
  | trap (w : FS)
  /-- Raise BREAKPOINT when BRKEN is set, and otherwise act as nop. (R386) -/
  | brk (w : FS)
  /-- No operation. (R169) -/
  | nop (w : FS)
  /-- Count down a uniform register and branch while it is nonzero. (R166) -/
  | loop (w : FB)
  /-- Open a service call and wait for its answer. (R387) -/
  | sysc (w : FS)
  /-- Long-latency load from a VA for each active thread. (R237) -/
  | ld (w : FM)
  /-- Store to a VA for each active thread. (R239) -/
  | st (w : FM)
  /-- Long-latency load from an LS offset. (R237) -/
  | lds (w : FM)
  /-- Store to an LS offset. (R239) -/
  | sts (w : FM)
  /-- Long-latency transposing load of a tile block into the register layout of R180. (R208) -/
  | ldt (w : FM)
  /-- Long-latency uniform load into a uniform register. (R237) -/
  | uld (w : FM)
  /-- Prefetch a line into L1 or into its home slice. (R242) -/
  | pfx (w : FM)
  /-- Returning scalar atomic at the site of the target. (R247) -/
  | atom (w : FR)
  /-- Non-returning scalar atomic. (R247) -/
  | red (w : FR)
  /-- Compare-and-swap. (R247) -/
  | cas (w : FR)
  /-- Returning atomic on the elements of a 32-byte block. (R248) -/
  | atomv (w : FR)
  /-- Non-returning atomic on the elements of a 32-byte block. (R248) -/
  | redv (w : FR)
  /-- Memory fence at a scope. (R265) -/
  | fence (w : FS)
  /-- Memory fence restricted to an address range. (R266) -/
  | fencer (w : FR)
  /-- Arm the group's monitor on a watched line. (R332) -/
  | marm (w : FR)
  /-- Arm a counted monitor that decrements a join counter when the watched word equals the expected value. (R333) -/
  | marmCounted (w : FR)
  /-- Wait for the armed monitor's wake, then consume and disarm it. (R332) -/
  | mwait (w : FR)
  /-- Wait until a value read by the word itself satisfies a comparison. (R332) -/
  | wuc (w : FR)
  /-- Zero 1 to 32 aligned lines without reading them. (R243) -/
  | zln (w : FM)
  /-- Report the compression tag and sector count of a line. (R244) -/
  | lqry (w : FM)
  /-- Octet matrix multiply-accumulate into an accumulator tile. (R188) -/
  | mma (w : FR)
  /-- Matrix multiply-accumulate from a source tile into a destination tile. (R188) -/
  | mmx (w : FR)
  /-- Set an accumulator tile to the contract zero. (R189) -/
  | mzero (w : FR)
  /-- Load an accumulator tile from an image. (R194) -/
  | mld (w : FR)
  /-- Store an accumulator tile as an image, optionally as an indivisible add. (R194) -/
  | drain (w : FR)
  /-- Release the group's keep-A snapshot. (R196) -/
  | mrel (w : FR)
  /-- Scale an accumulator tile by a power of two. (R190) -/
  | mscl (w : FR)
  /-- Long-latency read of a tile element or of the matrix status. (R197) -/
  | mrd (w : FR)
  /-- Hand a contiguous copy, typed or untyped, to a copy engine. (R300) -/
  | cpy (w : FR)
  /-- Gather or scatter copy between a shaped array and a contiguous image. (R301) -/
  | cpyo (w : FR)
  /-- Reducing copy that applies an operation at the destination. (R302) -/
  | cpyr (w : FR)
  /-- Multicast copy to the LS of several cores of the cluster. (R304) -/
  | cpym (w : FR)
  /-- Copy followed by a stamp write. (R306) -/
  | cpys (w : FR)
  /-- Seal the unsealed copies into a numbered batch. (R307) -/
  | cseal (w : FS)
  /-- Wait for the batches numbered up to N, or for all. (R308) -/
  | cwait (w : FS)
  /-- Bind a fill record to a tile and mark it ABSENT. (R319) -/
  | tbind (w : FR)
  /-- Set a tile's base, size, owner and state. (R319) -/
  | tset (w : FR)
  /-- Read a tile-table entry. (R319) -/
  | tget (w : FR)
  /-- Wait for a tile condition, starting an ABSENT fill. (R319) -/
  | twait (w : FS)
  /-- Release a tile to EMPTY. (R319) -/
  | trel (w : FS)
  /-- Initialise a barrier. (R325) -/
  | bini (w : FR)
  /-- Arrive at a barrier. (R325) -/
  | barv (w : FS)
  /-- Wait until the group's last arrival is complete. (R325) -/
  | barw (w : FS)
  /-- Post expected transaction bytes to a barrier. (R325) -/
  | bexp (w : FR)
  /-- Drop the group from a barrier's members. (R325) -/
  | bdrop (w : FS)
  /-- Read a barrier's image, optionally clearing ERR. (R325) -/
  | bget (w : FR)
  /-- Enqueue a 64-byte item from LS into a queue. (R289) -/
  | qenq (w : FR)
  /-- Dequeue an item into LS, waiting when the queue is empty. (R289) -/
  | qdeq (w : FR)
  /-- Dequeue an item without waiting. (R289) -/
  | qtry (w : FR)
  /-- Decrement a join counter by k. (R281) -/
  | jdec (w : FR)
  /-- Write a join counter, with a ready notice on reaching zero. (R289) -/
  | jset (w : FR)
  /-- Enqueue a launch record into a LAUNCH queue. (R289) -/
  | spawn (w : FR)
  /-- Enqueue a quantisation job record. (R310) -/
  | qnt (w : FR)
  /-- Invalidate entries of the shape-record cache. (R339) -/
  | rcinv (w : FR)
  /-- Emit one program trace event for the group. (R364) -/
  | trc (w : FR)
  /-- Emit one program trace event for each active thread. (R364) -/
  | trcm (w : FR)
  /-- Read a 64-bit counter. (R343) -/
  | cnt (w : FS)
  /-- Stage a range register from a 32-byte image. (R219) -/
  | rmap (w : FR)
  /-- Check and commit the staged range set package-wide. (R219) -/
  | rcommit (w : FS)
  /-- Answer an open service call by its token. (R387) -/
  | eret (w : FS)
  /-- Invalidate TLB, page-walk cache and L1 entries. (R222) -/
  | tlbi (w : FR)
  /-- Migrate a page to a new HBM home and switch its mapping. (R230) -/
  | mig (w : FR)
  /-- Check and restore a saved context. (R388) -/
  | ctxld (w : FR)
  /-- Set a budget cap or weight, or free a budget row. (R348) -/
  | bdg (w : FR)
  /-- A group at a clause boundary fetches and checks the clause, takes stalls and pre-emption, waits, and issues the words. (R97) -/
  | clauseBoundary (t g : Nat)
  /-- A group whose wait condition at a boundary or terminal word is satisfied resumes issue. (R97) -/
  | groupWaitRelease (t g : Nat)
  /-- The value of a long-latency word arrives and fills its reserved entries and destination. (R109) -/
  | longLatencyArrival (t g r : Nat)
  /-- A store is performed at its home and acknowledged. (R239) -/
  | storeAcknowledged (t g : Nat)
  /-- An access fails after issue and its fault is delivered at the group's next boundary. (R235) -/
  | deferredAccessFault (t g code addr detail : Nat) (lanes pc : BitVec 64)
  /-- An outstanding page walk completes and serves every waiting request for the page. (R221) -/
  | pageWalkComplete (die cluster ctx va : Nat)
  /-- The outstanding work of a team's settle completes and the team scrubs, tests NEXTJC, and continues or parks. (R42) -/
  | phaseSettleComplete (t : Nat)
  /-- The spill is written and the task enters TQ once TQ has room. (R280) -/
  | taskSpillEnqueue (t : Nat)
  /-- A successor takes effect in place or parks once the team's settle completes. (R286) -/
  | succSettleComplete (t : Nat)
  /-- The loading of a start state or carry set completes and the slot goes to RUN. (R54) -/
  | teamStartLoaded (t : Nat)
  /-- Every 16 FCLK a scheduler arbitrates and grants at most one dispatch per class. (R282) -/
  | schedulingRound (die : Nat)
  /-- After a gang has waited 64 rounds its cluster is closed to other dispatch. (R51) -/
  | gangClusterClose (die cluster : Nat)
  /-- At least once every 1,024 rounds a scheduler scans its task queues for counters set to zero by stores. (R281) -/
  | taskQueueScan (die : Nat)
  /-- The scheduler restores a single-team image once its wait is woken or a core has room. (R389) -/
  | schedulerRestore (ctx id : Nat)
  /-- A tail write to a registered LAUNCH queue wakes the scheduler through the roost. (R399) -/
  | launchDoorbell (q : Nat)
  /-- An engine writes a converted element and posts its bytes to a barrier. (R297) -/
  | copyElementPerformed (die unit slot n : Nat)
  /-- Every write of a copy, and its stamp, is performed, and the copy is complete. (R297) -/
  | copyComplete (id : Nat)
  /-- An element meets a fault, and the command is held or cancelled with a COPY_FAULT record. (R299) -/
  | copyElementFault (die unit slot n : Nat) (link : Bool)
  /-- A multicast destination is dropped or fails, and MCAST_PARTIAL is logged. (R305) -/
  | mcastDestinationFailure (copy : Nat) (core : Option Nat)
  /-- A reducing element arrives at its site and is applied, or absorbed by the replay filter. (R303) -/
  | reducingElementArrival (die unit slot n : Nat)
  /-- A replay filter entry expires 16 µs after its element was applied. (R303) -/
  | replayFilterExpiry (site : Nat)
  /-- The last write of a fill is performed and the tile becomes READY. (R317) -/
  | tileFillComplete (t j : Nat)
  /-- The last element of a DM 01 drain is written and the tile returns to READY. (R194) -/
  | tileDrainComplete (t j : Nat)
  /-- A tile update of a matrix word completes, followed by its retire decrement. (R198) -/
  | matrixUpdateComplete (t j : Nat)
  /-- A fault met while fetching a matrix operand kills the team. (R377) -/
  | matrixFetchFault (t : Nat)
  /-- A barrier's lantern clock reaches its budget and raises BARRIER_TIMEOUT, which terminates the context. (R327) -/
  | lanternTimeout (t b : Nat)
  /-- A write to a watched line, or a change of its mapping, wakes the roost entries on it. (R330) -/
  | roostWake (slice : Nat)
  /-- A CTXCMD SAVE command starts the save of a context. (R380) -/
  | ctxcmdSave (ctx : Nat)
  /-- Once every group is at a boundary and settled, the team images and the header are written and STATE becomes SAVED. (R380) -/
  | contextSaveWritten (ctx : Nat)
  /-- A CTXCMD TERMINATE command terminates the context. (R375) -/
  | ctxcmdTerminate (ctx : Nat)
  /-- A CTXCMD ENGRESUME command resumes a held engine command from its progress record. (R371) -/
  | ctxcmdEngresume (ctx die unit slot : Nat)
  /-- A CTXCMD ENGCANCEL command cancels a held engine command. (R371) -/
  | ctxcmdEngcancel (ctx die unit slot : Nat)
  /-- A write to a context system register with no row of its own, such as CSEL, DBG, PTROOT, SAVEBASE, SAVESZ, FQHDR, SVCQ or RSTLIM. (R366) -/
  | contextRegisterWrite (ctx sel v : Nat)
  /-- A save that is late, too large or meets UNCORRECTABLE raises WATCHDOG, which terminates the context. (R376) -/
  | watchdog (ctx detail : Nat)
  /-- A waiting sysc item is enqueued into SVCQ once the queue has room. (R387) -/
  | syscEnqueue (t g : Nat)
  /-- A tenant's 10 µs period ends, its USE counts reset and held activity resumes. (R346) -/
  | budgetPeriodEnd (tenant : Nat)
  /-- Every 1 µs the chamber dies exchange their budget usage counts. (R346) -/
  | budgetUseExchange
  /-- Each FCLK a trace buffer drains one event to the Echo hub. (R360) -/
  | echoBufferDrain (i : Nat)
  /-- The H0 hub writes an event to its sink in sink order and advances WR. (R359) -/
  | echoSinkWrite
  /-- A lossless stall beyond STALLMAX turns the tag lossy and logs TRACE_OVERFLOW. (R362) -/
  | losslessStallTimeout (t g : Nat)
  /-- Every 1 µs a nonzero saturation count is emitted as event 0x22. (R352) -/
  | saturationReport (die : Nat)
  /-- A relayed PTP message updates the time master. (R354) -/
  | ptpMessage (m : PtpMsg)
  /-- A 1PPS rising edge marks a TAI second for the time master. (R354) -/
  | ppsEdge (offset : Int)
  /-- A time-of-day line arrives on the ToD pin. (R354) -/
  | todLine (line : List (BitVec 8))
  /-- A source lost for 2 s moves LOCKED to HOLDOVER, and no source for 16 s moves the master to FREERUN. (R355) -/
  | timeSourceLost
  /-- Power-on reset runs the boot sequence of verification, training and computation. (R392) -/
  | powerOnReset (b : BootIn)
  /-- Phimus on H0 fails and the standby on H1 takes over, or the failure is package-fatal. (R390) -/
  | phimusFailure
  /-- A package-fatal error saves or terminates the contexts, writes the Druvia dump and holds the package in reset. (R390) -/
  | packageFatalError (cause die : Nat)
  /-- A chiplet link fails, its side links with it or not: traffic is rerouted, or the die is LOST and its contexts terminated. (R394) -/
  | chipletLinkFailure (die : Nat) (sides : Bool)
  /-- A packet waiting on a failed link returns with retry status and is resent on the escape channel. (R393) -/
  | packetRetryReturn (die unit slot n : Nat)
  /-- Retraining of a chiplet link ends, readmitting the die or leaving it out. (R394) -/
  | linkRetrainComplete (die : Nat) (ok : Bool)
  /-- With every context drained, firmware recomputes $core and $ncores, rewrites const slots and rebinds parked tasks. (R14) -/
  | packageRecompute
  /-- A write of OPPT.REQ starts a change of operating point. (R400) -/
  | opptReq (v : BitVec 2)
  /-- The operating point change completes, CUR changes and event 0x60 is emitted. (R400) -/
  | opptChangeComplete
  /-- A write of GATE.REQ gates or ungates chiplets. (R401) -/
  | gateReq (v : BitVec 14)
  /-- A chiplet's supply is off or it has retrained, and GCUR changes. (R401) -/
  | gateChangeComplete (die : Nat)
  /-- A write of SVC with DRAIN = 1 starts the drain of a die. (R402) -/
  | svcDrain (die : Nat)
  /-- A write of SVC with DRAIN = 0 readmits a drained die. (R402) -/
  | svcReadmit (die : Nat)
  /-- At the DMAX deadline every team still on the die is saved. (R402) -/
  | drainDeadline
  /-- A write to a management register with no row of its own, such as HBMSPLIT, QDIR, DUMPBASE, DUMPSZ or DMAX. (R404) -/
  | mgmtRegisterWrite (ofs v : Nat)
  /-- A firmware, microcode, siphon-rule or calibration image is verified and loaded during live service. (R403) -/
  | imageUpdate (i : ImageIn)
  /-- A host request with a nonce produces a signed attestation report, or EXHAUSTED. (R398) -/
  | attestationReport (nonce : BitVec 64)
  /-- A UALink peer transaction is served, or an unsupported request is refused. (R21) -/
  | ualinkPeerRequest (a : HostAcc)
  /-- An idle quantisation engine takes the next job of its QUANT queues and checks it. (R312) -/
  | quantJobTake (die : Nat)
  /-- The last write of a job is performed and the job signals by stamp or decrement. (R312) -/
  | quantJobComplete (die : Nat)
  /-- The operation that a stalled word started elsewhere completes, and the group resumes its clause at the next word. Such words are rmap, rcommit, tlbi, mig, bdg, wrsr of $seed, qenq, spawn, qnt, lqry and cnt. (R98) -/
  | stallOperationComplete (t g : Nat)
  /-- A host load, store or atomic arrives over the Casium Link at package memory, for example a launch record, a counter, or the RD word of a ring. (R399) -/
  | casiumLinkHostAccess (a : HostAcc)
  /-- Phimus creates a context, setting its system registers, seed and range registers, and numbering it 0 to 255. (R365) -/
  | contextCreate (c : CtxIn)
  /-- Phimus destroys a context, ending its counted monitors and returning it to STATE FREE. (R365) -/
  | contextDestroy (ctx : Nat)
  /-- A drained compute chiplet is reset for live service, and R394 then applies to its retraining. (R403) -/
  | chipletReset (die : Nat)
  /-- A cache slice writes a resident line back to HBM, choosing its compression tag or the zero encoding. (R228) -/
  | sliceLineWriteBack (ctx va : Nat)
deriving DecidableEq, Repr

end Sys2Proof
end

