-- ==== Sys2Proof/Machine/View.lean ====
section
/-! DEFINITION. The view of a word: its opcode and its fields as numbers, whatever its format (R100, R101, R115). The checks
at issue and the meanings read a word through its view. -/

namespace Sys2Proof

/-- The formats of R101. -/
inductive Fmt where
  | fr | fi | fm | fb | fx | fs
deriving DecidableEq, Repr

/-- The fields of a word as numbers (R100, R101). `func` is FUNC, or SEL in F-S; `imm` is IMM30, OFS23 or OFS37 with its
sign; `rsv` is the reserved field of F-S; a field that the format lacks is 0. -/
structure View where
  fmt : Fmt
  opc : Nat
  look : Nat
  hold : Nat
  u : Bool
  pred : Nat
  pneg : Bool
  dst : Nat
  a : Nat := 0
  b : Nat := 0
  c : Nat := 0
  func : Nat := 0
  imm : Int := 0
  rsv : Nat := 0
deriving DecidableEq, Repr

/-- The view of the common fields. -/
def Hdr.view (h : Hdr) (f : Fmt) (opc : Nat) : View :=
  { fmt := f, opc := opc, look := h.look.toNat, hold := h.hold.toNat, u := h.u, pred := h.pred.toNat, pneg := h.pneg,
    dst := h.dst.toNat }

def FR.view (w : FR) (f : Fmt) (opc : Nat) : View :=
  { w.h.view f opc with a := w.a.toNat, b := w.b.toNat, c := w.c.toNat, func := w.func.toNat }

def FI.view (w : FI) (opc : Nat) : View := { w.h.view .fi opc with a := w.a.toNat, imm := w.imm.toInt }

def FM.view (w : FM) (opc : Nat) : View :=
  { w.h.view .fm opc with a := w.a.toNat, b := w.b.toNat, imm := w.ofs.toInt }

def FB.view (w : FB) (opc : Nat) : View := { w.h.view .fb opc with imm := w.ofs.toInt }

def FS.view (w : FS) (opc : Nat) : View :=
  { w.h.view .fs opc with a := w.a.toNat, rsv := w.rsv.toNat, func := w.sel.toNat }

/-- The view of a word, with the opcode that R115 gives it; an event has none. -/
def Instr.view : Instr → Option View
  | .add w => some (w.view .fr 0x000)
  | .sub w => some (w.view .fr 0x001)
  | .addc w => some (w.view .fr 0x002)
  | .subb w => some (w.view .fr 0x003)
  | .mul w => some (w.view .fr 0x004)
  | .mulh w => some (w.view .fr 0x005)
  | .mad w => some (w.view .fr 0x006)
  | .neg w => some (w.view .fr 0x007)
  | .abs w => some (w.view .fr 0x008)
  | .min w => some (w.view .fr 0x009)
  | .max w => some (w.view .fr 0x00A)
  | .clamp w => some (w.view .fr 0x00B)
  | .div w => some (w.view .fr 0x00C)
  | .rem w => some (w.view .fr 0x00D)
  | .sad w => some (w.view .fr 0x00E)
  | .dot4 w => some (w.view .fr 0x00F)
  | .and w => some (w.view .fr 0x010)
  | .or w => some (w.view .fr 0x011)
  | .xor w => some (w.view .fr 0x012)
  | .not w => some (w.view .fr 0x013)
  | .andn w => some (w.view .fr 0x014)
  | .lgc3 w => some (w.view .fr 0x015)
  | .shl w => some (w.view .fr 0x016)
  | .shr w => some (w.view .fr 0x017)
  | .sar w => some (w.view .fr 0x018)
  | .rol w => some (w.view .fr 0x019)
  | .bfx w => some (w.view .fr 0x01A)
  | .bfi w => some (w.view .fr 0x01B)
  | .pop w => some (w.view .fr 0x01C)
  | .clz w => some (w.view .fr 0x01D)
  | .ctz w => some (w.view .fr 0x01E)
  | .brev w => some (w.view .fr 0x01F)
  | .cmp w => some (w.view .fr 0x020)
  | .sel w => some (w.view .fr 0x021)
  | .pset w => some (w.view .fr 0x022)
  | .lea w => some (w.view .fr 0x024)
  | .mov w => some (w.view .fr 0x025)
  | .movi w => some (w.view 0x026)
  | .movh w => some (w.view 0x027)
  | .fadd w => some (w.view .fr 0x040)
  | .fsub w => some (w.view .fr 0x041)
  | .fmul w => some (w.view .fr 0x042)
  | .fma w => some (w.view .fr 0x043)
  | .fmin w => some (w.view .fr 0x044)
  | .fmax w => some (w.view .fr 0x045)
  | .fcmp w => some (w.view .fr 0x046)
  | .frnd w => some (w.view .fr 0x047)
  | .frcp w => some (w.view .fr 0x048)
  | .frsq w => some (w.view .fr 0x049)
  | .fsqrt w => some (w.view .fr 0x04A)
  | .fex2 w => some (w.view .fr 0x04B)
  | .flg2 w => some (w.view .fr 0x04C)
  | .fsin w => some (w.view .fr 0x04D)
  | .fcos w => some (w.view .fr 0x04E)
  | .fdiv w => some (w.view .fr 0x04F)
  | .fscale w => some (w.view .fr 0x050)
  | .fclass w => some (w.view .fr 0x051)
  | .padd w => some (w.view .fr 0x052)
  | .pmul w => some (w.view .fr 0x053)
  | .pfma w => some (w.view .fr 0x054)
  | .pmin w => some (w.view .fr 0x055)
  | .pmax w => some (w.view .fr 0x056)
  | .lmul w => some (w.view .fr 0x060)
  | .ladd w => some (w.view .fr 0x061)
  | .lsub w => some (w.view .fr 0x062)
  | .lmax w => some (w.view .fr 0x063)
  | .cvt w => some (w.view .fr 0x080)
  | .pack w => some (w.view .fr 0x081)
  | .unpk w => some (w.view .fr 0x082)
  | .bmax w => some (w.view .fr 0x083)
  | .bscale w => some (w.view .fr 0x084)
  | .shf w => some (w.view .fr 0x0A0)
  | .vote w => some (w.view .fr 0x0A1)
  | .redx w => some (w.view .fr 0x0A2)
  | .bcst w => some (w.view .fr 0x0A3)
  | .scan w => some (w.view .fr 0x0A4)
  | .rdsr w => some (w.view 0x0C0)
  | .wrsr w => some (w.view 0x0C1)
  | .br w => some (w.view 0x100)
  | .jt w => some (w.view .fr 0x101)
  | .land w => some (w.view 0x102)
  | .call w => some (w.view 0x103)
  | .callt w => some (w.view .fr 0x104)
  | .ret w => some (w.view .fr 0x105)
  | .exit w => some (w.view 0x106)
  | .split w => some (w.view 0x107)
  | .join w => some (w.view .fr 0x108)
  | .phase w => some (w.view 0x109)
  | .succ w => some (w.view .fr 0x10A)
  | .trap w => some (w.view 0x10B)
  | .brk w => some (w.view 0x10C)
  | .nop w => some (w.view 0x10D)
  | .loop w => some (w.view 0x10E)
  | .sysc w => some (w.view 0x10F)
  | .ld w => some (w.view 0x140)
  | .st w => some (w.view 0x141)
  | .lds w => some (w.view 0x142)
  | .sts w => some (w.view 0x143)
  | .ldt w => some (w.view 0x144)
  | .uld w => some (w.view 0x145)
  | .pfx w => some (w.view 0x146)
  | .atom w => some (w.view .fr 0x147)
  | .red w => some (w.view .fr 0x148)
  | .cas w => some (w.view .fr 0x149)
  | .atomv w => some (w.view .fr 0x14A)
  | .redv w => some (w.view .fr 0x14B)
  | .fence w => some (w.view 0x14C)
  | .fencer w => some (w.view .fr 0x14D)
  | .marm w => some (w.view .fr 0x14E)
  | .marmCounted w => some (w.view .fr 0x14E)
  | .mwait w => some (w.view .fr 0x14F)
  | .wuc w => some (w.view .fr 0x150)
  | .zln w => some (w.view 0x151)
  | .lqry w => some (w.view 0x152)
  | .mma w => some (w.view .fx 0x180)
  | .mmx w => some (w.view .fx 0x181)
  | .mzero w => some (w.view .fx 0x182)
  | .mld w => some (w.view .fx 0x183)
  | .drain w => some (w.view .fx 0x184)
  | .mrel w => some (w.view .fx 0x185)
  | .mscl w => some (w.view .fx 0x186)
  | .mrd w => some (w.view .fr 0x187)
  | .cpy w => some (w.view .fr 0x1A0)
  | .cpyo w => some (w.view .fr 0x1A1)
  | .cpyr w => some (w.view .fr 0x1A2)
  | .cpym w => some (w.view .fr 0x1A3)
  | .cpys w => some (w.view .fr 0x1A4)
  | .cseal w => some (w.view 0x1A5)
  | .cwait w => some (w.view 0x1A6)
  | .tbind w => some (w.view .fr 0x1A7)
  | .tset w => some (w.view .fr 0x1A8)
  | .tget w => some (w.view .fr 0x1A9)
  | .twait w => some (w.view 0x1AA)
  | .trel w => some (w.view 0x1AB)
  | .bini w => some (w.view .fr 0x1B0)
  | .barv w => some (w.view 0x1B1)
  | .barw w => some (w.view 0x1B2)
  | .bexp w => some (w.view .fr 0x1B3)
  | .bdrop w => some (w.view 0x1B4)
  | .bget w => some (w.view .fr 0x1B5)
  | .qenq w => some (w.view .fr 0x1E0)
  | .qdeq w => some (w.view .fr 0x1E1)
  | .qtry w => some (w.view .fr 0x1E2)
  | .jdec w => some (w.view .fr 0x1E3)
  | .jset w => some (w.view .fr 0x1E4)
  | .spawn w => some (w.view .fr 0x1E5)
  | .qnt w => some (w.view .fr 0x1E6)
  | .rcinv w => some (w.view .fr 0x1E7)
  | .trc w => some (w.view .fr 0x1F0)
  | .trcm w => some (w.view .fr 0x1F1)
  | .cnt w => some (w.view 0x1F2)
  | .rmap w => some (w.view .fr 0x200)
  | .rcommit w => some (w.view 0x201)
  | .eret w => some (w.view 0x202)
  | .tlbi w => some (w.view .fr 0x203)
  | .mig w => some (w.view .fr 0x204)
  | .ctxld w => some (w.view .fr 0x205)
  | .bdg w => some (w.view .fr 0x206)
  | .clauseBoundary _ _ => none
  | .groupWaitRelease _ _ => none
  | .longLatencyArrival _ _ _ => none
  | .storeAcknowledged _ _ => none
  | .deferredAccessFault _ _ _ _ _ _ _ => none
  | .pageWalkComplete _ _ _ _ => none
  | .phaseSettleComplete _ => none
  | .taskSpillEnqueue _ => none
  | .succSettleComplete _ => none
  | .teamStartLoaded _ => none
  | .schedulingRound _ => none
  | .gangClusterClose _ _ => none
  | .taskQueueScan _ => none
  | .schedulerRestore _ _ => none
  | .launchDoorbell _ => none
  | .copyElementPerformed _ _ _ _ => none
  | .copyComplete _ => none
  | .copyElementFault _ _ _ _ _ => none
  | .mcastDestinationFailure _ _ => none
  | .reducingElementArrival _ _ _ _ => none
  | .replayFilterExpiry _ => none
  | .tileFillComplete _ _ => none
  | .tileDrainComplete _ _ => none
  | .matrixUpdateComplete _ _ => none
  | .matrixFetchFault _ => none
  | .lanternTimeout _ _ => none
  | .roostWake _ => none
  | .ctxcmdSave _ => none
  | .contextSaveWritten _ => none
  | .ctxcmdTerminate _ => none
  | .ctxcmdEngresume _ _ _ _ => none
  | .ctxcmdEngcancel _ _ _ _ => none
  | .contextRegisterWrite _ _ _ => none
  | .watchdog _ _ => none
  | .syscEnqueue _ _ => none
  | .budgetPeriodEnd _ => none
  | .budgetUseExchange => none
  | .echoBufferDrain _ => none
  | .echoSinkWrite => none
  | .losslessStallTimeout _ _ => none
  | .saturationReport _ => none
  | .ptpMessage _ => none
  | .ppsEdge _ => none
  | .todLine _ => none
  | .timeSourceLost => none
  | .powerOnReset _ => none
  | .phimusFailure => none
  | .packageFatalError _ _ => none
  | .chipletLinkFailure _ _ => none
  | .packetRetryReturn _ _ _ _ => none
  | .linkRetrainComplete _ _ => none
  | .packageRecompute => none
  | .opptReq _ => none
  | .opptChangeComplete => none
  | .gateReq _ => none
  | .gateChangeComplete _ => none
  | .svcDrain _ => none
  | .svcReadmit _ => none
  | .drainDeadline => none
  | .mgmtRegisterWrite _ _ => none
  | .imageUpdate _ => none
  | .attestationReport _ => none
  | .ualinkPeerRequest _ => none
  | .quantJobTake _ => none
  | .quantJobComplete _ => none
  | .stallOperationComplete _ _ => none
  | .casiumLinkHostAccess _ => none
  | .contextCreate _ => none
  | .contextDestroy _ => none
  | .chipletReset _ => none
  | .sliceLineWriteBack _ _ => none

end Sys2Proof
end

