-- ==== Sys2Proof/Machine/Shape.lean ====
section
/-! DEFINITION. The static checks of a word: what each operand field must hold (R102 to R106, R110, R113), stated through a
shape that every instruction's entry fixes. Reserved or unused fields are step 3 of R114, operand classes step 4. -/

namespace Sys2Proof

/-- How an entry uses an operand field. -/
inductive Src where
  /-- not used: must be zero (R102) -/
  | unused
  /-- a source of 32 bits; `uni` when the entry requires it to be uniform (R104) -/
  | w32 (uni : Bool)
  /-- a source of 64 bits, likewise -/
  | w64 (uni : Bool)
  /-- a plain number or a register name that is no source; the entry's own check reads it -/
  | plain
deriving DecidableEq, Repr

/-- How an entry uses DST (R102, R105). -/
inductive Dst where
  /-- produces no value: DST zero -/
  | none
  /-- a value, 64 bits wide or not (R105) -/
  | val (wide : Bool)
  /-- another use, which the entry's own check reads -/
  | raw
deriving DecidableEq, Repr

/-- Which U an entry admits. -/
inductive URule where
  | any | zero | one
deriving DecidableEq, Repr

/-- What an instruction's entry says of its word. `ok` is the entry's own encoding conditions (step 3 of R114), `cls` its own
operand-class conditions (step 4); `ba` and `bb` are the bits of A and B that the word reads where they are fewer than its
width (R127, R199). -/
structure Shape where
  a : Src := .unused
  b : Src := .unused
  c : Src := .unused
  dst : Dst := .none
  u : URule := .any
  pk0 : Bool := false
  long : Bool := false
  holdOk : Bool := true
  ok : Bool := true
  cls : Bool := true
  priv : Bool := false
  ba : Nat := 64
  bb : Nat := 64
deriving DecidableEq, Repr

/-- The entry reads the field as a source. -/
def Src.isSrc : Src → Bool
  | .w32 _ => true
  | .w64 _ => true
  | _ => false

/-- The field is a 64-bit source. -/
def Src.wide : Src → Bool
  | .w64 _ => true
  | _ => false

/-- The field must name a uniform operand. -/
def Src.needUni : Src → Bool
  | .w32 u => u
  | .w64 u => u
  | _ => false

/-- A per-thread operand code (R103). -/
def perThread (code : Nat) : Bool :=
  decide (code < 0x30) || (decide (0x50 ≤ code) && decide (code ≤ 0x52)) || decide (code = 0x54) || decide (code = 0x56)

/-- The word takes FUNC as an immediate (R104). -/
def View.usesImm (v : View) : Bool :=
  decide (v.fmt = .fr) && (decide (v.a = 0x57) || decide (v.b = 0x57) || decide (v.c = 0x57))

/-- FUNC as the instruction reads it: zero under 0x57 (R104). -/
def View.efunc (v : View) : Nat := if v.usesImm then 0 else v.func

/-- Encoding check of one operand field (R102, R104). -/
def srcEnc (f : Fmt) (s : Src) (code : Nat) : Bool :=
  match s with
  | .unused => decide (code = 0)
  | .plain => true
  | _ =>
    !(decide (0x58 ≤ code) && decide (code ≤ 0x5F)) &&
    !(decide (code = 0x57) && decide (f ≠ .fr)) &&
    !(s.wide && (decide (code = 0x0F) || (decide (0x10 ≤ code) && decide (code < 0x50) && decide (code % 2 = 1))))

/-- Encoding check of DST (R105). -/
def dstEnc (d : Dst) (u : Bool) (dst : Nat) : Bool :=
  match d with
  | .none => decide (dst = 0)
  | .raw => true
  | .val wide =>
    if dst = 0 then !u
    else if dst < 8 then !wide
    else if dst = 8 then true
    else if dst < 0x10 then false
    else if dst < 0x30 then !u && !(wide && dst % 2 == 1)
    else u && !(wide && dst % 2 == 1)

/-- Number of fields that hold 0x57. -/
def View.immCount (v : View) : Nat :=
  (if v.a = 0x57 then 1 else 0) + (if v.b = 0x57 then 1 else 0) + (if v.c = 0x57 then 1 else 0)

/-- Operand fields that a format lacks are no fields at all; F-B has none and F-S, F-I only A. -/
def View.fieldsEnc (v : View) (sh : Shape) : Bool :=
  srcEnc v.fmt sh.a v.a && srcEnc v.fmt sh.b v.b && srcEnc v.fmt sh.c v.c

/-- HOLD names only fields that the word reads (R113). -/
def View.holdEnc (v : View) (sh : Shape) : Bool :=
  if sh.holdOk then
    !(v.hold % 2 == 1 && !sh.a.isSrc) && !(2 ≤ v.hold && !sh.b.isSrc)
  else decide (v.hold = 0)

/-- Step 3 of R114: reserved and unused fields, LOOK, HOLD, DST, 0x57 and 64-bit pairing. -/
def View.encOk (v : View) (sh : Shape) : Bool :=
  v.fieldsEnc sh && (v.fmt ≠ .fr || v.immCount ≤ 1) && dstEnc sh.dst v.u v.dst &&
  (match sh.u with | .any => true | .zero => !v.u | .one => v.u) &&
  (!(v.u || sh.pk0) || (v.pred == 0 && !v.pneg)) &&
  (sh.long || v.look == 0) && v.holdEnc sh && v.rsv == 0 && sh.ok

/-- Operand class of one source field, NAMED apart (R104, R106). -/
def srcCls (u : Bool) (s : Src) (code : Nat) : Bool := !(s.isSrc && (u || s.needUni) && perThread code)

/-- Step 4 of R114, but for the check against NAMED. -/
def View.clsOk (v : View) (sh : Shape) : Bool :=
  srcCls v.u sh.a v.a && srcCls v.u sh.b v.b && srcCls v.u sh.c v.c && sh.cls

/-- Highest named register that a source field or a DST names, plus one; 0 for none. -/
def namedTop (lo hi : Nat) (wide : Bool) (code : Nat) : Nat :=
  if lo ≤ code ∧ code < hi then code - lo + (if wide then 2 else 1) else 0

/-- One more than the highest named register that the word names (R104). -/
def View.namedNeed (v : View) (sh : Shape) : Nat :=
  let f := fun (s : Src) code => if s.isSrc then namedTop 0x10 0x30 s.wide code else 0
  let d := match sh.dst with
    | .val w => namedTop 0x10 0x30 w v.dst
    | _ => 0
  max (max (f sh.a v.a) (f sh.b v.b)) (max (f sh.c v.c) d)

end Sys2Proof
end

