-- ==== Sys2Proof/Machine/Shapes.lean ====
section
/-! DEFINITION. The shape of every word: what its entry in the spec says of its fields (R128 to R170 and the entries of the
memory, matrix, asynchronous and privileged words). -/

namespace Sys2Proof

open Sys2Proof.Machine (cvtFmt fmtBits)

/-- A 32-bit source of any class. -/
def r32 : Src := .w32 false
/-- A 64-bit source of any class. -/
def r64 : Src := .w64 false
/-- A 32-bit source that must be uniform. -/
def u32 : Src := .w32 true
/-- A 64-bit source that must be uniform. -/
def u64 : Src := .w64 true

/-- Width in bits of an integer TY (R128). -/
def tyBits (ty : Nat) : Nat :=
  match ty with
  | 0 | 1 => 32
  | 2 | 3 => 64
  | 4 | 5 => 16
  | _ => 8

/-- Signedness of an integer TY (R128). -/
def tySigned (ty : Nat) : Bool := ty % 2 == 0

/-- Which TY an integer opcode admits (R130). -/
def intTyOk (opc ty : Nat) : Bool :=
  if opc = 0x002 ∨ opc = 0x003 ∨ opc = 0x00F then decide (ty < 2)
  else if (0x010 ≤ opc ∧ opc ≤ 0x015) ∨ opc = 0x021 then decide (ty = 0) || decide (ty = 2)
  else true

/-- Opcodes that admit SAT (R130). -/
def intSatOk (opc : Nat) : Bool :=
  [0x000, 0x001, 0x004, 0x006, 0x007, 0x008, 0x00E, 0x00F].contains opc

/-- FUNC bits below SAT that an integer opcode may set (R128). -/
def intFuncMask (opc : Nat) : Nat :=
  if opc = 0x020 then 0xE00 else if opc = 0x00F then 0xC00 else if opc = 0x015 then 0xFF else 0

/-- Sources that an integer opcode reads (R130). -/
def intArity (opc : Nat) : Nat :=
  if [0x002, 0x003, 0x006, 0x00B, 0x00E, 0x00F, 0x015, 0x01B, 0x021].contains opc then 3
  else if [0x007, 0x008, 0x013, 0x01C, 0x01D, 0x01E, 0x01F].contains opc then 1
  else 2

/-- B is read as 32 bits whatever TY is: shift counts, rotations, and the field specification of `bfx` (R130, R132). -/
def intB32 (opc : Nat) : Bool := decide (0x016 ≤ opc) && decide (opc ≤ 0x01A)
/-- C is read as 32 bits whatever TY is: carries, the specification of `bfi`, the choice of `sel` (R130, R132). -/
def intC32 (opc : Nat) : Bool := [0x002, 0x003, 0x01B, 0x021].contains opc

/-- Integer words 0x000 to 0x021 (R128 to R135). DEDUCED: `addc` and `subb` may discard their result through 0x08 (R105, R130; log entry 92). -/
def shInt (v : View) : Shape :=
  let f := v.efunc
  let ty := natBits f 13 3
  let wide := tyBits ty == 64
  let src : Src := if wide then r64 else r32
  let n := intArity v.opc
  { a := src
    b := if n < 2 then .unused else if intB32 v.opc then r32 else src
    c := if n < 3 then .unused else if intC32 v.opc then r32 else src
    dst := .val ((wide && v.opc != 0x020) || v.opc == 0x002 || v.opc == 0x003)
    long := v.opc == 0x00C || v.opc == 0x00D
    ba := tyBits ty
    bb := if intB32 v.opc then 32 else tyBits ty
    ok := intTyOk v.opc ty && (intSatOk v.opc || !natBit f 12) &&
      (natBits f 0 12 &&& intFuncMask v.opc) == natBits f 0 12 &&
      (v.opc != 0x020 || natBits f 9 3 < 6) }

/-- `pset` (R133): predicates are per thread, so U = 1 is an operand-class fault. -/
def shPset (v : View) : Shape := { dst := .val false, cls := !v.u, ok := natBits v.func 4 6 == 0 }

/-- `lea` (R134). DEDUCED: it may discard its result through 0x08 (R105; log entry 92). -/
def shLea (v : View) : Shape := { a := r64, b := r32, dst := .val true, ok := natBits v.efunc 4 12 == 0 }

/-- `mov` (R134). -/
def shMov (v : View) : Shape :=
  let wide := natBits v.efunc 13 3 == 2
  { a := if wide then r64 else r32, dst := .val wide, ok := v.efunc == 0 || v.efunc == 0x4000 }

/-- `movi` (R134). -/
def shMovi (_ : View) : Shape := { dst := .val false }

/-- `movh` (R134). -/
def shMovh (v : View) : Shape := { a := r32, dst := .val false, ok := decide (0 ≤ v.imm ∧ v.imm < 65536) }

/-- Sources of a float opcode (R137 to R140). -/
def floatArity (opc : Nat) : Nat :=
  if opc = 0x043 ∨ opc = 0x054 then 3
  else if (0x047 ≤ opc ∧ opc ≤ 0x04E) ∨ opc = 0x051 then 1
  else 2

/-- Float and packed words 0x040 to 0x056 (R136 to R141). -/
def shFloat (v : View) : Shape :=
  let f := v.efunc
  let ft := natBits f 14 2
  let packed := decide (0x052 ≤ v.opc)
  let n := floatArity v.opc
  let bits := if packed || ft == 0 then 32 else 16
  { a := r32
    b := if n < 2 then .unused else r32
    c := if n < 3 then .unused else r32
    dst := .val false
    ba := bits
    bb := if v.opc == 0x050 then 32 else bits
    long := (decide (0x048 ≤ v.opc) && decide (v.opc ≤ 0x04F))
    ok := (if packed then ft < 2 else ft < 3) && natBits f 11 3 < 4 &&
      (natBits f 11 3 == 0 || !([0x044, 0x045, 0x046, 0x051, 0x055, 0x056].contains v.opc)) &&
      (if v.opc == 0x046 then natBits f 4 4 < 8 else natBits f 4 4 == 0) &&
      !(natBit f 10 && v.opc == 0x051) &&
      !(natBit f 9 && (n < 2 || v.opc == 0x050)) &&
      !(natBit f 8 && n < 3) && natBits f 0 4 == 0 }

/-- `lmul` to `lmax` (R142). -/
def shLns (v : View) : Shape :=
  let bits := if natBit v.efunc 15 then 32 else 16
  { a := r32, b := r32, dst := .val false, ba := bits, bb := bits, ok := natBits v.efunc 0 15 == 0 }

/-- `cvt` (R143, R147). -/
def shCvt (v : View) : Shape :=
  let f := v.efunc
  { a := r32, dst := .val false, ba := fmtBits (natBits f 11 5),
    ok := cvtFmt (natBits f 11 5) && cvtFmt (natBits f 6 5) && natBits f 3 3 < 5 && natBits f 0 2 == 0 }

/-- `pack` and `unpk` (R144, R147). -/
def shPack (v : View) : Shape :=
  let f := v.efunc
  let ew := 4 * 2 ^ natBits f 14 2
  let isPack := v.opc == 0x081
  { a := r32, b := if isPack then r32 else .unused, dst := .val false, bb := ew,
    ok := natBits f 14 2 < 3 && natBits f 11 3 < 32 / ew && !(isPack && natBit f 10) && natBits f 0 10 == 0 }

/-- The block format of `bmax` and `bscale` (R147). -/
def blkDf (f : Nat) : Bool := decide (0x0A ≤ natBits f 11 5) && decide (natBits f 11 5 ≤ 0x0F)

/-- `bmax` (R145, R147). -/
def shBmax (v : View) : Shape :=
  let f := v.efunc
  { a := r32, dst := .val false, u := .zero,
    ok := blkDf f && (natBits f 9 2 == 1 || natBits f 9 2 == 2) && natBits f 0 8 == 0 }

/-- `bscale` (R146, R147). -/
def shBscale (v : View) : Shape :=
  let f := v.efunc
  { a := r32, b := r32, dst := .val false, ok := blkDf f && natBits f 8 3 < 5 && natBits f 0 7 == 0 }

/-- Lane words 0x0A0 to 0x0A4 (R148 to R153); the check of the segment against W is made in the machine. DEDUCED: `vote.ballot`
may discard its result through 0x08 (R105, R150; log entry 92). -/
def shLane (v : View) : Shape :=
  let f := v.efunc
  let base : Shape := { a := r32, dst := .val false, u := .zero, long := true }
  match v.opc with
  | 0x0A0 =>
    let wide := natBit f 10
    { base with a := if wide then r64 else r32, b := r32, dst := .val wide, ok := !natBit f 13 && natBits f 0 10 == 0 }
  | 0x0A1 => { base with dst := .val (natBits f 14 2 == 2), ok := !natBit f 13 && natBits f 0 11 == 0 }
  | 0x0A2 | 0x0A4 =>
    { base with
      ok := (natBits f 9 2 == 0 || (natBits f 9 2 == 1 && natBits f 13 3 < 3)) &&
        !(natBit f 8 && v.opc == 0x0A2) && natBits f 0 8 == 0 }
  | _ => { base with b := if natBit f 15 then .unused else u32, ok := natBits f 13 2 == 0 && natBits f 0 11 == 0 }

/-- Width in bits of a special register (R155, R366); 0 for a reserved selector. -/
def selWidth (sel : Nat) : Nat :=
  if sel ≤ 0x000F ∨ sel = 0x0012 then 32
  else if sel = 0x0010 ∨ sel = 0x0011 then 64
  else if 0x0100 ≤ sel ∧ sel ≤ 0x010D then 32
  else 0

/-- Selectors that `wrsr` may write (R157, R366). -/
def selWritable (sel : Nat) : Bool :=
  decide (sel = 0x000F) || (decide (0x0100 ≤ sel) && decide (sel ≤ 0x010D) && decide (sel ≠ 0x0101))

/-- `rdsr` (R156); CTXCMD cannot be read (R366). DEDUCED: a 64-bit register is not discarded, since R156 lists the destinations that it needs
(log entry 84). -/
def shRdsr (v : View) : Shape :=
  { dst := .val (selWidth v.func == 64)
    long := v.func == 0x0010 || v.func == 0x0011
    ok := selWidth v.func != 0 && v.func != 0x0102 && !(selWidth v.func == 64 && v.dst == 0x08)
    cls := !(v.u && (v.func == 0x0000 || v.func == 0x0008)) }

/-- `wrsr` (R157). -/
def shWrsr (v : View) : Shape :=
  { a := u32, u := .one, holdOk := false, priv := true, ok := selWritable v.func }

/-- Branches, calls and `split` (R162). -/
def shBranch (v : View) : Shape := { u := .zero, pk0 := v.opc == 0x107, holdOk := false }

/-- `jt` and `callt` (R162). -/
def shTable (v : View) : Shape :=
  { a := if v.opc == 0x101 then u32 else r32, u := .zero, pk0 := v.opc == 0x101, holdOk := false,
    ok := natBits v.efunc 8 8 == 0 }

/-- `land` (R162, R173). -/
def shLand (v : View) : Shape := { a := .plain, u := .zero, pk0 := true, holdOk := false, ok := v.a ≤ 32 }

/-- `ret` and `join` (R162). -/
def shRet (v : View) : Shape := { u := .zero, pk0 := true, holdOk := false, ok := v.func == 0 }

/-- `exit` (R162). -/
def shExit (v : View) : Shape := { u := .zero, holdOk := false, ok := v.func == 0 }

/-- `nop` (R162). -/
def shNop (v : View) : Shape := { pk0 := true, holdOk := false, ok := v.func == 0 }

/-- `loop` (R162). -/
def shLoop (v : View) : Shape :=
  { dst := .raw, u := .one, holdOk := false, ok := decide (0x30 ≤ v.dst) && decide (v.dst < 0x40) }

/-- `trap` and `brk` (R384). -/
def shTrap (_ : View) : Shape := { holdOk := false }

/-- The A codes of `sysc` and `eret`: s0, s8, s16 or s24 (R384). -/
def callA (a : Nat) : Bool := a == 0x30 || a == 0x38 || a == 0x40 || a == 0x48

/-- `sysc` (R384). -/
def shSysc (v : View) : Shape := { a := u32, u := .one, holdOk := false, ok := callA v.a }

/-- `eret` (R384). -/
def shEret (v : View) : Shape :=
  { a := u32, dst := .raw, u := .one, holdOk := false, priv := true,
    ok := callA v.a && v.func == 0 && (v.dst == 0x08 || (decide (0x30 ≤ v.dst) && decide (v.dst < 0x40))) }

/-- `ctxld` (R384). -/
def shCtxld (v : View) : Shape := { a := u32, u := .one, holdOk := false, priv := true, ok := v.efunc == 0 }

/-- DST of a word that loads: the queue or a named register (R236, R244, R245). -/
def loadDst (dst : Nat) : Bool := dst == 0 || decide (0x10 ≤ dst ∧ dst < 0x30)

/-- An ordering field OS that is not reserved (R233). -/
def osOk (os : Nat) : Bool := os ≤ 6 || decide (9 ≤ os ∧ os ≤ 14)

/-- `ld` and `lds` (R236, R251). -/
def shLoad (v : View) : Shape :=
  let ty := natBits v.b 4 3
  { a := if v.opc == 0x142 then r32 else r64, b := .plain, dst := .val (ty == 5), u := .zero, long := true,
    ok := ty < 6 && osOk (natBits v.b 0 4) && loadDst v.dst }

/-- `uld` (R236, R251). -/
def shUld (v : View) : Shape :=
  let ty := natBits v.b 4 2
  { a := u64, b := .plain, dst := .raw, u := .one, long := true,
    ok := ty < 2 && osOk (natBits v.b 0 4) && decide (0x30 ≤ v.dst ∧ v.dst < 0x40) && (ty == 0 || v.dst % 2 == 0) }

/-- `st` and `sts` (R239, R251). -/
def shStore (v : View) : Shape :=
  let sz := natBits v.dst 4 2
  { a := if v.opc == 0x143 then r32 else r64, b := if sz == 3 then r64 else r32, dst := .raw, u := .zero,
    bb := 8 * 2 ^ sz, ok := osOk (natBits v.dst 0 4) }

/-- `pfx` (R242). -/
def shPfx (v : View) : Shape :=
  { a := r64, b := .plain, u := .zero, ok := natBits v.b 5 2 < 2 && natBits v.b 0 5 == 0 }

/-- `zln` (R243). -/
def shZln (v : View) : Shape := { a := r64, b := .plain, u := .zero, ok := natBits v.b 5 2 == 0 }

/-- `lqry` (R244). -/
def shLqry (v : View) : Shape := { a := r64, dst := .val false, u := .zero, ok := loadDst v.dst }

/-- `ldt` (R206, R209). DESIGN CHOICE: an A that names a uniform operand which is no register gives its value (log entry 75). -/
def shLdt (v : View) : Shape :=
  { a := u64, b := .plain, dst := .raw, u := .zero, long := true, holdOk := false,
    ok := natBits v.b 0 6 == 0 && decide (0x10 ≤ v.dst ∧ v.dst < 0x30) }

/-- Width in bits of an atomic TY (R245). -/
def atomBits (ty : Nat) : Nat :=
  match ty with
  | 2 | 3 => 64
  | 5 | 6 => 16
  | _ => 32

/-- A named register whose index is a multiple of 4 (R245). -/
def named4 (code : Nat) : Bool := decide (0x10 ≤ code ∧ code < 0x30) && code % 4 == 0

/-- `atom`, `red`, `cas`, `atomv`, `redv` (R245, R250). -/
def shAtom (v : View) : Shape :=
  let f := v.efunc
  let wide := atomBits (natBits f 9 3) == 64
  let data : Src := if wide then r64 else r32
  let vec := v.opc == 0x14A || v.opc == 0x14B
  let ret := v.opc == 0x147 || v.opc == 0x149 || v.opc == 0x14A
  { a := if natBit f 3 then r32 else r64
    b := if vec then r32 else data
    c := if v.opc == 0x149 then data else .unused
    dst := if !ret then .none else if vec then .raw else .val wide
    u := .zero
    long := ret && v.dst != 8
    ok := natBits f 12 4 < 7 && natBits f 9 3 < 7 && natBits f 6 3 < 6 && natBits f 0 3 == 0 &&
      (v.opc != 0x149 || natBits f 12 4 == 0) && (ret || natBits f 4 2 % 2 == 0) &&
      (!vec || named4 v.b) &&
      (!ret || v.dst == 8 || (if vec then named4 v.dst else loadDst v.dst)) }

/-- A retire field: 0x53, an even uniform register, or a per-thread code, which is an operand-class fault (R183, R187). -/
def retireOk (c : Nat) : Bool := c == 0x53 || decide (0x30 ≤ c ∧ c < 0x50) || perThread c

/-- `mma` and `mmx` (R187). DESIGN CHOICE: A or B that names a uniform operand which is no register (zero, `$grpid`, a constant) gives its value
as the descriptor, while such a C other than 0x53 is ILLEGAL_ENCODING, since a retire field names a register pair (R183; log entry 75). -/
def shMma (v : View) : Shape :=
  { a := u32, b := u32, c := u64, dst := .raw, u := .zero,
    ok := v.dst < 8 && v.hold < 2 && retireOk v.c && natBits v.func 3 11 == 0 &&
      (if v.opc == 0x180 then natBits v.func 0 3 == 0 else !natBit v.func 14) }

/-- `mzero` (R189). -/
def shMzero (v : View) : Shape :=
  { c := u64, dst := .raw, u := .zero, holdOk := false, ok := v.dst < 8 && retireOk v.c && v.func == 0 }

/-- `mscl` (R190). -/
def shMscl (v : View) : Shape :=
  { a := u32, c := u64, dst := .raw, u := .zero, holdOk := false, ok := v.dst < 8 && retireOk v.c && v.func == 0 }

/-- `mld` and `drain` (R191). DESIGN CHOICE: with DM 10 an A that names a uniform operand which is no register is ILLEGAL_ENCODING, as an odd one is,
and with DM 00 it gives its value (log entry 75). -/
def shMld (v : View) : Shape :=
  let dm := natBits v.func 13 2
  { a := if dm == 2 then u64 else u32, b := u32, c := u64, dst := .raw, u := .zero, holdOk := false,
    ok := v.dst < 8 && retireOk v.c && dm < 3 && natBits v.func 5 8 == 0 && Sys2Proof.Machine.fmtOk (natBits v.func 0 5) &&
      !(natBit v.func 15 && v.opc == 0x183) &&
      !(dm == 2 && !(decide (0x30 ≤ v.a ∧ v.a < 0x50) || perThread v.a)) }

/-- `mrel` (R196). -/
def shMrel (v : View) : Shape := { u := .zero, holdOk := false, ok := v.func == 0 }

/-- `mrd` (R197). -/
def shMrd (v : View) : Shape :=
  let f := v.efunc
  let st := natBits f 14 2 == 1
  { a := if st then .unused else r32, dst := .val false, u := if st then .any else .zero, long := true,
    ok := natBits f 14 2 < 2 && natBits f 3 10 == 0 && (if st then natBits f 0 3 == 0 else !natBit f 13) }

/-- `rmap` and `mig` (R218). -/
def shRmap (v : View) : Shape :=
  { a := u32, b := u64, c := if v.opc == 0x200 then u32 else u64, u := .one, holdOk := false, priv := true, ok := v.efunc == 0 }

/-- `rcommit` (R218). -/
def shRcommit (v : View) : Shape := { a := u32, u := .one, holdOk := false, priv := true, ok := v.func == 0 }

/-- `tlbi` (R218). -/
def shTlbi (v : View) : Shape :=
  let f := v.efunc
  { a := u32, b := if natBits f 0 2 == 0 then u64 else .unused, u := .one, holdOk := false, priv := true,
    ok := natBits f 0 2 < 3 && natBits f 2 14 == 0 }

/-- SC and KIND of a fence (R264). -/
def fenceFunc (f : Nat) : Bool := natBits f 9 7 == 0 && natBits f 6 3 < 6 && natBits f 4 2 < 3 && natBits f 0 3 == 0

/-- `fence` (R264, R267). -/
def shFence (v : View) : Shape := { pk0 := true, holdOk := false, ok := fenceFunc v.func && !natBit v.func 3 }

/-- `fencer` (R264, R267). DESIGN CHOICE: A or B that names a uniform operand which is no register gives its value (log entry 75). -/
def shFencer (v : View) : Shape :=
  let f := v.efunc
  { a := if natBit f 3 then u32 else u64, b := u32, pk0 := true, holdOk := false, ok := fenceFunc f }

/-- A field that must name a uniform register; a per-thread code is an operand-class fault instead. -/
def regOk (c : Nat) : Bool := decide (0x30 ≤ c ∧ c < 0x50) || perThread c

/-- DST of a word that writes a uniform register or nothing (R288, R307, R331). -/
def uniDst (wide : Bool) (dst : Nat) : Bool := dst == 0x08 || (decide (0x30 ≤ dst ∧ dst < 0x40) && (!wide || dst % 2 == 0))

/-- `marm`, plain or counted (R331). -/
def shMarm (v : View) : Shape :=
  { a := u64, b := if v.b == 0x53 then .plain else u64, c := if v.b == 0x53 then .unused else u64, u := .one, holdOk := false,
    ok := v.efunc == 0 }

/-- `mwait` (R331). -/
def shMwait (v : View) : Shape := { u := .one, holdOk := false, ok := v.func == 0 }

/-- `wuc` (R331). -/
def shWuc (v : View) : Shape :=
  let f := v.efunc
  let wide := natBit f 12
  { a := u64, b := if wide then u64 else u32, dst := .raw, u := .one, holdOk := false,
    ok := natBits f 13 3 < 6 && !natBit f 9 && natBits f 6 3 < 6 && natBits f 0 6 == 0 && uniDst wide v.dst }

/-- `tbind` (R318). -/
def shTbind (v : View) : Shape := { a := u64, u := .one, holdOk := false, ok := natBits v.efunc 6 10 == 0 }
/-- `tset` (R318). -/
def shTset (v : View) : Shape :=
  { a := u32, b := u32, c := if natBit v.efunc 7 then u32 else .unused, u := .one, holdOk := false, ok := natBits v.efunc 8 8 == 0 }
/-- `tget` (R318). -/
def shTget (v : View) : Shape := { dst := .val true, holdOk := false, ok := natBits v.func 7 9 == 0 && v.dst != 8 }
/-- `twait` (R318). -/
def shTwait (v : View) : Shape :=
  { a := if natBits v.func 6 2 == 2 then u32 else .unused, u := .one, holdOk := false,
    ok := natBits v.func 6 2 != 3 && natBits v.func 8 8 == 0 }
/-- `trel` (R318). -/
def shTrel (v : View) : Shape := { u := .one, holdOk := false, ok := natBits v.func 7 9 == 0 }

/-- `bini` (R324). -/
def shBini (v : View) : Shape := { a := u32, b := u32, u := .one, holdOk := false, ok := natBits v.efunc 7 9 == 0 }
/-- `barv`, `barw` and `bdrop` (R324). -/
def shBar (v : View) : Shape := { u := .one, holdOk := false, ok := natBits v.func 6 10 == 0 }
/-- `bexp` (R324). -/
def shBexp (v : View) : Shape := { a := u32, u := .one, holdOk := false, ok := natBits v.efunc 6 10 == 0 }
/-- `bget` (R324). -/
def shBget (v : View) : Shape := { dst := .val true, holdOk := false, ok := natBits v.func 8 8 == 0 && v.dst != 8 }

/-- `rcinv` (R339). -/
def shRcinv (v : View) : Shape :=
  { a := if natBit v.efunc 0 then .unused else u64, u := .one, holdOk := false,
    ok := natBits v.efunc 1 15 == 0 && (natBit v.efunc 0 || regOk v.a) }

/-- `qenq` to `spawn`, and `qnt` (R288, R310). -/
def shQueue (v : View) : Shape :=
  let plain := v.opc == 0x1E3 || v.opc == 0x1E4
  { a := u64, b := u32, dst := if plain then .none else .raw, u := .one, long := v.opc == 0x1E1 || v.opc == 0x1E2,
    ok := v.efunc == 0 && regOk v.a && (plain || uniDst true v.dst) }

/-- The copy words (R295, R296). -/
def shCopy (v : View) : Shape :=
  let f := v.func
  let x := v.c - 0x30
  let big := v.opc == 0x1A2 || v.opc == 0x1A4
  { a := u64, b := u64, c := u32, u := .one, holdOk := false,
    ok := regOk v.a && regOk v.b && regOk v.c && (perThread v.c || x % (if big then 8 else 4) == 0) && !natBit f 0 &&
      (if v.opc == 0x1A2 then natBits f 4 3 < 6 && natBits f 1 3 < 7
       else natBits f 1 3 == 0 && natBits f 4 2 == 0 && (v.opc == 0x1A1 || !natBit f 6)) &&
      (v.opc != 0x1A3 || natBit f 15) &&
      (v.opc != 0x1A1 || (if natBit f 6 then !natBit f 15 else !natBit f 14)) }

/-- `cseal` (R307). -/
def shCseal (v : View) : Shape :=
  let j := natBit v.func 0
  { a := if j then u64 else .unused, dst := .raw, u := .one, holdOk := false,
    ok := natBits v.func 1 15 == 0 && (!j || regOk v.a) && uniDst false v.dst }

/-- `cwait` (R308). -/
def shCwait (v : View) : Shape := { u := .one, holdOk := false, ok := natBits v.func 9 7 == 0 }

/-- `phase` (R280). -/
def shPhase (v : View) : Shape := { u := .zero, pk0 := true, holdOk := false, ok := v.func == 0 }

/-- `succ` (R283). -/
def shSucc (v : View) : Shape :=
  { a := u64, b := u64, u := .zero, pk0 := true, holdOk := false, ok := v.efunc == 0 && regOk v.a && (v.b == 0x53 || regOk v.b) }

/-- `trc` and `trcm` (R364). -/
def shTrc (v : View) : Shape :=
  { a := if v.opc == 0x1F0 then u32 else r32, u := if v.opc == 0x1F0 then .one else .zero,
    ok := natBits v.efunc 8 8 == 0 && decide (0xC0 ≤ natBits v.efunc 0 8) }

/-- The counters that `cnt` reads (R344). -/
def cntSel (sel : Nat) : Bool :=
  let i := natBits sel 0 8
  natBits sel 8 4 == 0 &&
  (match natBits sel 12 4 with
   | 0 => i < 16
   | 1 | 3 | 8 | 11 => i < 2
   | 2 => i < 6
   | 4 => i == 0
   | 9 => i < 32 && i % 16 < 8
   | 10 => i < 32
   | _ => false)

/-- `cnt` (R343, R344). -/
def shCnt (v : View) : Shape := { dst := .val true, holdOk := false, ok := cntSel v.func && v.dst != 8 }

/-- `bdg` (R348, R349). -/
def shBdg (v : View) : Shape :=
  let f := v.efunc
  { a := u32, b := u32, u := .one, holdOk := false, priv := true,
    ok := regOk v.a && regOk v.b && natBits f 7 9 == 0 && natBits f 4 3 < 6 && natBits f 2 2 == 0 &&
      (natBits f 0 2 < 2 || natBits f 4 3 == 0) }

end Sys2Proof
end

