-- ==== Sys2Proof/Config.lean ====
section
/-! DEFINITION. The free values: what the spec leaves open, as opaque constants that no proof can evaluate. Each is applied
to the model's own counter `State.freeN`, so that every use is a fresh value (log entries 2, 5, 16, 20 and 21). -/

namespace Sys2Proof.Config

/-- Timebase ticks of 0.25 ns that pass in a step (R24, R355; log entry 2). -/
opaque timeTicks : Nat → Nat

/-- ACLK cycles that pass in a step (R155; log entry 2). -/
opaque clkTicks : Nat → Nat

/-- Whether a read is served from a stale line of the L1 where the rules allow it (R224, R268; log entry 5). -/
opaque staleLine : Nat → Bool

/-- Whether a translation is served from a stale entry of a TLB or page-walk cache where the rules allow it (R221; log entry 5). -/
opaque staleEntry : Nat → Bool

/-- Whether a read that no rule orders after a store still in flight finds the bytes from before it (R244, R340, R412; log entry 55). -/
opaque lateStore : Nat → Bool

/-- Which entry of a full L1, TLB, page-walk cache or slice makes room for another (R10, R221; log entry 56). -/
opaque victim : Nat → Nat → Nat

/-- What PC4 grows by when a word stalls on a reserved value: the cycles that the value takes to arrive (R342; log entry 20). -/
opaque perfValue : Nat → BitVec 64

/-- How far the timebase of a die stands from the time master's, in ticks above -8, modulo 17 (R355; log entry 2). -/
opaque skew : Nat → Nat → Nat

/-- Ticks for which a change of operating point pauses issue, modulo 20 µs (R400; log entry 2). -/
opaque pauseTicks : Nat → Nat

/-- Ticks that new scheduler firmware takes to load (R403; log entry 70). -/
opaque loadTicks : Nat → Nat

/-- The 8 bytes that a wait list holds for a group of a team, whose form no rule gives (R272; log entry 38). -/
opaque waitWord : Nat → Nat → BitVec 64

/-- The kernels that firmware holds loaded, by context number and descriptor VA, where no queue and no save area names them (R14; log
entry 28). -/
opaque loadedKernels : Nat → List (Nat × Nat)

/-- SHA-384 of an image: TYPE, VERSION, body length, body (R395; log entry 16). -/
opaque imageDigest : Nat → BitVec 32 → Nat → List (BitVec 8) → BitVec 384

/-- The ECDSA signature that the owner of the key with a fused hash makes over a digest (R395, R396; log entry 16). -/
opaque ecdsaOwn : BitVec 384 → BitVec 384 → List (BitVec 8)

/-- The same for an LMS signature. -/
opaque lmsOwn : BitVec 384 → BitVec 384 → List (BitVec 8)

/-- Whether any other ECDSA signature over a digest verifies under the key whose hash is fused (R395, R397; log entry 16). -/
opaque ecdsaOk : BitVec 384 → BitVec 384 → List (BitVec 8) → Bool

/-- The same for an LMS signature. -/
opaque lmsOk : BitVec 384 → BitVec 384 → List (BitVec 8) → Bool

/-- A byte of a digest or signature whose keys the spec does not give (R398; log entry 16). -/
opaque signByte : Nat → Nat → BitVec 8

/-- Whether the scheduler saves a team whose groups all wait on monitors, where R335 lets it (log entry 21). -/
opaque idleSave : Nat → Bool

end Sys2Proof.Config
end

