-- ==== Sys2Proof/Machine/State.lean ====
section
/-! DEFINITION. The state of the machine as plain data, all of it that the spec names (INVENTORY.md, ## State), the model's
own faults and refusals, and the state after reset. -/

namespace Sys2Proof.Machine

/-! ### Thread and group registers (R125, R159) -/

/-- The registers of one thread (R125). Bit i of `k` is predicate ki; bit 0 is not used, since k0 reads true. -/
structure Thread where
  q : Vector W32 16
  n : Vector W32 32
  k : BitVec 8
  sr : W32
  h : Vector W64 3
deriving DecidableEq, Repr

/-- Kinds of divergence-stack entry (R160). -/
inductive StkKind where
  | reconv | pending | call | target
deriving DecidableEq, Repr

/-- A divergence-stack entry (R160). -/
structure StkEnt where
  pc : W64
  mask : W64
  label : W16
  kind : StkKind
deriving DecidableEq, Repr

/-- A reservation of a long-latency word with its lookahead window (R109 to R112). `qi` is where the reserved queue entry
stands now, if it still stands; `vals` holds the value of each thread, or of each uniform register from `uni` on, and nothing while a `qdeq`
waits for its item (R289); `atom` marks a returning atomic (R247). -/
structure Resv where
  qi : Option Nat
  wide : Bool
  named : List Nat
  uni : Option Nat
  uniN : Nat
  mask : W64
  vals : List W64
  rem : Nat
  arrived : Bool
  load : Bool
  atom : Bool := false
deriving DecidableEq, Repr

/-- A fault of the spec as it is raised: code (R368), address, detail and lane mask (R367). -/
structure Exc where
  code : Nat
  addr : Nat := 0
  detail : Nat := 0
  lanes : W64 := 0#64
deriving DecidableEq, Repr

/-- What a group waits for (R93, R96, R97, R98, R362). -/
inductive GWait where
  /-- issuing, or at a boundary about to begin its steps -/
  | none
  /-- at step 4 of R97, waiting for the condition of the clause header -/
  | header
  /-- at step 5 of R97, waiting for the tiles that the clause names -/
  | tiles
  /-- in the wait of `cwait`: ALL and N of R308 -/
  | batch (all : Bool) (n : Nat)
  /-- in the wait of `barw` (R325) -/
  | barrier (b : Nat)
  /-- in the wait of `twait`: tile, COND, owner handle (R319) -/
  | tile (t : Nat) (cond : Nat) (own : W16)
  /-- in the wait of `mwait` on the group's monitor (R332) -/
  | monitor
  /-- in the wait of `wuc`: address, compare value, CC, TY, SC, ACQ, DST (R332) -/
  | wuc (va : Nat) (v : Nat) (cc ty sc : Nat) (acq : Bool) (dst : Nat)
  /-- in the wait of `qdeq`: header VA, LS offset, DST (R289) -/
  | qdeq (va : Nat) (ls dst : Nat)
  /-- arrived at `phase` (R280) -/
  | phase
  /-- arrived at `succ` with its two record VAs, 2^64 for no inheritance descriptor (R284) -/
  | succ (kdesc inherit : Nat)
  /-- waiting for its open service call to be enqueued and answered (R387) -/
  | sysc
  /-- stalled inside a clause by an operation that the word started elsewhere (R98) -/
  | stall
  /-- held by back-pressure at a word that has not issued, or with pieces of a copy still to be handed on (R98, R293) -/
  | room
  /-- stalled at translation by a commit of ranges or a migration (R219, R231) -/
  | frozen
  /-- in a lossless trace stall, since the tick given and for that many slots (R362) -/
  | trace (since slots : Nat)
  /-- at its boundary, held by a fault or a save until the image is written (R374, R380) -/
  | halted
deriving DecidableEq, Repr

/-- An open service call of a group: its epoch, the register index of its A, and whether it is answered (R383, R387). -/
structure OpenCall where
  epoch : W32
  a : Nat
  answered : Bool
deriving DecidableEq, Repr

/-- The item of an open call that waits for room in SVCQ (R387): its team and group, its context, and its 64 bytes. -/
structure PendCall where
  team : Nat
  grp : Nat
  ctx : Nat
  item : List Byte
deriving DecidableEq, Repr

/-- What a terminal word that waits leaves to be found when a group taken in its wait issues it again (R97): the ages of the hold latches,
the latches of each thread, and the reservations, as they stood before the word. -/
structure Prior where
  hage : Vector Nat 3
  h : List (Vector W64 3)
  resv : List Resv
deriving DecidableEq, Repr

/-- The record of `marm` on a group (R313, R332). -/
structure Monitor where
  va : W64
  pa : Nat
  fired : Bool
deriving DecidableEq, Repr

/-- The keep-A snapshot of one octet: image bytes and row-scale bytes (R182). -/
structure Snap where
  image : List Byte
  scales : List Byte
deriving DecidableEq, Repr

/-- A sealed batch that is not complete (R307): its number, its copies, and the counter of `.j`. -/
structure Batch where
  seq : W32
  ids : List Nat
  j : Option W64
deriving DecidableEq, Repr

/-- How an access in flight comes out where one before it is not performed (R235): a store writes its bytes, an addition adds, and a comparison
writes where it still holds. -/
inductive LateKind where
  | put
  | add
  | cas
deriving DecidableEq, Repr

/-- A store of a thread that is not acknowledged (R239), or such an atomic at a host or a peer: its thread, where it is one thread's, the
header's VA with its word's position, the VA and PA of its bytes, what they held before it, what it wrote, and whether its home is a host or a
peer. -/
structure Late where
  th : Option Nat
  pc : W64
  va : Nat
  pa : Nat
  old : List Byte
  new : List Byte
  kind : LateKind
  far : Bool
deriving DecidableEq, Repr

/-- An element that an atomic word has performed while others of it are held by a budget (R347): its thread and index, the old bytes, or the
event of R235 that it met. -/
structure AtomDone where
  th : Nat
  elem : Nat
  old : List Byte
  ev : Option Nat
deriving DecidableEq, Repr

/-- A group (R159, R383). `clause` holds the fetched header and words while a clause issues and `pos` the index in it of
the next word; `pos` is 0 at a boundary, where `clause` is empty or holds the clause that waits to begin. `stk` has its top entry first;
`wpc` and `wword` are the header and the position of the terminal word whose wait the group is in, and `prior` what stood before it (R97). `deferred` holds the faults
that wait for its next boundary, oldest first (R369); `late` holds those of its stores
that other units may still miss, oldest first, `part` the elements done of an atomic word that is held in the middle, and `wrote` the HBM lines that elements of its copies have written (R269). `tslots` counts the slots of its core's trace buffer that its
clause has reserved and not used (R360). -/
structure Group where
  idx : Nat
  pc : W64
  pos : Nat
  clause : List W64
  resw : Nat
  mask : W64
  live : W64
  stk : List StkEnt
  s : Vector W32 32
  threads : List Thread
  hage : Vector Nat 3
  resv : List Resv
  touched : List Nat
  land : Option (W16 × Bool)
  wait : GWait
  wpc : W64
  wword : Nat
  prior : Option Prior
  mstat : W32
  keep : Bool
  ktag : W32
  snaps : List Snap
  seq : W32
  outb : List Batch
  unsealed : List Nat
  pendingStores : Nat
  late : List Late
  wrote : List Nat
  part : List AtomDone
  monitor : Option Monitor
  csel : Nat
  call : Option OpenCall
  deferred : List (Exc × W64)
  traceDrop : Bool
  tslots : Nat
  slot : Nat
deriving DecidableEq, Repr

/-! ### Team tables (R314, R321) -/

/-- Tile states (R314). -/
inductive TileSt where
  | empty | filling | ready | draining
deriving DecidableEq, Repr

/-- A tile-table entry (R314). -/
structure Tile where
  owner : W16
  st : TileSt
  absent : Bool
  size : Nat
  base : Nat
  rcp : W64
deriving DecidableEq, Repr

/-- A tile entry with every field 0 (R314). -/
def Tile.reset : Tile := { owner := 0#16, st := .empty, absent := false, size := 0, base := 0, rcp := 0#64 }

/-- A barrier (R321) with its lantern clock (R327): the timebase ticks counted so far, if it runs. -/
structure Barrier where
  txb : W32
  memb : W16
  arrm : W16
  ph : Bool
  err : Bool
  autodrop : Bool
  tmo : W16
  clock : Option Nat
deriving DecidableEq, Repr

/-- Contracts (R34, R45). -/
inductive Contract where
  | mxi | lns | xf32 | ter | gen
deriving DecidableEq, Repr

/-- Core classes (R15, R45). -/
inductive Cls where
  | m | l | x | t
deriving DecidableEq, Repr

/-- The fields of a kernel descriptor (R34), as numbers. -/
structure KDesc where
  entry : W64
  contract : Contract
  width : Nat
  groups : Nat
  named : Nat
  acc : Nat
  barriers : Nat
  tiles : Nat
  scratch : Nat
  pair : Bool
  persist : Bool
  restart : Bool
  fusel1 : Bool
  gang : Nat
  carry : W64
  jtab : W64
  const : W64
deriving DecidableEq, Repr

/-- States of a team-slot entry that holds a team (R53); an entry in FREE holds none. -/
inductive Slot where
  | held | start | run | settle | spill | save
deriving DecidableEq, Repr

/-- What a team in SETTLE is settling for (R42, R54, R286). -/
inductive SettleFor where
  /-- not settling -/
  | none
  /-- for the end of a phase -/
  | phase
  /-- for a successor: the VAs of its kernel descriptor and of its inheritance descriptor, 2^64 for none -/
  | succ (kdesc inherit : Nat)
  /-- for its end: every group has exited -/
  | ended
deriving DecidableEq, Repr

/-- A carry set or inheritance mask (R278, R285), with barriers in an inheritance. -/
structure Maps where
  nmap : Nat
  smap : Nat
  tmap : Nat
  amap : Nat
  bmap : Nat
deriving DecidableEq, Repr

/-- The task that a team leaves behind when its spill is written (R280, R286, R287, R379): TK, CODE, PHASE, KDESC, CTR, BOUND,
and what is spilled. -/
structure Leave where
  tk : Nat
  code : W64
  phase : W32
  kva : W64
  ctr : Nat
  bound : Nat
  maps : Option Maps
deriving DecidableEq, Repr

/-- What is loaded while a slot is in START (R54): a new team, with its frame header if it is the first dispatch; a task with CODE and
PHASE whose spill is read back; an image of the save area at an offset, of a single-team save or not; or a successor in place. -/
inductive Load where
  | none
  | fresh (header : Bool)
  | task (code : W64) (phase : W32) (maps : Option Maps)
  | image (off : Nat) (single : Bool)
  | succ
deriving DecidableEq, Repr

/-- A retire decrement that follows a matrix word's updates (R183): its group, and the VA of its counter with the PA that the word
translated at issue. -/
structure Retire where
  grp : Nat
  va : W64
  pa : Nat
deriving DecidableEq, Repr

/-- A fill or drain in progress on a tile (R194, R317): the tile, on which core of the team, its retire decrement, and the group and the
word that started it. `paid` counts the units of a fill that its budget has admitted (R347), and `walked` holds the pages whose walks the fill has
asked for (R221). -/
structure TileJob where
  tile : Nat
  upper : Bool
  drain : Bool
  retire : Option Retire
  grp : Nat
  pc : W64
  paid : Nat
  walked : List Nat := []
deriving DecidableEq, Repr

/-- The conversion counts and the performance counters of a team slot of a core (R341). -/
structure SlotCount where
  satc : W64
  narc : W64
  perf : List W64
deriving DecidableEq, Repr

/-- The counts of a team slot at team start (R341). -/
def SlotCount.zero : SlotCount := { satc := 0#64, narc := 0#64, perf := List.replicate 16 0#64 }

/-- A team (R34 to R54, R175, R313). Index 0 of `tiles`, `ls`, `counts` stands for the lower or only core, index 1 for the upper core
of a pair team. `acc` holds, per group and octet, the tiles' element codes (R176); `mfetch` is a matrix fetch
fault that has been met and is still to be taken: its group, underlying fault and word (R186, R377). `last` is the group that
arrived last at `phase` or `succ` (R280); `stepTest` is STEP 01 of a save (R382). -/
structure Team where
  id : Nat
  ctx : Nat
  cls : Cls
  prio : Nat
  tenant : Nat
  bcls : Nat
  kva : W64
  kd : KDesc
  frame : W64
  team : Nat × Nat × Nat
  nteam : Nat × Nat × Nat
  launchId : W64
  args : W64
  done : W64
  tq : W64
  fstride : Nat
  launch : Nat
  phase : W32
  core : Nat
  slot : Slot
  settle : SettleFor
  leave : Option Leave
  load : Load
  stepTest : Bool
  last : Nat
  groups : List Group
  acc : List (List (List (List Nat)))
  tiles : List (List Tile)
  ls : List (List (Nat × Byte))
  barriers : List Barrier
  relaunch : Nat
  counts : List SlotCount
  jobs : List TileJob
  retires : List Retire
  mfetch : Option (Nat × Exc × W64)
  gang : List Nat
deriving DecidableEq, Repr

/-! ### Contexts (R216, R365, R366) -/

/-- STATE of a context (R366). -/
inductive CtxSt where
  | free | running | saved | terminated
deriving DecidableEq, Repr

/-- A range register as its four dwords (R216). -/
structure Range where
  d0 : W64
  d1 : W64
  d2 : W64
  d3 : W64
deriving DecidableEq, Repr

/-- An invalid range register (R211). -/
def Range.zero : Range := ⟨0#64, 0#64, 0#64, 0#64⟩

/-- Why a save is in progress (R381). -/
inductive Cause where
  | cmd | stop | sched
deriving DecidableEq, Repr

/-- A context: system registers (R366), range registers (R216), its call counter, any save in progress with the tick it began,
and the teams whose images stand in the save area, in order (R381). -/
structure Ctx where
  num : Nat
  st : CtxSt
  priv : Bool
  tenant : W16
  seed : W32
  dbg : W32
  ptroot : Nat
  savebase : Nat
  savesz : Nat
  fqhdr : Nat
  svcq : W64
  rstlim : Nat
  committed : List Range
  staged : List Range
  epoch : W32
  saving : Option Cause
  saveAt : Nat
  saveIds : List Nat
deriving DecidableEq, Repr

/-! ### Memory (R211, R212) -/

/-- Physical memory as cells: addresses strictly rising, no cell holding the byte 0 that an unlisted address reads as (log
entry 1). -/
abbrev Memory := List Host.Cell

/-- The canonical form of a memory. -/
def Memory.wf : Memory → Bool
  | [] => true
  | [c] => c.2 != 0#8
  | c :: d :: m => c.2 != 0#8 && decide (c.1 < d.1) && Memory.wf (d :: m)

/-- A line of an L1 with the bytes it holds, the context whose access filled it, the VA of the line in that access and the page size in
bits of the leaf that mapped it, 0 for a range (R211, R222, R224, R268). `fenced` holds the ranges, by context, base and length, over
which a `fencer` has acquired since the fill: the line does not serve an access that lies in one (R266, R268). -/
structure L1Line where
  home : Nat
  line : Nat
  va : Nat
  bits : Nat
  ctx : Nat
  bytes : List Byte
  fenced : List (Nat × Nat × Nat)
deriving DecidableEq, Repr

/-- The TLB of a core, by physical core identity, or of a cluster, by die and number (R221). -/
inductive TlbPlace where
  | core (c : Nat)
  | cluster (die n : Nat)
deriving DecidableEq, Repr

/-- A cached leaf translation (R221): its TLB, page base, page size in bits, PA, and the leaf's attribute bits. -/
structure TlbEntry where
  place : TlbPlace
  ctx : Nat
  va : Nat
  bits : Nat
  pa : Nat
  attr : Nat
deriving DecidableEq, Repr

/-- A table entry in the page-walk cache of a chamber die (R221): its level, the VA bits that select it, and its 64 bits. -/
structure PwcEntry where
  die : Nat
  ctx : Nat
  lvl : Nat
  key : Nat
  val : W64
deriving DecidableEq, Repr

/-- A walk outstanding in the miss table of a cluster (R221): die and cluster, context, the VA that missed, the cores that wait, and the teams
that wait on each (R342). -/
structure Miss where
  die : Nat
  cluster : Nat
  ctx : Nat
  va : Nat
  cores : List Nat
  teams : List (Nat × Nat) := []
deriving DecidableEq, Repr

/-- A commit of ranges or a migration in progress (R219, R230, R231): the context, the group whose word makes it, and for a migration the VA and
size of its page in bits with the new PA. `awaits` counts, by team and group, the stores that were not acknowledged when it began and still are
not. A `tlbi` that waits for accesses (R222) stands here too, though it stalls none: `inval` says whether it was for every context. -/
structure Freeze where
  ctx : Nat
  team : Nat
  grp : Nat
  page : Option (Nat × Nat × Nat)
  inval : Option Bool := none
  awaits : List (Nat × Nat × Nat) := []
deriving DecidableEq, Repr

/-- A line held in its home slice, uncompressed, with COMPRESS of the page by which an access last named it (R226 to R228). -/
structure SliceLine where
  line : Nat
  compress : Bool
deriving DecidableEq, Repr

/-- A line that HBM holds under a tag other than 0, with its stored image: the sectors that R228 writes. -/
structure TagLine where
  line : Nat
  tag : BitVec 4
  image : List Byte
deriving DecidableEq, Repr

/-! ### The roost and the shape-record caches (R329, R339) -/

/-- Kinds of roost entry (R329). -/
inductive RoostKind where
  | wait | cmp | count | qwait
deriving DecidableEq, Repr

/-- A roost entry in use (R329), with the team and group that it belongs to and, for COUNT, the PA of the watched word. `fired`
is a wake, or a counted monitor that has matched, which ROOST_WAKE delivers. -/
structure Roost where
  slice : Nat
  kind : RoostKind
  fired : Bool
  line : Nat
  ctx : Nat
  core : Nat
  gslot : Nat
  jcva : W64
  expv : W64
  word : Nat
  team : Nat
  grp : Nat
deriving DecidableEq, Repr

/-- A waiter of the overflow set of a slice (R330). -/
structure Ovf where
  slice : Nat
  team : Nat
  grp : Nat
  fired : Bool
deriving DecidableEq, Repr

/-- An entry of the shape-record cache of a core, the most recently used first (R339). -/
structure ShapeEnt where
  core : Nat
  ctx : Nat
  va : Nat
  bytes : List Byte
deriving DecidableEq, Repr

/-- A group registered in the wait list of a queue, in arrival order (R289): the PA of the header, the group, where the item
goes, the register that receives the item number, and the spans of memory in which the queue's WLIST area lies. -/
structure Waiter where
  hdr : Nat
  team : Nat
  grp : Nat
  ls : Nat
  dst : Nat
  area : List (Nat × Nat)
deriving DecidableEq, Repr

/-! ### Copies and quantisation jobs (R292 to R312) -/

/-- An endpoint of a copy: a VA, an LS offset of a team on a core, or a box of a shape record given by its 64 bytes (R295, R301). -/
inductive Endp where
  | va (a : Nat)
  | ls (team core off : Nat)
  | shape (bytes : List Byte)
deriving DecidableEq, Repr

/-- The copy words (R295). -/
inductive CopyOp where
  | cpy | cpyo | cpyr | cpym | cpys
deriving DecidableEq, Repr

/-- A copy that is not complete (R297). `units` counts its elements, or the blocks and bytes that it moves at once; `placed` is
the first unit not yet handed to an engine; `piece` counts the units of 64 KiB and `hub` says whether the engines of the chamber die
take it (R293); `cores` are the cores that a multicast still reaches, with their teams, `failed` and
`dropped` those lost, and `told` whether that has been logged (R305); `dteam` and `dhalf` are the destination team and its core, and `lost` holds the
destinations, by team and core of it, whose tile another fill has taken since (R315). -/
structure Copy where
  id : Nat
  ctx : Nat
  team : Nat
  grp : Nat
  core : Nat
  pc : W64
  op : CopyOp
  src : Endp
  dst : Endp
  conv : Option Nat
  n : Nat
  units : Nat
  placed : Nat
  piece : Nat
  hub : Bool
  bar : Option Nat
  tile : Option Nat
  dteam : Nat
  dhalf : Nat
  cores : List (Nat × Nat)
  failed : List Nat
  dropped : List Nat
  told : Bool
  rop : Nat
  rty : Nat
  opid : W64
  sva : W64
  sval : W64
  tenant : Nat
  bcls : Nat
  lost : List (Nat × Nat) := []
deriving DecidableEq, Repr

/-- A command in the queue of a copy engine with its progress record (R292, R299): a copy's units from `lo` to `hi`, P, the
units performed above P, and the fault that holds it. -/
structure Cmd where
  die : Nat
  unit : Nat
  slot : Nat
  copy : Nat
  lo : Nat
  hi : Nat
  p : Nat
  above : List Nat
  held : Option Exc
deriving DecidableEq, Repr

/-- An entry of a replay filter (R303): the site, the tuple, and the tick at which the element was applied. -/
structure Replay where
  site : Nat
  ctx : Nat
  opid : W64
  n : Nat
  tick : Nat
deriving DecidableEq, Repr

/-- Saturation and NaR counts of a siphon, copy engine or quantisation engine, by die and unit (R341, R351). -/
structure ConvCount where
  die : Nat
  unit : Nat
  sat : W64
  nar : W64
deriving DecidableEq, Repr

/-- A job that a quantisation engine has taken (R312): die, context, budget row, the 64 bytes of the item, a failure found
when it was checked, and the units performed. -/
structure QJob where
  die : Nat
  ctx : Nat
  tenant : Nat
  bcls : Nat
  bytes : List Byte
  bad : Option Exc
  next : Nat
deriving DecidableEq, Repr

/-! ### The scheduler (R51, R272, R275, R282) -/

/-- A launch that has been taken up: the PA of its queue header, or `none` for a LAUNCH task; the chamber die that serves it; the VA of
its record; the budget row
and priority; the next linear index to dispatch; and how many of its teams have not ended. -/
structure Launch where
  id : Nat
  ctx : Nat
  queue : Option Nat
  hub : Nat
  recVa : W64
  kva : W64
  kd : KDesc
  args : W64
  nx : Nat
  ny : Nat
  nz : Nat
  launchId : W64
  done : W64
  tq : W64
  frames : W64
  fstride : Nat
  prio : Nat
  tenant : Nat
  bcls : Nat
  next : Nat
  left : Nat
deriving DecidableEq, Repr

/-- What the end of a copy still owes to a team whose image is in a save area: a barrier that its abort completes, and a tile, by half and index,
with the state that it takes (R299, R305). -/
structure Posting where
  bar : Option Nat
  tile : Option (Nat × Nat × TileSt)
deriving DecidableEq, Repr

/-- What the scheduler remembers of a team from its first dispatch to its end, parked or saved: its number, frame, launch,
the core it left, its relaunch count (R282, R379), the set that its last `succ` inherited, if there was one, whether the start of
that successor is still pending (R54, R286), the teams of its gang (R38), and, while it is saved with held copies, the outstanding
batches and unsealed copies of its groups, and what copies that ended then owe it (R299, R380). -/
structure Ident where
  id : Nat
  ctx : Nat
  frame : W64
  launch : Nat
  core : Nat
  relaunch : Nat
  maps : Option Maps
  starting : Bool
  gang : List Nat
  outb : List (Nat × List Batch × List Nat)
  posts : List Posting := []
deriving DecidableEq, Repr

/-- Deficit of a tenant for a class on a chamber die (R282). -/
structure Deficit where
  die : Nat
  cls : Cls
  tenant : Nat
  val : Nat
deriving DecidableEq, Repr

/-- A gang that waits to start (R51): its number, its class, the die and cluster chosen for it, if one is, the launch, the first linear index,
the saved teams that it restores (R402), those reserved so far, the rounds it has waited since its first reservation, and whether its cluster is
closed. -/
structure Gang where
  id : Nat
  cls : Cls
  place : Option (Nat × Nat)
  launch : Nat
  first : Nat
  ids : List Nat
  teams : List Nat
  rounds : Nat
  closed : Bool
deriving DecidableEq, Repr

/-- A saved team image that is a candidate of arbitration (R388, R389): its context and its offset in the save area, 0 while the save is
still to be written; `single` for one of a single-team save, which began at tick `since`. `ready` is false until a write reaches one of
the `lines` on which its groups waited, or one homed at the `slices` in whose overflow sets they stood, or a commit wakes them (R330, R335). -/
structure Cand where
  ctx : Nat
  off : Nat
  id : Nat
  ready : Bool
  single : Bool
  since : Nat
  lines : List Nat
  slices : List Nat
deriving DecidableEq, Repr

/-! ### Budgets (R345, R346) -/

/-- A budget row: caps per activity, the usage on each chamber die, the usage of the other die as each last heard it, and the weight.
`pend` holds the writes of `bdg` that take effect at the next period: field, activity, value;
`told` records that a refusal of trace bytes has been logged in the period (R347), and `elapsed` the ticks that count of the tenant's period
(R346). -/
structure Row where
  tenant : Nat
  bcls : Nat
  soft : List Nat
  hard : List Nat
  use0 : List Nat
  use1 : List Nat
  heard0 : List Nat
  heard1 : List Nat
  wt : Nat
  pend : List (Nat × Nat × Nat)
  told : Bool
  elapsed : Nat
deriving DecidableEq, Repr

/-! ### Echo and time (R350 to R363) -/

/-- An Echo event (R350) with TS in ticks; `seq` counts the events of the die, of which SEQ is the low byte. -/
structure Ev where
  ts : Nat
  seq : Nat
  die : Nat
  unit : Nat
  code : Nat
  tag : Nat
  payload : W32
deriving DecidableEq, Repr

/-- An entry of the Echo filter table (R357); `resv` and `rest` hold the reserved bits, which keep what is written. -/
structure Filter where
  tag : Nat
  tenant : Nat
  sink : Nat
  stallmax : Nat
  lossless : Bool
  en : Bool
  cmask : BitVec 256
  resv : BitVec 26
  rest : List W64
deriving DecidableEq, Repr

/-- Kinds of trace buffer (R341, R360). -/
inductive BufKind where
  | core | system | engine
deriving DecidableEq, Repr

/-- A trace buffer that holds events, oldest first (R360). -/
structure Buf where
  die : Nat
  unit : Nat
  kind : BufKind
  evs : List Ev
deriving DecidableEq, Repr

/-- A trace drop count (R341, R361): of a core for a tag, or of an engine or other unit, under tag 0. -/
structure Drop where
  die : Nat
  unit : Nat
  tag : Nat
  count : W32
deriving DecidableEq, Repr

/-- States of the time master (R355). -/
inductive TimeSt where
  | freerun | acquiring | locked | holdover
deriving DecidableEq, Repr

/-- A foreign master that the time master has heard of (R354): its port, its data set, and the ticks of its last Announces, newest first. -/
structure PtpMaster where
  source : Nat
  rank : Nat
  heard : List Nat
deriving DecidableEq, Repr

/-- The time master (R354 to R356): state, good updates in a row, the tick of the last source data, the epoch, whether the
pins are selected, the PTP domain, and the seconds that a time-of-day line has announced with the tick at which it ended. Of PTP: the foreign
masters, the one that is chosen, its last Sync with the tick of its reception, the way that Sync took, and the path delay. -/
structure TimeMaster where
  st : TimeSt
  good : Nat
  heard : Option Nat
  epoch : Nat
  pins : Bool
  domain : Nat
  tod : Option (Nat × Nat)
  masters : List PtpMaster
  parent : Option Nat
  sync : Option (Nat × Int)
  ms : Option Int
  path : Option Int
deriving DecidableEq, Repr

/-! ### The package (R9 to R14, R390 to R404) -/

/-- A compute chiplet's link and service state (R394, R402, R403): rerouted; LOST; in reset; out of service since a
recomputation. -/
structure Die where
  num : Nat
  rerouted : Bool
  lost : Bool
  inReset : Bool
  out : Bool
deriving DecidableEq, Repr

/-- A die that is being drained or is drained (R402): the die, the tick at which the drain began, and DRAINED. -/
structure Drain where
  die : Nat
  since : Nat
  drained : Bool
deriving DecidableEq, Repr

/-- The management registers (R404) but HBMSPLIT, as their fields; `opptNext` is a request held while a change is in
progress, `pauseTill` the tick until which that change pauses issue (R400); `svcDrain` and `svcDie` hold DRAIN and DIE as written, and
`drains` the dies whose drain has been asked for and not ended. -/
structure Mgmt where
  diefuse : BitVec 14
  diepres : BitVec 14
  busy : Bool
  cur : BitVec 2
  req : BitVec 2
  opptNext : Option (BitVec 2)
  gcur : BitVec 14
  greq : BitVec 14
  qdir : Nat
  dumpbase : Nat
  dumpsz : Nat
  dmax : W32
  pauseTill : Nat
  svcDrain : Bool
  svcDie : BitVec 4
  drains : List Drain
deriving DecidableEq, Repr

/-- An image that is loaded (R395, R397): TYPE, die, VERSION, body length, body. -/
structure Image where
  typ : Nat
  die : Nat
  version : W32
  len : Nat
  body : List Byte
deriving DecidableEq, Repr

/-- An attestation report (R398): the nonce, DIEPRES, DIEFUSE, the loaded images with their digests, the dies that signed a record, and the
signatures as free bytes (log entry 16). -/
structure Report where
  nonce : W64
  diepres : BitVec 14
  diefuse : BitVec 14
  images : List Image
  digests : List (BitVec 384)
  signers : List Nat
  sig : List Byte
deriving DecidableEq, Repr

/-- The hashes of the keys that verify images, fused in a chamber die (R396). -/
structure KeyHash where
  die : Nat
  ecdsa : BitVec 384
  lms : BitVec 384
deriving DecidableEq, Repr

/-- Phimus and its keys (R390, R392, R396 to R398, R403): where it runs, whether a standby remains, whether the package is held in reset,
the fused key hashes, the loaded images, the chamber dies that load scheduler firmware with the tick at which each runs it, the rollback
counters by TYPE, the identity leaves and the leaves of its boot-time key that each die has used, and the
last report, or its refusal with status EXHAUSTED; and the cause and reporting die of a package-fatal error whose dump is still to be
written, with the contexts that it saves (R390). -/
structure Phimus where
  host : Nat
  standby : Bool
  held : Bool
  keys : List KeyHash
  images : List Image
  loading : List (Nat × Nat)
  rollback : List (Nat × Nat)
  leaves : List (Nat × Nat)
  reports : List (Nat × Nat)
  exhausted : Bool
  report : Option Report
  fatal : Option (Nat × Nat × List Nat)
deriving DecidableEq, Repr

/-- What a link last answered outside (R21): over UALink or not, whether the request is supported, and the bytes read. -/
structure Reply where
  peer : Bool
  ok : Bool
  bytes : List Byte
deriving DecidableEq, Repr

/-- A poison, ECC or link log entry of the dump (R391). -/
structure LogEnt where
  pa : Nat
  die : Nat
  unit : Nat
  code : Nat
deriving DecidableEq, Repr

/-! ### The model's own stops -/

/-- Stops of the model itself; a fault of the spec is a next state (R369). -/
inductive Fault where
  /-- Raised by every meaning of an instruction word when no group is issuing: there is nobody to execute the word. Safe:
  the hardware has no such state to go on from. -/
  | noGroup
  /-- Raised by `step` while Phimus holds the package in reset (R390). Safe: nothing runs until firmware restarts it. -/
  | heldInReset
deriving DecidableEq, Repr

/-- Refusals. -/
inductive Refusal where
  /-- Raised by an arm of exec whose instruction has no meaning in the model yet. Safe: nothing can be proved of it. -/
  | notModelled (mnemonic : String)
deriving DecidableEq, Repr

/-! ### The machine -/

/-- The copy engines, siphons and quantisation engines (R292, R341). -/
structure Engines where
  copies : List Copy
  cmds : List Cmd
  replay : List Replay
  counts : List ConvCount
  qjobs : List QJob
deriving DecidableEq, Repr

/-- The schedulers and the budget tables (R272, R345): `granted` is the tenant last granted per die and class,
and `ready` the PAs of the gating counters that a notice or a scan has found at zero (R281). `qdef` and `qlast` hold the deficits, by die and
tenant, and the tenant last served, by die, of the quantisation engines (R312); `tails` the tail lines that the roost watches, by header PA, each
with whether TAIL has been written since its last doorbell (R329, R399), and `exchAt` the tick at which the dies last exchanged usage (R346). -/
structure Sched where
  launches : List Launch
  idents : List Ident
  deficits : List Deficit
  granted : List (Nat × Cls × Nat)
  gangs : List Gang
  cands : List Cand
  ready : List Nat
  rows : List Row
  qdef : List (Nat × Nat × Nat)
  qlast : List (Nat × Nat)
  tails : List (Nat × Bool)
  exchAt : Nat
deriving DecidableEq, Repr

/-- The Echo fabric and the time master (R341, R355): filter table, sink header PAs by number, buffers, the events that the hubs of H0 and H1 hold, drop
counts, events emitted per die, and saturation counts as last reported. -/
structure EchoSt where
  filters : List Filter
  sinks : List (Nat × Nat)
  bufs : List Buf
  hub0 : List Ev
  hub1 : List Ev
  drops : List Drop
  seqs : List (Nat × Nat)
  reported : List (Nat × Nat)
  time : TimeMaster
deriving DecidableEq, Repr

/-- The dies, the management registers, Phimus, and the logs of the dump (R391 to R404). `numbered` is the set of dies
counted when `$core` was last assigned (R13), `sides` the dies whose side link to the next die of their ring is down (R20). -/
structure Package where
  dies : List Die
  sides : List Nat
  numbered : BitVec 14
  hbmsplit : Nat
  mgmt : Mgmt
  phimus : Phimus
  logs : List LogEnt
deriving DecidableEq, Repr

/-- The state of the machine. The fields hold what INVENTORY.md lists under State. -/
structure State where
  /-- the group that is issuing: team id and group index -/
  cur : Option (Nat × Nat)
  /-- the group that issued last, for the default order (log entry 3) -/
  last : Nat × Nat
  /-- steps that the default order has chosen so far (log entry 3) -/
  turn : Nat
  /-- events to come, chosen from outside (log entry 3) -/
  agenda : List Instr
  /-- commands that CTXCMD has accepted and whose effect follows (R366) -/
  cmds : List Instr
  /-- counter of free values (log entry 2) -/
  freeN : Nat
  nextId : Nat
  /-- ACLK cycles of the cores of each die since the die's reset (R24, R155) -/
  clks : List W64
  /-- the time master's timebase -/
  ptp : Nat
  /-- the timebase of each die (R341, R355) -/
  ptps : List Nat
  teams : List Team
  ctxs : List Ctx
  mem : Memory
  l1 : List L1Line
  tlb : List TlbEntry
  pwc : List PwcEntry
  misses : List Miss
  poison : List Nat
  ecc : List Nat
  tags : List TagLine
  resident : List SliceLine
  fused : List (Nat × Nat)
  roost : List Roost
  ovf : List Ovf
  shapes : List ShapeEnt
  waiters : List Waiter
  calls : List PendCall
  freezes : List Freeze
  reply : Option Reply
  eng : Engines
  sch : Sched
  echo : EchoSt
  pkg : Package
deriving DecidableEq, Repr

/-! ### Reset (R392, log entries 1, 2, 8) -/

/-- Context 0 as boot creates it: a firmware context that runs (R365, R392). -/
def Ctx.zero : Ctx :=
  { num := 0, st := .running, priv := true, tenant := 0#16, seed := 0#32, dbg := 0#32, ptroot := 0, savebase := 0, savesz := 0,
    fqhdr := 0, svcq := 0#64, rstlim := 3, committed := List.replicate 32 Range.zero, staged := List.replicate 32 Range.zero,
    epoch := 0#32, saving := none, saveAt := 0, saveIds := [] }

/-- A compute chiplet in order. -/
def Die.fresh (d : Nat) : Die := { num := d, rerouted := false, lost := false, inReset := false, out := false }

/-- The dies that an image of a TYPE is loaded on (R392, R395): Phimus and the scheduler on the chamber dies, microcode and
siphon rules on the compute chiplets, calibration on every die. -/
def imageDies (typ : Nat) : List Nat :=
  if typ < 2 then [0, 1] else if typ < 4 then (List.range 12).map (· + 2) else List.range 14

/-- The management registers after boot of a package with the given fused and present dies (R404). -/
def Mgmt.boot (fuse pres : BitVec 14) : Mgmt :=
  { diefuse := fuse, diepres := pres, busy := false, cur := 0#2, req := 0#2, opptNext := none, gcur := 0#14, greq := 0#14,
    qdir := 0, dumpbase := 0, dumpsz := 0, dmax := 0x0FA0#32, pauseTill := 0, svcDrain := false, svcDie := 0#4, drains := [] }

/-- Phimus after boot: one identity leaf of each present die has certified its boot-time key (R398). -/
def Phimus.boot (pres : BitVec 14) (host : Nat) (standby : Bool) (keys : List KeyHash) (rollback leaves : List (Nat × Nat))
    (images : List Image) : Phimus :=
  { host := host, standby := standby, held := false, keys := keys, images := images, loading := [], rollback := rollback,
    leaves := ((List.range 14).filter fun d => pres.getLsbD d).map fun d =>
      (d, ((leaves.find? fun p => p.1 == d).map Prod.snd).getD 0 + 1),
    reports := [], exhausted := false, report := none, fatal := none }

/-- The images that the boot before State.reset has loaded, at VERSION 0 and without a body (log entry 8). -/
def bootImages (pres : BitVec 14) : List Image :=
  (List.range 5).flatMap fun t => ((imageDies t).filter fun d => pres.getLsbD d).map fun d =>
    { typ := t, die := d, version := 0#32, len := 0, body := [] }

/-- The key hashes fused in the chamber dies, which no rule gives (log entry 8). -/
def fusedKeys : List KeyHash := [⟨0, 0#384, 0#384⟩, ⟨1, 0#384, 0#384⟩]

/-- The machine right after the boot that follows power-on reset (R392): a TZ-48A with every die present, context 0, nothing
launched, memory with nothing listed. -/
def State.reset : State :=
  { cur := none, last := (0, 0), turn := 0, agenda := [], cmds := [], freeN := 0, nextId := 0,
    clks := List.replicate 14 0#64, ptp := 0, ptps := List.replicate 14 0, teams := [],
    ctxs := [Ctx.zero], mem := [], l1 := [], tlb := [], pwc := [], misses := [], poison := [], ecc := [], tags := [],
    resident := [], fused := [], roost := [], ovf := [], shapes := [], waiters := [], calls := [], freezes := [], reply := none,
    eng := { copies := [], cmds := [], replay := [], counts := [], qjobs := [] },
    sch := { launches := [], idents := [], deficits := [], granted := [], gangs := [], cands := [], ready := [], rows := [], qdef := [], qlast := [],
             tails := [], exchAt := 0 },
    echo := { filters := [], sinks := [], bufs := [], hub0 := [], hub1 := [], drops := [], seqs := [], reported := [],
              time := { st := .freerun, good := 0, heard := none, epoch := 0, pins := false, domain := 0, tod := none,
                        masters := [], parent := none, sync := none, ms := none, path := none } },
    pkg := { dies := (List.range 12).map fun d => Die.fresh (d + 2), sides := [], numbered := 0x3FFF#14, hbmsplit := 0,
             mgmt := Mgmt.boot 0#14 0x3FFF#14,
             phimus := Phimus.boot 0x3FFF#14 0 true fusedKeys [] [] (bootImages 0x3FFF#14), logs := [] } }

end Sys2Proof.Machine
end

