-- ==== Sys2Proof/Machine/Memory.lean ====
section
/-! DEFINITION. Memory as cells: reading and writing bytes in the canonical form, little-endian words (R56, R237), and the
physical regions and homes (R212, R223). -/

namespace Sys2Proof.Machine

/-- The byte at an address; an unlisted address reads 0 (log entry 1). -/
def Memory.get : Memory → Nat → Byte
  | [], _ => 0#8
  | c :: m, a => if c.1 = a then c.2 else if a < c.1 then 0#8 else Memory.get m a

/-- Writes a byte and keeps the canonical form: the value 0 removes the cell. -/
def Memory.set : Memory → Nat → Byte → Memory
  | [], a, b => if b = 0#8 then [] else [(a, b)]
  | c :: m, a, b =>
    if c.1 = a then (if b = 0#8 then m else (a, b) :: m)
    else if a < c.1 then (if b = 0#8 then c :: m else (a, b) :: c :: m)
    else c :: Memory.set m a b

/-- Reads n bytes from a. -/
def Memory.bytes (m : Memory) (a n : Nat) : List Byte := (List.range n).map fun i => m.get (a + i)

/-- Writes a list of bytes from a on. -/
def Memory.write : Memory → Nat → List Byte → Memory
  | m, _, [] => m
  | m, a, b :: bs => Memory.write (m.set a b) (a + 1) bs

/-- The number of a little-endian byte string. -/
def leNat : List Byte → Nat
  | [] => 0
  | b :: bs => b.toNat + 256 * leNat bs

/-- The n low bytes of a number, little-endian. -/
def leBytes : Nat → Nat → List Byte
  | 0, _ => []
  | n + 1, x => BitVec.ofNat 8 x :: leBytes n (x / 256)

/-- Reads an n-byte little-endian number. -/
def Memory.rd (m : Memory) (a n : Nat) : Nat := leNat (m.bytes a n)

/-- Writes an n-byte little-endian number. -/
def Memory.wr (m : Memory) (a n x : Nat) : Memory := m.write a (leBytes n x)

/-! ### Regions and homes (R212, R223) -/

/-- The regions of the physical space (R212). -/
inductive Region where
  | pkg | hub0 | hub1 | peer | host | reserved
deriving DecidableEq, Repr

/-- Region of a physical address with hub pools of L GiB (R212). -/
def regionOf (l pa : Nat) : Region :=
  if pa < (512 - 2 * l) * 2 ^ 30 then .pkg
  else if 2 ^ 40 ≤ pa ∧ pa < 2 ^ 40 + l * 2 ^ 30 then .hub0
  else if 2 ^ 41 ≤ pa ∧ pa < 2 ^ 41 + l * 2 ^ 30 then .hub1
  else if 2 ^ 50 ≤ pa ∧ pa < 2 ^ 51 then .peer
  else if 2 ^ 51 ≤ pa ∧ pa < 2 ^ 52 then .host
  else .reserved

/-- An HBM pool (R212). -/
def Region.hbm : Region → Bool
  | .pkg => true
  | .hub0 => true
  | .hub1 => true
  | _ => false

/-- The home of an HBM physical address (R223): its stack, the offset in it, and its slice, 0 to 191. -/
structure Home where
  stack : Nat
  offset : Nat
  slice : Nat
deriving DecidableEq, Repr

/-- Slice of interleaving quotient q on hub h (R223). -/
def hubSlice (h q : Nat) : Nat := 96 * h + (Nat.xor (Nat.xor q (q / 128)) (q / 16384)) % 96

/-- Home in the hub pool of hub h, which starts at a PA and, in each of its stacks, at (64 - L/4) GiB (R223). -/
def hubHome (l h start pa : Nat) : Home :=
  let n := (pa - start) / 4096
  { stack := 4 * h + (Nat.xor (Nat.xor n (n / 4)) (Nat.xor (n / 16) (n / 64))) % 4
    offset := (64 - l / 4) * 2 ^ 30 + n / 4 * 4096 + pa % 4096
    slice := hubSlice h (n / 4) }

/-- Home(pa) of R223 with hub pools of L GiB. -/
def homeOf (l pa : Nat) : Home :=
  match regionOf l pa with
  | .hub0 => hubHome l 0 (2 ^ 40) pa
  | .hub1 => hubHome l 1 (2 ^ 41) pa
  | _ =>
    let n := pa / 4096
    let stack := (Nat.xor (Nat.xor n (n / 8)) (Nat.xor (n / 64) (n / 512))) % 8
    { stack := stack, offset := n / 8 * 4096 + pa % 4096, slice := hubSlice (stack / 4) (n / 8) }

/-- Home slice of an HBM physical address. -/
def homeSlice (l pa : Nat) : Nat := (homeOf l pa).slice

/-! ### Compression tags (R228) -/

/-- The k-th little-endian element of w bytes of a line. -/
def lineElem (bs : List Byte) (w k : Nat) : Nat := leNat ((bs.drop (w * k)).take w)

/-- Every element minus the base fits a signed d-byte delta (R228). -/
def deltaFits (bs : List Byte) (w d : Nat) : Bool :=
  (List.range (128 / w)).all fun k =>
    let x := (lineElem bs w k + 2 ^ (8 * w) - lineElem bs w 0) % 2 ^ (8 * w)
    decide (x < 2 ^ (8 * d - 1)) || decide (2 ^ (8 * w) - 2 ^ (8 * d - 1) ≤ x)

/-- Tag and sector count that R228 chooses for the 128 bytes of a line. -/
def lineTag (bs : List Byte) : Nat × Nat :=
  if bs.all (· = 0#8) then (1, 0)
  else if (List.range 32).all fun k => lineElem bs 4 k = lineElem bs 4 0 then (2, 1)
  else if (List.range 16).all fun k => lineElem bs 8 k = lineElem bs 8 0 then (3, 1)
  else if deltaFits bs 8 1 then (4, 1)
  else if deltaFits bs 8 2 then (5, 2)
  else if deltaFits bs 4 1 then (6, 2)
  else if deltaFits bs 4 2 then (7, 3)
  else (0, 4)

/-- The base of w bytes and d-byte deltas of a line (R228). -/
def deltaImage (bs : List Byte) (w d : Nat) : List Byte :=
  bs.take w ++ (List.range (128 / w)).flatMap fun k => leBytes d (lineElem bs w k + 2 ^ (8 * w) - lineElem bs w 0)

/-- The image that R228 stores of a line under a tag, with the unused bytes of its sectors zero. -/
def storedImage (bs : List Byte) (tag : Nat) : List Byte :=
  match tag with
  | 0 => bs
  | 1 => []
  | 2 => sector 1 (bs.take 4)
  | 3 => sector 1 (bs.take 8)
  | 4 => sector 1 (deltaImage bs 8 1)
  | 5 => sector 2 (deltaImage bs 8 2)
  | 6 => sector 2 (deltaImage bs 4 1)
  | _ => sector 3 (deltaImage bs 4 2)
where
  /-- Bytes padded with zeros to n sectors of 32 bytes. -/
  sector (n : Nat) (xs : List Byte) : List Byte := xs ++ List.replicate (32 * n - xs.length) 0#8

/-- Element k of a base and signed d-byte deltas, modulo 2^(8w) (R228). -/
def deltaElem (im : List Byte) (w d k : Nat) : Nat :=
  let x := leNat ((im.drop (w + d * k)).take d)
  (leNat (im.take w) + (if x < 2 ^ (8 * d - 1) then x else x + 2 ^ (8 * w) - 2 ^ (8 * d))) % 2 ^ (8 * w)

/-- The 128 bytes of a line that is stored with an image under a tag of 0 to 7 (R227, R228). -/
def decodeLine (im : List Byte) (tag : Nat) : List Byte :=
  let deltas := fun w d => (List.range (128 / w)).flatMap fun k => leBytes w (deltaElem im w d k)
  match tag with
  | 0 => im
  | 1 => List.replicate 128 0#8
  | 2 => (List.range 32).flatMap fun _ => im.take 4
  | 3 => (List.range 16).flatMap fun _ => im.take 8
  | 4 => deltas 8 1
  | 5 => deltas 8 2
  | 6 => deltas 4 1
  | _ => deltas 4 2

end Sys2Proof.Machine
end

