-- ==== Sys2Proof/Machine/Place.lean ====
section
/-! DEFINITION. Dies, classes, core identities and numbering (R9 to R16, R29, R30, R45, R47, R351). -/

namespace Sys2Proof.Machine

/-- Class of a compute chiplet (R9). -/
def dieCls (d : Nat) : Option Cls :=
  if d = 2 ∨ d = 3 ∨ d = 4 ∨ d = 8 ∨ d = 9 ∨ d = 10 then some .m
  else if d = 5 ∨ d = 11 then some .l
  else if d = 6 ∨ d = 12 then some .x
  else if d = 7 ∨ d = 13 then some .t
  else none

/-- Clusters of a chiplet of a class (R9). -/
def clsClusters : Cls → Nat
  | .m => 8
  | .l => 6
  | .x => 4
  | .t => 8

/-- Clusters and cores of a die (R9). -/
def dieClusters (d : Nat) : Nat := ((dieCls d).map clsClusters).getD 0
def dieCores (d : Nat) : Nat := 4 * dieClusters d

/-- DIE, CLUSTER and CORE of a physical core identity (R12). -/
def coreDie (core : Nat) : Nat := natBits core 5 4
def coreCluster (core : Nat) : Nat := natBits core 2 3
def coreInCluster (core : Nat) : Nat := natBits core 0 2

/-- Physical core identity (R12). -/
def coreId (die cluster core : Nat) : Nat := 32 * die + 4 * cluster + core

/-- The chamber die that a die attaches to (R9). -/
def chamberOf (d : Nat) : Nat := if d < 2 then d else if d < 8 then 0 else 1

/-- Class codes (R15). -/
def clsCode : Cls → Nat
  | .m => 1
  | .l => 2
  | .x => 3
  | .t => 4
def clsOfCode (c : Nat) : Option Cls :=
  match c with
  | 1 => some .m
  | 2 => some .l
  | 3 => some .x
  | 4 => some .t
  | _ => none

/-- Contract codes (R34). -/
def contractCode : Contract → Nat
  | .mxi => 1
  | .lns => 2
  | .xf32 => 3
  | .ter => 4
  | .gen => 5
def contractOfCode (c : Nat) : Option Contract :=
  match c with
  | 1 => some .mxi
  | 2 => some .lns
  | 3 => some .xf32
  | 4 => some .ter
  | 5 => some .gen
  | _ => none

/-- Native class, then the emulation route in order (R45); every class for GEN, in the order of ties of R47. -/
def routeOf : Contract → List Cls
  | .mxi => [.m, .t, .x]
  | .lns => [.l, .m]
  | .xf32 => [.x, .m]
  | .ter => [.t, .m]
  | .gen => [.m, .t, .l, .x]

/-- Compute dies of a class (R9). -/
def diesOf (c : Cls) : List Nat := ((List.range 12).map (· + 2)).filter fun d => dieCls d == some c

/-! ### The package as it stands -/

/-- The service state of a compute chiplet. -/
def State.die? (s : State) (d : Nat) : Option Die := s.pkg.dies.find? fun x => x.num == d
def State.updDie (s : State) (d : Nat) (f : Die → Die) : State :=
  { s with pkg := { s.pkg with dies := s.pkg.dies.map fun x => if x.num == d then f x else x } }

/-- Cores that come before die `d` in the numbering (R13). -/
def coresBelow (numbered : BitVec 14) (d : Nat) : Nat :=
  (((List.range d).filter fun i => numbered.getLsbD i).map dieCores).sum

/-- `$core` of a physical core (R13). -/
def State.coreIndex (s : State) (core : Nat) : Nat :=
  coresBelow s.pkg.numbered (coreDie core) + 4 * coreCluster core + coreInCluster core

/-- `$ncores` (R13). -/
def State.ncores (s : State) : Nat := coresBelow s.pkg.numbered 14

/-- The die is present (R404). -/
def State.diePresent (s : State) (d : Nat) : Bool := s.pkg.mgmt.diepres.getLsbD d

/-- The die is gated (R14, R404). -/
def State.dieGated (s : State) (d : Nat) : Bool := s.pkg.mgmt.gcur.getLsbD d

/-- A chiplet that traffic can pass through: present, powered, and neither LOST nor in reset. -/
def State.dieAlive (s : State) (d : Nat) : Bool := s.diePresent d && !s.dieGated d && (s.die? d).any fun x => !(x.lost || x.inReset || x.out)

/-- The copy engines of a die are there and have power: those of a chamber die always (R22, R23). -/
def State.engineUp (s : State) (d : Nat) : Bool := decide (d < 2) || s.dieAlive d

/-- The die is being drained or is drained (R402). -/
def State.dieDraining (s : State) (d : Nat) : Bool := s.pkg.mgmt.drains.any fun x => x.die == d

/-- The die is degraded, which a gated die never is (R30). -/
def State.dieDegraded (s : State) (d : Nat) : Bool :=
  !s.dieGated d && (s.dieDraining d || ((s.die? d).any fun x => x.lost || x.inReset))

/-- The class is available for binding (R30). -/
def State.clsAvailable (s : State) (c : Cls) : Bool :=
  (diesOf c).any fun d => s.diePresent d && !s.dieDegraded d

/-- Dies of a class on which the scheduler may place a team now: present, in order and not gated (R14, R29). -/
def State.openDies (s : State) (c : Cls) : List Nat :=
  (diesOf c).filter fun d => s.diePresent d && !s.dieDegraded d && !s.dieGated d

end Sys2Proof.Machine
end

