-- ==== Sys2Proof/Machine/Translate.lean ====
section
/-! DEFINITION. Translation of virtual addresses (R212 to R222): the peer LS window, the range registers, the page walk,
and the checks of an access. -/

namespace Sys2Proof.Machine

/-- Fault codes that many rules share (R368). -/
def cIllegalOpcode : Nat := 0x0001
def cIllegalEncoding : Nat := 0x0002
def cIllegalClause : Nat := 0x0003
def cLookahead : Nat := 0x0004
def cHoldExpired : Nat := 0x0005
def cOperandClass : Nat := 0x0006
def cDiverge : Nat := 0x0007
def cJtRange : Nat := 0x0008
def cLanding : Nat := 0x0009
def cBudgetExceeded : Nat := 0x000A
def cSuccShape : Nat := 0x000B
def cSuccClass : Nat := 0x000C
def cPhaseCarry : Nat := 0x000D
def cTrap : Nat := 0x000E
def cBreakpoint : Nat := 0x000F
def cTranslation : Nat := 0x0010
def cPermission : Nat := 0x0011
def cAlignment : Nat := 0x0012
def cPacked : Nat := 0x0013
def cLsRange : Nat := 0x0014
def cAtomicUnsupported : Nat := 0x0015
def cAtomicType : Nat := 0x0016
def cTileState : Nat := 0x0020
def cTileRange : Nat := 0x0021
def cBarrierTimeout : Nat := 0x0022
def cBarrierOverflow : Nat := 0x0023
def cMcastMask : Nat := 0x0024
def cMcastPartial : Nat := 0x0025
def cShapeRecord : Nat := 0x0026
def cShapePitch : Nat := 0x0027
def cCopyFault : Nat := 0x0030
def cReduceType : Nat := 0x0031
def cQuantFault : Nat := 0x0032
def cMatrixFetch : Nat := 0x0033
def cContract : Nat := 0x0034
def cQueueDesc : Nat := 0x0041
def cWatchdog : Nat := 0x0050
def cBudgetViolation : Nat := 0x0051
def cTraceOverflow : Nat := 0x0052
def cLinkDown : Nat := 0x0060
def cUncorrectable : Nat := 0x0061
def cPoison : Nat := 0x0062

/-- Access kinds of Translate (R214). -/
inductive Kind where
  | read | write | atomic | fetch
deriving DecidableEq, Repr

/-- Writes and atomics. -/
def Kind.writes : Kind → Bool
  | .write => true
  | .atomic => true
  | _ => false

/-- Where an address leads: a physical address with its attributes, or a byte of the LS of a team on one of its cores (R213,
R214). -/
inductive Target where
  | phys (pa : Nat) (packed compress : Bool)
  | ls (team core off : Nat)
deriving DecidableEq, Repr

/-- Field readers of a range register (R216). -/
def Range.valid (r : Range) : Bool := r.d0.getLsbD 0
def Range.vbase (r : Range) : Nat := bitsOf r.d0 16 40
def Range.vlimit (r : Range) : Nat := bitsOf r.d1 16 40
def Range.pbase (r : Range) : Nat := bitsOf r.d2 16 36
def Range.readonly (r : Range) : Bool := r.d3.getLsbD 2
def Range.packed (r : Range) : Bool := r.d3.getLsbD 1
def Range.compress (r : Range) : Bool := r.d3.getLsbD 0

/-- The committed range that covers a VA (R214). -/
def findRange (rs : List Range) (va : Nat) : Option Range :=
  rs.find? fun r => r.valid && decide (r.vbase ≤ va / 65536) && decide (va / 65536 ≤ r.vlimit)

/-- Attribute bits of a leaf in the order of the entry (R220): V, X, W, COMPRESS, PACKED. -/
structure Leaf where
  base : Nat
  bits : Nat
  x : Bool
  w : Bool
  compress : Bool
  packed : Bool
deriving DecidableEq, Repr

/-- Index of a VA at a level, the low VA bit of the level, and the alignment in bits of the next table (R220). -/
def walkIdx (va lvl : Nat) : Nat :=
  match lvl with
  | 3 => natBits va 39 17
  | 2 => natBits va 30 9
  | 1 => natBits va 21 9
  | _ => natBits va 16 5
def leafBits (lvl : Nat) : Nat :=
  match lvl with
  | 2 => 30
  | 1 => 21
  | _ => 16
def tableBits (lvl : Nat) : Nat := if lvl = 1 then 8 else 12

/-- What one entry of a walk says: a leaf with the PA of its entry, or the next table (R220). -/
inductive WalkAns where
  | leaf (l : Leaf) (entry : Nat)
  | table (next : Nat)
deriving DecidableEq, Repr

/-- A source of table entries: by level and PA of the entry. -/
abbrev Entries := Nat → Nat → Nat

/-- The entries as memory holds them. -/
def Memory.entries (m : Memory) : Entries := fun _ ea => m.rd ea 8

/-- Reading of one entry at level `lvl` of the table at `table` (R215, R220). -/
def walkStep (rd : Entries) (va lvl table : Nat) : Except Exc WalkAns :=
  let ea := table + 8 * walkIdx va lvl
  let e := rd lvl ea
  if !natBit e 0 then .error { code := cTranslation, addr := va, detail := 0x0100 + lvl }
  else
    let addr := natBits e 8 44 * 256
    let bad : Except Exc WalkAns := .error { code := cTranslation, addr := va, detail := 0x0200 + lvl }
    if natBits e 52 12 ≠ 0 ∨ natBits e 6 2 ≠ 0 then bad
    else if natBit e 5 then
      if lvl = 3 ∨ addr % 2 ^ leafBits lvl ≠ 0 then bad
      else .ok (.leaf { base := addr, bits := leafBits lvl, x := natBit e 1, w := natBit e 2, compress := natBit e 3, packed := natBit e 4 } ea)
    else if lvl = 0 ∨ natBits e 1 4 ≠ 0 ∨ addr % 2 ^ tableBits lvl ≠ 0 then bad
    else .ok (.table addr)

/-- The page walk of R220 from level `lvl` down; it ends at the first leaf or fault. -/
def walk (rd : Entries) (va : Nat) : Nat → Nat → Except Exc (Leaf × Nat)
  | 0, table => do
    match ← walkStep rd va 0 table with
    | .leaf l e => pure (l, e)
    | .table _ => .error { code := cTranslation, addr := va, detail := 0x0200 }
  | lvl + 1, table => do
    match ← walkStep rd va (lvl + 1) table with
    | .leaf l e => pure (l, e)
    | .table next => walk rd va lvl next

/-! ### TLBs and page-walk caches (R221) -/

/-- Lowest VA bit that selects an entry at a level (R220). -/
def keyBits (lvl : Nat) : Nat :=
  match lvl with
  | 3 => 39
  | 2 => 30
  | 1 => 21
  | _ => 16

/-- The page-walk cache entry of a chamber die for the entry of a VA at a level. -/
def State.pwcFind (s : State) (die ctx lvl va : Nat) : Option PwcEntry :=
  s.pwc.find? fun e => e.die == die && e.ctx == ctx && e.lvl == lvl && e.key == va / 2 ^ keyBits lvl

/-- The table entries that a walk by a chamber die reads: where its page-walk cache holds one, that one or the one in memory (log entry 5). -/
def State.entries (s : State) (die ctx va : Nat) : Entries := fun lvl ea =>
  match s.pwcFind die ctx lvl va with
  | some e => if 1 ≤ lvl ∧ Config.staleEntry (s.freeN + lvl) = true then e.val.toNat else s.mem.rd ea 8
  | none => s.mem.rd ea 8

/-- The chamber die whose walker serves a party: that of its core's chiplet, H0 for a party without a core. -/
def walkDie (core : Option Nat) : Nat := (core.map fun c => chamberOf (coreDie c)).getD 0

/-- A party on a core finds its translations in the core's TLB, then in its cluster's. -/
def tlbServes (core : Nat) : TlbPlace → Bool
  | .core c => c == core
  | .cluster d n => d == coreDie core && n == coreCluster core

/-- The entry covers a VA of a context. -/
def TlbEntry.covers (e : TlbEntry) (ctx va : Nat) : Bool := e.ctx == ctx && e.va / 2 ^ e.bits == va / 2 ^ e.bits

/-- The cached leaf of a VA for a core: in the core's own TLB before its cluster's. -/
def State.tlbFind (s : State) (core ctx va : Nat) : Option TlbEntry :=
  (s.tlb.find? fun e => e.place == .core core && e.covers ctx va).orElse fun _ =>
    s.tlb.find? fun e => tlbServes core e.place && e.covers ctx va

/-- The leaf of a VA: a stale TLB entry where one may serve (log entry 5), else a walk. -/
def State.leafOf (s : State) (c : Ctx) (core : Option Nat) (va : Nat) : Except Exc Leaf :=
  let fresh := (walk (s.entries (walkDie core) c.num va) va 3 c.ptroot).map Prod.fst
  match core.bind fun k => s.tlbFind k c.num va with
  | none => fresh
  | some e =>
    let old : Leaf := { base := e.pa, bits := e.bits, x := natBit e.attr 1, w := natBit e.attr 2, compress := natBit e.attr 3, packed := natBit e.attr 4 }
    match fresh with
    | .ok l => if l = old then .ok l else if Config.staleEntry s.freeN then .ok old else .ok l
    | .error x => if Config.staleEntry s.freeN then .ok old else .error x

/-- Attribute check of R214; engines pass `engine`. -/
def checkAccess (va : Nat) (kind : Kind) (engine readonly writable fetch packed : Bool) : Except Exc Unit :=
  if packed && !engine then .error { code := cPacked, addr := va }
  else if kind.writes && (readonly || !writable) then .error { code := cPermission, addr := va }
  else if decide (kind = .fetch) && !fetch then .error { code := cPermission, addr := va, detail := 1 }
  else .ok ()

/-- The LS byte count of a team (R36). -/
def Team.lsBytes (t : Team) : Nat := t.kd.scratch * 1024

/-- The physical core identities that a team occupies (R37). -/
def Team.cores (t : Team) : List Nat := if t.kd.pair then [t.core, t.core + 1] else [t.core]

/-- The team on a core that the issuer may reach through the window: its own, or one of its gang (R38, R213). -/
def State.windowTeam (s : State) (t : Team) (core : Nat) : Option Team :=
  if t.cores.contains core then some t
  else s.teams.find? fun u => u.cores.contains core && t.gang.contains u.id

/-- The window address of R213, for an access of `n` bytes by a team on a core; a party without one reaches no core. -/
def State.window (s : State) (own : Option (Team × Nat)) (va n : Nat) (kind : Kind) : Except Exc Target :=
  if natBits va 19 1 ≠ 0 ∨ natBits va 22 26 ≠ 0 then .error { code := cTranslation, addr := va, detail := 0x0003 }
  else if kind = .fetch then .error { code := cPermission, addr := va }
  else
    let core := ((own.map Prod.snd).getD 0 / 4) * 4 + natBits va 20 2
    let off := natBits va 0 19
    match own.bind fun o => s.windowTeam o.1 core with
    | none => .error { code := cPermission, addr := va }
    | some u =>
      if u.lsBytes < off + n then .error { code := cLsRange, addr := va, detail := max off u.lsBytes }
      else .ok (.ls u.id core off)

/-- Page check of a leaf: its span must lie in one HBM pool (R214, R215; log entry 18). -/
def leafRegion (l : Nat) (lf : Leaf) (va : Nat) : Except Exc Unit :=
  let r1 := regionOf l lf.base
  let r2 := regionOf l (lf.base + 2 ^ lf.bits - 1)
  if r1.hbm && r1 == r2 then .ok ()
  else if !r1.hbm && !r2.hbm then .error { code := cTranslation, addr := va, detail := 0x0002 }
  else .error { code := cTranslation, addr := va, detail := 0x0300 }

/-- Translate (R214) for an access of n bytes that does not cross a granule of 64 KiB. `own` is the issuing team with its
core, when there is one (the window needs it). -/
def State.translate (s : State) (c : Ctx) (own : Option (Team × Nat)) (va n : Nat) (kind : Kind) (engine : Bool) : Except Exc Target :=
  if natBits va 56 8 ≠ 0 then .error { code := cTranslation, addr := va, detail := 0x0001 }
  else if natBits va 48 8 = 0xFF then s.window own va n kind
  else
    match findRange c.committed va with
    | some r => do
      let pa := r.pbase * 65536 + (va - r.vbase * 65536)
      if regionOf s.pkg.hbmsplit pa = .reserved then .error { code := cTranslation, addr := va, detail := 0x0002 }
      checkAccess va kind engine r.readonly true true r.packed
      pure (.phys pa r.packed r.compress)
    | none => do
      let lf ← s.leafOf c (own.map Prod.snd) va
      leafRegion s.pkg.hbmsplit lf va
      checkAccess va kind engine false lf.w lf.x lf.packed
      pure (.phys (lf.base + va % 2 ^ lf.bits) lf.packed lf.compress)

/-- Translation of an n-byte span part by part: the parts lie in different granules of 64 KiB, and the first that faults in
ascending order raises its fault (R214). -/
def State.translateSpan (s : State) (c : Ctx) (own : Option (Team × Nat)) (va n : Nat) (kind : Kind) (engine : Bool) :
    Except Exc (List (Target × Nat)) :=
  let cut := 65536 - va % 65536
  if n ≤ cut then do
    let t ← s.translate c own va n kind engine
    pure [(t, n)]
  else do
    let t1 ← s.translate c own va cut kind engine
    let t2 ← s.translate c own ((va + cut) % 2 ^ 64) (n - cut) kind engine
    pure [(t1, cut), (t2, n - cut)]

/-- The target is in a region (R212). -/
def State.targetRegion (s : State) : Target → Option Region
  | .phys pa _ _ => some (regionOf s.pkg.hbmsplit pa)
  | .ls _ _ _ => none

end Sys2Proof.Machine
end

