-- ==== Sys2Proof/Machine/Operands.lean ====
section
/-! DEFINITION. Operands and results of words: reading operand codes (R103, R127), writing results to the queue, the named
file, predicates and uniform registers (R105, R106, R108), reservations (R109 to R112) and hold latches (R113, R199). -/

namespace Sys2Proof.Machine

/-! ### One thread -/

/-- Queue entry qi (R103). -/
def Thread.qi (t : Thread) (i : Nat) : W32 := t.q.getD i 0#32
/-- Named register ni. -/
def Thread.ni (t : Thread) (i : Nat) : W32 := t.n.getD i 0#32
/-- Predicate ki; k0 reads true (R125). -/
def Thread.ki (t : Thread) (i : Nat) : Bool := i == 0 || t.k.getLsbD i
/-- Hold latch hi. -/
def Thread.hi (t : Thread) (i : Nat) : W64 := t.h.getD i 0#64

def Thread.setN (t : Thread) (i : Nat) (x : W32) : Thread := { t with n := t.n.setIfInBounds i x }
def Thread.setQ (t : Thread) (i : Nat) (x : W32) : Thread := { t with q := t.q.setIfInBounds i x }
/-- Predicate write; k0 is never written (R125). -/
def Thread.setK (t : Thread) (i : Nat) (b : Bool) : Thread :=
  if i = 0 then t else { t with k := if b then t.k ||| BitVec.ofNat 8 (2 ^ i) else t.k &&& ~~~ BitVec.ofNat 8 (2 ^ i) }

/-- The first 16 of a list of at least 16 words, as a queue. -/
def queueOf (new : List W32) (q : Vector W32 16) : Vector W32 16 :=
  ⟨((new ++ q.toList).take 16).toArray, by simp⟩

/-- Pushes one or two entries, q0 being the first of `new` (R108). -/
def Thread.push (t : Thread) (new : List W32) : Thread := { t with q := queueOf new t.q }

/-- Low and high words of a 64-bit result. -/
def lo32 (x : Nat) : W32 := BitVec.ofNat 32 x
def hi32 (x : Nat) : W32 := BitVec.ofNat 32 (x / 2 ^ 32)

/-- The entries that a thread pushes: the value if it is active, else the copy of R108. DESIGN CHOICE: the copy of a reserved entry whose
value has not arrived is what the entry held before its reservation, and the arrival does not reach the copy (log entry 61). -/
def Thread.entries (t : Thread) (wide act : Bool) (x : Nat) : List W32 :=
  if wide then (if act then [lo32 x, hi32 x] else [t.qi 0, t.qi 1])
  else [if act then lo32 x else t.qi 0]

/-- Writes a value to named register i, as a pair when wide (R105). -/
def Thread.setNamed (t : Thread) (i : Nat) (wide : Bool) (x : Nat) : Thread :=
  if wide then (t.setN i (lo32 x)).setN (i + 1) (hi32 x) else t.setN i (lo32 x)

/-- Result of a non-uniform word in one thread (R105, R107, R108). -/
def Thread.write (t : Thread) (dst : Nat) (wide act : Bool) (x : Nat) : Thread :=
  if dst = 0x08 then t
  else if dst = 0 then t.push (t.entries wide act x)
  else if dst < 8 then (if act then t.setK dst (x % 2 == 1) else t)
  else (if act then t.setNamed (dst - 0x10) wide x else t).push (t.entries wide act x)

/-! ### Reading operands -/

/-- Threads of a group (R31). -/
def Group.width (g : Group) : Nat := g.threads.length
/-- Thread th, or an all-zero thread. -/
def Group.thread (g : Group) (th : Nat) : Thread :=
  g.threads.getD th { q := Vector.replicate 16 0#32, n := Vector.replicate 32 0#32, k := 0#8, sr := 0#32, h := Vector.replicate 3 0#64 }
/-- Uniform register si. -/
def Group.si (g : Group) (i : Nat) : W32 := g.s.getD i 0#32
/-- A 64-bit value of the uniform pair s(i), s(i+1) (R103). -/
def Group.spair (g : Group) (i : Nat) : Nat := (g.si i).toNat + 2 ^ 32 * (g.si (i + 1)).toNat
def Group.setS (g : Group) (i : Nat) (x : W32) : Group := { g with s := g.s.setIfInBounds i x }

/-- Value of operand code `code` in thread th, as 32 or 64 bits (R103, R127). `func` is the immediate of code 0x57. -/
def Group.opVal (g : Group) (func th code : Nat) (wide : Bool) : Nat :=
  let t := g.thread th
  let w := if wide then 64 else 32
  if code < 0x10 then (t.qi code).toNat + (if wide then 2 ^ 32 * (t.qi (code + 1)).toNat else 0)
  else if code < 0x30 then (t.ni (code - 0x10)).toNat + (if wide then 2 ^ 32 * (t.ni (code - 0x0F)).toNat else 0)
  else if code < 0x50 then (g.si (code - 0x30)).toNat + (if wide then 2 ^ 32 * (g.si (code - 0x2F)).toNat else 0)
  else if code < 0x53 then (t.hi (code - 0x50)).toNat % 2 ^ w
  else if code = 0x53 then 0
  else if code = 0x54 then th % 16
  else if code = 0x55 then g.idx
  else if code = 0x56 then g.idx * g.width + th
  else if code = 0x57 then wrapInt w (sInt 16 func)
  else wrapInt w ((code : Int) - 0x70)

/-- Sources A, B and C of a word in thread th. -/
def Group.rdA (g : Group) (v : View) (sh : Shape) (th : Nat) : Nat := g.opVal v.func th v.a sh.a.wide
def Group.rdB (g : Group) (v : View) (sh : Shape) (th : Nat) : Nat := g.opVal v.func th v.b sh.b.wide
def Group.rdC (g : Group) (v : View) (sh : Shape) (th : Nat) : Nat := g.opVal v.func th v.c sh.c.wide

/-- Thread th is active for a non-uniform word (R107). -/
def Group.active (g : Group) (v : View) (th : Nat) : Bool :=
  g.mask.getLsbD th && ((g.thread th).ki v.pred != v.pneg)

/-- Thread indexes of a group. -/
def Group.ths (g : Group) : List Nat := List.range g.width

/-- Active(g) in ascending order (R90). -/
def Group.actives (g : Group) (v : View) : List Nat := g.ths.filter (g.active v)

/-- Active(g) as a mask. -/
def Group.actMask (g : Group) (v : View) : W64 :=
  BitVec.ofNat 64 ((g.actives v).foldl (fun m th => m + 2 ^ th) 0)

/-! ### Writing results -/

/-- Reserved entries move by the entries pushed (R109). -/
def Resv.shift (n : Nat) (r : Resv) : Resv :=
  { r with qi := match r.qi with
      | some i => if i + n < 16 then some (i + n) else none
      | none => none }

/-- A non-uniform word with this DST pushes the queue (R108). -/
def pushes (dst : Nat) : Bool := dst == 0 || decide (0x10 ≤ dst)

/-- Every thread, with its index, mapped. -/
def Group.mapThreads (g : Group) (f : Nat → Thread → Thread) : Group :=
  { g with threads := g.threads.mapIdx f }

/-- Result of a non-uniform word in every thread (R105, R108). -/
def Group.writeAll (g : Group) (dst : Nat) (wide : Bool) (act : Nat → Bool) (x : Nat → Nat) : Group :=
  let g1 := g.mapThreads fun th t => t.write dst wide (act th) (x th)
  if pushes dst then { g1 with resv := g1.resv.map (Resv.shift (if wide then 2 else 1)) } else g1

/-- Result of a uniform word (R106): a predicate in every thread, or a uniform register; never a push. -/
def Group.writeUni (g : Group) (dst : Nat) (wide : Bool) (x : Nat) : Group :=
  if dst = 0x08 then g
  else if dst < 8 then g.mapThreads fun _ t => t.setK dst (x % 2 == 1)
  else if wide then (g.setS (dst - 0x30) (lo32 x)).setS (dst - 0x2F) (hi32 x)
  else g.setS (dst - 0x30) (lo32 x)

/-- Writes the result of a word: x th is the value of thread th, x 0 that of a uniform word. -/
def Group.result (g : Group) (v : View) (wide : Bool) (act : Nat → Bool) (x : Nat → Nat) : Group :=
  if v.u then g.writeUni v.dst wide (x 0) else g.writeAll v.dst wide act x

/-! ### Reservations (R109 to R112) -/

/-- Adds a reservation, unless it reserves nothing. -/
def Group.reserve (g : Group) (r : Resv) : Group := { g with resv := g.resv ++ [r] }

/-- The value of the reservation is on its way: it has not arrived, and no item is still to be delivered to a `qdeq` (R109, R289). -/
def Resv.due (r : Resv) : Bool := !r.arrived && !r.vals.isEmpty

/-- Issues a long-latency word: copies are pushed, active entries and the destination are reserved, and the values wait in
the reservation (R109, R110). A predicate destination is written at issue (log entry 7). -/
def Group.later (g : Group) (v : View) (wide load : Bool) (act : Nat → Bool) (mask : W64) (x : Nat → Nat) : Group :=
  if v.u then
    (if 0x30 ≤ v.dst then
      g.reserve { qi := none, wide := wide, named := [], uni := some (v.dst - 0x30), uniN := if wide then 2 else 1, mask := 0#64,
                  vals := [BitVec.ofNat 64 (x 0)], rem := v.look, arrived := false, load := load }
     else g.writeUni v.dst wide (x 0))
  else if v.dst = 0x08 ∨ (v.dst ≠ 0 ∧ v.dst < 8) then g.writeAll v.dst wide act x
  else
    let g1 := g.writeAll 0 wide (fun _ => false) x
    if mask = 0#64 then g1
    else g1.reserve { qi := some 0, wide := wide, named := if v.dst = 0 then [] else if wide then [v.dst - 0x10, v.dst - 0x0F] else [v.dst - 0x10],
                      uni := none, uniN := 0, mask := mask, vals := g.ths.map fun th => BitVec.ofNat 64 (x th), rem := v.look,
                      arrived := false, load := load }

/-- The arriving value in one thread (R109). -/
def Thread.fill (t : Thread) (r : Resv) (x : W64) : Thread :=
  let t1 := match r.qi with
    | some i => if r.wide then (t.setQ i (lo32 x.toNat)).setQ (i + 1) (hi32 x.toNat) else t.setQ i (lo32 x.toNat)
    | none => t
  match r.named with
  | [i] => t1.setN i (lo32 x.toNat)
  | [i, j] => (t1.setN i (lo32 x.toNat)).setN j (hi32 x.toNat)
  | _ => t1

/-- Arrival of the value of a reservation: it fills the reserved entries and destination (R109). -/
def Group.fill (g : Group) (r : Resv) : Group :=
  match r.uni with
  | some i =>
    if r.uniN = 2 then (g.setS i (lo32 (r.vals.getD 0 0#64).toNat)).setS (i + 1) (hi32 (r.vals.getD 0 0#64).toNat)
    else g.setS i (lo32 (r.vals.getD 0 0#64).toNat)
  | none => g.mapThreads fun th t => if r.mask.getLsbD th then t.fill r (r.vals.getD th 0#64) else t

/-- Delivers every reservation that `p` selects and has not arrived. -/
def Group.deliver (g : Group) (p : Resv → Bool) : Group :=
  let g1 := (g.resv.filter fun r => p r && !r.arrived).foldl Group.fill g
  { g1 with resv := (g1.resv.map fun r => if p r then { r with arrived := true } else r).filter fun r => !(r.arrived && r.rem == 0) }

/-- Every access that the group has out is performed: its values have arrived, its stores are acknowledged, and no unit misses one (R370). -/
def Group.performed (g : Group) : Group := { g.deliver Resv.due with pendingStores := 0, late := [] }

/-- Codes that a word touches: operand code and whether a pair. -/
abbrev Touch := List (Nat × Bool)

/-- Register codes that a word reads or writes through its fields (R111). -/
def touchOf (v : View) (sh : Shape) : Touch :=
  let f := fun (s : Src) code => if s.isSrc then [(code, s.wide)] else []
  let d := match sh.dst with
    | .val w => if 0x10 ≤ v.dst then [(v.dst, w)] else []
    | _ => []
  f sh.a v.a ++ f sh.b v.b ++ f sh.c v.c ++ d

/-- The registers that a reservation holds are touched by code c (R111). DST codes of the uniform file are 0x30 + N too. -/
def Resv.hit (r : Resv) (c : Nat × Bool) : Bool :=
  let span := if c.2 then 2 else 1
  let ovl := fun (lo n base : Nat) => decide (base + lo < c.1 + span) && decide (c.1 < base + lo + n)
  (match r.qi with
   | some i => decide (c.1 < 0x10) && ovl i (if r.wide then 2 else 1) 0
   | none => false) ||
  r.named.any (fun i => ovl i 1 0x10) ||
  (match r.uni with
   | some i => ovl i r.uniN 0x30
   | none => false)

/-! ### Hold latches (R113, R199) -/

/-- Ageing of the latches by one issued word: age 3 means expired (R113, R383). -/
def ageHold (a : Nat) : Nat := if a < 3 then a + 1 else 3

/-- A word that reads latch code c finds it expired (R113). -/
def Group.holdBad (g : Group) (v : View) (sh : Shape) : Bool :=
  let bad := fun (s : Src) code => s.isSrc && decide (0x50 ≤ code) && decide (code ≤ 0x52) && decide (2 ≤ g.hage.getD (code - 0x50) 3)
  bad sh.a v.a || bad sh.b v.b || bad sh.c v.c

/-- Pushes one captured value per thread into the latches. -/
def Group.capture (g : Group) (x : Nat → Nat) : Group :=
  let g1 := g.mapThreads fun th t => { t with h := #v[BitVec.ofNat 64 (x th), t.hi 0, t.hi 1] }
  { g1 with hage := #v[0, g.hage.getD 0 3, g.hage.getD 1 3] }

/-- HOLD of a word other than F-X: A first, then B (R113), each at the width read (R199). `src` is the group as it stood
before the word. -/
def Group.captureAll (g src : Group) (v : View) (sh : Shape) : Group :=
  if v.fmt = .fx then g
  else
    let g1 := if v.hold % 2 = 1 then g.capture fun th => src.rdA v sh th % 2 ^ sh.ba else g
    if 2 ≤ v.hold then g1.capture fun th => src.rdB v sh th % 2 ^ sh.bb else g1

/-- Ageing of latches and windows when a word issues (R111, R113). -/
def Group.age (g : Group) : Group :=
  { g with hage := g.hage.map ageHold
           resv := (g.resv.map fun r => { r with rem := r.rem - 1 }).filter fun r => !(r.arrived && r.rem == 0) }

end Sys2Proof.Machine
end

