-- ==== Sys2Proof/Machine/Store.lean ====
section
/-! DEFINITION. The one way a physical byte changes (R211, R224, R235): a write of bytes, with the marks that it leaves on
poison, on resident lines, and on the roost entries and tail lines that watch its lines (R330, R333, R399). -/

namespace Sys2Proof.Machine

/-- Lines of 128 bytes that a span touches. -/
def spanLines (pa n : Nat) : List Nat := if n = 0 then [] else (List.range ((pa + n - 1) / 128 - pa / 128 + 1)).map fun i => pa / 128 + i

/-- Lines of a span that it does not cover as a whole. -/
def partLines (pa n : Nat) : List Nat := (spanLines pa n).filter fun l => !(decide (pa ≤ 128 * l) && decide (128 * l + 128 ≤ pa + n))

/-- What a write to some lines does to a roost entry (R330, R333): a counted monitor compares its word, every other entry is
woken. -/
def Roost.mark (m : Memory) (lines : List Nat) (e : Roost) : Roost :=
  if lines.contains e.line && (e.kind != .count || m.rd e.word 8 == e.expv.toNat) then { e with fired := true } else e

/-- What a write to some lines, homed at some slices, does to a saved team that waits for one of them or in the overflow set of one (R330,
R335). -/
def Cand.mark (lines slices : List Nat) (c : Cand) : Cand :=
  if c.lines.any lines.contains || c.slices.any slices.contains then { c with ready := true } else c

/-- Adds lines to a list of lines, once. -/
def addLines (ls xs : List Nat) : List Nat := (ls.filter fun l => !xs.contains l) ++ xs

/-- The lines of a span that are homed at a slice. -/
def State.homedLines (s : State) (pa n : Nat) : List Nat := (spanLines pa n).filter fun l => (regionOf s.pkg.hbmsplit (128 * l)).hbm

/-! ### The slices (R17, R226 to R228) -/

/-- Lines that a slice of 2 MiB holds (R17). -/
def sliceCap : Nat := 16384

/-- Records the tag of a line and its stored image; an uncompressed line is kept in memory alone (R227). -/
def setTag (tags : List TagLine) (l tag : Nat) (bs : List Byte) : List TagLine :=
  let rest := tags.filter fun t => t.line != l
  if tag = 0 then rest else { line := l, tag := BitVec.ofNat 4 tag, image := storedImage bs tag } :: rest

/-- A line is written back to HBM, with the tag that R228 chooses on a page with COMPRESS and tag 0 on any other, and leaves its slice. -/
def State.writeBack (s : State) (x : SliceLine) : State :=
  let bs := s.mem.bytes (128 * x.line) 128
  { s with resident := s.resident.filter fun y => y.line != x.line
           tags := setTag s.tags x.line (if x.compress then (lineTag bs).1 else 0) bs }

/-- A line is brought into its home slice; a full slice writes one back for it (log entry 56). `cmp` is COMPRESS of the page by which an
access names the line, if it names one (log entry 57). -/
def State.bring (s : State) (cmp : Option Bool) (line : Nat) : State :=
  match s.resident.find? fun y => y.line == line with
  | some _ => match cmp with
    | some b => { s with resident := s.resident.map fun y => if y.line == line then { y with compress := b } else y }
    | none => s
  | none =>
    let slice := homeSlice s.pkg.hbmsplit (128 * line)
    let mine := s.resident.filter fun y => homeSlice s.pkg.hbmsplit (128 * y.line) == slice
    let s1 := if mine.length < sliceCap then s
      else ((mine[Config.victim s.freeN line % mine.length]?).map s.writeBack).getD s
    { s1 with resident := { line := line, compress := cmp.getD false } :: s1.resident }

/-- The lines of a span are brought into their slices. -/
def State.bringSpan (s : State) (cmp : Option Bool) (pa n : Nat) : State := (s.homedLines pa n).foldl (fun s l => s.bring cmp l) s

/-- Lines are brought into their slices. -/
def State.bringAll (s : State) (lines : List Nat) : State := lines.foldl (fun s l => s.bring none l) s

/-! ### The tail lines that the roost watches (R329, R399) -/

/-- The context of a number. -/
def State.ctx? (s : State) (n : Nat) : Option Ctx := s.ctxs.find? fun c => c.num == n

/-- Header VA and context of entry i of the queue directory (R404). -/
def State.dirEntry (s : State) (i : Nat) : Nat × Nat :=
  (s.mem.rd (s.pkg.mgmt.qdir + 16 * i) 8, s.mem.rd (s.pkg.mgmt.qdir + 16 * i + 8) 1)

/-- The context, the header VA and the header PA of entry i of the directory. -/
def State.tailOf (s : State) (i : Nat) : Option (Ctx × Nat × Nat) :=
  let e := s.dirEntry i
  (if s.pkg.mgmt.qdir = 0 ∨ e.1 = 0 then none else s.ctx? e.2).bind fun c =>
    match s.translate c none e.1 64 .read true with
    | .ok (.phys pa _ _) => some (c, e.1, pa)
    | _ => none

/-- The tail lines of the headers that the directory registers; those watched before keep what has been noted of them. -/
def State.watchTails (s : State) : List (Nat × Bool) :=
  if s.pkg.mgmt.qdir = 0 then []
  else ((List.range 4096).filterMap s.tailOf).map fun p => (p.2.2, s.sch.tails.contains (p.2.2, true))

/-- The roost reads the queue directory again. DESIGN CHOICE: it does so when the directory or what translates its header VAs changes (log
entry 83). -/
def State.watch (s : State) : State := { s with sch := { s.sch with tails := s.watchTails } }

/-- Two spans of bytes have one in common. -/
def spansMeet (a n b m : Nat) : Bool := decide (a < b + m) && decide (b < a + n)

/-- The tail lines after a write of n bytes: a write into the directory registers and unregisters headers, and one to TAIL of a watched header is
noted (R399). -/
def State.tailsAfter (s : State) (pa n : Nat) : List (Nat × Bool) :=
  let q := s.pkg.mgmt.qdir
  (if q != 0 && spansMeet pa n q 65536 then s.watchTails else s.sch.tails).map fun t => if spansMeet pa n (t.1 + 24) 8 then (t.1, true) else t

/-! ### Writes -/

/-- A write of bytes at a physical address, through a page with COMPRESS as `cmp` says. A write of a whole aligned line reads nothing of it,
and clears its poison (R235, R240). -/
def State.storeAs (s : State) (cmp : Option Bool) (pa : Nat) (bs : List Byte) : State :=
  let m := s.mem.write pa bs
  let lines := spanLines pa bs.length
  let slices := (s.homedLines pa bs.length).map fun l => homeSlice s.pkg.hbmsplit (128 * l)
  let part := fun l : Nat => !(decide (pa ≤ 128 * l) && decide (128 * l + 128 ≤ pa + bs.length))
  let s1 := s.bringSpan cmp pa bs.length
  { s1 with mem := m
            poison := s.poison.filter part
            ecc := s.ecc.filter part
            roost := s.roost.map (Roost.mark m lines)
            sch := { s.sch with cands := s.sch.cands.map (Cand.mark lines slices)
                                tails := ({ s with mem := m }).tailsAfter pa bs.length }
            ovf := s.ovf.map fun o => if slices.contains o.slice then { o with fired := true } else o }

/-- A write of bytes at a physical address by a unit that names no page. -/
def State.store (s : State) (pa : Nat) (bs : List Byte) : State := s.storeAs none pa bs

/-- A write of an n-byte little-endian number. -/
def State.storeNat (s : State) (pa n x : Nat) : State := s.store pa (leBytes n x)

end Sys2Proof.Machine
end

