-- ==== Sys2Proof/Machine/Parts.lean ====
section
/-! DEFINITION. Reading and updating the parts of the state, and fault records (R367, R370, R371). -/

namespace Sys2Proof.Machine

/-! ### Access to parts of the state -/

def State.team? (s : State) (id : Nat) : Option Team := s.teams.find? fun t => t.id == id

/-- Group gi of team id. -/
def State.grp? (s : State) (id : Nat × Nat) : Option Group := (s.team? id.1).bind fun t => t.groups[id.2]?

def State.updTeam (s : State) (id : Nat) (f : Team → Team) : State :=
  { s with teams := s.teams.map fun t => if t.id == id then f t else t }
def State.updCtx (s : State) (n : Nat) (f : Ctx → Ctx) : State :=
  { s with ctxs := s.ctxs.map fun c => if c.num == n then f c else c }
def Team.updGrp (t : Team) (gi : Nat) (f : Group → Group) : Team := { t with groups := t.groups.modify gi f }
def State.updGrp (s : State) (id : Nat × Nat) (f : Group → Group) : State := s.updTeam id.1 fun t => t.updGrp id.2 f
def State.updEng (s : State) (f : Engines → Engines) : State := { s with eng := f s.eng }
def State.updSch (s : State) (f : Sched → Sched) : State := { s with sch := f s.sch }
def State.updEcho (s : State) (f : EchoSt → EchoSt) : State := { s with echo := f s.echo }
def State.updPkg (s : State) (f : Package → Package) : State := { s with pkg := f s.pkg }

/-- The physical identity of the core that runs group gi of a team (R37). -/
def Team.coreOf (t : Team) (gi : Nat) : Nat := if t.kd.pair then t.core + gi % 2 else t.core
/-- Index of the core of group gi in the team's per-core tables (R37). -/
def Team.half (t : Team) (gi : Nat) : Nat := if t.kd.pair then gi % 2 else 0

/-- The group has exited (R168). -/
def Group.exited (g : Group) : Bool := g.live == 0#64

/-- Bit g set for each group that has not exited (R277). -/
def Team.glive (t : Team) : Nat := (t.groups.filter fun g => !g.exited).foldl (fun m g => m + 2 ^ g.idx) 0

/-- The time master's timebase comes to a tick, and the timebase of each die with it: within 2 ns of it, and never backwards (R355, R356; log
entry 2). -/
def State.setTime (s : State) (p : Nat) : State :=
  { s with ptp := p, ptps := s.ptps.zipIdx.map fun x => max x.1 (p + Config.skew s.freeN x.2 % 17 - 8) }

/-! ### Fault records (R367, R370, R371) -/

/-- The 32 bytes of a fault record (R367). -/
def recordBytes (code sev scope grp ctx detail core : Nat) (pc : W64) (addr : Nat) (lanes : W64) : List Byte :=
  leBytes 8 (code % 65536 * 2 ^ 48 + sev * 2 ^ 46 + scope * 2 ^ 44 + grp % 16 * 2 ^ 40 + ctx % 256 * 2 ^ 32 + detail % 2 ^ 32) ++
  leBytes 8 (core % 512 * 2 ^ 55 + bitsOf pc 3 53) ++ leBytes 8 addr ++ leBytes 8 lanes.toNat

/-- The fault-queue header that serves a context: its own, or context 0's where it has none (R366); 0 where neither has
one. -/
def State.fqOf (s : State) (ctx : Nat) : Nat :=
  let f := fun n => ((s.ctx? n).map Ctx.fqhdr).getD 0
  if f ctx ≠ 0 then f ctx else f 0

/-- Appends a record to the fault queue of a context; with the ring full, LOST is raised instead (R370). -/
def State.record (s : State) (ctx : Nat) (bytes : List Byte) : State :=
  let h := s.fqOf ctx
  if h = 0 then s
  else
    let d0 := s.mem.rd h 8
    let base := natBits d0 12 40 * 4096
    let cap := 2 ^ natBits d0 0 5
    let wr := s.mem.rd (h + 8) 8
    let rd := s.mem.rd (h + 16) 8
    if (wr + 2 ^ 64 - rd) % 2 ^ 64 = cap then s.storeNat (h + 24) 8 (s.mem.rd (h + 24) 8 + 1)
    else (s.store (base + 32 * (wr % cap)) bytes).storeNat (h + 8) 8 (wr + 1)

end Sys2Proof.Machine
end

