-- ==== Sys2Proof/Machine/Echo.lean ====
section
/-! DEFINITION. Budgets (R345 to R347) and Echo events (R350 to R363): charging an activity, and emitting, buffering and
dropping events. -/

namespace Sys2Proof.Machine

/-! ### Budgets -/

/-- Outcome of a charge (R347): admitted, held at the soft cap, or refused at the hard cap. -/
inductive Charge where
  | ok | soft | hard
deriving DecidableEq, Repr

/-- Activities (R345). -/
def actMatrix : Nat := 0
def actCopy : Nat := 1
def actSiphon : Nat := 2
def actAtom : Nat := 3
def actTrace : Nat := 4
def actLaunch : Nat := 5

/-- A row with nothing capped (R348). -/
def Row.fresh (tenant bcls : Nat) : Row :=
  { tenant := tenant, bcls := bcls, soft := List.replicate 6 0, hard := List.replicate 6 0, use0 := List.replicate 6 0,
    use1 := List.replicate 6 0, heard0 := List.replicate 6 0, heard1 := List.replicate 6 0, wt := 16, pend := [], told := false,
    elapsed := 0 }

/-- The row of a tenant and budget class. -/
def State.row? (s : State) (tenant bcls : Nat) : Option Row :=
  s.sch.rows.find? fun r => r.tenant == tenant && r.bcls == bcls
def State.updRow (s : State) (tenant bcls : Nat) (f : Row → Row) : State :=
  s.updSch fun c => { c with rows := c.rows.map fun r => if r.tenant == tenant && r.bcls == bcls then f r else r }

/-- Usage as a chamber die sees it: its own count and the other die's as last reported (R346). -/
def Row.seen (r : Row) (hub act : Nat) : Nat :=
  if hub = 0 then r.use0.getD act 0 + r.heard0.getD act 0 else r.use1.getD act 0 + r.heard1.getD act 0

/-- Adds to the usage of a row on a chamber die. -/
def Row.add (r : Row) (hub act n : Nat) : Row :=
  if hub = 0 then { r with use0 := r.use0.modify act (· + n) } else { r with use1 := r.use1.modify act (· + n) }

/-- Whether a charge of n units would be admitted (R347); work with no row is not capped. -/
def State.chargeAns (s : State) (tenant bcls act hub n : Nat) : Charge :=
  match s.row? tenant bcls with
  | none => .ok
  | some r =>
    let u := r.seen hub act
    let h := r.hard.getD act 0
    let f := r.soft.getD act 0
    if h ≠ 0 ∧ h < u + n then .hard else if f ≠ 0 ∧ f ≤ u then .soft else .ok

/-- Counts n units of an activity (R345). -/
def State.chargeRaw (s : State) (tenant bcls act hub n : Nat) : State := s.updRow tenant bcls fun r => r.add hub act n

/-! ### Filters, buffers, emission -/

/-- The filter entry of a tag, all zero where none is set (R357). -/
def State.filter (s : State) (tag : Nat) : Filter :=
  (s.echo.filters.find? fun f => f.tag == tag).getD
    { tag := tag, tenant := 0, sink := 0, stallmax := 0, lossless := false, en := false, cmask := 0#256, resv := 0#26,
      rest := List.replicate 3 0#64 }

/-- An event of the tag with this code is kept (R357). -/
def State.kept (s : State) (tag code : Nat) : Bool := (s.filter tag).en && (s.filter tag).cmask.getLsbD code

/-- Events of a buffer, and its capacity (R360). -/
def State.bufOf (s : State) (die unit : Nat) (k : BufKind) : List Ev :=
  ((s.echo.bufs.find? fun b => b.die == die && b.unit == unit && b.kind == k).map Buf.evs).getD []
def bufCap : BufKind → Nat
  | .core => 512
  | .system => 32
  | .engine => 64

/-- The buffer is full. -/
def State.bufFull (s : State) (die unit : Nat) (k : BufKind) : Bool := decide (bufCap k ≤ (s.bufOf die unit k).length)

/-- Replaces a value in an association list by key. -/
def setKey (xs : List (Nat × Nat)) (k v : Nat) : List (Nat × Nat) := (k, v) :: xs.filter fun p => p.1 != k
def getKey (xs : List (Nat × Nat)) (k : Nat) : Nat := ((xs.find? fun p => p.1 == k).map Prod.snd).getD 0

/-- Appends an event to a buffer. -/
def pushBuf (bs : List Buf) (die unit : Nat) (k : BufKind) (e : Ev) : List Buf :=
  if bs.any fun b => b.die == die && b.unit == unit && b.kind == k then
    bs.map fun b => if b.die == die && b.unit == unit && b.kind == k then { b with evs := b.evs ++ [e] } else b
  else bs ++ [{ die := die, unit := unit, kind := k, evs := [e] }]

/-- Adds events to the hub of a chamber die (R17, R360). -/
def EchoSt.toHub (e : EchoSt) (hub : Nat) (evs : List Ev) : EchoSt :=
  if hub = 0 then { e with hub0 := e.hub0 ++ evs } else { e with hub1 := e.hub1 ++ evs }

/-- The events that the two hubs hold, which the hub of H0 writes (R359; log entry 22). -/
def EchoSt.held (e : EchoSt) : List Ev := e.hub0 ++ e.hub1

/-- The tag under which a source counts its drops: a core counts per tag, every other unit once (R341; log entry 23). -/
def dropTag (die unit tag : Nat) : Nat := if 2 ≤ die ∧ unit < 32 then tag else 0

/-- Raises the drop count of a source (R361). -/
def State.dropEv (s : State) (die unit tag : Nat) : State :=
  let hit := fun (d : Drop) => d.die == die && d.unit == unit && d.tag == dropTag die unit tag
  let more := fun (ds : List Drop) =>
    if ds.any hit then ds.map fun d => if hit d then { d with count := d.count + 1#32 } else d
    else ds ++ [{ die := die, unit := unit, tag := dropTag die unit tag, count := 1#32 }]
  s.updEcho fun e => { e with drops := more e.drops }

/-- The timebase of a die (R341, R355). -/
def State.dieTime (s : State) (die : Nat) : Nat := s.ptps.getD die 0

/-- The next event of a die: TS is its timebase, and the events of the die are numbered (R353). -/
def State.mkEv (s : State) (die unit code tag : Nat) (payload : W32) : Ev :=
  { ts := s.dieTime die % 2 ^ 56, seq := getKey s.echo.seqs die, die := die, unit := unit, code := code, tag := tag, payload := payload }
def State.bumpSeq (s : State) (die : Nat) : State :=
  s.updEcho fun e => { e with seqs := setKey e.seqs die (getKey e.seqs die + 1) }

/-- The header PA of the sink of a tag (R358), 0 for none. -/
def State.sinkOf (s : State) (tag : Nat) : Nat := getKey s.echo.sinks (s.filter tag).sink

/-- Emission by a unit that has no buffer of its own: the scheduler, the hub, the time master, Phimus. The event goes to
the hub. -/
def State.emitHub (s : State) (die unit code tag : Nat) (payload : W32) : State :=
  if !s.kept tag code then s
  else (s.updEcho fun e => e.toHub (chamberOf die) [s.mkEv die unit code tag payload]).bumpSeq die

/-- Event 0x40 for a cap of a row, hard or soft (R352). -/
def State.capEvent (s : State) (tenant bcls act hub : Nat) (hard : Bool) : State :=
  s.emitHub hub 0x300 0x40 0 (BitVec.ofNat 32 (tenant * 65536 + bcls * 256 + (if hard then 8 else 0) + act))

/-- Event 0x40 for a hard cap that has been met. -/
def State.hardCap (s : State) (tenant bcls act hub : Nat) : State := s.capEvent tenant bcls act hub true

/-- How many of n elements that reach a slice together pass the hard cap one by one (R347). -/
def State.admits (s : State) (tenant bcls act hub n : Nat) : Nat :=
  match s.row? tenant bcls with
  | none => n
  | some r => if r.hard.getD act 0 = 0 then n else min n (r.hard.getD act 0 - r.seen hub act)

/-- A charge with its event 0x40 when a cap is reached (R347, R352). -/
def State.charge (s : State) (tenant bcls act hub n : Nat) : Charge × State :=
  match s.chargeAns tenant bcls act hub n with
  | .hard => (.hard, s.hardCap tenant bcls act hub)
  | .soft => (.soft, s)
  | .ok =>
    let s1 := s.chargeRaw tenant bcls act hub n
    let reached := (s1.row? tenant bcls).any fun r => decide (r.soft.getD act 0 ≠ 0 ∧ r.soft.getD act 0 ≤ r.seen hub act)
    (.ok, if reached then s1.capEvent tenant bcls act hub false else s1)

/-- A refusal of trace bytes, of which the first in a period is told by event 0x40 and logged (R347, R352). -/
def State.traceRefused (s : State) (tenant bcls hub tag : Nat) : State :=
  if (s.row? tenant bcls).any Row.told then s
  else
    let s1 := ((s.charge tenant bcls actTrace hub 16).2.updRow tenant bcls fun r => { r with told := true }).record tag
      (recordBytes cBudgetViolation 0 0 0 tag 0 0 0#64 (s.sinkOf tag) 0#64)
    s1.emitHub 0 0x300 0x10 tag (BitVec.ofNat 32 (cBudgetViolation * 65536))

/-- An event finds room: in its buffer, and under the caps of the row that it is charged to, if it is charged. In lossless mode it is kept
past a full buffer or the soft cap, since its source waits before it makes more (R347, R361, R362). -/
def State.takesEv (s : State) (k : BufKind) (row : Option (Nat × Nat)) (die unit tag : Nat) : Bool :=
  let ans := (row.map fun r => s.chargeAns r.1 r.2 actTrace (chamberOf die) 16).getD .ok
  ans != .hard && ((s.filter tag).lossless || (ans == .ok && !s.bufFull die unit k))

/-- Emission of an event into a buffer (R360 to R362), charged to a budget row where the buffer is a core's (R345). -/
def State.emitBuf (s : State) (k : BufKind) (row : Option (Nat × Nat)) (die unit code tag : Nat) (payload : W32) : State :=
  let hub := chamberOf die
  let ans := row.map fun r => (r, s.chargeAns r.1 r.2 actTrace hub 16)
  if !s.kept tag code then s
  else if s.takesEv k row die unit tag then
    let s1 := match ans with
      | some (r, .ok) => (s.charge r.1 r.2 actTrace hub 16).2
      | some (r, _) => s.chargeRaw r.1 r.2 actTrace hub 16
      | none => s
    (s1.updEcho fun e => { e with bufs := pushBuf e.bufs die unit k (s1.mkEv die unit code tag payload) }).bumpSeq die
  else
    let s1 := s.dropEv die unit tag
    match ans with
    | some (r, .hard) => s1.traceRefused r.1 r.2 hub tag
    | _ => s1

/-- The budget row that a team's work is charged to (R345). -/
def Team.row (t : Team) : Nat × Nat := (t.tenant, t.bcls)

/-- Emission by core hardware for a team, into the system area of the core (R352, R360). -/
def State.emitCore (s : State) (t : Team) (core code : Nat) (payload : W32) : State :=
  s.emitBuf .system (some t.row) (coreDie core) (core % 32) code t.ctx payload

/-- Events 0x50 and 0x51 bypass every buffer (R362). -/
def State.emitStall (s : State) (core code tag : Nat) (payload : W32) : State :=
  s.emitHub (coreDie core) (core % 32) code tag payload

/-- Emission by an engine (R360). -/
def State.emitEngine (s : State) (die unit code tag : Nat) (payload : W32) : State := s.emitBuf .engine none die unit code tag payload

/-- An engine issues no further element of a context whose events are lossless, since its buffer is full (R362). -/
def State.engineHeld (s : State) (die unit tag : Nat) : Bool :=
  (s.filter tag).en && (s.filter tag).lossless && s.bufFull die unit .engine

/-! ### Sinks and drop counts (R358, R361) -/

/-- The ring of a sink: base, capacity, WR and RD (R358); none where no header is registered. -/
def State.sinkRing (s : State) (h : Nat) : Nat × Nat × Nat × Nat :=
  let d0 := s.mem.rd h 8
  (natBits d0 12 40 * 4096, 2 ^ natBits d0 0 5, s.mem.rd (h + 8) 8, s.mem.rd (h + 16) 8)

/-- Events of a sink that the hubs hold. -/
def State.hubFor (s : State) (h : Nat) : Nat := (s.echo.held.filter fun e => s.sinkOf e.tag == h).length

/-- A sink has no room for one more event beyond those that the hubs hold (R358). -/
def State.sinkFull (s : State) (h extra : Nat) : Bool :=
  let r := s.sinkRing h
  h != 0 && decide (r.2.1 ≤ (r.2.2.1 + 2 ^ 64 - r.2.2.2) % 2 ^ 64 + extra)

/-- The buffer in which event 0x52 of a source goes: a core's system area, an engine's own, none for a unit without one. -/
def ownBuf (die unit : Nat) : Option BufKind :=
  if 2 ≤ die ∧ unit < 32 then some .system else if 0x100 ≤ unit ∧ unit < 0x300 then some .engine else none

/-- Emits a drop count as event 0x52, which resets it, where there is room again: in the buffer of its source, under the caps and in the sink
(R361). A core's is charged to the tenant of the filter, BCLS 0 (log entry 23). -/
def State.tellDrop (s : State) (d : Drop) : State :=
  let s1 := s.updEcho fun e => { e with drops := e.drops.filter fun x => !(x.die == d.die && x.unit == d.unit && x.tag == d.tag) }
  let h := s.sinkOf d.tag
  if !s.kept d.tag 0x52 || s.sinkFull h (s.hubFor h) then s
  else match ownBuf d.die d.unit with
    | none => s1.emitHub d.die d.unit 0x52 d.tag d.count
    | some k =>
      let row := if k = .system then some ((s.filter d.tag).tenant, 0) else none
      if s.bufFull d.die d.unit k || !s.takesEv k row d.die d.unit d.tag then s else s1.emitBuf k row d.die d.unit 0x52 d.tag d.count

/-- Emits the drop counts of some sources. -/
def State.tellDrops (s : State) (p : Drop → Bool) : State := (s.echo.drops.filter p).foldl State.tellDrop s

/-- Event 0x10 at a fault delivered: from the core that raised it for a team, or from the scheduler of H0 where no core did. -/
def State.echoFault (s : State) (ctx code grp : Nat) (core : Option (Team × Nat)) : State :=
  let pl := BitVec.ofNat 32 (code % 65536 * 65536 + grp)
  match core with
  | some (t, c) => s.emitCore t c 0x10 pl
  | none => s.emitHub 0 0x300 0x10 ctx pl

end Sys2Proof.Machine
end

