-- ==== Sys2Proof/Machine/Engines.lean ====
section
/-! DEFINITION. The queues of the copy engines (R292, R293): which engines take a copy, how its pieces are handed to them, and what
is dropped when a team or a context goes (R309, R373, R375). -/

namespace Sys2Proof.Machine

/-- Engines that take a copy, by die and unit, lowest first (R293, R351). -/
def Copy.engines (c : Copy) : List (Nat × Nat) :=
  if c.hub then (List.range 16).map fun i => (chamberOf (coreDie c.core), 0x100 + i)
  else (List.range 8).map fun i => (coreDie c.core, 0x100 + i)

/-! ### Teams that are away (R299, R388, R389) -/

def State.updIdent (s : State) (id : Nat) (f : Ident → Ident) : State :=
  s.updSch fun c => { c with idents := c.idents.map fun i => if i.id == id then f i else i }

/-- The core that a team has left. -/
def State.leftCore (s : State) (id : Nat) : Nat := ((s.sch.idents.find? fun i => i.id == id).map Ident.core).getD 0

/-- The scheduler knows the team and its context is SAVED with its image. -/
def State.inArea (s : State) (id : Nat) : Bool :=
  (s.sch.idents.find? fun i => i.id == id).any fun i => (s.ctx? i.ctx).any fun c => c.st == .saved && c.saveIds.contains id

/-- What a team holds is in an image of a save area: it has left its core, or its image is not loaded yet (R54, R388, R389). -/
def State.away (s : State) (id : Nat) : Bool :=
  match s.team? id with
  | some t => (match t.load with
    | .image _ _ => true
    | _ => false)
  | none => (s.sch.cands.any fun x => x.id == id && x.off != 0) || s.inArea id

/-- The lower core of a team: while it is away, the one that the endpoints of its copies still name. -/
def State.seatOf (s : State) (id : Nat) : Nat := if s.away id then s.leftCore id else ((s.team? id).map Team.core).getD 0

/-! ### Placement (R292, R293) -/

/-- The commands in the queue of an engine. -/
def State.cmdsOf (s : State) (e : Nat × Nat) : List Cmd := s.eng.cmds.filter fun c => c.die == e.1 && c.unit == e.2

/-- A free command slot of an engine with fewer than 32 commands (R292). -/
def State.freeSlot (s : State) (e : Nat × Nat) : Option Nat :=
  (List.range 32).find? fun i => !(s.cmdsOf e).any fun c => c.slot == i

def State.copy? (s : State) (id : Nat) : Option Copy := s.eng.copies.find? fun c => c.id == id
def State.updCopy (s : State) (id : Nat) (f : Copy → Copy) : State :=
  s.updEng fun e => { e with copies := e.copies.map fun c => if c.id == id then f c else c }

/-- Hands the next piece of a copy to the lowest-numbered eligible engine with room (R293), which none of a missing or gated chiplet is (R23). -/
def State.placeOne (s : State) (c : Copy) : Option State :=
  ((c.engines.filter fun e => s.engineUp e.1).findSome? fun e => (s.freeSlot e).map fun i => (e, i)).map fun p =>
    let hi := min (c.placed + max c.piece 1) c.units
    (s.updEng fun g => { g with cmds := g.cmds ++
      [{ die := p.1.1, unit := p.1.2, slot := p.2, copy := c.id, lo := c.placed, hi := hi, p := c.placed, above := [], held := none }] }).updCopy
      c.id fun c => { c with placed := hi }

/-- Hands on pieces of the waiting copies, oldest first, while an engine has room. -/
def State.placeLoop : Nat → State → State
  | 0, s => s
  | fuel + 1, s =>
    match s.eng.copies.findSome? fun c => if c.placed < c.units then s.placeOne c else none with
    | some s1 => State.placeLoop fuel s1
    | none => s

/-- The engines of the package hold at most 128 × 32 commands. -/
def State.placeAll (s : State) : State := s.placeLoop 4096

/-- Removes copies and their commands. -/
def State.dropCopies (s : State) (p : Copy → Bool) : State :=
  let ids := (s.eng.copies.filter p).map Copy.id
  (s.updEng fun e => { e with copies := e.copies.filter fun c => !p c, cmds := e.cmds.filter fun c => !ids.contains c.copy }).placeAll

/-- Every unit of a copy is performed. -/
def State.allDone (s : State) (c : Copy) : Bool := decide (c.units ≤ c.placed) && !s.eng.cmds.any fun k => k.copy == c.id

/-- What is left of multicasts that reach no destination any more is dropped; they are complete (R305). -/
def State.dropUnreached (s : State) : State :=
  let p := fun c : Copy => c.op == .cpym && c.cores.isEmpty
  let ids := (s.eng.copies.filter p).map Copy.id
  if ids.isEmpty then s
  else (s.updEng fun e => { e with cmds := e.cmds.filter fun k => !ids.contains k.copy
                                   copies := e.copies.map fun c => if p c then { c with placed := c.units } else c }).placeAll

/-- Marks a team gone as a destination of multicasts that have not reached it wholly: failed where it was killed, dropped where it ended (R305). -/
def State.loseDest (s : State) (team : Nat) (killed : Bool) : State :=
  let lose := fun (c : Copy) =>
    let gone := (c.cores.filter fun p => p.2 == team).map Prod.fst
    if gone.isEmpty || s.allDone c then c
    else { c with cores := c.cores.filter fun p => p.2 != team, told := false,
                  failed := if killed then c.failed ++ gone else c.failed,
                  dropped := if killed then c.dropped else c.dropped ++ gone }
  (s.updEng fun e => { e with copies := e.copies.map lose }).dropUnreached

/-! ### The wait lists of the queues (R272, R289) -/

/-- The 512 bytes of a WLIST area with some waiters registered, 8 for each (log entry 38). -/
def waitBytes (ws : List Waiter) : List Byte :=
  (ws.flatMap fun w => leBytes 8 (Config.waitWord w.team w.grp).toNat) ++ List.replicate (512 - 8 * ws.length) 0#8

/-- Writes bytes over some spans of memory, one after another. -/
def State.storeSpans (s : State) : List (Nat × Nat) → List Byte → State
  | [], _ => s
  | (pa, n) :: spans, bs => (s.store pa (bs.take n)).storeSpans spans (bs.drop n)

/-- Changes the wait lists, and with them the area of each queue whose list is another afterwards. -/
def State.setWaiters (s : State) (ws : List Waiter) : State :=
  let one := fun (s1 : State) (w : Waiter) =>
    let mine := ws.filter fun x => x.hdr == w.hdr
    if (s.waiters.filter fun x => x.hdr == w.hdr) == mine then s1 else s1.storeSpans w.area (waitBytes mine)
  (s.waiters ++ ws).foldl one { s with waiters := ws }

/-- Takes groups off the wait lists. -/
def State.unwait (s : State) (p : Nat → Nat → Bool) : State := s.setWaiters (s.waiters.filter fun w => !p w.team w.grp)

/-- What a killed team leaves in the engines and tables (R373): its copies are cancelled without postings, its roost entries but the
counted monitors and its queue registrations go. -/
def State.dropTeamWork (s : State) (id : Nat) : State :=
  let s1 := ((s.dropCopies fun c => c.team == id).loseDest id true).unwait fun t _ => t == id
  { s1 with roost := s1.roost.filter fun e => !(e.team == id && e.kind != .count)
            ovf := s1.ovf.filter fun o => o.team != id
            freezes := s1.freezes.filter fun z => z.team != id
            calls := s1.calls.filter fun c => c.team != id }

/-- What a terminated context leaves (R375): nothing in the engines, the roost, the wait lists and the scheduler. -/
def State.dropCtxWork (s : State) (ctx : Nat) : State :=
  let ids := (s.sch.idents.filter fun i => i.ctx == ctx).map Ident.id
  let s1 := (s.dropCopies fun c => c.ctx == ctx).unwait fun t _ => ids.contains t
  { s1 with roost := s1.roost.filter fun e => e.ctx != ctx
            ovf := s1.ovf.filter fun o => !ids.contains o.team
            freezes := s1.freezes.filter fun z => z.ctx != ctx
            calls := s1.calls.filter fun c => c.ctx != ctx
            eng := { s1.eng with qjobs := s1.eng.qjobs.filter fun j => j.ctx != ctx }
            sch := { s1.sch with launches := s1.sch.launches.filter fun l => l.ctx != ctx
                                 idents := s1.sch.idents.filter fun i => i.ctx != ctx
                                 gangs := s1.sch.gangs.filter fun g =>
                                   !(s1.sch.launches.any fun l => l.id == g.launch && l.ctx == ctx) && !(g.ids.any ids.contains)
                                 cands := s1.sch.cands.filter fun c => c.ctx != ctx } }

/-- Sets DRAINED for each die under a drain that holds no team and no engine command (R402). -/
def State.testDrained (s : State) : State :=
  let idle := fun d : Nat => !(s.teams.any fun t => coreDie t.core == d) && !(s.eng.cmds.any fun k => k.die == d)
  s.updPkg fun p => { p with mgmt := { p.mgmt with drains := p.mgmt.drains.map fun x => if idle x.die then { x with drained := true } else x } }

/-- Adds to the counts of a converter (R84, R341). -/
def State.countAt (s : State) (die unit sat nar : Nat) : State :=
  let hit := fun (c : ConvCount) => c.die == die && c.unit == unit
  let add := fun (c : ConvCount) => { c with sat := c.sat + BitVec.ofNat 64 sat, nar := c.nar + BitVec.ofNat 64 nar }
  let more := fun (cs : List ConvCount) =>
    if cs.any hit then cs.map fun c => if hit c then add c else c
    else cs ++ [add { die := die, unit := unit, sat := 0#64, nar := 0#64 }]
  s.updEng fun e => { e with counts := more e.counts }

/-- The counts of a converter. -/
def State.countOf (s : State) (die unit : Nat) : Nat × Nat :=
  match s.eng.counts.find? fun c => c.die == die && c.unit == unit with
  | some c => (c.sat.toNat, c.nar.toNat)
  | none => (0, 0)

end Sys2Proof.Machine
end

