-- ==== Sys2Proof/Machine/Ops.lean ====
section
/-! DEFINITION. Named operations on the state, the taking of a fault (R365 to R375), and the issue of a word with its checks
in the order of R114. -/

namespace Sys2Proof.Machine

/-! ### Fault records (R367, R370, R371) -/

/-- SEV and SCOPE of a fault raised precisely or deferred at a group (R371). -/
def sevOf (x : Exc) : Nat × Nat :=
  if x.code = cLinkDown ∨ x.code = cUncorrectable ∨ x.code = cPoison ∨ x.code = cWatchdog ∨ x.code = cBarrierTimeout then (3, 3)
  else (2, 3)

/-- A logged fault: only its record and Echo event 0x10 (R369, R371). -/
def State.logFault (s : State) (ctx code detail addr : Nat) : State :=
  (s.record ctx (recordBytes code 0 0 0 ctx detail 0 0#64 addr 0#64)).echoFault ctx code 0 none

/-! ### Kill, stop, terminate (R373 to R375) -/

/-- A group in a lossless stall leaves it: event 0x51 (R362). -/
def State.endStall (s : State) (t : Team) (g : Group) : State :=
  match g.wait with
  | .trace since _ => s.emitStall (t.coreOf g.idx) 0x51 t.ctx (BitVec.ofNat 32 (g.slot * 65536 + min ((s.ptp - since) / 64) 65535))
  | _ => s

/-- The lossless stalls of a team end (R362). -/
def State.endStalls (s : State) (id : Nat) : State :=
  match s.team? id with
  | none => s
  | some t => t.groups.foldl (fun s g => s.endStall t g) s

/-- Kills a team: its stalls end, everything of it is discarded and its team-slot entry becomes FREE (R373). Its copies and roost entries are
removed by the hooks of the engines and tables. -/
def State.killTeam (s : State) (id : Nat) : State :=
  let s1 := (s.endStalls id).dropTeamWork id
  { s1 with teams := s1.teams.filter fun t => t.id != id
            cur := if (s1.cur.map Prod.fst) == some id then none else s1.cur }

/-- Terminates a context (R375): its teams are killed, its engine commands, waits and calls are dropped. -/
def State.terminate (s : State) (ctx : Nat) : State :=
  let ids := (s.teams.filter fun t => t.ctx == ctx).map Team.id
  let s1 := ids.foldl State.killTeam (s.dropCtxWork ctx)
  (s1.updCtx ctx fun c => { c with st := .terminated, saving := none }).testDrained

/-- Begins a save of a context (R374, R380), unless it is already being saved. -/
def State.beginSave (s : State) (ctx : Nat) (cause : Cause) : State :=
  s.updCtx ctx fun c => { c with saving := some (c.saving.getD cause), saveAt := if c.saving.isSome then c.saveAt else s.ptp }

/-- The group stands at its clause header and holds there until its context's save is written: `resw` is the word at which
it re-enters the clause, 0 for the header (R97, R383). DESIGN CHOICE: the tiles that the clause has changed so far (R98) are forgotten, since a
save image has no field for them (log entry 77). -/
def Group.haltAt (g : Group) (pc : W64) (resw : Nat) : Group :=
  { g with pc := pc, pos := 0, clause := [], resw := resw, wait := .halted, touched := [], tslots := 0 }

/-- TAKING A FAULT at a group, precise or deferred (R369 to R375): every access of the group is performed, then come the record with the given
PC, event 0x10, and the disposition of R371. A context that stops is saved with CAUSE 01; the group holds at header `hdr` and word `resw`. -/
def State.takeFault (s : State) (id : Nat × Nat) (x : Exc) (pc hdr : W64) (resw : Nat) (kill : Bool) : State :=
  match s.team? id.1 with
  | none => s
  | some t =>
    let sv := if kill then (3, 3) else sevOf x
    let core := t.coreOf id.2
    let bytes := recordBytes x.code sv.1 sv.2 id.2 t.ctx x.detail core pc x.addr x.lanes
    let s1 := ((s.updGrp id Group.performed).record t.ctx bytes).echoFault t.ctx x.code id.2 (some (t, core))
    if sv.1 = 3 then (if kill then s1.killTeam id.1 else s1).terminate t.ctx
    else
      let s2 := (s1.updGrp id fun g => g.haltAt hdr resw).beginSave t.ctx .stop
      { s2 with cur := if s2.cur = some id then none else s2.cur }

/-! ### Issue of a word (R114) -/

/-- What a word sees at its issue: its group as it stood before the word (R32), its team and context. -/
structure Iss where
  id : Nat × Nat
  v : View
  sh : Shape
  t : Team
  c : Ctx
  g : Group
deriving DecidableEq, Repr

/-- Active threads of the issuing group. -/
def Iss.act (w : Iss) (th : Nat) : Bool := w.g.active w.v th
def Iss.mask (w : Iss) : W64 := w.g.actMask w.v
def Iss.a (w : Iss) (th : Nat) : Nat := w.g.rdA w.v w.sh th
def Iss.b (w : Iss) (th : Nat) : Nat := w.g.rdB w.v w.sh th
def Iss.cc (w : Iss) (th : Nat) : Nat := w.g.rdC w.v w.sh th
/-- The value of a uniform source is that of thread 0. -/
def Iss.ua (w : Iss) : Nat := w.a 0
def Iss.ub (w : Iss) : Nat := w.b 0
def Iss.uc (w : Iss) : Nat := w.cc 0
def Iss.core (w : Iss) : Nat := w.t.coreOf w.id.2
def Iss.half (w : Iss) : Nat := w.t.half w.id.2
def Iss.own (w : Iss) : Option (Team × Nat) := some (w.t, w.core)

/-- What an entry adds to the checks of R114: encoding conditions that depend on the machine, its own operand-class faults,
registers it touches beyond its fields, the tiles it names, and the VAs that it translates through the TLBs of its core: `vas` are those that its
operands give, and `more` those that it finds in what it reads through them. -/
structure Entry where
  sh : Shape
  enc : Iss → Bool := fun _ => true
  cls : Iss → Option Exc := fun _ => none
  touch : Iss → Touch := fun _ => []
  tiles : Iss → List Nat := fun _ => []
  vas : Iss → List Nat := fun _ => []
  more : Iss → State → List Nat := fun _ _ => []

/-- Every VA that a word translates. -/
def Entry.needs (e : Entry) (w : Iss) (s : State) : List Nat := e.vas w ++ e.more w s

/-- Steps 2 to 7 of R114, in order. -/
def issueChecks (e : Entry) (w : Iss) : Except Exc Unit :=
  if w.sh.priv && !w.c.priv then .error { code := cPermission }
  else if !(w.v.encOk w.sh && e.enc w) then .error { code := cIllegalEncoding }
  else match e.cls w with
    | some x => .error x
    | none =>
      if !w.v.clsOk w.sh || decide (w.t.kd.named < w.v.namedNeed w.sh) then .error { code := cOperandClass }
      else if w.g.holdBad w.v w.sh then .error { code := cHoldExpired }
      else if w.g.resv.any fun r => decide (0 < r.rem) && (touchOf w.v w.sh ++ e.touch w).any r.hit then .error { code := cLookahead }
      else if (e.tiles w).any w.g.touched.contains then .error { code := cTileState }
      else .ok ()

/-- The address after the last word of the clause in progress: the next clause (R161). -/
def Group.nextClause (g : Group) : W64 := g.pc + BitVec.ofNat 64 (8 * g.clause.length)

/-- The group after a word has issued: latches and windows age, HOLD captures, and the position moves on, to the next clause
after the last word (R91, R98). `src` is the group before the word. DESIGN CHOICE: a matrix word with hold=a ages the latches as any word does (R113,
R199; log entry 90). -/
def Group.advance (g src : Group) (v : View) (sh : Shape) : Group :=
  let g1 := g.age.captureAll src v sh
  if g.pos + 1 < g.clause.length then { g1 with pos := g.pos + 1 }
  else { g1 with pc := g.nextClause, pos := 0, clause := [], touched := [], resw := 0, tslots := 0 }

/-- The group is between clauses. -/
def Group.atBoundary (g : Group) : Bool := g.pos == 0

/-- Changes the counts of a team slot of a team's core (R341). -/
def Team.updCount (t : Team) (half : Nat) (f : SlotCount → SlotCount) : Team := { t with counts := t.counts.modify half f }

/-- Adds to a performance counter of a slot. -/
def SlotCount.add (c : SlotCount) (k n : Nat) : SlotCount := { c with perf := c.perf.modify k fun x => x + BitVec.ofNat 64 n }

/-- Adds to a performance counter of a group's team on the core that runs the group (R342). -/
def State.perfAdd (s : State) (id : Nat × Nat) (k n : Nat) : State :=
  s.updTeam id.1 fun t => t.updCount (t.half id.2) fun c => c.add k n

/-- What PC2 counts for a word: its passes, or one for a uniform word (R342). -/
def Iss.passes (w : Iss) : Nat := if w.v.u then 1 else w.g.width / 16

/-- Moves the issuing group past the word and gives up the turn at a boundary. -/
def State.advance (s : State) (w : Iss) : State :=
  let s1 := (s.updGrp w.id fun g => g.advance w.g w.v w.sh).perfAdd w.id 2 w.passes
  { s1 with cur := if (s1.grp? w.id).any Group.atBoundary then none else s1.cur }

/-- The group with the values arrived that the word needs and that lie past their windows: the stall of R111 (log
entry 6). -/
def Group.awaited (g : Group) (v : View) (sh : Shape) (extra : Touch) : Group :=
  g.deliver fun r => r.rem == 0 && (touchOf v sh ++ extra).any r.hit

/-- The issuing group's view of the word, or `none` with no group issuing. -/
def State.iss? (s : State) (v : View) (sh : Shape) : Option Iss :=
  match s.cur with
  | none => none
  | some id =>
    match s.team? id.1 with
    | none => none
    | some t =>
      match s.ctx? t.ctx, t.groups[id.2]? with
      | some c, some g => some { id := id, v := v, sh := sh, t := t, c := c, g := g }
      | _, _ => none

/-- Address of the word at the group's position (R98). -/
def Group.wordPc (g : Group) : W64 := g.pc + BitVec.ofNat 64 (8 * g.pos)

/-! ### Walks (R221, R234) -/

/-- Entries of a TLB (R221). -/
def tlbCap : TlbPlace → Nat
  | .core _ => 64
  | .cluster _ _ => 1024

/-- A leaf enters a TLB; a full one drops an entry for it (log entry 56). -/
def State.tlbFill (s : State) (e : TlbEntry) : State :=
  let rest := s.tlb.filter fun x => !(x.place == e.place && x.covers e.ctx e.va)
  let mine := rest.filter fun x => x.place == e.place
  let kept := if mine.length < tlbCap e.place then rest
    else ((mine[Config.victim s.freeN e.va % mine.length]?).map rest.erase).getD rest
  { s with tlb := e :: kept }

/-- A VA is translated through a leaf: it is no window address, and no range covers it (R214, R217). -/
def Ctx.byLeaf (c : Ctx) (va : Nat) : Bool := natBits va 56 8 == 0 && natBits va 48 8 != 0xFF && (findRange c.committed va).isNone

/-- A translation of a VA that the core's own TLB does not hold and its cluster's does: it counts as a miss of the core's, and the leaf enters
that (R221, R342). -/
def State.coreFill (s : State) (c : Ctx) (core : Nat) (id : Nat × Nat) (va : Nat) : State :=
  if !c.byLeaf va || s.tlb.any (fun e => e.place == .core core && e.covers c.num va) then s
  else match s.tlb.find? fun e => tlbServes core e.place && e.covers c.num va with
    | none => s
    | some e => (s.perfAdd id 8 1).tlbFill { e with place := .core core }

/-- The same for the VAs of a word, in order. -/
def State.coreFills (s : State) (c : Ctx) (core : Nat) (id : Nat × Nat) (vas : List Nat) : State :=
  vas.foldl (fun s va => s.coreFill c core id va) s

/-- A translation of a VA by a party on a core starts a walk or joins one: no TLB of the core holds its leaf (R217, R221). -/
def State.walkNeeded (s : State) (c : Ctx) (core va : Nat) : Bool := c.byLeaf va && (s.tlbFind core c.num va).isNone

/-- The page that a VA needs walked (R221): that of the leaf which its walk finds, or its granule of 64 KiB where it finds none. -/
def State.missPage (s : State) (c : Ctx) (core va : Nat) : Nat :=
  match walk (s.entries (walkDie (some core)) c.num va) va 3 c.ptroot with
  | .ok (l, _) => va / 2 ^ l.bits * 2 ^ l.bits
  | .error _ => va / 65536 * 65536

/-- The pages that VAs need walked, each once. -/
def State.walkPages (s : State) (c : Ctx) (core : Nat) (vas : List Nat) : List Nat :=
  ((vas.filter (s.walkNeeded c core)).map (s.missPage c core)).foldl (fun ps p => if ps.contains p then ps else ps ++ [p]) []

/-- A core waits for the walk that is outstanding, for one of its teams (R221). -/
def Miss.join (m : Miss) (core team : Nat) : Miss :=
  { m with cores := if m.cores.contains core then m.cores else m.cores ++ [core], teams := m.teams ++ [(core, team)] }

/-- The walk of a page of a context by the cluster of a core is outstanding. -/
def Miss.isOf (m : Miss) (core ctx page : Nat) : Bool :=
  m.die == coreDie core && m.cluster == coreCluster core && m.ctx == ctx && m.va == page

/-- Entries of a cluster's miss table in use. -/
def State.missUsed (s : State) (core : Nat) : Nat := (s.misses.filter fun m => m.die == coreDie core && m.cluster == coreCluster core).length

/-- Enters a walk in the miss table of a cluster. -/
def State.addMiss (s : State) (m : Miss) : State := { s with misses := s.misses ++ [m] }

/-- Enters the walk of a page in the miss table of the core's cluster, or joins one that is there; with 256 outstanding there is no room
(R221). The team's slot counts the miss once, when its core begins to wait for the team, and a walk started for it (R342). -/
def State.startWalk (s : State) (c : Ctx) (core : Nat) (id : Nat × Nat) (page : Nat) : State :=
  match s.misses.find? fun m => m.isOf core c.num page with
  | some m =>
    if m.teams.contains (core, id.1) then s
    else State.perfAdd { s with misses := s.misses.map fun (x : Miss) => if x.isOf core c.num page then x.join core id.1 else x } id 8 1
  | none =>
    if 256 ≤ s.missUsed core then s
    else
      let m : Miss := { die := coreDie core, cluster := coreCluster core, ctx := c.num, va := page, cores := [core], teams := [(core, id.1)] }
      ((s.perfAdd id 8 1).perfAdd id 9 1).addMiss m

/-- The walks that pages need are entered or joined. -/
def State.startWalks (s : State) (c : Ctx) (core : Nat) (id : Nat × Nat) (pages : List Nat) : State :=
  pages.foldl (fun s p => s.startWalk c core id p) s

/-- A fault that a word meets where it has translated its addresses: in the translation, or in a check of what lies there (R214, R234, R290, R296).
PERMISSION with detail 3 names a context before that (R218). -/
def Exc.translated (x : Exc) : Bool :=
  [cTranslation, cPacked, cJtRange, cLsRange, cAtomicUnsupported, cMcastMask, cShapeRecord, cShapePitch, cCopyFault, cReduceType, cContract, cQueueDesc,
    cUncorrectable, cPoison].contains x.code || (x.code == cPermission && x.detail != 3)

/-- DEDUCED (log entry 93): of the pages that a word which is to fault needs walked, those whose walks find a leaf: they come first, since the fault is met past the
translation (R221, R234). -/
def State.leafWalks (s : State) (c : Ctx) (core : Nat) (x : Exc) (pages : List Nat) : List Nat :=
  if x.translated then pages.filter fun p => (walk (s.entries (walkDie (some core)) c.num p) p 3 c.ptroot).toOption.isSome else []

/-- A translation that faults has missed in the core's TLB, and its walk was started, though a walk that faults caches nothing (R221, R342). -/
def State.countWalks (s : State) (id : Nat × Nat) (x : Exc) (pages : List Nat) : State :=
  if pages ≠ [] ∧ x.translated = true then (s.perfAdd id 8 pages.length).perfAdd id 9 pages.length else s

/-! ### Commits of ranges and migrations under way (R219, R230, R231) -/

/-- The commit or migration stalls translations of a VA of a context. -/
def Freeze.holds (z : Freeze) (ctx va : Nat) : Bool :=
  z.inval.isNone && z.ctx == ctx && match z.page with
    | none => true
    | some p => va / 2 ^ p.2.1 == p.1 / 2 ^ p.2.1

/-- A translation of a VA of a context stalls (R219, R230). -/
def State.frozenVa (s : State) (ctx va : Nat) : Bool := s.freezes.any fun z => z.holds ctx va

/-- The translation sequencer is at work for a context: a further translation word for it waits (R231; log entry 66), and so do the parties
besides groups and engines that would translate for it. -/
def State.frozenCtx (s : State) (ctx : Nat) : Bool := s.freezes.any fun z => z.inval.isNone && z.ctx == ctx

/-- The stores of the teams that `p` selects that are not acknowledged, by team and group. -/
def State.unacked (s : State) (p : Team → Bool) : List (Nat × Nat × Nat) :=
  (s.teams.filter p).flatMap fun t => (t.groups.filter fun g => g.pendingStores != 0).map fun g => (t.id, g.idx, g.pendingStores)

/-- The word stalls at translation before its issue. -/
def State.freezeStall (s : State) (w : Iss) : State := { s.updGrp w.id (fun g => { g with wait := .frozen }) with cur := none }

/-! ### The issue itself -/

/-- Values that the word finds missing past their windows: what PC4 counts for it is a free value (R111, R342; log entry 20). -/
def State.countStall (s : State) (w : Iss) (e : Entry) : State :=
  if w.g.resv.any fun r => !r.arrived && r.rem == 0 && (touchOf w.v w.sh ++ e.touch w).any r.hit then
    s.perfAdd w.id 4 (Config.perfValue s.freeN).toNat
  else s

/-- The word stalls before its issue for the walks that its translations need (R98, R234). -/
def State.walkStall (s : State) (w : Iss) (pages : List Nat) : State :=
  { (s.startWalks w.c w.core w.id pages).updGrp w.id (fun g => { g with wait := .room }) with cur := none }

/-- ISSUE OF A WORD: the checks of R114 up to step 7, the stall for values past their windows, the stall for walks of its translations, and
the word's own effect, which sees the group as it stood before the word and acts on a state in which the group has moved past it. A fault
leaves the word and every later one undone (R98), and comes after the walks that find a leaf; a translation that is frozen starts no walk
(R231). -/
def runWord (e : Entry) (v : View) (s : State) (eff : Iss → State → Except Exc State) : Host.Outcome State Fault Refusal :=
  match s.iss? v e.sh with
  | none => .fault .noGroup
  | some w =>
    match issueChecks e w with
    | .error x => .next (s.takeFault w.id x w.g.wordPc w.g.pc w.g.pos false)
    | .ok () =>
      let g := w.g.awaited v e.sh (e.touch w)
      let w1 := { w with g := g }
      let vas := e.needs w1 s
      let s1 := ((s.updGrp w.id fun _ => g).countStall w e).coreFills w.c w.core w.id vas
      let pages := s.walkPages w.c w.core vas
      if vas.any (s.frozenVa w.c.num) then .next (s1.freezeStall w1)
      else match eff w1 (s1.advance w1) with
        | .error x =>
          match s.leafWalks w.c w.core x pages with
          | [] => .next ((s1.countWalks w.id x pages).takeFault w.id x w.g.wordPc w.g.pc w.g.pos false)
          | leaves => .next (s1.walkStall w1 leaves)
        | .ok s2 =>
          match pages with
          | [] => .next s2
          | pages => .next (s1.walkStall w1 pages)

/-- A word whose only effect is on the registers of its group. -/
def runReg (e : Entry) (v : View) (s : State) (f : Iss → Group → Group) : Host.Outcome State Fault Refusal :=
  runWord e v s fun w s1 => .ok (s1.updGrp w.id (f w))

/-- A word whose result is a value per active thread, or one value of a uniform word, written at once (R105, R108). -/
def runVal (e : Entry) (v : View) (wide : Bool) (s : State) (x : Iss → Nat → Nat) : Host.Outcome State Fault Refusal :=
  runReg e v s fun w g => g.result v wide w.act (x w)

/-- The same for a long-latency word, whose destination is reserved (R109, R110). -/
def runLater (e : Entry) (v : View) (wide load : Bool) (s : State) (x : Iss → Nat → Nat) : Host.Outcome State Fault Refusal :=
  runReg e v s fun w g => g.later v wide load w.act w.mask (x w)

/-- The word has not issued after all: the group stands before it again. -/
def State.unissue (s : State) (w : Iss) : State :=
  (s.updTeam w.id.1 fun t => t.updCount w.half fun c => { c with perf := c.perf.modify 2 fun x => x - BitVec.ofNat 64 w.passes }).updGrp
    w.id fun _ => w.g

/-- The word stalls under back-pressure without having issued (R98). -/
def State.retry (s : State) (w : Iss) : State :=
  { (s.unissue w).updGrp w.id (fun g => { g with wait := .room }) with cur := none }

/-- The word stalls at a translation of its own context or of another without having issued (R219, R231). -/
def State.freezeRetry (s : State) (w : Iss) : State := (s.unissue w).freezeStall w

/-- A precise fault that leaves what the state holds besides the group. -/
def State.refuse (s : State) (w : Iss) (x : Exc) : State := (s.unissue w).takeFault w.id x w.g.wordPc w.g.pc w.g.pos false

/-- Charges an activity of the issuing team to its budget row: held at a soft cap, BUDGET_VIOLATION past a hard one (R347). -/
def State.charging (s : State) (w : Iss) (act n : Nat) (k : State → Except Exc State) : Except Exc State :=
  match s.charge w.t.tenant w.t.bcls act (chamberOf (coreDie w.core)) n with
  | (.ok, s1) => k s1
  | (.soft, _) => .ok (s.retry w)
  | (.hard, s1) => .ok (s1.refuse w { code := cBudgetViolation })

/-- Adds to the conversion counts of the team slot of the issuing core (R143, R341), and to PC14 (R342). -/
def State.countConv (s : State) (id : Nat × Nat) (sat nar bytes : Nat) : State :=
  (s.perfAdd id 14 bytes).updTeam id.1 fun t => t.updCount (t.half id.2) fun c =>
    { c with satc := c.satc + BitVec.ofNat 64 sat, narc := c.narc + BitVec.ofNat 64 nar }

end Sys2Proof.Machine
end

