-- ==== Sys2Proof/Machine/Flags.lean ====
section
/-! DEFINITION. Results of scalar words as numbers: narrowing and saturation of integers (R129), comparison results (R130,
R139), and the encodings of float results (R137). The machine keeps no condition flags; the sticky flags of the matrix
status (R177) are the flags it has. -/

namespace Sys2Proof.Machine

/-- The integer that a source stands for at a TY (R129 step 2). -/
def intArg (ty n : Nat) : Int := if tySigned ty then sInt (tyBits ty) n else (n % 2 ^ tyBits ty : Nat)

/-- Extension of a w-bit result to the register width: 64 bits for a 64-bit TY, else 32 (R129 step 5). -/
def intExtend (ty : Nat) (x : Nat) : Nat :=
  if tyBits ty = 64 then x % 2 ^ 64
  else if tySigned ty then wrapInt 32 (sInt (tyBits ty) x) else x % 2 ^ tyBits ty

/-- Narrowing of an exact result: clamped under SAT, else reduced modulo 2^w, then extended (R129 steps 4 and 5). -/
def intRes (ty : Nat) (sat : Bool) (x : Int) : Nat :=
  intExtend ty (wrapInt (tyBits ty) (if sat then clampInt (intMin (tyBits ty) (tySigned ty)) (intMax (tyBits ty) (tySigned ty)) x else x))

/-- A truth value as a result. -/
def boolRes (b : Bool) : Nat := if b then 1 else 0

/-- Matrix status bits (R177). -/
def flagTSAT : W32 := 0x1#32
def flagTRES : W32 := 0x2#32
def flagLSAT : W32 := 0x4#32
def flagXOVF : W32 := 0x8#32

end Sys2Proof.Machine
end

