-- ==== Sys2Proof/Machine/Integer.lean ====
section
/-! DEFINITION. Integer and bit words 0x000 to 0x027 (R128 to R135). -/

namespace Sys2Proof.Machine

/-- Quotient truncated toward zero; all ones for a zero divisor (R131). -/
def intDiv (a b : Int) : Int := if b = 0 then -1 else Int.tdiv a b

/-- Remainder with the sign of a; a for a zero divisor (R131). -/
def intRem (a b : Int) : Int := if b = 0 then a else Int.tmod a b

/-- The sum of byte products of `dot4` (R130). -/
def dot4Sum (sa sb : Bool) (a b : Nat) : Int :=
  let e := fun (sg : Bool) (x i : Nat) => if sg then sInt 8 (natBits x (8 * i) 8) else (natBits x (8 * i) 8 : Int)
  (List.range 4).foldl (fun acc i => acc + e sa a i * e sb b i) 0

/-- A number from its bits, bit 0 first. -/
def ofBits : List Bool → Nat
  | [] => 0
  | b :: bs => (if b then 1 else 0) + 2 * ofBits bs

/-- Three-input truth table over w bits (R130). -/
def lut3 (lut w a b c : Nat) : Nat :=
  ofBits ((List.range w).map fun j =>
    natBit lut (boolRes (natBit a j) + 2 * boolRes (natBit b j) + 4 * boolRes (natBit c j)))

/-- Rotation left within w bits by s below w (R130). -/
def rolBits (w a s : Nat) : Nat := (a * 2 ^ s) % 2 ^ w + a / 2 ^ (w - s)

/-- `bfx` (R132): the field [off + len' - 1 : off], extended from its top bit for a signed TY. -/
def bfxBits (ty a off len : Nat) : Nat :=
  let w := tyBits ty
  if len = 0 ∨ w ≤ off then 0
  else
    let n := min len (w - off)
    let x := natBits a off n
    if tySigned ty then wrapInt w (sInt n x) else x

/-- `bfi` (R132): a with the field replaced by the low bits of b. -/
def bfiBits (w a b off len : Nat) : Nat :=
  if len = 0 ∨ w ≤ off then a % 2 ^ w
  else
    let n := min len (w - off)
    a % 2 ^ off + (b % 2 ^ n) * 2 ^ off + (a % 2 ^ w) / 2 ^ (off + n) * 2 ^ (off + n)

/-- Number of one bits among the low w. -/
def popBits (w a : Nat) : Nat := ((List.range w).filter fun j => natBit a j).length
/-- Leading zero bits of w bits; w for zero. -/
def clzBits (w a : Nat) : Nat := w - bitLen (a % 2 ^ w)
/-- Trailing zero bits of w bits; w for zero. -/
def ctzBits (w a : Nat) : Nat := ((List.range w).takeWhile fun j => !natBit a j).length
/-- The low w bits in reverse order. -/
def revBits (w a : Nat) : Nat := ofBits (((List.range w).map fun j => natBit a j).reverse)

/-- Comparison codes of `cmp` (R128). -/
def intCC (cc : Nat) (a b : Int) : Bool :=
  match cc with
  | 0 => decide (a = b)
  | 1 => decide (a ≠ b)
  | 2 => decide (a < b)
  | 3 => decide (a ≤ b)
  | 4 => decide (b < a)
  | _ => decide (b ≤ a)

/-- The result of the word is 64 bits wide. -/
def Shape.isWide (sh : Shape) : Bool :=
  match sh.dst with
  | .val w => w
  | _ => false

/-- An integer word: `x ty f a b c` is its result from TY, FUNC and the sources as read (R129). -/
def runInt (v : View) (s : State) (x : Nat → Nat → Nat → Nat → Nat → Nat) : Host.Outcome State Fault Refusal :=
  runVal { sh := shInt v } v (Shape.isWide (shInt v)) s fun w th =>
    x (natBits v.efunc 13 3) v.efunc (w.a th) (w.b th) (w.cc th)

/-- A long-latency integer word (R110). -/
def runIntLater (v : View) (s : State) (x : Nat → Nat → Nat → Nat → Nat → Nat) : Host.Outcome State Fault Refusal :=
  runLater { sh := shInt v } v (Shape.isWide (shInt v)) false s fun w th =>
    x (natBits v.efunc 13 3) v.efunc (w.a th) (w.b th) (w.cc th)

/-- `add` (R130): a + b at the type width. -/
def addRes (ty f a b _c : Nat) : Nat := intRes ty (natBit f 12) (intArg ty a + intArg ty b)
/-- Meaning of `add` (R130). -/
def execAdd (w : FR) (s : State) : Host.Outcome State Fault Refusal :=
  runInt (w.view .fr 0x000) s addRes

/-- `sub` (R130): a - b. -/
def subRes (ty f a b _c : Nat) : Nat := intRes ty (natBit f 12) (intArg ty a - intArg ty b)
/-- Meaning of `sub` (R130). -/
def execSub (w : FR) (s : State) : Host.Outcome State Fault Refusal :=
  runInt (w.view .fr 0x001) s subRes

/-- `addc` (R130): a + b + c[0] read unsigned, carry in the high half. -/
def addcRes (_ty _f a b c : Nat) : Nat := (a + b + c % 2) % 2 ^ 32 + 2 ^ 32 * boolRes (decide (2 ^ 32 ≤ a + b + c % 2))
/-- Meaning of `addc` (R130). -/
def execAddc (w : FR) (s : State) : Host.Outcome State Fault Refusal :=
  runInt (w.view .fr 0x002) s addcRes

/-- `subb` (R130): a - b - c[0] read unsigned, borrow in the high half. -/
def subbRes (_ty _f a b c : Nat) : Nat := (a + 2 ^ 33 - b - c % 2) % 2 ^ 32 + 2 ^ 32 * boolRes (decide (a < b + c % 2))
/-- Meaning of `subb` (R130). -/
def execSubb (w : FR) (s : State) : Host.Outcome State Fault Refusal :=
  runInt (w.view .fr 0x003) s subbRes

/-- `mul` (R130): a × b. -/
def mulRes (ty f a b _c : Nat) : Nat := intRes ty (natBit f 12) (intArg ty a * intArg ty b)
/-- Meaning of `mul` (R130). -/
def execMul (w : FR) (s : State) : Host.Outcome State Fault Refusal :=
  runInt (w.view .fr 0x004) s mulRes

/-- `mulh` (R130): floor(a × b / 2^w). -/
def mulhRes (ty _f a b _c : Nat) : Nat := intRes ty false (intArg ty a * intArg ty b / (2 ^ tyBits ty : Int))
/-- Meaning of `mulh` (R130). -/
def execMulh (w : FR) (s : State) : Host.Outcome State Fault Refusal :=
  runInt (w.view .fr 0x005) s mulhRes

/-- `mad` (R130): a × b + c. -/
def madRes (ty f a b c : Nat) : Nat := intRes ty (natBit f 12) (intArg ty a * intArg ty b + intArg ty c)
/-- Meaning of `mad` (R130). -/
def execMad (w : FR) (s : State) : Host.Outcome State Fault Refusal :=
  runInt (w.view .fr 0x006) s madRes

/-- `neg` (R130): -a. -/
def negRes (ty f a _b _c : Nat) : Nat := intRes ty (natBit f 12) (-(intArg ty a))
/-- Meaning of `neg` (R130). -/
def execNeg (w : FR) (s : State) : Host.Outcome State Fault Refusal :=
  runInt (w.view .fr 0x007) s negRes

/-- `abs` (R130): |a|. -/
def absRes (ty f a _b _c : Nat) : Nat := intRes ty (natBit f 12) (intArg ty a).natAbs
/-- Meaning of `abs` (R130). -/
def execAbs (w : FR) (s : State) : Host.Outcome State Fault Refusal :=
  runInt (w.view .fr 0x008) s absRes

/-- `min` (R130): the smaller of a, b. -/
def minRes (ty _f a b _c : Nat) : Nat := intRes ty false (min (intArg ty a) (intArg ty b))
/-- Meaning of `min` (R130). -/
def execMin (w : FR) (s : State) : Host.Outcome State Fault Refusal :=
  runInt (w.view .fr 0x009) s minRes

/-- `max` (R130): the larger of a, b. -/
def maxRes (ty _f a b _c : Nat) : Nat := intRes ty false (max (intArg ty a) (intArg ty b))
/-- Meaning of `max` (R130). -/
def execMax (w : FR) (s : State) : Host.Outcome State Fault Refusal :=
  runInt (w.view .fr 0x00A) s maxRes

/-- `clamp` (R130): min(max(a, b), c). -/
def clampRes (ty _f a b c : Nat) : Nat := intRes ty false (min (max (intArg ty a) (intArg ty b)) (intArg ty c))
/-- Meaning of `clamp` (R130). -/
def execClamp (w : FR) (s : State) : Host.Outcome State Fault Refusal :=
  runInt (w.view .fr 0x00B) s clampRes

/-- `div` (R131): a / b truncated toward zero, long-latency. -/
def divRes (ty _f a b _c : Nat) : Nat := intRes ty false (intDiv (intArg ty a) (intArg ty b))
/-- Meaning of `div` (R131). -/
def execDiv (w : FR) (s : State) : Host.Outcome State Fault Refusal :=
  runIntLater (w.view .fr 0x00C) s divRes

/-- `rem` (R131): the remainder of a / b, long-latency. -/
def remRes (ty _f a b _c : Nat) : Nat := intRes ty false (intRem (intArg ty a) (intArg ty b))
/-- Meaning of `rem` (R131). -/
def execRem (w : FR) (s : State) : Host.Outcome State Fault Refusal :=
  runIntLater (w.view .fr 0x00D) s remRes

/-- `sad` (R130): |a - b| + c. -/
def sadRes (ty f a b c : Nat) : Nat := intRes ty (natBit f 12) ((intArg ty a - intArg ty b).natAbs + intArg ty c)
/-- Meaning of `sad` (R130). -/
def execSad (w : FR) (s : State) : Host.Outcome State Fault Refusal :=
  runInt (w.view .fr 0x00E) s sadRes

/-- `dot4` (R130): c + the sum of four byte products. -/
def dot4Res (ty f a b c : Nat) : Nat := intRes ty (natBit f 12) (intArg ty c + dot4Sum (natBit f 11) (natBit f 10) a b)
/-- Meaning of `dot4` (R130). -/
def execDot4 (w : FR) (s : State) : Host.Outcome State Fault Refusal :=
  runInt (w.view .fr 0x00F) s dot4Res

/-- `and` (R130): a AND b. -/
def andRes (ty _f a b _c : Nat) : Nat := intExtend ty (a &&& b)
/-- Meaning of `and` (R130). -/
def execAnd (w : FR) (s : State) : Host.Outcome State Fault Refusal :=
  runInt (w.view .fr 0x010) s andRes

/-- `or` (R130): a OR b. -/
def orRes (ty _f a b _c : Nat) : Nat := intExtend ty (a ||| b)
/-- Meaning of `or` (R130). -/
def execOr (w : FR) (s : State) : Host.Outcome State Fault Refusal :=
  runInt (w.view .fr 0x011) s orRes

/-- `xor` (R130): a XOR b. -/
def xorRes (ty _f a b _c : Nat) : Nat := intExtend ty (Nat.xor a b)
/-- Meaning of `xor` (R130). -/
def execXor (w : FR) (s : State) : Host.Outcome State Fault Refusal :=
  runInt (w.view .fr 0x012) s xorRes

/-- `not` (R130): NOT a. -/
def notRes (ty _f a _b _c : Nat) : Nat := intExtend ty (2 ^ tyBits ty - 1 - a)
/-- Meaning of `not` (R130). -/
def execNot (w : FR) (s : State) : Host.Outcome State Fault Refusal :=
  runInt (w.view .fr 0x013) s notRes

/-- `andn` (R130): a AND NOT b. -/
def andnRes (ty _f a b _c : Nat) : Nat := intExtend ty (a &&& (2 ^ tyBits ty - 1 - b))
/-- Meaning of `andn` (R130). -/
def execAndn (w : FR) (s : State) : Host.Outcome State Fault Refusal :=
  runInt (w.view .fr 0x014) s andnRes

/-- `lgc3` (R130): bit j is LUT bit (a_j + 2 b_j + 4 c_j). -/
def lgc3Res (ty f a b c : Nat) : Nat := intExtend ty (lut3 (natBits f 0 8) (tyBits ty) a b c)
/-- Meaning of `lgc3` (R130). -/
def execLgc3 (w : FR) (s : State) : Host.Outcome State Fault Refusal :=
  runInt (w.view .fr 0x015) s lgc3Res

/-- `shl` (R130): a × 2^b, 0 beyond the width. -/
def shlRes (ty _f a b _c : Nat) : Nat := intRes ty false (if b < tyBits ty then (a % 2 ^ tyBits ty * 2 ^ b : Nat) else 0)
/-- Meaning of `shl` (R130). -/
def execShl (w : FR) (s : State) : Host.Outcome State Fault Refusal :=
  runInt (w.view .fr 0x016) s shlRes

/-- `shr` (R130): unsigned a shifted right b places. -/
def shrRes (ty _f a b _c : Nat) : Nat := intRes ty false (if b < tyBits ty then (a % 2 ^ tyBits ty / 2 ^ b : Nat) else 0)
/-- Meaning of `shr` (R130). -/
def execShr (w : FR) (s : State) : Host.Outcome State Fault Refusal :=
  runInt (w.view .fr 0x017) s shrRes

/-- `sar` (R130): floor(a / 2^b), a signed. -/
def sarRes (ty _f a b _c : Nat) : Nat := intRes ty false (if b < tyBits ty then sInt (tyBits ty) a / (2 ^ b : Int) else if sInt (tyBits ty) a < 0 then -1 else 0)
/-- Meaning of `sar` (R130). -/
def execSar (w : FR) (s : State) : Host.Outcome State Fault Refusal :=
  runInt (w.view .fr 0x018) s sarRes

/-- `rol` (R130): a rotated left b mod w places. -/
def rolRes (ty _f a b _c : Nat) : Nat := intExtend ty (rolBits (tyBits ty) (a % 2 ^ tyBits ty) (b % tyBits ty))
/-- Meaning of `rol` (R130). -/
def execRol (w : FR) (s : State) : Host.Outcome State Fault Refusal :=
  runInt (w.view .fr 0x019) s rolRes

/-- `bfx` (R132): a field of a. -/
def bfxRes (ty _f a b _c : Nat) : Nat := intExtend ty (bfxBits ty a (natBits b 0 8) (natBits b 8 8))
/-- Meaning of `bfx` (R132). -/
def execBfx (w : FR) (s : State) : Host.Outcome State Fault Refusal :=
  runInt (w.view .fr 0x01A) s bfxRes

/-- `bfi` (R132): a with a field replaced from b. -/
def bfiRes (ty _f a b c : Nat) : Nat := intExtend ty (bfiBits (tyBits ty) a b (natBits c 0 8) (natBits c 8 8))
/-- Meaning of `bfi` (R132). -/
def execBfi (w : FR) (s : State) : Host.Outcome State Fault Refusal :=
  runInt (w.view .fr 0x01B) s bfiRes

/-- `pop` (R130): the number of one bits of a. -/
def popRes (ty _f a _b _c : Nat) : Nat := intRes ty false (popBits (tyBits ty) a : Nat)
/-- Meaning of `pop` (R130). -/
def execPop (w : FR) (s : State) : Host.Outcome State Fault Refusal :=
  runInt (w.view .fr 0x01C) s popRes

/-- `clz` (R130): the leading zero bits of a. -/
def clzRes (ty _f a _b _c : Nat) : Nat := intRes ty false (clzBits (tyBits ty) a : Nat)
/-- Meaning of `clz` (R130). -/
def execClz (w : FR) (s : State) : Host.Outcome State Fault Refusal :=
  runInt (w.view .fr 0x01D) s clzRes

/-- `ctz` (R130): the trailing zero bits of a. -/
def ctzRes (ty _f a _b _c : Nat) : Nat := intRes ty false (ctzBits (tyBits ty) a : Nat)
/-- Meaning of `ctz` (R130). -/
def execCtz (w : FR) (s : State) : Host.Outcome State Fault Refusal :=
  runInt (w.view .fr 0x01E) s ctzRes

/-- `brev` (R130): the bits of a in reverse order. -/
def brevRes (ty _f a _b _c : Nat) : Nat := intExtend ty (revBits (tyBits ty) a)
/-- Meaning of `brev` (R130). -/
def execBrev (w : FR) (s : State) : Host.Outcome State Fault Refusal :=
  runInt (w.view .fr 0x01F) s brevRes

/-- `cmp` (R130): 1 if a CC b, else 0. -/
def cmpRes (ty f a b _c : Nat) : Nat := boolRes (intCC (natBits f 9 3) (intArg ty a) (intArg ty b))
/-- Meaning of `cmp` (R130). -/
def execCmp (w : FR) (s : State) : Host.Outcome State Fault Refusal :=
  runInt (w.view .fr 0x020) s cmpRes

/-- `sel` (R130): a if c is not 0, else b. -/
def selRes (ty _f a b c : Nat) : Nat := intExtend ty (if c % 2 ^ 32 ≠ 0 then a else b)
/-- Meaning of `sel` (R130). -/
def execSel (w : FR) (s : State) : Host.Outcome State Fault Refusal :=
  runInt (w.view .fr 0x021) s selRes

/-- Meaning of `pset` (R133): bit 2p + q of LUT for predicates kPA and kPB. -/
def execPset (w : FR) (s : State) : Host.Outcome State Fault Refusal :=
  let v := w.view .fr 0x022
  runVal { sh := shPset v } v false s fun i th =>
    let t := i.g.thread th
    boolRes (natBit (natBits v.func 0 4) (2 * boolRes (t.ki (natBits v.func 13 3)) + boolRes (t.ki (natBits v.func 10 3))))

/-- Meaning of `lea` (R134): a + (b' << N) modulo 2^64. -/
def execLea (w : FR) (s : State) : Host.Outcome State Fault Refusal :=
  let v := w.view .fr 0x024
  runVal { sh := shLea v } v true s fun i th =>
    wrapInt 64 ((i.a th : Int) + (if natBit v.efunc 3 then sInt 32 (i.b th) else (i.b th : Int)) * 2 ^ natBits v.efunc 0 3)

/-- Meaning of `mov` (R134). -/
def execMov (w : FR) (s : State) : Host.Outcome State Fault Refusal :=
  let v := w.view .fr 0x025
  runVal { sh := shMov v } v (Shape.isWide (shMov v)) s fun i th => i.a th

/-- Meaning of `movi` (R134). -/
def execMovi (w : FI) (s : State) : Host.Outcome State Fault Refusal :=
  let v := w.view 0x026
  runVal { sh := shMovi v } v false s fun _ _ => wrapInt 32 v.imm

/-- Meaning of `movh` (R134). -/
def execMovh (w : FI) (s : State) : Host.Outcome State Fault Refusal :=
  let v := w.view 0x027
  runVal { sh := shMovh v } v false s fun i th => wrapInt 16 v.imm * 65536 + i.a th % 65536

end Sys2Proof.Machine
end

