-- ==== Sys2Proof/Machine/Float.lean ====
section
/-! DEFINITION. Float and packed-half words 0x040 to 0x056 (R136 to R141), and the logarithmic scalars 0x060 to 0x063
(R142). -/

namespace Sys2Proof.Machine

/-- The layout that FT selects (R136). -/
def ffOf (ft : Nat) : FFmt :=
  match ft with
  | 0 => ffF32
  | 1 => ffF16
  | _ => ffBf16

/-- A decoded source with its optional negation (R136). -/
def fltArg (k : FFmt) (ng : Bool) (x : Nat) : Val := if ng then (decFloat k x).neg else decFloat k x

/-- One rounding to the layout with policy IEEE (R137). -/
def fltRes (k : FFmt) (md : Rnd) (v : Val) : Nat := (encFloat k .ieee md 0 v).code

/-- The quotient a / b (R137). -/
def quoVal (a b : Val) : Val :=
  match a, b with
  | .nan, _ => .nan
  | _, .nan => .nan
  | .inf _, .inf _ => .nan
  | .inf s, b => .inf (s != b.sign)
  | a, .inf t => .fin (a.sign != t) 0 0
  | .fin s m e, .fin t n d =>
    if n = 0 then (if m = 0 then .nan else .inf (s != t))
    else if m = 0 then .fin (s != t) 0 0
    else divVal (s != t) m e n d
  | _, _ => .nan

/-- The square root (R137). -/
def rootVal (a : Val) : Val :=
  match a with
  | .nan => .nan
  | .inf s => if s then .nan else .inf false
  | .fin s m e => if m = 0 then .fin s 0 0 else if s then .nan else sqrtVal m e
  | _ => .nan

/-- 1 / √a (R137). 1/√(m × 2^e) is √(2^(-e) / m), taken with 512 quotient bits and a sticky bit. -/
def rsqrtVal (a : Val) : Val :=
  match a with
  | .nan => .nan
  | .inf s => if s then .nan else .fin false 0 0
  | .fin s m e =>
    if m = 0 then .inf s
    else if s then .nan
    else
      let k := 512 + 2 * bitLen m
      let q := 2 ^ k / m
      let rem := 2 ^ k % m
      -- √((q + frac) × 2^(-e - k)); the sticky bit keeps the result off a grid point when the quotient is inexact
      sqrtVal (2 * q + (if rem = 0 then 0 else 1)) (-e - k - 1)
  | _ => .nan

/-- 2^a (R137). The argument is split at 768 fraction bits; beyond ±2^16 the result is far outside every format. -/
def powVal (a : Val) : Val :=
  match a with
  | .nan => .nan
  | .inf s => if s then .fin false 0 0 else .inf false
  | .fin s m e =>
    if m = 0 then .fin false 1 0
    else if 16 < floorLog2 m e then .fin false 1 (if s then -(2 ^ 16) else 2 ^ 16)
    else if floorLog2 m e < -600 then .fin false (2 ^ 600 + (if s then 0 else 2) - 1) (-600)
    else
      let n : Int := if 0 ≤ e then (m * 2 ^ e.toNat : Nat) else (m : Nat)
      let w := if 0 ≤ e then 0 else (-e).toNat
      exp2Val false (if s then -n else n) w
  | _ => .nan

/-- log2 a (R137). -/
def logVal (a : Val) : Val :=
  match a with
  | .nan => .nan
  | .inf s => if s then .nan else .inf false
  | .fin s m e =>
    if m = 0 then .inf true
    else if s then .nan
    else
      let l := log2Fix m e
      if m = 2 ^ Nat.log2 m then ofInt ((Nat.log2 m : Int) + e)
      else ofFix l
  | _ => .nan

/-- sin a and cos a, a in radians (R137). -/
def sinOf (a : Val) : Val :=
  match a with
  | .fin s m e => if m = 0 then .fin s 0 0 else sinVal s m e
  | _ => .nan
def cosOf (a : Val) : Val :=
  match a with
  | .fin _ m e => if m = 0 then .fin false 1 0 else cosVal m e
  | _ => .nan

/-- `fmin` and `fmax` on codes of one layout: the chosen operand, with -0 below +0 (R137). -/
def minVal (mx : Bool) (a b : Val) : Val :=
  if a.isNaN || b.isNaN then .nan
  else
    let aLow : Bool := if a.isZero && b.isZero then a.sign else a.le b
    if aLow != mx then a else b

/-- `frnd`: rounding to an integral value, kept in the layout; a zero result keeps the sign (R137). -/
def integralVal (md : Rnd) (a : Val) : Val :=
  match a with
  | .fin s m e => .fin s (roundGrid md 0 s m e 0) 0
  | v => v

/-- Comparison codes of `fcmp` (R139). -/
def fltCC (cc : Nat) (a b : Val) : Bool :=
  let un := a.isNaN || b.isNaN
  match cc with
  | 0 => a.le b && b.le a
  | 1 => !(a.le b && b.le a)
  | 2 => !un && !b.le a
  | 3 => a.le b
  | 4 => !un && !a.le b
  | 5 => b.le a
  | 6 => un
  | _ => !un

/-- Class bit of `fclass` (R138). -/
def classBit (k : FFmt) (x : Nat) : Nat :=
  match decFloat k x with
  | .nan => 8
  | .inf s => if s then 0 else 7
  | .fin s m _ =>
    if m = 0 then (if s then 3 else 4)
    else if m < 2 ^ k.fb then (if s then 2 else 5)
    else if s then 1 else 6
  | _ => 8

/-- Exact results of the float operations on decoded sources (R137). -/
def faddVal (md : Rnd) (a b _ : Val) : Val := Val.add (decide (md = .rdn)) a b
def fsubVal (md : Rnd) (a b _ : Val) : Val := Val.add (decide (md = .rdn)) a b.neg
def fmulVal (_ : Rnd) (a b _ : Val) : Val := Val.mul a b
def fmaVal (md : Rnd) (a b c : Val) : Val := Val.add (decide (md = .rdn)) (Val.mul a b) c
def fminVal (_ : Rnd) (a b _ : Val) : Val := minVal false a b
def fmaxVal (_ : Rnd) (a b _ : Val) : Val := minVal true a b

/-- Rounding mode of a float word (R136). -/
def fltMode (f : Nat) : Rnd := (rndOf (natBits f 11 3)).getD .rne

/-- One float operation of FUNC f in layout k on source codes (R136, R137). -/
def fltApply (op : Rnd → Val → Val → Val → Val) (k : FFmt) (f a b c : Nat) : Nat :=
  fltRes k (fltMode f) (op (fltMode f) (fltArg k (natBit f 10) a) (fltArg k (natBit f 9) b) (fltArg k (natBit f 8) c))

/-- A scalar float word (R136): `later` for the long-latency ones (R110). -/
def runFlt (v : View) (s : State) (op : Rnd → Val → Val → Val → Val) : Host.Outcome State Fault Refusal :=
  let x := fun (w : Iss) th => fltApply op (ffOf (natBits v.efunc 14 2)) v.efunc (w.a th) (w.b th) (w.cc th)
  if (shFloat v).long then runLater { sh := shFloat v } v false false s x else runVal { sh := shFloat v } v false s x

/-- A packed-half word (R140): both halves by the scalar operation. -/
def runPacked (v : View) (s : State) (op : Rnd → Val → Val → Val → Val) : Host.Outcome State Fault Refusal :=
  runVal { sh := shFloat v } v false s fun w th =>
    let k := if natBits v.efunc 14 2 = 0 then ffF16 else ffBf16
    let one := fun i => fltApply op k v.efunc (natBits (w.a th) (16 * i) 16) (natBits (w.b th) (16 * i) 16) (natBits (w.cc th) (16 * i) 16)
    one 0 + 65536 * one 1

/-- Meaning of `fadd` (R137). -/
def execFadd (w : FR) (s : State) : Host.Outcome State Fault Refusal :=
  runFlt (w.view .fr 0x040) s faddVal

/-- Meaning of `fsub` (R137). -/
def execFsub (w : FR) (s : State) : Host.Outcome State Fault Refusal :=
  runFlt (w.view .fr 0x041) s fsubVal

/-- Meaning of `fmul` (R137). -/
def execFmul (w : FR) (s : State) : Host.Outcome State Fault Refusal :=
  runFlt (w.view .fr 0x042) s fmulVal

/-- Meaning of `fma` (R137). -/
def execFma (w : FR) (s : State) : Host.Outcome State Fault Refusal :=
  runFlt (w.view .fr 0x043) s fmaVal

/-- Meaning of `fmin` (R137). -/
def execFmin (w : FR) (s : State) : Host.Outcome State Fault Refusal :=
  runFlt (w.view .fr 0x044) s fminVal

/-- Meaning of `fmax` (R137). -/
def execFmax (w : FR) (s : State) : Host.Outcome State Fault Refusal :=
  runFlt (w.view .fr 0x045) s fmaxVal

/-- Meaning of `frnd` (R137). -/
def execFrnd (w : FR) (s : State) : Host.Outcome State Fault Refusal :=
  runFlt (w.view .fr 0x047) s (fun md a _ _ => integralVal md a)

/-- Meaning of `frcp` (R137). -/
def execFrcp (w : FR) (s : State) : Host.Outcome State Fault Refusal :=
  runFlt (w.view .fr 0x048) s (fun _ a _ _ => quoVal (.fin false 1 0) a)

/-- Meaning of `frsq` (R137). -/
def execFrsq (w : FR) (s : State) : Host.Outcome State Fault Refusal :=
  runFlt (w.view .fr 0x049) s (fun _ a _ _ => rsqrtVal a)

/-- Meaning of `fsqrt` (R137). -/
def execFsqrt (w : FR) (s : State) : Host.Outcome State Fault Refusal :=
  runFlt (w.view .fr 0x04A) s (fun _ a _ _ => rootVal a)

/-- Meaning of `fex2` (R137). -/
def execFex2 (w : FR) (s : State) : Host.Outcome State Fault Refusal :=
  runFlt (w.view .fr 0x04B) s (fun _ a _ _ => powVal a)

/-- Meaning of `flg2` (R137). -/
def execFlg2 (w : FR) (s : State) : Host.Outcome State Fault Refusal :=
  runFlt (w.view .fr 0x04C) s (fun _ a _ _ => logVal a)

/-- Meaning of `fsin` (R137). -/
def execFsin (w : FR) (s : State) : Host.Outcome State Fault Refusal :=
  runFlt (w.view .fr 0x04D) s (fun _ a _ _ => sinOf a)

/-- Meaning of `fcos` (R137). -/
def execFcos (w : FR) (s : State) : Host.Outcome State Fault Refusal :=
  runFlt (w.view .fr 0x04E) s (fun _ a _ _ => cosOf a)

/-- Meaning of `fdiv` (R137). -/
def execFdiv (w : FR) (s : State) : Host.Outcome State Fault Refusal :=
  runFlt (w.view .fr 0x04F) s (fun _ a b _ => quoVal a b)

/-- Meaning of `fscale` (R137): a × 2^b, b a signed integer; ±Inf and ±0 unchanged. -/
def execFscale (w : FR) (s : State) : Host.Outcome State Fault Refusal :=
  let v := w.view .fr 0x050
  runVal { sh := shFloat v } v false s fun i th =>
    let k := ffOf (natBits v.efunc 14 2)
    let a := fltArg k (natBit v.efunc 10) (i.a th)
    fltRes k (fltMode v.efunc) (if a.isZero then a else a.scl (sInt 32 (i.b th)))

/-- Meaning of `fcmp` (R139). -/
def execFcmp (w : FR) (s : State) : Host.Outcome State Fault Refusal :=
  let v := w.view .fr 0x046
  runVal { sh := shFloat v } v false s fun i th =>
    let k := ffOf (natBits v.efunc 14 2)
    boolRes (fltCC (natBits v.efunc 4 4) (fltArg k (natBit v.efunc 10) (i.a th)) (fltArg k (natBit v.efunc 9) (i.b th)))

/-- Meaning of `fclass` (R138). -/
def execFclass (w : FR) (s : State) : Host.Outcome State Fault Refusal :=
  let v := w.view .fr 0x051
  runVal { sh := shFloat v } v false s fun i th => 2 ^ classBit (ffOf (natBits v.efunc 14 2)) (i.a th)

/-- Meaning of `padd` (R140). -/
def execPadd (w : FR) (s : State) : Host.Outcome State Fault Refusal :=
  runPacked (w.view .fr 0x052) s faddVal

/-- Meaning of `pmul` (R140). -/
def execPmul (w : FR) (s : State) : Host.Outcome State Fault Refusal :=
  runPacked (w.view .fr 0x053) s fmulVal

/-- Meaning of `pfma` (R140). -/
def execPfma (w : FR) (s : State) : Host.Outcome State Fault Refusal :=
  runPacked (w.view .fr 0x054) s fmaVal

/-- Meaning of `pmin` (R140). -/
def execPmin (w : FR) (s : State) : Host.Outcome State Fault Refusal :=
  runPacked (w.view .fr 0x055) s fminVal

/-- Meaning of `pmax` (R140). -/
def execPmax (w : FR) (s : State) : Host.Outcome State Fault Refusal :=
  runPacked (w.view .fr 0x056) s fmaxVal

/-- A logarithmic scalar word (R142): the operation on codes of width 16 or 32. -/
def runLns (v : View) (s : State) (op : Nat → Nat → Nat → Nat) : Host.Outcome State Fault Refusal :=
  runVal { sh := shLns v } v false s fun w th =>
    let b := if natBit v.efunc 15 then 32 else 16
    op b (w.a th % 2 ^ b) (w.b th % 2 ^ b)

/-- Meaning of `lmul` (R142). -/
def execLmul (w : FR) (s : State) : Host.Outcome State Fault Refusal :=
  runLns (w.view .fr 0x060) s lnsMul

/-- Meaning of `ladd` (R142). -/
def execLadd (w : FR) (s : State) : Host.Outcome State Fault Refusal :=
  runLns (w.view .fr 0x061) s lnsAdd

/-- Meaning of `lsub` (R142). -/
def execLsub (w : FR) (s : State) : Host.Outcome State Fault Refusal :=
  runLns (w.view .fr 0x062) s (fun b x y => lnsAdd b x (lnsNeg b y))

/-- Meaning of `lmax` (R142). -/
def execLmax (w : FR) (s : State) : Host.Outcome State Fault Refusal :=
  runLns (w.view .fr 0x063) s lnsMaxOp

end Sys2Proof.Machine
end

