-- ==== Sys2Proof/Machine/Access.lean ====
section
/-! DEFINITION. Accesses of the threads of a group: reading and writing at a translated target, the L1 (R224, R225, R238),
poison and uncorrectable errors (R235), and the per-thread checks of R234. -/

namespace Sys2Proof.Machine

/-! ### Scratch memories -/

/-- Bytes of the LS of a team on one of its cores. -/
def State.lsBytes (s : State) (team core off n : Nat) : List Byte :=
  match s.team? team with
  | some t => Memory.bytes (t.ls.getD (core - t.core) []) off n
  | none => List.replicate n 0#8

/-- Writes bytes into the LS of a team on one of its cores. -/
def State.lsWrite (s : State) (team core off : Nat) (bs : List Byte) : State :=
  s.updTeam team fun t => { t with ls := t.ls.modify (core - t.core) fun m => Memory.write m off bs }

/-! ### L1 (R224, R225) -/

/-- The core whose L1 holds line PA for an access from `core`: itself, or by the hash of R225 when fused. -/
def l1Home (fused : Bool) (core pa : Nat) : Nat :=
  if fused then core / 4 * 4 + Nat.xor (Nat.xor (natBits pa 7 2) (natBits pa 9 2)) (natBits pa 11 2) else core

/-- The L1 line of a home that holds a physical address. -/
def State.l1Find (s : State) (home pa : Nat) : Option L1Line := s.l1.find? fun l => l.home == home && l.line == pa / 128

/-- Lines that the L1 of a core holds (R10, R22). -/
def l1Cap : Nat := 1024

/-- Page size in bits of the leaf that maps a VA for a core, 0 for a range. -/
def State.pageBits (s : State) (c : Ctx) (core va : Nat) : Nat :=
  if (findRange c.committed va).isSome then 0
  else match s.leafOf c (some core) va with
    | .ok l => l.bits
    | .error _ => 0

/-- Sets the L1 line of a home to the present bytes of memory, for an access of a context to a VA on a page of 2^bits bytes. A full L1 drops a
line for it (log entry 56). -/
def State.l1Fill (s : State) (home ctx va bits pa : Nat) : State :=
  let rest := s.l1.filter fun l => !(l.home == home && l.line == pa / 128)
  let mine := rest.filter fun l => l.home == home
  let kept := if mine.length < l1Cap then rest
    else ((mine[Config.victim s.freeN (pa / 128) % mine.length]?).map rest.erase).getD rest
  { s with l1 := { home := home, line := pa / 128, va := va / 128 * 128, bits := bits, ctx := ctx, bytes := s.mem.bytes (pa / 128 * 128) 128,
                   fenced := [] } :: kept }

/-- The line has the present bytes of memory. -/
def L1Line.refresh (l : L1Line) (m : Memory) : L1Line := { l with bytes := m.bytes (128 * l.line) 128, fenced := [] }

/-- Refreshes the L1 lines that a span of physical addresses touches, where an access of a core would find them (R224, R238, R252). -/
def State.l1Touch (s : State) (fused : Bool) (core pa n : Nat) : State :=
  { s with l1 := s.l1.map fun l =>
      if (spanLines pa n).contains l.line && l.home == l1Home fused core (128 * l.line) then l.refresh s.mem else l }

/-- Drops the L1 lines that `p` selects. -/
def State.l1Drop (s : State) (p : L1Line → Bool) : State := { s with l1 := s.l1.filter fun l => !p l }

/-! ### Reading and writing at a target -/

/-- The bytes at a target as its home holds them. -/
def State.readTarget (s : State) (t : Target) (n : Nat) : List Byte :=
  match t with
  | .phys pa _ _ => s.mem.bytes pa n
  | .ls team core off => s.lsBytes team core off n

/-- A target n bytes further on. -/
def Target.plus (t : Target) (n : Nat) : Target :=
  match t with
  | .phys pa p c => .phys (pa + n) p c
  | .ls team core off => .ls team core (off + n)

/-- Performs a write at a target's home. -/
def State.writeTarget (s : State) (t : Target) (bs : List Byte) : State :=
  match t with
  | .phys pa _ cmp => s.storeAs (some cmp) pa bs
  | .ls team core off => s.lsWrite team core off bs

/-- Reads a span that a party without threads resolves: checks by Translate, then the bytes. -/
def State.loadSpan (s : State) (c : Ctx) (own : Option (Team × Nat)) (va n : Nat) (kind : Kind) (engine : Bool) : Except Exc (List Byte) := do
  let ts ← s.translateSpan c own va n kind engine
  pure (ts.flatMap fun p => s.readTarget p.1 p.2)

/-- A little-endian number read through Translate. -/
def State.loadNat (s : State) (c : Ctx) (own : Option (Team × Nat)) (va n : Nat) (kind : Kind) : Except Exc Nat :=
  (s.loadSpan c own va n kind false).map leNat

/-- The group stalls inside its clause until the operation that its word started elsewhere completes (R98). -/
def State.stall (s : State) (w : Iss) : State := { s.updGrp w.id (fun g => { g with wait := .stall }) with cur := none }

/-! ### Acquires (R268) -/

/-- Scopes (R233, R245): `.g`, `.t`, `.c`, `.d`, `.p`, `.s` in order. -/
def scopeG : Nat := 0

/-- The lines that an acquire by a team on a core at scope `sc` reaches (R268). -/
def Team.acqReach (t : Team) (core sc : Nat) (l : L1Line) : Bool :=
  if t.kd.fusel1 then decide (3 ≤ sc) && l.home / 4 == core / 4
  else (decide (2 ≤ sc) || (decide (sc = 1) && t.kd.pair)) && l.home == core

/-- Invalidation by an acquire at scope `sc` (R268). -/
def State.acquire (s : State) (t : Team) (core sc : Nat) : State := s.l1Drop (t.acqReach core sc)

/-- Two intervals of addresses share one; an empty interval shares none (R266). -/
def spanMeets (va n base len : Nat) : Bool := decide (0 < n) && decide (0 < len) && decide (va < base + len) && decide (base < va + n)

/-- What an acquire by a context over a range leaves of a line (R266, R268): nothing, if the line was filled through the range; else the line,
which from then on serves no access that lies in the range. -/
def L1Line.fence (l : L1Line) (ctx base len : Nat) : Option L1Line :=
  if l.ctx = ctx ∧ spanMeets l.va 128 base len = true then none else some { l with fenced := (ctx, base, len) :: l.fenced }

/-- The acquire of `fencer` at scope `sc` over a range of VAs; an empty range orders nothing (R266, R268). -/
def State.acquireRange (s : State) (t : Team) (core sc base len : Nat) : State :=
  if len = 0 then s
  else { s with l1 := s.l1.filterMap fun l => if t.acqReach core sc l then l.fence t.ctx base len else some l }

/-- A line may serve an access of a context to n bytes at a VA: no `fencer` since its fill covers them (R266). -/
def L1Line.serves (l : L1Line) (ctx va n : Nat) : Bool := !l.fenced.any fun f => f.1 == ctx && spanMeets va n f.2.1 f.2.2

/-! ### Checks per thread (R234) -/

/-- Runs the checks of R234 for every active thread: the first failing thread's fault, with its address and the mask of the
threads whose first failure has the same code. -/
def checkThreads {α : Type} (ths : List Nat) (f : Nat → Except Exc α) : Except Exc (List (Nat × α)) :=
  let err := fun th => match f th with
    | .error x => some x
    | .ok _ => none
  match ths.findSome? err with
  | some x =>
    let same := ths.filter fun th => (err th).any fun y => y.code == x.code
    .error { x with lanes := BitVec.ofNat 64 (same.foldl (fun m th => m + 2 ^ th) 0) }
  | none => .ok (ths.filterMap fun th => match f th with
      | .ok a => some (th, a)
      | .error _ => none)

/-- Checks 2.1 to 2.3 of R234 for one address: alignment, LS range, translation. -/
def State.checkAddr (s : State) (w : Iss) (ls : Bool) (x size algn : Nat) (kind : Kind) : Except Exc Target :=
  if x % algn ≠ 0 then .error { code := cAlignment, addr := x }
  else if ls then
    (if w.t.lsBytes < x + size then .error { code := cLsRange, addr := x } else .ok (.ls w.t.id w.core x))
  else (s.translate w.c w.own x size kind false).mapError fun e => { e with addr := x }

/-- Address base of a memory word in a thread: A plus OFS23, modulo 2^64, or 2^32 for an LS offset (R232). -/
def Iss.memAddr (w : Iss) (ls : Bool) (th : Nat) : Nat := wrapInt (if ls then 32 else 64) ((w.a th : Int) + w.v.imm)

/-! ### LS banks (R241) -/

/-- Cycles that bank conflicts add to a pass: distinct 4-byte words beyond the first in a bank, over accesses of n bytes. -/
def bankExtra (n : Nat) (offs : List Nat) : Nat :=
  let words := (offs.flatMap fun o => (List.range ((n + 3) / 4)).map fun i => o / 4 + i).dedup
  words.length - ((words.map (· % 512)).dedup).length

/-- Conflict cycles of the accesses of n bytes that active threads make, pass by pass of 16 threads (PC5, R342). -/
def lsConflicts (w : Iss) (n : Nat) (ths : List Nat) (offs : Nat → List Nat) : Nat :=
  ((List.range (w.g.width / 16)).map fun p => bankExtra n ((ths.filter fun th => th / 16 == p).flatMap offs)).sum

/-! ### Events of R235 -/

/-- Reading the line meets an uncorrectable error: in its bytes, or in a tag that R227 never writes and that a line has in HBM. -/
def State.badLine (s : State) (l : Nat) : Bool :=
  s.ecc.contains l || ((s.tags.any fun t => t.line == l && decide (8 ≤ t.tag.toNat)) && !s.resident.any fun r => r.line == l)

/-- The event of R235 that an access to a line meets, if any: a poisoned line, or an uncorrectable error. -/
def State.lineEvent (s : State) (t : Target) (n : Nat) : Option Nat :=
  match t with
  | .phys pa _ _ =>
    let ls := spanLines pa n
    if ls.any s.poison.contains then some cPoison
    else if ls.any s.badLine then some cUncorrectable
    else none
  | .ls _ _ _ => none

/-- Entries of the ECC or the poison log for some lines, with their home slices (R391). -/
def State.logLines (s : State) (code : Nat) (lines : List Nat) : State :=
  { s with pkg := { s.pkg with logs := s.pkg.logs ++ lines.map fun l =>
      { pa := 128 * l, die := homeSlice s.pkg.hbmsplit (128 * l) / 96, unit := homeSlice s.pkg.hbmsplit (128 * l) % 96, code := code } } }

/-- Lines are marked poisoned after an uncorrectable error; the logs keep both (R211, R235, R391). -/
def State.poisonLines (s : State) (bad : List Nat) : State :=
  State.logLines ({ s with poison := addLines bad s.poison, ecc := s.ecc.filter fun l => !bad.contains l }.logLines cUncorrectable bad) cPoison bad

/-- An uncorrectable error marks its line poisoned (R211, R235). -/
def State.markPoison (s : State) (t : Target) (n : Nat) : State :=
  match t with
  | .phys pa _ _ => s.poisonLines ((spanLines pa n).filter fun l => s.badLine l && !s.poison.contains l)
  | .ls _ _ _ => s

/-- A deferred fault of the group, to be taken at its next boundary after those before it (R369). -/
def Group.defer (g : Group) (x : Exc) (pc : W64) : Group := { g with deferred := g.deferred ++ [(x, pc)] }

/-- Whether an access may find the page in the L1: not packed, and in HBM (R224). -/
def State.mayCache (s : State) (pa : Nat) (packed : Bool) : Bool := !packed && (regionOf s.pkg.hbmsplit pa).hbm

/-- A read of n bytes at its home by a group on a core: the bytes or the event of R235, and the state in which the line is resident in its
slice and, where the access may be cached, in the L1 (R224, R238). -/
def State.readHome (s : State) (id : Nat × Nat) (t : Team) (c : Ctx) (core va : Nat) (tg : Target) (n : Nat) (cache : Bool) :
    Except Nat (List Byte) × State :=
  match tg with
  | .ls team k off => (.ok (s.lsBytes team k off n), s)
  | .phys pa packed cmp =>
    match s.lineEvent tg n with
    | some code => (.error code, s.markPoison tg n)
    | none =>
      let s1 := s.bringSpan (some cmp) pa n
      (.ok (s.mem.bytes pa n),
        if !s.mayCache pa packed then s1
        else if cache then (s1.l1Fill (l1Home t.kd.fusel1 core pa) c.num va (s.pageBits c core va) pa).perfAdd id 7 1
        else s1.l1Touch t.kd.fusel1 core pa n)

/-- A read of n bytes by a group on a core. Where `cache` allows it and the line is present in the L1, it may be served from there; where the
home holds something else, whether it is so is free, and a line that does not serve is fetched again (R224, R238, R260; log entry 5). -/
def State.readCore (s : State) (id : Nat × Nat) (t : Team) (c : Ctx) (core va : Nat) (tg : Target) (n : Nat) (cache : Bool) :
    Except Nat (List Byte) × State :=
  match tg with
  | .ls team k off => (.ok (s.lsBytes team k off n), s)
  | .phys pa packed _ =>
    match if cache && s.mayCache pa packed then s.l1Find (l1Home t.kd.fusel1 core pa) pa else none with
    | none => s.readHome id t c core va tg n cache
    | some l =>
      let old := (l.bytes.drop (pa % 128)).take n
      if !l.serves c.num va n then s.readHome id t c core va tg n cache
      else if old = s.mem.bytes pa n ∧ s.lineEvent tg n = none then (.ok old, s.perfAdd id 6 1)
      else if Config.staleLine s.freeN then (.ok old, { s with freeN := s.freeN + 1 }.perfAdd id 6 1)
      else { s with freeN := s.freeN + 1 }.readHome id t c core va tg n cache

/-! ### Stores in flight (R239, R244, R340; log entry 55) -/

/-- What a store in flight takes from a view of the bytes from `pa` on, if it is the last that wrote them there. -/
def Late.undo (l : Late) (pa : Nat) (view : List Byte) : List Byte :=
  let at_ := fun i : Nat => pa + i - l.pa
  let mine := fun i : Nat => decide (l.pa ≤ pa + i) && decide (pa + i < l.pa + l.old.length)
  if (view.zipIdx).all fun b => !mine b.2 || l.new[at_ b.2]? == some b.1 then
    (view.zipIdx).map fun b => if mine b.2 then l.old.getD (at_ b.2) b.1 else b.1
  else view

/-- n bytes as a unit finds them that nothing orders after the stores in flight of a group: each store may be missed, but not one that an
overlapping later store, which is seen, follows. -/
def lateView (free : Nat) (m : Memory) (ls : List Late) (pa n : Nat) : List Byte :=
  ((ls.reverse.zipIdx).foldl (fun (acc : List Byte × List Late) li =>
    let l := li.1
    if (acc.2.any fun k => spanMeets k.pa k.old.length l.pa l.old.length) || !Config.lateStore (free + li.2) then (acc.1, l :: acc.2)
    else (l.undo pa acc.1, acc.2)) (m.bytes pa n, [])).1

/-- Every store of the group is performed: no unit misses it any more. -/
def Group.perform (g : Group) : Group := { g with late := [] }

/-- Performs a thread's write at its home and updates the issuing core's L1 lines (R224, R239). A partial write to a line that is poisoned or
whose bytes are lost is not merged; a write of whole aligned lines reads nothing (R235, R240, R243). DESIGN CHOICE: the deferred record of a store has
LANES 0, one record for each thread or element (log entry 76). -/
def State.writeThread (s : State) (w : Iss) (va : Nat) (t : Target) (bs : List Byte) : State :=
  match t with
  | .ls team core off => s.lsWrite team core off bs
  | .phys pa _ cmp =>
    match if pa % 128 = 0 ∧ bs.length % 128 = 0 then none else s.lineEvent t bs.length with
    | some code => (s.markPoison t bs.length).updGrp w.id fun g => g.defer { code := code, addr := va } w.g.wordPc
    | none => (s.storeAs (some cmp) pa bs).l1Touch w.t.kd.fusel1 w.core pa bs.length

/-- A plain store of a word: its thread, where it is one thread's, its VA or LS offset, its place, and its bytes (R194, R239, R243). -/
structure Put where
  th : Option Nat
  va : Nat
  tg : Target
  bs : List Byte
deriving DecidableEq, Repr

/-- The stores of a word, in their order (R256). -/
def State.writePuts (w : Iss) (s : State) (ps : List Put) : State := ps.foldl (fun s p => s.writeThread w p.va p.tg p.bs) s

/-- Stores that are in flight after their word, with what each finds before it. -/
def latesOf (far : Nat → Bool) (pc : W64) : Memory → List Put → List Late
  | _, [] => []
  | m, p :: ps =>
    match p.tg with
    | .phys pa _ _ =>
      { th := p.th, pc := pc, va := p.va, pa := pa, old := m.bytes pa p.bs.length, new := p.bs, kind := .put, far := far pa } ::
        latesOf far pc (m.write pa p.bs) ps
    | .ls _ _ _ => latesOf far pc m ps

/-- The home of a physical address is a host or a peer. -/
def State.farPa (s : State) (pa : Nat) : Bool := !(regionOf s.pkg.hbmsplit pa).hbm

/-- The stores of a word as they are in flight after it (R239). -/
def State.lates (s : State) (w : Iss) (ps : List Put) : List Late := latesOf s.farPa w.g.wordPc s.mem ps

end Sys2Proof.Machine
end

