-- ==== Sys2Proof/Machine/Control.lean ====
section
/-! DEFINITION. Control words (R162 to R173): branches, calls, tables, landing pads, divergence and `exit`. -/

namespace Sys2Proof.Machine

/-- Ends the clause at a terminal word: the group stands at the header `pc`, and the turn passes (R96). -/
def Group.goto (g : Group) (pc : W64) : Group := { g with pc := pc, pos := 0, clause := [], touched := [], resw := 0 }

/-- A terminal word's change of its group, at the clause boundary (R96). -/
def State.endClause (s : State) (w : Iss) (f : Group → Group) : State :=
  { s.updGrp w.id (fun g => f (g.goto w.g.nextClause)) with cur := none }

/-- Target of an F-B word: the header of its clause plus 8 × OFS37 (R101). -/
def Iss.target (w : Iss) : W64 := w.g.pc + BitVec.ofInt 64 (8 * w.v.imm)

/-- Active threads as a mask, and MASK without them. -/
def Iss.rest (w : Iss) : W64 := w.g.mask &&& ~~~ w.mask

/-- Pushes a divergence-stack entry. -/
def Group.pushStk (g : Group) (e : StkEnt) : Group := { g with stk := e :: g.stk }

/-- Resume (R161): the first waiting entry with a live thread; entries without are discarded. `land` is set for a TARGET
entry. -/
def resumeFrom (g : Group) : List StkEnt → Group
  | [] => { g with stk := [] }
  | e :: es =>
    if e.mask &&& g.live = 0#64 then resumeFrom g es
    else { g with stk := es, mask := e.mask &&& g.live, pc := e.pc,
                  land := if e.kind = .target then some (e.label, true) else none }

def Group.resume (g : Group) : Group := resumeFrom g g.stk

/-- A control word with the shape `sh`: `f` acts on the group at the boundary. -/
def runCtl (v : View) (sh : Shape) (s : State) (f : Iss → Except Exc (Group → Group)) : Host.Outcome State Fault Refusal :=
  runWord { sh := sh } v s fun w s1 => (f w).map fun k => s1.endClause w k

/-- Meaning of `br` (R163). -/
def execBr (w : FB) (s : State) : Host.Outcome State Fault Refusal :=
  runCtl (w.view 0x100) (shBranch (w.view 0x100)) s fun i =>
    if i.mask = 0#64 then .ok id
    else if i.rest = 0#64 then .ok fun g => { g with pc := i.target }
    else if 16 ≤ i.g.stk.length then .error { code := cDiverge }
    else .ok fun g => { g.pushStk ⟨g.pc, i.rest, 0#16, .pending⟩ with mask := i.mask, pc := i.target }

/-- Meaning of `call` (R167). -/
def execCall (w : FB) (s : State) : Host.Outcome State Fault Refusal :=
  runCtl (w.view 0x103) (shBranch (w.view 0x103)) s fun i =>
    if i.mask = 0#64 then .ok id
    else if 16 ≤ i.g.stk.length then .error { code := cDiverge }
    else .ok fun g => { g.pushStk ⟨g.pc, i.g.mask, 0#16, .call⟩ with mask := i.mask, pc := i.target }

/-- Meaning of `ret` (R167). -/
def execRet (w : FR) (s : State) : Host.Outcome State Fault Refusal :=
  runCtl (w.view .fr 0x105) (shRet (w.view .fr 0x105)) s fun i =>
    match i.g.stk with
    | [] => .error { code := cDiverge, detail := 1 }
    | e :: _ =>
      if e.kind = .reconv ∨ e.kind = .pending then .error { code := cDiverge, detail := 2 }
      else .ok Group.resume

/-- Meaning of `join` (R165). -/
def execJoin (w : FR) (s : State) : Host.Outcome State Fault Refusal :=
  runCtl (w.view .fr 0x108) (shRet (w.view .fr 0x108)) s fun i =>
    match i.g.stk with
    | [] => .error { code := cDiverge, detail := 1 }
    | e :: _ =>
      if e.kind = .call ∨ e.kind = .target then .error { code := cDiverge, detail := 2 }
      else .ok Group.resume

/-- Meaning of `split` (R164): not terminal. -/
def execSplit (w : FB) (s : State) : Host.Outcome State Fault Refusal :=
  runWord { sh := shBranch (w.view 0x107) } (w.view 0x107) s fun i s1 =>
    if 16 ≤ i.g.stk.length then .error { code := cDiverge }
    else .ok (s1.updGrp i.id fun g => g.pushStk ⟨i.target, i.g.mask, 0#16, .reconv⟩)

/-- Meaning of `loop` (R166). -/
def execLoop (w : FB) (s : State) : Host.Outcome State Fault Refusal :=
  runWord { sh := shLoop (w.view 0x10E), touch := fun _ => [((w.view 0x10E).dst, false)] } (w.view 0x10E) s fun i s1 =>
    let n := i.v.dst - 0x30
    let x := i.g.si n
    .ok (s1.endClause i fun g =>
      if x = 0#32 then g
      else
        let g1 := g.setS n (x - 1#32)
        if x - 1#32 = 0#32 then g1 else { g1 with pc := i.target })

/-- Meaning of `nop` (R169). -/
def execNop (w : FS) (s : State) : Host.Outcome State Fault Refusal :=
  runReg { sh := shNop (w.view 0x10D) } (w.view 0x10D) s fun _ g => g

/-- Meaning of `land` (R173): passes as a `nop`; the landing check is made at the header. -/
def execLand (w : FS) (s : State) : Host.Outcome State Fault Refusal :=
  runReg { sh := shLand (w.view 0x102) } (w.view 0x102) s fun _ g => g

/-! ### Jump tables (R170 to R172) -/

/-- A jump table as the fetch finds it: its label, length and target offset. -/
structure JTab where
  label : W16
  len : Nat
  tofs : Nat
deriving DecidableEq, Repr

/-- The table checks of R171, read through Translate(va, FETCH). -/
def readTable (s : State) (w : Iss) (tab : Nat) : Except Exc JTab := do
  let jt := w.t.kd.jtab.toNat
  let bad : Exc := { code := cJtRange, addr := jt, detail := 0xFFFFFFFF }
  if jt = 0 then .error bad
  let n := natBits (← s.loadNat w.c w.own jt 8 .fetch) 0 9
  if n ≤ tab then .error bad
  let d ← s.loadNat w.c w.own (jt + 8 + 8 * tab) 8 .fetch
  let t : JTab := { label := BitVec.ofNat 16 (natBits d 48 16), len := natBits d 32 16, tofs := natBits d 0 32 }
  if t.len = 0 ∨ 4096 < t.len ∨ t.tofs % 4 ≠ 0 then .error bad
  pure t

/-- The word of the table's header that its checks read first. -/
def tableVas (w : Iss) : List Nat := if w.t.kd.jtab = 0#64 then [] else [w.t.kd.jtab.toNat]

/-- VA of target entry j of a table (R170). -/
def JTab.entryVa (t : JTab) (w : Iss) (j : Nat) : Nat := w.t.kd.jtab.toNat + t.tofs + 4 * j

/-- What the table leads to: its descriptor, where the header has one, and the target entries with the indices `js`, where they are in range. -/
def tableMore (tab : Nat) (js : Iss → List Nat) (w : Iss) (s : State) : List Nat :=
  let jt := w.t.kd.jtab.toNat
  match s.loadNat w.c w.own jt 8 .fetch with
  | .error _ => []
  | .ok x =>
    if jt = 0 ∨ natBits x 0 9 ≤ tab then []
    else (jt + 8 + 8 * tab) :: match readTable s w tab with
      | .ok t => if (js w).all fun j => decide (j < t.len) then (js w).map (t.entryVa w) else []
      | .error _ => []

/-- Target of entry j: ENTRY + 8 × TGT (R170). -/
def tableTarget (s : State) (w : Iss) (t : JTab) (j : Nat) : Except Exc W64 := do
  let x ← s.loadNat w.c w.own (t.entryVa w j) 4 .fetch
  pure (w.t.kd.entry + BitVec.ofInt 64 (8 * sInt 32 x))

/-- Meaning of `jt` (R171). -/
def execJt (w : FR) (s : State) : Host.Outcome State Fault Refusal :=
  let v := w.view .fr 0x101
  runWord { sh := shTable v, vas := tableVas, more := tableMore (natBits v.efunc 0 8) fun i => [i.ua] } v s fun i s1 => do
    let t ← readTable s i (natBits v.efunc 0 8)
    if t.len ≤ i.ua then .error { code := cJtRange, addr := i.t.kd.jtab.toNat, detail := i.ua }
    let pc ← tableTarget s i t i.ua
    pure (s1.endClause i fun g => { g with pc := pc, land := some (t.label, false) })

/-- Adds an index in ascending order, once. -/
def insertIdx (x : Nat) : List Nat → List Nat
  | [] => [x]
  | y :: ys => if x < y then x :: y :: ys else if x = y then y :: ys else y :: insertIdx x ys

/-- Threads among `ths` with index d, as a mask. -/
def idxMask (w : Iss) (ths : List Nat) (p : Nat → Bool) : W64 :=
  BitVec.ofNat 64 ((ths.filter fun th => p (w.a th)).foldl (fun m th => m + 2 ^ th) 0)

/-- The distinct indices of the active threads, d0 < d1 < ... (R172). -/
def Iss.indices (i : Iss) : List Nat := (i.g.actives i.v).foldl (fun l th => insertIdx (i.a th) l) []

/-- Meaning of `callt` (R172): the target entries are read from that of dm down, that of d0 last. -/
def execCallt (w : FR) (s : State) : Host.Outcome State Fault Refusal :=
  let v := w.view .fr 0x104
  runWord { sh := shTable v, vas := tableVas, more := tableMore (natBits v.efunc 0 8) Iss.indices } v s fun i s1 => do
    let t ← readTable s i (natBits v.efunc 0 8)
    let ths := i.g.actives v
    match ths with
    | [] => pure (s1.endClause i id)
    | _ =>
      match ths.find? fun th => t.len ≤ i.a th with
      | some th => .error { code := cJtRange, addr := i.t.kd.jtab.toNat, detail := i.a th, lanes := idxMask i ths fun x => t.len ≤ x }
      | none =>
        let ds := i.indices
        if 16 < i.g.stk.length + ds.length then .error { code := cDiverge }
        let tg ← ds.reverse.mapM fun d => (tableTarget s i t d).map fun pc => (pc, idxMask i ths fun x => x == d)
        match tg.reverse with
        | [] => pure (s1.endClause i id)
        | (pc0, m0) :: more =>
          pure (s1.endClause i fun g =>
            { g with stk := more.map (fun p => ⟨p.1, p.2, t.label, .target⟩) ++ ⟨g.pc, i.g.mask, 0#16, .call⟩ :: g.stk,
                     mask := m0, pc := pc0, land := some (t.label, true) })

end Sys2Proof.Machine
end

