-- ==== Sys2Proof/Machine/MemWords.lean ====
section
/-! DEFINITION. Loads, stores, prefetch, zero lines and line queries (R232 to R244, R251, R252). -/

namespace Sys2Proof.Machine

/-- Scope and acquire bit of an OS field (R233); a weak access has scope `.g` and no order. -/
def osScope (os : Nat) : Nat := if os = 0 then 0 else os % 8 - 1
def osAcq (os : Nat) : Bool := 9 ≤ os

/-- The load may be served from the L1: weak, or strong at `.g` or `.t` (R238). -/
def osCached (os : Nat) : Bool := os == 0 || osScope os < 2

/-- One thread's read of `n` bytes: the value, or the event of R235, and the state after. -/
def State.readOne (s : State) (w : Iss) (va : Nat) (t : Target) (n : Nat) (cache : Bool) : Except Nat Nat × State :=
  let r := s.readCore w.id w.t w.c w.core va t n cache
  (r.1.map leNat, r.2)

/-- Reads of all threads in order: values of those that got one, and the deferred events of the others. -/
def State.readMany (w : Iss) (addr : Nat → Nat) (n : Nat) (cache : Bool) : State → List (Nat × Target) → State × List (Nat × Nat) × List (Nat × Nat)
  | s, [] => (s, [], [])
  | s, (th, t) :: rest =>
    let r := s.readOne w (addr th) t n cache
    let q := State.readMany w addr n cache r.2 rest
    match r.1 with
    | .ok x => (q.1, (th, x) :: q.2.1, q.2.2)
    | .error c => (q.1, q.2.1, (th, c) :: q.2.2)

/-- The value of a thread in a list of answers. -/
def valOf (xs : List (Nat × Nat)) (th : Nat) : Nat := ((xs.find? fun p => p.1 == th).map Prod.snd).getD 0
def hasVal (xs : List (Nat × Nat)) (th : Nat) : Bool := xs.any fun p => p.1 == th

/-- Mask of the threads in a list. -/
def maskOf (xs : List Nat) : W64 := BitVec.ofNat 64 (xs.foldl (fun m th => m + 2 ^ th) 0)

/-- The deferred faults of a word whose accesses met events, by thread, address and code: one for each code, with the first address and the
mask of the threads that met it. -/
def deferredOf (evs : List (Nat × Nat × Nat)) : List Exc :=
  ((evs.map fun p => p.2.2).dedup).map fun c =>
    let same := evs.filter fun p => p.2.2 == c
    { code := c, addr := (same.headD (0, 0, 0)).2.1, lanes := maskOf ((same.map Prod.fst).dedup) }

/-- The group takes the deferred events of a word, by thread, address and code (R235, R369). -/
def Group.deferEvs (g : Group) (w : Iss) (evs : List (Nat × Nat × Nat)) : Group :=
  (deferredOf evs).foldl (fun g x => g.defer x w.g.wordPc) g

/-- The same for events by thread and code, each at its thread's address. -/
def Group.deferAll (g : Group) (w : Iss) (addr : Nat → Nat) (evs : List (Nat × Nat)) : Group :=
  g.deferEvs w (evs.map fun p => (p.1, addr p.1, p.2))

/-- Size in bytes, and extension, of a load TY (R236). -/
def ldSize (ty : Nat) : Nat :=
  match ty with
  | 0 | 1 => 1
  | 2 | 3 => 2
  | 4 => 4
  | _ => 8
def ldExtend (ty x : Nat) : Nat :=
  match ty with
  | 1 => wrapInt 32 (sInt 8 x)
  | 3 => wrapInt 32 (sInt 16 x)
  | _ => x

/-- VAs that the active threads of a memory word form; an LS offset is none. -/
def Iss.memVas (w : Iss) (ls : Bool) : List Nat := if ls then [] else (w.g.actives w.v).map (w.memAddr ls)

/-- PC5 counts the bank conflicts of an LS word's passes (R241, R342). -/
def State.lsPass (s : State) (w : Iss) (ls : Bool) (n : Nat) : State :=
  if ls then s.perfAdd w.id 5 (lsConflicts w n (w.g.actives w.v) fun th => [w.memAddr ls th]) else s

/-- `ld` and `lds` (R236 to R238). Threads whose access met an event of R235 get a copy, as inactive threads do, and their
reservation is released (R112). -/
def runLoad (v : View) (ls : Bool) (s : State) : Host.Outcome State Fault Refusal :=
  let ty := natBits v.b 4 3
  let os := natBits v.b 0 4
  runWord { sh := shLoad v, vas := fun w => w.memVas ls } v s fun w s1 => do
    let n := ldSize ty
    let ts ← checkThreads (w.g.actives v) fun th => s1.checkAddr w ls (w.memAddr ls th) n n .read
    let s1 := s1.lsPass w ls n
    let s1' := if osAcq os then s1.acquire w.t w.core (osScope os) else s1
    let r := State.readMany w (w.memAddr ls) n (osCached os) s1' ts
    let got := hasVal r.2.1
    pure (r.1.updGrp w.id fun g =>
      (g.later v (ty == 5) true got (maskOf (r.2.1.map Prod.fst)) fun th => ldExtend ty (valOf r.2.1 th)).deferAll w (w.memAddr ls) r.2.2)

/-- Meaning of `ld` (R236, R237). -/
def execLd (w : FM) (s : State) : Host.Outcome State Fault Refusal := runLoad (w.view 0x140) false s
/-- Meaning of `lds` (R236, R237). -/
def execLds (w : FM) (s : State) : Host.Outcome State Fault Refusal := runLoad (w.view 0x142) true s

/-- First uniform register that `uld` names (R236). -/
def uldReg (v : View) : Nat := v.dst - 0x30 + (if natBit v.b 6 then 16 else 0)

/-- Meaning of `uld` (R236, R237). -/
def execUld (w : FM) (s : State) : Host.Outcome State Fault Refusal :=
  let v := w.view 0x145
  let wide := natBits v.b 4 2 == 1
  let os := natBits v.b 0 4
  runWord { sh := shUld v, touch := fun _ => [(0x30 + uldReg v, wide)], vas := fun w => [w.memAddr false 0] } v s fun i s1 => do
    let n := if wide then 8 else 4
    let x := i.memAddr false 0
    let t ← s1.checkAddr i false x n n .read
    let s1' := if osAcq os then s1.acquire i.t i.core (osScope os) else s1
    let r := s1'.readOne i x t n (osCached os)
    match r.1 with
    | .ok val => pure (r.2.updGrp i.id fun g =>
        g.reserve { qi := none, wide := wide, named := [], uni := some (uldReg v), uniN := if wide then 2 else 1, mask := 0#64,
                    vals := [BitVec.ofNat 64 val], rem := v.look, arrived := false, load := true })
    | .error c => pure (r.2.updGrp i.id fun g => g.defer { code := c, addr := x } i.g.wordPc)

/-- The stores of threads in ascending order, so that the highest-index thread's byte stands (R256). -/
def threadPuts (addr : Nat → Nat) (bs : Nat → List Byte) (ts : List (Nat × Target)) : List Put :=
  ts.map fun p => { th := some p.1, va := addr p.1, tg := p.2, bs := bs p.1 }

/-- The threads of a store word together write every byte of a line: it is written whole, reads nothing, and its poison is cleared (R240). A line
of a host or a peer has no slice to be in (R223). -/
def State.clearWhole (s : State) (ts : List (Nat × Target)) (n : Nat) : State :=
  let bytes := ts.flatMap fun p => match p.2 with
    | .phys pa _ _ => (List.range n).map (pa + ·)
    | .ls _ _ _ => []
  let part := fun l : Nat => !((List.range 128).all fun k => bytes.contains (128 * l + k))
  let lines := (ts.flatMap fun p => match p.2 with
    | .phys pa _ _ => spanLines pa n
    | .ls _ _ _ => []).filter fun l => !part l
  { s.bringAll (lines.filter fun l => !s.farPa (128 * l)) with poison := s.poison.filter part, ecc := s.ecc.filter part }

/-- `st` and `sts` (R239, R240). Each active thread's store counts for WAIT 0101 until it is acknowledged; a release store follows every
earlier one (R257). -/
def runStore (v : View) (ls : Bool) (s : State) : Host.Outcome State Fault Refusal :=
  let n := 2 ^ natBits v.dst 4 2
  runWord { sh := shStore v, vas := fun w => w.memVas ls } v s fun w s1 => do
    let ts ← checkThreads (w.g.actives v) fun th => s1.checkAddr w ls (w.memAddr ls th) n n .write
    let ps := threadPuts (w.memAddr ls) (fun th => leBytes n (w.b th)) ts
    let s2 := State.writePuts w (if ls then s1.lsPass w ls n else s1.clearWhole ts n) ps
    pure (s2.updGrp w.id fun g =>
      { (if 9 ≤ natBits v.dst 0 4 then g.perform else g) with
        pendingStores := g.pendingStores + ts.length
        late := (if 9 ≤ natBits v.dst 0 4 then [] else g.late) ++ s1.lates w ps })

/-- Meaning of `st` (R239). -/
def execSt (w : FM) (s : State) : Host.Outcome State Fault Refusal := runStore (w.view 0x141) false s
/-- Meaning of `sts` (R239). -/
def execSts (w : FM) (s : State) : Host.Outcome State Fault Refusal := runStore (w.view 0x143) true s

/-- One thread's prefetch (R242): dropped where its address fails, leads out of HBM or to a PACKED page, stalls at a freeze (R219, R230), needs a
walk that finds no room, or meets a lost line; else its walk is entered, its line is brought into its slice, and `.l1` fills the L1. -/
def State.prefetch (s : State) (w : Iss) (l1 : Bool) (va : Nat) : State :=
  match s.translate w.c w.own va 1 .read false with
  | .ok (.phys pa false cmp) =>
    let pages := s.walkPages w.c w.core [va]
    let room := pages.all fun p => (s.misses.any fun m => m.isOf w.core w.c.num p) || decide (s.missUsed w.core < 256)
    if !(regionOf s.pkg.hbmsplit pa).hbm || s.frozenVa w.c.num va || !room || (s.lineEvent (.phys pa false cmp) 1).isSome then s
    else
      let s1 := ((s.coreFill w.c w.core w.id va).startWalks w.c w.core w.id pages).bringSpan (some cmp) pa 1
      if l1 then s1.l1Fill (l1Home w.t.kd.fusel1 w.core pa) w.c.num va (s.pageBits w.c w.core va) pa else s1
  | _ => s

/-- Meaning of `pfx` (R242). -/
def execPfx (w : FM) (s : State) : Host.Outcome State Fault Refusal :=
  let v := w.view 0x146
  runWord { sh := shPfx v } v s fun i s1 =>
    .ok ((i.g.actives v).foldl (fun st th => st.prefetch i (natBits v.b 5 2 == 0) (i.memAddr false th)) s1)

/-- Meaning of `zln` (R243): NL + 1 lines of zeros from each active thread's address. -/
def execZln (w : FM) (s : State) : Host.Outcome State Fault Refusal :=
  let v := w.view 0x151
  let lines := natBits v.b 0 5 + 1
  let line := fun (i : Iss) th k => (i.memAddr false th + 128 * k) % 2 ^ 64
  runWord { sh := shZln v, vas := fun i => (i.g.actives v).flatMap fun th => (List.range lines).map (line i th) } v s fun i s1 => do
    let ts ← checkThreads (i.g.actives v) fun th =>
      let x := i.memAddr false th
      if x % 128 ≠ 0 then .error { code := cAlignment, addr := x }
      else ((List.range lines).mapM fun k => (s1.translate i.c i.own (line i th k) 128 .write false).map fun t => (line i th k, t)).mapError
        -- a PACKED page keeps the first byte touched on it (R229)
        fun e => if e.code = cPacked then e else { e with addr := x }
    let ps := ts.flatMap fun p => p.2.map fun t => { th := some p.1, va := t.1, tg := t.2, bs := List.replicate 128 0#8 : Put }
    -- a line at a host or a peer may still fail (R235)
    pure ((State.writePuts i s1 ps).updGrp i.id fun g =>
      { g with pendingStores := g.pendingStores + ps.length, late := g.late ++ (s1.lates i ps).filter Late.far })

/-- The report of `lqry` on the bytes of a line (R244). -/
def lqryVal (bs : List Byte) (compress : Bool) : Nat :=
  let tg := if compress then lineTag bs else (0, 4)
  tg.1 + 16 * tg.2 + 128 * boolRes (bs.all (· = 0#8)) + 256 * boolRes compress

/-- Meaning of `lqry` (R244): not long-latency; the group stalls until the replies have arrived (R98). A store of the group that is still in
flight may be missed (R412; log entry 55). -/
def execLqry (w : FM) (s : State) : Host.Outcome State Fault Refusal :=
  let v := w.view 0x152
  runWord { sh := shLqry v, vas := fun i => i.memVas false } v s fun i s1 => do
    let ts ← checkThreads (i.g.actives v) fun th =>
      let x := i.memAddr false th
      match s1.translate i.c i.own x 1 .read false with
      | .error e => .error { e with addr := x }
      | .ok (.phys pa _ cmp) =>
        if (regionOf s1.pkg.hbmsplit pa).hbm then .ok (pa, cmp) else .error { code := cTranslation, addr := x, detail := 0x0002 }
      | .ok (.ls _ _ _) => .error { code := cTranslation, addr := x, detail := 0x0002 }
    let r := State.readMany i (i.memAddr false) 1 false s1 (ts.map fun p => (p.1, .phys p.2.1 false p.2.2))
    let vals := ts.map fun p => (p.1, lqryVal (lateView s1.freeN s1.mem i.g.late (p.2.1 / 128 * 128) 128) p.2.2)
    pure ((r.1.updGrp i.id fun g =>
      (g.writeAll v.dst false (hasVal r.2.1) (valOf vals)).deferAll i (i.memAddr false) r.2.2).stall i)

end Sys2Proof.Machine
end

