-- ==== Sys2Proof/Machine/Atomics.lean ====
section
/-! DEFINITION. Atomics (R245 to R250). -/

namespace Sys2Proof.Machine

/-- The float layout of an atomic TY (R245). -/
def atomFF (ty : Nat) : FFmt :=
  match ty with
  | 4 => ffF32
  | 5 => ffF16
  | _ => ffBf16

/-- Op(OP, TY, old, v) at the width of TY (R246). -/
def atomOp (op ty old v : Nat) : Nat :=
  let w := atomBits ty
  if 4 ≤ ty then
    let k := atomFF ty
    match op with
    | 0 => fltRes k .rne (Val.add false (decFloat k old) (decFloat k v))
    | 1 => fltRes k .rne (minVal false (decFloat k old) (decFloat k v))
    | _ => fltRes k .rne (minVal true (decFloat k old) (decFloat k v))
  else
    let lt : Bool := if ty % 2 = 0 then decide (sInt w old ≤ sInt w v) else decide (old % 2 ^ w ≤ v % 2 ^ w)
    match op with
    | 0 => (old + v) % 2 ^ w
    | 1 => if lt then old else v
    | 2 => if lt then v else old
    | 3 => old &&& v
    | 4 => old ||| v
    | 5 => Nat.xor old v
    | _ => v

/-- FUNC fields of an atomic word (R245). -/
def atOp (v : View) : Nat := natBits v.efunc 12 4
def atTy (v : View) : Nat := natBits v.efunc 9 3
def atSc (v : View) : Nat := natBits v.efunc 6 3
def atOrd (v : View) : Nat := natBits v.efunc 4 2
def atLs (v : View) : Bool := natBit v.efunc 3

/-- The word-level type check (R250 step 8.1). -/
def atomTypeBad (v : View) : Bool :=
  let vec := v.opc == 0x14A || v.opc == 0x14B
  let ty := atTy v
  (!vec && (ty == 5 || ty == 6)) || (decide (4 ≤ ty) && (v.opc == 0x149 || decide (3 ≤ atOp v)))

/-- The site check (R249): hosts and peers support integer add, exchange and compare only. -/
def State.siteOk (s : State) (v : View) (t : Target) : Bool :=
  match s.targetRegion t with
  | some .host => simple
  | some .peer => simple
  | _ => true
where
  simple : Bool := !(v.opc == 0x14A || v.opc == 0x14B) && decide (atTy v < 4) && (atOp v == 0 || atOp v == 6)

/-- Charge of an element at a cache slice to the team's budget row, at the chamber die of the slice (R345, R347); other sites are not
charged. -/
def State.sliceCharge (s : State) (w : Iss) (t : Target) : Charge × State :=
  match t with
  | .phys pa _ _ =>
    if (regionOf s.pkg.hbmsplit pa).hbm then s.charge w.t.tenant w.t.bcls actAtom (homeSlice s.pkg.hbmsplit pa / 96) 1 else (.ok, s)
  | .ls _ _ _ => (.ok, s)

/-- One element's operation at its site: the old bytes, or the event of R235, or nothing where a soft cap holds it (R347). `f` gives the bytes
to write, if any; an operation that writes none leaves the L1 line the bytes it read (R238, R247). -/
def State.atomOne (s : State) (w : Iss) (va : Nat) (t : Target) (n : Nat) (f : List Byte → Option (List Byte)) :
    Option (Except Nat (List Byte)) × State :=
  match s.sliceCharge w t with
  | (.soft, _) => (none, s)
  | (.hard, s1) => (some (.error cBudgetViolation), s1)
  | (.ok, s1) =>
    match s.lineEvent t n with
    | some code => (some (.error code), s.markPoison t n)
    | none =>
      let old := s1.readTarget t n
      (some (.ok old), match f old, t with
        | some bs, _ => s1.writeThread w va t bs
        | none, .phys pa _ _ => s1.l1Touch w.t.kd.fusel1 w.core pa n
        | none, .ls _ _ _ => s1)

/-- An element of an atomic word: its thread, its index in the thread's operand, its VA or LS offset, and its place. -/
structure AtomElem where
  th : Nat
  elem : Nat
  va : Nat
  tg : Target
deriving DecidableEq, Repr

/-- The elements of n bytes of an atomic word whose threads' operands have `size` bytes, in ascending order. -/
def atomElems (w : Iss) (size n : Nat) (ts : List (Nat × Target)) : List AtomElem :=
  ts.flatMap fun p => (List.range (size / n)).map fun k => { th := p.1, elem := k, va := w.a p.1 + n * k, tg := p.2.plus (n * k) }

/-- The operations of the elements in ascending order (R256), up to the first that a soft cap holds: what is done, and what is left. -/
def State.atomMany (w : Iss) (n : Nat) (f : Nat → Nat → List Byte → Option (List Byte)) :
    State → List AtomElem → State × List AtomDone × List AtomElem
  | s, [] => (s, [], [])
  | s, e :: rest =>
    match s.atomOne w e.va e.tg n (f e.th e.elem) with
    | (none, _) => (s, [], e :: rest)
    | (some r, s1) =>
      let d : AtomDone := match r with
        | .ok old => { th := e.th, elem := e.elem, old := old, ev := none }
        | .error c => { th := e.th, elem := e.elem, old := [], ev := some c }
      let q := State.atomMany w n f s1 rest
      (q.1, d :: q.2.1, q.2.2)

/-- The checks of every atomic word: its type, then each thread; answers the targets. With no active thread there is no check at step 8
(R252). -/
def atomCheck (w : Iss) (s1 : State) (size : Nat) : Except Exc (List (Nat × Target)) := do
  let v := w.v
  if (w.g.actives v).isEmpty then .ok []
  else
    if atomTypeBad v then .error { code := cAtomicType, addr := 0, detail := v.efunc }
    checkThreads (w.g.actives v) fun th => do
      let t ← s1.checkAddr w (atLs v) (w.a th) size size .atomic
      if s1.siteOk v t then pure t else .error { code := cAtomicUnsupported, addr := w.a th }

/-- VAs of the active threads of an atomic word. -/
def atomVas (w : Iss) : List Nat := if atLs w.v then [] else (w.g.actives w.v).map w.a

/-- The acquire side and the operations of an atomic word on the elements that are not done yet. -/
def atomRun (w : Iss) (s1 : State) (size n : Nat) (ts : List (Nat × Target)) (f : Nat → Nat → List Byte → Option (List Byte)) :
    State × List AtomDone × List AtomElem :=
  let s2 := if atOrd w.v = 1 ∨ atOrd w.v = 3 then s1.acquire w.t w.core (atSc w.v) else s1
  let s3 := if atLs w.v then s2.perfAdd w.id 5 (lsConflicts w size (ts.map Prod.fst) fun th => [w.a th]) else s2
  State.atomMany w n f s3 ((atomElems w size n ts).filter fun e => !w.g.part.any fun d => d.th == e.th && d.elem == e.elem)

/-- Old bytes of the threads all of whose elements were performed. -/
def atomOld (size n : Nat) (done : List AtomDone) (ths : List Nat) : List (Nat × List Byte) :=
  (ths.map fun th => (th, (List.range (size / n)).flatMap fun k =>
    ((done.find? fun d => d.th == th && d.elem == k && d.ev.isNone).map AtomDone.old).getD [])).filter fun p => p.2.length == size

/-- Events of the elements, by thread, VA and code. -/
def atomEvs (w : Iss) (n : Nat) (done : List AtomDone) : List (Nat × Nat × Nat) :=
  done.filterMap fun d => d.ev.map fun c => (d.th, w.a d.th + n * d.elem, c)

/-- Operations at a host or a peer that return nothing, as stores in flight: a link that fails leaves them unperformed (R235). -/
def State.farLate (s : State) (w : Iss) (n : Nat) (f : Nat → Nat → List Byte → Option (List Byte)) (done : List AtomDone) (es : List AtomElem) :
    List Late :=
  let kind : LateKind := if w.v.opc = 0x149 then .cas else if atOp w.v = 0 then .add else .put
  es.filterMap fun e =>
    match e.tg, done.find? fun d => d.th == e.th && d.elem == e.elem && d.ev.isNone with
    | .phys pa _ _, some d =>
      if !s.farPa pa || d.old.length != n then none
      else (f e.th e.elem d.old).map fun new =>
        { th := some e.th, pc := w.g.wordPc, va := e.va, pa := pa, old := d.old, new := new, kind := kind, far := true }
    | _, _ => none

/-- Completes an atomic word with the elements done: its reservations or its pending count by `k` from what is done, and its events.
While a soft cap holds an element the group is held at the word, with what is done (R347). A release performs the stores before it (R257). -/
def atomEnd (w : Iss) (n : Nat) (r : State × List AtomDone × List AtomElem)
    (k : List AtomDone → Group → Group) : State :=
  let done := w.g.part ++ r.2.1
  if !r.2.2.isEmpty then (r.1.retry w).updGrp w.id fun g => { g with part := done }
  else r.1.updGrp w.id fun g =>
    let g1 := if 2 ≤ atOrd w.v then g.perform else g
    { (k done g1).deferEvs w (atomEvs w n done) with part := [] }

/-- The reservation just added is that of a returning atomic, which WAIT 0101 waits for (R247). -/
def Group.markAtom (g : Group) (before : Nat) : Group :=
  { g with resv := g.resv.mapIdx fun i r => if before ≤ i then { r with atom := true } else r }

/-- `atom`, `red` and `cas` (R247). -/
def runAtom (v : View) (s : State) : Host.Outcome State Fault Refusal :=
  let wd := atomBits (atTy v)
  let n := wd / 8
  let ret := v.opc != 0x148 && v.dst != 8
  runWord { sh := shAtom v, vas := atomVas } v s fun w s1 => do
    let f := fun th _ old =>
      let o := leNat old
      if v.opc = 0x149 then (if o = w.b th % 2 ^ wd then some (leBytes n (w.cc th)) else none)
      else some (leBytes n (atomOp (atOp v) (atTy v) o (w.b th % 2 ^ wd)))
    let ts ← atomCheck w s1 n
    pure (atomEnd w n (atomRun w s1 n n ts f) fun done g =>
      let vals := (atomOld n n done (ts.map Prod.fst)).map fun p => (p.1, leNat p.2)
      if ret then (g.later v (wd == 64) true (hasVal vals) (maskOf (vals.map Prod.fst)) (valOf vals)).markAtom g.resv.length
      else { g with pendingStores := g.pendingStores + vals.length, late := g.late ++ s1.farLate w n f done (atomElems w n n ts) })

/-- Meaning of `atom` (R247). -/
def execAtom (w : FR) (s : State) : Host.Outcome State Fault Refusal := runAtom (w.view .fr 0x147) s
/-- Meaning of `red` (R247). -/
def execRed (w : FR) (s : State) : Host.Outcome State Fault Refusal := runAtom (w.view .fr 0x148) s
/-- Meaning of `cas` (R247). -/
def execCas (w : FR) (s : State) : Host.Outcome State Fault Refusal := runAtom (w.view .fr 0x149) s

/-- The 32 operand bytes of a vector atomic in registers nB to nB + 7 (R248). -/
def vecOperand (w : Iss) (th : Nat) : List Byte :=
  (List.range 8).flatMap fun i => leBytes 4 ((w.g.thread th).ni (w.v.b - 0x10 + i)).toNat

/-- Registers a vector atomic touches beyond its fields, and their bound (R245, R250). -/
def vecTouch (v : View) : Touch :=
  (List.range 8).map (fun i => (v.b + i, false)) ++ (if 0x10 ≤ v.dst then (List.range 8).map fun i => (v.dst + i, false) else [])
def vecCls (w : Iss) : Option Exc :=
  let top := max (w.v.b - 0x10 + 8) (if 0x10 ≤ w.v.dst then w.v.dst - 0x10 + 8 else 0)
  if w.t.kd.named < top then some { code := cOperandClass } else none

/-- What register nD + i of a thread receives of the old 32 bytes (R248): the bytes of an element that met an event keep those of the register,
and with no element performed there is nothing to receive (R112, R235; log entry 80). -/
def vecWord (n : Nat) (done : List AtomDone) (keep : W32) (th i : Nat) : Option Nat :=
  let old := (List.range 4).map fun j =>
    (done.find? fun d => d.th == th && d.elem == (4 * i + j) / n && d.ev.isNone).map fun d => d.old.getD ((4 * i + j) % n) 0#8
  if old.all Option.isNone then none
  else some (leNat ((old.zip (leBytes 4 keep.toNat)).map fun p => p.1.getD p.2))

/-- The reservation of an `atomv`: nD to nD + 7 and q0 hold the old bytes on arrival, one reservation per register so that
each window is kept (R109, R248). -/
def Group.reserveVec (g : Group) (v : View) (word : Nat → Nat → Option Nat) : Group :=
  (List.range 8).foldl (fun g i =>
    let mask := maskOf (g.ths.filter fun th => (word th i).isSome)
    if mask = 0#64 then g
    else g.reserve { qi := if i = 0 then some 0 else none, wide := false, named := [v.dst - 0x10 + i], uni := none, uniN := 0, mask := mask,
                     vals := g.ths.map fun th => BitVec.ofNat 64 ((word th i).getD 0), rem := v.look, arrived := false, load := true, atom := true })
    (g.writeAll 0 false (fun _ => false) fun _ => 0)

/-- `atomv` and `redv` (R248). -/
def runVec (v : View) (s : State) : Host.Outcome State Fault Refusal :=
  let n := atomBits (atTy v) / 8
  runWord { sh := shAtom v, cls := vecCls, touch := fun _ => vecTouch v, vas := atomVas } v s fun w s1 => do
    let ts ← atomCheck w s1 32
    let f := fun th k old => some (leBytes n (atomOp (atOp v) (atTy v) (leNat old) (leNat (((vecOperand w th).drop (n * k)).take n))))
    pure (atomEnd w n (atomRun w s1 32 n ts f) fun done g =>
      if v.opc = 0x14A ∧ v.dst ≠ 8 then g.reserveVec v fun th i => vecWord n done ((g.thread th).ni (v.dst - 0x10 + i)) th i
      else { g with pendingStores := g.pendingStores + ((ts.map Prod.fst).filter fun th => done.any fun d => d.th == th && d.ev.isNone).length })

/-- Meaning of `atomv` (R248). -/
def execAtomv (w : FR) (s : State) : Host.Outcome State Fault Refusal := runVec (w.view .fr 0x14A) s
/-- Meaning of `redv` (R248). -/
def execRedv (w : FR) (s : State) : Host.Outcome State Fault Refusal := runVec (w.view .fr 0x14B) s

end Sys2Proof.Machine
end

