-- ==== Sys2Proof/WellFormed.lean ====
section
/-! DEFINITION. Well-formed instructions: words that pass the static checks of R114 step 3 (R102 to R106, R110, R113 and each
entry). The checks that depend on the machine (NAMED, W, privilege) are made at issue. -/

namespace Sys2Proof

/-- The shape that the entry of an instruction fixes; an event has none. -/
def Instr.shape : Instr → View → Shape
  | .add _, v => shInt v
  | .sub _, v => shInt v
  | .addc _, v => shInt v
  | .subb _, v => shInt v
  | .mul _, v => shInt v
  | .mulh _, v => shInt v
  | .mad _, v => shInt v
  | .neg _, v => shInt v
  | .abs _, v => shInt v
  | .min _, v => shInt v
  | .max _, v => shInt v
  | .clamp _, v => shInt v
  | .div _, v => shInt v
  | .rem _, v => shInt v
  | .sad _, v => shInt v
  | .dot4 _, v => shInt v
  | .and _, v => shInt v
  | .or _, v => shInt v
  | .xor _, v => shInt v
  | .not _, v => shInt v
  | .andn _, v => shInt v
  | .lgc3 _, v => shInt v
  | .shl _, v => shInt v
  | .shr _, v => shInt v
  | .sar _, v => shInt v
  | .rol _, v => shInt v
  | .bfx _, v => shInt v
  | .bfi _, v => shInt v
  | .pop _, v => shInt v
  | .clz _, v => shInt v
  | .ctz _, v => shInt v
  | .brev _, v => shInt v
  | .cmp _, v => shInt v
  | .sel _, v => shInt v
  | .pset _, v => shPset v
  | .lea _, v => shLea v
  | .mov _, v => shMov v
  | .movi _, v => shMovi v
  | .movh _, v => shMovh v
  | .fadd _, v => shFloat v
  | .fsub _, v => shFloat v
  | .fmul _, v => shFloat v
  | .fma _, v => shFloat v
  | .fmin _, v => shFloat v
  | .fmax _, v => shFloat v
  | .fcmp _, v => shFloat v
  | .frnd _, v => shFloat v
  | .frcp _, v => shFloat v
  | .frsq _, v => shFloat v
  | .fsqrt _, v => shFloat v
  | .fex2 _, v => shFloat v
  | .flg2 _, v => shFloat v
  | .fsin _, v => shFloat v
  | .fcos _, v => shFloat v
  | .fdiv _, v => shFloat v
  | .fscale _, v => shFloat v
  | .fclass _, v => shFloat v
  | .padd _, v => shFloat v
  | .pmul _, v => shFloat v
  | .pfma _, v => shFloat v
  | .pmin _, v => shFloat v
  | .pmax _, v => shFloat v
  | .lmul _, v => shLns v
  | .ladd _, v => shLns v
  | .lsub _, v => shLns v
  | .lmax _, v => shLns v
  | .cvt _, v => shCvt v
  | .pack _, v => shPack v
  | .unpk _, v => shPack v
  | .bmax _, v => shBmax v
  | .bscale _, v => shBscale v
  | .shf _, v => shLane v
  | .vote _, v => shLane v
  | .redx _, v => shLane v
  | .bcst _, v => shLane v
  | .scan _, v => shLane v
  | .rdsr _, v => shRdsr v
  | .wrsr _, v => shWrsr v
  | .br _, v => shBranch v
  | .jt _, v => shTable v
  | .land _, v => shLand v
  | .call _, v => shBranch v
  | .callt _, v => shTable v
  | .ret _, v => shRet v
  | .exit _, v => shExit v
  | .split _, v => shBranch v
  | .join _, v => shRet v
  | .phase _, v => shPhase v
  | .succ _, v => shSucc v
  | .trap _, v => shTrap v
  | .brk _, v => shTrap v
  | .nop _, v => shNop v
  | .loop _, v => shLoop v
  | .sysc _, v => shSysc v
  | .ld _, v => shLoad v
  | .st _, v => shStore v
  | .lds _, v => shLoad v
  | .sts _, v => shStore v
  | .ldt _, v => shLdt v
  | .uld _, v => shUld v
  | .pfx _, v => shPfx v
  | .atom _, v => shAtom v
  | .red _, v => shAtom v
  | .cas _, v => shAtom v
  | .atomv _, v => shAtom v
  | .redv _, v => shAtom v
  | .fence _, v => shFence v
  | .fencer _, v => shFencer v
  | .marm _, v => shMarm v
  | .marmCounted _, v => shMarm v
  | .mwait _, v => shMwait v
  | .wuc _, v => shWuc v
  | .zln _, v => shZln v
  | .lqry _, v => shLqry v
  | .mma _, v => shMma v
  | .mmx _, v => shMma v
  | .mzero _, v => shMzero v
  | .mld _, v => shMld v
  | .drain _, v => shMld v
  | .mrel _, v => shMrel v
  | .mscl _, v => shMscl v
  | .mrd _, v => shMrd v
  | .cpy _, v => shCopy v
  | .cpyo _, v => shCopy v
  | .cpyr _, v => shCopy v
  | .cpym _, v => shCopy v
  | .cpys _, v => shCopy v
  | .cseal _, v => shCseal v
  | .cwait _, v => shCwait v
  | .tbind _, v => shTbind v
  | .tset _, v => shTset v
  | .tget _, v => shTget v
  | .twait _, v => shTwait v
  | .trel _, v => shTrel v
  | .bini _, v => shBini v
  | .barv _, v => shBar v
  | .barw _, v => shBar v
  | .bexp _, v => shBexp v
  | .bdrop _, v => shBar v
  | .bget _, v => shBget v
  | .qenq _, v => shQueue v
  | .qdeq _, v => shQueue v
  | .qtry _, v => shQueue v
  | .jdec _, v => shQueue v
  | .jset _, v => shQueue v
  | .spawn _, v => shQueue v
  | .qnt _, v => shQueue v
  | .rcinv _, v => shRcinv v
  | .trc _, v => shTrc v
  | .trcm _, v => shTrc v
  | .cnt _, v => shCnt v
  | .rmap _, v => shRmap v
  | .rcommit _, v => shRcommit v
  | .eret _, v => shEret v
  | .tlbi _, v => shTlbi v
  | .mig _, v => shRmap v
  | .ctxld _, v => shCtxld v
  | .bdg _, v => shBdg v
  | .clauseBoundary _ _, _ => {}
  | .groupWaitRelease _ _, _ => {}
  | .longLatencyArrival _ _ _, _ => {}
  | .storeAcknowledged _ _, _ => {}
  | .deferredAccessFault _ _ _ _ _ _ _, _ => {}
  | .pageWalkComplete _ _ _ _, _ => {}
  | .phaseSettleComplete _, _ => {}
  | .taskSpillEnqueue _, _ => {}
  | .succSettleComplete _, _ => {}
  | .teamStartLoaded _, _ => {}
  | .schedulingRound _, _ => {}
  | .gangClusterClose _ _, _ => {}
  | .taskQueueScan _, _ => {}
  | .schedulerRestore _ _, _ => {}
  | .launchDoorbell _, _ => {}
  | .copyElementPerformed _ _ _ _, _ => {}
  | .copyComplete _, _ => {}
  | .copyElementFault _ _ _ _ _, _ => {}
  | .mcastDestinationFailure _ _, _ => {}
  | .reducingElementArrival _ _ _ _, _ => {}
  | .replayFilterExpiry _, _ => {}
  | .tileFillComplete _ _, _ => {}
  | .tileDrainComplete _ _, _ => {}
  | .matrixUpdateComplete _ _, _ => {}
  | .matrixFetchFault _, _ => {}
  | .lanternTimeout _ _, _ => {}
  | .roostWake _, _ => {}
  | .ctxcmdSave _, _ => {}
  | .contextSaveWritten _, _ => {}
  | .ctxcmdTerminate _, _ => {}
  | .ctxcmdEngresume _ _ _ _, _ => {}
  | .ctxcmdEngcancel _ _ _ _, _ => {}
  | .contextRegisterWrite _ _ _, _ => {}
  | .watchdog _ _, _ => {}
  | .syscEnqueue _ _, _ => {}
  | .budgetPeriodEnd _, _ => {}
  | .budgetUseExchange, _ => {}
  | .echoBufferDrain _, _ => {}
  | .echoSinkWrite, _ => {}
  | .losslessStallTimeout _ _, _ => {}
  | .saturationReport _, _ => {}
  | .ptpMessage _, _ => {}
  | .ppsEdge _, _ => {}
  | .todLine _, _ => {}
  | .timeSourceLost, _ => {}
  | .powerOnReset _, _ => {}
  | .phimusFailure, _ => {}
  | .packageFatalError _ _, _ => {}
  | .chipletLinkFailure _ _, _ => {}
  | .packetRetryReturn _ _ _ _, _ => {}
  | .linkRetrainComplete _ _, _ => {}
  | .packageRecompute, _ => {}
  | .opptReq _, _ => {}
  | .opptChangeComplete, _ => {}
  | .gateReq _, _ => {}
  | .gateChangeComplete _, _ => {}
  | .svcDrain _, _ => {}
  | .svcReadmit _, _ => {}
  | .drainDeadline, _ => {}
  | .mgmtRegisterWrite _ _, _ => {}
  | .imageUpdate _, _ => {}
  | .attestationReport _, _ => {}
  | .ualinkPeerRequest _, _ => {}
  | .quantJobTake _, _ => {}
  | .quantJobComplete _, _ => {}
  | .stallOperationComplete _ _, _ => {}
  | .casiumLinkHostAccess _, _ => {}
  | .contextCreate _, _ => {}
  | .contextDestroy _, _ => {}
  | .chipletReset _, _ => {}
  | .sliceLineWriteBack _ _, _ => {}

/-- The two constructors of OPC 0x14E are told apart by B (R331). -/
def Instr.variantOk : Instr → Bool
  | .marm w => w.b == 0x53#7
  | .marmCounted w => w.b != 0x53#7
  | _ => true

/-- An instruction word is well formed when its fields pass the static checks; an event always is. -/
def Instr.wf (i : Instr) : Bool :=
  match i.view with
  | some v => v.encOk (i.shape v) && i.variantOk
  | none => true

end Sys2Proof
end

