-- ==== Sys2Proof/Decode.lean ====
section
/-! DEFINITION. Decoding and encoding of instruction words (R100, R101, R115): parsing by opcode, rejection by name, and the
encoder written from the same tables. -/

namespace Sys2Proof

/-- Why a word is rejected. -/
inductive Reject where
  /-- OPC is not listed in the map (R115) -/
  | illegalOpcode
  /-- a static check of step 3 of R114 fails -/
  | illegalEncoding
  /-- fewer bytes than a word -/
  | truncated
deriving DecidableEq, Repr

/-! ### Fields -/

/-- The common fields of a word, bits [53:37] (R100). -/
def hdrOf (w : W64) : Hdr :=
  { look := w.extractLsb' 50 4, hold := w.extractLsb' 48 2, u := w.getLsbD 47, pred := w.extractLsb' 44 3,
    pneg := w.getLsbD 43, dst := w.extractLsb' 37 6 }

def frOf (w : W64) : FR :=
  { h := hdrOf w, a := w.extractLsb' 30 7, b := w.extractLsb' 23 7, c := w.extractLsb' 16 7, func := w.extractLsb' 0 16 }
def fiOf (w : W64) : FI := { h := hdrOf w, a := w.extractLsb' 30 7, imm := w.extractLsb' 0 30 }
def fmOf (w : W64) : FM := { h := hdrOf w, a := w.extractLsb' 30 7, b := w.extractLsb' 23 7, ofs := w.extractLsb' 0 23 }
def fbOf (w : W64) : FB := { h := hdrOf w, ofs := w.extractLsb' 0 37 }
def fsOf (w : W64) : FS := { h := hdrOf w, a := w.extractLsb' 30 7, rsv := w.extractLsb' 16 14, sel := w.extractLsb' 0 16 }

/-- Opcode of a word, bits [63:54] (R100). -/
def opcOf (w : W64) : Nat := (w.extractLsb' 54 10).toNat

/-- The marm of a word with OPC 0x14E: the counted form carries a counter operand in B (R331). -/
def marmOf (w : FR) : Instr := if w.b = 0x53#7 then .marm w else .marmCounted w

/-- The instruction of a word by its opcode, whatever its fields hold (R115); `none` for an opcode that the map does not
list. -/
def parse (w : W64) : Option Instr :=
  match opcOf w with
  | 0x000 => some (.add (frOf w))
  | 0x001 => some (.sub (frOf w))
  | 0x002 => some (.addc (frOf w))
  | 0x003 => some (.subb (frOf w))
  | 0x004 => some (.mul (frOf w))
  | 0x005 => some (.mulh (frOf w))
  | 0x006 => some (.mad (frOf w))
  | 0x007 => some (.neg (frOf w))
  | 0x008 => some (.abs (frOf w))
  | 0x009 => some (.min (frOf w))
  | 0x00A => some (.max (frOf w))
  | 0x00B => some (.clamp (frOf w))
  | 0x00C => some (.div (frOf w))
  | 0x00D => some (.rem (frOf w))
  | 0x00E => some (.sad (frOf w))
  | 0x00F => some (.dot4 (frOf w))
  | 0x010 => some (.and (frOf w))
  | 0x011 => some (.or (frOf w))
  | 0x012 => some (.xor (frOf w))
  | 0x013 => some (.not (frOf w))
  | 0x014 => some (.andn (frOf w))
  | 0x015 => some (.lgc3 (frOf w))
  | 0x016 => some (.shl (frOf w))
  | 0x017 => some (.shr (frOf w))
  | 0x018 => some (.sar (frOf w))
  | 0x019 => some (.rol (frOf w))
  | 0x01A => some (.bfx (frOf w))
  | 0x01B => some (.bfi (frOf w))
  | 0x01C => some (.pop (frOf w))
  | 0x01D => some (.clz (frOf w))
  | 0x01E => some (.ctz (frOf w))
  | 0x01F => some (.brev (frOf w))
  | 0x020 => some (.cmp (frOf w))
  | 0x021 => some (.sel (frOf w))
  | 0x022 => some (.pset (frOf w))
  | 0x024 => some (.lea (frOf w))
  | 0x025 => some (.mov (frOf w))
  | 0x026 => some (.movi (fiOf w))
  | 0x027 => some (.movh (fiOf w))
  | 0x040 => some (.fadd (frOf w))
  | 0x041 => some (.fsub (frOf w))
  | 0x042 => some (.fmul (frOf w))
  | 0x043 => some (.fma (frOf w))
  | 0x044 => some (.fmin (frOf w))
  | 0x045 => some (.fmax (frOf w))
  | 0x046 => some (.fcmp (frOf w))
  | 0x047 => some (.frnd (frOf w))
  | 0x048 => some (.frcp (frOf w))
  | 0x049 => some (.frsq (frOf w))
  | 0x04A => some (.fsqrt (frOf w))
  | 0x04B => some (.fex2 (frOf w))
  | 0x04C => some (.flg2 (frOf w))
  | 0x04D => some (.fsin (frOf w))
  | 0x04E => some (.fcos (frOf w))
  | 0x04F => some (.fdiv (frOf w))
  | 0x050 => some (.fscale (frOf w))
  | 0x051 => some (.fclass (frOf w))
  | 0x052 => some (.padd (frOf w))
  | 0x053 => some (.pmul (frOf w))
  | 0x054 => some (.pfma (frOf w))
  | 0x055 => some (.pmin (frOf w))
  | 0x056 => some (.pmax (frOf w))
  | 0x060 => some (.lmul (frOf w))
  | 0x061 => some (.ladd (frOf w))
  | 0x062 => some (.lsub (frOf w))
  | 0x063 => some (.lmax (frOf w))
  | 0x080 => some (.cvt (frOf w))
  | 0x081 => some (.pack (frOf w))
  | 0x082 => some (.unpk (frOf w))
  | 0x083 => some (.bmax (frOf w))
  | 0x084 => some (.bscale (frOf w))
  | 0x0A0 => some (.shf (frOf w))
  | 0x0A1 => some (.vote (frOf w))
  | 0x0A2 => some (.redx (frOf w))
  | 0x0A3 => some (.bcst (frOf w))
  | 0x0A4 => some (.scan (frOf w))
  | 0x0C0 => some (.rdsr (fsOf w))
  | 0x0C1 => some (.wrsr (fsOf w))
  | 0x100 => some (.br (fbOf w))
  | 0x101 => some (.jt (frOf w))
  | 0x102 => some (.land (fsOf w))
  | 0x103 => some (.call (fbOf w))
  | 0x104 => some (.callt (frOf w))
  | 0x105 => some (.ret (frOf w))
  | 0x106 => some (.exit (fsOf w))
  | 0x107 => some (.split (fbOf w))
  | 0x108 => some (.join (frOf w))
  | 0x109 => some (.phase (fsOf w))
  | 0x10A => some (.succ (frOf w))
  | 0x10B => some (.trap (fsOf w))
  | 0x10C => some (.brk (fsOf w))
  | 0x10D => some (.nop (fsOf w))
  | 0x10E => some (.loop (fbOf w))
  | 0x10F => some (.sysc (fsOf w))
  | 0x140 => some (.ld (fmOf w))
  | 0x141 => some (.st (fmOf w))
  | 0x142 => some (.lds (fmOf w))
  | 0x143 => some (.sts (fmOf w))
  | 0x144 => some (.ldt (fmOf w))
  | 0x145 => some (.uld (fmOf w))
  | 0x146 => some (.pfx (fmOf w))
  | 0x147 => some (.atom (frOf w))
  | 0x148 => some (.red (frOf w))
  | 0x149 => some (.cas (frOf w))
  | 0x14A => some (.atomv (frOf w))
  | 0x14B => some (.redv (frOf w))
  | 0x14C => some (.fence (fsOf w))
  | 0x14D => some (.fencer (frOf w))
  | 0x14E => some (marmOf (frOf w))
  | 0x14F => some (.mwait (frOf w))
  | 0x150 => some (.wuc (frOf w))
  | 0x151 => some (.zln (fmOf w))
  | 0x152 => some (.lqry (fmOf w))
  | 0x180 => some (.mma (frOf w))
  | 0x181 => some (.mmx (frOf w))
  | 0x182 => some (.mzero (frOf w))
  | 0x183 => some (.mld (frOf w))
  | 0x184 => some (.drain (frOf w))
  | 0x185 => some (.mrel (frOf w))
  | 0x186 => some (.mscl (frOf w))
  | 0x187 => some (.mrd (frOf w))
  | 0x1A0 => some (.cpy (frOf w))
  | 0x1A1 => some (.cpyo (frOf w))
  | 0x1A2 => some (.cpyr (frOf w))
  | 0x1A3 => some (.cpym (frOf w))
  | 0x1A4 => some (.cpys (frOf w))
  | 0x1A5 => some (.cseal (fsOf w))
  | 0x1A6 => some (.cwait (fsOf w))
  | 0x1A7 => some (.tbind (frOf w))
  | 0x1A8 => some (.tset (frOf w))
  | 0x1A9 => some (.tget (frOf w))
  | 0x1AA => some (.twait (fsOf w))
  | 0x1AB => some (.trel (fsOf w))
  | 0x1B0 => some (.bini (frOf w))
  | 0x1B1 => some (.barv (fsOf w))
  | 0x1B2 => some (.barw (fsOf w))
  | 0x1B3 => some (.bexp (frOf w))
  | 0x1B4 => some (.bdrop (fsOf w))
  | 0x1B5 => some (.bget (frOf w))
  | 0x1E0 => some (.qenq (frOf w))
  | 0x1E1 => some (.qdeq (frOf w))
  | 0x1E2 => some (.qtry (frOf w))
  | 0x1E3 => some (.jdec (frOf w))
  | 0x1E4 => some (.jset (frOf w))
  | 0x1E5 => some (.spawn (frOf w))
  | 0x1E6 => some (.qnt (frOf w))
  | 0x1E7 => some (.rcinv (frOf w))
  | 0x1F0 => some (.trc (frOf w))
  | 0x1F1 => some (.trcm (frOf w))
  | 0x1F2 => some (.cnt (fsOf w))
  | 0x200 => some (.rmap (frOf w))
  | 0x201 => some (.rcommit (fsOf w))
  | 0x202 => some (.eret (fsOf w))
  | 0x203 => some (.tlbi (frOf w))
  | 0x204 => some (.mig (frOf w))
  | 0x205 => some (.ctxld (frOf w))
  | 0x206 => some (.bdg (frOf w))
  | _ => none

/-- Decoding of a word: total, rejecting by name. -/
def decode (w : W64) : Except Reject Instr :=
  match parse w with
  | none => .error .illegalOpcode
  | some i => if i.wf then .ok i else .error .illegalEncoding

/-- The word that eight bytes hold, little-endian (R103). -/
def wordOf : List Byte → Option (W64 × List Byte)
  | b0 :: b1 :: b2 :: b3 :: b4 :: b5 :: b6 :: b7 :: rest => some (b7 ++ b6 ++ b5 ++ b4 ++ b3 ++ b2 ++ b1 ++ b0, rest)
  | _ => none

/-- The bytes of a word as memory holds them. -/
def bytesOf (w : W64) : List Byte := (List.range 8).map fun i => w.extractLsb' (8 * i) 8

/-- Decoding of a byte string: the instruction and the bytes after it. -/
def decodeBytes (bs : List Byte) : Except Reject (Instr × List Byte) :=
  match wordOf bs with
  | none => .error .truncated
  | some (w, rest) => (decode w).map fun i => (i, rest)

/-- The instruction that the decoder reads from a word whose bits are w, laid out in memory as eight bytes. -/
def decodeTableWord (nbits w : Nat) : Option Instr :=
  match decodeBytes (bytesOf (BitVec.ofNat 64 (w % 2 ^ nbits))) with
  | .ok (i, _) => some i
  | .error _ => none

/-! ### Encoding -/

/-- Bits [53:37] of a word (R100). -/
def Hdr.bits (h : Hdr) : BitVec 17 := h.look ++ h.hold ++ BitVec.ofBool h.u ++ h.pred ++ BitVec.ofBool h.pneg ++ h.dst

def FR.bits (w : FR) (opc : BitVec 10) : W64 := opc ++ w.h.bits ++ w.a ++ w.b ++ w.c ++ w.func
def FI.bits (w : FI) (opc : BitVec 10) : W64 := opc ++ w.h.bits ++ w.a ++ w.imm
def FM.bits (w : FM) (opc : BitVec 10) : W64 := opc ++ w.h.bits ++ w.a ++ w.b ++ w.ofs
def FB.bits (w : FB) (opc : BitVec 10) : W64 := opc ++ w.h.bits ++ w.ofs
def FS.bits (w : FS) (opc : BitVec 10) : W64 := opc ++ w.h.bits ++ w.a ++ w.rsv ++ w.sel

/-- The word of an instruction (R100, R101, R115); an event has none. -/
def encode : Instr → Option W64
  | .add w => some (w.bits 0x000#10)
  | .sub w => some (w.bits 0x001#10)
  | .addc w => some (w.bits 0x002#10)
  | .subb w => some (w.bits 0x003#10)
  | .mul w => some (w.bits 0x004#10)
  | .mulh w => some (w.bits 0x005#10)
  | .mad w => some (w.bits 0x006#10)
  | .neg w => some (w.bits 0x007#10)
  | .abs w => some (w.bits 0x008#10)
  | .min w => some (w.bits 0x009#10)
  | .max w => some (w.bits 0x00A#10)
  | .clamp w => some (w.bits 0x00B#10)
  | .div w => some (w.bits 0x00C#10)
  | .rem w => some (w.bits 0x00D#10)
  | .sad w => some (w.bits 0x00E#10)
  | .dot4 w => some (w.bits 0x00F#10)
  | .and w => some (w.bits 0x010#10)
  | .or w => some (w.bits 0x011#10)
  | .xor w => some (w.bits 0x012#10)
  | .not w => some (w.bits 0x013#10)
  | .andn w => some (w.bits 0x014#10)
  | .lgc3 w => some (w.bits 0x015#10)
  | .shl w => some (w.bits 0x016#10)
  | .shr w => some (w.bits 0x017#10)
  | .sar w => some (w.bits 0x018#10)
  | .rol w => some (w.bits 0x019#10)
  | .bfx w => some (w.bits 0x01A#10)
  | .bfi w => some (w.bits 0x01B#10)
  | .pop w => some (w.bits 0x01C#10)
  | .clz w => some (w.bits 0x01D#10)
  | .ctz w => some (w.bits 0x01E#10)
  | .brev w => some (w.bits 0x01F#10)
  | .cmp w => some (w.bits 0x020#10)
  | .sel w => some (w.bits 0x021#10)
  | .pset w => some (w.bits 0x022#10)
  | .lea w => some (w.bits 0x024#10)
  | .mov w => some (w.bits 0x025#10)
  | .movi w => some (w.bits 0x026#10)
  | .movh w => some (w.bits 0x027#10)
  | .fadd w => some (w.bits 0x040#10)
  | .fsub w => some (w.bits 0x041#10)
  | .fmul w => some (w.bits 0x042#10)
  | .fma w => some (w.bits 0x043#10)
  | .fmin w => some (w.bits 0x044#10)
  | .fmax w => some (w.bits 0x045#10)
  | .fcmp w => some (w.bits 0x046#10)
  | .frnd w => some (w.bits 0x047#10)
  | .frcp w => some (w.bits 0x048#10)
  | .frsq w => some (w.bits 0x049#10)
  | .fsqrt w => some (w.bits 0x04A#10)
  | .fex2 w => some (w.bits 0x04B#10)
  | .flg2 w => some (w.bits 0x04C#10)
  | .fsin w => some (w.bits 0x04D#10)
  | .fcos w => some (w.bits 0x04E#10)
  | .fdiv w => some (w.bits 0x04F#10)
  | .fscale w => some (w.bits 0x050#10)
  | .fclass w => some (w.bits 0x051#10)
  | .padd w => some (w.bits 0x052#10)
  | .pmul w => some (w.bits 0x053#10)
  | .pfma w => some (w.bits 0x054#10)
  | .pmin w => some (w.bits 0x055#10)
  | .pmax w => some (w.bits 0x056#10)
  | .lmul w => some (w.bits 0x060#10)
  | .ladd w => some (w.bits 0x061#10)
  | .lsub w => some (w.bits 0x062#10)
  | .lmax w => some (w.bits 0x063#10)
  | .cvt w => some (w.bits 0x080#10)
  | .pack w => some (w.bits 0x081#10)
  | .unpk w => some (w.bits 0x082#10)
  | .bmax w => some (w.bits 0x083#10)
  | .bscale w => some (w.bits 0x084#10)
  | .shf w => some (w.bits 0x0A0#10)
  | .vote w => some (w.bits 0x0A1#10)
  | .redx w => some (w.bits 0x0A2#10)
  | .bcst w => some (w.bits 0x0A3#10)
  | .scan w => some (w.bits 0x0A4#10)
  | .rdsr w => some (w.bits 0x0C0#10)
  | .wrsr w => some (w.bits 0x0C1#10)
  | .br w => some (w.bits 0x100#10)
  | .jt w => some (w.bits 0x101#10)
  | .land w => some (w.bits 0x102#10)
  | .call w => some (w.bits 0x103#10)
  | .callt w => some (w.bits 0x104#10)
  | .ret w => some (w.bits 0x105#10)
  | .exit w => some (w.bits 0x106#10)
  | .split w => some (w.bits 0x107#10)
  | .join w => some (w.bits 0x108#10)
  | .phase w => some (w.bits 0x109#10)
  | .succ w => some (w.bits 0x10A#10)
  | .trap w => some (w.bits 0x10B#10)
  | .brk w => some (w.bits 0x10C#10)
  | .nop w => some (w.bits 0x10D#10)
  | .loop w => some (w.bits 0x10E#10)
  | .sysc w => some (w.bits 0x10F#10)
  | .ld w => some (w.bits 0x140#10)
  | .st w => some (w.bits 0x141#10)
  | .lds w => some (w.bits 0x142#10)
  | .sts w => some (w.bits 0x143#10)
  | .ldt w => some (w.bits 0x144#10)
  | .uld w => some (w.bits 0x145#10)
  | .pfx w => some (w.bits 0x146#10)
  | .atom w => some (w.bits 0x147#10)
  | .red w => some (w.bits 0x148#10)
  | .cas w => some (w.bits 0x149#10)
  | .atomv w => some (w.bits 0x14A#10)
  | .redv w => some (w.bits 0x14B#10)
  | .fence w => some (w.bits 0x14C#10)
  | .fencer w => some (w.bits 0x14D#10)
  | .marm w => some (w.bits 0x14E#10)
  | .marmCounted w => some (w.bits 0x14E#10)
  | .mwait w => some (w.bits 0x14F#10)
  | .wuc w => some (w.bits 0x150#10)
  | .zln w => some (w.bits 0x151#10)
  | .lqry w => some (w.bits 0x152#10)
  | .mma w => some (w.bits 0x180#10)
  | .mmx w => some (w.bits 0x181#10)
  | .mzero w => some (w.bits 0x182#10)
  | .mld w => some (w.bits 0x183#10)
  | .drain w => some (w.bits 0x184#10)
  | .mrel w => some (w.bits 0x185#10)
  | .mscl w => some (w.bits 0x186#10)
  | .mrd w => some (w.bits 0x187#10)
  | .cpy w => some (w.bits 0x1A0#10)
  | .cpyo w => some (w.bits 0x1A1#10)
  | .cpyr w => some (w.bits 0x1A2#10)
  | .cpym w => some (w.bits 0x1A3#10)
  | .cpys w => some (w.bits 0x1A4#10)
  | .cseal w => some (w.bits 0x1A5#10)
  | .cwait w => some (w.bits 0x1A6#10)
  | .tbind w => some (w.bits 0x1A7#10)
  | .tset w => some (w.bits 0x1A8#10)
  | .tget w => some (w.bits 0x1A9#10)
  | .twait w => some (w.bits 0x1AA#10)
  | .trel w => some (w.bits 0x1AB#10)
  | .bini w => some (w.bits 0x1B0#10)
  | .barv w => some (w.bits 0x1B1#10)
  | .barw w => some (w.bits 0x1B2#10)
  | .bexp w => some (w.bits 0x1B3#10)
  | .bdrop w => some (w.bits 0x1B4#10)
  | .bget w => some (w.bits 0x1B5#10)
  | .qenq w => some (w.bits 0x1E0#10)
  | .qdeq w => some (w.bits 0x1E1#10)
  | .qtry w => some (w.bits 0x1E2#10)
  | .jdec w => some (w.bits 0x1E3#10)
  | .jset w => some (w.bits 0x1E4#10)
  | .spawn w => some (w.bits 0x1E5#10)
  | .qnt w => some (w.bits 0x1E6#10)
  | .rcinv w => some (w.bits 0x1E7#10)
  | .trc w => some (w.bits 0x1F0#10)
  | .trcm w => some (w.bits 0x1F1#10)
  | .cnt w => some (w.bits 0x1F2#10)
  | .rmap w => some (w.bits 0x200#10)
  | .rcommit w => some (w.bits 0x201#10)
  | .eret w => some (w.bits 0x202#10)
  | .tlbi w => some (w.bits 0x203#10)
  | .mig w => some (w.bits 0x204#10)
  | .ctxld w => some (w.bits 0x205#10)
  | .bdg w => some (w.bits 0x206#10)
  | .clauseBoundary _ _ => none
  | .groupWaitRelease _ _ => none
  | .longLatencyArrival _ _ _ => none
  | .storeAcknowledged _ _ => none
  | .deferredAccessFault _ _ _ _ _ _ _ => none
  | .pageWalkComplete _ _ _ _ => none
  | .phaseSettleComplete _ => none
  | .taskSpillEnqueue _ => none
  | .succSettleComplete _ => none
  | .teamStartLoaded _ => none
  | .schedulingRound _ => none
  | .gangClusterClose _ _ => none
  | .taskQueueScan _ => none
  | .schedulerRestore _ _ => none
  | .launchDoorbell _ => none
  | .copyElementPerformed _ _ _ _ => none
  | .copyComplete _ => none
  | .copyElementFault _ _ _ _ _ => none
  | .mcastDestinationFailure _ _ => none
  | .reducingElementArrival _ _ _ _ => none
  | .replayFilterExpiry _ => none
  | .tileFillComplete _ _ => none
  | .tileDrainComplete _ _ => none
  | .matrixUpdateComplete _ _ => none
  | .matrixFetchFault _ => none
  | .lanternTimeout _ _ => none
  | .roostWake _ => none
  | .ctxcmdSave _ => none
  | .contextSaveWritten _ => none
  | .ctxcmdTerminate _ => none
  | .ctxcmdEngresume _ _ _ _ => none
  | .ctxcmdEngcancel _ _ _ _ => none
  | .contextRegisterWrite _ _ _ => none
  | .watchdog _ _ => none
  | .syscEnqueue _ _ => none
  | .budgetPeriodEnd _ => none
  | .budgetUseExchange => none
  | .echoBufferDrain _ => none
  | .echoSinkWrite => none
  | .losslessStallTimeout _ _ => none
  | .saturationReport _ => none
  | .ptpMessage _ => none
  | .ppsEdge _ => none
  | .todLine _ => none
  | .timeSourceLost => none
  | .powerOnReset _ => none
  | .phimusFailure => none
  | .packageFatalError _ _ => none
  | .chipletLinkFailure _ _ => none
  | .packetRetryReturn _ _ _ _ => none
  | .linkRetrainComplete _ _ => none
  | .packageRecompute => none
  | .opptReq _ => none
  | .opptChangeComplete => none
  | .gateReq _ => none
  | .gateChangeComplete _ => none
  | .svcDrain _ => none
  | .svcReadmit _ => none
  | .drainDeadline => none
  | .mgmtRegisterWrite _ _ => none
  | .imageUpdate _ => none
  | .attestationReport _ => none
  | .ualinkPeerRequest _ => none
  | .quantJobTake _ => none
  | .quantJobComplete _ => none
  | .stallOperationComplete _ _ => none
  | .casiumLinkHostAccess _ => none
  | .contextCreate _ => none
  | .contextDestroy _ => none
  | .chipletReset _ => none
  | .sliceLineWriteBack _ _ => none

end Sys2Proof
end

