-- ==== Sys2Proof/Machine/Conv.lean ====
section
/-! DEFINITION. Conversion words 0x080 to 0x084 (R143 to R147) and lane words 0x0A0 to 0x0A4 (R148 to R153). -/

namespace Sys2Proof.Machine

/-! ### Conversions -/

/-- The generator output that a thread's conversion uses: the next one under SR (R74). -/
def Thread.srNext (t : Thread) : Nat := srStep t.sr.toNat

/-- Under SR every active thread advances its generator once, and a uniform word that of thread 0 (R74, R143). -/
def Group.advanceSr (g : Group) (v : View) (act : Nat → Bool) : Group :=
  g.mapThreads fun th t =>
    if (if v.u then th == 0 else act th) then { t with sr := BitVec.ofNat 32 t.srNext } else t

/-- A conversion word: one encoding per active thread, with SR and the counts of R84 (R143). `sr` says that RND is SR, `x`
gives the encoding and `res` the register value; `size` is what PC14
counts for each element (R342). -/
def runConv (e : Entry) (v : View) (s : State) (sr : Bool) (size : Nat) (x : Iss → Nat → Enc) (res : Nat → Nat) :
    Host.Outcome State Fault Refusal :=
  runWord e v s fun w s1 =>
    let ths := if v.u then [0] else w.g.actives v
    let c := countEnc (ths.map (x w))
    let s2 := s1.updGrp w.id fun g =>
      (if sr then g.advanceSr v w.act else g).result v false w.act fun th => res (x w th).code
    .ok (s2.countConv w.id c.1 c.2 (size * ths.length))

/-- Meaning of `cvt` (R143). -/
def execCvt (w : FR) (s : State) : Host.Outcome State Fault Refusal :=
  let v := w.view .fr 0x080
  let f := v.efunc
  let sf := natBits f 11 5
  let df := natBits f 6 5
  runConv { sh := shCvt v } v s (natBits f 3 3 == 4) (if sf = df then 0 else max 1 (fmtBits df / 8))
    (fun i th => convElem sf df 0 (if natBit f 2 then .satnan else .satfin) ((rndOf (natBits f 3 3)).getD .rne) (i.g.thread th).srNext
      (i.a th % 2 ^ fmtBits sf)) (cvtExtend df)

/-- Meaning of `pack` (R144): a with one slot replaced from b. -/
def execPack (w : FR) (s : State) : Host.Outcome State Fault Refusal :=
  let v := w.view .fr 0x081
  let ew := 4 * 2 ^ natBits v.efunc 14 2
  let p := natBits v.efunc 11 3
  runVal { sh := shPack v } v false s fun i th => bfiBits 32 (i.a th) (i.b th) (ew * p) ew

/-- Meaning of `unpk` (R144): one slot of a. -/
def execUnpk (w : FR) (s : State) : Host.Outcome State Fault Refusal :=
  let v := w.view .fr 0x082
  let ew := 4 * 2 ^ natBits v.efunc 14 2
  let x := fun a => natBits a (ew * natBits v.efunc 11 3) ew
  runVal { sh := shPack v } v false s fun i th => if natBit v.efunc 10 then wrapInt 32 (sInt ew (x (i.a th))) else x (i.a th)

/-- Scale of the block of 32 threads that holds thread th, absent and inactive threads being padding (R145). -/
def bmaxOf (w : Iss) (df bpol : Nat) (sat : Bool) (th : Nat) : Nat :=
  let base := th - th % 32
  let xs := (List.range 32).map fun j => { v := decFloat ffF32 (w.a (base + j)), pad := !w.act (base + j) : BlkIn }
  let sc := blockScale df (bpol == 2) (if sat then .satnan else .satfin) xs
  if fmtDx df then sc.sc0 + 256 * sc.sc1 else sc.sc0

/-- Meaning of `bmax` (R145). -/
def execBmax (w : FR) (s : State) : Host.Outcome State Fault Refusal :=
  let v := w.view .fr 0x083
  runVal { sh := shBmax v } v false s fun i th => bmaxOf i (natBits v.efunc 11 5) (natBits v.efunc 9 2) (natBit v.efunc 8) th

/-- One element of `bscale` under the block code b (R146, R432). -/
def bscaleEnc (df : Nat) (pol : Pol) (md : Rnd) (r a b : Nat) : Enc :=
  let e0 := b % 256
  let e1 := natBits b 8 8
  if e0 = 0xFF ∨ (fmtDx df ∧ e1 = 0xFF) then { code := 0, nar := true }
  else encBlockElem df e0 e1 pol md r (decFloat ffF32 a)

/-- Meaning of `bscale` (R146). -/
def execBscale (w : FR) (s : State) : Host.Outcome State Fault Refusal :=
  let v := w.view .fr 0x084
  let f := v.efunc
  runConv { sh := shBscale v } v s (natBits f 8 3 == 4) (max 1 (fmtBits (natBits f 11 5) / 8))
    (fun i th => bscaleEnc (natBits f 11 5) (if natBit f 7 then .satnan else .satfin) ((rndOf (natBits f 8 3)).getD .rne)
      (i.g.thread th).srNext (i.a th) (i.b th)) id

/-! ### Lane words -/

/-- Segment length S of a lane word (R148). -/
def segLen (v : View) : Nat := 8 * 2 ^ natBits v.efunc 11 2

/-- The entry of a lane word: S above W is an encoding fault (R148). -/
def laneEntry (v : View) : Entry := { sh := shLane v, enc := fun w => segLen v ≤ w.g.width }

/-- Active threads of the segment that holds th, in ascending order. -/
def segActs (w : Iss) (s th : Nat) : List Nat :=
  ((List.range s).map fun j => th - th % s + j).filter w.act

/-- Source thread of `shf` (R149). -/
def shfSrc (mode s d th : Nat) : Nat :=
  let base := th - th % s
  match mode with
  | 0 => base + d % s
  | 1 => if base + d ≤ th then th - d else th
  | 2 => if th + d < base + s then th + d else th
  | _ => base + Nat.xor (th - base) (d % s)

/-- Meaning of `shf` (R149). -/
def execShf (w : FR) (s : State) : Host.Outcome State Fault Refusal :=
  let v := w.view .fr 0x0A0
  runLater (laneEntry v) v (Shape.isWide (shLane v)) false s fun i th =>
    i.a (shfSrc (natBits v.efunc 14 2) (segLen v) (i.b th) th)

/-- Result of `vote` (R150). -/
def voteRes (w : Iss) (kind s th : Nat) : Nat :=
  let acts := segActs w s th
  match kind with
  | 0 => boolRes (acts.any fun j => w.a j != 0)
  | 1 => boolRes (acts.all fun j => w.a j != 0)
  | 2 => acts.foldl (fun m j => if w.a j ≠ 0 then m + 2 ^ (j % s) else m) 0
  | _ => boolRes (acts.all fun j => w.a j == w.a (acts.headD 0))

/-- Meaning of `vote` (R150). -/
def execVote (w : FR) (s : State) : Host.Outcome State Fault Refusal :=
  let v := w.view .fr 0x0A1
  runLater (laneEntry v) v (Shape.isWide (shLane v)) false s fun i th => voteRes i (natBits v.efunc 14 2) (segLen v) th

/-- One folding step of `redx` and `scan` (R151). -/
def laneOp (ft op x y : Nat) : Nat :=
  let i := sInt 32
  if ft = 1 then
    match op with
    | 0 => fltRes ffF32 .rne (Val.add false (decFloat ffF32 x) (decFloat ffF32 y))
    | 1 => fltRes ffF32 .rne (minVal false (decFloat ffF32 x) (decFloat ffF32 y))
    | _ => fltRes ffF32 .rne (minVal true (decFloat ffF32 x) (decFloat ffF32 y))
  else
    match op with
    | 0 => (x + y) % 2 ^ 32
    | 1 => if i x ≤ i y then x else y
    | 2 => if i x ≤ i y then y else x
    | 3 => min x y
    | 4 => max x y
    | 5 => x &&& y
    | 6 => x ||| y
    | _ => Nat.xor x y

/-- Identity of an operation (R151). -/
def laneId (ft op : Nat) : Nat :=
  if ft = 1 then
    match op with
    | 0 => 0
    | 1 => 0x7F800000
    | _ => 0xFF800000
  else
    match op with
    | 1 => 0x7FFFFFFF
    | 2 => 0x80000000
    | 3 => 0xFFFFFFFF
    | 5 => 0xFFFFFFFF
    | _ => 0

/-- Fold from the first value; the identity where there is none (R151). DEDUCED: over a single active value the fold makes no operation,
and its result is that value bit for bit, a NaN included, since R59 speaks of NaNs that an operation produces (log entry 53). -/
def laneFold (ft op : Nat) : List Nat → Nat
  | [] => laneId ft op
  | x :: xs => xs.foldl (laneOp ft op) x

/-- Meaning of `redx` (R151). -/
def execRedx (w : FR) (s : State) : Host.Outcome State Fault Refusal :=
  let v := w.view .fr 0x0A2
  runLater (laneEntry v) v false false s fun i th =>
    laneFold (natBits v.efunc 9 2) (natBits v.efunc 13 3) ((segActs i (segLen v) th).map i.a)

/-- Meaning of `bcst` (R152). -/
def execBcst (w : FR) (s : State) : Host.Outcome State Fault Refusal :=
  let v := w.view .fr 0x0A3
  runLater (laneEntry v) v false false s fun i th =>
    if natBit v.efunc 15 then i.a ((segActs i (segLen v) th).headD th)
    else i.a (th - th % segLen v + i.b th % segLen v)

/-- Meaning of `scan` (R151). -/
def execScan (w : FR) (s : State) : Host.Outcome State Fault Refusal :=
  let v := w.view .fr 0x0A4
  runLater (laneEntry v) v false false s fun i th =>
    let before := (segActs i (segLen v) th).filter fun j => if natBit v.efunc 8 then j < th else j ≤ th
    laneFold (natBits v.efunc 9 2) (natBits v.efunc 13 3) (before.map i.a)

end Sys2Proof.Machine
end

