-- ==== Sys2Proof/Machine/Fetcher.lean ====
section
/-! DEFINITION. Operand descriptors and the operand fetcher (R200 to R205): admission, block images, scales, and the
decoding chain. -/

namespace Sys2Proof.Machine

/-- The fields of an operand descriptor (R200). -/
structure Desc where
  src : Nat
  base : Nat
  fmt : Nat
  layout : Nat
  scale : Nat
  ofs : Nat
deriving DecidableEq, Repr

/-- Reading of a descriptor value (R200). -/
def descOf (d : Nat) : Desc :=
  { src := natBits d 30 2, base := natBits d 24 6, fmt := natBits d 16 8, layout := natBits d 13 3, scale := natBits d 10 3, ofs := natBits d 0 10 }

/-- K of a format pair by contract (R179); 0 where the contract does not admit the A or B format. -/
def kOf (ct : Contract) (fa fb : Nat) : Nat :=
  let both := fun (l : List Nat) => l.contains fa && l.contains fb
  match ct with
  | .mxi =>
    if both [0x01, 0x02] || both [0x08, 0x09] || both [0x0A, 0x0B, 0x0C, 0x0E] then 16
    else if both [0x12, 0x13] || both [0x0D, 0x0F] then 32
    else if both [0x05, 0x06] then 8
    else 0
  | .ter => if fa = 0x01 ∧ fb = 0x11 then 64 else 0
  | .lns => if fa = 0x10 ∧ fb = 0x10 then 8 else 0
  | .xf32 => if fa = 0x07 ∧ fb = 0x07 then 4 else 0
  | .gen => 0

/-- SCALE fits the format (R201). -/
def scaleFits (ct : Contract) (isA : Bool) (f sc : Nat) : Bool :=
  if fmtBlock f then sc == 1 || sc == 2 || sc == 3
  else if f = 0x07 ∨ f = 0x10 ∨ f = 0x11 then sc == 0
  else if isA && decide (ct = .ter) then sc == 0
  else sc == 0 || sc == 4

/-- The fields of a descriptor that R201 and R203 admit for an operand; under SRC 11 the column group c lies below 16 / K. -/
def descOk (ct : Contract) (isA : Bool) (k : Nat) (d : Desc) : Bool :=
  d.layout < 5 && d.scale < 5 && fmtOk d.fmt &&
  (match d.src with
   | 0 => isA && decide (ct ≠ .ter) && d.layout == 0 && (d.scale == 0 || d.scale == 2)
   | 3 => isA && d.layout == 0 && d.scale == 0 &&
      (match ct with
       | .mxi => d.fmt == 0x05 || d.fmt == 0x06
       | .xf32 => d.fmt == 0x07
       | .lns => d.fmt == 0x10
       | _ => false) && d.ofs < 16 / max k 1
   | _ => true) &&
  scaleFits ct isA d.fmt d.scale &&
  (match d.scale with
   | 0 => d.src != 0 || d.ofs == 0
   | 2 => natBits d.ofs 5 5 == 0
   | 3 => natBits d.ofs 6 4 == 0
   | 4 => natBits d.ofs 6 4 == 0
   | _ => true)

/-- Data bytes of a block image (R202). -/
def imgBytes (ct : Contract) (isA : Bool) : Nat := if isA && decide (ct = .ter) then 1024 else 256

/-- Bytes of the scales of one image: strip of E8M0 or DX exponents, or FP32 words (R203). -/
def scaleBytes (d : Desc) : Nat := if d.scale = 4 then 64 else if fmtDx d.fmt then 32 else 16

/-- Image stride between octets (R202, R203). -/
def imgStride (ct : Contract) (isA : Bool) (d : Desc) : Nat :=
  imgBytes ct isA + (if d.scale = 1 then (if fmtDx d.fmt then 32 else 16) else 0)

/-- Image origin from the tile base: OFFSET counts only under SCALE 000 and 001 (R203). -/
def imgOrigin (d : Desc) : Nat := if d.scale < 2 then 64 * d.ofs else 0

/-- The swizzle of LAYOUT 010 and 011 on an offset from the tile base (R202). -/
def swz (layout y : Nat) : Nat := if layout = 2 ∨ layout = 3 then Nat.xor y ((y / 128) % 8 * 16) else y

/-- Bit offset of element (r, k) in an image of K elements of e bits (R202). -/
def elemOfs (layout kk e r k : Nat) : Nat :=
  match layout with
  | 0 | 2 => r * kk * e + k * e
  | 1 | 3 => (16 * k + r) * e
  | _ => 64 * e * (k / 4) + (16 * (k % 4) + r) * e

/-- The e-bit element at bit offset x of a byte string (R202). -/
def bitElem (bs : List Byte) (e x : Nat) : Nat :=
  if e < 8 then (((bs.getD (x / 8) 0#8).toNat) >>> (x % 8)) % 2 ^ e else leNat ((bs.drop (x / 8)).take (e / 8))

/-- The tiles that a descriptor names, its scale tile included (R97 step 5, R203). -/
def Desc.tiles (d : Desc) : List Nat :=
  (if d.src = 1 ∨ d.src = 2 then [d.base] else []) ++ (if d.scale = 3 ∨ d.scale = 4 then [natBits d.ofs 0 6] else [])

/-- A tile of the group's own table (R37). -/
def Iss.tile (w : Iss) (i : Nat) : Option Tile := ((w.t.tiles.getD w.half [])[i]?)

/-- Offset, from the tile base, of the image of octet o (R203). -/
def imgStart (ct : Contract) (isA : Bool) (d : Desc) (o : Nat) : Nat := imgOrigin d + o * imgStride ct isA d

/-- Byte offsets in an image of its elements, in ascending row and element order (R202, R204). -/
def imgOrder (d : Desc) (kk : Nat) : List Nat :=
  let e := fmtBits d.fmt
  (List.range 16).flatMap fun r => (List.range kk).flatMap fun k =>
    (List.range (max 1 (e / 8))).map fun i => elemOfs d.layout kk e r k / 8 + i

/-- The first byte, by tile offset in ascending order, of a span that lies beyond a tile's size. -/
def beyond (lo hi size : Nat) : Option Nat := if size < hi then some (max lo size) else none

/-- Tile offset at which the fetcher finds the first byte of octet o's image, in row and element order, that lies beyond the data tile:
a swizzled image byte is looked for where the swizzle puts it (R202, R204). -/
def imgBeyond (ct : Contract) (isA : Bool) (d : Desc) (kk size o : Nat) : Option Nat :=
  ((imgOrder d kk).map fun y => swz d.layout (imgStart ct isA d o + y)).find? fun y => decide (size ≤ y)

/-- LS offset of the first byte of octet o's image or strip that lies beyond its tile, the strip after its image (R203, R204). -/
def Iss.octBeyond (w : Iss) (ct : Contract) (isA : Bool) (d : Desc) (kk o : Nat) : Option Nat :=
  let data := if d.src = 1 ∨ d.src = 2 then w.tile d.base else none
  let strip := if d.scale = 3 ∨ d.scale = 4 then w.tile (natBits d.ofs 0 6) else none
  let image := data.bind fun t => (imgBeyond ct isA d kk (64 * t.size) o).map (t.base + ·)
  let inline := data.bind fun t =>
    (beyond (imgStart ct isA d o + imgBytes ct isA) (imgStart ct isA d (o + 1)) (64 * t.size)).map (t.base + ·)
  let apart := strip.bind fun t => (beyond (o * scaleBytes d) ((o + 1) * scaleBytes d) (64 * t.size)).map (t.base + ·)
  (image.orElse fun _ => if d.scale = 1 then inline else none).orElse fun _ => apart

/-- Admission checks of one descriptor at step 8 in the order of R204. `octs` are the octets whose images the word reads. -/
def descCheck (w : Iss) (ct : Contract) (isA : Bool) (k : Nat) (dv : Nat) (octs : List Nat) : Except Exc Unit := do
  let d := descOf dv
  if !descOk ct isA k d then .error { code := cOperandClass, detail := dv }
  if d.src = 3 ∧ w.t.kd.acc ≤ d.base then .error { code := cOperandClass }
  if d.tiles.any fun t => w.t.kd.tiles ≤ t then .error { code := cTileRange }
  if d.src = 1 ∨ d.src = 2 then
    match w.tile d.base with
    | none => .error { code := cTileRange }
    | some t =>
      if d.src = 1 ∧ t.absent then .error { code := cTileState }
      if d.src = 2 ∧ t.rcp = 0#64 then .error { code := cTileState }
  match octs.findSome? (w.octBeyond ct isA d k) with
  | some x => .error { code := cTileRange, addr := x }
  | none => pure ()

/-- Bytes of the group's own LS (R37). -/
def State.ownLs (s : State) (w : Iss) (off n : Nat) : List Byte := s.lsBytes w.t.id w.core off n

/-- Image and row-scale bytes of octet o, as the fetcher reads them, the swizzle undone (R182, R202, R203). DESIGN CHOICE: under SCALE 001
the strip stands after its image, as R203 and R205 say of images in LS; the scale byte before a block's elements of R63 is the block's
form in memory (log entry 54). -/
def fetchImage (s : State) (w : Iss) (ct : Contract) (isA : Bool) (d : Desc) (o : Nat) : Snap :=
  let n := imgBytes ct isA
  let org := imgStart ct isA d o
  let image : List Byte :=
    match d.src with
    | 0 => (List.range 8).flatMap fun i => (List.range 8).flatMap fun j => leBytes 4 ((w.g.thread (8 * o + i)).ni (d.base + j)).toNat
    | _ =>
      match w.tile d.base with
      | some t => (List.range n).map fun y => ((s.ownLs w (t.base + swz d.layout (org + y)) 1).headD 0#8)
      | none => []
  let scales : List Byte :=
    match d.scale with
    | 1 =>
      match w.tile d.base with
      | some t => s.ownLs w (t.base + org + n) (scaleBytes d)
      | none => []
    | 2 =>
      let x := (w.g.si (natBits d.ofs 0 5)).toNat
      (List.range 16).flatMap fun _ => if fmtDx d.fmt then leBytes 2 x else leBytes 1 x
    | 0 => []
    | _ =>
      match w.tile (natBits d.ofs 0 6) with
      | some t => s.ownLs w (t.base + o * scaleBytes d) (scaleBytes d)
      | none => []
  { image := image, scales := scales }

/-- A fetched block: 16 rows of K element codes with the exact values after the scale (R204). -/
structure Block where
  codes : List (List Nat)
  vals : List (List Val)
deriving DecidableEq, Repr

/-- Decoding of an image (R204): layout, Dec, scale. -/
def decodeImage (d : Desc) (kk : Nat) (sn : Snap) : Block :=
  let e := fmtBits d.fmt
  let codes := (List.range 16).map fun r => (List.range kk).map fun k => bitElem sn.image e (elemOfs d.layout kk e r k)
  let val := fun r x =>
    if fmtDx d.fmt then decBlockElem d.fmt x (leNat ((sn.scales.drop (2 * r)).take 1)) (leNat ((sn.scales.drop (2 * r + 1)).take 1))
    else if fmtBlock d.fmt then decBlockElem d.fmt x (leNat ((sn.scales.drop r).take 1)) 0
    else if d.scale = 4 then Val.mul (decElem d.fmt x) (decFloat ffF32 (leNat ((sn.scales.drop (4 * r)).take 4)))
    else decElem d.fmt x
  { codes := codes, vals := codes.mapIdx fun r row => row.map (val r) }

end Sys2Proof.Machine
end

