-- ==== Sys2Proof/Machine/Joins.lean ====
section
/-! DEFINITION. Join counters (R281), the roost (R329 to R333) and the completion of batches (R307). -/

namespace Sys2Proof.Machine

/-! ### Join counters (R281) -/

/-- A window address: it is never translated (R213). -/
def inWindow (va : Nat) : Bool := natBits va 48 16 == 0xFF

/-- The checks of a counter address: alignment, translation, place (R281). Answers its PA. -/
def State.counterPa (s : State) (c : Ctx) (own : Option (Team × Nat)) (va : Nat) : Except Exc Nat := do
  if va % 4 ≠ 0 then .error { code := cAlignment, addr := va }
  if inWindow va then .error { code := cAtomicUnsupported, addr := va }
  match ← s.translate c own va 4 .atomic false with
  | .ls _ _ _ => .error { code := cAtomicUnsupported, addr := va }
  | .phys pa _ _ => if (regionOf s.pkg.hbmsplit pa).hbm then .ok pa else .error { code := cAtomicUnsupported, addr := va }

/-- A ready notice for the counter at a PA: both schedulers will test the tasks that it gates (R281, R352). -/
def State.notice (s : State) (ctx va pa : Nat) : State :=
  let s1 := s.updSch fun c => { c with ready := if c.ready.contains pa then c.ready else c.ready ++ [pa] }
  s1.emitHub (homeSlice s.pkg.hbmsplit pa / 96) 0x300 0x31 ctx (BitVec.ofNat 32 va)

/-- DecrementBy at the home slice (R281). -/
def State.decrementPa (s : State) (ctx va pa k : Nat) : State :=
  let old := s.mem.rd pa 4
  if k = 0 then s
  else
    let new := if old < k then 0 else old - k
    let s1 := s.storeNat pa 4 new
    let s2 := if old < k then s1.logFault ctx cQueueDesc old va else s1
    if old ≠ 0 ∧ new = 0 then s2.notice ctx va pa else s2

/-- Decrement by a source that meets its fault only now: the fault is logged and nothing is decremented (R281). -/
def State.decrement (s : State) (ctx va : Nat) : State :=
  match s.ctx? ctx with
  | none => s
  | some c =>
    match s.counterPa c none va with
    | .ok pa => s.decrementPa ctx va pa 1
    | .error x => s.logFault ctx x.code 0 va

/-! ### Batches (R307) -/

/-- The first complete batch of a group: none of its copies is left. -/
def State.doneBatch (s : State) (g : Group) : Option Batch :=
  g.outb.find? fun b => b.ids.all fun i => (s.copy? i).isNone

/-- Completes one batch of a group: event 0x20, and the decrement of `.j` (R307, R352). -/
def State.closeBatch (s : State) (id : Nat × Nat) (t : Team) (g : Group) (b : Batch) : State :=
  let s1 := s.updGrp id fun g => { g with outb := g.outb.filter fun x => x.seq != b.seq }
  let s2 := s1.emitCore t (t.coreOf id.2) 0x20 (BitVec.ofNat 32 (g.slot * 2 ^ 24 + b.seq.toNat % 2 ^ 24))
  match b.j with
  | some va => s2.decrement t.ctx va.toNat
  | none => s2

/-- Completes every batch that can complete: at most 64 per group. A commit of ranges or a migration stalls the batches of its context, whose
decrements it stalls (R219, R231). -/
def State.closeBatches (s : State) : State :=
  let one := fun (s : State) =>
    match (s.teams.filter fun t => !s.frozenCtx t.ctx).findSome? fun t => t.groups.findSome? fun g => (s.doneBatch g).map fun b => (t, g, b) with
    | some (t, g, b) => s.closeBatch (t.id, g.idx) t g b
    | none => s
  (List.range (64 * (s.teams.map fun t => t.groups.length).sum)).foldl (fun s _ => one s) s

/-! ### The roost (R329 to R333) -/

/-- The slice that homes a line. -/
def State.sliceOf (s : State) (line : Nat) : Nat := homeSlice s.pkg.hbmsplit (128 * line)

/-- Entries in use at a slice, and those that hold COUNT. -/
def State.roostUsed (s : State) (slice : Nat) : Nat := (s.roost.filter fun e => e.slice == slice).length
def State.roostCounts (s : State) (slice : Nat) : Nat := (s.roost.filter fun e => e.slice == slice && e.kind == .count).length

/-- Frees the entries of a group but the counted ones (R332, R335). -/
def State.disarm (s : State) (team grp : Nat) : State :=
  { s with roost := s.roost.filter fun e => !(e.team == team && e.grp == grp && e.kind != .count)
           ovf := s.ovf.filter fun o => !(o.team == team && o.grp == grp) }

/-- Arms an entry on the line of a PA for a group, or sets its bit in the overflow set of a full slice (R330). -/
def State.arm (s : State) (kind : RoostKind) (t : Team) (g : Group) (pa : Nat) : State :=
  let slice := s.sliceOf (pa / 128)
  let e : Roost := { slice := slice, kind := kind, fired := false, line := pa / 128, ctx := t.ctx, core := t.coreOf g.idx,
                     gslot := g.slot, jcva := 0#64, expv := 0#64, word := pa, team := t.id, grp := g.idx }
  if 64 ≤ s.roostUsed slice then { s with ovf := s.ovf ++ [{ slice := slice, team := t.id, grp := g.idx, fired := false }] }
  else { s with roost := s.roost ++ [e] }

/-- The monitor of a group waits in the overflow set of a slice, and not in an entry (R330). -/
def State.ovfMonitor (s : State) (slice team grp : Nat) : Bool :=
  ((s.grp? (team, grp)).any fun g => g.monitor.any fun m => !m.fired && s.sliceOf (m.pa / 128) == slice) &&
  !s.roost.any fun e => e.team == team && e.grp == grp && e.kind == .wait

/-- Frees the place of a group that waited in `qdeq`; a monitor that it has armed stays (R289, R332). -/
def State.disarmQ (s : State) (team grp : Nat) : State :=
  { s with roost := s.roost.filter fun e => !(e.team == team && e.grp == grp && e.kind == .qwait)
           ovf := s.ovf.filter fun o => !(o.team == team && o.grp == grp) || s.ovfMonitor o.slice team grp }

/-- A wake reaches a group: its monitor has fired (R332). -/
def Group.wake (g : Group) : Group := { g with monitor := g.monitor.map fun m => { m with fired := true } }

/-- Wakes the entries that `p` selects, and the saved teams that wait as such an entry would: a change of the line's mapping (R330,
R335). -/
def State.fireRoost (s : State) (p : Roost → Bool) : State :=
  let like := fun (c : Cand) (l : Nat) =>
    p { slice := s.sliceOf l, kind := .wait, fired := false, line := l, ctx := c.ctx, core := 0, gslot := 0, jcva := 0#64, expv := 0#64,
        word := 128 * l, team := c.id, grp := 0 }
  { s with roost := s.roost.map fun e => if p e && e.kind != .count then { e with fired := true } else e
           sch := { s.sch with cands := s.sch.cands.map fun c => if c.lines.any (like c) then { c with ready := true } else c } }

end Sys2Proof.Machine
end

