-- ==== Sys2Proof/Machine/Matrix.lean ====
section
/-! DEFINITION. Accumulation by class (R71, R85 to R88, R184) and the matrix words (R175 to R197). -/

namespace Sys2Proof.Machine

/-! ### XACC images (R71) -/

/-- An XACC element: exact multiple of 2^(-298), or a special. -/
inductive XV where
  | fin (i : Int)
  | inf (neg : Bool)
  | nan
deriving DecidableEq, Repr

/-- Bound of the finite range, exclusive: 2^574 (R71). -/
def xBound : Int := 2 ^ 574

/-- Reading of a 576-bit image (R71). -/
def xDec (c : Nat) : XV :=
  let i := sInt 576 c
  if i = -(2 ^ 575) then .nan
  else if i = -(2 ^ 575) + 1 then .inf false
  else if i = -(2 ^ 575) + 2 then .inf true
  else if i < xBound ∧ -xBound < i then .fin i
  else .nan

/-- Image of an element (R71). -/
def xEnc : XV → Nat
  | .fin i => wrapInt 576 i
  | .nan => wrapInt 576 (-(2 ^ 575))
  | .inf false => wrapInt 576 (-(2 ^ 575) + 1)
  | .inf true => wrapInt 576 (-(2 ^ 575) + 2)

/-- A finite integer, or an infinity outside the range with the flag XOVF (R86). -/
def xRange (i : Int) : XV × Bool := if i < xBound ∧ -xBound < i then (.fin i, false) else (.inf (decide (i < 0)), true)

/-- An exact value that is a multiple of 2^(-298) as an XACC element. -/
def xOfVal : Val → XV
  | .fin s m e => .fin (if s then -(m * 2 ^ (e + 298).toNat : Nat) else (m * 2 ^ (e + 298).toNat : Nat))
  | .inf s => .inf s
  | _ => .nan

/-- Addition of a product to an image, with XOVF (R86). -/
def xAdd (a b : XV) : XV × Bool :=
  match a, b with
  | .nan, _ => (.nan, false)
  | _, .nan => (.nan, false)
  | .inf s, .inf t => if s = t then (.inf s, false) else (.nan, false)
  | .inf s, .fin _ => (.inf s, false)
  | .fin _, .inf t => (.inf t, false)
  | .fin i, .fin j => xRange (i + j)

/-- The exact value of an element; an exact zero is +0.0 (R86). -/
def xVal : XV → Val
  | .nan => .nan
  | .inf s => .inf s
  | .fin i => .fin (decide (i < 0)) i.natAbs (-298)

/-! ### One K-block (R85 to R88) -/

/-- The contract's zero (R40, R189). -/
def contractZero (ct : Contract) : Nat := if ct = .lns then lnsZero 32 else 0

/-- Exact sum of products over a row and a column; an exact zero is +0.0 (R85, R184). -/
def dotVal (ng : Bool) : List Val → List Val → Val → Val
  | a :: as, b :: bs, acc =>
    let p := Val.mul a b
    dotVal ng as bs (Val.add false acc (if ng then p.neg else p))
  | _, _, acc => if acc.isZero then .fin false 0 0 else acc

/-- MXI: two RNE roundings per K-block (R85). -/
def accMxi (ng : Bool) (c : Nat) (a b : List Val) : Nat :=
  let s := fltRes ffF32 .rne (dotVal ng a b (.fin false 0 0))
  fltRes ffF32 .rne (Val.add false (decFloat ffF32 c) (decFloat ffF32 s))

/-- XF32: products added one at a time in ascending k (R86). -/
def accXf (ng : Bool) : List Val → List Val → XV × Bool → XV × Bool
  | a :: as, b :: bs, acc =>
    let p := Val.mul a b
    let r := xAdd acc.1 (xOfVal (if ng then p.neg else p))
    accXf ng as bs (r.1, acc.2 || r.2)
  | _, _, acc => acc

/-- A TER2 weight (R70). -/
def terW (x : Nat) : Int := if x = 1 then 1 else if x = 3 then -1 else 0

/-- TER: the exact sum, then one clamp (R87). -/
def accTer (ng : Bool) (c : Nat) (a b : List Nat) : Nat × Bool :=
  let s := ((a.zip b).map fun p => sInt 8 p.1 * terW p.2).sum
  let x := sInt 32 c + (if ng then -s else s)
  let y := clampInt (-(2 ^ 31)) (2 ^ 31 - 1) x
  (wrapInt 32 y, x != y)

/-- LNS: LnsAdd of each widened product in ascending k (R88). -/
def accLns (ng : Bool) : List Nat → List Nat → Nat × Bool → Nat × Bool
  | a :: as, b :: bs, acc =>
    let p := prod32 a b
    let r := lnsAddF 32 acc.1 (if ng then lnsNeg 32 p else p)
    accLns ng as bs (r.1, acc.2 || r.2)
  | _, _, acc => acc

/-- One element of Accumulate(C, A, B, neg) with the sticky flags it sets (R90, R177). -/
def accElem (ct : Contract) (ng : Bool) (c : Nat) (ac : List Nat) (av : List Val) (bc : List Nat) (bv : List Val) : Nat × W32 :=
  match ct with
  | .mxi => (accMxi ng c av bv, 0#32)
  | .xf32 =>
    let r := accXf ng av bv (xDec c, false)
    (xEnc r.1, if r.2 then flagXOVF else 0#32)
  | .ter =>
    let r := accTer ng c ac bc
    (r.1, if r.2 then flagTSAT else 0#32)
  | .lns =>
    let r := accLns ng ac bc (c, false)
    (r.1, if r.2 then flagLSAT else 0#32)
  | .gen => (c, 0#32)

/-- Accumulate over a tile: element (i, j) at index 16 i + j (R176, R179). -/
def accTile (ct : Contract) (ng : Bool) (cin : List Nat) (a b : Block) : List (Nat × W32) :=
  (List.range 16).flatMap fun i => (List.range 16).map fun j =>
    accElem ct ng (cin.getD (16 * i + j) (contractZero ct)) (a.codes.getD i []) (a.vals.getD i []) (b.codes.getD j []) (b.vals.getD j [])

/-! ### Tiles of a team -/

/-- Tile of an octet (R176). -/
def Team.accTileOf (t : Team) (g o i : Nat) : List Nat := (((t.acc.getD g []).getD o []).getD i [])

/-- Replaces a tile of an octet. -/
def Team.setAcc (t : Team) (g o i : Nat) (x : List Nat) : Team :=
  { t with acc := t.acc.modify g fun os => os.modify o fun ts => ts.set i x }

/-- Octets of the group. -/
def Group.octets (g : Group) : List Nat := List.range (g.width / 8)

/-- Octets that take part: those with an active thread (R178). -/
def Iss.parts (w : Iss) : List Nat := w.g.octets.filter fun o => (List.range 8).any fun i => w.act (8 * o + i)

/-- Element values of a tile, zero-filled to 256. -/
def fullTile (ct : Contract) (x : List Nat) : List Nat := (List.range 256).map fun i => x.getD i (contractZero ct)

/-- The FP32 bits that `drain` and `mrd` deliver of an XACC element (R86, R193). -/
def xToF32 (c : Nat) : Nat := fltRes ffF32 .rne (xVal (xDec c))

/-! ### Shared checks (R176, R183, R186) -/

/-- Step 4: GEN first, then tile indexes against ACC. -/
def matCls (tiles : List Nat) (w : Iss) : Option Exc :=
  if w.t.kd.contract = .gen then some { code := cContract, detail := 0x05 }
  else if tiles.any fun i => w.t.kd.acc ≤ i then some { code := cOperandClass }
  else none

/-- VA of the retire counter, if the word has one (R183). -/
def Iss.retireVa (w : Iss) : Option Nat := if w.v.c = 0x53 then none else some w.uc

/-- The retire address at issue: alignment, Translate(va, ATOMIC), and its place (R183, R186, R281). Answers the decrement that is to
follow the word's updates. -/
def retireCheck (s : State) (w : Iss) : Except Exc (Option Retire) :=
  match w.retireVa with
  | none => .ok none
  | some va => (s.counterPa w.c w.own va).map fun pa => some ⟨w.id.2, BitVec.ofNat 64 va, pa⟩

/-- The VA that a retire field names, for its walk. -/
def Iss.retireVas (w : Iss) : List Nat := w.retireVa.toList

/-- Records the retire decrement that follows the word's updates (R183, R198). -/
def State.addRetire (s : State) (team : Nat) (r : Option Retire) : State :=
  match r with
  | none => s
  | some r => s.updTeam team fun t => { t with retires := t.retires ++ [r] }

/-- Makes a retire decrement, at the place that the word found at issue (R183). -/
def State.retire (s : State) (ctx : Nat) (r : Retire) : State := s.decrementPa ctx r.va.toNat r.pa 1

/-- Sets sticky flags (R177). -/
def Group.flag (g : Group) (f : W32) : Group := { g with mstat := g.mstat ||| f }

/-! ### `mma` and `mmx` (R187, R188) -/

/-- The keep-A snapshot serves as A: the word reads no A image (R182). -/
def Iss.snapServes (w : Iss) : Bool := w.g.keep && w.g.ktag == BitVec.ofNat 32 w.ua

/-- Octets for which the word fetches A: none when the snapshot serves, all under HOLD 01, else those that take part (R182, R188). -/
def Iss.octsA (w : Iss) : List Nat := if w.snapServes then [] else if w.v.hold = 1 then w.g.octets else w.parts

/-- Checks of step 8 of R186 for `mma` and `mmx`: formats, descriptors, register base, retire address. DESIGN CHOICE: where both descriptors fail,
the checks of A come before those of B, since neither R186 nor R204 orders the two operands (log entry 76). -/
def mmaCheck (s : State) (w : Iss) : Except Exc (Option Retire) := do
  let ct := w.t.kd.contract
  let da := descOf w.ua
  let db := descOf w.ub
  let k := kOf ct da.fmt db.fmt
  if k = 0 then .error { code := cContract, detail := da.fmt * 256 + db.fmt }
  descCheck w ct true k w.ua w.octsA
  descCheck w ct false k w.ub (if w.parts.isEmpty then [] else [0])
  if da.src = 0 ∧ w.t.kd.named ≤ da.base + 7 then .error { code := cOperandClass }
  retireCheck s w

/-- The A block of an octet from the accumulator tile that SRC 11 names: element (i, j) with j in column group c, converted
as R204 states, with LSAT. -/
def accSource (ct : Contract) (d : Desc) (kk : Nat) (tile : List Nat) : List Nat × Bool :=
  let conv := fun c : Nat =>
    match ct with
    | .mxi => (fltRes (if d.fmt = 0x05 then ffF16 else ffBf16) .rne (decFloat ffF32 c), false)
    | .xf32 => (xToF32 c, false)
    | _ =>
      if c = lnsZero 32 then (lnsZero 16, false)
      else if c = lnsNaR 32 then (lnsNaR 16, false)
      else satCode 16 (lnsSign 32 c) (roundLog .rne 0 false (lnsLog 32 c) 15)
  let xs := (List.range 16).flatMap fun i => (List.range kk).map fun j => conv ((fullTile ct tile).getD (16 * i + d.ofs * kk + j) 0)
  (xs.map Prod.fst, xs.any Prod.snd)

/-- The image of the A block of octet o: by the fetcher, or from the accumulator (R204). -/
def imageA (s : State) (w : Iss) (ct : Contract) (d : Desc) (kk o : Nat) : Snap × Bool :=
  if d.src = 3 then
    let r := accSource ct d kk (w.t.accTileOf w.id.2 o d.base)
    ({ image := r.1.flatMap fun c => leBytes (fmtBits d.fmt / 8) c, scales := [] }, r.2)
  else (fetchImage s w ct true d o, false)

/-- Registers beyond its fields that an operand of a matrix word reads: A from named registers (R180), and those that hold scales (R203). `regs`
says whether the operand may come from registers: a descriptor that R201 does not admit there is refused at step 8, and names none. -/
def Desc.touch (d : Desc) (regs : Bool) : Touch :=
  (if regs && d.src == 0 then ((List.range 8).filter fun i => decide (d.base + i < 32)).map fun i => (0x10 + d.base + i, false) else []) ++
  (if d.scale = 2 then [(0x30 + natBits d.ofs 0 5, false)] else [])

/-- Registers beyond its fields that a matrix word reads; none for an A that the snapshot serves (R182). B never comes from registers, nor does
A under TER (R180, R201). -/
def matTouch (w : Iss) : Touch :=
  (if w.snapServes then [] else (descOf w.ua).touch (w.t.kd.contract != .ter)) ++ (descOf w.ub).touch false

/-- A reserved TER2 code in the B block (R70, R177). -/
def terReserved (ct : Contract) (b : Block) : Bool := decide (ct = .ter) && b.codes.any fun r => r.contains 2

/-- The effect of `mma` and `mmx` (R188), with the retire decrement that follows it. -/
def mmaEff (w : Iss) (r : Option Retire) (s : State) : State :=
  let ct := w.t.kd.contract
  let v := w.v
  let da := descOf w.ua
  let kk := kOf ct da.fmt (descOf w.ub).fmt
  let ng := natBit v.func 15
  let take := v.hold == 1 && !w.snapServes
  let imgs := w.octsA.map fun o => (o, imageA s w ct da kk o)
  let snapA := fun o => if w.snapServes then (w.g.snaps.getD o { image := [], scales := [] })
    else ((imgs.find? fun p => p.1 == o).map fun p => p.2.1).getD { image := [], scales := [] }
  let lsat := imgs.any fun p => p.2.2 && w.parts.contains p.1
  let b := decodeImage (descOf w.ub) kk (fetchImage s w ct false (descOf w.ub) 0)
  let cin := fun o =>
    if v.opc = 0x180 then (if natBit v.func 14 then List.replicate 256 (contractZero ct) else fullTile ct (w.t.accTileOf w.id.2 o v.dst))
    else fullTile ct (w.t.accTileOf w.id.2 o (natBits v.func 0 3))
  let outs := w.parts.map fun o => (o, accTile ct ng (cin o) (decodeImage (if da.src = 3 then { da with scale := 0 } else da) kk (snapA o)) b)
  let fl := outs.foldl (fun f p => p.2.foldl (fun f e => f ||| e.2) f) 0#32
  let fl := (if lsat then fl ||| flagLSAT else fl) ||| (if !w.parts.isEmpty && terReserved ct b then flagTRES else 0#32)
  let s1 := (s.perfAdd w.id 3 w.parts.length).updTeam w.id.1 fun t => outs.foldl (fun t p => t.setAcc w.id.2 p.1 v.dst (p.2.map Prod.fst)) t
  let s2 := s1.updGrp w.id fun g =>
    let g1 := g.flag fl
    if take then { g1 with keep := true, ktag := BitVec.ofNat 32 w.ua, snaps := imgs.map fun p => p.2.1 }
    else if v.hold = 0 ∧ w.snapServes = true then { g1 with keep := false, snaps := [] }
    else g1
  s2.addRetire w.id.1 r

/-- The tiles that a matrix word names through its descriptors (R97, R98). -/
def mmaTiles (w : Iss) : List Nat := (descOf w.ua).tiles ++ (descOf w.ub).tiles

/-- Meaning of `mma` (R187, R188). -/
def execMma (w : FR) (s : State) : Host.Outcome State Fault Refusal :=
  let v := w.view .fx 0x180
  runWord { sh := shMma v, cls := matCls [v.dst], touch := matTouch, tiles := mmaTiles, vas := Iss.retireVas } v s fun i s1 => do
    let r ← mmaCheck s1 i
    s1.charging i actMatrix i.parts.length fun s2 => .ok (mmaEff i r s2)

/-- Meaning of `mmx` (R187, R188). -/
def execMmx (w : FR) (s : State) : Host.Outcome State Fault Refusal :=
  let v := w.view .fx 0x181
  runWord { sh := shMma v, cls := matCls [v.dst, natBits v.func 0 3], touch := matTouch, tiles := mmaTiles, vas := Iss.retireVas } v s fun i s1 => do
    let r ← mmaCheck s1 i
    s1.charging i actMatrix i.parts.length fun s2 => .ok (mmaEff i r s2)

/-! ### `mzero`, `mscl`, `mrel` (R189, R190, R196) -/

/-- Meaning of `mzero` (R189). -/
def execMzero (w : FR) (s : State) : Host.Outcome State Fault Refusal :=
  let v := w.view .fx 0x182
  runWord { sh := shMzero v, cls := matCls [v.dst], vas := Iss.retireVas } v s fun i s1 => do
    let r ← retireCheck s1 i
    pure ((s1.updTeam i.id.1 fun t => i.parts.foldl (fun t o =>
      t.setAcc i.id.2 o v.dst (List.replicate 256 (contractZero t.kd.contract))) t).addRetire i.id.1 r)

/-- One element of `mscl` with its flag (R190). -/
def msclElem (ct : Contract) (e : Int) (c : Nat) : Nat × W32 :=
  match ct with
  | .mxi =>
    let x := decFloat ffF32 c
    (if x.isZero then c else match x with
      | .fin _ _ _ => fltRes ffF32 .rne (x.scl e)
      | _ => c, 0#32)
  | .ter =>
    let x := sInt 32 c
    if 0 ≤ e then
      let y := if x = 0 then 0 else if 64 < e then (if x < 0 then -(2 ^ 63) else 2 ^ 63) else x * 2 ^ e.toNat
      let z := clampInt (-(2 ^ 31)) (2 ^ 31 - 1) y
      (wrapInt 32 z, if y = z then 0#32 else flagTSAT)
    else (wrapInt 32 (roundToInt .rne 0 (decide (x < 0)) x.natAbs e), 0#32)
  | .lns =>
    if c = lnsZero 32 ∨ c = lnsNaR 32 then (c, 0#32)
    else
      let r := satCode 32 (lnsSign 32 c) (lnsLog 32 c + e * 2 ^ 23)
      (r.1, if r.2 then flagLSAT else 0#32)
  | .xf32 =>
    match xDec c with
    | .fin i =>
      let n := i.natAbs
      let big := decide (1200 < e) && n != 0
      let m : Nat := if big then 2 ^ 600 else if 0 ≤ e then n * 2 ^ e.toNat else roundGrid .rne 0 (decide (i < 0)) n e 0
      let r := xRange (if i < 0 then -(m : Int) else m)
      (xEnc r.1, if r.2 then flagXOVF else 0#32)
    | _ => (c, 0#32)
  | .gen => (c, 0#32)

/-- Meaning of `mscl` (R190). -/
def execMscl (w : FR) (s : State) : Host.Outcome State Fault Refusal :=
  let v := w.view .fx 0x186
  runWord { sh := shMscl v, cls := matCls [v.dst], vas := Iss.retireVas } v s fun i s1 => do
    let r ← retireCheck s1 i
    let ct := i.t.kd.contract
    let outs := i.parts.map fun o => (o, (fullTile ct (i.t.accTileOf i.id.2 o v.dst)).map (msclElem ct (sInt 32 i.ua)))
    let fl := outs.foldl (fun f p => p.2.foldl (fun f e => f ||| e.2) f) 0#32
    let s2 := s1.updTeam i.id.1 fun t => outs.foldl (fun t p => t.setAcc i.id.2 p.1 v.dst (p.2.map Prod.fst)) t
    pure ((s2.updGrp i.id fun g => g.flag fl).addRetire i.id.1 r)

/-- Meaning of `mrel` (R196). -/
def execMrel (w : FR) (s : State) : Host.Outcome State Fault Refusal :=
  let v := w.view .fx 0x185
  runReg { sh := shMrel v, cls := matCls [] } v s fun _ g => { g with keep := false, snaps := [] }

/-! ### `mld` and `drain` (R191 to R195) -/

/-- Bytes of an element of XFMT, or 0 where the contract does not admit it (R193). -/
def xfmtBytes (ct : Contract) (f : Nat) (drain : Bool) : Nat :=
  match ct with
  | .mxi => if f = 0x07 then 4 else if f = 0x05 ∨ f = 0x06 then 2 else 0
  | .xf32 => if f = 0x07 then 4 else if drain && (f = 0x05 ∨ f = 0x06) then 2 else 0
  | .ter => if f = 0x04 then 4 else if f = 0x03 then 2 else if f = 0x01 then 1 else 0
  | .lns => if f = 0x04 then 4 else if f = 0x10 then 2 else 0
  | .gen => 0

/-- `.add` is admitted with this XFMT (R193). -/
def addOk (ct : Contract) (f : Nat) : Bool :=
  match ct with
  | .mxi | .xf32 => f == 0x07
  | _ => f == 0x04

/-- Conversion of an image element into the tile (R193). -/
def intoTile (ct : Contract) (f x : Nat) : Nat :=
  match ct with
  | .mxi => if f = 0x07 then x else fltRes ffF32 .rne (decElem f x)
  | .xf32 => xEnc (xOfVal (decFloat ffF32 x))
  | .ter => if f = 0x04 then x else wrapInt 32 (sInt (fmtBits f) x)
  | .lns =>
    if f = 0x04 then x
    else if x = lnsZero 16 then lnsZero 32 else if x = lnsNaR 16 then lnsNaR 32
    else lnsCode 32 (lnsSign 16 x) (lnsLog 16 x * 2 ^ 15)
  | .gen => x

/-- Conversion of a tile element out of the tile, with its flag (R193). -/
def outOfTile (ct : Contract) (f c : Nat) : Nat × W32 :=
  let ff := if f = 0x05 then ffF16 else if f = 0x06 then ffBf16 else ffF32
  match ct with
  | .mxi => (if f = 0x07 then c else fltRes ff .rne (decFloat ffF32 c), 0#32)
  | .xf32 => (fltRes ff .rne (xVal (xDec c)), 0#32)
  | .ter =>
    if f = 0x04 then (c, 0#32)
    else
      let b := fmtBits f
      let x := sInt 32 c
      let y := clampInt (intMin b true) (intMax b true) x
      (wrapInt b y, if x = y then 0#32 else flagTSAT)
  | .lns =>
    if f = 0x04 then (c, 0#32)
    else if c = lnsZero 32 then (lnsZero 16, 0#32) else if c = lnsNaR 32 then (lnsNaR 16, 0#32)
    else
      let r := satCode 16 (lnsSign 32 c) (roundLog .rne 0 false (lnsLog 32 c) 15)
      (r.1, if r.2 then flagLSAT else 0#32)
  | .gen => (c, 0#32)

/-- The new destination element of `drain.add` (R194). -/
def addElem (ct : Contract) (old v : Nat) : Nat :=
  match ct with
  | .ter => wrapInt 32 (clampInt (-(2 ^ 31)) (2 ^ 31 - 1) (sInt 32 old + sInt 32 v))
  | .lns => lnsAdd 32 old v
  | _ => fltRes ffF32 .rne (Val.add false (decFloat ffF32 old) (decFloat ffF32 v))

/-- Offset of element (i, j) of octet o from the base (R192). -/
def footOfs (pitch b o i j : Nat) : Nat := (16 * o + i) * pitch + j * b

/-- The footprint's address base: an LS offset, or a VA for DM 10 (R191, R192). -/
def footBase (w : Iss) : Nat :=
  match natBits w.v.func 13 2 with
  | 1 => ((w.tile (descOf w.ua).base).map Tile.base).getD 0 + 64 * (descOf w.ua).ofs
  | _ => w.ua

/-- First byte offset of the footprint, in row order, that is not below `lim`. -/
def footBeyond (w : Iss) (pitch b lim : Nat) : Option Nat :=
  w.parts.findSome? fun o => (List.range 16).findSome? fun i =>
    beyond (footBase w + footOfs pitch b o i 0) (footBase w + footOfs pitch b o i 16) lim

/-- VA of a row of an octet's tile in a footprint (R192). -/
def rowVa (w : Iss) (b o i : Nat) : Nat := (footBase w + footOfs w.ub b o i 0) % 2 ^ 64

/-- VAs that the footprint of `mld.mem` or `drain.mem` translates, each page once, and that of the retire counter. -/
def footVas (w : Iss) (drain : Bool) : List Nat :=
  let b := xfmtBytes w.t.kd.contract (natBits w.v.func 0 5) drain
  let rows := if natBits w.v.func 13 2 = 2 then w.parts.flatMap fun o => (List.range 16).flatMap fun i => [rowVa w b o i, (rowVa w b o i + 16 * b - 1) % 2 ^ 64]
    else []
  rows ++ w.retireVas

/-- The footprint checks of R192, in the order of its rows; answers the target of each row of each octet. DESIGN CHOICE: ADDR of TILE_RANGE is the
LS offset of the first byte beyond the tile, that of the 4 KiB ALIGNMENT the octet's first VA, that of ATOMIC_UNSUPPORTED the row's VA (log
entry 88). -/
def footCheck (s : State) (w : Iss) (b : Nat) (drain add : Bool) : Except Exc (List (Nat × Nat × List (Target × Nat))) := do
  let dm := natBits w.v.func 13 2
  let pitch := w.ub
  let d := descOf w.ua
  if dm = 1 then
    if w.t.kd.tiles ≤ d.base then .error { code := cTileRange }
    if d.src ≠ 1 ∨ d.layout ≠ 0 ∨ d.scale ≠ 0 ∨ d.fmt ≠ 0 then .error { code := cOperandClass, detail := w.ua }
  if footBase w % b ≠ 0 ∨ pitch % b ≠ 0 then .error { code := cAlignment, addr := footBase w }
  if dm < 2 then
    match footBeyond w pitch b w.t.lsBytes with
    | some x => .error { code := cLsRange, addr := max x w.t.lsBytes }
    | none => pure ()
  if dm = 1 then
    match w.tile d.base with
    | none => .error { code := cTileRange }
    | some t =>
      match footBeyond w pitch b (t.base + 64 * t.size) with
      | some x => .error { code := cTileRange, addr := max x (t.base + 64 * t.size) }
      | none => pure ()
  let rows := w.parts.flatMap fun o => (List.range 16).map fun i => (o, i)
  if dm < 2 then pure (rows.map fun p => (p.1, p.2, [(.ls w.t.id w.core (footBase w + footOfs pitch b p.1 p.2 0), 16 * b)]))
  else
    let ts ← rows.mapM fun p => do
      let t ← s.translateSpan w.c w.own (rowVa w b p.1 p.2) (16 * b) (if drain then .write else .read) false
      pure (p.1, p.2, t)
    if add then
      match w.parts.find? fun o =>
          (footBase w + footOfs pitch b o 0 0) / 4096 ≠ (footBase w + footOfs pitch b o 15 16 - 1) / 4096 with
      | some o => .error { code := cAlignment, addr := footBase w + footOfs pitch b o 0 0 }
      | none => pure ()
      match ts.find? fun r => r.2.2.any fun t => match s.targetRegion t.1 with
          | some .host => true
          | some .peer => true
          | _ => false with
      | some r => .error { code := cAtomicUnsupported, addr := (footBase w + footOfs pitch b r.1 r.2.1 0) % 2 ^ 64 }
      | none => pure ()
    pure ts

/-- Bytes of a row from its targets. -/
def State.readRow (s : State) (ts : List (Target × Nat)) : List Byte := ts.flatMap fun p => s.readTarget p.1 p.2

/-- The lines that a footprint reads are brought into their slices (R226). -/
def State.bringRows (s : State) (rows : List (Nat × Nat × List (Target × Nat))) : State :=
  rows.foldl (fun s r => r.2.2.foldl (fun s t => match t.1 with
    | .phys pa _ cmp => s.bringSpan (some cmp) pa t.2
    | .ls _ _ _ => s) s) s

/-- Writes the bytes of a row that begins at a VA to its targets, one access for each. DESIGN CHOICE: a deferred record of it has the VA of its
own target (log entry 88). -/
def State.writeRow (w : Iss) (va : Nat) : State → List (Target × Nat) → List Byte → State
  | s, [], _ => s
  | s, (t, n) :: ts, bs => State.writeRow w (va + n) (s.writeThread w va t (bs.take n)) ts (bs.drop n)

/-- XFMT checks of `mld` and `drain` (R186 order 2, R193). -/
def xfmtCheck (w : Iss) (drain : Bool) : Except Exc Nat :=
  let f := natBits w.v.func 0 5
  let b := xfmtBytes w.t.kd.contract f drain
  if b = 0 ∨ (natBit w.v.func 15 && !addOk w.t.kd.contract f) then .error { code := cContract, detail := f } else .ok b

/-- The tile of a DM 01 descriptor is named by the word (R97). -/
def footTiles (w : Iss) : List Nat := if natBits w.v.func 13 2 = 1 then [(descOf w.ua).base] else []

/-- Meaning of `mld` (R191 to R194). A poisoned line met by `mld.mem` is a matrix fetch fault (R186), which kills the team; until then the group
issues nothing (R178). DESIGN CHOICE: that it issues nothing at all (log entry 95), and the fault's ADDR, the base VA of the footprint, since R186
gives none (log entry 88). -/
def execMld (w : FR) (s : State) : Host.Outcome State Fault Refusal :=
  let v := w.view .fx 0x183
  runWord { sh := shMld v, cls := matCls [v.dst], tiles := footTiles, vas := fun i => footVas i false } v s fun i s1 => do
    let b ← xfmtCheck i false
    let r ← retireCheck s1 i
    let rows ← footCheck s1 i b false false
    match rows.findSome? fun r => r.2.2.findSome? fun t => s1.lineEvent t.1 t.2 with
    | some code =>
      let s2 := rows.foldl (fun st r => r.2.2.foldl (fun st t => st.markPoison t.1 t.2) st) s1
      pure { s2.updTeam i.id.1 (fun t => { t with mfetch := some (t.mfetch.getD (i.id.2, { code := code, addr := footBase i }, i.g.wordPc)) }) with cur := none }
    | none =>
      let f := natBits v.func 0 5
      let vals := rows.map fun r => (r.1, (List.range 16).map fun j => intoTile i.t.kd.contract f (leNat (((s1.readRow r.2.2).drop (b * j)).take b)))
      pure (((s1.bringRows rows).updTeam i.id.1 fun t => i.parts.foldl (fun t o =>
        t.setAcc i.id.2 o v.dst ((vals.filter fun p => p.1 == o).flatMap Prod.snd)) t).addRetire i.id.1 r)

/-- The elements of a row as a `drain` writes them, with their flags. -/
def drainOuts (w : Iss) (o i : Nat) : List (Nat × W32) :=
  let tile := fullTile w.t.kd.contract (w.t.accTileOf w.id.2 o w.v.dst)
  (List.range 16).map fun j => outOfTile w.t.kd.contract (natBits w.v.func 0 5) (tile.getD (16 * i + j) 0)

/-- The stores of a `drain` without ADD, one for each element (R194). DESIGN CHOICE: the deferred record of one has the element's VA (log entry 88). -/
def drainPuts (w : Iss) (b : Nat) (rows : List (Nat × Nat × List (Target × Nat))) : List Put :=
  rows.flatMap fun r =>
    let tgs := r.2.2.flatMap fun t => (List.range (t.2 / b)).map fun k => t.1.plus (b * k)
    (tgs.zip (drainOuts w r.1 r.2.1)).zipIdx.map fun x =>
      { th := none, va := (rowVa w b r.1 r.2.1 + b * x.2) % 2 ^ 64, tg := x.1.1, bs := leBytes b x.1.2.1 }

/-- The flags that a `drain` sets (R193). -/
def drainFlags (w : Iss) (rows : List (Nat × Nat × List (Target × Nat))) : W32 :=
  rows.foldl (fun f r => (drainOuts w r.1 r.2.1).foldl (fun f e => f ||| e.2) f) 0#32

/-! ### Indivisible tile updates at the slices (R194, R195, R345, R347) -/

/-- A `drain.add` on its way: the state, the octets whose updates are done, with the first element that a hard cap refused, and whether a
soft cap holds the next. -/
structure DrainRun where
  s : State
  done : List AtomDone
  held : Bool
deriving Repr

/-- The chamber die of the cache slice that applies the tile update of a footprint; LS atomic units count for no budget. -/
def State.rowsHub (s : State) (rows : List (Nat × Nat × List (Target × Nat))) : Option Nat :=
  rows.findSome? fun r => r.2.2.findSome? fun t => match t.1 with
    | .phys pa _ _ => if (regionOf s.pkg.hbmsplit pa).hbm then some (homeSlice s.pkg.hbmsplit pa / 96) else none
    | .ls _ _ _ => none

/-- One octet's tile update, whole and in one step: its elements from the n-th on keep what the footprint holds. -/
def drainUpTo (w : Iss) (b n : Nat) (s : State) (rows : List (Nat × Nat × List (Target × Nat))) : State :=
  rows.foldl (fun s r =>
    let old := s.readRow r.2.2
    let bs := ((drainOuts w r.1 r.2.1).mapIdx fun j e =>
      let x := (old.drop (b * j)).take b
      if 16 * r.2.1 + j < n then leBytes b (addElem w.t.kd.contract (leNat x) e.1) else x).flatten
    State.writeRow w (rowVa w b r.1 r.2.1) s r.2.2 bs) s

/-- The tile update of octet o reaches its slice, which charges its 256 elements there: a tenant at its soft cap waits with all of them, since
the update is indivisible, and the elements that would pass the hard cap are refused (R347; log entry 81). -/
def drainOctet (w : Iss) (b : Nat) (rows : List (Nat × Nat × List (Target × Nat))) (r : DrainRun) (o : Nat) : DrainRun :=
  let mine := rows.filter fun x => x.1 == o
  let put := fun (s : State) (n : Nat) =>
    { r with s := drainUpTo w b n s mine
             done := r.done ++ [{ th := o, elem := n, old := [], ev := if n < 256 then some cBudgetViolation else none }] }
  if r.held then r
  else match r.s.rowsHub mine with
    | none => put r.s 256
    | some hub =>
      if r.s.chargeAns w.t.tenant w.t.bcls actAtom hub 1 = .soft then { r with held := true }
      else
        let n := r.s.admits w.t.tenant w.t.bcls actAtom hub 256
        let s1 := if n = 0 then r.s else (r.s.charge w.t.tenant w.t.bcls actAtom hub n).2
        put (if n < 256 then s1.hardCap w.t.tenant w.t.bcls actAtom hub else s1) n

/-- The tile updates of a `drain.add`, octet by octet, from those that are done already. -/
def drainAdds (w : Iss) (b : Nat) (s : State) (rows : List (Nat × Nat × List (Target × Nat))) : DrainRun :=
  (w.parts.filter fun o => !w.g.part.any fun d => d.th == o).foldl (drainOctet w b rows) { s := s, done := w.g.part, held := false }

/-- The refusal that a `drain.add` reports: of its first element that a hard cap refused, with the address of that (R235, R347). -/
def drainRefused (w : Iss) (b : Nat) (done : List AtomDone) : Option Exc :=
  (done.find? fun d => d.ev.isSome).map fun d =>
    { code := cBudgetViolation, addr := (rowVa w b d.th (d.elem / 16) + b * (d.elem % 16)) % 2 ^ 64 }

/-- What a `drain` does to its group: flags, stores that are not acknowledged, those of them in flight, and a refusal. -/
def Group.drained (g : Group) (flags : W32) (stores : Nat) (late : List Late) (x : Option Exc) (pc : W64) : Group :=
  let g1 := { g.flag flags with pendingStores := g.pendingStores + stores, late := g.late ++ late, part := [] }
  match x with
  | some x => g1.defer x pc
  | none => g1

/-- Meaning of `drain` (R191 to R195). A drain with DM 01 leaves its tile DRAINING until TILE_DRAIN_COMPLETE. While a soft cap holds an update of
`drain.add` the group is held at the word, with the octets that are done (R347). -/
def execDrain (w : FR) (s : State) : Host.Outcome State Fault Refusal :=
  let v := w.view .fx 0x184
  let add := natBit v.func 15
  runWord { sh := shMld v, cls := matCls [v.dst], tiles := footTiles, vas := fun i => footVas i true } v s fun i s1 => do
    let b ← xfmtCheck i true
    let rt ← retireCheck s1 i
    let rows ← footCheck s1 i b true add
    let ps := if add then [] else drainPuts i b rows
    let q := if add then drainAdds i b s1 rows else { s := State.writePuts i s1 ps, done := [], held := false }
    if q.held then return (q.s.retry i).updGrp i.id fun g => { g with part := q.done }
    let s2 := q.s.updGrp i.id fun g => g.drained (drainFlags i rows) ps.length (s1.lates i ps) (drainRefused i b q.done) i.g.wordPc
    if natBits v.func 13 2 = 1 then
      let tl := (descOf i.ua).base
      let s3 := s2.updTeam i.id.1 fun t =>
        { t with tiles := t.tiles.modify i.half fun ts => ts.modify tl fun x => { x with st := .draining },
                 jobs := t.jobs ++ [⟨tl, i.half == 1, true, rt, i.id.2, i.g.wordPc, 0, []⟩] }
      pure (s3.updGrp i.id fun g => if g.pos = 0 then g else { g with touched := tl :: g.touched })
    else pure (s2.addRetire i.id.1 rt)

/-! ### `mrd` (R197) -/

/-- The status word (R177): the sticky flags and KEEP. -/
def Group.status (g : Group) : Nat := (g.mstat &&& 0xF#32).toNat + 256 * (if g.keep then 1 else 0)

/-- The value that `mrd` delivers of an element (R197). -/
def mrdElem (ct : Contract) (c : Nat) : Nat := if ct = .xf32 then xToF32 c else c

/-- Meaning of `mrd` (R197). -/
def execMrd (w : FR) (s : State) : Host.Outcome State Fault Refusal :=
  let v := w.view .fr 0x187
  let st := natBits v.efunc 14 2 == 1
  runWord { sh := shMrd v, cls := matCls (if st then [] else [natBits v.efunc 0 3]) } v s fun i s1 =>
    let ct := i.t.kd.contract
    let x := fun th =>
      if st then i.g.status
      else mrdElem ct ((fullTile ct (i.t.accTileOf i.id.2 (th / 8) (natBits v.efunc 0 3))).getD (i.a th % 256) 0)
    .ok (s1.updGrp i.id fun g =>
      let g1 := g.later v false false i.act i.mask x
      if natBit v.efunc 13 then { g1 with mstat := g1.mstat &&& ~~~ 0xF#32 } else g1)

end Sys2Proof.Machine
end

