-- ==== Sys2Proof/Machine/Ldt.lean ====
section
/-! DEFINITION. Transposing loads (R206 to R210). -/

namespace Sys2Proof.Machine

/-- The geometry word (R207). -/
structure Geo where
  padb : Nat
  kext : Nat
  mext : Nat
  pitch : Nat
deriving DecidableEq, Repr

def geoOf (x : Nat) : Geo := { padb := natBits x 24 8, kext := natBits x 21 3, mext := natBits x 14 7, pitch := natBits x 0 14 }

/-- A padding element (R207). -/
def Geo.pad (g : Geo) (o r k : Nat) : Bool :=
  (g.mext != 0 && decide (g.mext ≤ 16 * o + r)) || (decide (1 ≤ g.kext ∧ g.kext ≤ 3) && decide (g.kext ≤ k))

/-- The padding value of b bytes (R207). -/
def Geo.padVal (g : Geo) (hi : Bool) (b : Nat) : Nat :=
  if hi then g.padb * 256 ^ (b - 1) else (List.range b).foldl (fun acc i => acc + g.padb * 256 ^ i) 0

/-- The descriptor is one that `ldt` takes (R208). -/
def ldtDesc (d : Desc) : Bool :=
  (d.src == 1 || d.src == 2) && d.scale == 0 && d.layout < 4 && (decide (1 ≤ d.fmt ∧ d.fmt ≤ 9) || d.fmt == 0x10)

/-- Offset y of an element from the tile base, before the swizzle (R208); signed. -/
def ldtOfs (d : Desc) (g : Geo) (ofs : Int) (b o r k : Nat) : Int :=
  64 * d.ofs + ofs + (if d.layout = 0 ∨ d.layout = 2 then (16 * o + r) * g.pitch + k * b else k * g.pitch + (16 * o + r) * b : Nat)

/-- The swizzle of R202 on a signed offset, taken as a two's-complement number (R208). -/
def ldtSwz (layout : Nat) (y : Int) : Int := sInt 64 (swz layout (wrapInt 64 y))

/-- Elements (r, k) of an octet in ascending order. -/
def rk : List (Nat × Nat) := (List.range 16).flatMap fun r => (List.range 4).map fun k => (r, k)

/-- Step 8 of R209. -/
def ldtCheck (w : Iss) (d : Desc) (g : Geo) (b : Nat) : Except Exc Tile := do
  if !ldtDesc d then .error { code := cOperandClass, detail := w.ua % 2 ^ 32 }
  if w.t.kd.tiles ≤ d.base then .error { code := cTileRange }
  match w.tile d.base with
  | none => .error { code := cTileRange }
  | some t =>
    if d.src = 1 ∧ t.absent then .error { code := cTileState }
    if d.src = 2 ∧ t.rcp = 0#64 then .error { code := cTileState }
    let org : Int := 64 * d.ofs + w.v.imm
    if org % (b : Int) ≠ 0 ∨ g.pitch % b ≠ 0 then .error { code := cAlignment, addr := wrapInt 64 (t.base + org) }
    match w.parts.findSome? fun o => rk.findSome? fun p =>
        let y := ldtSwz d.layout (ldtOfs d g w.v.imm b o p.1 p.2)
        if g.pad o p.1 p.2 then none else if y < 0 ∨ (64 * t.size : Int) < y + b then some y else none with
    | some y => .error { code := cTileRange, addr := wrapInt 64 (t.base + y) }
    | none => pure t

/-- Registers that `ldt` writes: D, and one, two or four per row (R208). -/
def ldtRegs (dst b : Nat) : List Nat := (List.range 2).flatMap fun r => (List.range b).map fun i => dst - 0x10 + 4 * r + i

/-- Element width in bytes of an `ldt` from its descriptor. DESIGN CHOICE: a format that R208 does not admit counts at least one byte in the NAMED
check, which comes before that of the format (log entry 76). -/
def ldtBytes (w : Iss) : Nat := max 1 (fmtBits (descOf (w.ua % 2 ^ 32)).fmt / 8)

/-- Cycles that bank conflicts add to the passes of an `ldt`, over the elements of the octets that take part; `at_` is the LS offset of one, none for
padding (R208, R210, R241). -/
def Iss.ldtConflicts (w : Iss) (b : Nat) (at_ : Nat → Nat → Nat → Option Nat) : Nat :=
  ((List.range (w.g.width / 16)).map fun p =>
    bankExtra b ((w.parts.filter fun o => o / 2 == p).flatMap fun o => rk.filterMap fun x => at_ o x.1 x.2)).sum

/-- Meaning of `ldt` (R206 to R210); PC5 counts its bank conflicts (R241, R342). -/
def execLdt (w : FM) (s : State) : Host.Outcome State Fault Refusal :=
  let v := w.view 0x144
  let cls := fun (i : Iss) => if i.t.kd.named < v.dst - 0x10 + 4 + ldtBytes i then some { code := cOperandClass : Exc } else none
  runWord { sh := shLdt v, cls := cls, touch := fun i => (ldtRegs v.dst (ldtBytes i)).map fun n => (0x10 + n, false),
            tiles := fun i => (descOf (i.ua % 2 ^ 32)).tiles } v s fun i s1 => do
    let d := descOf (i.ua % 2 ^ 32)
    let g := geoOf (i.ua / 2 ^ 32)
    let e := fmtBits d.fmt
    let b := max 1 (e / 8)
    let t ← ldtCheck i d g b
    let at_ := fun o r k => if g.pad o r k then none else some (t.base + (ldtSwz d.layout (ldtOfs d g v.imm b o r k)).toNat)
    let elem := fun o r k => match at_ o r k with
      | none => g.padVal (natBit v.b 6) b
      | some off => leNat (s1.ownLs i off b)
    -- word `p` of row r of a thread: the elements that fall in it
    let word := fun th r p => (List.range 4).foldl (fun acc k =>
      if k * e / 32 = p then acc + elem (th / 8) (2 * (th % 8) + r) k * 2 ^ (k * e % 32) else acc) 0
    pure ((s1.perfAdd i.id 5 (i.ldtConflicts b at_)).updGrp i.id fun gr =>
      let g1 := gr.writeAll 0 false (fun _ => false) fun _ => 0
      if i.mask = 0#64 then g1
      else (ldtRegs v.dst b).foldl (fun gg n =>
        let j := n - (v.dst - 0x10)
        gg.reserve { qi := if j = 0 then some 0 else none, wide := false, named := [n], uni := none, uniN := 0, mask := i.mask,
                     vals := gg.ths.map fun th => if i.act th then BitVec.ofNat 64 (word th (j / 4) (j % 4)) else 0#64,
                     rem := v.look, arrived := false, load := true }) g1)

end Sys2Proof.Machine
end

