-- ==== Sys2Proof/Machine/Ranges.lean ====
section
/-! DEFINITION. The words that change translation (R216 to R222, R230, R231), the completion of a page walk (R220, R221), and the
write-back of a line (R226 to R228). -/

namespace Sys2Proof.Machine

/-! ### Range registers (R216, R217) -/

/-- Reserved bits of the four dwords are zero and ILV is not reserved (R216, R217). -/
def Range.clean (r : Range) : Bool :=
  bitsOf r.d0 56 8 == 0 && bitsOf r.d0 1 15 == 0 && bitsOf r.d1 56 8 == 0 && bitsOf r.d1 0 16 == 0 && bitsOf r.d2 52 12 == 0 &&
  bitsOf r.d2 0 16 == 0 && bitsOf r.d3 16 48 == 0 && bitsOf r.d3 5 7 == 0 && decide (bitsOf r.d3 12 4 < 4)

/-- ILV, HOST, DIELOCAL and COMPRESS agree with the region of the span (R217). -/
def Range.fits (l : Nat) (r : Range) : Bool :=
  let lo := r.pbase * 65536
  let hi := lo + (r.vlimit + 1 - r.vbase) * 65536 - 1
  let ilv := bitsOf r.d3 12 4
  let host := r.d3.getLsbD 4
  let loc := r.d3.getLsbD 3
  regionOf l lo == regionOf l hi &&
  (match regionOf l lo with
   | .pkg => ilv == 0 && !host && !loc
   | .hub0 => ilv == 1 && !host && loc
   | .hub1 => ilv == 2 && !host && loc
   | .host => ilv == 3 && host && !loc && !r.compress
   | .peer => ilv == 3 && !host && !loc && !r.compress
   | .reserved => false)

/-- The VA span overlaps no other valid entry, and no window address (R217). -/
def Range.apart (rs : List Range) (i : Nat) (r : Range) : Bool :=
  decide (r.vlimit < 0xFF00000000) &&
  (rs.zipIdx).all fun p => p.2 == i || !p.1.valid || decide (p.1.vlimit < r.vbase) || decide (r.vlimit < p.1.vbase)

/-- The first staged entry that R217 does not accept. -/
def badRange (l : Nat) (rs : List Range) : Option (Nat × Range) :=
  ((rs.zipIdx).find? fun p => p.1.valid && !(p.1.clean && decide (p.1.vbase ≤ p.1.vlimit) && p.1.fits l && p.1.apart rs p.2)).map
    fun p => (p.2, p.1)

/-- The target context of a translation word (R218). -/
def State.targetCtx (s : State) (a : Nat) : Except Exc Ctx :=
  match if a / 256 = 0 then s.ctx? a else none with
  | some c => if c.st = .free then .error { code := cPermission, detail := 3 } else .ok c
  | none => .error { code := cPermission, detail := 3 }

/-- Meaning of `rmap` (R218, R219). -/
def execRmap (w : FR) (s : State) : Host.Outcome State Fault Refusal :=
  let v := w.view .fr 0x200
  runWord { sh := shRmap v, vas := fun i => [i.ub] } v s fun i s1 => do
    let c ← s1.targetCtx i.ua
    if 31 < i.uc ∨ i.ub % 32 ≠ 0 then .error { code := cAlignment, addr := i.ub }
    let bs ← s1.loadSpan i.c i.own i.ub 32 .read false
    let d := fun k => BitVec.ofNat 64 (leNat ((bs.drop (8 * k)).take 8))
    if s1.frozenCtx c.num then pure (s1.retry i)
    else pure ((s1.updCtx c.num fun c => { c with staged := c.staged.set i.uc ⟨d 0, d 1, d 2, d 3⟩ }).stall i)

/-- The staged set of a context becomes its committed set on every die: step 3 of R219, with the wakes of R330. -/
def State.install (s : State) (c : Ctx) : State :=
  let s2 := (s.updCtx c.num fun c => { c with committed := c.staged }).l1Drop fun l => l.ctx == c.num
  let s3 := { s2 with tlb := s2.tlb.filter fun e => e.ctx != c.num, shapes := s2.shapes.filter fun e => e.ctx != c.num }
  s3.fireRoost fun e => e.ctx == c.num

/-- A commit or a migration begins for the issuing group, which stalls until it is complete (R98, R219, R230). -/
def State.freeze (s : State) (i : Iss) (ctx : Nat) (page : Option (Nat × Nat × Nat)) : State :=
  State.stall { s with freezes := s.freezes ++ [{ ctx := ctx, team := i.id.1, grp := i.id.2, page := page
                                                  awaits := s.unacked fun t => t.ctx == ctx }] } i

/-- The invalidations of a `tlbi` are made, of one context or of every one, and its group stalls until the accesses that were translated before
are performed (R222). -/
def State.invalWait (s : State) (i : Iss) (ctx : Nat) (all : Bool) : State :=
  State.stall { s with freezes := s.freezes ++ [{ ctx := ctx, team := i.id.1, grp := i.id.2, page := none, inval := some all
                                                  awaits := s.unacked fun t => all || t.ctx == ctx }] } i

/-- Meaning of `rcommit` (R217, R219): steps 1 and 2; STALL_OPERATION_COMPLETE makes the others. -/
def execRcommit (w : FS) (s : State) : Host.Outcome State Fault Refusal :=
  let v := w.view 0x201
  runWord { sh := shRcommit v } v s fun i s1 => do
    let c ← s1.targetCtx i.ua
    if s1.frozenCtx c.num then pure (s1.retry i)
    else match badRange s1.pkg.hbmsplit c.staged with
      | some p => .error { code := cTranslation, addr := p.2.vbase * 65536, detail := 0x400 + p.1 }
      | none => pure (s1.freeze i c.num none)

/-! ### `tlbi` (R222) -/

/-- The line was filled through a leaf of a context that covers a VA. -/
def L1Line.through (l : L1Line) (ctx va : Nat) : Bool := l.bits != 0 && l.ctx == ctx && l.va / 2 ^ l.bits == va / 2 ^ l.bits

/-- PA of the page through whose leaf a line was filled. -/
def L1Line.pagePa (l : L1Line) : Nat := 128 * l.line - l.va % 2 ^ l.bits

/-- The pages of HBM that leaves of a VA map or mapped: those cached, those through which a line of an L1 was filled, and the present one. -/
def State.leafPages (s : State) (c : Ctx) (va : Nat) : List (Nat × Nat) :=
  ((s.tlb.filter fun e => e.covers c.num va).map fun e => (e.pa, e.bits)) ++
  ((s.l1.filter fun l => l.through c.num va).map fun l => (l.pagePa, l.bits)) ++
  (match walk s.mem.entries va 3 c.ptroot with
   | .ok (l, _) => [(l.base, l.bits)]
   | .error _ => [])

/-- Invalidates the TLB entries of a VA, the cached table entries on its walk, and the L1 lines of its pages (R222, R230). -/
def State.dropVa (s : State) (c : Ctx) (va : Nat) : State :=
  let pages := s.leafPages c va
  let s1 := s.l1Drop fun l => pages.any fun p => decide (p.1 / 128 ≤ l.line) && decide (l.line < (p.1 + 2 ^ p.2) / 128)
  { s1 with tlb := s1.tlb.filter fun e => !e.covers c.num va
            pwc := s1.pwc.filter fun e => !(e.ctx == c.num && e.key == va / 2 ^ keyBits e.lvl) }

/-- A `tlbi` of a VA, which takes the shape records that the context holds as well (R222, R313); a migration leaves those (R230). -/
def State.tlbiVa (s : State) (c : Ctx) (va : Nat) : State :=
  let s1 := s.dropVa c va
  { s1 with shapes := s1.shapes.filter fun e => e.ctx != c.num }

/-- Meaning of `tlbi` (R218, R222, R231, R313): the invalidations; STALL_OPERATION_COMPLETE ends the wait for accesses. `.all` names no
context. -/
def execTlbi (w : FR) (s : State) : Host.Outcome State Fault Refusal :=
  let v := w.view .fr 0x203
  let mode := natBits v.efunc 0 2
  runWord { sh := shTlbi v } v s fun i s1 => do
    if mode = 2 ∧ (s1.freezes.any fun z => z.inval.isNone) = true then pure (s1.retry i)
    else if mode = 2 then pure ({ s1 with tlb := [], pwc := [], l1 := [], shapes := [] }.invalWait i 0 true)
    else
      let c ← s1.targetCtx i.ua
      if s1.frozenCtx c.num then pure (s1.retry i)
      else if mode = 0 then pure ((s1.tlbiVa c i.ub).invalWait i c.num false)
      else
        let s2 := s1.l1Drop fun l => l.ctx == c.num
        pure ({ s2 with tlb := s2.tlb.filter fun e => e.ctx != c.num, pwc := s2.pwc.filter fun e => e.ctx != c.num, shapes := s2.shapes.filter fun e => e.ctx != c.num }.invalWait i c.num false)

/-! ### `mig` (R230, R231) -/

/-- Copies n bytes of memory from a to b. -/
def Memory.copy (m : Memory) (a b n : Nat) : Memory :=
  (m.filter fun c => decide (a ≤ c.1) && decide (c.1 < a + n)).foldl (fun m c => m.set (c.1 - a + b) c.2)
    (m.filter fun c => !(decide (b ≤ c.1) && decide (c.1 < b + n)))

/-- Moves a PA from one page to another. -/
def movePa (a b n x : Nat) : Nat := if a ≤ x ∧ x < a + n then x - a + b else x

/-- A roost entry whose line moves: a counted monitor follows it, every other entry is woken (R330, R333). -/
def Roost.follow (e : Roost) (shift move : Nat → Nat) (l : Nat) : Roost :=
  if e.kind = .count then { e with line := shift e.line, word := move e.word, slice := homeSlice l (128 * shift e.line) }
  else { e with fired := true }

/-- Steps 3 to 5 of R230 at once, which no other party's access falls between: the lines of the page that are resident are written out, its
bytes, tags and poison are copied, the leaf is switched, and what watched or cached the old page follows. -/
def State.migrate (s : State) (c : Ctx) (va : Nat) (lf : Leaf) (entry newPa : Nat) : State :=
  let n := 2 ^ lf.bits
  let inOld := fun l : Nat => decide (lf.base / 128 ≤ l) && decide (l < (lf.base + n) / 128)
  let inNew := fun l : Nat => decide (newPa / 128 ≤ l) && decide (l < (newPa + n) / 128)
  let shift := fun l : Nat => l + newPa / 128 - lf.base / 128
  let sw := (s.resident.filter fun r => inOld r.line).foldl State.writeBack s
  let bad := ((List.range (n / 128)).map (lf.base / 128 + ·)).filter fun l => sw.badLine l && !sw.poison.contains l
  let s0 := sw.dropVa c va
  let tags := ((s0.tags.filter fun t => inOld t.line).map fun t => { t with line := shift t.line }) ++ s0.tags.filter fun t => !inNew t.line
  let poison := bad ++ ((s0.poison ++ bad).filter inOld).map shift ++ s0.poison.filter fun l => !inNew l
  let ecc := s0.ecc.filter fun l => !inOld l && !inNew l
  let resident := s0.resident.filter fun r => !inNew r.line
  let ready := s0.sch.ready.map (movePa lf.base newPa n)
  let waiters := s0.waiters.map fun w => { w with hdr := movePa lf.base newPa n w.hdr, area := w.area.map fun a => (movePa lf.base newPa n a.1, a.2) }
  let roost := s0.roost.map fun e => if inOld e.line then e.follow shift (movePa lf.base newPa n) s.pkg.hbmsplit else e
  let s1 : State := { s0 with mem := s0.mem.copy lf.base newPa n, tags := tags, poison := poison, ecc := ecc, resident := resident,
                              waiters := waiters, roost := roost }
  let s2 := s1.updSch fun x =>
    { x with ready := ready
             tails := x.tails.map fun t => (movePa lf.base newPa n t.1, t.2)
             launches := x.launches.map fun l => { l with queue := l.queue.map (movePa lf.base newPa n) }
             cands := x.cands.map fun c => if c.lines.any inOld then { c with ready := true } else c }
  let old := s2.mem.rd entry 8
  let s3 := s2.storeNat entry 8 (old - natBits old 8 44 * 256 + newPa % 2 ^ 52)
  let s4 := (s3.logLines cUncorrectable bad).logLines cPoison (bad ++ ((sw.poison ++ bad).filter inOld).map shift)
  bad.foldl (fun s l => s.logFault c.num cUncorrectable 0 (128 * l)) s4

/-- The commit or migration is done, and the context translates again (R219, R230). A migration whose page has no such leaf any more moves
nothing (log entry 66). A `tlbi` has made its invalidations already. -/
def State.thaw (s : State) (z : Freeze) : State :=
  let s1 := { s with freezes := s.freezes.erase z }
  if z.inval.isSome then s1
  else match s1.ctx? z.ctx, z.page with
  | some c, none => (s1.install c).watch
  | some c, some (va, bits, newPa) =>
    match walk s1.mem.entries va 3 c.ptroot with
    | .ok (lf, entry) => if lf.bits = bits then s1.migrate c va lf entry newPa else s1
    | .error _ => s1
  | none, _ => s1

/-- The old and the new page of a migration under way, by PA (R230). -/
def State.migSpans (s : State) (z : Freeze) : List (Nat × Nat) :=
  match s.ctx? z.ctx, z.page with
  | some c, some (va, bits, newPa) =>
    (newPa, 2 ^ bits) :: (match walk s.mem.entries va 3 c.ptroot with
      | .ok (l, _) => [(l.base, 2 ^ l.bits)]
      | .error _ => [])
  | _, _ => []

/-- A migration under way, of any context, moves or fills a page that overlaps n bytes at a PA (R230). -/
def State.migMeets (s : State) (pa n : Nat) : Bool := s.freezes.any fun z => (s.migSpans z).any fun p => spanMeets pa n p.1 p.2

/-- Meaning of `mig` (R218, R230): its checks and step 1; STALL_OPERATION_COMPLETE makes the others. A leaf that leads out of one HBM pool is
none that an access could use, and faults as R215 says. -/
def execMig (w : FR) (s : State) : Host.Outcome State Fault Refusal :=
  let v := w.view .fr 0x204
  runWord { sh := shRmap v } v s fun i s1 => do
    let c ← s1.targetCtx i.ua
    if s1.frozenCtx c.num then return s1.retry i
    if (findRange c.committed i.ub).isSome then .error { code := cPermission, addr := i.ub, detail := 1 }
    if natBits i.ub 56 8 ≠ 0 then .error { code := cTranslation, addr := i.ub, detail := 1 }
    let (lf, _) ← walk s1.mem.entries i.ub 3 c.ptroot
    leafRegion s1.pkg.hbmsplit lf i.ub
    let n := 2 ^ lf.bits
    if s1.migMeets lf.base n || s1.migMeets i.uc n then return s1.retry i
    if i.uc % n ≠ 0 then .error { code := cAlignment, addr := i.uc, detail := 2 }
    let l := s1.pkg.hbmsplit
    let one := (regionOf l i.uc).hbm && regionOf l i.uc == regionOf l (i.uc + n - 1)
    if !one ∨ (i.uc < lf.base + n ∧ lf.base < i.uc + n) then .error { code := cPermission, addr := i.ub, detail := 2 }
    pure (s1.freeze i c.num (some (i.ub, lf.bits, i.uc)))

/-! ### Walks and write-backs -/

/-- Entries of a page-walk cache (R221). -/
def pwcCap : Nat := 2048

/-- A table entry enters the page-walk cache of a chamber die. -/
def State.pwcFill (s : State) (e : PwcEntry) : State :=
  let rest := s.pwc.filter fun x => !(x.die == e.die && x.ctx == e.ctx && x.lvl == e.lvl && x.key == e.key)
  let mine := rest.filter fun x => x.die == e.die
  let kept := if mine.length < pwcCap then rest
    else ((mine[Config.victim s.freeN e.key % mine.length]?).map rest.erase).getD rest
  { s with pwc := e :: kept }

/-- The entries that name a table which a walk reads on its way down from a level to the leaf, by level and value. -/
def walkTables (rd : Entries) (va : Nat) : Nat → Nat → List (Nat × Nat)
  | 0, _ => []
  | lvl + 1, table =>
    match walkStep rd va (lvl + 1) table with
    | .ok (.table next) => (lvl + 1, rd (lvl + 1) (table + 8 * walkIdx va (lvl + 1))) :: walkTables rd va lvl next
    | _ => []

/-- A walk by the walker of a chamber die enters the table entries of levels 3 to 1 that it read (R221). -/
def State.pwcWalk (s : State) (die : Nat) (c : Ctx) (va : Nat) : State :=
  (walkTables (s.entries die c.num va) va 3 c.ptroot).foldl (fun s p =>
    s.pwcFill { die := die, ctx := c.num, lvl := p.1, key := va / 2 ^ keyBits p.1, val := BitVec.ofNat 64 p.2 }) s

/-- Attribute bits of a leaf in the order of its entry (R220). -/
def Leaf.attr (l : Leaf) : Nat :=
  (if l.x then 2 else 0) + (if l.w then 4 else 0) + (if l.compress then 8 else 0) + (if l.packed then 16 else 0) + 1

/-- Meaning of PAGE_WALK_COMPLETE (R220, R221): the walk of a VA by a cluster ends; its leaf enters the cluster's TLB and that of every core
that waits, and every waiting request for the page is served. A walk that faults caches nothing. -/
def execPageWalkComplete (die cluster ctx va : Nat) (s : State) : Host.Outcome State Fault Refusal :=
  let mine := fun (bits : Nat) (m : Miss) => m.die == die && m.cluster == cluster && m.ctx == ctx && m.va / 2 ^ bits == va / 2 ^ bits
  .next (match s.ctx? ctx with
    | none => s
    | some c =>
      match walk (s.entries (chamberOf die) ctx va) va 3 c.ptroot with
      | .error _ => { s with misses := s.misses.filter fun m => !mine 16 m }
      | .ok (l, _) =>
        let served := s.misses.filter (mine l.bits)
        let leaf := fun p : TlbPlace =>
          ({ place := p, ctx := ctx, va := va / 2 ^ l.bits * 2 ^ l.bits, bits := l.bits, pa := l.base, attr := l.attr } : TlbEntry)
        let places := .cluster die cluster :: ((served.flatMap Miss.cores).dedup).map TlbPlace.core
        let s1 := places.foldl (fun s p => s.tlbFill (leaf p)) (s.pwcWalk (chamberOf die) c va)
        { s1 with misses := s1.misses.filter fun m => !mine l.bits m })

/-- Meaning of SLICE_LINE_WRITE_BACK (R226 to R228): the resident line at a VA of a context is written to HBM with the tag that its page
asks for. -/
def execSliceLineWriteBack (ctx va : Nat) (s : State) : Host.Outcome State Fault Refusal :=
  .next (match s.ctx? ctx with
    | none => s
    | some c =>
      match s.translate c none va 1 .read true with
      | .ok (.phys pa _ cmp) => if s.resident.any fun r => r.line == pa / 128 then s.writeBack { line := pa / 128, compress := cmp } else s
      | _ => s)

end Sys2Proof.Machine
end

