-- ==== Sys2Proof/Machine/Tables.lean ====
section
/-! DEFINITION. The tile table, the barrier file and their words (R314 to R328), and `rcinv` (R339). -/

namespace Sys2Proof.Machine

/-! ### Waits of terminal words (R96, R97) -/

/-- The group waits at the boundary after the terminal word; a save would re-enter the clause at this word (R97). -/
def Iss.waiting (w : Iss) (wt : GWait) (g : Group) : Group :=
  { g with wait := wt, wpc := w.g.pc, wword := w.g.pos, prior := some { hage := w.g.hage, h := w.g.threads.map Thread.h, resv := w.g.resv } }

/-- Ends the clause at a terminal word that waits. -/
def State.endWait (s : State) (w : Iss) (wt : GWait) : State := s.endClause w (w.waiting wt)

/-! ### Tiles -/

/-- Code of a tile state (R314). -/
def tileCode : TileSt → Nat
  | .empty => 0
  | .filling => 1
  | .ready => 2
  | .draining => 3

/-- Dword 0 of the image of an entry (R314). -/
def Tile.d0 (t : Tile) : Nat :=
  t.owner.toNat * 2 ^ 48 + tileCode t.st * 2 ^ 46 + (if t.absent then 2 ^ 45 else 0) + t.size % 2 ^ 14 * 2 ^ 24 + t.base % 2 ^ 19

/-- An entry from its image (R314). -/
def Tile.ofImage (d0 : Nat) (d1 : W64) : Tile :=
  { owner := BitVec.ofNat 16 (natBits d0 48 16), st := if natBits d0 46 2 = 0 then .empty else if natBits d0 46 2 = 1 then .filling
      else if natBits d0 46 2 = 2 then .ready else .draining,
    absent := natBit d0 45, size := natBits d0 24 14, base := natBits d0 0 19, rcp := d1 }

def Team.updTile (t : Team) (half i : Nat) (f : Tile → Tile) : Team :=
  { t with tiles := t.tiles.modify half fun ts => ts.modify i f }
def State.updTile (s : State) (team half i : Nat) (f : Tile → Tile) : State := s.updTeam team fun t => t.updTile half i f

/-- A word changed the state of a tile: a later word of the clause may not name it (R98). -/
def State.touchTile (s : State) (w : Iss) (i : Nat) : State :=
  s.updGrp w.id fun g => if g.pos = 0 then g else { g with touched := i :: g.touched }

/-- A fill takes a tile: it is no longer that of a copy which has been filling it (R315). -/
def State.takeTile (s : State) (id : Option Nat) (team half tile : Nat) : State :=
  let reaches := fun (c : Copy) => c.tile == some tile && some c.id != id && (c.dteam == team || c.cores.any fun p => p.2 == team)
  s.updEng fun e => { e with copies := e.copies.map fun c => if reaches c then { c with lost := (team, half) :: c.lost } else c }

/-- First touch of an ABSENT tile by the word at `pc` of a group starts its fill (R315, R317). -/
def State.startFill (s : State) (team half i grp : Nat) (pc : W64) : State :=
  (s.takeTile none team half i).updTeam team fun t =>
    { t.updTile half i (fun x => { x with st := .filling, absent := false }) with
      jobs := t.jobs ++ [{ tile := i, upper := half == 1, drain := false, retire := none, grp := grp, pc := pc, paid := 0 }] }

/-- TILE of a tile word. -/
def tileNo (v : View) : Nat := natBits v.efunc 0 6

/-- The entry that a tile word acts on, with the check against TILES (R320). -/
def tileEnt (w : Iss) : Except Exc Tile :=
  if w.t.kd.tiles ≤ tileNo w.v then .error { code := cTileRange }
  else match (w.t.tiles.getD w.half [])[tileNo w.v]? with
    | some t => .ok t
    | none => .error { code := cTileRange }

/-- The tile is in use by a fill, copy or drain: the fault of R320. -/
def tileBusy (t : Tile) : Except Exc Unit :=
  if t.st = .filling ∨ t.st = .draining then .error { code := cTileState, detail := natBits t.d0 24 24 } else .ok ()

/-- Meaning of `tset` (R319, R320). -/
def execTset (w : FR) (s : State) : Host.Outcome State Fault Refusal :=
  let v := w.view .fr 0x1A8
  runWord { sh := shTset v } v s fun i s1 => do
    let t ← tileEnt i
    let base := natBits i.ua 0 19
    let size := natBits i.ub 0 14
    if base % 64 ≠ 0 then .error { code := cAlignment, addr := base }
    if size = 0 ∨ 8192 < size then .error { code := cTileRange }
    if i.t.lsBytes < base + 64 * size then .error { code := cLsRange, addr := max base i.t.lsBytes }
    tileBusy t
    let owner := if natBit v.efunc 7 then BitVec.ofNat 16 i.uc else t.owner
    pure ((s1.updTile i.id.1 i.half (tileNo v) fun _ =>
      { owner := owner, st := if natBit v.efunc 6 then .ready else .empty, absent := false, size := size, base := base, rcp := 0#64 }).touchTile
        i (tileNo v))

/-- Meaning of `tbind` (R319, R320). -/
def execTbind (w : FR) (s : State) : Host.Outcome State Fault Refusal :=
  let v := w.view .fr 0x1A7
  runWord { sh := shTbind v } v s fun i s1 => do
    let t ← tileEnt i
    tileBusy t
    if t.size = 0 then .error { code := cTileState, detail := natBits t.d0 24 24 }
    if i.ua % 64 ≠ 0 then .error { code := cAlignment, addr := i.ua }
    pure ((s1.updTile i.id.1 i.half (tileNo v) fun t =>
      { t with rcp := BitVec.ofNat 64 i.ua, st := .empty, absent := true }).touchTile i (tileNo v))

/-- Meaning of `tget` (R319). -/
def execTget (w : FR) (s : State) : Host.Outcome State Fault Refusal :=
  let v := w.view .fr 0x1A9
  runWord { sh := shTget v } v s fun i s1 => do
    let t ← tileEnt i
    pure (s1.updGrp i.id fun g => g.result v true i.act fun _ => if natBit v.func 6 then t.rcp.toNat else t.d0)

/-- Meaning of `trel` (R319, R320). -/
def execTrel (w : FS) (s : State) : Host.Outcome State Fault Refusal :=
  let v := w.view 0x1AB
  runWord { sh := shTrel v } v s fun i s1 => do
    let t ← tileEnt i
    tileBusy t
    let unb := natBit v.func 6
    pure ((s1.updTile i.id.1 i.half (tileNo v) fun t =>
      { t with st := .empty, rcp := if unb then 0#64 else t.rcp, absent := if unb then false else t.absent || t.rcp != 0#64 }).touchTile
        i (tileNo v))

/-- Meaning of `twait` (R319): the wait is made at the boundary that follows. An ABSENT tile starts its fill, and the word stalls while a commit of
ranges or a migration stalls the fill's translations (R219, R231). -/
def execTwait (w : FS) (s : State) : Host.Outcome State Fault Refusal :=
  let v := w.view 0x1AA
  runWord { sh := shTwait v } v s fun i s1 => do
    let t ← tileEnt i
    let cond := natBits v.func 6 2
    let fills := cond = 0 ∧ t.absent = true
    let s2 := if fills then s1.startFill i.id.1 i.half (tileNo v) i.id.2 i.g.wordPc else s1
    pure (if fills ∧ s1.frozenCtx i.c.num = true then s1.retry i else s2.endWait i (.tile (tileNo v) cond (BitVec.ofNat 16 i.ua)))

/-! ### Barriers -/

/-- Reset values of a barrier of a team of G groups (R321). -/
def Barrier.reset (groups : Nat) : Barrier :=
  { txb := 0#32, memb := BitVec.ofNat 16 (2 ^ groups - 1), arrm := 0#16, ph := false, err := false, autodrop := true, tmo := 0#16, clock := none }

/-- Dwords of the image of a barrier (R321). -/
def Barrier.d0 (b : Barrier) : Nat := b.txb.toNat * 2 ^ 32 + b.memb.toNat * 2 ^ 16 + b.arrm.toNat
def Barrier.d1 (b : Barrier) : Nat :=
  (if b.ph then 2 ^ 19 else 0) + (if b.err then 2 ^ 18 else 0) + (if b.autodrop then 2 ^ 17 else 0) + b.tmo.toNat

/-- A barrier from its image; its clock runs again if ARRM or TXB is nonzero (R321, R327). -/
def Barrier.ofImage (d0 d1 : Nat) : Barrier :=
  { txb := BitVec.ofNat 32 (d0 / 2 ^ 32), memb := BitVec.ofNat 16 (d0 / 2 ^ 16), arrm := BitVec.ofNat 16 d0, ph := natBit d1 19,
    err := natBit d1 18, autodrop := natBit d1 17, tmo := BitVec.ofNat 16 d1,
    clock := if natBits d0 0 16 = 0 ∧ natBits d0 32 32 = 0 then none else some 0 }

/-- The test of R322. -/
def Barrier.test (b : Barrier) : Barrier :=
  if b.arrm = b.memb ∧ b.txb = 0#32 then { b with arrm := 0#16, ph := !b.ph, clock := none } else b

/-- The lantern clock starts at the first event of a phase (R327). -/
def Barrier.start (b : Barrier) : Barrier := { b with clock := some (b.clock.getD 0) }

/-- Bit of a group. -/
def grpBit (g : Nat) : W16 := BitVec.ofNat 16 (2 ^ g)

/-- Events of R322. -/
def Barrier.arrive (b : Barrier) (g : Nat) : Barrier := ({ b with arrm := b.arrm ||| grpBit g }.start).test
def Barrier.expect (b : Barrier) (x : W32) : Barrier := ({ b with txb := b.txb + x }.start).test
def Barrier.drop (b : Barrier) (g : Nat) : Barrier :=
  { b with memb := b.memb &&& ~~~ grpBit g, arrm := b.arrm &&& ~~~ grpBit g }.test
def Barrier.abort (b : Barrier) : Barrier := { b with txb := 0#32, err := true, arrm := 0#16, ph := !b.ph, clock := none }

/-- A delivery of n bytes takes TXB below its range (R326). -/
def Barrier.under (b : Barrier) (n : Nat) : Bool := decide (b.txb.toInt - n < -(2 ^ 31))
/-- Engine delivery of n bytes (R322, R326). -/
def Barrier.deliver (b : Barrier) (n : Nat) : Barrier :=
  if b.under n then { b with txb := BitVec.ofNat 32 (2 ^ 31), err := true }.start
  else ({ b with txb := b.txb - BitVec.ofNat 32 n }.start).test

def Team.updBar (t : Team) (i : Nat) (f : Barrier → Barrier) : Team := { t with barriers := t.barriers.modify i f }
def State.updBar (s : State) (team i : Nat) (f : Barrier → Barrier) : State := s.updTeam team fun t => t.updBar i f

/-- A delivery to barrier `i` of a team; an underflow is logged with the element's address (R326). -/
def State.deliverBytes (s : State) (team i n addr : Nat) : State :=
  match s.team? team with
  | none => s
  | some t =>
    match t.barriers[i]? with
    | none => s
    | some b =>
      let s1 := s.updBar team i fun b => b.deliver n
      if b.under n then s1.logFault t.ctx cBarrierOverflow (5 + i * 256) addr else s1

/-- The exit of a group drops it from every AUTODROP barrier (R322, R325). -/
def Team.autoDrop (t : Team) (g : Nat) : Team :=
  { t with barriers := t.barriers.map fun b => if b.autodrop then b.drop g else b }

/-- BAR of a barrier word. -/
def barNo (v : View) : Nat := natBits v.efunc 0 6

/-- The barrier that a word acts on, with the check against BARRIERS (R326). -/
def barEnt (w : Iss) : Except Exc Barrier :=
  match if w.t.kd.barriers ≤ barNo w.v then none else w.t.barriers[barNo w.v]? with
  | some b => .ok b
  | none => .error { code := cOperandClass, detail := barNo w.v }

/-- Meaning of `bini` (R325, R326). -/
def execBini (w : FR) (s : State) : Host.Outcome State Fault Refusal :=
  let v := w.view .fr 0x1B0
  runWord { sh := shBini v } v s fun i s1 => do
    let b ← barEnt i
    if b.arrm ≠ 0#16 ∨ b.txb ≠ 0#32 then .error { code := cBarrierOverflow, detail := 3 }
    let all := 2 ^ i.t.kd.groups - 1
    let m := (if natBits i.ua 0 16 = 0 then all else natBits i.ua 0 16) &&& all
    let ad := natBit v.efunc 6
    pure (s1.updBar i.id.1 (barNo v) fun _ =>
      { txb := 0#32, memb := BitVec.ofNat 16 (if ad then m &&& i.t.glive else m), arrm := 0#16, ph := false, err := false, autodrop := ad,
        tmo := BitVec.ofNat 16 i.ub, clock := none })

/-- Meaning of `barv` (R325, R326). -/
def execBarv (w : FS) (s : State) : Host.Outcome State Fault Refusal :=
  let v := w.view 0x1B1
  runWord { sh := shBar v } v s fun i s1 => do
    let b ← barEnt i
    if !b.memb.getLsbD i.g.idx then .error { code := cBarrierOverflow, detail := 1 }
    if b.arrm.getLsbD i.g.idx then .error { code := cBarrierOverflow, detail := 2 }
    pure (s1.updBar i.id.1 (barNo v) fun b => b.arrive i.g.idx)

/-- Meaning of `barw` (R325): the wait is made at the boundary that follows. -/
def execBarw (w : FS) (s : State) : Host.Outcome State Fault Refusal :=
  let v := w.view 0x1B2
  runWord { sh := shBar v } v s fun i s1 => do
    let _ ← barEnt i
    pure (s1.endWait i (.barrier (barNo v)))

/-- Meaning of `bexp` (R325, R326). -/
def execBexp (w : FR) (s : State) : Host.Outcome State Fault Refusal :=
  let v := w.view .fr 0x1B3
  runWord { sh := shBexp v } v s fun i s1 => do
    let b ← barEnt i
    let x := b.txb.toInt + sInt 32 i.ua
    if x < -(2 ^ 31) ∨ 2 ^ 31 ≤ x then .error { code := cBarrierOverflow, detail := 4 }
    pure (s1.updBar i.id.1 (barNo v) fun b => b.expect (BitVec.ofNat 32 i.ua))

/-- Meaning of `bdrop` (R325). -/
def execBdrop (w : FS) (s : State) : Host.Outcome State Fault Refusal :=
  let v := w.view 0x1B4
  runWord { sh := shBar v } v s fun i s1 => do
    let _ ← barEnt i
    pure (s1.updBar i.id.1 (barNo v) fun b => b.drop i.g.idx)

/-- Meaning of `bget` (R325, R326). -/
def execBget (w : FR) (s : State) : Host.Outcome State Fault Refusal :=
  let v := w.view .fr 0x1B5
  runWord { sh := shBget v } v s fun i s1 => do
    let b ← barEnt i
    let s2 := s1.updGrp i.id fun g => g.result v true i.act fun _ => if natBit v.func 7 then b.d1 else b.d0
    pure (if natBit v.func 6 then s2.updBar i.id.1 (barNo v) fun b => { b with err := false } else s2)

/-! ### The shape-record cache (R339) -/

/-- Meaning of `rcinv` (R339). -/
def execRcinv (w : FR) (s : State) : Host.Outcome State Fault Refusal :=
  let v := w.view .fr 0x1E7
  runWord { sh := shRcinv v } v s fun i s1 =>
    .ok { s1 with shapes := s1.shapes.filter fun e =>
      !(i.t.cores.contains e.core && e.ctx == i.c.num && (natBit v.efunc 0 || e.va == i.ua)) }

end Sys2Proof.Machine
end

