-- ==== Sys2Proof/Machine/Monitors.lean ====
section
/-! DEFINITION. The monitor words (R331 to R334), and the wake of roost entries (R330, R332, R333). -/

namespace Sys2Proof.Machine

/-- The place of a watched VA or counter must be HBM (R334). -/
def State.watchPa (s : State) (va : Nat) : Target → Except Exc Nat
  | .phys pa _ _ => if (regionOf s.pkg.hbmsplit pa).hbm then .ok pa else .error { code := cAtomicUnsupported, addr := va, detail := 1 }
  | .ls _ _ _ => .error { code := cAtomicUnsupported, addr := va, detail := 1 }

/-- Meaning of `marm` on a watched VA (R332, R334). -/
def execMarm (w : FR) (s : State) : Host.Outcome State Fault Refusal :=
  let v := w.view .fr 0x14E
  runWord { sh := shMarm v, vas := fun i => [i.ua] } v s fun i s1 => do
    let t ← s1.translate i.c i.own i.ua 1 .read false
    let pa ← s1.watchPa i.ua t
    let s2 := (s1.disarm i.id.1 i.id.2).arm .wait i.t i.g pa
    pure (s2.updGrp i.id fun g => { g with monitor := some { va := BitVec.ofNat 64 i.ua, pa := pa, fired := false } })

/-- Meaning of `marm` with a counter (R333, R334): with no entry free in the slice, or 48 counted ones there, the word stalls; else it takes an
entry, which frees at once where the watched word has its value by then. -/
def execMarmCounted (w : FR) (s : State) : Host.Outcome State Fault Refusal :=
  let v := w.view .fr 0x14E
  runWord { sh := shMarm v, vas := fun i => [i.ua, i.ub] } v s fun i s1 => do
    if i.ua % 8 ≠ 0 then .error { code := cAlignment, addr := i.ua }
    if i.ub % 4 ≠ 0 then .error { code := cAlignment, addr := i.ub }
    let t ← s1.translate i.c i.own i.ua 8 .read false
    let tc ← s1.translate i.c i.own i.ub 4 .atomic false
    let pa ← s1.watchPa i.ua t
    let pc ← s1.watchPa i.ub tc
    let slice := s1.sliceOf (pa / 128)
    if 64 ≤ s1.roostUsed slice ∨ 48 ≤ s1.roostCounts slice then pure (s1.retry i)
    else if s1.mem.rd pa 8 = i.uc then pure (s1.decrementPa i.c.num i.ub pc 1)
    else
      let e : Roost := { slice := slice, kind := .count, fired := false, line := pa / 128, ctx := i.c.num, core := i.core, gslot := i.g.slot,
                         jcva := BitVec.ofNat 64 i.ub, expv := BitVec.ofNat 64 i.uc, word := pa, team := i.id.1, grp := i.id.2 }
      pure { s1 with roost := s1.roost ++ [e] }

/-- Meaning of `mwait` (R332): the wait is made at the boundary that follows. -/
def execMwait (w : FR) (s : State) : Host.Outcome State Fault Refusal :=
  let v := w.view .fr 0x14F
  runWord { sh := shMwait v } v s fun i s1 => .ok (s1.endWait i .monitor)

/-- TY of `wuc` is 64 bits wide; TY is signed (R331). -/
def wucBytes (ty : Nat) : Nat := if 2 ≤ ty then 8 else 4

/-- The comparison of `wuc` (R331, R332). -/
def wucHolds (cc ty x y : Nat) : Bool :=
  let n := 8 * wucBytes ty
  let lt := if ty % 2 = 1 then decide (sInt n x < sInt n y) else decide (x < y)
  match cc with
  | 0 => x == y
  | 1 => x != y
  | 2 => lt
  | 3 => lt || x == y
  | 4 => !lt && x != y
  | _ => !lt

/-- Meaning of `wuc` (R332, R334): its reads are made at the boundary that follows. -/
def execWuc (w : FR) (s : State) : Host.Outcome State Fault Refusal :=
  let v := w.view .fr 0x150
  let f := v.efunc
  let ty := natBits f 11 2
  runWord { sh := shWuc v, touch := fun _ => if 0x30 ≤ v.dst then [(v.dst, natBit f 12)] else [], vas := fun i => [i.ua] } v s fun i s1 => do
    if i.ua % wucBytes ty ≠ 0 then .error { code := cAlignment, addr := i.ua }
    let t ← s1.translate i.c i.own i.ua (wucBytes ty) .read false
    let _ ← s1.watchPa i.ua t
    let s2 := (s1.disarm i.id.1 i.id.2).updGrp i.id fun g => { g with monitor := none }
    pure (s2.endWait i (.wuc i.ua (i.ub % 2 ^ (8 * wucBytes ty)) (natBits f 13 3) ty (natBits f 6 3) (natBit f 10) v.dst))

/-- One turn of the loop of `wuc` (R332): arm, read, and end the wait if the condition holds. A fault that the read meets by now is taken
at the group's boundary. The read stalls at a freeze, and waits for the walk that it needs (R219, R221, R231). -/
def State.wucTurn (s : State) (id : Nat × Nat) : State :=
  match s.team? id.1, s.grp? id with
  | some t, some g =>
    match g.wait, s.ctx? t.ctx with
    | .wuc va y cc ty sc acq dst, some c =>
      let n := wucBytes ty
      let pc := g.wpc + BitVec.ofNat 64 (8 * g.wword)
      let fail := fun (x : Exc) => (s.disarm id.1 id.2).updGrp id fun g => { g.defer x pc with wait := .none }
      let pages := s.walkPages c (t.coreOf id.2) [va]
      if s.frozenVa c.num va then s
      else match (s.translate c (some (t, t.coreOf id.2)) va n .read false).bind fun tg => (s.watchPa va tg).map fun pa => (tg, pa) with
      | .error x =>
        match s.leafWalks c (t.coreOf id.2) x pages with
        | [] => (fail x).countWalks id x pages
        | leaves => s.startWalks c (t.coreOf id.2) id leaves
      | .ok (tg, pa) =>
        if pages ≠ [] then s.startWalks c (t.coreOf id.2) id pages
        else match s.lineEvent tg n with
        | some code => fail { code := code, addr := va }
        | none =>
          let x := s.mem.rd pa n
          let s1 := ((s.coreFill c (t.coreOf id.2) id va).disarm id.1 id.2).arm .cmp t g pa
          let s2 := if acq then s1.acquire t (t.coreOf id.2) sc else s1.l1Touch t.kd.fusel1 (t.coreOf id.2) pa n
          if wucHolds cc ty x y then
            (s2.disarm id.1 id.2).updGrp id fun g =>
              { (if dst = 8 then g else if n = 8 then (g.setS (dst - 0x30) (lo32 x)).setS (dst - 0x2F) (hi32 x) else g.setS (dst - 0x30) (lo32 x)) with
                wait := .none }
          else s2
    | _, _ => s
  | _, _ => s

/-- An entry of the group is still armed and has not fired. -/
def State.armed (s : State) (id : Nat × Nat) : Bool :=
  (s.roost.any fun e => e.team == id.1 && e.grp == id.2 && e.kind != .count && !e.fired) ||
  s.ovf.any fun o => o.team == id.1 && o.grp == id.2 && !o.fired

/-- Meaning of ROOST_WAKE (R330, R332, R333): the fired entries of a slice are freed; monitors have fired, those in
the overflow set where they wait there, and counted monitors decrement their counters, unless a freeze stalls that. A group in `wuc` or `qdeq` reads again when it is next released. -/
def execRoostWake (slice : Nat) (s : State) : Host.Outcome State Fault Refusal :=
  let mine := fun e : Roost => e.slice == slice && e.fired && !(e.kind == .count && s.frozenCtx e.ctx)
  let due := s.roost.filter mine
  let spill := s.ovf.filter fun o => o.slice == slice && o.fired
  let s1 := { s with roost := s.roost.filter fun e => !mine e, ovf := s.ovf.filter fun o => !(o.slice == slice && o.fired) }
  let s2 := (due.filter fun e => e.kind == .wait).foldl (fun s e => s.updGrp (e.team, e.grp) Group.wake) s1
  let s3 := (spill.filter fun o => s.ovfMonitor o.slice o.team o.grp).foldl (fun s o => s.updGrp (o.team, o.grp) Group.wake) s2
  .next ((due.filter fun e => e.kind == .count).foldl (fun s e => s.decrement e.ctx e.jcva.toNat) s3)

end Sys2Proof.Machine
end

