-- ==== Sys2Proof/Machine/Special.lean ====
section
/-! DEFINITION. Special and context registers (R155 to R158, R366), trace words (R364), counters (R343, R344), and budget rows
(R346, R348, R349). -/

namespace Sys2Proof.Machine

/-! ### Context system registers (R366) -/

/-- STATE code of CSTAT. -/
def ctxCode : CtxSt → Nat
  | .free => 0
  | .running => 1
  | .saved => 2
  | .terminated => 3

/-- Replaces the low or high 32 bits of a number. -/
def setLo (x v : Nat) : Nat := x / 2 ^ 32 * 2 ^ 32 + v % 2 ^ 32
def setHi (x v : Nat) : Nat := v * 2 ^ 32 + x % 2 ^ 32

/-- Value of a context system register but CSEL (R366). -/
def Ctx.readReg (c : Ctx) (sel : Nat) : Nat :=
  match sel with
  | 0x101 => c.tenant.toNat * 65536 + (if c.priv then 256 else 0) + ctxCode c.st
  | 0x103 => c.dbg.toNat
  | 0x104 => c.ptroot % 2 ^ 32
  | 0x105 => c.ptroot / 2 ^ 32
  | 0x106 => c.savebase % 2 ^ 32
  | 0x107 => c.savebase / 2 ^ 32
  | 0x108 => c.savesz
  | 0x109 => c.fqhdr % 2 ^ 32
  | 0x10A => c.fqhdr / 2 ^ 32
  | 0x10B => c.svcq.toNat % 2 ^ 32
  | 0x10C => c.svcq.toNat / 2 ^ 32
  | 0x10D => c.rstlim
  | _ => 0

/-- Write of a context system register but CSEL and CTXCMD; bits that the map gives as zero are not held (R366). -/
def Ctx.writeReg (c : Ctx) (sel v : Nat) : Ctx :=
  match sel with
  | 0x103 => { c with dbg := BitVec.ofNat 32 (v % 2) }
  | 0x104 => { c with ptroot := setLo c.ptroot v }
  | 0x105 => { c with ptroot := setHi c.ptroot (v % 2 ^ 20) }
  | 0x106 => { c with savebase := setLo c.savebase (v / 4096 * 4096) }
  | 0x107 => { c with savebase := setHi c.savebase (v % 2 ^ 20) }
  | 0x108 => { c with savesz := v }
  | 0x109 => { c with fqhdr := setLo c.fqhdr (v / 128 * 128) }
  | 0x10A => { c with fqhdr := setHi c.fqhdr (v % 2 ^ 20) }
  | 0x10B => { c with svcq := BitVec.ofNat 64 (setLo c.svcq.toNat v) }
  | 0x10C => { c with svcq := BitVec.ofNat 64 (setHi c.svcq.toNat v) }
  | 0x10D => { c with rstlim := v % 256 }
  | _ => c

/-- Registers that may not be written while STATE is RUNNING: PTROOT, SAVEBASE, SAVESZ, FQHDR (R366). -/
def lockedReg (sel : Nat) : Bool := decide (0x104 ≤ sel) && decide (sel ≤ 0x10A)

/-- The event that a CTXCMD value stands for (R366), if its OP and ARG keep their form and STATE allows it. -/
def ctxCmd (c : Ctx) (v : Nat) : Option Instr :=
  let op := natBits v 28 4
  let arg := natBits v 0 28
  let run := c.st == .running
  if op = 1 ∧ arg = 0 ∧ run then some (.ctxcmdSave c.num)
  else if op = 2 ∧ arg = 0 ∧ (run || c.st == .saved) then some (.ctxcmdTerminate c.num)
  else if natBits arg 5 7 ≠ 0 ∨ !run then none
  else if op = 3 then some (.ctxcmdEngresume c.num (natBits arg 24 4) (natBits arg 12 12) (natBits arg 0 5))
  else if op = 4 then some (.ctxcmdEngcancel c.num (natBits arg 24 4) (natBits arg 12 12) (natBits arg 0 5))
  else none

/-! ### `rdsr` and `wrsr` -/

/-- The context that CSEL names, unless it is FREE (R366). -/
def State.selected (s : State) (g : Group) : Option Ctx := (s.ctx? g.csel).filter fun c => c.st != .free

/-- Value of a special register in thread th (R155, R366). -/
def selValue (s : State) (i : Iss) (sel th : Nat) : Nat :=
  match sel with
  | 0x0 => th % 16
  | 0x1 => i.g.idx
  | 0x2 => i.t.team.1
  | 0x3 => i.t.team.2.1
  | 0x4 => i.t.team.2.2
  | 0x5 => i.t.nteam.1
  | 0x6 => i.t.nteam.2.1
  | 0x7 => i.t.nteam.2.2
  | 0x8 => i.g.idx * i.g.width + th
  | 0x9 => s.coreIndex i.core
  | 0xA => s.ncores
  | 0xB => coreDie i.core
  | 0xC => clsCode i.t.cls
  | 0xD => contractCode i.t.kd.contract
  | 0xE => i.t.phase.toNat
  | 0xF => i.c.seed.toNat
  | 0x10 => (s.clks.getD (coreDie i.core) 0#64).toNat
  | 0x11 => s.dieTime (coreDie i.core) % 2 ^ 56
  | 0x12 => i.c.tenant.toNat * 65536 + i.c.num
  | 0x100 => i.g.csel
  | _ => ((s.selected i.g).map fun c => c.readReg sel).getD 0

/-- Meaning of `rdsr` (R156, R366): `$clk` and `$ptp` are long-latency. -/
def execRdsr (w : FS) (s : State) : Host.Outcome State Fault Refusal :=
  let v := w.view 0x0C0
  let sel := v.func
  let wide := selWidth sel == 64
  runWord { sh := shRdsr v } v s fun i s1 => do
    if 0x100 ≤ sel ∧ !i.c.priv then .error { code := cPermission, detail := 6 }
    let x := selValue s1 i sel
    pure (s1.updGrp i.id fun g => if wide then g.later v true false i.act i.mask x else g.result v false i.act x)

/-- Meaning of `wrsr` (R157, R366). A command to CTXCMD is accepted here, and its effect follows. -/
def execWrsr (w : FS) (s : State) : Host.Outcome State Fault Refusal :=
  let v := w.view 0x0C1
  let sel := v.func
  runWord { sh := shWrsr v } v s fun i s1 => do
    if sel = 0x00F then pure ((s1.updCtx i.c.num fun c => { c with seed := BitVec.ofNat 32 i.ua }).stall i)
    else if sel = 0x100 then pure (s1.updGrp i.id fun g => { g with csel := i.ua % 256 })
    else
      match s1.selected i.g with
      | none => .error { code := cPermission, detail := 3 }
      | some c =>
        if sel = 0x102 then
          match ctxCmd c i.ua with
          | some e => pure { s1 with cmds := s1.cmds ++ [e] }
          | none => .error { code := cPermission, detail := 10 }
        else
          if lockedReg sel && c.st == .running then .error { code := cPermission, detail := 9 }
          pure (s1.updCtx c.num fun c => c.writeReg sel i.ua)

/-- Meaning of CONTEXT_REGISTER_WRITE (R366): Phimus writes a register of a context, under the same condition on STATE. -/
def execContextRegisterWrite (ctx sel v : Nat) (s : State) : Host.Outcome State Fault Refusal :=
  .next (match s.ctx? ctx with
    | none => s
    | some c => if c.st = .free ∨ (lockedReg sel && c.st == .running) = true then s else s.updCtx ctx fun c => c.writeReg sel (v % 2 ^ 32))

/-! ### Trace words (R360 to R364) -/

/-- A program event of a core (R350, R364), which uses a slot that its clause has reserved (R360). With a reservation that did not fit, the
event is dropped (R361). PC11 counts the events that are accepted (R342). -/
def State.emitTrc (s : State) (i : Iss) (code payload : Nat) : State :=
  let die := coreDie i.core
  let unit := i.core % 32
  if !s.kept i.c.num code then s
  else if i.g.traceDrop then s.dropEv die unit i.c.num
  else
    let s1 := if s.takesEv .core (some i.t.row) die unit i.c.num then s.perfAdd i.id 11 1 else s
    (s1.emitBuf .core (some i.t.row) die unit code i.c.num (BitVec.ofNat 32 payload)).updGrp i.id fun g => { g with tslots := g.tslots - 1 }

/-- Meaning of `trc` (R364). -/
def execTrc (w : FR) (s : State) : Host.Outcome State Fault Refusal :=
  let v := w.view .fr 0x1F0
  runWord { sh := shTrc v } v s fun i s1 => .ok (s1.emitTrc i (natBits v.efunc 0 8) i.ua)

/-- Meaning of `trcm` (R364): one event per active thread, in ascending order. -/
def execTrcm (w : FR) (s : State) : Host.Outcome State Fault Refusal :=
  let v := w.view .fr 0x1F1
  runWord { sh := shTrc v } v s fun i s1 =>
    .ok ((i.g.actives v).foldl (fun s th => s.emitTrc i (natBits v.efunc 0 8) (i.a th)) s1)

/-! ### `cnt` (R342 to R344) -/

/-- The counter that SEL names (R344). -/
def cntValue (s : State) (i : Iss) (sel : Nat) : Nat :=
  let k := natBits sel 0 8
  let die := coreDie i.core
  let pick := fun (p : Nat × Nat) (hi : Bool) => if hi then p.2 else p.1
  let slot := i.t.counts.getD i.half SlotCount.zero
  match natBits sel 12 4 with
  | 0 => (slot.perf.getD k 0#64).toNat
  | 1 => if k = 0 then slot.satc.toNat else slot.narc.toNat
  | 2 => ((s.row? i.t.tenant i.t.bcls).map fun r => r.seen (chamberOf die) k).getD 0
  | 3 => if k = 0 then i.g.seq.toNat else i.g.outb.length
  | 4 => ((s.echo.drops.find? fun d => d.die == die && d.unit == i.core % 32 && d.tag == i.c.num).map fun d => d.count.toNat).getD 0
  | 8 => pick (s.countOf die 0x200) (k == 1)
  | 9 => pick (s.countOf die (0x100 + k % 16)) (natBit k 4)
  | 10 => pick (s.countOf (chamberOf die) (0x100 + k % 16)) (natBit k 4)
  | _ => pick (s.countOf (chamberOf die) 0x200) (k == 1)

/-- Meaning of `cnt` (R343, R344): the group stalls until the value is read. -/
def execCnt (w : FS) (s : State) : Host.Outcome State Fault Refusal :=
  let v := w.view 0x1F2
  let bank := natBits v.func 12 4
  runWord { sh := shCnt v } v s fun i s1 => do
    if 8 ≤ bank ∧ !i.c.priv then .error { code := cPermission, detail := bank }
    let x := cntValue s1 i v.func % 2 ^ 64
    pure ((s1.updGrp i.id fun g => g.result v true i.act fun _ => x).stall i)

/-! ### Budget rows (R345 to R349) -/

/-- One write of `bdg` on a row: FIELD, activity, value (R348). -/
def Row.put (r : Row) (p : Nat × Nat × Nat) : Row :=
  match p.1 with
  | 0 => { r with soft := r.soft.set p.2.1 p.2.2 }
  | 1 => { r with hard := r.hard.set p.2.1 p.2.2 }
  | 2 => { r with wt := p.2.2 }
  | _ => r

/-- The row as its pending writes will leave it, in the order in which they were made, none where the last thing they do is to release it: a
write after a release allocates the row anew (R346, R348). -/
def Row.after (r : Row) : Option Row :=
  let blank := { Row.fresh r.tenant r.bcls with elapsed := r.elapsed }
  r.pend.foldl (fun o p => if p.1 == 3 then none else some ((o.getD blank).put p)) (some r)

/-- The same with every cap 0 where the row is released. -/
def Row.future (r : Row) : Row := r.after.getD (Row.fresh r.tenant r.bcls)

/-- Ticks that count of a tenant's period (R346). -/
def State.elapsed (s : State) (tenant : Nat) : Nat := ((s.sch.rows.find? fun r => r.tenant == tenant).map Row.elapsed).getD 0

/-- Meaning of `bdg` (R348, R349): the write takes effect at the start of the tenant's next period (R346). -/
def execBdg (w : FR) (s : State) : Host.Outcome State Fault Refusal :=
  let v := w.view .fr 0x206
  let act := natBits v.efunc 4 3
  let field := natBits v.efunc 0 2
  runWord { sh := shBdg v } v s fun i s1 => do
    let bad : Exc := { code := cPermission, detail := 5 }
    let tenant := natBits i.ua 0 16
    let bcls := natBits i.ua 16 3
    if natBits i.ua 19 13 ≠ 0 then .error bad
    if field = 2 ∧ (i.ub = 0 ∨ 16 < i.ub ∨ bcls ≠ 0) then .error bad
    let old := s1.row? tenant bcls
    let r0 := old.getD { Row.fresh tenant bcls with elapsed := s1.elapsed tenant }
    let r : Row := { r0 with pend := r0.pend ++ [(field, act, i.ub)] }
    let so := r.future.soft.getD act 0
    let ha := r.future.hard.getD act 0
    if field < 2 ∧ so ≠ 0 ∧ ha ≠ 0 ∧ ha < so then .error bad
    if old.isNone ∧ 256 ≤ s1.sch.rows.length then .error { code := cPermission, detail := 4 }
    let s2 := if old.isSome then s1.updRow tenant bcls fun _ => r else s1.updSch fun c => { c with rows := c.rows ++ [r] }
    pure (s2.stall i)

/-- The row at the start of a period: writes take effect and counts return to 0 (R346, R348). -/
def Row.renew (r : Row) : Option Row :=
  r.after.map fun x => { x with use0 := List.replicate 6 0, use1 := List.replicate 6 0, heard0 := List.replicate 6 0,
                                heard1 := List.replicate 6 0, pend := [], told := false, elapsed := x.elapsed - 40000 }

/-! ### The passing of time (R24, R327, R342, R346, R355) -/

/-- The wait of a terminal word (R96). -/
def GWait.parked : GWait → Bool
  | .batch _ _ => true
  | .barrier _ => true
  | .tile _ _ _ => true
  | .monitor => true
  | .wuc _ _ _ _ _ _ _ => true
  | .qdeq _ _ _ => true
  | .phase => true
  | .succ _ _ => true
  | .sysc => true
  | _ => false

/-- The group is in a lossless trace stall (R362). -/
def Group.traced (g : Group) : Bool :=
  match g.wait with
  | .trace _ _ => true
  | _ => false

/-- A group is stalled at translation by a commit or a migration: before a word or a clause, or where the read of its `wuc` or `qdeq` is due (R219,
R231). -/
def State.frozenGroup (s : State) (t : Team) (g : Group) : Bool :=
  match g.wait with
  | .frozen => true
  | .wuc va _ _ _ _ _ _ => s.frozenVa t.ctx va && !s.armed (t.id, g.idx)
  | .qdeq va _ _ => s.frozenVa t.ctx va && !s.armed (t.id, g.idx) && !s.waiters.any fun w => w.team == t.id && w.grp == g.idx
  | _ => false

/-- The lantern clocks of a team stand still: a group of it is in a lossless trace stall or stalled at translation by a commit or a migration,
or its context does not run (R219, R327). -/
def State.lanternHeld (s : State) (t : Team) : Bool :=
  (t.groups.any fun g => g.traced || s.frozenGroup t g) || !(s.ctx? t.ctx).any fun c => c.st == .running && c.saving.isNone

/-- The budget period of a tenant is paused: a group of its contexts is in a lossless trace stall (R346, R363). -/
def State.periodHeld (s : State) (tenant : Nat) : Bool :=
  s.teams.any fun t => t.groups.any Group.traced && (s.ctx? t.ctx).any fun c => c.tenant.toNat == tenant

/-- Ticks for which a change of operating point still pauses issue: stalled time, which no lantern counts (R327, R400). -/
def State.pauseLeft (s : State) : Nat := s.pkg.mgmt.pauseTill - s.ptp

/-- A group of a context is in a lossless trace stall or stalled at translation: time that no save counts (R376). -/
def State.ctxStalled (s : State) (ctx : Nat) : Bool :=
  s.teams.any fun t => t.ctx == ctx && t.groups.any fun g => g.traced || s.frozenGroup t g

/-- n ticks of the timebase pass: for the dies, the lantern clocks, the budget periods and the saves under way. -/
def State.pass (s : State) (n : Nat) : State :=
  let m := n - s.pauseLeft
  let idle := fun ctx : Nat => if s.ctxStalled ctx then n else n - m
  let s1 := s.setTime (s.ptp + n)
  { s1 with teams := s.teams.map fun t => if s.lanternHeld t then t
              else { t with barriers := t.barriers.map fun b => { b with clock := b.clock.map (· + m) } }
            ctxs := s.ctxs.map fun c => if c.saving.isSome then { c with saveAt := c.saveAt + idle c.num } else c
            sch := { s.sch with rows := s.sch.rows.map fun r => if s.periodHeld r.tenant then r else { r with elapsed := r.elapsed + n }
                                cands := s.sch.cands.map fun x => if x.off = 0 then { x with since := x.since + idle x.ctx } else x } }

/-- The counts of a team over some ACLK cycles of each core that it is resident on: PC0, PC10 and PC12 (R342). -/
def Team.cycles (t : Team) (n : Nat) : Team :=
  if t.slot = .held ∨ t.slot = .start ∨ t.groups.isEmpty = true then t
  else
    let one := fun (half : Nat) (c : SlotCount) =>
      let gs := t.groups.filter fun g => t.half g.idx == half
      let parked := (gs.filter fun g => g.wait.parked).length
      ((c.add 0 n).add 10 (if gs.any Group.traced then n else 0)).add 12 (n * parked)
    { t with counts := t.counts.mapIdx one }

/-- Cycles of ACLK pass on the cores of each die (R155; log entry 2). -/
def State.clock (s : State) : State :=
  let n := fun d : Nat => Config.clkTicks (14 * s.freeN + d) % 2 ^ 32
  { s with clks := s.clks.mapIdx fun d x => x + BitVec.ofNat 64 (n d), teams := s.teams.map fun t => t.cycles (n (coreDie t.core)) }

/-- Ticks of a budget period of 10 µs, and of the time between two exchanges of usage (R346). -/
def periodTicks : Nat := 40000
def exchangeTicks : Nat := 4000

/-- Meaning of BUDGET_PERIOD_END (R346, R347): a period of a tenant ends, unless it is paused, and activity held at a soft cap may go on. The event
brings the timebase to that moment where it was not reached (log entry 2); trace bytes have room again (R361). -/
def execBudgetPeriodEnd (tenant : Nat) (s : State) : Host.Outcome State Fault Refusal :=
  .next (if s.periodHeld tenant then s
    else
      let s1 := s.pass (periodTicks - s.elapsed tenant)
      (s1.updSch fun c => { c with rows := c.rows.filterMap fun r => if r.tenant == tenant then r.renew else some r }).tellDrops fun _ => true)

/-- A row once its dies have exchanged their counts (R346). -/
def Row.exchanged (r : Row) : Row := { r with heard0 := r.use1, heard1 := r.use0 }

/-- Event 0x40 for each soft cap of a row that a chamber die meets first by what it has heard (R346, R352). -/
def State.softMet (s : State) (r : Row) (hub : Nat) : State :=
  let met := fun act : Nat => r.soft.getD act 0 != 0 && decide (r.seen hub act < r.soft.getD act 0) &&
    decide (r.soft.getD act 0 ≤ r.exchanged.seen hub act)
  ((List.range r.soft.length).filter met).foldl (fun s act => s.capEvent r.tenant r.bcls act hub false) s

/-- Meaning of BUDGET_USE_EXCHANGE (R346, R352): the dies exchange their counts, 1 µs after they last did. -/
def execBudgetUseExchange (s : State) : Host.Outcome State Fault Refusal :=
  let s1 := s.pass (s.sch.exchAt + exchangeTicks - s.ptp)
  let s2 := s1.updSch fun c => { c with rows := c.rows.map Row.exchanged, exchAt := s1.ptp }
  .next (s1.sch.rows.foldl (fun s r => (s.softMet r 0).softMet r 1) s2)

end Sys2Proof.Machine
end

