-- ==== Sys2Proof/Machine/ShapeRec.lean ====
section
/-! DEFINITION. Shape records (R336 to R338), element streams (R294, R337), and what one unit of a transfer reads, converts and writes
(R75 to R80, R297). -/

namespace Sys2Proof.Machine

/-! ### Shape records -/

/-- The fields of a shape record (R336). -/
structure ShapeRec where
  base : Nat
  fmt : Nat
  ndim : Nat
  sbit : Nat
  padm : Nat
  swz : Nat
  padv : Nat
  box : List Nat
  ext : List Nat
  str : List Nat
deriving DecidableEq, Repr

/-- A field of n bytes at an offset of a record. -/
def fieldAt (bs : List Byte) (o n : Nat) : Nat := leNat ((bs.drop o).take n)

/-- Reading of the 64 bytes (R336). -/
def shapeOf (bs : List Byte) : ShapeRec :=
  let d1 := fieldAt bs 8 8
  { base := fieldAt bs 0 8, fmt := natBits d1 56 8, ndim := natBits d1 53 3, sbit := natBits d1 50 3, padm := natBits d1 48 2,
    swz := natBits d1 46 2, padv := natBits d1 0 32,
    box := [fieldAt bs 22 2, fieldAt bs 20 2, fieldAt bs 18 2, fieldAt bs 16 2, fieldAt bs 30 2],
    ext := [fieldAt bs 27 3, fieldAt bs 24 3, fieldAt bs 37 3, fieldAt bs 34 3, fieldAt bs 40 3],
    str := [fieldAt bs 44 5, fieldAt bs 49 5, fieldAt bs 54 5, fieldAt bs 59 5] }

/-- The first of some conditions that holds. -/
def firstBad : List (Bool × Exc) → Option Exc
  | [] => none
  | (b, x) :: xs => if b then some x else firstBad xs

/-- A fault SHAPE_RECORD with the byte offset of a field. -/
def shapeBad (o : Nat) : Exc := { code := cShapeRecord, detail := o }

/-- Offsets of the box, extent and stride fields by dimension. -/
def boxOfs : List Nat := [22, 20, 18, 16, 30]
def extOfs : List Nat := [27, 24, 37, 34, 40]
def strOfs : List Nat := [44, 49, 54, 59]

/-- Size fields that are zero in a used dimension or nonzero in another, by lowest offset (R338). -/
def ShapeRec.badSize (r : ShapeRec) : Option Nat :=
  let bad := fun (used v : Nat) (d : Nat) => if d < used then v == 0 else v != 0
  let bs := (List.range 5).filter fun d => bad r.ndim (r.box.getD d 0) d
  let es := (List.range 5).filter fun d => bad r.ndim (r.ext.getD d 0) d
  let ss := (List.range 4).filter fun d => decide (r.ndim ≤ d + 1) && r.str.getD d 0 != 0
  ((bs.map fun d => boxOfs.getD d 0) ++ (es.map fun d => extOfs.getD d 0) ++ ss.map fun d => strOfs.getD d 0).min?

/-- The checks of a record's content, in the order of the rows of R338; `c0` is the origin in dimension 0. DESIGN CHOICE: a reserved
FMT, whose element width is not defined, has width 0 in the check of PADV, which comes first (R431; log entry 76). -/
def ShapeRec.check (r : ShapeRec) (bs : List Byte) (c0 : Int) : Option Exc :=
  let e := fmtBits r.fmt
  let d1 := fieldAt bs 8 8
  match (List.range 4).find? fun d => decide (d + 1 < r.ndim) && r.str.getD d 0 % 8 != 0 with
  | some d => some { code := cShapePitch, detail := d + 1 }
  | none =>
    firstBad ([
      (decide (2 ^ e ≤ r.padv), shapeBad 8),
      (natBits d1 32 8 != 0, shapeBad 12),
      (natBits d1 40 6 != 0 || decide (2 ≤ r.swz), shapeBad 13),
      (r.ndim == 0 || decide (5 < r.ndim) || decide (2 ≤ r.padm), shapeBad 14),
      (!fmtOk r.fmt || r.fmt == 0x14, shapeBad 15),
      (fieldAt bs 32 1 != 0, shapeBad 32),
      (fieldAt bs 33 1 != 0, shapeBad 33),
      (fieldAt bs 43 1 != 0, shapeBad 43)] ++
      (match r.badSize with
       | some o => [(true, shapeBad o)]
       | none => []) ++ [
      (r.sbit % min e 8 != 0, shapeBad 8),
      (fmtBlock r.fmt && (r.sbit != 0 || r.box.getD 0 0 % 32 != 0 || c0 % 32 != 0), shapeBad 9)])

/-- Elements of the box (R337). -/
def ShapeRec.count (r : ShapeRec) : Nat := ((r.box.take r.ndim).foldl (· * ·) 1)

/-- Index tuple of linear element n (R337). -/
def boxIdx : List Nat → Nat → List Nat
  | [], _ => []
  | b :: bs, n => n % max b 1 :: boxIdx bs (n / max b 1)

/-- Coordinates of linear element n at an origin. -/
def ShapeRec.coord (r : ShapeRec) (org : List Int) (n : Nat) : List Int :=
  (boxIdx (r.box.take r.ndim) n).mapIdx fun i (b : Nat) => org.getD i 0 + (b : Int)

/-- The element is padding (R337). -/
def ShapeRec.pad (r : ShapeRec) (org : List Int) (n : Nat) : Bool :=
  ((r.coord org n).mapIdx fun i x => decide (x < 0) || decide ((r.ext.getD i 0 : Int) ≤ x)).any id

/-- Where an element lies: the address of its first byte, its bit in that byte, and the address of its block. -/
structure Loc where
  addr : Nat
  bit : Nat
  head : Nat
deriving DecidableEq, Repr

/-- The place of element n counted from a bit address (R294, R337); blocks stand in line. -/
def locOf (f : Nat) (bit0 n : Nat) : Loc :=
  let e := fmtBits f
  if fmtBlock f then
    let h := bit0 / 8 + n / 32 * blockBytes f
    let b := 8 * (h + blockHead f) + n % 32 * e
    { addr := b / 8, bit := b % 8, head := h }
  else
    let b := bit0 + n * e
    { addr := b / 8, bit := b % 8, head := b / 8 }

/-- The place of a non-padding element (R337). -/
def ShapeRec.loc (r : ShapeRec) (org : List Int) (n : Nat) : Loc :=
  let x := r.coord org n
  let rows := ((x.drop 1).mapIdx fun i c => c.toNat * r.str.getD i 0).sum
  locOf r.fmt (8 * r.base + (if fmtBlock r.fmt then 0 else r.sbit) + rows) (x.headD 0).toNat

/-! ### Elements of an endpoint -/

/-- The place of element n of an endpoint in format f; `none` for padding. `org` is the origin of a box. -/
def Endp.loc (ep : Endp) (f : Nat) (org : List Int) (n : Nat) : Option Loc :=
  match ep with
  | .va a => some (locOf f (8 * a) n)
  | .ls _ _ a => some (locOf f (8 * a) n)
  | .shape bs => if (shapeOf bs).pad org n then none else some ((shapeOf bs).loc org n)

/-- The padding code of an endpoint (R336, R337). -/
def Endp.padCode (ep : Endp) : Nat :=
  match ep with
  | .shape bs => if (shapeOf bs).padm = 1 then (shapeOf bs).padv else 0
  | _ => 0

/-- Bytes that an element takes. -/
def elemBytes (f : Nat) : Nat := max 1 (fmtBits f / 8)

/-- The medium of an endpoint: the LS of a core, or virtual memory. -/
def Endp.target (ep : Endp) (s : State) (c : Ctx) (own : Option (Team × Nat)) (addr n : Nat) (kind : Kind) :
    Except Exc (List (Target × Nat)) :=
  match ep with
  | .ls team core _ =>
    match s.team? team with
    | some t => if t.lsBytes < addr + n then .error { code := cLsRange, addr := addr } else .ok [(.ls team core addr, n)]
    | none => .error { code := cLsRange, addr := addr }
  | _ => (s.translateSpan c own addr n kind true).mapError fun x => { x with addr := addr }

/-- Bytes of an endpoint at an address, with the events of R235 that a read meets. -/
def Endp.read (ep : Endp) (s : State) (c : Ctx) (own : Option (Team × Nat)) (addr n : Nat) : Except Exc (List Byte) := do
  let ts ← ep.target s c own addr n .read
  match ts.findSome? fun p => s.lineEvent p.1 p.2 with
  | some code => .error { code := code, addr := addr }
  | none => pure (ts.flatMap fun p => s.readTarget p.1 p.2)

/-- Writes bytes of an endpoint at an address. -/
def writeTargets : State → List (Target × Nat) → List Byte → State
  | s, [], _ => s
  | s, (t, n) :: ts, bs => writeTargets (s.writeTarget t (bs.take n)) ts (bs.drop n)

/-- An element as it is read: its code, the value it stands for with its block's scale, the scale bytes, and whether it is
padding. -/
structure Elem where
  code : Nat
  val : Val
  sc : List Nat
  pad : Bool
deriving DecidableEq, Repr

/-- The value of a code under its block's scale bytes. -/
def valIn (f code : Nat) (sc : List Nat) : Val :=
  if fmtBlock f then decBlockElem f code (sc.getD 0 0) (sc.getD 1 0) else decElem f code

/-- Reading of element n of an endpoint (R297, R337). The scale of a padding element is that of its block where the block has
an element in memory, else 0. -/
def readElem (s : State) (c : Ctx) (own : Option (Team × Nat)) (ep : Endp) (f : Nat) (org : List Int) (n : Nat) : Except Exc Elem := do
  let e := fmtBits f
  let scale : Except Exc (List Nat) :=
    if !fmtBlock f then .ok []
    else match ((List.range 32).map fun k => n / 32 * 32 + k).findSome? fun k => ep.loc f org k with
      | some l => (ep.read s c own l.head (blockHead f)).map fun bs => bs.map BitVec.toNat
      | none => .ok (List.replicate (blockHead f) 0)
  let sc ← scale
  match ep.loc f org n with
  | none => pure { code := ep.padCode % 2 ^ e, val := valIn f (ep.padCode % 2 ^ e) sc, sc := sc, pad := true }
  | some l =>
    let bs ← ep.read s c own l.addr (elemBytes f)
    let code := leNat bs / 2 ^ l.bit % 2 ^ e
    pure { code := code, val := valIn f code sc, sc := sc, pad := false }

/-- Element n is padding where the destination's record makes it so: it takes no part in amax (R80, R301, R312). -/
def Endp.markPad (ep : Endp) (f : Nat) (org : List Int) (n : Nat) (x : Elem) : Elem := { x with pad := x.pad || (ep.loc f org n).isNone }

/-- The element that completes a last block (R80, R297). -/
def Elem.filler (f : Nat) (sc : List Nat) : Elem := { code := 0, val := valIn f 0 sc, sc := sc, pad := true }

/-- A unit that is written: for each element its code, and the scale bytes of a block; with the counts (R84). -/
structure UnitOut where
  codes : List Nat
  scale : List Nat
  sat : Nat
  nar : Nat
deriving DecidableEq, Repr

/-- Conversion of the elements of a unit, the first being destination element n0 (R75, R77 to R80). With no record, or an
identity transfer, codes and scales are copied. -/
def convUnit (conv : Option ConvRec) (n0 : Nat) (xs : List Elem) : UnitOut :=
  match conv with
  | none => { codes := xs.map Elem.code, scale := (xs.headD (Elem.filler 1 [])).sc, sat := 0, nar := 0 }
  | some r =>
    if r.identity then { codes := xs.map Elem.code, scale := (xs.headD (Elem.filler 1 [])).sc, sat := 0, nar := 0 }
    else
      let o := r.run n0 (xs.map fun x => { v := x.val, pad := x.pad })
      { codes := o.codes, scale := o.scale, sat := o.sat, nar := o.nar }

/-- Elements in a unit of a destination format: a block, the elements of a byte, or one (log entry 19). -/
def unitLen (f : Nat) : Nat := if fmtBlock f then 32 else if fmtBits f < 8 then 8 / fmtBits f else 1

/-- Bytes of a unit. -/
def unitBytes (f : Nat) : Nat := if fmtBlock f then blockBytes f else elemBytes f

/-- Merges an element code into the byte or bytes that hold it. -/
def mergeCode (f : Nat) (old : Nat) (bit code : Nat) : Nat :=
  let e := fmtBits f
  if 8 ≤ e then code % 2 ^ e else old - (old / 2 ^ bit % 2 ^ e) * 2 ^ bit + code % 2 ^ e * 2 ^ bit

/-- Writes of one unit: the scale bytes of a block and every element that is not padding at the destination. `swz` moves a
data byte (R317). Answers the places and bytes, in order, or the first fault. -/
def unitWrites (s : State) (c : Ctx) (own : Option (Team × Nat)) (ep : Endp) (f : Nat) (org : List Int) (n0 : Nat) (u : UnitOut) :
    Except Exc State := do
  let put := fun (s : State) (addr : Nat) (bs : List Byte) => do
    let ts ← ep.target s c own addr bs.length .write
    pure (writeTargets s ts bs)
  let s1 ← match (List.range u.codes.length).findSome? fun k => ep.loc f org (n0 + k) with
    | some l => if u.scale.isEmpty then pure s else put s l.head (u.scale.map fun x => BitVec.ofNat 8 x)
    | none => pure s
  (List.range u.codes.length).foldlM (fun s k =>
    match ep.loc f org (n0 + k) with
    | none => .ok s
    | some l => do
      let old ← if fmtBits f < 8 then (ep.target s c own l.addr 1 .write).map fun ts => leNat (ts.flatMap fun p => s.readTarget p.1 p.2) else .ok 0
      put s l.addr (leBytes (elemBytes f) (mergeCode f old l.bit (u.codes.getD k 0)))) s1

end Sys2Proof.Machine
end

