-- ==== Sys2Proof/Machine/Copies.lean ====
section
/-! DEFINITION. The copy words, `cseal` and `cwait` (R295 to R297, R300 to R308), and the reading of shape records through the
cache of a core (R338, R339). -/

namespace Sys2Proof.Machine

/-! ### Shape records through the cache (R338, R339) -/

/-- The 64 bytes at a VA as the cache of a core reads them for a group with these stores in flight, which the read may miss (R339, R340;
log entry 55). -/
def State.recordBytesAt (s : State) (c : Ctx) (own : Option (Team × Nat)) (late : List Late) (va : Nat) : Except Exc (List Byte) := do
  let bs ← s.loadSpan c own va 64 .read false
  match s.translate c own va 64 .read false with
  | .ok (.phys pa _ _) => pure (lateView s.freeN s.mem late pa 64)
  | _ => pure bs

/-- The bytes of a shape record and the state after its reading: a hit gives the cached bytes; a miss checks the VA, reads memory, and
installs the record unless its content faults. `late` are the stores in flight of the reading group, `c0` the origin in dimension 0. -/
def State.shapeRead (s : State) (c : Ctx) (own : Option (Team × Nat)) (core : Nat) (late : List Late) (va : Nat) (c0 : Int) :
    Except Exc (List Byte × State) := do
  let hit := s.shapes.find? fun e => e.core == core && e.ctx == c.num && e.va == va
  let bs ← match hit with
    | some e => .ok e.bytes
    | none =>
      if va % 64 ≠ 0 then .error { code := cAlignment, addr := va }
      else s.recordBytesAt c own late va
  match (shapeOf bs).check bs c0 with
  | some x => .error { x with addr := va }
  | none =>
    let e : ShapeEnt := { core := core, ctx := c.num, va := va, bytes := bs }
    let mine := (s.shapes.filter fun x => x.core == core && !(x.ctx == c.num && x.va == va)).take 15
    pure (bs, { s with shapes := e :: mine ++ s.shapes.filter fun x => x.core != core })

/-! ### Operands of a copy word (R295) -/

/-- The operands of a copy word: FUNC bits, control block, and the 64-bit values of A and B. -/
structure CpIn where
  op : CopyOp
  dls : Bool
  sls : Bool
  be : Bool
  bar : Nat
  scatter : Bool
  rop : Nat
  rty : Nat
  tv : Bool
  tile : Nat
  mask : Nat
  cw : Nat
  dst : Nat
  src : Nat
  count : Nat
  rec1 : Nat
  opid : Nat
  sval : Nat
deriving DecidableEq, Repr

/-- Reading of the operands at issue. -/
def Iss.cpIn (i : Iss) (op : CopyOp) : CpIn :=
  let x := i.v.c - 0x30
  let f := i.v.func
  let cw := (i.g.si (x + 1)).toNat
  { op := op, dls := natBit f 15, sls := natBit f 14, be := natBit f 13, bar := natBits f 7 6, scatter := op == .cpyo && natBit f 6,
    rop := natBits f 4 3, rty := natBits f 1 3, tv := natBit cw 15, tile := natBits cw 8 6, mask := natBits cw 0 4, cw := cw,
    dst := i.ua, src := i.ub, count := (i.g.si x).toNat, rec1 := i.g.spair (x + 2), opid := i.g.spair (x + 4), sval := i.g.spair (x + 6) }

/-- Registers of the control block, as touched. -/
def cpTouch (w : Iss) : Touch :=
  (List.range (if w.v.opc == 0x1A2 || w.v.opc == 0x1A4 then 8 else 4)).map fun k => (w.v.c + k, false)

/-- The endpoint lies in the peer LS window (R213): a VA there, or a box whose BASE, where its first element lies, is there (R301, R337). -/
def Endp.peer : Endp → Bool
  | .ls _ _ _ => false
  | .va a => inWindow a
  | .shape bs => inWindow (shapeOf bs).base

/-- The destination lies in the peer LS window (R213); of a scatter, the box of the record `shp`, if it could be read. -/
def CpIn.window (c : CpIn) (shp : Option (List Byte)) : Bool :=
  if c.scatter then shp.any fun bs => (Endp.shape bs).peer else !c.dls && inWindow c.dst

/-- VAs that a copy word translates at its issue, by its operands (R296). -/
def cpVas (op : CopyOp) (w : Iss) : List Nat :=
  let c := w.cpIn op
  (if c.dls || c.scatter then [] else [c.dst]) ++ (if c.sls || (op == .cpyo && !c.scatter) then [] else [c.src]) ++
  (if c.rec1 = 0 then [] else [c.rec1]) ++ (if op = .cpys then [c.opid] else [])

/-- The address of the first element of a box that is not padding (R301). -/
def firstLoc (bs : List Byte) : Option Nat :=
  (List.range (shapeOf bs).count).findSome? fun n => ((Endp.shape bs).loc (shapeOf bs).fmt [] n).map Loc.addr

/-- What `cpyo` translates besides: its shape record, unless the cache of its core holds it, and the first element of the box (R296, R339). -/
def cpMore (op : CopyOp) (w : Iss) (s : State) : List Nat :=
  let c := w.cpIn op
  let va := if c.scatter then c.dst else c.src
  if op ≠ .cpyo then []
  else (if s.shapes.any fun e => e.core == w.core && e.ctx == w.c.num && e.va == va then [] else [va]) ++
    match s.shapeRead w.c w.own w.core w.g.late va 0 with
    | .ok r => (firstLoc r.1).toList
    | .error _ => []

/-- Step 8.1 of R296. -/
def CpIn.check1 (c : CpIn) (window : Bool) : Except Exc Unit :=
  if natBits c.cw 16 16 ≠ 0 ∨ natBit c.cw 14 ∨ natBits c.cw 4 4 ≠ 0 ∨ (c.mask ≠ 0 ∧ c.op ≠ .cpym) then
    .error { code := cOperandClass, detail := c.cw }
  else if c.dls ∧ c.dst / 2 ^ 32 ≠ 0 then .error { code := cOperandClass, detail := c.dst / 2 ^ 32 }
  else if c.sls ∧ c.src / 2 ^ 32 ≠ 0 then .error { code := cOperandClass, detail := c.src / 2 ^ 32 }
  else if c.tv ∧ !c.dls ∧ !window then .error { code := cOperandClass, detail := c.cw }
  else .ok ()

/-- Step 8.2 of R296 against a receiving team. -/
def CpIn.check2 (c : CpIn) (t : Team) : Except Exc Unit :=
  if c.be ∧ t.kd.barriers ≤ c.bar then .error { code := cOperandClass }
  else if c.tv ∧ t.kd.tiles ≤ c.tile then .error { code := cTileRange }
  else .ok ()

/-- Step 8.5 of R296: a span of LS against SCRATCH. -/
def lsSpan (t : Team) (off n : Nat) : Except Exc Unit :=
  if n ≠ 0 ∧ t.lsBytes < off + n then .error { code := cLsRange, addr := max off t.lsBytes } else .ok ()

/-- Step 8.6 of R296: the span against the tile of the receiving team's core. -/
def CpIn.check6 (c : CpIn) (t : Team) (half off n : Nat) : Except Exc Unit :=
  if !c.tv then .ok ()
  else
    let e := ((t.tiles.getD half []).getD c.tile Tile.reset)
    if off < e.base ∨ e.base + 64 * e.size < off + n then .error { code := cTileRange }
    else if e.st = .filling ∨ e.st = .draining ∨ e.absent then .error { code := cTileState }
    else .ok ()

/-- Bytes of a stream of n elements (R294). -/
def streamBytes (f n : Nat) : Nat := if fmtBlock f then (n + 31) / 32 * blockBytes f else (n * fmtBits f + 7) / 8

/-- Storage unit of a format (R296 step 8.4). -/
def storageUnit (f : Nat) : Nat := if fmtBlock f then 1 else elemBytes f

/-- Step 8.3 of R296: the conversion record at a VA, as its dword 0. -/
def readConv (s : State) (c : Ctx) (own : Option (Team × Nat)) (va : Nat) : Except Exc (Option Nat) := do
  if va = 0 then pure none
  else if va % 16 ≠ 0 then .error { code := cAlignment, addr := va }
  else
    let bs ← s.loadSpan c own va 16 .read true
    let d0 := fieldAt bs 0 8
    match (convRecOf d0 (fieldAt bs 8 8)).badField with
    | some o => .error { code := cCopyFault, addr := va, detail := 0x10000 + o }
    | none => pure (some d0)

/-- Formats of source and destination without a record: bytes, or the format of the shape record. -/
def plainFmt (a b : Endp) : Nat :=
  match a, b with
  | .shape bs, _ => (shapeOf bs).fmt
  | _, .shape bs => (shapeOf bs).fmt
  | _, _ => 0x02

/-- Source and destination formats of a transfer. -/
def fmtsOf (conv : Option Nat) (a b : Endp) : Nat × Nat :=
  match conv with
  | some d0 => ((convRecOf d0 0).sfmt, (convRecOf d0 0).dfmt)
  | none => (plainFmt a b, plainFmt a b)

/-- Bytes of an element of a reducing TY (R302). -/
def reduceBytes (ty : Nat) : Nat := atomBits ty / 8

/-- The FMT that a reducing TY asks of DFMT (R302); none takes REC = 0 only. -/
def reduceFmt (ty : Nat) : Option Nat :=
  match ty with
  | 0 => some 0x04
  | 4 => some 0x07
  | 5 => some 0x05
  | 6 => some 0x06
  | _ => none

/-- The site of a target admits a reducing pair (R302). -/
def State.reduceOk (s : State) (op ty : Nat) (t : Target) : Bool :=
  match s.targetRegion t with
  | some .host => op == 0 && decide (ty < 4)
  | some .peer => op == 0 && decide (ty < 4)
  | _ => true

/-- The check that the target of step 8.7 lies in the LS of the receiving team, with that team's steps 8.2, 8.5 and 8.6 (R296). -/
def CpIn.check7 (c : CpIn) (s : State) (n : Nat) : Target → Except Exc (Nat × Nat)
  | .ls team core off => do
    match s.team? team with
    | none => .error { code := cPermission, addr := c.dst }
    | some u =>
      c.check2 u
      lsSpan u off n
      c.check6 u (core - u.core) off n
      pure (team, core - u.core)
  | .phys _ _ _ => .error { code := cPermission, addr := c.dst }

/-- The cores that MASK names, with the teams that receive there (R304). -/
def CpIn.mcast (c : CpIn) (s : State) (i : Iss) (n : Nat) : Except Exc (List (Nat × Nat)) := do
  let cores := ((List.range 4).filter fun k => natBit c.mask k).map fun k => i.core / 4 * 4 + k
  let bad : Exc := { code := cMcastMask, detail := c.cw }
  if cores.isEmpty then .error bad
  if cores.any fun k => (s.windowTeam i.t k).isNone then .error bad
  cores.mapM fun k =>
    match s.windowTeam i.t k with
    | none => .error bad
    | some u => do
      c.check2 u
      lsSpan u (c.dst % 2 ^ 32) n
      c.check6 u (k - u.core) (c.dst % 2 ^ 32) n
      pure (k, u.id)

/-- Step 8.8 of R302. -/
def CpIn.checkReduce (c : CpIn) (s : State) (func : Nat) (conv : Option Nat) (site : Target) : Except Exc Unit := do
  let sz := reduceBytes c.rty
  let fmtBad : Bool := match conv with
    | some d0 => reduceFmt c.rty != some (convRecOf d0 0).dfmt
    | none => false
  if (4 ≤ c.rty ∧ 3 ≤ c.rop) ∨ fmtBad then .error { code := cReduceType, detail := func }
  if c.dst % sz ≠ 0 ∨ (conv.isNone ∧ c.count % sz ≠ 0) then .error { code := cAlignment, addr := c.dst }
  if !s.reduceOk c.rop c.rty site then .error { code := cAtomicUnsupported, addr := c.dst }

/-- Step 8.8 of R306. -/
def CpIn.checkStamp (c : CpIn) (s : State) (i : Iss) : Except Exc Unit := do
  if c.opid % 8 ≠ 0 then .error { code := cAlignment, addr := c.opid }
  if inWindow c.opid then .error { code := cPermission, addr := c.opid }
  let _ ← s.translate i.c i.own c.opid 8 .write false

/-- Step 8.4 of R296: an endpoint's alignment to the storage unit of its format. -/
def alignedTo (f a : Nat) : Except Exc Unit := if a % storageUnit f ≠ 0 then .error { code := cAlignment, addr := a } else .ok ()

/-- The checks of step 8 of R296, in order, ending in the copy that is handed to the engines, with N elements, and the state with what the
shape-record cache has read. A box in the peer window is checked at its first element that is not padding (R301). DESIGN CHOICE: where the FMT of
the shape record and REC differ, `the field's offset` is that of SFMT or DFMT of REC, 7 or 6, with 0x1_0000 as for REC's other fields (log
entry 76). -/
def cpCheck (c : CpIn) (s : State) (i : Iss) : Except Exc (Copy × State) := do
  let peek := if c.op = .cpyo then s.shapeRead i.c i.own i.core i.g.late (if c.scatter then c.dst else c.src) 0 else .ok ([], s)
  let window := c.window (peek.toOption.map Prod.fst)
  c.check1 window
  if !window && c.op != .cpym then c.check2 i.t
  -- 8.3: the shape record of `cpyo`, then REC
  let rd ← peek
  if c.op = .cpyo ∧ c.count ≠ 0 then .error { code := cCopyFault, detail := 0x30000 }
  let conv ← readConv s i.c i.own c.rec1
  let shp := rd.1
  match conv with
  | some d0 =>
    if c.op = .cpyo ∧ (if c.scatter then (convRecOf d0 0).dfmt else (convRecOf d0 0).sfmt) ≠ (shapeOf shp).fmt then
      .error { code := cCopyFault, addr := c.rec1, detail := 0x10000 + (if c.scatter then 6 else 7) }
  | none => pure ()
  let src : Endp := if c.op = .cpyo ∧ !c.scatter then .shape shp else if c.sls then .ls i.id.1 i.core (c.src % 2 ^ 32) else .va c.src
  let dst : Endp := if c.scatter then .shape shp else if c.dls then .ls i.id.1 i.core (c.dst % 2 ^ 32) else .va c.dst
  let f := fmtsOf conv src dst
  let n := if c.op = .cpyo then (shapeOf shp).count else if c.op = .cpyr ∧ conv.isNone then c.count / reduceBytes c.rty else c.count
  let sb := if c.op = .cpyr ∧ conv.isNone then c.count else streamBytes f.1 n
  let db := if c.op = .cpyr ∧ conv.isNone then c.count else streamBytes f.2 n
  let srcAt := if c.op = .cpyo ∧ !c.scatter then firstLoc shp else some (if c.sls then c.src % 2 ^ 32 else c.src)
  let dstAt := if c.scatter then firstLoc shp else some (if c.dls then c.dst % 2 ^ 32 else c.dst)
  -- 8.4
  if conv.isSome then
    match srcAt with
    | some a => alignedTo f.1 a
    | none => pure ()
    match dstAt with
    | some a => alignedTo f.2 a
    | none => pure ()
  -- 8.5 and 8.6 of LS offsets
  if c.sls then lsSpan i.t (c.src % 2 ^ 32) sb
  if c.dls && c.op != .cpym then lsSpan i.t (c.dst % 2 ^ 32) db
  if c.dls && c.op != .cpym then c.check6 i.t i.half (c.dst % 2 ^ 32) db
  -- 8.7
  match srcAt with
  | some a => if !c.sls then let _ ← s.translate i.c i.own a 1 .read true
  | none => pure ()
  let site ← match dstAt with
    | some a => if c.dls then .ok (Target.ls i.id.1 i.core (c.dst % 2 ^ 32)) else s.translate i.c i.own a 1 .write true
    | none => .ok (Target.ls i.id.1 i.core 0)
  let home ← if window then c.check7 s (if c.scatter then elemBytes f.2 else db) site else .ok (i.id.1, i.half)
  -- 8.8
  let cores ← if c.op = .cpym then c.mcast s i db else .ok []
  if c.op = .cpyr then c.checkReduce s i.v.func conv site
  if c.op = .cpys then c.checkStamp s i
  let len := if c.op = .cpyr then 1 else unitLen f.2
  let ub := if c.op = .cpyr then reduceBytes c.rty else unitBytes f.2
  let els := (n + len - 1) / len
  pure ({ id := s.nextId, ctx := i.c.num, team := i.id.1, grp := i.id.2, core := i.core, pc := i.g.wordPc, op := c.op, src := src, dst := dst,
          conv := conv, n := n, units := if c.op = .cpys then els + 1 else els, placed := 0, piece := 65536 / ub,
          hub := !(c.dls || c.sls || c.op == .cpym || dst.peer || src.peer),
          bar := if c.be then some c.bar else none, tile := if c.tv then some c.tile else none, dteam := home.1, dhalf := home.2,
          cores := cores, failed := [], dropped := [], told := true, rop := c.rop, rty := c.rty, opid := BitVec.ofNat 64 c.opid,
          sva := BitVec.ofNat 64 c.opid, sval := BitVec.ofNat 64 c.sval, tenant := i.t.tenant, bcls := i.t.bcls }, rd.2)

/-- The teams and core halves that a copy delivers to (R297, R304). -/
def Copy.dests (c : Copy) (s : State) : List (Nat × Nat) :=
  if c.op = .cpym then c.cores.map fun p => (p.2, p.1 - s.seatOf p.2) else [(c.dteam, c.dhalf)]

/-- The teams whose LS, tables or window a copy uses. DEDUCED: while one of them is in a save area, what needs it waits (log entry 94). -/
def Copy.uses (c : Copy) : List Nat :=
  let ls := fun (e : Endp) => match e with
    | .ls t _ _ => [t]
    | e => if e.peer then [c.team, c.dteam] else []
  (if c.op = .cpym then c.cores.map Prod.snd else ls c.dst) ++ ls c.src ++ if c.bar.isSome || c.tile.isSome then [c.dteam] else []

/-- A tile that a copy fills takes another state; in any other state the copy leaves it alone (R315). -/
def Tile.filled (e : Tile) (st : TileSt) : Tile := if e.st = .filling then { e with st := st } else e

/-- The destination tiles of a copy begin to fill (R297, R315). -/
def State.fillTiles (s : State) (c : Copy) : State :=
  match c.tile with
  | none => s
  | some t => (c.dests s).foldl (fun s d => (s.takeTile (some c.id) d.1 d.2 t).updTile d.1 d.2 t fun e => { e with st := .filling }) s

/-- A barrier of a team takes an abort posting, and a tile of it leaves FILLING (R299, R305, R315). -/
def State.post (s : State) (team : Nat) (p : Posting) : State :=
  let s1 := match p.bar with
    | some b => s.updBar team b Barrier.abort
    | none => s
  match p.tile with
  | some (half, i, st) => s1.updTile team half i fun e => e.filled st
  | none => s1

/-- What the end of a copy does at a destination, `abort` for an abort posting: its tile takes a state, unless another fill has taken it since
(R315). A team that is away finds it done when it is loaded (R299). -/
def State.endDest (s : State) (c : Copy) (d : Nat × Nat) (abort : Bool) (st : TileSt) : State :=
  let p : Posting := { bar := if abort then c.bar else none, tile := if c.lost.contains d then none else c.tile.map fun i => (d.2, i, st) }
  if p.bar.isNone && p.tile.isNone then s
  else if s.away d.1 then s.updIdent d.1 fun i => { i with posts := i.posts ++ [p] } else s.post d.1 p

/-- The destination tiles of a copy that are still FILLING take a state (R315). -/
def State.setTiles (s : State) (c : Copy) (st : TileSt) : State :=
  match c.tile with
  | none => s
  | some _ => (c.dests s).foldl (fun s d => s.endDest c d false st) s

/-- Writes the stamp of a `cpys` (R306), with event 0x21. -/
def State.writeStamp (s : State) (c : Copy) (die unit : Nat) : Except Exc State := do
  match s.ctx? c.ctx with
  | none => pure s
  | some x =>
    let t ← s.translate x ((s.team? c.team).map fun t => (t, c.core)) c.sva.toNat 8 .write false
    pure ((s.writeTarget t (leBytes 8 c.sval.toNat)).emitEngine die unit 0x21 c.ctx (BitVec.ofNat 32 c.sval.toNat))

/-- A copy that changes a tile of the issuing group's own core has touched it (R98). -/
def State.touchDest (s : State) (c : Copy) (i : Iss) : State :=
  match c.tile with
  | some t => if (c.dests s).contains (i.id.1, i.half) then s.touchTile i t else s
  | none => s

/-- CopyIssue (R297): the copy joins the unsealed set, its tile becomes FILLING, and its pieces go to the engines; the group
stalls while some piece finds no room (R293). A copy with nothing to move is complete at once; a `cpys` has its stamp as its last
unit. -/
def cpIssue (c : Copy) (s : State) (i : Iss) : Except Exc State := do
  let s1 := { s.perfAdd i.id 13 1 with nextId := s.nextId + 1 }
  if c.n = 0 ∧ c.op ≠ .cpys then pure (((s1.fillTiles c).setTiles c .ready).touchDest c i)
  else
    let s2 := (s1.updEng fun e => { e with copies := e.copies ++ [c] }).updGrp i.id fun g => { g with unsealed := g.unsealed ++ [c.id] }
    let s5 := ((s2.fillTiles c).touchDest c i).placeAll
    pure (if (s5.copy? c.id).any fun c => decide (c.placed < c.units) then s5.stall i else s5)

/-- A copy word. -/
def runCopy (op : CopyOp) (v : View) (s : State) : Host.Outcome State Fault Refusal :=
  runWord { sh := shCopy v, touch := cpTouch, vas := cpVas op, more := cpMore op } v s fun i s1 => do
    let r ← cpCheck (i.cpIn op) s1 i
    cpIssue r.1 r.2 i

/-- Meaning of `cpy` (R300). -/
def execCpy (w : FR) (s : State) : Host.Outcome State Fault Refusal := runCopy .cpy (w.view .fr 0x1A0) s
/-- Meaning of `cpyo` (R301). -/
def execCpyo (w : FR) (s : State) : Host.Outcome State Fault Refusal := runCopy .cpyo (w.view .fr 0x1A1) s
/-- Meaning of `cpyr` (R302). -/
def execCpyr (w : FR) (s : State) : Host.Outcome State Fault Refusal := runCopy .cpyr (w.view .fr 0x1A2) s
/-- Meaning of `cpym` (R304). -/
def execCpym (w : FR) (s : State) : Host.Outcome State Fault Refusal := runCopy .cpym (w.view .fr 0x1A3) s
/-- Meaning of `cpys` (R306). -/
def execCpys (w : FR) (s : State) : Host.Outcome State Fault Refusal := runCopy .cpys (w.view .fr 0x1A4) s

/-! ### Batches (R307, R308) -/

/-- Meaning of `cseal` (R307). -/
def execCseal (w : FS) (s : State) : Host.Outcome State Fault Refusal :=
  let v := w.view 0x1A5
  runWord { sh := shCseal v, touch := fun _ => if 0x30 ≤ v.dst then [(v.dst, false)] else [],
            vas := fun i => if natBit v.func 0 then [i.ua] else [] } v s fun i s1 => do
    let j := natBit v.func 0
    if j then let _ ← s1.counterPa i.c i.own i.ua
    if 64 ≤ i.g.outb.length then pure (s1.retry i)
    else
      let b : Batch := { seq := i.g.seq + 1#32, ids := i.g.unsealed, j := if j then some (BitVec.ofNat 64 i.ua) else none }
      let s2 := s1.updGrp i.id fun g =>
        let g1 := { g with seq := g.seq + 1#32, outb := g.outb ++ [b], unsealed := [] }
        if v.dst = 8 then g1 else g1.setS (v.dst - 0x30) (g.seq + 1#32)
      pure s2.closeBatches

/-- Batch `b` is among those that `cwait` with N waits for (R308). -/
def batchUpTo (n : Nat) (b : Batch) : Bool := decide ((n + 256 - b.seq.toNat % 256) % 256 < 128)

/-- Meaning of `cwait` (R308): the wait is made at the boundary that follows. -/
def execCwait (w : FS) (s : State) : Host.Outcome State Fault Refusal :=
  let v := w.view 0x1A6
  runWord { sh := shCwait v } v s fun i s1 =>
    .ok (s1.endWait i (.batch (natBit v.func 8) (natBits v.func 0 8)))

end Sys2Proof.Machine
end

