-- ==== Sys2Proof/Machine/CopyRun.lean ====
section
/-! DEFINITION. The copy engines at work (R297 to R299, R302, R303, R305, R306): the events of a copy from its elements to its completion,
its faults, its cancel, and the replay filters. -/

namespace Sys2Proof.Machine

/-! ### One unit of a copy -/

/-- The endpoint is an LS of a core. -/
def Endp.isLs : Endp → Bool
  | .ls _ _ _ => true
  | ep => ep.peer

/-- The path of a copy crosses the port of its chiplet (R298). -/
def Copy.crosses (c : Copy) : Bool := c.src.isLs != c.dst.isLs

/-- The issuing team with the core of the issuing group, for the window. -/
def Copy.own (c : Copy) (s : State) : Option (Team × Nat) := (s.team? c.team).map fun t => (t, c.core)

/-- The destinations that are left: one LS per core of a multicast; an LS whose team is gone takes nothing (R305). -/
def Copy.ends (c : Copy) (s : State) : List Endp :=
  match c.dst with
  | .ls t k off =>
    if c.op = .cpym then c.cores.map fun p => .ls p.2 p.1 off else if (s.team? t).isSome then [.ls t k off] else []
  | e => [e]

/-- The elements of unit u as they are read, a last block completed with padding; a block that is wholly padding and is not
converted has zero codes (R80, R297, R337). -/
def Copy.elems (c : Copy) (s : State) (x : Ctx) (u : Nat) : Except Exc (List Elem) := do
  let f := fmtsOf c.conv c.src c.dst
  let len := unitLen f.2
  let ks := ((List.range len).map fun k => u * len + k).filter fun k => decide (k < c.n)
  let xs ← ks.mapM fun k => (readElem s x (c.own s) c.src f.1 [] k).map (c.dst.markPad f.2 [] k)
  let plain := match c.conv with
    | none => true
    | some d0 => (convRecOf d0 0).identity
  if !fmtBlock f.2 then pure xs
  else
    let all := xs ++ List.replicate (32 - xs.length) (Elem.filler f.1 ((xs.headD (Elem.filler f.1 [])).sc))
    pure (if plain && xs.all Elem.pad then all.map fun e => { e with code := 0 } else all)

/-- Bytes that unit u writes to an endpoint in format f: those of its elements that are not padding there, and the scale of a block that has
one (R297, R301). -/
def unitCount (ep : Endp) (f u : Nat) (codes : Nat) : Nat :=
  let n := ((List.range codes).filter fun k => (ep.loc f [] (u * unitLen f + k)).isSome).length
  if n = 0 then 0 else (if fmtBlock f then blockHead f else 0) + (n * fmtBits f + 7) / 8

/-- Lines of memory that hold bytes of unit u at an endpoint: of its elements, and of the scale of its block (R63). -/
def Copy.lines (c : Copy) (s : State) (x : Ctx) (u : Nat) : List Nat :=
  let f := if c.op = .cpyr then c.rty else (fmtsOf c.conv c.src c.dst).2
  let n := if c.op = .cpyr then reduceBytes c.rty else elemBytes f
  let at_ := fun k : Nat => match c.op, c.dst with
    | .cpyr, .va a => [(a + u * n, n)]
    | .cpyr, _ => []
    | _, ep => match ep.loc f [] (u * unitLen f + k) with
      | some l => (l.addr, n) :: if fmtBlock f then [(l.head, blockHead f)] else []
      | none => []
  (List.range (if c.op = .cpyr then 1 else unitLen f)).flatMap fun k => (at_ k).flatMap fun p =>
    match c.dst.target s x (c.own s) p.1 p.2 .write with
    | .ok ts => ts.flatMap fun t => match t.1 with
      | .phys pa _ _ => spanLines pa t.2
      | .ls _ _ _ => []
    | .error _ => []

/-- A fault of an element. -/
def orFault {α : Type} (r : Except Exc α) : Except (Option Exc) α := r.mapError some

/-- Charges the bytes of a unit to the budget row (R345, R347): a hard cap refuses the element, a soft cap holds it. The detail of the
fault names the activity. -/
def State.chargeOr (s : State) (c : Copy) (act hub n addr : Nat) : Except (Option Exc) State :=
  match s.charge c.tenant c.bcls act hub n with
  | (.ok, s1) => .ok s1
  | (.soft, _) => .error none
  | (.hard, _) => .error (some { code := cBudgetViolation, addr := addr, detail := act })

/-- Address of the first byte of unit u at an endpoint. -/
def Endp.unitAddr (ep : Endp) (f u : Nat) : Nat :=
  match ep.loc f [] (u * unitLen f) with
  | some l => if fmtBlock f then l.head else l.addr
  | none => 0

/-- Posts the bytes of a unit to the barrier of each destination team (R297, R322). -/
def State.postBytes (s : State) (c : Copy) (n addr : Nat) : State :=
  match c.bar with
  | some b => if n = 0 then s else (c.dests s).foldl (fun s d => s.deliverBytes d.1 b n addr) s
  | none => s

/-- One unit of a copy that does not reduce (R297, R298). -/
def State.moveUnit (s : State) (c : Copy) (x : Ctx) (die unit u : Nat) : Except (Option Exc) State := do
  let f := fmtsOf c.conv c.src c.dst
  let xs ← orFault (c.elems s x u)
  let o := convUnit (c.conv.map fun d0 => convRecOf d0 0) (u * unitLen f.2) xs
  let addr := c.dst.unitAddr f.2 u
  let n := unitCount c.dst f.2 u o.codes.length
  let s1 ← s.chargeOr c actCopy (chamberOf die) (n * max 1 c.cores.length) addr
  let s2 ← if c.crosses && c.conv.isSome then s1.chargeOr c actSiphon (chamberOf (coreDie c.core)) n addr else .ok s1
  let s3 := if o.sat = 0 ∧ o.nar = 0 then s2
    else if c.crosses then s2.countAt (coreDie c.core) 0x200 o.sat o.nar else s2.countAt die unit o.sat o.nar
  let s4 ← (c.ends s3).foldlM (fun s ep => orFault (unitWrites s x (c.own s) ep f.2 [] (u * unitLen f.2) o)) s3
  pure (s4.postBytes c n addr)

/-- The site at which a target's atomics from a core are applied, by a number of the model's own: slices 0 to 191, the Casium Link and the
UALink port of the core's chamber die, LS units (R249, R292, R303). -/
def State.siteOf (s : State) (core : Nat) : Target → Nat
  | .phys pa _ _ =>
    match regionOf s.pkg.hbmsplit pa with
    | .host => 192 + chamberOf (coreDie core)
    | .peer => 194 + chamberOf (coreDie core)
    | _ => homeSlice s.pkg.hbmsplit pa
  | .ls _ core _ => 1024 + core

/-- Ticks of 16 µs (R303). -/
def replayTicks : Nat := 64000

/-- The live entries of the replay filter of a site. -/
def State.replays (s : State) (site : Nat) : List Replay :=
  s.eng.replay.filter fun r => r.site == site && decide (s.ptp < r.tick + replayTicks)

/-- One element of a reducing copy at its site (R302, R303): absorbed by the replay filter, or applied and remembered. Its conversion on the way
counts either way (R84, R298). -/
def State.reduceUnit (s : State) (c : Copy) (x : Ctx) (die unit u : Nat) : Except (Option Exc) State := do
  let n := reduceBytes c.rty
  let base := match c.src with
    | .va a => a
    | .ls _ _ a => a
    | .shape _ => 0
  let dbase := match c.dst with
    | .va a => a
    | .ls _ _ a => a
    | .shape _ => 0
  let w ← match c.conv with
    | none => (orFault (c.src.read s x (c.own s) (base + u * n) n)).map fun bs => ({ codes := [leNat bs], scale := [], sat := 0, nar := 0 } : UnitOut)
    | some d0 => (orFault (readElem s x (c.own s) c.src (convRecOf d0 0).sfmt [] u)).map fun e => convUnit (some (convRecOf d0 0)) u [e]
  let addr := dbase + u * n
  match c.ends s with
  | [] => pure s
  | ep :: _ =>
    let ts ← orFault (ep.target s x (c.own s) addr n .atomic)
    match ts with
    | [] => pure s
    | (t, _) :: _ =>
      if !s.reduceOk c.rop c.rty t then .error (some { code := cAtomicUnsupported, addr := addr })
      match s.lineEvent t n with
      | some code => .error (some { code := code, addr := addr })
      | none =>
        let site := s.siteOf c.core t
        let live := s.replays site
        let counted := fun (s : State) => if w.sat = 0 ∧ w.nar = 0 then s
          else if c.crosses then s.countAt (coreDie c.core) 0x200 w.sat w.nar else s.countAt die unit w.sat w.nar
        if live.any fun r => r.ctx == c.ctx && r.opid == c.opid && r.n == u then pure (counted s)
        else if 4096 ≤ live.length then .error none
        else
          let s1 ← s.chargeOr c actCopy (chamberOf die) n addr
          let s2 ← if c.crosses && c.conv.isSome then s1.chargeOr c actSiphon (chamberOf (coreDie c.core)) n addr else .ok s1
          let s2 ← if site < 192 then s2.chargeOr c actAtom (site / 96) 1 addr else .ok s2
          let s3 := counted s2
          let old := leNat (s3.readTarget t n)
          let s4 := s3.writeTarget t (leBytes n (atomOp c.rop c.rty old (w.codes.headD 0)))
          let e : Replay := { site := site, ctx := c.ctx, opid := c.opid, n := u, tick := s.ptp }
          pure ((s4.updEng fun g => { g with replay := e :: g.replay }).postBytes c n addr)

/-- The issuing group's copies have written lines, which its core's L1 may still hold as they were (R269). -/
def State.noteWrote (s : State) (c : Copy) (lines : List Nat) : State :=
  if lines.isEmpty then s else s.updGrp (c.team, c.grp) fun g => { g with wrote := addLines lines g.wrote }

/-- Performs unit u of a copy on an engine; an error of `none` means that it waits: for a soft cap, a full replay filter, room for lossless
events (R362), the end of a commit of ranges or a migration (R219, R231), or the restore of a team whose LS, tables or window it uses (R299). -/
def State.performUnit (s : State) (c : Copy) (die unit u : Nat) : Except (Option Exc) State :=
  match s.ctx? c.ctx with
  | none => .error none
  | some x =>
    if s.engineHeld die unit c.ctx || s.frozenCtx c.ctx || c.uses.any s.away then .error none
    else if c.op = .cpyr then (s.reduceUnit c x die unit u).map fun t => t.noteWrote c (c.lines s x u)
    else if c.op = .cpys ∧ u + 1 = c.units then orFault (s.writeStamp c die unit)
    else (s.moveUnit c x die unit u).map fun t => t.noteWrote c (c.lines s x u)

/-! ### Commands and their progress records (R292, R299) -/

/-- The next index at or after p that is not in the bitmap. -/
def skipDone : Nat → Nat → List Nat → Nat
  | 0, p, _ => p
  | k + 1, p, ab => if ab.contains p then skipDone k (p + 1) ab else p

/-- A unit has been performed. -/
def Cmd.mark (k : Cmd) (u : Nat) : Cmd :=
  if u = k.p then
    let p := skipDone k.above.length (k.p + 1) k.above
    { k with p := p, above := k.above.filter fun x => decide (p < x) }
  else { k with above := k.above ++ [u] }

/-- The unit is one that the engine may perform now: not yet performed, within 64 of P, and the command not held. -/
def Cmd.due (k : Cmd) (u : Nat) : Bool :=
  decide (k.p ≤ u) && decide (u < k.hi) && decide (u ≤ k.p + 64) && !k.above.contains u && k.held.isNone

def State.cmd? (s : State) (die unit slot : Nat) : Option Cmd :=
  s.eng.cmds.find? fun k => k.die == die && k.unit == unit && k.slot == slot
def State.updCmd (s : State) (die unit slot : Nat) (f : Cmd → Cmd) : State :=
  s.updEng fun e => { e with cmds := e.cmds.map fun k => if k.die == die && k.unit == unit && k.slot == slot then f k else k }

/-- Records a performed unit; a command that is done leaves its queue. -/
def State.unitDone (s : State) (k : Cmd) (u : Nat) : State :=
  let k1 := k.mark u
  if k1.p = k1.hi then
    ((s.updEng fun e => { e with cmds := e.cmds.filter fun x => !(x.die == k.die && x.unit == k.unit && x.slot == k.slot) }).placeAll).testDrained
  else s.updCmd k.die k.unit k.slot fun _ => k1

/-- The command that has only the stamp of its `cpys` left, every other unit of the copy being performed (R306). -/
def State.stampCmd (s : State) (c : Copy) : Option Cmd :=
  if c.op = .cpys ∧ c.placed = c.units then
    match s.eng.cmds.filter fun k => k.copy == c.id with
    | [k] => if k.p + 1 = c.units ∧ k.held.isNone then some k else none
    | _ => none
  else none

/-- The unit is the stamp of a copy and may not be written yet. -/
def State.stampEarly (s : State) (c : Copy) (u : Nat) : Bool :=
  c.op == .cpys && decide (u + 1 = c.units) && (s.stampCmd c).isNone

/-- Writes the stamp in the step that performs the last element, unless it meets a fault (R306). -/
def State.tryStamp (s : State) (id : Nat) : State :=
  match s.copy? id with
  | none => s
  | some c =>
    match s.stampCmd c with
    | none => s
    | some k =>
      match s.performUnit c k.die k.unit (c.units - 1) with
      | .ok s1 => s1.unitDone k (c.units - 1)
      | .error _ => s

/-- An engine performs unit u of the command in a slot, of a copy that `p` admits; nothing happens where it cannot, or where its die is gone or has no
power (R23). -/
def State.performEv (s : State) (die unit slot u : Nat) (p : Copy → Bool) : State :=
  match s.cmd? die unit slot with
  | none => s
  | some k =>
    match s.copy? k.copy with
    | none => s
    | some c =>
      if !s.engineUp die || !k.due u || !p c || s.stampEarly c u then s
      else match s.performUnit c die unit u with
        | .ok s1 => (s1.unitDone k u).tryStamp c.id
        | .error _ => s

/-! ### Cancel, faults, completion -/

/-- Bits of cores in their cluster. -/
def coreMask (cores : List Nat) : Nat := (((List.range 4).filter fun k => cores.any fun c => coreInCluster c == k).map fun k => 2 ^ k).sum

/-- Logs the destinations that a multicast has lost (R305). -/
def State.logMcast (s : State) (id : Nat) : State :=
  match s.copy? id with
  | none => s
  | some c =>
    if c.told then s
    else
      let a := match c.dst with
        | .ls _ _ off => off
        | _ => 0
      let bytes := recordBytes cMcastPartial 0 0 c.grp c.ctx (coreMask c.failed + 16 * coreMask c.dropped) 0 c.pc a 0#64
      ((s.record c.ctx bytes).echoFault c.ctx cMcastPartial c.grp none).updCopy id fun c => { c with told := true }

/-- Cancels a copy (R299): destinations that a multicast has lost before are logged (R305); abort postings, tiles EMPTY, its batch counts it
complete, and the cancel is logged. -/
def State.cancelCopy (s : State) (id : Nat) : State :=
  match s.copy? id with
  | none => s
  | some c =>
    let s1 := (c.dests s).foldl (fun s d => s.endDest c d true .empty) (s.logMcast id)
    let s2 := s1.dropCopies fun x => x.id == id
    ((s2.logFault c.ctx cCopyFault 0x40000 0).closeBatches).testDrained

/-- Faults that cancel a command at once (R299). -/
def cancels (code : Nat) : Bool := code == cUncorrectable || code == cPoison || code == cLinkDown || code == cBudgetViolation

/-- An uncorrectable error in a line that an engine read marks the line poisoned (R211). -/
def State.poisonAt (s : State) (c : Ctx) (own : Option (Team × Nat)) (va : Nat) : State :=
  match s.translate c own va 1 .read true with
  | .ok t => s.markPoison t 1
  | .error _ => s

/-- The record of an element fault, and the command's hold or cancel (R299). -/
def State.faultUnit (s : State) (k : Cmd) (c : Copy) (x : Exc) : State :=
  let lanes : W64 := BitVec.ofNat 64 (k.die * 2 ^ 24 + k.unit * 2 ^ 12 + k.slot)
  let s1 := (s.record c.ctx (recordBytes cCopyFault 1 1 c.grp c.ctx (0x20000 + x.code) 0 0#64 x.addr lanes)).echoFault c.ctx cCopyFault c.grp none
  if cancels x.code then
    let s2 := if x.code = cBudgetViolation then
        s1.hardCap c.tenant c.bcls x.detail (chamberOf k.die) else s1
    let s3 := match s2.ctx? c.ctx with
      | some cx => if x.code = cUncorrectable then s2.poisonAt cx (c.own s2) x.addr else s2
      | none => s2
    s3.cancelCopy c.id
  else s1.updCmd k.die k.unit k.slot fun k => { k with held := some x }

/-- Meaning of COPY_ELEMENT_PERFORMED: unit `n` of the command in a slot of an engine (R297, R322). -/
def execCopyElementPerformed (die unit slot n : Nat) (s : State) : Host.Outcome State Fault Refusal :=
  .next (s.performEv die unit slot n fun c => c.op != .cpyr)

/-- Meaning of REDUCING_ELEMENT_ARRIVAL (R302, R303). -/
def execReducingElementArrival (die unit slot n : Nat) (s : State) : Host.Outcome State Fault Refusal :=
  .next (s.performEv die unit slot n fun c => c.op == .cpyr)

/-- A die whose link has failed is reached another way (R393). -/
def State.dieRerouted (s : State) (d : Nat) : Bool := (s.die? d).any Die.rerouted

/-- Meaning of PACKET_RETRY_RETURN (R303, R393): a unit between a die whose link has failed and the rest is sent again; one that was performed
is absorbed. -/
def execPacketRetryReturn (die unit slot n : Nat) (s : State) : Host.Outcome State Fault Refusal :=
  .next (s.performEv die unit slot n fun c => s.dieRerouted die || s.dieRerouted (coreDie c.core))

/-- Meaning of COPY_ELEMENT_FAULT (R299): unit `n` meets the fault that its access meets, or LINK_DOWN. -/
def execCopyElementFault (die unit slot n : Nat) (link : Bool) (s : State) : Host.Outcome State Fault Refusal :=
  .next (match s.cmd? die unit slot with
    | none => s
    | some k =>
      match s.copy? k.copy with
      | none => s
      | some c =>
        if !s.engineUp die || !k.due n || s.stampEarly c n then s
        else if link then s.faultUnit k c { code := cLinkDown, addr := c.dst.unitAddr (fmtsOf c.conv c.src c.dst).2 n }
        else match s.performUnit c die unit n with
          | .error (some x) => s.faultUnit k c x
          | _ => s)

/-- Meaning of COPY_COMPLETE (R297, R305, R307): every unit is performed; a multicast that has lost destinations is logged, tiles become READY,
and batches may complete. -/
def execCopyComplete (id : Nat) (s : State) : Host.Outcome State Fault Refusal :=
  .next (match s.copy? id with
    | none => s
    | some c =>
      if c.placed < c.units ∨ (s.eng.cmds.any fun k => k.copy == id) = true then s
      else
        let s1 := (s.logMcast id).setTiles c .ready
        (s1.updEng fun e => { e with copies := e.copies.filter fun x => x.id != id }).closeBatches)

/-- Meaning of MCAST_DESTINATION_FAILURE (R305): a destination of a multicast that meets UNCORRECTABLE in its LS fails, with an abort
posting and its tile EMPTY; with no core given, what killed or ended teams have lost is logged. -/
def execMcastDestinationFailure (copy : Nat) (core : Option Nat) (s : State) : Host.Outcome State Fault Refusal :=
  .next (match s.copy? copy with
    | none => s
    | some c =>
      match core.bind fun k => c.cores.find? fun p => p.1 == k with
      | none => s.logMcast copy
      | some p =>
        let s2 := s.endDest c (p.2, p.1 - s.seatOf p.2) true .empty
        ((s2.updCopy copy fun c => { c with cores := c.cores.filter fun q => q.1 != p.1, failed := c.failed ++ [p.1], told := false }).logMcast
          copy).dropUnreached)

/-- Meaning of REPLAY_FILTER_EXPIRY (R303): entries older than 16 µs leave the filter of a site. -/
def execReplayFilterExpiry (site : Nat) (s : State) : Host.Outcome State Fault Refusal :=
  .next (s.updEng fun e => { e with replay := e.replay.filter fun r => !(r.site == site && decide (r.tick + replayTicks ≤ s.ptp)) })

/-- A held command of the context in a slot. -/
def State.heldCmd (s : State) (ctx die unit slot : Nat) : Option Cmd :=
  (s.cmd? die unit slot).filter fun k => k.held.isSome && (s.copy? k.copy).any fun c => c.ctx == ctx

/-- Meaning of CTXCMD_ENGRESUME (R299, R371): a held command of the context goes on from its progress record. -/
def execCtxcmdEngresume (ctx die unit slot : Nat) (s : State) : Host.Outcome State Fault Refusal :=
  .next (match s.heldCmd ctx die unit slot with
    | some _ => s.updCmd die unit slot fun k => { k with held := none }
    | none => s)

/-- Meaning of CTXCMD_ENGCANCEL (R299, R371). -/
def execCtxcmdEngcancel (ctx die unit slot : Nat) (s : State) : Host.Outcome State Fault Refusal :=
  .next (match s.heldCmd ctx die unit slot with
    | some k => s.cancelCopy k.copy
    | none => s)

end Sys2Proof.Machine
end

