-- ==== Sys2Proof/Machine/Queues.lean ====
section
/-! DEFINITION. Hardware queues and their words (R272, R273, R288 to R291, R310), and `jdec` and `jset` (R281, R289). -/

namespace Sys2Proof.Machine

/-! ### Queue headers (R273) -/

/-- The fields of a queue header. -/
structure QHdr where
  base : Nat
  kind : Nat
  cap : Nat
  tenant : Nat
  prio : Nat
  bcls : Nat
  head : Nat
  tail : Nat
deriving DecidableEq, Repr

/-- Reading of the 64 bytes of a header. -/
def qhdrOf (bs : List Byte) : QHdr :=
  let d1 := fieldAt bs 8 8
  { base := fieldAt bs 0 8, kind := natBits d1 56 8, cap := 2 ^ natBits d1 51 5, tenant := natBits d1 32 16, prio := natBits d1 29 3,
    bcls := natBits d1 26 3, head := fieldAt bs 16 8, tail := fieldAt bs 24 8 }

/-- TAIL − HEAD, modulo 2^64. -/
def QHdr.count (h : QHdr) : Nat := (h.tail + 2 ^ 64 - h.head) % 2 ^ 64

/-- KIND codes (R273). -/
def kLaunch : Nat := 1
def kTask : Nat := 2
def kWork : Nat := 3
def kQuant : Nat := 4

/-- The lowest byte of a run of n bytes at offset o that is not zero, as a fault's detail (R431). -/
def nonzeroByte (bs : List Byte) (o n : Nat) : Option Nat := ((List.range n).map fun k => o + k).find? fun k => bs.getD k 0#8 != 0#8

/-- Offsets that a test of some fields finds bad. -/
def badOfs (xs : List (Bool × Nat)) : List Nat := (xs.filter Prod.fst).map Prod.snd

/-- Offset of the first offending field of a header (R273, R431). -/
def badHdr (bs : List Byte) : Option Nat :=
  let h := qhdrOf bs
  let d1 := fieldAt bs 8 8
  let capl := natBits d1 51 5
  let resv := natBits d1 0 26
  (badOfs [(h.base % 64 != 0, 0), (resv != 0, lowByte 4 8 resv), (natBits d1 48 3 != 1, 14), (capl == 0 || decide (20 < capl), 14),
    (h.kind == 0 || decide (4 < h.kind), 15), (decide (h.cap < h.count), 24),
    (if h.kind = kWork then fieldAt bs 32 8 % 64 != 0 else fieldAt bs 32 8 != 0, 32)] ++
    (nonzeroByte bs 40 24).toList).min?

/-- The directory lists a header VA for a context (R272, R404). -/
def State.registered (s : State) (ctx va : Nat) : Bool :=
  va != 0 && s.pkg.mgmt.qdir != 0 &&
    (List.range 4096).any fun i => s.mem.rd (s.pkg.mgmt.qdir + 16 * i) 8 == va && s.mem.rd (s.pkg.mgmt.qdir + 16 * i + 8) 1 == ctx

/-- The PA of an HBM address that a queue operation may use (R290). -/
def State.queuePa (s : State) (c : Ctx) (va n : Nat) : Except Exc Nat := do
  if inWindow va then .error { code := cAtomicUnsupported, addr := va }
  match ← s.translate c none va n .atomic false with
  | .ls _ _ _ => .error { code := cAtomicUnsupported, addr := va }
  | .phys pa _ _ =>
    if !(regionOf s.pkg.hbmsplit pa).hbm then .error { code := cAtomicUnsupported, addr := va }
    match s.lineEvent (.phys pa false false) n with
    | some code => .error { code := code, addr := va }
    | none => pure pa

/-- Opening of a queue: the PA of its header and its fields, for an operation that admits some KINDs (R273, R290). DESIGN CHOICE: a KIND that
the operation does not admit is looked at after the validity of the header, and its detail is 15, the offset of KIND (log entry 65). -/
def State.openQueue (s : State) (c : Ctx) (va : Nat) (kinds : List Nat) : Except Exc (Nat × QHdr) := do
  if va % 128 ≠ 0 then .error { code := cAlignment, addr := va }
  let pa ← s.queuePa c va 64
  let bad := fun d : Nat => ({ code := cQueueDesc, addr := va, detail := d } : Exc)
  if !s.registered c.num va then .error (bad 0x40)
  let bs := s.mem.bytes pa 64
  match badHdr bs with
  | some o => .error (bad o)
  | none =>
    let h := qhdrOf bs
    if !kinds.contains h.kind then .error (bad 15)
    pure (pa, h)

/-- The same for the scheduler, for the quantisation engine and for the enqueue into TQ, to which R290 does not apply: a header that is
misaligned, outside HBM or on a PACKED page is an invalid header (R273; log entry 65). -/
def State.openOwn (s : State) (c : Ctx) (va : Nat) (kinds : List Nat) : Except Exc (Nat × QHdr) :=
  (s.openQueue c va kinds).mapError fun x =>
    if x.code = cAlignment ∨ x.code = cAtomicUnsupported ∨ x.code = cPacked then { code := cQueueDesc, addr := va } else x

/-- VA of item number i of a ring. -/
def QHdr.item (h : QHdr) (i : Nat) : Nat := h.base + 64 * (i % h.cap)

/-! ### Task items (R276) -/

/-- VA of the counter that gates a task record at a VA. -/
def taskCtr (va : Nat) (bs : List Byte) : Nat := if fieldAt bs 48 8 = 0 then va + 16 else fieldAt bs 48 8

/-- A task that enters its queue with its counter at zero is ready at once. -/
def State.noteTask (s : State) (c : Ctx) (va : Nat) (bs : List Byte) : State :=
  match s.counterPa c none (taskCtr va bs) with
  | .ok pa =>
    if s.mem.rd pa 4 = 0 ∧ !s.sch.ready.contains pa then s.updSch fun x => { x with ready := x.ready ++ [pa] } else s
  | .error _ => s

/-! ### Enqueue and take (R289) -/

/-- Writes a 64-bit result to a uniform pair, or nothing for 0x08. -/
def Group.setPair (g : Group) (dst x : Nat) : Group :=
  if dst = 8 then g else (g.setS (dst - 0x30) (lo32 x)).setS (dst - 0x2F) (hi32 x)

/-- The value of sD of a group that waits in `qdeq` is on its way (R289). -/
def Group.itemNum (g : Group) (dst num : Nat) : Group :=
  { g with resv := g.resv.map fun r =>
      if r.vals.isEmpty && r.uni == some (dst - 0x30) then { r with vals := [BitVec.ofNat 64 num] } else r }

/-- A group that waits in `qdeq` gets no item: what the word reserved is released (R112). -/
def Group.noItemNum (g : Group) : Group := { g with resv := g.resv.filter fun r => !r.vals.isEmpty }

/-- An item reaches a waiting group: LS, the acquire, and the value of sD, which arrives after them, and the wait ends (R289). -/
def State.deliverItem (s : State) (w : Waiter) (item : List Byte) (num : Nat) : State :=
  let s0 := s.unwait fun t g => t == w.team && g == w.grp
  match s0.team? w.team with
  | none => s0
  | some t =>
    let s1 := (s0.lsWrite w.team (t.coreOf w.grp) w.ls item).acquire t (t.coreOf w.grp) 4
    (s1.disarmQ w.team w.grp).updGrp (w.team, w.grp) fun g => { g.itemNum w.dst num with wait := .none }

/-- Enqueues an item: the item number, or none if the queue is full (R289). -/
def State.enqueue (s : State) (c : Ctx) (pa : Nat) (h : QHdr) (item : List Byte) : Except Exc (Option Nat × State) := do
  if h.count = h.cap then pure (none, s)
  else
    let slot ← s.queuePa c (h.item h.tail) 64
    let next := (h.tail + 1) % 2 ^ 64
    match if h.kind = kWork ∧ h.count = 0 then s.waiters.find? fun w => w.hdr == pa else none with
    | some w =>
      let s1 := (s.storeNat (pa + 16) 8 next).storeNat (pa + 24) 8 next
      pure (some h.tail, s1.deliverItem w item h.tail)
    | none =>
      let s1 := (s.store slot item).storeNat (pa + 24) 8 next
      pure (some h.tail, if h.kind = kTask then s1.noteTask c (h.item h.tail) item else s1)

/-- Takes item HEAD of a WORK queue: its number and bytes, or none if the queue is empty (R289). -/
def State.takeItem (s : State) (c : Ctx) (pa : Nat) (h : QHdr) : Except Exc (Option (Nat × List Byte) × State) := do
  if h.count = 0 then pure (none, s)
  else
    let slot ← s.queuePa c (h.item h.head) 64
    pure (some (h.head, s.mem.bytes slot 64), s.storeNat (pa + 16) 8 ((h.head + 1) % 2 ^ 64))

/-! ### Words (R288 to R290) -/

/-- All ones. -/
def noItem : Nat := 2 ^ 64 - 1

/-- The LS offset of a queue word against the issuing core's LS (R290). -/
def checkItemLs (i : Iss) : Except Exc Unit :=
  if i.ub % 64 ≠ 0 then .error { code := cAlignment, addr := i.ub }
  else if i.t.lsBytes < i.ub + 64 then .error { code := cLsRange, addr := i.ub }
  else .ok ()

/-- Uniform registers that DST names, as touched. -/
def pairTouch (v : View) : Touch := if 0x30 ≤ v.dst then [(v.dst, true)] else []

/-- The slot of the ring that a queue word uses, by its VA: item `at_` of the header, where that opens (R273, R289). -/
def slotVas (kinds : List Nat) (at_ : QHdr → Nat) (i : Iss) (s : State) : List Nat :=
  match s.openQueue i.c i.ua kinds with
  | .ok q => [q.2.item (at_ q.2)]
  | .error _ => []

/-- What an enqueue has written, for the L1 of the core that made it (R257): the slot, HEAD and TAIL, and the WLIST area of the queue. -/
def State.ringTouch (s : State) (t : Team) (core slot hdr : Nat) (area : List (Nat × Nat)) : State :=
  ((slot, 64) :: (hdr + 16, 16) :: area).foldl (fun s p => s.l1Touch t.kd.fusel1 core p.1 p.2) s

/-- The WLIST spans of the waiters of a queue. -/
def State.waitSpans (s : State) (hdr : Nat) : List (Nat × Nat) := (s.waiters.filter fun w => w.hdr == hdr).flatMap Waiter.area

/-- `qenq`, `spawn` and `qnt`: the group stalls for the reply (R289, R310). -/
def runEnqueue (v : View) (kinds : List Nat) (s : State) : Host.Outcome State Fault Refusal :=
  runWord { sh := shQueue v, touch := fun _ => pairTouch v, vas := fun i => [i.ua], more := slotVas kinds QHdr.tail } v s fun i s1 => do
    let q ← s1.openQueue i.c i.ua kinds
    let slot ← s1.queuePa i.c (q.2.item q.2.tail) 64
    checkItemLs i
    let hub := homeSlice s1.pkg.hbmsplit q.1 / 96
    if q.2.kind = kLaunch ∧ s1.chargeAns q.2.tenant q.2.bcls actLaunch hub 1 = .hard then
      pure ((s1.hardCap q.2.tenant q.2.bcls actLaunch hub).refuse i { code := cBudgetViolation })
    else
      let r ← s1.enqueue i.c q.1 q.2 (s1.lsBytes i.id.1 i.core i.ub 64)
      let s2 := if r.1.isSome then r.2.ringTouch i.t i.core slot q.1 (s1.waitSpans q.1) else r.2
      -- a release at `.p` of what the group did before
      pure ((s2.updGrp i.id fun g => g.perform.setPair v.dst (r.1.getD noItem)).stall i)

/-- Meaning of `qenq` (R289). -/
def execQenq (w : FR) (s : State) : Host.Outcome State Fault Refusal := runEnqueue (w.view .fr 0x1E0) [kTask, kWork] s
/-- Meaning of `spawn` (R289). -/
def execSpawn (w : FR) (s : State) : Host.Outcome State Fault Refusal := runEnqueue (w.view .fr 0x1E5) [kLaunch] s
/-- Meaning of `qnt` (R310). -/
def execQnt (w : FR) (s : State) : Host.Outcome State Fault Refusal := runEnqueue (w.view .fr 0x1E6) [kQuant] s

/-- The checks of `qdeq` and `qtry`, and the item that they take, if there is one. -/
def takeWord (i : Iss) (s1 : State) : Except Exc ((Nat × QHdr) × Option (Nat × List Byte) × State) := do
  let q ← s1.openQueue i.c i.ua [kWork]
  let _ ← s1.queuePa i.c (q.2.item q.2.head) 64
  checkItemLs i
  let r ← s1.takeItem i.c q.1 q.2
  pure (q, r.1, r.2)

/-- An item taken at once: LS, the acquire at `.p`, and the reserved destination (R289). -/
def State.receive (s : State) (i : Iss) (num : Nat) (item : List Byte) : State :=
  ((s.lsWrite i.id.1 i.core i.ub item).acquire i.t i.core 4).updGrp i.id fun g =>
    g.later i.v true true (fun _ => true) 0#64 fun _ => num

/-- Meaning of `qtry` (R289). -/
def execQtry (w : FR) (s : State) : Host.Outcome State Fault Refusal :=
  let v := w.view .fr 0x1E2
  runWord { sh := shQueue v, touch := fun _ => pairTouch v, vas := fun i => [i.ua], more := slotVas [kWork] QHdr.head } v s fun i s1 => do
    let r ← takeWord i s1
    match r.2.1 with
    | some (num, item) => pure (r.2.2.receive i num item)
    | none => pure (r.2.2.updGrp i.id fun g => g.later v true true (fun _ => true) 0#64 fun _ => noItem)

/-- The spans of memory in which the WLIST area of a queue lies, by its VA; none where it is not to be written (R273; log entry 38). -/
def State.waitArea (s : State) (c : Ctx) (va : Nat) : List (Nat × Nat) :=
  let parts := (List.range 8).map fun i => (s.queuePa c (va + 64 * i) 64).toOption
  if parts.all Option.isSome then (parts.filterMap id).map fun pa => (pa, 64) else []

/-- The VAs of the WLIST area of a queue that a registration translates: none where the area is not to be written, or the list is full. -/
def State.areaVas (s : State) (c : Ctx) (pa : Nat) : List Nat :=
  let a := s.mem.rd (pa + 32) 8
  if (s.waiters.filter fun w => w.hdr == pa).length < 64 ∧ s.waitArea c a ≠ [] then [a, a + 511] else []

/-- The slot of a `qdeq`, and where the queue is empty the WLIST area that the group enters (R289). -/
def deqVas (i : Iss) (s : State) : List Nat :=
  slotVas [kWork] QHdr.head i s ++ match s.openQueue i.c i.ua [kWork] with
    | .ok q => if q.2.count = 0 then s.areaVas i.c q.1 else []
    | .error _ => []

/-- Registers a group in the wait list of a queue, or arms it in the roost when the list holds 64 (R289). -/
def State.register (s : State) (c : Ctx) (t : Team) (g : Group) (pa ls dst : Nat) : State :=
  if (s.waiters.filter fun w => w.hdr == pa).length < 64 then
    let area := s.waitArea c (s.mem.rd (pa + 32) 8)
    area.foldl (fun s p => s.l1Touch t.kd.fusel1 (t.coreOf g.idx) p.1 p.2)
      (s.setWaiters (s.waiters ++ [{ hdr := pa, team := t.id, grp := g.idx, ls := ls, dst := dst, area := area }]))
  else s.arm .qwait t g pa

/-- Meaning of `qdeq` (R110, R289): with no item, the group waits at the boundary that follows, with sD reserved and its window open. -/
def execQdeq (w : FR) (s : State) : Host.Outcome State Fault Refusal :=
  let v := w.view .fr 0x1E1
  runWord { sh := shQueue v, touch := fun _ => pairTouch v, vas := fun i => [i.ua], more := deqVas } v s fun i s1 => do
    let r ← takeWord i s1
    match r.2.1 with
    | some (num, item) => pure ((r.2.2.endClause i id).receive i num item)
    | none =>
      let s2 := (r.2.2.endWait i (.qdeq i.ua i.ub v.dst)).register i.c i.t i.g r.1.1 i.ub v.dst
      pure (if v.dst = 8 then s2
        else s2.updGrp i.id fun g =>
          g.reserve { qi := none, wide := true, named := [], uni := some (v.dst - 0x30), uniN := 2, mask := 0#64, vals := [], rem := v.look,
                      arrived := false, load := true })

/-- A group that waits in `qdeq` has nothing to look at: it is in the wait list of a queue that is still empty, or no wake has reached the roost entry
or the overflow bit that it holds for the queue (R289, R330). -/
def State.deqRests (s : State) (id : Nat × Nat) : Bool :=
  (s.waiters.any fun w => w.team == id.1 && w.grp == id.2 && (qhdrOf (s.mem.bytes w.hdr 64)).count == 0) ||
  (s.roost.any fun e => e.team == id.1 && e.grp == id.2 && e.kind == .qwait && !e.fired) ||
  s.ovf.any fun o => o.team == id.1 && o.grp == id.2 && !o.fired && !s.ovfMonitor o.slice id.1 id.2

/-- A group that waits in `qdeq` ends its wait with a fault, taken at its boundary. -/
def State.failDeq (s : State) (id : Nat × Nat) (x : Exc) : State :=
  ((s.unwait fun t g => t == id.1 && g == id.2).disarmQ id.1 id.2).updGrp id fun g =>
    { g.noItemNum.defer x (g.wpc + BitVec.ofNat 64 (8 * g.wword)) with wait := .none }

/-- A group that waits in `qdeq` tries again: an item ends the wait, and an empty queue leaves or renews its place (R289). A fault that its
header meets by now is taken at its boundary. Its translations stall at a freeze, and wait for the walks that they need (R219, R221, R231). -/
def State.retryDeq (s : State) (id : Nat × Nat) : State :=
  match s.team? id.1, s.grp? id with
  | some t, some g =>
    match g.wait, s.ctx? t.ctx with
    | .qdeq va ls dst, some c =>
      let core := t.coreOf id.2
      let mine := fun w : Waiter => w.team == id.1 && w.grp == id.2
      if s.deqRests id || s.frozenVa c.num va then s
      else match s.openQueue c va [kWork] with
      | .error x =>
        let pages := s.walkPages c core [va]
        match s.leafWalks c core x pages with
        | [] => (s.failDeq id x).countWalks id x pages
        | leaves => s.startWalks c core id leaves
      | .ok q =>
        let turn := q.2.count != 0 && (s.waiters.find? fun w => w.hdr == q.1).all mine
        let armed := s.waiters.any mine || s.ovf.any fun o => o.team == id.1 && o.grp == id.2 && !o.fired && o.slice == s.sliceOf (q.1 / 128)
        let vas := va :: if turn then [q.2.item q.2.head] else if armed then [] else s.areaVas c q.1
        let pages := s.walkPages c core vas
        if vas.any (s.frozenVa c.num) then s
        else if pages ≠ [] then s.startWalks c core id pages
        else
          let s1 := s.coreFills c core id vas
          if turn then
            match s1.takeItem c q.1 q.2 with
            | .ok (some (num, item), s2) => s2.deliverItem { hdr := q.1, team := id.1, grp := id.2, ls := ls, dst := dst, area := [] } item num
            | .ok (none, _) => s1
            | .error x => s1.failDeq id x
          else if armed then s1 else s1.register c t g q.1 ls dst
    | _, _ => s
  | _, _ => s

/-- Meaning of `jdec` (R281, R289). -/
def execJdec (w : FR) (s : State) : Host.Outcome State Fault Refusal :=
  let v := w.view .fr 0x1E3
  runWord { sh := shQueue v, vas := fun i => [i.ua] } v s fun i s1 => do
    let pa ← s1.counterPa i.c i.own i.ua
    -- a release at `.p` of what the group did before, whose own copy of the line is updated (R257, R289)
    pure (((s1.updGrp i.id Group.perform).decrementPa i.c.num i.ua pa i.ub).l1Touch i.t.kd.fusel1 i.core pa 4)

/-- Meaning of `jset` (R289). -/
def execJset (w : FR) (s : State) : Host.Outcome State Fault Refusal :=
  let v := w.view .fr 0x1E4
  runWord { sh := shQueue v, vas := fun i => [i.ua] } v s fun i s1 => do
    let pa ← s1.counterPa i.c i.own i.ua
    let old := s1.mem.rd pa 4
    let s2 := (s1.storeNat pa 4 i.ub).l1Touch i.t.kd.fusel1 i.core pa 4
    pure (if i.ub = 0 ∧ old ≠ 0 then s2.notice i.c.num i.ua pa else s2)

end Sys2Proof.Machine
end

