-- ==== Sys2Proof/Machine/Kernels.lean ====
section
/-! DEFINITION. Kernel descriptors, what a team needs of its core, binding to a class, carry tables and inheritance descriptors
(R34 to R36, R45 to R47, R278, R285), and the reading and writing of records by the scheduler (R274, R430). -/

namespace Sys2Proof.Machine

/-! ### Records in memory -/

/-- Translation of a long span, granule by granule; a fault carries the VA of its part. -/
def State.spanOf (s : State) (c : Ctx) (own : Option (Team × Nat)) (kind : Kind) : Nat → Nat → Nat → Except Exc (List (Target × Nat))
  | 0, _, _ => .ok []
  | fuel + 1, va, n =>
    if n = 0 then .ok []
    else do
      let cut := min n (65536 - va % 65536)
      let t ← s.translate c own va cut kind false
      match s.lineEvent t cut with
      | some code => .error { code := code, addr := va }
      | none =>
        let more ← s.spanOf c own kind fuel ((va + cut) % 2 ^ 64) (n - cut)
        pure ((t, cut) :: more)

/-- Granules that n bytes can touch. -/
def granules (n : Nat) : Nat := n / 65536 + 2

/-- Reads n bytes for a party of a context; an uncorrectable error or poison is a fault too (R274, R430). -/
def State.readRec (s : State) (c : Ctx) (own : Option (Team × Nat)) (va n : Nat) : Except Exc (List Byte) :=
  (s.spanOf c own .read (granules n) va n).map fun ts => ts.flatMap fun p => s.readTarget p.1 p.2

/-- Writes bytes at translated parts in order. -/
def writeParts : State → List (Target × Nat) → List Byte → State
  | s, [], _ => s
  | s, (t, n) :: ts, bs => writeParts (s.writeTarget t (bs.take n)) ts (bs.drop n)

/-- Writes bytes for a party of a context, if every part can be written (R430). -/
def State.writeRec (s : State) (c : Ctx) (va : Nat) (bs : List Byte) : Except Exc State :=
  (s.spanOf c none .write (granules bs.length) va bs.length).map fun ts => writeParts s ts bs

/-- Pads a section with zeros to a multiple of 64 bytes (R279, R381). -/
def pad64 (bs : List Byte) : List Byte := bs ++ List.replicate ((64 - bs.length % 64) % 64) 0#8
def padLen (n : Nat) : Nat := (n + 63) / 64 * 64

/-- Eight little-endian bytes. -/
def dword (x : Nat) : List Byte := leBytes 8 x

/-- Dword i of a record. -/
def dwordAt (bs : List Byte) (i : Nat) : Nat := fieldAt bs (8 * i) 8

/-! ### Kernel descriptors (R34, R35) -/

/-- Reading of the 64 bytes of a descriptor. A reserved WIDTH reads as 0, and an unknown CONTRACT as GEN; `badKdesc` finds both. -/
def kdescOf (bs : List Byte) : KDesc :=
  let d := dwordAt bs 1
  { entry := BitVec.ofNat 64 (dwordAt bs 0), contract := (contractOfCode (natBits d 56 8)).getD .gen,
    width := if natBits d 54 2 = 3 then 0 else 16 * 2 ^ natBits d 54 2, groups := natBits d 50 4 + 1, named := natBits d 44 6,
    acc := natBits d 40 4, barriers := natBits d 33 7, tiles := natBits d 26 7, scratch := natBits d 16 10, pair := natBit d 15,
    persist := natBit d 14, restart := natBit d 13, fusel1 := natBit d 12, gang := natBits d 10 2, carry := BitVec.ofNat 64 (dwordAt bs 2),
    jtab := BitVec.ofNat 64 (dwordAt bs 3), const := BitVec.ofNat 64 (dwordAt bs 4) }

/-- The conditions of R35 on dword 1. -/
def badShape (bs : List Byte) : Bool :=
  let d := dwordAt bs 1
  let k := kdescOf bs
  natBits d 54 2 == 3 || k.named == 0 || decide (32 < k.named) || decide (8 < k.acc) || decide (64 < k.barriers) || decide (64 < k.tiles) ||
  decide (512 < k.scratch) || (contractOfCode (natBits d 56 8)).isNone || natBits d 0 10 != 0 || (k.pair && k.groups % 2 == 1) ||
  (k.pair && decide (2 ≤ k.gang)) || (k.persist && k.gang != 0) || (k.contract == .gen && k.acc != 0)

/-- Byte offset of the first offending dword of a descriptor (R35). -/
def badKdesc (bs : List Byte) : Option Nat :=
  (badOfs [(dwordAt bs 0 % 8 != 0, 0), (badShape bs, 8), (dwordAt bs 2 % 64 != 0, 16), (dwordAt bs 3 % 8 != 0, 24), (dwordAt bs 4 % 8 != 0, 32),
    (dwordAt bs 5 != 0, 40), (dwordAt bs 6 != 0, 48), (dwordAt bs 7 != 0, 56)]).head?

/-! ### What a team needs (R36, R46) -/

/-- Teams of a gang (R34); 1 for none. -/
def KDesc.gangSize (k : KDesc) : Nat := k.gang + 1

/-- What a team takes on one core. -/
structure Need where
  slots : Nat
  regs : Nat
  ls : Nat
  acc : Nat
  barriers : Nat
  tiles : Nat
deriving DecidableEq, Repr

/-- Sum of two needs. -/
def Need.add (a b : Need) : Need :=
  { slots := a.slots + b.slots, regs := a.regs + b.regs, ls := a.ls + b.ls, acc := a.acc + b.acc, barriers := a.barriers + b.barriers,
    tiles := a.tiles + b.tiles }

/-- Groups of a team on one core (R37). -/
def KDesc.coreGroups (k : KDesc) : Nat := if k.pair then k.groups / 2 else k.groups

/-- The need of a team on each of its cores of a class, LS in bytes and the accumulator store in KiB (R36, R37, R46). -/
def KDesc.need (k : KDesc) (c : Cls) : Need :=
  let g := k.coreGroups
  let t := g * (k.width / 8) * k.acc
  let emu : Bool := k.contract == .xf32 && c != .x
  { slots := g, regs := g * k.width * (4 * k.named + 64), ls := k.scratch * 1024 + (if emu then t * 18432 else 0),
    acc := if k.contract = .xf32 then (if emu then 0 else 18 * t) else t, barriers := k.barriers, tiles := k.tiles }

/-- The capacity of an empty core of a class (R10, R36). -/
def capacity (c : Cls) : Need :=
  { slots := 16, regs := 196608, ls := 512 * 1024, acc := if c = .x then 288 else 64, barriers := 64, tiles := 64 }

/-- A need lies within another. -/
def Need.le (a b : Need) : Bool :=
  decide (a.slots ≤ b.slots) && decide (a.regs ≤ b.regs) && decide (a.ls ≤ b.ls) && decide (a.acc ≤ b.acc) &&
  decide (a.barriers ≤ b.barriers) && decide (a.tiles ≤ b.tiles)

/-- Code of the first class of the contract's row that an empty core of it cannot hold (R36). -/
def KDesc.unfit (k : KDesc) : Option Nat :=
  ((routeOf k.contract).find? fun c => !(k.need c).le (capacity c)).map clsCode

/-! ### Teams on cores (R36, R50, R225) -/

/-- Teams that hold resources on a core. -/
def State.teamsOn (s : State) (core : Nat) : List Team := s.teams.filter fun t => t.cores.contains core

/-- The class of a core. -/
def coreCls (core : Nat) : Cls := (dieCls (coreDie core)).getD .m

/-- Room on a core for one more team, besides the teams that `skip` names (R36, R50). -/
def State.roomOn (s : State) (k : KDesc) (core : Nat) (skip : Nat → Bool) : Bool :=
  let ts := (s.teamsOn core).filter fun t => !skip t.id
  let c := coreCls core
  let used := ts.foldl (fun (n : Need) t => n.add (t.kd.need c)) { slots := 0, regs := 0, ls := 0, acc := 0, barriers := 0, tiles := 0 }
  decide (ts.length < 16) && (used.add (k.need c)).le (capacity c) &&
  (!k.persist || decide ((ts.filter fun t => t.kd.persist).length < 8))

/-- Cores of a cluster (R11). -/
def clusterCores (die cluster : Nat) : List Nat := (List.range 4).map fun i => coreId die cluster i

/-- The cluster's L1 mode suits the kernel, or may be changed because no team resides there (R225). -/
def State.modeOk (s : State) (k : KDesc) (die cluster : Nat) : Bool :=
  s.fused.contains (die, cluster) == k.fusel1 || !(s.teams.any fun t => t.cores.any fun c => coreDie c == die && coreCluster c == cluster)

/-- Cores that a team of a kernel may take as its lower or only core in a cluster (R37). -/
def lowerCores (k : KDesc) (die cluster : Nat) : List Nat :=
  if k.pair then [coreId die cluster 0, coreId die cluster 2] else clusterCores die cluster

/-- The team's cores, from the lower one. -/
def coresFrom (k : KDesc) (core : Nat) : List Nat := if k.pair then [core, core + 1] else [core]

/-- Room for a team of the kernel at a lower core. -/
def State.roomAt (s : State) (k : KDesc) (core : Nat) : Bool :=
  s.modeOk k (coreDie core) (coreCluster core) && (coresFrom k core).all fun c => s.roomOn k c fun _ => false

/-- Free team-slot entries of a core, and of a cluster. -/
def State.freeSlots (s : State) (core : Nat) : Nat := 16 - (s.teamsOn core).length
def State.clusterFree (s : State) (die cluster : Nat) : Nat := ((clusterCores die cluster).map s.freeSlots).sum

/-! ### Binding (R30, R45, R47) -/

/-- Where a team binds: a class, nowhere for now, or no class at all. -/
inductive Bind where
  | to (c : Cls)
  | wait
  | never
deriving DecidableEq, Repr

/-- Free team-slot entries of a class on its present, ungated chiplets. -/
def State.clsFree (s : State) (c : Cls) : Nat :=
  ((s.openDies c).flatMap fun d => (List.range (dieClusters d)).map fun k => s.clusterFree d k).sum

/-- The tenant has used up a cap on matrix issue in its period, as a chamber die sees it (R47, R345). DESIGN CHOICE: USE that has reached HARD
counts as over the budget also where no SOFT cap is set; no rule says whether it does (log entry 74). -/
def State.overMatrix (s : State) (tenant bcls hub : Nat) : Bool :=
  match s.row? tenant bcls with
  | none => false
  | some r =>
    let u := r.seen hub actMatrix
    (r.soft.getD actMatrix 0 != 0 && decide (r.soft.getD actMatrix 0 ≤ u)) || (r.hard.getD actMatrix 0 != 0 && decide (r.hard.getD actMatrix 0 ≤ u))

/-- The class with the most free entries, the first on a tie. -/
def State.mostFree (s : State) : List Cls → Option Cls
  | [] => none
  | c :: cs =>
    match s.mostFree cs with
    | none => some c
    | some d => if s.clsFree d ≤ s.clsFree c then some c else some d

/-- Binding at first dispatch (R47). DESIGN CHOICE: where the native class is available only as gated chiplets and the tenant is over its
budget, two rows match, and the route is taken (log entry 74). -/
def State.bindOf (s : State) (ct : Contract) (tenant bcls hub : Nat) : Bind :=
  match routeOf ct with
  | [] => .never
  | native :: route =>
    if ct = .gen then
      match s.mostFree ((native :: route).filter fun c => !(s.openDies c).isEmpty) with
      | some c => .to c
      | none => if (native :: route).any s.clsAvailable then .wait else .never
    else if s.clsAvailable native then
      if s.overMatrix tenant bcls hub then
        match route.find? s.clsAvailable with
        | some c => .to c
        | none => .to native
      else .to native
    else
      match route.find? s.clsAvailable with
      | some c => .to c
      | none => .never

/-- The class of a task or image bound before: its own while it is present, else the route's first (R44, R388). -/
def State.rebind (s : State) (ct : Contract) (c : Cls) : Option Cls :=
  if s.clsAvailable c then some c else (routeOf ct).find? s.clsAvailable

/-! ### Carry tables (R278) and inheritance descriptors (R285) -/

/-- Nothing carried. -/
def Maps.none : Maps := { nmap := 0, smap := 0, tmap := 0, amap := 0, bmap := 0 }

/-- Some item is carried. -/
def Maps.any (m : Maps) : Bool := m.nmap != 0 || m.smap != 0 || m.tmap != 0 || m.amap != 0 || m.bmap != 0

/-- Reading of the 32 bytes of a carry-table entry. -/
def carryOf (bs : List Byte) : Maps :=
  { nmap := fieldAt bs 4 4, smap := fieldAt bs 0 4, tmap := dwordAt bs 1, amap := fieldAt bs 16 1, bmap := 0 }

/-- Offset of the first offending dword of an entry. -/
def badCarry (k : KDesc) (bs : List Byte) : Option Nat :=
  let m := carryOf bs
  (badOfs [(m.smap % 16 != 0 || m.nmap / 2 ^ k.named != 0, 0), (m.tmap / 2 ^ k.tiles != 0, 8),
    (dwordAt bs 2 / 256 != 0 || m.amap / 2 ^ k.acc != 0, 16), (dwordAt bs 3 != 0, 24)]).head?

/-- The entry of the carry table for phase p (R278); the table was checked at launch. -/
def State.carryEntry (s : State) (c : Ctx) (k : KDesc) (p : Nat) : Except Exc Maps :=
  if k.carry = 0#64 ∨ p = 0 then .ok Maps.none
  else do
    let n ← (s.readRec c none k.carry.toNat 1).map leNat
    let bs ← s.readRec c none (k.carry.toNat + 64 + 32 * (min p n - 1)) 32
    pure (carryOf bs)

/-- Bits of a map in ascending order. -/
def mapBits (m w : Nat) : List Nat := (List.range w).filter fun i => natBit m i
def countBits (m w : Nat) : Nat := (mapBits m w).length

/-- Bytes of a tile's canonical image (R44). -/
def accBytes (ct : Contract) : Nat := if ct = .xf32 then 18432 else 1024

/-- Bytes of the spill of a set (R279), with `tiles` for its tiles. -/
def spillSize (k : KDesc) (m : Maps) (groups tiles : Nat) : Nat :=
  groups * (64 + padLen (4 * k.width * countBits m.nmap 32) + padLen (4 * countBits m.smap 32) +
    k.width / 8 * countBits m.amap 8 * accBytes k.contract) + tiles + padLen (16 * countBits m.bmap 64)

/-- The largest spill of a carry-table entry as R274 reckons it. -/
def worstSpill (k : KDesc) (m : Maps) : Nat :=
  spillSize k m k.groups (countBits m.tmap 64 * padLen (16 + k.scratch * 1024) * (if k.pair then 2 else 1))

/-- The whole table: its largest spill, or the offset of its first offending dword; a read that fails is an error (R274). -/
def State.readCarry (s : State) (c : Ctx) (k : KDesc) : Except Exc (Except Nat Nat) :=
  if k.carry = 0#64 then .ok (.ok 0)
  else do
    let h ← s.readRec c none k.carry.toNat 64
    let n := fieldAt h 0 1
    let hd := if n = 0 ∨ dwordAt h 0 / 256 ≠ 0 then some 0 else (((List.range 7).map (· + 1)).find? fun i => dwordAt h i != 0).map (8 * ·)
    match hd with
    | some o => pure (.error o)
    | none =>
      let bs ← s.readRec c none (k.carry.toNat + 64) (32 * n)
      let es := (List.range n).map fun e => (bs.drop (32 * e)).take 32
      match (List.range n).findSome? fun e => (badCarry k (es.getD e [])).map (64 + 32 * e + ·) with
      | some o => pure (.error o)
      | none => pure (.ok ((es.map fun e => worstSpill k (carryOf e)).foldl max 0))

/-- Reading of the 64 bytes of an inheritance descriptor (R285). -/
def inheritOf (bs : List Byte) : Maps :=
  { nmap := fieldAt bs 4 4, smap := fieldAt bs 0 4, tmap := dwordAt bs 1, bmap := dwordAt bs 2, amap := fieldAt bs 24 1 }

/-- Byte offset of the first offending field of an inheritance descriptor (R284, R285, R431). -/
def badInherit (bs : List Byte) : Option Nat :=
  (badOfs [(fieldAt bs 0 4 % 16 != 0, 0)] ++ (nonzeroByte bs 25 7).toList ++ (nonzeroByte bs 32 32).toList).head?

end Sys2Proof.Machine
end

