-- ==== Sys2Proof/Machine/Spills.lean ====
section
/-! DEFINITION. The start state of a team (R40), its scrub (R42, R286), its frame (R277), and the spill of a carry set with its reading
back (R279, R280). -/

namespace Sys2Proof.Machine

/-! ### Start values (R40) -/

/-- A thread at team start, with its generator (R73). -/
def Thread.fresh (sr : Nat) : Thread :=
  { q := Vector.replicate 16 0#32, n := Vector.replicate 32 0#32, k := 0#8, sr := BitVec.ofNat 32 sr, h := Vector.replicate 3 0#64 }

/-- The mask of all W threads. -/
def allMask (w : Nat) : W64 := BitVec.ofNat 64 (2 ^ w - 1)

/-- A group at team start; `seed` is the context's and `p` the phase (R40, R73). -/
def Group.fresh (k : KDesc) (idx seed p slot : Nat) (pc : W64) : Group :=
  { idx := idx, pc := pc, pos := 0, clause := [], resw := 0, mask := allMask k.width, live := allMask k.width, stk := [],
    s := Vector.replicate 32 0#32, threads := (List.range k.width).map fun th => Thread.fresh (srInit seed (idx * k.width + th) p),
    hage := #v[3, 3, 3], resv := [], touched := [], land := none, wait := .none, wpc := 0#64, wword := 0, prior := none, mstat := 0#32, keep := false,
    ktag := 0#32, snaps := [], seq := 0#32, outb := [], unsealed := [], pendingStores := 0, late := [], wrote := [], part := [],
    monitor := none, csel := 0, call := none,
    deferred := [], traceDrop := false, tslots := 0, slot := slot }

/-- Accumulator tiles at the contract's zero: an empty list of codes reads as zero (R40). -/
def freshAcc (k : KDesc) : List (List (List (List Nat))) :=
  List.replicate k.groups (List.replicate (k.width / 8) (List.replicate k.acc []))

/-- Cores of a team. -/
def KDesc.halves (k : KDesc) : Nat := if k.pair then 2 else 1

/-- Group slots for the groups of a team: free slots of each core in ascending order (R352). -/
def State.groupSlots (s : State) (k : KDesc) (core : Nat) : List Nat :=
  let used := fun c => ((s.teamsOn c).flatMap fun t => (t.groups.filter fun g => t.coreOf g.idx == c).map Group.slot)
  let free := fun c => (List.range 16).filter fun i => !(used c).contains i
  (List.range k.groups).map fun g =>
    if k.pair then (free (core + g % 2)).getD (g / 2) 0 else (free core).getD g 0

/-- Linear team index (R39). -/
def linearIdx (team nteam : Nat × Nat × Nat) : Nat := team.1 + nteam.1 * (team.2.1 + nteam.2.1 * team.2.2)

/-- The ABI registers s0 to s3 (R40). -/
def Group.abi (g : Group) (args : W64) (idx : Nat) (launchId : W64) : Group :=
  (((g.setS 0 (lo32 args.toNat)).setS 1 (hi32 args.toNat)).setS 2 (BitVec.ofNat 32 idx)).setS 3 (lo32 launchId.toNat)

/-! ### Scrub (R42, R286) -/

/-- Thread th of a group after a scrub that keeps the named registers of `m`. -/
def Thread.scrub (t : Thread) (k : KDesc) (m : Maps) (sr : Nat) : Thread :=
  { Thread.fresh sr with n := Vector.ofFn fun i : Fin 32 => if i.val < k.named ∧ natBit m.nmap i.val = true then t.ni i.val else 0#32 }

/-- A group after a scrub (R42 step 2, R280): MASK becomes LIVE. -/
def Group.scrub (g : Group) (k : KDesc) (m : Maps) (seed p : Nat) : Group :=
  { Group.fresh k g.idx seed p g.slot g.pc with
    live := g.live, mask := g.live
    threads := g.threads.mapIdx fun th t => t.scrub k m (srInit seed (g.idx * g.width + th) p)
    s := Vector.ofFn fun i : Fin 32 => if i.val < 4 ∨ natBit m.smap i.val = true then g.si i.val else 0#32
    seq := g.seq, outb := g.outb, unsealed := g.unsealed }

/-- The cells of an LS that lie in the carried tiles, below the SCRATCH of the kernel. -/
def keepLs (k : KDesc) (m : Maps) (tiles : List Tile) (ls : Memory) : Memory :=
  ls.filter fun c => decide (c.1 < k.scratch * 1024) && (mapBits m.tmap 64).any fun i =>
    match tiles[i]? with
    | some t => decide (t.base ≤ c.1) && decide (c.1 < t.base + 64 * t.size)
    | none => false

/-- Tables, LS, barriers and accumulators of a team after a scrub that keeps `m`, for kernel k. -/
def Team.scrubTables (t : Team) (k : KDesc) (m : Maps) : Team :=
  { t with acc := (List.range k.groups).map fun g => (List.range (k.width / 8)).map fun o => (List.range k.acc).map fun i =>
             if natBit m.amap i && !((t.groups[g]?).any Group.exited) then t.accTileOf g o i else []
           tiles := t.tiles.map fun ts => (List.range k.tiles).map fun i => if natBit m.tmap i then ts.getD i Tile.reset else Tile.reset
           ls := (List.range k.halves).map fun h => keepLs k m (t.tiles.getD h []) (t.ls.getD h [])
           barriers := (List.range k.barriers).map fun i =>
             if natBit m.bmap i then t.barriers.getD i (Barrier.reset k.groups) else Barrier.reset k.groups }

/-- The team after the scrub of a phase end, whose next phase is p (R42 step 2). -/
def Team.scrubPhase (t : Team) (m : Maps) (seed p : Nat) : Team :=
  { t.scrubTables t.kd m with groups := t.groups.map fun g => { g.scrub t.kd m seed p with outb := [], unsealed := [] } }

/-- The team as the successor at its start (R286): groups that had exited start with team-start values and s0 to s3 of group 0. -/
def Team.scrubSucc (t : Team) (k : KDesc) (kva : W64) (m : Maps) (seed : Nat) : Team :=
  let g0 := t.groups.head?
  let first := fun (g : Group) =>
    let x := fun i => (g0.map fun z => z.si i).getD 0#32
    (((g.setS 0 (x 0)).setS 1 (x 1)).setS 2 (x 2)).setS 3 (x 3)
  let one := fun (g : Group) =>
    if g.exited then
      { first (Group.fresh k g.idx seed 0 g.slot k.entry) with seq := g.seq, outb := g.outb, unsealed := g.unsealed }
    else { g.scrub k m seed 0 with live := allMask k.width, mask := allMask k.width, pc := k.entry }
  { t.scrubTables k m with kd := k, kva := kva, phase := 0#32, groups := t.groups.map one }

/-! ### The spill (R279) -/

/-- Bytes of the codes of an accumulator tile in its canonical image (R44, R71). -/
def accImage (ct : Contract) (codes : List Nat) : List Byte := (fullTile ct codes).flatMap fun c => leBytes (accBytes ct / 256) c

/-- The section of a group with its carried registers. -/
def Group.spillBytes (g : Group) (m : Maps) : List Byte :=
  dword g.live.toNat ++ dword (g.spair 0) ++ dword (g.spair 2) ++ dword g.seq.toNat ++ List.replicate 32 0#8 ++
  pad64 ((mapBits m.nmap 32).flatMap fun i => g.threads.flatMap fun t => leBytes 4 (t.ni i).toNat) ++
  pad64 ((mapBits m.smap 32).flatMap fun i => leBytes 4 (g.si i).toNat)

/-- The 16-byte images of a tile entry and of a barrier. -/
def Tile.image (t : Tile) : List Byte := dword t.d0 ++ dword t.rcp.toNat
def Barrier.image (b : Barrier) : List Byte := dword b.d0 ++ dword b.d1

/-- The spill of a set (R279). -/
def Team.spillBytes (t : Team) (m : Maps) : List Byte :=
  let live := t.groups.filter fun g => !g.exited
  live.flatMap (fun g => g.spillBytes m) ++
  live.flatMap (fun g => (List.range (t.kd.width / 8)).flatMap fun o => (mapBits m.amap 8).flatMap fun i =>
    accImage t.kd.contract (t.accTileOf g.idx o i)) ++
  ((t.tiles.zip t.ls).flatMap fun p => (mapBits m.tmap 64).flatMap fun i =>
    let e := p.1.getD i Tile.reset
    pad64 (e.image ++ Memory.bytes p.2 e.base (64 * e.size))) ++
  pad64 ((mapBits m.bmap 64).flatMap fun i => (t.barriers.getD i (Barrier.reset t.kd.groups)).image)

/-! ### Reading a spill back (R279, R280) -/

/-- The j-th element of n bytes from offset o, as a number. -/
def itemAt (bs : List Byte) (o n j : Nat) : Nat := fieldAt bs (o + n * j) n

/-- A group from its section at offset o: LIVE, s0 to s3, SEQ, and the carried registers. -/
def Group.unspill (g : Group) (m : Maps) (bs : List Byte) (o : Nat) : Group :=
  let w := g.width
  let ns := mapBits m.nmap 32
  let ss := mapBits m.smap 32
  let so := o + 64 + padLen (4 * w * ns.length)
  let live := BitVec.ofNat 64 (fieldAt bs o 8) &&& allMask w
  let g1 : Group := { g with live := live, mask := live, seq := BitVec.ofNat 32 (fieldAt bs (o + 24) 4)
                             threads := g.threads.mapIdx fun th t =>
                               { t with n := Vector.ofFn fun i : Fin 32 =>
                                   match ns.findIdx? (· == i.val) with
                                   | some j => BitVec.ofNat 32 (itemAt bs (o + 64) 4 (j * w + th))
                                   | none => t.ni i.val } }
  { g1 with s := Vector.ofFn fun i : Fin 32 =>
      if i.val < 4 then BitVec.ofNat 32 (fieldAt bs (o + 8 + 4 * i.val) 4)
      else match ss.findIdx? (· == i.val) with
        | some j => BitVec.ofNat 32 (itemAt bs so 4 j)
        | none => g.si i.val }

/-- Reads the carried tiles of one core from offset o; answers the table, the LS and the offset after them. -/
def readTiles (scratch : Nat) (bs : List Byte) : List Nat → List Tile → Memory → Nat → List Tile × Memory × Nat
  | [], ts, ls, o => (ts, ls, o)
  | i :: is, ts, ls, o =>
    let e := Tile.ofImage (fieldAt bs o 8) (BitVec.ofNat 64 (fieldAt bs (o + 8) 8))
    let n := 64 * e.size
    readTiles scratch bs is (ts.set i e) (Memory.write ls e.base ((bs.drop (o + 16)).take (min n (scratch - e.base)))) (o + padLen (16 + n))

/-- Reads the carried tiles of each core in turn. -/
def readTables (scratch : Nat) (bs : List Byte) (is : List Nat) : List (List Tile × Memory) → Nat → List (List Tile × Memory) × Nat
  | [], o => ([], o)
  | p :: ps, o =>
    let r := readTiles scratch bs is p.1 p.2 o
    let rest := readTables scratch bs is ps r.2.2
    ((r.1, r.2.1) :: rest.1, rest.2)

/-- A team in its start state takes a spill back; groups whose GLIVE bit is clear do not run (R280). -/
def Team.unspill (t : Team) (m : Maps) (glive : Nat) (bs : List Byte) : Team :=
  let k := t.kd
  let live := (List.range k.groups).filter fun g => natBit glive g
  let sec := 64 + padLen (4 * k.width * countBits m.nmap 32) + padLen (4 * countBits m.smap 32)
  let octs := k.width / 8
  let na := countBits m.amap 8
  let ab := accBytes k.contract
  let acc0 := live.length * sec
  let one := fun (g : Group) => match live.findIdx? (· == g.idx) with
    | some j => g.unspill m bs (j * sec)
    | none => { g with live := 0#64, mask := 0#64 }
  let tile := fun j o a => (List.range 256).map fun x => itemAt bs (acc0 + ((j * octs + o) * na + a) * ab) (ab / 256) x
  let acc := (List.range k.groups).map fun g => (List.range octs).map fun o => (List.range k.acc).map fun i =>
    match live.findIdx? (· == g), (mapBits m.amap 8).findIdx? (· == i) with
    | some j, some a => tile j o a
    | _, _ => []
  let tb := readTables (k.scratch * 1024) bs (mapBits m.tmap 64) (t.tiles.zip t.ls) (acc0 + live.length * octs * na * ab)
  let bars := (List.range k.barriers).map fun i =>
    match (mapBits m.bmap 64).findIdx? (· == i) with
    | some j => Barrier.ofImage (fieldAt bs (tb.2 + 16 * j) 8) (fieldAt bs (tb.2 + 16 * j + 8) 8)
    | none => Barrier.reset k.groups
  { t with groups := t.groups.map one, acc := acc, tiles := tb.1.map Prod.fst, ls := tb.1.map Prod.snd, barriers := bars }

/-! ### Frames and TQ (R277, R430) -/

/-- Kills the team and ends its context with PHASE_CARRY: the scheduler met a fault at its frame or its TQ (R430). -/
def State.carryFail (s : State) (t : Team) (x : Exc) : State :=
  let s1 := (s.record t.ctx (recordBytes cPhaseCarry 3 3 0 t.ctx (0x1000 + x.code % 256) 0 0#64 x.addr 0#64)).echoFault t.ctx cPhaseCarry 0 none
  (s1.killTeam t.id).terminate t.ctx

/-- The frame header at first dispatch (R277). -/
def Team.frameHeader (t : Team) : List Byte :=
  dword t.launchId.toNat ++ dword t.args.toNat ++ dword 0 ++
  dword (t.nteam.1 * 2 ^ 48 + t.nteam.2.1 * 2 ^ 32 + t.nteam.2.2 * 2 ^ 16) ++ dword t.done.toNat ++ dword t.tq.toNat ++
  dword (2 ^ t.kd.groups - 1) ++ dword t.kd.entry.toNat

/-- Writes PCODE (R277). -/
def State.writePcode (s : State) (c : Ctx) (t : Team) (pc : W64) : Except Exc State := s.writeRec c (t.frame.toNat + 56) (dword pc.toNat)

/-- Writes the spill of a set with SPB and GLIVE (R279, R280). -/
def State.writeSpill (s : State) (c : Ctx) (t : Team) (m : Maps) : Except Exc State := do
  let bs := t.spillBytes m
  let s1 ← s.writeRec c (t.frame.toNat + 64) bs
  s1.writeRec c (t.frame.toNat + 48) (dword (bs.length * 2 ^ 32 + t.glive))

/-- The bytes of a task record (R276). -/
def taskBytes (tk : Nat) (code frame : W64) (phase jcnt : Nat) (kva : W64) (team : Nat × Nat × Nat) (ctr prio bcls bound : Nat) : List Byte :=
  dword code.toNat ++ dword frame.toNat ++ dword (phase * 2 ^ 32 + jcnt) ++ dword kva.toNat ++
  dword (team.1 * 2 ^ 48 + team.2.1 * 2 ^ 32 + team.2.2 * 2 ^ 16) ++ dword 0 ++ dword ctr ++
  dword (prio * 2 ^ 61 + bcls * 2 ^ 58 + tk * 2 ^ 56 + bound * 2 ^ 48)

/-- The task that a team leaves behind. -/
def Team.taskItem (t : Team) (l : Leave) : List Byte :=
  taskBytes l.tk l.code t.frame l.phase.toNat 0 l.kva t.team l.ctr t.prio t.bcls l.bound

/-- What the scheduler remembers of a team. -/
def State.ident? (s : State) (ctx : Nat) (frame : W64) : Option Ident := s.sch.idents.find? fun i => i.ctx == ctx && i.frame == frame

/-- Frees the team-slot entry of a team that leaves its core but lives on (R54). -/
def State.leaveCore (s : State) (t : Team) : State :=
  let s1 := (s.updIdent t.id fun i => { i with core := if t.core = 0 then i.core else t.core }).loseDest t.id false
  ({ s1 with teams := s1.teams.filter fun u => u.id != t.id
             cur := if (s1.cur.map Prod.fst) == some t.id then none else s1.cur }).testDrained

/-- Emits a team event (R352): the linear index and a phase. -/
def State.emitTeam (s : State) (t : Team) (code phase : Nat) : State :=
  s.emitCore t t.core code (BitVec.ofNat 32 (linearIdx t.team t.nteam % 65536 * 65536 + phase % 65536))

/-- Meaning of TASK_SPILL_ENQUEUE (R279, R280, R291): with room in TQ, the spill is written and the task enters; while TQ is full the
team waits. -/
def execTaskSpillEnqueue (id : Nat) (s : State) : Host.Outcome State Fault Refusal :=
  .next (match s.team? id with
    | none => s
    | some t =>
      match t.leave, s.ctx? t.ctx with
      | some l, some c =>
        if t.slot ≠ .spill ∨ c.st ≠ .running ∨ s.frozenCtx c.num = true then s
        else match s.openOwn c t.tq.toNat [kTask] with
          | .error x => s.carryFail t { code := x.code, addr := t.tq.toNat }
          | .ok q =>
            if q.2.count = q.2.cap then s
            else
              let put := do
                let s1 ← match l.maps with
                  | some m => s.writeSpill c t m
                  | none => .ok s
                let r ← s1.enqueue c q.1 q.2 (t.taskItem l)
                pure r.2
              match put with
              | .error x => s.carryFail t x
              | .ok s1 => (if l.maps.isSome then s1.emitTeam t 0x03 l.phase.toNat else s1).leaveCore t
      | _, _ => s)

end Sys2Proof.Machine
end

