-- ==== Sys2Proof/Machine/Teams.lean ====
section
/-! DEFINITION. Arrivals at `phase` and `succ`, `exit`, and what follows when a team has settled (R42, R43, R49, R54, R168, R280 to R287). -/

namespace Sys2Proof.Machine

/-! ### Saves under way (R380) -/

/-- A save of the team is requested: of its context, or of the team alone (R389). A single-team save that is not written yet is a
candidate without an offset. -/
def State.wantSave (s : State) (t : Team) : Bool :=
  ((s.ctx? t.ctx).any fun c => c.saving.isSome) || s.sch.cands.any fun c => c.id == t.id && c.ctx == t.ctx && c.single && c.off == 0

/-! ### Successors (R284 to R287) -/

/-- What becomes of a successor (R49): it starts in place, parks, or becomes a dependent launch. -/
inductive SuccGo where
  | here | park | dep
deriving DecidableEq, Repr

/-- A successor whose checks have passed. -/
structure SuccPlan where
  k : KDesc
  m : Maps
  go : SuccGo
deriving DecidableEq, Repr

/-- The checks that `succ` makes for its own group (R284, step 8): both records, and the fit of R36. -/
def State.succRead (s : State) (c : Ctx) (own : Option (Team × Nat)) (kva inh : Nat) : Except Exc (KDesc × Maps) := do
  if kva % 64 ≠ 0 then .error { code := cAlignment, addr := kva }
  if inh < 2 ^ 64 ∧ inh % 64 ≠ 0 then .error { code := cAlignment, addr := inh }
  let bs ← s.readRec c own kva 64
  let m ← if 2 ^ 64 ≤ inh then .ok (List.replicate 64 0#8) else s.readRec c own inh 64
  match badKdesc bs with
  | some o => .error { code := cQueueDesc, addr := kva, detail := o }
  | none =>
    match badInherit m with
    | some o => .error { code := cQueueDesc, addr := inh, detail := 0x0300 + o }
    | none =>
      match (kdescOf bs).unfit with
      | some x => .error { code := cQueueDesc, addr := kva, detail := 0x0400 + x }
      | none => pure (kdescOf bs, inheritOf m)

/-- The bits of a map at or above a bound are zero. -/
def mapFits (m a b : Nat) : Bool := decide (m < 2 ^ min a b)

/-- Bytes of the inherited tiles in a spill. -/
def Team.tileSpill (t : Team) (m : Maps) : Nat :=
  (t.tiles.map fun ts => ((mapBits m.tmap 64).map fun i => padLen (16 + 64 * (ts.getD i Tile.reset).size)).sum).sum

/-- The frame stride of the launch of a team. -/
def State.strideOf (s : State) (t : Team) : Nat := ((s.sch.launches.find? fun l => l.id == t.launch).map Launch.fstride).getD t.fstride

/-- The team-level checks of R284 in order (from 2 on), and the case of R49. -/
def State.succPlan (s : State) (t : Team) (k : KDesc) (m : Maps) : Except Exc SuccPlan := do
  let p := t.kd
  let shape := fun d : Nat => ({ code := cSuccShape, detail := d } : Exc)
  if k.width ≠ p.width ∨ k.groups ≠ p.groups ∨ k.pair ≠ p.pair ∨ k.gang ≠ p.gang then .error (shape 1)
  if !mapFits m.nmap p.named k.named then .error (shape 2)
  if !mapFits m.amap p.acc k.acc then .error (shape 3)
  if !mapFits m.tmap p.tiles k.tiles then .error (shape 4)
  if t.tiles.any fun ts => (mapBits m.tmap 64).any fun i =>
      decide (k.scratch * 1024 < (ts.getD i Tile.reset).base + 64 * (ts.getD i Tile.reset).size) then .error (shape 4)
  if !mapFits m.bmap p.barriers k.barriers then .error (shape 5)
  let code := contractCode k.contract
  let cls ← match if k.contract = .gen then Bind.to t.cls else s.bindOf k.contract t.tenant t.bcls (chamberOf (coreDie t.core)) with
    | .to c => .ok c
    | .wait => .ok t.cls
    | .never => .error { code := cContract, detail := code }
  if (cls ≠ t.cls ∧ m.any = true) ∨ (m.amap ≠ 0 ∧ k.contract ≠ p.contract) then .error { code := cSuccClass, detail := code }
  if (m.any = true ∧ (s.strideOf t < 64 + spillSize k m k.groups (t.tileSpill m) ∨ t.tq = 0#64)) ∨ (cls ≠ t.cls ∧ t.tq = 0#64) then
    .error { code := cPhaseCarry, detail := 3 }
  let free := t.cores.all fun c => s.roomOn k c fun i => i == t.id
  pure { k := k, m := m, go := if cls ≠ t.cls then .dep else if free && k.fusel1 == p.fusel1 then .here else .park }

/-! ### Arrivals (R42, R43, R280, R284) -/

/-- The group waits at `phase` or `succ`. -/
def GWait.arrived : GWait → Bool
  | .phase => true
  | .succ _ _ => true
  | _ => false

/-- Address of the terminal word in whose wait the group is. -/
def Group.waitPc (g : Group) : W64 := g.wpc + BitVec.ofNat 64 (8 * g.wword)

/-- A fault at the terminal word of a group that waits: on a restore it issues that word again (R284). -/
def State.faultAtWait (s : State) (id : Nat) (g : Group) (x : Exc) (kill : Bool) : State :=
  s.takeFault (id, g.idx) x g.waitPc g.wpc g.wword kill

def State.setSettle (s : State) (id : Nat) (f : SettleFor) : State := s.updTeam id fun t => { t with slot := .settle, settle := f }

/-- Looks whether the arrivals of a team are complete, and if so makes the checks of R280 and R284 and begins to settle. Where a commit of ranges
or a migration stalls the reads of the records (R219, R231), the checks of R284 are those made once the team has settled. -/
def State.arrive (s : State) (id : Nat) : State :=
  match s.team? id with
  | none => s
  | some t =>
    let live := t.groups.filter fun g => !g.exited
    if t.slot ≠ .run then s
    else if live.isEmpty then s.setSettle id .ended
    else if !(live.all fun g => g.wait.arrived) then s
    else
      match t.groups[t.last]?, s.ctx? t.ctx with
      | some l, some c =>
        match l.wait with
        | .succ kva inh =>
          if !(live.all fun g => g.wait == .succ kva inh) then s.faultAtWait id l { code := cPhaseCarry, detail := 1 } true
          else if s.frozenCtx c.num then s.setSettle id (.succ kva inh)
          else
            match (s.succRead c (some (t, t.coreOf l.idx)) kva inh).bind fun p => s.succPlan t p.1 p.2 with
            | .error x => s.faultAtWait id l x false
            | .ok _ => s.setSettle id (.succ kva inh)
        | _ =>
          if live.all fun g => g.wait == .phase && g.waitPc == l.waitPc then s.setSettle id .phase
          else s.faultAtWait id l { code := cPhaseCarry, detail := 1 } true
      | _, _ => s

/-- A group has exited: it leaves its AUTODROP barriers and its roost entries (R168, R322, R335). -/
def State.groupExit (s : State) (id : Nat × Nat) : State :=
  ((s.disarm id.1 id.2).updTeam id.1 fun t => t.autoDrop id.2).arrive id.1

/-- Meaning of `exit` (R168). -/
def execExit (w : FS) (s : State) : Host.Outcome State Fault Refusal :=
  let v := w.view 0x106
  runWord { sh := shExit v } v s fun i s1 =>
    .ok (if i.mask = 0#64 then s1.endClause i id
      else
        let s2 := s1.endClause i fun g =>
          let g1 := { g with live := g.live &&& ~~~ i.mask, mask := g.mask &&& ~~~ i.mask }
          if g1.live = 0#64 then { g1.deliver fun _ => true with resv := [], monitor := none }
          else if g1.mask = 0#64 then g1.resume else g1
        if (s2.grp? i.id).any Group.exited then s2.groupExit i.id else s2)

/-- Meaning of `phase` (R280): the group arrives. -/
def execPhase (w : FS) (s : State) : Host.Outcome State Fault Refusal :=
  let v := w.view 0x109
  runWord { sh := shPhase v } v s fun i s1 =>
    .ok (((s1.endWait i .phase).updTeam i.id.1 fun t => { t with last := i.id.2 }).arrive i.id.1)

/-- Meaning of `succ` (R283, R284): the group arrives. -/
def execSucc (w : FR) (s : State) : Host.Outcome State Fault Refusal :=
  let v := w.view .fr 0x10A
  runWord { sh := shSucc v, vas := fun i => i.ua :: if v.b = 0x53 then [] else [i.ub] } v s fun i s1 => do
    let inh := if v.b = 0x53 then 2 ^ 64 else i.ub
    let _ ← s1.succRead i.c i.own i.ua inh
    pure (((s1.endWait i (.succ i.ua inh)).updTeam i.id.1 fun t => { t with last := i.id.2 }).arrive i.id.1)

/-! ### Settle (R42) -/

/-- Nothing of the team is under way, its copies aside (R42 step 1). -/
def Team.quiet (t : Team) : Bool :=
  t.groups.all (fun g => g.resv.all Resv.arrived && g.pendingStores == 0 && g.deferred.isEmpty) && t.jobs.isEmpty && t.retires.isEmpty && t.mfetch.isNone

/-- Every copy that the team issued is complete. -/
def State.copiesDone (s : State) (t : Team) : Bool :=
  !(s.eng.copies.any fun c => c.team == t.id) && t.groups.all fun g => g.outb.isEmpty

/-- An acquire at `.p` by every group of a team (R269). -/
def State.acquireTeam (s : State) (t : Team) : State := t.cores.foldl (fun s c => s.acquire t c 4) s

/-- Every group monitor of the team is disarmed (R42). -/
def State.disarmTeam (s : State) (t : Team) : State := t.groups.foldl (fun s g => s.disarm t.id g.idx) s

/-- Removes what the scheduler keeps of a team, and of its launch once no team of it is left; then DONE is decremented (R275). -/
def State.endLaunch (s : State) (t : Team) : State :=
  let s1 := s.updSch fun c => { c with idents := c.idents.filter fun i => i.id != t.id
                                       launches := c.launches.map fun l => if l.id == t.launch then { l with left := l.left - 1 } else l }
  match s1.sch.launches.find? fun l => l.id == t.launch with
  | none => s1
  | some l =>
    if l.left ≠ 0 then s1
    else
      let s2 := s1.updSch fun c => { c with launches := c.launches.filter fun x => x.id != l.id }
      if l.done = 0#64 then s2 else s2.decrement l.ctx l.done.toNat

/-- The team ends (R53, R54, R275). -/
def State.endTeam (s : State) (t : Team) : State :=
  ((s.emitTeam t 0x05 t.phase.toNat).leaveCore t).endLaunch t

/-- The team holds no slot any more, and only its task is still to be put into TQ (R54, R287, R379). -/
def State.vacate (s : State) (t : Team) (l : Leave) : State :=
  let s1 := (s.updIdent t.id fun i => { i with core := t.core }).loseDest t.id false
  ({ s1.updTeam t.id (fun x => { x with slot := .spill, settle := .none, leave := some l, groups := [], acc := [], tiles := [], ls := [],
                                        barriers := [], core := 0, jobs := [], retires := [], mfetch := none, relaunch := t.relaunch,
                                        gang := [] }) with
     cur := if (s1.cur.map Prod.fst) == some t.id then none else s1.cur }).testDrained

/-! ### The test of NEXTJC (R42 step 3) -/

/-- Groups of a team that hold for a save (R43). -/
def Team.halt (t : Team) : Team :=
  { t with slot := .save, stepTest := true, groups := t.groups.map fun g => if g.exited then g else g.haltAt g.pc 0 }

/-- The code pointer of the next phase: where the live groups stand. -/
def Team.codePtr (t : Team) : W64 := ((t.groups.find? fun g => !g.exited).map Group.pc).getD t.kd.entry

/-- Steps 3 and 4 of R42 for a scrubbed team whose next phase is p: it continues in place, where a `.restartable` one writes the set `m` to its
frame (R378), or parks with it, as it does on a die that drains (R402). `start` marks the start of a successor (R54). -/
def State.gate (s : State) (c : Ctx) (t : Team) (p : Nat) (m : Maps) (start : Bool) : State :=
  match s.readRec c none (t.frame.toNat + 16) 4 with
  | .error x => s.carryFail t x
  | .ok bs =>
    if leNat bs = 0 ∧ !(s.dieDraining (coreDie t.core) && t.tq != 0#64) then
      match if t.kd.restart then s.writeSpill c t m else .ok s with
      | .error x => s.carryFail t x
      | .ok s =>
      let t1 : Team := { t with phase := BitVec.ofNat 32 p, slot := .run, settle := .none, stepTest := false, relaunch := 0
                                groups := t.groups.map fun g => { g with wait := .none } }
      let s1 := (s.updTeam t.id fun _ => t1).updIdent t.id fun i => { i with relaunch := 0, starting := false }
      (s1.acquireTeam t1).emitTeam t1 (if start then 0x01 else 0x02) p
    else if t.tq = 0#64 ∧ !start then
      let pc := ((t.groups[t.last]?).map fun g => g.pc - 8#64).getD 0#64
      s.takeFault (t.id, t.last) { code := cPhaseCarry, detail := 2 } pc 0#64 0 true
    else
      (s.updTeam t.id fun _ =>
        { t with slot := .spill, settle := .none, stepTest := false
                 leave := some { tk := 0, code := t.codePtr, phase := BitVec.ofNat 32 p, kva := t.kva, ctr := t.frame.toNat + 16,
                                 bound := clsCode t.cls, maps := some m } }).updIdent t.id fun i => { i with relaunch := 0 }

/-- Step 2 of R42 and what follows it: scrub, PCODE, and the test, or the hold for a save (R43). -/
def State.phaseEnd (s : State) (c : Ctx) (t : Team) : State :=
  let p := (t.phase.toNat + 1) % 2 ^ 32
  let go := do
    let m ← s.carryEntry c t.kd (if p = 0 then 2 ^ 32 else p)
    let t1 : Team := { t.scrubPhase m c.seed.toNat p with settle := .none }
    let s1 := (s.disarmTeam t).updTeam t.id fun _ => t1
    let s2 ← s1.writePcode c t1 t1.codePtr
    pure (if s2.wantSave t then s2.updTeam t.id Team.halt else s2.gate c t1 p m false)
  match go with
  | .error x => s.carryFail t x
  | .ok s1 => s1

/-- Meaning of PHASE_SETTLE_COMPLETE (R42, R54, R280): a settled team scrubs and makes the test, or ends. -/
def execPhaseSettleComplete (id : Nat) (s : State) : Host.Outcome State Fault Refusal :=
  .next (match s.team? id with
    | none => s
    | some t =>
      match s.ctx? t.ctx with
      | none => s
      | some c =>
        if t.slot ≠ .settle ∨ !(t.quiet && s.copiesDone t) ∨ s.frozenCtx c.num = true then s
        else match t.settle with
          | .phase => s.phaseEnd c t
          | .ended => s.endTeam t
          | _ => s)

/-- The successor takes effect (R286, R287); a dependent launch is of a new team, whose relaunch count is 0 (R365,
R379). With a save requested it is saved in its start state, to make the test at its restore, whether it
would start in place or park: R54 and R43 say so of every team in SETTLE (DEDUCED; log entry 78). -/
def State.succEnd (s : State) (c : Ctx) (t : Team) (kva : Nat) (pl : SuccPlan) : State :=
  let t1 : Team := { t.scrubSucc pl.k (BitVec.ofNat 64 kva) pl.m c.seed.toNat with settle := .none }
  let s0 := (s.disarmTeam t).emitTeam t1 0x04 0
  match pl.go with
  | .dep =>
    (s0.updIdent t.id fun i => { i with relaunch := 0 }).vacate { t with relaunch := 0 } { tk := 2, code := pl.k.entry, phase := 0#32, kva := BitVec.ofNat 64 kva, ctr := t.frame.toNat + 16, bound := 0, maps := none }
  | go =>
    let s1 := (s0.updTeam t.id fun _ => t1).updIdent t.id fun i => { i with maps := some pl.m, starting := go == .park || s0.wantSave t }
    let put := do
      let s2 ← s1.writePcode c t1 pl.k.entry
      if pl.k.restart then s2.writeSpill c t1 pl.m else .ok s2
    match put with
    | .error x => s1.carryFail t x
    | .ok s2 =>
      if s2.wantSave t then s2.updTeam t.id Team.halt
      else if go = .here then s2.updTeam t.id fun t => { t with slot := .start, load := .succ }
      else s2.updTeam t.id fun t =>
        { t with slot := .spill, leave := some { tk := 0, code := pl.k.entry, phase := 0#32, kva := BitVec.ofNat 64 kva, ctr := t.frame.toNat + 16,
                                                 bound := clsCode t.cls, maps := some pl.m } }

/-- Meaning of SUCC_SETTLE_COMPLETE (R286, R287). Copies stay outstanding for a successor in place; one that parks or becomes a
dependent launch waits for them. A check that no longer holds faults at the `succ` that arrived last. -/
def execSuccSettleComplete (id : Nat) (s : State) : Host.Outcome State Fault Refusal :=
  .next (match s.team? id with
    | none => s
    | some t =>
      match t.settle, s.ctx? t.ctx, t.groups[t.last]? with
      | .succ kva inh, some c, some l =>
        let core := t.coreOf l.idx
        let pages := s.walkPages c core (kva :: if 2 ^ 64 ≤ inh then [] else [inh])
        if t.slot ≠ .settle ∨ !t.quiet ∨ s.frozenCtx c.num = true then s
        else match (s.succRead c (some (t, core)) kva inh).bind fun p => s.succPlan t p.1 p.2 with
          | .error x => (s.updTeam id fun t => { t with slot := .run, settle := .none }).faultAtWait id l x false
          | .ok pl =>
            if pages ≠ [] then s.startWalks c core (id, l.idx) pages
            else if pl.go = .here ∨ s.copiesDone t then s.succEnd c t kva pl else s
      | _, _, _ => s)

end Sys2Proof.Machine
end

