-- ==== Sys2Proof/Machine/Clause.lean ====
section
/-! DEFINITION. Clause boundaries (R91 to R98, R173): fetching and checking a clause, trace reservations, pre-emption and deferred faults,
the waits of headers and terminal words, and the events that end a stall or bring a value. -/

namespace Sys2Proof.Machine

/-! ### Headers (R92 to R96) -/

/-- The fields of a clause header (R92). -/
structure ClauseHdr where
  tag : Nat
  count : Nat
  cls : Nat
  uni : Bool
  wait : Nat
  warg : Nat
  rsv : Nat
deriving DecidableEq, Repr

/-- Reading of a header. -/
def clauseHdr (h : W64) : ClauseHdr :=
  { tag := bitsOf h 60 4, count := bitsOf h 56 4, cls := bitsOf h 53 3, uni := h.getLsbD 52, wait := bitsOf h 48 4, warg := bitsOf h 40 8,
    rsv := bitsOf h 0 40 }

/-- The header rows of R94. -/
def badHeader (k : KDesc) (pc : Nat) (h : ClauseHdr) : Option Exc :=
  let bad : Exc := { code := cIllegalClause, addr := pc }
  if h.tag ≠ 13 ∨ 5 < h.cls ∨ h.rsv ≠ 0 ∨ 5 < h.wait then some bad
  else if h.warg ≠ 0 ∧ [0, 4, 5].contains h.wait = true then some bad
  else if 63 < h.warg ∧ [2, 3].contains h.wait = true then some bad
  else if h.wait = 3 ∧ k.barriers ≤ h.warg then some bad
  else if h.wait = 2 ∧ k.tiles ≤ h.warg then some { code := cTileRange, addr := pc }
  else none

/-- The class of a clause admits an opcode (R95). -/
def clsAdmits (cls opc : Nat) : Bool :=
  let within := fun lo hi : Nat => decide (lo ≤ opc) && decide (opc ≤ hi)
  opc == 0x10D ||
  (match cls with
   | 0 => within 0x000 0x0C1
   | 1 => within 0x140 0x152
   | 2 => within 0x180 0x187
   | 3 => within 0x1A0 0x1B5 || within 0x1E0 0x1E7 || within 0x1F0 0x1F2
   | 4 => within 0x100 0x10F || within 0x200 0x206
   | _ => true)

/-- The terminal opcodes (R96). -/
def terminalOps : List Nat :=
  [0x100, 0x101, 0x103, 0x104, 0x105, 0x106, 0x108, 0x10E, 0x109, 0x10A, 0x10B, 0x10C, 0x10F, 0x202, 0x205, 0x14F, 0x150, 0x1B2, 0x1AA,
   0x1A6, 0x1E1]

/-- Uniform registers that a matrix word or `ldt` reads as operand descriptors (R94, R97, R200). -/
def descRegs (v : View) : List Nat :=
  let codes := if v.opc = 0x180 ∨ v.opc = 0x181 then [v.a, v.b]
    else if v.opc = 0x144 ∨ ((v.opc = 0x183 ∨ v.opc = 0x184) ∧ natBits v.func 13 2 = 1) then [v.a]
    else []
  (codes.filter fun c => decide (0x30 ≤ c) && decide (c < 0x50)).map (· - 0x30)

/-- Uniform registers that are the destination of a word (R94). -/
def uniDests (i : Instr) (v : View) : List Nat :=
  let pair := fun w r => if w then [r, r + 1] else [r]
  if v.opc = 0x145 then pair (natBits v.b 4 2 == 1) (uldReg v)
  else if !v.u || decide (v.dst < 0x30) then []
  else match (i.shape v).dst with
    | .val w => pair w (v.dst - 0x30)
    | .raw => pair (0x1E0 ≤ v.opc) (v.dst - 0x30)
    | .none => []

/-- The word rows of R94 for the n-th word; `written` holds the destinations of the words before it. -/
def badWord (h : ClauseHdr) (last : Bool) (n : Nat) (w : W64) (written : List Nat) : Bool :=
  let opc := opcOf w
  (h.uni && !w.getLsbD 47) ||
  (match parse w with
   | none => false
   | some i =>
     !clsAdmits h.cls opc || (terminalOps.contains opc && !last) || (opc == 0x102 && n != 1) ||
     (match i.view with
      | some v => (descRegs v).any written.contains
      | none => false))

/-- The first word that breaks a row of R94, counting from 1. -/
def firstBadWord (h : ClauseHdr) : Nat → List W64 → List Nat → Option Nat
  | _, [], _ => none
  | n, w :: ws, written =>
    if badWord h ws.isEmpty n w written then some n
    else
      let more := match parse w with
        | some i => ((i.view).map fun v => uniDests i v).getD []
        | none => []
      firstBadWord h (n + 1) ws (more ++ written)

/-! ### Step 1: fetch, check, landing (R91, R94, R173) -/

/-- Fetches one word, through the L1 of the core (R91, R224). -/
def State.fetchWord (s : State) (id : Nat × Nat) (c : Ctx) (t : Team) (va : Nat) : Except Exc W64 × State :=
  let core := t.coreOf id.2
  if va % 8 ≠ 0 then (.error { code := cAlignment, addr := va }, s)
  else match s.translate c (some (t, core)) va 8 .fetch false with
    | .error x => (.error x, s)
    | .ok tg =>
      let r := s.readCore id t c core va tg 8 true
      ((r.1.map fun bs => BitVec.ofNat 64 (leNat bs)).mapError fun code => { code := code, addr := va }, r.2)

/-- Fetches words at VAs, in order, up to the first that faults. -/
def State.fetchWords (s : State) (id : Nat × Nat) (c : Ctx) (t : Team) : List Nat → Except Exc (List W64) × State
  | [] => (.ok [], s)
  | va :: vas =>
    match s.fetchWord id c t va with
    | (.error x, s1) => (.error x, s1)
    | (.ok w, s1) =>
      let r := s1.fetchWords id c t vas
      (r.1.map (w :: ·), r.2)

/-- The landing check (R173). Its record has the lanes of MASK, as the example of R173 shows for BUDGET_EXCEEDED. -/
def landCheck (k : KDesc) (pc : Nat) (mask : W64) (land : Option (W16 × Bool)) (words : List W64) : Except Exc Unit :=
  match land with
  | none => .ok ()
  | some (label, budget) =>
    let w := words.headD 0#64
    if opcOf w ≠ 0x102 ∨ bitsOf w 0 16 ≠ label.toNat then .error { code := cLanding, addr := pc, detail := label.toNat, lanes := mask }
    else if budget = true ∧ k.named < bitsOf w 30 7 then .error { code := cBudgetExceeded, addr := pc, detail := bitsOf w 30 7, lanes := mask }
    else .ok ()

/-- The checks of a fetched clause: the rows of R94, then the landing check of R173 (log entry 58), then the word at which a restored group
re-enters. -/
def checkClause (t : Team) (g : Group) (h : ClauseHdr) (ws : List W64) : Except Exc Unit := do
  let pc := g.pc.toNat
  match firstBadWord h 1 ws [] with
  | some n => .error { code := cIllegalClause, addr := pc, detail := n }
  | none =>
    landCheck t.kd pc g.mask g.land ws
    if h.count + 1 < g.resw then .error { code := cIllegalClause, addr := pc, detail := g.resw }

/-- VAs of the words of the clause at a group's PC. -/
def Group.clauseVas (g : Group) (h : ClauseHdr) : List Nat := (List.range (h.count + 1)).map fun i => (g.pc.toNat + 8 * (i + 1)) % 2 ^ 64

/-- The clause at a group's PC: its header and words, fetched and checked (R97 step 1). DEDUCED: a header that breaks R94 faults before the
words that follow it are fetched, since its COUNT says which they are (log entry 58). -/
def State.fetchClause (s : State) (id : Nat × Nat) (c : Ctx) (t : Team) (g : Group) : Except Exc (List W64) × State :=
  let pc := g.pc.toNat
  match s.fetchWord id c t pc with
  | (.error x, s1) => (.error x, s1)
  | (.ok hw, s1) =>
    let h := clauseHdr hw
    match badHeader t.kd pc h with
    | some x => (.error x, s1)
    | none =>
      let r := s1.fetchWords id c t (g.clauseVas h)
      (r.1.bind fun ws => (checkClause t g h ws).map fun _ => hw :: ws, r.2)

/-! ### Step 2: trace reservations (R360 to R362) -/

/-- Buffer slots that words need: one for a kept `trc`, W for a kept `trcm`. -/
def State.traceNeed (s : State) (ctx width : Nat) (ws : List W64) : Nat :=
  (ws.map fun w =>
    if s.kept ctx (bitsOf w 0 8) then (if opcOf w = 0x1F0 then 1 else if opcOf w = 0x1F1 then width else 0) else 0).sum

/-- Slots of the core's buffer that its groups hold, from step 2 to the end of their clauses. -/
def State.traceHeld (s : State) (core : Nat) : Nat :=
  ((s.teamsOn core).map fun t => (t.groups.map fun g => if t.coreOf g.idx == core then g.tslots else 0).sum).sum

/-- The trace bytes of the team's row on the core's chamber die have reached the soft cap, which counts as a full buffer (R347). -/
def State.traceCapped (s : State) (t : Team) (core : Nat) : Bool :=
  s.chargeAns t.tenant t.bcls actTrace (chamberOf (coreDie core)) 16 == .soft

/-- The reservation of a clause fits: there is room in the buffer, and the trace bytes of the team's row are below the soft cap. -/
def State.traceFits (s : State) (t : Team) (g : Group) (need : Nat) : Bool :=
  let core := t.coreOf g.idx
  need == 0 ||
  (decide ((s.bufOf (coreDie core) (core % 32) .core).length + s.traceHeld core + need ≤ 512) &&
   !s.traceCapped t core)

/-- The core's system area is full, which stalls lossless tags (R362). -/
def State.systemFull (s : State) (core : Nat) : Bool := s.bufFull (coreDie core) (core % 32) .system

/-- Words of the clause that the group is still to issue. -/
def Group.toIssue (g : Group) : List W64 := g.clause.drop (max 1 g.resw)

/-- The group need not wait at step 2: its reservation fits, and in lossless mode the core's system area has room and the trace soft cap is not
reached (R347, R362). -/
def State.traceGo (s : State) (t : Team) (g : Group) : Bool :=
  let f := s.filter t.ctx
  s.traceFits t g (s.traceNeed t.ctx g.width g.toIssue) && !(f.en && f.lossless && (s.systemFull (t.coreOf g.idx) || s.traceCapped t (t.coreOf g.idx)))

/-! ### Step 3: faults and pre-emption (R97, R369, R380) -/

/-- The group waits at a terminal word that a save or a fault taken in the wait makes it issue again: any but `sysc` (R97). -/
def GWait.again (w : GWait) : Bool := w.parked && w != .sysc

/-- Where the group re-enters after a save or a fault taken in its wait: its terminal word, or its header (R97). A clause that is itself
re-entered keeps its word. -/
def Group.reenter (g : Group) : W64 × Nat := if g.wait.again then (g.wpc, g.wword) else (g.pc, g.resw)

/-- The two stand for one reservation, at two moments between which no word pushed the queue. -/
def Resv.same (r x : Resv) : Bool := r.qi == x.qi && r.named == x.named && r.uni == x.uni

/-- A reservation as it stood before the last word, with the window from then: what it still lacks it keeps lacking (R109), and one that is gone
had arrived, in its last word, or was released. -/
def Resv.before (now : List Resv) (r : Resv) : Option Resv :=
  match now.find? r.same with
  | some x => some { x with rem := r.rem }
  | none => if r.rem = 1 then some { r with arrived := true } else none

/-- A group that is to issue its terminal word again has the hold latches and the windows from before the word, so that the second
issue, which ages and captures as the first did, changes nothing that the first had not changed (R97; log entry 59). Values that are still out
stay out, and a save waits for them; what the word itself reserved is released (R109, R291). -/
def Group.rewind (g : Group) : Group :=
  match if g.wait.again then g.prior else none with
  | none => g
  | some p =>
    { g with hage := p.hage
             threads := (g.threads.zip p.h).map fun x => { x.1 with h := x.2 }
             resv := p.resv.filterMap (Resv.before g.resv) }

/-- The group's place in a wait list, its roost entries and its monitor are withdrawn (R291, R335). -/
def State.withdraw (s : State) (id : Nat × Nat) : State :=
  ((s.disarm id.1 id.2).unwait fun t g => t == id.1 && g == id.2).updGrp id fun g => { g with monitor := none }

/-- The deferred faults of a group are taken at the boundary where it stands, in the order in which they arose (R369, R372); a team that was
settling runs on without the phase's end (R43). -/
def State.takeDeferred (s : State) (id : Nat × Nat) (t : Team) (g : Group) : State :=
  if g.deferred.isEmpty then s
  else
    let s1 := ((s.endStall t g).withdraw id).updTeam id.1 fun t => if t.slot = .settle then { t with slot := .run, settle := .none } else t
    g.deferred.foldl (fun s f => s.takeFault id f.1 f.2 g.reenter.1 g.reenter.2 false) (s1.updGrp id fun g => { g.rewind with deferred := [] })

/-- A pre-emption takes a group at its boundary or in its wait (R97). -/
def State.takeGroup (s : State) (id : Nat × Nat) (t : Team) (g : Group) : State :=
  ((s.endStall t g).withdraw id).updGrp id fun g => g.rewind.haltAt g.reenter.1 g.reenter.2

/-! ### Steps 4 to 6 (R93, R97) -/

/-- Tiles that the words of a clause name through descriptors (R97 step 5). -/
def clauseTiles (t : Team) (g : Group) (ws : List W64) : List Nat :=
  (ws.flatMap fun w =>
    match (parse w).bind Instr.view with
    | some v => (descRegs v).flatMap fun r => (descOf (g.si r).toNat).tiles
    | none => []).filter fun i => decide (i < t.kd.tiles)

/-- Address of the first word of the group's clause that names tile i. -/
def touchPc (g : Group) (i : Nat) : W64 :=
  let names := fun w => match (parse w).bind Instr.view with
    | some v => (descRegs v).any fun r => ((descOf (g.si r).toNat).tiles).contains i
    | none => false
  g.pc + BitVec.ofNat 64 (8 * (1 + (g.clause.tail.findIdx names)))

/-- State of a tile of the group's own core. -/
def Team.tileAt (t : Team) (g : Group) (i : Nat) : Tile := ((t.tiles.getD (t.half g.idx) []).getD i Tile.reset)

/-- The WAIT condition of the header (R93). -/
def State.headerMet (t : Team) (g : Group) : Bool :=
  let h := clauseHdr (g.clause.headD 0#64)
  match h.wait with
  | 1 => !(g.outb.any (batchUpTo h.warg))
  | 2 => (t.tileAt g h.warg).st == .ready
  | 3 => !(((t.barriers[h.warg]?).map fun b => b.arrm.getLsbD g.idx).getD false)
  | 4 => g.resv.all Resv.arrived
  | 5 => g.pendingStores == 0 && g.resv.all fun r => r.arrived || !r.atom
  | _ => true

/-- Step 6: the group issues from its first word, or from the one it re-enters at. -/
def Group.begin (g : Group) : Group := { g with pos := max 1 g.resw, resw := 0, wait := .none, land := none, touched := [] }

/-- The group with the values arrived of the uniform registers that its clause reads as operand descriptors: step 5 reads them there,
and no word of the clause writes them before its matrix word does (R94, R97, R111, R200). -/
def Group.descReady (g : Group) : Group :=
  let regs := g.clause.tail.flatMap fun w => ((parse w).bind Instr.view).elim [] descRegs
  g.deliver fun r => r.uni.any fun i => regs.any fun d => decide (i ≤ d) && decide (d < i + r.uniN)

/-- Step 5: the group begins, or waits for the tiles that its clause names; an ABSENT one starts its fill, unless a commit of ranges or a
migration stalls the fill's translations (R219, R231, R315). -/
def State.stepTiles (s0 : State) (id : Nat × Nat) : State :=
  let s := s0.updGrp id Group.descReady
  match s.team? id.1, s.grp? id with
  | some t, some g =>
    let names := clauseTiles t g g.clause.tail
    let s1 := names.foldl (fun s i =>
      if ((s.team? id.1).map fun t => (t.tileAt g i).absent).getD false && !s.frozenCtx t.ctx then s.startFill id.1 (t.half g.idx) i g.idx (touchPc g i) else s) s
    if names.all fun i => (t.tileAt g i).st == .ready then (s1.perfAdd id 1 1).updGrp id Group.begin
    else s1.updGrp id fun g => { g with wait := .tiles }
  | _, _ => s

/-- The group no longer finds in its L1 what lines held before elements of its copies wrote them: the elements of its complete batches happen
before its later accesses (R269). -/
def State.meetCopies (s : State) (t : Team) (g : Group) : State :=
  (s.l1Drop fun l => g.wrote.contains l.line && l.home == l1Home t.kd.fusel1 (t.coreOf g.idx) (128 * l.line)).updGrp (t.id, g.idx) fun g =>
    if g.outb.isEmpty && g.unsealed.isEmpty then { g with wrote := [] } else g

/-- The completion of a barrier's phase as a group observes it: an acquire at `.t`, and every delivery counted in it happens before
(R269, R325). -/
def State.meetBarrier (s : State) (t : Team) (g : Group) : State :=
  (s.acquire t (t.coreOf g.idx) 1).l1Drop fun l =>
    (t.groups.any fun x => x.wrote.contains l.line) && l.home == l1Home t.kd.fusel1 (t.coreOf g.idx) (128 * l.line)

/-- Step 4 (R93, R269). -/
def State.stepWait (s : State) (id : Nat × Nat) : State :=
  match s.team? id.1, s.grp? id with
  | some t, some g =>
    if State.headerMet t g then
      let h := clauseHdr (g.clause.headD 0#64)
      (if h.wait = 3 then s.meetBarrier t g else if h.wait = 1 then s.meetCopies t g else s).stepTiles id
    else s.updGrp id fun g => { g with wait := .header }
  | _, _ => s

/-- Step 3, with the clause fetched. -/
def State.stepThree (s : State) (id : Nat × Nat) : State :=
  match s.team? id.1, s.grp? id with
  | some t, some g =>
    if !g.deferred.isEmpty then s.takeDeferred id t g
    else if s.wantSave t then s.takeGroup id t g
    else s.stepWait id
  | _, _ => s

/-- The group has passed step 2 with some slots reserved, or with its events to be dropped (R360, R361). -/
def State.reserve2 (s : State) (id : Nat × Nat) (slots : Nat) (drop : Bool) : State :=
  (s.updGrp id fun g => { g with wait := .none, tslots := slots, traceDrop := drop }).stepThree id

/-- Step 2, with the clause fetched: in lossy mode a reservation that does not fit drops the events of the clause. -/
def State.stepTrace (s : State) (id : Nat × Nat) : State :=
  match s.team? id.1, s.grp? id with
  | some t, some g =>
    let f := s.filter t.ctx
    let need := s.traceNeed t.ctx g.width g.toIssue
    if s.traceGo t g then s.reserve2 id need false
    else if f.lossless then
      (s.emitStall (t.coreOf g.idx) 0x50 t.ctx (BitVec.ofNat 32 (g.slot * 65536 + need))).updGrp id fun g => { g with wait := .trace s.ptp need }
    else if s.traceFits t g need then s.reserve2 id need false
    else s.reserve2 id 0 true
  | _, _ => s

/-- A matrix fetch fault of a group has not been taken yet: its word's update never ends, and the group issues no word behind it (R178, R186;
log entry 95). -/
def Team.fetchFails (t : Team) (gi : Nat) : Bool := t.mfetch.any fun f => f.1 == gi

/-- The group stands at a boundary and waits for nothing, in a team that runs. -/
def State.atBoundary (s : State) (id : Nat × Nat) : Bool :=
  match s.team? id.1, s.grp? id with
  | some t, some g => t.slot == .run && !t.fetchFails id.2 && !g.exited && g.wait == .none && g.pos == 0 && (s.ctx? t.ctx).any fun c => c.st == .running
  | _, _ => false

/-- The group stalls at translation, at its boundary. -/
def State.freezeGroup (s : State) (id : Nat × Nat) : State := s.updGrp id fun g => { g with wait := .frozen }

/-- The word that a group inside a clause issues next. -/
def Group.nextWord (g : Group) : Option W64 := if g.pos = 0 then none else g.clause[g.pos]?

/-- A group inside a clause that waits for nothing, in a team that runs. -/
def State.canIssue (s : State) (id : Nat × Nat) : Bool :=
  match s.team? id.1, s.grp? id with
  | some t, some g =>
    t.slot == .run && !t.fetchFails id.2 && g.wait == .none && g.nextWord.isSome && (s.ctx? t.ctx).any fun c => c.st == .running
  | _, _ => false

/-- Meaning of CLAUSE_BOUNDARY (R97): a group at a boundary fetches its clause and passes through the steps, unless a change of operating
point pauses issue there (R400). A group that stands inside its clause has the turn to issue, before any other group (log entry 3). -/
def execClauseBoundary (t g : Nat) (s : State) : Host.Outcome State Fault Refusal :=
  .next (if s.canIssue (t, g) then { s with cur := some (t, g), last := (t, g) }
    else if !s.atBoundary (t, g) || decide (0 < s.pauseLeft) then s
    else match s.team? t, s.grp? (t, g) with
      | some tm, some gr =>
        match s.ctx? tm.ctx with
        | none => s
        | some c =>
          if s.frozenVa c.num gr.pc.toNat then s.freezeGroup (t, g)
          else match s.fetchClause (t, g) c tm gr with
          | (.error x, s1) =>
            let pages := s.walkPages c (tm.coreOf g) [x.addr]
            match s.leafWalks c (tm.coreOf g) x pages with
            | [] => (s1.countWalks (t, g) x pages).takeFault (t, g) x gr.pc gr.pc gr.resw false
            | leaves => s.startWalks c (tm.coreOf g) (t, g) leaves
          | (.ok ws, s1) =>
            let vas := gr.pc.toNat :: gr.clauseVas (clauseHdr (ws.headD 0#64))
            -- a commit or a migration stalls the fetches (R219, R231), and the walks that they need come first (R221)
            if vas.any (s.frozenVa c.num) then s.freezeGroup (t, g)
            else match s.walkPages c (tm.coreOf g) vas with
            | [] => ((s1.coreFills c (tm.coreOf g) (t, g) vas).updGrp (t, g) fun g => { g with clause := ws }).stepTrace (t, g)
            | pages => s.startWalks c (tm.coreOf g) (t, g) pages
      | _, _ => s)

/-! ### Waits (R96, R97, R308, R319, R325, R332, R387) -/

/-- A terminal wait ends: the group is at its boundary. -/
def State.freeWait (s : State) (id : Nat × Nat) : State := s.updGrp id fun g => { g with wait := .none }

/-- The condition of `twait` (R319). -/
def tileWait (e : Tile) (cond : Nat) (own : W16) : Bool :=
  match cond with
  | 0 => e.st == .ready
  | 1 => e.st == .empty
  | _ => e.st == .ready && e.owner == own

/-- The state with the group's wait ended, if what it waits for has come. Waits for a message or a wake try again. A clause
that waits to begin does not begin while a change of operating point pauses issue (R400). -/
def State.tryRelease (s : State) (id : Nat × Nat) : State :=
  match s.team? id.1, s.grp? id with
  | some t, some g =>
    match g.wait with
    | .header => if State.headerMet t g && s.pauseLeft == 0 then s.stepWait id else s
    | .tiles => if s.pauseLeft = 0 then s.stepTiles id else s
    | .trace _ _ =>
      if 0 < s.pauseLeft then s
      else if s.traceGo t g then (s.endStall t g).reserve2 id (s.traceNeed t.ctx g.width g.toIssue) false
      else if !(s.filter t.ctx).lossless then (s.endStall t g).stepTrace id
      else s
    | .batch all n => if g.outb.any fun b => all || batchUpTo n b then s else (s.meetCopies t g).freeWait id
    | .barrier b =>
      if ((t.barriers[b]?).map fun x => x.arrm.getLsbD g.idx).getD false then s
      else (s.meetBarrier t g).freeWait id
    | .tile i cond own =>
      if tileWait (t.tileAt g i) cond own then s.freeWait id else s
    | .monitor =>
      if g.monitor.any fun m => !m.fired then s
      else ((s.disarm id.1 id.2).updGrp id fun g => { g with monitor := none }).freeWait id
    | .wuc _ _ _ _ _ _ _ => if s.armed id then s else s.wucTurn id
    | .qdeq _ _ _ => s.retryDeq id
    | .sysc =>
      if (g.call.map OpenCall.answered).getD true && !s.calls.any (fun p => p.team == id.1 && p.grp == id.2) then (s.updGrp id fun g => { g with call := none }).freeWait id else s
    | .room => s.freeWait id
    | .frozen => if s.frozenCtx t.ctx then s else s.freeWait id
    | _ => s
  | _, _ => s

/-- Waits that are at a boundary: all but a stall inside a clause. -/
def GWait.boundary : GWait → Bool
  | .stall => false
  | .room => false
  | .frozen => false
  | .halted => false
  | .none => false
  | _ => true

/-- The group waits at a boundary: one that is stalled at translation does where it is its clause that it could not fetch (R231). -/
def Group.outside (g : Group) : Bool := g.wait.boundary || (g.wait == .frozen && g.pos == 0)

/-- Meaning of GROUP_WAIT_RELEASE (R97): the wait of a group ends if its condition holds; a deferred fault is taken first. -/
def execGroupWaitRelease (t g : Nat) (s : State) : Host.Outcome State Fault Refusal :=
  .next (match s.team? t, s.grp? (t, g) with
    | some tm, some gr =>
      if !((s.ctx? tm.ctx).any fun c => c.st == .running) then s
      else if !gr.deferred.isEmpty && (gr.outside || gr.exited || gr.wait == .halted) then s.takeDeferred (t, g) tm gr
      else s.tryRelease (t, g)
    | _, _ => s)

/-! ### Values, acknowledgements, failures, stalls -/

/-- Arrival of the value of the r-th reservation (R109). -/
def Group.arrival (g : Group) (r : Nat) : Group :=
  match g.resv[r]? with
  | none => g
  | some x =>
    if !x.due then g
    else
      let g1 := g.fill x
      { g1 with resv := (g1.resv.modify r fun y => { y with arrived := true }).filter fun y => !(y.arrived && y.rem == 0) }

/-- Meaning of LONG_LATENCY_ARRIVAL (R109). -/
def execLongLatencyArrival (t g r : Nat) (s : State) : Host.Outcome State Fault Refusal := .next (s.updGrp (t, g) fun x => x.arrival r)

/-- One of n stores that are out is acknowledged (R239). DESIGN CHOICE: of those in flight none is then known to be performed while the others
that are out suffice for them; else it is the oldest at a slice, or where there is none the oldest at a host or a peer (log entry 55). -/
def lateAcked (n : Nat) (ls : List Late) : List Late :=
  if n ≤ 1 then []
  else if ls.length < n then ls
  else match ls.findIdx? fun l => !l.far with
    | some i => ls.eraseIdx i
    | none => ls.drop 1

/-- One store fewer is outstanding (R239). -/
def Group.acked (g : Group) : Group := { g with pendingStores := g.pendingStores - 1, late := lateAcked g.pendingStores g.late }

/-- The translation sequencer awaits one store of a group fewer (R219, R222, R230). -/
def Freeze.acked (id : Nat × Nat) (z : Freeze) : Freeze :=
  { z with awaits := z.awaits.map fun a => if (a.1, a.2.1) = id then (a.1, a.2.1, a.2.2 - 1) else a }

/-- A store of a group is acknowledged, or fails: whatever counts it counts one fewer. -/
def State.storeDone (s : State) (id : Nat × Nat) (f : Group → Group) : State :=
  { s.updGrp id f with freezes := s.freezes.map (Freeze.acked id) }

/-- Meaning of STORE_ACKNOWLEDGED (R239). -/
def execStoreAcknowledged (t g : Nat) (s : State) : Host.Outcome State Fault Refusal := .next (s.storeDone (t, g) Group.acked)

/-- Codes of accesses that fail after issue (R235). -/
def deferCodes : List Nat := [cUncorrectable, cPoison, cLinkDown, cBudgetViolation]

/-- Threads of a reservation get no value: it is released for them, and as a whole where it holds no other (R112, R235). -/
def Resv.drop (r : Resv) (lanes : W64) : Option Resv :=
  if r.uni.isSome ∨ r.mask &&& ~~~ lanes = 0#64 then none else some { r with mask := r.mask &&& ~~~ lanes }

/-- What an access in flight writes where it finds these bytes. -/
def Late.again (l : Late) (bs : List Byte) : List Byte :=
  match l.kind with
  | .put => l.new
  | .add => leBytes bs.length (leNat bs + leNat l.new + 2 ^ (8 * bs.length) - leNat l.old)
  | .cas => if bs = l.old then l.new else bs

/-- Accesses in flight performed on a memory in their order: the memory after them, and what each then finds and writes. -/
def lateChain : Memory → List Late → Memory × List Late
  | m, [] => (m, [])
  | m, l :: ls =>
    let old := m.bytes l.pa l.new.length
    let q := lateChain (m.write l.pa (l.again old)) ls
    (q.1, { l with old := old, new := l.again old } :: q.2)

/-- The bytes of an access that fails: as they are without it, where they are still what the accesses in flight left. DESIGN CHOICE: where another
party has written them since, its bytes stand, and an addition is taken off them (log entry 55). `was` are the bytes before anything is taken
back, `all` and `rest` what the accesses in flight leave with and without those that fail. -/
def Late.back (l : Late) (was all rest now : List Byte) : List Byte :=
  if l.kind = .add ∧ was ≠ all then leBytes now.length (leNat now + leNat l.old + 2 ^ (8 * now.length) - leNat l.new)
  else (now.zipIdx).map fun b => if was[b.2]? = all[b.2]? then rest.getD b.2 b.1 else b.1

/-- Takes back those of the accesses in flight of a group whose indexes are given: they are not performed, and those after them come out as they
do without them (R235). Answers what stays in flight. -/
def State.takeBack (s : State) (ls : List Late) (ix : List Nat) : State × List Late :=
  let far := ls.zipIdx.filter fun p => p.1.far
  let gone := far.filter fun p => ix.contains p.2
  let stay := far.filter fun p => !ix.contains p.2
  let m0 := far.foldr (fun p m => m.write p.1.pa p.1.old) s.mem
  let all := (lateChain m0 (far.map Prod.fst)).1
  let rest := lateChain m0 (stay.map Prod.fst)
  let now := (stay.map Prod.snd).zip rest.2
  let at_ := fun (m : Memory) (l : Late) => m.bytes l.pa l.new.length
  (gone.foldl (fun u p => u.store p.1.pa (p.1.back (at_ s.mem p.1) (at_ all p.1) (at_ rest.1 p.1) (at_ u.mem p.1))) s,
   (ls.zipIdx.filter fun p => !ix.contains p.2).map fun p =>
     if gone.any fun x => spansMeet x.1.pa x.1.new.length p.1.pa p.1.new.length then ((now.find? fun x => x.1 == p.2).map Prod.snd).getD p.1 else p.1)

/-- The stores in flight that an event with this address meets, by their indexes: of each thread in `lanes` its store of the word at `pc`, or,
for an event that names no thread, the oldest store at the address. -/
def lateMet (ls : List Late) (addr : Nat) (lanes pc : W64) : List Nat :=
  if lanes = 0#64 then (ls.findIdx? fun l => l.va == addr).toList
  else (List.range 64).filterMap fun th =>
    let mine := fun l : Late => l.th == some th && l.pc == pc
    if !lanes.getLsbD th then none
    else ((ls.findIdx? fun l => mine l && l.va == addr).or (ls.findIdx? mine))

/-- The load that is out, or stores that are not acknowledged, fail in a group: the threads in `lanes` get no value, and a store to a host or
a peer is not performed (R112, R235). -/
def State.failAccess (s : State) (id : Nat × Nat) (code addr : Nat) (lanes pc : W64) : State :=
  match s.grp? id with
  | none => s
  | some x =>
    match x.resv.findIdx? fun r => r.load && r.due with
    | some i => s.updGrp id fun x => { x with resv := x.resv.take i ++ (x.resv[i]?.bind fun r => r.drop lanes).toList ++ x.resv.drop (i + 1) }
    | none =>
      let ix := lateMet x.late addr lanes pc
      let q := if code = cLinkDown then s.takeBack x.late ix else (s, (x.late.zipIdx.filter fun p => !ix.contains p.2).map Prod.fst)
      ((List.range (max 1 ix.length)).foldl (fun s _ => s.storeDone id fun x => { x with pendingStores := x.pendingStores - 1 }) q.1).updGrp id
        fun x => { x with late := q.2 }

/-- Meaning of DEFERRED_ACCESS_FAULT (R235, R369): an access that is still out fails, of the oldest load that is out or else of a store. An
uncorrectable error marks its line poisoned. -/
def execDeferredAccessFault (t g code addr detail : Nat) (lanes pc : BitVec 64) (s : State) : Host.Outcome State Fault Refusal :=
  .next (match s.team? t, s.grp? (t, g) with
    | some tm, some x =>
      if !deferCodes.contains code || (!(x.resv.any fun r => r.load && r.due) && x.pendingStores == 0) then s
      else
        let s1 := (s.failAccess (t, g) code addr lanes pc).updGrp (t, g) fun x =>
          x.defer { code := code, addr := addr, detail := detail, lanes := lanes } pc
        match if code = cUncorrectable then s.ctx? tm.ctx else none with
        | none => s1
        | some c => match s.translate c (some (tm, tm.coreOf g)) addr 1 .read true with
          | .ok (.phys pa _ _) => s1.poisonLines [pa / 128]
          | _ => s1
    | _, _ => s)

/-- No access that was translated before a freeze or the invalidations of a `tlbi` is still to be performed (R219 step 2, R222, R230 step 2): no
store that was out then, no fill or drain of a tile, and no decrement that follows updates. A migration waits also until the replay filters of
the slices hold no element of the context. -/
def State.drainedFor (s : State) (z : Freeze) : Bool :=
  (z.awaits.all fun a => a.2.2 == 0 || (s.grp? (a.1, a.2.1)).all fun g => g.pendingStores == 0) &&
  ((s.teams.filter fun t => z.inval == some true || t.ctx == z.ctx).all fun t => t.retires.isEmpty && t.jobs.isEmpty) &&
  (z.page.isNone || !(s.eng.replay.any fun r => r.ctx == z.ctx && decide (r.site < 192) && decide (s.ptp < r.tick + replayTicks)))

/-- A group still hands on pieces of a copy (R293). -/
def State.handing (s : State) (t g : Nat) : Bool := s.eng.copies.any fun c => c.team == t && c.grp == g && decide (c.placed < c.units)

/-- Meaning of STALL_OPERATION_COMPLETE (R98): the group goes on at the next word. One that hands on a copy waits until every piece has
found an engine (R293), and one that commits ranges or migrates a page until what was translated before is performed; then the commit or
migration takes effect (R219, R230). -/
def execStallOperationComplete (t g : Nat) (s : State) : Host.Outcome State Fault Refusal :=
  .next (match s.grp? (t, g) with
    | none => s
    | some x =>
      if x.wait ≠ .stall ∨ s.handing t g = true then s
      else match s.freezes.find? fun z => z.team == t && z.grp == g with
        | none => s.freeWait (t, g)
        | some z => if s.drainedFor z then ((s.thaw z).freeWait (t, g)).closeBatches else s)

/-! ### Pre-emption of waiting groups (R97, R380) -/

/-- A save that is requested takes a waiting group at once, unless its wait is over (R97). Groups at `phase` or `succ` still count as
arrived, and are taken when the image is written (R43). -/
def State.preemptGroup (s : State) (id : Nat × Nat) : State :=
  match s.team? id.1, s.grp? id with
  | some t, some g =>
    if !g.deferred.isEmpty ∧ (g.wait = .halted ∨ g.exited = true ∨ g.outside = true) then s.takeDeferred id t g
    else if t.slot ≠ .run ∨ g.exited = true ∨ !g.outside ∨ g.wait.arrived = true then s
    else
      let s1 := match g.wait with
        | .header => s
        | .tiles => s
        | .trace _ _ => s
        | .frozen => s
        | _ => s.tryRelease id
      match s1.grp? id with
      | some g1 => if g1.wait = g.wait then s1.takeGroup id t g1 else s1
      | none => s1
  | _, _ => s

/-- The TQ of a team has no room (R54, R291). -/
def State.tqFull (s : State) (t : Team) : Bool :=
  (s.ctx? t.ctx).any fun c => match s.openOwn c t.tq.toNat [kTask] with
    | .ok q => q.2.count == q.2.cap
    | .error _ => false

/-- A spill that waits for room in TQ is abandoned, and its team holds for the save (R54). -/
def Team.abandon (t : Team) : Team :=
  if t.slot = .spill ∧ t.groups ≠ [] then { t.halt with leave := none } else t

/-- The reservation of a gang that has not started is released (R54), and its cluster is chosen anew (R51); a team that was being restored is
a candidate again, and a die under a drain may hold no team any more (R402). -/
def State.dropHeld (s : State) (t : Team) : State :=
  let back := match t.load with
    | .image off single =>
      [({ ctx := t.ctx, off := off, id := t.id, ready := true, single := single, since := 0, lines := [], slices := [] } : Cand)]
    | _ => []
  State.testDrained { s with
           teams := s.teams.filter fun u => u.id != t.id
           sch := { s.sch with idents := if back.isEmpty then s.sch.idents.filter fun i => i.id != t.id else s.sch.idents
                               cands := s.sch.cands ++ back
                               gangs := (s.sch.gangs.map fun g =>
                                 if g.teams.contains t.id then { g with place := none, teams := [], rounds := 0, closed := false } else g).filter fun g =>
                                   !(g.ids.contains t.id) } }

/-- A running team of which every group has been taken at its boundary, or waits there at `phase` or `succ`, is in SAVE (R54). -/
def Team.reached (t : Team) : Team :=
  if t.slot = .run ∧ t.groups.all (fun g => g.exited || g.wait == .halted || g.wait.arrived) = true ∧ t.groups.any (fun g => g.wait == .halted) = true then
    { t with slot := .save }
  else t

/-- Everything that a requested save takes at once: a spill that finds room in TQ is not abandoned, and is written first (R54). -/
def State.preemptTeam (s : State) (t : Team) : State :=
  if t.slot = .held then s.dropHeld t
  else if t.slot = .spill then (if s.tqFull t then s.updTeam t.id Team.abandon else s)
  else ((List.range t.groups.length).foldl (fun s g => s.preemptGroup (t.id, g)) s).updTeam t.id Team.reached

/-- What follows every step: requested saves take the teams and groups that they can take (R97, R380). -/
def State.preempt (s : State) : State := (s.teams.filter fun t => s.wantSave t).foldl State.preemptTeam s

end Sys2Proof.Machine
end

