-- ==== Sys2Proof/Machine/Images.lean ====
section
/-! DEFINITION. The save area (R381 to R383): the image of a team, its reading back, and the place of images in the area. -/

namespace Sys2Proof.Machine

/-! ### The control section of a group (R160, R383) -/

/-- KIND of a divergence-stack entry (R160). -/
def stkCode : StkKind → Nat
  | .reconv => 0
  | .pending => 1
  | .call => 2
  | .target => 3
def stkOfCode (n : Nat) : StkKind := if n = 0 then .reconv else if n = 1 then .pending else if n = 2 then .call else .target

/-- The 24 bytes of a divergence-stack entry (R160). -/
def StkEnt.image (e : StkEnt) : List Byte := dword e.pc.toNat ++ dword e.mask.toNat ++ dword (e.label.toNat * 2 ^ 16 + stkCode e.kind)
def StkEnt.ofImage (bs : List Byte) : StkEnt :=
  let d := dwordAt bs 2
  { pc := BitVec.ofNat 64 (dwordAt bs 0), mask := BitVec.ofNat 64 (dwordAt bs 1), label := BitVec.ofNat 16 (natBits d 16 16),
    kind := stkOfCode (natBits d 0 2) }

/-- A LOOK entry (R383): KIND, WIDE, REM and index. -/
def lookWord (kind : Nat) (wide : Bool) (rem idx : Nat) : Nat :=
  2 ^ 31 + kind * 2 ^ 29 + (if wide then 2 ^ 28 else 0) + rem % 16 * 2 ^ 24 + idx % 256

/-- The LOOK entries of a reservation whose window is open. -/
def Resv.look (r : Resv) : List Nat :=
  if r.rem = 0 then []
  else
    (match r.qi with
     | some i => [lookWord 0 r.wide r.rem i]
     | none => []) ++
    (match r.named with
     | i :: more => [lookWord 1 (!more.isEmpty) r.rem i]
     | [] => []) ++
    (match r.uni with
     | some i => [lookWord 2 (r.uniN == 2) r.rem i]
     | none => [])

/-- The window of a restored LOOK entry: its value has arrived (R380, R388). -/
def Resv.ofLook (x : Nat) : Option Resv :=
  if !natBit x 31 then none
  else
    let kind := natBits x 29 2
    let wide := natBit x 28
    let i := natBits x 0 8
    some { qi := if kind = 0 then some i else none, wide := wide, named := if kind = 1 then (if wide then [i, i + 1] else [i]) else [],
           uni := if kind = 2 then some i else none, uniN := if kind = 2 then (if wide then 2 else 1) else 0, mask := 0#64, vals := [],
           rem := natBits x 24 4, arrived := true, load := false }

/-- Bytes cut or filled with zeros to a length. -/
def fit (n : Nat) (bs : List Byte) : List Byte := (bs ++ List.replicate (n - bs.length) 0#8).take n

/-- OUTB (R383). -/
def Group.outbits (g : Group) : Nat :=
  ((List.range 64).filter fun i => g.outb.any fun b => b.seq == g.seq - BitVec.ofNat 32 i).foldl (fun m i => m + 2 ^ i) 0

/-- The 512 bytes of a control section. DESIGN CHOICE: of more than 16 open LOOK entries the first 16 are kept (log entry 62). -/
def Group.control (g : Group) : List Byte :=
  let e := g.reenter
  let hage := g.hage.getD 0 3 + 4 * g.hage.getD 1 3 + 16 * g.hage.getD 2 3
  let call := match g.call with
    | some c => (if c.answered then 2 ^ 41 else 0) + 2 ^ 40 + (c.a + 0x30) * 2 ^ 32
    | none => 0
  dword e.1.toNat ++ dword g.mask.toNat ++ dword g.live.toNat ++
  dword (g.stk.length * 2 ^ 59 + e.2 * 2 ^ 54 + hage * 2 ^ 48 + call + g.status) ++
  dword (g.ktag.toNat * 2 ^ 32 + ((g.call.map fun c => c.epoch.toNat).getD 0)) ++ dword g.seq.toNat ++ dword g.outbits ++ dword 0 ++
  fit 64 ((g.resv.flatMap Resv.look).flatMap fun x => leBytes 4 x) ++ fit 384 (g.stk.reverse.flatMap StkEnt.image)

/-! ### The sections of a group (R381) -/

/-- Registers, predicates, generator, latches and control of a group. -/
def Group.section (g : Group) (named : Nat) : List Byte :=
  pad64 (g.threads.flatMap fun t => (List.range 16).flatMap fun i => leBytes 4 (t.qi i).toNat) ++
  pad64 ((List.range named).flatMap fun i => g.threads.flatMap fun t => leBytes 4 (t.ni i).toNat) ++
  pad64 (g.threads.flatMap fun t => leBytes 4 (t.k.toNat / 2 * 2) ++ leBytes 4 t.sr.toNat) ++
  ((List.range 32).flatMap fun i => leBytes 4 (g.si i).toNat) ++
  pad64 (g.threads.flatMap fun t => (List.range 3).flatMap fun i => leBytes 8 (t.hi i).toNat) ++ g.control

/-- Bytes of a keep-A snapshot of one octet (R182, R381). -/
def snapBytes (ct : Contract) : Nat := imgBytes ct true + 64

/-- The snapshots of a group, zero where it keeps none. -/
def Group.keepBytes (g : Group) (ct : Contract) : List Byte :=
  (List.range (g.width / 8)).flatMap fun o =>
    match if g.keep then g.snaps[o]? else none with
    | some sn => fit (imgBytes ct true) sn.image ++ fit 64 sn.scales
    | none => List.replicate (snapBytes ct) 0#8

/-! ### The image of a team (R381, R382) -/

/-- Offsets of the sections of an image, and its size. -/
structure Layout where
  grp : Nat
  acc : Nat
  keep : Nat
  ls : Nat
  tiles : Nat
  bars : Nat
  size : Nat
deriving DecidableEq, Repr

/-- The layout of the image of a team of a kernel. -/
def KDesc.layout (k : KDesc) : Layout :=
  let w := k.width
  let grp := padLen (64 * w) + padLen (4 * k.named * w) + padLen (8 * w) + 128 + padLen (24 * w) + 512
  let acc := 128 + k.groups * grp
  let keep := acc + k.groups * (w / 8) * k.acc * accBytes k.contract
  let ls := keep + k.groups * (w / 8) * snapBytes k.contract
  let tiles := ls + k.halves * (k.scratch * 1024)
  let bars := tiles + padLen (16 * k.tiles * k.halves)
  { grp := grp, acc := acc, keep := keep, ls := ls, tiles := tiles, bars := bars, size := bars + padLen (16 * k.barriers) }

/-- The team header (R382). -/
def Team.imageHead (t : Team) : List Byte :=
  let xyz := fun p : Nat × Nat × Nat => p.1 * 2 ^ 48 + p.2.1 * 2 ^ 32 + p.2.2 * 2 ^ 16
  dword t.kva.toNat ++ dword t.frame.toNat ++ dword (xyz t.team) ++ dword (xyz t.nteam) ++ dword t.launchId.toNat ++
  dword (t.phase.toNat * 2 ^ 32 + t.glive * 2 ^ 16 + clsCode t.cls * 2 ^ 8 + (if t.stepTest then 2 ^ 6 else 0)) ++
  dword (t.kd.layout.size / 64) ++ dword 0 ++ dword (t.core + (if t.kd.pair then (t.core + 1) * 2 ^ 9 else 0)) ++ List.replicate 56 0#8

/-- The image of a team. A group that waits at `phase` or `succ` is to issue that word again (R97). -/
def Team.imageBytes (t : Team) : List Byte :=
  let k := t.kd
  t.imageHead ++ t.groups.flatMap (fun g => g.rewind.section k.named) ++
  t.groups.flatMap (fun g => (List.range (k.width / 8)).flatMap fun o => (List.range k.acc).flatMap fun i =>
    accImage k.contract (t.accTileOf g.idx o i)) ++
  t.groups.flatMap (fun g => g.keepBytes k.contract) ++
  t.ls.flatMap (fun m => Memory.bytes m 0 (k.scratch * 1024)) ++
  pad64 (t.tiles.flatMap fun ts => (List.range k.tiles).flatMap fun i => (ts.getD i Tile.reset).image) ++
  pad64 (t.barriers.flatMap Barrier.image)

/-! ### Reading an image (R388) -/

/-- A thread from the sections of its group at offset o. -/
def Thread.ofImage (k : KDesc) (bs : List Byte) (o th : Nat) : Thread :=
  let w := k.width
  let n := o + padLen (64 * w)
  let p := n + padLen (4 * k.named * w)
  let h := p + padLen (8 * w) + 128
  { q := Vector.ofFn fun i : Fin 16 => BitVec.ofNat 32 (fieldAt bs (o + 64 * th + 4 * i.val) 4)
    n := Vector.ofFn fun i : Fin 32 => if i.val < k.named then BitVec.ofNat 32 (fieldAt bs (n + 4 * (i.val * w + th)) 4) else 0#32
    k := BitVec.ofNat 8 (fieldAt bs (p + 8 * th) 1 / 2 * 2)
    sr := BitVec.ofNat 32 (fieldAt bs (p + 8 * th + 4) 4)
    h := Vector.ofFn fun i : Fin 3 => BitVec.ofNat 64 (fieldAt bs (h + 24 * th + 8 * i.val) 8) }

/-- The outstanding batches of a restored group: those that the engines still know, by OUTB (R299, R383). -/
def outbOf (known : List Batch) (seq : W32) (bits : Nat) : List Batch :=
  known.filter fun b => (List.range 64).any fun i => natBit bits i && b.seq == seq - BitVec.ofNat 32 i

/-- A group from its section at offset o, its snapshots at offset ko, and the batches and unsealed copies that the engines know. DESIGN
CHOICE: a landing check that was still to be made at the header is not made after the restore, since the image has no place for it (log
entry 63). -/
def Group.ofImage (k : KDesc) (idx slot : Nat) (glive : Bool) (bs : List Byte) (o ko : Nat) (known : List Batch × List Nat) : Group :=
  let w := k.width
  let so := o + padLen (64 * w) + padLen (4 * k.named * w) + padLen (8 * w)
  let co := o + k.layout.grp - 512
  let d := fun i => fieldAt bs (co + 8 * i) 8
  let live := if glive then BitVec.ofNat 64 (d 2) &&& allMask w else 0#64
  let d3 := d 3
  let keep := natBit d3 8
  let call : Option OpenCall := if natBit d3 40 then
    some { epoch := BitVec.ofNat 32 (d 4), a := natBits d3 32 8 - 0x30, answered := natBit d3 41 } else none
  let seq := BitVec.ofNat 32 (d 5)
  let ib := imgBytes k.contract true
  { idx := idx, pc := BitVec.ofNat 64 (d 0), pos := 0, clause := [], resw := natBits d3 54 5, mask := BitVec.ofNat 64 (d 1) &&& allMask w,
    live := live
    stk := ((List.range (min 16 (natBits d3 59 5))).map fun i => StkEnt.ofImage ((bs.drop (co + 128 + 24 * i)).take 24)).reverse
    s := Vector.ofFn fun i : Fin 32 => BitVec.ofNat 32 (fieldAt bs (so + 4 * i.val) 4)
    threads := (List.range w).map fun th => Thread.ofImage k bs o th
    hage := #v[natBits d3 48 2, natBits d3 50 2, natBits d3 52 2]
    resv := (List.range 16).filterMap fun i => Resv.ofLook (fieldAt bs (co + 64 + 4 * i) 4)
    touched := [], land := none, wait := if call.isSome && live != 0#64 then .sysc else .none, wpc := 0#64, wword := 0, prior := none
    mstat := BitVec.ofNat 32 (natBits d3 0 4), keep := keep, ktag := BitVec.ofNat 32 (d 4 / 2 ^ 32)
    snaps := if keep then (List.range (w / 8)).map fun i =>
      { image := (bs.drop (ko + i * snapBytes k.contract)).take ib, scales := (bs.drop (ko + i * snapBytes k.contract + ib)).take 64 } else []
    seq := seq, outb := outbOf known.1 seq (d 6), unsealed := known.2, pendingStores := 0, late := [], wrote := [], part := [],
    monitor := none, csel := 0, call := call
    deferred := [], traceDrop := false, tslots := 0, slot := slot }

/-- The bytes of n 64-byte units and so on: a slice of a list. -/
def slice (bs : List Byte) (o n : Nat) : List Byte := (bs.drop o).take n

/-- A team in START takes its image. -/
def Team.ofImage (t : Team) (bs : List Byte) (known : Nat → List Batch × List Nat) : Team :=
  let k := t.kd
  let l := k.layout
  let d5 := dwordAt bs 5
  let ab := accBytes k.contract
  let octs := k.width / 8
  let grp := fun (g : Group) =>
    Group.ofImage k g.idx g.slot (natBit d5 (16 + g.idx)) bs (128 + g.idx * l.grp) (l.keep + g.idx * octs * snapBytes k.contract) (known g.idx)
  { t with phase := BitVec.ofNat 32 (d5 / 2 ^ 32), stepTest := natBits d5 6 2 == 1, groups := t.groups.map grp
           acc := (List.range k.groups).map fun g => (List.range octs).map fun o => (List.range k.acc).map fun i =>
             (List.range 256).map fun x => itemAt bs (l.acc + ((g * octs + o) * k.acc + i) * ab) (ab / 256) x
           ls := (List.range k.halves).map fun h => Memory.write [] 0 (slice bs (l.ls + h * (k.scratch * 1024)) (k.scratch * 1024))
           tiles := (List.range k.halves).map fun h => (List.range k.tiles).map fun i =>
             let o := l.tiles + 16 * (h * k.tiles + i)
             Tile.ofImage (fieldAt bs o 8) (BitVec.ofNat 64 (fieldAt bs (o + 8) 8))
           barriers := (List.range k.barriers).map fun i => Barrier.ofImage (fieldAt bs (l.bars + 16 * i) 8) (fieldAt bs (l.bars + 16 * i + 8) 8) }

/-! ### The area (R381, R389) -/

/-- CAUSE codes (R381). -/
def causeCode : Cause → Nat
  | .cmd => 0
  | .stop => 1
  | .sched => 2

/-- The 64 bytes of the area's header. -/
def areaHead (c : Ctx) (nteam units ts : Nat) (cause : Cause) : List Byte :=
  dword (nteam * 2 ^ 32 + units) ++ dword ts ++ dword (c.tenant.toNat * 2 ^ 48 + c.num * 2 ^ 32 + causeCode cause) ++ List.replicate 40 0#8

/-- Bytes of a context's save area. -/
def Ctx.areaBytes (c : Ctx) : Nat := c.savesz * 4096

/-- Dword 5 and the size in bytes of the image at an offset. -/
def State.imageD5 (s : State) (c : Ctx) (off : Nat) : Nat := s.mem.rd (c.savebase + off + 40) 8
def State.imageSize (s : State) (c : Ctx) (off : Nat) : Nat := 64 * s.mem.rd (c.savebase + off + 48) 4

/-- Offsets of n images from one on. -/
def State.imagesFrom (s : State) (c : Ctx) : Nat → Nat → List Nat
  | 0, _ => []
  | n + 1, off => off :: s.imagesFrom c n (off + s.imageSize c off)

/-- NTEAM and UNITS of the header. -/
def State.areaCount (s : State) (c : Ctx) : Nat := s.mem.rd (c.savebase + 4) 4
def State.areaUnits (s : State) (c : Ctx) : Nat := s.mem.rd c.savebase 4

/-- Images of a context that are still to be restored, in the order of the area. -/
def insertCand (x : Cand) : List Cand → List Cand
  | [] => [x]
  | y :: ys => if x.off ≤ y.off then x :: y :: ys else y :: insertCand x ys
def State.heldImages (s : State) (ctx : Nat) : List Cand :=
  (s.sch.cands.filter fun c => c.ctx == ctx && c.off != 0).foldl (fun l c => insertCand c l) []

/-- What stands in the area before new images: bytes to write from offset 64, how many images and units, whose they are, and where the
held images are then. -/
structure AreaPlan where
  keep : List Byte
  start : Nat
  count : Nat
  ids : List Nat
  moved : List (Nat × Nat)
deriving DecidableEq, Repr

/-- New offsets of held images that are moved together. -/
def State.packed (s : State) (c : Ctx) : List Cand → Nat → List (Nat × Nat)
  | [], _ => []
  | x :: xs, off => (x.off, off) :: s.packed c xs (off + s.imageSize c x.off)

/-- Held images stay where they are while every image of the area is held or restored (R389); otherwise, among images that `ctxld` has
restored, they are moved together. With none held, a save writes from the start. -/
def State.planArea (s : State) (c : Ctx) : AreaPlan :=
  let held := s.heldImages c.num
  if held.isEmpty then { keep := [], start := 64, count := 0, ids := [], moved := [] }
  else
    let n := s.areaCount c
    if (s.imagesFrom c n 64).all fun o => natBit (s.imageD5 c o) 5 || held.any fun x => x.off == o then
      { keep := [], start := 64 * s.areaUnits c, count := n, ids := c.saveIds.take n, moved := [] }
    else
      let bs := held.flatMap fun x => s.mem.bytes (c.savebase + x.off) (s.imageSize c x.off)
      { keep := bs, start := 64 + bs.length, count := held.length, ids := held.map Cand.id, moved := s.packed c held 64 }

/-- Writes the images of some teams and the header into the area; an error is the detail of a WATCHDOG: no room, or a line that the save
writes in part and whose bytes are lost (R376, R381). -/
def State.writeArea (s : State) (c : Ctx) (teams : List Team) (cause : Cause) : Except Nat State :=
  let p := s.planArea c
  let bs := teams.flatMap Team.imageBytes
  let total := p.start + bs.length
  if c.areaBytes < total then .error 2
  else if ([(c.savebase, 64), (c.savebase + 64, p.keep.length), (c.savebase + p.start, bs.length)].any fun x =>
      (partLines x.1 x.2).any s.badLine) then .error 3
  else
    let s1 := ((s.store (c.savebase + 64) p.keep).store (c.savebase + p.start) bs).store c.savebase
      (areaHead c (p.count + teams.length) (total / 64) (s.ptp % 2 ^ 56) cause)
    let s2 := s1.updCtx c.num fun c => { c with saveIds := p.ids ++ teams.map Team.id }
    let place := fun (x : Cand) => match p.moved.find? fun m => m.1 == x.off with
      | some m => { x with off := m.2 }
      | none => x
    .ok (s2.updSch fun x => { x with cands := x.cands.map fun y => if y.ctx == c.num && y.off != 0 then place y else y })

end Sys2Proof.Machine
end

