-- ==== Sys2Proof/Machine/Grants.lean ====
section
/-! DEFINITION. The choice of a core (R50, R51, R225, R282), the seat of a team in a slot (R40, R53, R54, R352), and the restore of saved
images (R388, R389). -/

namespace Sys2Proof.Machine

/-! ### The choice of a core -/

/-- The first element with the greatest value. -/
def firstMax {α : Type} (f : α → Nat) : List α → Option α
  | [] => none
  | x :: xs =>
    match firstMax f xs with
    | none => some x
    | some y => if f y ≤ f x then some x else some y

/-- A cluster that a waiting gang has closed, or on which it has waited 64 rounds since its first reservation (R51). -/
def State.closedCluster (s : State) (core : Nat) : Bool :=
  s.sch.gangs.any fun g => (g.closed || (decide (64 ≤ g.rounds) && g.teams != [])) && g.place == some (coreDie core, coreCluster core)

/-- A core suits a team beside the resident teams of its gang: the gang's teams occupy one cluster, each on its own cores (R38). -/
def State.besideGang (s : State) (k : KDesc) (gang : List Nat) (id core : Nat) : Bool :=
  s.teams.all fun u =>
    !(gang.contains u.id && u.id != id && u.core != 0) || (u.core / 4 == core / 4 && !(u.cores.any (coresFrom k core).contains))

/-- Lower cores of a cluster on which a team of the kernel may be placed now, besides what `ok` asks. -/
def State.roomsIn (s : State) (k : KDesc) (ok : Nat → Bool) (die cluster : Nat) : List Nat :=
  (lowerCores k die cluster).filter fun c => s.roomAt k c && !s.closedCluster c && ok c

/-- Clusters of a class on the chiplets of one chamber die, or of the other. -/
def State.clustersOf (s : State) (cls : Cls) (hub : Nat) (own : Bool) : List (Nat × Nat) :=
  ((s.openDies cls).filter fun d => (chamberOf d == hub) == own).flatMap fun d => (List.range (dieClusters d)).map fun k => (d, k)

/-- The core in the cluster with the most free entries, the lowest on a tie (R282). -/
def State.pickIn (s : State) (k : KDesc) (cls : Cls) (hub : Nat) (own : Bool) (ok : Nat → Bool) : Option Nat :=
  let cs := (s.clustersOf cls hub own).filter fun p => !(s.roomsIn k ok p.1 p.2).isEmpty
  (firstMax (fun p => s.clusterFree p.1 p.2) cs).bind fun p => (s.roomsIn k ok p.1 p.2).head?

/-- The core of a dispatch (R282): the core that a resuming team left if it has room, then the scheduler's own die, then the other. -/
def State.pickCore (s : State) (k : KDesc) (cls : Cls) (hub prev : Nat) (ok : Nat → Bool) : Option Nat :=
  let die := coreDie prev
  if (s.openDies cls).contains die && (s.roomsIn k ok die (coreCluster prev)).contains prev then some prev
  else (s.pickIn k cls hub true ok).orElse fun _ => s.pickIn k cls hub false ok

/-! ### Seats -/

/-- A team that holds nothing yet. -/
def Team.blank (id ctx : Nat) (cls : Cls) (kva : W64) (k : KDesc) : Team :=
  { id := id, ctx := ctx, cls := cls, prio := 0, tenant := 0, bcls := 0, kva := kva, kd := k, frame := 0#64, team := (0, 0, 0),
    nteam := (0, 0, 0), launchId := 0#64, args := 0#64, done := 0#64, tq := 0#64, fstride := 64, launch := 0, phase := 0#32, core := 0,
    slot := .start, settle := .none, leave := none, load := .none, stepTest := false, last := 0, groups := [], acc := [], tiles := [], ls := [],
    barriers := [], relaunch := 0, counts := List.replicate k.halves SlotCount.zero, jobs := [], retires := [], mfetch := none,
    gang := [] }

/-- The cluster takes the kernel's L1 mode; a change invalidates its L1s (R225). -/
def State.fuse (s : State) (k : KDesc) (core : Nat) : State :=
  let p := (coreDie core, coreCluster core)
  if s.fused.contains p == k.fusel1 then s
  else { s with fused := if k.fusel1 then p :: s.fused else s.fused.filter fun x => x != p
                l1 := s.l1.filter fun l => l.home / 4 != core / 4 }

/-- Reserves the resources of a team on its core and gives it the start state of R40. DEDUCED: this takes 4 ns at least, half of a scheduling
round (R51), so that no group reads less of `$ptp` on its new die than on its old one (R156, R355; log entry 2). -/
def State.seat (s : State) (t : Team) : State :=
  let seed := ((s.ctx? t.ctx).map fun c => c.seed.toNat).getD 0
  let s1 := (s.pass 16).fuse t.kd t.core
  let k := t.kd
  let slots := s1.groupSlots k t.core
  let grp := fun (g : Nat) =>
    (Group.fresh k g seed t.phase.toNat (slots.getD g 0) k.entry).abi t.args (linearIdx t.team t.nteam) t.launchId
  let t1 : Team := { t with
    groups := (List.range k.groups).map grp, acc := freshAcc k
    tiles := List.replicate k.halves (List.replicate k.tiles Tile.reset), ls := List.replicate k.halves []
    barriers := List.replicate k.barriers (Barrier.reset k.groups) }
  { s1 with teams := s1.teams ++ [t1] }

/-- A team by what its launch says of it (R275, R282). -/
def Team.ofLaunch (t : Team) (l : Launch) : Team :=
  { t with prio := l.prio, tenant := l.tenant, bcls := l.bcls, args := l.args, done := l.done, tq := l.tq, fstride := l.fstride, launch := l.id }

/-! ### Images as candidates (R388, R389) -/

/-- The descriptor at a VA, if it can be read and is valid. -/
def State.kdescAt (s : State) (c : Ctx) (va : Nat) : Option KDesc :=
  match s.readRec c none va 64 with
  | .ok bs => if va % 64 = 0 ∧ badKdesc bs = none then some (kdescOf bs) else none
  | .error _ => none

/-- The dwords of the frame header at a VA, zero where it cannot be read (R277). -/
def State.frameDwords (s : State) (c : Ctx) (va : Nat) : Nat → Nat :=
  match s.readRec c none va 64 with
  | .ok bs => dwordAt bs
  | .error _ => fun _ => 0

/-- A team whose launch the scheduler does not know, by what its frame header says of it (R277, R388). -/
def Team.ofFrame (t : Team) (d : Nat → Nat) : Team :=
  { t with args := BitVec.ofNat 64 (d 1), done := BitVec.ofNat 64 (d 4), tq := BitVec.ofNat 64 (d 5) }

/-- The team of a saved image, still without a core. -/
def State.imageTeam (s : State) (x : Cand) : Option Team :=
  (s.ctx? x.ctx).bind fun c =>
    let bs := s.mem.bytes (c.savebase + x.off) 128
    let xyz := fun d : Nat => (natBits d 48 16, natBits d 32 16, natBits d 16 16)
    (s.kdescAt c (dwordAt bs 0)).bind fun k => (clsOfCode (natBits (dwordAt bs 5) 8 8)).map fun cls =>
      let idn := s.sch.idents.find? fun i => i.id == x.id
      let t : Team := { Team.blank x.id x.ctx cls (BitVec.ofNat 64 (dwordAt bs 0)) k with
        frame := BitVec.ofNat 64 (dwordAt bs 1), team := xyz (dwordAt bs 2), nteam := xyz (dwordAt bs 3), launchId := BitVec.ofNat 64 (dwordAt bs 4),
        tenant := c.tenant.toNat, load := .image x.off x.single, relaunch := (idn.map Ident.relaunch).getD 0, gang := (idn.map Ident.gang).getD [] }
      match idn.bind fun i => s.sch.launches.find? fun l => l.id == i.launch with
      | some l => t.ofLaunch l
      | none => t.ofFrame (s.frameDwords c t.frame.toNat)

/-- Where the team of an image may resume now. -/
def State.imageCore (s : State) (t : Team) (hub : Nat) : Option Nat :=
  s.pickCore t.kd t.cls hub (s.leftCore t.id) fun c => s.besideGang t.kd t.gang t.id c

/-- Grants an image that belongs to no gang (R54, R388, R389). -/
def State.grantImage (s : State) (x : Cand) (hub : Nat) : State :=
  match s.imageTeam x with
  | none => s
  | some t =>
    match s.imageCore t hub with
    | none => s
    | some core =>
      (s.updSch fun h => { h with cands := h.cands.filter fun y => !(y.ctx == x.ctx && y.id == x.id) }).seat { t with core := core }

/-- The image may be granted: its context runs, its save is written, and it is awaited no longer. -/
def State.imageReady (s : State) (x : Cand) : Bool :=
  x.ready && x.off != 0 && !s.frozenCtx x.ctx && (s.ctx? x.ctx).any fun c => c.st == .running && c.saving.isNone

/-- Meaning of SCHEDULER_RESTORE (R389): the ready images of single-team saves of a context whose teams find room are granted. -/
def execSchedulerRestore (ctx id : Nat) (s : State) : Host.Outcome State Fault Refusal :=
  .next (match s.sch.cands.find? fun x => x.ctx == ctx && x.id == id && x.single with
    | some x => if s.imageReady x && ((s.imageTeam x).any fun t => t.gang.isEmpty) then s.grantImage x (chamberOf (coreDie (s.leftCore id))) else s
    | none => s)

/-! ### Loading (R54) -/

/-- Where a copy of a team that has moved reads and writes LS (R299, R388). -/
def moveCore (old new x : Nat) : Nat := if old ≤ x then new + (x - old) else x
def Endp.move (id old new : Nat) : Endp → Endp
  | .ls t c o => .ls t (if t = id then moveCore old new c else c) o
  | e => e
def Copy.move (id old new : Nat) (c : Copy) : Copy :=
  { c with core := if c.team = id then moveCore old new c.core else c.core, src := c.src.move id old new, dst := c.dst.move id old new
           cores := c.cores.map fun p => if p.2 = id then (moveCore old new p.1, p.2) else p }

/-- Cores that hold groups of a context, with the mask of the slots that `p` selects (R352). -/
def slotMasks (ts : List Team) : List (Nat × Nat) :=
  let cores := (ts.flatMap Team.cores).foldl (fun l c => insertIdx c l) []
  cores.map fun c => (c, (ts.flatMap fun t => (t.groups.filter fun g => t.coreOf g.idx == c).map fun g => 2 ^ g.slot).sum)

/-- Event 0x12 or 0x13 of each core (R352). -/
def State.emitMasks (s : State) (ctx code : Nat) (ts : List Team) : State :=
  (slotMasks ts).foldl (fun s p => match ts.find? fun t => t.cores.contains p.1 with
    | some t => s.emitCore { t with ctx := ctx } p.1 code (BitVec.ofNat 32 p.2)
    | none => s) s

/-- Sets RST in the image at an offset; when every image of the area has it, NTEAM and UNITS become 0 (R389). -/
def State.setRst (s : State) (c : Ctx) (off : Nat) : State :=
  let d := s.imageD5 c off
  let s1 := s.storeNat (c.savebase + off + 40) 8 (if natBit d 5 then d else d + 32)
  if (s1.imagesFrom c (s1.areaCount c) 64).all fun o => natBit (s1.imageD5 c o) 5 then s1.storeNat c.savebase 8 0 else s1

/-- Every team of the context that `ctxld` restores is loaded: event 0x13 (R388). -/
def State.restored (s : State) (ctx : Nat) : State :=
  let more := (s.sch.cands.any fun x => x.ctx == ctx && !x.single) || s.teams.any fun t => t.ctx == ctx && match t.load with
    | .image _ false => t.slot == .start
    | _ => false
  if more then s else s.emitMasks ctx 0x13 (s.teams.filter fun t => t.ctx == ctx && t.core != 0)

/-- The test that a saved team still has to make (R43, R54). -/
def State.restoredGate (s : State) (c : Ctx) (t : Team) : State :=
  let idn := s.sch.idents.find? fun i => i.id == t.id
  if (idn.map Ident.starting).getD false then s.gate c t 0 ((idn.bind Ident.maps).getD Maps.none) true
  else
    let p := (t.phase.toNat + 1) % 2 ^ 32
    match s.carryEntry c t.kd (if p = 0 then 2 ^ 32 else p) with
    | .ok m => s.gate c t p m false
    | .error x => s.carryFail t x

/-- What copies that ended while a team was away owe it is done (R299). DEDUCED: when its image is loaded (log entry 94). -/
def State.takePosts (s : State) (id : Nat) : State :=
  let ps := ((s.sch.idents.find? fun i => i.id == id).map Ident.posts).getD []
  (ps.foldl (fun s p => s.post id p) s).updIdent id fun i => { i with posts := [] }

/-- A saved image is in place: the team runs, or makes its test (R388); one that was saved with every group exited ends. -/
def State.loadImage (s : State) (c : Ctx) (t : Team) (off : Nat) (single : Bool) : State :=
  let idn := s.sch.idents.find? fun i => i.id == t.id
  let known := fun (g : Nat) => (((idn.map Ident.outb).getD []).find? fun x => x.1 == g).map Prod.snd |>.getD ([], [])
  let bs := s.mem.bytes (c.savebase + off) t.kd.layout.size
  let t1 : Team := { t.ofImage bs known with slot := .run, load := .none }
  let s0 := (s.updTeam t.id fun _ => t1).updEng fun e => { e with copies := e.copies.map (Copy.move t.id (s.leftCore t.id) t.core) }
  let s1 := s0.takePosts t.id
  let s2 := if single then s1.setRst c off else s1
  let s3 := match s2.team? t.id with
    | some t2 => if t2.stepTest then s2.restoredGate c t2 else
      let s3 := (s2.acquireTeam t2).emitTeam t2 0x01 t2.phase.toNat
      if t2.groups.all Group.exited then s3.setSettle t2.id .ended else s3
    | none => s2
  (if single then s3 else s3.restored c.num).closeBatches

/-- A team resumes from its task (R279, R280): the start state of R40, with the spill read back where a set is carried. -/
def State.loadTask (s : State) (c : Ctx) (t : Team) (code : W64) (phase : W32) (maps : Option Maps) : Except Exc Team := do
  let m ← if phase = 0#32 then .ok maps else (s.carryEntry c t.kd phase.toNat).map some
  let t0 : Team := { t with slot := .run, load := .none, phase := phase
                            groups := t.groups.map fun g => { g with pc := code, threads := g.threads.mapIdx fun th x =>
                              { x with sr := BitVec.ofNat 32 (srInit c.seed.toNat (g.idx * g.width + th) phase.toNat) } } }
  match m with
  | none => pure t0
  | some m =>
    let d6 := leNat (← s.readRec c none (t.frame.toNat + 48) 8)
    let bs ← s.readRec c none (t.frame.toNat + 64) (d6 / 2 ^ 32)
    pure (t0.unspill m (natBits d6 0 16) bs)

/-- Meaning of TEAM_START_LOADED (R54): what a slot in START loads is in place, and the team runs. -/
def execTeamStartLoaded (id : Nat) (s : State) : Host.Outcome State Fault Refusal :=
  .next (match s.team? id with
    | none => s
    | some t =>
      match s.ctx? t.ctx with
      | none => s
      | some c =>
        if t.slot ≠ .start ∨ s.frozenCtx c.num = true then s
        else
          let run := fun (s : State) (t1 : Team) => ((s.updTeam id fun _ => t1).acquireTeam t1).emitTeam t1 0x01 t1.phase.toNat
          match t.load with
          | .none => s
          | .succ => (s.updTeam id fun t => { t with slot := .run, load := .none }).acquireTeam t
          | .fresh header =>
            match if header then s.writeRec c t.frame.toNat t.frameHeader else s.writePcode c t t.kd.entry with
            | .error x => s.carryFail t x
            | .ok s1 => run s1 { t with slot := .run, load := .none }
          | .task code phase maps =>
            match s.loadTask c t code phase maps with
            | .error x => s.carryFail t x
            | .ok t1 => run (s.updIdent id fun i => { i with starting := false }) t1
          | .image off single => s.loadImage c t off single)

end Sys2Proof.Machine
end

