-- ==== Sys2Proof/Machine/Calls.lean ====
section
/-! DEFINITION. Traps and service calls (R384 to R387). -/

namespace Sys2Proof.Machine

/-! ### `trap` and `brk` (R386) -/

/-- The word is complete, and its fault stops the context: the group resumes at the next clause (R371, R386). -/
def State.trapAt (s : State) (i : Iss) (code : Nat) : State :=
  s.takeFault i.id { code := code, detail := i.v.func, lanes := if i.v.u then 0#64 else i.mask } i.g.wordPc i.g.nextClause 0 false

/-- The word falls through: no active thread would raise it. -/
def Iss.idle (i : Iss) : Bool := !i.v.u && i.mask == 0#64

/-- Meaning of `trap` (R386). -/
def execTrap (w : FS) (s : State) : Host.Outcome State Fault Refusal :=
  let v := w.view 0x10B
  runWord { sh := shTrap v } v s fun i s1 => .ok (if i.idle then s1.endClause i id else s1.trapAt i cTrap)

/-- Meaning of `brk` (R386): a `nop` unless DBG.BRKEN is set. -/
def execBrk (w : FS) (s : State) : Host.Outcome State Fault Refusal :=
  let v := w.view 0x10C
  runWord { sh := shTrap v } v s fun i s1 =>
    .ok (if i.idle || !i.c.dbg.getLsbD 0 then s1.endClause i id else s1.trapAt i cBreakpoint)

/-! ### `sysc` (R387) -/

/-- The item of a call (R387): TOKEN, service number and tenant, the PC of the word, and s(A) to s(A+7). -/
def syscItem (c : Ctx) (g : Group) (epoch : W32) (svc a : Nat) (pc : W64) : List Byte :=
  dword (c.num * 2 ^ 56 + epoch.toNat) ++ dword (svc * 2 ^ 48 + c.tenant.toNat * 2 ^ 32) ++ dword pc.toNat ++ dword 0 ++
  (List.range 8).flatMap fun k => leBytes 4 (g.si (a + k)).toNat

/-- The service queue of a context, in context 0 (R366). -/
def State.openSvcq (s : State) (c : Ctx) : Except Exc (Ctx × Nat × QHdr) := do
  match s.ctx? 0 with
  | none => .error { code := cTranslation, addr := c.svcq.toNat }
  | some z =>
    let q ← s.openQueue z c.svcq.toNat [kWork]
    let _ ← s.queuePa z (q.2.item q.2.tail) 64
    pure (z, q.1, q.2)

/-- The item of a group's call enters SVCQ, which performs the stores of the group before it (R289, R387), and the group's core has what the
enqueue has written (R257); nothing changes where there is no room. -/
def State.enqueueFor (s : State) (id : Nat × Nat) (q : Ctx × Nat × QHdr) (item : List Byte) : Except Exc (Option Nat × State) := do
  let slot ← s.queuePa q.1 (q.2.2.item q.2.2.tail) 64
  let r ← s.enqueue q.1 q.2.1 q.2.2 item
  let s1 := match s.team? id.1 with
    | some t => r.2.ringTouch t (t.coreOf id.2) slot q.2.1 (s.waitSpans q.2.1)
    | none => r.2
  pure (r.1, if r.1.isSome then s1.updGrp id Group.perform else r.2)

/-- VAs of context 0 that the enqueue of a call translates: the header of SVCQ and the slot. -/
def syscVas (c : Ctx) (q : Ctx × Nat × QHdr) : List Nat := [c.svcq.toNat, q.2.2.item q.2.2.tail]

/-- Meaning of `sysc` (R385, R387): the call takes its EPOCH and its item enters SVCQ, which performs the stores before it, or waits for room
there. The word stalls while a freeze holds the queue's pages, or while they need a walk (R219, R221, R231). -/
def execSysc (w : FS) (s : State) : Host.Outcome State Fault Refusal :=
  let v := w.view 0x10F
  runWord { sh := shSysc v, touch := fun _ => (List.range 8).map fun k => (v.a + k, false) } v s fun i s1 => do
    if i.c.svcq = 0#64 then .error { code := cPermission, detail := 7 }
    let q ← s1.openSvcq i.c
    if (syscVas i.c q).any (s1.frozenVa q.1.num) then return s1.freezeRetry i
    let pages := s1.walkPages q.1 i.core (syscVas i.c q)
    if pages ≠ [] then return (s1.startWalks q.1 i.core i.id pages).retry i
    let s1 := s1.coreFills q.1 i.core i.id (syscVas i.c q)
    let a := v.a - 0x30
    let epoch := ((s1.ctx? i.c.num).map Ctx.epoch).getD 0#32
    let s2 := s1.updCtx i.c.num fun c => { c with epoch := c.epoch + 1#32 }
    let r ← s2.enqueueFor i.id q (syscItem i.c i.g epoch v.func a i.g.wordPc)
    let s3 := if r.1.isSome then r.2
      else { r.2 with calls := r.2.calls ++ [{ team := i.id.1, grp := i.id.2, ctx := i.c.num, item := syscItem i.c i.g epoch v.func a i.g.wordPc }] }
    pure ((s3.endWait i .sysc).updGrp i.id fun g => { g with call := some { epoch := epoch, a := a, answered := false } })

/-- The item of a call that waits for room in SVCQ enters it, or meets the fault of a queue that has changed since. -/
def State.enqueueCall (s : State) (c : Ctx) (p : PendCall) : Except Exc (Option Nat × State) := do
  let q ← s.openSvcq c
  s.enqueueFor (p.team, p.grp) q p.item

/-- Meaning of SYSC_ENQUEUE (R387): the item of a call that waits for room enters SVCQ, whether its group waits on a core or is saved, which
performs the group's stores before it. A fault that the queue meets by now closes the call: it is taken at the group's boundary, or logged where
the group is saved (log entry 60). -/
def execSyscEnqueue (t g : Nat) (s : State) : Host.Outcome State Fault Refusal :=
  .next (match s.calls.find? fun p => p.team == t && p.grp == g with
    | none => s
    | some p =>
      let s0 := { s with calls := s.calls.erase p }
      match s.ctx? p.ctx with
      | none => s0
      | some c =>
        if s.frozenCtx 0 then s
        else match s0.enqueueCall c p with
        | .ok (some _, s1) => s1
        | .ok (none, _) => s
        | .error x =>
          if (s.grp? (t, g)).isSome then s0.updGrp (t, g) fun gr => { gr.defer x gr.waitPc with wait := .none, call := none }
          else s0.logFault p.ctx x.code x.detail x.addr)

/-! ### `eret` (R387) -/

/-- The group waits with the open call of an epoch. -/
def Group.holds (g : Group) (epoch : W32) : Bool :=
  g.call.any fun c => c.epoch == epoch && !c.answered

/-- The answer reaches a caller on a core: s(CALLA) to s(CALLA+3). -/
def Group.answer (g : Group) (xs : List W32) : Group :=
  match g.call with
  | none => g
  | some c =>
    let g1 := (List.range 4).foldl (fun g k => g.setS (c.a + k) (xs.getD k 0#32)) g
    { g1 with call := some { c with answered := true } }

/-- A saved group with the open call of an epoch, also in an image that is granted a core and not yet loaded: the PA of its section, its
kernel, and CALLA. -/
def State.savedCall (s : State) (c : Ctx) (epoch : W32) : Option (Nat × KDesc × Nat) :=
  let loading := s.teams.filterMap fun t => match t.load with
    | .image off _ => if t.ctx = c.num then some off else none
    | _ => none
  let offs := if c.st = .saved then (s.imagesFrom c (s.areaCount c) 64).filter fun o => !natBit (s.imageD5 c o) 5
    else (s.heldImages c.num).map Cand.off ++ loading
  offs.findSome? fun o =>
    (s.kdescAt c (s.mem.rd (c.savebase + o) 8)).bind fun k =>
      (List.range k.groups).findSome? fun g =>
        let pa := c.savebase + o + 128 + g * k.layout.grp
        let d3 := s.mem.rd (pa + k.layout.grp - 512 + 24) 8
        if natBit d3 40 && !natBit d3 41 && s.mem.rd (pa + k.layout.grp - 512 + 32) 4 == epoch.toNat then some (pa, k, natBits d3 32 8 - 0x30) else none

/-- The answer is written into a saved image, and ANSW is set. -/
def State.answerSaved (s : State) (p : Nat × KDesc × Nat) (xs : List W32) : State :=
  let uni := p.1 + padLen (64 * p.2.1.width) + padLen (4 * p.2.1.named * p.2.1.width) + padLen (8 * p.2.1.width)
  let d3 := p.1 + p.2.1.layout.grp - 512 + 24
  (s.store (uni + 4 * p.2.2) (xs.flatMap fun x => leBytes 4 x.toNat)).storeNat d3 8 (s.mem.rd d3 8 + 2 ^ 41)

/-- The answer to the call of a token: what DST receives, and the state (R387). -/
def State.answerCall (s : State) (token : Nat) (xs : List W32) : Nat × State :=
  let epoch := BitVec.ofNat 32 token
  match if natBits token 32 24 = 0 then s.ctx? (natBits token 56 8) else none with
  | none => (2, s)
  | some c =>
    match s.teams.findSome? fun t => if t.ctx = c.num then (t.groups.find? fun g => g.holds epoch).map fun g => (t, g.idx) else none with
    | some (t, g) => (0, (s.updGrp (t.id, g) fun x => x.answer xs).acquire t (t.coreOf g) 5)
    | none =>
      match s.savedCall c epoch with
      | some p => (1, s.answerSaved p xs)
      | none => (2, s)

/-- Meaning of `eret` (R385, R387). An answer performs the stores of the group before it. -/
def execEret (w : FS) (s : State) : Host.Outcome State Fault Refusal :=
  let v := w.view 0x202
  runWord { sh := shEret v, touch := fun _ => (if 0x30 ≤ v.dst then [(v.dst, false)] else []) ++ (List.range 6).map fun k => (v.a + k, false) } v s fun i s1 =>
    let a := v.a - 0x30
    let r := s1.answerCall (i.g.spair a) ((List.range 4).map fun k => i.g.si (a + 2 + k))
    .ok ((r.2.endClause i id).updGrp i.id fun g => (if r.1 < 2 then g.perform else g).result v false i.act fun _ => r.1)

end Sys2Proof.Machine
end

