-- ==== Sys2Proof/Machine/TileRun.lean ====
section
/-! DEFINITION. Work on tiles that goes on after its word: first-touch fills (R316, R317), drains and matrix updates (R183, R194), matrix
fetch faults (R377 to R379), and the lantern clocks (R327). -/

namespace Sys2Proof.Machine

/-! ### Fill records (R316, R317) -/

/-- What a fill moves: the box of a shape record at an origin, with a conversion. -/
structure FillPlan where
  box : List Byte
  conv : Option Nat
  org : List Int
deriving DecidableEq, Repr

/-- Origins of a fill record (R316). -/
def fillOrigin (bs : List Byte) : List Int := (List.range 5).map fun i => sInt 32 (fieldAt bs (16 + 4 * i) 4)

/-- The byte offset of a field of a fill record that must be zero and is not (R316): reserved bits, or the origin of a dimension at
or above NDIM. -/
def badFill (bs : List Byte) (ndim : Nat) : Option Nat :=
  ((((List.range 5).filter fun i => decide (ndim ≤ i) && fieldAt bs (16 + 4 * i) 4 != 0).map fun i => 16 + 4 * i) ++ (nonzeroByte bs 36 28).toList).min?

/-- Step 1 of R317: the records of a fill. The code of a fill record with a field that must be zero is the model's choice (log entry 22). -/
def State.fillPlan (s : State) (c : Ctx) (own : Option (Team × Nat)) (core : Nat) (late : List Late) (rcp : Nat) : Except Exc (FillPlan × State) := do
  let bs ← s.readRec c own rcp 64
  let org := fillOrigin bs
  let rd ← s.shapeRead c own core late (fieldAt bs 0 8) (org.headD 0)
  match badFill bs (shapeOf rd.1).ndim with
  | some o => .error { code := cShapeRecord, addr := rcp, detail := o }
  | none =>
    let conv ← readConv s c own (fieldAt bs 8 8)
    match conv with
    | some d0 => if (convRecOf d0 0).sfmt ≠ (shapeOf rd.1).fmt then .error { code := cCopyFault, addr := fieldAt bs 8 8, detail := 0x10007 }
    | none => pure ()
    pure ({ box := rd.1, conv := conv, org := org }, rd.2)

/-! ### The image (R317 step 3) -/

/-- Codes of width e packed from the lowest bit on, in n bytes (R56). -/
def packRow (e n : Nat) (codes : List Nat) : List Byte := leBytes n (codes.foldr (fun c acc => c % 2 ^ e + 2 ^ e * acc) 0)

/-- Splits a list into pieces of n; `fuel` bounds their number. -/
def piecesOf {α : Type} (n : Nat) : Nat → List α → List (List α)
  | 0, _ => []
  | fuel + 1, xs => if xs.isEmpty then [] else xs.take n :: piecesOf n fuel (xs.drop n)

/-- One image row of a block format: its 16 data bytes and the scale bytes of the block that it belongs to. -/
structure ImgRow where
  data : List Byte
  scale : List Nat
deriving DecidableEq, Repr

/-- Image rows of one innermost row, whose first element is element n0 of the box; the scale is that of the block of the row's first
element. -/
def imgRows (e n0 : Nat) (scales : List (List Nat)) (codes : List Nat) : List ImgRow :=
  let per := 128 / max e 1
  (piecesOf per codes.length codes).mapIdx fun i cs => { data := packRow e 16 cs, scale := scales.getD ((n0 + i * per) / 32) [] }

/-- Bytes of an image with, for each, whether it is a data byte; a strip follows every 16 image rows. -/
def groupBytes (f : Nat) (rows : List ImgRow) : List (Byte × Bool) :=
  let w := blockHead f
  (piecesOf 16 rows.length rows).flatMap fun g =>
    let data := g.flatMap ImgRow.data ++ List.replicate (16 * (16 - g.length)) 0#8
    let strip := g.flatMap fun r => (List.range w).map fun k => BitVec.ofNat 8 (r.scale.getD k 0)
    data.map (fun b => (b, true)) ++ (strip ++ List.replicate (w * (16 - g.length)) 0#8).map fun b => (b, false)

/-- The image of the box in format f: `codes` in linear order, rows of `box0` elements, `scales` by block. -/
def fillImage (f box0 : Nat) (codes : List Nat) (scales : List (List Nat)) : List (Byte × Bool) :=
  let e := fmtBits f
  let rows := piecesOf (max box0 1) codes.length codes
  if fmtBlock f then groupBytes f ((rows.mapIdx fun i cs => imgRows e (i * box0) scales cs).flatten)
  else rows.flatMap fun cs => (packRow e ((box0 * e + 7) / 8) cs).map fun b => (b, true)

/-- Where the byte at offset y of an image goes, from BASE (R317). -/
def fillPlace (swizzle : Bool) (y : Nat) (data : Bool) : Nat := if swizzle && data then swz 2 y else y

/-- The elements of unit u of a box as a fill reads them, with the rules of R80 and R337 on padding. -/
def FillPlan.elems (p : FillPlan) (s : State) (c : Ctx) (own : Option (Team × Nat)) (u : Nat) : Except Exc (List Elem) := do
  let r := shapeOf p.box
  let f := fmtsOf p.conv (.shape p.box) (.shape p.box)
  let len := unitLen f.2
  let ks := ((List.range len).map fun k => u * len + k).filter fun k => decide (k < r.count)
  let xs ← ks.mapM fun k => readElem s c own (.shape p.box) f.1 p.org k
  if !fmtBlock f.2 then pure xs
  else
    let plain := match p.conv with
      | none => true
      | some d0 => (convRecOf d0 0).identity
    let all := xs ++ List.replicate (32 - xs.length) (Elem.filler f.1 ((xs.headD (Elem.filler f.1 [])).sc))
    pure (if plain && xs.all Elem.pad then all.map fun e => { e with code := 0 } else all)

/-- The units of the box, read and converted in linear order. -/
def FillPlan.units (p : FillPlan) (s : State) (c : Ctx) (own : Option (Team × Nat)) : Except Exc (List UnitOut) :=
  let r := shapeOf p.box
  let f := fmtsOf p.conv (.shape p.box) (.shape p.box)
  let len := unitLen f.2
  (List.range ((r.count + len - 1) / len)).mapM fun u => do
    let xs ← p.elems s c own u
    pure (convUnit (p.conv.map fun d0 => convRecOf d0 0) (u * len) xs)

/-- Writes image bytes to the LS of a team at a tile. -/
def State.putImage (s : State) (team half base : Nat) (swizzle : Bool) (img : List (Byte × Bool)) : State :=
  let put : Memory → Memory := fun m => img.zipIdx.foldl (fun m x => Memory.set m (base + fillPlace swizzle x.2 x.1.2) x.1.1) m
  s.updTeam team fun t => { t with ls := t.ls.modify half put }

/-- Address of the first element of unit u of a fill that is not padding; the tile's own place where all of it is. -/
def FillPlan.unitAddr (p : FillPlan) (f len base u : Nat) : Nat :=
  (((List.range len).findSome? fun k => ((Endp.shape p.box).loc f p.org (u * len + k)).map Loc.addr).getD base)

/-- Charges the bytes that a unit of a fill writes to the tile (R345, R347); an error of `none` means that a soft cap holds it. -/
def State.payUnit (s : State) (t : Team) (die : Nat) (conv : Bool) (n addr : Nat) : Except (Option Exc) State := do
  let one := fun (s : State) act => match s.charge t.tenant t.bcls act (chamberOf die) n with
    | (.ok, s1) => Except.ok s1
    | (.soft, _) => .error none
    | (.hard, _) => .error (some ({ code := cBudgetViolation, addr := addr, detail := act } : Exc))
  let s1 ← one s actCopy
  if conv then one s1 actSiphon else .ok s1

/-- How far a fill goes: done, held by a soft cap with some units admitted, waiting for the walks of pages, or met by a fault. -/
inductive FillEnd where
  | done (s : State)
  | held (s : State) (paid : Nat)
  | walks (s : State) (pages : List Nat)
  | fault (s : State) (x : Exc)
deriving Repr

/-- Charges the units of a fill one by one, from the first that is not admitted: their bytes, with the address of each. -/
def State.payFill (s : State) (t : Team) (die : Nat) (conv : Bool) (paid : Nat) : List (Nat × Nat) → FillEnd
  | [] => .done s
  | u :: us =>
    match s.payUnit t die conv u.1 u.2 with
    | .ok s1 => s1.payFill t die conv (paid + 1) us
    | .error none => .held s paid
    | .error (some x) => .fault s x

/-- The image of a fill, checked against the size of its tile (R317). -/
def FillPlan.image (p : FillPlan) (e : Tile) (us : List UnitOut) : Except Exc (List (Byte × Bool)) :=
  let r := shapeOf p.box
  let f := fmtsOf p.conv (.shape p.box) (.shape p.box)
  let img := fillImage f.2 (r.box.headD 0) ((us.flatMap UnitOut.codes).take r.count) (us.map UnitOut.scale)
  if (img.zipIdx).any fun x => decide (64 * e.size ≤ fillPlace (r.swz == 1) x.2 x.1.2) then
    .error { code := cTileRange, addr := e.base + 64 * e.size }
  else .ok img

/-- VAs that a fill translates: its records and the elements of its box. -/
def State.fillVas (s : State) (c : Ctx) (own : Option (Team × Nat)) (p : FillPlan) (rcp : Nat) : List Nat :=
  let head := match s.readRec c own rcp 64 with
    | .ok bs => [fieldAt bs 0 8] ++ if fieldAt bs 8 8 = 0 then [] else [fieldAt bs 8 8]
    | .error _ => []
  rcp :: head ++ (List.range (shapeOf p.box).count).filterMap fun k =>
    ((Endp.shape p.box).loc (fmtsOf p.conv (.shape p.box) (.shape p.box)).1 p.org k).map Loc.addr

/-- The fill of a tile (R317): its records and elements are read, its units charged, and the tile filled and READY. It waits for the walks of the
pages that it reads, each of which it asks for once, and then reads them whether or not a TLB still holds their leaves (R221). -/
def State.runFill (s : State) (c : Ctx) (t : Team) (j : TileJob) : FillEnd :=
  let half := if j.upper then 1 else 0
  let core := t.core + half
  let own := some (t, core)
  let e := (t.tiles.getD half []).getD j.tile Tile.reset
  let read : Except Exc (FillPlan × State × List UnitOut × List (Byte × Bool)) := do
    let pl ← s.fillPlan c own core (((t.groups[j.grp]?).map Group.late).getD []) e.rcp.toNat
    let us ← pl.1.units pl.2 c own
    let img ← pl.1.image e us
    pure (pl.1, pl.2, us, img)
  match read with
  | .error x => .fault s x
  | .ok (p, s0, us, img) =>
    let vas := s.fillVas c own p e.rcp.toNat
    let out := fun page => s.misses.any fun m => m.isOf core c.num page
    match (s.walkPages c core vas).filter fun page => !j.walked.contains page || out page with
    | page :: pages => .walks (s.startWalks c core (t.id, j.grp) (page :: pages)) (page :: pages)
    | [] =>
    let s0 := s0.coreFills c core (t.id, j.grp) vas
    let f := fmtsOf p.conv (.shape p.box) (.shape p.box)
    let head := if fmtBlock f.2 then blockHead f.2 else 0
    let due := (us.zipIdx.map fun x => (head + (x.1.codes.length * fmtBits f.2 + 7) / 8, p.unitAddr f.1 (unitLen f.2) e.base x.2)).drop j.paid
    match s0.payFill t (coreDie core) p.conv.isSome j.paid due with
    | .done s1 =>
      let sat := (us.map UnitOut.sat).sum
      let nar := (us.map UnitOut.nar).sum
      let s2 := if sat = 0 ∧ nar = 0 then s1 else s1.countAt (coreDie core) 0x200 sat nar
      .done ((s2.putImage t.id half e.base ((shapeOf p.box).swz == 1) img).updTile t.id half j.tile fun x => { x with st := .ready })
    | r => r

/-! ### Completion of fills, drains and matrix updates -/

/-- A matrix fetch fault is met and is to be taken (R186); the first one stands. -/
def State.metFetch (s : State) (id : Nat) (grp : Nat) (x : Exc) (pc : W64) : State :=
  s.updTeam id fun t => { t with mfetch := some (t.mfetch.getD (grp, x, pc)) }

/-- The j-th job of a team is over. -/
def State.dropJob (s : State) (id j : Nat) : State := s.updTeam id fun t => { t with jobs := t.jobs.eraseIdx j }

/-- Meaning of TILE_FILL_COMPLETE (R315, R317): the fill of job `j` is performed and its tile is READY, or it goes as far as a soft cap or the walks
of its pages let it, or its fault is met. A fill that has begun goes on during a freeze, which waits for it (R219, R230). -/
def execTileFillComplete (t j : Nat) (s : State) : Host.Outcome State Fault Refusal :=
  .next (match s.team? t with
    | none => s
    | some tm =>
      match tm.jobs[j]?, s.ctx? tm.ctx with
      | some job, some c =>
        if job.drain then s
        else match s.runFill c tm job with
          | .done s1 => s1.dropJob t j
          | .held s1 paid => s1.updTeam t fun t => { t with jobs := t.jobs.modify j fun x => { x with paid := paid } }
          | .walks s1 pages =>
            -- a page is asked for once its walk stands in the miss table
            let core := tm.core + if job.upper then 1 else 0
            let asked := pages.filter fun p => !job.walked.contains p && s1.misses.any fun m => m.isOf core c.num p
            s1.updTeam t fun t => { t with jobs := t.jobs.modify j fun x => { x with walked := x.walked ++ asked } }
          | .fault s1 x =>
            let core := tm.core + if job.upper then 1 else 0
            let s2 := if x.code = cUncorrectable then s1.poisonAt c (some (tm, core)) x.addr
              else if x.code = cBudgetViolation then s1.hardCap tm.tenant tm.bcls x.detail (chamberOf (coreDie core)) else s1
            (s2.metFetch t job.grp x job.pc).dropJob t j
      | _, _ => s)

/-- Meaning of TILE_DRAIN_COMPLETE (R183, R194, R315): the last element is written, and the tile is READY. -/
def execTileDrainComplete (t j : Nat) (s : State) : Host.Outcome State Fault Refusal :=
  .next (match s.team? t with
    | none => s
    | some tm =>
      match tm.jobs[j]? with
      | none => s
      | some job =>
        if !job.drain then s
        else
          let s1 := (s.dropJob t j).updTile t (if job.upper then 1 else 0) job.tile fun x => { x with st := .ready }
          match job.retire with
          | some r => s1.retire tm.ctx r
          | none => s1)

/-- Meaning of MATRIX_UPDATE_COMPLETE (R183, R281): the updates of a word are performed, and its retire counter is decremented. -/
def execMatrixUpdateComplete (t j : Nat) (s : State) : Host.Outcome State Fault Refusal :=
  .next (match s.team? t with
    | none => s
    | some tm =>
      match tm.retires[j]? with
      | none => s
      | some r => (s.updTeam t fun t => { t with retires := t.retires.eraseIdx j }).retire tm.ctx r)

/-! ### Matrix fetch faults (R377 to R379) -/

/-- The task of a relaunch (R379). -/
def Team.relaunchTask (t : Team) (pcode : Nat) : Leave :=
  { tk := 0, code := BitVec.ofNat 64 pcode, phase := t.phase, kva := t.kva, ctr := 0, bound := clsCode t.cls, maps := none }

/-- Record of a matrix fetch fault with its event (R377, R367). -/
def State.fetchRecord (s : State) (t : Team) (grp : Nat) (x : Exc) (pc : W64) (sev scope : Nat) : State :=
  let core := t.coreOf grp
  (s.record t.ctx (recordBytes cMatrixFetch sev scope grp t.ctx (x.code % 65536) core pc x.addr 0#64)).echoFault t.ctx cMatrixFetch grp (some (t, core))

/-- Meaning of MATRIX_FETCH_FAULT (R377, R379): the team is killed; a `.restartable` one below RSTLIM is relaunched, and any other
ends its context. -/
def execMatrixFetchFault (id : Nat) (s : State) : Host.Outcome State Fault Refusal :=
  .next (match s.team? id with
    | none => s
    | some t =>
      match t.mfetch, s.ctx? t.ctx with
      | some (g, x, pc), some c =>
        if s.frozenCtx c.num then s else
        let count := ((s.sch.idents.find? fun i => i.id == id).map Ident.relaunch).getD t.relaunch
        if t.kd.restart ∧ count < c.rstlim then
          let s1 := s.fetchRecord t g x pc 0 2
          let s2 := (s1.dropTeamWork id).updIdent id fun i => { i with relaunch := count + 1 }
          match s2.readRec c none (t.frame.toNat + 56) 8 with
          | .error y => s2.carryFail t y
          | .ok bs => s2.vacate { t with relaunch := count + 1, mfetch := none } (t.relaunchTask (leNat bs))
        else ((s.fetchRecord t g x pc 3 3).killTeam id).terminate t.ctx
      | _, _ => s)

/-! ### The lantern (R327) -/

/-- Ticks of the budget of a barrier: TMO × 16 µs, 0 standing for 65,536 units (R321). -/
def Barrier.budget (b : Barrier) : Nat := (if b.tmo = 0#16 then 65536 else b.tmo.toNat) * 64000

/-- The group waits on barrier b: in `barw`, or at a header with WAIT 0011. -/
def Group.waitsOn (g : Group) (b : Nat) : Bool :=
  match g.wait with
  | .barrier i => i == b
  | .header => let h := clauseHdr (g.clause.headD 0#64); h.wait == 3 && h.warg == b
  | _ => false

/-- Members of a barrier that have not arrived. -/
def Barrier.missing (b : Barrier) : Nat := (b.memb &&& ~~~ b.arrm).toNat

/-- The group that a BARRIER_TIMEOUT names (R327). -/
def Team.timeoutGrp (t : Team) (b : Nat) (x : Barrier) : Nat :=
  match t.groups.find? fun g => g.waitsOn b with
  | some g => g.idx
  | none => ((List.range 16).find? fun i => natBit x.missing i).getD 0

/-- Meaning of LANTERN_TIMEOUT (R327, R371): the clock of barrier `b` reaches its budget. The event brings the timebase to that moment where
it was not reached (log entry 2). The lantern's own event 0x11 comes before that of the fault (R421). -/
def execLanternTimeout (t b : Nat) (s : State) : Host.Outcome State Fault Refusal :=
  .next (match s.team? t with
    | none => s
    | some tm =>
      match tm.barriers[b]? with
      | none => s
      | some x =>
        match x.clock with
        | none => s
        | some n =>
          if n < x.budget ∧ s.lanternHeld tm then s
          else
            let s1 := s.pass (if n < x.budget then s.pauseLeft + (x.budget - n) else 0)
            let g := tm.timeoutGrp b x
            let core := tm.coreOf g
            let pc := ((tm.groups[g]?).map Group.wordPc).getD 0#64
            let detail := b + x.missing * 65536
            let e : Exc := { code := cBarrierTimeout, addr := wrapInt 64 x.txb.toInt, detail := detail }
            (s1.emitCore tm core 0x11 (BitVec.ofNat 32 detail)).takeFault (t, g) e pc pc 0 false)

end Sys2Proof.Machine
end

