-- ==== Sys2Proof/Machine/Clocks.lean ====
section
/-! DEFINITION. The Echo hub and its sinks, lossless stalls that run out, saturation reports (R350 to R362), and the time master (R354 to
R356). -/

namespace Sys2Proof.Machine

/-! ### Draining of buffers (R360 to R362) -/

/-- The hub drains no event of the tag: the tag is lossless and its sink is full (R362). -/
def State.drainHeld (s : State) (tag : Nat) : Bool := (s.filter tag).lossless && s.sinkFull (s.sinkOf tag) 0

/-- Meaning of ECHO_BUFFER_DRAIN (R360, R362): the oldest event of buffer `i` whose tag is not held goes to the hub of its chamber die, and its
source has room again. -/
def execEchoBufferDrain (i : Nat) (s : State) : Host.Outcome State Fault Refusal :=
  .next (match s.echo.bufs[i]? with
    | none => s
    | some b =>
      match b.evs.find? fun e => !s.drainHeld e.tag with
      | none => s
      | some e =>
        let s1 := s.updEcho fun x => { (x.toHub (chamberOf b.die) [e]) with bufs := x.bufs.set i { b with evs := b.evs.erase e } }
        s1.tellDrops fun d => d.die == b.die && d.unit == b.unit)

/-! ### The sink order (R359) -/

/-- Event a stands before event b in the sink order. The events of a die are numbered without end, so the lesser number is that of the earlier
event, counted from any event of its bucket (R359). -/
def Ev.before (a b : Ev) : Bool :=
  let ka := a.ts / 16
  let kb := b.ts / 16
  if ka ≠ kb then decide (ka < kb)
  else if a.die ≠ b.die then decide (a.die < b.die)
  else decide (a.seq < b.seq)

/-- The least event of a list in the sink order. -/
def leastEv : List Ev → Option Ev
  | [] => none
  | e :: es => match leastEv es with
    | none => some e
    | some x => if x.before e then some x else some e

/-- The bucket of 4 ns of an event is over on a die whose timebase reads `now`. -/
def Ev.past (e : Ev) (now : Nat) : Bool :=
  let n := (now % 2 ^ 56 / 16 + 2 ^ 52 - e.ts / 16) % 2 ^ 52
  decide (0 < n) && decide (n < 2 ^ 51)

/-- No event that stands before e for its sink can still arrive: none waits in a buffer, and its bucket of 4 ns is over on every die (R359). -/
def State.settledEv (s : State) (e : Ev) : Bool :=
  s.ptps.all e.past &&
  !(s.echo.bufs.any fun b => b.evs.any fun x => s.sinkOf x.tag == s.sinkOf e.tag && x.before e)

/-- Events 0x50 and 0x51, which are never dropped (R362). -/
def Ev.kept (e : Ev) : Bool := e.code == 0x50 || e.code == 0x51

/-- The hub cannot write the event: its sink is full, and its tag is lossless or it is never dropped (R362). -/
def State.writeHeld (s : State) (e : Ev) : Bool := ((s.filter e.tag).lossless || e.kept) && s.sinkFull (s.sinkOf e.tag) 0

/-- The 16 bytes of an event (R350). -/
def Ev.bytes (e : Ev) : List Byte :=
  leBytes 8 (e.ts * 256 + e.seq % 256) ++ leBytes 8 (e.die * 2 ^ 60 + e.unit * 2 ^ 48 + e.code * 2 ^ 40 + e.tag * 2 ^ 32 + e.payload.toNat)

/-- Writes an event to its sink, or drops it where the sink is full in lossy mode; one whose sink has no header is discarded (R358, R361;
log entry 23). -/
def State.sinkEvent (s : State) (e : Ev) : State :=
  let h := s.sinkOf e.tag
  let r := s.sinkRing h
  if h = 0 then s
  else if s.sinkFull h 0 then (s.storeNat (h + 24) 8 ((s.mem.rd (h + 24) 8 + 1) % 2 ^ 64)).dropEv e.die e.unit e.tag
  else (s.store (r.1 + 16 * (r.2.2.1 % r.2.1)) e.bytes).storeNat (h + 8) 8 ((r.2.2.1 + 1) % 2 ^ 64)

/-- Takes an event from the hubs. -/
def EchoSt.take (x : EchoSt) (e : Ev) : EchoSt :=
  if x.hub0.contains e then { x with hub0 := x.hub0.erase e } else { x with hub1 := x.hub1.erase e }

/-- Meaning of ECHO_SINK_WRITE (R358, R359, R361): the hub of H0 writes the least event that the hubs hold; with none to write, the drop counts
of sources that have room again are emitted. -/
def execEchoSinkWrite (s : State) : Host.Outcome State Fault Refusal :=
  .next (match leastEv (s.echo.held.filter fun e => !s.writeHeld e) with
    | none => s.tellDrops fun _ => true
    | some e => if s.settledEv e then (s.updEcho fun x => x.take e).sinkEvent e else s)

/-! ### STALLMAX (R362) and saturation reports (R352) -/

/-- Meaning of LOSSLESS_STALL_TIMEOUT (R362): a stall of a group is longer than STALLMAX, and its tag turns lossy. The event brings the
timebase to that moment where it was not reached (log entry 2). -/
def execLosslessStallTimeout (t g : Nat) (s : State) : Host.Outcome State Fault Refusal :=
  .next (match s.team? t, s.grp? (t, g) with
    | some tm, some gr =>
      match gr.wait with
      | .trace since _ =>
        let f := s.filter tm.ctx
        if f.stallmax = 0 ∨ !f.lossless then s
        else
          let s1 := s.pass (since + f.stallmax * 64000 + 1 - s.ptp)
          let s2 := s1.updEcho fun e => { e with filters := e.filters.map fun x => if x.tag == tm.ctx then { x with lossless := false } else x }
          let s3 := s2.emitHub (chamberOf (coreDie tm.core)) 0x400 0x53 tm.ctx (BitVec.ofNat 32 tm.ctx)
          s3.logFault tm.ctx cTraceOverflow tm.ctx (s3.sinkOf tm.ctx)
      | _ => s
    | _, _ => s)

/-- Saturations that the converters of a die have counted (R341). -/
def State.dieSat (s : State) (die : Nat) : Nat := ((s.eng.counts.filter fun c => c.die == die).map fun c => c.sat.toNat).sum

/-- Meaning of SATURATION_REPORT (R352): what the converters of a die have counted since its last report, as event 0x22 (log entry 17). -/
def execSaturationReport (die : Nat) (s : State) : Host.Outcome State Fault Refusal :=
  let now := s.dieSat die
  let n := now - getKey s.echo.reported die
  .next (if n = 0 then s
    else (s.updEcho fun e => { e with reported := setKey e.reported die now }).emitEngine die 0x200 0x22 0
      (BitVec.ofNat 32 (min n (2 ^ 32 - 1))))

/-! ### The time master (R354 to R356) -/

def State.updTime (s : State) (f : TimeMaster → TimeMaster) : State := s.updEcho fun e => { e with time := f e.time }

/-- Codes of the states, in the order of R355 (log entry 24). -/
def timeCode : TimeSt → Nat
  | .freerun => 0
  | .acquiring => 1
  | .locked => 2
  | .holdover => 3

/-- An event of the time master, which runs where Phimus runs (R351, R354). -/
def State.emitTime (s : State) (code : Nat) (payload : Nat) : State := s.emitHub s.pkg.phimus.host 0x401 code 0 (BitVec.ofNat 32 payload)

/-- The master enters a state, with event 0x61 where it changes (R352). -/
def State.timeTo (s : State) (st : TimeSt) : State :=
  if s.echo.time.st = st then s else (s.updTime fun t => { t with st := st }).emitTime 0x61 (timeCode st)

/-- Ticks of 100 ns, 1 µs and 1 s. -/
def ticks100ns : Nat := 400
def ticks1us : Nat := 4000
def ticks1s : Nat := 4000000000

/-- Valid source data with a measured offset, positive where the timebase is behind (R355, R356): a forward offset above 1 µs is stepped,
with event 0x62; every other is slewed, which shows only in how time passes. -/
def State.timeUpdate (s : State) (offset : Int) : State :=
  let near := decide (offset.natAbs < ticks100ns)
  let s1 := s.updTime fun t => { t with good := if near then t.good + 1 else 0 }
  let s2 := if s1.echo.time.st = .freerun then s1.timeTo .acquiring
    else if 8 ≤ s1.echo.time.good then s1.timeTo .locked else s1
  let s3 := if (ticks1us : Int) < offset then
      (s2.setTime (s2.ptp + offset.toNat)).emitTime 0x62 (min offset.toNat (2 ^ 31 - 1)) else s2
  s3.updTime fun t => { t with heard := some s3.ptp }

/-- Ticks in which a foreign master must have been heard twice to be one: four Announce intervals of 2 s (R354; PRESUMED from IEEE 1588, log
entry 86). -/
def announceTicks : Nat := 8 * ticks1s

/-- A foreign master that may be chosen at a tick. -/
def PtpMaster.stands (m : PtpMaster) (now : Nat) : Bool :=
  match m.heard with
  | [_, t] => decide (now ≤ t + announceTicks)
  | _ => false

/-- An Announce of a master is noted, with the two ticks at which it was last heard. -/
def noteMaster (ms : List PtpMaster) (source rank now : Nat) : List PtpMaster :=
  let old := ((ms.find? fun m => m.source == source).map PtpMaster.heard).getD []
  { source := source, rank := rank, heard := (now :: old).take 2 } :: ms.filter fun m => m.source != source

/-- The best master clock algorithm, among foreign masters only (R354): the least data set, and of equals the least source. -/
def bestMaster (ms : List PtpMaster) (now : Nat) : Option Nat :=
  ((ms.filter fun m => m.stands now).foldl (fun (b : Option PtpMaster) m => match b with
    | none => some m
    | some x => if m.rank < x.rank ∨ (m.rank = x.rank ∧ m.source < x.source) then some m else some x) none).map PtpMaster.source

/-- A choice of another master forgets what was measured against the one before. -/
def TimeMaster.choose (t : TimeMaster) (now : Nat) : TimeMaster :=
  if bestMaster t.masters now = t.parent then t
  else { t with parent := bestMaster t.masters now, sync := none, ms := none, path := none }

/-- A Follow_Up gives the tick at which the master sent the Sync that came at `at_` (R354). With the path delay known, it is an update. -/
def State.followUp (s : State) (at_ : Int) (origin : Nat) : State :=
  let ms := sInt 56 (wrapInt 56 (at_ + s.echo.time.epoch - origin))
  let s1 := s.updTime fun t => { t with sync := none, ms := some ms }
  match s.echo.time.path with
  | none => s1
  | some p =>
    let s2 := s1.timeUpdate (p - ms)
    if (ticks1us : Int) < p - ms then s2.updTime fun t => { t with ms := none } else s2

/-- A Delay_Resp gives the tick at which the master received the Delay_Req that went out at `at_`: with the last Sync it gives the path delay, half
of the way there and back (R354). -/
def State.delayResp (s : State) (at_ : Int) (origin : Nat) : State :=
  s.updTime fun t => match t.ms with
    | none => t
    | some ms => { t with path := some ((ms + sInt 56 (wrapInt 56 ((origin : Int) - t.epoch - at_))) / 2) }

/-- Meaning of PTP_MESSAGE (R354; what R354 takes from IEEE 1588 is PRESUMED, log entry 86): a message of the domain that the host relays, unless the pins are selected. An Announce tells of a
foreign master; the two-step Sync and the Delay_Resp of the chosen one measure the offset. -/
def execPtpMessage (m : PtpMsg) (s : State) : Host.Outcome State Fault Refusal :=
  .next (if s.echo.time.pins || m.domain != s.echo.time.domain then s
    else
      let noted := fun t : TimeMaster => match m.body with
        | .announce rank => { t with masters := noteMaster t.masters m.source rank s.ptp }
        | _ => t
      let s1 := s.updTime fun t => (noted t).choose s.ptp
      if s1.echo.time.parent ≠ some m.source then s1
      else match m.body with
        | .announce _ => s1
        | .sync age => s1.updTime fun t => { t with sync := some (m.seq, (s.ptp : Int) - age) }
        | .followUp origin =>
          match s1.echo.time.sync with
          | some (n, at_) => if n = m.seq then s1.followUp at_ origin else s1
          | none => s1
        | .delayResp origin age => s1.delayResp ((s.ptp : Int) - age) origin
        | .other => s1)

/-- Ticks of 900 ms. -/
def todTicks : Nat := 3600000000

/-- Meaning of PPS_EDGE (R354): an edge, `offset` ticks ago, marks the TAI second that a line in the 900 ms before it announced; with no such
line the edge counts as lost. -/
def execPpsEdge (offset : Int) (s : State) : Host.Outcome State Fault Refusal :=
  .next (if !s.echo.time.pins then s
    else match s.echo.time.tod with
      | none => s
      | some (secs, at_) =>
        let edge := (s.ptp : Int) - offset
        let due := (secs * ticks1s : Int) - s.echo.time.epoch + offset
        let s1 := s.updTime fun t => { t with tod := none }
        if (at_ : Int) ≤ edge ∧ edge - at_ ≤ todTicks then s1.timeUpdate (sInt 56 (wrapInt 56 (due - s.ptp))) else s1)

/-- The seconds of a time-of-day line: "T", twelve decimal digits, CR and LF; none if it is malformed (R354). -/
def todSecs (line : List Byte) : Option Nat :=
  let ds := (line.drop 1).take 12
  if line.length = 15 ∧ line.take 1 = [0x54#8] ∧ line.drop 13 = [0x0D#8, 0x0A#8] ∧ (ds.all fun d => decide (0x30 ≤ d.toNat ∧ d.toNat ≤ 0x39)) = true then
    some (ds.foldl (fun n d => 10 * n + (d.toNat - 0x30)) 0)
  else none

/-- Meaning of TOD_LINE (R354): a line of the pin ends. It counts only while the pins are selected. -/
def execTodLine (line : List Byte) (s : State) : Host.Outcome State Fault Refusal :=
  .next (if s.echo.time.pins then s.updTime fun t => { t with tod := (todSecs line).map fun n => (n, s.ptp) } else s)

/-- Meaning of TIME_SOURCE_LOST (R355): 2 s without source data move LOCKED to HOLDOVER, and 16 s any state to FREERUN. The event brings the
timebase to that moment where it was not reached (log entry 2). -/
def execTimeSourceLost (s : State) : Host.Outcome State Fault Refusal :=
  .next (match s.echo.time.heard with
    | none => s
    | some h =>
      match s.echo.time.st with
      | .locked => (s.pass (h + 2 * ticks1s - s.ptp)).timeTo .holdover
      | _ => ((s.pass (h + 16 * ticks1s - s.ptp)).timeTo .freerun).updTime fun t => { t with good := 0, heard := none })

end Sys2Proof.Machine
end

