-- ==== Sys2Proof/Machine/Fence.lean ====
section
/-! DEFINITION. Fences (R264 to R268). The model performs every access at its place in one global order (log entry 4), so a
fence's waits are met when it issues; what is left of it is the invalidation of the L1. -/

namespace Sys2Proof.Machine

/-- KIND of a fence is full or `.acq` (R264). -/
def fenceAcq (f : Nat) : Bool := natBits f 4 2 < 2

/-- KIND of a fence is full or `.rel` (R264). -/
def fenceRel (f : Nat) : Bool := natBits f 4 2 != 1

/-- A store in flight lies in a range of VAs (R266). -/
def Late.within (l : Late) (base len : Nat) : Bool := spanMeets l.va l.old.length base len

/-- Meaning of `fence` (R264, R265): a release performs the stores in flight before it. -/
def execFence (w : FS) (s : State) : Host.Outcome State Fault Refusal :=
  let v := w.view 0x14C
  runWord { sh := shFence v } v s fun i s1 =>
    let s2 := if fenceRel v.func then s1.updGrp i.id Group.perform else s1
    .ok (if fenceAcq v.func then s2.acquire i.t i.core (natBits v.func 6 3) else s2)

/-- Meaning of `fencer` (R264 to R266): as `fence`, for the accesses that lie in its range. An LS range meets no line and no store of memory,
and an empty one orders nothing. -/
def execFencer (w : FR) (s : State) : Host.Outcome State Fault Refusal :=
  let v := w.view .fr 0x14D
  runWord { sh := shFencer v } v s fun i s1 =>
    if natBit v.efunc 3 then .ok s1
    else
      let s2 := if fenceRel v.efunc then s1.updGrp i.id fun g => { g with late := g.late.filter fun l => !l.within i.ua i.ub } else s1
      .ok (if fenceAcq v.efunc then s2.acquireRange i.t i.core (natBits v.efunc 6 3) i.ua i.ub else s2)

end Sys2Proof.Machine
end

