-- ==== Sys2Proof/Machine/Saves.lean ====
section
/-! DEFINITION. Saves of contexts and of single teams (R376, R380, R389), `ctxld` (R385, R388), and termination by command (R366, R375). -/

namespace Sys2Proof.Machine

/-! ### When a team may be written (R380) -/

/-- A copy of a team is held: everything of it that is not held has been performed, but for a stamp that waits for what is held (R299, R306). -/
def State.copyHeld (s : State) (c : Copy) : Bool :=
  let ks := s.eng.cmds.filter fun k => k.copy == c.id
  decide (c.placed = c.units) && (ks.any fun k => k.held.isSome) && ks.all fun k => k.held.isSome || s.stampEarly c k.p

/-- Accesses of a team are performed, and its copies complete or held (R380 step 3). -/
def State.performed (s : State) (t : Team) : Bool := t.quiet && s.eng.copies.all fun c => c.team != t.id || s.copyHeld c

/-- A team cannot settle while copies of it are held: they are all that its settling waits for (R42, R287, R299). -/
def State.heldSettle (s : State) (t : Team) : Bool :=
  s.performed t && (s.eng.copies.any fun c => c.team == t.id) && match t.settle with
    | .succ kva inh => (s.ctx? t.ctx).any fun c => !s.frozenCtx c.num && match t.groups[t.last]? with
      | some l => match (s.succRead c (some (t, t.coreOf l.idx)) kva inh).bind fun p => s.succPlan t p.1 p.2 with
        | .ok pl => pl.go != .here
        | .error _ => false
      | none => false
    | _ => true

/-- The team has reached the point at which its image is written. A team that only waits for its task to enter TQ holds no image. One whose settling
waits for held copies alone is saved as it stands, since they do not delay a save (R299): its groups arrive again once it is restored (log entry
78). -/
def State.savable (s : State) (t : Team) : Bool :=
  match t.slot with
  | .save => s.performed t
  | .run => t.groups.all (fun g => g.exited || g.wait == .halted || g.wait.arrived) && s.performed t
  | .spill => t.groups.isEmpty
  | .settle => s.heldSettle t
  | _ => false

/-- Teams of a context that have an image. -/
def State.imaged (s : State) (ctx : Nat) : List Team := s.teams.filter fun t => t.ctx == ctx && !t.groups.isEmpty

/-- A saved team leaves its core; the engines keep what they know of its held copies. -/
def State.removeSaved (s : State) (t : Team) : State :=
  let s1 := ((s.disarmTeam t).unwait fun u _ => u == t.id).updIdent t.id fun i =>
    { i with core := t.core, outb := t.groups.map fun g => (g.idx, g.outb, g.unsealed), posts := [] }
  { s1 with teams := s1.teams.filter fun u => u.id != t.id
            cur := if (s1.cur.map Prod.fst) == some t.id then none else s1.cur }

/-- WATCHDOG terminates the context (R376). -/
def State.watchdog (s : State) (ctx detail : Nat) : State :=
  ((s.record ctx (recordBytes cWatchdog 3 3 0 ctx detail 0 0#64 0 0#64)).echoFault ctx cWatchdog 0 none).terminate ctx

/-- The teams of a context can be written. -/
def State.saveReady (s : State) (ctx : Nat) : Bool := (s.teams.filter fun t => t.ctx == ctx).all s.savable

/-- The images and the header of a context are written, and it is SAVED (R380 steps 4 and 5). The context leaves every core: DEDUCED, this is the
context switch that R211 names among what changes the TLBs and the page-walk caches, and drops what they hold of it (log entry 79). -/
def State.finishSave (s : State) (c : Ctx) (cause : Cause) : State :=
  let ts := s.imaged c.num
  match s.writeArea c ts cause with
  | .error d => s.watchdog c.num d
  | .ok s1 =>
    let s1 := { s1 with tlb := s1.tlb.filter fun e => e.ctx != c.num, pwc := s1.pwc.filter fun e => e.ctx != c.num }
    let s2 := (ts.foldl State.removeSaved s1).updCtx c.num fun c => { c with st := .saved, saving := none }
    let s3 := s2.updSch fun h => { h with cands := h.cands.filter fun x => x.ctx != c.num }
    (s3.emitMasks c.num 0x12 ts).testDrained

/-- A single-team save that is still to be written (R389). -/
def State.pendingSingle (s : State) (ctx : Nat) : Option (Cand × Team) :=
  s.sch.cands.findSome? fun x => if x.ctx = ctx ∧ x.off = 0 then (s.team? x.id).map fun t => (x, t) else none

/-- The team of a single-team save goes on where it stands: its image does not fit (R389). -/
def State.unhalt (s : State) (x : Cand) : State :=
  (s.updTeam x.id fun t => { t with slot := if t.slot = .save ∧ t.stepTest = false then .run else t.slot
                                    groups := t.groups.map fun g => if g.wait = .halted then { g with wait := .none } else g }).updSch fun h =>
    { h with cands := h.cands.filter fun y => !(y.ctx == x.ctx && y.id == x.id) }

/-- The image of a single-team save is written (R389). A team saved for a monitor wait (R335) stays resident where its image does not fit;
one of a drain (R402) ends its context. -/
def State.finishSingle (s : State) (c : Ctx) (x : Cand) (t : Team) : State :=
  let off := (s.planArea c).start
  match s.writeArea c [t] .sched with
  | .error d => if d = 2 ∧ x.lines ≠ [] then s.unhalt x else s.watchdog c.num d
  | .ok s1 =>
    let mark := fun (y : Cand) => if y.ctx = x.ctx ∧ y.id = x.id then { y with off := off } else y
    ((s1.removeSaved t).updSch fun h => { h with cands := h.cands.map mark }).testDrained

/-- Meaning of CONTEXT_SAVE_WRITTEN (R380, R389). -/
def execContextSaveWritten (ctx : Nat) (s : State) : Host.Outcome State Fault Refusal :=
  .next (match s.ctx? ctx with
    | none => s
    | some c =>
      match c.saving, s.pendingSingle ctx with
      | some cause, _ => if s.saveReady ctx then s.finishSave c cause else s
      | none, some (x, t) => if s.savable t then s.finishSingle c x t else s
      | none, none => s)

/-- Meaning of CTXCMD_SAVE (R366, R380). -/
def execCtxcmdSave (ctx : Nat) (s : State) : Host.Outcome State Fault Refusal :=
  .next (if (s.ctx? ctx).any fun c => c.st == .running then s.beginSave ctx .cmd else s)

/-- Meaning of CTXCMD_TERMINATE (R366, R375). -/
def execCtxcmdTerminate (ctx : Nat) (s : State) : Host.Outcome State Fault Refusal :=
  .next (if (s.ctx? ctx).any fun c => c.st == .running || c.st == .saved then s.terminate ctx else s)

/-- Ticks of 1 ms (R376). -/
def saveTicks : Nat := 4000000

/-- The tick at which a save under way began. -/
def State.saveBegan (s : State) (c : Ctx) : Option Nat :=
  match c.saving, s.sch.cands.find? fun x => x.ctx == c.num && x.off == 0 with
  | some _, _ => some c.saveAt
  | none, some x => some x.since
  | none, none => none

/-- What the area says to a save that is ready: the detail of the WATCHDOG that it meets. -/
def State.saveFails (s : State) (c : Ctx) : Option Nat :=
  let ts := match c.saving, s.pendingSingle c.num with
    | some _, _ => if s.saveReady c.num then some (s.imaged c.num) else none
    | none, some p => if s.savable p.2 then some [p.2] else none
    | none, none => none
  let idle := c.saving.isNone && (s.pendingSingle c.num).any fun p => p.1.lines != []
  ts.bind fun ts => match s.writeArea c ts .cmd with
    | .error d => if idle && d == 2 then none else some d
    | .ok _ => none

/-- Meaning of WATCHDOG (R376): a save that has not completed within 1 ms, is too large, or meets UNCORRECTABLE. The event brings the
timebase to the deadline where it was not reached, unless the context's stalls keep the time from counting (log entry 2). -/
def execWatchdog (ctx detail : Nat) (s : State) : Host.Outcome State Fault Refusal :=
  .next (match s.ctx? ctx with
    | none => s
    | some c =>
      if detail = 1 then
        match s.saveBegan c with
        | some t =>
          if s.ptp < t + saveTicks then (if s.ctxStalled ctx then s else (s.pass (s.pauseLeft + (t + saveTicks - s.ptp))).watchdog ctx 1)
          else s.watchdog ctx 1
        | none => s
      else if s.saveFails c = some detail then s.watchdog ctx detail
      else s)

/-! ### `ctxld` (R385, R388) -/

/-- A check that failed: PERMISSION with the save-area offset of the field. -/
def badArea (o : Nat) : Exc := { code := cPermission, addr := o, detail := 0x0108 }

/-- The lowest byte of a dword that holds a bit of `x` (R431). -/
def lowBad (d x : Nat) : List Nat := if x = 0 then [] else [lowByte 8 (8 * d) x]

/-- Reserved bits of the area's header. -/
def badHead (bs : List Byte) : List Nat :=
  let d2 := dwordAt bs 2
  lowBad 2 (natBits d2 2 30 * 4 + natBits d2 40 8 * 2 ^ 40) ++ (nonzeroByte bs 24 40).toList

/-- Reserved bits and STEP of a team header (R382). -/
def badTeamHead (bs : List Byte) : List Nat :=
  let d5 := dwordAt bs 5
  lowBad 2 (natBits (dwordAt bs 2) 0 16) ++ lowBad 3 (natBits (dwordAt bs 3) 0 16) ++ lowBad 5 (natBits d5 0 5) ++
  (if natBit d5 7 then [40] else []) ++ lowBad 6 (natBits (dwordAt bs 6) 32 32 * 2 ^ 32) ++ (nonzeroByte bs 56 8).toList ++
  lowBad 8 (natBits (dwordAt bs 8) 18 46 * 2 ^ 18) ++ (nonzeroByte bs 72 56).toList

/-- One image of the area: its offset, whether it is skipped, and its kernel and BOUND. -/
structure Found where
  off : Nat
  skip : Bool
  kd : Option KDesc
  bound : Nat
deriving DecidableEq, Repr

/-- The check of the image at an offset; answers it with its size (R388). -/
def State.checkImage (s : State) (c : Ctx) (off lim : Nat) : Except Exc (Found × Nat) := do
  if lim < off + 128 then .error (badArea 0)
  let bs := s.mem.bytes (c.savebase + off) 128
  let d5 := dwordAt bs 5
  let size := 64 * natBits (dwordAt bs 6) 0 32
  let kd := s.kdescAt c (dwordAt bs 0)
  let bound := natBits d5 8 8
  let skip := natBit d5 5
  let fits := match kd with
    | some k => (if (clsOfCode bound).any (routeOf k.contract).contains then [] else [41]) ++ (if k.layout.size = size then [] else [48])
    | none => [0]
  match (badTeamHead bs ++ if skip then (if size = 0 then [48] else []) else fits).min? with
  | some o => .error (badArea (off + o))
  | none => pure ({ off := off, skip := skip, kd := kd, bound := bound }, size)

/-- The checks of n images from an offset on, and the offset after them. -/
def State.checkImages (s : State) (c : Ctx) (lim : Nat) : Nat → Nat → Except Exc (List Found × Nat)
  | 0, off => .ok ([], off)
  | n + 1, off => do
    let r ← s.checkImage c off lim
    let rest ← s.checkImages c lim n (off + r.2)
    pure (r.1 :: rest.1, rest.2)

/-- The checks of `ctxld` on the save area (R388); answers its images with the class of each that is restored. -/
def State.checkArea (s : State) (c : Ctx) : Except Exc (List (Found × Option Cls)) := do
  let units := s.areaUnits c
  match (badHead (s.mem.bytes c.savebase 64) ++ if units = 0 ∨ c.areaBytes < 64 * units then [0] else []).min? with
  | some o => .error (badArea o)
  | none => pure ()
  let r ← s.checkImages c (64 * units) (s.areaCount c) 64
  if r.2 ≠ 64 * units then .error (badArea 0)
  r.1.mapM fun f =>
    match f.skip, f.kd, clsOfCode f.bound with
    | false, some k, some b =>
      match s.rebind k.contract b with
      | some cls => pure (f, some cls)
      | none => .error { code := cContract, addr := f.off, detail := contractCode k.contract }
    | _, _, _ => pure (f, none)

/-- The team of the i-th image becomes a candidate; BOUND takes its class. A team that the scheduler does not know gets a number. -/
def State.enlist (s : State) (c : Ctx) (p : (Found × Option Cls) × Nat) : State :=
  match p.1.2 with
  | none => s
  | some cls =>
    let off := p.1.1.off
    let s1 := if p.1.1.bound = clsCode cls then s else s.storeNat (c.savebase + off + 41) 1 (clsCode cls)
    let put := fun (s : State) (id : Nat) => s.updSch fun h =>
      { h with cands := h.cands ++ [{ ctx := c.num, off := off, id := id, ready := true, single := false, since := 0, lines := [], slices := [] }] }
    match c.saveIds[p.2]? with
    | some id => put s1 id
    | none =>
      let frame := BitVec.ofNat 64 (s1.mem.rd (c.savebase + off + 8) 8)
      let idn : Ident := { id := s1.nextId, ctx := c.num, frame := frame, launch := 0, core := 0, relaunch := 0, maps := none, starting := false,
                           gang := [], outb := [] }
      put { s1.updSch fun h => { h with idents := h.idents ++ [idn] } with nextId := s1.nextId + 1 } s1.nextId

/-- Meaning of `ctxld` (R385, R388): the context runs, and its images are candidates of arbitration. -/
def execCtxld (w : FR) (s : State) : Host.Outcome State Fault Refusal :=
  let v := w.view .fr 0x205
  runWord { sh := shCtxld v } v s fun i s1 => do
    match if i.ua < 256 then (s1.ctx? i.ua).filter fun c => c.st != .free else none with
    | none => .error { code := cPermission, detail := 3 }
    | some c =>
      if c.st ≠ .saved then .error { code := cPermission, detail := 8 }
      let fs ← s1.checkArea c
      let s2 := s1.updCtx c.num fun c => { c with st := .running }
      pure (((fs.zipIdx).foldl (fun s p => s.enlist c p) s2).endClause i id)

end Sys2Proof.Machine
end

