-- ==== Sys2Proof/Machine/Rounds.lean ====
section
/-! DEFINITION. The scheduler (R51, R272 to R277, R281, R282, R287, R335, R399, R402): the queues that it serves, taking launches and
tasks up, the candidates of a round and their grants, gangs, and the scan of task queues. -/

namespace Sys2Proof.Machine

/-! ### Queues (R272, R282) -/

/-- A LAUNCH or TASK queue as a scheduler sees it. -/
structure QRef where
  ctx : Nat
  va : Nat
  pa : Nat
  hdr : QHdr
deriving DecidableEq, Repr

/-- The context dispatches launches and tasks (R375, R380). -/
def Ctx.dispatches (c : Ctx) : Bool := c.st == .running && c.saving.isNone

/-- The queue of entry i, if `ok` admits its context and its header is valid and of one of some KINDs. -/
def State.queueAt (s : State) (ok : Ctx → Bool) (kinds : List Nat) (i : Nat) : Option (Ctx × QRef) :=
  let e := s.dirEntry i
  if e.1 = 0 then none
  else (s.ctx? e.2).bind fun c =>
    if !ok c then none
    else match s.openOwn c e.1 kinds with
      | .ok q => some (c, { ctx := c.num, va := e.1, pa := q.1, hdr := q.2 })
      | .error _ => none

/-- The registered queues of the contexts that `ok` admits, in directory order. -/
def State.queuesBy (s : State) (ok : Ctx → Bool) (kinds : List Nat) : List (Ctx × QRef) :=
  if s.pkg.mgmt.qdir = 0 then [] else (List.range 4096).filterMap (s.queueAt ok kinds)

/-- The scheduler serves the context now: it dispatches, and no commit of ranges or migration stalls what is read for it (R219, R231). -/
def State.serves (s : State) (c : Ctx) : Bool := c.dispatches && !s.frozenCtx c.num

/-- The queues whose header line a chamber die homes, in directory order (R282). -/
def State.queuesOf (s : State) (hub : Nat) (kinds : List Nat) : List (Ctx × QRef) :=
  (s.queuesBy s.serves kinds).filter fun p => homeSlice s.pkg.hbmsplit p.2.pa / 96 == hub

/-! ### Launches (R274, R275, R347) -/

/-- Reads and checks a launch record with its descriptor and carry table; the error is the fault that is logged (R274, R36, R39, R47,
R378). Of several fields of the record that are bad, the lowest is named, and a bad record before its descriptor and table (R431). -/
def State.readLaunch (s : State) (c : Ctx) (va prio bcls tenant hub : Nat) (queue : Option Nat) : Except Exc Launch := do
  let bad := fun d : Nat => ({ code := cQueueDesc, addr := va, detail := d } : Exc)
  let unread := fun (i : Nat) (x : Exc) => ({ code := cQueueDesc, addr := x.addr, detail := 0x1000 + i * 256 + x.code % 256 } : Exc)
  let bs ← (s.readRec c none va 64).mapError (unread 0)
  let d := dwordAt bs
  let x := natBits (d 2) 48 16
  let y := natBits (d 2) 32 16
  let z := natBits (d 2) 16 16
  let fs := d 7 / 2 ^ 32
  let tqBad := d 5 != 0 && match s.openOwn c (d 5) [kTask] with
    | .ok _ => false
    | .error _ => true
  let own := badOfs [(d 0 % 64 != 0, 0), (x == 0 || y == 0 || z == 0 || natBits (d 2) 0 16 != 0, 0x10), (tqBad, 0x28), (d 6 % 64 != 0, 0x30),
    (natBits (d 7) 0 32 != 0 || fs % 64 != 0 || decide (fs < 64), 0x38)]
  let kd : Except Exc KDesc := (s.readRec c none (d 0) 64).mapError (unread 1) >>= fun kb => match badKdesc kb with
    | some o => .error (bad (0x100 + o))
    | none => .ok (kdescOf kb)
  let carry : Except Exc Nat := kd >>= fun k => (s.readCarry c k).mapError (unread 2) >>= fun w => w.mapError fun o => bad (0x200 + o)
  -- the fields that the descriptor or the carry table finds bad, where these can be read
  let cross := (match kd with
    | .ok k => badOfs [(x * y * z % k.gangSize != 0, 0x10), (k.restart && d 5 == 0, 0x28)]
    | .error _ => []) ++ (match carry with
    | .ok worst => badOfs [(decide (fs < 64 + worst), 0x38)]
    | .error _ => [])
  match (own ++ cross).min? with
  | some o => .error (bad o)
  | none => pure ()
  let k ← kd
  let _ ← carry
  match k.unfit with
  | some u => .error (bad (0x400 + u))
  | none => pure ()
  if s.bindOf k.contract tenant bcls hub = .never then .error { code := cContract, addr := va, detail := contractCode k.contract }
  if s.chargeAns tenant bcls actLaunch hub 1 = .hard then .error { code := cBudgetViolation, addr := va }
  pure { id := 0, ctx := c.num, queue := queue, hub := hub, recVa := BitVec.ofNat 64 va, kva := BitVec.ofNat 64 (d 0), kd := k,
         args := BitVec.ofNat 64 (d 1), nx := x, ny := y, nz := z, launchId := BitVec.ofNat 64 (d 3), done := BitVec.ofNat 64 (d 4),
         tq := BitVec.ofNat 64 (d 5), frames := BitVec.ofNat 64 (d 6), fstride := fs, prio := prio, tenant := tenant, bcls := bcls, next := 0,
         left := x * y * z }

/-- Teams of a launch. -/
def Launch.total (l : Launch) : Nat := l.nx * l.ny * l.nz

/-- The launch whose record stands at the head of a queue and has been taken up. -/
def State.headLaunch (s : State) (pa : Nat) : Option Launch := s.sch.launches.find? fun l => l.queue == some pa

/-- Reading of the record at the head of a LAUNCH queue. -/
def State.headRecord (s : State) (c : Ctx) (q : QRef) (hub : Nat) : Except Exc Launch :=
  s.readLaunch c (q.hdr.item q.hdr.head) q.hdr.prio q.hdr.bcls q.hdr.tenant hub (some q.pa)

/-- A rejected launch: the fault is logged, with event 0x40 where a hard cap rejects it. -/
def State.reject (s : State) (ctx tenant bcls hub : Nat) (x : Exc) : State :=
  let s1 := s.logFault ctx x.code x.detail x.addr
  if x.code = cBudgetViolation then (s1.charge tenant bcls actLaunch hub 1).2 else s1

/-- Rejected records at the head of a LAUNCH queue are taken (R274). -/
def State.sweepLaunch (hub : Nat) (c : Ctx) : Nat → State → QRef → State
  | 0, s, _ => s
  | fuel + 1, s, q =>
    if q.hdr.count = 0 ∨ (s.headLaunch q.pa).isSome then s
    else match s.headRecord c q hub with
      | .ok _ => s
      | .error x =>
        let head := (q.hdr.head + 1) % 2 ^ 64
        State.sweepLaunch hub c fuel ((s.reject c.num q.hdr.tenant q.hdr.bcls hub x).storeNat (q.pa + 16) 8 head)
          { q with hdr := { q.hdr with head := head } }

/-- A launch taken up whose next team finds no class any more is rejected like one that is not: its record is taken, no further team of it
is dispatched, and its DONE stays (R47, R275; log entry 67). -/
def State.sweepTaken (hub : Nat) (s : State) (l : Launch) : State :=
  if l.hub = hub ∧ l.next < l.total ∧ (s.ctx? l.ctx).any Ctx.dispatches = true ∧ s.bindOf l.kd.contract l.tenant l.bcls hub = .never then
    let s1 := match l.queue with
      | some pa => s.storeNat (pa + 16) 8 ((s.mem.rd (pa + 16) 8 + 1) % 2 ^ 64)
      | none => s
    (s1.updSch fun h => { h with launches := h.launches.map fun x => if x.id == l.id then { x with next := l.total, queue := none } else x }).logFault
      l.ctx cContract (contractCode l.kd.contract) l.recVa.toNat
  else s

/-! ### Tasks (R276) -/

/-- TK and STATE of a task record. -/
def taskTk (bs : List Byte) : Nat := natBits (dwordAt bs 7) 56 2
def taskSt (bs : List Byte) : Nat := natBits (dwordAt bs 7) 0 2

/-- Byte offset of the first offending field of a task record (R276, R287, R431). -/
def badTask (bs : List Byte) : Option Nat :=
  let d := dwordAt bs
  let tk := taskTk bs
  let bound := natBits (d 7) 48 8
  let r7 := natBits (d 7) 2 46 * 4
  ((if natBits (d 4) 0 16 = 0 then [] else [lowByte 2 32 (natBits (d 4) 0 16)]) ++ (if r7 = 0 then [] else [lowByte 6 56 r7]) ++
    badOfs [(decide (d 6 % 4 ≠ 0), 48), (tk == 3, 63), (decide (2 ≤ taskSt bs), 56)] ++
    (match tk with
     | 0 => badOfs [(d 5 != 0, 40), (bound == 0 || decide (4 < bound), 62)]
     | 1 => badOfs [(d 0 != 0, 0), (d 1 != 0, 8), (natBits (d 2) 32 32 != 0, 20), (d 3 != 0, 24), (bound != 0, 62)]
     | 2 => badOfs [(d 5 != 0, 40), (natBits (d 2) 32 32 != 0, 20), (bound != 0, 62)]
     | _ => [])).min?

/-- HEAD advances over every leading TAKEN item. -/
def State.skipTaken (s : State) (c : Ctx) (h : QHdr) : Nat → Nat → Nat
  | 0, i => i
  | fuel + 1, i =>
    if i = h.tail then i
    else match s.readRec c none (h.item i) 64 with
      | .ok bs => if taskSt bs = 1 then s.skipTaken c h fuel ((i + 1) % 2 ^ 64) else i
      | .error _ => i

/-- A task item is taken: STATE := TAKEN, and HEAD advances (R276). -/
def State.takeTask (s : State) (c : Ctx) (q : QRef) (va : Nat) : State :=
  match (s.readRec c none (va + 56) 1).bind fun b => s.writeRec c (va + 56) [BitVec.ofNat 8 (leNat b / 4 * 4 + 1)] with
  | .error _ => s
  | .ok s1 =>
    let h := qhdrOf (s1.mem.bytes q.pa 64)
    s1.storeNat (q.pa + 16) 8 (s1.skipTaken c h h.count h.head)

/-- VAs of the items of a queue, oldest first. -/
def QHdr.items (h : QHdr) : List Nat := (List.range h.count).map fun i => h.item ((h.head + i) % 2 ^ 64)

/-- The gating counter of a task has been found at zero and reads zero (R276, R281). -/
def State.taskReady (s : State) (c : Ctx) (va : Nat) (bs : List Byte) : Bool :=
  match s.counterPa c none (taskCtr va bs) with
  | .ok pa => s.sch.ready.contains pa && s.mem.rd pa 4 == 0
  | .error _ => false

/-- The launch of a LAUNCH task (R276). -/
def State.taskLaunch (s : State) (c : Ctx) (q : QRef) (bs : List Byte) (hub : Nat) : Except Exc Launch :=
  s.readLaunch c (dwordAt bs 5) (natBits (dwordAt bs 7) 61 3) (natBits (dwordAt bs 7) 58 3) q.hdr.tenant hub none

/-- Takes and logs an item that cannot run: one that breaks the map, or a ready one whose descriptor is invalid, whose launch is rejected,
or whose successor finds no class (R276, R287). -/
def State.sweepTask (s : State) (c : Ctx) (q : QRef) (hub va : Nat) : State :=
  match s.readRec c none va 64 with
  | .error _ => s
  | .ok bs =>
    if taskSt bs = 1 then s
    else match badTask bs with
      | some o => (s.takeTask c q va).logFault c.num cQueueDesc o va
      | none =>
        if !s.taskReady c va bs then s
        else if taskTk bs = 1 then
          match s.taskLaunch c q bs hub with
          | .ok _ => s
          | .error x => (s.takeTask c q va).reject c.num q.hdr.tenant (natBits (dwordAt bs 7) 58 3) hub x
        else match s.kdescAt c (dwordAt bs 3) with
          | none => (s.takeTask c q va).logFault c.num cQueueDesc 24 va
          | some k =>
            if taskTk bs = 2 ∧ s.bindOf k.contract q.hdr.tenant (natBits (dwordAt bs 7) 58 3) hub = .never then
              (s.takeTask c q va).logFault c.num cContract (contractCode k.contract) va
            else s

/-- What a scheduler clears out of its queues at the start of a round; the tail lines follow the directory. -/
def State.sweep (s : State) (hub : Nat) : State :=
  let s0 := s.watch.updSch fun h => { h with ready := h.ready.filter fun pa => s.mem.rd pa 4 == 0 }
  let sx := s0.sch.launches.foldl (State.sweepTaken hub) s0
  let s1 := (sx.queuesOf hub [kLaunch]).foldl (fun s p => State.sweepLaunch hub p.1 p.2.hdr.count s p.2) sx
  (s1.queuesOf hub [kTask]).foldl (fun s p => p.2.hdr.items.foldl (fun s va => s.sweepTask p.1 p.2 hub va) s) s1

/-! ### Candidates (R282) -/

/-- What a grant dispatches: the next team of a launch taken up, or of the record at the head of a queue, or of a LAUNCH task; a TEAM
or SUCC task with the core for it; a saved image; a gang of saved images; or the next team of a gang that has been formed. -/
inductive What where
  | next (l : Launch)
  | record (l : Launch)
  | ltask (q : QRef) (va : Nat) (l : Launch)
  | task (q : QRef) (va : Nat) (bs : List Byte) (k : KDesc) (core : Nat)
  | image (x : Cand)
  | images (xs : List Cand)
  | held (g : Gang)
deriving DecidableEq, Repr

/-- A candidate of a round; `room` says whether it finds room now. -/
structure Offer where
  prio : Nat
  tenant : Nat
  resume : Bool
  cls : Cls
  room : Bool
  what : What
deriving DecidableEq, Repr

/-- Another gang holds a reservation on a cluster (R51). -/
def State.gangHolds (s : State) (id : Nat) (p : Nat × Nat) : Bool := s.sch.gangs.any fun g => g.id != id && g.place == some p && g.teams != []

/-- Free cores of the cluster of a gang for one more of its teams, beside those that its teams hold (R38, R51): none on a die that is not open,
nor where another gang holds a reservation. -/
def State.gangCores (s : State) (g : Gang) (k : KDesc) : List Nat :=
  match g.place with
  | none => []
  | some p =>
    let held := (s.teams.filter fun t => g.teams.contains t.id).flatMap Team.cores
    if !(s.openDies g.cls).contains p.1 || s.gangHolds g.id p then []
    else (lowerCores k p.1 p.2).filter fun c => s.roomAt k c && !((coresFrom k c).any held.contains)

/-- The cluster for a gang: the one with the most free entries among those on which no other gang holds a reservation, whether its teams find room
there now or not (R51), and none but those that `ok` allows. Clusters of the scheduler's own die come first while one of them has room, then those of the other die (R282). -/
def State.gangCluster (s : State) (k : KDesc) (cls : Cls) (hub id : Nat) (ok : Nat → Bool) : Option (Nat × Nat) :=
  let may := fun own => (s.clustersOf cls hub own).filter fun p => !s.gangHolds id p && (lowerCores k p.1 p.2).any ok
  let pick := fun own => firstMax (fun p : Nat × Nat => s.clusterFree p.1 p.2) (may own)
  let room := fun own => (may own).any fun p => !(s.roomsIn k (fun _ => true) p.1 p.2).isEmpty
  if !room true && room false then pick false else (pick true).orElse fun _ => pick false

/-- The next team of a launch as a candidate of the class that it binds to. A gang of the launch that has been formed is its own candidate. -/
def State.offerLaunch (s : State) (hub : Nat) (l : Launch) (w : Launch → What) : List Offer :=
  match s.bindOf l.kd.contract l.tenant l.bcls hub with
  | .to cls =>
    let room := if l.kd.gang = 0 then (s.pickCore l.kd cls hub 0 fun _ => true).isSome else (s.gangCluster l.kd cls hub 0 fun _ => true).isSome
    if l.kd.gang ≠ 0 ∧ l.id ≠ 0 ∧ (s.sch.gangs.any fun g => g.launch == l.id && g.ids.isEmpty) = true then []
    else [{ prio := l.prio, tenant := l.tenant, resume := false, cls := cls, room := room, what := w l }]
  | _ => []

/-- The tenant offers no new launch (R282, R347). -/
def State.launchHeld (s : State) (l : Launch) (hub : Nat) : Bool := s.chargeAns l.tenant l.bcls actLaunch hub 1 != .ok

/-- Candidates of a LAUNCH queue: the launch taken up at its head, or the record there. -/
def State.offerQueue (s : State) (hub : Nat) (c : Ctx) (q : QRef) : List Offer :=
  match s.headLaunch q.pa with
  | some l => if l.next < l.total then s.offerLaunch hub l .next else []
  | none =>
    if q.hdr.count = 0 then []
    else match s.headRecord c q hub with
      | .ok l => if s.launchHeld l hub then [] else s.offerLaunch hub l .record
      | .error _ => []

/-- Where the team of a TEAM or SUCC task may run: its class, and a core with room. -/
def State.taskCore (s : State) (c : Ctx) (q : QRef) (bs : List Byte) (k : KDesc) (hub : Nat) : Option (Cls × Option Nat) :=
  let idn := s.ident? c.num (BitVec.ofNat 64 (dwordAt bs 1))
  let id := (idn.map Ident.id).getD s.nextId
  let gang := (idn.map Ident.gang).getD []
  let cls := if taskTk bs = 0 then clsOfCode (natBits (dwordAt bs 7) 48 8)
    else match s.bindOf k.contract q.hdr.tenant (natBits (dwordAt bs 7) 58 3) hub with
      | .to b => some b
      | _ => none
  cls.map fun cls => (cls, s.pickCore k cls hub ((idn.map Ident.core).getD 0) fun core => s.besideGang k gang id core)

/-- The candidate of a task item. -/
def State.offerTask (s : State) (hub : Nat) (c : Ctx) (q : QRef) (va : Nat) : List Offer :=
  match s.readRec c none va 64 with
  | .error _ => []
  | .ok bs =>
    if taskSt bs ≠ 0 ∨ (badTask bs).isSome ∨ !s.taskReady c va bs then []
    else if taskTk bs = 1 then
      match s.taskLaunch c q bs hub with
      | .ok l => if s.launchHeld l hub then [] else s.offerLaunch hub l (.ltask q va)
      | .error _ => []
    else
      let prio := natBits (dwordAt bs 7) 61 3
      match (s.kdescAt c (dwordAt bs 3)).bind fun k => (s.taskCore c q bs k hub).map fun p => (k, p) with
      | some (k, cls, core) =>
        [{ prio := prio, tenant := q.hdr.tenant, resume := taskTk bs == 0, cls := cls, room := core.isSome, what := .task q va bs k (core.getD 0) }]
      | none => []

/-- The scheduler that restores an image: that of the die of the core it left. -/
def State.imageHub (s : State) (x : Cand) : Nat := chamberOf (coreDie (s.leftCore x.id))

/-- The saved teams of one gang that are ready (R402). -/
def State.gangOf (s : State) (x : Cand) (t : Team) : List Cand :=
  s.sch.cands.filter fun y => y.ctx == x.ctx && (y.id == x.id || t.gang.contains y.id)

/-- The candidate of a saved image, or of the gang whose first image it is. -/
def State.offerImage (s : State) (hub : Nat) (x : Cand) : List Offer :=
  if !s.imageReady x || s.imageHub x != hub then []
  else match s.imageTeam x with
    | none => []
    | some t =>
      let one := fun room w => [{ prio := t.prio, tenant := t.tenant, resume := true, cls := t.cls, room := room, what := w }]
      if t.gang.isEmpty then one (s.imageCore t hub).isSome (.image x)
      else
        let xs := s.gangOf x t
        if (xs.head?.map Cand.id) != some x.id || !(xs.all s.imageReady) || (s.sch.gangs.any fun g => g.ids.contains x.id) then []
        else one (s.gangCluster t.kd t.cls hub 0 fun core => s.besideGang t.kd t.gang t.id core).isSome (.images xs)

/-- What a gang is to reserve next: the team of a launch or of an image, still without a core. -/
def State.gangNext (s : State) (g : Gang) : Option Team :=
  match g.ids with
  | [] =>
    (s.sch.launches.find? fun l => l.id == g.launch).map fun l =>
      let i := g.first + g.teams.length
      { (Team.blank s.nextId l.ctx g.cls l.kva l.kd).ofLaunch l with
        frame := l.frames + BitVec.ofNat 64 (i * l.fstride), team := (i % l.nx, i / l.nx % l.ny, i / (l.nx * l.ny)),
        nteam := (l.nx, l.ny, l.nz), launchId := l.launchId, load := .fresh true }
  | ids => (ids[g.teams.length]?).bind fun id => (s.sch.cands.find? fun x => x.id == id).bind s.imageTeam

/-- The scheduler that serves a gang: that of its launch, or of the first of its images. -/
def State.gangHub (s : State) (g : Gang) : Nat :=
  match g.ids with
  | [] => ((s.sch.launches.find? fun l => l.id == g.launch).map Launch.hub).getD 0
  | id :: _ => chamberOf (coreDie (s.leftCore id))

/-- The next team of a gang as a candidate. -/
def State.offerGang (s : State) (hub : Nat) (g : Gang) : List Offer :=
  match s.gangNext g with
  | none => []
  | some t =>
    if s.gangHub g ≠ hub ∨ !((s.ctx? t.ctx).any s.serves) then []
    else [{ prio := t.prio, tenant := t.tenant, resume := !g.ids.isEmpty, cls := g.cls, room := !(s.gangCores g t.kd).isEmpty, what := .held g }]

/-- The launches of LAUNCH tasks whose teams are not all dispatched. -/
def State.openTasks (s : State) (hub : Nat) : List Launch :=
  s.sch.launches.filter fun l => l.queue.isNone && l.hub == hub && decide (l.next < l.total) && (s.ctx? l.ctx).any s.serves

/-- The candidates of a chamber die's scheduler: saved images and gangs first, then its queues in directory order. -/
def State.offers (s : State) (hub : Nat) : List Offer :=
  s.sch.cands.flatMap (s.offerImage hub) ++ s.sch.gangs.flatMap (s.offerGang hub) ++
  (s.openTasks hub).flatMap (fun l => s.offerLaunch hub l .next) ++
  (s.queuesOf hub [kTask]).flatMap (fun p => p.2.hdr.items.flatMap (s.offerTask hub p.1 p.2)) ++
  (s.queuesOf hub [kLaunch]).flatMap (fun p => s.offerQueue hub p.1 p.2)

/-! ### Deficit round robin (R282) -/

def State.deficitOf (s : State) (hub : Nat) (cls : Cls) (tenant : Nat) : Nat :=
  ((s.sch.deficits.find? fun d => d.die == hub && d.cls == cls && d.tenant == tenant).map Deficit.val).getD 0

/-- Weight of a tenant (R345). -/
def State.weightOf (s : State) (tenant : Nat) : Nat := ((s.row? tenant 0).map Row.wt).getD 16

/-- Visits tenants in order until one's deficit reaches 16; `ds` holds their deficits. -/
def visit (wt : Nat → Nat) : List Nat → List (Nat × Nat) → Option (Nat × List (Nat × Nat))
  | [], _ => none
  | t :: ts, ds =>
    let d := getKey ds t + wt t
    if 16 ≤ d then some (t, setKey ds t (d - 16)) else visit wt ts (setKey ds t d)

/-- Tenants in ascending order, once each. -/
def tenantsOf (os : List Offer) : List Nat := os.foldl (fun l o => insertIdx o.tenant l) []

/-- The choice of a round among the candidates of a class, and the deficits that it leaves: 0 for a tenant without a candidate. The highest PRIO
among all candidates wins; of its tenants those with a candidate that finds room are visited, so that with room for none of them nothing is
granted (R282; log entry 15). DESIGN CHOICE: one round makes up to 16 passes over these tenants, so that one of them reaches a deficit of 16
(log entry 15). -/
def State.choose (s : State) (hub : Nat) (cls : Cls) (os : List Offer) : Option Offer × State :=
  let top := os.foldl (fun m o => max m o.prio) 0
  let best := os.filter fun o => o.prio == top && o.room
  let ts := tenantsOf best
  let last := (s.sch.granted.find? fun g => g.1 == hub && g.2.1 == cls).map fun g => g.2.2
  let order := match last with
    | some l => (ts.filter fun t => decide (l < t)) ++ ts.filter fun t => decide (t ≤ l)
    | none => ts
  let start := (tenantsOf os).map fun t => (t, s.deficitOf hub cls t)
  let keep := fun (s : State) (ds : List (Nat × Nat)) => s.updSch fun h =>
    { h with deficits := (h.deficits.filter fun d => !(d.die == hub && d.cls == cls)) ++
               (ds.filter fun p => p.2 != 0).map fun p => ({ die := hub, cls := cls, tenant := p.1, val := p.2 } : Deficit) }
  match visit s.weightOf (List.replicate 16 order).flatten start with
  | none => (none, keep s start)
  | some (t, ds) =>
    let mine := best.filter fun o => o.tenant == t
    let s1 := (keep s ds).updSch fun h => { h with granted := (hub, cls, t) :: h.granted.filter fun g => !(g.1 == hub && g.2.1 == cls) }
    ((mine.find? Offer.resume).orElse fun _ => mine.head?, s1)

/-! ### Grants -/

/-- A team is remembered until it ends. -/
def State.remember (s : State) (t : Team) : State :=
  { s.updSch fun h => { h with idents := h.idents ++ [{ id := t.id, ctx := t.ctx, frame := t.frame, launch := t.launch, core := t.core, relaunch := 0,
                                                        maps := none, starting := false, gang := t.gang, outb := [] }] } with nextId := s.nextId + 1 }

def State.updLaunch (s : State) (id : Nat) (f : Launch → Launch) : State :=
  s.updSch fun h => { h with launches := h.launches.map fun l => if l.id == id then f l else l }

/-- The record is taken once the last team of its launch is dispatched: HEAD advances, with event 0x30 (R275, R352). -/
def State.lastTaken (s : State) (id : Nat) : State :=
  match s.sch.launches.find? fun l => l.id == id with
  | none => s
  | some l =>
    if l.next < l.total ∨ (s.sch.gangs.any fun g => g.launch == id && g.ids.isEmpty) = true then s
    else
      let s1 := match l.queue with
        | some pa => s.storeNat (pa + 16) 8 ((s.mem.rd (pa + 16) 8 + 1) % 2 ^ 64)
        | none => s
      (s1.updLaunch id fun l => { l with queue := none }).emitHub l.hub 0x300 0x30 l.ctx (BitVec.ofNat 32 l.launchId.toNat)

/-- A gang reserves its next team; with the last one, all of them start (R51, R54). -/
def State.reserve (s : State) (id : Nat) : State :=
  match s.sch.gangs.find? fun g => g.id == id with
  | none => s
  | some g =>
    match s.gangNext g with
    | none => s
    | some t =>
      match s.gangCores g t.kd with
      | [] => s
      | core :: _ =>
        let t1 : Team := { t with core := core, slot := .held }
        let s1 := if g.ids.isEmpty then s.remember t1
          else s.updSch fun h => { h with cands := h.cands.filter fun x => x.id != t.id }
        let s2 := s1.seat t1
        let all := g.teams ++ [t.id]
        let size := if g.ids.isEmpty then t.kd.gangSize else g.ids.length
        let here := fun (x : Gang) => x.id == id
        if all.length < size then s2.updSch fun h => { h with gangs := h.gangs.map fun x => if here x then { x with teams := all } else x }
        else
          let gang := if g.ids.isEmpty then all else t.gang
          let begin_ := fun (u : Team) => if all.contains u.id then { u with slot := .start, gang := gang } else u
          let s3 := { s2 with teams := s2.teams.map begin_ }
          let s4 := s3.updSch fun h => { h with gangs := h.gangs.filter fun x => !here x
                                                idents := h.idents.map fun i => if all.contains i.id then { i with gang := gang } else i }
          if g.ids.isEmpty then s4.lastTaken g.launch else s4

/-- A gang is formed on the cluster chosen for it, and reserves its first team if that finds room there (R51). -/
def State.formGang (s : State) (k : KDesc) (cls : Cls) (hub launch first : Nat) (ids : List Nat) (ok : Nat → Bool) : State :=
  let g : Gang := { id := s.nextId, cls := cls, place := s.gangCluster k cls hub 0 ok, launch := launch, first := first, ids := ids, teams := [],
                    rounds := 0, closed := false }
  State.reserve { s.updSch fun h => { h with gangs := h.gangs ++ [g] } with nextId := s.nextId + 1 } g.id

/-- The next team of a launch taken up is dispatched, or a gang of its teams begins to reserve (R51, R275). -/
def State.dispatchNext (s : State) (id : Nat) (cls : Cls) (hub : Nat) : State :=
  match s.sch.launches.find? fun l => l.id == id with
  | none => s
  | some l =>
    if l.kd.gang = 0 then
      match s.pickCore l.kd cls hub 0 fun _ => true with
      | none => s
      | some core =>
        let i := l.next
        let t : Team := { (Team.blank s.nextId l.ctx cls l.kva l.kd).ofLaunch l with
          frame := l.frames + BitVec.ofNat 64 (i * l.fstride), team := (i % l.nx, i / l.nx % l.ny, i / (l.nx * l.ny)),
          nteam := (l.nx, l.ny, l.nz), launchId := l.launchId, core := core, load := .fresh true }
        ((((s.updLaunch id fun l => { l with next := i + 1 }).remember t).seat t)).lastTaken id
    else
      (s.updLaunch id fun l => { l with next := l.next + l.kd.gangSize }).formGang l.kd cls hub id l.next [] fun _ => true

/-- A launch is taken up at the dispatch of its first team, and charged (R345, R347). -/
def State.takeLaunch (s : State) (l : Launch) (cls : Cls) (hub : Nat) : State :=
  let s1 := (s.charge l.tenant l.bcls actLaunch hub 1).2
  let id := s1.nextId + 1
  let s2 := { s1.updSch fun h => { h with launches := h.launches ++ [{ l with id := id }] } with nextId := id + 1 }
  s2.dispatchNext id cls hub

/-- A TEAM or SUCC task is dispatched (R276, R280, R287): its team takes its coordinates from the task and the rest from its frame. DESIGN
CHOICE: FSTRIDE, which neither holds, is that of its launch where the scheduler knows it, and 64 otherwise (log entry 82). -/
def State.grantTask (s : State) (q : QRef) (va : Nat) (bs : List Byte) (k : KDesc) (cls : Cls) (core : Nat) : State :=
  match s.ctx? q.ctx with
  | none => s
  | some c =>
    let d := dwordAt bs
    let frame := BitVec.ofNat 64 (d 1)
    let idn := s.ident? c.num frame
    let known := idn.filter fun i => (s.team? i.id).isNone
    let id := (known.map Ident.id).getD s.nextId
    let phase := BitVec.ofNat 32 (natBits (d 2) 32 32)
    let s1 := s.takeTask c q va
    let t0 : Team := { Team.blank id c.num cls (BitVec.ofNat 64 (d 3)) k with
      frame := frame, prio := natBits (d 7) 61 3, tenant := q.hdr.tenant, bcls := natBits (d 7) 58 3, tq := BitVec.ofNat 64 q.va
      team := (natBits (d 4) 48 16, natBits (d 4) 32 16, natBits (d 4) 16 16), core := core, launch := (known.map Ident.launch).getD 0
      relaunch := if taskTk bs = 2 then 0 else (known.map Ident.relaunch).getD 0, gang := (known.map Ident.gang).getD [] }
    match s1.readRec c none frame.toNat 64 with
    | .error x => s1.carryFail t0 x
    | .ok fb =>
      let f := dwordAt fb
      let stride := ((known.bind fun i => s.sch.launches.find? fun l => l.id == i.launch).map Launch.fstride).getD 64
      let t : Team := { t0 with launchId := BitVec.ofNat 64 (f 0), args := BitVec.ofNat 64 (f 1), done := BitVec.ofNat 64 (f 4),
                                tq := BitVec.ofNat 64 (f 5), nteam := (natBits (f 3) 48 16, natBits (f 3) 32 16, natBits (f 3) 16 16), fstride := stride
                                load := if taskTk bs = 2 then .fresh false else .task (BitVec.ofNat 64 (d 0)) phase (known.bind Ident.maps) }
      let s2 := if known.isSome then (if taskTk bs = 2 then s1.updIdent id fun i => { i with maps := none, starting := false, relaunch := 0 } else s1)
        else s1.remember t
      s2.seat { t with phase := if taskTk bs = 2 then 0#32 else phase }

/-- A gang of saved images begins to reserve on another cluster (R402). -/
def State.grantImages (s : State) (xs : List Cand) (cls : Cls) (hub : Nat) : State :=
  match xs.head?.bind s.imageTeam with
  | none => s
  | some t =>
    s.formGang t.kd cls hub 0 0 (xs.map Cand.id) fun core => s.besideGang t.kd t.gang t.id core

/-- Carries out a grant. -/
def State.grant (s : State) (hub : Nat) (o : Offer) : State :=
  match o.what with
  | .next l => s.dispatchNext l.id o.cls hub
  | .record l => s.takeLaunch l o.cls hub
  | .ltask q va l =>
    match s.ctx? q.ctx with
    | some c => (s.takeTask c q va).takeLaunch l o.cls hub
    | none => s
  | .task q va bs k core => s.grantTask q va bs k o.cls core
  | .image x => s.grantImage x hub
  | .images xs => s.grantImages xs o.cls hub
  | .held g => s.reserve g.id

/-- The arbitration of a round for one class; without a candidate every deficit of the class is 0. -/
def State.roundCls (s : State) (hub : Nat) (cls : Cls) : State :=
  match (s.offers hub).filter fun o => o.cls == cls with
  | [] => s.updSch fun h => { h with deficits := h.deficits.filter fun d => !(d.die == hub && d.cls == cls) }
  | os =>
    let r := s.choose hub cls os
    match r.1 with
    | some o => r.2.grant hub o
    | none => r.2

/-! ### Teams that only wait (R335) -/

/-- A wait on a monitor that has not been woken, and whose entry no write has fired (R335). -/
def State.idleWait (s : State) (t : Team) (g : Group) : Bool :=
  match g.wait with
  | .monitor => (g.monitor.any fun m => !m.fired) && s.armed (t.id, g.idx)
  | .wuc _ _ _ _ _ _ _ => s.armed (t.id, g.idx)
  | _ => false

/-- The lines on which a team's groups wait. -/
def State.waitLines (s : State) (t : Team) : List Nat :=
  t.groups.filterMap fun g =>
    match g.wait, s.ctx? t.ctx with
    | .monitor, _ => g.monitor.map fun m => m.pa / 128
    | .wuc va _ _ _ _ _ _, some c =>
      match s.translate c (some (t, t.coreOf g.idx)) va 1 .read false with
      | .ok (.phys pa _ _) => some (pa / 128)
      | _ => none
    | _, _ => none

/-- Every live group of the team waits in `mwait` or `wuc`, and the scheduler may save it: it is in no gang or pair, not persistent, and
its image fits the save area (R335, R389). -/
def State.idleTeam (s : State) (cls : Cls) (t : Team) : Bool :=
  t.slot == .run && t.cls == cls && t.gang.isEmpty && !t.kd.pair && !t.kd.persist && t.groups.any (fun g => !g.exited) &&
  t.groups.all (fun g => (g.exited || s.idleWait t g) && g.deferred.isEmpty) && !s.wantSave t &&
  (s.ctx? t.ctx).any fun c => c.dispatches && decide ((s.planArea c).start + t.kd.layout.size ≤ c.areaBytes) &&
    !(s.sch.cands.any fun x => x.ctx == c.num && x.off == 0)

/-- A single-team save begins, of a team whose groups wait on some lines, or for none. -/
def State.beginSingle (s : State) (t : Team) (lines : List Nat) : State :=
  let slices := if lines.isEmpty then [] else (s.ovf.filter fun o => o.team == t.id).map Ovf.slice
  s.updSch fun h => { h with cands := h.cands ++ [{ ctx := t.ctx, off := 0, id := t.id, ready := lines.isEmpty, single := true, since := s.ptp,
                                                    lines := lines, slices := slices }] }

/-- A ready task finds no room in its class. -/
def State.starved (s : State) (hub : Nat) (cls : Cls) : Bool :=
  (s.queuesOf hub [kTask]).any fun p => p.2.hdr.items.any fun va =>
    match s.readRec p.1 none va 64 with
    | .error _ => false
    | .ok bs =>
      taskSt bs == 0 && (badTask bs).isNone && s.taskReady p.1 va bs && taskTk bs != 1 &&
      ((s.kdescAt p.1 (dwordAt bs 3)).bind fun k => s.taskCore p.1 p.2 bs k hub).any fun r => r.1 == cls && r.2.isNone

/-- The scheduler may save a waiting team of a class in which a ready task finds no room (R335, log entry 21). -/
def State.idleSave (s : State) (hub : Nat) (cls : Cls) : State :=
  match s.teams.find? fun t => chamberOf (coreDie t.core) == hub && s.idleTeam cls t with
  | none => s
  | some t =>
    if !s.starved hub cls then s
    else
      let s1 := { s with freeN := s.freeN + 1 }
      if Config.idleSave s.freeN then s1.beginSingle t (s.waitLines t) else s1

/-! ### Events -/

/-- A gang without a cluster in order is placed anew: what it holds on a die that is drained, gated or lost is released, and its cluster chosen
again (R51, R54, R394, R402). -/
def State.placeGang (s : State) (g : Gang) : State :=
  if g.place.any fun p => (s.openDies g.cls).contains p.1 then s
  else
    let s1 := (s.teams.filter fun t => g.teams.contains t.id).foldl State.dropHeld s
    match s1.gangNext { g with teams := [] } with
    | none => s1
    | some t =>
      let p := s1.gangCluster t.kd g.cls (s1.gangHub g) g.id fun core => s1.besideGang t.kd t.gang t.id core
      s1.updSch fun h => { h with gangs := h.gangs.map fun x => if x.id == g.id then { x with place := p } else x }

/-- A round of the scheduler of a chamber die: it places its gangs, clears its queues and grants at most one dispatch per class (R51,
R282). -/
def State.round (s : State) (hub : Nat) : State :=
  let mine := s.sch.gangs.filter fun g => s.gangHub g == hub
  let wait := fun (g : Gang) => if (mine.any fun x => x.id == g.id) && g.teams != [] then { g with rounds := g.rounds + 1 } else g
  let s1 := (mine.foldl State.placeGang (s.updSch fun h => { h with gangs := h.gangs.map wait })).sweep hub
  let s2 := [Cls.m, .l, .x, .t].foldl (fun s c => s.roundCls hub c) s1
  [Cls.m, .l, .x, .t].foldl (fun s c => s.idleSave hub c) s2

/-- The scheduler of a chamber die loads new firmware (R403). -/
def State.hubLoading (s : State) (hub : Nat) : Bool := s.pkg.phimus.loading.any fun p => p.1 == hub && decide (s.ptp < p.2)

/-- The chamber dies whose queues and chiplets a scheduler serves: its own, and those of the other while that loads firmware (R403). -/
def State.hubsOf (s : State) (die : Nat) : List Nat :=
  if 1 < die ∨ s.hubLoading die = true then [] else if s.hubLoading (1 - die) then [die, 1 - die] else [die]

/-- Meaning of SCHEDULING_ROUND (R51, R282, R403): the scheduler of a chamber die makes a round. -/
def execSchedulingRound (die : Nat) (s : State) : Host.Outcome State Fault Refusal := .next ((s.hubsOf die).foldl State.round s)

/-- Meaning of GANG_CLUSTER_CLOSE (R51). -/
def execGangClusterClose (die cluster : Nat) (s : State) : Host.Outcome State Fault Refusal :=
  let shut := fun (g : Gang) => if g.place = some (die, cluster) ∧ g.teams ≠ [] ∧ 64 ≤ g.rounds then { g with closed := true } else g
  .next (s.updSch fun h => { h with gangs := h.gangs.map shut })

/-- The counter of a waiting task, if it reads zero. -/
def State.zeroCtr (s : State) (c : Ctx) (va : Nat) : Option Nat :=
  match s.readRec c none va 64 with
  | .error _ => none
  | .ok bs =>
    match s.counterPa c none (taskCtr va bs) with
    | .ok pa => if taskSt bs = 0 ∧ s.mem.rd pa 4 = 0 then some pa else none
    | .error _ => none

/-- Meaning of TASK_QUEUE_SCAN (R281): tasks whose counter a store has set to zero become ready. -/
def execTaskQueueScan (die : Nat) (s : State) : Host.Outcome State Fault Refusal :=
  let found := (s.queuesOf die [kTask]).flatMap fun p => p.2.hdr.items.filterMap (s.zeroCtr p.1)
  .next (s.updSch fun h => { h with ready := found.foldl (fun l pa => if l.contains pa then l else l ++ [pa]) h.ready })

/-- The registered queue of entry q rings: its TAIL has been written since its last doorbell, it is of no KIND of R273 but LAUNCH, and no commit
of ranges or migration stalls what is read for its context (R231, R399). -/
def State.rung (s : State) (q : Nat) : Bool :=
  (s.tailOf q).any fun p => s.sch.tails.contains (p.2.2, true) && !s.frozenCtx p.1.num && !([kTask, kWork, kQuant].contains (s.mem.rd (p.2.2 + 15) 1))

/-- Meaning of LAUNCH_DOORBELL (R399): TAIL of the LAUNCH queue in entry q of the directory has been written. An invalid header is logged; records
that are rejected are taken, and the others wait for their round. -/
def execLaunchDoorbell (q : Nat) (s : State) : Host.Outcome State Fault Refusal :=
  .next (match if s.rung q then s.tailOf q else none with
    | none => s
    | some (c, va, pa) =>
      let s1 := s.updSch fun h => { h with tails := h.tails.map fun t => if t.1 == pa then (pa, false) else t }
      match s.openOwn c va [kLaunch, kTask, kWork, kQuant] with
      | .error x => if x.code = cQueueDesc then s1.logFault c.num cQueueDesc x.detail va else s1
      | .ok r =>
        if r.2.kind ≠ kLaunch ∨ !c.dispatches then s1
        else State.sweepLaunch (homeSlice s.pkg.hbmsplit r.1 / 96) c r.2.count s1 { ctx := c.num, va := va, pa := r.1, hdr := r.2 })

end Sys2Proof.Machine
end

