-- ==== Sys2Proof/Machine/Quant.lean ====
section
/-! DEFINITION. The quantisation engines (R310 to R312). -/

namespace Sys2Proof.Machine

/-- The unit number of a quantisation engine (R351). -/
def unitQuant : Nat := 0x200

/-! ### Jobs (R311) -/

/-- A fault of step 1 of R312: the detail of R296 with a byte offset. -/
def badJobField (va o : Nat) : Exc := { code := cQuantFault, addr := va, detail := 0x10000 + o }

/-- The conversion record that a job implies (R312). -/
def jobRec (bs : List Byte) (sf df : Nat) : ConvRec :=
  let d2 := dwordAt bs 2
  { sfmt := sf, dfmt := df, rnd := natBits d2 61 3, sat := natBit d2 60, bpol := natBits d2 56 4, scl := sInt 8 (natBits d2 48 8),
    seed := natBits d2 0 32, dw1 := 0 }

/-- SIG of a job. -/
def jobSig (bs : List Byte) : Nat := natBits (dwordAt bs 2) 44 2

/-- The lowest byte offset of a field of a job that breaks R311. -/
def badJob (bs : List Byte) : Option Nat :=
  let d2 := dwordAt bs 2
  let sig := jobSig bs
  let va := dwordAt bs 3
  let resv := natBits d2 32 12
  (badOfs [(dwordAt bs 0 % 64 != 0, 0), (dwordAt bs 1 % 64 != 0, 8), (resv != 0, lowByte 2 20 resv), (natBits d2 46 2 != 0 || sig == 3, 21),
    ((sig == 1 && va % 8 != 0) || (sig == 2 && va % 4 != 0), 24)] ++ (nonzeroByte bs 40 24).toList).min?

/-- A fault at an access of a job: the detail of R299 with the underlying code. -/
def jobFault (x : Exc) : Exc := { code := cQuantFault, addr := x.addr, detail := 0x20000 + x.code }

/-- A shape record as the engine reads it, from memory at each use (R338, R339). -/
def State.shapeFresh (s : State) (c : Ctx) (va : Nat) : Except Exc (List Byte) := do
  if va % 64 ≠ 0 then .error { code := cAlignment, addr := va }
  let bs ← s.readRec c none va 64
  match (shapeOf bs).check bs 0 with
  | some x => .error { x with addr := va }
  | none => pure bs

/-- A job whose checks have passed: its two boxes and the record. -/
structure JobPlan where
  src : List Byte
  dst : List Byte
  cv : ConvRec
deriving DecidableEq, Repr

/-- Step 1 of R312. DESIGN CHOICE: a bad RND or BPOL is named by its offset in the conversion record that the job implies (R82), and a bad field of
the item itself by its offset there (R431; log entry 68). -/
def State.jobPlan (s : State) (c : Ctx) (va : Nat) (bs : List Byte) : Except Exc JobPlan := do
  match badJob bs with
  | some o => .error (badJobField va o)
  | none => pure ()
  let a ← (s.shapeFresh c (dwordAt bs 0)).mapError jobFault
  let b ← (s.shapeFresh c (dwordAt bs 1)).mapError jobFault
  let cv := jobRec bs (shapeOf a).fmt (shapeOf b).fmt
  match cv.badField with
  | some o => .error (badJobField va o)
  | none => pure { src := a, dst := b, cv := cv }

/-! ### Which job is next (R282, R312) -/

/-- The QUANT queue that the engine of a chamber die serves next: the highest PRIO, tenants by deficit round robin, then directory order;
with the deficits that it leaves. -/
def State.nextQuant (s : State) (die : Nat) : Option ((Ctx × QRef) × State) :=
  let qs := (s.queuesOf die [kQuant]).filter fun q => q.2.hdr.count != 0
  let top := qs.foldl (fun m q => max m q.2.hdr.prio) 0
  let best := qs.filter fun q => q.2.hdr.prio == top
  let tens := fun (l : List (Ctx × QRef)) => l.foldl (fun l q => insertIdx q.2.hdr.tenant l) []
  let last := (s.sch.qlast.find? fun p => p.1 == die).map Prod.snd
  let order := match last with
    | some l => ((tens best).filter fun t => decide (l < t)) ++ (tens best).filter fun t => decide (t ≤ l)
    | none => tens best
  let start := (tens qs).map fun t => (t, ((s.sch.qdef.find? fun d => d.1 == die && d.2.1 == t).map fun d => d.2.2).getD 0)
  match visit s.weightOf (List.replicate 16 order).flatten start with
  | none => none
  | some (t, ds) =>
    let s1 := s.updSch fun h => { h with qdef := (h.qdef.filter fun d => d.1 != die) ++ ds.map fun p => (die, p.1, p.2)
                                         qlast := setKey h.qlast die t }
    (best.find? fun q => q.2.hdr.tenant == t).map fun q => (q, s1)

/-- Meaning of QUANT_JOB_TAKE (R312): an idle engine takes the next job, HEAD advances, and the job is checked. -/
def execQuantJobTake (die : Nat) (s : State) : Host.Outcome State Fault Refusal :=
  .next (if 2 ≤ die ∨ (s.eng.qjobs.any fun j => j.die == die) = true then s
    else match s.nextQuant die with
      | none => s
      | some ((c, q), s1) =>
        let va := q.hdr.item q.hdr.head
        let rd := s1.readRec c none va 64
        let bs := match rd with
          | .ok bs => bs
          | .error _ => List.replicate 64 0#8
        let bad := match rd with
          | .error x => some (jobFault x)
          | .ok bs => match s1.jobPlan c va bs with
            | .error x => some x
            | .ok _ => none
        let s2 := s1.storeNat (q.pa + 16) 8 ((q.hdr.head + 1) % 2 ^ 64)
        s2.updEng fun e => { e with qjobs := e.qjobs ++
          [{ die := die, ctx := c.num, tenant := q.hdr.tenant, bcls := q.hdr.bcls, bytes := bs, bad := bad, next := 0 }] })

/-! ### The work of a job (R312 steps 2 to 4) -/

/-- The elements of unit u of the destination, with element n of the source box for element n of the destination box; past the end of the
source they are padding. -/
def JobPlan.elems (p : JobPlan) (s : State) (c : Ctx) (u : Nat) : Except Exc (List Elem) := do
  let df := p.cv.dfmt
  let len := unitLen df
  let n := (shapeOf p.dst).count
  let xs ← (((List.range len).map fun k => u * len + k).filter fun k => decide (k < n)).mapM fun k =>
    (if k < (shapeOf p.src).count then readElem s c none (.shape p.src) p.cv.sfmt [] k else .ok (Elem.filler p.cv.sfmt [0, 0])).map
      (Endp.markPad (.shape p.dst) df [] k)
  if !fmtBlock df then pure xs
  else
    let all := xs ++ List.replicate (32 - xs.length) (Elem.filler p.cv.sfmt ((xs.headD (Elem.filler p.cv.sfmt [])).sc))
    pure (if p.cv.identity && xs.all Elem.pad then all.map fun e => { e with code := 0 } else all)

/-- One unit of a job: read, converted, charged, counted and written; an error of `none` means that a soft cap holds it (R347). -/
def State.jobUnit (s : State) (c : Ctx) (j : QJob) (p : JobPlan) (u : Nat) : Except (Option Exc) State := do
  let df := p.cv.dfmt
  let xs ← orFault (p.elems s c u)
  let o := convUnit (some p.cv) (u * unitLen df) xs
  let n := unitCount (.shape p.dst) df u o.codes.length
  let addr := Endp.unitAddr (.shape p.dst) df u
  let s1 ← match s.charge j.tenant j.bcls actCopy j.die n with
    | (.ok, s1) => .ok s1
    | (.soft, _) => .error none
    | (.hard, _) => .error (some { code := cBudgetViolation, addr := addr })
  let s2 := if o.sat = 0 ∧ o.nar = 0 then s1 else s1.countAt j.die unitQuant o.sat o.nar
  orFault (unitWrites s2 c none (.shape p.dst) df [] (u * unitLen df) o)

/-- How far a job goes: done, held before a unit, or failed; the writes before that stand. -/
inductive JobEnd where
  | done (s : State)
  | held (s : State) (u : Nat)
  | failed (s : State) (x : Exc)
deriving Repr

/-- The units of a job in order, up to the first that is held or faults. -/
def State.jobUnits (c : Ctx) (j : QJob) (p : JobPlan) : State → List Nat → JobEnd
  | s, [] => .done s
  | s, u :: us =>
    match s.jobUnit c j p u with
    | .ok s1 => State.jobUnits c j p s1 us
    | .error none => .held s u
    | .error (some x) => .failed s x

/-- A job that fails is logged as QUANT_FAULT (R312, R371). -/
def State.jobFailed (s : State) (c : Ctx) (j : QJob) (x : Exc) : State :=
  let s1 := s.logFault c.num cQuantFault x.detail x.addr
  if x.detail = 0x20000 + cBudgetViolation then
    s1.hardCap j.tenant j.bcls actCopy j.die else s1

/-- The signal of a job (R306, R312). A stamp that cannot be written is logged. -/
def State.jobSignal (s : State) (c : Ctx) (j : QJob) (failed : Bool) : State :=
  let va := dwordAt j.bytes 3
  if jobSig j.bytes = 2 then s.decrement c.num va
  else if jobSig j.bytes ≠ 1 then s
  else
    let v := Nat.lor (dwordAt j.bytes 4) (if failed then 2 ^ 63 else 0)
    let go := if va % 8 ≠ 0 then .error { code := cAlignment, addr := va }
      else if inWindow va then .error { code := cPermission, addr := va }
      else s.translate c none va 8 .write false
    match go with
    | .error x => s.logFault c.num cQuantFault (0x20000 + x.code) va
    | .ok t => (s.writeTarget t (leBytes 8 v)).emitEngine j.die unitQuant 0x21 c.num (BitVec.ofNat 32 v)

/-- The job cannot go on now: the engine waits for room for lossless events (R362), or its context's translations are frozen (R219, R231). -/
def State.jobHeld (s : State) (j : QJob) : Bool := s.engineHeld j.die unitQuant j.ctx || s.frozenCtx j.ctx

/-- Meaning of QUANT_JOB_COMPLETE (R312, R347): the job of an engine is performed, or fails, and signals; or it goes as far as its byte budget lets
it. -/
def execQuantJobComplete (die : Nat) (s : State) : Host.Outcome State Fault Refusal :=
  .next (match s.eng.qjobs.find? fun j => j.die == die with
    | none => s
    | some j =>
      match s.ctx? j.ctx with
      | none => s
      | some c =>
        if s.jobHeld j then s
        else
          let gone := fun s : State => s.updEng fun e => { e with qjobs := e.qjobs.filter fun x => x.die != die }
          let fail := fun (s : State) (x : Exc) => ((gone s).jobFailed c j x).jobSignal c j true
          match j.bad with
          | some x => fail s x
          | none =>
            match s.jobPlan c 0 j.bytes with
            | .error x => fail s x
            | .ok p =>
              let len := unitLen p.cv.dfmt
              match State.jobUnits c j p s ((List.range (((shapeOf p.dst).count + len - 1) / len)).drop j.next) with
              | .done s1 => (gone s1).jobSignal c j false
              | .held s1 u => s1.updEng fun e => { e with qjobs := e.qjobs.map fun x => if x.die == die then { x with next := u } else x }
              | .failed s1 x => fail s1 (jobFault x))

end Sys2Proof.Machine
end

