-- ==== Sys2Proof/Machine/Package.lean ====
section
/-! DEFINITION. The package: boot (R392), package-fatal errors and the Druvia dump (R390, R391), links and dies that fail (R393, R394), the
recomputation (R13, R14), operating points, gating, drains and live service (R400 to R403), and the management registers (R404). -/

namespace Sys2Proof.Machine

/-! ### Images (R395 to R397) -/

/-- Both signatures of an image verify under the keys whose hashes are fused (R395 to R397): what a key's owner signs verifies, and of every
other signature the answer is free (log entry 16). -/
def imageSigned (k : KeyHash) (i : ImageIn) : Bool :=
  let d := Config.imageDigest i.typ i.version i.len i.body
  (i.ecdsa == Config.ecdsaOwn k.ecdsa d || Config.ecdsaOk k.ecdsa d i.ecdsa) && (i.lms == Config.lmsOwn k.lms d || Config.lmsOk k.lms d i.lms)

/-- An image is accepted: both signatures verify under the keys of the chamber die that its die attaches to, VERSION is not below the rollback
counter of its TYPE, and a siphon image has rule version 1 (R397, R403; log entry 25). -/
def Phimus.accepts (p : Phimus) (i : ImageIn) : Bool :=
  (p.keys.any fun k => k.die == chamberOf i.die && imageSigned k i) && decide (getKey p.rollback i.typ ≤ i.version.toNat) && (i.typ != 3 || i.rules == 1)

/-- An accepted image is loaded on its die, and its VERSION raises the rollback counter (R397). -/
def Phimus.load (p : Phimus) (i : ImageIn) : Phimus :=
  { p with
    images := (p.images.filter fun x => !(x.typ == i.typ && x.die == i.die)) ++ [{ typ := i.typ, die := i.die, version := i.version, len := i.len, body := i.body }]
    rollback := if getKey p.rollback i.typ < i.version.toNat then setKey p.rollback i.typ i.version.toNat else p.rollback }

/-- The image of a TYPE offered to a die is judged; the answer is whether it is loaded. -/
def Phimus.judge (p : Phimus) (offered : List ImageIn) (typ die : Nat) : Bool × Phimus :=
  match offered.find? fun i => i.typ == typ && i.die == die with
  | some i => if p.accepts i then (true, p.load i) else (false, p)
  | none => (false, p)

/-! ### Boot (R392) -/

/-- The dies that are present after link training with the fuse record (R2, R392). -/
def presentDies (fuse train : BitVec 14) : BitVec 14 := 3#14 ||| (train &&& ~~~ fuse)

/-- The images of step 7, in the order in which they are judged: scheduler firmware, microcode, siphon rules and calibration, on each present
die (R392; log entry 25). -/
def stepSeven (pres : BitVec 14) : List (Nat × Nat) :=
  [1, 2, 3, 4].flatMap fun typ => ((imageDies typ).filter fun d => pres.getLsbD d).map fun d => (typ, d)

/-- Phimus before a boot: what is fused stays, and nothing is loaded. -/
def Phimus.unloaded (p : Phimus) : Phimus := { p with images := [], loading := [] }

/-- Step 1: the ROMs of H0 and H1 verify their Phimus images. -/
def Phimus.roms (p : Phimus) (offered : List ImageIn) : Bool × Bool × Phimus :=
  let a := p.unloaded.judge offered 0 0
  let b := a.2.judge offered 0 1
  (a.1, b.1, b.2)

/-- Step 7, up to the first image that fails. -/
def Phimus.rest (offered : List ImageIn) : List (Nat × Nat) → Phimus → Bool × Phimus
  | [], p => (true, p)
  | x :: xs, p => match p.judge offered x.1 x.2 with
    | (true, q) => Phimus.rest offered xs q
    | r => r

/-- Phimus after a boot that follows another: identity leaves never go back, and there are 1,024 (R396, R398). -/
def bootPhimus (p : Phimus) (pres : BitVec 14) (host : Nat) (standby : Bool) : Phimus :=
  let q := Phimus.boot pres host standby p.keys p.rollback p.leaves p.images
  { q with leaves := (q.leaves.map fun l => (l.1, min l.2 1024)) ++ p.leaves.filter fun l => !pres.getLsbD l.1 }

/-- What a boot makes of Phimus, and whether the package boots (R392). -/
def bootOutcome (b : BootIn) (p : Phimus) : Bool × Phimus :=
  let pres := presentDies (b.fuse &&& ~~~ 3#14) b.train
  let one := p.roms b.images
  if !(one.1 || one.2.1) || !b.bridge || !b.hbm then (false, one.2.2)
  else match Phimus.rest b.images (stepSeven pres) one.2.2 with
    | (true, q) => (true, bootPhimus q pres (if one.1 then 0 else 1) (one.1 && one.2.1))
    | r => r

/-- Meaning of POWER_ON_RESET (R392). HBM is not initialised, which reads as State.reset has it (log entry 1); the memories outside the
package keep their bytes. A package that does not boot is held, with what the fuses hold. -/
def execPowerOnReset (b : BootIn) (s : State) : Host.Outcome State Fault Refusal :=
  let fuse := b.fuse &&& ~~~ 3#14
  let pres := presentDies fuse b.train
  let z := { State.reset with agenda := s.agenda, freeN := s.freeN, nextId := s.nextId, mem := s.mem.filter fun c => decide (2 ^ 50 ≤ c.1) }
  .next (match bootOutcome b s.pkg.phimus with
    | (false, p) => { z with ctxs := [], pkg := { z.pkg with numbered := 0#14, mgmt := Mgmt.boot fuse 0#14, phimus := { p.unloaded with held := true } } }
    | (true, p) => { z with pkg := { z.pkg with numbered := pres, mgmt := Mgmt.boot fuse pres, phimus := p } })

/-! ### Management registers (R404) -/

/-- Value of a management register. -/
def State.mgmtReg (s : State) (ofs : Nat) : Nat :=
  let m := s.pkg.mgmt
  let b := fun x : Bool => if x then 1 else 0
  match ofs with
  | 0x00 => m.diefuse.toNat * 2 ^ 16 + m.diepres.toNat
  | 0x08 => s.pkg.hbmsplit
  | 0x10 => b m.busy * 256 + m.cur.toNat * 16 + m.req.toNat
  | 0x18 => m.gcur.toNat / 4 * 2 ^ 18 + m.greq.toNat / 4 * 4
  | 0x20 => m.qdir
  | 0x28 => m.dumpbase
  | 0x30 => m.dumpsz
  | 0x38 =>
    let done := m.drains.any fun x => x.die == m.svcDie.toNat && x.drained
    m.dmax.toNat * 65536 + b done * 512 + b m.svcDrain * 256 + m.svcDie.toNat
  | _ => 0

def State.updMgmt (s : State) (f : Mgmt → Mgmt) : State := s.updPkg fun p => { p with mgmt := f p.mgmt }

/-- A write of OPPT.REQ: held while a change is in progress, the last value winning. A change pauses issue for at most 20 µs, at a point of it
that is the model's choice: at once (R400; log entry 2). -/
def State.opptWrite (s : State) (v : BitVec 2) : State :=
  if s.pkg.mgmt.busy then s.updMgmt fun m => { m with opptNext := some v }
  else if v = s.pkg.mgmt.cur then s.updMgmt fun m => { m with req := v }
  else
    let s1 := s.updMgmt fun m => { m with req := v, busy := true, pauseTill := s.ptp + Config.pauseTicks s.freeN % 80001 }
    { s1 with freeN := s.freeN + 1 }

/-- Meaning of OPPT_REQ (R400). -/
def execOpptReq (v : BitVec 2) (s : State) : Host.Outcome State Fault Refusal := .next (s.opptWrite v)

/-- Meaning of OPPT_CHANGE_COMPLETE (R400): CUR changes, event 0x60 follows, and a held request begins. The event brings the timebase to the
end of the pause where it was not reached (log entry 2). -/
def execOpptChangeComplete (s : State) : Host.Outcome State Fault Refusal :=
  let m := s.pkg.mgmt
  .next (if !m.busy then s
    else
      let s1 := ((s.pass s.pauseLeft).updMgmt fun m => { m with cur := m.req, busy := false, opptNext := none }).emitHub s.pkg.phimus.host 0x500 0x60 0
        (BitVec.ofNat 32 m.req.toNat)
      match m.opptNext with
      | some v => s1.opptWrite v
      | none => s1)

/-- A write of GATE.REQ; the bits of chamber dies are ignored (R401). -/
def State.gateWrite (s : State) (v : BitVec 14) : State := s.updMgmt fun m => { m with greq := v &&& ~~~ 3#14 }

/-- Meaning of GATE_REQ (R401). -/
def execGateReq (v : BitVec 14) (s : State) : Host.Outcome State Fault Refusal := .next (s.gateWrite v)

/-- The die is drained (R402). -/
def State.dieDrained (s : State) (d : Nat) : Bool := s.pkg.mgmt.drains.any fun x => x.die == d && x.drained

/-- A bit of a die, set or cleared. -/
def setDie (x : BitVec 14) (d : Nat) (b : Bool) : BitVec 14 :=
  if b then x ||| BitVec.ofNat 14 (2 ^ d) else x &&& ~~~ BitVec.ofNat 14 (2 ^ d)

/-! ### Links (R20, R393, R394) -/

/-- The next and the previous die of the ring of a chiplet (R20). -/
def ringNext (d : Nat) : Nat := if d = 7 then 2 else if d = 13 then 8 else d + 1
def ringPrev (d : Nat) : Nat := if d = 2 then 7 else if d = 8 then 13 else d - 1

/-- A chiplet whose link may fail: one that traffic can pass through, or one that waits out of service for a recomputation (R394). -/
def State.dieLinked (s : State) (d : Nat) : Bool :=
  !s.dieGated d && (s.die? d).any fun x => !(x.lost || x.inReset) && (x.out || s.diePresent d)

/-- The side link between a die and the next of its ring is up. -/
def State.sideUp (s : State) (d : Nat) : Bool := !s.pkg.sides.contains d

/-- Traffic that goes round the ring from a die, one way or the other, comes to a chiplet whose own link is up (R20; log entry 71). -/
def State.ringWalk (s : State) (fwd : Bool) : Nat → Nat → Bool
  | 0, _ => false
  | fuel + 1, d =>
    let e := if fwd then ringNext d else ringPrev d
    s.sideUp (if fwd then d else e) && s.dieAlive e && (!s.dieRerouted e || s.ringWalk fwd fuel e)

/-- A chiplet whose link is down has a side-link path (R20, R394). -/
def State.sidePath (s : State) (d : Nat) : Bool := s.ringWalk true 5 d || s.ringWalk false 5 d

/-- A context is terminated because a die of it is LOST (R394). -/
def State.lostCtx (s : State) (ctx : Nat) : State :=
  ((s.record ctx (recordBytes cLinkDown 3 3 0 ctx 0 0 0#64 0 0#64)).echoFault ctx cLinkDown 0 none).terminate ctx

/-- A TLB of a die. -/
def TlbPlace.onDie (die : Nat) : TlbPlace → Bool
  | .core c => coreDie c == die
  | .cluster d _ => d == die

/-- What a die that is reset, or is LOST, holds besides its teams is gone (R22, R211). A gated die is neither. -/
def State.clearDie (s : State) (die : Nat) : State :=
  { s.l1Drop (fun l => coreDie l.home == die) with
    shapes := s.shapes.filter fun e => coreDie e.core != die
    misses := s.misses.filter fun m => m.die != die
    tlb := s.tlb.filter fun e => !e.place.onDie die }

/-- The source of a drop count is a copy engine or the siphon of a die (R341, R351). -/
def Drop.ofEngines (die : Nat) (d : Drop) : Bool := d.die == die && decide (0x100 ≤ d.unit)

/-- A missing chiplet takes the counters of its engines and of its siphon with it, those of saturations and those of trace drops (R22, R341).
DEDUCED: they begin at 0 when it is readmitted (log entry 85). -/
def State.dropCounts (s : State) (die : Nat) : State :=
  (s.updEng fun e => { e with counts := e.counts.filter fun c => c.die != die }).updEcho fun e =>
    { e with reported := e.reported.filter fun r => r.1 != die, drops := e.drops.filter fun d => !d.ofEngines die }

/-- The engines of a lost chiplet are gone, and so are their commands, those of saved teams too (R22, R23). DEDUCED: the next element of each such
copy meets LINK_DOWN, which cancels it (R299; log entry 87). -/
def State.loseEngines (s : State) (die : Nat) : State :=
  let cancel := fun (s : State) (k : Cmd) => match s.copy? k.copy with
    | some c => s.faultUnit k c { code := cLinkDown, addr := c.dst.unitAddr (fmtsOf c.conv c.src c.dst).2 k.p }
    | none => s
  ((s.eng.cmds.filter fun k => k.die == die).foldl cancel s).updEng fun e => { e with cmds := e.cmds.filter fun k => k.die != die }

/-- The die is LOST: its teams are killed and their contexts terminated; one that waited for a recomputation waits no longer (R394). -/
def State.loseDie (s : State) (die : Nat) : State :=
  let on := s.teams.filter fun t => t.core != 0 && t.cores.any fun c => coreDie c == die
  let ctxs := on.foldl (fun l t => insertIdx t.ctx l) []
  let s1 := (s.updDie die fun d => { d with lost := true, rerouted := false, out := false }).updMgmt fun m => { m with diepres := setDie m.diepres die false }
  let s2 := on.foldl (fun s t => s.killTeam t.id) s1
  ((((ctxs.foldl State.lostCtx s2).clearDie die).loseEngines die).dropCounts die).testDrained

/-- Each chiplet whose link is down and that no side-link path reaches is LOST, which may leave others without a path (R394). -/
def State.checkPaths : Nat → State → State
  | 0, s => s
  | fuel + 1, s =>
    match s.pkg.dies.find? fun d => d.rerouted && s.dieLinked d.num && !s.sidePath d.num with
    | some d => State.checkPaths fuel (s.loseDie d.num)
    | none => s

/-- Meaning of CHIPLET_LINK_FAILURE (R393, R394): the link of a chiplet fails, and with `sides` its side links; its traffic is rerouted, or the
die is LOST. -/
def execChipletLinkFailure (die : Nat) (sides : Bool) (s : State) : Host.Outcome State Fault Refusal :=
  .next (if !s.dieLinked die then s
    else
      let s1 := (s.updDie die fun d => { d with rerouted := true }).updPkg fun p =>
        { p with sides := if sides then addLines [die, ringPrev die] p.sides else p.sides
                 logs := p.logs ++ [{ pa := 0, die := die, unit := 0, code := cLinkDown }] }
      s1.checkPaths 14)

/-- The links of a chiplet are up (R394, R401; log entry 71). -/
def State.linksUp (s : State) (die : Nat) : State :=
  (s.updDie die fun d => { d with rerouted := false }).updPkg fun p => { p with sides := p.sides.filter fun d => d != die && d != ringPrev die }

/-- Meaning of LINK_RETRAIN_COMPLETE (R394): a link that trains carries its traffic again; a LOST or reset die is readmitted, unless a
recomputation has reassigned the indices without it. -/
def execLinkRetrainComplete (die : Nat) (ok : Bool) (s : State) : Host.Outcome State Fault Refusal :=
  .next (match s.die? die with
    | none => s
    | some d =>
      if !d.lost && !d.inReset then (if ok then s.linksUp die else s)
      else if !ok then
        State.checkPaths 14 (((s.updDie die fun d => { d with lost := true, inReset := false }).updMgmt fun m =>
          { m with diepres := setDie m.diepres die false }).dropCounts die)
      else
        let s1 := (s.linksUp die).updDie die fun d => { d with lost := false, inReset := false }
        if s.pkg.numbered.getLsbD die then s1.updMgmt fun m => { m with diepres := setDie m.diepres die true }
        else s1.updDie die fun d => { d with out := true })

/-- Meaning of CHIPLET_RESET (R155, R403): a drained chiplet is reset, and the cycle counts of its cores begin anew; R394 then applies to its
retraining. -/
def execChipletReset (die : Nat) (s : State) : Host.Outcome State Fault Refusal :=
  .next (if s.dieDrained die && s.dieAlive die then
      let s1 := (s.updDie die fun d => { d with inReset := true, rerouted := false }).clearDie die
      { s1 with clks := s1.clks.set die 0#64 }.checkPaths 14
    else s)

/-! ### Gating, drains, and writes of the registers (R401 to R404) -/

/-- Meaning of GATE_CHANGE_COMPLETE (R401): a drained chiplet is gated, or a gated one ungated with its link retrained, as GREQ asks. -/
def execGateChangeComplete (die : Nat) (s : State) : Host.Outcome State Fault Refusal :=
  let m := s.pkg.mgmt
  let want := m.greq.getLsbD die
  .next (if die < 2 ∨ 14 ≤ die ∨ want = m.gcur.getLsbD die ∨ (want = true ∧ s.dieDrained die = false) then s
    else
      let s1 := s.updMgmt fun m => { m with gcur := setDie m.gcur die want }
      if want then s1.checkPaths 14 else s1.linksUp die)

/-- A die of 2 to 13 is to be drained, unless it already is (R402). The drains of other dies go on: some dies can be drained together (R403; log
entry 69). -/
def State.drainStart (s : State) (die : Nat) : State :=
  if die < 2 ∨ 14 ≤ die ∨ s.dieDraining die = true then s
  else (s.updMgmt fun m => { m with drains := m.drains ++ [{ die := die, since := s.ptp, drained := false }] }).testDrained

/-- The drain of a die ends (R402); that of another goes on. -/
def State.drainStop (s : State) (die : Nat) : State := s.updMgmt fun m => { m with drains := m.drains.filter fun x => x.die != die }

/-- A write of DRAIN and DIE of SVC, which hold what is written (R402, R404). -/
def State.svcWrite (s : State) (drain : Bool) (die : Nat) : State :=
  let s1 := s.updMgmt fun m => { m with svcDrain := drain, svcDie := BitVec.ofNat 4 die }
  if drain then s1.drainStart die else s1.drainStop die

/-- Meaning of SVC_DRAIN (R402). -/
def execSvcDrain (die : Nat) (s : State) : Host.Outcome State Fault Refusal := .next (s.svcWrite true die)
/-- Meaning of SVC_READMIT (R402). -/
def execSvcReadmit (die : Nat) (s : State) : Host.Outcome State Fault Refusal := .next (s.svcWrite false die)

/-- The teams that a drain's deadline saves: those with a core on the die, and the teams of their gangs (R402). -/
def State.onDie (s : State) (d : Nat) : List Team :=
  let here := fun (t : Team) => t.core != 0 && t.cores.any fun c => coreDie c == d
  let hit := s.teams.filter here
  s.teams.filter fun t => here t || hit.any fun u => u.gang.contains t.id && u.ctx == t.ctx

/-- The deadline of a drain takes one team: its reservation is dropped, or a save of it begins. -/
def State.deadlineTeam (s : State) (t : Team) : State :=
  if t.slot = .held then s.dropHeld t else if s.wantSave t then s else s.beginSingle t []

/-- The tick at which the deadline of a drain passes (R402). -/
def State.drainTick (s : State) (x : Drain) : Nat := x.since + s.pkg.mgmt.dmax.toNat * 4000

/-- The drain whose deadline comes next: one that has passed and whose die still holds teams, or else the first that is to come. -/
def State.nextDrain (s : State) : Option Drain :=
  let going := s.pkg.mgmt.drains.filter fun x => !x.drained
  (going.filter (fun x => decide (s.drainTick x ≤ s.ptp) && !(s.onDie x.die).isEmpty) ++ going.filter fun x => decide (s.ptp < s.drainTick x)).head?

/-- Meaning of DRAIN_DEADLINE (R402): every team still on the die is saved. The event brings the timebase to the deadline where it was not
reached (log entry 2). -/
def execDrainDeadline (s : State) : Host.Outcome State Fault Refusal :=
  .next (match s.nextDrain with
    | none => s
    | some x =>
      let s1 := s.pass (s.drainTick x - s.ptp)
      ((s1.onDie x.die).foldl State.deadlineTeam s1).testDrained)

/-- The dword of a filter entry that a write sets (R357). -/
def Filter.put (f : Filter) (k v : Nat) : Filter :=
  if k = 0 then { f with tenant := natBits v 48 16, sink := natBits v 42 6, stallmax := natBits v 2 14, lossless := natBit v 1, en := natBit v 0
                         resv := BitVec.ofNat 26 (natBits v 16 26) }
  else if k < 5 then
    let lo := 64 * (k - 1)
    { f with cmask := BitVec.ofNat 256 (f.cmask.toNat - f.cmask.toNat / 2 ^ lo % 2 ^ 64 * 2 ^ lo + v % 2 ^ 64 * 2 ^ lo) }
  else { f with rest := f.rest.set (k - 5) (BitVec.ofNat 64 v) }

/-- Writes the filter table, the sink registrations and the settings of the time master. The spec gives these to management registers without
their offsets, which are the model's (log entry 26). -/
def State.echoWrite (s : State) (ofs v : Nat) : State :=
  if 0x10000 ≤ ofs ∧ ofs < 0x14000 then
    let tag := (ofs - 0x10000) / 64
    let f := (s.filter tag).put (ofs % 64 / 8) v
    s.updEcho fun e => { e with filters := f :: e.filters.filter fun x => x.tag != tag }
  else if 0x20000 ≤ ofs ∧ ofs < 0x20200 then
    s.updEcho fun e => { e with sinks := setKey e.sinks ((ofs - 0x20000) / 8) (v % 2 ^ 52 / 128 * 128) }
  else if ofs = 0x30000 then s.updTime fun t =>
    { t with pins := natBit v 0, domain := natBits v 8 7, masters := if t.domain = natBits v 8 7 then t.masters else [] }
  else if ofs = 0x30008 then s.updTime fun t => { t with epoch := v % 2 ^ 56 }
  else s

/-- A value that HBMSPLIT takes (R212). -/
def splitOk (l : Nat) : Bool := l % 4 == 0 && decide (l ≤ 256)

/-- Only context 0 exists. -/
def State.onlyZero (s : State) : Bool := s.ctxs.all fun c => c.num == 0 || c.st == .free

/-- Meaning of MGMT_REGISTER_WRITE (R404): the fields that the map lets be written; a write to a register with a row of its own acts as that
row. -/
def execMgmtRegisterWrite (ofs v : Nat) (s : State) : Host.Outcome State Fault Refusal :=
  .next (match ofs with
    | 0x08 => if s.onlyZero && splitOk (natBits v 0 9) then s.updPkg fun p => { p with hbmsplit := natBits v 0 9 } else s
    | 0x10 => s.opptWrite (BitVec.ofNat 2 v)
    | 0x18 => s.gateWrite (BitVec.ofNat 14 v)
    | 0x20 => (s.updMgmt fun m => { m with qdir := natBits v 12 40 * 4096 }).watch
    | 0x28 => s.updMgmt fun m => { m with dumpbase := natBits v 12 40 * 4096 }
    | 0x30 => s.updMgmt fun m => { m with dumpsz := natBits v 0 16 }
    | 0x38 =>
      let s1 := s.updMgmt fun m => { m with dmax := BitVec.ofNat 32 (natBits v 16 32) }
      s1.svcWrite (natBit v 8) (natBits v 0 4)
    | _ => s.echoWrite ofs v)

/-! ### Package-fatal errors (R390, R391) -/

/-- The image of a roost entry (R329). -/
def Roost.image (e : Roost) : List Byte :=
  let kind := match e.kind with
    | .wait => 0
    | .cmp => 1
    | .count => 2
    | .qwait => 3
  let count := e.kind == .count
  dword (2 ^ 63 + kind * 2 ^ 60 + (if e.fired then 2 ^ 59 else 0) + e.line * 128) ++
  dword (e.ctx * 2 ^ 56 + e.core * 2 ^ 47 + e.gslot * 2 ^ 43) ++ dword (if count then e.jcva.toNat else 0) ++ dword (if count then e.expv.toNat else 0)

/-- The contexts that exist, in ascending order. -/
def State.ctxList (s : State) : List Ctx := (List.range 256).filterMap fun n => (s.ctx? n).filter fun c => c.st != .free

/-- The last 64 records of a fault queue, in ring order (R370, R391). -/
def State.lastRecords (s : State) (c : Ctx) : List Byte :=
  if c.fqhdr = 0 then []
  else
    let d0 := s.mem.rd c.fqhdr 8
    let cap := 2 ^ natBits d0 0 5
    let wr := s.mem.rd (c.fqhdr + 8) 8
    let n := min 64 (min wr cap)
    (List.range n).flatMap fun i => s.mem.bytes (natBits d0 12 40 * 4096 + 32 * ((wr - n + i) % cap)) 32

/-- Units that convert, by die (R341, R351); a missing chiplet has none (R22). -/
def State.converters (s : State) : List (Nat × Nat) :=
  ((List.range 14).filter s.diePresent).flatMap fun d => ((List.range (if d < 2 then 16 else 8)).map fun i => (d, 0x100 + i)) ++ [(d, 0x200)]

/-- The sections of a dump, by TYPE. How the parts of sections 2, 7 and 8 follow one another is the model's choice (log entry 27). -/
def State.dumpSections (s : State) (saved : List Nat) : List (Nat × List Byte) :=
  [(1, (List.range 8).flatMap fun i => dword (s.mgmtReg (8 * i))),
   (2, s.ctxList.flatMap fun c => (0x101 :: (List.range 11).map (· + 0x103)).flatMap fun r => leBytes 4 (c.readReg r)),
   (3, s.ctxList.flatMap s.lastRecords),
   (4, (s.ctxList.filter fun c => saved.contains c.num && c.st == .saved).flatMap fun c => s.mem.bytes c.savebase 64),
   (5, (List.range 192).flatMap fun i => (s.roost.filter fun e => e.slice == i).flatMap Roost.image),
   (6, s.echo.held.flatMap Ev.bytes),
   (7, s.converters.flatMap fun u => dword (s.countOf u.1 u.2).1 ++ dword (s.countOf u.1 u.2).2),
   (8, s.pkg.logs.flatMap fun e => dword e.pa ++ dword (e.die * 2 ^ 60 + e.unit * 2 ^ 48 + e.code))]

/-- The dump (R391). -/
def State.dumpBytes (s : State) (cause die : Nat) (saved : List Nat) : List Byte :=
  let body := (s.dumpSections saved).flatMap fun x => pad64 (dword x.1 ++ dword x.2.length ++ x.2)
  dword (0x44525641 * 2 ^ 32 + 0x0001 * 65536 + cause % 65536) ++ dword (s.ptp % 2 ^ 56) ++ dword (64 + body.length) ++ dword (die % 16) ++
    List.replicate 32 0#8 ++ body

/-- Phimus writes the dump to its region and holds the package in reset (R390). -/
def State.dumpAndHold (s : State) (cause die : Nat) (saved : List Nat) : State :=
  let bs := (s.dumpBytes cause die saved).take (s.pkg.mgmt.dumpsz * 2 ^ 20)
  let s1 := if bs.isEmpty then s else s.store s.pkg.mgmt.dumpbase bs
  { s1.updPkg (fun p => { p with phimus := { p.phimus with held := true, fatal := none } }) with cur := none, cmds := [] }

/-- A package-fatal error (R390): the RUNNING contexts are saved first; once none runs, the dump is written. -/
def State.fatalGo (s : State) (cause die : Nat) : State :=
  let runs := (s.ctxs.filter fun c => c.st == .running).map Ctx.num
  match s.pkg.phimus.fatal with
  | none =>
    let s1 := runs.foldl (fun s n => s.beginSave n .cmd) s
    s1.updPkg fun p => { p with phimus := { p.phimus with fatal := some (cause, die, runs) } }
  | some (x, d, saved) => if runs.isEmpty then s.dumpAndHold x d saved else s

/-- Meaning of PACKAGE_FATAL_ERROR (R390). -/
def execPackageFatalError (cause die : Nat) (s : State) : Host.Outcome State Fault Refusal := .next (s.fatalGo cause die)

/-- Meaning of PHIMUS_FAILURE (R390, R392): the standby on H1 takes over, or the failure is package-fatal, with CAUSE 3 (log entry 27). -/
def execPhimusFailure (s : State) : Host.Outcome State Fault Refusal :=
  let p := s.pkg.phimus
  .next (if p.host = 0 ∧ p.standby = true then s.updPkg fun p => { p with phimus := { p.phimus with host := 1, standby := false } }
    else s.fatalGo 3 p.host)

/-! ### Recomputation (R13, R14, R44, R123) -/

/-- Every context is drained: no team and no engine command is left. -/
def State.allDrained (s : State) : Bool := s.teams.isEmpty && s.eng.cmds.isEmpty

/-- Writes bytes as the loader does, wherever the pages can be read. -/
def State.patch (s : State) (c : Ctx) (va : Nat) (bs : List Byte) : State :=
  match s.spanOf c none .read (granules bs.length) va bs.length with
  | .ok ts => writeParts s ts bs
  | .error _ => s

/-- IMM30 of the word at a VA takes a value (R123). -/
def State.patchWord (s : State) (c : Ctx) (va x : Nat) : State :=
  match s.readRec c none va 8 with
  | .ok bs => s.patch c va (dword (leNat bs / 2 ^ 30 * 2 ^ 30 + x % 2 ^ 30))
  | .error _ => s

/-- The slots of a CONST area take `$ncores`, with every word of its patch list (R123). -/
def State.patchConst (s : State) (c : Ctx) (k : KDesc) : State :=
  let va := k.const.toNat
  if va = 0 then s
  else match s.readRec c none va 8 with
    | .error _ => s
    | .ok h =>
      let slots := fieldAt h 0 2
      let n := fieldAt h 2 2
      let s1 := (List.range slots).foldl (fun s i => s.patch c (va + 8 * (1 + i)) (dword s.ncores)) s
      match s1.readRec c none (va + 8 * (1 + slots)) (8 * n) with
      | .error _ => s1
      | .ok ps => (List.range n).foldl (fun s i => s.patchWord c (k.entry.toNat + dwordAt ps i % 2 ^ 32) s.ncores) s1

/-- The kernel of a launch record. -/
def State.recKernel (s : State) (c : Ctx) (va : Nat) : Option KDesc :=
  match s.readRec c none va 8 with
  | .ok bs => s.kdescAt c (leNat bs)
  | .error _ => none

/-- A context whose queues hold work: it runs or is saved. -/
def Ctx.holdsWork (c : Ctx) : Bool := c.st == .running || c.st == .saved

/-- The kernels that the machine's queues, launches and save areas refer to, with their contexts, beside those that firmware names (log
entry 28). -/
def State.knownKernels (s : State) : List (Ctx × KDesc) :=
  let item := fun (c : Ctx) va => match s.readRec c none va 64 with
    | .error _ => none
    | .ok bs => if taskTk bs = 1 then s.recKernel c (dwordAt bs 5) else s.kdescAt c (dwordAt bs 3)
  let of := fun (kinds : List Nat) (f : Ctx → Nat → Option KDesc) =>
    (s.queuesBy Ctx.holdsWork kinds).flatMap fun p => p.2.hdr.items.filterMap fun va => (f p.1 va).map fun k => (p.1, k)
  let taken := s.sch.launches.filterMap fun l => (s.ctx? l.ctx).map fun c => (c, l.kd)
  let images := s.sch.cands.filterMap fun x => (s.ctx? x.ctx).bind fun c => (s.kdescAt c (s.mem.rd (c.savebase + x.off) 8)).map fun k => (c, k)
  let saved := (s.ctxs.filter fun c => c.st == .saved).flatMap fun c =>
    (s.imagesFrom c (s.areaCount c) 64).filterMap fun o => (s.kdescAt c (s.mem.rd (c.savebase + o) 8)).map fun k => (c, k)
  of [kTask] item ++ of [kLaunch] s.recKernel ++ taken ++ images ++ saved

/-- The class to which a contract bound to class b is rebound, if no die of b is present (R44). -/
def State.movedTo (s : State) (ct : Contract) (b : Nat) : Option Cls :=
  match clsOfCode b with
  | none => none
  | some cls => if (diesOf cls).any s.diePresent then none else (routeOf ct).find? s.clsAvailable

/-- A parked TEAM task whose class is no longer present is rebound (R44). -/
def State.rebindTask (s : State) (c : Ctx) (va : Nat) : State :=
  match s.readRec c none va 64 with
  | .error _ => s
  | .ok bs =>
    if taskTk bs ≠ 0 ∨ taskSt bs ≠ 0 then s
    else match (s.kdescAt c (dwordAt bs 3)).bind fun k => s.movedTo k.contract (natBits (dwordAt bs 7) 48 8) with
      | some cls => s.patch c (va + 62) [BitVec.ofNat 8 (clsCode cls)]
      | none => s

/-- The same for the image of a team that the scheduler has saved alone. -/
def State.rebindImage (s : State) (x : Cand) : State :=
  match s.ctx? x.ctx with
  | none => s
  | some c =>
    let at_ := c.savebase + x.off
    if x.off = 0 then s
    else match (s.kdescAt c (s.mem.rd at_ 8)).bind fun k => s.movedTo k.contract (s.mem.rd (at_ + 41) 1) with
      | some cls => s.storeNat (at_ + 41) 1 (clsCode cls)
      | none => s

/-- Meaning of PACKAGE_RECOMPUTE (R13, R14, R394): with every context drained, dies that retrained are admitted, the indices are assigned
anew, the CONST slots of every kernel that firmware holds loaded, which are a free value, and of those that queues and save areas name
are rewritten, and parked tasks are rebound (log entry 28). -/
def execPackageRecompute (s : State) : Host.Outcome State Fault Refusal :=
  .next (if !s.allDrained then s
    else
      let back := (s.pkg.dies.filter Die.out).map Die.num
      let pres := back.foldl (fun x d => setDie x d true) s.pkg.mgmt.diepres
      let s0 := s.updPkg fun p => { p with numbered := pres, mgmt := { p.mgmt with diepres := pres }, dies := p.dies.map fun d => { d with out := false } }
      let s1 := { s0 with freeN := s0.freeN + 1 }
      let named := (Config.loadedKernels s.freeN).filterMap fun p => (s1.ctx? p.1).bind fun c => (s1.kdescAt c p.2).map fun k => (c, k)
      let s2 := (named ++ s1.knownKernels).foldl (fun s p => s.patchConst p.1 p.2) s1
      let tasks := (s2.queuesBy Ctx.holdsWork [kTask]).flatMap fun p => p.2.hdr.items.map fun va => (p.1, va)
      s2.sch.cands.foldl State.rebindImage (tasks.foldl (fun s p => s.rebindTask p.1 p.2) s2))

/-! ### Image updates and attestation (R398, R403) -/

/-- Where and when an image may be loaded during live service (R403): scheduler firmware while the scheduler of the other chamber die serves,
every other image on a drained die. -/
def State.imageNow (s : State) (i : ImageIn) : Bool :=
  decide (1 ≤ i.typ) && decide (i.typ ≤ 4) && (imageDies i.typ).contains i.die && s.diePresent i.die &&
  (if i.typ = 1 then !s.hubLoading (1 - i.die) else s.dieDrained i.die)

/-- Meaning of IMAGE_UPDATE (R397, R403): the image is judged and loaded. While scheduler firmware loads, the other scheduler serves. -/
def execImageUpdate (i : ImageIn) (s : State) : Host.Outcome State Fault Refusal :=
  .next (if !(s.imageNow i && s.pkg.phimus.accepts i) then s
    else
      let s1 := s.updPkg fun p => { p with phimus := p.phimus.load i }
      if i.typ ≠ 1 then s1
      else { s1.updPkg fun p => { p with phimus := { p.phimus with loading := setKey p.phimus.loading i.die (s.ptp + Config.loadTicks s.freeN) } } with
             freeN := s.freeN + 1 })

/-- A die takes a leaf of its boot-time LMS key, or of a new one that its next identity leaf certifies (R396, R398). -/
def Phimus.sign (p : Phimus) (d : Nat) : Phimus :=
  if getKey p.reports d < 1024 then { p with reports := setKey p.reports d (getKey p.reports d + 1) }
  else { p with leaves := setKey p.leaves d (getKey p.leaves d + 1), reports := setKey p.reports d 1 }

/-- The dies that sign in turn: each present die its record, and H0 the whole report with a leaf of its own (R396, R398). -/
def State.signers (s : State) : List Nat := (List.range 14).filter s.diePresent ++ [0]

/-- Bytes of the signatures in a report: a P-384 and an LMS signature per record and for the whole. -/
def sigBytes (signers : Nat) : Nat := 2604 * signers

/-- A signing die has used each of its 1,024 identity leaves (R398; log entry 73). -/
def State.leavesUsed (s : State) : Bool := s.signers.any fun d => decide (1024 ≤ getKey s.pkg.phimus.leaves d)

/-- Meaning of ATTESTATION_REPORT (R398). -/
def execAttestationReport (nonce : BitVec 64) (s : State) : Host.Outcome State Fault Refusal :=
  let p := s.pkg.phimus
  .next (
    if s.leavesUsed then s.updPkg fun k => { k with phimus := { k.phimus with exhausted := true, report := none } }
    else
      let q := s.signers.foldl Phimus.sign p
      let r : Report := { nonce := nonce, diepres := s.pkg.mgmt.diepres, diefuse := s.pkg.mgmt.diefuse, images := p.images,
                          digests := p.images.map fun i => Config.imageDigest i.typ i.version i.len i.body, signers := (List.range 14).filter s.diePresent
                          sig := (List.range (sigBytes s.signers.length)).map (Config.signByte s.freeN) }
      { s.updPkg (fun k => { k with phimus := { q with exhausted := false, report := some r } }) with freeN := s.freeN + 1 })

end Sys2Proof.Machine
end

