-- ==== Sys2Proof/Machine/Hosts.lean ====
section
/-! DEFINITION. What reaches the package from outside: accesses of the host and of UALink peers (R21, R22, R399), and contexts that Phimus
creates and destroys (R365, R366). -/

namespace Sys2Proof.Machine

/-! ### Accesses from outside -/

/-- An access lies in one region that `ok` admits. -/
def State.spanIn (s : State) (ok : Region → Bool) (pa n : Nat) : Bool :=
  let r := regionOf s.pkg.hbmsplit pa
  decide (0 < n) && ok r && regionOf s.pkg.hbmsplit (pa + n - 1) == r

/-- An access from outside reads a line with an uncorrectable error: the line is marked poisoned (R211). -/
def State.outsideRead (s : State) (pa n : Nat) : State := s.markPoison (.phys pa false false) n

/-- A write from outside; a write of part of a line that is poisoned or has an uncorrectable error is not merged (R235). -/
def State.outsideWrite (s : State) (pa : Nat) (bs : List Byte) : State :=
  if (partLines pa bs.length).any fun l => s.poison.contains l || s.badLine l then s.outsideRead pa bs.length else s.store pa bs

/-- An atomic from outside: OP of R245, or 7 for compare-and-swap, on an integer TY (R21, R246). DESIGN CHOICE: a misaligned one, of which R21
says nothing, counts as supported and changes nothing (log entry 89). -/
def State.outsideAtomic (s : State) (pa op ty v cmp : Nat) : State :=
  let n := atomBits ty / 8
  if pa % n ≠ 0 then s
  else if (s.lineEvent (.phys pa false false) n).isSome then s.outsideRead pa n
  else
    let old := s.mem.rd pa n
    if op = 7 then (if old = cmp % 2 ^ (8 * n) then s.storeNat pa n (v % 2 ^ (8 * n)) else s)
    else s.storeNat pa n (atomOp op ty old (v % 2 ^ (8 * n)))

/-- The answer that a link gives: whether the request is supported, and the bytes read (R21). -/
def State.answer (s : State) (peer ok : Bool) (bs : List Byte) : State := { s with reply := some { peer := peer, ok := ok, bytes := bs } }

/-- The bytes that an answer carries: none where the line is poisoned or has an uncorrectable error (log entry 35). -/
def State.outsideBytes (s : State) (pa n : Nat) : List Byte := if (s.lineEvent (.phys pa false false) n).isSome then [] else s.mem.bytes pa n

/-- An access from outside over a link, whose region `ok` admits, with the atomics that `ops` admits; any other receives an unsupported-request
response and changes nothing else (R21). -/
def State.outside (s : State) (peer : Bool) (ok : Region → Bool) (ops : Nat → Bool) (a : HostAcc) : State :=
  match a with
  | .read pa n => if s.spanIn ok pa n then (s.outsideRead pa n).answer peer true (s.outsideBytes pa n) else s.answer peer false []
  | .write pa bs => if s.spanIn ok pa bs.length then (s.outsideWrite pa bs).answer peer true [] else s.answer peer false []
  | .atomic pa op ty v cmp =>
    let n := atomBits ty / 8
    if ops op && decide (ty < 4) && s.spanIn ok pa n then (s.outsideAtomic pa op ty v cmp).answer peer true (s.outsideBytes pa n) else s.answer peer false []
  | .message => s.answer peer false []

/-- Add, exchange and compare-and-swap (R21). -/
def peerOps (op : Nat) : Bool := op == 0 || op == 6 || op == 7

/-- Meaning of CASIUM_LINK_HOST_ACCESS (R22, R399): the host reads and writes the memory of the package, and its own. -/
def execCasiumLinkHostAccess (a : HostAcc) (s : State) : Host.Outcome State Fault Refusal :=
  .next (s.outside false (fun r => r.hbm || r == .host) (fun op => decide (op ≤ 7)) a)

/-- Meaning of UALINK_PEER_REQUEST (R21): a peer reads and writes the memory of the package, or what of its own the package may see; any other
request, a message among them, receives an unsupported-request response. -/
def execUalinkPeerRequest (a : HostAcc) (s : State) : Host.Outcome State Fault Refusal :=
  .next (s.outside true (fun r => r.hbm || r == .peer) peerOps a)

/-! ### Contexts (R365, R366) -/

/-- Range registers from the images that firmware gives, invalid where it gives none. -/
def ctxRanges (rs : List (W64 × W64 × W64 × W64)) : List Range :=
  (List.range 32).map fun i => ((rs[i]?).map fun r => ({ d0 := r.1, d1 := r.2.1, d2 := r.2.2.1, d3 := r.2.2.2 } : Range)).getD Range.zero

/-- The context as Phimus creates it; it may run at once (log entry 29). -/
def Ctx.created (c : CtxIn) : Ctx :=
  let rs := ctxRanges c.ranges
  let base : Ctx := { Ctx.zero with num := c.num, priv := c.priv, tenant := c.tenant, seed := c.seed, svcq := c.svcq, committed := rs, staged := rs }
  [(0x104, c.ptroot), (0x105, c.ptroot / 2 ^ 32), (0x106, c.savebase), (0x107, c.savebase / 2 ^ 32), (0x108, c.savesz), (0x109, c.fqhdr),
   (0x10A, c.fqhdr / 2 ^ 32)].foldl (fun x p => x.writeReg p.1 (p.2 % 2 ^ 32)) base

/-- Meaning of CONTEXT_CREATE (R365): nothing happens if the number is in use or above 255, or a range breaks R217. -/
def execContextCreate (c : CtxIn) (s : State) : Host.Outcome State Fault Refusal :=
  .next (if 255 < c.num ∨ ((s.ctx? c.num).any fun x => x.st != .free) = true ∨ (badRange s.pkg.hbmsplit (ctxRanges c.ranges)).isSome = true then s
    else State.watch { s with ctxs := (s.ctxs.filter fun x => x.num != c.num) ++ [Ctx.created c] })

/-- Meaning of CONTEXT_DESTROY (R365): the context ends as under R375 if it has not, and its number is FREE, and it waits
for no walk. Its end is none of the changes that R211 and R313 list for an L1, a TLB or a shape-record cache, so those keep what they hold (log
entry 29). Context 0 always exists. -/
def execContextDestroy (ctx : Nat) (s : State) : Host.Outcome State Fault Refusal :=
  .next (if ctx = 0 ∨ (s.ctx? ctx).isNone = true then s
    else
      let s1 := s.terminate ctx
      { s1 with ctxs := s1.ctxs.filter fun c => c.num != ctx, misses := s1.misses.filter fun m => m.ctx != ctx })

end Sys2Proof.Machine
end

