-- ==== Sys2Proof/Machine/Dispatch.lean ====
section
/-! DEFINITION. Dispatch: one arm per instruction, each one direct call of its meaning. -/

namespace Sys2Proof.Machine

def exec (i : Instr) (s : State) : Host.Outcome State Fault Refusal :=
  match i with
  | .add w => Sys2Proof.Machine.execAdd w s
  | .sub w => Sys2Proof.Machine.execSub w s
  | .addc w => Sys2Proof.Machine.execAddc w s
  | .subb w => Sys2Proof.Machine.execSubb w s
  | .mul w => Sys2Proof.Machine.execMul w s
  | .mulh w => Sys2Proof.Machine.execMulh w s
  | .mad w => Sys2Proof.Machine.execMad w s
  | .neg w => Sys2Proof.Machine.execNeg w s
  | .abs w => Sys2Proof.Machine.execAbs w s
  | .min w => Sys2Proof.Machine.execMin w s
  | .max w => Sys2Proof.Machine.execMax w s
  | .clamp w => Sys2Proof.Machine.execClamp w s
  | .div w => Sys2Proof.Machine.execDiv w s
  | .rem w => Sys2Proof.Machine.execRem w s
  | .sad w => Sys2Proof.Machine.execSad w s
  | .dot4 w => Sys2Proof.Machine.execDot4 w s
  | .and w => Sys2Proof.Machine.execAnd w s
  | .or w => Sys2Proof.Machine.execOr w s
  | .xor w => Sys2Proof.Machine.execXor w s
  | .not w => Sys2Proof.Machine.execNot w s
  | .andn w => Sys2Proof.Machine.execAndn w s
  | .lgc3 w => Sys2Proof.Machine.execLgc3 w s
  | .shl w => Sys2Proof.Machine.execShl w s
  | .shr w => Sys2Proof.Machine.execShr w s
  | .sar w => Sys2Proof.Machine.execSar w s
  | .rol w => Sys2Proof.Machine.execRol w s
  | .bfx w => Sys2Proof.Machine.execBfx w s
  | .bfi w => Sys2Proof.Machine.execBfi w s
  | .pop w => Sys2Proof.Machine.execPop w s
  | .clz w => Sys2Proof.Machine.execClz w s
  | .ctz w => Sys2Proof.Machine.execCtz w s
  | .brev w => Sys2Proof.Machine.execBrev w s
  | .cmp w => Sys2Proof.Machine.execCmp w s
  | .sel w => Sys2Proof.Machine.execSel w s
  | .pset w => Sys2Proof.Machine.execPset w s
  | .lea w => Sys2Proof.Machine.execLea w s
  | .mov w => Sys2Proof.Machine.execMov w s
  | .movi w => Sys2Proof.Machine.execMovi w s
  | .movh w => Sys2Proof.Machine.execMovh w s
  | .fadd w => Sys2Proof.Machine.execFadd w s
  | .fsub w => Sys2Proof.Machine.execFsub w s
  | .fmul w => Sys2Proof.Machine.execFmul w s
  | .fma w => Sys2Proof.Machine.execFma w s
  | .fmin w => Sys2Proof.Machine.execFmin w s
  | .fmax w => Sys2Proof.Machine.execFmax w s
  | .fcmp w => Sys2Proof.Machine.execFcmp w s
  | .frnd w => Sys2Proof.Machine.execFrnd w s
  | .frcp w => Sys2Proof.Machine.execFrcp w s
  | .frsq w => Sys2Proof.Machine.execFrsq w s
  | .fsqrt w => Sys2Proof.Machine.execFsqrt w s
  | .fex2 w => Sys2Proof.Machine.execFex2 w s
  | .flg2 w => Sys2Proof.Machine.execFlg2 w s
  | .fsin w => Sys2Proof.Machine.execFsin w s
  | .fcos w => Sys2Proof.Machine.execFcos w s
  | .fdiv w => Sys2Proof.Machine.execFdiv w s
  | .fscale w => Sys2Proof.Machine.execFscale w s
  | .fclass w => Sys2Proof.Machine.execFclass w s
  | .padd w => Sys2Proof.Machine.execPadd w s
  | .pmul w => Sys2Proof.Machine.execPmul w s
  | .pfma w => Sys2Proof.Machine.execPfma w s
  | .pmin w => Sys2Proof.Machine.execPmin w s
  | .pmax w => Sys2Proof.Machine.execPmax w s
  | .lmul w => Sys2Proof.Machine.execLmul w s
  | .ladd w => Sys2Proof.Machine.execLadd w s
  | .lsub w => Sys2Proof.Machine.execLsub w s
  | .lmax w => Sys2Proof.Machine.execLmax w s
  | .cvt w => Sys2Proof.Machine.execCvt w s
  | .pack w => Sys2Proof.Machine.execPack w s
  | .unpk w => Sys2Proof.Machine.execUnpk w s
  | .bmax w => Sys2Proof.Machine.execBmax w s
  | .bscale w => Sys2Proof.Machine.execBscale w s
  | .shf w => Sys2Proof.Machine.execShf w s
  | .vote w => Sys2Proof.Machine.execVote w s
  | .redx w => Sys2Proof.Machine.execRedx w s
  | .bcst w => Sys2Proof.Machine.execBcst w s
  | .scan w => Sys2Proof.Machine.execScan w s
  | .rdsr w => Sys2Proof.Machine.execRdsr w s
  | .wrsr w => Sys2Proof.Machine.execWrsr w s
  | .br w => Sys2Proof.Machine.execBr w s
  | .jt w => Sys2Proof.Machine.execJt w s
  | .land w => Sys2Proof.Machine.execLand w s
  | .call w => Sys2Proof.Machine.execCall w s
  | .callt w => Sys2Proof.Machine.execCallt w s
  | .ret w => Sys2Proof.Machine.execRet w s
  | .exit w => Sys2Proof.Machine.execExit w s
  | .split w => Sys2Proof.Machine.execSplit w s
  | .join w => Sys2Proof.Machine.execJoin w s
  | .phase w => Sys2Proof.Machine.execPhase w s
  | .succ w => Sys2Proof.Machine.execSucc w s
  | .trap w => Sys2Proof.Machine.execTrap w s
  | .brk w => Sys2Proof.Machine.execBrk w s
  | .nop w => Sys2Proof.Machine.execNop w s
  | .loop w => Sys2Proof.Machine.execLoop w s
  | .sysc w => Sys2Proof.Machine.execSysc w s
  | .ld w => Sys2Proof.Machine.execLd w s
  | .st w => Sys2Proof.Machine.execSt w s
  | .lds w => Sys2Proof.Machine.execLds w s
  | .sts w => Sys2Proof.Machine.execSts w s
  | .ldt w => Sys2Proof.Machine.execLdt w s
  | .uld w => Sys2Proof.Machine.execUld w s
  | .pfx w => Sys2Proof.Machine.execPfx w s
  | .atom w => Sys2Proof.Machine.execAtom w s
  | .red w => Sys2Proof.Machine.execRed w s
  | .cas w => Sys2Proof.Machine.execCas w s
  | .atomv w => Sys2Proof.Machine.execAtomv w s
  | .redv w => Sys2Proof.Machine.execRedv w s
  | .fence w => Sys2Proof.Machine.execFence w s
  | .fencer w => Sys2Proof.Machine.execFencer w s
  | .marm w => Sys2Proof.Machine.execMarm w s
  | .marmCounted w => Sys2Proof.Machine.execMarmCounted w s
  | .mwait w => Sys2Proof.Machine.execMwait w s
  | .wuc w => Sys2Proof.Machine.execWuc w s
  | .zln w => Sys2Proof.Machine.execZln w s
  | .lqry w => Sys2Proof.Machine.execLqry w s
  | .mma w => Sys2Proof.Machine.execMma w s
  | .mmx w => Sys2Proof.Machine.execMmx w s
  | .mzero w => Sys2Proof.Machine.execMzero w s
  | .mld w => Sys2Proof.Machine.execMld w s
  | .drain w => Sys2Proof.Machine.execDrain w s
  | .mrel w => Sys2Proof.Machine.execMrel w s
  | .mscl w => Sys2Proof.Machine.execMscl w s
  | .mrd w => Sys2Proof.Machine.execMrd w s
  | .cpy w => Sys2Proof.Machine.execCpy w s
  | .cpyo w => Sys2Proof.Machine.execCpyo w s
  | .cpyr w => Sys2Proof.Machine.execCpyr w s
  | .cpym w => Sys2Proof.Machine.execCpym w s
  | .cpys w => Sys2Proof.Machine.execCpys w s
  | .cseal w => Sys2Proof.Machine.execCseal w s
  | .cwait w => Sys2Proof.Machine.execCwait w s
  | .tbind w => Sys2Proof.Machine.execTbind w s
  | .tset w => Sys2Proof.Machine.execTset w s
  | .tget w => Sys2Proof.Machine.execTget w s
  | .twait w => Sys2Proof.Machine.execTwait w s
  | .trel w => Sys2Proof.Machine.execTrel w s
  | .bini w => Sys2Proof.Machine.execBini w s
  | .barv w => Sys2Proof.Machine.execBarv w s
  | .barw w => Sys2Proof.Machine.execBarw w s
  | .bexp w => Sys2Proof.Machine.execBexp w s
  | .bdrop w => Sys2Proof.Machine.execBdrop w s
  | .bget w => Sys2Proof.Machine.execBget w s
  | .qenq w => Sys2Proof.Machine.execQenq w s
  | .qdeq w => Sys2Proof.Machine.execQdeq w s
  | .qtry w => Sys2Proof.Machine.execQtry w s
  | .jdec w => Sys2Proof.Machine.execJdec w s
  | .jset w => Sys2Proof.Machine.execJset w s
  | .spawn w => Sys2Proof.Machine.execSpawn w s
  | .qnt w => Sys2Proof.Machine.execQnt w s
  | .rcinv w => Sys2Proof.Machine.execRcinv w s
  | .trc w => Sys2Proof.Machine.execTrc w s
  | .trcm w => Sys2Proof.Machine.execTrcm w s
  | .cnt w => Sys2Proof.Machine.execCnt w s
  | .rmap w => Sys2Proof.Machine.execRmap w s
  | .rcommit w => Sys2Proof.Machine.execRcommit w s
  | .eret w => Sys2Proof.Machine.execEret w s
  | .tlbi w => Sys2Proof.Machine.execTlbi w s
  | .mig w => Sys2Proof.Machine.execMig w s
  | .ctxld w => Sys2Proof.Machine.execCtxld w s
  | .bdg w => Sys2Proof.Machine.execBdg w s
  | .clauseBoundary t g => Sys2Proof.Machine.execClauseBoundary t g s
  | .groupWaitRelease t g => Sys2Proof.Machine.execGroupWaitRelease t g s
  | .longLatencyArrival t g r => Sys2Proof.Machine.execLongLatencyArrival t g r s
  | .storeAcknowledged t g => Sys2Proof.Machine.execStoreAcknowledged t g s
  | .deferredAccessFault t g code addr detail lanes pc => Sys2Proof.Machine.execDeferredAccessFault t g code addr detail lanes pc s
  | .pageWalkComplete die cluster ctx va => Sys2Proof.Machine.execPageWalkComplete die cluster ctx va s
  | .phaseSettleComplete t => Sys2Proof.Machine.execPhaseSettleComplete t s
  | .taskSpillEnqueue t => Sys2Proof.Machine.execTaskSpillEnqueue t s
  | .succSettleComplete t => Sys2Proof.Machine.execSuccSettleComplete t s
  | .teamStartLoaded t => Sys2Proof.Machine.execTeamStartLoaded t s
  | .schedulingRound die => Sys2Proof.Machine.execSchedulingRound die s
  | .gangClusterClose die cluster => Sys2Proof.Machine.execGangClusterClose die cluster s
  | .taskQueueScan die => Sys2Proof.Machine.execTaskQueueScan die s
  | .schedulerRestore ctx id => Sys2Proof.Machine.execSchedulerRestore ctx id s
  | .launchDoorbell q => Sys2Proof.Machine.execLaunchDoorbell q s
  | .copyElementPerformed die unit slot n => Sys2Proof.Machine.execCopyElementPerformed die unit slot n s
  | .copyComplete id => Sys2Proof.Machine.execCopyComplete id s
  | .copyElementFault die unit slot n link => Sys2Proof.Machine.execCopyElementFault die unit slot n link s
  | .mcastDestinationFailure copy core => Sys2Proof.Machine.execMcastDestinationFailure copy core s
  | .reducingElementArrival die unit slot n => Sys2Proof.Machine.execReducingElementArrival die unit slot n s
  | .replayFilterExpiry site => Sys2Proof.Machine.execReplayFilterExpiry site s
  | .tileFillComplete t j => Sys2Proof.Machine.execTileFillComplete t j s
  | .tileDrainComplete t j => Sys2Proof.Machine.execTileDrainComplete t j s
  | .matrixUpdateComplete t j => Sys2Proof.Machine.execMatrixUpdateComplete t j s
  | .matrixFetchFault t => Sys2Proof.Machine.execMatrixFetchFault t s
  | .lanternTimeout t b => Sys2Proof.Machine.execLanternTimeout t b s
  | .roostWake slice => Sys2Proof.Machine.execRoostWake slice s
  | .ctxcmdSave ctx => Sys2Proof.Machine.execCtxcmdSave ctx s
  | .contextSaveWritten ctx => Sys2Proof.Machine.execContextSaveWritten ctx s
  | .ctxcmdTerminate ctx => Sys2Proof.Machine.execCtxcmdTerminate ctx s
  | .ctxcmdEngresume ctx die unit slot => Sys2Proof.Machine.execCtxcmdEngresume ctx die unit slot s
  | .ctxcmdEngcancel ctx die unit slot => Sys2Proof.Machine.execCtxcmdEngcancel ctx die unit slot s
  | .contextRegisterWrite ctx sel v => Sys2Proof.Machine.execContextRegisterWrite ctx sel v s
  | .watchdog ctx detail => Sys2Proof.Machine.execWatchdog ctx detail s
  | .syscEnqueue t g => Sys2Proof.Machine.execSyscEnqueue t g s
  | .budgetPeriodEnd tenant => Sys2Proof.Machine.execBudgetPeriodEnd tenant s
  | .budgetUseExchange => Sys2Proof.Machine.execBudgetUseExchange s
  | .echoBufferDrain buf => Sys2Proof.Machine.execEchoBufferDrain buf s
  | .echoSinkWrite => Sys2Proof.Machine.execEchoSinkWrite s
  | .losslessStallTimeout t g => Sys2Proof.Machine.execLosslessStallTimeout t g s
  | .saturationReport die => Sys2Proof.Machine.execSaturationReport die s
  | .ptpMessage m => Sys2Proof.Machine.execPtpMessage m s
  | .ppsEdge offset => Sys2Proof.Machine.execPpsEdge offset s
  | .todLine line => Sys2Proof.Machine.execTodLine line s
  | .timeSourceLost => Sys2Proof.Machine.execTimeSourceLost s
  | .powerOnReset b => Sys2Proof.Machine.execPowerOnReset b s
  | .phimusFailure => Sys2Proof.Machine.execPhimusFailure s
  | .packageFatalError cause die => Sys2Proof.Machine.execPackageFatalError cause die s
  | .chipletLinkFailure die sides => Sys2Proof.Machine.execChipletLinkFailure die sides s
  | .packetRetryReturn die unit slot n => Sys2Proof.Machine.execPacketRetryReturn die unit slot n s
  | .linkRetrainComplete die ok => Sys2Proof.Machine.execLinkRetrainComplete die ok s
  | .packageRecompute => Sys2Proof.Machine.execPackageRecompute s
  | .opptReq v => Sys2Proof.Machine.execOpptReq v s
  | .opptChangeComplete => Sys2Proof.Machine.execOpptChangeComplete s
  | .gateReq v => Sys2Proof.Machine.execGateReq v s
  | .gateChangeComplete die => Sys2Proof.Machine.execGateChangeComplete die s
  | .svcDrain die => Sys2Proof.Machine.execSvcDrain die s
  | .svcReadmit die => Sys2Proof.Machine.execSvcReadmit die s
  | .drainDeadline => Sys2Proof.Machine.execDrainDeadline s
  | .mgmtRegisterWrite ofs v => Sys2Proof.Machine.execMgmtRegisterWrite ofs v s
  | .imageUpdate buf => Sys2Proof.Machine.execImageUpdate buf s
  | .attestationReport nonce => Sys2Proof.Machine.execAttestationReport nonce s
  | .ualinkPeerRequest a => Sys2Proof.Machine.execUalinkPeerRequest a s
  | .quantJobTake die => Sys2Proof.Machine.execQuantJobTake die s
  | .quantJobComplete die => Sys2Proof.Machine.execQuantJobComplete die s
  | .stallOperationComplete t g => Sys2Proof.Machine.execStallOperationComplete t g s
  | .casiumLinkHostAccess a => Sys2Proof.Machine.execCasiumLinkHostAccess a s
  | .contextCreate c => Sys2Proof.Machine.execContextCreate c s
  | .contextDestroy ctx => Sys2Proof.Machine.execContextDestroy ctx s
  | .chipletReset die => Sys2Proof.Machine.execChipletReset die s
  | .sliceLineWriteBack ctx va => Sys2Proof.Machine.execSliceLineWriteBack ctx va s

end Sys2Proof.Machine
end

