-- ==== Sys2Proof/Machine/Turn.lean ====
section
/-! DEFINITION. What happens next: the passing of time (log entry 2), the issue of the next word (R97, R98, R114), the default order of the
events that no agenda chooses (log entry 3), and the placing of a word for the next step (log entry 10). -/

namespace Sys2Proof.Machine

/-! ### Time and words -/

/-- Time passes between two steps (log entry 2). -/
def State.tick (s : State) : State :=
  { (s.pass (Config.timeTicks s.freeN % 2 ^ 32)).clock with freeN := s.freeN + 1 }

/-- The word that the issuing group issues next. -/
def State.nextWord (s : State) : Option W64 := s.cur.bind fun id => (s.grp? id).bind Group.nextWord

/-- A word whose opcode the map does not list: ILLEGAL_OPCODE, step 1 of R114. -/
def State.unlisted (s : State) : State :=
  match s.cur with
  | none => s
  | some id =>
    match s.grp? id with
    | none => s
    | some g => s.takeFault id { code := cIllegalOpcode } g.wordPc g.pc g.pos false

/-- The issuing group issues a word. -/
def State.issue (s : State) (w : W64) : Host.Outcome State Fault Refusal :=
  match parse w with
  | some i => exec i s
  | none => .next s.unlisted

/-! ### The default order (log entry 3) -/

/-- Every group, by team and index. -/
def State.groupIds (s : State) : List (Nat × Nat) := s.teams.flatMap fun t => (List.range t.groups.length).map fun g => (t.id, g)

/-- The elements of a list that follow x, and then the others. -/
def rotateAfter (x : Nat × Nat) (l : List (Nat × Nat)) : List (Nat × Nat) :=
  let k := l.idxOf x + 1
  l.drop k ++ l.take k

/-- A group inside its clause that can go on, the first in turn; the turn itself passes on only where a group begins (R55). -/
def State.pickGroup (s : State) : Option (Nat × Nat) := (rotateAfter s.last s.groupIds).find? s.canIssue

/-- The result of the first event of a list that changes the state. -/
def firstChange (s : State) : List Instr → Option State
  | [] => none
  | i :: is =>
    match exec i s with
    | .next t => if t = s then firstChange s is else some t
    | _ => firstChange s is

/-- Wakes, arrivals and completions of what teams have under way. -/
def State.teamEvents (s : State) : List Instr :=
  let each := fun (f : Team → List Instr) => s.teams.flatMap f
  let grps := fun (f : Nat → Group → List Instr) => s.teams.flatMap fun t => t.groups.flatMap (f t.id)
  ((s.roost.filter Roost.fired).map fun e => Instr.roostWake e.slice) ++ ((s.ovf.filter Ovf.fired).map fun o => Instr.roostWake o.slice) ++
  each (fun t => if t.mfetch.isSome then [Instr.matrixFetchFault t.id] else []) ++
  grps (fun t g => match g.resv.findIdx? Resv.due with
    | some r => [Instr.longLatencyArrival t g.idx r]
    | none => []) ++
  grps (fun t g => if g.pendingStores = 0 then [] else [Instr.storeAcknowledged t g.idx]) ++
  each (fun t => if t.retires.isEmpty then [] else [Instr.matrixUpdateComplete t.id 0]) ++
  each (fun t => (List.range t.jobs.length).flatMap fun j => [Instr.tileFillComplete t.id j, Instr.tileDrainComplete t.id j])

/-- The next unit of each command of the copy engines, and the copies that may be complete. -/
def State.engineEvents (s : State) : List Instr :=
  ((s.eng.copies.filter fun c => !c.told && !(c.failed ++ c.dropped).isEmpty).map fun c => Instr.mcastDestinationFailure c.id none) ++
  ((s.eng.cmds.filter fun k => k.held.isNone).flatMap fun k =>
    [Instr.copyElementPerformed k.die k.unit k.slot k.p, Instr.reducingElementArrival k.die k.unit k.slot k.p,
     Instr.copyElementFault k.die k.unit k.slot k.p false]) ++
  s.eng.copies.map (fun c => Instr.copyComplete c.id) ++
  ((s.eng.replay.filter fun r => decide (r.tick + replayTicks ≤ s.ptp)).map fun r => Instr.replayFilterExpiry r.site) ++
  [.quantJobComplete 0, .quantJobComplete 1, .quantJobTake 0, .quantJobTake 1]

/-- Stalls, walks, settling, spills, loads and saves that may end. -/
def State.slotEvents (s : State) : List Instr :=
  (s.teams.flatMap fun t => t.groups.flatMap fun g => match g.wait with
    | .stall => [Instr.stallOperationComplete t.id g.idx]
    | _ => []) ++
  (s.calls.map fun p => Instr.syscEnqueue p.team p.grp) ++
  s.misses.map (fun m => Instr.pageWalkComplete m.die m.cluster m.ctx m.va) ++
  (s.teams.flatMap fun t => match t.slot with
    | .settle => [Instr.phaseSettleComplete t.id, Instr.succSettleComplete t.id]
    | .spill => [Instr.taskSpillEnqueue t.id]
    | .start => [Instr.teamStartLoaded t.id]
    | _ => []) ++
  s.ctxs.map fun c => Instr.contextSaveWritten c.num

/-- Deadlines that the timebase has reached. -/
def State.dueEvents (s : State) : List Instr :=
  (s.teams.flatMap fun t => ((List.range t.barriers.length).filter fun b =>
      (t.barriers[b]?).any fun x => x.clock.any fun n => decide (x.budget ≤ n)).map fun b => Instr.lanternTimeout t.id b) ++
  ((s.ctxs.filter fun c => (s.saveBegan c).any fun t => decide (t + saveTicks ≤ s.ptp)).map fun c => Instr.watchdog c.num 1) ++
  (s.teams.flatMap fun t => t.groups.flatMap fun g => match g.wait with
    | .trace since _ => if since + (s.filter t.ctx).stallmax * 64000 < s.ptp then [Instr.losslessStallTimeout t.id g.idx] else []
    | _ => []) ++
  (if s.nextDrain.any fun x => decide (s.drainTick x ≤ s.ptp) then [Instr.drainDeadline] else []) ++
  (if s.echo.time.heard.any fun h => decide (h + (if s.echo.time.st = .locked then 2 else 16) * ticks1s ≤ s.ptp) then [Instr.timeSourceLost] else [])

/-- Changes of the package under way, and the draining of trace buffers. -/
def State.packageEvents (s : State) : List Instr :=
  (if s.pkg.mgmt.busy then [Instr.opptChangeComplete] else []) ++ (List.range 14).map Instr.gateChangeComplete ++
  (match s.pkg.phimus.fatal with
   | some f => [Instr.packageFatalError f.1 f.2.1]
   | none => []) ++
  (List.range s.echo.bufs.length).map Instr.echoBufferDrain ++ (if s.echo.held.isEmpty && s.echo.drops.isEmpty then [] else [Instr.echoSinkWrite])

/-- What recurs besides the rounds of the schedulers: their scans, the closing of clusters, the budget periods and the reports. -/
def State.recurring (s : State) : List Instr :=
  [.taskQueueScan 0, .taskQueueScan 1] ++ (if s.sch.exchAt + exchangeTicks ≤ s.ptp then [Instr.budgetUseExchange] else []) ++
  ((s.sch.gangs.filter fun g => decide (64 ≤ g.rounds) && !g.closed).filterMap fun g => g.place.map fun p => Instr.gangClusterClose p.1 p.2) ++
  (if s.pkg.mgmt.qdir = 0 then [] else ((List.range 4096).filter s.rung).map Instr.launchDoorbell) ++
  ((s.sch.rows.filter fun r => decide (periodTicks ≤ r.elapsed)).map fun r => Instr.budgetPeriodEnd r.tenant) ++ (List.range 14).map Instr.saturationReport

/-- A list from its element k on, and then what stands before it. -/
def fromOn (k : Nat) (l : List Instr) : List Instr := l.drop (k % l.length) ++ l.take (k % l.length)

/-- A wait that ends, or the next clause, of the first group in turn that can go on. -/
def State.groupTurn (s : State) : Option State :=
  (rotateAfter s.last s.groupIds).findSome? fun id =>
    (firstChange s [.groupWaitRelease id.1 id.2, .clauseBoundary id.1 id.2]).map fun t => { t with last := id }

/-- The default turn. Every eighth looks first at the round of a scheduler, every sixty-fourth at something else that recurs before that; of the
others, every second looks first at the groups at boundaries, and the rest first at what is under way. With nothing to do, only time
passes, by a budget period where the tenant of a row has one. -/
def State.defaultTurn (s0 : State) : State :=
  let n := s0.turn
  let s := { s0 with turn := n + 1 }
  let round := if n % 8 = 7 then [Instr.schedulingRound (n / 8 % 2)] else []
  let other := if n % 64 = 63 then (fromOn (n / 64) s.recurring).take 1 else []
  let work := fromOn (n / 2) (s.teamEvents ++ s.engineEvents ++ s.slotEvents ++ s.dueEvents ++ s.packageEvents)
  let groups := fun (_ : Unit) => s.groupTurn
  let under := fun (_ : Unit) => firstChange s work
  let first := firstChange s (other ++ round)
  let next := if n % 2 = 0 then (first.orElse under).orElse groups else (first.orElse groups).orElse under
  (next.orElse fun _ => firstChange s ([.schedulingRound 0, .schedulingRound 1] ++ s.recurring ++ s.sch.rows.map fun r => Instr.budgetPeriodEnd r.tenant)).getD s

/-! ### One turn -/

/-- The next thing that happens: the head of the agenda, a command that CTXCMD has accepted, the next word of the issuing group or of the group
whose turn it is, or what the default order gives. An instruction word in the agenda is no event, and nothing happens. -/
def State.act (s : State) : Host.Outcome State Fault Refusal :=
  match s.agenda with
  | i :: rest => if i.view.isNone then exec i { s with agenda := rest } else .next { s with agenda := rest }
  | [] =>
    match s.cmds with
    | i :: rest => exec i { s with cmds := rest }
    | [] =>
      match s.nextWord with
      | some w => s.issue w
      | none =>
        match s.pickGroup with
        | some id =>
          let s1 := { s with cur := some id }
          match s1.nextWord with
          | some w => s1.issue w
          | none => .next s
        | none => .next { s with cur := none }.defaultTurn

/-- Requested saves take what they can after a step (R97, R380). -/
def preempted : Host.Outcome State Fault Refusal → Host.Outcome State Fault Refusal
  | .next s => .next s.preempt
  | r => r

/-- While Phimus holds the package in reset, only a power-on reset goes on (R390, R392). -/
def State.heldNow (s : State) : Bool :=
  s.pkg.phimus.held && match s.agenda with
    | .powerOnReset _ :: _ => false
    | _ => true

/-! ### The placing of a word (log entry 10) -/

/-- A kernel that asks for as much as R36 lets a team of one group have. -/
def placedKernel : KDesc :=
  { entry := 0x10000#64, contract := .mxi, width := 16, groups := 1, named := 32, acc := 8, barriers := 64, tiles := 64, scratch := 512,
    pair := false, persist := false, restart := false, fusel1 := false, gang := 0, carry := 0#64, jtab := 0#64, const := 0#64 }

/-- The header of a clause of class MIX with one word (R92). -/
def placedHeader : W64 := 0xD0A0000000000000#64

/-- A range register that maps the granule of VA 0x10000 to the package pool (R216). -/
def placedRange : Range := ⟨0x10001#64, 0x10000#64, 0x10000#64, 0#64⟩

/-- Context 0, running, with the granule mapped by its first range register. -/
def Ctx.placed (c : Ctx) : Ctx :=
  { c with st := .running, priv := true, saving := none, committed := placedRange :: c.committed.drop 1, staged := placedRange :: c.staged.drop 1 }

/-- A team of context 0 on the first core of die 2 whose one group is about to issue the word. -/
def placedTeam (s : State) (w : W64) : Team :=
  let k := placedKernel
  let g := Group.fresh k 0 0 0 0 k.entry
  { Team.blank s.nextId 0 .m 0#64 k with
    core := coreId 2 0 0, slot := .run, load := .none, nteam := (1, 1, 1)
    groups := [{ g with pos := 1, clause := [placedHeader, w] }]
    acc := freshAcc k, tiles := [List.replicate k.tiles Tile.reset], ls := [[]], barriers := List.replicate k.barriers (Barrier.reset 1) }

/-- The state with a word placed where the next step issues it. -/
def State.placeWord (s : State) (w : W64) : State :=
  let ctxs := if s.ctxs.any fun c => c.num == 0 then s.ctxs.map fun c => if c.num == 0 then c.placed else c else Ctx.zero.placed :: s.ctxs
  let mem := (s.mem.wr 0x10000 8 placedHeader.toNat).wr 0x10008 8 w.toNat
  let pkg := { s.pkg with phimus := { s.pkg.phimus with held := false } }
  { s with agenda := [], cmds := [], ctxs := ctxs, mem := mem, pkg := pkg, teams := s.teams ++ [placedTeam s w], nextId := s.nextId + 1
           cur := some (s.nextId, 0), last := (s.nextId, 0) }

end Sys2Proof.Machine
end

