-- ==== Sys2Proof/Machine/Step.lean ====
section
/-! DEFINITION. The step of the machine, and a state whose next step runs a given word. -/

namespace Sys2Proof.Machine

/-- One step: time passes, the next thing happens, and requested saves take what they can; nothing runs while Phimus holds the package in
reset (R390). -/
def step (s : State) : Host.Outcome State Fault Refusal :=
  if s.heldNow then .fault .heldInReset else preempted s.tick.act

/-- The state with the instruction whose bits are w, as the opcode table numbers them, placed where the next step issues it (log entry 10). -/
def State.withFetchWord (s : State) (nbits w : Nat) : State := s.placeWord (BitVec.ofNat 64 (w % 2 ^ nbits))

end Sys2Proof.Machine
end

