-- ==== Sys2Proof/Safety.lean ====
section
/-! DEFINITION. What counts as a safe run, and the terms in which claims speak of a word that issues: its moment of issue, the state past
it, and what stays as it was. -/

namespace Sys2Proof.Machine

/-! ### Safe states and runs -/

/-- The memory is in its canonical form. -/
def State.memOk (s : State) : Prop := s.mem.wf = true

/-- A run of k steps that ends in a state, in canonical form throughout: it meets no stop of the model. -/
def State.runsSafe : Nat → State → Prop
  | 0, s => s.memOk
  | k + 1, s => s.memOk ∧ ∃ t, step s = .next t ∧ State.runsSafe k t

/-! ### A word at its issue (R114) -/

/-- The word as its effect sees it: the values that it needs have arrived in its group (R111). -/
def Iss.ready (e : Entry) (w : Iss) : Iss := { w with g := w.g.awaited w.v e.sh (e.touch w) }

/-- Every VA that the word translates, as its effect sees it (R221). -/
def State.needs (s : State) (e : Entry) (w : Iss) : List Nat := e.needs (w.ready e) s

/-- No translation of the word stalls: no commit of ranges or migration holds it, and its core needs no walk for it (R219, R221, R230). -/
def State.translates (s : State) (e : Entry) (w : Iss) : Prop :=
  (s.needs e w).any (s.frozenVa w.c.num) = false ∧ s.walkPages w.c w.core (s.needs e w) = []

/-- The word with view v and entry e stands at the issuing group as w, passes the checks of R114, and does not stall at translation. -/
def State.issues (s : State) (e : Entry) (v : View) (w : Iss) : Prop :=
  s.iss? v e.sh = some w ∧ issueChecks e w = .ok () ∧ s.translates e w

/-- The state in which the issuing group holds the values that the word needs, its team counts a stall for those that were missing, and the core
has what its cluster's TLB holds of the word's translations (R221, R342). -/
def State.arrived (s : State) (e : Entry) (w : Iss) : State :=
  ((s.updGrp w.id fun _ => (w.ready e).g).countStall w e).coreFills w.c w.core w.id (s.needs e w)

/-- The state in which the issuing group has moved past the word, before the word's own effect. -/
def State.moved (s : State) (e : Entry) (w : Iss) : State := (s.arrived e w).advance (w.ready e)

/-- The fault of a word at its issue (R114, R369). -/
def State.wordFault (s : State) (w : Iss) (x : Exc) : State := s.takeFault w.id x w.g.wordPc w.g.pc w.g.pos false

/-- The state after a word whose only effect is f on its group. -/
def State.didReg (s : State) (e : Entry) (w : Iss) (f : Group → Group) : State := (s.moved e w).updGrp w.id f

/-- The state after a word that writes the value x of each active thread, or one value of a uniform word, to its DST (R105, R106, R108). -/
def State.did (s : State) (e : Entry) (w : Iss) (wide : Bool) (x : Nat → Nat) : State :=
  s.didReg e w fun g => g.result w.v wide (w.ready e).act x

/-- The same for a long-latency word: its destination is reserved (R109, R110). -/
def State.didLater (s : State) (e : Entry) (w : Iss) (wide load : Bool) (x : Nat → Nat) : State :=
  s.didReg e w fun g => g.later w.v wide load (w.ready e).act (w.ready e).mask x

/-- The state after a terminal word that acts on its group at the boundary (R96). -/
def State.didEnd (s : State) (e : Entry) (w : Iss) (f : Group → Group) : State := (s.moved e w).endClause (w.ready e) f

/-- Every word i that issues completes and writes x to its DST. -/
def wordWrites (i : Instr) (e : Entry) (v : View) (wide : Bool) (x : Iss → Nat → Nat) : Prop :=
  ∀ s w, s.issues e v w → exec i s = .next (s.did e w wide (x (w.ready e)))

/-- Every long-latency word i that issues completes and reserves its DST, with the value x. -/
def wordReserves (i : Instr) (e : Entry) (v : View) (wide load : Bool) (x : Iss → Nat → Nat) : Prop :=
  ∀ s w, s.issues e v w → exec i s = .next (s.didLater e w wide load (x (w.ready e)))

/-- Every word i that issues completes with f on its group. -/
def wordActs (i : Instr) (e : Entry) (v : View) (f : Iss → Group → Group) : Prop :=
  ∀ s w, s.issues e v w → exec i s = .next (s.didReg e w (f (w.ready e)))

/-- Every terminal word i that issues, and for which p holds, completes with f on its group at the clause boundary. -/
def wordEnds (i : Instr) (e : Entry) (v : View) (p : Iss → Prop) (f : Iss → Group → Group) : Prop :=
  ∀ s w, s.issues e v w → p (w.ready e) → exec i s = .next (s.didEnd e w (f (w.ready e)))

/-- Every word i that issues, and for which p holds of the word and the state past it, completes in the state f. -/
def wordDoes (i : Instr) (e : Entry) (v : View) (p : Iss → State → Prop) (f : Iss → State → State) : Prop :=
  ∀ s w, s.issues e v w → p (w.ready e) (s.moved e w) → exec i s = .next (f (w.ready e) (s.moved e w))

/-- Every word i that issues, and for which p holds, faults with x; it has no effect of its own (R98, R114). -/
def wordFaults (i : Instr) (e : Entry) (v : View) (p : Iss → State → Prop) (x : Iss → Exc) : Prop :=
  ∀ s w, s.issues e v w → p (w.ready e) (s.moved e w) → exec i s = .next ((s.arrived e w).wordFault w (x (w.ready e)))

/-- The event i leads from s to a state in which the group `id` stands as g', and every other group, memory and the contexts are as before. -/
def groupEvent (i : Instr) (s : State) (id : Nat × Nat) (g' : Group) : Prop :=
  ∃ u, exec i s = .next u ∧ u.grp? id = some g' ∧ (∀ k, k ≠ id → u.grp? k = s.grp? k) ∧ u.mem = s.mem ∧ u.ctxs = s.ctxs

/-! ### What stays -/

/-- The state besides its teams and the group that is issuing. -/
def State.besides (s : State) : State := { s with teams := [], cur := none }

/-- A team besides its groups and the counts of its slots. -/
def Team.besides (t : Team) : Team := { t with groups := [], counts := [] }

/-- From s to t only group `id`, the counters of its team, and which group is issuing may have changed. -/
def onlyGroup (s t : State) (id : Nat × Nat) : Prop :=
  t.besides = s.besides ∧ (∀ k, (t.team? k).map Team.besides = (s.team? k).map Team.besides) ∧ ∀ k, k ≠ id → t.grp? k = s.grp? k

/-- The named registers and predicates of a thread besides those that a result with this DST writes (R105). -/
def Thread.sameBut (t u : Thread) (dst : Nat) (wide : Bool) : Prop :=
  (∀ i, i < 32 → 0x10 + i ≠ dst → (wide = true → 0x10 + i ≠ dst + 1) → u.ni i = t.ni i) ∧ ∀ i, i ≠ dst → u.ki i = t.ki i

/-- The group besides its registers, latches, reservations and position. -/
def Group.besides (g : Group) : Group :=
  { g with pc := 0#64, pos := 0, clause := [], touched := [], resw := 0, tslots := 0, threads := [], s := Vector.replicate 32 0#32, hage := #v[0, 0, 0], resv := [] }

/-- The words that store nothing: loads, register, control, lane, matrix and table words that keep no image of anything in memory. A tracing word
may have a refusal of its bytes logged (R347). -/
def storesNothing (opc : Nat) : Bool :=
  decide (opc ≤ 0x0C1) || [0x100, 0x101, 0x102, 0x103, 0x104, 0x105, 0x107, 0x108, 0x10D, 0x10E, 0x140, 0x142, 0x144, 0x145, 0x146, 0x14C, 0x14D,
    0x14F, 0x150, 0x152, 0x182, 0x183, 0x185, 0x186, 0x187, 0x1E7, 0x1F2, 0x200, 0x201, 0x203, 0x206].contains opc ||
  (decide (0x1A7 ≤ opc) && decide (opc ≤ 0x1B5))

/-! ### Exact values as numbers -/

/-- The rational number that a dyadic value stands for (R57, R90). -/
def Val.rat : Val → Option ℚ
  | .fin s m e => some ((if s then -1 else 1) * m * (2 : ℚ) ^ e)
  | _ => none

/-- The extended rational number that a value of a float code stands for; a NaN stands for none. -/
def Val.ext : Val → Option (WithBot (WithTop ℚ))
  | .inf s => some (if s then ⊥ else ((⊤ : WithTop ℚ) : WithBot (WithTop ℚ)))
  | v => v.rat.map fun q => ((q : WithTop ℚ) : WithBot (WithTop ℚ))

/-! ### Accesses -/

/-- Every L1 line holds the bytes that memory holds. -/
def State.l1Agrees (s : State) : Prop := ∀ l ∈ s.l1, l.bytes = s.mem.bytes (128 * l.line) 128

/-- The bytes of physical memory that a target of n bytes names. -/
def Target.covers (t : Target) (n a : Nat) : Prop :=
  match t with
  | .phys pa _ _ => pa ≤ a ∧ a < pa + n
  | .ls _ _ _ => False

end Sys2Proof.Machine
end

