-- ==== Sys2Proof/Certificates/Slice0/Obligations.lean ====
section
/-! DEFINITION. The statements for the provers. Each docstring names the rules that it formalises; a word "that issues" is one that passes
the checks of R114 at the issuing group. -/

open Sys2Proof Sys2Proof.Machine

/-! ### The machine -/

/-- What boot leaves (R392, R404, R365): context 0 alone exists and runs as a firmware context, no team runs, no group is issuing, no gate
and no drain is requested, every die of the TZ-48A is present, and DMAX is 0x0FA0. The memory of the machine after boot is in canonical
form. -/
def Obligations.ResetState : Prop :=
  (State.reset.cur = none ∧ State.reset.teams = [] ∧ State.reset.ctxs.map Ctx.num = [0] ∧
   (∀ c ∈ State.reset.ctxs, c.st = .running ∧ c.priv = true ∧ c.epoch = 0#32 ∧ c.committed.all (fun r => !r.valid) = true) ∧
   State.reset.pkg.mgmt.diepres = 0x3FFF#14 ∧ State.reset.pkg.mgmt.gcur = 0#14 ∧ State.reset.pkg.mgmt.svcDrain = false ∧ State.reset.pkg.mgmt.drains = [] ∧
   State.reset.pkg.mgmt.dmax = 0x0FA0#32 ∧ State.reset.pkg.phimus.held = false ∧ State.reset.echo.time.st = .freerun ∧
   State.reset.ncores = 336) ∧
  (State.reset.memOk)

/-- Every step keeps the canonical form of memory: addresses strictly rising and no cell equal to what an unlisted address reads as. -/
def Obligations.StepKeepsMemory : Prop :=
  ∀ s t : State, s.memOk → step s = .next t → t.memOk

/-- A step issues the word at the position of the issuing group: with nothing on the agenda and no command accepted, it is `exec` of the
decoded instruction in the state in which time has passed, and then the requested saves take what they can (R97, R98; log entries 2, 3). A
step whose agenda begins with an event is `exec` of the event (log entry 3); a command that CTXCMD has accepted comes before the next word
(R366). A word whose OPC the map does not list faults ILLEGAL_OPCODE at its issue (R114 step 1, R115): the fault of the issuing group with
the PC of the word, and the group re-enters its clause at that word. That ADDR, DETAIL and LANES of this fault are 0, and that RESW counts words
from 1, is the model's reading (log entry 9). -/
def Obligations.StepRuns : Prop :=
  (∀ (s : State) (x : W64) (i : Instr), s.heldNow = false → s.agenda = [] → s.cmds = [] → s.nextWord = some x → parse x = some i →
     step s = preempted (exec i s.tick)) ∧
  ((∀ (s : State) (i : Instr) (rest : List Instr), s.heldNow = false → s.agenda = i :: rest → i.view = none →
     step s = preempted (exec i { s.tick with agenda := rest })) ∧
   (∀ (s : State) (i : Instr) (rest : List Instr), s.heldNow = false → s.agenda = [] → s.cmds = i :: rest →
     step s = preempted (exec i { s.tick with cmds := rest }))) ∧
  (∀ (s : State) (x : W64) (id : Nat × Nat) (g : Group), s.heldNow = false → s.agenda = [] → s.cmds = [] → s.cur = some id →
     s.tick.grp? id = some g → g.nextWord = some x → parse x = none →
     step s = preempted (.next (s.tick.takeFault id { code := 0x0001 } g.wordPc g.pc g.pos false)))

/-- While Phimus holds the package in reset nothing runs but a power-on reset (R390, R392): the model's own stop. With no group issuing
there is nobody to execute a word: the model's own stop, and the only way in which a word stops (log entry 12). -/
def Obligations.ModelStops : Prop :=
  ((∀ s : State, s.pkg.phimus.held = true → (∀ b rest, s.agenda ≠ .powerOnReset b :: rest) → step s = .fault .heldInReset) ∧
   ∀ (s : State) (b : BootIn) (rest : List Instr), s.agenda = .powerOnReset b :: rest → ∃ t, step s = .next t) ∧
  (∀ (i : Instr) (v : View) (s : State), i.view = some v →
     ((s.iss? v (i.shape v) = none → exec i s = .fault .noGroup) ∧ (s.iss? v (i.shape v) ≠ none → ∃ t, exec i s = .next t)))

/-! ### Encoding -/

/-- Words of the manual's own examples decode to the instructions that they stand for (R100, R101, R115). -/
def Obligations.ExampleWords : Prop :=
  decode 0x6001000D1B530000#64 = .ok (.mma ⟨⟨0#4, 1#2, false, 0#3, false, 0x00#6⟩, 0x34#7, 0x36#7, 0x53#7, 0#16⟩) ∧
  decode 0x5110030D00000000#64 = .ok (.ldt ⟨⟨4#4, 0#2, false, 0#3, false, 0x18#6⟩, 0x34#7, 0#7, 0#23⟩) ∧
  decode 0x1840022408800000#64 = .ok (.ladd ⟨⟨0#4, 0#2, false, 0#3, false, 0x11#6⟩, 0x10#7, 0x11#7, 0#7, 0#16⟩) ∧
  decode 0x1800020409000000#64 = .ok (.lmul ⟨⟨0#4, 0#2, false, 0#3, false, 0x10#6⟩, 0x10#7, 0x12#7, 0#7, 0#16⟩)

/-- Decoding gives back every well-formed instruction word, with every operand at every value that its encoding admits, from the word and
from its eight bytes (R100 to R106, R110, R113, R115). -/
def Obligations.DecodeEncode : Prop :=
  ∀ (i : Instr) (x : W64), i.wf = true → encode i = some x → decode x = .ok i ∧ decodeBytes (bytesOf x) = .ok (i, [])

/-- A word that decodes is the word of the instruction it decodes to: no two words of one instruction, no bit dropped. -/
def Obligations.EncodeDecode : Prop :=
  ∀ (x : W64) (i : Instr), decode x = .ok i → encode i = some x ∧ i.wf = true

/-- A word is rejected as an illegal opcode exactly when its OPC stands in none of the ranges of the opcode map (R115). -/
def Obligations.OpcodeMap : Prop :=
  ∀ x : W64, decode x = .error .illegalOpcode ↔
    ¬ ∃ r ∈ ([(0x000, 0x022), (0x024, 0x027), (0x040, 0x056), (0x060, 0x063), (0x080, 0x084), (0x0A0, 0x0A4), (0x0C0, 0x0C1), (0x100, 0x10F),
      (0x140, 0x152), (0x180, 0x187), (0x1A0, 0x1AB), (0x1B0, 0x1B5), (0x1E0, 0x1E7), (0x1F0, 0x1F2), (0x200, 0x206)] : List (Nat × Nat)),
      r.1 ≤ opcOf x ∧ opcOf x ≤ r.2

/-! ### The issue of a word -/

/-- A privileged word in a context that is no firmware context faults PERMISSION at issue, whatever its fields hold; the privileged opcodes
are 0x200 to 0x206 and 0x0C1 (R116). That ADDR, DETAIL and LANES of this fault are 0 is the model's reading (log entry 9). -/
def Obligations.PrivilegedWords : Prop :=
  (∀ (i : Instr) (v : View) (s : State) (w : Iss), i.view = some v → v.opc = 0x0C1 ∨ (0x200 ≤ v.opc ∧ v.opc ≤ 0x206) →
    s.iss? v (i.shape v) = some w → w.c.priv = false → exec i s = .next (s.wordFault w { code := 0x0011 })) ∧
  ∀ (i : Instr) (v : View), i.view = some v → ((i.shape v).priv = true ↔ v.opc = 0x0C1 ∨ (0x200 ≤ v.opc ∧ v.opc ≤ 0x206))

/-- Every word whose fields fail step 3 of R114 (an unused field that is not zero, a reserved code, LOOK, HOLD, DST, 0x57 or the pairing of
a 64-bit operand) faults ILLEGAL_ENCODING at issue, unless its privilege check comes first (R102, R104, R105, R106, R110, R113, R114). That
ADDR, DETAIL and LANES of this fault are 0 is the model's reading (log entry 9). -/
def Obligations.IllegalEncodings : Prop :=
  ∀ (i : Instr) (v : View) (s : State) (w : Iss), i.view = some v → s.iss? v (i.shape v) = some w →
    ((i.shape v).priv = true → w.c.priv = true) → v.encOk (i.shape v) = false →
    exec i s = .next (s.wordFault w { code := 0x0002 })

/-- The classes of a clause admit these opcodes, MIX every one, and every class `nop` (R95). -/
def Obligations.ClauseClasses : Prop :=
  ∀ opc : Nat,
    (clsAdmits 0 opc = true ↔ opc = 0x10D ∨ opc ≤ 0x0C1) ∧
    (clsAdmits 1 opc = true ↔ opc = 0x10D ∨ (0x140 ≤ opc ∧ opc ≤ 0x152)) ∧
    (clsAdmits 2 opc = true ↔ opc = 0x10D ∨ (0x180 ≤ opc ∧ opc ≤ 0x187)) ∧
    (clsAdmits 3 opc = true ↔
      opc = 0x10D ∨ (0x1A0 ≤ opc ∧ opc ≤ 0x1B5) ∨ (0x1E0 ≤ opc ∧ opc ≤ 0x1E7) ∨ (0x1F0 ≤ opc ∧ opc ≤ 0x1F2)) ∧
    (clsAdmits 4 opc = true ↔ (0x100 ≤ opc ∧ opc ≤ 0x10F) ∨ (0x200 ≤ opc ∧ opc ≤ 0x206)) ∧
    clsAdmits 5 opc = true

/-! ### Faults -/

/-- A fault whose code stops its context (R371, R374): what the group has out is performed (R370), it stands at the given header, re-enters at
the given word, and holds until the image is written; the context is being saved, for the cause that stands or else STOP; no other group and no other context changes. A
fault whose code terminates its context (R371, R375): STATE becomes TERMINATED, no team of the context remains, every team of another number
stays as it was, and so does every other context. -/
def Obligations.Faults : Prop :=
  (∀ (s : State) (id : Nat × Nat) (t : Team) (g : Group) (c : Ctx) (x : Exc) (pc hdr : W64) (n : Nat),
     s.team? id.1 = some t → s.grp? id = some g → s.ctx? t.ctx = some c → x.code ∉ [0x22, 0x50, 0x60, 0x61, 0x62] →
     let u := s.takeFault id x pc hdr n false
     u.grp? id = some { g.performed with pc := hdr, pos := 0, clause := [], resw := n, wait := .halted, touched := [], tslots := 0 } ∧
     g.performed.late = [] ∧ g.performed.pendingStores = 0 ∧ (∀ r ∈ g.performed.resv, r.due = false) ∧
     (∀ k, k ≠ id → u.grp? k = s.grp? k) ∧
     u.ctx? t.ctx = some { c with saving := some (c.saving.getD .stop), saveAt := if c.saving.isSome then c.saveAt else s.ptp } ∧
     (∀ k, k ≠ t.ctx → u.ctx? k = s.ctx? k) ∧ u.cur ≠ some id) ∧
  (∀ (s : State) (id : Nat × Nat) (t : Team) (c : Ctx) (x : Exc) (pc hdr : W64) (n : Nat),
     s.team? id.1 = some t → s.ctx? t.ctx = some c → x.code ∈ [0x22, 0x50, 0x60, 0x61, 0x62] →
     let u := s.takeFault id x pc hdr n false
     (u.ctx? t.ctx).map Ctx.st = some .terminated ∧ (∀ k ∈ u.teams, k.ctx ≠ t.ctx) ∧
     (∀ k, k ≠ t.ctx → u.ctx? k = s.ctx? k) ∧ u.teams = s.teams.filter fun k => s.teams.all fun x => x.ctx != t.ctx || x.id != k.id)

/-- The record of a fault (R367, R370): with a fault queue and room in its ring the 32 bytes stand in the next slot and WR has moved on by
one; with the ring full only LOST counts. Every other byte of memory reads as before. With no fault queue, neither the context's nor that of
context 0, nothing is written: R370 says nothing of it, and this is the model's reading (log entry 33). -/
def Obligations.FaultRecords : Prop :=
  ∀ (s : State) (ctx : Nat) (bytes : List Byte), s.memOk → bytes.length = 32 →
    let h := s.fqOf ctx
    let base := natBits (s.mem.rd h 8) 12 40 * 4096
    let cap := 2 ^ natBits (s.mem.rd h 8) 0 5
    let wr := s.mem.rd (h + 8) 8
    let full := (wr + 2 ^ 64 - s.mem.rd (h + 16) 8) % 2 ^ 64 = cap
    let slot := base + 32 * (wr % cap)
    (h = 0 → s.record ctx bytes = s) ∧
    (h ≠ 0 → full → ∀ a, a < h + 24 ∨ h + 32 ≤ a → (s.record ctx bytes).mem.get a = s.mem.get a) ∧
    (h ≠ 0 → full → (s.record ctx bytes).mem.rd (h + 24) 8 = (s.mem.rd (h + 24) 8 + 1) % 2 ^ 64) ∧
    (h ≠ 0 → ¬ full → slot + 32 ≤ h + 8 ∨ h + 16 ≤ slot → (s.record ctx bytes).mem.bytes slot 32 = bytes) ∧
    (h ≠ 0 → ¬ full → (s.record ctx bytes).mem.rd (h + 8) 8 = (wr + 1) % 2 ^ 64) ∧
    (h ≠ 0 → ¬ full → ∀ a, a < h + 8 ∨ h + 16 ≤ a → a < slot ∨ slot + 32 ≤ a → (s.record ctx bytes).mem.get a = s.mem.get a)

/-! ### Integer words -/

/-- Every integer word 0x000 to 0x021 that issues completes and writes the result of its row of R130, narrowed and extended as R129 says;
`div` and `rem` reserve their destination (R110). `pset`, `lea`, `mov`, `movi` and `movh` complete with the results of R133 and R134. -/
def Obligations.ScalarWords : Prop :=
  (∀ k : FR,
     let f := fun opc => (k.view .fr opc).efunc
     let ty := fun opc => natBits (f opc) 13 3
     let sat := fun opc => natBit (f opc) 12
     let bits := fun opc => tyBits (ty opc)
     let A := fun (w : Iss) th opc => intArg (ty opc) (w.a th)
     let B := fun (w : Iss) th opc => intArg (ty opc) (w.b th)
     let C := fun (w : Iss) th opc => intArg (ty opc) (w.cc th)
     let does := fun (i : Instr) (opc : Nat) (x : Iss → Nat → Nat) =>
       wordWrites i { sh := shInt (k.view .fr opc) } (k.view .fr opc) (Shape.isWide (shInt (k.view .fr opc))) x
     let exact := fun (i : Instr) (opc : Nat) (x : Iss → Nat → Int) => does i opc fun w th => intRes (ty opc) (sat opc) (x w th)
     let whole := fun (i : Instr) (opc : Nat) (x : Iss → Nat → Int) => does i opc fun w th => intRes (ty opc) false (x w th)
     let bitwise := fun (i : Instr) (opc : Nat) (x : Iss → Nat → Nat) => does i opc fun w th => intExtend (ty opc) (x w th)
     let later := fun (i : Instr) (opc : Nat) (x : Iss → Nat → Int) =>
       wordReserves i { sh := shInt (k.view .fr opc) } (k.view .fr opc) (Shape.isWide (shInt (k.view .fr opc))) false fun w th =>
         intRes (ty opc) false (x w th)
     exact (.add k) 0x000 (fun w th => A w th 0x000 + B w th 0x000) ∧
     exact (.sub k) 0x001 (fun w th => A w th 0x001 - B w th 0x001) ∧
     does (.addc k) 0x002 (fun w th =>
       (w.a th + w.b th + w.cc th % 2) % 2 ^ 32 + 2 ^ 32 * (if 2 ^ 32 ≤ w.a th + w.b th + w.cc th % 2 then 1 else 0)) ∧
     does (.subb k) 0x003 (fun w th =>
       (w.a th + 2 ^ 33 - w.b th - w.cc th % 2) % 2 ^ 32 + 2 ^ 32 * (if w.a th < w.b th + w.cc th % 2 then 1 else 0)) ∧
     exact (.mul k) 0x004 (fun w th => A w th 0x004 * B w th 0x004) ∧
     whole (.mulh k) 0x005 (fun w th => A w th 0x005 * B w th 0x005 / (2 ^ bits 0x005 : Int)) ∧
     exact (.mad k) 0x006 (fun w th => A w th 0x006 * B w th 0x006 + C w th 0x006) ∧
     exact (.neg k) 0x007 (fun w th => -A w th 0x007) ∧
     exact (.abs k) 0x008 (fun w th => |A w th 0x008|) ∧
     whole (.min k) 0x009 (fun w th => min (A w th 0x009) (B w th 0x009)) ∧
     whole (.max k) 0x00A (fun w th => max (A w th 0x00A) (B w th 0x00A)) ∧
     whole (.clamp k) 0x00B (fun w th => min (max (A w th 0x00B) (B w th 0x00B)) (C w th 0x00B)) ∧
     later (.div k) 0x00C (fun w th => if B w th 0x00C = 0 then -1 else Int.tdiv (A w th 0x00C) (B w th 0x00C)) ∧
     later (.rem k) 0x00D (fun w th => if B w th 0x00D = 0 then A w th 0x00D else Int.tmod (A w th 0x00D) (B w th 0x00D)) ∧
     exact (.sad k) 0x00E (fun w th => |A w th 0x00E - B w th 0x00E| + C w th 0x00E) ∧
     exact (.dot4 k) 0x00F (fun w th => C w th 0x00F + dot4Sum (natBit (f 0x00F) 11) (natBit (f 0x00F) 10) (w.a th) (w.b th)) ∧
     bitwise (.and k) 0x010 (fun w th => w.a th &&& w.b th) ∧
     bitwise (.or k) 0x011 (fun w th => w.a th ||| w.b th) ∧
     bitwise (.xor k) 0x012 (fun w th => w.a th ^^^ w.b th) ∧
     bitwise (.not k) 0x013 (fun w th => 2 ^ bits 0x013 - 1 - w.a th) ∧
     bitwise (.andn k) 0x014 (fun w th => w.a th &&& (2 ^ bits 0x014 - 1 - w.b th)) ∧
     bitwise (.lgc3 k) 0x015 (fun w th => lut3 (natBits (f 0x015) 0 8) (bits 0x015) (w.a th) (w.b th) (w.cc th)) ∧
     whole (.shl k) 0x016 (fun w th => if w.b th < bits 0x016 then (w.a th % 2 ^ bits 0x016 * 2 ^ w.b th : Nat) else 0) ∧
     whole (.shr k) 0x017 (fun w th => if w.b th < bits 0x017 then (w.a th % 2 ^ bits 0x017 / 2 ^ w.b th : Nat) else 0) ∧
     whole (.sar k) 0x018 (fun w th => if w.b th < bits 0x018 then sInt (bits 0x018) (w.a th) / (2 ^ w.b th : Int)
       else if sInt (bits 0x018) (w.a th) < 0 then -1 else 0) ∧
     bitwise (.rol k) 0x019 (fun w th => rolBits (bits 0x019) (w.a th % 2 ^ bits 0x019) (w.b th % bits 0x019)) ∧
     bitwise (.bfx k) 0x01A (fun w th => bfxBits (ty 0x01A) (w.a th) (natBits (w.b th) 0 8) (natBits (w.b th) 8 8)) ∧
     bitwise (.bfi k) 0x01B (fun w th => bfiBits (bits 0x01B) (w.a th) (w.b th) (natBits (w.cc th) 0 8) (natBits (w.cc th) 8 8)) ∧
     whole (.pop k) 0x01C (fun w th => popBits (bits 0x01C) (w.a th)) ∧
     whole (.clz k) 0x01D (fun w th => clzBits (bits 0x01D) (w.a th)) ∧
     whole (.ctz k) 0x01E (fun w th => ctzBits (bits 0x01E) (w.a th)) ∧
     bitwise (.brev k) 0x01F (fun w th => revBits (bits 0x01F) (w.a th)) ∧
     does (.cmp k) 0x020 (fun w th => if intCC (natBits (f 0x020) 9 3) (A w th 0x020) (B w th 0x020) then 1 else 0) ∧
     bitwise (.sel k) 0x021 (fun w th => if w.cc th % 2 ^ 32 ≠ 0 then w.a th else w.b th)) ∧
  ((∀ k : FR, wordWrites (.pset k) { sh := shPset (k.view .fr 0x022) } (k.view .fr 0x022) false fun w th =>
     if natBit (natBits (k.view .fr 0x022).func 0 4) (2 * (if (w.g.thread th).ki (natBits (k.view .fr 0x022).func 13 3) then 1 else 0) +
       (if (w.g.thread th).ki (natBits (k.view .fr 0x022).func 10 3) then 1 else 0)) then 1 else 0) ∧
   (∀ k : FR, wordWrites (.lea k) { sh := shLea (k.view .fr 0x024) } (k.view .fr 0x024) true fun w th =>
     wrapInt 64 ((w.a th : Int) +
       (if natBit (k.view .fr 0x024).efunc 3 then sInt 32 (w.b th) else (w.b th : Int)) * 2 ^ natBits (k.view .fr 0x024).efunc 0 3)) ∧
   (∀ k : FR, wordWrites (.mov k) { sh := shMov (k.view .fr 0x025) } (k.view .fr 0x025) (Shape.isWide (shMov (k.view .fr 0x025))) fun w th => w.a th) ∧
   (∀ k : FI, wordWrites (.movi k) { sh := shMovi (k.view 0x026) } (k.view 0x026) false fun _ _ => wrapInt 32 k.imm.toInt) ∧
   (∀ k : FI, wordWrites (.movh k) { sh := shMovh (k.view 0x027) } (k.view 0x027) false fun w th => wrapInt 16 k.imm.toInt * 65536 + w.a th % 65536))

/-- The low w bits of the wrapping integer results are the two's complement results on w-bit vectors, and the rest of the register is the
sign or zero extension of TY (R129, R130). A saturating integer result is the exact integer clamped to the range of TY (R129 step 4): it is
the exact integer where that lies in the range, and the nearer bound of the range where it does not. -/
def Obligations.IntegerResults : Prop :=
  (∀ ty a b c : Nat,
     let n := tyBits ty
     BitVec.ofNat n (intRes ty false (intArg ty a + intArg ty b)) = BitVec.ofNat n a + BitVec.ofNat n b ∧
     BitVec.ofNat n (intRes ty false (intArg ty a - intArg ty b)) = BitVec.ofNat n a - BitVec.ofNat n b ∧
     BitVec.ofNat n (intRes ty false (intArg ty a * intArg ty b + intArg ty c)) = BitVec.ofNat n a * BitVec.ofNat n b + BitVec.ofNat n c ∧
     BitVec.ofNat n (intRes ty false (-intArg ty a)) = -BitVec.ofNat n a ∧
     (n < 32 → ∀ x : Int, intRes ty false x =
       (if tySigned ty then ((BitVec.ofInt n x).signExtend 32).toNat else ((BitVec.ofInt n x).zeroExtend 32).toNat))) ∧
  (∀ (ty : Nat) (x : Int),
     let n := tyBits ty
     let lo : Int := if tySigned ty then -2 ^ (n - 1) else 0
     let hi : Int := if tySigned ty then 2 ^ (n - 1) - 1 else 2 ^ n - 1
     (lo ≤ x → x ≤ hi → intArg ty (intRes ty true x) = x) ∧ (x < lo → intArg ty (intRes ty true x) = lo) ∧
     (hi < x → intArg ty (intRes ty true x) = hi))

/-- Division has no fault, and its boundary cases are those of R131: on every type and every pair of operands the word that issues
completes, and what it reserves for thread th is as the table says: all ones and a for a zero divisor, the most negative number and 0 for
its quotient and remainder by -1, else the quotient truncated toward zero and the remainder with the sign of a. -/
def Obligations.Division : Prop :=
  ∀ k : FR,
    let vd := k.view .fr 0x00C
    let vr := k.view .fr 0x00D
    let ty := natBits vd.efunc 13 3
    let n := tyBits ty
    (∃ q : Iss → Nat → Nat, wordReserves (.div k) { sh := shInt vd } vd (Shape.isWide (shInt vd)) false q ∧ ∀ (w : Iss) (th : Nat),
      let a := intArg ty (w.a th)
      let b := intArg ty (w.b th)
      let r := intArg ty (q w th)
      (b = 0 → q w th % 2 ^ n = 2 ^ n - 1) ∧
      (tySigned ty = true → a = -2 ^ (n - 1) → b = -1 → r = -2 ^ (n - 1)) ∧
      (b ≠ 0 → ¬ (a = -2 ^ (n - 1) ∧ b = -1) → |r| = |a| / |b| ∧ (0 ≤ r * (a * b)))) ∧
    (∃ q : Iss → Nat → Nat, wordReserves (.rem k) { sh := shInt vr } vr (Shape.isWide (shInt vr)) false q ∧ ∀ (w : Iss) (th : Nat),
      let a := intArg ty (w.a th)
      let b := intArg ty (w.b th)
      let r := intArg ty (q w th)
      (b = 0 → r = a) ∧
      (tySigned ty = true → a = -2 ^ (n - 1) → b = -1 → r = 0) ∧
      (b ≠ 0 → |r| = |a| % |b| ∧ 0 ≤ r * a))

/-! ### Float words -/

/-- Every scalar float word that issues completes with the exact result of its row of R137 on the decoded sources, rounded once to FT; the
words 0x048 to 0x04F reserve their destination (R110, R136, R137). The packed-half words compute both halves as the scalar words of the same
FT do (R140). The logarithmic words complete with the results of R66 and R68 on codes of their width (R142). -/
def Obligations.FloatWords : Prop :=
  (∀ k : FR,
     let v := fun opc => k.view .fr opc
     let ft := fun opc => ffOf (natBits (v opc).efunc 14 2)
     let md := fun opc => fltMode (v opc).efunc
     let A := fun opc (w : Iss) th => fltArg (ft opc) (natBit (v opc).efunc 10) (w.a th)
     let B := fun opc (w : Iss) th => fltArg (ft opc) (natBit (v opc).efunc 9) (w.b th)
     let C := fun opc (w : Iss) th => fltArg (ft opc) (natBit (v opc).efunc 8) (w.cc th)
     let now := fun (i : Instr) opc (x : Iss → Nat → Val) =>
       wordWrites i { sh := shFloat (v opc) } (v opc) false fun w th => (encFloat (ft opc) .ieee (md opc) 0 (x w th)).code
     let later := fun (i : Instr) opc (x : Iss → Nat → Val) =>
       wordReserves i { sh := shFloat (v opc) } (v opc) false false fun w th => (encFloat (ft opc) .ieee (md opc) 0 (x w th)).code
     let rdn := fun opc => decide (md opc = .rdn)
     now (.fadd k) 0x040 (fun w th => (A 0x040 w th).add (rdn 0x040) (B 0x040 w th)) ∧
     now (.fsub k) 0x041 (fun w th => (A 0x041 w th).add (rdn 0x041) (B 0x041 w th).neg) ∧
     now (.fmul k) 0x042 (fun w th => (A 0x042 w th).mul (B 0x042 w th)) ∧
     now (.fma k) 0x043 (fun w th => ((A 0x043 w th).mul (B 0x043 w th)).add (rdn 0x043) (C 0x043 w th)) ∧
     now (.fmin k) 0x044 (fun w th => minVal false (A 0x044 w th) (B 0x044 w th)) ∧
     now (.fmax k) 0x045 (fun w th => minVal true (A 0x045 w th) (B 0x045 w th)) ∧
     now (.frnd k) 0x047 (fun w th => integralVal (md 0x047) (A 0x047 w th)) ∧
     later (.frcp k) 0x048 (fun w th => quoVal (.fin false 1 0) (A 0x048 w th)) ∧
     later (.frsq k) 0x049 (fun w th => rsqrtVal (A 0x049 w th)) ∧
     later (.fsqrt k) 0x04A (fun w th => rootVal (A 0x04A w th)) ∧
     later (.fex2 k) 0x04B (fun w th => powVal (A 0x04B w th)) ∧
     later (.flg2 k) 0x04C (fun w th => logVal (A 0x04C w th)) ∧
     later (.fsin k) 0x04D (fun w th => sinOf (A 0x04D w th)) ∧
     later (.fcos k) 0x04E (fun w th => cosOf (A 0x04E w th)) ∧
     later (.fdiv k) 0x04F (fun w th => quoVal (A 0x04F w th) (B 0x04F w th)) ∧
     now (.fscale k) 0x050 (fun w th => (A 0x050 w th).scl (if (A 0x050 w th).isZero then 0 else sInt 32 (w.b th)))) ∧
  (∀ k : FR,
     let v := fun opc => k.view .fr opc
     let ft := fun opc => if natBits (v opc).efunc 14 2 = 0 then ffF16 else ffBf16
     let half := fun (x : Nat) i => x / 2 ^ (16 * i) % 2 ^ 16
     let does := fun (i : Instr) opc (op : Rnd → Val → Val → Val → Val) =>
       wordWrites i { sh := shFloat (v opc) } (v opc) false fun w th =>
         fltApply op (ft opc) (v opc).efunc (half (w.a th) 0) (half (w.b th) 0) (half (w.cc th) 0) +
         2 ^ 16 * fltApply op (ft opc) (v opc).efunc (half (w.a th) 1) (half (w.b th) 1) (half (w.cc th) 1)
     does (.padd k) 0x052 faddVal ∧ does (.pmul k) 0x053 fmulVal ∧ does (.pfma k) 0x054 fmaVal ∧
     does (.pmin k) 0x055 fminVal ∧ does (.pmax k) 0x056 fmaxVal) ∧
  (∀ k : FR,
     let v := fun opc => k.view .fr opc
     let bits := fun opc => if natBit (v opc).efunc 15 then 32 else 16
     let does := fun (i : Instr) opc (op : Nat → Nat → Nat → Nat) =>
       wordWrites i { sh := shLns (v opc) } (v opc) false fun w th => op (bits opc) (w.a th % 2 ^ bits opc) (w.b th % 2 ^ bits opc)
     does (.lmul k) 0x060 lnsMul ∧ does (.ladd k) 0x061 lnsAdd ∧ does (.lsub k) 0x062 (fun b x y => lnsAdd b x (lnsNeg b y)) ∧
     does (.lmax k) 0x063 lnsMaxOp)

/-- Addition, subtraction, multiplication and comparison of decoded float values are exact on the rational numbers that the values stand
for, before the one rounding (R57, R137). -/
def Obligations.FloatExact : Prop :=
  ∀ (md : Rnd) (a b c : Val) (p q r : ℚ), a.rat = some p → b.rat = some q → c.rat = some r →
    (faddVal md a b c).rat = some (p + q) ∧ (fsubVal md a b c).rat = some (p - q) ∧ (fmulVal md a b c).rat = some (p * q) ∧
    (fmaVal md a b c).rat = some (p * q + r) ∧ (minVal false a b).rat = some (min p q) ∧ (minVal true a b).rat = some (max p q) ∧
    (a.le b = true ↔ p ≤ q)

/-- Rounding a magnitude m × 2^e to a multiple of 2^q (R72, R74): RTZ takes the multiple below; RDN and RUP take it below or above as the
sign says; RNE takes the nearest, and the even one on a tie; SR takes the one above exactly when the generator's output carries the first 32
bits of the fraction over; a value on the grid stays. -/
def Obligations.RoundingModes : Prop :=
  ∀ (r : Nat) (neg : Bool) (m : Nat) (e q : Int), r < 2 ^ 32 →
    let y : ℚ := (m : ℚ) * (2 : ℚ) ^ (e - q)
    (roundGrid .rtz r neg m e q : Int) = ⌊y⌋ ∧
    (roundGrid .rdn r neg m e q : Int) = (if neg then ⌈y⌉ else ⌊y⌋) ∧
    (roundGrid .rup r neg m e q : Int) = (if neg then ⌊y⌋ else ⌈y⌉) ∧
    |y - (roundGrid .rne r neg m e q : ℚ)| ≤ 1 / 2 ∧
    (|y - (roundGrid .rne r neg m e q : ℚ)| = 1 / 2 → roundGrid .rne r neg m e q % 2 = 0) ∧
    (roundGrid .sr r neg m e q : Int) = ⌊y⌋ + (if y ≠ ⌊y⌋ ∧ (2 ^ 32 : Int) ≤ ⌊(y - ⌊y⌋) * 2 ^ 32⌋ + r then 1 else 0)

/-- A float code that is no NaN and, in BF16, no subnormal comes back unchanged when its value is rounded to its own layout, in every mode
(R57, R58, R72). -/
def Obligations.FloatRoundTrip : Prop :=
  ∀ (ft : Nat) (md : Rnd) (x : Nat),
    let k := ffOf ft
    x < 2 ^ (1 + k.eb + k.fb) → decFloat k x ≠ .nan → (k.flush = true → 2 ^ k.fb ≤ x % 2 ^ (k.eb + k.fb) ∨ x % 2 ^ (k.eb + k.fb) = 0) →
    fltRes k md (decFloat k x) = x

/-- `fcmp` gives 1 or 0 by its CC, on the extended numbers that its sources stand for; a NaN makes every order false, `.ne` and `.un` true
and `.ord` false; -0 equals +0; CC 1000 to 1111 is reserved (R139). -/
def Obligations.FloatCompare : Prop :=
  ∀ k : FR,
    let v := k.view .fr 0x046
    let cc := natBits v.efunc 4 4
    let ext := fun (n : Nat) (x : Nat) => (fltArg (ffOf (natBits v.efunc 14 2)) (natBit v.efunc n) x).ext
    (8 ≤ cc → v.encOk (shFloat v) = false) ∧
    ∃ x : Iss → Nat → Nat, wordWrites (.fcmp k) { sh := shFloat v } v false x ∧ ∀ (w : Iss) (th : Nat),
      (x w th = 0 ∨ x w th = 1) ∧
      (∀ p q, ext 10 (w.a th) = some p → ext 9 (w.b th) = some q →
        (cc = 0 → (x w th = 1 ↔ p = q)) ∧ (cc = 1 → (x w th = 1 ↔ p ≠ q)) ∧ (cc = 2 → (x w th = 1 ↔ p < q)) ∧
        (cc = 3 → (x w th = 1 ↔ p ≤ q)) ∧ (cc = 4 → (x w th = 1 ↔ q < p)) ∧ (cc = 5 → (x w th = 1 ↔ q ≤ p)) ∧
        (cc = 6 → x w th = 0) ∧ (cc = 7 → x w th = 1)) ∧
      (ext 10 (w.a th) = none ∨ ext 9 (w.b th) = none → cc < 8 → (x w th = 1 ↔ cc = 1 ∨ cc = 6))

/-- `fclass` writes the mask with the one bit of the class of its source, read from the code's sign, exponent and fraction; NA, NB and NC
must be zero; a BF16 subnormal is classed as a zero (R138). -/
def Obligations.FloatClass : Prop :=
  ∀ k : FR,
    let v := k.view .fr 0x051
    let ft := natBits v.efunc 14 2
    let eb := if ft = 1 then 5 else 8
    let fb := if ft = 0 then 23 else if ft = 1 then 10 else 7
    (natBits v.efunc 8 3 ≠ 0 → v.encOk (shFloat v) = false) ∧
    wordWrites (.fclass k) { sh := shFloat v } v false fun w th =>
      let neg := natBit (w.a th) (eb + fb)
      let E := natBits (w.a th) fb eb
      let F := natBits (w.a th) 0 fb
      2 ^ (if E = 2 ^ eb - 1 then (if F ≠ 0 then 8 else if neg then 0 else 7)
        else if E = 0 ∧ (F = 0 ∨ 2 ≤ ft) then (if neg then 3 else 4)
        else if E = 0 then (if neg then 2 else 5)
        else if neg then 1 else 6)

/-- A logarithmic multiply in either width gives NaR for a NaR operand, zero for a zero operand and no NaR, and otherwise the XOR of the
signs and the sum of the logs clamped to the finite range, which is 16,383 or 2^30 - 1 each way; the widened product of two LNS16 codes has
the sum of the logs shifted by 15, unclamped (R66). -/
def Obligations.LogMultiply : Prop :=
  (∀ w ∈ [16, 32], ∀ x y, x < 2 ^ w → y < 2 ^ w →
    let top : Int := if w = 16 then 16383 else 2 ^ 30 - 1
    (x = lnsNaR w ∨ y = lnsNaR w → lnsMul w x y = lnsNaR w) ∧
    (x ≠ lnsNaR w → y ≠ lnsNaR w → x = lnsZero w ∨ y = lnsZero w → lnsMul w x y = lnsZero w) ∧
    (x ≠ lnsNaR w → y ≠ lnsNaR w → x ≠ lnsZero w → y ≠ lnsZero w →
      lnsSign w (lnsMul w x y) = xor (lnsSign w x) (lnsSign w y) ∧
      lnsLog w (lnsMul w x y) = max (-top) (min (lnsLog w x + lnsLog w y) top))) ∧
  ∀ x y, x < 2 ^ 16 → y < 2 ^ 16 → x ≠ lnsNaR 16 → y ≠ lnsNaR 16 → x ≠ lnsZero 16 → y ≠ lnsZero 16 →
    lnsSign 32 (prod32 x y) = xor (lnsSign 16 x) (lnsSign 16 y) ∧ lnsLog 32 (prod32 x y) = (lnsLog 16 x + lnsLog 16 y) * 2 ^ 15

/-! ### Conversions and lanes -/

/-- `cvt`, `pack`, `unpk`, `bmax` and `bscale` complete: the encoding of each active thread goes to its DST, under SR the generators advance
once, and the elements that R84 counts are added to the team's counts (R143 to R146). An identity conversion copies the element's bits,
whatever the mode and policy; a conversion between integer formats clamps the integer to the destination's range, and counts a saturation
exactly when it lies outside (R76, R77, R84, R143). -/
def Obligations.ConversionWords : Prop :=
  (∀ k : FR,
     let v := fun opc => k.view .fr opc
     let ths := fun opc (w : Iss) => if (v opc).u then [0] else w.g.actives (v opc)
     let conv := fun (i : Instr) opc (e : Entry) (sr : Bool) (size : Nat) (x : Iss → Nat → Enc) (res : Nat → Nat) =>
       wordDoes i e (v opc) (fun _ _ => True) fun w u =>
         (u.updGrp w.id fun g => (if sr then g.advanceSr (v opc) w.act else g).result (v opc) false w.act fun th => res (x w th).code).countConv
           w.id.1 ((ths opc w).map (x w) |>.filter fun e => e.sat && !e.nar).length ((ths opc w).map (x w) |>.filter Enc.nar).length
           (size * (ths opc w).length)
     let f := fun opc => (v opc).efunc
     let slot := fun opc => 4 * 2 ^ natBits (f opc) 14 2 * natBits (f opc) 11 3
     let ew := fun opc => 4 * 2 ^ natBits (f opc) 14 2
     conv (.cvt k) 0x080 { sh := shCvt (v 0x080) } (natBits (f 0x080) 3 3 == 4)
       (if natBits (f 0x080) 11 5 = natBits (f 0x080) 6 5 then 0 else max 1 (fmtBits (natBits (f 0x080) 6 5) / 8))
       (fun w th => convElem (natBits (f 0x080) 11 5) (natBits (f 0x080) 6 5) 0 (if natBit (f 0x080) 2 then .satnan else .satfin)
         ((rndOf (natBits (f 0x080) 3 3)).getD .rne) (w.g.thread th).srNext (w.a th % 2 ^ fmtBits (natBits (f 0x080) 11 5)))
       (cvtExtend (natBits (f 0x080) 6 5)) ∧
     wordWrites (.pack k) { sh := shPack (v 0x081) } (v 0x081) false (fun w th => bfiBits 32 (w.a th) (w.b th) (slot 0x081) (ew 0x081)) ∧
     wordWrites (.unpk k) { sh := shPack (v 0x082) } (v 0x082) false (fun w th =>
       if natBit (f 0x082) 10 then wrapInt 32 (sInt (ew 0x082) (natBits (w.a th) (slot 0x082) (ew 0x082)))
       else natBits (w.a th) (slot 0x082) (ew 0x082)) ∧
     wordWrites (.bmax k) { sh := shBmax (v 0x083) } (v 0x083) false (fun w th =>
       bmaxOf w (natBits (f 0x083) 11 5) (natBits (f 0x083) 9 2) (natBit (f 0x083) 8) th) ∧
     conv (.bscale k) 0x084 { sh := shBscale (v 0x084) } (natBits (f 0x084) 8 3 == 4) (max 1 (fmtBits (natBits (f 0x084) 11 5) / 8))
       (fun w th => bscaleEnc (natBits (f 0x084) 11 5) (if natBit (f 0x084) 7 then .satnan else .satfin)
         ((rndOf (natBits (f 0x084) 8 3)).getD .rne) (w.g.thread th).srNext (w.a th) (w.b th)) id) ∧
  ((∀ f pol md r x, (convElem f f 0 pol md r x).code = x % 2 ^ fmtBits f) ∧
   ∀ sf ∈ [1, 2, 3, 4, 0x12, 0x13], ∀ d ∈ ([(1, 8, -128, 127), (2, 8, 0, 255), (3, 16, -32768, 32767), (4, 32, -2147483648, 2147483647),
       (0x12, 4, -8, 7), (0x13, 4, 0, 15)] : List (Nat × Nat × Int × Int)), sf ≠ d.1 → ∀ (pol : Pol) (md : Rnd) (r x : Nat),
     let n : Int := if fmtSigned sf then sInt (fmtBits sf) x else (x % 2 ^ fmtBits sf : Nat)
     let c := convElem sf d.1 0 pol md r x
     c.code = wrapInt d.2.1 (max d.2.2.1 (min n d.2.2.2)) ∧ (c.sat = true ↔ n < d.2.2.1 ∨ d.2.2.2 < n) ∧ c.nar = false)

/-- `shf` writes to each active thread the source A of the thread that its MODE names in the segment, A as it stood before the word; the
other bits of FUNC must be zero, and with WIDE the operand and the result are pairs (R149). -/
def Obligations.Shuffle : Prop :=
  ∀ k : FR,
    let v := k.view .fr 0x0A0
    let f := v.efunc
    let S := 8 * 2 ^ natBits f 11 2
    (natBit f 13 = true ∨ natBits f 0 10 ≠ 0 → v.encOk (shLane v) = false) ∧
    ((shLane v).a = .w64 false ↔ natBit f 10 = true) ∧
    wordReserves (.shf k) (laneEntry v) v (natBit f 10) false fun w th =>
      let base := th - th % S
      let d := w.b th
      w.a (match natBits f 14 2 with
        | 0 => base + d % S
        | 1 => if base + d ≤ th then th - d else th
        | 2 => if th + d < base + S then th + d else th
        | _ => base + Nat.xor (th - base) (d % S))

/-- `vote`, `redx`, `bcst` and `scan` complete: over the active threads of each segment, in ascending order (R150 to R152). -/
def Obligations.LaneWords : Prop :=
  ∀ k : FR,
    let v := fun opc => k.view .fr opc
    let f := fun opc => (v opc).efunc
    let S := fun opc => 8 * 2 ^ natBits (f opc) 11 2
    let base := fun opc th => th - th % S opc
    let acts := fun opc (w : Iss) th => ((List.range (S opc)).map fun j => base opc th + j).filter w.act
    let later := fun (i : Instr) opc (wide : Bool) (x : Iss → Nat → Nat) => wordReserves i (laneEntry (v opc)) (v opc) wide false x
    later (.vote k) 0x0A1 (natBits (f 0x0A1) 14 2 == 2) (fun w th =>
      match natBits (f 0x0A1) 14 2 with
      | 0 => if ∃ j ∈ acts 0x0A1 w th, w.a j ≠ 0 then 1 else 0
      | 1 => if ∀ j ∈ acts 0x0A1 w th, w.a j ≠ 0 then 1 else 0
      | 2 => (acts 0x0A1 w th).foldl (fun m j => if w.a j ≠ 0 then m + 2 ^ (j % S 0x0A1) else m) 0
      | _ => if ∀ i ∈ acts 0x0A1 w th, ∀ j ∈ acts 0x0A1 w th, w.a i = w.a j then 1 else 0) ∧
    later (.redx k) 0x0A2 false (fun w th =>
      laneFold (natBits (f 0x0A2) 9 2) (natBits (f 0x0A2) 13 3) ((acts 0x0A2 w th).map w.a)) ∧
    later (.bcst k) 0x0A3 false (fun w th =>
      if natBit (f 0x0A3) 15 then w.a ((acts 0x0A3 w th).headD th) else w.a (base 0x0A3 th + w.b th % S 0x0A3)) ∧
    later (.scan k) 0x0A4 false (fun w th =>
      laneFold (natBits (f 0x0A4) 9 2) (natBits (f 0x0A4) 13 3)
        (((acts 0x0A4 w th).filter fun j => if natBit (f 0x0A4) 8 then j < th else j ≤ th).map w.a)) ∧
    ∀ a b c : Nat, laneFold 0 0 [a, b, c] = (a + b + c) % 2 ^ 32

/-! ### Results and frames -/

/-- What a result leaves in each thread of the group (R105 to R108). A non-uniform word with DST 0x00 or 0x10 to 0x2F pushes the queue of
every thread: the value of an active thread, a copy of q0 (and q1) in an inactive one; a named destination and a predicate (bit 0) are
written in active threads only; every other destination leaves the queue. A uniform word never pushes, writes a predicate in every thread
and leaves the named file. -/
def Obligations.ResultRules : Prop :=
  ∀ (g : Group) (v : View) (wide : Bool) (act : Nat → Bool) (x : Nat → Nat) (th : Nat), th < g.width → v.dst ≤ 8 ∨ 0x10 ≤ v.dst →
    let t := g.thread th
    let u := (g.result v wide act x).thread th
    let n := if wide then 2 else 1
    (v.u = false →
      (g.result v wide act x).s = g.s ∧
      (v.dst = 0 ∨ 0x10 ≤ v.dst →
        (∀ i, n ≤ i → i < 16 → u.qi i = t.qi (i - n)) ∧ (u.qi 0 = if act th then BitVec.ofNat 32 (x th) else t.qi 0) ∧
        (wide = true → u.qi 1 = if act th then BitVec.ofNat 32 (x th / 2 ^ 32) else t.qi 1)) ∧
      (¬ (v.dst = 0 ∨ 0x10 ≤ v.dst) → u.q = t.q) ∧
      (0x10 ≤ v.dst → v.dst + n ≤ 0x30 →
        (u.ni (v.dst - 0x10) = if act th then BitVec.ofNat 32 (x th) else t.ni (v.dst - 0x10)) ∧
        (wide = true → u.ni (v.dst - 0x0F) = if act th then BitVec.ofNat 32 (x th / 2 ^ 32) else t.ni (v.dst - 0x0F))) ∧
      (1 ≤ v.dst → v.dst ≤ 7 → u.ki v.dst = if act th then x th % 2 == 1 else t.ki v.dst)) ∧
    (v.u = true →
      u.q = t.q ∧ u.n = t.n ∧ (1 ≤ v.dst → v.dst ≤ 7 → u.ki v.dst = (x 0 % 2 == 1)) ∧
      (0x30 ≤ v.dst → v.dst + n ≤ 0x40 → (g.result v wide act x).si (v.dst - 0x30) = BitVec.ofNat 32 (x 0) ∧
        (wide = true → (g.result v wide act x).si (v.dst - 0x2F) = BitVec.ofNat 32 (x 0 / 2 ^ 32)))) ∧
    t.sameBut u v.dst wide ∧ u.sr = t.sr ∧ u.h = t.h

/-- The frame of the arithmetic words, opcodes 0x000 to 0x0A4 (R105 to R110): only the issuing group, the counters of its team and which
group is issuing change; memory is as before; of the group, beside its queue, latches, reservations and position, only the destination
changes; the stochastic state changes under the two conversions that round with it alone (R91, R140, R146). -/
def Obligations.RegisterFrame : Prop :=
  ∀ (i : Instr) (v : View) (s t : State) (w : Iss) (g' : Group), i.view = some v → v.opc ≤ 0x0A4 →
    let e : Entry := if 0x0A0 ≤ v.opc then laneEntry v else { sh := i.shape v }
    let g := (w.ready e).g
    let wide := Shape.isWide (i.shape v)
    s.issues e v w → exec i s = .next t → t.grp? w.id = some g' →
    onlyGroup s t w.id ∧ (∀ a, t.mem.get a = s.mem.get a) ∧ g'.besides = g.besides ∧
    (∀ th, th < g.width → (g.thread th).sameBut (g'.thread th) v.dst wide ∧
      (v.opc ≠ 0x080 → v.opc ≠ 0x084 → (g'.thread th).sr = (g.thread th).sr) ∧
      (v.u = true → (g'.thread th).q = (g.thread th).q ∧ (g'.thread th).n = (g.thread th).n)) ∧
    ∀ k, k < 32 → (v.u = true → 0x30 + k ≠ v.dst ∧ (wide = true → 0x30 + k ≠ v.dst + 1)) → g'.si k = g.si k

/-- The memory frame of the words that store nothing: when such a word completes, every byte of memory reads as before; when it faults
instead, memory changes by the record of that fault alone (R114, R367). -/
def Obligations.MemoryFrame : Prop :=
  ∀ (i : Instr) (v : View) (s t : State), i.view = some v → storesNothing v.opc = true → exec i s = .next t →
    (∀ a, t.mem.get a = s.mem.get a) ∨ ∃ (u : State) (w : Iss) (x : Exc), u.mem = s.mem ∧ t = u.wordFault w x

/-! ### Control -/

/-- `br` steers the group by its active threads T (R163): none of them falls through to the next clause; with all of MASK the group goes to
the target; otherwise the others wait in a PENDING entry at the next clause and T goes to the target, and with the stack at 16 entries the
word faults DIVERGE_OVERFLOW with address and detail 0 and changes nothing. An unpredicated `br` never diverges. -/
def Obligations.Branch : Prop :=
  ∀ k : FB,
    let v := k.view 0x100
    let e : Entry := { sh := shBranch v }
    let target := fun (w : Iss) => w.g.pc + BitVec.ofInt 64 (8 * k.ofs.toInt)
    wordEnds (.br k) e v (fun w => w.mask = 0#64) (fun _ g => g) ∧
    wordEnds (.br k) e v (fun w => w.mask ≠ 0#64 ∧ w.g.mask &&& ~~~ w.mask = 0#64) (fun w g => { g with pc := target w }) ∧
    wordEnds (.br k) e v (fun w => w.mask ≠ 0#64 ∧ w.g.mask &&& ~~~ w.mask ≠ 0#64 ∧ w.g.stk.length < 16)
      (fun w g => { g with stk := ⟨w.g.nextClause, w.g.mask &&& ~~~ w.mask, 0#16, .pending⟩ :: g.stk, mask := w.mask, pc := target w }) ∧
    wordFaults (.br k) e v (fun w _ => w.mask ≠ 0#64 ∧ w.g.mask &&& ~~~ w.mask ≠ 0#64 ∧ 16 ≤ w.g.stk.length) (fun _ => { code := 0x0007 }) ∧
    (k.h.pred = 0#3 → k.h.pneg = false → ∀ g : Group, g.width ≤ 64 → (∀ i, g.width ≤ i → g.mask.getLsbD i = false) →
      g.mask &&& ~~~ g.actMask v = 0#64)

/-- `call` goes to its target with the active threads of the group, the whole of MASK waiting in a CALL entry at the next clause; with no
active thread it falls through, and with the stack at 16 entries it faults DIVERGE_OVERFLOW with detail 0 (R167). `join` and `ret` resume
from the stack; with an empty stack they fault DIVERGE_OVERFLOW with detail 1, and with detail 2 where the top entry is of the other's kind:
CALL or TARGET for `join`, RECONV or PENDING for `ret` (R165, R167). Resuming from the stack takes the first entry whose mask holds a live
thread: MASK becomes its live threads, the group stands at its header, and a TARGET entry brings the landing check with its label; the
entries before it are discarded, whatever their kind (R161). With no such entry the stack is empty afterwards and nothing else changes. -/
def Obligations.SubroutineWords : Prop :=
  (∀ k : FB,
     let v := k.view 0x103
     let e : Entry := { sh := shBranch v }
     wordEnds (.call k) e v (fun w => w.mask = 0#64) (fun _ g => g) ∧
     wordEnds (.call k) e v (fun w => w.mask ≠ 0#64 ∧ w.g.stk.length < 16) (fun w g =>
       { g with stk := ⟨w.g.nextClause, w.g.mask, 0#16, .call⟩ :: g.stk, mask := w.mask, pc := w.g.pc + BitVec.ofInt 64 (8 * k.ofs.toInt) }) ∧
     wordFaults (.call k) e v (fun w _ => w.mask ≠ 0#64 ∧ 16 ≤ w.g.stk.length) (fun _ => { code := 0x0007 })) ∧
  (∀ k : FR,
     let e := fun opc => ({ sh := shRet (k.view .fr opc) } : Entry)
     let top := fun (w : Iss) (p : StkKind → Bool) => w.g.stk.head?.any fun x => p x.kind
     let sub := fun (x : StkKind) => decide (x = .call) || decide (x = .target)
     wordEnds (.join k) (e 0x108) (k.view .fr 0x108) (fun w => top w fun x => !sub x) (fun _ g => g.resume) ∧
     wordFaults (.join k) (e 0x108) (k.view .fr 0x108) (fun w _ => w.g.stk = []) (fun _ => { code := 0x0007, detail := 1 }) ∧
     wordFaults (.join k) (e 0x108) (k.view .fr 0x108) (fun w _ => top w sub) (fun _ => { code := 0x0007, detail := 2 }) ∧
     wordEnds (.ret k) (e 0x105) (k.view .fr 0x105) (fun w => top w sub) (fun _ g => g.resume) ∧
     wordFaults (.ret k) (e 0x105) (k.view .fr 0x105) (fun w _ => w.g.stk = []) (fun _ => { code := 0x0007, detail := 1 }) ∧
     wordFaults (.ret k) (e 0x105) (k.view .fr 0x105) (fun w _ => top w fun x => !sub x) (fun _ => { code := 0x0007, detail := 2 })) ∧
  (∀ (g : Group) (dead : List StkEnt), (∀ x ∈ dead, x.mask &&& g.live = 0#64) →
     (g.stk = dead → g.resume = { g with stk := [] }) ∧
     ∀ (e : StkEnt) (rest : List StkEnt), g.stk = dead ++ e :: rest → e.mask &&& g.live ≠ 0#64 →
       g.resume = { g with stk := rest, mask := e.mask &&& g.live, pc := e.pc, land := if e.kind = .target then some (e.label, true) else none })

/-- `nop` and `land` change nothing but the position of the group, and `nop` is admitted in every clause class (R169, R173). `split` pushes
a RECONV entry at its target with the whole of MASK and the clause continues; with DEPTH = 16 it faults DIVERGE_OVERFLOW with detail 0 and
pushes nothing (R164). `loop` counts its uniform register down, as a 32-bit number: at 0 it falls through and the register stays 0; else the
register drops by 1 and the group goes to the target unless the register is now 0; MASK is unchanged (R166). -/
def Obligations.StraightControl : Prop :=
  (∀ k : FS, wordActs (.nop k) { sh := shNop (k.view 0x10D) } (k.view 0x10D) (fun _ g => g) ∧
     wordActs (.land k) { sh := shLand (k.view 0x102) } (k.view 0x102) (fun _ g => g) ∧ ∀ cls, cls < 6 → clsAdmits cls 0x10D = true) ∧
  (∀ k : FB,
     let v := k.view 0x107
     let e : Entry := { sh := shBranch v }
     wordDoes (.split k) e v (fun w _ => w.g.stk.length < 16) (fun w s => s.updGrp w.id fun g =>
       { g with stk := ⟨w.g.pc + BitVec.ofInt 64 (8 * k.ofs.toInt), w.g.mask, 0#16, .reconv⟩ :: g.stk }) ∧
     wordFaults (.split k) e v (fun w _ => 16 ≤ w.g.stk.length) (fun _ => { code := 0x0007 })) ∧
  (∀ k : FB,
     let v := k.view 0x10E
     let n := k.h.dst.toNat - 0x30
     let e : Entry := { sh := shLoop v, touch := fun _ => [(k.h.dst.toNat, false)] }
     let target := fun (w : Iss) => w.g.pc + BitVec.ofInt 64 (8 * k.ofs.toInt)
     wordEnds (.loop k) e v (fun w => w.g.si n = 0#32) (fun _ g => g) ∧
     wordEnds (.loop k) e v (fun w => w.g.si n = 1#32) (fun _ g => { g with s := g.s.setIfInBounds n 0#32 }) ∧
     wordEnds (.loop k) e v (fun w => w.g.si n ≠ 0#32 ∧ w.g.si n ≠ 1#32)
       (fun w g => { g with s := g.s.setIfInBounds n (w.g.si n - 1#32), pc := target w }))

/-- `jt` goes to the entry of its table that its uniform index names, with the landing check of the table's label before the next clause; an
index that is no entry faults JT_RANGE with the index as detail. `callt` partitions its active threads by their index: with no active thread
it falls through; when every index is in the table and the stack has room, one thread set after another goes to its target, in ascending
index, from TARGET entries over one CALL entry (R170 to R173). -/
def Obligations.TableWords : Prop :=
  ∀ k : FR,
    let tab := fun opc => natBits (k.view .fr opc).efunc 0 8
    let ejt : Entry := { sh := shTable (k.view .fr 0x101), vas := tableVas, more := tableMore (tab 0x101) fun i => [i.ua] }
    let ect : Entry := { sh := shTable (k.view .fr 0x104), vas := tableVas, more := tableMore (tab 0x104) Iss.indices }
    (∀ (s : State) (w : Iss) (t : JTab) (pc : W64), s.issues ejt (k.view .fr 0x101) w →
      readTable s (w.ready ejt) (tab 0x101) = .ok t → (w.ready ejt).ua < t.len →
      tableTarget s (w.ready ejt) t (w.ready ejt).ua = .ok pc →
      exec (.jt k) s = .next (s.didEnd ejt w fun g => { g with pc := pc, land := some (t.label, false) })) ∧
    (∀ (s : State) (w : Iss) (t : JTab), s.issues ejt (k.view .fr 0x101) w →
      readTable s (w.ready ejt) (tab 0x101) = .ok t → t.len ≤ (w.ready ejt).ua →
      exec (.jt k) s = .next ((s.arrived ejt w).wordFault w
        { code := 0x0008, addr := w.t.kd.jtab.toNat, detail := (w.ready ejt).ua })) ∧
    (∀ (s : State) (w : Iss) (t : JTab), s.issues ect (k.view .fr 0x104) w →
      readTable s (w.ready ect) (tab 0x104) = .ok t → (w.ready ect).g.actives (k.view .fr 0x104) = [] →
      exec (.callt k) s = .next (s.didEnd ect w id)) ∧
    ∀ (s : State) (w : Iss) (t : JTab) (d : Nat) (ds : List Nat) (f : Nat → W64), s.issues ect (k.view .fr 0x104) w →
      readTable s (w.ready ect) (tab 0x104) = .ok t → (d :: ds).Pairwise (· < ·) → (∀ x ∈ d :: ds, x < t.len) →
      (∀ x, x ∈ d :: ds ↔ ∃ th ∈ (w.ready ect).g.actives (k.view .fr 0x104), (w.ready ect).a th = x) →
      (∀ x ∈ d :: ds, tableTarget s (w.ready ect) t x = .ok (f x)) → w.g.stk.length + ds.length < 16 →
      let sel := fun x => idxMask (w.ready ect) ((w.ready ect).g.actives (k.view .fr 0x104)) fun y => y == x
      exec (.callt k) s = .next (s.didEnd ect w fun g =>
        { g with stk := ds.map (fun x => ⟨f x, sel x, t.label, .target⟩) ++ ⟨w.g.nextClause, w.g.mask, 0#16, .call⟩ :: g.stk, mask := sel d, pc := f d,
                 land := some (t.label, true) })

/-- `exit` takes the active threads out of LIVE and MASK: with none it falls through; with live threads left in MASK they continue at the
next clause; with live threads but none in MASK the group resumes from the stack; with no live thread the group has exited, its reservations
are filled and discarded, and it leaves its AUTODROP barriers and its team's arrivals (R168, R43). `phase` and `succ` arrive at the end of
their phase: the group waits at the clause boundary as the last to arrive, and the arrival of the team is judged; `succ` first reads and
checks its descriptor and map, and a fault there is the word's own (R43, R49, R50). -/
def Obligations.LeavingWords : Prop :=
  (∀ k : FS,
     let v := k.view 0x106
     let e : Entry := { sh := shExit v }
     let live := fun (w : Iss) => w.g.live &&& ~~~ w.mask
     let mask := fun (w : Iss) => w.g.mask &&& ~~~ w.mask
     wordEnds (.exit k) e v (fun w => w.mask = 0#64) (fun _ g => g) ∧
     (∀ s w, s.issues e v w → (w.ready e).mask ≠ 0#64 → live (w.ready e) ≠ 0#64 → mask (w.ready e) ≠ 0#64 →
       exec (.exit k) s = .next (s.didEnd e w fun g => { g with live := live (w.ready e), mask := mask (w.ready e) })) ∧
     (∀ s w, s.issues e v w → (w.ready e).mask ≠ 0#64 → live (w.ready e) ≠ 0#64 → mask (w.ready e) = 0#64 →
       exec (.exit k) s = .next (s.didEnd e w fun g => ({ g with live := live (w.ready e), mask := 0#64 } : Group).resume)) ∧
     (∀ s w, s.issues e v w → (w.ready e).mask ≠ 0#64 → live (w.ready e) = 0#64 →
       exec (.exit k) s = .next ((s.didEnd e w fun g =>
         { ({ g with live := 0#64, mask := mask (w.ready e) } : Group).deliver (fun _ => true) with resv := [], monitor := none }).groupExit
           w.id))) ∧
  ((∀ k : FS, wordDoes (.phase k) { sh := shPhase (k.view 0x109) } (k.view 0x109) (fun _ _ => True) fun w s =>
     (((s.endWait w .phase).updTeam w.id.1 fun t => { t with last := w.id.2 }).arrive w.id.1)) ∧
   ∀ k : FR,
     let v := k.view .fr 0x10A
     let e : Entry := { sh := shSucc v, vas := fun w => w.ua :: if v.b = 0x53 then [] else [w.ub] }
     let inh := fun (w : Iss) => if v.b = 0x53 then 2 ^ 64 else w.ub
     wordDoes (.succ k) e v (fun w s => ∃ p, s.succRead w.c w.own w.ua (inh w) = .ok p) (fun w s =>
       (((s.endWait w (.succ w.ua (inh w))).updTeam w.id.1 fun t => { t with last := w.id.2 }).arrive w.id.1)) ∧
     ∀ s w x, s.issues e v w → (s.moved e w).succRead w.c (w.ready e).own (w.ready e).ua (inh (w.ready e)) = .error x →
       exec (.succ k) s = .next ((s.arrived e w).wordFault w x))

/-- `trap` and `brk`: with no active thread, and for `brk` with DBG.BRKEN clear, they fall through to the next clause; otherwise the word is
complete and raises TRAP or BREAKPOINT at the word, with detail SEL and the active threads as LANES, or none for a uniform word, and the
group resumes at the next clause (R386). -/
def Obligations.TrapWords : Prop :=
  ∀ k : FS,
    let e := fun opc => ({ sh := shTrap (k.view opc) } : Entry)
    let idle := fun (w : Iss) => k.h.u = false ∧ w.mask = 0#64
    let x := fun (code : Nat) (w : Iss) => ({ code := code, detail := k.sel.toNat, lanes := if k.h.u then 0#64 else w.mask } : Exc)
    wordEnds (.trap k) (e 0x10B) (k.view 0x10B) idle (fun _ g => g) ∧
    wordDoes (.trap k) (e 0x10B) (k.view 0x10B) (fun w _ => ¬ idle w)
      (fun w s => s.takeFault w.id (x 0x000E w) w.g.wordPc w.g.nextClause 0 false) ∧
    wordEnds (.brk k) (e 0x10C) (k.view 0x10C) (fun w => idle w ∨ w.c.dbg.getLsbD 0 = false) (fun _ g => g) ∧
    wordDoes (.brk k) (e 0x10C) (k.view 0x10C) (fun w _ => ¬ idle w ∧ w.c.dbg.getLsbD 0 = true)
      (fun w s => s.takeFault w.id (x 0x000F w) w.g.wordPc w.g.nextClause 0 false)

/-! ### Memory words -/

/-- `ld` and `lds` whose threads pass the checks of R234 complete: the addresses are those of R232, an acquire invalidates first, the reads
are made in ascending order of the threads, and the destination is reserved (R109, R237, R238); a failing check faults at the word. `st` and
`sts` whose threads pass the checks of R234 complete: each active thread writes the low bytes of B at its address, in ascending order of the
threads, and counts as unacknowledged, and a release store is performed behind every earlier one (R239, R240, R257); `zln` writes its NL + 1
lines of zeros from each active thread's address, and every line counts, those at a host or a peer as stores in flight (R235, R243). A word
whose pages need walks stalls, has no effect, and enters those walks in the miss table of its cluster (R221); one whose pages are being
committed or moved stalls and starts none (R219, R231). That a word which is to fault stalls first for those of its walks that find a leaf
is the model's reading (log entry 93). -/
def Obligations.LoadAndStoreWords : Prop :=
  (∀ (k : FM) (i : Instr) (opc : Nat) (ls : Bool), (i, opc, ls) ∈ [(Instr.ld k, 0x140, false), (Instr.lds k, 0x142, true)] →
     let v := k.view opc
     let e : Entry := { sh := shLoad v, vas := fun w => w.memVas ls }
     let os := k.b.toNat % 16
     let ty := k.b.toNat / 16
     let n := ldSize ty
     ∀ (s : State) (w : Iss), s.issues e v w →
       let m := s.moved e w
       let r := w.ready e
       let addr := fun th => wrapInt (if ls then 32 else 64) ((r.a th : Int) + k.ofs.toInt)
       let check := checkThreads (r.g.actives v) fun th => m.checkAddr r ls (addr th) n n .read
       (∀ x, check = .error x → exec i s = .next ((s.arrived e w).wordFault w x)) ∧
       ∀ ts, check = .ok ts →
         let p := m.lsPass r ls n
         let q := State.readMany r addr n (os = 0 ∨ osScope os < 2) (if 9 ≤ os then p.acquire r.t r.core (osScope os) else p) ts
         exec i s = .next (q.1.updGrp w.id fun g =>
           (g.later v (ty == 5) true (hasVal q.2.1) (maskOf (q.2.1.map Prod.fst)) fun th => ldExtend ty (valOf q.2.1 th)).deferAll r addr q.2.2)) ∧
  ((∀ (k : FM) (i : Instr) (opc : Nat) (ls : Bool), (i, opc, ls) ∈ [(Instr.st k, 0x141, false), (Instr.sts k, 0x143, true)] →
     let v := k.view opc
     let e : Entry := { sh := shStore v, vas := fun w => w.memVas ls }
     let n := 2 ^ natBits v.dst 4 2
     let rel := 9 ≤ natBits v.dst 0 4
     ∀ (s : State) (w : Iss), s.issues e v w →
       let m := s.moved e w
       let r := w.ready e
       let addr := fun th => wrapInt (if ls then 32 else 64) ((r.a th : Int) + k.ofs.toInt)
       let check := checkThreads (r.g.actives v) fun th => m.checkAddr r ls (addr th) n n .write
       (∀ x, check = .error x → exec i s = .next ((s.arrived e w).wordFault w x)) ∧
       ∀ ts, check = .ok ts →
         let ps := threadPuts addr (fun th => leBytes n (r.b th)) ts
         exec i s = .next ((State.writePuts r (if ls then m.lsPass r ls n else m.clearWhole ts n) ps).updGrp w.id fun g =>
           { g with pendingStores := g.pendingStores + ts.length, late := (if rel then [] else g.late) ++ m.lates r ps })) ∧
   (∀ k : FM,
     let v := k.view 0x151
     let line := fun (w : Iss) th j => (w.memAddr false th + 128 * j) % 2 ^ 64
     let lines := List.range (natBits v.b 0 5 + 1)
     let e : Entry := { sh := shZln v, vas := fun w => (w.g.actives v).flatMap fun th => lines.map (line w th) }
     ∀ (s : State) (w : Iss) (ts : List (Nat × List (Nat × Target))), s.issues e v w →
       let m := s.moved e w
       let r := w.ready e
       (checkThreads (r.g.actives v) fun th =>
         if r.memAddr false th % 128 ≠ 0 then .error { code := 0x0012, addr := r.memAddr false th }
         else (lines.mapM fun j => (m.translate r.c r.own (line r th j) 128 .write false).map fun t => (line r th j, t)).mapError fun x =>
           if x.code = cPacked then x else { x with addr := r.memAddr false th }) = .ok ts →
       let ps := ts.flatMap fun p => p.2.map fun t => { th := some p.1, va := t.1, tg := t.2, bs := List.replicate 128 0#8 : Put }
       exec (.zln k) s = .next ((State.writePuts r m ps).updGrp w.id fun g =>
         { g with pendingStores := g.pendingStores + ps.length, late := g.late ++ (m.lates r ps).filter Late.far })) ∧
   ∀ (e : Entry) (v : View) (s u : State) (w : Iss) (eff : Iss → State → Except Exc State), s.iss? v e.sh = some w → issueChecks e w = .ok () →
     let r := w.ready e
     let held := (s.needs e w).any (s.frozenVa w.c.num)
     let pages := s.walkPages w.c w.core (s.needs e w)
     (held = true → runWord e v s eff = .next ((s.arrived e w).freezeStall r)) ∧
     (held = false → eff r (s.moved e w) = .ok u → pages ≠ [] → runWord e v s eff = .next ((s.arrived e w).walkStall r pages)) ∧
     (∀ x, held = false → eff r (s.moved e w) = .error x → s.leafWalks w.c w.core x pages ≠ [] →
       runWord e v s eff = .next ((s.arrived e w).walkStall r (s.leafWalks w.c w.core x pages))) ∧
     ∃ t, runWord e v s eff = .next t)

/-- The reads of a word, with an L1 that agrees with memory and no poisoned line and no memory error in the way, give each thread the
little-endian number in the bytes at its target, and change no byte of memory, no group and no context (R237, R238). -/
def Obligations.LoadValues : Prop :=
  ∀ (s : State) (w : Iss) (addr : Nat → Nat) (n : Nat) (cache : Bool) (ts : List (Nat × Target)), s.l1Agrees →
    (∀ p ∈ ts, s.lineEvent p.2 n = none) → (∀ p ∈ ts, ∀ pa a b, p.2 = .phys pa a b → pa % 128 + n ≤ 128) →
    let q := State.readMany w addr n cache s ts
    q.2.1 = ts.map (fun p => (p.1, leNat (s.readTarget p.2 n))) ∧ q.2.2 = [] ∧ q.1.mem = s.mem ∧ (∀ k, q.1.grp? k = s.grp? k) ∧ q.1.ctxs = s.ctxs

/-- The stores of a word write each covered byte with the byte of the highest-index thread that covers it, and leave every other byte of
memory as it was (R239, R256); the address stored to is the target that the checks of the word gave. -/
def Obligations.StoreBytes : Prop :=
  ∀ (s : State) (w : Iss) (addr : Nat → Nat) (n : Nat) (ts : List (Nat × Target)) (x : Nat → Nat), s.memOk →
    let u := State.writePuts w s (threadPuts addr (fun th => leBytes n (x th)) ts)
    (∀ a, (∀ p ∈ ts, ¬ p.2.covers n a) → u.mem.get a = s.mem.get a) ∧
    ((∀ p ∈ ts, s.lineEvent p.2 n = none) → ∀ (pre post : List (Nat × Target)) (th pa : Nat) (pk cm : Bool) (j : Nat),
      ts = pre ++ (th, .phys pa pk cm) :: post → j < n → (∀ p ∈ post, ¬ p.2.covers n (pa + j)) →
      u.mem.get (pa + j) = BitVec.ofNat 8 (x th / 256 ^ j)) ∧
    u.memOk ∧ u.ctxs = s.ctxs

/-- `uld` completes: one read for the group, whose value is reserved for s(N) or s(16 + N) and never pushed (R236, R237); `lqry` completes
with the state of each active thread's line, the group stalled until it arrives (R251); `pfx` completes whatever its addresses are, and
changes no byte of memory (R242). `ldt` that passes its checks completes: each active thread's rows are read from its tile in the team's LS,
with padding where the geometry says so, and wait in reservations of the registers from D (R208, R209). -/
def Obligations.OtherLoads : Prop :=
  ((∀ k : FM,
     let v := k.view 0x145
     let wide := natBits v.b 4 2 == 1
     let os := natBits v.b 0 4
     let reg := v.dst - 0x30 + (if natBit v.b 6 then 16 else 0)
     let e : Entry := { sh := shUld v, touch := fun _ => [(0x30 + reg, wide)], vas := fun w => [w.memAddr false 0] }
     let n := if wide then 8 else 4
     ∀ (s : State) (w : Iss) (t : Target) (x : Nat), s.issues e v w →
       let m := s.moved e w
       let r := w.ready e
       m.checkAddr r false (r.memAddr false 0) n n .read = .ok t →
       let q := (if 9 ≤ os then m.acquire r.t r.core (osScope os) else m).readOne r (r.memAddr false 0) t n (osCached os)
       q.1 = .ok x →
       exec (.uld k) s = .next (q.2.updGrp w.id fun g =>
         g.reserve { qi := none, wide := wide, named := [], uni := some reg, uniN := if wide then 2 else 1, mask := 0#64,
                     vals := [BitVec.ofNat 64 x], rem := v.look, arrived := false, load := true })) ∧
   (∀ (k : FM) (s : State) (w : Iss) (ts : List (Nat × Nat × Bool)),
     let v := k.view 0x152
     let e : Entry := { sh := shLqry v, vas := fun w => w.memVas false }
     s.issues e v w →
     let m := s.moved e w
     let r := w.ready e
     ts.map Prod.fst = r.g.actives v →
     (∀ p ∈ ts, ∃ c, m.translate r.c r.own (r.memAddr false p.1) 1 .read false = .ok (.phys p.2.1 c p.2.2) ∧ (regionOf m.pkg.hbmsplit p.2.1).hbm = true) →
     let q := State.readMany r (r.memAddr false) 1 false m (ts.map fun p => (p.1, .phys p.2.1 false p.2.2))
     exec (.lqry k) s = .next ((q.1.updGrp w.id fun g => (g.writeAll v.dst false (hasVal q.2.1)
       (valOf (ts.map fun p => (p.1, lqryVal (lateView m.freeN m.mem r.g.late (p.2.1 / 128 * 128) 128) p.2.2)))).deferAll r (r.memAddr false) q.2.2).stall r)) ∧
   ∀ (k : FM) (s : State) (w : Iss), s.issues { sh := shPfx (k.view 0x146) } (k.view 0x146) w →
     let m := s.moved { sh := shPfx (k.view 0x146) } w
     ∃ t, exec (.pfx k) s = .next t ∧ t.mem = s.mem ∧ (∀ j, t.grp? j = m.grp? j) ∧ t.ctxs = s.ctxs ∧
       (natBits (k.view 0x146).b 5 2 ≠ 0 → t.l1 = s.l1)) ∧
  (∀ k : FM,
     let v := k.view 0x144
     let e : Entry := {
       sh := shLdt v
       cls := fun w => if w.t.kd.named < v.dst - 0x10 + 4 + ldtBytes w then some { code := 0x0006 } else none
       touch := fun w => (ldtRegs v.dst (ldtBytes w)).map fun n => (0x10 + n, false)
       tiles := fun w => (descOf (w.ua % 2 ^ 32)).tiles }
     ∀ (s : State) (w : Iss) (t : Tile), s.issues e v w →
       let r := w.ready e
       let d := descOf (r.ua % 2 ^ 32)
       let g := geoOf (r.ua / 2 ^ 32)
       let bits := fmtBits d.fmt
       let b := max 1 (bits / 8)
       ldtCheck r d g b = .ok t →
       let elem := fun th row j => if g.pad (th / 8) (2 * (th % 8) + row) j then g.padVal (natBit v.b 6) b
         else leNat ((s.moved e w).ownLs r (t.base + (ldtSwz d.layout (ldtOfs d g v.imm b (th / 8) (2 * (th % 8) + row) j)).toNat) b)
       let word := fun th row p => (List.range 4).foldl (fun acc j =>
         if j * bits / 32 = p then acc + elem th row j * 2 ^ (j * bits % 32) else acc) 0
       exec (.ldt k) s = .next (s.didReg e w fun gr =>
         let g1 := gr.writeAll 0 false (fun _ => false) fun _ => 0
         if r.mask = 0#64 then g1
         else (ldtRegs v.dst b).foldl (fun gg n =>
           let j := n - (v.dst - 0x10)
           gg.reserve { qi := if j = 0 then some 0 else none, wide := false, named := [n], uni := none, uniN := 0, mask := r.mask,
                        vals := gg.ths.map fun th => if r.act th then BitVec.ofNat 64 (word th (j / 4) (j % 4)) else 0#64,
                        rem := v.look, arrived := false, load := true }) g1))

/-- `atom`, `red` and `cas` complete: with the operands at the width of TY, the operations are performed in ascending order of the threads
at the targets that the checks give; the old values are reserved for a returning word, and the others count as unacknowledged, those at a host
or a peer as stores in flight (R235). `atomv` and `redv` do the same on the 32 bytes of nB to nB + 7, and a register of which an element met an
event keeps its bytes there (R245, R247, R248, R256; log entry 80). That a soft cap at a slice, which holds the tenant's elements (R347), leaves
the elements before the first that it refuses done, and that the word goes on from there when it is tried again, is the model's reading (log
entry 50). -/
def Obligations.AtomicWords : Prop :=
  (∀ (k : FR) (i : Instr) (opc : Nat), (i, opc) ∈ [(Instr.atom k, 0x147), (Instr.red k, 0x148), (Instr.cas k, 0x149)] →
    let v := k.view .fr opc
    let e : Entry := { sh := shAtom v, vas := atomVas }
    let bits := atomBits (atTy v)
    let n := bits / 8
    ∀ (s : State) (w : Iss) (ts : List (Nat × Target)), s.issues e v w →
      let m := s.moved e w
      let r := w.ready e
      (∀ x, atomCheck r m n = .error x → exec i s = .next ((s.arrived e w).wordFault w x)) ∧
      (atomCheck r m n = .ok ts →
        let op := fun th (_ : Nat) (old : List Byte) =>
          if opc = 0x149 then (if leNat old = r.b th % 2 ^ bits then some (leBytes n (r.cc th)) else none)
          else some (leBytes n (atomOp (atOp v) (atTy v) (leNat old) (r.b th % 2 ^ bits)))
        let q := atomRun r m n n ts op
        let far := fun done => m.farLate r n op done (atomElems r n n ts)
        let done := w.g.part ++ q.2.1
        let vals := (atomOld n n done (ts.map Prod.fst)).map fun p => (p.1, leNat p.2)
        (q.2.2 ≠ [] → exec i s = .next ((q.1.retry r).updGrp w.id fun g => { g with part := done })) ∧
        (q.2.2 = [] → exec i s = .next (q.1.updGrp w.id fun g =>
          let g1 := if 2 ≤ atOrd v then g.perform else g
          { (if opc ≠ 0x148 ∧ v.dst ≠ 8 then
               (g1.later v (bits == 64) true (hasVal vals) (maskOf (vals.map Prod.fst)) (valOf vals)).markAtom g1.resv.length
             else { g1 with pendingStores := g1.pendingStores + vals.length, late := g1.late ++ far done }).deferEvs r (atomEvs r n done) with
             part := [] })))) ∧
  ∀ (k : FR) (i : Instr) (opc : Nat), (i, opc) ∈ [(Instr.atomv k, 0x14A), (Instr.redv k, 0x14B)] →
    let v := k.view .fr opc
    let n := atomBits (atTy v) / 8
    let e : Entry := { sh := shAtom v, cls := vecCls, touch := fun _ => vecTouch v, vas := atomVas }
    ∀ (s : State) (w : Iss) (ts : List (Nat × Target)), s.issues e v w →
      let m := s.moved e w
      let r := w.ready e
      (∀ x, atomCheck r m 32 = .error x → exec i s = .next ((s.arrived e w).wordFault w x)) ∧
      (atomCheck r m 32 = .ok ts →
        let arg := fun th => (List.range 8).flatMap fun j => leBytes 4 ((r.g.thread th).ni (v.b - 0x10 + j)).toNat
        let q := atomRun r m 32 n ts fun th j old =>
          some (leBytes n (atomOp (atOp v) (atTy v) (leNat old) (leNat (((arg th).drop (n * j)).take n))))
        let done := w.g.part ++ q.2.1
        let acked := (ts.map Prod.fst).filter fun th => done.any fun d => d.th == th && d.ev.isNone
        (q.2.2 ≠ [] → exec i s = .next ((q.1.retry r).updGrp w.id fun g => { g with part := done })) ∧
        (q.2.2 = [] → exec i s = .next (q.1.updGrp w.id fun g =>
          let g1 := if 2 ≤ atOrd v then g.perform else g
          { (if opc = 0x14A ∧ v.dst ≠ 8 then g1.reserveVec v fun th j => vecWord n done ((g1.thread th).ni (v.dst - 0x10 + j)) th j
             else { g1 with pendingStores := g1.pendingStores + acked.length }).deferEvs r (atomEvs r n done) with part := [] })))

/-- The integer operations of atomics at the width w of TY: addition modulo 2^w, minimum and maximum by the signedness of TY, the bitwise
operations, and exchange (R246). An atomic operation of one thread at a physical target with no memory event and no cap in the way
answers the old bytes, writes what the operation gives, nothing where a comparison fails, and leaves every other byte of memory as it was
(R247). -/
def Obligations.AtomicOperations : Prop :=
  (∀ ty, ty < 4 → ∀ x y : BitVec (atomBits ty),
     let op := fun n => BitVec.ofNat (atomBits ty) (atomOp n ty x.toNat y.toNat)
     let le : Bool := if ty % 2 = 0 then x.sle y else x.ule y
     (∀ n, atomOp n ty x.toNat y.toNat < 2 ^ atomBits ty) ∧ op 0 = x + y ∧ op 1 = (if le then x else y) ∧ op 2 = (if le then y else x) ∧
     op 3 = x &&& y ∧ op 4 = x ||| y ∧ op 5 = x ^^^ y ∧ op 6 = y) ∧
  (∀ (s : State) (w : Iss) (va pa n : Nat) (pk cm : Bool) (f : List Byte → Option (List Byte)), s.memOk →
     let t : Target := .phys pa pk cm
     let q := s.atomOne w va t n f
     s.lineEvent t n = none → (s.sliceCharge w t).1 = .ok → (∀ o bs, f o = some bs → bs.length = n) →
     q.1 = some (.ok (s.mem.bytes pa n)) ∧
     (∀ bs, f (s.mem.bytes pa n) = some bs → q.2.mem.bytes pa n = bs) ∧
     (f (s.mem.bytes pa n) = none → q.2.mem = s.mem) ∧
     ∀ a, a < pa ∨ pa + n ≤ a → q.2.mem.get a = s.mem.get a)

/-- `fence` and `fencer` complete: the accesses of the model stand in one global order (log entry 4), so what is left is that a release
performs the stores in flight before it and an acquire invalidates L1 lines, for `fencer` those that its range meets (R264 to R268); no byte
of memory changes. An acquire of `fencer` leaves no line in its reach that would serve an access of the context to an address in the range.
`marm` disarms the group's monitor and arms it on the watched address; with a counter it tries again where the slice has no room, and else
decrements at once where the word already holds the expected value, or takes a counted entry; `mwait` and `wuc` wait at the boundary that
follows (R330 to R334). -/
def Obligations.OrderingWords : Prop :=
  ((∀ k : FS,
     let v := k.view 0x14C
     wordDoes (.fence k) { sh := shFence v } v (fun _ _ => True) fun w s =>
       let u := if natBits v.func 4 2 ≠ 1 then s.updGrp w.id fun g => { g with late := [] } else s
       if natBits v.func 4 2 < 2 then u.acquire w.t w.core (natBits v.func 6 3) else u) ∧
   (∀ k : FR,
     let v := k.view .fr 0x14D
     wordDoes (.fencer k) { sh := shFencer v } v (fun _ _ => True) fun w s =>
       if natBit v.efunc 3 then s
       else
         let u := if natBits v.efunc 4 2 ≠ 1 then s.updGrp w.id fun g =>
           { g with late := g.late.filter fun l => !spanMeets l.va l.old.length w.ua w.ub } else s
         if natBits v.efunc 4 2 < 2 then u.acquireRange w.t w.core (natBits v.efunc 6 3) w.ua w.ub else u) ∧
   (∀ (s : State) (t : Team) (core sc : Nat),
     (s.acquire t core sc).mem = s.mem ∧ (∀ l, l ∈ (s.acquire t core sc).l1 ↔ l ∈ s.l1 ∧ t.acqReach core sc l = false)) ∧
   (∀ (s : State) (t : Team) (core sc base len va n : Nat), 0 < len →
     (s.acquireRange t core sc base len).mem = s.mem ∧ s.acquireRange t core sc base 0 = s ∧
     ∀ l ∈ (s.acquireRange t core sc base len).l1, t.acqReach core sc l = true → spanMeets va n base len = true → l.serves t.ctx va n = false) ∧
   ∀ (t : Team) (core sc : Nat) (l : L1Line),
     (t.kd.fusel1 = false → 2 ≤ sc → (t.acqReach core sc l = true ↔ l.home = core)) ∧
     (t.kd.fusel1 = false → t.kd.pair = true → sc = 1 → (t.acqReach core sc l = true ↔ l.home = core)) ∧
     (t.kd.fusel1 = false → t.kd.pair = false → sc < 2 → t.acqReach core sc l = false) ∧
     (t.kd.fusel1 = true → (t.acqReach core sc l = true ↔ 3 ≤ sc ∧ l.home / 4 = core / 4))) ∧
  ((∀ k : FR,
     let v := k.view .fr 0x14E
     let e : Entry := { sh := shMarm v, vas := fun w => [w.ua] }
     ∀ (s : State) (w : Iss) (pa : Nat) (pk cm : Bool), s.issues e v w →
       let m := s.moved e w
       let r := w.ready e
       m.translate r.c r.own r.ua 1 .read false = .ok (.phys pa pk cm) → (regionOf m.pkg.hbmsplit pa).hbm = true →
       exec (.marm k) s = .next (((m.disarm w.id.1 w.id.2).arm .wait w.t r.g pa).updGrp w.id fun g =>
         { g with monitor := some { va := BitVec.ofNat 64 r.ua, pa := pa, fired := false } })) ∧
   (∀ k : FR,
     let v := k.view .fr 0x14E
     let e : Entry := { sh := shMarm v, vas := fun w => [w.ua, w.ub] }
     ∀ (s : State) (w : Iss) (pa pc : Nat) (pk cm pk' cm' : Bool), s.issues e v w →
       let m := s.moved e w
       let r := w.ready e
       r.ua % 8 = 0 → r.ub % 4 = 0 →
       m.translate r.c r.own r.ua 8 .read false = .ok (.phys pa pk cm) → m.translate r.c r.own r.ub 4 .atomic false = .ok (.phys pc pk' cm') →
       (regionOf m.pkg.hbmsplit pa).hbm = true → (regionOf m.pkg.hbmsplit pc).hbm = true →
       let slice := m.sliceOf (pa / 128)
       (64 ≤ s.roostUsed slice ∨ 48 ≤ s.roostCounts slice → exec (.marmCounted k) s = .next (m.retry r)) ∧
       (s.mem.rd pa 8 = r.uc → s.roostUsed slice < 64 → s.roostCounts slice < 48 →
         exec (.marmCounted k) s = .next (m.decrementPa r.c.num r.ub pc 1)) ∧
       (s.mem.rd pa 8 ≠ r.uc → s.roostUsed slice < 64 → s.roostCounts slice < 48 →
         exec (.marmCounted k) s = .next { m with roost := s.roost ++ [
           { slice := slice, kind := .count, fired := false, line := pa / 128, ctx := r.c.num, core := r.core, gslot := r.g.slot,
             jcva := BitVec.ofNat 64 r.ub, expv := BitVec.ofNat 64 r.uc, word := pa, team := w.id.1, grp := w.id.2 }] })) ∧
   (∀ k : FR, wordDoes (.mwait k) { sh := shMwait (k.view .fr 0x14F) } (k.view .fr 0x14F) (fun _ _ => True) fun w s => s.endWait w .monitor) ∧
   ∀ k : FR,
     let v := k.view .fr 0x150
     let ty := natBits v.efunc 11 2
     let n := if 2 ≤ ty then 8 else 4
     let e : Entry := { sh := shWuc v, touch := fun _ => if 0x30 ≤ v.dst then [(v.dst, natBit v.efunc 12)] else [], vas := fun w => [w.ua] }
     wordDoes (.wuc k) e v
       (fun w s => w.ua % n = 0 ∧ ∃ pa pk cm, s.translate w.c w.own w.ua n .read false = .ok (.phys pa pk cm) ∧ (regionOf s.pkg.hbmsplit pa).hbm = true)
       fun w s => ((s.disarm w.id.1 w.id.2).updGrp w.id fun g => { g with monitor := none }).endWait w
         (.wuc w.ua (w.ub % 2 ^ (8 * n)) (natBits v.efunc 13 3) ty (natBits v.efunc 6 3) (natBit v.efunc 10) v.dst))

/-! ### Matrix, copies and tables -/

/-- The matrix words complete, each with the effect of its entry, when their checks pass and their charge goes through (R183, R186 to R197):
`mma` and `mmx` accumulate, `mzero` sets every element of tile D of every taking-part octet to the contract zero, `mscl` scales, `mrel`
drops the keep-A snapshot, `mrd` delivers an element or the status, and `mld` and `drain` move a tile from and to an image; the stores of a
`drain` are one for each element, unacknowledged and in flight (R194). That `drain` writes its whole footprint when it issues is the model's
choice (R194 and R315 let it end later; log entry 41). A `drain.add` charges each octet's elements at the slice that applies them: a soft
cap holds the word before an octet, with those before it done, and a hard cap refuses the elements past it (R347; log entry 81). -/
def Obligations.MatrixWords : Prop :=
  (∀ (k : FR) (i : Instr) (opc : Nat), (i, opc) ∈ [(Instr.mma k, 0x180), (Instr.mmx k, 0x181)] →
    let v := k.view .fx opc
    let e : Entry := { sh := shMma v, cls := matCls (if opc = 0x180 then [v.dst] else [v.dst, natBits v.func 0 3]), touch := matTouch, tiles := mmaTiles, vas := Iss.retireVas }
    ∀ (s u : State) (w : Iss) (rt : Option Retire), s.issues e v w → mmaCheck (s.moved e w) (w.ready e) = .ok rt →
      (s.moved e w).charge w.t.tenant w.t.bcls actMatrix (chamberOf (coreDie w.core)) (w.ready e).parts.length = (.ok, u) →
      exec i s = .next (mmaEff (w.ready e) rt u)) ∧
  (∀ k : FR,
    let v := k.view .fx 0x182
    ∀ rt, wordDoes (.mzero k) { sh := shMzero v, cls := matCls [v.dst], vas := Iss.retireVas } v (fun w s => retireCheck s w = .ok rt) fun w s =>
      (s.updTeam w.id.1 fun t => w.parts.foldl (fun t o => t.setAcc w.id.2 o v.dst (List.replicate 256 (contractZero t.kd.contract))) t).addRetire
        w.id.1 rt) ∧
  (∀ k : FR,
    let v := k.view .fx 0x186
    ∀ rt, wordDoes (.mscl k) { sh := shMscl v, cls := matCls [v.dst], vas := Iss.retireVas } v (fun w s => retireCheck s w = .ok rt) fun w s =>
      let ct := w.t.kd.contract
      let outs := w.parts.map fun o => (o, (fullTile ct (w.t.accTileOf w.id.2 o v.dst)).map (msclElem ct (sInt 32 w.ua)))
      ((s.updTeam w.id.1 fun t => outs.foldl (fun t p => t.setAcc w.id.2 p.1 v.dst (p.2.map Prod.fst)) t).updGrp w.id fun g =>
        g.flag (outs.foldl (fun f p => p.2.foldl (fun f x => f ||| x.2) f) 0#32)).addRetire w.id.1 rt) ∧
  (∀ k : FR, wordActs (.mrel k) { sh := shMrel (k.view .fx 0x185), cls := matCls [] } (k.view .fx 0x185) fun _ g => { g with keep := false, snaps := [] }) ∧
  (∀ k : FR,
    let v := k.view .fr 0x187
    let st := natBits v.efunc 14 2 == 1
    let e : Entry := { sh := shMrd v, cls := matCls (if st then [] else [natBits v.efunc 0 3]) }
    wordActs (.mrd k) e v fun w g =>
      let g1 := g.later v false false w.act w.mask fun th =>
        if st then (w.g.mstat &&& 0xF#32).toNat + 256 * (if w.g.keep then 1 else 0)
        else
          let c := (fullTile w.t.kd.contract (w.t.accTileOf w.id.2 (th / 8) (natBits v.efunc 0 3))).getD (w.a th % 256) 0
          if w.t.kd.contract = .xf32 then fltRes ffF32 .rne (xVal (xDec c)) else c
      if natBit v.efunc 13 then { g1 with mstat := g1.mstat &&& ~~~ 0xF#32 } else g1) ∧
  (∀ k : FR,
    let v := k.view .fx 0x183
    let e : Entry := { sh := shMld v, cls := matCls [v.dst], tiles := footTiles, vas := fun w => footVas w false }
    ∀ (s : State) (w : Iss) (b : Nat) (rt : Option Retire) (rows : List (Nat × Nat × List (Target × Nat))), s.issues e v w →
      xfmtCheck (w.ready e) false = .ok b → retireCheck (s.moved e w) (w.ready e) = .ok rt →
      footCheck (s.moved e w) (w.ready e) b false false = .ok rows → (∀ r ∈ rows, ∀ t ∈ r.2.2, s.lineEvent t.1 t.2 = none) →
      let vals := rows.map fun r => (r.1, (List.range 16).map fun j =>
        intoTile w.t.kd.contract (natBits v.func 0 5) (leNat ((((s.moved e w).readRow r.2.2).drop (b * j)).take b)))
      exec (.mld k) s = .next ((((s.moved e w).bringRows rows).updTeam w.id.1 fun t => (w.ready e).parts.foldl (fun t o =>
        t.setAcc w.id.2 o v.dst ((vals.filter fun p => p.1 == o).flatMap Prod.snd)) t).addRetire w.id.1 rt)) ∧
  ∀ k : FR,
    let v := k.view .fx 0x184
    let add := natBit v.func 15
    let e : Entry := { sh := shMld v, cls := matCls [v.dst], tiles := footTiles, vas := fun w => footVas w true }
    ∀ (s : State) (w : Iss) (b : Nat) (rt : Option Retire) (rows : List (Nat × Nat × List (Target × Nat))), s.issues e v w →
      xfmtCheck (w.ready e) true = .ok b → retireCheck (s.moved e w) (w.ready e) = .ok rt →
      footCheck (s.moved e w) (w.ready e) b true add = .ok rows →
      let i := w.ready e
      let m := s.moved e w
      let ps := if add then [] else drainPuts i b rows
      let q := if add then drainAdds i b m rows else { s := State.writePuts i m ps, done := [], held := false }
      let t := q.s.updGrp w.id fun g => g.drained (drainFlags i rows) ps.length (m.lates i ps) (drainRefused i b q.done) i.g.wordPc
      let tl := (descOf i.ua).base
      (q.held = true → exec (.drain k) s = .next ((q.s.retry i).updGrp w.id fun g => { g with part := q.done })) ∧
      (q.held = false → exec (.drain k) s = .next (if natBits v.func 13 2 = 1 then
          (t.updTeam w.id.1 fun x =>
            { x with tiles := x.tiles.modify w.half fun ts => ts.modify tl fun y => { y with st := .draining }
                     jobs := x.jobs ++ [⟨tl, w.half == 1, true, rt, w.id.2, i.g.wordPc, 0, []⟩] }).touchTile i tl
        else t.addRetire w.id.1 rt))

/-- Accumulation of one K-block, element by element: under TER the exact sum of the products of int8 elements and weights is added and
clamped to int32 once, and the flag says whether it was clamped (R87); under LNS the widened products are added one at a time in ascending k
(R88); an XACC image holds every integer of its finite range and its special values, and adding finite values is exact inside the range and
an infinity with the sign of the sum outside (R71, R86). Under MXI one K-block of finite elements is summed exactly before its first
rounding, whatever the order and the magnitudes (R85). -/
def Obligations.Accumulation : Prop :=
  ((∀ (ng : Bool) (c : Nat) (a b : List Nat),
     let x := sInt 32 c + (if ng then -1 else 1) * ((a.zip b).map fun p => sInt 8 p.1 * (if p.2 = 1 then 1 else if p.2 = 3 then -1 else 0)).sum
     sInt 32 (accTer ng c a b).1 = max (-2 ^ 31) (min x (2 ^ 31 - 1)) ∧ ((accTer ng c a b).2 = true ↔ x < -2 ^ 31 ∨ 2 ^ 31 ≤ x)) ∧
   (∀ (ng : Bool) (a b : List Nat) (c : Nat) (f : Bool),
     (accLns ng a b (c, f)).1 = (a.zip b).foldl (fun acc p => lnsAdd 32 acc (if ng then lnsNeg 32 (prod32 p.1 p.2) else prod32 p.1 p.2)) c) ∧
   (∀ i : Int, -2 ^ 574 < i → i < 2 ^ 574 → xDec (xEnc (.fin i)) = .fin i) ∧
   (∀ s, xDec (xEnc (.inf s)) = .inf s) ∧ xDec (xEnc .nan) = .nan ∧
   ∀ i j : Int, (-2 ^ 574 < i + j ∧ i + j < 2 ^ 574 → xAdd (.fin i) (.fin j) = (.fin (i + j), false)) ∧
     (2 ^ 574 ≤ i + j → xAdd (.fin i) (.fin j) = (.inf false, true)) ∧ (i + j ≤ -2 ^ 574 → xAdd (.fin i) (.fin j) = (.inf true, true))) ∧
  (∀ (ng : Bool) (a b : List Val) (p q : List ℚ), a.map Val.rat = p.map some → b.map Val.rat = q.map some →
     (dotVal ng a b (.fin false 0 0)).rat = some ((if ng then -1 else 1) * ((p.zip q).map fun x => x.1 * x.2).sum))

/-- The copy words complete: with the checks of step 8 passed, the copy joins the group's unsealed set, its destination tile becomes FILLING
and its pieces go to the engines, and a tile of the issuing group's own core counts as touched in its clause (R98); a check that fails is a
fault of the word; a copy of no elements is complete at once (R295 to R306).
`cseal` closes the unsealed set into the next batch, whose number it delivers, and a batch of no outstanding copies completes at once; with
64 batches outstanding it waits; `cwait` waits at the boundary that follows (R307, R308). -/
def Obligations.CopyWords : Prop :=
  (∀ (k : FR) (i : Instr) (op : CopyOp) (opc : Nat), (i, op, opc) ∈
       [(Instr.cpy k, .cpy, 0x1A0), (Instr.cpyo k, .cpyo, 0x1A1), (Instr.cpyr k, .cpyr, 0x1A2), (Instr.cpym k, .cpym, 0x1A3), (Instr.cpys k, .cpys, 0x1A4)] →
     let v := k.view .fr opc
     let e : Entry := { sh := shCopy v, touch := cpTouch, vas := cpVas op, more := cpMore op }
     ∀ (s : State) (w : Iss), s.issues e v w →
       let r := w.ready e
       (∀ x, cpCheck (r.cpIn op) (s.moved e w) r = .error x → exec i s = .next ((s.arrived e w).wordFault w x)) ∧
       ∀ c u, cpCheck (r.cpIn op) (s.moved e w) r = .ok (c, u) →
         (c.n = 0 → op ≠ .cpys →
           exec i s = .next (((({ u.perfAdd w.id 13 1 with nextId := u.nextId + 1 }).fillTiles c).setTiles c .ready).touchDest c r)) ∧
         (c.n ≠ 0 ∨ op = .cpys →
           let joined := ((({ u.perfAdd w.id 13 1 with nextId := u.nextId + 1 }).updEng fun x => { x with copies := x.copies ++ [c] }).updGrp w.id
             fun g => { g with unsealed := g.unsealed ++ [c.id] }).fillTiles c
           let t := (if c.tile.isSome ∧ (c.dests joined).contains (w.id.1, w.half) then joined.touchTile r (c.tile.getD 0) else joined).placeAll
           exec i s = .next (if (t.copy? c.id).any fun c => decide (c.placed < c.units) then t.stall r else t))) ∧
  ((∀ k : FS,
     let v := k.view 0x1A5
     let e : Entry := { sh := shCseal v, touch := fun _ => if 0x30 ≤ v.dst then [(v.dst, false)] else [],
                        vas := fun w => if natBit v.func 0 then [w.ua] else [] }
     ∀ (s : State) (w : Iss), s.issues e v w →
       (natBit v.func 0 = true → ∃ pa, (s.moved e w).counterPa w.c (w.ready e).own (w.ready e).ua = .ok pa) →
       (64 ≤ w.g.outb.length → exec (.cseal k) s = .next ((s.moved e w).retry (w.ready e))) ∧
       (w.g.outb.length < 64 → exec (.cseal k) s = .next ((s.moved e w).updGrp w.id fun g =>
         let g1 := { g with seq := g.seq + 1#32
                            outb := g.outb ++ [{ seq := w.g.seq + 1#32, ids := w.g.unsealed,
                                                 j := if natBit v.func 0 then some (BitVec.ofNat 64 (w.ready e).ua) else none }]
                            unsealed := [] }
         if v.dst = 8 then g1 else g1.setS (v.dst - 0x30) (g.seq + 1#32)).closeBatches)) ∧
   ∀ k : FS, wordDoes (.cwait k) { sh := shCwait (k.view 0x1A6) } (k.view 0x1A6) (fun _ _ => True) fun w s =>
     s.endWait w (.batch (natBit (k.view 0x1A6).func 8) (natBits (k.view 0x1A6).func 0 8)))

/-- The tile words act on the entry of their tile in the issuing group's own core, within the bounds of their checks (R319, R320); `twait`
first starts the fill of an ABSENT tile that it waits to be READY, and waits at the boundary (R315, R319); it is tried again while a commit of
ranges or a migration stalls that fill (R219, R231). The barrier words act on their
barrier, within the bounds of their checks (R325, R326). `rcinv` drops the shape records of its context from the caches of the team's cores:
the one at its VA, or all of them (R339). -/
def Obligations.TableEntryWords : Prop :=
  (let has := fun (w : Iss) (n : Nat) (t : Tile) => n < w.t.kd.tiles ∧ (w.t.tiles.getD w.half [])[n]? = some t
   let idle := fun (t : Tile) => t.st ≠ .filling ∧ t.st ≠ .draining
   let put := fun (w : Iss) (s : State) (n : Nat) (f : Tile → Tile) => (s.updTile w.id.1 w.half n f).touchTile w n
   (∀ k : FR,
     let v := k.view .fr 0x1A8
     let n := natBits v.efunc 0 6
     wordDoes (.tset k) { sh := shTset v } v
       (fun w _ => ∃ t, has w n t ∧ idle t ∧ natBits w.ua 0 19 % 64 = 0 ∧ natBits w.ub 0 14 ≠ 0 ∧ natBits w.ub 0 14 ≤ 8192 ∧
         natBits w.ua 0 19 + 64 * natBits w.ub 0 14 ≤ 1024 * w.t.kd.scratch)
       fun w s => put w s n fun t =>
         { owner := if natBit v.efunc 7 then BitVec.ofNat 16 w.uc else (((w.t.tiles.getD w.half [])[n]?).getD t).owner
           st := if natBit v.efunc 6 then .ready else .empty, absent := false, size := natBits w.ub 0 14, base := natBits w.ua 0 19, rcp := 0#64 }) ∧
   (∀ k : FR,
     let v := k.view .fr 0x1A7
     let n := natBits v.efunc 0 6
     wordDoes (.tbind k) { sh := shTbind v } v (fun w _ => ∃ t, has w n t ∧ idle t ∧ t.size ≠ 0 ∧ w.ua % 64 = 0)
       fun w s => put w s n fun t => { t with rcp := BitVec.ofNat 64 w.ua, st := .empty, absent := true }) ∧
   (∀ k : FR,
     let v := k.view .fr 0x1A9
     ∀ (s : State) (w : Iss) (t : Tile), s.issues { sh := shTget v } v w → has w (natBits v.efunc 0 6) t →
       exec (.tget k) s = .next (s.did { sh := shTget v } w true fun _ => if natBit v.func 6 then t.rcp.toNat else t.d0)) ∧
   (∀ k : FS,
     let v := k.view 0x1AB
     let n := natBits v.efunc 0 6
     wordDoes (.trel k) { sh := shTrel v } v (fun w _ => ∃ t, has w n t ∧ idle t)
       fun w s => put w s n fun t =>
         if natBit v.func 6 then { t with st := .empty, rcp := 0#64, absent := false } else { t with st := .empty, absent := t.absent || t.rcp != 0#64 }) ∧
   ∀ k : FS,
     let v := k.view 0x1AA
     let n := natBits v.efunc 0 6
     let cond := natBits v.func 6 2
     wordDoes (.twait k) { sh := shTwait v } v (fun w _ => ∃ t, has w n t ∧ (cond = 0 → t.absent = false)) (fun w s =>
       s.endWait w (.tile n cond (BitVec.ofNat 16 w.ua))) ∧
     wordDoes (.twait k) { sh := shTwait v } v (fun w s => (∃ t, has w n t ∧ cond = 0 ∧ t.absent = true) ∧ s.frozenCtx w.c.num = true)
       (fun w s => s.retry w) ∧
     wordDoes (.twait k) { sh := shTwait v } v (fun w s => (∃ t, has w n t ∧ cond = 0 ∧ t.absent = true) ∧ s.frozenCtx w.c.num = false) (fun w s =>
       (s.startFill w.id.1 w.half n w.id.2 w.g.wordPc).endWait w (.tile n 0 (BitVec.ofNat 16 w.ua)))) ∧
  (let has := fun (w : Iss) (n : Nat) (b : Barrier) => n < w.t.kd.barriers ∧ w.t.barriers[n]? = some b
   (∀ k : FR,
     let v := k.view .fr 0x1B0
     let n := natBits v.efunc 0 6
     wordDoes (.bini k) { sh := shBini v } v (fun w _ => ∃ b, has w n b ∧ b.arrm = 0#16 ∧ b.txb = 0#32) fun w s => s.updBar w.id.1 n fun _ =>
       let all := 2 ^ w.t.kd.groups - 1
       let m := (if natBits w.ua 0 16 = 0 then all else natBits w.ua 0 16) &&& all
       { txb := 0#32, memb := BitVec.ofNat 16 (if natBit v.efunc 6 then m &&& w.t.glive else m), arrm := 0#16, ph := false, err := false,
         autodrop := natBit v.efunc 6, tmo := BitVec.ofNat 16 w.ub, clock := none }) ∧
   (∀ k : FS,
     let v := k.view 0x1B1
     let n := natBits v.efunc 0 6
     wordDoes (.barv k) { sh := shBar v } v (fun w _ => ∃ b, has w n b ∧ b.memb.getLsbD w.g.idx = true ∧ b.arrm.getLsbD w.g.idx = false)
       (fun w s => s.updBar w.id.1 n fun b => b.arrive w.g.idx) ∧
     wordFaults (.barv k) { sh := shBar v } v (fun w _ => ∃ b, has w n b ∧ b.memb.getLsbD w.g.idx = false) (fun _ => { code := 0x0023, detail := 1 }) ∧
     wordFaults (.barv k) { sh := shBar v } v (fun w _ => ∃ b, has w n b ∧ b.memb.getLsbD w.g.idx = true ∧ b.arrm.getLsbD w.g.idx = true)
       (fun _ => { code := 0x0023, detail := 2 })) ∧
   (∀ k : FS,
     let v := k.view 0x1B2
     let n := natBits v.efunc 0 6
     wordDoes (.barw k) { sh := shBar v } v (fun w _ => ∃ b, has w n b) fun w s => s.endWait w (.barrier n)) ∧
   (∀ k : FR,
     let v := k.view .fr 0x1B3
     let n := natBits v.efunc 0 6
     let sum := fun (w : Iss) (b : Barrier) => b.txb.toInt + sInt 32 w.ua
     wordDoes (.bexp k) { sh := shBexp v } v (fun w _ => ∃ b, has w n b ∧ -2 ^ 31 ≤ sum w b ∧ sum w b < 2 ^ 31)
       (fun w s => s.updBar w.id.1 n fun b => b.expect (BitVec.ofNat 32 w.ua)) ∧
     wordFaults (.bexp k) { sh := shBexp v } v (fun w _ => ∃ b, has w n b ∧ (sum w b < -2 ^ 31 ∨ 2 ^ 31 ≤ sum w b)) (fun _ => { code := 0x0023, detail := 4 })) ∧
   (∀ k : FS,
     let v := k.view 0x1B4
     let n := natBits v.efunc 0 6
     wordDoes (.bdrop k) { sh := shBar v } v (fun w _ => ∃ b, has w n b) fun w s => s.updBar w.id.1 n fun b => b.drop w.g.idx) ∧
   ∀ k : FR,
     let v := k.view .fr 0x1B5
     let n := natBits v.efunc 0 6
     ∀ (s : State) (w : Iss) (b : Barrier), s.issues { sh := shBget v } v w → has w n b →
       let t := s.did { sh := shBget v } w true fun _ => if natBit v.func 7 then b.d1 else b.d0
       exec (.bget k) s = .next (if natBit v.func 6 then t.updBar w.id.1 n fun b => { b with err := false } else t)) ∧
  (∀ k : FR,
     let v := k.view .fr 0x1E7
     wordDoes (.rcinv k) { sh := shRcinv v } v (fun _ _ => True) fun w s =>
       { s with shapes := s.shapes.filter fun e =>
           !(w.t.cores.contains e.core && e.ctx == w.c.num && (natBit v.efunc 0 || e.va == w.ua)) })

/-- A barrier completes its phase when ARRM = MEMB and TXB = 0, tested after every arrival, expectation, delivery and drop; a completion
clears ARRM, inverts PH and stops the lantern clock, and an abort posting completes at once with ERR set and TXB 0 (R322); a delivery that
would take TXB below -2^31 leaves it there and sets ERR (R326). -/
def Obligations.BarrierPhases : Prop :=
  ∀ (b : Barrier) (g n : Nat) (x : W32),
    let done := fun (c : Barrier) => c.arrm = c.memb ∧ c.txb = 0#32
    let after := fun (c : Barrier) => if done c then { c with arrm := 0#16, ph := !c.ph, clock := none } else c
    let bit := BitVec.ofNat 16 (2 ^ g)
    let run := some (b.clock.getD 0)
    b.arrive g = after { b with arrm := b.arrm ||| bit, clock := run } ∧
    b.expect x = after { b with txb := b.txb + x, clock := run } ∧
    b.drop g = after { b with memb := b.memb &&& ~~~ bit, arrm := b.arrm &&& ~~~ bit } ∧
    b.abort = { b with txb := 0#32, err := true, arrm := 0#16, ph := !b.ph, clock := none } ∧
    (-2 ^ 31 ≤ b.txb.toInt - n → b.deliver n = after { b with txb := b.txb - BitVec.ofNat 32 n, clock := run } ∧
      (b.txb - BitVec.ofNat 32 n).toInt = b.txb.toInt - n) ∧
    (b.txb.toInt - n < -2 ^ 31 → (b.deliver n).txb.toInt = -2 ^ 31 ∧ (b.deliver n).err = true ∧ (b.deliver n).ph = b.ph)

/-- The queue words complete when the header, the slot and the LS offset pass their checks (R289, R290, R310): an enqueue delivers the item
number, or all ones for a full queue, the core's own copies of the lines it wrote follow (R257), and the group stalls for the reply, what it
stored before being performed; `spawn` past the hard cap on launches faults BUDGET_VIOLATION with event 0x40 (R347, R352); `qtry` takes the
item at HEAD, or delivers all ones from an empty queue with LS unchanged; `qdeq` takes it, or waits in the list of the queue with its
destination reserved (R110). `jdec` and `jset` complete on a counter that passes its checks, and the group's own copy of the line follows
(R257); `jdec` performs what the group stored before. A decrement that its counter covers lowers it and leaves every other byte of memory as
it was, and one that brings it to 0 makes the word known to the scheduler (R281, R289). -/
def Obligations.QueueWords : Prop :=
  ((∀ (k : FR) (i : Instr) (opc : Nat) (kinds : List Nat), (i, opc, kinds) ∈
       [(Instr.qenq k, 0x1E0, [2, 3]), (Instr.spawn k, 0x1E5, [1]), (Instr.qnt k, 0x1E6, [4])] →
     let v := k.view .fr opc
     let e : Entry := { sh := shQueue v, touch := fun _ => pairTouch v, vas := fun w => [w.ua], more := slotVas kinds QHdr.tail }
     ∀ (s u : State) (w : Iss) (pa slot : Nat) (h : QHdr) (num : Option Nat), s.issues e v w →
       let m := s.moved e w
       let r := w.ready e
       m.openQueue r.c r.ua kinds = .ok (pa, h) → m.queuePa r.c (h.base + 64 * (h.tail % h.cap)) 64 = .ok slot →
       r.ub % 64 = 0 → r.ub + 64 ≤ 1024 * r.t.kd.scratch →
       let hub := homeSlice m.pkg.hbmsplit pa / 96
       (h.kind = 1 → m.chargeAns h.tenant h.bcls actLaunch hub 1 = .hard →
         exec i s = .next ((m.hardCap h.tenant h.bcls actLaunch hub).refuse r { code := 0x0051 })) ∧
       ((h.kind = 1 → m.chargeAns h.tenant h.bcls actLaunch hub 1 ≠ .hard) →
         m.enqueue r.c pa h (m.lsBytes w.id.1 r.core r.ub 64) = .ok (num, u) →
         let seen := if num.isSome then u.ringTouch r.t r.core slot pa (m.waitSpans pa) else u
         exec i s = .next ((seen.updGrp w.id fun g => Group.setPair { g with late := [] } v.dst (num.getD (2 ^ 64 - 1))).stall r))) ∧
   ∀ k : FR,
     let e := fun opc => ({ sh := shQueue (k.view .fr opc), touch := fun _ => pairTouch (k.view .fr opc), vas := fun w => [w.ua]
                            more := if opc = 0x1E1 then deqVas else slotVas [3] QHdr.head } : Entry)
     ∀ (s : State) (w : Iss) (pa slot : Nat) (h : QHdr) (opc : Nat), s.issues (e opc) (k.view .fr opc) w →
       let m := s.moved (e opc) w
       let r := w.ready (e opc)
       m.openQueue r.c r.ua [3] = .ok (pa, h) → m.queuePa r.c (h.base + 64 * (h.head % h.cap)) 64 = .ok slot →
       r.ub % 64 = 0 → r.ub + 64 ≤ 1024 * r.t.kd.scratch →
       (opc = 0x1E2 → h.head = h.tail → h.tail < 2 ^ 64 → exec (.qtry k) s = .next (m.updGrp w.id fun g =>
         g.later (k.view .fr opc) true true (fun _ => true) 0#64 fun _ => 2 ^ 64 - 1)) ∧
       (opc = 0x1E2 → h.count ≠ 0 → exec (.qtry k) s = .next
         ((m.storeNat (pa + 16) 8 ((h.head + 1) % 2 ^ 64)).receive r h.head (m.mem.bytes slot 64))) ∧
       (opc = 0x1E1 → h.count ≠ 0 → exec (.qdeq k) s = .next
         (((m.storeNat (pa + 16) 8 ((h.head + 1) % 2 ^ 64)).endClause r id).receive r h.head (m.mem.bytes slot 64))) ∧
       (opc = 0x1E1 → h.head = h.tail → h.tail < 2 ^ 64 →
         let dst := (k.view .fr opc).dst
         let waits := (m.endWait r (.qdeq r.ua r.ub dst)).register r.c r.t r.g pa r.ub dst
         exec (.qdeq k) s = .next (if dst = 8 then waits else waits.updGrp w.id fun g =>
           g.reserve { qi := none, wide := true, named := [], uni := some (dst - 0x30), uniN := 2, mask := 0#64, vals := [],
                       rem := (k.view .fr opc).look, arrived := false, load := true }))) ∧
  ((∀ k : FR,
     let e := fun opc => ({ sh := shQueue (k.view .fr opc), vas := fun w => [w.ua] } : Entry)
     (∀ (s : State) (w : Iss) (pa : Nat), s.issues (e 0x1E3) (k.view .fr 0x1E3) w →
       (s.moved (e 0x1E3) w).counterPa w.c (w.ready (e 0x1E3)).own (w.ready (e 0x1E3)).ua = .ok pa →
       exec (.jdec k) s = .next ((((s.moved (e 0x1E3) w).updGrp w.id fun g => { g with late := [] }).decrementPa w.c.num
         (w.ready (e 0x1E3)).ua pa (w.ready (e 0x1E3)).ub).l1Touch w.t.kd.fusel1 w.core pa 4)) ∧
     ∀ (s : State) (w : Iss) (pa : Nat), s.issues (e 0x1E4) (k.view .fr 0x1E4) w →
       let m := s.moved (e 0x1E4) w
       let r := w.ready (e 0x1E4)
       m.counterPa r.c r.own r.ua = .ok pa →
       let u := (m.storeNat pa 4 r.ub).l1Touch w.t.kd.fusel1 w.core pa 4
       exec (.jset k) s = .next (if r.ub = 0 ∧ s.mem.rd pa 4 ≠ 0 then u.notice r.c.num r.ua pa else u)) ∧
   ∀ (s : State) (ctx va pa n : Nat), s.memOk →
     let old := s.mem.rd pa 4
     let u := s.decrementPa ctx va pa n
     (n = 0 → u = s) ∧ (n ≤ old → u.mem.rd pa 4 = old - n ∧ ∀ a, a < pa ∨ pa + 4 ≤ a → u.mem.get a = s.mem.get a) ∧
     (n ≤ old → n ≠ 0 → old = n → pa ∈ u.sch.ready))

/-- An enqueue writes item TAIL of the ring and advances TAIL, and gives the number of the item; on a full queue nothing is written. An empty
WORK queue with a waiter takes no item into its ring: HEAD and TAIL both advance, and the item goes to the first waiter (R272, R289). Every byte
outside the slot, the header's HEAD and TAIL and the WLIST areas of waiters stays as it was (R272, R273; that the area is written with each
delivery is log entry 38). -/
def Obligations.Enqueue : Prop :=
  ∀ (s u : State) (c : Ctx) (pa slot : Nat) (h : QHdr) (item : List Byte) (num : Option Nat), s.memOk → item.length = 64 →
    s.queuePa c (h.base + 64 * (h.tail % h.cap)) 64 = .ok slot → s.enqueue c pa h item = .ok (num, u) →
    (h.count = h.cap → num = none ∧ u = s) ∧
    let apart := fun a n => ∀ w ∈ s.waiters, ∀ p ∈ w.area, p.1 + p.2 ≤ a ∨ a + n ≤ p.1
    let ring := h.kind ≠ 3 ∨ h.count ≠ 0 ∨ ∀ w ∈ s.waiters, w.hdr ≠ pa
    (h.count ≠ h.cap → num = some h.tail ∧ (ring ∨ apart (pa + 24) 8 → u.mem.rd (pa + 24) 8 = (h.tail + 1) % 2 ^ 64) ∧
      (ring → slot + 64 ≤ pa + 24 ∨ pa + 32 ≤ slot → u.mem.bytes slot 64 = item ∧ u.teams = s.teams ∧ u.waiters = s.waiters) ∧
      (∀ w, h.kind = 3 → h.count = 0 → s.waiters.find? (fun w => w.hdr == pa) = some w →
        u = ((s.storeNat (pa + 16) 8 ((h.tail + 1) % 2 ^ 64)).storeNat (pa + 24) 8 ((h.tail + 1) % 2 ^ 64)).deliverItem w item h.tail ∧
        (apart (pa + 16) 8 → u.mem.rd (pa + 16) 8 = (h.tail + 1) % 2 ^ 64)) ∧
      ∀ a, a < slot ∨ slot + 64 ≤ a → a < pa + 16 ∨ pa + 32 ≤ a → apart a 1 → u.mem.get a = s.mem.get a)

/-! ### Special registers and system words -/

/-- `trc` and `trcm` emit their events, once for the word or once for each active thread in ascending order; `cnt` delivers a counter as a
64-bit number and stalls for it, and banks 8 and above fault PERMISSION with the bank as detail outside a firmware context (R342, R343,
R361). `rdsr` delivers the special register that SEL names, as each active thread sees it; the 64-bit ones are reserved (R155, R156), and a
context system register is closed to a context without privilege (R366). `wrsr` writes `$seed`, CSEL, a command or a register of the
selected context, and a register locked while its context runs faults PERMISSION (R157, R366). -/
def Obligations.TraceAndSpecial : Prop :=
  ((∀ k : FR, wordDoes (.trc k) { sh := shTrc (k.view .fr 0x1F0) } (k.view .fr 0x1F0) (fun _ _ => True) fun w s =>
     s.emitTrc w (natBits (k.view .fr 0x1F0).efunc 0 8) w.ua) ∧
   (∀ k : FR, wordDoes (.trcm k) { sh := shTrc (k.view .fr 0x1F1) } (k.view .fr 0x1F1) (fun _ _ => True) fun w s =>
     (w.g.actives (k.view .fr 0x1F1)).foldl (fun s th => s.emitTrc w (natBits (k.view .fr 0x1F1).efunc 0 8) (w.a th)) s) ∧
   ∀ k : FS,
     let v := k.view 0x1F2
     let bank := natBits v.func 12 4
     wordDoes (.cnt k) { sh := shCnt v } v (fun w _ => bank < 8 ∨ w.c.priv = true) (fun w s =>
       (s.updGrp w.id fun g => g.result v true w.act fun _ => cntValue s w v.func % 2 ^ 64).stall w) ∧
     wordFaults (.cnt k) { sh := shCnt v } v (fun w _ => 8 ≤ bank ∧ w.c.priv = false) (fun _ => { code := 0x0011, detail := bank })) ∧
  ((∀ k : FS,
     let v := k.view 0x0C0
     let sel := k.sel.toNat
     let e : Entry := { sh := shRdsr v }
     let open' := fun (w : Iss) => sel < 0x100 ∨ w.c.priv = true
     wordDoes (.rdsr k) e v (fun w _ => open' w ∧ selWidth sel ≠ 64) (fun w s => s.updGrp w.id fun g => g.result v false w.act (selValue s w sel)) ∧
     wordDoes (.rdsr k) e v (fun w _ => open' w ∧ selWidth sel = 64)
       (fun w s => s.updGrp w.id fun g => g.later v true false w.act w.mask (selValue s w sel)) ∧
     wordFaults (.rdsr k) e v (fun w _ => ¬ open' w) (fun _ => { code := 0x0011, detail := 6 })) ∧
   (∀ (s : State) (w : Iss) (th : Nat), th < 64 →
     selValue s w 0x0 th = th % 16 ∧ selValue s w 0x1 th = w.g.idx ∧ selValue s w 0x8 th = w.g.idx * w.g.width + th ∧
     selValue s w 0xB th = coreDie w.core ∧ selValue s w 0xE th = w.t.phase.toNat ∧ selValue s w 0xF th = w.c.seed.toNat ∧
     selValue s w 0x11 th = s.dieTime (coreDie w.core) % 2 ^ 56 ∧ selValue s w 0x12 th = w.c.tenant.toNat * 2 ^ 16 + w.c.num) ∧
   ∀ k : FS,
     let v := k.view 0x0C1
     let sel := k.sel.toNat
     let e : Entry := { sh := shWrsr v }
     let locked := fun (c : Ctx) => 0x104 ≤ sel ∧ sel ≤ 0x10A ∧ c.st = .running
     (sel = 0x00F → wordDoes (.wrsr k) e v (fun _ _ => True) fun w s => (s.updCtx w.c.num fun c => { c with seed := BitVec.ofNat 32 w.ua }).stall w) ∧
     (sel = 0x100 → wordDoes (.wrsr k) e v (fun _ _ => True) fun w s => s.updGrp w.id fun g => { g with csel := w.ua % 256 }) ∧
     (sel = 0x102 → ∀ s w c i, s.issues e v w → (s.moved e w).selected (w.ready e).g = some c → ctxCmd c (w.ready e).ua = some i →
       exec (.wrsr k) s = .next { s.moved e w with cmds := s.cmds ++ [i] }) ∧
     (sel ≠ 0x00F → sel ≠ 0x100 → sel ≠ 0x102 → ∀ s w c, s.issues e v w → (s.moved e w).selected (w.ready e).g = some c → 
       (¬ locked c → exec (.wrsr k) s = .next ((s.moved e w).updCtx c.num fun c => c.writeReg sel (w.ready e).ua)) ∧
       (locked c → exec (.wrsr k) s = .next ((s.arrived e w).wordFault w { code := 0x0011, detail := 9 }))))

/-- `sysc` opens a call: the epoch of its context advances, its item enters the service queue, which performs the stores before it, or waits
for room there, and the group waits with the open call; with no service queue it faults PERMISSION with detail 7 (R385, R387); while a
commit of ranges or a migration holds the queue's pages it is tried again (R219, R231). `eret` answers the call of its token and receives
what became of it: 0, 1 or 2 (R387). `ctxld` of a SAVED context whose area passes its checks makes it RUNNING and lists its images for
resumption; of a context that is not SAVED it faults PERMISSION with detail 8 (R388). `bdg` notes a change of a budget row behind those
noted before, and stalls its group; it makes the row where there is none (R348, R349). -/
def Obligations.ServiceCalls : Prop :=
  ((∀ k : FS,
     let v := k.view 0x10F
     let e : Entry := { sh := shSysc v, touch := fun _ => (List.range 8).map fun j => (v.a + j, false) }
     let a := v.a - 0x30
     wordFaults (.sysc k) e v (fun w _ => w.c.svcq = 0#64) (fun _ => { code := 0x0011, detail := 7 }) ∧
     ∀ (s u : State) (w : Iss) (z : Ctx) (pa : Nat) (h : QHdr) (num : Option Nat), s.issues e v w → w.c.svcq ≠ 0#64 →
       let m := s.moved e w
       let r := w.ready e
       m.openSvcq w.c = .ok (z, pa, h) → s.ctx? w.c.num = some w.c →
       let vas := [w.c.svcq.toNat, h.base + 64 * (h.tail % h.cap)]
       let item := syscItem w.c r.g w.c.epoch v.func a r.g.wordPc
       (vas.any (m.frozenVa z.num) = true → exec (.sysc k) s = .next (m.freezeRetry r)) ∧
       (vas.any (m.frozenVa z.num) = false → m.walkPages z r.core vas = [] →
         ((m.coreFills z r.core w.id vas).updCtx w.c.num fun c => { c with epoch := c.epoch + 1#32 }).enqueueFor w.id (z, pa, h) item = .ok (num, u) →
         let z := if num.isSome then u else { u with calls := u.calls ++ [{ team := w.id.1, grp := w.id.2, ctx := w.c.num, item := item }] }
         exec (.sysc k) s = .next ((z.endWait r .sysc).updGrp w.id fun g =>
           { g with call := some { epoch := w.c.epoch, a := a, answered := false } }))) ∧
   (∀ k : FS,
     let v := k.view 0x202
     let a := v.a - 0x30
     let e : Entry := { sh := shEret v, touch := fun _ =>
       (if 0x30 ≤ v.dst then [(v.dst, false)] else []) ++ (List.range 6).map fun j => (v.a + j, false) }
     wordDoes (.eret k) e v (fun _ _ => True) fun w s =>
       let q := s.answerCall (w.g.spair a) ((List.range 4).map fun j => w.g.si (a + 2 + j))
       (q.2.endClause w id).updGrp w.id fun g => Group.result (if q.1 = 2 then g else { g with late := [] }) v false w.act fun _ => q.1) ∧
   (∀ (s u : State) (id : Nat × Nat) (q : Ctx × Nat × QHdr) (item : List Byte) (n : Nat), s.enqueueFor id q item = .ok (some n, u) →
     ∀ t g, (s.enqueue q.1 q.2.1 q.2.2 item).toOption.map Prod.snd = some t → t.grp? id = some g → u.grp? id = some { g with late := [] } ∧ u.mem = t.mem) ∧
   ∀ (s : State) (token : Nat) (xs : List W32),
     ((s.answerCall token xs).1 ≤ 2) ∧ ((s.answerCall token xs).1 = 2 → (s.answerCall token xs).2 = s) ∧
     (natBits token 32 24 ≠ 0 → (s.answerCall token xs).1 = 2)) ∧
  ((∀ (k : FR) (s : State) (w : Iss) (c : Ctx),
     let v := k.view .fr 0x205
     let e : Entry := { sh := shCtxld v }
     s.issues e v w →
     let r := w.ready e
     r.ua < 256 → s.ctx? r.ua = some c → c.st ≠ .free →
     (c.st ≠ .saved → exec (.ctxld k) s = .next ((s.arrived e w).wordFault w { code := 0x0011, detail := 8 })) ∧
     ∀ fs, c.st = .saved → (s.moved e w).checkArea c = .ok fs →
       exec (.ctxld k) s = .next (((fs.zipIdx).foldl (fun u p => u.enlist c p)
         ((s.moved e w).updCtx c.num fun c => { c with st := .running })).endClause r id)) ∧
   ∀ (k : FR) (s : State) (w : Iss),
     let v := k.view .fr 0x206
     let act := natBits v.efunc 4 3
     let field := natBits v.efunc 0 2
     let e : Entry := { sh := shBdg v }
     s.issues e v w →
     let r := w.ready e
     let tenant := natBits r.ua 0 16
     let bcls := natBits r.ua 16 3
     let old := s.row? tenant bcls
     let base := old.getD { Row.fresh tenant bcls with elapsed := s.elapsed tenant }
     let row : Row := { base with pend := base.pend ++ [(field, act, r.ub)] }
     natBits r.ua 19 13 = 0 → (field = 2 → r.ub ≠ 0 ∧ r.ub ≤ 16 ∧ bcls = 0) →
     (field < 2 → row.future.soft.getD act 0 = 0 ∨ row.future.hard.getD act 0 = 0 ∨ row.future.soft.getD act 0 ≤ row.future.hard.getD act 0) →
     (old = none → s.sch.rows.length < 256) →
     exec (.bdg k) s = .next ((if old.isSome then (s.moved e w).updRow tenant bcls fun _ => row
       else (s.moved e w).updSch fun c => { c with rows := c.rows ++ [row] }).stall r))

/-- `rmap`, `rcommit`, `tlbi` and `mig` on an existing context complete and stall their group: `rmap` stages the image (R218, R219); `tlbi` drops
translations, and like `rcommit` and `mig` notes which stores of the context are still out, which it waits for (R219, R222, R230). When the wait
of a `rcommit` is over, the staged ranges become the committed ones and what was cached of the context is gone (R216, R219); when that of a `mig`
is over, the page has moved: its bytes stand at the new PA, ADDR of its leaf is the new PA, nothing of the old page is cached, and every other
byte of memory is as it was (R230, steps 3 to 5; with no uncorrectable line, whose errors R231 logs). -/
def Obligations.TranslationWords : Prop :=
  (∀ (k : FR) (s : State) (w : Iss) (c : Ctx) (bs : List Byte),
    let v := k.view .fr 0x200
    let e : Entry := { sh := shRmap v, vas := fun w => [w.ub] }
    s.issues e v w →
    let r := w.ready e
    s.ctx? r.ua = some c → c.num = r.ua → c.st ≠ .free → s.frozenCtx c.num = false → r.ua < 256 → r.uc < 32 → r.ub % 32 = 0 →
    (s.moved e w).loadSpan r.c r.own r.ub 32 .read false = .ok bs →
    let d := fun j => BitVec.ofNat 64 (leNat ((bs.drop (8 * j)).take 8))
    exec (.rmap k) s = .next (((s.moved e w).updCtx c.num fun c => { c with staged := c.staged.set r.uc ⟨d 0, d 1, d 2, d 3⟩ }).stall r)) ∧
  (∀ (k : FS) (s : State) (w : Iss) (c : Ctx),
    let v := k.view 0x201
    let e : Entry := { sh := shRcommit v }
    s.issues e v w →
    let r := w.ready e
    s.ctx? r.ua = some c → c.num = r.ua → c.st ≠ .free → s.frozenCtx c.num = false → r.ua < 256 → badRange s.pkg.hbmsplit c.staged = none →
    exec (.rcommit k) s = .next (({ s.moved e w with freezes := s.freezes ++ [{
      ctx := c.num, team := w.id.1, grp := w.id.2, page := none, awaits := (s.moved e w).unacked fun t => t.ctx == c.num }] } : State).stall r)) ∧
  (∀ (s : State) (c : Ctx) (z : Freeze), s.ctx? z.ctx = some c → z.page = none → z.inval = none →
    let t := s.thaw z
    t.ctx? z.ctx = some { c with committed := c.staged } ∧ t.mem = s.mem ∧ t.freezes = s.freezes.erase z ∧
    (∀ l ∈ t.l1, l.ctx ≠ z.ctx) ∧ (∀ l ∈ t.tlb, l.ctx ≠ z.ctx) ∧ (∀ l ∈ t.shapes, l.ctx ≠ z.ctx)) ∧
  (∀ (k : FR) (s : State) (w : Iss) (c : Ctx),
    let v := k.view .fr 0x203
    let mode := natBits v.efunc 0 2
    let e : Entry := { sh := shTlbi v }
    s.issues e v w →
    let r := w.ready e
    let wait := fun (all : Bool) => s.freezes ++ [{
      ctx := if all then 0 else c.num, team := w.id.1, grp := w.id.2, page := none, inval := some all
      awaits := (s.moved e w).unacked fun t => all || t.ctx == c.num }]
    (mode = 2 → (∀ z ∈ s.freezes, z.inval ≠ none) → exec (.tlbi k) s = .next
      (State.stall { s.moved e w with tlb := [], pwc := [], l1 := [], shapes := [], freezes := wait true } r)) ∧
    (s.ctx? r.ua = some c → c.num = r.ua → c.st ≠ .free → s.frozenCtx c.num = false → r.ua < 256 → mode ≠ 2 →
      ∃ t, exec (.tlbi k) s = .next t ∧ t.mem = s.mem ∧ t.ctxs = s.ctxs ∧ t.freezes = wait false ∧ (t.grp? w.id).map Group.wait = some .stall ∧
      (mode = 0 → ∀ l ∈ t.tlb, ¬ (l.ctx = c.num ∧ l.va / 2 ^ l.bits = r.ub / 2 ^ l.bits)) ∧
      (mode = 1 ∨ mode = 3 → (∀ l ∈ t.tlb, l.ctx ≠ c.num) ∧ (∀ l ∈ t.pwc, l.ctx ≠ c.num) ∧ ∀ l ∈ t.l1, l.ctx ≠ c.num))) ∧
  (∀ (k : FR) (s : State) (w : Iss) (c : Ctx) (lf : Leaf) (entry : Nat),
    let v := k.view .fr 0x204
    let e : Entry := { sh := shRmap v }
    s.issues e v w →
    let r := w.ready e
    let n := 2 ^ lf.bits
    s.ctx? r.ua = some c → c.num = r.ua → c.st ≠ .free → s.frozenCtx c.num = false → r.ua < 256 → findRange c.committed r.ub = none → natBits r.ub 56 8 = 0 →
    walk s.mem.entries r.ub 3 c.ptroot = .ok (lf, entry) → leafRegion s.pkg.hbmsplit lf r.ub = .ok () →
    (s.moved e w).migMeets lf.base n = false → (s.moved e w).migMeets r.uc n = false → r.uc % n = 0 →
    (regionOf s.pkg.hbmsplit r.uc).hbm = true → regionOf s.pkg.hbmsplit r.uc = regionOf s.pkg.hbmsplit (r.uc + n - 1) →
    (lf.base + n ≤ r.uc ∨ r.uc + n ≤ lf.base) →
    exec (.mig k) s = .next (({ s.moved e w with
      freezes := s.freezes ++ [{ ctx := c.num, team := w.id.1, grp := w.id.2, page := some (r.ub, lf.bits, r.uc)
                                 awaits := (s.moved e w).unacked fun t => t.ctx == c.num }] } : State).stall r)) ∧
  ∀ (s : State) (c : Ctx) (z : Freeze) (va newPa entry : Nat) (lf : Leaf), s.memOk → s.ctx? z.ctx = some c → z.inval = none →
    z.page = some (va, lf.bits, newPa) → walk s.mem.entries va 3 c.ptroot = .ok (lf, entry) →
    let n := 2 ^ lf.bits
    let inOld := fun a : Nat => lf.base ≤ a ∧ a < lf.base + n
    let inNew := fun a : Nat => newPa ≤ a ∧ a < newPa + n
    newPa % n = 0 → (lf.base + n ≤ newPa ∨ newPa + n ≤ lf.base) → (entry + 8 ≤ newPa ∨ newPa + n ≤ entry) →
    (∀ l, inOld (128 * l) → s.badLine l = false) →
    let t := s.thaw z
    let old := s.mem.rd entry 8
    t.freezes = s.freezes.erase z ∧ (∀ j, j < n → t.mem.get (newPa + j) = s.mem.get (lf.base + j)) ∧
    t.mem.rd entry 8 = old - natBits old 8 44 * 256 + newPa % 2 ^ 52 ∧
    (∀ a, ¬ inNew a → a < entry ∨ entry + 8 ≤ a → t.mem.get a = s.mem.get a) ∧
    (∀ e ∈ t.tlb, e.covers c.num va = false) ∧ (∀ e ∈ t.pwc, ¬ (e.ctx = c.num ∧ e.key = va / 2 ^ keyBits e.lvl)) ∧
    ∀ l ∈ t.l1, ¬ inOld (128 * l.line)

/-! ### Events -/

/-- The events of groups: a clause boundary brings the next clause, which begins once its header is met and its tiles are READY, or its
fault with the header as PC (R91, R97), behind the walks that find a leaf (log entry 93), while no change of operating point pauses issue
(R400; that the pause begins at once and how long it lasts is log entry 72); a group that stands inside its clause gets the turn to issue
(R417; log entry 3); an arrival fills what its word reserved, and an arrived reservation whose window is over is gone (R109, R111); an
acknowledgement lowers the count of WAIT 0101 (R239); a deferred access fault is kept behind those before it, and its access gets no value
or is not outstanding any more (R235, R369; that it is the oldest load that is out, or else a store, is log entry 35), a store to a host or
a peer whose link went down being taken back (R235; which stores an acknowledgement leaves in flight is log entry 55); the end of a stall
frees the group, and with it a commit of ranges or a migration takes effect (R98, R219, R230); a wait is released once its own condition
holds, or its deferred faults are taken (R97, R369); with room in the service queue the item of a waiting call enters, behind the stores of
its group (R387); a lossless stall of STALLMAX makes its tag lossy (R362); a lantern that runs out faults BARRIER_TIMEOUT (R327). That these
two events bring the timebase to their deadline is log entry 2. -/
def Obligations.GroupEvents : Prop :=
  (∀ (s : State) (t g : Nat), s.canIssue (t, g) = true →
    exec (.clauseBoundary t g) s = .next { s with cur := some (t, g), last := (t, g) }) ∧
  (∀ (s : State) (t g : Nat) (tm : Team) (gr : Group) (c : Ctx), s.canIssue (t, g) = false → s.atBoundary (t, g) = true → s.pauseLeft = 0 →
    s.team? t = some tm → s.grp? (t, g) = some gr → s.ctx? tm.ctx = some c → s.frozenVa c.num gr.pc.toNat = false →
    (∀ x s1, s.fetchClause (t, g) c tm gr = (.error x, s1) →
      let pages := s.walkPages c (tm.coreOf g) [x.addr]
      let leaves := s.leafWalks c (tm.coreOf g) x pages
      (leaves = [] → exec (.clauseBoundary t g) s = .next ((s1.countWalks (t, g) x pages).takeFault (t, g) x gr.pc gr.pc gr.resw false)) ∧
      (leaves ≠ [] → exec (.clauseBoundary t g) s = .next (s.startWalks c (tm.coreOf g) (t, g) leaves))) ∧
    ∀ ws s1, s.fetchClause (t, g) c tm gr = (.ok ws, s1) →
      let vas := gr.pc.toNat :: gr.clauseVas (clauseHdr (ws.headD 0#64))
      let x : Group := { gr with clause := ws }
      vas.any (s.frozenVa c.num) = false →
      (s.walkPages c (tm.coreOf g) vas ≠ [] →
        exec (.clauseBoundary t g) s = .next (s.startWalks c (tm.coreOf g) (t, g) (s.walkPages c (tm.coreOf g) vas))) ∧
      (s.walkPages c (tm.coreOf g) vas = [] →
        exec (.clauseBoundary t g) s =
          .next (((s1.coreFills c (tm.coreOf g) (t, g) vas).updGrp (t, g) fun x => { x with clause := ws }).stepTrace (t, g)) ∧
        ((s.filter tm.ctx).en = false → gr.deferred = [] → s.wantSave tm = false →
          (State.headerMet tm x = false → ∃ u y, exec (.clauseBoundary t g) s = .next u ∧ u.grp? (t, g) = some y ∧ y.clause = ws ∧ y.pos = 0 ∧
            y.wait = .header ∧ u.mem = s.mem) ∧
          (State.headerMet tm x = true → (∀ i ∈ clauseTiles tm x.descReady ws.tail, (tm.tileAt x i).st = .ready) →
            ∃ u y, exec (.clauseBoundary t g) s = .next u ∧ u.grp? (t, g) = some y ∧ y.clause = ws ∧ y.pos = max 1 gr.resw ∧ y.resw = 0 ∧
              y.wait = .none ∧ y.land = none ∧ y.touched = [] ∧ y.pc = gr.pc ∧ y.mask = gr.mask ∧ y.live = gr.live ∧ y.stk = gr.stk ∧ u.mem = s.mem)))) ∧
  (∀ (s : State) (t g r : Nat) (gr : Group) (x : Resv), s.grp? (t, g) = some gr → gr.resv[r]? = some x → x.due = true →
    groupEvent (.longLatencyArrival t g r) s (t, g) { gr.fill x with
      resv := (gr.resv.modify r fun y => { y with arrived := true }).filter fun y => !(y.arrived && y.rem == 0) }) ∧
  (∀ (s : State) (t g : Nat) (gr : Group), s.grp? (t, g) = some gr → gr.pendingStores ≠ 0 →
    groupEvent (.storeAcknowledged t g) s (t, g)
      { gr with pendingStores := gr.pendingStores - 1, late := lateAcked gr.pendingStores gr.late }) ∧
  (∀ (n : Nat) (ls : List Late), (∀ l ∈ lateAcked n ls, l ∈ ls) ∧ (1 < n → (∃ l ∈ ls, l.far = false) → ∀ l ∈ ls, l.far = true → l ∈ lateAcked n ls)) ∧
  (∀ (s : State) (t g code addr detail : Nat) (lanes pc : W64) (gr : Group), s.grp? (t, g) = some gr → code ∈ deferCodes → code ≠ 0x0061 →
    let x : Exc := { code := code, addr := addr, detail := detail, lanes := lanes }
    (∀ i r, gr.resv[i]? = some r → r.load = true → r.due = true → (∀ y ∈ gr.resv.take i, (y.load && y.due) = false) →
      groupEvent (.deferredAccessFault t g code addr detail lanes pc) s (t, g)
        { gr with resv := gr.resv.take i ++ (r.drop lanes).toList ++ gr.resv.drop (i + 1), deferred := gr.deferred ++ [(x, pc)] }) ∧
    ((∀ y ∈ gr.resv, (y.load && y.due) = false) → gr.pendingStores ≠ 0 → lateMet gr.late addr lanes pc = [] →
      groupEvent (.deferredAccessFault t g code addr detail lanes pc) s (t, g)
        { gr with pendingStores := gr.pendingStores - 1, deferred := gr.deferred ++ [(x, pc)] }) ∧
    (∀ l, (∀ y ∈ gr.resv, (y.load && y.due) = false) → gr.pendingStores ≠ 0 → gr.late = [l] → l.va = addr → lanes = 0#64 → code = 0x0060 →
      l.far = true → l.kind = .put → l.old.length = l.new.length → s.memOk → s.mem.bytes l.pa l.new.length = l.new →
      ∃ u, exec (.deferredAccessFault t g code addr detail lanes pc) s = .next u ∧ u.mem.bytes l.pa l.new.length = l.old ∧
        (∀ a, a < l.pa ∨ l.pa + l.new.length ≤ a → u.mem.get a = s.mem.get a) ∧
        u.grp? (t, g) = some { gr with pendingStores := gr.pendingStores - 1, late := [], deferred := gr.deferred ++ [(x, pc)] })) ∧
  (∀ (s : State) (t g : Nat) (gr : Group), s.grp? (t, g) = some gr → gr.wait = .stall → s.handing t g = false →
    ((∀ z ∈ s.freezes, ¬ (z.team = t ∧ z.grp = g)) → groupEvent (.stallOperationComplete t g) s (t, g) { gr with wait := .none }) ∧
    ∀ z, (s.freezes.find? fun z => z.team == t && z.grp == g) = some z → s.drainedFor z = true →
      exec (.stallOperationComplete t g) s = .next ((s.thaw z).updGrp (t, g) fun x => { x with wait := .none }).closeBatches) ∧
  (∀ (s : State) (t g : Nat) (tm : Team) (gr : Group) (c : Ctx), s.team? t = some tm → s.grp? (t, g) = some gr → s.ctx? tm.ctx = some c → c.st = .running →
    gr.idx = g →
    (gr.deferred ≠ [] → gr.outside = true ∨ gr.exited = true ∨ gr.wait = .halted →
      exec (.groupWaitRelease t g) s = .next (s.takeDeferred (t, g) tm gr)) ∧
    (gr.deferred = [] →
      let frees := groupEvent (.groupWaitRelease t g) s (t, g)
      (gr.wait = .header → State.headerMet tm gr = true → s.pauseLeft = 0 → exec (.groupWaitRelease t g) s = .next (s.stepWait (t, g))) ∧
      (∀ all n, gr.wait = .batch all n → (∀ b ∈ gr.outb, all = false ∧ batchUpTo n b = false) →
        frees { gr with wait := .none, wrote := if gr.outb = [] ∧ gr.unsealed = [] then [] else gr.wrote }) ∧
      (∀ b x, gr.wait = .barrier b → tm.barriers[b]? = some x → x.arrm.getLsbD g = false → frees { gr with wait := .none }) ∧
      (∀ i cond own, gr.wait = .tile i cond own → tileWait (tm.tileAt gr i) cond own = true → frees { gr with wait := .none }) ∧
      (∀ m, gr.wait = .monitor → gr.monitor = some m → m.fired = true → frees { gr with wait := .none, monitor := none }) ∧
      (∀ call, gr.wait = .sysc → gr.call = some call → call.answered = true → (∀ p ∈ s.calls, ¬ (p.team = t ∧ p.grp = g)) → frees { gr with wait := .none, call := none }) ∧
      (gr.wait = .room → frees { gr with wait := .none }) ∧
      (gr.wait = .frozen → s.frozenCtx tm.ctx = false → frees { gr with wait := .none }))) ∧
  (∀ (s : State) (t g pa slot : Nat) (p : PendCall) (c z : Ctx) (h : QHdr), (s.calls.find? fun p => p.team == t && p.grp == g) = some p →
    s.ctx? p.ctx = some c → s.frozenCtx 0 = false → { s with calls := s.calls.erase p }.openSvcq c = .ok (z, pa, h) → h.count ≠ h.cap →
    s.queuePa z (h.base + 64 * (h.tail % h.cap)) 64 = .ok slot → (∀ w ∈ s.waiters, w.hdr ≠ pa) → p.item.length = 64 → s.memOk →
    slot + 64 ≤ pa + 24 ∨ pa + 32 ≤ slot →
    ∃ u, exec (.syscEnqueue t g) s = .next u ∧ u.calls = s.calls.erase p ∧ u.mem.bytes slot 64 = p.item ∧
      u.mem.rd (pa + 24) 8 = (h.tail + 1) % 2 ^ 64 ∧ u.grp? (t, g) = (s.grp? (t, g)).map (fun g => { g with late := [] }) ∧
      ∀ k, k ≠ (t, g) → u.grp? k = s.grp? k) ∧
  (∀ (s : State) (t g since n : Nat) (tm : Team) (gr : Group), s.team? t = some tm → s.grp? (t, g) = some gr → gr.wait = .trace since n →
    (s.filter tm.ctx).stallmax ≠ 0 → (s.filter tm.ctx).lossless = true →
    ∃ u, exec (.losslessStallTimeout t g) s = .next u ∧ (u.filter tm.ctx).lossless = false ∧ since + (s.filter tm.ctx).stallmax * 64000 < u.ptp ∧
      ∀ k, u.grp? k = s.grp? k) ∧
  ∀ (s : State) (t b n : Nat) (tm : Team) (x : Barrier), s.team? t = some tm → tm.barriers[b]? = some x → x.clock = some n → n < x.budget →
    s.lanternHeld tm = false →
    let g := tm.timeoutGrp b x
    let pc := ((tm.groups[g]?).map Group.wordPc).getD 0#64
    let detail := b + x.missing * 65536
    exec (.lanternTimeout t b) s = .next (((s.pass (s.pauseLeft + (x.budget - n))).emitCore tm (tm.coreOf g) 0x11 (BitVec.ofNat 32 detail)).takeFault
      (t, g) { code := 0x0022, addr := wrapInt 64 x.txb.toInt, detail := detail } pc pc 0 false)

/-- The events of teams: a settled phase scrubs, writes PCODE, and continues in place where NEXTJC is zero and no save and no drain asks
otherwise, or a team of which every group has exited ends (R42, R54); a settled `succ` takes effect in place (R49, R286); a team starts with its
frame, its task, its image or its successor's state (R40, R54, R279, R388); a parked team's task enters its queue once there is room, and the
team leaves its core (R42, R43); fills, drains and matrix updates complete with their tile READY and their retire decrements (R183, R315, R317),
and a matrix fetch fault relaunches a restartable team or terminates its context (R186, R379). While a commit of ranges or a migration of the context
is under way the events that read its memory wait (R219, R230). The model's choices: a settled `succ` reads its records again (log entry 46), and
with a save requested it is saved with its test still to be made, also where it could start in place (log entry 78; R43, R54); a fill reads and
writes when it completes, while a drain has written when it issued, so that its completion writes nothing (log entries 22, 41). -/
def Obligations.TeamEvents : Prop :=
  (∀ (s : State) (id : Nat) (t : Team) (c : Ctx), s.team? id = some t → s.ctx? t.ctx = some c → t.slot = .settle → t.quiet = true → s.frozenCtx c.num = false →
    (t.settle = .ended → s.copiesDone t = true →
      ∃ u, exec (.phaseSettleComplete id) s = .next u ∧ u.team? id = none ∧ ∀ k, k ≠ id → u.team? k = s.team? k) ∧
    (t.settle = .phase → s.copiesDone t = true → t.kd.restart = false →
      let p := (t.phase.toNat + 1) % 2 ^ 32
      ∀ m s2 bs, s.carryEntry c t.kd (if p = 0 then 2 ^ 32 else p) = .ok m →
        let t1 : Team := { t.scrubPhase m c.seed.toNat p with settle := .none }
        ((s.disarmTeam t).updTeam id fun _ => t1).writePcode c t1 t1.codePtr = .ok s2 → s2.wantSave t1 = false →
        s2.readRec c none (t.frame.toNat + 16) 4 = .ok bs → leNat bs = 0 → s2.dieDraining (coreDie t.core) = false →
        ∃ u, exec (.phaseSettleComplete id) s = .next u ∧ u.team? id = some { t1 with
          phase := BitVec.ofNat 32 p, slot := .run, settle := .none, stepTest := false, relaunch := 0
          groups := t1.groups.map fun g => { g with wait := .none } }) ∧
    ∀ kva inh l k m pl s2, t.settle = .succ kva inh → t.groups[t.last]? = some l → s.succRead c (some (t, t.coreOf l.idx)) kva inh = .ok (k, m) →
      s.succPlan t k m = .ok pl → pl.go = .here → pl.k.restart = false →
      s.walkPages c (t.coreOf l.idx) (kva :: if 2 ^ 64 ≤ inh then [] else [inh]) = [] →
      let t1 : Team := { t.scrubSucc pl.k (BitVec.ofNat 64 kva) pl.m c.seed.toNat with settle := .none }
      let s0 := (s.disarmTeam t).emitTeam t1 0x04 0
      ((s0.updTeam id fun _ => t1).updIdent id fun i => { i with maps := some pl.m, starting := s0.wantSave t }).writePcode c t1 pl.k.entry = .ok s2 →
      (s2.wantSave t = false → ∃ u, exec (.succSettleComplete id) s = .next u ∧ u.team? id = some { t1 with slot := .start, load := .succ }) ∧
      (s2.wantSave t = true → ∃ u, exec (.succSettleComplete id) s = .next u ∧ u.team? id = some (Team.halt t1))) ∧
  (∀ (s : State) (id : Nat) (t : Team) (c : Ctx), s.team? id = some t → s.ctx? t.ctx = some c → t.slot = .start → s.frozenCtx c.num = false →
    (t.load = .succ → exec (.teamStartLoaded id) s = .next ((s.updTeam id fun t => { t with slot := .run, load := .none }).acquireTeam t)) ∧
    (∀ off single, t.load = .image off single → exec (.teamStartLoaded id) s = .next (s.loadImage c t off single)) ∧
    (∀ header u, t.load = .fresh header → (if header then s.writeRec c t.frame.toNat t.frameHeader else s.writePcode c t t.kd.entry) = .ok u →
      let t1 : Team := { t with slot := .run, load := .none }
      exec (.teamStartLoaded id) s = .next (((u.updTeam id fun _ => t1).acquireTeam t1).emitTeam t1 0x01 t1.phase.toNat)) ∧
    ∀ code phase maps t1, t.load = .task code phase maps → s.loadTask c t code phase maps = .ok t1 →
      exec (.teamStartLoaded id) s = .next ((((s.updIdent id fun i => { i with starting := false }).updTeam id fun _ => t1).acquireTeam t1).emitTeam
        t1 0x01 t1.phase.toNat)) ∧
  (∀ (s u : State) (id pa : Nat) (t : Team) (c : Ctx) (l : Leave) (h : QHdr) (num : Option Nat), s.team? id = some t → s.ctx? t.ctx = some c →
    t.slot = .spill → t.leave = some l → c.st = .running → s.frozenCtx c.num = false → s.openOwn c t.tq.toNat [2] = .ok (pa, h) → h.count ≠ h.cap → l.maps = none →
    s.enqueue c pa h (t.taskItem l) = .ok (num, u) →
    exec (.taskSpillEnqueue id) s = .next (u.leaveCore t) ∧ (u.leaveCore t).team? id = none) ∧
  (∀ (s : State) (t j : Nat) (tm : Team) (job : TileJob), s.team? t = some tm → tm.jobs[j]? = some job →
    let half := if job.upper then 1 else 0
    let ready := fun (u : State) => u.updTile t half job.tile fun x => { x with st := .ready }
    (∀ c u, s.ctx? tm.ctx = some c → job.drain = false → s.runFill c tm job = .done u →
      exec (.tileFillComplete t j) s = .next (u.dropJob t j) ∧
      ∀ e, (tm.tiles.getD half [])[job.tile]? = some e →
        ((u.dropJob t j).team? t).map (fun x => ((x.tiles.getD half []).getD job.tile Tile.reset).st) = some .ready) ∧
    (job.drain = true → job.retire = none → exec (.tileDrainComplete t j) s = .next (ready (s.dropJob t j))) ∧
    ∀ r, job.drain = true → job.retire = some r →
      exec (.tileDrainComplete t j) s = .next ((ready (s.dropJob t j)).decrementPa tm.ctx r.va.toNat r.pa 1)) ∧
  (∀ (s : State) (t j : Nat) (tm : Team) (r : Retire), s.team? t = some tm → tm.retires[j]? = some r →
    exec (.matrixUpdateComplete t j) s = .next ((s.updTeam t fun t => { t with retires := t.retires.eraseIdx j }).decrementPa tm.ctx r.va.toNat r.pa 1)) ∧
  ∀ (s : State) (id g : Nat) (t : Team) (c : Ctx) (x : Exc) (pc : W64), s.team? id = some t → t.mfetch = some (g, x, pc) → s.ctx? t.ctx = some c →
    s.frozenCtx c.num = false →
    let count := ((s.sch.idents.find? fun i => i.id == id).map Ident.relaunch).getD t.relaunch
    (t.kd.restart = false ∨ c.rstlim ≤ count → ∃ u, exec (.matrixFetchFault id) s = .next u ∧ (u.ctx? t.ctx).map Ctx.st = some .terminated ∧
      ∀ k ∈ u.teams, k.ctx ≠ t.ctx) ∧
    (t.kd.restart = true → count < c.rstlim →
      let s2 := ((s.fetchRecord t g x pc 0 2).dropTeamWork id).updIdent id fun i => { i with relaunch := count + 1 }
      ∀ bs, s2.readRec c none (t.frame.toNat + 56) 8 = .ok bs → ∃ u y, exec (.matrixFetchFault id) s = .next u ∧ u.team? id = some y ∧
        y.slot = .spill ∧ y.mfetch = none ∧ y.relaunch = count + 1 ∧ y.leave = some (t.relaunchTask (leNat bs)))

/-- The events of the schedulers: a round places the gangs, counts those that hold a reservation, clears the queues, makes at most one grant for
each class and then the idle saves; a class with no candidate has every deficit 0 (R51, R282, R335, R403); a gang that has waited 64 rounds
closes its cluster (R51; offers, choices and places as log entry 15 has them); a scan finds every task whose counter is zero (R281, R282); a single-team image whose wait is over is seated (R389);
a store into TAIL of a registered header is noted, and its doorbell, which takes the note away, logs an invalid header and takes the records that are
rejected; with no note it does nothing (R52, R399; log entries 51, 83); a period ends with the noted writes of `bdg` made and the uses of the
tenant's rows 0, and an exchange lets each scheduler hear the other's use (R346, R347, R349; that the two events bring the timebase to their moment
is log entry 2); a quantisation engine takes the first job in order, which is then no longer in its queue, and completes it with its signal
(R312; that a job is performed when it completes, as far as a cap lets it, is log entry 41). -/
def Obligations.SchedulerEvents : Prop :=
  (∀ (s : State) (die : Nat), s.hubsOf die = [die] →
    let mine := s.sch.gangs.filter fun g => s.gangHub g == die
    let wait := fun (g : Gang) => if (mine.any fun x => x.id == g.id) && g.teams != [] then { g with rounds := g.rounds + 1 } else g
    let swept := (mine.foldl State.placeGang (s.updSch fun h => { h with gangs := h.gangs.map wait })).sweep die
    let rest := fun (u : State) => [Cls.m, .l, .x, .t].foldl (fun u c => u.idleSave die c) ([Cls.l, .x, .t].foldl (fun u c => u.roundCls die c) u)
    let os := (swept.offers die).filter fun o => o.cls == .m
    (∀ o, os ≠ [] → (swept.choose die .m os).1 = some o →
      exec (.schedulingRound die) s = .next (rest ((swept.choose die .m os).2.grant die o))) ∧
    (os ≠ [] → (swept.choose die .m os).1 = none → exec (.schedulingRound die) s = .next (rest (swept.choose die .m os).2)) ∧
    (os = [] → exec (.schedulingRound die) s = .next (rest (swept.updSch fun h =>
      { h with deficits := h.deficits.filter fun d => !(d.die == die && d.cls == .m) })))) ∧
  (∀ (s : State) (die cluster : Nat) (g : Gang), g ∈ s.sch.gangs → g.place = some (die, cluster) → g.teams ≠ [] → 64 ≤ g.rounds →
    ∃ u, exec (.gangClusterClose die cluster) s = .next u ∧ { g with closed := true } ∈ u.sch.gangs ∧ u.teams = s.teams ∧ u.mem = s.mem ∧
      ∀ x ∈ s.sch.gangs, x.place ≠ some (die, cluster) → x ∈ u.sch.gangs) ∧
  (∀ (s : State) (die va pa : Nat) (p : Ctx × QRef), p ∈ s.queuesOf die [2] → va ∈ p.2.hdr.items → s.zeroCtr p.1 va = some pa →
    ∃ u, exec (.taskQueueScan die) s = .next u ∧ pa ∈ u.sch.ready ∧ (∀ x ∈ s.sch.ready, x ∈ u.sch.ready) ∧ u.mem = s.mem ∧ u.teams = s.teams) ∧
  (∀ (s : State) (ctx id core : Nat) (x : Cand) (t : Team), (s.sch.cands.find? fun x => x.ctx == ctx && x.id == id && x.single) = some x →
    s.imageReady x = true → s.imageTeam x = some t → t.gang = [] → s.imageCore t (chamberOf (coreDie (s.leftCore id))) = some core →
    exec (.schedulerRestore ctx id) s = .next ((s.updSch fun h =>
      { h with cands := h.cands.filter fun y => !(y.ctx == x.ctx && y.id == x.id) }).seat { t with core := core })) ∧
  (∀ (s : State) (pa : Nat) (bs : List Byte) (t : Nat × Bool), t ∈ s.sch.tails → pa < t.1 + 32 → t.1 + 24 < pa + bs.length →
    (s.pkg.mgmt.qdir = 0 ∨ pa + bs.length ≤ s.pkg.mgmt.qdir ∨ s.pkg.mgmt.qdir + 65536 ≤ pa) → (t.1, true) ∈ (s.store pa bs).sch.tails) ∧
  (∀ (s : State) (q va pa : Nat) (c : Ctx), s.tailOf q = some (c, va, pa) → (pa, true) ∉ s.sch.tails → exec (.launchDoorbell q) s = .next s) ∧
  (∀ (s : State) (q va pa : Nat) (c : Ctx), s.rung q = true → s.tailOf q = some (c, va, pa) →
    let s1 := s.updSch fun h => { h with tails := h.tails.map fun t => if t.1 == pa then (pa, false) else t }
    (pa, true) ∉ s1.sch.tails ∧
    (∀ x, s.openOwn c va [1, 2, 3, 4] = .error x → x.code = 0x0041 → exec (.launchDoorbell q) s = .next (s1.logFault c.num 0x0041 x.detail va)) ∧
    ∀ hp h, s.openOwn c va [1, 2, 3, 4] = .ok (hp, h) → h.kind = 1 → c.dispatches = true →
      exec (.launchDoorbell q) s =
        .next (State.sweepLaunch (homeSlice s.pkg.hbmsplit hp / 96) c h.count s1 { ctx := c.num, va := va, pa := hp, hdr := h })) ∧
  (∀ (s : State) (tenant : Nat), s.periodHeld tenant = false → s.echo.drops = [] →
    ∃ u, exec (.budgetPeriodEnd tenant) s = .next u ∧ u.mem = s.mem ∧ u.ptp = s.ptp + (periodTicks - s.elapsed tenant) ∧
      (∀ r ∈ u.sch.rows, r.tenant = tenant → r.use0 = List.replicate 6 0 ∧ r.use1 = List.replicate 6 0 ∧ r.pend = [] ∧ r.told = false) ∧
      ∀ r ∈ s.sch.rows, r.tenant = tenant → ∀ y, r.after = some y →
        ∃ x ∈ u.sch.rows, x.tenant = tenant ∧ x.bcls = r.bcls ∧ x.soft = y.soft ∧ x.hard = y.hard ∧ x.wt = y.wt) ∧
  (∀ (r : Row) (act v : Nat), (r.pend = [(0, act, v)] → r.after = some { r with soft := r.soft.set act v }) ∧
    (r.pend = [(1, act, v)] → r.after = some { r with hard := r.hard.set act v }) ∧ (r.pend = [(2, act, v)] → r.after = some { r with wt := v }) ∧
    (r.pend = [(3, act, v)] → r.after = none)) ∧
  (∀ s : State, ∃ u, exec .budgetUseExchange s = .next u ∧ u.ptp = max s.ptp (s.sch.exchAt + exchangeTicks) ∧ u.sch.exchAt = u.ptp ∧
    u.sch.rows.map Row.use0 = s.sch.rows.map Row.use0 ∧ u.sch.rows.map Row.use1 = s.sch.rows.map Row.use1 ∧
    ∀ r ∈ u.sch.rows, r.heard0 = r.use1 ∧ r.heard1 = r.use0) ∧
  (∀ (s u : State) (die : Nat) (c : Ctx) (q : QRef) (bs : List Byte) (p : JobPlan), die < 2 → (∀ j ∈ s.eng.qjobs, j.die ≠ die) → s.nextQuant die = some ((c, q), u) →
    u.readRec c none (q.hdr.item q.hdr.head) 64 = .ok bs → u.jobPlan c (q.hdr.item q.hdr.head) bs = .ok p →
    exec (.quantJobTake die) s = .next ((u.storeNat (q.pa + 16) 8 ((q.hdr.head + 1) % 2 ^ 64)).updEng fun e =>
      { e with qjobs := e.qjobs ++ [{ die := die, ctx := c.num, tenant := q.hdr.tenant, bcls := q.hdr.bcls, bytes := bs, bad := none, next := 0 }] })) ∧
  ∀ (s : State) (die : Nat) (j : QJob) (c : Ctx), (s.eng.qjobs.find? fun j => j.die == die) = some j → s.ctx? j.ctx = some c → s.jobHeld j = false →
    let gone := fun (s : State) => s.updEng fun e => { e with qjobs := e.qjobs.filter fun x => x.die != die }
    (∀ p u, j.bad = none → s.jobPlan c 0 j.bytes = .ok p →
      let len := unitLen p.cv.dfmt
      State.jobUnits c j p s ((List.range (((shapeOf p.dst).count + len - 1) / len)).drop j.next) = .done u →
      exec (.quantJobComplete die) s = .next ((gone u).jobSignal c j false)) ∧
    ∀ x, j.bad = some x → exec (.quantJobComplete die) s = .next (((gone s).jobFailed c j x).jobSignal c j true)

/-- The events of the engines and of the memories: an element that is due on an engine whose die is there and has power (R22) is performed,
in its own order only for reducing copies, and recorded in its command (R294, R303, R305); an element that meets a fault is recorded, and
its command held or its copy cancelled (R299); a copy with no element left completes with its tile READY (R297, R315); a destination of a
multicast fails (R305); an expired entry leaves the replay filter (R303); a wake frees the fired entries of a slice, wakes the groups that
wait there, in an entry or in the overflow list, and decrements the counters of counted monitors (R330, R332, R333); a finished walk enters
its leaf in the TLB of its cluster and in those of the cores that wait for it (R221), a line is written back with its tag (R227, R228); an
access from outside reads and writes HBM, and any other request is answered as unsupported (R21, R22, R399; a message of a peer is log entry
51). Which elements make one unit is log entry 19, that the loss of a copy element counts against the whole copy log entry 39, and COMPRESS
of a written-back line that of the page named log entry 57. -/
def Obligations.EngineEvents : Prop :=
  (∀ (s u : State) (die unit slot n : Nat) (k : Cmd) (c : Copy), s.cmd? die unit slot = some k → s.copy? k.copy = some c → k.due n = true →
    s.engineUp die = true → s.stampEarly c n = false → s.performUnit c die unit n = .ok u →
    (c.op ≠ .cpyr → exec (.copyElementPerformed die unit slot n) s = .next ((u.unitDone k n).tryStamp c.id)) ∧
    (c.op = .cpyr → exec (.reducingElementArrival die unit slot n) s = .next ((u.unitDone k n).tryStamp c.id)) ∧
    (s.dieRerouted die = true ∨ s.dieRerouted (coreDie c.core) = true →
      exec (.packetRetryReturn die unit slot n) s = .next ((u.unitDone k n).tryStamp c.id))) ∧
  (∀ (k : Cmd) (n : Nat), k.due n = true →
    (n ≠ k.p → (k.mark n).p = k.p ∧ n ∈ (k.mark n).above) ∧ (n = k.p → k.p < (k.mark n).p ∧ (k.mark n).due n = false)) ∧
  (∀ (s : State) (die unit slot n : Nat) (k : Cmd) (c : Copy), s.cmd? die unit slot = some k → s.copy? k.copy = some c → k.due n = true →
    s.engineUp die = true → s.stampEarly c n = false → (∀ x, s.performUnit c die unit n = .error (some x) →
      exec (.copyElementFault die unit slot n false) s = .next (s.faultUnit k c x)) ∧
    exec (.copyElementFault die unit slot n true) s = .next (s.faultUnit k c { code := 0x0060, addr := c.dst.unitAddr (fmtsOf c.conv c.src c.dst).2 n })) ∧
  (∀ (s : State) (k : Cmd) (c : Copy) (x : Exc), cancels x.code = false → ∃ u : State, s.faultUnit k c x = u.updCmd k.die k.unit k.slot
    (fun k => { k with held := some x }) ∧ u.eng = s.eng ∧ u.teams = s.teams) ∧
  (∀ (s : State) (id : Nat) (c : Copy), s.copy? id = some c → c.units ≤ c.placed → (s.eng.cmds.any fun k => k.copy == id) = false →
    exec (.copyComplete id) s = .next ((((s.logMcast id).setTiles c .ready).updEng fun e =>
      { e with copies := e.copies.filter fun x => x.id != id }).closeBatches)) ∧
  (∀ (s : State) (id core : Nat) (c : Copy) (p : Nat × Nat), s.copy? id = some c → (c.cores.find? fun p => p.1 == core) = some p → c.bar = none → c.tile = none →
    exec (.mcastDestinationFailure id (some core)) s = .next (((s.updCopy id fun c =>
      { c with cores := c.cores.filter fun q => q.1 != p.1, failed := c.failed ++ [p.1], told := false }).logMcast id).dropUnreached)) ∧
  (∀ (s : State) (site : Nat), ∃ u, exec (.replayFilterExpiry site) s = .next u ∧ u.mem = s.mem ∧ u.teams = s.teams ∧
    ∀ r, r ∈ u.eng.replay ↔ r ∈ s.eng.replay ∧ ¬ (r.site = site ∧ r.tick + replayTicks ≤ s.ptp)) ∧
  (∀ (s : State) (slice : Nat),
    let mine := fun e : Roost => e.slice == slice && e.fired && !(e.kind == .count && s.frozenCtx e.ctx)
    let spill := fun o : Ovf => o.slice == slice && o.fired
    let woken := ((s.roost.filter fun e => mine e && e.kind == .wait).map fun e => (e.team, e.grp)) ++
      ((s.ovf.filter spill).filter fun o => s.ovfMonitor o.slice o.team o.grp).map fun o => (o.team, o.grp)
    let u := woken.foldl (fun u k => u.updGrp k fun g => { g with monitor := g.monitor.map fun m => { m with fired := true } })
      { s with roost := s.roost.filter fun e => !mine e, ovf := s.ovf.filter fun o => !spill o }
    exec (.roostWake slice) s = .next ((s.roost.filter fun e => mine e && e.kind == .count).foldl (fun u e => u.decrement e.ctx e.jcva.toNat) u)) ∧
  (∀ (s : State) (die cluster ctx va entry : Nat) (c : Ctx) (l : Leaf), s.ctx? ctx = some c →
    walk (s.entries (chamberOf die) ctx va) va 3 c.ptroot = .ok (l, entry) →
    let leaf := fun (p : TlbPlace) => ({ place := p, ctx := ctx, va := va / 2 ^ l.bits * 2 ^ l.bits, bits := l.bits, pa := l.base, attr := l.attr } : TlbEntry)
    let mine := fun (m : Miss) => m.die = die ∧ m.cluster = cluster ∧ m.ctx = ctx ∧ m.va / 2 ^ l.bits = va / 2 ^ l.bits
    ∃ u, exec (.pageWalkComplete die cluster ctx va) s = .next u ∧ u.mem = s.mem ∧ u.teams = s.teams ∧ leaf (.cluster die cluster) ∈ u.tlb ∧
      (∀ m ∈ s.misses, mine m → ∀ core ∈ m.cores, leaf (.core core) ∈ u.tlb) ∧ ∀ m, m ∈ u.misses ↔ m ∈ s.misses ∧ ¬ mine m) ∧
  (∀ (s : State) (ctx va pa : Nat) (pk cm : Bool) (c : Ctx), s.ctx? ctx = some c → s.translate c none va 1 .read true = .ok (.phys pa pk cm) →
    (∃ r ∈ s.resident, r.line = pa / 128) →
    let bs := s.mem.bytes (128 * (pa / 128)) 128
    let tag := if cm then (lineTag bs).1 else 0
    ∃ u, exec (.sliceLineWriteBack ctx va) s = .next u ∧ u.mem = s.mem ∧ (∀ r, r ∈ u.resident ↔ r ∈ s.resident ∧ r.line ≠ pa / 128) ∧
      (tag = 0 → ∀ t ∈ u.tags, t.line ≠ pa / 128) ∧
      (tag ≠ 0 → { line := pa / 128, tag := BitVec.ofNat 4 tag, image := storedImage bs tag } ∈ u.tags)) ∧
  (∀ (s : State) (peer : Bool) (pa : Nat) (bs : List Byte), s.spanIn (fun r => r.hbm || r == (if peer then .peer else .host)) pa bs.length = true →
    (∀ l ∈ partLines pa bs.length, l ∉ s.poison ∧ s.badLine l = false) → s.memOk →
    let i := if peer then Instr.ualinkPeerRequest else Instr.casiumLinkHostAccess
    (∃ u, exec (i (.write pa bs)) s = .next u ∧ u.mem.bytes pa bs.length = bs ∧ (∀ a, a < pa ∨ pa + bs.length ≤ a → u.mem.get a = s.mem.get a) ∧
      u.reply = some { peer := peer, ok := true, bytes := [] }) ∧
    (s.lineEvent (.phys pa false false) bs.length = none → ∃ u, exec (i (.read pa bs.length)) s = .next u ∧ u.mem = s.mem ∧
      u.reply = some { peer := peer, ok := true, bytes := s.mem.bytes pa bs.length })) ∧
  ∀ s : State, exec (.ualinkPeerRequest .message) s = .next { s with reply := some { peer := true, ok := false, bytes := [] } }

/-- The events of contexts: a CTXCMD saves or terminates its context, or resumes or cancels a held copy (R299, R366, R375, R380); a save
that can be written is written, with its teams gone from the cores (R380 to R383, R389); a register write keeps to the mapped registers and
to those that the state of the context leaves open (R366); the watchdog terminates at the deadline of a save, to which the event brings the timebase
(log entry 2), but not while a stall of the context keeps the time from counting (R376); creation and destruction (R365). That a created context
runs at once, with both range sets alike, and that a destruction leaves the caches alone is log entry 29; that a cancel ends the whole copy is log entry 39; which
teams a save holds is log entry 48. -/
def Obligations.ContextEvents : Prop :=
  (∀ (s : State) (ctx : Nat) (c : Ctx), s.ctx? ctx = some c →
    (c.st = .running → exec (.ctxcmdSave ctx) s = .next (s.updCtx ctx fun c =>
      { c with saving := some (c.saving.getD .cmd), saveAt := if c.saving.isSome then c.saveAt else s.ptp })) ∧
    (c.st = .running ∨ c.st = .saved → ∃ u, exec (.ctxcmdTerminate ctx) s = .next u ∧ (u.ctx? ctx).map Ctx.st = some .terminated ∧
      (∀ k ∈ u.teams, k.ctx ≠ ctx) ∧ (∀ k ∈ u.eng.copies, k.ctx ≠ ctx) ∧ (s.waiters = [] → u.mem = s.mem)) ∧
    (∀ sel v, c.st ≠ .free → ¬ (0x104 ≤ sel ∧ sel ≤ 0x10A ∧ c.st = .running) →
      exec (.contextRegisterWrite ctx sel v) s = .next (s.updCtx ctx fun c => c.writeReg sel (v % 2 ^ 32))) ∧
    (∀ cause s1, c.saving = some cause → s.saveReady ctx = true → s.writeArea c (s.imaged c.num) cause = .ok s1 →
      ∃ u, exec (.contextSaveWritten ctx) s = .next u ∧ (u.ctx? ctx).map (fun c => (c.st, c.saving)) = some (.saved, none) ∧
        (∀ k ∈ u.teams, k.ctx = ctx → k.groups = []) ∧ (∀ x ∈ u.sch.cands, x.ctx ≠ ctx) ∧
        (s.waiters = [] → (s.filter ctx).en = false → u.mem = s1.mem)) ∧
    (∀ x t s1, c.saving = none → s.pendingSingle ctx = some (x, t) → s.savable t = true → s.writeArea c [t] .sched = .ok s1 →
      ∃ u, exec (.contextSaveWritten ctx) s = .next u ∧ u.team? t.id = none ∧
        (∀ y ∈ u.sch.cands, y.ctx = x.ctx → y.id = x.id → y.off = (s.planArea c).start) ∧ (s.waiters = [] → u.mem = s1.mem)) ∧
    (∀ t, s.saveBegan c = some t →
      (s.ptp < t + saveTicks → s.ctxStalled ctx = true → exec (.watchdog ctx 1) s = .next s) ∧
      (t + saveTicks ≤ s.ptp ∨ s.ctxStalled ctx = false → ∃ u, exec (.watchdog ctx 1) s = .next u ∧
        u = (if s.ptp < t + saveTicks then s.pass (s.pauseLeft + (t + saveTicks - s.ptp)) else s).watchdog ctx 1 ∧
        (u.ctx? ctx).map Ctx.st = some .terminated ∧ t + saveTicks ≤ u.ptp)) ∧
    (∀ d, d ≠ 1 → s.saveFails c = some d → ∃ u, exec (.watchdog ctx d) s = .next u ∧ u = s.watchdog ctx d ∧ (u.ctx? ctx).map Ctx.st = some .terminated) ∧
    (ctx ≠ 0 → ∃ u, exec (.contextDestroy ctx) s = .next u ∧ u.ctx? ctx = none ∧ (∀ k ∈ u.teams, k.ctx ≠ ctx) ∧ (∀ m ∈ u.misses, m.ctx ≠ ctx) ∧
      (∀ e ∈ u.roost, e.ctx ≠ ctx) ∧ u.tlb = s.tlb ∧ u.pwc = s.pwc ∧ u.l1 = s.l1 ∧ u.shapes = s.shapes ∧
      (s.waiters = [] → u.mem = s.mem))) ∧
  (∀ (s : State) (ctx die unit slot : Nat) (k : Cmd), s.heldCmd ctx die unit slot = some k →
    exec (.ctxcmdEngresume ctx die unit slot) s = .next (s.updCmd die unit slot fun k => { k with held := none }) ∧
    exec (.ctxcmdEngcancel ctx die unit slot) s = .next (s.cancelCopy k.copy)) ∧
  ∀ (s : State) (c : CtxIn), c.num < 256 → (∀ x, s.ctx? c.num = some x → x.st = .free) → badRange s.pkg.hbmsplit (ctxRanges c.ranges) = none →
    ∃ u x, exec (.contextCreate c) s = .next u ∧ u.ctx? c.num = some x ∧ x.st = .running ∧ x.priv = c.priv ∧ x.tenant = c.tenant ∧ x.seed = c.seed ∧
      x.svcq = c.svcq ∧ x.epoch = 0#32 ∧ x.committed = ctxRanges c.ranges ∧ x.staged = ctxRanges c.ranges ∧ u.mem = s.mem ∧
      ∀ k, k ≠ c.num → u.ctx? k = s.ctx? k

/-- The events of Echo and of the timebase: the oldest event of a buffer whose tag is not held moves to the hub of its chamber die, and its source
has room again (R360 to R362); the least event in the order of R359 is written to its sink, and with none to write the drop counts are told
(R358, R361; their order is log entry 23); a die's saturations since the last report are reported (R352; from unit 0x200 and at most 2^32 - 1 at a
time, log entry 17); of the relayed messages of the selected domain an Announce tells of a master, and a Sync, its Follow_Up and a Delay_Resp of the
chosen one measure the offset (R354; the algorithms of IEEE 1588 are log entry 86); a line of the pin is "T", twelve digits, CR and LF, and
an edge within 900 ms of it moves the timebase (R354; its offset is log entry 24), which never goes back; a lost source is forgotten, at the moment
to which the event brings the timebase (R354 to R356; log entry 2). -/
def Obligations.EchoAndTimeEvents : Prop :=
  (∀ (s : State) (i : Nat) (b : Buf) (x : Ev) (xs ys : List Ev), s.echo.bufs[i]? = some b → b.evs = xs ++ x :: ys → (∀ y ∈ xs, s.drainHeld y.tag = true) → s.drainHeld x.tag = false →
    exec (.echoBufferDrain i) s = .next ((s.updEcho fun e => { (e.toHub (chamberOf b.die) [x]) with bufs := e.bufs.set i { b with evs := xs ++ ys } }).tellDrops
      fun d => d.die == b.die && d.unit == b.unit)) ∧
  (∀ (s : State) (x : Ev), leastEv (s.echo.held.filter fun e => !s.writeHeld e) = some x → s.settledEv x = true →
    exec .echoSinkWrite s = .next ((s.updEcho fun e => e.take x).sinkEvent x)) ∧
  (∀ s : State, (∀ e ∈ s.echo.held, s.writeHeld e = true) → exec .echoSinkWrite s = .next (s.tellDrops fun _ => true)) ∧
  (∀ (s : State) (die : Nat), s.dieSat die - getKey s.echo.reported die ≠ 0 →
    exec (.saturationReport die) s = .next ((s.updEcho fun e => { e with reported := setKey e.reported die (s.dieSat die) }).emitEngine die 0x200 0x22 0
      (BitVec.ofNat 32 (min (s.dieSat die - getKey s.echo.reported die) (2 ^ 32 - 1))))) ∧
  (∀ (s : State) (m : PtpMsg),
    (s.echo.time.pins = true ∨ m.domain ≠ s.echo.time.domain → exec (.ptpMessage m) s = .next s) ∧
    (s.echo.time.pins = false → m.domain = s.echo.time.domain →
      (∀ rank, m.body = .announce rank → exec (.ptpMessage m) s = .next (s.updTime fun t =>
        ({ t with masters := noteMaster t.masters m.source rank s.ptp } : TimeMaster).choose s.ptp)) ∧
      (bestMaster s.echo.time.masters s.ptp ≠ some m.source → (∀ rank, m.body ≠ .announce rank) →
        exec (.ptpMessage m) s = .next (s.updTime fun t => t.choose s.ptp)) ∧
      (s.echo.time.parent = some m.source → bestMaster s.echo.time.masters s.ptp = some m.source →
        (∀ age, m.body = .sync age →
          exec (.ptpMessage m) s = .next (s.updTime fun t => { t with sync := some (m.seq, (s.ptp : Int) - age) })) ∧
        (∀ origin arr, m.body = .followUp origin → s.echo.time.sync = some (m.seq, arr) →
          let ms := sInt 56 (wrapInt 56 (arr + s.echo.time.epoch - origin))
          let u := s.updTime fun t => { t with sync := none, ms := some ms }
          (s.echo.time.path = none → exec (.ptpMessage m) s = .next u) ∧
          ∀ p, s.echo.time.path = some p → p - ms ≤ (ticks1us : Int) → exec (.ptpMessage m) s = .next (u.timeUpdate (p - ms))) ∧
        ∀ origin age ms, m.body = .delayResp origin age → s.echo.time.ms = some ms →
          exec (.ptpMessage m) s = .next (s.updTime fun t =>
            { t with path := some ((ms + sInt 56 (wrapInt 56 ((origin : Int) - t.epoch - ((s.ptp : Int) - age)))) / 2) })))) ∧
  (∀ (s : State) (offset : Int) (secs line : Nat), s.echo.time.pins = true → s.echo.time.tod = some (secs, line) →
    let edge := (s.ptp : Int) - offset
    let u := s.updTime fun t => { t with tod := none }
    ((line : Int) ≤ edge → edge - line ≤ todTicks → exec (.ppsEdge offset) s =
      .next (u.timeUpdate (sInt 56 (wrapInt 56 ((secs * ticks1s : Int) - s.echo.time.epoch + offset - s.ptp))))) ∧
    (edge < line ∨ todTicks < edge - line → exec (.ppsEdge offset) s = .next u)) ∧
  (∀ (s : State) (line : List Byte),
    (s.echo.time.pins = true → exec (.todLine line) s = .next (s.updTime fun t => { t with tod := (todSecs line).map fun n => (n, s.ptp) })) ∧
    (s.echo.time.pins = false → exec (.todLine line) s = .next s)) ∧
  (∀ (line : List Byte) (n : Nat), todSecs line = some n ↔ ∃ ds : List Byte, line = 0x54#8 :: (ds ++ [0x0D#8, 0x0A#8]) ∧ ds.length = 12 ∧
    (∀ d ∈ ds, 0x30 ≤ d.toNat ∧ d.toNat ≤ 0x39) ∧ n = ds.foldl (fun n d => 10 * n + (d.toNat - 0x30)) 0) ∧
  (∀ (s : State) (h : Nat), s.echo.time.heard = some h →
    (s.echo.time.st = .locked → ∃ u, exec .timeSourceLost s = .next u ∧ u = (s.pass (h + 2 * ticks1s - s.ptp)).timeTo .holdover ∧
      u.echo.time.st = .holdover ∧ h + 2 * ticks1s ≤ u.ptp ∧ u.mem = s.mem) ∧
    (s.echo.time.st ≠ .locked → ∃ u, exec .timeSourceLost s = .next u ∧ u.echo.time.st = .freerun ∧ u.echo.time.good = 0 ∧ u.echo.time.heard = none ∧
      h + 16 * ticks1s ≤ u.ptp ∧ u.mem = s.mem)) ∧
  ∀ (s : State) (offset : Int), let u := s.timeUpdate offset
    s.ptp ≤ u.ptp ∧ u.mem = s.mem ∧ u.echo.time.heard = some u.ptp ∧ ((ticks1us : Int) < offset → u.ptp = s.ptp + offset.toNat) ∧
    (offset ≤ (ticks1us : Int) → u.ptp = s.ptp) ∧ (s.echo.time.st = .freerun → u.echo.time.st = .acquiring) ∧
    (s.echo.time.st ≠ .freerun → offset.natAbs < ticks100ns → 8 ≤ s.echo.time.good + 1 → u.echo.time.st = .locked)

/-- The events of the package: boot (R392), the standby host and a fatal error (R390, R391), a lost and a returning link (R20, R393, R394),
the recomputation of the numbering (R14), the operating point and the gates (R400, R401), the drain of a die and its deadline (R402), the
management registers (R404), the attestation (R396, R398) and the reset of a drained chiplet (R403). The model's choices: boot drops what HBM held
(log entry 1) and takes its images in the order of log entry 25; CAUSE 3 stands for Phimus (log entry 27); a side link that a failure takes,
and the paths of traffic (log entry 71); a missing chiplet takes its engine and siphon counts with it (log entry 85; R22); several drains
stand side by side (log entry 69), and their deadline event brings the timebase there (log entry 2); the leaves that the signatures of a report
use (log entry 73). -/
def Obligations.PackageEvents : Prop :=
  (∀ (s : State) (b : BootIn) (p : Phimus), ∃ u, exec (.powerOnReset b) s = .next u ∧ u.teams = [] ∧ u.cur = none ∧
    u.mem = s.mem.filter (fun c => decide (2 ^ 50 ≤ c.1)) ∧
    (bootOutcome b s.pkg.phimus = (false, p) → u.pkg.phimus = { p.unloaded with held := true } ∧ u.ctxs = []) ∧
    (bootOutcome b s.pkg.phimus = (true, p) → u.pkg.phimus = p ∧ u.ctxs = State.reset.ctxs ∧
      u.pkg.mgmt.diepres = presentDies (b.fuse &&& ~~~ 3#14) b.train ∧ u.pkg.numbered = u.pkg.mgmt.diepres)) ∧
  (∀ (b : BootIn) (p q : Phimus),
    let one := p.roms b.images
    let pres := presentDies (b.fuse &&& ~~~ 3#14) b.train
    ((one.1 = false ∧ one.2.1 = false) ∨ b.bridge = false ∨ b.hbm = false → (bootOutcome b p).1 = false) ∧
    (one.1 = true ∨ one.2.1 = true → b.bridge = true → b.hbm = true → Phimus.rest b.images (stepSeven pres) one.2.2 = (true, q) →
      bootOutcome b p = (true, bootPhimus q pres (if one.1 then 0 else 1) (one.1 && one.2.1)))) ∧
  (∀ s : State, (s.pkg.phimus.host = 0 → s.pkg.phimus.standby = true →
      exec .phimusFailure s = .next (s.updPkg fun p => { p with phimus := { p.phimus with host := 1, standby := false } })) ∧
    (s.pkg.phimus.host ≠ 0 ∨ s.pkg.phimus.standby = false → exec .phimusFailure s = exec (.packageFatalError 3 s.pkg.phimus.host) s)) ∧
  (∀ (s : State) (cause die : Nat),
    (s.pkg.phimus.fatal = none → ∃ u, exec (.packageFatalError cause die) s = .next u ∧ u.mem = s.mem ∧
      u.pkg.phimus.fatal = some (cause, die, (s.ctxs.filter fun c => c.st == .running).map Ctx.num) ∧ ∀ c ∈ u.ctxs, c.st = .running → c.saving.isSome = true) ∧
    (∀ x d saved, s.pkg.phimus.fatal = some (x, d, saved) → (∀ c ∈ s.ctxs, c.st ≠ .running) → ∃ u, exec (.packageFatalError cause die) s = .next u ∧
      u = s.dumpAndHold x d saved ∧ u.pkg.phimus.held = true ∧ u.cur = none)) ∧
  (∀ (s : State) (die : Nat) (sides : Bool), s.dieLinked die = true →
    let s1 := (s.updDie die fun d => { d with rerouted := true }).updPkg fun p =>
      { p with sides := if sides then addLines [die, ringPrev die] p.sides else p.sides, logs := p.logs ++ [{ pa := 0, die := die, unit := 0, code := 0x0060 }] }
    ((∀ d ∈ s1.pkg.dies, d.rerouted = true → s1.dieLinked d.num = true → s1.sidePath d.num = true) → exec (.chipletLinkFailure die sides) s = .next s1) ∧
    (∀ d, (s1.pkg.dies.find? fun d => d.rerouted && s1.dieLinked d.num && !s1.sidePath d.num) = some d →
      exec (.chipletLinkFailure die sides) s = .next ((s1.loseDie d.num).checkPaths 13))) ∧
  (∀ (s : State) (die : Nat), die < 14 → let u := s.loseDie die
    u.diePresent die = false ∧ (∀ t ∈ u.teams, t.core ≠ 0 → ∀ c ∈ t.cores, coreDie c ≠ die) ∧ (∀ l ∈ u.l1, coreDie l.home ≠ die) ∧
    (∀ x ∈ u.eng.counts, x.die ≠ die) ∧ (∀ k ∈ u.eng.cmds, k.die ≠ die) ∧
    (∀ x ∈ u.echo.drops, x.ofEngines die = false) ∧ (∀ x, u.die? die = some x → x.lost = true ∧ x.out = false) ∧ ∀ t ∈ s.teams, t.core ≠ 0 → (∃ c ∈ t.cores, coreDie c = die) → ∀ c, u.ctx? t.ctx = some c → c.st = .terminated) ∧
  (∀ (s : State) (die : Nat) (d : Die), s.die? die = some d →
    let up := s.linksUp die
    (d.lost = false → d.inReset = false → exec (.linkRetrainComplete die true) s = .next up) ∧
    (d.lost = true ∨ d.inReset = true →
      let s1 := up.updDie die fun d => { d with lost := false, inReset := false }
      (s.pkg.numbered.getLsbD die = true →
        exec (.linkRetrainComplete die true) s = .next (s1.updMgmt fun m => { m with diepres := setDie m.diepres die true })) ∧
      (s.pkg.numbered.getLsbD die = false → exec (.linkRetrainComplete die true) s = .next (s1.updDie die fun d => { d with out := true })) ∧
      (die < 14 → ∃ u, exec (.linkRetrainComplete die false) s = .next u ∧ u.diePresent die = false ∧ (u.die? die).map Die.lost = some true))) ∧
  (∀ s : State, s.teams = [] → s.eng.cmds = [] →
    ∃ u, exec .packageRecompute s = .next u ∧ (∀ d ∈ u.pkg.dies, d.out = false) ∧ u.pkg.numbered = u.pkg.mgmt.diepres ∧
      u.pkg.mgmt.diepres = ((s.pkg.dies.filter Die.out).map Die.num).foldl (fun x d => setDie x d true) s.pkg.mgmt.diepres ∧ u.teams = [] ∧
      u.ctxs = s.ctxs) ∧
  (∀ (s : State) (v : BitVec 2),
    (s.pkg.mgmt.busy = true → exec (.opptReq v) s = .next (s.updMgmt fun m => { m with opptNext := some v })) ∧
    (s.pkg.mgmt.busy = false → v = s.pkg.mgmt.cur → exec (.opptReq v) s = .next (s.updMgmt fun m => { m with req := v })) ∧
    (s.pkg.mgmt.busy = false → v ≠ s.pkg.mgmt.cur → ∃ u, exec (.opptReq v) s = .next u ∧ u.pkg.mgmt.req = v ∧ u.pkg.mgmt.busy = true ∧
      u.pkg.mgmt.cur = s.pkg.mgmt.cur ∧ u.pkg.mgmt.pauseTill ≤ s.ptp + 80000 ∧ u.mem = s.mem ∧ u.teams = s.teams)) ∧
  (∀ s : State, s.pkg.mgmt.busy = true → ∃ u, exec .opptChangeComplete s = .next u ∧ u.pkg.mgmt.cur = s.pkg.mgmt.req ∧ u.mem = s.mem ∧
    u.pkg.mgmt.opptNext = none ∧ (s.pkg.mgmt.opptNext = none → u.pkg.mgmt.busy = false) ∧
    ∀ v, s.pkg.mgmt.opptNext = some v → u.pkg.mgmt.req = v ∧ u.pkg.mgmt.busy = (v != s.pkg.mgmt.req)) ∧
  (∀ (s : State) (v : BitVec 14), exec (.gateReq v) s = .next (s.updMgmt fun m => { m with greq := v &&& ~~~ 3#14 })) ∧
  (∀ (s : State) (die : Nat), 2 ≤ die → die < 14 →
    (s.pkg.mgmt.greq.getLsbD die = true → s.pkg.mgmt.gcur.getLsbD die = false → s.dieDrained die = true →
      let s1 := s.updMgmt fun m => { m with gcur := setDie m.gcur die true }
      (∃ u, exec (.gateChangeComplete die) s = .next u ∧ u.pkg.mgmt.gcur = s1.pkg.mgmt.gcur ∧ u.pkg.numbered = s.pkg.numbered) ∧
      ((∀ d ∈ s1.pkg.dies, d.rerouted = true → s1.dieLinked d.num = true → s1.sidePath d.num = true) →
        exec (.gateChangeComplete die) s = .next s1)) ∧
    (s.pkg.mgmt.greq.getLsbD die = false → s.pkg.mgmt.gcur.getLsbD die = true →
      exec (.gateChangeComplete die) s = .next ((s.updMgmt fun m => { m with gcur := setDie m.gcur die false }).linksUp die))) ∧
  (∀ (s : State) (die : Nat), 2 ≤ die → die < 14 →
    let set := fun on => s.updMgmt fun m => { m with svcDrain := on, svcDie := BitVec.ofNat 4 die }
    (s.dieDraining die = false → exec (.svcDrain die) s =
      .next (((set true).updMgmt fun m => { m with drains := m.drains ++ [{ die := die, since := s.ptp, drained := false }] }).testDrained)) ∧
    exec (.svcReadmit die) s = .next ((set false).updMgmt fun m => { m with drains := m.drains.filter fun x => x.die != die })) ∧
  (∀ (s : State) (x : Drain), s.nextDrain = some x →
    let u := s.pass (x.since + s.pkg.mgmt.dmax.toNat * 4000 - s.ptp)
    x.since + s.pkg.mgmt.dmax.toNat * 4000 ≤ u.ptp ∧
    exec .drainDeadline s = .next (((u.onDie x.die).foldl State.deadlineTeam u).testDrained)) ∧
  (∀ (s : State) (v : Nat),
    exec (.mgmtRegisterWrite 0x10 v) s = exec (.opptReq (BitVec.ofNat 2 v)) s ∧ exec (.mgmtRegisterWrite 0x18 v) s = exec (.gateReq (BitVec.ofNat 14 v)) s ∧
    (∃ u, exec (.mgmtRegisterWrite 0x20 v) s = .next u ∧ u.pkg.mgmt = { s.pkg.mgmt with qdir := natBits v 12 40 * 4096 } ∧ u.mem = s.mem ∧
      ∀ i, i < 4096 → ∀ p, u.tailOf i = some p → ∃ b, (p.2.2, b) ∈ u.sch.tails) ∧
    exec (.mgmtRegisterWrite 0x28 v) s = .next (s.updMgmt fun m => { m with dumpbase := natBits v 12 40 * 4096 }) ∧
    exec (.mgmtRegisterWrite 0x30 v) s = .next (s.updMgmt fun m => { m with dumpsz := natBits v 0 16 }) ∧
    exec (.mgmtRegisterWrite 0x38 v) s = exec (if natBit v 8 then .svcDrain (natBits v 0 4) else .svcReadmit (natBits v 0 4))
      (s.updMgmt fun m => { m with dmax := BitVec.ofNat 32 (natBits v 16 32) }) ∧
    (s.onlyZero = true → splitOk (natBits v 0 9) = true → exec (.mgmtRegisterWrite 0x08 v) s = .next (s.updPkg fun p => { p with hbmsplit := natBits v 0 9 }))) ∧
  (∀ (s : State) (nonce : W64),
    ((∀ d ∈ s.signers, getKey s.pkg.phimus.leaves d < 1024) →
      ∃ u r, exec (.attestationReport nonce) s = .next u ∧
        u.pkg.phimus = { s.signers.foldl Phimus.sign s.pkg.phimus with exhausted := false, report := some r } ∧ r.nonce = nonce ∧
        r.diepres = s.pkg.mgmt.diepres ∧ r.diefuse = s.pkg.mgmt.diefuse ∧ r.images = s.pkg.phimus.images ∧ r.sig.length = 2604 * (r.signers.length + 1) ∧
        (∀ d, d ∈ r.signers ↔ s.diePresent d = true) ∧ u.mem = s.mem) ∧
    ((∃ d ∈ s.signers, 1024 ≤ getKey s.pkg.phimus.leaves d) →
      exec (.attestationReport nonce) s = .next (s.updPkg fun k => { k with phimus := { k.phimus with exhausted := true, report := none } }))) ∧
  (∀ (p : Phimus) (d : Nat),
    (getKey p.reports d < 1024 → getKey (p.sign d).reports d = getKey p.reports d + 1 ∧ (p.sign d).leaves = p.leaves) ∧
    (1024 ≤ getKey p.reports d → getKey (p.sign d).reports d = 1 ∧ getKey (p.sign d).leaves d = getKey p.leaves d + 1)) ∧
  ∀ (s : State) (die : Nat), s.dieDrained die = true → s.dieAlive die = true →
    ∃ u, exec (.chipletReset die) s = .next u ∧ (u.die? die).map Die.inReset = some true ∧ u.clks = s.clks.set die 0#64 ∧
      (∀ l ∈ u.l1, coreDie l.home ≠ die) ∧ (∀ e ∈ u.tlb, e.place.onDie die = false) ∧ ∀ m ∈ u.misses, m.die ≠ die

/-- An image is accepted only if both signatures verify under the fused keys and its VERSION is at least the fused rollback counter of its TYPE;
an accepted one with a higher VERSION raises the counter to that VERSION; an image whose signatures no key verifies is rejected whatever else
holds (R397). Which dies an image may be loaded on, and when, is `imageNow`, and a siphon image has rule version 1 (R403; log entries 25, 52).
Scheduler firmware loads for a time that the spec does not state (log entry 70); meanwhile the scheduler of its chamber die makes no rounds, and that
of the other serves both (R403): no image leaves both loading. -/
def Obligations.ImageUpdate : Prop :=
  (∀ (s : State) (i : ImageIn),
    let counter := getKey s.pkg.phimus.rollback i.typ
    let signed := ∃ k ∈ s.pkg.phimus.keys, k.die = chamberOf i.die ∧ imageSigned k i = true
    (¬ signed ∨ i.version.toNat < counter → exec (.imageUpdate i) s = .next s) ∧
    (signed → counter ≤ i.version.toNat → s.imageNow i = true → (i.typ = 3 → i.rules = 1) → ∃ u, exec (.imageUpdate i) s = .next u ∧
      u.pkg.phimus.images.getLast? = some { typ := i.typ, die := i.die, version := i.version, len := i.len, body := i.body } ∧
      getKey u.pkg.phimus.rollback i.typ = max counter i.version.toNat ∧
      (∀ k, k ≠ i.typ → getKey u.pkg.phimus.rollback k = getKey s.pkg.phimus.rollback k) ∧
      (i.typ = 1 → s.ptp ≤ getKey u.pkg.phimus.loading i.die ∧ u.hubLoading (1 - i.die) = false) ∧ (i.typ ≠ 1 → u.pkg.phimus.loading = s.pkg.phimus.loading) ∧
      u.mem = s.mem ∧ u.teams = s.teams ∧ u.ctxs = s.ctxs)) ∧
  ∀ (s : State) (die : Nat), die < 2 →
    (s.hubLoading die = true → s.hubsOf die = [] ∧ exec (.schedulingRound die) s = .next s) ∧
    (s.hubLoading die = false → s.hubLoading (1 - die) = false → s.hubsOf die = [die]) ∧
    (s.hubLoading die = false → s.hubLoading (1 - die) = true →
      s.hubsOf die = [die, 1 - die] ∧ exec (.schedulingRound die) s = .next ((s.round die).round (1 - die)))
end

