-- ==== Sys2Proof/Laws/Group.lean ====
section
/-! SUPPORT. One lemma per field per update of a group, and of a team or a thread. -/

namespace Sys2Proof.Machine

/-! ### `setS` -/

@[simp] theorem Group.setS_idx (g : Group) (i : Nat) (x : W32) : (g.setS i x).idx = g.idx := rfl
@[simp] theorem Group.setS_pc (g : Group) (i : Nat) (x : W32) : (g.setS i x).pc = g.pc := rfl
@[simp] theorem Group.setS_pos (g : Group) (i : Nat) (x : W32) : (g.setS i x).pos = g.pos := rfl
@[simp] theorem Group.setS_clause (g : Group) (i : Nat) (x : W32) : (g.setS i x).clause = g.clause := rfl
@[simp] theorem Group.setS_resw (g : Group) (i : Nat) (x : W32) : (g.setS i x).resw = g.resw := rfl
@[simp] theorem Group.setS_mask (g : Group) (i : Nat) (x : W32) : (g.setS i x).mask = g.mask := rfl
@[simp] theorem Group.setS_live (g : Group) (i : Nat) (x : W32) : (g.setS i x).live = g.live := rfl
@[simp] theorem Group.setS_stk (g : Group) (i : Nat) (x : W32) : (g.setS i x).stk = g.stk := rfl
@[simp] theorem Group.setS_threads (g : Group) (i : Nat) (x : W32) : (g.setS i x).threads = g.threads := rfl
@[simp] theorem Group.setS_hage (g : Group) (i : Nat) (x : W32) : (g.setS i x).hage = g.hage := rfl
@[simp] theorem Group.setS_resv (g : Group) (i : Nat) (x : W32) : (g.setS i x).resv = g.resv := rfl
@[simp] theorem Group.setS_touched (g : Group) (i : Nat) (x : W32) : (g.setS i x).touched = g.touched := rfl
@[simp] theorem Group.setS_land (g : Group) (i : Nat) (x : W32) : (g.setS i x).land = g.land := rfl
@[simp] theorem Group.setS_wait (g : Group) (i : Nat) (x : W32) : (g.setS i x).wait = g.wait := rfl
@[simp] theorem Group.setS_wpc (g : Group) (i : Nat) (x : W32) : (g.setS i x).wpc = g.wpc := rfl
@[simp] theorem Group.setS_wword (g : Group) (i : Nat) (x : W32) : (g.setS i x).wword = g.wword := rfl
@[simp] theorem Group.setS_prior (g : Group) (i : Nat) (x : W32) : (g.setS i x).prior = g.prior := rfl
@[simp] theorem Group.setS_mstat (g : Group) (i : Nat) (x : W32) : (g.setS i x).mstat = g.mstat := rfl
@[simp] theorem Group.setS_keep (g : Group) (i : Nat) (x : W32) : (g.setS i x).keep = g.keep := rfl
@[simp] theorem Group.setS_ktag (g : Group) (i : Nat) (x : W32) : (g.setS i x).ktag = g.ktag := rfl
@[simp] theorem Group.setS_snaps (g : Group) (i : Nat) (x : W32) : (g.setS i x).snaps = g.snaps := rfl
@[simp] theorem Group.setS_seq (g : Group) (i : Nat) (x : W32) : (g.setS i x).seq = g.seq := rfl
@[simp] theorem Group.setS_outb (g : Group) (i : Nat) (x : W32) : (g.setS i x).outb = g.outb := rfl
@[simp] theorem Group.setS_unsealed (g : Group) (i : Nat) (x : W32) : (g.setS i x).unsealed = g.unsealed := rfl
@[simp] theorem Group.setS_pendingStores (g : Group) (i : Nat) (x : W32) : (g.setS i x).pendingStores = g.pendingStores := rfl
@[simp] theorem Group.setS_late (g : Group) (i : Nat) (x : W32) : (g.setS i x).late = g.late := rfl
@[simp] theorem Group.setS_wrote (g : Group) (i : Nat) (x : W32) : (g.setS i x).wrote = g.wrote := rfl
@[simp] theorem Group.setS_part (g : Group) (i : Nat) (x : W32) : (g.setS i x).part = g.part := rfl
@[simp] theorem Group.setS_monitor (g : Group) (i : Nat) (x : W32) : (g.setS i x).monitor = g.monitor := rfl
@[simp] theorem Group.setS_csel (g : Group) (i : Nat) (x : W32) : (g.setS i x).csel = g.csel := rfl
@[simp] theorem Group.setS_call (g : Group) (i : Nat) (x : W32) : (g.setS i x).call = g.call := rfl
@[simp] theorem Group.setS_deferred (g : Group) (i : Nat) (x : W32) : (g.setS i x).deferred = g.deferred := rfl
@[simp] theorem Group.setS_traceDrop (g : Group) (i : Nat) (x : W32) : (g.setS i x).traceDrop = g.traceDrop := rfl
@[simp] theorem Group.setS_tslots (g : Group) (i : Nat) (x : W32) : (g.setS i x).tslots = g.tslots := rfl
@[simp] theorem Group.setS_slot (g : Group) (i : Nat) (x : W32) : (g.setS i x).slot = g.slot := rfl

/-! ### `reserve` -/

@[simp] theorem Group.reserve_idx (g : Group) (r : Resv) : (g.reserve r).idx = g.idx := rfl
@[simp] theorem Group.reserve_pc (g : Group) (r : Resv) : (g.reserve r).pc = g.pc := rfl
@[simp] theorem Group.reserve_pos (g : Group) (r : Resv) : (g.reserve r).pos = g.pos := rfl
@[simp] theorem Group.reserve_clause (g : Group) (r : Resv) : (g.reserve r).clause = g.clause := rfl
@[simp] theorem Group.reserve_resw (g : Group) (r : Resv) : (g.reserve r).resw = g.resw := rfl
@[simp] theorem Group.reserve_mask (g : Group) (r : Resv) : (g.reserve r).mask = g.mask := rfl
@[simp] theorem Group.reserve_live (g : Group) (r : Resv) : (g.reserve r).live = g.live := rfl
@[simp] theorem Group.reserve_stk (g : Group) (r : Resv) : (g.reserve r).stk = g.stk := rfl
@[simp] theorem Group.reserve_s (g : Group) (r : Resv) : (g.reserve r).s = g.s := rfl
@[simp] theorem Group.reserve_threads (g : Group) (r : Resv) : (g.reserve r).threads = g.threads := rfl
@[simp] theorem Group.reserve_hage (g : Group) (r : Resv) : (g.reserve r).hage = g.hage := rfl
@[simp] theorem Group.reserve_touched (g : Group) (r : Resv) : (g.reserve r).touched = g.touched := rfl
@[simp] theorem Group.reserve_land (g : Group) (r : Resv) : (g.reserve r).land = g.land := rfl
@[simp] theorem Group.reserve_wait (g : Group) (r : Resv) : (g.reserve r).wait = g.wait := rfl
@[simp] theorem Group.reserve_wpc (g : Group) (r : Resv) : (g.reserve r).wpc = g.wpc := rfl
@[simp] theorem Group.reserve_wword (g : Group) (r : Resv) : (g.reserve r).wword = g.wword := rfl
@[simp] theorem Group.reserve_prior (g : Group) (r : Resv) : (g.reserve r).prior = g.prior := rfl
@[simp] theorem Group.reserve_mstat (g : Group) (r : Resv) : (g.reserve r).mstat = g.mstat := rfl
@[simp] theorem Group.reserve_keep (g : Group) (r : Resv) : (g.reserve r).keep = g.keep := rfl
@[simp] theorem Group.reserve_ktag (g : Group) (r : Resv) : (g.reserve r).ktag = g.ktag := rfl
@[simp] theorem Group.reserve_snaps (g : Group) (r : Resv) : (g.reserve r).snaps = g.snaps := rfl
@[simp] theorem Group.reserve_seq (g : Group) (r : Resv) : (g.reserve r).seq = g.seq := rfl
@[simp] theorem Group.reserve_outb (g : Group) (r : Resv) : (g.reserve r).outb = g.outb := rfl
@[simp] theorem Group.reserve_unsealed (g : Group) (r : Resv) : (g.reserve r).unsealed = g.unsealed := rfl
@[simp] theorem Group.reserve_pendingStores (g : Group) (r : Resv) : (g.reserve r).pendingStores = g.pendingStores := rfl
@[simp] theorem Group.reserve_late (g : Group) (r : Resv) : (g.reserve r).late = g.late := rfl
@[simp] theorem Group.reserve_wrote (g : Group) (r : Resv) : (g.reserve r).wrote = g.wrote := rfl
@[simp] theorem Group.reserve_part (g : Group) (r : Resv) : (g.reserve r).part = g.part := rfl
@[simp] theorem Group.reserve_monitor (g : Group) (r : Resv) : (g.reserve r).monitor = g.monitor := rfl
@[simp] theorem Group.reserve_csel (g : Group) (r : Resv) : (g.reserve r).csel = g.csel := rfl
@[simp] theorem Group.reserve_call (g : Group) (r : Resv) : (g.reserve r).call = g.call := rfl
@[simp] theorem Group.reserve_deferred (g : Group) (r : Resv) : (g.reserve r).deferred = g.deferred := rfl
@[simp] theorem Group.reserve_traceDrop (g : Group) (r : Resv) : (g.reserve r).traceDrop = g.traceDrop := rfl
@[simp] theorem Group.reserve_tslots (g : Group) (r : Resv) : (g.reserve r).tslots = g.tslots := rfl
@[simp] theorem Group.reserve_slot (g : Group) (r : Resv) : (g.reserve r).slot = g.slot := rfl

/-! ### `mapThreads` -/

@[simp] theorem Group.mapThreads_idx (g : Group) (f : Nat → Thread → Thread) : (g.mapThreads f).idx = g.idx := rfl
@[simp] theorem Group.mapThreads_pc (g : Group) (f : Nat → Thread → Thread) : (g.mapThreads f).pc = g.pc := rfl
@[simp] theorem Group.mapThreads_pos (g : Group) (f : Nat → Thread → Thread) : (g.mapThreads f).pos = g.pos := rfl
@[simp] theorem Group.mapThreads_clause (g : Group) (f : Nat → Thread → Thread) : (g.mapThreads f).clause = g.clause := rfl
@[simp] theorem Group.mapThreads_resw (g : Group) (f : Nat → Thread → Thread) : (g.mapThreads f).resw = g.resw := rfl
@[simp] theorem Group.mapThreads_mask (g : Group) (f : Nat → Thread → Thread) : (g.mapThreads f).mask = g.mask := rfl
@[simp] theorem Group.mapThreads_live (g : Group) (f : Nat → Thread → Thread) : (g.mapThreads f).live = g.live := rfl
@[simp] theorem Group.mapThreads_stk (g : Group) (f : Nat → Thread → Thread) : (g.mapThreads f).stk = g.stk := rfl
@[simp] theorem Group.mapThreads_s (g : Group) (f : Nat → Thread → Thread) : (g.mapThreads f).s = g.s := rfl
@[simp] theorem Group.mapThreads_hage (g : Group) (f : Nat → Thread → Thread) : (g.mapThreads f).hage = g.hage := rfl
@[simp] theorem Group.mapThreads_resv (g : Group) (f : Nat → Thread → Thread) : (g.mapThreads f).resv = g.resv := rfl
@[simp] theorem Group.mapThreads_touched (g : Group) (f : Nat → Thread → Thread) : (g.mapThreads f).touched = g.touched := rfl
@[simp] theorem Group.mapThreads_land (g : Group) (f : Nat → Thread → Thread) : (g.mapThreads f).land = g.land := rfl
@[simp] theorem Group.mapThreads_wait (g : Group) (f : Nat → Thread → Thread) : (g.mapThreads f).wait = g.wait := rfl
@[simp] theorem Group.mapThreads_wpc (g : Group) (f : Nat → Thread → Thread) : (g.mapThreads f).wpc = g.wpc := rfl
@[simp] theorem Group.mapThreads_wword (g : Group) (f : Nat → Thread → Thread) : (g.mapThreads f).wword = g.wword := rfl
@[simp] theorem Group.mapThreads_prior (g : Group) (f : Nat → Thread → Thread) : (g.mapThreads f).prior = g.prior := rfl
@[simp] theorem Group.mapThreads_mstat (g : Group) (f : Nat → Thread → Thread) : (g.mapThreads f).mstat = g.mstat := rfl
@[simp] theorem Group.mapThreads_keep (g : Group) (f : Nat → Thread → Thread) : (g.mapThreads f).keep = g.keep := rfl
@[simp] theorem Group.mapThreads_ktag (g : Group) (f : Nat → Thread → Thread) : (g.mapThreads f).ktag = g.ktag := rfl
@[simp] theorem Group.mapThreads_snaps (g : Group) (f : Nat → Thread → Thread) : (g.mapThreads f).snaps = g.snaps := rfl
@[simp] theorem Group.mapThreads_seq (g : Group) (f : Nat → Thread → Thread) : (g.mapThreads f).seq = g.seq := rfl
@[simp] theorem Group.mapThreads_outb (g : Group) (f : Nat → Thread → Thread) : (g.mapThreads f).outb = g.outb := rfl
@[simp] theorem Group.mapThreads_unsealed (g : Group) (f : Nat → Thread → Thread) : (g.mapThreads f).unsealed = g.unsealed := rfl
@[simp] theorem Group.mapThreads_pendingStores (g : Group) (f : Nat → Thread → Thread) : (g.mapThreads f).pendingStores = g.pendingStores := rfl
@[simp] theorem Group.mapThreads_late (g : Group) (f : Nat → Thread → Thread) : (g.mapThreads f).late = g.late := rfl
@[simp] theorem Group.mapThreads_wrote (g : Group) (f : Nat → Thread → Thread) : (g.mapThreads f).wrote = g.wrote := rfl
@[simp] theorem Group.mapThreads_part (g : Group) (f : Nat → Thread → Thread) : (g.mapThreads f).part = g.part := rfl
@[simp] theorem Group.mapThreads_monitor (g : Group) (f : Nat → Thread → Thread) : (g.mapThreads f).monitor = g.monitor := rfl
@[simp] theorem Group.mapThreads_csel (g : Group) (f : Nat → Thread → Thread) : (g.mapThreads f).csel = g.csel := rfl
@[simp] theorem Group.mapThreads_call (g : Group) (f : Nat → Thread → Thread) : (g.mapThreads f).call = g.call := rfl
@[simp] theorem Group.mapThreads_deferred (g : Group) (f : Nat → Thread → Thread) : (g.mapThreads f).deferred = g.deferred := rfl
@[simp] theorem Group.mapThreads_traceDrop (g : Group) (f : Nat → Thread → Thread) : (g.mapThreads f).traceDrop = g.traceDrop := rfl
@[simp] theorem Group.mapThreads_tslots (g : Group) (f : Nat → Thread → Thread) : (g.mapThreads f).tslots = g.tslots := rfl
@[simp] theorem Group.mapThreads_slot (g : Group) (f : Nat → Thread → Thread) : (g.mapThreads f).slot = g.slot := rfl

/-! ### `pushStk` -/

@[simp] theorem Group.pushStk_idx (g : Group) (e : StkEnt) : (g.pushStk e).idx = g.idx := rfl
@[simp] theorem Group.pushStk_pc (g : Group) (e : StkEnt) : (g.pushStk e).pc = g.pc := rfl
@[simp] theorem Group.pushStk_pos (g : Group) (e : StkEnt) : (g.pushStk e).pos = g.pos := rfl
@[simp] theorem Group.pushStk_clause (g : Group) (e : StkEnt) : (g.pushStk e).clause = g.clause := rfl
@[simp] theorem Group.pushStk_resw (g : Group) (e : StkEnt) : (g.pushStk e).resw = g.resw := rfl
@[simp] theorem Group.pushStk_mask (g : Group) (e : StkEnt) : (g.pushStk e).mask = g.mask := rfl
@[simp] theorem Group.pushStk_live (g : Group) (e : StkEnt) : (g.pushStk e).live = g.live := rfl
@[simp] theorem Group.pushStk_s (g : Group) (e : StkEnt) : (g.pushStk e).s = g.s := rfl
@[simp] theorem Group.pushStk_threads (g : Group) (e : StkEnt) : (g.pushStk e).threads = g.threads := rfl
@[simp] theorem Group.pushStk_hage (g : Group) (e : StkEnt) : (g.pushStk e).hage = g.hage := rfl
@[simp] theorem Group.pushStk_resv (g : Group) (e : StkEnt) : (g.pushStk e).resv = g.resv := rfl
@[simp] theorem Group.pushStk_touched (g : Group) (e : StkEnt) : (g.pushStk e).touched = g.touched := rfl
@[simp] theorem Group.pushStk_land (g : Group) (e : StkEnt) : (g.pushStk e).land = g.land := rfl
@[simp] theorem Group.pushStk_wait (g : Group) (e : StkEnt) : (g.pushStk e).wait = g.wait := rfl
@[simp] theorem Group.pushStk_wpc (g : Group) (e : StkEnt) : (g.pushStk e).wpc = g.wpc := rfl
@[simp] theorem Group.pushStk_wword (g : Group) (e : StkEnt) : (g.pushStk e).wword = g.wword := rfl
@[simp] theorem Group.pushStk_prior (g : Group) (e : StkEnt) : (g.pushStk e).prior = g.prior := rfl
@[simp] theorem Group.pushStk_mstat (g : Group) (e : StkEnt) : (g.pushStk e).mstat = g.mstat := rfl
@[simp] theorem Group.pushStk_keep (g : Group) (e : StkEnt) : (g.pushStk e).keep = g.keep := rfl
@[simp] theorem Group.pushStk_ktag (g : Group) (e : StkEnt) : (g.pushStk e).ktag = g.ktag := rfl
@[simp] theorem Group.pushStk_snaps (g : Group) (e : StkEnt) : (g.pushStk e).snaps = g.snaps := rfl
@[simp] theorem Group.pushStk_seq (g : Group) (e : StkEnt) : (g.pushStk e).seq = g.seq := rfl
@[simp] theorem Group.pushStk_outb (g : Group) (e : StkEnt) : (g.pushStk e).outb = g.outb := rfl
@[simp] theorem Group.pushStk_unsealed (g : Group) (e : StkEnt) : (g.pushStk e).unsealed = g.unsealed := rfl
@[simp] theorem Group.pushStk_pendingStores (g : Group) (e : StkEnt) : (g.pushStk e).pendingStores = g.pendingStores := rfl
@[simp] theorem Group.pushStk_late (g : Group) (e : StkEnt) : (g.pushStk e).late = g.late := rfl
@[simp] theorem Group.pushStk_wrote (g : Group) (e : StkEnt) : (g.pushStk e).wrote = g.wrote := rfl
@[simp] theorem Group.pushStk_part (g : Group) (e : StkEnt) : (g.pushStk e).part = g.part := rfl
@[simp] theorem Group.pushStk_monitor (g : Group) (e : StkEnt) : (g.pushStk e).monitor = g.monitor := rfl
@[simp] theorem Group.pushStk_csel (g : Group) (e : StkEnt) : (g.pushStk e).csel = g.csel := rfl
@[simp] theorem Group.pushStk_call (g : Group) (e : StkEnt) : (g.pushStk e).call = g.call := rfl
@[simp] theorem Group.pushStk_deferred (g : Group) (e : StkEnt) : (g.pushStk e).deferred = g.deferred := rfl
@[simp] theorem Group.pushStk_traceDrop (g : Group) (e : StkEnt) : (g.pushStk e).traceDrop = g.traceDrop := rfl
@[simp] theorem Group.pushStk_tslots (g : Group) (e : StkEnt) : (g.pushStk e).tslots = g.tslots := rfl
@[simp] theorem Group.pushStk_slot (g : Group) (e : StkEnt) : (g.pushStk e).slot = g.slot := rfl

/-! ### `defer` -/

@[simp] theorem Group.defer_idx (g : Group) (x : Exc) (pc : W64) : (g.defer x pc).idx = g.idx := rfl
@[simp] theorem Group.defer_pc (g : Group) (x : Exc) (pc : W64) : (g.defer x pc).pc = g.pc := rfl
@[simp] theorem Group.defer_pos (g : Group) (x : Exc) (pc : W64) : (g.defer x pc).pos = g.pos := rfl
@[simp] theorem Group.defer_clause (g : Group) (x : Exc) (pc : W64) : (g.defer x pc).clause = g.clause := rfl
@[simp] theorem Group.defer_resw (g : Group) (x : Exc) (pc : W64) : (g.defer x pc).resw = g.resw := rfl
@[simp] theorem Group.defer_mask (g : Group) (x : Exc) (pc : W64) : (g.defer x pc).mask = g.mask := rfl
@[simp] theorem Group.defer_live (g : Group) (x : Exc) (pc : W64) : (g.defer x pc).live = g.live := rfl
@[simp] theorem Group.defer_stk (g : Group) (x : Exc) (pc : W64) : (g.defer x pc).stk = g.stk := rfl
@[simp] theorem Group.defer_s (g : Group) (x : Exc) (pc : W64) : (g.defer x pc).s = g.s := rfl
@[simp] theorem Group.defer_threads (g : Group) (x : Exc) (pc : W64) : (g.defer x pc).threads = g.threads := rfl
@[simp] theorem Group.defer_hage (g : Group) (x : Exc) (pc : W64) : (g.defer x pc).hage = g.hage := rfl
@[simp] theorem Group.defer_resv (g : Group) (x : Exc) (pc : W64) : (g.defer x pc).resv = g.resv := rfl
@[simp] theorem Group.defer_touched (g : Group) (x : Exc) (pc : W64) : (g.defer x pc).touched = g.touched := rfl
@[simp] theorem Group.defer_land (g : Group) (x : Exc) (pc : W64) : (g.defer x pc).land = g.land := rfl
@[simp] theorem Group.defer_wait (g : Group) (x : Exc) (pc : W64) : (g.defer x pc).wait = g.wait := rfl
@[simp] theorem Group.defer_wpc (g : Group) (x : Exc) (pc : W64) : (g.defer x pc).wpc = g.wpc := rfl
@[simp] theorem Group.defer_wword (g : Group) (x : Exc) (pc : W64) : (g.defer x pc).wword = g.wword := rfl
@[simp] theorem Group.defer_prior (g : Group) (x : Exc) (pc : W64) : (g.defer x pc).prior = g.prior := rfl
@[simp] theorem Group.defer_mstat (g : Group) (x : Exc) (pc : W64) : (g.defer x pc).mstat = g.mstat := rfl
@[simp] theorem Group.defer_keep (g : Group) (x : Exc) (pc : W64) : (g.defer x pc).keep = g.keep := rfl
@[simp] theorem Group.defer_ktag (g : Group) (x : Exc) (pc : W64) : (g.defer x pc).ktag = g.ktag := rfl
@[simp] theorem Group.defer_snaps (g : Group) (x : Exc) (pc : W64) : (g.defer x pc).snaps = g.snaps := rfl
@[simp] theorem Group.defer_seq (g : Group) (x : Exc) (pc : W64) : (g.defer x pc).seq = g.seq := rfl
@[simp] theorem Group.defer_outb (g : Group) (x : Exc) (pc : W64) : (g.defer x pc).outb = g.outb := rfl
@[simp] theorem Group.defer_unsealed (g : Group) (x : Exc) (pc : W64) : (g.defer x pc).unsealed = g.unsealed := rfl
@[simp] theorem Group.defer_pendingStores (g : Group) (x : Exc) (pc : W64) : (g.defer x pc).pendingStores = g.pendingStores := rfl
@[simp] theorem Group.defer_late (g : Group) (x : Exc) (pc : W64) : (g.defer x pc).late = g.late := rfl
@[simp] theorem Group.defer_wrote (g : Group) (x : Exc) (pc : W64) : (g.defer x pc).wrote = g.wrote := rfl
@[simp] theorem Group.defer_part (g : Group) (x : Exc) (pc : W64) : (g.defer x pc).part = g.part := rfl
@[simp] theorem Group.defer_monitor (g : Group) (x : Exc) (pc : W64) : (g.defer x pc).monitor = g.monitor := rfl
@[simp] theorem Group.defer_csel (g : Group) (x : Exc) (pc : W64) : (g.defer x pc).csel = g.csel := rfl
@[simp] theorem Group.defer_call (g : Group) (x : Exc) (pc : W64) : (g.defer x pc).call = g.call := rfl
@[simp] theorem Group.defer_traceDrop (g : Group) (x : Exc) (pc : W64) : (g.defer x pc).traceDrop = g.traceDrop := rfl
@[simp] theorem Group.defer_tslots (g : Group) (x : Exc) (pc : W64) : (g.defer x pc).tslots = g.tslots := rfl
@[simp] theorem Group.defer_slot (g : Group) (x : Exc) (pc : W64) : (g.defer x pc).slot = g.slot := rfl

/-! ### `flag` -/

@[simp] theorem Group.flag_idx (g : Group) (f : W32) : (g.flag f).idx = g.idx := rfl
@[simp] theorem Group.flag_pc (g : Group) (f : W32) : (g.flag f).pc = g.pc := rfl
@[simp] theorem Group.flag_pos (g : Group) (f : W32) : (g.flag f).pos = g.pos := rfl
@[simp] theorem Group.flag_clause (g : Group) (f : W32) : (g.flag f).clause = g.clause := rfl
@[simp] theorem Group.flag_resw (g : Group) (f : W32) : (g.flag f).resw = g.resw := rfl
@[simp] theorem Group.flag_mask (g : Group) (f : W32) : (g.flag f).mask = g.mask := rfl
@[simp] theorem Group.flag_live (g : Group) (f : W32) : (g.flag f).live = g.live := rfl
@[simp] theorem Group.flag_stk (g : Group) (f : W32) : (g.flag f).stk = g.stk := rfl
@[simp] theorem Group.flag_s (g : Group) (f : W32) : (g.flag f).s = g.s := rfl
@[simp] theorem Group.flag_threads (g : Group) (f : W32) : (g.flag f).threads = g.threads := rfl
@[simp] theorem Group.flag_hage (g : Group) (f : W32) : (g.flag f).hage = g.hage := rfl
@[simp] theorem Group.flag_resv (g : Group) (f : W32) : (g.flag f).resv = g.resv := rfl
@[simp] theorem Group.flag_touched (g : Group) (f : W32) : (g.flag f).touched = g.touched := rfl
@[simp] theorem Group.flag_land (g : Group) (f : W32) : (g.flag f).land = g.land := rfl
@[simp] theorem Group.flag_wait (g : Group) (f : W32) : (g.flag f).wait = g.wait := rfl
@[simp] theorem Group.flag_wpc (g : Group) (f : W32) : (g.flag f).wpc = g.wpc := rfl
@[simp] theorem Group.flag_wword (g : Group) (f : W32) : (g.flag f).wword = g.wword := rfl
@[simp] theorem Group.flag_prior (g : Group) (f : W32) : (g.flag f).prior = g.prior := rfl
@[simp] theorem Group.flag_keep (g : Group) (f : W32) : (g.flag f).keep = g.keep := rfl
@[simp] theorem Group.flag_ktag (g : Group) (f : W32) : (g.flag f).ktag = g.ktag := rfl
@[simp] theorem Group.flag_snaps (g : Group) (f : W32) : (g.flag f).snaps = g.snaps := rfl
@[simp] theorem Group.flag_seq (g : Group) (f : W32) : (g.flag f).seq = g.seq := rfl
@[simp] theorem Group.flag_outb (g : Group) (f : W32) : (g.flag f).outb = g.outb := rfl
@[simp] theorem Group.flag_unsealed (g : Group) (f : W32) : (g.flag f).unsealed = g.unsealed := rfl
@[simp] theorem Group.flag_pendingStores (g : Group) (f : W32) : (g.flag f).pendingStores = g.pendingStores := rfl
@[simp] theorem Group.flag_late (g : Group) (f : W32) : (g.flag f).late = g.late := rfl
@[simp] theorem Group.flag_wrote (g : Group) (f : W32) : (g.flag f).wrote = g.wrote := rfl
@[simp] theorem Group.flag_part (g : Group) (f : W32) : (g.flag f).part = g.part := rfl
@[simp] theorem Group.flag_monitor (g : Group) (f : W32) : (g.flag f).monitor = g.monitor := rfl
@[simp] theorem Group.flag_csel (g : Group) (f : W32) : (g.flag f).csel = g.csel := rfl
@[simp] theorem Group.flag_call (g : Group) (f : W32) : (g.flag f).call = g.call := rfl
@[simp] theorem Group.flag_deferred (g : Group) (f : W32) : (g.flag f).deferred = g.deferred := rfl
@[simp] theorem Group.flag_traceDrop (g : Group) (f : W32) : (g.flag f).traceDrop = g.traceDrop := rfl
@[simp] theorem Group.flag_tslots (g : Group) (f : W32) : (g.flag f).tslots = g.tslots := rfl
@[simp] theorem Group.flag_slot (g : Group) (f : W32) : (g.flag f).slot = g.slot := rfl

/-! ### `age` -/

@[simp] theorem Group.age_idx (g : Group) : (g.age).idx = g.idx := rfl
@[simp] theorem Group.age_pc (g : Group) : (g.age).pc = g.pc := rfl
@[simp] theorem Group.age_pos (g : Group) : (g.age).pos = g.pos := rfl
@[simp] theorem Group.age_clause (g : Group) : (g.age).clause = g.clause := rfl
@[simp] theorem Group.age_resw (g : Group) : (g.age).resw = g.resw := rfl
@[simp] theorem Group.age_mask (g : Group) : (g.age).mask = g.mask := rfl
@[simp] theorem Group.age_live (g : Group) : (g.age).live = g.live := rfl
@[simp] theorem Group.age_stk (g : Group) : (g.age).stk = g.stk := rfl
@[simp] theorem Group.age_s (g : Group) : (g.age).s = g.s := rfl
@[simp] theorem Group.age_threads (g : Group) : (g.age).threads = g.threads := rfl
@[simp] theorem Group.age_touched (g : Group) : (g.age).touched = g.touched := rfl
@[simp] theorem Group.age_land (g : Group) : (g.age).land = g.land := rfl
@[simp] theorem Group.age_wait (g : Group) : (g.age).wait = g.wait := rfl
@[simp] theorem Group.age_wpc (g : Group) : (g.age).wpc = g.wpc := rfl
@[simp] theorem Group.age_wword (g : Group) : (g.age).wword = g.wword := rfl
@[simp] theorem Group.age_prior (g : Group) : (g.age).prior = g.prior := rfl
@[simp] theorem Group.age_mstat (g : Group) : (g.age).mstat = g.mstat := rfl
@[simp] theorem Group.age_keep (g : Group) : (g.age).keep = g.keep := rfl
@[simp] theorem Group.age_ktag (g : Group) : (g.age).ktag = g.ktag := rfl
@[simp] theorem Group.age_snaps (g : Group) : (g.age).snaps = g.snaps := rfl
@[simp] theorem Group.age_seq (g : Group) : (g.age).seq = g.seq := rfl
@[simp] theorem Group.age_outb (g : Group) : (g.age).outb = g.outb := rfl
@[simp] theorem Group.age_unsealed (g : Group) : (g.age).unsealed = g.unsealed := rfl
@[simp] theorem Group.age_pendingStores (g : Group) : (g.age).pendingStores = g.pendingStores := rfl
@[simp] theorem Group.age_late (g : Group) : (g.age).late = g.late := rfl
@[simp] theorem Group.age_wrote (g : Group) : (g.age).wrote = g.wrote := rfl
@[simp] theorem Group.age_part (g : Group) : (g.age).part = g.part := rfl
@[simp] theorem Group.age_monitor (g : Group) : (g.age).monitor = g.monitor := rfl
@[simp] theorem Group.age_csel (g : Group) : (g.age).csel = g.csel := rfl
@[simp] theorem Group.age_call (g : Group) : (g.age).call = g.call := rfl
@[simp] theorem Group.age_deferred (g : Group) : (g.age).deferred = g.deferred := rfl
@[simp] theorem Group.age_traceDrop (g : Group) : (g.age).traceDrop = g.traceDrop := rfl
@[simp] theorem Group.age_tslots (g : Group) : (g.age).tslots = g.tslots := rfl
@[simp] theorem Group.age_slot (g : Group) : (g.age).slot = g.slot := rfl

/-! ### `capture` -/

@[simp] theorem Group.capture_idx (g : Group) (x : Nat → Nat) : (g.capture x).idx = g.idx := rfl
@[simp] theorem Group.capture_pc (g : Group) (x : Nat → Nat) : (g.capture x).pc = g.pc := rfl
@[simp] theorem Group.capture_pos (g : Group) (x : Nat → Nat) : (g.capture x).pos = g.pos := rfl
@[simp] theorem Group.capture_clause (g : Group) (x : Nat → Nat) : (g.capture x).clause = g.clause := rfl
@[simp] theorem Group.capture_resw (g : Group) (x : Nat → Nat) : (g.capture x).resw = g.resw := rfl
@[simp] theorem Group.capture_mask (g : Group) (x : Nat → Nat) : (g.capture x).mask = g.mask := rfl
@[simp] theorem Group.capture_live (g : Group) (x : Nat → Nat) : (g.capture x).live = g.live := rfl
@[simp] theorem Group.capture_stk (g : Group) (x : Nat → Nat) : (g.capture x).stk = g.stk := rfl
@[simp] theorem Group.capture_s (g : Group) (x : Nat → Nat) : (g.capture x).s = g.s := rfl
@[simp] theorem Group.capture_resv (g : Group) (x : Nat → Nat) : (g.capture x).resv = g.resv := rfl
@[simp] theorem Group.capture_touched (g : Group) (x : Nat → Nat) : (g.capture x).touched = g.touched := rfl
@[simp] theorem Group.capture_land (g : Group) (x : Nat → Nat) : (g.capture x).land = g.land := rfl
@[simp] theorem Group.capture_wait (g : Group) (x : Nat → Nat) : (g.capture x).wait = g.wait := rfl
@[simp] theorem Group.capture_wpc (g : Group) (x : Nat → Nat) : (g.capture x).wpc = g.wpc := rfl
@[simp] theorem Group.capture_wword (g : Group) (x : Nat → Nat) : (g.capture x).wword = g.wword := rfl
@[simp] theorem Group.capture_prior (g : Group) (x : Nat → Nat) : (g.capture x).prior = g.prior := rfl
@[simp] theorem Group.capture_mstat (g : Group) (x : Nat → Nat) : (g.capture x).mstat = g.mstat := rfl
@[simp] theorem Group.capture_keep (g : Group) (x : Nat → Nat) : (g.capture x).keep = g.keep := rfl
@[simp] theorem Group.capture_ktag (g : Group) (x : Nat → Nat) : (g.capture x).ktag = g.ktag := rfl
@[simp] theorem Group.capture_snaps (g : Group) (x : Nat → Nat) : (g.capture x).snaps = g.snaps := rfl
@[simp] theorem Group.capture_seq (g : Group) (x : Nat → Nat) : (g.capture x).seq = g.seq := rfl
@[simp] theorem Group.capture_outb (g : Group) (x : Nat → Nat) : (g.capture x).outb = g.outb := rfl
@[simp] theorem Group.capture_unsealed (g : Group) (x : Nat → Nat) : (g.capture x).unsealed = g.unsealed := rfl
@[simp] theorem Group.capture_pendingStores (g : Group) (x : Nat → Nat) : (g.capture x).pendingStores = g.pendingStores := rfl
@[simp] theorem Group.capture_late (g : Group) (x : Nat → Nat) : (g.capture x).late = g.late := rfl
@[simp] theorem Group.capture_wrote (g : Group) (x : Nat → Nat) : (g.capture x).wrote = g.wrote := rfl
@[simp] theorem Group.capture_part (g : Group) (x : Nat → Nat) : (g.capture x).part = g.part := rfl
@[simp] theorem Group.capture_monitor (g : Group) (x : Nat → Nat) : (g.capture x).monitor = g.monitor := rfl
@[simp] theorem Group.capture_csel (g : Group) (x : Nat → Nat) : (g.capture x).csel = g.csel := rfl
@[simp] theorem Group.capture_call (g : Group) (x : Nat → Nat) : (g.capture x).call = g.call := rfl
@[simp] theorem Group.capture_deferred (g : Group) (x : Nat → Nat) : (g.capture x).deferred = g.deferred := rfl
@[simp] theorem Group.capture_traceDrop (g : Group) (x : Nat → Nat) : (g.capture x).traceDrop = g.traceDrop := rfl
@[simp] theorem Group.capture_tslots (g : Group) (x : Nat → Nat) : (g.capture x).tslots = g.tslots := rfl
@[simp] theorem Group.capture_slot (g : Group) (x : Nat → Nat) : (g.capture x).slot = g.slot := rfl

/-! ### `wake` -/

@[simp] theorem Group.wake_idx (g : Group) : (g.wake).idx = g.idx := rfl
@[simp] theorem Group.wake_pc (g : Group) : (g.wake).pc = g.pc := rfl
@[simp] theorem Group.wake_pos (g : Group) : (g.wake).pos = g.pos := rfl
@[simp] theorem Group.wake_clause (g : Group) : (g.wake).clause = g.clause := rfl
@[simp] theorem Group.wake_resw (g : Group) : (g.wake).resw = g.resw := rfl
@[simp] theorem Group.wake_mask (g : Group) : (g.wake).mask = g.mask := rfl
@[simp] theorem Group.wake_live (g : Group) : (g.wake).live = g.live := rfl
@[simp] theorem Group.wake_stk (g : Group) : (g.wake).stk = g.stk := rfl
@[simp] theorem Group.wake_s (g : Group) : (g.wake).s = g.s := rfl
@[simp] theorem Group.wake_threads (g : Group) : (g.wake).threads = g.threads := rfl
@[simp] theorem Group.wake_hage (g : Group) : (g.wake).hage = g.hage := rfl
@[simp] theorem Group.wake_resv (g : Group) : (g.wake).resv = g.resv := rfl
@[simp] theorem Group.wake_touched (g : Group) : (g.wake).touched = g.touched := rfl
@[simp] theorem Group.wake_land (g : Group) : (g.wake).land = g.land := rfl
@[simp] theorem Group.wake_wait (g : Group) : (g.wake).wait = g.wait := rfl
@[simp] theorem Group.wake_wpc (g : Group) : (g.wake).wpc = g.wpc := rfl
@[simp] theorem Group.wake_wword (g : Group) : (g.wake).wword = g.wword := rfl
@[simp] theorem Group.wake_prior (g : Group) : (g.wake).prior = g.prior := rfl
@[simp] theorem Group.wake_mstat (g : Group) : (g.wake).mstat = g.mstat := rfl
@[simp] theorem Group.wake_keep (g : Group) : (g.wake).keep = g.keep := rfl
@[simp] theorem Group.wake_ktag (g : Group) : (g.wake).ktag = g.ktag := rfl
@[simp] theorem Group.wake_snaps (g : Group) : (g.wake).snaps = g.snaps := rfl
@[simp] theorem Group.wake_seq (g : Group) : (g.wake).seq = g.seq := rfl
@[simp] theorem Group.wake_outb (g : Group) : (g.wake).outb = g.outb := rfl
@[simp] theorem Group.wake_unsealed (g : Group) : (g.wake).unsealed = g.unsealed := rfl
@[simp] theorem Group.wake_pendingStores (g : Group) : (g.wake).pendingStores = g.pendingStores := rfl
@[simp] theorem Group.wake_late (g : Group) : (g.wake).late = g.late := rfl
@[simp] theorem Group.wake_wrote (g : Group) : (g.wake).wrote = g.wrote := rfl
@[simp] theorem Group.wake_part (g : Group) : (g.wake).part = g.part := rfl
@[simp] theorem Group.wake_csel (g : Group) : (g.wake).csel = g.csel := rfl
@[simp] theorem Group.wake_call (g : Group) : (g.wake).call = g.call := rfl
@[simp] theorem Group.wake_deferred (g : Group) : (g.wake).deferred = g.deferred := rfl
@[simp] theorem Group.wake_traceDrop (g : Group) : (g.wake).traceDrop = g.traceDrop := rfl
@[simp] theorem Group.wake_tslots (g : Group) : (g.wake).tslots = g.tslots := rfl
@[simp] theorem Group.wake_slot (g : Group) : (g.wake).slot = g.slot := rfl

/-! ### `haltAt` -/

@[simp] theorem Group.haltAt_idx (g : Group) (pc : W64) (resw : Nat) : (g.haltAt pc resw).idx = g.idx := rfl
@[simp] theorem Group.haltAt_mask (g : Group) (pc : W64) (resw : Nat) : (g.haltAt pc resw).mask = g.mask := rfl
@[simp] theorem Group.haltAt_live (g : Group) (pc : W64) (resw : Nat) : (g.haltAt pc resw).live = g.live := rfl
@[simp] theorem Group.haltAt_stk (g : Group) (pc : W64) (resw : Nat) : (g.haltAt pc resw).stk = g.stk := rfl
@[simp] theorem Group.haltAt_s (g : Group) (pc : W64) (resw : Nat) : (g.haltAt pc resw).s = g.s := rfl
@[simp] theorem Group.haltAt_threads (g : Group) (pc : W64) (resw : Nat) : (g.haltAt pc resw).threads = g.threads := rfl
@[simp] theorem Group.haltAt_hage (g : Group) (pc : W64) (resw : Nat) : (g.haltAt pc resw).hage = g.hage := rfl
@[simp] theorem Group.haltAt_resv (g : Group) (pc : W64) (resw : Nat) : (g.haltAt pc resw).resv = g.resv := rfl
@[simp] theorem Group.haltAt_land (g : Group) (pc : W64) (resw : Nat) : (g.haltAt pc resw).land = g.land := rfl
@[simp] theorem Group.haltAt_wpc (g : Group) (pc : W64) (resw : Nat) : (g.haltAt pc resw).wpc = g.wpc := rfl
@[simp] theorem Group.haltAt_wword (g : Group) (pc : W64) (resw : Nat) : (g.haltAt pc resw).wword = g.wword := rfl
@[simp] theorem Group.haltAt_prior (g : Group) (pc : W64) (resw : Nat) : (g.haltAt pc resw).prior = g.prior := rfl
@[simp] theorem Group.haltAt_mstat (g : Group) (pc : W64) (resw : Nat) : (g.haltAt pc resw).mstat = g.mstat := rfl
@[simp] theorem Group.haltAt_keep (g : Group) (pc : W64) (resw : Nat) : (g.haltAt pc resw).keep = g.keep := rfl
@[simp] theorem Group.haltAt_ktag (g : Group) (pc : W64) (resw : Nat) : (g.haltAt pc resw).ktag = g.ktag := rfl
@[simp] theorem Group.haltAt_snaps (g : Group) (pc : W64) (resw : Nat) : (g.haltAt pc resw).snaps = g.snaps := rfl
@[simp] theorem Group.haltAt_seq (g : Group) (pc : W64) (resw : Nat) : (g.haltAt pc resw).seq = g.seq := rfl
@[simp] theorem Group.haltAt_outb (g : Group) (pc : W64) (resw : Nat) : (g.haltAt pc resw).outb = g.outb := rfl
@[simp] theorem Group.haltAt_unsealed (g : Group) (pc : W64) (resw : Nat) : (g.haltAt pc resw).unsealed = g.unsealed := rfl
@[simp] theorem Group.haltAt_pendingStores (g : Group) (pc : W64) (resw : Nat) : (g.haltAt pc resw).pendingStores = g.pendingStores := rfl
@[simp] theorem Group.haltAt_late (g : Group) (pc : W64) (resw : Nat) : (g.haltAt pc resw).late = g.late := rfl
@[simp] theorem Group.haltAt_wrote (g : Group) (pc : W64) (resw : Nat) : (g.haltAt pc resw).wrote = g.wrote := rfl
@[simp] theorem Group.haltAt_part (g : Group) (pc : W64) (resw : Nat) : (g.haltAt pc resw).part = g.part := rfl
@[simp] theorem Group.haltAt_monitor (g : Group) (pc : W64) (resw : Nat) : (g.haltAt pc resw).monitor = g.monitor := rfl
@[simp] theorem Group.haltAt_csel (g : Group) (pc : W64) (resw : Nat) : (g.haltAt pc resw).csel = g.csel := rfl
@[simp] theorem Group.haltAt_call (g : Group) (pc : W64) (resw : Nat) : (g.haltAt pc resw).call = g.call := rfl
@[simp] theorem Group.haltAt_deferred (g : Group) (pc : W64) (resw : Nat) : (g.haltAt pc resw).deferred = g.deferred := rfl
@[simp] theorem Group.haltAt_traceDrop (g : Group) (pc : W64) (resw : Nat) : (g.haltAt pc resw).traceDrop = g.traceDrop := rfl
@[simp] theorem Group.haltAt_slot (g : Group) (pc : W64) (resw : Nat) : (g.haltAt pc resw).slot = g.slot := rfl

/-! ### `goto` -/

@[simp] theorem Group.goto_idx (g : Group) (pc : W64) : (g.goto pc).idx = g.idx := rfl
@[simp] theorem Group.goto_mask (g : Group) (pc : W64) : (g.goto pc).mask = g.mask := rfl
@[simp] theorem Group.goto_live (g : Group) (pc : W64) : (g.goto pc).live = g.live := rfl
@[simp] theorem Group.goto_stk (g : Group) (pc : W64) : (g.goto pc).stk = g.stk := rfl
@[simp] theorem Group.goto_s (g : Group) (pc : W64) : (g.goto pc).s = g.s := rfl
@[simp] theorem Group.goto_threads (g : Group) (pc : W64) : (g.goto pc).threads = g.threads := rfl
@[simp] theorem Group.goto_hage (g : Group) (pc : W64) : (g.goto pc).hage = g.hage := rfl
@[simp] theorem Group.goto_resv (g : Group) (pc : W64) : (g.goto pc).resv = g.resv := rfl
@[simp] theorem Group.goto_land (g : Group) (pc : W64) : (g.goto pc).land = g.land := rfl
@[simp] theorem Group.goto_wait (g : Group) (pc : W64) : (g.goto pc).wait = g.wait := rfl
@[simp] theorem Group.goto_wpc (g : Group) (pc : W64) : (g.goto pc).wpc = g.wpc := rfl
@[simp] theorem Group.goto_wword (g : Group) (pc : W64) : (g.goto pc).wword = g.wword := rfl
@[simp] theorem Group.goto_prior (g : Group) (pc : W64) : (g.goto pc).prior = g.prior := rfl
@[simp] theorem Group.goto_mstat (g : Group) (pc : W64) : (g.goto pc).mstat = g.mstat := rfl
@[simp] theorem Group.goto_keep (g : Group) (pc : W64) : (g.goto pc).keep = g.keep := rfl
@[simp] theorem Group.goto_ktag (g : Group) (pc : W64) : (g.goto pc).ktag = g.ktag := rfl
@[simp] theorem Group.goto_snaps (g : Group) (pc : W64) : (g.goto pc).snaps = g.snaps := rfl
@[simp] theorem Group.goto_seq (g : Group) (pc : W64) : (g.goto pc).seq = g.seq := rfl
@[simp] theorem Group.goto_outb (g : Group) (pc : W64) : (g.goto pc).outb = g.outb := rfl
@[simp] theorem Group.goto_unsealed (g : Group) (pc : W64) : (g.goto pc).unsealed = g.unsealed := rfl
@[simp] theorem Group.goto_pendingStores (g : Group) (pc : W64) : (g.goto pc).pendingStores = g.pendingStores := rfl
@[simp] theorem Group.goto_late (g : Group) (pc : W64) : (g.goto pc).late = g.late := rfl
@[simp] theorem Group.goto_wrote (g : Group) (pc : W64) : (g.goto pc).wrote = g.wrote := rfl
@[simp] theorem Group.goto_part (g : Group) (pc : W64) : (g.goto pc).part = g.part := rfl
@[simp] theorem Group.goto_monitor (g : Group) (pc : W64) : (g.goto pc).monitor = g.monitor := rfl
@[simp] theorem Group.goto_csel (g : Group) (pc : W64) : (g.goto pc).csel = g.csel := rfl
@[simp] theorem Group.goto_call (g : Group) (pc : W64) : (g.goto pc).call = g.call := rfl
@[simp] theorem Group.goto_deferred (g : Group) (pc : W64) : (g.goto pc).deferred = g.deferred := rfl
@[simp] theorem Group.goto_traceDrop (g : Group) (pc : W64) : (g.goto pc).traceDrop = g.traceDrop := rfl
@[simp] theorem Group.goto_tslots (g : Group) (pc : W64) : (g.goto pc).tslots = g.tslots := rfl
@[simp] theorem Group.goto_slot (g : Group) (pc : W64) : (g.goto pc).slot = g.slot := rfl

/-! ### Threads -/

@[simp] theorem Thread.setN_q (t : Thread) (i : Nat) (x : W32) : (t.setN i x).q = t.q := rfl
@[simp] theorem Thread.setN_k (t : Thread) (i : Nat) (x : W32) : (t.setN i x).k = t.k := rfl
@[simp] theorem Thread.setN_sr (t : Thread) (i : Nat) (x : W32) : (t.setN i x).sr = t.sr := rfl
@[simp] theorem Thread.setN_h (t : Thread) (i : Nat) (x : W32) : (t.setN i x).h = t.h := rfl
@[simp] theorem Thread.setQ_n (t : Thread) (i : Nat) (x : W32) : (t.setQ i x).n = t.n := rfl
@[simp] theorem Thread.setQ_k (t : Thread) (i : Nat) (x : W32) : (t.setQ i x).k = t.k := rfl
@[simp] theorem Thread.setQ_sr (t : Thread) (i : Nat) (x : W32) : (t.setQ i x).sr = t.sr := rfl
@[simp] theorem Thread.setQ_h (t : Thread) (i : Nat) (x : W32) : (t.setQ i x).h = t.h := rfl
@[simp] theorem Thread.push_n (t : Thread) (l : List W32) : (t.push l).n = t.n := rfl
@[simp] theorem Thread.push_k (t : Thread) (l : List W32) : (t.push l).k = t.k := rfl
@[simp] theorem Thread.push_sr (t : Thread) (l : List W32) : (t.push l).sr = t.sr := rfl
@[simp] theorem Thread.push_h (t : Thread) (l : List W32) : (t.push l).h = t.h := rfl

/-! ### Teams -/

@[simp] theorem Team.updGrp_id (t : Team) (gi : Nat) (f : Group → Group) : (t.updGrp gi f).id = t.id := rfl
@[simp] theorem Team.updGrp_ctx (t : Team) (gi : Nat) (f : Group → Group) : (t.updGrp gi f).ctx = t.ctx := rfl
@[simp] theorem Team.updGrp_cls (t : Team) (gi : Nat) (f : Group → Group) : (t.updGrp gi f).cls = t.cls := rfl
@[simp] theorem Team.updGrp_prio (t : Team) (gi : Nat) (f : Group → Group) : (t.updGrp gi f).prio = t.prio := rfl
@[simp] theorem Team.updGrp_tenant (t : Team) (gi : Nat) (f : Group → Group) : (t.updGrp gi f).tenant = t.tenant := rfl
@[simp] theorem Team.updGrp_bcls (t : Team) (gi : Nat) (f : Group → Group) : (t.updGrp gi f).bcls = t.bcls := rfl
@[simp] theorem Team.updGrp_kva (t : Team) (gi : Nat) (f : Group → Group) : (t.updGrp gi f).kva = t.kva := rfl
@[simp] theorem Team.updGrp_kd (t : Team) (gi : Nat) (f : Group → Group) : (t.updGrp gi f).kd = t.kd := rfl
@[simp] theorem Team.updGrp_frame (t : Team) (gi : Nat) (f : Group → Group) : (t.updGrp gi f).frame = t.frame := rfl
@[simp] theorem Team.updGrp_team (t : Team) (gi : Nat) (f : Group → Group) : (t.updGrp gi f).team = t.team := rfl
@[simp] theorem Team.updGrp_nteam (t : Team) (gi : Nat) (f : Group → Group) : (t.updGrp gi f).nteam = t.nteam := rfl
@[simp] theorem Team.updGrp_launchId (t : Team) (gi : Nat) (f : Group → Group) : (t.updGrp gi f).launchId = t.launchId := rfl
@[simp] theorem Team.updGrp_args (t : Team) (gi : Nat) (f : Group → Group) : (t.updGrp gi f).args = t.args := rfl
@[simp] theorem Team.updGrp_done (t : Team) (gi : Nat) (f : Group → Group) : (t.updGrp gi f).done = t.done := rfl
@[simp] theorem Team.updGrp_tq (t : Team) (gi : Nat) (f : Group → Group) : (t.updGrp gi f).tq = t.tq := rfl
@[simp] theorem Team.updGrp_fstride (t : Team) (gi : Nat) (f : Group → Group) : (t.updGrp gi f).fstride = t.fstride := rfl
@[simp] theorem Team.updGrp_launch (t : Team) (gi : Nat) (f : Group → Group) : (t.updGrp gi f).launch = t.launch := rfl
@[simp] theorem Team.updGrp_phase (t : Team) (gi : Nat) (f : Group → Group) : (t.updGrp gi f).phase = t.phase := rfl
@[simp] theorem Team.updGrp_core (t : Team) (gi : Nat) (f : Group → Group) : (t.updGrp gi f).core = t.core := rfl
@[simp] theorem Team.updGrp_slot (t : Team) (gi : Nat) (f : Group → Group) : (t.updGrp gi f).slot = t.slot := rfl
@[simp] theorem Team.updGrp_settle (t : Team) (gi : Nat) (f : Group → Group) : (t.updGrp gi f).settle = t.settle := rfl
@[simp] theorem Team.updGrp_leave (t : Team) (gi : Nat) (f : Group → Group) : (t.updGrp gi f).leave = t.leave := rfl
@[simp] theorem Team.updGrp_load (t : Team) (gi : Nat) (f : Group → Group) : (t.updGrp gi f).load = t.load := rfl
@[simp] theorem Team.updGrp_stepTest (t : Team) (gi : Nat) (f : Group → Group) : (t.updGrp gi f).stepTest = t.stepTest := rfl
@[simp] theorem Team.updGrp_last (t : Team) (gi : Nat) (f : Group → Group) : (t.updGrp gi f).last = t.last := rfl
@[simp] theorem Team.updGrp_acc (t : Team) (gi : Nat) (f : Group → Group) : (t.updGrp gi f).acc = t.acc := rfl
@[simp] theorem Team.updGrp_tiles (t : Team) (gi : Nat) (f : Group → Group) : (t.updGrp gi f).tiles = t.tiles := rfl
@[simp] theorem Team.updGrp_ls (t : Team) (gi : Nat) (f : Group → Group) : (t.updGrp gi f).ls = t.ls := rfl
@[simp] theorem Team.updGrp_barriers (t : Team) (gi : Nat) (f : Group → Group) : (t.updGrp gi f).barriers = t.barriers := rfl
@[simp] theorem Team.updGrp_relaunch (t : Team) (gi : Nat) (f : Group → Group) : (t.updGrp gi f).relaunch = t.relaunch := rfl
@[simp] theorem Team.updGrp_counts (t : Team) (gi : Nat) (f : Group → Group) : (t.updGrp gi f).counts = t.counts := rfl
@[simp] theorem Team.updGrp_jobs (t : Team) (gi : Nat) (f : Group → Group) : (t.updGrp gi f).jobs = t.jobs := rfl
@[simp] theorem Team.updGrp_retires (t : Team) (gi : Nat) (f : Group → Group) : (t.updGrp gi f).retires = t.retires := rfl
@[simp] theorem Team.updGrp_mfetch (t : Team) (gi : Nat) (f : Group → Group) : (t.updGrp gi f).mfetch = t.mfetch := rfl
@[simp] theorem Team.updGrp_gang (t : Team) (gi : Nat) (f : Group → Group) : (t.updGrp gi f).gang = t.gang := rfl

@[simp] theorem Team.updTile_id (t : Team) (half i : Nat) (f : Tile → Tile) : (t.updTile half i f).id = t.id := rfl
@[simp] theorem Team.updTile_ctx (t : Team) (half i : Nat) (f : Tile → Tile) : (t.updTile half i f).ctx = t.ctx := rfl
@[simp] theorem Team.updTile_cls (t : Team) (half i : Nat) (f : Tile → Tile) : (t.updTile half i f).cls = t.cls := rfl
@[simp] theorem Team.updTile_prio (t : Team) (half i : Nat) (f : Tile → Tile) : (t.updTile half i f).prio = t.prio := rfl
@[simp] theorem Team.updTile_tenant (t : Team) (half i : Nat) (f : Tile → Tile) : (t.updTile half i f).tenant = t.tenant := rfl
@[simp] theorem Team.updTile_bcls (t : Team) (half i : Nat) (f : Tile → Tile) : (t.updTile half i f).bcls = t.bcls := rfl
@[simp] theorem Team.updTile_kva (t : Team) (half i : Nat) (f : Tile → Tile) : (t.updTile half i f).kva = t.kva := rfl
@[simp] theorem Team.updTile_kd (t : Team) (half i : Nat) (f : Tile → Tile) : (t.updTile half i f).kd = t.kd := rfl
@[simp] theorem Team.updTile_frame (t : Team) (half i : Nat) (f : Tile → Tile) : (t.updTile half i f).frame = t.frame := rfl
@[simp] theorem Team.updTile_team (t : Team) (half i : Nat) (f : Tile → Tile) : (t.updTile half i f).team = t.team := rfl
@[simp] theorem Team.updTile_nteam (t : Team) (half i : Nat) (f : Tile → Tile) : (t.updTile half i f).nteam = t.nteam := rfl
@[simp] theorem Team.updTile_launchId (t : Team) (half i : Nat) (f : Tile → Tile) : (t.updTile half i f).launchId = t.launchId := rfl
@[simp] theorem Team.updTile_args (t : Team) (half i : Nat) (f : Tile → Tile) : (t.updTile half i f).args = t.args := rfl
@[simp] theorem Team.updTile_done (t : Team) (half i : Nat) (f : Tile → Tile) : (t.updTile half i f).done = t.done := rfl
@[simp] theorem Team.updTile_tq (t : Team) (half i : Nat) (f : Tile → Tile) : (t.updTile half i f).tq = t.tq := rfl
@[simp] theorem Team.updTile_fstride (t : Team) (half i : Nat) (f : Tile → Tile) : (t.updTile half i f).fstride = t.fstride := rfl
@[simp] theorem Team.updTile_launch (t : Team) (half i : Nat) (f : Tile → Tile) : (t.updTile half i f).launch = t.launch := rfl
@[simp] theorem Team.updTile_phase (t : Team) (half i : Nat) (f : Tile → Tile) : (t.updTile half i f).phase = t.phase := rfl
@[simp] theorem Team.updTile_core (t : Team) (half i : Nat) (f : Tile → Tile) : (t.updTile half i f).core = t.core := rfl
@[simp] theorem Team.updTile_slot (t : Team) (half i : Nat) (f : Tile → Tile) : (t.updTile half i f).slot = t.slot := rfl
@[simp] theorem Team.updTile_settle (t : Team) (half i : Nat) (f : Tile → Tile) : (t.updTile half i f).settle = t.settle := rfl
@[simp] theorem Team.updTile_leave (t : Team) (half i : Nat) (f : Tile → Tile) : (t.updTile half i f).leave = t.leave := rfl
@[simp] theorem Team.updTile_load (t : Team) (half i : Nat) (f : Tile → Tile) : (t.updTile half i f).load = t.load := rfl
@[simp] theorem Team.updTile_stepTest (t : Team) (half i : Nat) (f : Tile → Tile) : (t.updTile half i f).stepTest = t.stepTest := rfl
@[simp] theorem Team.updTile_last (t : Team) (half i : Nat) (f : Tile → Tile) : (t.updTile half i f).last = t.last := rfl
@[simp] theorem Team.updTile_groups (t : Team) (half i : Nat) (f : Tile → Tile) : (t.updTile half i f).groups = t.groups := rfl
@[simp] theorem Team.updTile_acc (t : Team) (half i : Nat) (f : Tile → Tile) : (t.updTile half i f).acc = t.acc := rfl
@[simp] theorem Team.updTile_ls (t : Team) (half i : Nat) (f : Tile → Tile) : (t.updTile half i f).ls = t.ls := rfl
@[simp] theorem Team.updTile_barriers (t : Team) (half i : Nat) (f : Tile → Tile) : (t.updTile half i f).barriers = t.barriers := rfl
@[simp] theorem Team.updTile_relaunch (t : Team) (half i : Nat) (f : Tile → Tile) : (t.updTile half i f).relaunch = t.relaunch := rfl
@[simp] theorem Team.updTile_counts (t : Team) (half i : Nat) (f : Tile → Tile) : (t.updTile half i f).counts = t.counts := rfl
@[simp] theorem Team.updTile_jobs (t : Team) (half i : Nat) (f : Tile → Tile) : (t.updTile half i f).jobs = t.jobs := rfl
@[simp] theorem Team.updTile_retires (t : Team) (half i : Nat) (f : Tile → Tile) : (t.updTile half i f).retires = t.retires := rfl
@[simp] theorem Team.updTile_mfetch (t : Team) (half i : Nat) (f : Tile → Tile) : (t.updTile half i f).mfetch = t.mfetch := rfl
@[simp] theorem Team.updTile_gang (t : Team) (half i : Nat) (f : Tile → Tile) : (t.updTile half i f).gang = t.gang := rfl

@[simp] theorem Team.updBar_id (t : Team) (i : Nat) (f : Barrier → Barrier) : (t.updBar i f).id = t.id := rfl
@[simp] theorem Team.updBar_ctx (t : Team) (i : Nat) (f : Barrier → Barrier) : (t.updBar i f).ctx = t.ctx := rfl
@[simp] theorem Team.updBar_cls (t : Team) (i : Nat) (f : Barrier → Barrier) : (t.updBar i f).cls = t.cls := rfl
@[simp] theorem Team.updBar_prio (t : Team) (i : Nat) (f : Barrier → Barrier) : (t.updBar i f).prio = t.prio := rfl
@[simp] theorem Team.updBar_tenant (t : Team) (i : Nat) (f : Barrier → Barrier) : (t.updBar i f).tenant = t.tenant := rfl
@[simp] theorem Team.updBar_bcls (t : Team) (i : Nat) (f : Barrier → Barrier) : (t.updBar i f).bcls = t.bcls := rfl
@[simp] theorem Team.updBar_kva (t : Team) (i : Nat) (f : Barrier → Barrier) : (t.updBar i f).kva = t.kva := rfl
@[simp] theorem Team.updBar_kd (t : Team) (i : Nat) (f : Barrier → Barrier) : (t.updBar i f).kd = t.kd := rfl
@[simp] theorem Team.updBar_frame (t : Team) (i : Nat) (f : Barrier → Barrier) : (t.updBar i f).frame = t.frame := rfl
@[simp] theorem Team.updBar_team (t : Team) (i : Nat) (f : Barrier → Barrier) : (t.updBar i f).team = t.team := rfl
@[simp] theorem Team.updBar_nteam (t : Team) (i : Nat) (f : Barrier → Barrier) : (t.updBar i f).nteam = t.nteam := rfl
@[simp] theorem Team.updBar_launchId (t : Team) (i : Nat) (f : Barrier → Barrier) : (t.updBar i f).launchId = t.launchId := rfl
@[simp] theorem Team.updBar_args (t : Team) (i : Nat) (f : Barrier → Barrier) : (t.updBar i f).args = t.args := rfl
@[simp] theorem Team.updBar_done (t : Team) (i : Nat) (f : Barrier → Barrier) : (t.updBar i f).done = t.done := rfl
@[simp] theorem Team.updBar_tq (t : Team) (i : Nat) (f : Barrier → Barrier) : (t.updBar i f).tq = t.tq := rfl
@[simp] theorem Team.updBar_fstride (t : Team) (i : Nat) (f : Barrier → Barrier) : (t.updBar i f).fstride = t.fstride := rfl
@[simp] theorem Team.updBar_launch (t : Team) (i : Nat) (f : Barrier → Barrier) : (t.updBar i f).launch = t.launch := rfl
@[simp] theorem Team.updBar_phase (t : Team) (i : Nat) (f : Barrier → Barrier) : (t.updBar i f).phase = t.phase := rfl
@[simp] theorem Team.updBar_core (t : Team) (i : Nat) (f : Barrier → Barrier) : (t.updBar i f).core = t.core := rfl
@[simp] theorem Team.updBar_slot (t : Team) (i : Nat) (f : Barrier → Barrier) : (t.updBar i f).slot = t.slot := rfl
@[simp] theorem Team.updBar_settle (t : Team) (i : Nat) (f : Barrier → Barrier) : (t.updBar i f).settle = t.settle := rfl
@[simp] theorem Team.updBar_leave (t : Team) (i : Nat) (f : Barrier → Barrier) : (t.updBar i f).leave = t.leave := rfl
@[simp] theorem Team.updBar_load (t : Team) (i : Nat) (f : Barrier → Barrier) : (t.updBar i f).load = t.load := rfl
@[simp] theorem Team.updBar_stepTest (t : Team) (i : Nat) (f : Barrier → Barrier) : (t.updBar i f).stepTest = t.stepTest := rfl
@[simp] theorem Team.updBar_last (t : Team) (i : Nat) (f : Barrier → Barrier) : (t.updBar i f).last = t.last := rfl
@[simp] theorem Team.updBar_groups (t : Team) (i : Nat) (f : Barrier → Barrier) : (t.updBar i f).groups = t.groups := rfl
@[simp] theorem Team.updBar_acc (t : Team) (i : Nat) (f : Barrier → Barrier) : (t.updBar i f).acc = t.acc := rfl
@[simp] theorem Team.updBar_tiles (t : Team) (i : Nat) (f : Barrier → Barrier) : (t.updBar i f).tiles = t.tiles := rfl
@[simp] theorem Team.updBar_ls (t : Team) (i : Nat) (f : Barrier → Barrier) : (t.updBar i f).ls = t.ls := rfl
@[simp] theorem Team.updBar_relaunch (t : Team) (i : Nat) (f : Barrier → Barrier) : (t.updBar i f).relaunch = t.relaunch := rfl
@[simp] theorem Team.updBar_counts (t : Team) (i : Nat) (f : Barrier → Barrier) : (t.updBar i f).counts = t.counts := rfl
@[simp] theorem Team.updBar_jobs (t : Team) (i : Nat) (f : Barrier → Barrier) : (t.updBar i f).jobs = t.jobs := rfl
@[simp] theorem Team.updBar_retires (t : Team) (i : Nat) (f : Barrier → Barrier) : (t.updBar i f).retires = t.retires := rfl
@[simp] theorem Team.updBar_mfetch (t : Team) (i : Nat) (f : Barrier → Barrier) : (t.updBar i f).mfetch = t.mfetch := rfl
@[simp] theorem Team.updBar_gang (t : Team) (i : Nat) (f : Barrier → Barrier) : (t.updBar i f).gang = t.gang := rfl

@[simp] theorem Team.updCount_id (t : Team) (half : Nat) (f : SlotCount → SlotCount) : (t.updCount half f).id = t.id := rfl
@[simp] theorem Team.updCount_ctx (t : Team) (half : Nat) (f : SlotCount → SlotCount) : (t.updCount half f).ctx = t.ctx := rfl
@[simp] theorem Team.updCount_cls (t : Team) (half : Nat) (f : SlotCount → SlotCount) : (t.updCount half f).cls = t.cls := rfl
@[simp] theorem Team.updCount_prio (t : Team) (half : Nat) (f : SlotCount → SlotCount) : (t.updCount half f).prio = t.prio := rfl
@[simp] theorem Team.updCount_tenant (t : Team) (half : Nat) (f : SlotCount → SlotCount) : (t.updCount half f).tenant = t.tenant := rfl
@[simp] theorem Team.updCount_bcls (t : Team) (half : Nat) (f : SlotCount → SlotCount) : (t.updCount half f).bcls = t.bcls := rfl
@[simp] theorem Team.updCount_kva (t : Team) (half : Nat) (f : SlotCount → SlotCount) : (t.updCount half f).kva = t.kva := rfl
@[simp] theorem Team.updCount_kd (t : Team) (half : Nat) (f : SlotCount → SlotCount) : (t.updCount half f).kd = t.kd := rfl
@[simp] theorem Team.updCount_frame (t : Team) (half : Nat) (f : SlotCount → SlotCount) : (t.updCount half f).frame = t.frame := rfl
@[simp] theorem Team.updCount_team (t : Team) (half : Nat) (f : SlotCount → SlotCount) : (t.updCount half f).team = t.team := rfl
@[simp] theorem Team.updCount_nteam (t : Team) (half : Nat) (f : SlotCount → SlotCount) : (t.updCount half f).nteam = t.nteam := rfl
@[simp] theorem Team.updCount_launchId (t : Team) (half : Nat) (f : SlotCount → SlotCount) : (t.updCount half f).launchId = t.launchId := rfl
@[simp] theorem Team.updCount_args (t : Team) (half : Nat) (f : SlotCount → SlotCount) : (t.updCount half f).args = t.args := rfl
@[simp] theorem Team.updCount_done (t : Team) (half : Nat) (f : SlotCount → SlotCount) : (t.updCount half f).done = t.done := rfl
@[simp] theorem Team.updCount_tq (t : Team) (half : Nat) (f : SlotCount → SlotCount) : (t.updCount half f).tq = t.tq := rfl
@[simp] theorem Team.updCount_fstride (t : Team) (half : Nat) (f : SlotCount → SlotCount) : (t.updCount half f).fstride = t.fstride := rfl
@[simp] theorem Team.updCount_launch (t : Team) (half : Nat) (f : SlotCount → SlotCount) : (t.updCount half f).launch = t.launch := rfl
@[simp] theorem Team.updCount_phase (t : Team) (half : Nat) (f : SlotCount → SlotCount) : (t.updCount half f).phase = t.phase := rfl
@[simp] theorem Team.updCount_core (t : Team) (half : Nat) (f : SlotCount → SlotCount) : (t.updCount half f).core = t.core := rfl
@[simp] theorem Team.updCount_slot (t : Team) (half : Nat) (f : SlotCount → SlotCount) : (t.updCount half f).slot = t.slot := rfl
@[simp] theorem Team.updCount_settle (t : Team) (half : Nat) (f : SlotCount → SlotCount) : (t.updCount half f).settle = t.settle := rfl
@[simp] theorem Team.updCount_leave (t : Team) (half : Nat) (f : SlotCount → SlotCount) : (t.updCount half f).leave = t.leave := rfl
@[simp] theorem Team.updCount_load (t : Team) (half : Nat) (f : SlotCount → SlotCount) : (t.updCount half f).load = t.load := rfl
@[simp] theorem Team.updCount_stepTest (t : Team) (half : Nat) (f : SlotCount → SlotCount) : (t.updCount half f).stepTest = t.stepTest := rfl
@[simp] theorem Team.updCount_last (t : Team) (half : Nat) (f : SlotCount → SlotCount) : (t.updCount half f).last = t.last := rfl
@[simp] theorem Team.updCount_groups (t : Team) (half : Nat) (f : SlotCount → SlotCount) : (t.updCount half f).groups = t.groups := rfl
@[simp] theorem Team.updCount_acc (t : Team) (half : Nat) (f : SlotCount → SlotCount) : (t.updCount half f).acc = t.acc := rfl
@[simp] theorem Team.updCount_tiles (t : Team) (half : Nat) (f : SlotCount → SlotCount) : (t.updCount half f).tiles = t.tiles := rfl
@[simp] theorem Team.updCount_ls (t : Team) (half : Nat) (f : SlotCount → SlotCount) : (t.updCount half f).ls = t.ls := rfl
@[simp] theorem Team.updCount_barriers (t : Team) (half : Nat) (f : SlotCount → SlotCount) : (t.updCount half f).barriers = t.barriers := rfl
@[simp] theorem Team.updCount_relaunch (t : Team) (half : Nat) (f : SlotCount → SlotCount) : (t.updCount half f).relaunch = t.relaunch := rfl
@[simp] theorem Team.updCount_jobs (t : Team) (half : Nat) (f : SlotCount → SlotCount) : (t.updCount half f).jobs = t.jobs := rfl
@[simp] theorem Team.updCount_retires (t : Team) (half : Nat) (f : SlotCount → SlotCount) : (t.updCount half f).retires = t.retires := rfl
@[simp] theorem Team.updCount_mfetch (t : Team) (half : Nat) (f : SlotCount → SlotCount) : (t.updCount half f).mfetch = t.mfetch := rfl
@[simp] theorem Team.updCount_gang (t : Team) (half : Nat) (f : SlotCount → SlotCount) : (t.updCount half f).gang = t.gang := rfl

@[simp] theorem Team.setAcc_id (t : Team) (gi o i : Nat) (x : List Nat) : (t.setAcc gi o i x).id = t.id := rfl
@[simp] theorem Team.setAcc_ctx (t : Team) (gi o i : Nat) (x : List Nat) : (t.setAcc gi o i x).ctx = t.ctx := rfl
@[simp] theorem Team.setAcc_cls (t : Team) (gi o i : Nat) (x : List Nat) : (t.setAcc gi o i x).cls = t.cls := rfl
@[simp] theorem Team.setAcc_prio (t : Team) (gi o i : Nat) (x : List Nat) : (t.setAcc gi o i x).prio = t.prio := rfl
@[simp] theorem Team.setAcc_tenant (t : Team) (gi o i : Nat) (x : List Nat) : (t.setAcc gi o i x).tenant = t.tenant := rfl
@[simp] theorem Team.setAcc_bcls (t : Team) (gi o i : Nat) (x : List Nat) : (t.setAcc gi o i x).bcls = t.bcls := rfl
@[simp] theorem Team.setAcc_kva (t : Team) (gi o i : Nat) (x : List Nat) : (t.setAcc gi o i x).kva = t.kva := rfl
@[simp] theorem Team.setAcc_kd (t : Team) (gi o i : Nat) (x : List Nat) : (t.setAcc gi o i x).kd = t.kd := rfl
@[simp] theorem Team.setAcc_frame (t : Team) (gi o i : Nat) (x : List Nat) : (t.setAcc gi o i x).frame = t.frame := rfl
@[simp] theorem Team.setAcc_team (t : Team) (gi o i : Nat) (x : List Nat) : (t.setAcc gi o i x).team = t.team := rfl
@[simp] theorem Team.setAcc_nteam (t : Team) (gi o i : Nat) (x : List Nat) : (t.setAcc gi o i x).nteam = t.nteam := rfl
@[simp] theorem Team.setAcc_launchId (t : Team) (gi o i : Nat) (x : List Nat) : (t.setAcc gi o i x).launchId = t.launchId := rfl
@[simp] theorem Team.setAcc_args (t : Team) (gi o i : Nat) (x : List Nat) : (t.setAcc gi o i x).args = t.args := rfl
@[simp] theorem Team.setAcc_done (t : Team) (gi o i : Nat) (x : List Nat) : (t.setAcc gi o i x).done = t.done := rfl
@[simp] theorem Team.setAcc_tq (t : Team) (gi o i : Nat) (x : List Nat) : (t.setAcc gi o i x).tq = t.tq := rfl
@[simp] theorem Team.setAcc_fstride (t : Team) (gi o i : Nat) (x : List Nat) : (t.setAcc gi o i x).fstride = t.fstride := rfl
@[simp] theorem Team.setAcc_launch (t : Team) (gi o i : Nat) (x : List Nat) : (t.setAcc gi o i x).launch = t.launch := rfl
@[simp] theorem Team.setAcc_phase (t : Team) (gi o i : Nat) (x : List Nat) : (t.setAcc gi o i x).phase = t.phase := rfl
@[simp] theorem Team.setAcc_core (t : Team) (gi o i : Nat) (x : List Nat) : (t.setAcc gi o i x).core = t.core := rfl
@[simp] theorem Team.setAcc_slot (t : Team) (gi o i : Nat) (x : List Nat) : (t.setAcc gi o i x).slot = t.slot := rfl
@[simp] theorem Team.setAcc_settle (t : Team) (gi o i : Nat) (x : List Nat) : (t.setAcc gi o i x).settle = t.settle := rfl
@[simp] theorem Team.setAcc_leave (t : Team) (gi o i : Nat) (x : List Nat) : (t.setAcc gi o i x).leave = t.leave := rfl
@[simp] theorem Team.setAcc_load (t : Team) (gi o i : Nat) (x : List Nat) : (t.setAcc gi o i x).load = t.load := rfl
@[simp] theorem Team.setAcc_stepTest (t : Team) (gi o i : Nat) (x : List Nat) : (t.setAcc gi o i x).stepTest = t.stepTest := rfl
@[simp] theorem Team.setAcc_last (t : Team) (gi o i : Nat) (x : List Nat) : (t.setAcc gi o i x).last = t.last := rfl
@[simp] theorem Team.setAcc_groups (t : Team) (gi o i : Nat) (x : List Nat) : (t.setAcc gi o i x).groups = t.groups := rfl
@[simp] theorem Team.setAcc_tiles (t : Team) (gi o i : Nat) (x : List Nat) : (t.setAcc gi o i x).tiles = t.tiles := rfl
@[simp] theorem Team.setAcc_ls (t : Team) (gi o i : Nat) (x : List Nat) : (t.setAcc gi o i x).ls = t.ls := rfl
@[simp] theorem Team.setAcc_barriers (t : Team) (gi o i : Nat) (x : List Nat) : (t.setAcc gi o i x).barriers = t.barriers := rfl
@[simp] theorem Team.setAcc_relaunch (t : Team) (gi o i : Nat) (x : List Nat) : (t.setAcc gi o i x).relaunch = t.relaunch := rfl
@[simp] theorem Team.setAcc_counts (t : Team) (gi o i : Nat) (x : List Nat) : (t.setAcc gi o i x).counts = t.counts := rfl
@[simp] theorem Team.setAcc_jobs (t : Team) (gi o i : Nat) (x : List Nat) : (t.setAcc gi o i x).jobs = t.jobs := rfl
@[simp] theorem Team.setAcc_retires (t : Team) (gi o i : Nat) (x : List Nat) : (t.setAcc gi o i x).retires = t.retires := rfl
@[simp] theorem Team.setAcc_mfetch (t : Team) (gi o i : Nat) (x : List Nat) : (t.setAcc gi o i x).mfetch = t.mfetch := rfl
@[simp] theorem Team.setAcc_gang (t : Team) (gi o i : Nat) (x : List Nat) : (t.setAcc gi o i x).gang = t.gang := rfl

end Sys2Proof.Machine
end

