-- ==== Sys2Proof/Laws/State.lean ====
section
/-! SUPPORT. One lemma per field per update of the state, so that no proof unfolds a record update. -/

namespace Sys2Proof.Machine

variable (s : State)

/-! ### `updTeam` -/

@[simp] theorem State.updTeam_cur (id : Nat) (f : Team → Team) : (s.updTeam id f).cur = s.cur := rfl
@[simp] theorem State.updTeam_last (id : Nat) (f : Team → Team) : (s.updTeam id f).last = s.last := rfl
@[simp] theorem State.updTeam_turn (id : Nat) (f : Team → Team) : (s.updTeam id f).turn = s.turn := rfl
@[simp] theorem State.updTeam_agenda (id : Nat) (f : Team → Team) : (s.updTeam id f).agenda = s.agenda := rfl
@[simp] theorem State.updTeam_cmds (id : Nat) (f : Team → Team) : (s.updTeam id f).cmds = s.cmds := rfl
@[simp] theorem State.updTeam_freeN (id : Nat) (f : Team → Team) : (s.updTeam id f).freeN = s.freeN := rfl
@[simp] theorem State.updTeam_nextId (id : Nat) (f : Team → Team) : (s.updTeam id f).nextId = s.nextId := rfl
@[simp] theorem State.updTeam_clks (id : Nat) (f : Team → Team) : (s.updTeam id f).clks = s.clks := rfl
@[simp] theorem State.updTeam_ptp (id : Nat) (f : Team → Team) : (s.updTeam id f).ptp = s.ptp := rfl
@[simp] theorem State.updTeam_ptps (id : Nat) (f : Team → Team) : (s.updTeam id f).ptps = s.ptps := rfl
@[simp] theorem State.updTeam_ctxs (id : Nat) (f : Team → Team) : (s.updTeam id f).ctxs = s.ctxs := rfl
@[simp] theorem State.updTeam_mem (id : Nat) (f : Team → Team) : (s.updTeam id f).mem = s.mem := rfl
@[simp] theorem State.updTeam_l1 (id : Nat) (f : Team → Team) : (s.updTeam id f).l1 = s.l1 := rfl
@[simp] theorem State.updTeam_tlb (id : Nat) (f : Team → Team) : (s.updTeam id f).tlb = s.tlb := rfl
@[simp] theorem State.updTeam_pwc (id : Nat) (f : Team → Team) : (s.updTeam id f).pwc = s.pwc := rfl
@[simp] theorem State.updTeam_misses (id : Nat) (f : Team → Team) : (s.updTeam id f).misses = s.misses := rfl
@[simp] theorem State.updTeam_poison (id : Nat) (f : Team → Team) : (s.updTeam id f).poison = s.poison := rfl
@[simp] theorem State.updTeam_ecc (id : Nat) (f : Team → Team) : (s.updTeam id f).ecc = s.ecc := rfl
@[simp] theorem State.updTeam_tags (id : Nat) (f : Team → Team) : (s.updTeam id f).tags = s.tags := rfl
@[simp] theorem State.updTeam_resident (id : Nat) (f : Team → Team) : (s.updTeam id f).resident = s.resident := rfl
@[simp] theorem State.updTeam_fused (id : Nat) (f : Team → Team) : (s.updTeam id f).fused = s.fused := rfl
@[simp] theorem State.updTeam_roost (id : Nat) (f : Team → Team) : (s.updTeam id f).roost = s.roost := rfl
@[simp] theorem State.updTeam_ovf (id : Nat) (f : Team → Team) : (s.updTeam id f).ovf = s.ovf := rfl
@[simp] theorem State.updTeam_shapes (id : Nat) (f : Team → Team) : (s.updTeam id f).shapes = s.shapes := rfl
@[simp] theorem State.updTeam_waiters (id : Nat) (f : Team → Team) : (s.updTeam id f).waiters = s.waiters := rfl
@[simp] theorem State.updTeam_calls (id : Nat) (f : Team → Team) : (s.updTeam id f).calls = s.calls := rfl
@[simp] theorem State.updTeam_freezes (id : Nat) (f : Team → Team) : (s.updTeam id f).freezes = s.freezes := rfl
@[simp] theorem State.updTeam_reply (id : Nat) (f : Team → Team) : (s.updTeam id f).reply = s.reply := rfl
@[simp] theorem State.updTeam_eng (id : Nat) (f : Team → Team) : (s.updTeam id f).eng = s.eng := rfl
@[simp] theorem State.updTeam_sch (id : Nat) (f : Team → Team) : (s.updTeam id f).sch = s.sch := rfl
@[simp] theorem State.updTeam_echo (id : Nat) (f : Team → Team) : (s.updTeam id f).echo = s.echo := rfl
@[simp] theorem State.updTeam_pkg (id : Nat) (f : Team → Team) : (s.updTeam id f).pkg = s.pkg := rfl

/-! ### `updGrp` -/

@[simp] theorem State.updGrp_cur (id : Nat × Nat) (f : Group → Group) : (s.updGrp id f).cur = s.cur := rfl
@[simp] theorem State.updGrp_last (id : Nat × Nat) (f : Group → Group) : (s.updGrp id f).last = s.last := rfl
@[simp] theorem State.updGrp_turn (id : Nat × Nat) (f : Group → Group) : (s.updGrp id f).turn = s.turn := rfl
@[simp] theorem State.updGrp_agenda (id : Nat × Nat) (f : Group → Group) : (s.updGrp id f).agenda = s.agenda := rfl
@[simp] theorem State.updGrp_cmds (id : Nat × Nat) (f : Group → Group) : (s.updGrp id f).cmds = s.cmds := rfl
@[simp] theorem State.updGrp_freeN (id : Nat × Nat) (f : Group → Group) : (s.updGrp id f).freeN = s.freeN := rfl
@[simp] theorem State.updGrp_nextId (id : Nat × Nat) (f : Group → Group) : (s.updGrp id f).nextId = s.nextId := rfl
@[simp] theorem State.updGrp_clks (id : Nat × Nat) (f : Group → Group) : (s.updGrp id f).clks = s.clks := rfl
@[simp] theorem State.updGrp_ptp (id : Nat × Nat) (f : Group → Group) : (s.updGrp id f).ptp = s.ptp := rfl
@[simp] theorem State.updGrp_ptps (id : Nat × Nat) (f : Group → Group) : (s.updGrp id f).ptps = s.ptps := rfl
@[simp] theorem State.updGrp_ctxs (id : Nat × Nat) (f : Group → Group) : (s.updGrp id f).ctxs = s.ctxs := rfl
@[simp] theorem State.updGrp_mem (id : Nat × Nat) (f : Group → Group) : (s.updGrp id f).mem = s.mem := rfl
@[simp] theorem State.updGrp_l1 (id : Nat × Nat) (f : Group → Group) : (s.updGrp id f).l1 = s.l1 := rfl
@[simp] theorem State.updGrp_tlb (id : Nat × Nat) (f : Group → Group) : (s.updGrp id f).tlb = s.tlb := rfl
@[simp] theorem State.updGrp_pwc (id : Nat × Nat) (f : Group → Group) : (s.updGrp id f).pwc = s.pwc := rfl
@[simp] theorem State.updGrp_misses (id : Nat × Nat) (f : Group → Group) : (s.updGrp id f).misses = s.misses := rfl
@[simp] theorem State.updGrp_poison (id : Nat × Nat) (f : Group → Group) : (s.updGrp id f).poison = s.poison := rfl
@[simp] theorem State.updGrp_ecc (id : Nat × Nat) (f : Group → Group) : (s.updGrp id f).ecc = s.ecc := rfl
@[simp] theorem State.updGrp_tags (id : Nat × Nat) (f : Group → Group) : (s.updGrp id f).tags = s.tags := rfl
@[simp] theorem State.updGrp_resident (id : Nat × Nat) (f : Group → Group) : (s.updGrp id f).resident = s.resident := rfl
@[simp] theorem State.updGrp_fused (id : Nat × Nat) (f : Group → Group) : (s.updGrp id f).fused = s.fused := rfl
@[simp] theorem State.updGrp_roost (id : Nat × Nat) (f : Group → Group) : (s.updGrp id f).roost = s.roost := rfl
@[simp] theorem State.updGrp_ovf (id : Nat × Nat) (f : Group → Group) : (s.updGrp id f).ovf = s.ovf := rfl
@[simp] theorem State.updGrp_shapes (id : Nat × Nat) (f : Group → Group) : (s.updGrp id f).shapes = s.shapes := rfl
@[simp] theorem State.updGrp_waiters (id : Nat × Nat) (f : Group → Group) : (s.updGrp id f).waiters = s.waiters := rfl
@[simp] theorem State.updGrp_calls (id : Nat × Nat) (f : Group → Group) : (s.updGrp id f).calls = s.calls := rfl
@[simp] theorem State.updGrp_freezes (id : Nat × Nat) (f : Group → Group) : (s.updGrp id f).freezes = s.freezes := rfl
@[simp] theorem State.updGrp_reply (id : Nat × Nat) (f : Group → Group) : (s.updGrp id f).reply = s.reply := rfl
@[simp] theorem State.updGrp_eng (id : Nat × Nat) (f : Group → Group) : (s.updGrp id f).eng = s.eng := rfl
@[simp] theorem State.updGrp_sch (id : Nat × Nat) (f : Group → Group) : (s.updGrp id f).sch = s.sch := rfl
@[simp] theorem State.updGrp_echo (id : Nat × Nat) (f : Group → Group) : (s.updGrp id f).echo = s.echo := rfl
@[simp] theorem State.updGrp_pkg (id : Nat × Nat) (f : Group → Group) : (s.updGrp id f).pkg = s.pkg := rfl

/-! ### `updCtx` -/

@[simp] theorem State.updCtx_cur (n : Nat) (f : Ctx → Ctx) : (s.updCtx n f).cur = s.cur := rfl
@[simp] theorem State.updCtx_last (n : Nat) (f : Ctx → Ctx) : (s.updCtx n f).last = s.last := rfl
@[simp] theorem State.updCtx_turn (n : Nat) (f : Ctx → Ctx) : (s.updCtx n f).turn = s.turn := rfl
@[simp] theorem State.updCtx_agenda (n : Nat) (f : Ctx → Ctx) : (s.updCtx n f).agenda = s.agenda := rfl
@[simp] theorem State.updCtx_cmds (n : Nat) (f : Ctx → Ctx) : (s.updCtx n f).cmds = s.cmds := rfl
@[simp] theorem State.updCtx_freeN (n : Nat) (f : Ctx → Ctx) : (s.updCtx n f).freeN = s.freeN := rfl
@[simp] theorem State.updCtx_nextId (n : Nat) (f : Ctx → Ctx) : (s.updCtx n f).nextId = s.nextId := rfl
@[simp] theorem State.updCtx_clks (n : Nat) (f : Ctx → Ctx) : (s.updCtx n f).clks = s.clks := rfl
@[simp] theorem State.updCtx_ptp (n : Nat) (f : Ctx → Ctx) : (s.updCtx n f).ptp = s.ptp := rfl
@[simp] theorem State.updCtx_ptps (n : Nat) (f : Ctx → Ctx) : (s.updCtx n f).ptps = s.ptps := rfl
@[simp] theorem State.updCtx_teams (n : Nat) (f : Ctx → Ctx) : (s.updCtx n f).teams = s.teams := rfl
@[simp] theorem State.updCtx_mem (n : Nat) (f : Ctx → Ctx) : (s.updCtx n f).mem = s.mem := rfl
@[simp] theorem State.updCtx_l1 (n : Nat) (f : Ctx → Ctx) : (s.updCtx n f).l1 = s.l1 := rfl
@[simp] theorem State.updCtx_tlb (n : Nat) (f : Ctx → Ctx) : (s.updCtx n f).tlb = s.tlb := rfl
@[simp] theorem State.updCtx_pwc (n : Nat) (f : Ctx → Ctx) : (s.updCtx n f).pwc = s.pwc := rfl
@[simp] theorem State.updCtx_misses (n : Nat) (f : Ctx → Ctx) : (s.updCtx n f).misses = s.misses := rfl
@[simp] theorem State.updCtx_poison (n : Nat) (f : Ctx → Ctx) : (s.updCtx n f).poison = s.poison := rfl
@[simp] theorem State.updCtx_ecc (n : Nat) (f : Ctx → Ctx) : (s.updCtx n f).ecc = s.ecc := rfl
@[simp] theorem State.updCtx_tags (n : Nat) (f : Ctx → Ctx) : (s.updCtx n f).tags = s.tags := rfl
@[simp] theorem State.updCtx_resident (n : Nat) (f : Ctx → Ctx) : (s.updCtx n f).resident = s.resident := rfl
@[simp] theorem State.updCtx_fused (n : Nat) (f : Ctx → Ctx) : (s.updCtx n f).fused = s.fused := rfl
@[simp] theorem State.updCtx_roost (n : Nat) (f : Ctx → Ctx) : (s.updCtx n f).roost = s.roost := rfl
@[simp] theorem State.updCtx_ovf (n : Nat) (f : Ctx → Ctx) : (s.updCtx n f).ovf = s.ovf := rfl
@[simp] theorem State.updCtx_shapes (n : Nat) (f : Ctx → Ctx) : (s.updCtx n f).shapes = s.shapes := rfl
@[simp] theorem State.updCtx_waiters (n : Nat) (f : Ctx → Ctx) : (s.updCtx n f).waiters = s.waiters := rfl
@[simp] theorem State.updCtx_calls (n : Nat) (f : Ctx → Ctx) : (s.updCtx n f).calls = s.calls := rfl
@[simp] theorem State.updCtx_freezes (n : Nat) (f : Ctx → Ctx) : (s.updCtx n f).freezes = s.freezes := rfl
@[simp] theorem State.updCtx_reply (n : Nat) (f : Ctx → Ctx) : (s.updCtx n f).reply = s.reply := rfl
@[simp] theorem State.updCtx_eng (n : Nat) (f : Ctx → Ctx) : (s.updCtx n f).eng = s.eng := rfl
@[simp] theorem State.updCtx_sch (n : Nat) (f : Ctx → Ctx) : (s.updCtx n f).sch = s.sch := rfl
@[simp] theorem State.updCtx_echo (n : Nat) (f : Ctx → Ctx) : (s.updCtx n f).echo = s.echo := rfl
@[simp] theorem State.updCtx_pkg (n : Nat) (f : Ctx → Ctx) : (s.updCtx n f).pkg = s.pkg := rfl

/-! ### `updEng` -/

@[simp] theorem State.updEng_cur (f : Engines → Engines) : (s.updEng f).cur = s.cur := rfl
@[simp] theorem State.updEng_last (f : Engines → Engines) : (s.updEng f).last = s.last := rfl
@[simp] theorem State.updEng_turn (f : Engines → Engines) : (s.updEng f).turn = s.turn := rfl
@[simp] theorem State.updEng_agenda (f : Engines → Engines) : (s.updEng f).agenda = s.agenda := rfl
@[simp] theorem State.updEng_cmds (f : Engines → Engines) : (s.updEng f).cmds = s.cmds := rfl
@[simp] theorem State.updEng_freeN (f : Engines → Engines) : (s.updEng f).freeN = s.freeN := rfl
@[simp] theorem State.updEng_nextId (f : Engines → Engines) : (s.updEng f).nextId = s.nextId := rfl
@[simp] theorem State.updEng_clks (f : Engines → Engines) : (s.updEng f).clks = s.clks := rfl
@[simp] theorem State.updEng_ptp (f : Engines → Engines) : (s.updEng f).ptp = s.ptp := rfl
@[simp] theorem State.updEng_ptps (f : Engines → Engines) : (s.updEng f).ptps = s.ptps := rfl
@[simp] theorem State.updEng_teams (f : Engines → Engines) : (s.updEng f).teams = s.teams := rfl
@[simp] theorem State.updEng_ctxs (f : Engines → Engines) : (s.updEng f).ctxs = s.ctxs := rfl
@[simp] theorem State.updEng_mem (f : Engines → Engines) : (s.updEng f).mem = s.mem := rfl
@[simp] theorem State.updEng_l1 (f : Engines → Engines) : (s.updEng f).l1 = s.l1 := rfl
@[simp] theorem State.updEng_tlb (f : Engines → Engines) : (s.updEng f).tlb = s.tlb := rfl
@[simp] theorem State.updEng_pwc (f : Engines → Engines) : (s.updEng f).pwc = s.pwc := rfl
@[simp] theorem State.updEng_misses (f : Engines → Engines) : (s.updEng f).misses = s.misses := rfl
@[simp] theorem State.updEng_poison (f : Engines → Engines) : (s.updEng f).poison = s.poison := rfl
@[simp] theorem State.updEng_ecc (f : Engines → Engines) : (s.updEng f).ecc = s.ecc := rfl
@[simp] theorem State.updEng_tags (f : Engines → Engines) : (s.updEng f).tags = s.tags := rfl
@[simp] theorem State.updEng_resident (f : Engines → Engines) : (s.updEng f).resident = s.resident := rfl
@[simp] theorem State.updEng_fused (f : Engines → Engines) : (s.updEng f).fused = s.fused := rfl
@[simp] theorem State.updEng_roost (f : Engines → Engines) : (s.updEng f).roost = s.roost := rfl
@[simp] theorem State.updEng_ovf (f : Engines → Engines) : (s.updEng f).ovf = s.ovf := rfl
@[simp] theorem State.updEng_shapes (f : Engines → Engines) : (s.updEng f).shapes = s.shapes := rfl
@[simp] theorem State.updEng_waiters (f : Engines → Engines) : (s.updEng f).waiters = s.waiters := rfl
@[simp] theorem State.updEng_calls (f : Engines → Engines) : (s.updEng f).calls = s.calls := rfl
@[simp] theorem State.updEng_freezes (f : Engines → Engines) : (s.updEng f).freezes = s.freezes := rfl
@[simp] theorem State.updEng_reply (f : Engines → Engines) : (s.updEng f).reply = s.reply := rfl
@[simp] theorem State.updEng_sch (f : Engines → Engines) : (s.updEng f).sch = s.sch := rfl
@[simp] theorem State.updEng_echo (f : Engines → Engines) : (s.updEng f).echo = s.echo := rfl
@[simp] theorem State.updEng_pkg (f : Engines → Engines) : (s.updEng f).pkg = s.pkg := rfl
@[simp] theorem State.updEng_eng (f : Engines → Engines) : (s.updEng f).eng = f s.eng := rfl

/-! ### `updSch` -/

@[simp] theorem State.updSch_cur (f : Sched → Sched) : (s.updSch f).cur = s.cur := rfl
@[simp] theorem State.updSch_last (f : Sched → Sched) : (s.updSch f).last = s.last := rfl
@[simp] theorem State.updSch_turn (f : Sched → Sched) : (s.updSch f).turn = s.turn := rfl
@[simp] theorem State.updSch_agenda (f : Sched → Sched) : (s.updSch f).agenda = s.agenda := rfl
@[simp] theorem State.updSch_cmds (f : Sched → Sched) : (s.updSch f).cmds = s.cmds := rfl
@[simp] theorem State.updSch_freeN (f : Sched → Sched) : (s.updSch f).freeN = s.freeN := rfl
@[simp] theorem State.updSch_nextId (f : Sched → Sched) : (s.updSch f).nextId = s.nextId := rfl
@[simp] theorem State.updSch_clks (f : Sched → Sched) : (s.updSch f).clks = s.clks := rfl
@[simp] theorem State.updSch_ptp (f : Sched → Sched) : (s.updSch f).ptp = s.ptp := rfl
@[simp] theorem State.updSch_ptps (f : Sched → Sched) : (s.updSch f).ptps = s.ptps := rfl
@[simp] theorem State.updSch_teams (f : Sched → Sched) : (s.updSch f).teams = s.teams := rfl
@[simp] theorem State.updSch_ctxs (f : Sched → Sched) : (s.updSch f).ctxs = s.ctxs := rfl
@[simp] theorem State.updSch_mem (f : Sched → Sched) : (s.updSch f).mem = s.mem := rfl
@[simp] theorem State.updSch_l1 (f : Sched → Sched) : (s.updSch f).l1 = s.l1 := rfl
@[simp] theorem State.updSch_tlb (f : Sched → Sched) : (s.updSch f).tlb = s.tlb := rfl
@[simp] theorem State.updSch_pwc (f : Sched → Sched) : (s.updSch f).pwc = s.pwc := rfl
@[simp] theorem State.updSch_misses (f : Sched → Sched) : (s.updSch f).misses = s.misses := rfl
@[simp] theorem State.updSch_poison (f : Sched → Sched) : (s.updSch f).poison = s.poison := rfl
@[simp] theorem State.updSch_ecc (f : Sched → Sched) : (s.updSch f).ecc = s.ecc := rfl
@[simp] theorem State.updSch_tags (f : Sched → Sched) : (s.updSch f).tags = s.tags := rfl
@[simp] theorem State.updSch_resident (f : Sched → Sched) : (s.updSch f).resident = s.resident := rfl
@[simp] theorem State.updSch_fused (f : Sched → Sched) : (s.updSch f).fused = s.fused := rfl
@[simp] theorem State.updSch_roost (f : Sched → Sched) : (s.updSch f).roost = s.roost := rfl
@[simp] theorem State.updSch_ovf (f : Sched → Sched) : (s.updSch f).ovf = s.ovf := rfl
@[simp] theorem State.updSch_shapes (f : Sched → Sched) : (s.updSch f).shapes = s.shapes := rfl
@[simp] theorem State.updSch_waiters (f : Sched → Sched) : (s.updSch f).waiters = s.waiters := rfl
@[simp] theorem State.updSch_calls (f : Sched → Sched) : (s.updSch f).calls = s.calls := rfl
@[simp] theorem State.updSch_freezes (f : Sched → Sched) : (s.updSch f).freezes = s.freezes := rfl
@[simp] theorem State.updSch_reply (f : Sched → Sched) : (s.updSch f).reply = s.reply := rfl
@[simp] theorem State.updSch_eng (f : Sched → Sched) : (s.updSch f).eng = s.eng := rfl
@[simp] theorem State.updSch_echo (f : Sched → Sched) : (s.updSch f).echo = s.echo := rfl
@[simp] theorem State.updSch_pkg (f : Sched → Sched) : (s.updSch f).pkg = s.pkg := rfl
@[simp] theorem State.updSch_sch (f : Sched → Sched) : (s.updSch f).sch = f s.sch := rfl

/-! ### `updEcho` -/

@[simp] theorem State.updEcho_cur (f : EchoSt → EchoSt) : (s.updEcho f).cur = s.cur := rfl
@[simp] theorem State.updEcho_last (f : EchoSt → EchoSt) : (s.updEcho f).last = s.last := rfl
@[simp] theorem State.updEcho_turn (f : EchoSt → EchoSt) : (s.updEcho f).turn = s.turn := rfl
@[simp] theorem State.updEcho_agenda (f : EchoSt → EchoSt) : (s.updEcho f).agenda = s.agenda := rfl
@[simp] theorem State.updEcho_cmds (f : EchoSt → EchoSt) : (s.updEcho f).cmds = s.cmds := rfl
@[simp] theorem State.updEcho_freeN (f : EchoSt → EchoSt) : (s.updEcho f).freeN = s.freeN := rfl
@[simp] theorem State.updEcho_nextId (f : EchoSt → EchoSt) : (s.updEcho f).nextId = s.nextId := rfl
@[simp] theorem State.updEcho_clks (f : EchoSt → EchoSt) : (s.updEcho f).clks = s.clks := rfl
@[simp] theorem State.updEcho_ptp (f : EchoSt → EchoSt) : (s.updEcho f).ptp = s.ptp := rfl
@[simp] theorem State.updEcho_ptps (f : EchoSt → EchoSt) : (s.updEcho f).ptps = s.ptps := rfl
@[simp] theorem State.updEcho_teams (f : EchoSt → EchoSt) : (s.updEcho f).teams = s.teams := rfl
@[simp] theorem State.updEcho_ctxs (f : EchoSt → EchoSt) : (s.updEcho f).ctxs = s.ctxs := rfl
@[simp] theorem State.updEcho_mem (f : EchoSt → EchoSt) : (s.updEcho f).mem = s.mem := rfl
@[simp] theorem State.updEcho_l1 (f : EchoSt → EchoSt) : (s.updEcho f).l1 = s.l1 := rfl
@[simp] theorem State.updEcho_tlb (f : EchoSt → EchoSt) : (s.updEcho f).tlb = s.tlb := rfl
@[simp] theorem State.updEcho_pwc (f : EchoSt → EchoSt) : (s.updEcho f).pwc = s.pwc := rfl
@[simp] theorem State.updEcho_misses (f : EchoSt → EchoSt) : (s.updEcho f).misses = s.misses := rfl
@[simp] theorem State.updEcho_poison (f : EchoSt → EchoSt) : (s.updEcho f).poison = s.poison := rfl
@[simp] theorem State.updEcho_ecc (f : EchoSt → EchoSt) : (s.updEcho f).ecc = s.ecc := rfl
@[simp] theorem State.updEcho_tags (f : EchoSt → EchoSt) : (s.updEcho f).tags = s.tags := rfl
@[simp] theorem State.updEcho_resident (f : EchoSt → EchoSt) : (s.updEcho f).resident = s.resident := rfl
@[simp] theorem State.updEcho_fused (f : EchoSt → EchoSt) : (s.updEcho f).fused = s.fused := rfl
@[simp] theorem State.updEcho_roost (f : EchoSt → EchoSt) : (s.updEcho f).roost = s.roost := rfl
@[simp] theorem State.updEcho_ovf (f : EchoSt → EchoSt) : (s.updEcho f).ovf = s.ovf := rfl
@[simp] theorem State.updEcho_shapes (f : EchoSt → EchoSt) : (s.updEcho f).shapes = s.shapes := rfl
@[simp] theorem State.updEcho_waiters (f : EchoSt → EchoSt) : (s.updEcho f).waiters = s.waiters := rfl
@[simp] theorem State.updEcho_calls (f : EchoSt → EchoSt) : (s.updEcho f).calls = s.calls := rfl
@[simp] theorem State.updEcho_freezes (f : EchoSt → EchoSt) : (s.updEcho f).freezes = s.freezes := rfl
@[simp] theorem State.updEcho_reply (f : EchoSt → EchoSt) : (s.updEcho f).reply = s.reply := rfl
@[simp] theorem State.updEcho_eng (f : EchoSt → EchoSt) : (s.updEcho f).eng = s.eng := rfl
@[simp] theorem State.updEcho_sch (f : EchoSt → EchoSt) : (s.updEcho f).sch = s.sch := rfl
@[simp] theorem State.updEcho_pkg (f : EchoSt → EchoSt) : (s.updEcho f).pkg = s.pkg := rfl
@[simp] theorem State.updEcho_echo (f : EchoSt → EchoSt) : (s.updEcho f).echo = f s.echo := rfl

/-! ### `updPkg` -/

@[simp] theorem State.updPkg_cur (f : Package → Package) : (s.updPkg f).cur = s.cur := rfl
@[simp] theorem State.updPkg_last (f : Package → Package) : (s.updPkg f).last = s.last := rfl
@[simp] theorem State.updPkg_turn (f : Package → Package) : (s.updPkg f).turn = s.turn := rfl
@[simp] theorem State.updPkg_agenda (f : Package → Package) : (s.updPkg f).agenda = s.agenda := rfl
@[simp] theorem State.updPkg_cmds (f : Package → Package) : (s.updPkg f).cmds = s.cmds := rfl
@[simp] theorem State.updPkg_freeN (f : Package → Package) : (s.updPkg f).freeN = s.freeN := rfl
@[simp] theorem State.updPkg_nextId (f : Package → Package) : (s.updPkg f).nextId = s.nextId := rfl
@[simp] theorem State.updPkg_clks (f : Package → Package) : (s.updPkg f).clks = s.clks := rfl
@[simp] theorem State.updPkg_ptp (f : Package → Package) : (s.updPkg f).ptp = s.ptp := rfl
@[simp] theorem State.updPkg_ptps (f : Package → Package) : (s.updPkg f).ptps = s.ptps := rfl
@[simp] theorem State.updPkg_teams (f : Package → Package) : (s.updPkg f).teams = s.teams := rfl
@[simp] theorem State.updPkg_ctxs (f : Package → Package) : (s.updPkg f).ctxs = s.ctxs := rfl
@[simp] theorem State.updPkg_mem (f : Package → Package) : (s.updPkg f).mem = s.mem := rfl
@[simp] theorem State.updPkg_l1 (f : Package → Package) : (s.updPkg f).l1 = s.l1 := rfl
@[simp] theorem State.updPkg_tlb (f : Package → Package) : (s.updPkg f).tlb = s.tlb := rfl
@[simp] theorem State.updPkg_pwc (f : Package → Package) : (s.updPkg f).pwc = s.pwc := rfl
@[simp] theorem State.updPkg_misses (f : Package → Package) : (s.updPkg f).misses = s.misses := rfl
@[simp] theorem State.updPkg_poison (f : Package → Package) : (s.updPkg f).poison = s.poison := rfl
@[simp] theorem State.updPkg_ecc (f : Package → Package) : (s.updPkg f).ecc = s.ecc := rfl
@[simp] theorem State.updPkg_tags (f : Package → Package) : (s.updPkg f).tags = s.tags := rfl
@[simp] theorem State.updPkg_resident (f : Package → Package) : (s.updPkg f).resident = s.resident := rfl
@[simp] theorem State.updPkg_fused (f : Package → Package) : (s.updPkg f).fused = s.fused := rfl
@[simp] theorem State.updPkg_roost (f : Package → Package) : (s.updPkg f).roost = s.roost := rfl
@[simp] theorem State.updPkg_ovf (f : Package → Package) : (s.updPkg f).ovf = s.ovf := rfl
@[simp] theorem State.updPkg_shapes (f : Package → Package) : (s.updPkg f).shapes = s.shapes := rfl
@[simp] theorem State.updPkg_waiters (f : Package → Package) : (s.updPkg f).waiters = s.waiters := rfl
@[simp] theorem State.updPkg_calls (f : Package → Package) : (s.updPkg f).calls = s.calls := rfl
@[simp] theorem State.updPkg_freezes (f : Package → Package) : (s.updPkg f).freezes = s.freezes := rfl
@[simp] theorem State.updPkg_reply (f : Package → Package) : (s.updPkg f).reply = s.reply := rfl
@[simp] theorem State.updPkg_eng (f : Package → Package) : (s.updPkg f).eng = s.eng := rfl
@[simp] theorem State.updPkg_sch (f : Package → Package) : (s.updPkg f).sch = s.sch := rfl
@[simp] theorem State.updPkg_echo (f : Package → Package) : (s.updPkg f).echo = s.echo := rfl
@[simp] theorem State.updPkg_pkg (f : Package → Package) : (s.updPkg f).pkg = f s.pkg := rfl

/-! ### `updMgmt` -/

@[simp] theorem State.updMgmt_cur (f : Mgmt → Mgmt) : (s.updMgmt f).cur = s.cur := rfl
@[simp] theorem State.updMgmt_last (f : Mgmt → Mgmt) : (s.updMgmt f).last = s.last := rfl
@[simp] theorem State.updMgmt_turn (f : Mgmt → Mgmt) : (s.updMgmt f).turn = s.turn := rfl
@[simp] theorem State.updMgmt_agenda (f : Mgmt → Mgmt) : (s.updMgmt f).agenda = s.agenda := rfl
@[simp] theorem State.updMgmt_cmds (f : Mgmt → Mgmt) : (s.updMgmt f).cmds = s.cmds := rfl
@[simp] theorem State.updMgmt_freeN (f : Mgmt → Mgmt) : (s.updMgmt f).freeN = s.freeN := rfl
@[simp] theorem State.updMgmt_nextId (f : Mgmt → Mgmt) : (s.updMgmt f).nextId = s.nextId := rfl
@[simp] theorem State.updMgmt_clks (f : Mgmt → Mgmt) : (s.updMgmt f).clks = s.clks := rfl
@[simp] theorem State.updMgmt_ptp (f : Mgmt → Mgmt) : (s.updMgmt f).ptp = s.ptp := rfl
@[simp] theorem State.updMgmt_ptps (f : Mgmt → Mgmt) : (s.updMgmt f).ptps = s.ptps := rfl
@[simp] theorem State.updMgmt_teams (f : Mgmt → Mgmt) : (s.updMgmt f).teams = s.teams := rfl
@[simp] theorem State.updMgmt_ctxs (f : Mgmt → Mgmt) : (s.updMgmt f).ctxs = s.ctxs := rfl
@[simp] theorem State.updMgmt_mem (f : Mgmt → Mgmt) : (s.updMgmt f).mem = s.mem := rfl
@[simp] theorem State.updMgmt_l1 (f : Mgmt → Mgmt) : (s.updMgmt f).l1 = s.l1 := rfl
@[simp] theorem State.updMgmt_tlb (f : Mgmt → Mgmt) : (s.updMgmt f).tlb = s.tlb := rfl
@[simp] theorem State.updMgmt_pwc (f : Mgmt → Mgmt) : (s.updMgmt f).pwc = s.pwc := rfl
@[simp] theorem State.updMgmt_misses (f : Mgmt → Mgmt) : (s.updMgmt f).misses = s.misses := rfl
@[simp] theorem State.updMgmt_poison (f : Mgmt → Mgmt) : (s.updMgmt f).poison = s.poison := rfl
@[simp] theorem State.updMgmt_ecc (f : Mgmt → Mgmt) : (s.updMgmt f).ecc = s.ecc := rfl
@[simp] theorem State.updMgmt_tags (f : Mgmt → Mgmt) : (s.updMgmt f).tags = s.tags := rfl
@[simp] theorem State.updMgmt_resident (f : Mgmt → Mgmt) : (s.updMgmt f).resident = s.resident := rfl
@[simp] theorem State.updMgmt_fused (f : Mgmt → Mgmt) : (s.updMgmt f).fused = s.fused := rfl
@[simp] theorem State.updMgmt_roost (f : Mgmt → Mgmt) : (s.updMgmt f).roost = s.roost := rfl
@[simp] theorem State.updMgmt_ovf (f : Mgmt → Mgmt) : (s.updMgmt f).ovf = s.ovf := rfl
@[simp] theorem State.updMgmt_shapes (f : Mgmt → Mgmt) : (s.updMgmt f).shapes = s.shapes := rfl
@[simp] theorem State.updMgmt_waiters (f : Mgmt → Mgmt) : (s.updMgmt f).waiters = s.waiters := rfl
@[simp] theorem State.updMgmt_calls (f : Mgmt → Mgmt) : (s.updMgmt f).calls = s.calls := rfl
@[simp] theorem State.updMgmt_freezes (f : Mgmt → Mgmt) : (s.updMgmt f).freezes = s.freezes := rfl
@[simp] theorem State.updMgmt_reply (f : Mgmt → Mgmt) : (s.updMgmt f).reply = s.reply := rfl
@[simp] theorem State.updMgmt_eng (f : Mgmt → Mgmt) : (s.updMgmt f).eng = s.eng := rfl
@[simp] theorem State.updMgmt_sch (f : Mgmt → Mgmt) : (s.updMgmt f).sch = s.sch := rfl
@[simp] theorem State.updMgmt_echo (f : Mgmt → Mgmt) : (s.updMgmt f).echo = s.echo := rfl

/-! ### `updDie` -/

@[simp] theorem State.updDie_cur (d : Nat) (f : Die → Die) : (s.updDie d f).cur = s.cur := rfl
@[simp] theorem State.updDie_last (d : Nat) (f : Die → Die) : (s.updDie d f).last = s.last := rfl
@[simp] theorem State.updDie_turn (d : Nat) (f : Die → Die) : (s.updDie d f).turn = s.turn := rfl
@[simp] theorem State.updDie_agenda (d : Nat) (f : Die → Die) : (s.updDie d f).agenda = s.agenda := rfl
@[simp] theorem State.updDie_cmds (d : Nat) (f : Die → Die) : (s.updDie d f).cmds = s.cmds := rfl
@[simp] theorem State.updDie_freeN (d : Nat) (f : Die → Die) : (s.updDie d f).freeN = s.freeN := rfl
@[simp] theorem State.updDie_nextId (d : Nat) (f : Die → Die) : (s.updDie d f).nextId = s.nextId := rfl
@[simp] theorem State.updDie_clks (d : Nat) (f : Die → Die) : (s.updDie d f).clks = s.clks := rfl
@[simp] theorem State.updDie_ptp (d : Nat) (f : Die → Die) : (s.updDie d f).ptp = s.ptp := rfl
@[simp] theorem State.updDie_ptps (d : Nat) (f : Die → Die) : (s.updDie d f).ptps = s.ptps := rfl
@[simp] theorem State.updDie_teams (d : Nat) (f : Die → Die) : (s.updDie d f).teams = s.teams := rfl
@[simp] theorem State.updDie_ctxs (d : Nat) (f : Die → Die) : (s.updDie d f).ctxs = s.ctxs := rfl
@[simp] theorem State.updDie_mem (d : Nat) (f : Die → Die) : (s.updDie d f).mem = s.mem := rfl
@[simp] theorem State.updDie_l1 (d : Nat) (f : Die → Die) : (s.updDie d f).l1 = s.l1 := rfl
@[simp] theorem State.updDie_tlb (d : Nat) (f : Die → Die) : (s.updDie d f).tlb = s.tlb := rfl
@[simp] theorem State.updDie_pwc (d : Nat) (f : Die → Die) : (s.updDie d f).pwc = s.pwc := rfl
@[simp] theorem State.updDie_misses (d : Nat) (f : Die → Die) : (s.updDie d f).misses = s.misses := rfl
@[simp] theorem State.updDie_poison (d : Nat) (f : Die → Die) : (s.updDie d f).poison = s.poison := rfl
@[simp] theorem State.updDie_ecc (d : Nat) (f : Die → Die) : (s.updDie d f).ecc = s.ecc := rfl
@[simp] theorem State.updDie_tags (d : Nat) (f : Die → Die) : (s.updDie d f).tags = s.tags := rfl
@[simp] theorem State.updDie_resident (d : Nat) (f : Die → Die) : (s.updDie d f).resident = s.resident := rfl
@[simp] theorem State.updDie_fused (d : Nat) (f : Die → Die) : (s.updDie d f).fused = s.fused := rfl
@[simp] theorem State.updDie_roost (d : Nat) (f : Die → Die) : (s.updDie d f).roost = s.roost := rfl
@[simp] theorem State.updDie_ovf (d : Nat) (f : Die → Die) : (s.updDie d f).ovf = s.ovf := rfl
@[simp] theorem State.updDie_shapes (d : Nat) (f : Die → Die) : (s.updDie d f).shapes = s.shapes := rfl
@[simp] theorem State.updDie_waiters (d : Nat) (f : Die → Die) : (s.updDie d f).waiters = s.waiters := rfl
@[simp] theorem State.updDie_calls (d : Nat) (f : Die → Die) : (s.updDie d f).calls = s.calls := rfl
@[simp] theorem State.updDie_freezes (d : Nat) (f : Die → Die) : (s.updDie d f).freezes = s.freezes := rfl
@[simp] theorem State.updDie_reply (d : Nat) (f : Die → Die) : (s.updDie d f).reply = s.reply := rfl
@[simp] theorem State.updDie_eng (d : Nat) (f : Die → Die) : (s.updDie d f).eng = s.eng := rfl
@[simp] theorem State.updDie_sch (d : Nat) (f : Die → Die) : (s.updDie d f).sch = s.sch := rfl
@[simp] theorem State.updDie_echo (d : Nat) (f : Die → Die) : (s.updDie d f).echo = s.echo := rfl

/-! ### `updTime` -/

@[simp] theorem State.updTime_cur (f : TimeMaster → TimeMaster) : (s.updTime f).cur = s.cur := rfl
@[simp] theorem State.updTime_last (f : TimeMaster → TimeMaster) : (s.updTime f).last = s.last := rfl
@[simp] theorem State.updTime_turn (f : TimeMaster → TimeMaster) : (s.updTime f).turn = s.turn := rfl
@[simp] theorem State.updTime_agenda (f : TimeMaster → TimeMaster) : (s.updTime f).agenda = s.agenda := rfl
@[simp] theorem State.updTime_cmds (f : TimeMaster → TimeMaster) : (s.updTime f).cmds = s.cmds := rfl
@[simp] theorem State.updTime_freeN (f : TimeMaster → TimeMaster) : (s.updTime f).freeN = s.freeN := rfl
@[simp] theorem State.updTime_nextId (f : TimeMaster → TimeMaster) : (s.updTime f).nextId = s.nextId := rfl
@[simp] theorem State.updTime_clks (f : TimeMaster → TimeMaster) : (s.updTime f).clks = s.clks := rfl
@[simp] theorem State.updTime_ptp (f : TimeMaster → TimeMaster) : (s.updTime f).ptp = s.ptp := rfl
@[simp] theorem State.updTime_ptps (f : TimeMaster → TimeMaster) : (s.updTime f).ptps = s.ptps := rfl
@[simp] theorem State.updTime_teams (f : TimeMaster → TimeMaster) : (s.updTime f).teams = s.teams := rfl
@[simp] theorem State.updTime_ctxs (f : TimeMaster → TimeMaster) : (s.updTime f).ctxs = s.ctxs := rfl
@[simp] theorem State.updTime_mem (f : TimeMaster → TimeMaster) : (s.updTime f).mem = s.mem := rfl
@[simp] theorem State.updTime_l1 (f : TimeMaster → TimeMaster) : (s.updTime f).l1 = s.l1 := rfl
@[simp] theorem State.updTime_tlb (f : TimeMaster → TimeMaster) : (s.updTime f).tlb = s.tlb := rfl
@[simp] theorem State.updTime_pwc (f : TimeMaster → TimeMaster) : (s.updTime f).pwc = s.pwc := rfl
@[simp] theorem State.updTime_misses (f : TimeMaster → TimeMaster) : (s.updTime f).misses = s.misses := rfl
@[simp] theorem State.updTime_poison (f : TimeMaster → TimeMaster) : (s.updTime f).poison = s.poison := rfl
@[simp] theorem State.updTime_ecc (f : TimeMaster → TimeMaster) : (s.updTime f).ecc = s.ecc := rfl
@[simp] theorem State.updTime_tags (f : TimeMaster → TimeMaster) : (s.updTime f).tags = s.tags := rfl
@[simp] theorem State.updTime_resident (f : TimeMaster → TimeMaster) : (s.updTime f).resident = s.resident := rfl
@[simp] theorem State.updTime_fused (f : TimeMaster → TimeMaster) : (s.updTime f).fused = s.fused := rfl
@[simp] theorem State.updTime_roost (f : TimeMaster → TimeMaster) : (s.updTime f).roost = s.roost := rfl
@[simp] theorem State.updTime_ovf (f : TimeMaster → TimeMaster) : (s.updTime f).ovf = s.ovf := rfl
@[simp] theorem State.updTime_shapes (f : TimeMaster → TimeMaster) : (s.updTime f).shapes = s.shapes := rfl
@[simp] theorem State.updTime_waiters (f : TimeMaster → TimeMaster) : (s.updTime f).waiters = s.waiters := rfl
@[simp] theorem State.updTime_calls (f : TimeMaster → TimeMaster) : (s.updTime f).calls = s.calls := rfl
@[simp] theorem State.updTime_freezes (f : TimeMaster → TimeMaster) : (s.updTime f).freezes = s.freezes := rfl
@[simp] theorem State.updTime_reply (f : TimeMaster → TimeMaster) : (s.updTime f).reply = s.reply := rfl
@[simp] theorem State.updTime_eng (f : TimeMaster → TimeMaster) : (s.updTime f).eng = s.eng := rfl
@[simp] theorem State.updTime_sch (f : TimeMaster → TimeMaster) : (s.updTime f).sch = s.sch := rfl
@[simp] theorem State.updTime_pkg (f : TimeMaster → TimeMaster) : (s.updTime f).pkg = s.pkg := rfl

/-! ### `updRow` -/

@[simp] theorem State.updRow_cur (tenant bcls : Nat) (f : Row → Row) : (s.updRow tenant bcls f).cur = s.cur := rfl
@[simp] theorem State.updRow_last (tenant bcls : Nat) (f : Row → Row) : (s.updRow tenant bcls f).last = s.last := rfl
@[simp] theorem State.updRow_turn (tenant bcls : Nat) (f : Row → Row) : (s.updRow tenant bcls f).turn = s.turn := rfl
@[simp] theorem State.updRow_agenda (tenant bcls : Nat) (f : Row → Row) : (s.updRow tenant bcls f).agenda = s.agenda := rfl
@[simp] theorem State.updRow_cmds (tenant bcls : Nat) (f : Row → Row) : (s.updRow tenant bcls f).cmds = s.cmds := rfl
@[simp] theorem State.updRow_freeN (tenant bcls : Nat) (f : Row → Row) : (s.updRow tenant bcls f).freeN = s.freeN := rfl
@[simp] theorem State.updRow_nextId (tenant bcls : Nat) (f : Row → Row) : (s.updRow tenant bcls f).nextId = s.nextId := rfl
@[simp] theorem State.updRow_clks (tenant bcls : Nat) (f : Row → Row) : (s.updRow tenant bcls f).clks = s.clks := rfl
@[simp] theorem State.updRow_ptp (tenant bcls : Nat) (f : Row → Row) : (s.updRow tenant bcls f).ptp = s.ptp := rfl
@[simp] theorem State.updRow_ptps (tenant bcls : Nat) (f : Row → Row) : (s.updRow tenant bcls f).ptps = s.ptps := rfl
@[simp] theorem State.updRow_teams (tenant bcls : Nat) (f : Row → Row) : (s.updRow tenant bcls f).teams = s.teams := rfl
@[simp] theorem State.updRow_ctxs (tenant bcls : Nat) (f : Row → Row) : (s.updRow tenant bcls f).ctxs = s.ctxs := rfl
@[simp] theorem State.updRow_mem (tenant bcls : Nat) (f : Row → Row) : (s.updRow tenant bcls f).mem = s.mem := rfl
@[simp] theorem State.updRow_l1 (tenant bcls : Nat) (f : Row → Row) : (s.updRow tenant bcls f).l1 = s.l1 := rfl
@[simp] theorem State.updRow_tlb (tenant bcls : Nat) (f : Row → Row) : (s.updRow tenant bcls f).tlb = s.tlb := rfl
@[simp] theorem State.updRow_pwc (tenant bcls : Nat) (f : Row → Row) : (s.updRow tenant bcls f).pwc = s.pwc := rfl
@[simp] theorem State.updRow_misses (tenant bcls : Nat) (f : Row → Row) : (s.updRow tenant bcls f).misses = s.misses := rfl
@[simp] theorem State.updRow_poison (tenant bcls : Nat) (f : Row → Row) : (s.updRow tenant bcls f).poison = s.poison := rfl
@[simp] theorem State.updRow_ecc (tenant bcls : Nat) (f : Row → Row) : (s.updRow tenant bcls f).ecc = s.ecc := rfl
@[simp] theorem State.updRow_tags (tenant bcls : Nat) (f : Row → Row) : (s.updRow tenant bcls f).tags = s.tags := rfl
@[simp] theorem State.updRow_resident (tenant bcls : Nat) (f : Row → Row) : (s.updRow tenant bcls f).resident = s.resident := rfl
@[simp] theorem State.updRow_fused (tenant bcls : Nat) (f : Row → Row) : (s.updRow tenant bcls f).fused = s.fused := rfl
@[simp] theorem State.updRow_roost (tenant bcls : Nat) (f : Row → Row) : (s.updRow tenant bcls f).roost = s.roost := rfl
@[simp] theorem State.updRow_ovf (tenant bcls : Nat) (f : Row → Row) : (s.updRow tenant bcls f).ovf = s.ovf := rfl
@[simp] theorem State.updRow_shapes (tenant bcls : Nat) (f : Row → Row) : (s.updRow tenant bcls f).shapes = s.shapes := rfl
@[simp] theorem State.updRow_waiters (tenant bcls : Nat) (f : Row → Row) : (s.updRow tenant bcls f).waiters = s.waiters := rfl
@[simp] theorem State.updRow_calls (tenant bcls : Nat) (f : Row → Row) : (s.updRow tenant bcls f).calls = s.calls := rfl
@[simp] theorem State.updRow_freezes (tenant bcls : Nat) (f : Row → Row) : (s.updRow tenant bcls f).freezes = s.freezes := rfl
@[simp] theorem State.updRow_reply (tenant bcls : Nat) (f : Row → Row) : (s.updRow tenant bcls f).reply = s.reply := rfl
@[simp] theorem State.updRow_eng (tenant bcls : Nat) (f : Row → Row) : (s.updRow tenant bcls f).eng = s.eng := rfl
@[simp] theorem State.updRow_echo (tenant bcls : Nat) (f : Row → Row) : (s.updRow tenant bcls f).echo = s.echo := rfl
@[simp] theorem State.updRow_pkg (tenant bcls : Nat) (f : Row → Row) : (s.updRow tenant bcls f).pkg = s.pkg := rfl

/-! ### `updIdent` -/

@[simp] theorem State.updIdent_cur (id : Nat) (f : Ident → Ident) : (s.updIdent id f).cur = s.cur := rfl
@[simp] theorem State.updIdent_last (id : Nat) (f : Ident → Ident) : (s.updIdent id f).last = s.last := rfl
@[simp] theorem State.updIdent_turn (id : Nat) (f : Ident → Ident) : (s.updIdent id f).turn = s.turn := rfl
@[simp] theorem State.updIdent_agenda (id : Nat) (f : Ident → Ident) : (s.updIdent id f).agenda = s.agenda := rfl
@[simp] theorem State.updIdent_cmds (id : Nat) (f : Ident → Ident) : (s.updIdent id f).cmds = s.cmds := rfl
@[simp] theorem State.updIdent_freeN (id : Nat) (f : Ident → Ident) : (s.updIdent id f).freeN = s.freeN := rfl
@[simp] theorem State.updIdent_nextId (id : Nat) (f : Ident → Ident) : (s.updIdent id f).nextId = s.nextId := rfl
@[simp] theorem State.updIdent_clks (id : Nat) (f : Ident → Ident) : (s.updIdent id f).clks = s.clks := rfl
@[simp] theorem State.updIdent_ptp (id : Nat) (f : Ident → Ident) : (s.updIdent id f).ptp = s.ptp := rfl
@[simp] theorem State.updIdent_ptps (id : Nat) (f : Ident → Ident) : (s.updIdent id f).ptps = s.ptps := rfl
@[simp] theorem State.updIdent_teams (id : Nat) (f : Ident → Ident) : (s.updIdent id f).teams = s.teams := rfl
@[simp] theorem State.updIdent_ctxs (id : Nat) (f : Ident → Ident) : (s.updIdent id f).ctxs = s.ctxs := rfl
@[simp] theorem State.updIdent_mem (id : Nat) (f : Ident → Ident) : (s.updIdent id f).mem = s.mem := rfl
@[simp] theorem State.updIdent_l1 (id : Nat) (f : Ident → Ident) : (s.updIdent id f).l1 = s.l1 := rfl
@[simp] theorem State.updIdent_tlb (id : Nat) (f : Ident → Ident) : (s.updIdent id f).tlb = s.tlb := rfl
@[simp] theorem State.updIdent_pwc (id : Nat) (f : Ident → Ident) : (s.updIdent id f).pwc = s.pwc := rfl
@[simp] theorem State.updIdent_misses (id : Nat) (f : Ident → Ident) : (s.updIdent id f).misses = s.misses := rfl
@[simp] theorem State.updIdent_poison (id : Nat) (f : Ident → Ident) : (s.updIdent id f).poison = s.poison := rfl
@[simp] theorem State.updIdent_ecc (id : Nat) (f : Ident → Ident) : (s.updIdent id f).ecc = s.ecc := rfl
@[simp] theorem State.updIdent_tags (id : Nat) (f : Ident → Ident) : (s.updIdent id f).tags = s.tags := rfl
@[simp] theorem State.updIdent_resident (id : Nat) (f : Ident → Ident) : (s.updIdent id f).resident = s.resident := rfl
@[simp] theorem State.updIdent_fused (id : Nat) (f : Ident → Ident) : (s.updIdent id f).fused = s.fused := rfl
@[simp] theorem State.updIdent_roost (id : Nat) (f : Ident → Ident) : (s.updIdent id f).roost = s.roost := rfl
@[simp] theorem State.updIdent_ovf (id : Nat) (f : Ident → Ident) : (s.updIdent id f).ovf = s.ovf := rfl
@[simp] theorem State.updIdent_shapes (id : Nat) (f : Ident → Ident) : (s.updIdent id f).shapes = s.shapes := rfl
@[simp] theorem State.updIdent_waiters (id : Nat) (f : Ident → Ident) : (s.updIdent id f).waiters = s.waiters := rfl
@[simp] theorem State.updIdent_calls (id : Nat) (f : Ident → Ident) : (s.updIdent id f).calls = s.calls := rfl
@[simp] theorem State.updIdent_freezes (id : Nat) (f : Ident → Ident) : (s.updIdent id f).freezes = s.freezes := rfl
@[simp] theorem State.updIdent_reply (id : Nat) (f : Ident → Ident) : (s.updIdent id f).reply = s.reply := rfl
@[simp] theorem State.updIdent_eng (id : Nat) (f : Ident → Ident) : (s.updIdent id f).eng = s.eng := rfl
@[simp] theorem State.updIdent_echo (id : Nat) (f : Ident → Ident) : (s.updIdent id f).echo = s.echo := rfl
@[simp] theorem State.updIdent_pkg (id : Nat) (f : Ident → Ident) : (s.updIdent id f).pkg = s.pkg := rfl

/-! ### `updCopy` -/

@[simp] theorem State.updCopy_cur (id : Nat) (f : Copy → Copy) : (s.updCopy id f).cur = s.cur := rfl
@[simp] theorem State.updCopy_last (id : Nat) (f : Copy → Copy) : (s.updCopy id f).last = s.last := rfl
@[simp] theorem State.updCopy_turn (id : Nat) (f : Copy → Copy) : (s.updCopy id f).turn = s.turn := rfl
@[simp] theorem State.updCopy_agenda (id : Nat) (f : Copy → Copy) : (s.updCopy id f).agenda = s.agenda := rfl
@[simp] theorem State.updCopy_cmds (id : Nat) (f : Copy → Copy) : (s.updCopy id f).cmds = s.cmds := rfl
@[simp] theorem State.updCopy_freeN (id : Nat) (f : Copy → Copy) : (s.updCopy id f).freeN = s.freeN := rfl
@[simp] theorem State.updCopy_nextId (id : Nat) (f : Copy → Copy) : (s.updCopy id f).nextId = s.nextId := rfl
@[simp] theorem State.updCopy_clks (id : Nat) (f : Copy → Copy) : (s.updCopy id f).clks = s.clks := rfl
@[simp] theorem State.updCopy_ptp (id : Nat) (f : Copy → Copy) : (s.updCopy id f).ptp = s.ptp := rfl
@[simp] theorem State.updCopy_ptps (id : Nat) (f : Copy → Copy) : (s.updCopy id f).ptps = s.ptps := rfl
@[simp] theorem State.updCopy_teams (id : Nat) (f : Copy → Copy) : (s.updCopy id f).teams = s.teams := rfl
@[simp] theorem State.updCopy_ctxs (id : Nat) (f : Copy → Copy) : (s.updCopy id f).ctxs = s.ctxs := rfl
@[simp] theorem State.updCopy_mem (id : Nat) (f : Copy → Copy) : (s.updCopy id f).mem = s.mem := rfl
@[simp] theorem State.updCopy_l1 (id : Nat) (f : Copy → Copy) : (s.updCopy id f).l1 = s.l1 := rfl
@[simp] theorem State.updCopy_tlb (id : Nat) (f : Copy → Copy) : (s.updCopy id f).tlb = s.tlb := rfl
@[simp] theorem State.updCopy_pwc (id : Nat) (f : Copy → Copy) : (s.updCopy id f).pwc = s.pwc := rfl
@[simp] theorem State.updCopy_misses (id : Nat) (f : Copy → Copy) : (s.updCopy id f).misses = s.misses := rfl
@[simp] theorem State.updCopy_poison (id : Nat) (f : Copy → Copy) : (s.updCopy id f).poison = s.poison := rfl
@[simp] theorem State.updCopy_ecc (id : Nat) (f : Copy → Copy) : (s.updCopy id f).ecc = s.ecc := rfl
@[simp] theorem State.updCopy_tags (id : Nat) (f : Copy → Copy) : (s.updCopy id f).tags = s.tags := rfl
@[simp] theorem State.updCopy_resident (id : Nat) (f : Copy → Copy) : (s.updCopy id f).resident = s.resident := rfl
@[simp] theorem State.updCopy_fused (id : Nat) (f : Copy → Copy) : (s.updCopy id f).fused = s.fused := rfl
@[simp] theorem State.updCopy_roost (id : Nat) (f : Copy → Copy) : (s.updCopy id f).roost = s.roost := rfl
@[simp] theorem State.updCopy_ovf (id : Nat) (f : Copy → Copy) : (s.updCopy id f).ovf = s.ovf := rfl
@[simp] theorem State.updCopy_shapes (id : Nat) (f : Copy → Copy) : (s.updCopy id f).shapes = s.shapes := rfl
@[simp] theorem State.updCopy_waiters (id : Nat) (f : Copy → Copy) : (s.updCopy id f).waiters = s.waiters := rfl
@[simp] theorem State.updCopy_calls (id : Nat) (f : Copy → Copy) : (s.updCopy id f).calls = s.calls := rfl
@[simp] theorem State.updCopy_freezes (id : Nat) (f : Copy → Copy) : (s.updCopy id f).freezes = s.freezes := rfl
@[simp] theorem State.updCopy_reply (id : Nat) (f : Copy → Copy) : (s.updCopy id f).reply = s.reply := rfl
@[simp] theorem State.updCopy_sch (id : Nat) (f : Copy → Copy) : (s.updCopy id f).sch = s.sch := rfl
@[simp] theorem State.updCopy_echo (id : Nat) (f : Copy → Copy) : (s.updCopy id f).echo = s.echo := rfl
@[simp] theorem State.updCopy_pkg (id : Nat) (f : Copy → Copy) : (s.updCopy id f).pkg = s.pkg := rfl

/-! ### `updCmd` -/

@[simp] theorem State.updCmd_cur (die unit slot : Nat) (f : Cmd → Cmd) : (s.updCmd die unit slot f).cur = s.cur := rfl
@[simp] theorem State.updCmd_last (die unit slot : Nat) (f : Cmd → Cmd) : (s.updCmd die unit slot f).last = s.last := rfl
@[simp] theorem State.updCmd_turn (die unit slot : Nat) (f : Cmd → Cmd) : (s.updCmd die unit slot f).turn = s.turn := rfl
@[simp] theorem State.updCmd_agenda (die unit slot : Nat) (f : Cmd → Cmd) : (s.updCmd die unit slot f).agenda = s.agenda := rfl
@[simp] theorem State.updCmd_cmds (die unit slot : Nat) (f : Cmd → Cmd) : (s.updCmd die unit slot f).cmds = s.cmds := rfl
@[simp] theorem State.updCmd_freeN (die unit slot : Nat) (f : Cmd → Cmd) : (s.updCmd die unit slot f).freeN = s.freeN := rfl
@[simp] theorem State.updCmd_nextId (die unit slot : Nat) (f : Cmd → Cmd) : (s.updCmd die unit slot f).nextId = s.nextId := rfl
@[simp] theorem State.updCmd_clks (die unit slot : Nat) (f : Cmd → Cmd) : (s.updCmd die unit slot f).clks = s.clks := rfl
@[simp] theorem State.updCmd_ptp (die unit slot : Nat) (f : Cmd → Cmd) : (s.updCmd die unit slot f).ptp = s.ptp := rfl
@[simp] theorem State.updCmd_ptps (die unit slot : Nat) (f : Cmd → Cmd) : (s.updCmd die unit slot f).ptps = s.ptps := rfl
@[simp] theorem State.updCmd_teams (die unit slot : Nat) (f : Cmd → Cmd) : (s.updCmd die unit slot f).teams = s.teams := rfl
@[simp] theorem State.updCmd_ctxs (die unit slot : Nat) (f : Cmd → Cmd) : (s.updCmd die unit slot f).ctxs = s.ctxs := rfl
@[simp] theorem State.updCmd_mem (die unit slot : Nat) (f : Cmd → Cmd) : (s.updCmd die unit slot f).mem = s.mem := rfl
@[simp] theorem State.updCmd_l1 (die unit slot : Nat) (f : Cmd → Cmd) : (s.updCmd die unit slot f).l1 = s.l1 := rfl
@[simp] theorem State.updCmd_tlb (die unit slot : Nat) (f : Cmd → Cmd) : (s.updCmd die unit slot f).tlb = s.tlb := rfl
@[simp] theorem State.updCmd_pwc (die unit slot : Nat) (f : Cmd → Cmd) : (s.updCmd die unit slot f).pwc = s.pwc := rfl
@[simp] theorem State.updCmd_misses (die unit slot : Nat) (f : Cmd → Cmd) : (s.updCmd die unit slot f).misses = s.misses := rfl
@[simp] theorem State.updCmd_poison (die unit slot : Nat) (f : Cmd → Cmd) : (s.updCmd die unit slot f).poison = s.poison := rfl
@[simp] theorem State.updCmd_ecc (die unit slot : Nat) (f : Cmd → Cmd) : (s.updCmd die unit slot f).ecc = s.ecc := rfl
@[simp] theorem State.updCmd_tags (die unit slot : Nat) (f : Cmd → Cmd) : (s.updCmd die unit slot f).tags = s.tags := rfl
@[simp] theorem State.updCmd_resident (die unit slot : Nat) (f : Cmd → Cmd) : (s.updCmd die unit slot f).resident = s.resident := rfl
@[simp] theorem State.updCmd_fused (die unit slot : Nat) (f : Cmd → Cmd) : (s.updCmd die unit slot f).fused = s.fused := rfl
@[simp] theorem State.updCmd_roost (die unit slot : Nat) (f : Cmd → Cmd) : (s.updCmd die unit slot f).roost = s.roost := rfl
@[simp] theorem State.updCmd_ovf (die unit slot : Nat) (f : Cmd → Cmd) : (s.updCmd die unit slot f).ovf = s.ovf := rfl
@[simp] theorem State.updCmd_shapes (die unit slot : Nat) (f : Cmd → Cmd) : (s.updCmd die unit slot f).shapes = s.shapes := rfl
@[simp] theorem State.updCmd_waiters (die unit slot : Nat) (f : Cmd → Cmd) : (s.updCmd die unit slot f).waiters = s.waiters := rfl
@[simp] theorem State.updCmd_calls (die unit slot : Nat) (f : Cmd → Cmd) : (s.updCmd die unit slot f).calls = s.calls := rfl
@[simp] theorem State.updCmd_freezes (die unit slot : Nat) (f : Cmd → Cmd) : (s.updCmd die unit slot f).freezes = s.freezes := rfl
@[simp] theorem State.updCmd_reply (die unit slot : Nat) (f : Cmd → Cmd) : (s.updCmd die unit slot f).reply = s.reply := rfl
@[simp] theorem State.updCmd_sch (die unit slot : Nat) (f : Cmd → Cmd) : (s.updCmd die unit slot f).sch = s.sch := rfl
@[simp] theorem State.updCmd_echo (die unit slot : Nat) (f : Cmd → Cmd) : (s.updCmd die unit slot f).echo = s.echo := rfl
@[simp] theorem State.updCmd_pkg (die unit slot : Nat) (f : Cmd → Cmd) : (s.updCmd die unit slot f).pkg = s.pkg := rfl

/-! ### `updTile` -/

@[simp] theorem State.updTile_cur (team half i : Nat) (f : Tile → Tile) : (s.updTile team half i f).cur = s.cur := rfl
@[simp] theorem State.updTile_last (team half i : Nat) (f : Tile → Tile) : (s.updTile team half i f).last = s.last := rfl
@[simp] theorem State.updTile_turn (team half i : Nat) (f : Tile → Tile) : (s.updTile team half i f).turn = s.turn := rfl
@[simp] theorem State.updTile_agenda (team half i : Nat) (f : Tile → Tile) : (s.updTile team half i f).agenda = s.agenda := rfl
@[simp] theorem State.updTile_cmds (team half i : Nat) (f : Tile → Tile) : (s.updTile team half i f).cmds = s.cmds := rfl
@[simp] theorem State.updTile_freeN (team half i : Nat) (f : Tile → Tile) : (s.updTile team half i f).freeN = s.freeN := rfl
@[simp] theorem State.updTile_nextId (team half i : Nat) (f : Tile → Tile) : (s.updTile team half i f).nextId = s.nextId := rfl
@[simp] theorem State.updTile_clks (team half i : Nat) (f : Tile → Tile) : (s.updTile team half i f).clks = s.clks := rfl
@[simp] theorem State.updTile_ptp (team half i : Nat) (f : Tile → Tile) : (s.updTile team half i f).ptp = s.ptp := rfl
@[simp] theorem State.updTile_ptps (team half i : Nat) (f : Tile → Tile) : (s.updTile team half i f).ptps = s.ptps := rfl
@[simp] theorem State.updTile_ctxs (team half i : Nat) (f : Tile → Tile) : (s.updTile team half i f).ctxs = s.ctxs := rfl
@[simp] theorem State.updTile_mem (team half i : Nat) (f : Tile → Tile) : (s.updTile team half i f).mem = s.mem := rfl
@[simp] theorem State.updTile_l1 (team half i : Nat) (f : Tile → Tile) : (s.updTile team half i f).l1 = s.l1 := rfl
@[simp] theorem State.updTile_tlb (team half i : Nat) (f : Tile → Tile) : (s.updTile team half i f).tlb = s.tlb := rfl
@[simp] theorem State.updTile_pwc (team half i : Nat) (f : Tile → Tile) : (s.updTile team half i f).pwc = s.pwc := rfl
@[simp] theorem State.updTile_misses (team half i : Nat) (f : Tile → Tile) : (s.updTile team half i f).misses = s.misses := rfl
@[simp] theorem State.updTile_poison (team half i : Nat) (f : Tile → Tile) : (s.updTile team half i f).poison = s.poison := rfl
@[simp] theorem State.updTile_ecc (team half i : Nat) (f : Tile → Tile) : (s.updTile team half i f).ecc = s.ecc := rfl
@[simp] theorem State.updTile_tags (team half i : Nat) (f : Tile → Tile) : (s.updTile team half i f).tags = s.tags := rfl
@[simp] theorem State.updTile_resident (team half i : Nat) (f : Tile → Tile) : (s.updTile team half i f).resident = s.resident := rfl
@[simp] theorem State.updTile_fused (team half i : Nat) (f : Tile → Tile) : (s.updTile team half i f).fused = s.fused := rfl
@[simp] theorem State.updTile_roost (team half i : Nat) (f : Tile → Tile) : (s.updTile team half i f).roost = s.roost := rfl
@[simp] theorem State.updTile_ovf (team half i : Nat) (f : Tile → Tile) : (s.updTile team half i f).ovf = s.ovf := rfl
@[simp] theorem State.updTile_shapes (team half i : Nat) (f : Tile → Tile) : (s.updTile team half i f).shapes = s.shapes := rfl
@[simp] theorem State.updTile_waiters (team half i : Nat) (f : Tile → Tile) : (s.updTile team half i f).waiters = s.waiters := rfl
@[simp] theorem State.updTile_calls (team half i : Nat) (f : Tile → Tile) : (s.updTile team half i f).calls = s.calls := rfl
@[simp] theorem State.updTile_freezes (team half i : Nat) (f : Tile → Tile) : (s.updTile team half i f).freezes = s.freezes := rfl
@[simp] theorem State.updTile_reply (team half i : Nat) (f : Tile → Tile) : (s.updTile team half i f).reply = s.reply := rfl
@[simp] theorem State.updTile_eng (team half i : Nat) (f : Tile → Tile) : (s.updTile team half i f).eng = s.eng := rfl
@[simp] theorem State.updTile_sch (team half i : Nat) (f : Tile → Tile) : (s.updTile team half i f).sch = s.sch := rfl
@[simp] theorem State.updTile_echo (team half i : Nat) (f : Tile → Tile) : (s.updTile team half i f).echo = s.echo := rfl
@[simp] theorem State.updTile_pkg (team half i : Nat) (f : Tile → Tile) : (s.updTile team half i f).pkg = s.pkg := rfl

/-! ### `updBar` -/

@[simp] theorem State.updBar_cur (team i : Nat) (f : Barrier → Barrier) : (s.updBar team i f).cur = s.cur := rfl
@[simp] theorem State.updBar_last (team i : Nat) (f : Barrier → Barrier) : (s.updBar team i f).last = s.last := rfl
@[simp] theorem State.updBar_turn (team i : Nat) (f : Barrier → Barrier) : (s.updBar team i f).turn = s.turn := rfl
@[simp] theorem State.updBar_agenda (team i : Nat) (f : Barrier → Barrier) : (s.updBar team i f).agenda = s.agenda := rfl
@[simp] theorem State.updBar_cmds (team i : Nat) (f : Barrier → Barrier) : (s.updBar team i f).cmds = s.cmds := rfl
@[simp] theorem State.updBar_freeN (team i : Nat) (f : Barrier → Barrier) : (s.updBar team i f).freeN = s.freeN := rfl
@[simp] theorem State.updBar_nextId (team i : Nat) (f : Barrier → Barrier) : (s.updBar team i f).nextId = s.nextId := rfl
@[simp] theorem State.updBar_clks (team i : Nat) (f : Barrier → Barrier) : (s.updBar team i f).clks = s.clks := rfl
@[simp] theorem State.updBar_ptp (team i : Nat) (f : Barrier → Barrier) : (s.updBar team i f).ptp = s.ptp := rfl
@[simp] theorem State.updBar_ptps (team i : Nat) (f : Barrier → Barrier) : (s.updBar team i f).ptps = s.ptps := rfl
@[simp] theorem State.updBar_ctxs (team i : Nat) (f : Barrier → Barrier) : (s.updBar team i f).ctxs = s.ctxs := rfl
@[simp] theorem State.updBar_mem (team i : Nat) (f : Barrier → Barrier) : (s.updBar team i f).mem = s.mem := rfl
@[simp] theorem State.updBar_l1 (team i : Nat) (f : Barrier → Barrier) : (s.updBar team i f).l1 = s.l1 := rfl
@[simp] theorem State.updBar_tlb (team i : Nat) (f : Barrier → Barrier) : (s.updBar team i f).tlb = s.tlb := rfl
@[simp] theorem State.updBar_pwc (team i : Nat) (f : Barrier → Barrier) : (s.updBar team i f).pwc = s.pwc := rfl
@[simp] theorem State.updBar_misses (team i : Nat) (f : Barrier → Barrier) : (s.updBar team i f).misses = s.misses := rfl
@[simp] theorem State.updBar_poison (team i : Nat) (f : Barrier → Barrier) : (s.updBar team i f).poison = s.poison := rfl
@[simp] theorem State.updBar_ecc (team i : Nat) (f : Barrier → Barrier) : (s.updBar team i f).ecc = s.ecc := rfl
@[simp] theorem State.updBar_tags (team i : Nat) (f : Barrier → Barrier) : (s.updBar team i f).tags = s.tags := rfl
@[simp] theorem State.updBar_resident (team i : Nat) (f : Barrier → Barrier) : (s.updBar team i f).resident = s.resident := rfl
@[simp] theorem State.updBar_fused (team i : Nat) (f : Barrier → Barrier) : (s.updBar team i f).fused = s.fused := rfl
@[simp] theorem State.updBar_roost (team i : Nat) (f : Barrier → Barrier) : (s.updBar team i f).roost = s.roost := rfl
@[simp] theorem State.updBar_ovf (team i : Nat) (f : Barrier → Barrier) : (s.updBar team i f).ovf = s.ovf := rfl
@[simp] theorem State.updBar_shapes (team i : Nat) (f : Barrier → Barrier) : (s.updBar team i f).shapes = s.shapes := rfl
@[simp] theorem State.updBar_waiters (team i : Nat) (f : Barrier → Barrier) : (s.updBar team i f).waiters = s.waiters := rfl
@[simp] theorem State.updBar_calls (team i : Nat) (f : Barrier → Barrier) : (s.updBar team i f).calls = s.calls := rfl
@[simp] theorem State.updBar_freezes (team i : Nat) (f : Barrier → Barrier) : (s.updBar team i f).freezes = s.freezes := rfl
@[simp] theorem State.updBar_reply (team i : Nat) (f : Barrier → Barrier) : (s.updBar team i f).reply = s.reply := rfl
@[simp] theorem State.updBar_eng (team i : Nat) (f : Barrier → Barrier) : (s.updBar team i f).eng = s.eng := rfl
@[simp] theorem State.updBar_sch (team i : Nat) (f : Barrier → Barrier) : (s.updBar team i f).sch = s.sch := rfl
@[simp] theorem State.updBar_echo (team i : Nat) (f : Barrier → Barrier) : (s.updBar team i f).echo = s.echo := rfl
@[simp] theorem State.updBar_pkg (team i : Nat) (f : Barrier → Barrier) : (s.updBar team i f).pkg = s.pkg := rfl

/-! ### `updLaunch` -/

@[simp] theorem State.updLaunch_cur (id : Nat) (f : Launch → Launch) : (s.updLaunch id f).cur = s.cur := rfl
@[simp] theorem State.updLaunch_last (id : Nat) (f : Launch → Launch) : (s.updLaunch id f).last = s.last := rfl
@[simp] theorem State.updLaunch_turn (id : Nat) (f : Launch → Launch) : (s.updLaunch id f).turn = s.turn := rfl
@[simp] theorem State.updLaunch_agenda (id : Nat) (f : Launch → Launch) : (s.updLaunch id f).agenda = s.agenda := rfl
@[simp] theorem State.updLaunch_cmds (id : Nat) (f : Launch → Launch) : (s.updLaunch id f).cmds = s.cmds := rfl
@[simp] theorem State.updLaunch_freeN (id : Nat) (f : Launch → Launch) : (s.updLaunch id f).freeN = s.freeN := rfl
@[simp] theorem State.updLaunch_nextId (id : Nat) (f : Launch → Launch) : (s.updLaunch id f).nextId = s.nextId := rfl
@[simp] theorem State.updLaunch_clks (id : Nat) (f : Launch → Launch) : (s.updLaunch id f).clks = s.clks := rfl
@[simp] theorem State.updLaunch_ptp (id : Nat) (f : Launch → Launch) : (s.updLaunch id f).ptp = s.ptp := rfl
@[simp] theorem State.updLaunch_ptps (id : Nat) (f : Launch → Launch) : (s.updLaunch id f).ptps = s.ptps := rfl
@[simp] theorem State.updLaunch_teams (id : Nat) (f : Launch → Launch) : (s.updLaunch id f).teams = s.teams := rfl
@[simp] theorem State.updLaunch_ctxs (id : Nat) (f : Launch → Launch) : (s.updLaunch id f).ctxs = s.ctxs := rfl
@[simp] theorem State.updLaunch_mem (id : Nat) (f : Launch → Launch) : (s.updLaunch id f).mem = s.mem := rfl
@[simp] theorem State.updLaunch_l1 (id : Nat) (f : Launch → Launch) : (s.updLaunch id f).l1 = s.l1 := rfl
@[simp] theorem State.updLaunch_tlb (id : Nat) (f : Launch → Launch) : (s.updLaunch id f).tlb = s.tlb := rfl
@[simp] theorem State.updLaunch_pwc (id : Nat) (f : Launch → Launch) : (s.updLaunch id f).pwc = s.pwc := rfl
@[simp] theorem State.updLaunch_misses (id : Nat) (f : Launch → Launch) : (s.updLaunch id f).misses = s.misses := rfl
@[simp] theorem State.updLaunch_poison (id : Nat) (f : Launch → Launch) : (s.updLaunch id f).poison = s.poison := rfl
@[simp] theorem State.updLaunch_ecc (id : Nat) (f : Launch → Launch) : (s.updLaunch id f).ecc = s.ecc := rfl
@[simp] theorem State.updLaunch_tags (id : Nat) (f : Launch → Launch) : (s.updLaunch id f).tags = s.tags := rfl
@[simp] theorem State.updLaunch_resident (id : Nat) (f : Launch → Launch) : (s.updLaunch id f).resident = s.resident := rfl
@[simp] theorem State.updLaunch_fused (id : Nat) (f : Launch → Launch) : (s.updLaunch id f).fused = s.fused := rfl
@[simp] theorem State.updLaunch_roost (id : Nat) (f : Launch → Launch) : (s.updLaunch id f).roost = s.roost := rfl
@[simp] theorem State.updLaunch_ovf (id : Nat) (f : Launch → Launch) : (s.updLaunch id f).ovf = s.ovf := rfl
@[simp] theorem State.updLaunch_shapes (id : Nat) (f : Launch → Launch) : (s.updLaunch id f).shapes = s.shapes := rfl
@[simp] theorem State.updLaunch_waiters (id : Nat) (f : Launch → Launch) : (s.updLaunch id f).waiters = s.waiters := rfl
@[simp] theorem State.updLaunch_calls (id : Nat) (f : Launch → Launch) : (s.updLaunch id f).calls = s.calls := rfl
@[simp] theorem State.updLaunch_freezes (id : Nat) (f : Launch → Launch) : (s.updLaunch id f).freezes = s.freezes := rfl
@[simp] theorem State.updLaunch_reply (id : Nat) (f : Launch → Launch) : (s.updLaunch id f).reply = s.reply := rfl
@[simp] theorem State.updLaunch_eng (id : Nat) (f : Launch → Launch) : (s.updLaunch id f).eng = s.eng := rfl
@[simp] theorem State.updLaunch_echo (id : Nat) (f : Launch → Launch) : (s.updLaunch id f).echo = s.echo := rfl
@[simp] theorem State.updLaunch_pkg (id : Nat) (f : Launch → Launch) : (s.updLaunch id f).pkg = s.pkg := rfl

/-! ### `setTime` -/

@[simp] theorem State.setTime_cur (p : Nat) : (s.setTime p).cur = s.cur := rfl
@[simp] theorem State.setTime_last (p : Nat) : (s.setTime p).last = s.last := rfl
@[simp] theorem State.setTime_turn (p : Nat) : (s.setTime p).turn = s.turn := rfl
@[simp] theorem State.setTime_agenda (p : Nat) : (s.setTime p).agenda = s.agenda := rfl
@[simp] theorem State.setTime_cmds (p : Nat) : (s.setTime p).cmds = s.cmds := rfl
@[simp] theorem State.setTime_freeN (p : Nat) : (s.setTime p).freeN = s.freeN := rfl
@[simp] theorem State.setTime_nextId (p : Nat) : (s.setTime p).nextId = s.nextId := rfl
@[simp] theorem State.setTime_clks (p : Nat) : (s.setTime p).clks = s.clks := rfl
@[simp] theorem State.setTime_teams (p : Nat) : (s.setTime p).teams = s.teams := rfl
@[simp] theorem State.setTime_ctxs (p : Nat) : (s.setTime p).ctxs = s.ctxs := rfl
@[simp] theorem State.setTime_mem (p : Nat) : (s.setTime p).mem = s.mem := rfl
@[simp] theorem State.setTime_l1 (p : Nat) : (s.setTime p).l1 = s.l1 := rfl
@[simp] theorem State.setTime_tlb (p : Nat) : (s.setTime p).tlb = s.tlb := rfl
@[simp] theorem State.setTime_pwc (p : Nat) : (s.setTime p).pwc = s.pwc := rfl
@[simp] theorem State.setTime_misses (p : Nat) : (s.setTime p).misses = s.misses := rfl
@[simp] theorem State.setTime_poison (p : Nat) : (s.setTime p).poison = s.poison := rfl
@[simp] theorem State.setTime_ecc (p : Nat) : (s.setTime p).ecc = s.ecc := rfl
@[simp] theorem State.setTime_tags (p : Nat) : (s.setTime p).tags = s.tags := rfl
@[simp] theorem State.setTime_resident (p : Nat) : (s.setTime p).resident = s.resident := rfl
@[simp] theorem State.setTime_fused (p : Nat) : (s.setTime p).fused = s.fused := rfl
@[simp] theorem State.setTime_roost (p : Nat) : (s.setTime p).roost = s.roost := rfl
@[simp] theorem State.setTime_ovf (p : Nat) : (s.setTime p).ovf = s.ovf := rfl
@[simp] theorem State.setTime_shapes (p : Nat) : (s.setTime p).shapes = s.shapes := rfl
@[simp] theorem State.setTime_waiters (p : Nat) : (s.setTime p).waiters = s.waiters := rfl
@[simp] theorem State.setTime_calls (p : Nat) : (s.setTime p).calls = s.calls := rfl
@[simp] theorem State.setTime_freezes (p : Nat) : (s.setTime p).freezes = s.freezes := rfl
@[simp] theorem State.setTime_reply (p : Nat) : (s.setTime p).reply = s.reply := rfl
@[simp] theorem State.setTime_eng (p : Nat) : (s.setTime p).eng = s.eng := rfl
@[simp] theorem State.setTime_sch (p : Nat) : (s.setTime p).sch = s.sch := rfl
@[simp] theorem State.setTime_echo (p : Nat) : (s.setTime p).echo = s.echo := rfl
@[simp] theorem State.setTime_pkg (p : Nat) : (s.setTime p).pkg = s.pkg := rfl

/-! ### `perfAdd` -/

@[simp] theorem State.perfAdd_cur (id : Nat × Nat) (k n : Nat) : (s.perfAdd id k n).cur = s.cur := rfl
@[simp] theorem State.perfAdd_last (id : Nat × Nat) (k n : Nat) : (s.perfAdd id k n).last = s.last := rfl
@[simp] theorem State.perfAdd_turn (id : Nat × Nat) (k n : Nat) : (s.perfAdd id k n).turn = s.turn := rfl
@[simp] theorem State.perfAdd_agenda (id : Nat × Nat) (k n : Nat) : (s.perfAdd id k n).agenda = s.agenda := rfl
@[simp] theorem State.perfAdd_cmds (id : Nat × Nat) (k n : Nat) : (s.perfAdd id k n).cmds = s.cmds := rfl
@[simp] theorem State.perfAdd_freeN (id : Nat × Nat) (k n : Nat) : (s.perfAdd id k n).freeN = s.freeN := rfl
@[simp] theorem State.perfAdd_nextId (id : Nat × Nat) (k n : Nat) : (s.perfAdd id k n).nextId = s.nextId := rfl
@[simp] theorem State.perfAdd_clks (id : Nat × Nat) (k n : Nat) : (s.perfAdd id k n).clks = s.clks := rfl
@[simp] theorem State.perfAdd_ptp (id : Nat × Nat) (k n : Nat) : (s.perfAdd id k n).ptp = s.ptp := rfl
@[simp] theorem State.perfAdd_ptps (id : Nat × Nat) (k n : Nat) : (s.perfAdd id k n).ptps = s.ptps := rfl
@[simp] theorem State.perfAdd_ctxs (id : Nat × Nat) (k n : Nat) : (s.perfAdd id k n).ctxs = s.ctxs := rfl
@[simp] theorem State.perfAdd_mem (id : Nat × Nat) (k n : Nat) : (s.perfAdd id k n).mem = s.mem := rfl
@[simp] theorem State.perfAdd_l1 (id : Nat × Nat) (k n : Nat) : (s.perfAdd id k n).l1 = s.l1 := rfl
@[simp] theorem State.perfAdd_tlb (id : Nat × Nat) (k n : Nat) : (s.perfAdd id k n).tlb = s.tlb := rfl
@[simp] theorem State.perfAdd_pwc (id : Nat × Nat) (k n : Nat) : (s.perfAdd id k n).pwc = s.pwc := rfl
@[simp] theorem State.perfAdd_misses (id : Nat × Nat) (k n : Nat) : (s.perfAdd id k n).misses = s.misses := rfl
@[simp] theorem State.perfAdd_poison (id : Nat × Nat) (k n : Nat) : (s.perfAdd id k n).poison = s.poison := rfl
@[simp] theorem State.perfAdd_ecc (id : Nat × Nat) (k n : Nat) : (s.perfAdd id k n).ecc = s.ecc := rfl
@[simp] theorem State.perfAdd_tags (id : Nat × Nat) (k n : Nat) : (s.perfAdd id k n).tags = s.tags := rfl
@[simp] theorem State.perfAdd_resident (id : Nat × Nat) (k n : Nat) : (s.perfAdd id k n).resident = s.resident := rfl
@[simp] theorem State.perfAdd_fused (id : Nat × Nat) (k n : Nat) : (s.perfAdd id k n).fused = s.fused := rfl
@[simp] theorem State.perfAdd_roost (id : Nat × Nat) (k n : Nat) : (s.perfAdd id k n).roost = s.roost := rfl
@[simp] theorem State.perfAdd_ovf (id : Nat × Nat) (k n : Nat) : (s.perfAdd id k n).ovf = s.ovf := rfl
@[simp] theorem State.perfAdd_shapes (id : Nat × Nat) (k n : Nat) : (s.perfAdd id k n).shapes = s.shapes := rfl
@[simp] theorem State.perfAdd_waiters (id : Nat × Nat) (k n : Nat) : (s.perfAdd id k n).waiters = s.waiters := rfl
@[simp] theorem State.perfAdd_calls (id : Nat × Nat) (k n : Nat) : (s.perfAdd id k n).calls = s.calls := rfl
@[simp] theorem State.perfAdd_freezes (id : Nat × Nat) (k n : Nat) : (s.perfAdd id k n).freezes = s.freezes := rfl
@[simp] theorem State.perfAdd_reply (id : Nat × Nat) (k n : Nat) : (s.perfAdd id k n).reply = s.reply := rfl
@[simp] theorem State.perfAdd_eng (id : Nat × Nat) (k n : Nat) : (s.perfAdd id k n).eng = s.eng := rfl
@[simp] theorem State.perfAdd_sch (id : Nat × Nat) (k n : Nat) : (s.perfAdd id k n).sch = s.sch := rfl
@[simp] theorem State.perfAdd_echo (id : Nat × Nat) (k n : Nat) : (s.perfAdd id k n).echo = s.echo := rfl
@[simp] theorem State.perfAdd_pkg (id : Nat × Nat) (k n : Nat) : (s.perfAdd id k n).pkg = s.pkg := rfl

/-! ### `l1Drop` -/

@[simp] theorem State.l1Drop_cur (p : L1Line → Bool) : (s.l1Drop p).cur = s.cur := rfl
@[simp] theorem State.l1Drop_last (p : L1Line → Bool) : (s.l1Drop p).last = s.last := rfl
@[simp] theorem State.l1Drop_turn (p : L1Line → Bool) : (s.l1Drop p).turn = s.turn := rfl
@[simp] theorem State.l1Drop_agenda (p : L1Line → Bool) : (s.l1Drop p).agenda = s.agenda := rfl
@[simp] theorem State.l1Drop_cmds (p : L1Line → Bool) : (s.l1Drop p).cmds = s.cmds := rfl
@[simp] theorem State.l1Drop_freeN (p : L1Line → Bool) : (s.l1Drop p).freeN = s.freeN := rfl
@[simp] theorem State.l1Drop_nextId (p : L1Line → Bool) : (s.l1Drop p).nextId = s.nextId := rfl
@[simp] theorem State.l1Drop_clks (p : L1Line → Bool) : (s.l1Drop p).clks = s.clks := rfl
@[simp] theorem State.l1Drop_ptp (p : L1Line → Bool) : (s.l1Drop p).ptp = s.ptp := rfl
@[simp] theorem State.l1Drop_ptps (p : L1Line → Bool) : (s.l1Drop p).ptps = s.ptps := rfl
@[simp] theorem State.l1Drop_teams (p : L1Line → Bool) : (s.l1Drop p).teams = s.teams := rfl
@[simp] theorem State.l1Drop_ctxs (p : L1Line → Bool) : (s.l1Drop p).ctxs = s.ctxs := rfl
@[simp] theorem State.l1Drop_mem (p : L1Line → Bool) : (s.l1Drop p).mem = s.mem := rfl
@[simp] theorem State.l1Drop_tlb (p : L1Line → Bool) : (s.l1Drop p).tlb = s.tlb := rfl
@[simp] theorem State.l1Drop_pwc (p : L1Line → Bool) : (s.l1Drop p).pwc = s.pwc := rfl
@[simp] theorem State.l1Drop_misses (p : L1Line → Bool) : (s.l1Drop p).misses = s.misses := rfl
@[simp] theorem State.l1Drop_poison (p : L1Line → Bool) : (s.l1Drop p).poison = s.poison := rfl
@[simp] theorem State.l1Drop_ecc (p : L1Line → Bool) : (s.l1Drop p).ecc = s.ecc := rfl
@[simp] theorem State.l1Drop_tags (p : L1Line → Bool) : (s.l1Drop p).tags = s.tags := rfl
@[simp] theorem State.l1Drop_resident (p : L1Line → Bool) : (s.l1Drop p).resident = s.resident := rfl
@[simp] theorem State.l1Drop_fused (p : L1Line → Bool) : (s.l1Drop p).fused = s.fused := rfl
@[simp] theorem State.l1Drop_roost (p : L1Line → Bool) : (s.l1Drop p).roost = s.roost := rfl
@[simp] theorem State.l1Drop_ovf (p : L1Line → Bool) : (s.l1Drop p).ovf = s.ovf := rfl
@[simp] theorem State.l1Drop_shapes (p : L1Line → Bool) : (s.l1Drop p).shapes = s.shapes := rfl
@[simp] theorem State.l1Drop_waiters (p : L1Line → Bool) : (s.l1Drop p).waiters = s.waiters := rfl
@[simp] theorem State.l1Drop_calls (p : L1Line → Bool) : (s.l1Drop p).calls = s.calls := rfl
@[simp] theorem State.l1Drop_freezes (p : L1Line → Bool) : (s.l1Drop p).freezes = s.freezes := rfl
@[simp] theorem State.l1Drop_reply (p : L1Line → Bool) : (s.l1Drop p).reply = s.reply := rfl
@[simp] theorem State.l1Drop_eng (p : L1Line → Bool) : (s.l1Drop p).eng = s.eng := rfl
@[simp] theorem State.l1Drop_sch (p : L1Line → Bool) : (s.l1Drop p).sch = s.sch := rfl
@[simp] theorem State.l1Drop_echo (p : L1Line → Bool) : (s.l1Drop p).echo = s.echo := rfl
@[simp] theorem State.l1Drop_pkg (p : L1Line → Bool) : (s.l1Drop p).pkg = s.pkg := rfl

/-! ### `beginSave` -/

@[simp] theorem State.beginSave_cur (ctx : Nat) (cause : Cause) : (s.beginSave ctx cause).cur = s.cur := rfl
@[simp] theorem State.beginSave_last (ctx : Nat) (cause : Cause) : (s.beginSave ctx cause).last = s.last := rfl
@[simp] theorem State.beginSave_turn (ctx : Nat) (cause : Cause) : (s.beginSave ctx cause).turn = s.turn := rfl
@[simp] theorem State.beginSave_agenda (ctx : Nat) (cause : Cause) : (s.beginSave ctx cause).agenda = s.agenda := rfl
@[simp] theorem State.beginSave_cmds (ctx : Nat) (cause : Cause) : (s.beginSave ctx cause).cmds = s.cmds := rfl
@[simp] theorem State.beginSave_freeN (ctx : Nat) (cause : Cause) : (s.beginSave ctx cause).freeN = s.freeN := rfl
@[simp] theorem State.beginSave_nextId (ctx : Nat) (cause : Cause) : (s.beginSave ctx cause).nextId = s.nextId := rfl
@[simp] theorem State.beginSave_clks (ctx : Nat) (cause : Cause) : (s.beginSave ctx cause).clks = s.clks := rfl
@[simp] theorem State.beginSave_ptp (ctx : Nat) (cause : Cause) : (s.beginSave ctx cause).ptp = s.ptp := rfl
@[simp] theorem State.beginSave_ptps (ctx : Nat) (cause : Cause) : (s.beginSave ctx cause).ptps = s.ptps := rfl
@[simp] theorem State.beginSave_teams (ctx : Nat) (cause : Cause) : (s.beginSave ctx cause).teams = s.teams := rfl
@[simp] theorem State.beginSave_mem (ctx : Nat) (cause : Cause) : (s.beginSave ctx cause).mem = s.mem := rfl
@[simp] theorem State.beginSave_l1 (ctx : Nat) (cause : Cause) : (s.beginSave ctx cause).l1 = s.l1 := rfl
@[simp] theorem State.beginSave_tlb (ctx : Nat) (cause : Cause) : (s.beginSave ctx cause).tlb = s.tlb := rfl
@[simp] theorem State.beginSave_pwc (ctx : Nat) (cause : Cause) : (s.beginSave ctx cause).pwc = s.pwc := rfl
@[simp] theorem State.beginSave_misses (ctx : Nat) (cause : Cause) : (s.beginSave ctx cause).misses = s.misses := rfl
@[simp] theorem State.beginSave_poison (ctx : Nat) (cause : Cause) : (s.beginSave ctx cause).poison = s.poison := rfl
@[simp] theorem State.beginSave_ecc (ctx : Nat) (cause : Cause) : (s.beginSave ctx cause).ecc = s.ecc := rfl
@[simp] theorem State.beginSave_tags (ctx : Nat) (cause : Cause) : (s.beginSave ctx cause).tags = s.tags := rfl
@[simp] theorem State.beginSave_resident (ctx : Nat) (cause : Cause) : (s.beginSave ctx cause).resident = s.resident := rfl
@[simp] theorem State.beginSave_fused (ctx : Nat) (cause : Cause) : (s.beginSave ctx cause).fused = s.fused := rfl
@[simp] theorem State.beginSave_roost (ctx : Nat) (cause : Cause) : (s.beginSave ctx cause).roost = s.roost := rfl
@[simp] theorem State.beginSave_ovf (ctx : Nat) (cause : Cause) : (s.beginSave ctx cause).ovf = s.ovf := rfl
@[simp] theorem State.beginSave_shapes (ctx : Nat) (cause : Cause) : (s.beginSave ctx cause).shapes = s.shapes := rfl
@[simp] theorem State.beginSave_waiters (ctx : Nat) (cause : Cause) : (s.beginSave ctx cause).waiters = s.waiters := rfl
@[simp] theorem State.beginSave_calls (ctx : Nat) (cause : Cause) : (s.beginSave ctx cause).calls = s.calls := rfl
@[simp] theorem State.beginSave_freezes (ctx : Nat) (cause : Cause) : (s.beginSave ctx cause).freezes = s.freezes := rfl
@[simp] theorem State.beginSave_reply (ctx : Nat) (cause : Cause) : (s.beginSave ctx cause).reply = s.reply := rfl
@[simp] theorem State.beginSave_eng (ctx : Nat) (cause : Cause) : (s.beginSave ctx cause).eng = s.eng := rfl
@[simp] theorem State.beginSave_sch (ctx : Nat) (cause : Cause) : (s.beginSave ctx cause).sch = s.sch := rfl
@[simp] theorem State.beginSave_echo (ctx : Nat) (cause : Cause) : (s.beginSave ctx cause).echo = s.echo := rfl
@[simp] theorem State.beginSave_pkg (ctx : Nat) (cause : Cause) : (s.beginSave ctx cause).pkg = s.pkg := rfl

/-! ### `bring` -/

/-- A line brought into its slice changes what the slices hold, and nothing else. -/
theorem State.bring_frame (cmp : Option Bool) (l : Nat) : ∃ r t, s.bring cmp l = { s with resident := r, tags := t } := by
  unfold State.bring
  split
  · split <;> exact ⟨_, _, rfl⟩
  · dsimp only
    split
    · exact ⟨_, _, rfl⟩
    · generalize (List.filter _ _)[(_ : Nat)]? = o
      cases o <;> exact ⟨_, _, rfl⟩

/-- The same for the lines of a span. -/
theorem State.bringSpan_frame (cmp : Option Bool) (pa n : Nat) : ∃ r t, s.bringSpan cmp pa n = { s with resident := r, tags := t } := by
  unfold State.bringSpan
  generalize s.homedLines pa n = ls
  induction ls generalizing s with
  | nil => exact ⟨_, _, rfl⟩
  | cons l ls ih =>
    obtain ⟨r, t, h⟩ := s.bring_frame cmp l
    obtain ⟨r2, t2, h2⟩ := ih (s.bring cmp l)
    exact ⟨r2, t2, by rw [List.foldl_cons, h2, h]⟩

@[simp] theorem State.bringSpan_cur (cmp : Option Bool) (pa n : Nat) : (s.bringSpan cmp pa n).cur = s.cur := by
  obtain ⟨r, t, h⟩ := s.bringSpan_frame cmp pa n
  rw [h]
@[simp] theorem State.bringSpan_last (cmp : Option Bool) (pa n : Nat) : (s.bringSpan cmp pa n).last = s.last := by
  obtain ⟨r, t, h⟩ := s.bringSpan_frame cmp pa n
  rw [h]
@[simp] theorem State.bringSpan_turn (cmp : Option Bool) (pa n : Nat) : (s.bringSpan cmp pa n).turn = s.turn := by
  obtain ⟨r, t, h⟩ := s.bringSpan_frame cmp pa n
  rw [h]
@[simp] theorem State.bringSpan_agenda (cmp : Option Bool) (pa n : Nat) : (s.bringSpan cmp pa n).agenda = s.agenda := by
  obtain ⟨r, t, h⟩ := s.bringSpan_frame cmp pa n
  rw [h]
@[simp] theorem State.bringSpan_cmds (cmp : Option Bool) (pa n : Nat) : (s.bringSpan cmp pa n).cmds = s.cmds := by
  obtain ⟨r, t, h⟩ := s.bringSpan_frame cmp pa n
  rw [h]
@[simp] theorem State.bringSpan_freeN (cmp : Option Bool) (pa n : Nat) : (s.bringSpan cmp pa n).freeN = s.freeN := by
  obtain ⟨r, t, h⟩ := s.bringSpan_frame cmp pa n
  rw [h]
@[simp] theorem State.bringSpan_nextId (cmp : Option Bool) (pa n : Nat) : (s.bringSpan cmp pa n).nextId = s.nextId := by
  obtain ⟨r, t, h⟩ := s.bringSpan_frame cmp pa n
  rw [h]
@[simp] theorem State.bringSpan_clks (cmp : Option Bool) (pa n : Nat) : (s.bringSpan cmp pa n).clks = s.clks := by
  obtain ⟨r, t, h⟩ := s.bringSpan_frame cmp pa n
  rw [h]
@[simp] theorem State.bringSpan_ptp (cmp : Option Bool) (pa n : Nat) : (s.bringSpan cmp pa n).ptp = s.ptp := by
  obtain ⟨r, t, h⟩ := s.bringSpan_frame cmp pa n
  rw [h]
@[simp] theorem State.bringSpan_ptps (cmp : Option Bool) (pa n : Nat) : (s.bringSpan cmp pa n).ptps = s.ptps := by
  obtain ⟨r, t, h⟩ := s.bringSpan_frame cmp pa n
  rw [h]
@[simp] theorem State.bringSpan_teams (cmp : Option Bool) (pa n : Nat) : (s.bringSpan cmp pa n).teams = s.teams := by
  obtain ⟨r, t, h⟩ := s.bringSpan_frame cmp pa n
  rw [h]
@[simp] theorem State.bringSpan_ctxs (cmp : Option Bool) (pa n : Nat) : (s.bringSpan cmp pa n).ctxs = s.ctxs := by
  obtain ⟨r, t, h⟩ := s.bringSpan_frame cmp pa n
  rw [h]
@[simp] theorem State.bringSpan_mem (cmp : Option Bool) (pa n : Nat) : (s.bringSpan cmp pa n).mem = s.mem := by
  obtain ⟨r, t, h⟩ := s.bringSpan_frame cmp pa n
  rw [h]
@[simp] theorem State.bringSpan_l1 (cmp : Option Bool) (pa n : Nat) : (s.bringSpan cmp pa n).l1 = s.l1 := by
  obtain ⟨r, t, h⟩ := s.bringSpan_frame cmp pa n
  rw [h]
@[simp] theorem State.bringSpan_tlb (cmp : Option Bool) (pa n : Nat) : (s.bringSpan cmp pa n).tlb = s.tlb := by
  obtain ⟨r, t, h⟩ := s.bringSpan_frame cmp pa n
  rw [h]
@[simp] theorem State.bringSpan_pwc (cmp : Option Bool) (pa n : Nat) : (s.bringSpan cmp pa n).pwc = s.pwc := by
  obtain ⟨r, t, h⟩ := s.bringSpan_frame cmp pa n
  rw [h]
@[simp] theorem State.bringSpan_misses (cmp : Option Bool) (pa n : Nat) : (s.bringSpan cmp pa n).misses = s.misses := by
  obtain ⟨r, t, h⟩ := s.bringSpan_frame cmp pa n
  rw [h]
@[simp] theorem State.bringSpan_poison (cmp : Option Bool) (pa n : Nat) : (s.bringSpan cmp pa n).poison = s.poison := by
  obtain ⟨r, t, h⟩ := s.bringSpan_frame cmp pa n
  rw [h]
@[simp] theorem State.bringSpan_ecc (cmp : Option Bool) (pa n : Nat) : (s.bringSpan cmp pa n).ecc = s.ecc := by
  obtain ⟨r, t, h⟩ := s.bringSpan_frame cmp pa n
  rw [h]
@[simp] theorem State.bringSpan_fused (cmp : Option Bool) (pa n : Nat) : (s.bringSpan cmp pa n).fused = s.fused := by
  obtain ⟨r, t, h⟩ := s.bringSpan_frame cmp pa n
  rw [h]
@[simp] theorem State.bringSpan_roost (cmp : Option Bool) (pa n : Nat) : (s.bringSpan cmp pa n).roost = s.roost := by
  obtain ⟨r, t, h⟩ := s.bringSpan_frame cmp pa n
  rw [h]
@[simp] theorem State.bringSpan_ovf (cmp : Option Bool) (pa n : Nat) : (s.bringSpan cmp pa n).ovf = s.ovf := by
  obtain ⟨r, t, h⟩ := s.bringSpan_frame cmp pa n
  rw [h]
@[simp] theorem State.bringSpan_shapes (cmp : Option Bool) (pa n : Nat) : (s.bringSpan cmp pa n).shapes = s.shapes := by
  obtain ⟨r, t, h⟩ := s.bringSpan_frame cmp pa n
  rw [h]
@[simp] theorem State.bringSpan_waiters (cmp : Option Bool) (pa n : Nat) : (s.bringSpan cmp pa n).waiters = s.waiters := by
  obtain ⟨r, t, h⟩ := s.bringSpan_frame cmp pa n
  rw [h]
@[simp] theorem State.bringSpan_calls (cmp : Option Bool) (pa n : Nat) : (s.bringSpan cmp pa n).calls = s.calls := by
  obtain ⟨r, t, h⟩ := s.bringSpan_frame cmp pa n
  rw [h]
@[simp] theorem State.bringSpan_freezes (cmp : Option Bool) (pa n : Nat) : (s.bringSpan cmp pa n).freezes = s.freezes := by
  obtain ⟨r, t, h⟩ := s.bringSpan_frame cmp pa n
  rw [h]
@[simp] theorem State.bringSpan_reply (cmp : Option Bool) (pa n : Nat) : (s.bringSpan cmp pa n).reply = s.reply := by
  obtain ⟨r, t, h⟩ := s.bringSpan_frame cmp pa n
  rw [h]
@[simp] theorem State.bringSpan_eng (cmp : Option Bool) (pa n : Nat) : (s.bringSpan cmp pa n).eng = s.eng := by
  obtain ⟨r, t, h⟩ := s.bringSpan_frame cmp pa n
  rw [h]
@[simp] theorem State.bringSpan_sch (cmp : Option Bool) (pa n : Nat) : (s.bringSpan cmp pa n).sch = s.sch := by
  obtain ⟨r, t, h⟩ := s.bringSpan_frame cmp pa n
  rw [h]
@[simp] theorem State.bringSpan_echo (cmp : Option Bool) (pa n : Nat) : (s.bringSpan cmp pa n).echo = s.echo := by
  obtain ⟨r, t, h⟩ := s.bringSpan_frame cmp pa n
  rw [h]
@[simp] theorem State.bringSpan_pkg (cmp : Option Bool) (pa n : Nat) : (s.bringSpan cmp pa n).pkg = s.pkg := by
  obtain ⟨r, t, h⟩ := s.bringSpan_frame cmp pa n
  rw [h]

/-! ### `storeAs` -/

@[simp] theorem State.storeAs_cur (cmp : Option Bool) (pa : Nat) (bs : List Byte) : (s.storeAs cmp pa bs).cur = s.cur := by simp [State.storeAs]
@[simp] theorem State.storeAs_last (cmp : Option Bool) (pa : Nat) (bs : List Byte) : (s.storeAs cmp pa bs).last = s.last := by simp [State.storeAs]
@[simp] theorem State.storeAs_turn (cmp : Option Bool) (pa : Nat) (bs : List Byte) : (s.storeAs cmp pa bs).turn = s.turn := by simp [State.storeAs]
@[simp] theorem State.storeAs_agenda (cmp : Option Bool) (pa : Nat) (bs : List Byte) : (s.storeAs cmp pa bs).agenda = s.agenda := by simp [State.storeAs]
@[simp] theorem State.storeAs_cmds (cmp : Option Bool) (pa : Nat) (bs : List Byte) : (s.storeAs cmp pa bs).cmds = s.cmds := by simp [State.storeAs]
@[simp] theorem State.storeAs_freeN (cmp : Option Bool) (pa : Nat) (bs : List Byte) : (s.storeAs cmp pa bs).freeN = s.freeN := by simp [State.storeAs]
@[simp] theorem State.storeAs_nextId (cmp : Option Bool) (pa : Nat) (bs : List Byte) : (s.storeAs cmp pa bs).nextId = s.nextId := by simp [State.storeAs]
@[simp] theorem State.storeAs_clks (cmp : Option Bool) (pa : Nat) (bs : List Byte) : (s.storeAs cmp pa bs).clks = s.clks := by simp [State.storeAs]
@[simp] theorem State.storeAs_ptp (cmp : Option Bool) (pa : Nat) (bs : List Byte) : (s.storeAs cmp pa bs).ptp = s.ptp := by simp [State.storeAs]
@[simp] theorem State.storeAs_ptps (cmp : Option Bool) (pa : Nat) (bs : List Byte) : (s.storeAs cmp pa bs).ptps = s.ptps := by simp [State.storeAs]
@[simp] theorem State.storeAs_teams (cmp : Option Bool) (pa : Nat) (bs : List Byte) : (s.storeAs cmp pa bs).teams = s.teams := by simp [State.storeAs]
@[simp] theorem State.storeAs_ctxs (cmp : Option Bool) (pa : Nat) (bs : List Byte) : (s.storeAs cmp pa bs).ctxs = s.ctxs := by simp [State.storeAs]
@[simp] theorem State.storeAs_l1 (cmp : Option Bool) (pa : Nat) (bs : List Byte) : (s.storeAs cmp pa bs).l1 = s.l1 := by simp [State.storeAs]
@[simp] theorem State.storeAs_tlb (cmp : Option Bool) (pa : Nat) (bs : List Byte) : (s.storeAs cmp pa bs).tlb = s.tlb := by simp [State.storeAs]
@[simp] theorem State.storeAs_pwc (cmp : Option Bool) (pa : Nat) (bs : List Byte) : (s.storeAs cmp pa bs).pwc = s.pwc := by simp [State.storeAs]
@[simp] theorem State.storeAs_misses (cmp : Option Bool) (pa : Nat) (bs : List Byte) : (s.storeAs cmp pa bs).misses = s.misses := by simp [State.storeAs]
@[simp] theorem State.storeAs_fused (cmp : Option Bool) (pa : Nat) (bs : List Byte) : (s.storeAs cmp pa bs).fused = s.fused := by simp [State.storeAs]
@[simp] theorem State.storeAs_shapes (cmp : Option Bool) (pa : Nat) (bs : List Byte) : (s.storeAs cmp pa bs).shapes = s.shapes := by simp [State.storeAs]
@[simp] theorem State.storeAs_waiters (cmp : Option Bool) (pa : Nat) (bs : List Byte) : (s.storeAs cmp pa bs).waiters = s.waiters := by simp [State.storeAs]
@[simp] theorem State.storeAs_calls (cmp : Option Bool) (pa : Nat) (bs : List Byte) : (s.storeAs cmp pa bs).calls = s.calls := by simp [State.storeAs]
@[simp] theorem State.storeAs_freezes (cmp : Option Bool) (pa : Nat) (bs : List Byte) : (s.storeAs cmp pa bs).freezes = s.freezes := by simp [State.storeAs]
@[simp] theorem State.storeAs_reply (cmp : Option Bool) (pa : Nat) (bs : List Byte) : (s.storeAs cmp pa bs).reply = s.reply := by simp [State.storeAs]
@[simp] theorem State.storeAs_eng (cmp : Option Bool) (pa : Nat) (bs : List Byte) : (s.storeAs cmp pa bs).eng = s.eng := by simp [State.storeAs]
@[simp] theorem State.storeAs_echo (cmp : Option Bool) (pa : Nat) (bs : List Byte) : (s.storeAs cmp pa bs).echo = s.echo := by simp [State.storeAs]
@[simp] theorem State.storeAs_pkg (cmp : Option Bool) (pa : Nat) (bs : List Byte) : (s.storeAs cmp pa bs).pkg = s.pkg := by simp [State.storeAs]
@[simp] theorem State.storeAs_mem (cmp : Option Bool) (pa : Nat) (bs : List Byte) : (s.storeAs cmp pa bs).mem = s.mem.write pa bs := rfl

/-! ### `store` -/

@[simp] theorem State.store_cur (pa : Nat) (bs : List Byte) : (s.store pa bs).cur = s.cur := by simp [State.store]
@[simp] theorem State.store_last (pa : Nat) (bs : List Byte) : (s.store pa bs).last = s.last := by simp [State.store]
@[simp] theorem State.store_turn (pa : Nat) (bs : List Byte) : (s.store pa bs).turn = s.turn := by simp [State.store]
@[simp] theorem State.store_agenda (pa : Nat) (bs : List Byte) : (s.store pa bs).agenda = s.agenda := by simp [State.store]
@[simp] theorem State.store_cmds (pa : Nat) (bs : List Byte) : (s.store pa bs).cmds = s.cmds := by simp [State.store]
@[simp] theorem State.store_freeN (pa : Nat) (bs : List Byte) : (s.store pa bs).freeN = s.freeN := by simp [State.store]
@[simp] theorem State.store_nextId (pa : Nat) (bs : List Byte) : (s.store pa bs).nextId = s.nextId := by simp [State.store]
@[simp] theorem State.store_clks (pa : Nat) (bs : List Byte) : (s.store pa bs).clks = s.clks := by simp [State.store]
@[simp] theorem State.store_ptp (pa : Nat) (bs : List Byte) : (s.store pa bs).ptp = s.ptp := by simp [State.store]
@[simp] theorem State.store_ptps (pa : Nat) (bs : List Byte) : (s.store pa bs).ptps = s.ptps := by simp [State.store]
@[simp] theorem State.store_teams (pa : Nat) (bs : List Byte) : (s.store pa bs).teams = s.teams := by simp [State.store]
@[simp] theorem State.store_ctxs (pa : Nat) (bs : List Byte) : (s.store pa bs).ctxs = s.ctxs := by simp [State.store]
@[simp] theorem State.store_l1 (pa : Nat) (bs : List Byte) : (s.store pa bs).l1 = s.l1 := by simp [State.store]
@[simp] theorem State.store_tlb (pa : Nat) (bs : List Byte) : (s.store pa bs).tlb = s.tlb := by simp [State.store]
@[simp] theorem State.store_pwc (pa : Nat) (bs : List Byte) : (s.store pa bs).pwc = s.pwc := by simp [State.store]
@[simp] theorem State.store_misses (pa : Nat) (bs : List Byte) : (s.store pa bs).misses = s.misses := by simp [State.store]
@[simp] theorem State.store_fused (pa : Nat) (bs : List Byte) : (s.store pa bs).fused = s.fused := by simp [State.store]
@[simp] theorem State.store_shapes (pa : Nat) (bs : List Byte) : (s.store pa bs).shapes = s.shapes := by simp [State.store]
@[simp] theorem State.store_waiters (pa : Nat) (bs : List Byte) : (s.store pa bs).waiters = s.waiters := by simp [State.store]
@[simp] theorem State.store_calls (pa : Nat) (bs : List Byte) : (s.store pa bs).calls = s.calls := by simp [State.store]
@[simp] theorem State.store_freezes (pa : Nat) (bs : List Byte) : (s.store pa bs).freezes = s.freezes := by simp [State.store]
@[simp] theorem State.store_reply (pa : Nat) (bs : List Byte) : (s.store pa bs).reply = s.reply := by simp [State.store]
@[simp] theorem State.store_eng (pa : Nat) (bs : List Byte) : (s.store pa bs).eng = s.eng := by simp [State.store]
@[simp] theorem State.store_echo (pa : Nat) (bs : List Byte) : (s.store pa bs).echo = s.echo := by simp [State.store]
@[simp] theorem State.store_pkg (pa : Nat) (bs : List Byte) : (s.store pa bs).pkg = s.pkg := by simp [State.store]
@[simp] theorem State.store_mem (pa : Nat) (bs : List Byte) : (s.store pa bs).mem = s.mem.write pa bs := rfl

/-! ### `storeNat` -/

@[simp] theorem State.storeNat_cur (pa n x : Nat) : (s.storeNat pa n x).cur = s.cur := by simp [State.storeNat]
@[simp] theorem State.storeNat_last (pa n x : Nat) : (s.storeNat pa n x).last = s.last := by simp [State.storeNat]
@[simp] theorem State.storeNat_turn (pa n x : Nat) : (s.storeNat pa n x).turn = s.turn := by simp [State.storeNat]
@[simp] theorem State.storeNat_agenda (pa n x : Nat) : (s.storeNat pa n x).agenda = s.agenda := by simp [State.storeNat]
@[simp] theorem State.storeNat_cmds (pa n x : Nat) : (s.storeNat pa n x).cmds = s.cmds := by simp [State.storeNat]
@[simp] theorem State.storeNat_freeN (pa n x : Nat) : (s.storeNat pa n x).freeN = s.freeN := by simp [State.storeNat]
@[simp] theorem State.storeNat_nextId (pa n x : Nat) : (s.storeNat pa n x).nextId = s.nextId := by simp [State.storeNat]
@[simp] theorem State.storeNat_clks (pa n x : Nat) : (s.storeNat pa n x).clks = s.clks := by simp [State.storeNat]
@[simp] theorem State.storeNat_ptp (pa n x : Nat) : (s.storeNat pa n x).ptp = s.ptp := by simp [State.storeNat]
@[simp] theorem State.storeNat_ptps (pa n x : Nat) : (s.storeNat pa n x).ptps = s.ptps := by simp [State.storeNat]
@[simp] theorem State.storeNat_teams (pa n x : Nat) : (s.storeNat pa n x).teams = s.teams := by simp [State.storeNat]
@[simp] theorem State.storeNat_ctxs (pa n x : Nat) : (s.storeNat pa n x).ctxs = s.ctxs := by simp [State.storeNat]
@[simp] theorem State.storeNat_l1 (pa n x : Nat) : (s.storeNat pa n x).l1 = s.l1 := by simp [State.storeNat]
@[simp] theorem State.storeNat_tlb (pa n x : Nat) : (s.storeNat pa n x).tlb = s.tlb := by simp [State.storeNat]
@[simp] theorem State.storeNat_pwc (pa n x : Nat) : (s.storeNat pa n x).pwc = s.pwc := by simp [State.storeNat]
@[simp] theorem State.storeNat_misses (pa n x : Nat) : (s.storeNat pa n x).misses = s.misses := by simp [State.storeNat]
@[simp] theorem State.storeNat_fused (pa n x : Nat) : (s.storeNat pa n x).fused = s.fused := by simp [State.storeNat]
@[simp] theorem State.storeNat_shapes (pa n x : Nat) : (s.storeNat pa n x).shapes = s.shapes := by simp [State.storeNat]
@[simp] theorem State.storeNat_waiters (pa n x : Nat) : (s.storeNat pa n x).waiters = s.waiters := by simp [State.storeNat]
@[simp] theorem State.storeNat_calls (pa n x : Nat) : (s.storeNat pa n x).calls = s.calls := by simp [State.storeNat]
@[simp] theorem State.storeNat_freezes (pa n x : Nat) : (s.storeNat pa n x).freezes = s.freezes := by simp [State.storeNat]
@[simp] theorem State.storeNat_reply (pa n x : Nat) : (s.storeNat pa n x).reply = s.reply := by simp [State.storeNat]
@[simp] theorem State.storeNat_eng (pa n x : Nat) : (s.storeNat pa n x).eng = s.eng := by simp [State.storeNat]
@[simp] theorem State.storeNat_echo (pa n x : Nat) : (s.storeNat pa n x).echo = s.echo := by simp [State.storeNat]
@[simp] theorem State.storeNat_pkg (pa n x : Nat) : (s.storeNat pa n x).pkg = s.pkg := by simp [State.storeNat]
@[simp] theorem State.storeNat_mem (pa n x : Nat) : (s.storeNat pa n x).mem = s.mem.wr pa n x := rfl

/-! ### `watch` -/

@[simp] theorem State.watch_cur : (s.watch).cur = s.cur := rfl
@[simp] theorem State.watch_last : (s.watch).last = s.last := rfl
@[simp] theorem State.watch_turn : (s.watch).turn = s.turn := rfl
@[simp] theorem State.watch_agenda : (s.watch).agenda = s.agenda := rfl
@[simp] theorem State.watch_cmds : (s.watch).cmds = s.cmds := rfl
@[simp] theorem State.watch_freeN : (s.watch).freeN = s.freeN := rfl
@[simp] theorem State.watch_nextId : (s.watch).nextId = s.nextId := rfl
@[simp] theorem State.watch_clks : (s.watch).clks = s.clks := rfl
@[simp] theorem State.watch_ptp : (s.watch).ptp = s.ptp := rfl
@[simp] theorem State.watch_ptps : (s.watch).ptps = s.ptps := rfl
@[simp] theorem State.watch_teams : (s.watch).teams = s.teams := rfl
@[simp] theorem State.watch_ctxs : (s.watch).ctxs = s.ctxs := rfl
@[simp] theorem State.watch_mem : (s.watch).mem = s.mem := rfl
@[simp] theorem State.watch_l1 : (s.watch).l1 = s.l1 := rfl
@[simp] theorem State.watch_tlb : (s.watch).tlb = s.tlb := rfl
@[simp] theorem State.watch_pwc : (s.watch).pwc = s.pwc := rfl
@[simp] theorem State.watch_misses : (s.watch).misses = s.misses := rfl
@[simp] theorem State.watch_poison : (s.watch).poison = s.poison := rfl
@[simp] theorem State.watch_ecc : (s.watch).ecc = s.ecc := rfl
@[simp] theorem State.watch_tags : (s.watch).tags = s.tags := rfl
@[simp] theorem State.watch_resident : (s.watch).resident = s.resident := rfl
@[simp] theorem State.watch_fused : (s.watch).fused = s.fused := rfl
@[simp] theorem State.watch_roost : (s.watch).roost = s.roost := rfl
@[simp] theorem State.watch_ovf : (s.watch).ovf = s.ovf := rfl
@[simp] theorem State.watch_shapes : (s.watch).shapes = s.shapes := rfl
@[simp] theorem State.watch_waiters : (s.watch).waiters = s.waiters := rfl
@[simp] theorem State.watch_calls : (s.watch).calls = s.calls := rfl
@[simp] theorem State.watch_freezes : (s.watch).freezes = s.freezes := rfl
@[simp] theorem State.watch_reply : (s.watch).reply = s.reply := rfl
@[simp] theorem State.watch_eng : (s.watch).eng = s.eng := rfl
@[simp] theorem State.watch_echo : (s.watch).echo = s.echo := rfl
@[simp] theorem State.watch_pkg : (s.watch).pkg = s.pkg := rfl
@[simp] theorem State.watch_sch : s.watch.sch = { s.sch with tails := s.watchTails } := rfl

/-! ### `storeDone` -/

@[simp] theorem State.storeDone_cur (id : Nat × Nat) (f : Group → Group) : (s.storeDone id f).cur = s.cur := rfl
@[simp] theorem State.storeDone_last (id : Nat × Nat) (f : Group → Group) : (s.storeDone id f).last = s.last := rfl
@[simp] theorem State.storeDone_turn (id : Nat × Nat) (f : Group → Group) : (s.storeDone id f).turn = s.turn := rfl
@[simp] theorem State.storeDone_agenda (id : Nat × Nat) (f : Group → Group) : (s.storeDone id f).agenda = s.agenda := rfl
@[simp] theorem State.storeDone_cmds (id : Nat × Nat) (f : Group → Group) : (s.storeDone id f).cmds = s.cmds := rfl
@[simp] theorem State.storeDone_freeN (id : Nat × Nat) (f : Group → Group) : (s.storeDone id f).freeN = s.freeN := rfl
@[simp] theorem State.storeDone_nextId (id : Nat × Nat) (f : Group → Group) : (s.storeDone id f).nextId = s.nextId := rfl
@[simp] theorem State.storeDone_clks (id : Nat × Nat) (f : Group → Group) : (s.storeDone id f).clks = s.clks := rfl
@[simp] theorem State.storeDone_ptp (id : Nat × Nat) (f : Group → Group) : (s.storeDone id f).ptp = s.ptp := rfl
@[simp] theorem State.storeDone_ptps (id : Nat × Nat) (f : Group → Group) : (s.storeDone id f).ptps = s.ptps := rfl
@[simp] theorem State.storeDone_ctxs (id : Nat × Nat) (f : Group → Group) : (s.storeDone id f).ctxs = s.ctxs := rfl
@[simp] theorem State.storeDone_mem (id : Nat × Nat) (f : Group → Group) : (s.storeDone id f).mem = s.mem := rfl
@[simp] theorem State.storeDone_l1 (id : Nat × Nat) (f : Group → Group) : (s.storeDone id f).l1 = s.l1 := rfl
@[simp] theorem State.storeDone_tlb (id : Nat × Nat) (f : Group → Group) : (s.storeDone id f).tlb = s.tlb := rfl
@[simp] theorem State.storeDone_pwc (id : Nat × Nat) (f : Group → Group) : (s.storeDone id f).pwc = s.pwc := rfl
@[simp] theorem State.storeDone_misses (id : Nat × Nat) (f : Group → Group) : (s.storeDone id f).misses = s.misses := rfl
@[simp] theorem State.storeDone_poison (id : Nat × Nat) (f : Group → Group) : (s.storeDone id f).poison = s.poison := rfl
@[simp] theorem State.storeDone_ecc (id : Nat × Nat) (f : Group → Group) : (s.storeDone id f).ecc = s.ecc := rfl
@[simp] theorem State.storeDone_tags (id : Nat × Nat) (f : Group → Group) : (s.storeDone id f).tags = s.tags := rfl
@[simp] theorem State.storeDone_resident (id : Nat × Nat) (f : Group → Group) : (s.storeDone id f).resident = s.resident := rfl
@[simp] theorem State.storeDone_fused (id : Nat × Nat) (f : Group → Group) : (s.storeDone id f).fused = s.fused := rfl
@[simp] theorem State.storeDone_roost (id : Nat × Nat) (f : Group → Group) : (s.storeDone id f).roost = s.roost := rfl
@[simp] theorem State.storeDone_ovf (id : Nat × Nat) (f : Group → Group) : (s.storeDone id f).ovf = s.ovf := rfl
@[simp] theorem State.storeDone_shapes (id : Nat × Nat) (f : Group → Group) : (s.storeDone id f).shapes = s.shapes := rfl
@[simp] theorem State.storeDone_waiters (id : Nat × Nat) (f : Group → Group) : (s.storeDone id f).waiters = s.waiters := rfl
@[simp] theorem State.storeDone_calls (id : Nat × Nat) (f : Group → Group) : (s.storeDone id f).calls = s.calls := rfl
@[simp] theorem State.storeDone_reply (id : Nat × Nat) (f : Group → Group) : (s.storeDone id f).reply = s.reply := rfl
@[simp] theorem State.storeDone_eng (id : Nat × Nat) (f : Group → Group) : (s.storeDone id f).eng = s.eng := rfl
@[simp] theorem State.storeDone_sch (id : Nat × Nat) (f : Group → Group) : (s.storeDone id f).sch = s.sch := rfl
@[simp] theorem State.storeDone_echo (id : Nat × Nat) (f : Group → Group) : (s.storeDone id f).echo = s.echo := rfl
@[simp] theorem State.storeDone_pkg (id : Nat × Nat) (f : Group → Group) : (s.storeDone id f).pkg = s.pkg := rfl
@[simp] theorem State.storeDone_teams (id : Nat × Nat) (f : Group → Group) : (s.storeDone id f).teams = (s.updGrp id f).teams := rfl
@[simp] theorem State.storeDone_freezes (id : Nat × Nat) (f : Group → Group) : (s.storeDone id f).freezes = s.freezes.map (Freeze.acked id) := rfl

/-! ### `dropCounts` -/

@[simp] theorem State.dropCounts_cur (die : Nat) : (s.dropCounts die).cur = s.cur := rfl
@[simp] theorem State.dropCounts_last (die : Nat) : (s.dropCounts die).last = s.last := rfl
@[simp] theorem State.dropCounts_turn (die : Nat) : (s.dropCounts die).turn = s.turn := rfl
@[simp] theorem State.dropCounts_agenda (die : Nat) : (s.dropCounts die).agenda = s.agenda := rfl
@[simp] theorem State.dropCounts_cmds (die : Nat) : (s.dropCounts die).cmds = s.cmds := rfl
@[simp] theorem State.dropCounts_freeN (die : Nat) : (s.dropCounts die).freeN = s.freeN := rfl
@[simp] theorem State.dropCounts_nextId (die : Nat) : (s.dropCounts die).nextId = s.nextId := rfl
@[simp] theorem State.dropCounts_clks (die : Nat) : (s.dropCounts die).clks = s.clks := rfl
@[simp] theorem State.dropCounts_ptp (die : Nat) : (s.dropCounts die).ptp = s.ptp := rfl
@[simp] theorem State.dropCounts_ptps (die : Nat) : (s.dropCounts die).ptps = s.ptps := rfl
@[simp] theorem State.dropCounts_teams (die : Nat) : (s.dropCounts die).teams = s.teams := rfl
@[simp] theorem State.dropCounts_ctxs (die : Nat) : (s.dropCounts die).ctxs = s.ctxs := rfl
@[simp] theorem State.dropCounts_mem (die : Nat) : (s.dropCounts die).mem = s.mem := rfl
@[simp] theorem State.dropCounts_l1 (die : Nat) : (s.dropCounts die).l1 = s.l1 := rfl
@[simp] theorem State.dropCounts_tlb (die : Nat) : (s.dropCounts die).tlb = s.tlb := rfl
@[simp] theorem State.dropCounts_pwc (die : Nat) : (s.dropCounts die).pwc = s.pwc := rfl
@[simp] theorem State.dropCounts_misses (die : Nat) : (s.dropCounts die).misses = s.misses := rfl
@[simp] theorem State.dropCounts_poison (die : Nat) : (s.dropCounts die).poison = s.poison := rfl
@[simp] theorem State.dropCounts_ecc (die : Nat) : (s.dropCounts die).ecc = s.ecc := rfl
@[simp] theorem State.dropCounts_tags (die : Nat) : (s.dropCounts die).tags = s.tags := rfl
@[simp] theorem State.dropCounts_resident (die : Nat) : (s.dropCounts die).resident = s.resident := rfl
@[simp] theorem State.dropCounts_fused (die : Nat) : (s.dropCounts die).fused = s.fused := rfl
@[simp] theorem State.dropCounts_roost (die : Nat) : (s.dropCounts die).roost = s.roost := rfl
@[simp] theorem State.dropCounts_ovf (die : Nat) : (s.dropCounts die).ovf = s.ovf := rfl
@[simp] theorem State.dropCounts_shapes (die : Nat) : (s.dropCounts die).shapes = s.shapes := rfl
@[simp] theorem State.dropCounts_waiters (die : Nat) : (s.dropCounts die).waiters = s.waiters := rfl
@[simp] theorem State.dropCounts_calls (die : Nat) : (s.dropCounts die).calls = s.calls := rfl
@[simp] theorem State.dropCounts_freezes (die : Nat) : (s.dropCounts die).freezes = s.freezes := rfl
@[simp] theorem State.dropCounts_reply (die : Nat) : (s.dropCounts die).reply = s.reply := rfl
@[simp] theorem State.dropCounts_sch (die : Nat) : (s.dropCounts die).sch = s.sch := rfl
@[simp] theorem State.dropCounts_pkg (die : Nat) : (s.dropCounts die).pkg = s.pkg := rfl
@[simp] theorem State.dropCounts_counts (die : Nat) : (s.dropCounts die).eng.counts = s.eng.counts.filter fun c => c.die != die := rfl

/-! ### Emission, and the end of stalls -/

/-- An event of a unit without a buffer changes Echo only. -/
theorem State.emitHub_form (die unit code tag : Nat) (payload : W32) : ∃ e, s.emitHub die unit code tag payload = { s with echo := e } := by
  unfold State.emitHub
  split
  · exact ⟨s.echo, rfl⟩
  · exact ⟨_, rfl⟩

/-- The end of a group's stall changes Echo only. -/
theorem State.endStall_form (t : Team) (g : Group) : ∃ e, s.endStall t g = { s with echo := e } := by
  unfold State.endStall
  split
  · exact s.emitHub_form _ _ _ _ _
  · exact ⟨s.echo, rfl⟩

/-- The end of a team's stalls changes Echo only. -/
theorem State.endStalls_form (id : Nat) : ∃ e, s.endStalls id = { s with echo := e } := by
  unfold State.endStalls
  split
  · exact ⟨s.echo, rfl⟩
  · rename_i t h0
    clear h0
    generalize t.groups = gs
    induction gs generalizing s with
    | nil => exact ⟨s.echo, rfl⟩
    | cons g gs ih =>
      obtain ⟨e, h⟩ := s.endStall_form t g
      obtain ⟨e', h'⟩ := ih (s.endStall t g)
      exact ⟨e', by rw [List.foldl_cons, h', h]⟩

end Sys2Proof.Machine
end

