-- ==== Sys2Proof/Laws/Lookup.lean ====
section
/-! SUPPORT. What the lookups of teams, groups and contexts answer after an update. -/

namespace Sys2Proof.Machine

/-- Finding by a key that the map keeps. -/
theorem find?_map_key {α : Type} (l : List α) (key : α → Nat) (f : α → α) (hf : ∀ x, key (f x) = key x) (k : Nat) :
    (l.map f).find? (fun x => key x == k) = (l.find? fun x => key x == k).map f := by
  induction l with
  | nil => rfl
  | cons x l ih =>
    simp only [List.map_cons, List.find?_cons, hf]
    split <;> simp_all

theorem State.team?_updTeam (s : State) (id : Nat) (f : Team → Team) (hf : ∀ t, (f t).id = t.id) (k : Nat) :
    (s.updTeam id f).team? k = (s.team? k).map fun t => if t.id == id then f t else t :=
  find?_map_key _ Team.id _ (fun t => by split <;> simp [hf]) k

/-- A team that is found has the number it was asked for. -/
theorem State.team?_id {s : State} {k : Nat} {t : Team} (h : s.team? k = some t) : t.id = k := by
  have := List.find?_some h
  simpa using this

theorem State.team?_updTeam_self {s : State} {id : Nat} {t : Team} (f : Team → Team) (hf : ∀ t, (f t).id = t.id)
    (h : s.team? id = some t) : (s.updTeam id f).team? id = some (f t) := by
  rw [State.team?_updTeam s id f hf, h]
  simp [State.team?_id h]

theorem State.team?_updTeam_other {s : State} {id k : Nat} (f : Team → Team) (hf : ∀ t, (f t).id = t.id) (hk : k ≠ id) :
    (s.updTeam id f).team? k = s.team? k := by
  rw [State.team?_updTeam s id f hf]
  cases h : s.team? k with
  | none => rfl
  | some t =>
    have := State.team?_id h
    simp [this, hk]

theorem State.team?_updGrp_self {s : State} {id : Nat × Nat} {t : Team} (f : Group → Group) (h : s.team? id.1 = some t) :
    (s.updGrp id f).team? id.1 = some (t.updGrp id.2 f) :=
  State.team?_updTeam_self _ (fun _ => rfl) h

theorem State.team?_updGrp_other {s : State} {id : Nat × Nat} {k : Nat} (f : Group → Group) (hk : k ≠ id.1) :
    (s.updGrp id f).team? k = s.team? k :=
  State.team?_updTeam_other _ (fun _ => rfl) hk

theorem Team.updGrp_get (t : Team) (gi k : Nat) (f : Group → Group) :
    (t.updGrp gi f).groups[k]? = if gi = k then (t.groups[k]?).map f else t.groups[k]? := by
  simp only [Team.updGrp, List.getElem?_modify]
  cases t.groups[k]? <;> split <;> rfl

theorem State.grp?_updGrp_self {s : State} {id : Nat × Nat} {g : Group} (f : Group → Group) (h : s.grp? id = some g) :
    (s.updGrp id f).grp? id = some (f g) := by
  unfold State.grp? at *
  cases ht : s.team? id.1 with
  | none => simp [ht] at h
  | some t =>
    rw [State.team?_updGrp_self f ht]
    simp only [ht, Option.bind_some] at h
    simp [Team.updGrp_get, h]

theorem State.grp?_updGrp_other {s : State} {id k : Nat × Nat} (f : Group → Group) (hk : k ≠ id) :
    (s.updGrp id f).grp? k = s.grp? k := by
  unfold State.grp?
  by_cases h1 : k.1 = id.1
  · cases ht : s.team? id.1 with
    | none =>
      have : (s.updGrp id f).team? k.1 = none := by
        rw [State.updGrp, State.team?_updTeam s id.1 (fun t => t.updGrp id.2 f) (fun _ => rfl), h1, ht]; rfl
      rw [this, h1, ht]
    | some t =>
      rw [h1, State.team?_updGrp_self f ht, ht]
      simp only [Option.bind_some, Team.updGrp_get]
      rw [if_neg]
      intro h2
      exact hk (Prod.ext h1 h2.symm)
  · rw [State.team?_updGrp_other f h1]

/-- Counting performance leaves every group. -/
theorem State.grp?_updTeam_groups {s : State} {id : Nat} (f : Team → Team) (hf : ∀ t, (f t).id = t.id) (hg : ∀ t, (f t).groups = t.groups)
    (k : Nat × Nat) : (s.updTeam id f).grp? k = s.grp? k := by
  unfold State.grp?
  rw [State.team?_updTeam s id f hf]
  cases s.team? k.1 with
  | none => rfl
  | some t => by_cases h : t.id = id <;> simp [h, hg]

@[simp] theorem State.grp?_perfAdd (s : State) (at_ : Nat × Nat) (n m : Nat) (id : Nat × Nat) : (s.perfAdd at_ n m).grp? id = s.grp? id :=
  State.grp?_updTeam_groups (fun t : Team => t.updCount (t.half at_.2) fun c => c.add n m) (fun _ => rfl) (fun _ => rfl) id

theorem State.ctx?_updCtx (s : State) (n : Nat) (f : Ctx → Ctx) (hf : ∀ c, (f c).num = c.num) (k : Nat) :
    (s.updCtx n f).ctx? k = (s.ctx? k).map fun c => if c.num == n then f c else c :=
  find?_map_key _ Ctx.num _ (fun c => by split <;> simp [hf]) k

theorem State.ctx?_num {s : State} {k : Nat} {c : Ctx} (h : s.ctx? k = some c) : c.num = k := by
  have := List.find?_some h
  simpa using this

theorem State.ctx?_updCtx_self {s : State} {n : Nat} {c : Ctx} (f : Ctx → Ctx) (hf : ∀ c, (f c).num = c.num) (h : s.ctx? n = some c) :
    (s.updCtx n f).ctx? n = some (f c) := by
  rw [State.ctx?_updCtx s n f hf, h]
  simp [State.ctx?_num h]

theorem State.ctx?_updCtx_other {s : State} {n k : Nat} (f : Ctx → Ctx) (hf : ∀ c, (f c).num = c.num) (hk : k ≠ n) :
    (s.updCtx n f).ctx? k = s.ctx? k := by
  rw [State.ctx?_updCtx s n f hf]
  cases h : s.ctx? k with
  | none => rfl
  | some c =>
    have := State.ctx?_num h
    simp [this, hk]

@[simp] theorem State.ctx?_updTeam (s : State) (id : Nat) (f : Team → Team) (k : Nat) : (s.updTeam id f).ctx? k = s.ctx? k := rfl
@[simp] theorem State.ctx?_updGrp (s : State) (id : Nat × Nat) (f : Group → Group) (k : Nat) : (s.updGrp id f).ctx? k = s.ctx? k := rfl
@[simp] theorem State.team?_updCtx (s : State) (n : Nat) (f : Ctx → Ctx) (k : Nat) : (s.updCtx n f).team? k = s.team? k := rfl
@[simp] theorem State.grp?_updCtx (s : State) (n : Nat) (f : Ctx → Ctx) (k : Nat × Nat) : (s.updCtx n f).grp? k = s.grp? k := rfl

end Sys2Proof.Machine
end

