-- ==== Sys2Proof/Laws/Issue.lean ====
section
/-! SUPPORT. What the issue of a word can do, said once: with no group it is the model's own fault, a check of R114 that fails takes its
fault, and otherwise the word's own effect decides. -/

namespace Sys2Proof.Machine

/-- What is known of a word that issues. -/
theorem State.iss?_some {s : State} {v : View} {sh : Shape} {w : Iss} (h : s.iss? v sh = some w) :
    w.v = v ∧ w.sh = sh ∧ s.cur = some w.id ∧ s.team? w.id.1 = some w.t ∧ s.ctx? w.t.ctx = some w.c ∧ s.grp? w.id = some w.g := by
  unfold State.iss? at h
  cases hc : s.cur with
  | none => simp [hc] at h
  | some id =>
    simp only [hc] at h
    cases ht : s.team? id.1 with
    | none => simp [ht] at h
    | some t =>
      simp only [ht] at h
      cases hx : s.ctx? t.ctx with
      | none => simp [hx] at h
      | some c =>
        cases hg : t.groups[id.2]? with
        | none => simp [hx, hg] at h
        | some g =>
          simp only [hx, hg, Option.some.injEq] at h
          subst h
          exact ⟨rfl, rfl, rfl, ht, hx, by simp [State.grp?, ht, hg]⟩

/-- A word with no group to issue it. -/
theorem runWord_none {e : Entry} {v : View} {s : State} {eff : Iss → State → Except Exc State} (h : s.iss? v e.sh = none) :
    runWord e v s eff = .fault .noGroup := by
  simp [runWord, h]

/-- A word that fails a check of R114. -/
theorem runWord_fault {e : Entry} {v : View} {s : State} {eff : Iss → State → Except Exc State} {w : Iss} {x : Exc}
    (h : s.iss? v e.sh = some w) (hx : issueChecks e w = .error x) : runWord e v s eff = .next (s.wordFault w x) := by
  simp [runWord, h, hx, State.wordFault]

/-- A word that passes the checks, stalls at no translation, and whose effect goes through. -/
theorem runWord_ok {e : Entry} {v : View} {s t : State} {eff : Iss → State → Except Exc State} {w : Iss}
    (h : s.issues e v w) (he : eff (w.ready e) (s.moved e w) = .ok t) : runWord e v s eff = .next t := by
  obtain ⟨h1, h2, h3, h4⟩ := h
  have hv := (State.iss?_some h1).1
  subst hv
  simp only [State.moved, State.arrived, State.needs, Iss.ready] at he h3 h4
  simp only [runWord, h1, h2, h3, he, h4]
  rfl

/-- A word with no walk to start counts none. -/
@[simp] theorem State.countWalks_nil (s : State) (id : Nat × Nat) (x : Exc) : s.countWalks id x [] = s := by simp [State.countWalks]

/-- No page is left of none. -/
@[simp] theorem State.leafWalks_nil (s : State) (c : Ctx) (core : Nat) (x : Exc) : s.leafWalks c core x [] = [] := by simp [State.leafWalks]

/-- A word that passes the checks, stalls at no frozen page and for no walk that finds a leaf, and whose effect raises a fault. -/
theorem runWord_late {e : Entry} {v : View} {s : State} {eff : Iss → State → Except Exc State} {w : Iss} {x : Exc}
    (h : s.iss? v e.sh = some w) (hx : issueChecks e w = .ok ()) (hf : (s.needs e w).any (s.frozenVa w.c.num) = false)
    (he : eff (w.ready e) (s.moved e w) = .error x) (hl : s.leafWalks w.c w.core x (s.walkPages w.c w.core (s.needs e w)) = []) :
    runWord e v s eff = .next (((s.arrived e w).countWalks w.id x (s.walkPages w.c w.core (s.needs e w))).wordFault w x) := by
  have hv := (State.iss?_some h).1
  subst hv
  simp only [State.moved, State.arrived, State.needs, Iss.ready] at he hf hl
  simp only [runWord, h, hx, hf, he, hl]
  rfl

/-- A word whose effect raises a fault and that stalls first for the walks that find a leaf. -/
theorem runWord_leaves {e : Entry} {v : View} {s : State} {eff : Iss → State → Except Exc State} {w : Iss} {x : Exc}
    (h : s.iss? v e.sh = some w) (hx : issueChecks e w = .ok ()) (hf : (s.needs e w).any (s.frozenVa w.c.num) = false)
    (he : eff (w.ready e) (s.moved e w) = .error x) (hl : s.leafWalks w.c w.core x (s.walkPages w.c w.core (s.needs e w)) ≠ []) :
    runWord e v s eff = .next ((s.arrived e w).walkStall (w.ready e) (s.leafWalks w.c w.core x (s.walkPages w.c w.core (s.needs e w)))) := by
  have hv := (State.iss?_some h).1
  subst hv
  simp only [State.moved, State.arrived, State.needs, Iss.ready] at he hf hl
  simp only [runWord, h, hx, hf, he, Bool.false_eq_true, if_false]
  rfl

/-- A word that stalls at a frozen page. -/
theorem runWord_frozen {e : Entry} {v : View} {s : State} {eff : Iss → State → Except Exc State} {w : Iss}
    (h : s.iss? v e.sh = some w) (hx : issueChecks e w = .ok ()) (hf : (s.needs e w).any (s.frozenVa w.c.num) = true) :
    runWord e v s eff = .next ((s.arrived e w).freezeStall (w.ready e)) := by
  have hv := (State.iss?_some h).1
  subst hv
  simp only [State.needs, Iss.ready] at hf
  simp only [runWord, h, hx, hf]
  rfl

/-- A word that stalls for the walks of its translations. -/
theorem runWord_walks {e : Entry} {v : View} {s t : State} {eff : Iss → State → Except Exc State} {w : Iss}
    (h : s.iss? v e.sh = some w) (hx : issueChecks e w = .ok ()) (hf : (s.needs e w).any (s.frozenVa w.c.num) = false)
    (he : eff (w.ready e) (s.moved e w) = .ok t) (hw : s.walkPages w.c w.core (s.needs e w) ≠ []) :
    runWord e v s eff = .next ((s.arrived e w).walkStall (w.ready e) (s.walkPages w.c w.core (s.needs e w))) := by
  have hv := (State.iss?_some h).1
  subst hv
  simp only [State.moved, State.arrived, State.needs, Iss.ready] at he hf hw
  simp only [runWord, h, hx, hf, he, Bool.false_eq_true, if_false]
  rfl

/-- Everything that the issue of a word can do. -/
theorem runWord_cases {e : Entry} {v : View} {s : State} {eff : Iss → State → Except Exc State} :
    (s.iss? v e.sh = none ∧ runWord e v s eff = .fault .noGroup) ∨
    ∃ w, s.iss? v e.sh = some w ∧ (
      (∃ x, issueChecks e w = .error x ∧ runWord e v s eff = .next (s.wordFault w x)) ∨
      (issueChecks e w = .ok () ∧ runWord e v s eff = .next ((s.arrived e w).freezeStall (w.ready e))) ∨
      (issueChecks e w = .ok () ∧ ∃ pages, pages ≠ [] ∧ runWord e v s eff = .next ((s.arrived e w).walkStall (w.ready e) pages)) ∨
      (∃ t, s.issues e v w ∧ eff (w.ready e) (s.moved e w) = .ok t ∧ runWord e v s eff = .next t) ∨
      (∃ x, issueChecks e w = .ok () ∧ eff (w.ready e) (s.moved e w) = .error x ∧
        runWord e v s eff = .next (((s.arrived e w).countWalks w.id x (s.walkPages w.c w.core (s.needs e w))).wordFault w x))) := by
  cases h : s.iss? v e.sh with
  | none => exact .inl ⟨rfl, runWord_none h⟩
  | some w =>
    refine .inr ⟨w, rfl, ?_⟩
    cases hx : issueChecks e w with
    | error x => exact .inl ⟨x, rfl, runWord_fault h hx⟩
    | ok _ =>
      cases hf : (s.needs e w).any (s.frozenVa w.c.num) with
      | true => exact .inr (.inl ⟨rfl, runWord_frozen h hx hf⟩)
      | false =>
        cases he : eff (w.ready e) (s.moved e w) with
        | error x =>
          by_cases hl : s.leafWalks w.c w.core x (s.walkPages w.c w.core (s.needs e w)) = []
          · exact .inr (.inr (.inr (.inr ⟨x, rfl, rfl, runWord_late h hx hf he hl⟩)))
          · exact .inr (.inr (.inl ⟨rfl, _, hl, runWord_leaves h hx hf he hl⟩))
        | ok t =>
          by_cases hw : s.walkPages w.c w.core (s.needs e w) = []
          · exact .inr (.inr (.inr (.inl ⟨t, ⟨h, hx, hf, hw⟩, rfl, runWord_ok ⟨h, hx, hf, hw⟩ he⟩)))
          · exact .inr (.inr (.inl ⟨rfl, _, hw, runWord_walks h hx hf he hw⟩))

theorem runReg_ok {e : Entry} {v : View} {s : State} {f : Iss → Group → Group} {w : Iss} (h : s.issues e v w) :
    runReg e v s f = .next ((s.moved e w).updGrp w.id (f (w.ready e))) := runWord_ok h rfl

theorem runVal_ok {e : Entry} {v : View} {wide : Bool} {s : State} {x : Iss → Nat → Nat} {w : Iss} (h : s.issues e v w) :
    runVal e v wide s x = .next ((s.moved e w).updGrp w.id fun g => g.result v wide (w.ready e).act (x (w.ready e))) := runReg_ok h

theorem runLater_ok {e : Entry} {v : View} {wide load : Bool} {s : State} {x : Iss → Nat → Nat} {w : Iss} (h : s.issues e v w) :
    runLater e v wide load s x =
      .next ((s.moved e w).updGrp w.id fun g => g.later v wide load (w.ready e).act (w.ready e).mask (x (w.ready e))) := runReg_ok h

/-! ### What moving past a word leaves -/

section Moved
variable (s : State) (e : Entry) (w : Iss)

/-- A stall that is counted changes the counts of a team slot only. -/
theorem State.countStall_or : s.countStall w e = s ∨ ∃ n, s.countStall w e = s.perfAdd w.id 4 n := by
  unfold State.countStall
  split
  · exact .inr ⟨_, rfl⟩
  · exact .inl rfl

@[simp] theorem State.countStall_ctxs : (s.countStall w e).ctxs = s.ctxs := by
  rcases s.countStall_or e w with h | ⟨n, h⟩ <;> rw [h]
  rfl
@[simp] theorem State.countStall_mem : (s.countStall w e).mem = s.mem := by
  rcases s.countStall_or e w with h | ⟨n, h⟩ <;> rw [h]
  rfl
@[simp] theorem State.countStall_last : (s.countStall w e).last = s.last := by
  rcases s.countStall_or e w with h | ⟨n, h⟩ <;> rw [h]
  rfl
@[simp] theorem State.countStall_turn : (s.countStall w e).turn = s.turn := by
  rcases s.countStall_or e w with h | ⟨n, h⟩ <;> rw [h]
  rfl
@[simp] theorem State.countStall_agenda : (s.countStall w e).agenda = s.agenda := by
  rcases s.countStall_or e w with h | ⟨n, h⟩ <;> rw [h]
  rfl
@[simp] theorem State.countStall_cmds : (s.countStall w e).cmds = s.cmds := by
  rcases s.countStall_or e w with h | ⟨n, h⟩ <;> rw [h]
  rfl
@[simp] theorem State.countStall_freeN : (s.countStall w e).freeN = s.freeN := by
  rcases s.countStall_or e w with h | ⟨n, h⟩ <;> rw [h]
  rfl
@[simp] theorem State.countStall_nextId : (s.countStall w e).nextId = s.nextId := by
  rcases s.countStall_or e w with h | ⟨n, h⟩ <;> rw [h]
  rfl
@[simp] theorem State.countStall_clks : (s.countStall w e).clks = s.clks := by
  rcases s.countStall_or e w with h | ⟨n, h⟩ <;> rw [h]
  rfl
@[simp] theorem State.countStall_ptp : (s.countStall w e).ptp = s.ptp := by
  rcases s.countStall_or e w with h | ⟨n, h⟩ <;> rw [h]
  rfl
@[simp] theorem State.countStall_ptps : (s.countStall w e).ptps = s.ptps := by
  rcases s.countStall_or e w with h | ⟨n, h⟩ <;> rw [h]
  rfl
@[simp] theorem State.countStall_l1 : (s.countStall w e).l1 = s.l1 := by
  rcases s.countStall_or e w with h | ⟨n, h⟩ <;> rw [h]
  rfl
@[simp] theorem State.countStall_tlb : (s.countStall w e).tlb = s.tlb := by
  rcases s.countStall_or e w with h | ⟨n, h⟩ <;> rw [h]
  rfl
@[simp] theorem State.countStall_pwc : (s.countStall w e).pwc = s.pwc := by
  rcases s.countStall_or e w with h | ⟨n, h⟩ <;> rw [h]
  rfl
@[simp] theorem State.countStall_misses : (s.countStall w e).misses = s.misses := by
  rcases s.countStall_or e w with h | ⟨n, h⟩ <;> rw [h]
  rfl
@[simp] theorem State.countStall_poison : (s.countStall w e).poison = s.poison := by
  rcases s.countStall_or e w with h | ⟨n, h⟩ <;> rw [h]
  rfl
@[simp] theorem State.countStall_ecc : (s.countStall w e).ecc = s.ecc := by
  rcases s.countStall_or e w with h | ⟨n, h⟩ <;> rw [h]
  rfl
@[simp] theorem State.countStall_tags : (s.countStall w e).tags = s.tags := by
  rcases s.countStall_or e w with h | ⟨n, h⟩ <;> rw [h]
  rfl
@[simp] theorem State.countStall_resident : (s.countStall w e).resident = s.resident := by
  rcases s.countStall_or e w with h | ⟨n, h⟩ <;> rw [h]
  rfl
@[simp] theorem State.countStall_fused : (s.countStall w e).fused = s.fused := by
  rcases s.countStall_or e w with h | ⟨n, h⟩ <;> rw [h]
  rfl
@[simp] theorem State.countStall_roost : (s.countStall w e).roost = s.roost := by
  rcases s.countStall_or e w with h | ⟨n, h⟩ <;> rw [h]
  rfl
@[simp] theorem State.countStall_ovf : (s.countStall w e).ovf = s.ovf := by
  rcases s.countStall_or e w with h | ⟨n, h⟩ <;> rw [h]
  rfl
@[simp] theorem State.countStall_shapes : (s.countStall w e).shapes = s.shapes := by
  rcases s.countStall_or e w with h | ⟨n, h⟩ <;> rw [h]
  rfl
@[simp] theorem State.countStall_waiters : (s.countStall w e).waiters = s.waiters := by
  rcases s.countStall_or e w with h | ⟨n, h⟩ <;> rw [h]
  rfl
@[simp] theorem State.countStall_calls : (s.countStall w e).calls = s.calls := by
  rcases s.countStall_or e w with h | ⟨n, h⟩ <;> rw [h]
  rfl
@[simp] theorem State.countStall_freezes : (s.countStall w e).freezes = s.freezes := by
  rcases s.countStall_or e w with h | ⟨n, h⟩ <;> rw [h]
  rfl
@[simp] theorem State.countStall_reply : (s.countStall w e).reply = s.reply := by
  rcases s.countStall_or e w with h | ⟨n, h⟩ <;> rw [h]
  rfl
@[simp] theorem State.countStall_eng : (s.countStall w e).eng = s.eng := by
  rcases s.countStall_or e w with h | ⟨n, h⟩ <;> rw [h]
  rfl
@[simp] theorem State.countStall_sch : (s.countStall w e).sch = s.sch := by
  rcases s.countStall_or e w with h | ⟨n, h⟩ <;> rw [h]
  rfl
@[simp] theorem State.countStall_echo : (s.countStall w e).echo = s.echo := by
  rcases s.countStall_or e w with h | ⟨n, h⟩ <;> rw [h]
  rfl
@[simp] theorem State.countStall_pkg : (s.countStall w e).pkg = s.pkg := by
  rcases s.countStall_or e w with h | ⟨n, h⟩ <;> rw [h]
  rfl
@[simp] theorem State.countStall_cur : (s.countStall w e).cur = s.cur := by
  rcases s.countStall_or e w with h | ⟨n, h⟩ <;> rw [h]
  rfl
@[simp] theorem State.grp?_countStall (k : Nat × Nat) : (s.countStall w e).grp? k = s.grp? k := by
  rcases s.countStall_or e w with h | ⟨n, h⟩ <;> rw [h]
  exact State.grp?_perfAdd _ _ _ _ _

/-- What the core's TLB takes from its cluster's changes that TLB and the counts of a team slot only. -/
theorem State.coreFill_form (c : Ctx) (core : Nat) (id : Nat × Nat) (va : Nat) :
    s.coreFill c core id va = s ∨ ∃ l, s.coreFill c core id va = { s.perfAdd id 8 1 with tlb := l } := by
  unfold State.coreFill
  split
  · exact .inl rfl
  · split
    · exact .inl rfl
    · exact .inr ⟨_, rfl⟩

theorem State.coreFills_form (c : Ctx) (core : Nat) (id : Nat × Nat) (vas : List Nat) :
    ∃ ts l, s.coreFills c core id vas = { s with teams := ts, tlb := l } := by
  unfold State.coreFills
  induction vas generalizing s with
  | nil => exact ⟨s.teams, s.tlb, rfl⟩
  | cons va vas ih =>
    obtain ⟨ts, l, h⟩ := ih (s.coreFill c core id va)
    rw [List.foldl_cons, h]
    rcases s.coreFill_form c core id va with h1 | ⟨_, h1⟩ <;> rw [h1] <;> exact ⟨ts, l, rfl⟩

@[simp] theorem State.coreFills_ctxs (c : Ctx) (core : Nat) (id : Nat × Nat) (vas : List Nat) : (s.coreFills c core id vas).ctxs = s.ctxs := by
  obtain ⟨_, _, h⟩ := s.coreFills_form c core id vas
  rw [h]
@[simp] theorem State.coreFills_mem (c : Ctx) (core : Nat) (id : Nat × Nat) (vas : List Nat) : (s.coreFills c core id vas).mem = s.mem := by
  obtain ⟨_, _, h⟩ := s.coreFills_form c core id vas
  rw [h]
@[simp] theorem State.coreFills_last (c : Ctx) (core : Nat) (id : Nat × Nat) (vas : List Nat) : (s.coreFills c core id vas).last = s.last := by
  obtain ⟨_, _, h⟩ := s.coreFills_form c core id vas
  rw [h]
@[simp] theorem State.coreFills_turn (c : Ctx) (core : Nat) (id : Nat × Nat) (vas : List Nat) : (s.coreFills c core id vas).turn = s.turn := by
  obtain ⟨_, _, h⟩ := s.coreFills_form c core id vas
  rw [h]
@[simp] theorem State.coreFills_agenda (c : Ctx) (core : Nat) (id : Nat × Nat) (vas : List Nat) : (s.coreFills c core id vas).agenda = s.agenda := by
  obtain ⟨_, _, h⟩ := s.coreFills_form c core id vas
  rw [h]
@[simp] theorem State.coreFills_cmds (c : Ctx) (core : Nat) (id : Nat × Nat) (vas : List Nat) : (s.coreFills c core id vas).cmds = s.cmds := by
  obtain ⟨_, _, h⟩ := s.coreFills_form c core id vas
  rw [h]
@[simp] theorem State.coreFills_freeN (c : Ctx) (core : Nat) (id : Nat × Nat) (vas : List Nat) : (s.coreFills c core id vas).freeN = s.freeN := by
  obtain ⟨_, _, h⟩ := s.coreFills_form c core id vas
  rw [h]
@[simp] theorem State.coreFills_nextId (c : Ctx) (core : Nat) (id : Nat × Nat) (vas : List Nat) : (s.coreFills c core id vas).nextId = s.nextId := by
  obtain ⟨_, _, h⟩ := s.coreFills_form c core id vas
  rw [h]
@[simp] theorem State.coreFills_clks (c : Ctx) (core : Nat) (id : Nat × Nat) (vas : List Nat) : (s.coreFills c core id vas).clks = s.clks := by
  obtain ⟨_, _, h⟩ := s.coreFills_form c core id vas
  rw [h]
@[simp] theorem State.coreFills_ptp (c : Ctx) (core : Nat) (id : Nat × Nat) (vas : List Nat) : (s.coreFills c core id vas).ptp = s.ptp := by
  obtain ⟨_, _, h⟩ := s.coreFills_form c core id vas
  rw [h]
@[simp] theorem State.coreFills_ptps (c : Ctx) (core : Nat) (id : Nat × Nat) (vas : List Nat) : (s.coreFills c core id vas).ptps = s.ptps := by
  obtain ⟨_, _, h⟩ := s.coreFills_form c core id vas
  rw [h]
@[simp] theorem State.coreFills_l1 (c : Ctx) (core : Nat) (id : Nat × Nat) (vas : List Nat) : (s.coreFills c core id vas).l1 = s.l1 := by
  obtain ⟨_, _, h⟩ := s.coreFills_form c core id vas
  rw [h]
@[simp] theorem State.coreFills_pwc (c : Ctx) (core : Nat) (id : Nat × Nat) (vas : List Nat) : (s.coreFills c core id vas).pwc = s.pwc := by
  obtain ⟨_, _, h⟩ := s.coreFills_form c core id vas
  rw [h]
@[simp] theorem State.coreFills_misses (c : Ctx) (core : Nat) (id : Nat × Nat) (vas : List Nat) : (s.coreFills c core id vas).misses = s.misses := by
  obtain ⟨_, _, h⟩ := s.coreFills_form c core id vas
  rw [h]
@[simp] theorem State.coreFills_poison (c : Ctx) (core : Nat) (id : Nat × Nat) (vas : List Nat) : (s.coreFills c core id vas).poison = s.poison := by
  obtain ⟨_, _, h⟩ := s.coreFills_form c core id vas
  rw [h]
@[simp] theorem State.coreFills_ecc (c : Ctx) (core : Nat) (id : Nat × Nat) (vas : List Nat) : (s.coreFills c core id vas).ecc = s.ecc := by
  obtain ⟨_, _, h⟩ := s.coreFills_form c core id vas
  rw [h]
@[simp] theorem State.coreFills_tags (c : Ctx) (core : Nat) (id : Nat × Nat) (vas : List Nat) : (s.coreFills c core id vas).tags = s.tags := by
  obtain ⟨_, _, h⟩ := s.coreFills_form c core id vas
  rw [h]
@[simp] theorem State.coreFills_resident (c : Ctx) (core : Nat) (id : Nat × Nat) (vas : List Nat) : (s.coreFills c core id vas).resident = s.resident := by
  obtain ⟨_, _, h⟩ := s.coreFills_form c core id vas
  rw [h]
@[simp] theorem State.coreFills_fused (c : Ctx) (core : Nat) (id : Nat × Nat) (vas : List Nat) : (s.coreFills c core id vas).fused = s.fused := by
  obtain ⟨_, _, h⟩ := s.coreFills_form c core id vas
  rw [h]
@[simp] theorem State.coreFills_roost (c : Ctx) (core : Nat) (id : Nat × Nat) (vas : List Nat) : (s.coreFills c core id vas).roost = s.roost := by
  obtain ⟨_, _, h⟩ := s.coreFills_form c core id vas
  rw [h]
@[simp] theorem State.coreFills_ovf (c : Ctx) (core : Nat) (id : Nat × Nat) (vas : List Nat) : (s.coreFills c core id vas).ovf = s.ovf := by
  obtain ⟨_, _, h⟩ := s.coreFills_form c core id vas
  rw [h]
@[simp] theorem State.coreFills_shapes (c : Ctx) (core : Nat) (id : Nat × Nat) (vas : List Nat) : (s.coreFills c core id vas).shapes = s.shapes := by
  obtain ⟨_, _, h⟩ := s.coreFills_form c core id vas
  rw [h]
@[simp] theorem State.coreFills_waiters (c : Ctx) (core : Nat) (id : Nat × Nat) (vas : List Nat) : (s.coreFills c core id vas).waiters = s.waiters := by
  obtain ⟨_, _, h⟩ := s.coreFills_form c core id vas
  rw [h]
@[simp] theorem State.coreFills_calls (c : Ctx) (core : Nat) (id : Nat × Nat) (vas : List Nat) : (s.coreFills c core id vas).calls = s.calls := by
  obtain ⟨_, _, h⟩ := s.coreFills_form c core id vas
  rw [h]
@[simp] theorem State.coreFills_freezes (c : Ctx) (core : Nat) (id : Nat × Nat) (vas : List Nat) : (s.coreFills c core id vas).freezes = s.freezes := by
  obtain ⟨_, _, h⟩ := s.coreFills_form c core id vas
  rw [h]
@[simp] theorem State.coreFills_reply (c : Ctx) (core : Nat) (id : Nat × Nat) (vas : List Nat) : (s.coreFills c core id vas).reply = s.reply := by
  obtain ⟨_, _, h⟩ := s.coreFills_form c core id vas
  rw [h]
@[simp] theorem State.coreFills_eng (c : Ctx) (core : Nat) (id : Nat × Nat) (vas : List Nat) : (s.coreFills c core id vas).eng = s.eng := by
  obtain ⟨_, _, h⟩ := s.coreFills_form c core id vas
  rw [h]
@[simp] theorem State.coreFills_sch (c : Ctx) (core : Nat) (id : Nat × Nat) (vas : List Nat) : (s.coreFills c core id vas).sch = s.sch := by
  obtain ⟨_, _, h⟩ := s.coreFills_form c core id vas
  rw [h]
@[simp] theorem State.coreFills_echo (c : Ctx) (core : Nat) (id : Nat × Nat) (vas : List Nat) : (s.coreFills c core id vas).echo = s.echo := by
  obtain ⟨_, _, h⟩ := s.coreFills_form c core id vas
  rw [h]
@[simp] theorem State.coreFills_pkg (c : Ctx) (core : Nat) (id : Nat × Nat) (vas : List Nat) : (s.coreFills c core id vas).pkg = s.pkg := by
  obtain ⟨_, _, h⟩ := s.coreFills_form c core id vas
  rw [h]
@[simp] theorem State.coreFills_cur (c : Ctx) (core : Nat) (id : Nat × Nat) (vas : List Nat) : (s.coreFills c core id vas).cur = s.cur := by
  obtain ⟨_, _, h⟩ := s.coreFills_form c core id vas
  rw [h]
@[simp] theorem State.grp?_coreFills (c : Ctx) (core : Nat) (id : Nat × Nat) (vas : List Nat) (k : Nat × Nat) :
    (s.coreFills c core id vas).grp? k = s.grp? k := by
  unfold State.coreFills
  induction vas generalizing s with
  | nil => rfl
  | cons va vas ih =>
    rw [List.foldl_cons, ih]
    rcases s.coreFill_form c core id va with h | ⟨_, h⟩ <;> rw [h]
    exact State.grp?_perfAdd s id 8 1 k

@[simp] theorem State.moved_ctxs : (s.moved e w).ctxs = s.ctxs := by simp [State.moved, State.advance, State.arrived]
@[simp] theorem State.moved_mem : (s.moved e w).mem = s.mem := by simp [State.moved, State.advance, State.arrived]
@[simp] theorem State.moved_last : (s.moved e w).last = s.last := by simp [State.moved, State.advance, State.arrived]
@[simp] theorem State.moved_turn : (s.moved e w).turn = s.turn := by simp [State.moved, State.advance, State.arrived]
@[simp] theorem State.moved_agenda : (s.moved e w).agenda = s.agenda := by simp [State.moved, State.advance, State.arrived]
@[simp] theorem State.moved_cmds : (s.moved e w).cmds = s.cmds := by simp [State.moved, State.advance, State.arrived]
@[simp] theorem State.moved_freeN : (s.moved e w).freeN = s.freeN := by simp [State.moved, State.advance, State.arrived]
@[simp] theorem State.moved_nextId : (s.moved e w).nextId = s.nextId := by simp [State.moved, State.advance, State.arrived]
@[simp] theorem State.moved_clks : (s.moved e w).clks = s.clks := by simp [State.moved, State.advance, State.arrived]
@[simp] theorem State.moved_ptp : (s.moved e w).ptp = s.ptp := by simp [State.moved, State.advance, State.arrived]
@[simp] theorem State.moved_ptps : (s.moved e w).ptps = s.ptps := by simp [State.moved, State.advance, State.arrived]
@[simp] theorem State.moved_l1 : (s.moved e w).l1 = s.l1 := by simp [State.moved, State.advance, State.arrived]
@[simp] theorem State.moved_pwc : (s.moved e w).pwc = s.pwc := by simp [State.moved, State.advance, State.arrived]
@[simp] theorem State.moved_misses : (s.moved e w).misses = s.misses := by simp [State.moved, State.advance, State.arrived]
@[simp] theorem State.moved_poison : (s.moved e w).poison = s.poison := by simp [State.moved, State.advance, State.arrived]
@[simp] theorem State.moved_ecc : (s.moved e w).ecc = s.ecc := by simp [State.moved, State.advance, State.arrived]
@[simp] theorem State.moved_tags : (s.moved e w).tags = s.tags := by simp [State.moved, State.advance, State.arrived]
@[simp] theorem State.moved_resident : (s.moved e w).resident = s.resident := by simp [State.moved, State.advance, State.arrived]
@[simp] theorem State.moved_fused : (s.moved e w).fused = s.fused := by simp [State.moved, State.advance, State.arrived]
@[simp] theorem State.moved_roost : (s.moved e w).roost = s.roost := by simp [State.moved, State.advance, State.arrived]
@[simp] theorem State.moved_ovf : (s.moved e w).ovf = s.ovf := by simp [State.moved, State.advance, State.arrived]
@[simp] theorem State.moved_shapes : (s.moved e w).shapes = s.shapes := by simp [State.moved, State.advance, State.arrived]
@[simp] theorem State.moved_waiters : (s.moved e w).waiters = s.waiters := by simp [State.moved, State.advance, State.arrived]
@[simp] theorem State.moved_calls : (s.moved e w).calls = s.calls := by simp [State.moved, State.advance, State.arrived]
@[simp] theorem State.moved_freezes : (s.moved e w).freezes = s.freezes := by simp [State.moved, State.advance, State.arrived]
@[simp] theorem State.moved_reply : (s.moved e w).reply = s.reply := by simp [State.moved, State.advance, State.arrived]
@[simp] theorem State.moved_eng : (s.moved e w).eng = s.eng := by simp [State.moved, State.advance, State.arrived]
@[simp] theorem State.moved_sch : (s.moved e w).sch = s.sch := by simp [State.moved, State.advance, State.arrived]
@[simp] theorem State.moved_echo : (s.moved e w).echo = s.echo := by simp [State.moved, State.advance, State.arrived]
@[simp] theorem State.moved_pkg : (s.moved e w).pkg = s.pkg := by simp [State.moved, State.advance, State.arrived]
@[simp] theorem State.moved_ctx? (k : Nat) : (s.moved e w).ctx? k = s.ctx? k := by simp [State.ctx?]

@[simp] theorem Iss.ready_id : (w.ready e).id = w.id := rfl
@[simp] theorem Iss.ready_v : (w.ready e).v = w.v := rfl
@[simp] theorem Iss.ready_sh : (w.ready e).sh = w.sh := rfl
@[simp] theorem Iss.ready_t : (w.ready e).t = w.t := rfl
@[simp] theorem Iss.ready_c : (w.ready e).c = w.c := rfl

end Moved

/-- The group after a word has moved past it. -/
theorem State.grp?_moved {s : State} {e : Entry} {w : Iss} (h : s.grp? w.id = some w.g) :
    (s.moved e w).grp? w.id = some ((w.ready e).g.advance (w.ready e).g w.v w.sh) := by
  have h1 : (s.arrived e w).grp? w.id = some (w.ready e).g := by
    rw [State.arrived, State.grp?_coreFills, State.grp?_countStall]
    exact State.grp?_updGrp_self _ h
  have h2 := State.grp?_updGrp_self (fun g : Group => g.advance (w.ready e).g (w.ready e).v (w.ready e).sh) h1
  show ((((s.arrived e w).updGrp w.id _).perfAdd w.id 2 _).grp? w.id) = _
  rw [State.grp?_perfAdd]
  exact h2

/-- Every other group stands as before. -/
theorem State.grp?_moved_other {s : State} {e : Entry} {w : Iss} {k : Nat × Nat} (hk : k ≠ w.id) : (s.moved e w).grp? k = s.grp? k := by
  show ((((s.arrived e w).updGrp w.id _).perfAdd w.id 2 _).grp? k) = _
  rw [State.grp?_perfAdd]
  refine (State.grp?_updGrp_other _ hk).trans ?_
  rw [State.arrived, State.grp?_coreFills, State.grp?_countStall]
  exact State.grp?_updGrp_other _ hk

/-- A group with nothing reserved waits for nothing. -/
theorem Group.awaited_idle {g : Group} (h : g.resv = []) (v : View) (sh : Shape) (x : Touch) : g.awaited v sh x = g := by
  cases g
  simp only at h
  subst h
  rfl

/-! ### From a meaning to its statement -/

/-- A word that writes a value. -/
theorem wordWrites_of {i : Instr} {e : Entry} {v : View} {wide : Bool} {x : Iss → Nat → Nat}
    (h : ∀ s, exec i s = runVal e v wide s x) : wordWrites i e v wide x := by
  intro s w hw
  have hv := (State.iss?_some hw.1).1
  rw [h, runVal_ok hw]
  subst hv
  rfl

/-- A long-latency word. -/
theorem wordReserves_of {i : Instr} {e : Entry} {v : View} {wide load : Bool} {x : Iss → Nat → Nat}
    (h : ∀ s, exec i s = runLater e v wide load s x) : wordReserves i e v wide load x := by
  intro s w hw
  have hv := (State.iss?_some hw.1).1
  rw [h, runLater_ok hw]
  subst hv
  rfl

/-- A word that acts on its group. -/
theorem wordActs_of {i : Instr} {e : Entry} {v : View} {f : Iss → Group → Group}
    (h : ∀ s, exec i s = runReg e v s f) : wordActs i e v f := fun s w hw => by
  rw [h, runReg_ok hw]
  rfl

/-- A word whose effect goes through where p holds. -/
theorem wordDoes_of {i : Instr} {e : Entry} {v : View} {p : Iss → State → Prop} {f : Iss → State → State}
    {eff : Iss → State → Except Exc State} (h : ∀ s, exec i s = runWord e v s eff)
    (he : ∀ w s, w.v = v → p w s → eff w s = .ok (f w s)) : wordDoes i e v p f := fun s w hw hp => by
  rw [h, runWord_ok hw (he _ _ (State.iss?_some hw.1).1 hp)]

/-- A word whose effect raises a fault where p holds. -/
theorem wordFaults_of {i : Instr} {e : Entry} {v : View} {p : Iss → State → Prop} {x : Iss → Exc}
    {eff : Iss → State → Except Exc State} (h : ∀ s, exec i s = runWord e v s eff)
    (he : ∀ w s, w.v = v → p w s → eff w s = .error (x w)) : wordFaults i e v p x := fun s w hw hp => by
  rw [h, runWord_late hw.1 hw.2.1 hw.2.2.1 (he _ _ (State.iss?_some hw.1).1 hp) (by rw [hw.2.2.2]; simp), hw.2.2.2, State.countWalks_nil]

/-- A terminal word that ends its clause where p holds. -/
theorem wordEnds_of {i : Instr} {e : Entry} {v : View} {p : Iss → Prop} {f : Iss → Group → Group}
    {eff : Iss → State → Except Exc State} (h : ∀ s, exec i s = runWord e v s eff)
    (he : ∀ w s, w.v = v → p w → eff w s = .ok (s.endClause w (f w))) : wordEnds i e v p f := fun s w hw hp => by
  rw [h, runWord_ok hw (he _ _ (State.iss?_some hw.1).1 hp)]
  rfl

/-! ### Updates of the issuing group -/

/-- Every group with the number `id`, in every team of that number, is g. -/
def State.allGrp (s : State) (id : Nat × Nat) (g : Group) : Prop :=
  ∀ t ∈ s.teams, t.id = id.1 → ∀ x, t.groups[id.2]? = some x → x = g

theorem State.updGrp_congr {s : State} {id : Nat × Nat} {g : Group} {f f' : Group → Group} (h : s.allGrp id g) (hf : f g = f' g) :
    s.updGrp id f = s.updGrp id f' := by
  have : s.teams.map (fun t => if t.id == id.1 then t.updGrp id.2 f else t) = s.teams.map fun t => if t.id == id.1 then t.updGrp id.2 f' else t := by
    apply List.map_congr_left
    intro t ht
    by_cases hi : t.id = id.1
    · simp only [hi, beq_self_eq_true, if_true, Team.updGrp]
      congr 1
      apply List.ext_getElem? 
      intro k
      simp only [List.getElem?_modify]
      cases hk : t.groups[k]? with
      | none => rfl
      | some x =>
        by_cases hj : id.2 = k
        · subst hj
          simp [h t ht hi x hk, hf]
        · simp [hj]
    · simp [hi]
  simp only [State.updGrp, State.updTeam, this]

theorem State.allGrp_updGrp {s : State} {id : Nat × Nat} {g : Group} (f : Group → Group) (h : s.allGrp id g) :
    (s.updGrp id f).allGrp id (f g) := by
  intro t ht hi x hx
  simp only [State.updGrp, State.updTeam, List.mem_map] at ht
  obtain ⟨t0, h0, rfl⟩ := ht
  by_cases hj : t0.id = id.1
  · simp only [hj, beq_self_eq_true, if_true, Team.updGrp_get] at hx
    cases h1 : t0.groups[id.2]? with
    | none => simp [h1] at hx
    | some y => simp [h1, h t0 h0 hj y h1] at hx; exact hx.symm
  · simp only [beq_iff_eq, hj, if_false] at hi

theorem State.allGrp_set (s : State) (id : Nat × Nat) (g : Group) : (s.updGrp id fun _ => g).allGrp id g := by
  intro t ht hi x hx
  simp only [State.updGrp, State.updTeam, List.mem_map] at ht
  obtain ⟨t0, h0, rfl⟩ := ht
  by_cases hj : t0.id = id.1
  · simp only [hj, beq_self_eq_true, if_true, Team.updGrp_get] at hx
    cases h1 : t0.groups[id.2]? with
    | none => simp [h1] at hx
    | some y => simp [h1] at hx; exact hx.symm
  · simp only [beq_iff_eq, hj, if_false] at hi

theorem State.allGrp_updTeam {s : State} {id : Nat × Nat} {g : Group} (n : Nat) (f : Team → Team) (hi : ∀ t, (f t).id = t.id)
    (hg : ∀ t, (f t).groups = t.groups) (h : s.allGrp id g) : (s.updTeam n f).allGrp id g := by
  intro t ht hid x hx
  simp only [State.updTeam, List.mem_map] at ht
  obtain ⟨t0, h0, rfl⟩ := ht
  by_cases hj : t0.id = n
  · simp only [hj, beq_self_eq_true, if_true, hi, hg] at hid hx
    exact h t0 h0 (by rw [hj]; exact hid) x hx
  · simp only [beq_iff_eq, hj, if_false] at hid hx
    exact h t0 h0 hid x hx

theorem State.allGrp_perfAdd {s : State} {id : Nat × Nat} {g : Group} (at_ : Nat × Nat) (n m : Nat) (h : s.allGrp id g) :
    (s.perfAdd at_ n m).allGrp id g :=
  State.allGrp_updTeam at_.1 (fun t : Team => t.updCount (t.half at_.2) fun c => c.add n m) (fun _ => rfl) (fun _ => rfl) h

theorem State.allGrp_coreFills {s : State} {id : Nat × Nat} {g : Group} (c : Ctx) (core : Nat) (at_ : Nat × Nat) (vas : List Nat)
    (h : s.allGrp id g) : (s.coreFills c core at_ vas).allGrp id g := by
  unfold State.coreFills
  induction vas generalizing s with
  | nil => exact h
  | cons va vas ih =>
    rw [List.foldl_cons]
    apply ih
    rcases s.coreFill_form c core at_ va with h1 | ⟨_, h1⟩ <;> rw [h1]
    · exact h
    · exact State.allGrp_perfAdd at_ 8 1 h

/-- In the state past a word every group of its number is the one that has moved on. -/
theorem State.allGrp_moved (s : State) (e : Entry) (w : Iss) :
    (s.moved e w).allGrp w.id ((w.ready e).g.advance (w.ready e).g w.v w.sh) := by
  have h0 : (s.arrived e w).allGrp w.id (w.ready e).g := by
    unfold State.arrived
    apply State.allGrp_coreFills
    rcases State.countStall_or (s.updGrp w.id fun _ => (w.ready e).g) e w with h | ⟨n, h⟩ <;> rw [h]
    · exact s.allGrp_set w.id (w.ready e).g
    · exact State.allGrp_perfAdd _ _ _ (s.allGrp_set w.id (w.ready e).g)
  have h := State.allGrp_updGrp (fun g : Group => g.advance (w.ready e).g (w.ready e).v (w.ready e).sh) h0
  exact State.allGrp_perfAdd w.id 2 (w.ready e).passes h

/-- Two updates of the issuing group that agree on the group past the word. -/
theorem State.moved_congr (s : State) (e : Entry) (w : Iss) {f f' : Group → Group}
    (h : f ((w.ready e).g.advance (w.ready e).g w.v w.sh) = f' ((w.ready e).g.advance (w.ready e).g w.v w.sh)) :
    (s.moved e w).updGrp w.id f = (s.moved e w).updGrp w.id f' :=
  State.updGrp_congr (s.allGrp_moved e w) h

/-! ### What arrivals and moving on leave of a group -/

theorem Group.fill_form (g : Group) (r : Resv) : ∃ th s, g.fill r = { g with threads := th, s := s } := by
  unfold Group.fill
  split
  · split
    · exact ⟨_, _, rfl⟩
    · exact ⟨_, _, rfl⟩
  · exact ⟨_, g.s, rfl⟩

/-- A delivery writes registers and reservations only. -/
theorem Group.deliver_form (g : Group) (p : Resv → Bool) : ∃ th s r, g.deliver p = { g with threads := th, s := s, resv := r } := by
  have key : ∀ (l : List Resv) (g : Group), ∃ th s, l.foldl Group.fill g = { g with threads := th, s := s } := by
    intro l
    induction l with
    | nil => intro g; exact ⟨g.threads, g.s, rfl⟩
    | cons r l ih =>
      intro g
      obtain ⟨th, s, h⟩ := Group.fill_form g r
      obtain ⟨th', s', h'⟩ := ih (g.fill r)
      exact ⟨th', s', by rw [List.foldl_cons, h', h]⟩
  obtain ⟨th, s, h⟩ := key (g.resv.filter fun r => p r && !r.arrived) g
  exact ⟨th, s, _, by unfold Group.deliver; rw [h]⟩

/-- The group with the values that a word needs differs in registers and reservations only. -/
theorem Iss.ready_form (e : Entry) (w : Iss) : ∃ th s r, (w.ready e).g = { w.g with threads := th, s := s, resv := r } :=
  Group.deliver_form _ _

@[simp] theorem Iss.ready_mask (e : Entry) (w : Iss) : (w.ready e).g.mask = w.g.mask := by obtain ⟨_, _, _, h⟩ := w.ready_form e; rw [h]
@[simp] theorem Iss.ready_live (e : Entry) (w : Iss) : (w.ready e).g.live = w.g.live := by obtain ⟨_, _, _, h⟩ := w.ready_form e; rw [h]
@[simp] theorem Iss.ready_stk (e : Entry) (w : Iss) : (w.ready e).g.stk = w.g.stk := by obtain ⟨_, _, _, h⟩ := w.ready_form e; rw [h]
@[simp] theorem Iss.ready_idx (e : Entry) (w : Iss) : (w.ready e).g.idx = w.g.idx := by obtain ⟨_, _, _, h⟩ := w.ready_form e; rw [h]
@[simp] theorem Iss.ready_pc (e : Entry) (w : Iss) : (w.ready e).g.pc = w.g.pc := by obtain ⟨_, _, _, h⟩ := w.ready_form e; rw [h]
@[simp] theorem Iss.ready_pos (e : Entry) (w : Iss) : (w.ready e).g.pos = w.g.pos := by obtain ⟨_, _, _, h⟩ := w.ready_form e; rw [h]
@[simp] theorem Iss.ready_clause (e : Entry) (w : Iss) : (w.ready e).g.clause = w.g.clause := by obtain ⟨_, _, _, h⟩ := w.ready_form e; rw [h]
@[simp] theorem Iss.ready_wordPc (e : Entry) (w : Iss) : (w.ready e).g.wordPc = w.g.wordPc := by simp [Group.wordPc]
@[simp] theorem Iss.ready_nextClause (e : Entry) (w : Iss) : (w.ready e).g.nextClause = w.g.nextClause := by simp [Group.nextClause]

/-- Moving past a word writes latches, reservations and the position only. -/
theorem Group.advance_form (g src : Group) (v : View) (sh : Shape) : ∃ th ha r pos pc cl tc rw ts,
    g.advance src v sh = { g with threads := th, hage := ha, resv := r, pos := pos, pc := pc, clause := cl, touched := tc, resw := rw, tslots := ts } := by
  have h1 : ∃ th ha r, g.age.captureAll src v sh = { g with threads := th, hage := ha, resv := r } := by
    unfold Group.captureAll
    split
    · exact ⟨_, _, _, rfl⟩
    · split <;> split <;> exact ⟨_, _, _, rfl⟩
  obtain ⟨th, ha, r, h⟩ := h1
  unfold Group.advance
  simp only [h]
  split
  · exact ⟨_, _, _, _, _, _, _, _, _, rfl⟩
  · exact ⟨_, _, _, _, _, _, _, _, _, rfl⟩

end Sys2Proof.Machine
end

