-- ==== Sys2Proof/Laws/Memory.lean ====
section
/-! SUPPORT. The canonical form of memory: every operation keeps it, and reading after a write gives what was written there and
what stood before everywhere else. -/

namespace Sys2Proof.Machine

/-! ### The canonical form -/

/-- Every cell of a memory lies at or above a bound. -/
def Memory.above (a : Nat) (m : Memory) : Prop := ∀ c ∈ m, a ≤ c.1

theorem Memory.wf_nil : Memory.wf [] = true := rfl

/-- A memory in canonical form: its head is not 0, the rest lies above it, and the rest is in canonical form. -/
theorem Memory.wf_cons (c : Host.Cell) (m : Memory) :
    Memory.wf (c :: m) = true ↔ c.2 ≠ 0#8 ∧ Memory.above (c.1 + 1) m ∧ Memory.wf m = true := by
  induction m generalizing c with
  | nil => simp [Memory.wf, Memory.above]
  | cons d m ih =>
    have h := ih d
    simp only [Memory.wf, Bool.and_eq_true, bne_iff_ne, ne_eq, decide_eq_true_eq, Memory.above, List.mem_cons] at *
    constructor
    · rintro ⟨⟨hc, hlt⟩, hw⟩
      refine ⟨hc, ?_, hw⟩
      rintro x (rfl | hx)
      · omega
      · have := (h.1 hw).2.1 x hx
        omega
    · rintro ⟨hc, ha, hw⟩
      exact ⟨⟨hc, by have := ha d (Or.inl rfl); omega⟩, hw⟩

theorem Memory.above_mono {a b : Nat} {m : Memory} (h : Memory.above b m) (hab : a ≤ b) : Memory.above a m :=
  fun c hc => Nat.le_trans hab (h c hc)

/-- A write reaches no address below the one written and the cells. -/
theorem Memory.set_above {m : Memory} {a lo : Nat} {b : Byte} (h : Memory.above lo m) (ha : lo ≤ a) : Memory.above lo (m.set a b) := by
  induction m with
  | nil => simp only [Memory.set]; split <;> simp_all [Memory.above]
  | cons c m ih =>
    have ih := ih fun x hx => h x (List.mem_cons_of_mem _ hx)
    have hc := h c List.mem_cons_self
    simp only [Memory.set]
    split
    · split
      · exact fun x hx => h x (List.mem_cons_of_mem _ hx)
      · rintro x (_ | ⟨_, hx⟩)
        · exact ha
        · exact h x (List.mem_cons_of_mem _ hx)
    · split
      · split
        · exact h
        · rintro x (_ | ⟨_, hx⟩)
          · exact ha
          · exact h x hx
      · rintro x (_ | ⟨_, hx⟩)
        · exact hc
        · exact ih x hx

/-- Writing a byte keeps the canonical form. -/
theorem Memory.set_wf {m : Memory} (a : Nat) (b : Byte) (h : m.wf = true) : (m.set a b).wf = true := by
  induction m with
  | nil => simp only [Memory.set]; split <;> simp_all [Memory.wf]
  | cons c m ih =>
    obtain ⟨hc, ha, hm⟩ := (Memory.wf_cons c m).1 h
    simp only [Memory.set]
    split
    · split
      · exact hm
      · exact (Memory.wf_cons _ _).2 ⟨by assumption, by simp_all, hm⟩
    · split
      · split
        · exact h
        · refine (Memory.wf_cons _ _).2 ⟨by assumption, ?_, h⟩
          rintro x (_ | ⟨_, hx⟩)
          · omega
          · have := ha x hx; simp only at *; omega
      · exact (Memory.wf_cons _ _).2 ⟨hc, Memory.set_above ha (by omega), ih hm⟩

/-- Writing bytes keeps the canonical form. -/
theorem Memory.write_wf {m : Memory} (a : Nat) (bs : List Byte) (h : m.wf = true) : (m.write a bs).wf = true := by
  induction bs generalizing m a with
  | nil => exact h
  | cons b bs ih => exact ih _ (Memory.set_wf a b h)

/-- Writing a number keeps the canonical form. -/
theorem Memory.wr_wf {m : Memory} (a n x : Nat) (h : m.wf = true) : (m.wr a n x).wf = true := Memory.write_wf a _ h

/-- Dropping cells keeps the canonical form. -/
theorem Memory.filter_wf {m : Memory} (p : Host.Cell → Bool) (h : m.wf = true) : Memory.wf (m.filter p) = true := by
  induction m with
  | nil => rfl
  | cons c m ih =>
    obtain ⟨hc, ha, hm⟩ := (Memory.wf_cons c m).1 h
    simp only [List.filter_cons]
    split
    · exact (Memory.wf_cons _ _).2 ⟨hc, fun x hx => ha x (List.mem_filter.1 hx).1, ih hm⟩
    · exact ih hm

/-! ### Reading after writing -/

/-- Below every cell a memory reads 0. -/
theorem Memory.get_below {m : Memory} {a : Nat} (h : Memory.above (a + 1) m) : m.get a = 0#8 := by
  cases m with
  | nil => rfl
  | cons c m =>
    have := h c List.mem_cons_self
    simp only [Memory.get]
    rw [if_neg (by omega), if_pos (by omega)]

/-- Reading after a write of a byte. -/
theorem Memory.get_set {m : Memory} (h : m.wf = true) (a : Nat) (b : Byte) (x : Nat) :
    (m.set a b).get x = if x = a then b else m.get x := by
  induction m with
  | nil =>
    simp only [Memory.set]
    split
    · rename_i hb; simp [Memory.get, hb]
    · simp only [Memory.get]
      by_cases hx : x = a
      · simp [hx]
      · rw [if_neg (by omega), if_neg hx]; split <;> rfl
  | cons c m ih =>
    obtain ⟨hc, ha, hm⟩ := (Memory.wf_cons c m).1 h
    have ih := ih hm
    simp only [Memory.set]
    by_cases h1 : c.1 = a
    · rw [if_pos h1]
      have hbelow : Memory.get m a = 0#8 := Memory.get_below (h1 ▸ ha)
      split
      · rename_i hb
        by_cases hx : x = a
        · subst hx; rw [if_pos rfl, hb, hbelow]
        · rw [if_neg hx]; simp only [Memory.get]
          rw [if_neg (by omega)]
          split
          · rename_i hlt; exact Memory.get_below (Memory.above_mono ha (by omega))
          · rfl
      · simp only [Memory.get]
        by_cases hx : x = a
        · simp [hx]
        · have hx' : ¬ a = x := fun e => hx e.symm
          simp [hx, hx', h1]
    · rw [if_neg h1]
      by_cases h2 : a < c.1
      · rw [if_pos h2]
        split
        · rename_i hb
          by_cases hx : x = a
          · subst hx; rw [if_pos rfl, hb]; simp only [Memory.get]; rw [if_neg h1, if_pos h2]
          · rw [if_neg hx]
        · simp only [Memory.get]
          by_cases hx : x = a
          · simp [hx]
          · rw [if_neg (by omega), if_neg hx]
            split
            · rename_i hlt; rw [if_neg (by omega), if_pos (by omega)]
            · rfl
      · rw [if_neg h2]
        simp only [Memory.get]
        rw [ih]
        by_cases hx : x = a
        · subst hx; rw [if_neg (by omega), if_neg (by omega), if_pos rfl]; simp
        · simp [hx]

/-- Reading after a write of bytes, below, inside and above the span. -/
theorem Memory.get_write {m : Memory} (h : m.wf = true) (a : Nat) (bs : List Byte) (x : Nat) :
    (m.write a bs).get x = if a ≤ x ∧ x < a + bs.length then bs.getD (x - a) 0#8 else m.get x := by
  induction bs generalizing m a with
  | nil =>
    have : ¬ (a ≤ x ∧ x < a) := by omega
    simp [Memory.write, this]
  | cons b bs ih =>
    simp only [Memory.write]
    rw [ih (Memory.set_wf a b h), Memory.get_set h]
    simp only [List.length_cons]
    by_cases hx : x = a
    · subst hx
      rw [if_neg (by omega), if_pos rfl, if_pos (by omega)]
      simp
    · by_cases hin : a + 1 ≤ x ∧ x < a + 1 + bs.length
      · rw [if_pos hin, if_pos (by omega)]
        have : x - a = (x - (a + 1)) + 1 := by omega
        rw [this]; simp
      · rw [if_neg hin, if_neg hx, if_neg (by omega)]

/-- A byte outside the span written reads as before. -/
theorem Memory.get_write_other {m : Memory} (h : m.wf = true) {a : Nat} {bs : List Byte} {x : Nat} (hx : x < a ∨ a + bs.length ≤ x) :
    (m.write a bs).get x = m.get x := by
  rw [Memory.get_write h, if_neg (by omega)]

/-! ### Little-endian numbers -/

@[simp] theorem leBytes_length (n x : Nat) : (leBytes n x).length = n := by
  induction n generalizing x with
  | zero => rfl
  | succ n ih => simp [leBytes, ih]

/-- The number of the bytes of a number. -/
theorem leNat_leBytes (n x : Nat) : leNat (leBytes n x) = x % 2 ^ (8 * n) := by
  induction n generalizing x with
  | zero => simp [leBytes, leNat, Nat.mod_one]
  | succ n ih =>
    simp only [leBytes, leNat, ih, BitVec.toNat_ofNat]
    have : 2 ^ (8 * (n + 1)) = 256 * 2 ^ (8 * n) := by rw [Nat.mul_add, Nat.pow_add]; omega
    rw [this, Nat.mod_mul]

@[simp] theorem Memory.bytes_length (m : Memory) (a n : Nat) : (m.bytes a n).length = n := by simp [Memory.bytes]

/-- Bytes read back after they are written. -/
theorem Memory.bytes_write {m : Memory} (h : m.wf = true) (a : Nat) (bs : List Byte) : (m.write a bs).bytes a bs.length = bs := by
  apply List.ext_getElem
  · simp
  · intro i h1 h2
    simp only [Memory.bytes, List.getElem_map, List.getElem_range]
    rw [Memory.get_write h, if_pos (by omega)]
    simp [h2]

/-- A number read back after it is written. -/
theorem Memory.rd_wr {m : Memory} (h : m.wf = true) (a n x : Nat) : (m.wr a n x).rd a n = x % 2 ^ (8 * n) := by
  have := Memory.bytes_write h a (leBytes n x)
  rw [leBytes_length] at this
  rw [Memory.rd, Memory.wr, this, leNat_leBytes]

end Sys2Proof.Machine
end

