-- ==== Sys2Proof/Laws/Words.lean ====
section
/-! SUPPORT. The fields of a word built from fields, and the word built from the fields of a word (R100, R101). -/

namespace Sys2Proof

/-! ### Fields of an appended word -/

theorem ext_hi {n m k : Nat} (x : BitVec n) (y : BitVec m) (s l : Nat) (h : s = m + k) :
    (x ++ y).extractLsb' s l = x.extractLsb' k l := by
  rw [BitVec.extractLsb'_append_eq_of_le (by omega)]; congr 1; omega

theorem ext_lo {n m : Nat} (x : BitVec n) (y : BitVec m) (s l : Nat) (h : s + l ≤ m) : (x ++ y).extractLsb' s l = y.extractLsb' s l :=
  BitVec.extractLsb'_append_eq_of_add_le h

theorem bit_hi {n m k : Nat} (x : BitVec n) (y : BitVec m) (s : Nat) (h : s = m + k) : (x ++ y).getLsbD s = x.getLsbD k := by
  rw [BitVec.getLsbD_append, if_neg (by omega)]; congr 1; omega

theorem bit_lo {n m : Nat} (x : BitVec n) (y : BitVec m) (s : Nat) (h : s < m) : (x ++ y).getLsbD s = y.getLsbD s := by
  rw [BitVec.getLsbD_append, if_pos h]

/-! ### The common fields -/

/-- The common fields read back from their 17 bits. -/
def hdrBack (x : BitVec 17) : Hdr :=
  { look := x.extractLsb' 13 4, hold := x.extractLsb' 11 2, u := x.getLsbD 10, pred := x.extractLsb' 7 3, pneg := x.getLsbD 6,
    dst := x.extractLsb' 0 6 }

theorem hdrBack_bits (h : Hdr) : hdrBack h.bits = h := by
  obtain ⟨look, hold, u, pred, pneg, dst⟩ := h
  simp only [hdrBack, Hdr.bits, Hdr.mk.injEq]
  refine ⟨?_, ?_, ?_, ?_, ?_, ?_⟩
  · rw [ext_hi (k := 7), ext_hi (k := 6), ext_hi (k := 3), ext_hi (k := 2), ext_hi (k := 0), BitVec.extractLsb'_eq_self] <;> rfl
  · rw [ext_hi (k := 5), ext_hi (k := 4), ext_hi (k := 1), ext_hi (k := 0), ext_lo, BitVec.extractLsb'_eq_self] <;> decide
  · rw [bit_hi (k := 4), bit_hi (k := 3), bit_hi (k := 0), bit_lo] <;> simp
  · rw [ext_hi (k := 1), ext_hi (k := 0), ext_lo, BitVec.extractLsb'_eq_self] <;> decide
  · rw [bit_hi (k := 0), bit_lo] <;> simp
  · rw [ext_lo, BitVec.extractLsb'_eq_self]; decide

/-- A field of a field. -/
theorem ext_ext {n : Nat} (w : W64) (s a l : Nat) (h : a + l ≤ n) : (w.extractLsb' s n).extractLsb' a l = w.extractLsb' (s + a) l := by
  apply BitVec.eq_of_getLsbD_eq
  intro i hi
  simp only [BitVec.getLsbD_extractLsb', Nat.add_assoc]
  rw [decide_eq_true (by omega : a + i < n), Bool.true_and]

/-- The common fields of a word whose bits [53:37] are known. -/
theorem hdrOf_of {w : W64} {x : BitVec 17} (h : w.extractLsb' 37 17 = x) : hdrOf w = hdrBack x := by
  subst h
  simp only [hdrOf, hdrBack, Hdr.mk.injEq]
  rw [ext_ext _ _ _ _ (by decide), ext_ext _ _ _ _ (by decide), ext_ext _ _ _ _ (by decide), ext_ext _ _ _ _ (by decide)]
  simp

/-! ### One format after the other -/

theorem FR.bits_hdr (w : FR) (opc : BitVec 10) : hdrOf (w.bits opc) = w.h := by
  rw [hdrOf_of (x := w.h.bits), hdrBack_bits]
  unfold FR.bits
  rw [ext_hi (k := 21), ext_hi (k := 14), ext_hi (k := 7), ext_hi (k := 0), ext_lo, BitVec.extractLsb'_eq_self] <;> decide
theorem FR.opc_bits (w : FR) (opc : BitVec 10) : opcOf (w.bits opc) = opc.toNat := by
  unfold opcOf FR.bits
  rw [ext_hi (k := 38), ext_hi (k := 31), ext_hi (k := 24), ext_hi (k := 17), ext_hi (k := 0), BitVec.extractLsb'_eq_self] <;> rfl
theorem frOf_bits (w : FR) (opc : BitVec 10) : frOf (w.bits opc) = w := by
  have h := w.bits_hdr opc
  obtain ⟨hd, a, b, c, func⟩ := w
  simp only [frOf, FR.mk.injEq]
  refine ⟨h, ?_, ?_, ?_, ?_⟩ <;> unfold FR.bits
  · rw [ext_hi (k := 14), ext_hi (k := 7), ext_hi (k := 0), ext_lo, BitVec.extractLsb'_eq_self] <;> decide
  · rw [ext_hi (k := 7), ext_hi (k := 0), ext_lo, BitVec.extractLsb'_eq_self] <;> decide
  · rw [ext_hi (k := 0), ext_lo, BitVec.extractLsb'_eq_self] <;> decide
  · rw [ext_lo, BitVec.extractLsb'_eq_self]; decide

theorem FI.bits_hdr (w : FI) (opc : BitVec 10) : hdrOf (w.bits opc) = w.h := by
  rw [hdrOf_of (x := w.h.bits), hdrBack_bits]
  unfold FI.bits
  rw [ext_hi (k := 7), ext_hi (k := 0), ext_lo, BitVec.extractLsb'_eq_self] <;> decide
theorem FI.opc_bits (w : FI) (opc : BitVec 10) : opcOf (w.bits opc) = opc.toNat := by
  unfold opcOf FI.bits
  rw [ext_hi (k := 24), ext_hi (k := 17), ext_hi (k := 0), BitVec.extractLsb'_eq_self] <;> rfl
theorem fiOf_bits (w : FI) (opc : BitVec 10) : fiOf (w.bits opc) = w := by
  have h := w.bits_hdr opc
  obtain ⟨hd, a, imm⟩ := w
  simp only [fiOf, FI.mk.injEq]
  refine ⟨h, ?_, ?_⟩ <;> unfold FI.bits
  · rw [ext_hi (k := 0), ext_lo, BitVec.extractLsb'_eq_self] <;> decide
  · rw [ext_lo, BitVec.extractLsb'_eq_self]; decide

theorem FM.bits_hdr (w : FM) (opc : BitVec 10) : hdrOf (w.bits opc) = w.h := by
  rw [hdrOf_of (x := w.h.bits), hdrBack_bits]
  unfold FM.bits
  rw [ext_hi (k := 14), ext_hi (k := 7), ext_hi (k := 0), ext_lo, BitVec.extractLsb'_eq_self] <;> decide
theorem FM.opc_bits (w : FM) (opc : BitVec 10) : opcOf (w.bits opc) = opc.toNat := by
  unfold opcOf FM.bits
  rw [ext_hi (k := 31), ext_hi (k := 24), ext_hi (k := 17), ext_hi (k := 0), BitVec.extractLsb'_eq_self] <;> rfl
theorem fmOf_bits (w : FM) (opc : BitVec 10) : fmOf (w.bits opc) = w := by
  have h := w.bits_hdr opc
  obtain ⟨hd, a, b, ofs⟩ := w
  simp only [fmOf, FM.mk.injEq]
  refine ⟨h, ?_, ?_, ?_⟩ <;> unfold FM.bits
  · rw [ext_hi (k := 7), ext_hi (k := 0), ext_lo, BitVec.extractLsb'_eq_self] <;> decide
  · rw [ext_hi (k := 0), ext_lo, BitVec.extractLsb'_eq_self] <;> decide
  · rw [ext_lo, BitVec.extractLsb'_eq_self]; decide

theorem FB.bits_hdr (w : FB) (opc : BitVec 10) : hdrOf (w.bits opc) = w.h := by
  rw [hdrOf_of (x := w.h.bits), hdrBack_bits]
  unfold FB.bits
  rw [ext_hi (k := 0), ext_lo, BitVec.extractLsb'_eq_self] <;> decide
theorem FB.opc_bits (w : FB) (opc : BitVec 10) : opcOf (w.bits opc) = opc.toNat := by
  unfold opcOf FB.bits
  rw [ext_hi (k := 17), ext_hi (k := 0), BitVec.extractLsb'_eq_self] <;> rfl
theorem fbOf_bits (w : FB) (opc : BitVec 10) : fbOf (w.bits opc) = w := by
  have h := w.bits_hdr opc
  obtain ⟨hd, ofs⟩ := w
  simp only [fbOf, FB.mk.injEq]
  refine ⟨h, ?_⟩
  unfold FB.bits
  rw [ext_lo, BitVec.extractLsb'_eq_self]; decide

theorem FS.bits_hdr (w : FS) (opc : BitVec 10) : hdrOf (w.bits opc) = w.h := by
  rw [hdrOf_of (x := w.h.bits), hdrBack_bits]
  unfold FS.bits
  rw [ext_hi (k := 21), ext_hi (k := 7), ext_hi (k := 0), ext_lo, BitVec.extractLsb'_eq_self] <;> decide
theorem FS.opc_bits (w : FS) (opc : BitVec 10) : opcOf (w.bits opc) = opc.toNat := by
  unfold opcOf FS.bits
  rw [ext_hi (k := 38), ext_hi (k := 24), ext_hi (k := 17), ext_hi (k := 0), BitVec.extractLsb'_eq_self] <;> rfl
theorem fsOf_bits (w : FS) (opc : BitVec 10) : fsOf (w.bits opc) = w := by
  have h := w.bits_hdr opc
  obtain ⟨hd, a, rsv, sel⟩ := w
  simp only [fsOf, FS.mk.injEq]
  refine ⟨h, ?_, ?_, ?_⟩ <;> unfold FS.bits
  · rw [ext_hi (k := 14), ext_hi (k := 0), ext_lo, BitVec.extractLsb'_eq_self] <;> decide
  · rw [ext_hi (k := 0), ext_lo, BitVec.extractLsb'_eq_self] <;> decide
  · rw [ext_lo, BitVec.extractLsb'_eq_self]; decide

/-! ### A word from its own fields -/

/-- Two neighbouring fields of a word side by side. -/
theorem ext_join (w : W64) (t s l k : Nat) (h : t = s + l) : w.extractLsb' t k ++ w.extractLsb' s l = w.extractLsb' s (k + l) := by
  subst h
  apply BitVec.eq_of_getLsbD_eq
  intro i hi
  simp only [BitVec.getLsbD_append, BitVec.getLsbD_extractLsb']
  split
  · rename_i h; simp [h]; omega
  · rename_i h
    rw [show s + l + (i - l) = s + i by omega, decide_eq_true (by omega : i - l < k), decide_eq_true (by omega : i < k + l)]

/-- One bit of a word as a field. -/
theorem ext_bit (w : W64) (s : Nat) : BitVec.ofBool (w.getLsbD s) = w.extractLsb' s 1 := by
  apply BitVec.eq_of_getLsbD_eq
  intro i hi
  have : i = 0 := by omega
  subst this
  simp

/-- Bits [53:37] of a word from its common fields. -/
theorem hdrOf_back (w : W64) : (hdrOf w).bits = w.extractLsb' 37 17 := by
  simp only [hdrOf, Hdr.bits, ext_bit]
  rw [ext_join w 50 48 _ _ rfl, ext_join w 48 47 _ _ rfl, ext_join w 47 44 _ _ rfl, ext_join w 44 43 _ _ rfl, ext_join w 43 37 _ _ rfl]

/-- The opcode field of a word whose opcode is known. -/
theorem opc_back {w : W64} {opc : BitVec 10} (h : opcOf w = opc.toNat) : opc = w.extractLsb' 54 10 :=
  BitVec.eq_of_toNat_eq h.symm

theorem ext_all (w : W64) : w.extractLsb' 0 64 = w := BitVec.extractLsb'_eq_self

theorem frOf_back {w : W64} {opc : BitVec 10} (h : opcOf w = opc.toNat) : (frOf w).bits opc = w := by
  simp only [FR.bits, frOf, hdrOf_back, opc_back h]
  rw [ext_join w 54 37 _ _ rfl, ext_join w 37 30 _ _ rfl, ext_join w 30 23 _ _ rfl, ext_join w 23 16 _ _ rfl, ext_join w 16 0 _ _ rfl]
  exact ext_all w
theorem fiOf_back {w : W64} {opc : BitVec 10} (h : opcOf w = opc.toNat) : (fiOf w).bits opc = w := by
  simp only [FI.bits, fiOf, hdrOf_back, opc_back h]
  rw [ext_join w 54 37 _ _ rfl, ext_join w 37 30 _ _ rfl, ext_join w 30 0 _ _ rfl]
  exact ext_all w
theorem fmOf_back {w : W64} {opc : BitVec 10} (h : opcOf w = opc.toNat) : (fmOf w).bits opc = w := by
  simp only [FM.bits, fmOf, hdrOf_back, opc_back h]
  rw [ext_join w 54 37 _ _ rfl, ext_join w 37 30 _ _ rfl, ext_join w 30 23 _ _ rfl, ext_join w 23 0 _ _ rfl]
  exact ext_all w
theorem fbOf_back {w : W64} {opc : BitVec 10} (h : opcOf w = opc.toNat) : (fbOf w).bits opc = w := by
  simp only [FB.bits, fbOf, hdrOf_back, opc_back h]
  rw [ext_join w 54 37 _ _ rfl, ext_join w 37 0 _ _ rfl]
  exact ext_all w
theorem fsOf_back {w : W64} {opc : BitVec 10} (h : opcOf w = opc.toNat) : (fsOf w).bits opc = w := by
  simp only [FS.bits, fsOf, hdrOf_back, opc_back h]
  rw [ext_join w 54 37 _ _ rfl, ext_join w 37 30 _ _ rfl, ext_join w 30 16 _ _ rfl, ext_join w 16 0 _ _ rfl]
  exact ext_all w

/-! ### Bytes (R103) -/

/-- A word read back from its bytes. -/
theorem wordOf_bytesOf (w : W64) : wordOf (bytesOf w) = some (w, []) := by
  simp only [bytesOf, List.range, List.range.loop, List.map, wordOf]
  rw [ext_join w 56 48 _ _ rfl, ext_join w 48 40 _ _ rfl, ext_join w 40 32 _ _ rfl, ext_join w 32 24 _ _ rfl, ext_join w 24 16 _ _ rfl,
    ext_join w 16 8 _ _ rfl, ext_join w 8 0 _ _ rfl]
  exact congrArg (fun x => some (x, [])) (ext_all w)

theorem decodeBytes_bytesOf {w : W64} {i : Instr} (h : decode w = .ok i) : decodeBytes (bytesOf w) = .ok (i, []) := by
  simp only [decodeBytes, wordOf_bytesOf, h, Except.map]

/-- Decoding of a word whose parse is known and well formed. -/
theorem decode_of {w : W64} {i : Instr} (hp : parse w = some i) (hw : i.wf = true) : decode w = .ok i := by
  simp [decode, hp, hw]

end Sys2Proof
end

