-- ==== Sys2Proof/Laws/PerInstr.lean ====
section
/-! SUPPORT. Per instruction: what decoding answers for the word of a well-formed instruction, and that an event has no word. -/

namespace Sys2Proof.Laws.RoundTrip

/-- A well-formed instruction word decodes, as a word and as bytes, to the instruction that it encodes; an event has no word. -/
def Statement (i : Instr) : Prop :=
  match encode i with
  | some w => i.wf = true → decode w = .ok i ∧ decodeBytes (bytesOf w) = .ok (i, [])
  | none => i.view = none

/-- A word whose parse gives its instruction back. -/
theorem of_parse {i : Instr} {w : W64} (he : encode i = some w) (hp : i.wf = true → parse w = some i) : Statement i := by
  unfold Statement
  rw [he]
  exact fun hw => ⟨decode_of (hp hw) hw, decodeBytes_bytesOf (decode_of (hp hw) hw)⟩

/-- An event. -/
theorem of_event {i : Instr} (he : encode i = none) (hv : i.view = none) : Statement i := by
  unfold Statement
  rw [he]
  exact hv

theorem add (w : FR) : Statement (.add w) := of_parse rfl fun _ => by
  unfold parse
  rw [FR.opc_bits]
  exact congrArg (fun x => some (Instr.add x)) (frOf_bits w _)

theorem sub (w : FR) : Statement (.sub w) := of_parse rfl fun _ => by
  unfold parse
  rw [FR.opc_bits]
  exact congrArg (fun x => some (Instr.sub x)) (frOf_bits w _)

theorem addc (w : FR) : Statement (.addc w) := of_parse rfl fun _ => by
  unfold parse
  rw [FR.opc_bits]
  exact congrArg (fun x => some (Instr.addc x)) (frOf_bits w _)

theorem subb (w : FR) : Statement (.subb w) := of_parse rfl fun _ => by
  unfold parse
  rw [FR.opc_bits]
  exact congrArg (fun x => some (Instr.subb x)) (frOf_bits w _)

theorem mul (w : FR) : Statement (.mul w) := of_parse rfl fun _ => by
  unfold parse
  rw [FR.opc_bits]
  exact congrArg (fun x => some (Instr.mul x)) (frOf_bits w _)

theorem mulh (w : FR) : Statement (.mulh w) := of_parse rfl fun _ => by
  unfold parse
  rw [FR.opc_bits]
  exact congrArg (fun x => some (Instr.mulh x)) (frOf_bits w _)

theorem mad (w : FR) : Statement (.mad w) := of_parse rfl fun _ => by
  unfold parse
  rw [FR.opc_bits]
  exact congrArg (fun x => some (Instr.mad x)) (frOf_bits w _)

theorem neg (w : FR) : Statement (.neg w) := of_parse rfl fun _ => by
  unfold parse
  rw [FR.opc_bits]
  exact congrArg (fun x => some (Instr.neg x)) (frOf_bits w _)

theorem abs (w : FR) : Statement (.abs w) := of_parse rfl fun _ => by
  unfold parse
  rw [FR.opc_bits]
  exact congrArg (fun x => some (Instr.abs x)) (frOf_bits w _)

theorem min (w : FR) : Statement (.min w) := of_parse rfl fun _ => by
  unfold parse
  rw [FR.opc_bits]
  exact congrArg (fun x => some (Instr.min x)) (frOf_bits w _)

theorem max (w : FR) : Statement (.max w) := of_parse rfl fun _ => by
  unfold parse
  rw [FR.opc_bits]
  exact congrArg (fun x => some (Instr.max x)) (frOf_bits w _)

theorem clamp (w : FR) : Statement (.clamp w) := of_parse rfl fun _ => by
  unfold parse
  rw [FR.opc_bits]
  exact congrArg (fun x => some (Instr.clamp x)) (frOf_bits w _)

theorem div (w : FR) : Statement (.div w) := of_parse rfl fun _ => by
  unfold parse
  rw [FR.opc_bits]
  exact congrArg (fun x => some (Instr.div x)) (frOf_bits w _)

theorem rem (w : FR) : Statement (.rem w) := of_parse rfl fun _ => by
  unfold parse
  rw [FR.opc_bits]
  exact congrArg (fun x => some (Instr.rem x)) (frOf_bits w _)

theorem sad (w : FR) : Statement (.sad w) := of_parse rfl fun _ => by
  unfold parse
  rw [FR.opc_bits]
  exact congrArg (fun x => some (Instr.sad x)) (frOf_bits w _)

theorem dot4 (w : FR) : Statement (.dot4 w) := of_parse rfl fun _ => by
  unfold parse
  rw [FR.opc_bits]
  exact congrArg (fun x => some (Instr.dot4 x)) (frOf_bits w _)

theorem and (w : FR) : Statement (.and w) := of_parse rfl fun _ => by
  unfold parse
  rw [FR.opc_bits]
  exact congrArg (fun x => some (Instr.and x)) (frOf_bits w _)

theorem or (w : FR) : Statement (.or w) := of_parse rfl fun _ => by
  unfold parse
  rw [FR.opc_bits]
  exact congrArg (fun x => some (Instr.or x)) (frOf_bits w _)

theorem xor (w : FR) : Statement (.xor w) := of_parse rfl fun _ => by
  unfold parse
  rw [FR.opc_bits]
  exact congrArg (fun x => some (Instr.xor x)) (frOf_bits w _)

theorem not (w : FR) : Statement (.not w) := of_parse rfl fun _ => by
  unfold parse
  rw [FR.opc_bits]
  exact congrArg (fun x => some (Instr.not x)) (frOf_bits w _)

theorem andn (w : FR) : Statement (.andn w) := of_parse rfl fun _ => by
  unfold parse
  rw [FR.opc_bits]
  exact congrArg (fun x => some (Instr.andn x)) (frOf_bits w _)

theorem lgc3 (w : FR) : Statement (.lgc3 w) := of_parse rfl fun _ => by
  unfold parse
  rw [FR.opc_bits]
  exact congrArg (fun x => some (Instr.lgc3 x)) (frOf_bits w _)

theorem shl (w : FR) : Statement (.shl w) := of_parse rfl fun _ => by
  unfold parse
  rw [FR.opc_bits]
  exact congrArg (fun x => some (Instr.shl x)) (frOf_bits w _)

theorem shr (w : FR) : Statement (.shr w) := of_parse rfl fun _ => by
  unfold parse
  rw [FR.opc_bits]
  exact congrArg (fun x => some (Instr.shr x)) (frOf_bits w _)

theorem sar (w : FR) : Statement (.sar w) := of_parse rfl fun _ => by
  unfold parse
  rw [FR.opc_bits]
  exact congrArg (fun x => some (Instr.sar x)) (frOf_bits w _)

theorem rol (w : FR) : Statement (.rol w) := of_parse rfl fun _ => by
  unfold parse
  rw [FR.opc_bits]
  exact congrArg (fun x => some (Instr.rol x)) (frOf_bits w _)

theorem bfx (w : FR) : Statement (.bfx w) := of_parse rfl fun _ => by
  unfold parse
  rw [FR.opc_bits]
  exact congrArg (fun x => some (Instr.bfx x)) (frOf_bits w _)

theorem bfi (w : FR) : Statement (.bfi w) := of_parse rfl fun _ => by
  unfold parse
  rw [FR.opc_bits]
  exact congrArg (fun x => some (Instr.bfi x)) (frOf_bits w _)

theorem pop (w : FR) : Statement (.pop w) := of_parse rfl fun _ => by
  unfold parse
  rw [FR.opc_bits]
  exact congrArg (fun x => some (Instr.pop x)) (frOf_bits w _)

theorem clz (w : FR) : Statement (.clz w) := of_parse rfl fun _ => by
  unfold parse
  rw [FR.opc_bits]
  exact congrArg (fun x => some (Instr.clz x)) (frOf_bits w _)

theorem ctz (w : FR) : Statement (.ctz w) := of_parse rfl fun _ => by
  unfold parse
  rw [FR.opc_bits]
  exact congrArg (fun x => some (Instr.ctz x)) (frOf_bits w _)

theorem brev (w : FR) : Statement (.brev w) := of_parse rfl fun _ => by
  unfold parse
  rw [FR.opc_bits]
  exact congrArg (fun x => some (Instr.brev x)) (frOf_bits w _)

theorem cmp (w : FR) : Statement (.cmp w) := of_parse rfl fun _ => by
  unfold parse
  rw [FR.opc_bits]
  exact congrArg (fun x => some (Instr.cmp x)) (frOf_bits w _)

theorem sel (w : FR) : Statement (.sel w) := of_parse rfl fun _ => by
  unfold parse
  rw [FR.opc_bits]
  exact congrArg (fun x => some (Instr.sel x)) (frOf_bits w _)

theorem pset (w : FR) : Statement (.pset w) := of_parse rfl fun _ => by
  unfold parse
  rw [FR.opc_bits]
  exact congrArg (fun x => some (Instr.pset x)) (frOf_bits w _)

theorem lea (w : FR) : Statement (.lea w) := of_parse rfl fun _ => by
  unfold parse
  rw [FR.opc_bits]
  exact congrArg (fun x => some (Instr.lea x)) (frOf_bits w _)

theorem mov (w : FR) : Statement (.mov w) := of_parse rfl fun _ => by
  unfold parse
  rw [FR.opc_bits]
  exact congrArg (fun x => some (Instr.mov x)) (frOf_bits w _)

theorem movi (w : FI) : Statement (.movi w) := of_parse rfl fun _ => by
  unfold parse
  rw [FI.opc_bits]
  exact congrArg (fun x => some (Instr.movi x)) (fiOf_bits w _)

theorem movh (w : FI) : Statement (.movh w) := of_parse rfl fun _ => by
  unfold parse
  rw [FI.opc_bits]
  exact congrArg (fun x => some (Instr.movh x)) (fiOf_bits w _)

theorem fadd (w : FR) : Statement (.fadd w) := of_parse rfl fun _ => by
  unfold parse
  rw [FR.opc_bits]
  exact congrArg (fun x => some (Instr.fadd x)) (frOf_bits w _)

theorem fsub (w : FR) : Statement (.fsub w) := of_parse rfl fun _ => by
  unfold parse
  rw [FR.opc_bits]
  exact congrArg (fun x => some (Instr.fsub x)) (frOf_bits w _)

theorem fmul (w : FR) : Statement (.fmul w) := of_parse rfl fun _ => by
  unfold parse
  rw [FR.opc_bits]
  exact congrArg (fun x => some (Instr.fmul x)) (frOf_bits w _)

theorem fma (w : FR) : Statement (.fma w) := of_parse rfl fun _ => by
  unfold parse
  rw [FR.opc_bits]
  exact congrArg (fun x => some (Instr.fma x)) (frOf_bits w _)

theorem fmin (w : FR) : Statement (.fmin w) := of_parse rfl fun _ => by
  unfold parse
  rw [FR.opc_bits]
  exact congrArg (fun x => some (Instr.fmin x)) (frOf_bits w _)

theorem fmax (w : FR) : Statement (.fmax w) := of_parse rfl fun _ => by
  unfold parse
  rw [FR.opc_bits]
  exact congrArg (fun x => some (Instr.fmax x)) (frOf_bits w _)

theorem fcmp (w : FR) : Statement (.fcmp w) := of_parse rfl fun _ => by
  unfold parse
  rw [FR.opc_bits]
  exact congrArg (fun x => some (Instr.fcmp x)) (frOf_bits w _)

theorem frnd (w : FR) : Statement (.frnd w) := of_parse rfl fun _ => by
  unfold parse
  rw [FR.opc_bits]
  exact congrArg (fun x => some (Instr.frnd x)) (frOf_bits w _)

theorem frcp (w : FR) : Statement (.frcp w) := of_parse rfl fun _ => by
  unfold parse
  rw [FR.opc_bits]
  exact congrArg (fun x => some (Instr.frcp x)) (frOf_bits w _)

theorem frsq (w : FR) : Statement (.frsq w) := of_parse rfl fun _ => by
  unfold parse
  rw [FR.opc_bits]
  exact congrArg (fun x => some (Instr.frsq x)) (frOf_bits w _)

theorem fsqrt (w : FR) : Statement (.fsqrt w) := of_parse rfl fun _ => by
  unfold parse
  rw [FR.opc_bits]
  exact congrArg (fun x => some (Instr.fsqrt x)) (frOf_bits w _)

theorem fex2 (w : FR) : Statement (.fex2 w) := of_parse rfl fun _ => by
  unfold parse
  rw [FR.opc_bits]
  exact congrArg (fun x => some (Instr.fex2 x)) (frOf_bits w _)

theorem flg2 (w : FR) : Statement (.flg2 w) := of_parse rfl fun _ => by
  unfold parse
  rw [FR.opc_bits]
  exact congrArg (fun x => some (Instr.flg2 x)) (frOf_bits w _)

theorem fsin (w : FR) : Statement (.fsin w) := of_parse rfl fun _ => by
  unfold parse
  rw [FR.opc_bits]
  exact congrArg (fun x => some (Instr.fsin x)) (frOf_bits w _)

theorem fcos (w : FR) : Statement (.fcos w) := of_parse rfl fun _ => by
  unfold parse
  rw [FR.opc_bits]
  exact congrArg (fun x => some (Instr.fcos x)) (frOf_bits w _)

theorem fdiv (w : FR) : Statement (.fdiv w) := of_parse rfl fun _ => by
  unfold parse
  rw [FR.opc_bits]
  exact congrArg (fun x => some (Instr.fdiv x)) (frOf_bits w _)

theorem fscale (w : FR) : Statement (.fscale w) := of_parse rfl fun _ => by
  unfold parse
  rw [FR.opc_bits]
  exact congrArg (fun x => some (Instr.fscale x)) (frOf_bits w _)

theorem fclass (w : FR) : Statement (.fclass w) := of_parse rfl fun _ => by
  unfold parse
  rw [FR.opc_bits]
  exact congrArg (fun x => some (Instr.fclass x)) (frOf_bits w _)

theorem padd (w : FR) : Statement (.padd w) := of_parse rfl fun _ => by
  unfold parse
  rw [FR.opc_bits]
  exact congrArg (fun x => some (Instr.padd x)) (frOf_bits w _)

theorem pmul (w : FR) : Statement (.pmul w) := of_parse rfl fun _ => by
  unfold parse
  rw [FR.opc_bits]
  exact congrArg (fun x => some (Instr.pmul x)) (frOf_bits w _)

theorem pfma (w : FR) : Statement (.pfma w) := of_parse rfl fun _ => by
  unfold parse
  rw [FR.opc_bits]
  exact congrArg (fun x => some (Instr.pfma x)) (frOf_bits w _)

theorem pmin (w : FR) : Statement (.pmin w) := of_parse rfl fun _ => by
  unfold parse
  rw [FR.opc_bits]
  exact congrArg (fun x => some (Instr.pmin x)) (frOf_bits w _)

theorem pmax (w : FR) : Statement (.pmax w) := of_parse rfl fun _ => by
  unfold parse
  rw [FR.opc_bits]
  exact congrArg (fun x => some (Instr.pmax x)) (frOf_bits w _)

theorem lmul (w : FR) : Statement (.lmul w) := of_parse rfl fun _ => by
  unfold parse
  rw [FR.opc_bits]
  exact congrArg (fun x => some (Instr.lmul x)) (frOf_bits w _)

theorem ladd (w : FR) : Statement (.ladd w) := of_parse rfl fun _ => by
  unfold parse
  rw [FR.opc_bits]
  exact congrArg (fun x => some (Instr.ladd x)) (frOf_bits w _)

theorem lsub (w : FR) : Statement (.lsub w) := of_parse rfl fun _ => by
  unfold parse
  rw [FR.opc_bits]
  exact congrArg (fun x => some (Instr.lsub x)) (frOf_bits w _)

theorem lmax (w : FR) : Statement (.lmax w) := of_parse rfl fun _ => by
  unfold parse
  rw [FR.opc_bits]
  exact congrArg (fun x => some (Instr.lmax x)) (frOf_bits w _)

theorem cvt (w : FR) : Statement (.cvt w) := of_parse rfl fun _ => by
  unfold parse
  rw [FR.opc_bits]
  exact congrArg (fun x => some (Instr.cvt x)) (frOf_bits w _)

theorem pack (w : FR) : Statement (.pack w) := of_parse rfl fun _ => by
  unfold parse
  rw [FR.opc_bits]
  exact congrArg (fun x => some (Instr.pack x)) (frOf_bits w _)

theorem unpk (w : FR) : Statement (.unpk w) := of_parse rfl fun _ => by
  unfold parse
  rw [FR.opc_bits]
  exact congrArg (fun x => some (Instr.unpk x)) (frOf_bits w _)

theorem bmax (w : FR) : Statement (.bmax w) := of_parse rfl fun _ => by
  unfold parse
  rw [FR.opc_bits]
  exact congrArg (fun x => some (Instr.bmax x)) (frOf_bits w _)

theorem bscale (w : FR) : Statement (.bscale w) := of_parse rfl fun _ => by
  unfold parse
  rw [FR.opc_bits]
  exact congrArg (fun x => some (Instr.bscale x)) (frOf_bits w _)

theorem shf (w : FR) : Statement (.shf w) := of_parse rfl fun _ => by
  unfold parse
  rw [FR.opc_bits]
  exact congrArg (fun x => some (Instr.shf x)) (frOf_bits w _)

theorem vote (w : FR) : Statement (.vote w) := of_parse rfl fun _ => by
  unfold parse
  rw [FR.opc_bits]
  exact congrArg (fun x => some (Instr.vote x)) (frOf_bits w _)

theorem redx (w : FR) : Statement (.redx w) := of_parse rfl fun _ => by
  unfold parse
  rw [FR.opc_bits]
  exact congrArg (fun x => some (Instr.redx x)) (frOf_bits w _)

theorem bcst (w : FR) : Statement (.bcst w) := of_parse rfl fun _ => by
  unfold parse
  rw [FR.opc_bits]
  exact congrArg (fun x => some (Instr.bcst x)) (frOf_bits w _)

theorem scan (w : FR) : Statement (.scan w) := of_parse rfl fun _ => by
  unfold parse
  rw [FR.opc_bits]
  exact congrArg (fun x => some (Instr.scan x)) (frOf_bits w _)

theorem rdsr (w : FS) : Statement (.rdsr w) := of_parse rfl fun _ => by
  unfold parse
  rw [FS.opc_bits]
  exact congrArg (fun x => some (Instr.rdsr x)) (fsOf_bits w _)

theorem wrsr (w : FS) : Statement (.wrsr w) := of_parse rfl fun _ => by
  unfold parse
  rw [FS.opc_bits]
  exact congrArg (fun x => some (Instr.wrsr x)) (fsOf_bits w _)

theorem br (w : FB) : Statement (.br w) := of_parse rfl fun _ => by
  unfold parse
  rw [FB.opc_bits]
  exact congrArg (fun x => some (Instr.br x)) (fbOf_bits w _)

theorem jt (w : FR) : Statement (.jt w) := of_parse rfl fun _ => by
  unfold parse
  rw [FR.opc_bits]
  exact congrArg (fun x => some (Instr.jt x)) (frOf_bits w _)

theorem land (w : FS) : Statement (.land w) := of_parse rfl fun _ => by
  unfold parse
  rw [FS.opc_bits]
  exact congrArg (fun x => some (Instr.land x)) (fsOf_bits w _)

theorem call (w : FB) : Statement (.call w) := of_parse rfl fun _ => by
  unfold parse
  rw [FB.opc_bits]
  exact congrArg (fun x => some (Instr.call x)) (fbOf_bits w _)

theorem callt (w : FR) : Statement (.callt w) := of_parse rfl fun _ => by
  unfold parse
  rw [FR.opc_bits]
  exact congrArg (fun x => some (Instr.callt x)) (frOf_bits w _)

theorem ret (w : FR) : Statement (.ret w) := of_parse rfl fun _ => by
  unfold parse
  rw [FR.opc_bits]
  exact congrArg (fun x => some (Instr.ret x)) (frOf_bits w _)

theorem exit (w : FS) : Statement (.exit w) := of_parse rfl fun _ => by
  unfold parse
  rw [FS.opc_bits]
  exact congrArg (fun x => some (Instr.exit x)) (fsOf_bits w _)

theorem split (w : FB) : Statement (.split w) := of_parse rfl fun _ => by
  unfold parse
  rw [FB.opc_bits]
  exact congrArg (fun x => some (Instr.split x)) (fbOf_bits w _)

theorem join (w : FR) : Statement (.join w) := of_parse rfl fun _ => by
  unfold parse
  rw [FR.opc_bits]
  exact congrArg (fun x => some (Instr.join x)) (frOf_bits w _)

theorem phase (w : FS) : Statement (.phase w) := of_parse rfl fun _ => by
  unfold parse
  rw [FS.opc_bits]
  exact congrArg (fun x => some (Instr.phase x)) (fsOf_bits w _)

theorem succ (w : FR) : Statement (.succ w) := of_parse rfl fun _ => by
  unfold parse
  rw [FR.opc_bits]
  exact congrArg (fun x => some (Instr.succ x)) (frOf_bits w _)

theorem trap (w : FS) : Statement (.trap w) := of_parse rfl fun _ => by
  unfold parse
  rw [FS.opc_bits]
  exact congrArg (fun x => some (Instr.trap x)) (fsOf_bits w _)

theorem brk (w : FS) : Statement (.brk w) := of_parse rfl fun _ => by
  unfold parse
  rw [FS.opc_bits]
  exact congrArg (fun x => some (Instr.brk x)) (fsOf_bits w _)

theorem nop (w : FS) : Statement (.nop w) := of_parse rfl fun _ => by
  unfold parse
  rw [FS.opc_bits]
  exact congrArg (fun x => some (Instr.nop x)) (fsOf_bits w _)

theorem loop (w : FB) : Statement (.loop w) := of_parse rfl fun _ => by
  unfold parse
  rw [FB.opc_bits]
  exact congrArg (fun x => some (Instr.loop x)) (fbOf_bits w _)

theorem sysc (w : FS) : Statement (.sysc w) := of_parse rfl fun _ => by
  unfold parse
  rw [FS.opc_bits]
  exact congrArg (fun x => some (Instr.sysc x)) (fsOf_bits w _)

theorem ld (w : FM) : Statement (.ld w) := of_parse rfl fun _ => by
  unfold parse
  rw [FM.opc_bits]
  exact congrArg (fun x => some (Instr.ld x)) (fmOf_bits w _)

theorem st (w : FM) : Statement (.st w) := of_parse rfl fun _ => by
  unfold parse
  rw [FM.opc_bits]
  exact congrArg (fun x => some (Instr.st x)) (fmOf_bits w _)

theorem lds (w : FM) : Statement (.lds w) := of_parse rfl fun _ => by
  unfold parse
  rw [FM.opc_bits]
  exact congrArg (fun x => some (Instr.lds x)) (fmOf_bits w _)

theorem sts (w : FM) : Statement (.sts w) := of_parse rfl fun _ => by
  unfold parse
  rw [FM.opc_bits]
  exact congrArg (fun x => some (Instr.sts x)) (fmOf_bits w _)

theorem ldt (w : FM) : Statement (.ldt w) := of_parse rfl fun _ => by
  unfold parse
  rw [FM.opc_bits]
  exact congrArg (fun x => some (Instr.ldt x)) (fmOf_bits w _)

theorem uld (w : FM) : Statement (.uld w) := of_parse rfl fun _ => by
  unfold parse
  rw [FM.opc_bits]
  exact congrArg (fun x => some (Instr.uld x)) (fmOf_bits w _)

theorem pfx (w : FM) : Statement (.pfx w) := of_parse rfl fun _ => by
  unfold parse
  rw [FM.opc_bits]
  exact congrArg (fun x => some (Instr.pfx x)) (fmOf_bits w _)

theorem atom (w : FR) : Statement (.atom w) := of_parse rfl fun _ => by
  unfold parse
  rw [FR.opc_bits]
  exact congrArg (fun x => some (Instr.atom x)) (frOf_bits w _)

theorem red (w : FR) : Statement (.red w) := of_parse rfl fun _ => by
  unfold parse
  rw [FR.opc_bits]
  exact congrArg (fun x => some (Instr.red x)) (frOf_bits w _)

theorem cas (w : FR) : Statement (.cas w) := of_parse rfl fun _ => by
  unfold parse
  rw [FR.opc_bits]
  exact congrArg (fun x => some (Instr.cas x)) (frOf_bits w _)

theorem atomv (w : FR) : Statement (.atomv w) := of_parse rfl fun _ => by
  unfold parse
  rw [FR.opc_bits]
  exact congrArg (fun x => some (Instr.atomv x)) (frOf_bits w _)

theorem redv (w : FR) : Statement (.redv w) := of_parse rfl fun _ => by
  unfold parse
  rw [FR.opc_bits]
  exact congrArg (fun x => some (Instr.redv x)) (frOf_bits w _)

theorem fence (w : FS) : Statement (.fence w) := of_parse rfl fun _ => by
  unfold parse
  rw [FS.opc_bits]
  exact congrArg (fun x => some (Instr.fence x)) (fsOf_bits w _)

theorem fencer (w : FR) : Statement (.fencer w) := of_parse rfl fun _ => by
  unfold parse
  rw [FR.opc_bits]
  exact congrArg (fun x => some (Instr.fencer x)) (frOf_bits w _)

theorem marm (w : FR) : Statement (.marm w) := of_parse rfl fun hw => by
  have hb : w.b = 0x53#7 := by
    simp only [Instr.wf, Instr.view, Instr.variantOk, Bool.and_eq_true] at hw
    simpa using hw.2
  unfold parse
  rw [FR.opc_bits]
  show some (marmOf (frOf _)) = _
  rw [frOf_bits, marmOf]
  simp [hb]

theorem marmCounted (w : FR) : Statement (.marmCounted w) := of_parse rfl fun hw => by
  have hb : ¬ w.b = 0x53#7 := by
    simp only [Instr.wf, Instr.view, Instr.variantOk, Bool.and_eq_true] at hw
    simpa using hw.2
  unfold parse
  rw [FR.opc_bits]
  show some (marmOf (frOf _)) = _
  rw [frOf_bits, marmOf]
  simp [hb]

theorem mwait (w : FR) : Statement (.mwait w) := of_parse rfl fun _ => by
  unfold parse
  rw [FR.opc_bits]
  exact congrArg (fun x => some (Instr.mwait x)) (frOf_bits w _)

theorem wuc (w : FR) : Statement (.wuc w) := of_parse rfl fun _ => by
  unfold parse
  rw [FR.opc_bits]
  exact congrArg (fun x => some (Instr.wuc x)) (frOf_bits w _)

theorem zln (w : FM) : Statement (.zln w) := of_parse rfl fun _ => by
  unfold parse
  rw [FM.opc_bits]
  exact congrArg (fun x => some (Instr.zln x)) (fmOf_bits w _)

theorem lqry (w : FM) : Statement (.lqry w) := of_parse rfl fun _ => by
  unfold parse
  rw [FM.opc_bits]
  exact congrArg (fun x => some (Instr.lqry x)) (fmOf_bits w _)

theorem mma (w : FR) : Statement (.mma w) := of_parse rfl fun _ => by
  unfold parse
  rw [FR.opc_bits]
  exact congrArg (fun x => some (Instr.mma x)) (frOf_bits w _)

theorem mmx (w : FR) : Statement (.mmx w) := of_parse rfl fun _ => by
  unfold parse
  rw [FR.opc_bits]
  exact congrArg (fun x => some (Instr.mmx x)) (frOf_bits w _)

theorem mzero (w : FR) : Statement (.mzero w) := of_parse rfl fun _ => by
  unfold parse
  rw [FR.opc_bits]
  exact congrArg (fun x => some (Instr.mzero x)) (frOf_bits w _)

theorem mld (w : FR) : Statement (.mld w) := of_parse rfl fun _ => by
  unfold parse
  rw [FR.opc_bits]
  exact congrArg (fun x => some (Instr.mld x)) (frOf_bits w _)

theorem drain (w : FR) : Statement (.drain w) := of_parse rfl fun _ => by
  unfold parse
  rw [FR.opc_bits]
  exact congrArg (fun x => some (Instr.drain x)) (frOf_bits w _)

theorem mrel (w : FR) : Statement (.mrel w) := of_parse rfl fun _ => by
  unfold parse
  rw [FR.opc_bits]
  exact congrArg (fun x => some (Instr.mrel x)) (frOf_bits w _)

theorem mscl (w : FR) : Statement (.mscl w) := of_parse rfl fun _ => by
  unfold parse
  rw [FR.opc_bits]
  exact congrArg (fun x => some (Instr.mscl x)) (frOf_bits w _)

theorem mrd (w : FR) : Statement (.mrd w) := of_parse rfl fun _ => by
  unfold parse
  rw [FR.opc_bits]
  exact congrArg (fun x => some (Instr.mrd x)) (frOf_bits w _)

theorem cpy (w : FR) : Statement (.cpy w) := of_parse rfl fun _ => by
  unfold parse
  rw [FR.opc_bits]
  exact congrArg (fun x => some (Instr.cpy x)) (frOf_bits w _)

theorem cpyo (w : FR) : Statement (.cpyo w) := of_parse rfl fun _ => by
  unfold parse
  rw [FR.opc_bits]
  exact congrArg (fun x => some (Instr.cpyo x)) (frOf_bits w _)

theorem cpyr (w : FR) : Statement (.cpyr w) := of_parse rfl fun _ => by
  unfold parse
  rw [FR.opc_bits]
  exact congrArg (fun x => some (Instr.cpyr x)) (frOf_bits w _)

theorem cpym (w : FR) : Statement (.cpym w) := of_parse rfl fun _ => by
  unfold parse
  rw [FR.opc_bits]
  exact congrArg (fun x => some (Instr.cpym x)) (frOf_bits w _)

theorem cpys (w : FR) : Statement (.cpys w) := of_parse rfl fun _ => by
  unfold parse
  rw [FR.opc_bits]
  exact congrArg (fun x => some (Instr.cpys x)) (frOf_bits w _)

theorem cseal (w : FS) : Statement (.cseal w) := of_parse rfl fun _ => by
  unfold parse
  rw [FS.opc_bits]
  exact congrArg (fun x => some (Instr.cseal x)) (fsOf_bits w _)

theorem cwait (w : FS) : Statement (.cwait w) := of_parse rfl fun _ => by
  unfold parse
  rw [FS.opc_bits]
  exact congrArg (fun x => some (Instr.cwait x)) (fsOf_bits w _)

theorem tbind (w : FR) : Statement (.tbind w) := of_parse rfl fun _ => by
  unfold parse
  rw [FR.opc_bits]
  exact congrArg (fun x => some (Instr.tbind x)) (frOf_bits w _)

theorem tset (w : FR) : Statement (.tset w) := of_parse rfl fun _ => by
  unfold parse
  rw [FR.opc_bits]
  exact congrArg (fun x => some (Instr.tset x)) (frOf_bits w _)

theorem tget (w : FR) : Statement (.tget w) := of_parse rfl fun _ => by
  unfold parse
  rw [FR.opc_bits]
  exact congrArg (fun x => some (Instr.tget x)) (frOf_bits w _)

theorem twait (w : FS) : Statement (.twait w) := of_parse rfl fun _ => by
  unfold parse
  rw [FS.opc_bits]
  exact congrArg (fun x => some (Instr.twait x)) (fsOf_bits w _)

theorem trel (w : FS) : Statement (.trel w) := of_parse rfl fun _ => by
  unfold parse
  rw [FS.opc_bits]
  exact congrArg (fun x => some (Instr.trel x)) (fsOf_bits w _)

theorem bini (w : FR) : Statement (.bini w) := of_parse rfl fun _ => by
  unfold parse
  rw [FR.opc_bits]
  exact congrArg (fun x => some (Instr.bini x)) (frOf_bits w _)

theorem barv (w : FS) : Statement (.barv w) := of_parse rfl fun _ => by
  unfold parse
  rw [FS.opc_bits]
  exact congrArg (fun x => some (Instr.barv x)) (fsOf_bits w _)

theorem barw (w : FS) : Statement (.barw w) := of_parse rfl fun _ => by
  unfold parse
  rw [FS.opc_bits]
  exact congrArg (fun x => some (Instr.barw x)) (fsOf_bits w _)

theorem bexp (w : FR) : Statement (.bexp w) := of_parse rfl fun _ => by
  unfold parse
  rw [FR.opc_bits]
  exact congrArg (fun x => some (Instr.bexp x)) (frOf_bits w _)

theorem bdrop (w : FS) : Statement (.bdrop w) := of_parse rfl fun _ => by
  unfold parse
  rw [FS.opc_bits]
  exact congrArg (fun x => some (Instr.bdrop x)) (fsOf_bits w _)

theorem bget (w : FR) : Statement (.bget w) := of_parse rfl fun _ => by
  unfold parse
  rw [FR.opc_bits]
  exact congrArg (fun x => some (Instr.bget x)) (frOf_bits w _)

theorem qenq (w : FR) : Statement (.qenq w) := of_parse rfl fun _ => by
  unfold parse
  rw [FR.opc_bits]
  exact congrArg (fun x => some (Instr.qenq x)) (frOf_bits w _)

theorem qdeq (w : FR) : Statement (.qdeq w) := of_parse rfl fun _ => by
  unfold parse
  rw [FR.opc_bits]
  exact congrArg (fun x => some (Instr.qdeq x)) (frOf_bits w _)

theorem qtry (w : FR) : Statement (.qtry w) := of_parse rfl fun _ => by
  unfold parse
  rw [FR.opc_bits]
  exact congrArg (fun x => some (Instr.qtry x)) (frOf_bits w _)

theorem jdec (w : FR) : Statement (.jdec w) := of_parse rfl fun _ => by
  unfold parse
  rw [FR.opc_bits]
  exact congrArg (fun x => some (Instr.jdec x)) (frOf_bits w _)

theorem jset (w : FR) : Statement (.jset w) := of_parse rfl fun _ => by
  unfold parse
  rw [FR.opc_bits]
  exact congrArg (fun x => some (Instr.jset x)) (frOf_bits w _)

theorem spawn (w : FR) : Statement (.spawn w) := of_parse rfl fun _ => by
  unfold parse
  rw [FR.opc_bits]
  exact congrArg (fun x => some (Instr.spawn x)) (frOf_bits w _)

theorem qnt (w : FR) : Statement (.qnt w) := of_parse rfl fun _ => by
  unfold parse
  rw [FR.opc_bits]
  exact congrArg (fun x => some (Instr.qnt x)) (frOf_bits w _)

theorem rcinv (w : FR) : Statement (.rcinv w) := of_parse rfl fun _ => by
  unfold parse
  rw [FR.opc_bits]
  exact congrArg (fun x => some (Instr.rcinv x)) (frOf_bits w _)

theorem trc (w : FR) : Statement (.trc w) := of_parse rfl fun _ => by
  unfold parse
  rw [FR.opc_bits]
  exact congrArg (fun x => some (Instr.trc x)) (frOf_bits w _)

theorem trcm (w : FR) : Statement (.trcm w) := of_parse rfl fun _ => by
  unfold parse
  rw [FR.opc_bits]
  exact congrArg (fun x => some (Instr.trcm x)) (frOf_bits w _)

theorem cnt (w : FS) : Statement (.cnt w) := of_parse rfl fun _ => by
  unfold parse
  rw [FS.opc_bits]
  exact congrArg (fun x => some (Instr.cnt x)) (fsOf_bits w _)

theorem rmap (w : FR) : Statement (.rmap w) := of_parse rfl fun _ => by
  unfold parse
  rw [FR.opc_bits]
  exact congrArg (fun x => some (Instr.rmap x)) (frOf_bits w _)

theorem rcommit (w : FS) : Statement (.rcommit w) := of_parse rfl fun _ => by
  unfold parse
  rw [FS.opc_bits]
  exact congrArg (fun x => some (Instr.rcommit x)) (fsOf_bits w _)

theorem eret (w : FS) : Statement (.eret w) := of_parse rfl fun _ => by
  unfold parse
  rw [FS.opc_bits]
  exact congrArg (fun x => some (Instr.eret x)) (fsOf_bits w _)

theorem tlbi (w : FR) : Statement (.tlbi w) := of_parse rfl fun _ => by
  unfold parse
  rw [FR.opc_bits]
  exact congrArg (fun x => some (Instr.tlbi x)) (frOf_bits w _)

theorem mig (w : FR) : Statement (.mig w) := of_parse rfl fun _ => by
  unfold parse
  rw [FR.opc_bits]
  exact congrArg (fun x => some (Instr.mig x)) (frOf_bits w _)

theorem ctxld (w : FR) : Statement (.ctxld w) := of_parse rfl fun _ => by
  unfold parse
  rw [FR.opc_bits]
  exact congrArg (fun x => some (Instr.ctxld x)) (frOf_bits w _)

theorem bdg (w : FR) : Statement (.bdg w) := of_parse rfl fun _ => by
  unfold parse
  rw [FR.opc_bits]
  exact congrArg (fun x => some (Instr.bdg x)) (frOf_bits w _)

theorem clauseBoundary (t g : Nat) : Statement (.clauseBoundary t g) := of_event rfl rfl

theorem groupWaitRelease (t g : Nat) : Statement (.groupWaitRelease t g) := of_event rfl rfl

theorem longLatencyArrival (t g r : Nat) : Statement (.longLatencyArrival t g r) := of_event rfl rfl

theorem storeAcknowledged (t g : Nat) : Statement (.storeAcknowledged t g) := of_event rfl rfl

theorem deferredAccessFault (t g code addr detail : Nat) (lanes pc : BitVec 64) : Statement (.deferredAccessFault t g code addr detail lanes pc) := of_event rfl rfl

theorem pageWalkComplete (die cluster ctx va : Nat) : Statement (.pageWalkComplete die cluster ctx va) := of_event rfl rfl

theorem phaseSettleComplete (t : Nat) : Statement (.phaseSettleComplete t) := of_event rfl rfl

theorem taskSpillEnqueue (t : Nat) : Statement (.taskSpillEnqueue t) := of_event rfl rfl

theorem succSettleComplete (t : Nat) : Statement (.succSettleComplete t) := of_event rfl rfl

theorem teamStartLoaded (t : Nat) : Statement (.teamStartLoaded t) := of_event rfl rfl

theorem schedulingRound (die : Nat) : Statement (.schedulingRound die) := of_event rfl rfl

theorem gangClusterClose (die cluster : Nat) : Statement (.gangClusterClose die cluster) := of_event rfl rfl

theorem taskQueueScan (die : Nat) : Statement (.taskQueueScan die) := of_event rfl rfl

theorem schedulerRestore (ctx id : Nat) : Statement (.schedulerRestore ctx id) := of_event rfl rfl

theorem launchDoorbell (q : Nat) : Statement (.launchDoorbell q) := of_event rfl rfl

theorem copyElementPerformed (die unit slot n : Nat) : Statement (.copyElementPerformed die unit slot n) := of_event rfl rfl

theorem copyComplete (id : Nat) : Statement (.copyComplete id) := of_event rfl rfl

theorem copyElementFault (die unit slot n : Nat) (link : Bool) : Statement (.copyElementFault die unit slot n link) := of_event rfl rfl

theorem mcastDestinationFailure (copy : Nat) (core : Option Nat) : Statement (.mcastDestinationFailure copy core) := of_event rfl rfl

theorem reducingElementArrival (die unit slot n : Nat) : Statement (.reducingElementArrival die unit slot n) := of_event rfl rfl

theorem replayFilterExpiry (site : Nat) : Statement (.replayFilterExpiry site) := of_event rfl rfl

theorem tileFillComplete (t j : Nat) : Statement (.tileFillComplete t j) := of_event rfl rfl

theorem tileDrainComplete (t j : Nat) : Statement (.tileDrainComplete t j) := of_event rfl rfl

theorem matrixUpdateComplete (t j : Nat) : Statement (.matrixUpdateComplete t j) := of_event rfl rfl

theorem matrixFetchFault (t : Nat) : Statement (.matrixFetchFault t) := of_event rfl rfl

theorem lanternTimeout (t b : Nat) : Statement (.lanternTimeout t b) := of_event rfl rfl

theorem roostWake (slice : Nat) : Statement (.roostWake slice) := of_event rfl rfl

theorem ctxcmdSave (ctx : Nat) : Statement (.ctxcmdSave ctx) := of_event rfl rfl

theorem contextSaveWritten (ctx : Nat) : Statement (.contextSaveWritten ctx) := of_event rfl rfl

theorem ctxcmdTerminate (ctx : Nat) : Statement (.ctxcmdTerminate ctx) := of_event rfl rfl

theorem ctxcmdEngresume (ctx die unit slot : Nat) : Statement (.ctxcmdEngresume ctx die unit slot) := of_event rfl rfl

theorem ctxcmdEngcancel (ctx die unit slot : Nat) : Statement (.ctxcmdEngcancel ctx die unit slot) := of_event rfl rfl

theorem contextRegisterWrite (ctx sel v : Nat) : Statement (.contextRegisterWrite ctx sel v) := of_event rfl rfl

theorem watchdog (ctx detail : Nat) : Statement (.watchdog ctx detail) := of_event rfl rfl

theorem syscEnqueue (t g : Nat) : Statement (.syscEnqueue t g) := of_event rfl rfl

theorem budgetPeriodEnd (tenant : Nat) : Statement (.budgetPeriodEnd tenant) := of_event rfl rfl

theorem budgetUseExchange : Statement .budgetUseExchange := of_event rfl rfl

theorem echoBufferDrain (i : Nat) : Statement (.echoBufferDrain i) := of_event rfl rfl

theorem echoSinkWrite : Statement .echoSinkWrite := of_event rfl rfl

theorem losslessStallTimeout (t g : Nat) : Statement (.losslessStallTimeout t g) := of_event rfl rfl

theorem saturationReport (die : Nat) : Statement (.saturationReport die) := of_event rfl rfl

theorem ptpMessage (m : PtpMsg) : Statement (.ptpMessage m) := of_event rfl rfl

theorem ppsEdge (offset : Int) : Statement (.ppsEdge offset) := of_event rfl rfl

theorem todLine (line : List (BitVec 8)) : Statement (.todLine line) := of_event rfl rfl

theorem timeSourceLost : Statement .timeSourceLost := of_event rfl rfl

theorem powerOnReset (b : BootIn) : Statement (.powerOnReset b) := of_event rfl rfl

theorem phimusFailure : Statement .phimusFailure := of_event rfl rfl

theorem packageFatalError (cause die : Nat) : Statement (.packageFatalError cause die) := of_event rfl rfl

theorem chipletLinkFailure (die : Nat) (path : Bool) : Statement (.chipletLinkFailure die path) := of_event rfl rfl

theorem packetRetryReturn (die unit slot n : Nat) : Statement (.packetRetryReturn die unit slot n) := of_event rfl rfl

theorem linkRetrainComplete (die : Nat) (ok : Bool) : Statement (.linkRetrainComplete die ok) := of_event rfl rfl

theorem packageRecompute : Statement .packageRecompute := of_event rfl rfl

theorem opptReq (v : BitVec 2) : Statement (.opptReq v) := of_event rfl rfl

theorem opptChangeComplete : Statement .opptChangeComplete := of_event rfl rfl

theorem gateReq (v : BitVec 14) : Statement (.gateReq v) := of_event rfl rfl

theorem gateChangeComplete (die : Nat) : Statement (.gateChangeComplete die) := of_event rfl rfl

theorem svcDrain (die : Nat) : Statement (.svcDrain die) := of_event rfl rfl

theorem svcReadmit (die : Nat) : Statement (.svcReadmit die) := of_event rfl rfl

theorem drainDeadline : Statement .drainDeadline := of_event rfl rfl

theorem mgmtRegisterWrite (ofs v : Nat) : Statement (.mgmtRegisterWrite ofs v) := of_event rfl rfl

theorem imageUpdate (i : ImageIn) : Statement (.imageUpdate i) := of_event rfl rfl

theorem attestationReport (nonce : BitVec 64) : Statement (.attestationReport nonce) := of_event rfl rfl

theorem ualinkPeerRequest (a : HostAcc) : Statement (.ualinkPeerRequest a) := of_event rfl rfl

theorem quantJobTake (die : Nat) : Statement (.quantJobTake die) := of_event rfl rfl

theorem quantJobComplete (die : Nat) : Statement (.quantJobComplete die) := of_event rfl rfl

theorem stallOperationComplete (t g : Nat) : Statement (.stallOperationComplete t g) := of_event rfl rfl

theorem casiumLinkHostAccess (a : HostAcc) : Statement (.casiumLinkHostAccess a) := of_event rfl rfl

theorem contextCreate (c : CtxIn) : Statement (.contextCreate c) := of_event rfl rfl

theorem contextDestroy (ctx : Nat) : Statement (.contextDestroy ctx) := of_event rfl rfl

theorem chipletReset (die : Nat) : Statement (.chipletReset die) := of_event rfl rfl

theorem sliceLineWriteBack (ctx va : Nat) : Statement (.sliceLineWriteBack ctx va) := of_event rfl rfl

end Sys2Proof.Laws.RoundTrip
end

