-- ==== Sys2Proof/Laws/Stores.lean ====
section
/-! SUPPORT. What the stores of a word can do, said once: how they change memory, what of them is in flight, and what taking
such a store back and refreshing a core's lines leave alone. -/

namespace Sys2Proof.Machine

variable (s : State)

/-! ### Lines of the L1 -/

/-- The refresh of a core's lines changes the L1s only. -/
theorem State.l1Touch_form (fused : Bool) (core pa n : Nat) : ∃ l, s.l1Touch fused core pa n = { s with l1 := l } := ⟨_, rfl⟩

/-- So does that of the lines which an enqueue writes. -/
theorem State.ringTouch_form (t : Team) (core slot hdr : Nat) (area : List (Nat × Nat)) :
    ∃ l, s.ringTouch t core slot hdr area = { s with l1 := l } := by
  unfold State.ringTouch
  generalize (slot, 64) :: (hdr + 16, 16) :: area = ps
  induction ps generalizing s with
  | nil => exact ⟨s.l1, rfl⟩
  | cons p ps ih =>
    obtain ⟨l, h⟩ := ih (s.l1Touch t.kd.fusel1 core p.1 p.2)
    exact ⟨l, h⟩

/-! ### Stores -/

/-- A store of a word changes no byte of memory, or writes its bytes at its physical address. -/
theorem State.writeThread_mem (w : Iss) (va : Nat) (t : Target) (bs : List Byte) :
    (s.writeThread w va t bs).mem = s.mem ∨ ∃ pa pk cm, t = .phys pa pk cm ∧ (s.writeThread w va t bs).mem = s.mem.write pa bs := by
  unfold State.writeThread
  split
  · exact .inl rfl
  · split
    · exact .inl rfl
    · exact .inr ⟨_, _, _, rfl, rfl⟩

/-- The stores of a word keep the canonical form of memory. -/
theorem State.writePuts_wf (w : Iss) (ps : List Put) (h : s.mem.wf = true) : (State.writePuts w s ps).mem.wf = true := by
  unfold State.writePuts
  induction ps generalizing s with
  | nil => exact h
  | cons p ps ih =>
    refine ih _ ?_
    obtain h1 | ⟨pa, _, _, _, h1⟩ := s.writeThread_mem w p.va p.tg p.bs
    · rw [h1]; exact h
    · rw [h1]; exact Memory.write_wf _ _ h

/-- A store in flight is one of the word's, at its physical address, with the bytes that it found kept in full. -/
theorem mem_latesOf {far : Nat → Bool} {pc : W64} {l : Late} (ps : List Put) : ∀ m : Memory, l ∈ latesOf far pc m ps →
    ∃ p ∈ ps, (∃ pk cm, p.tg = .phys l.pa pk cm) ∧ l.th = p.th ∧ l.va = p.va ∧ l.new = p.bs ∧ l.old.length = l.new.length ∧ l.far = far l.pa ∧
      l.pc = pc ∧ l.kind = .put := by
  induction ps with
  | nil => intro m h; cases h
  | cons p ps ih =>
    intro m h
    unfold latesOf at h
    split at h
    · rename_i pa pk cm hp
      obtain rfl | h := List.mem_cons.mp h
      · exact ⟨p, .head _, ⟨pk, cm, hp⟩, rfl, rfl, rfl, by simp, rfl, rfl, rfl⟩
      · obtain ⟨q, hq, h⟩ := ih _ h
        exact ⟨q, .tail _ hq, h⟩
    · obtain ⟨q, hq, h⟩ := ih _ h
      exact ⟨q, .tail _ hq, h⟩

/-- Taking stores back keeps the canonical form of memory, and changes no team and no context. -/
theorem State.takeBack_frame (ls : List Late) (ix : List Nat) (h : s.mem.wf = true) :
    (s.takeBack ls ix).1.mem.wf = true ∧ (s.takeBack ls ix).1.teams = s.teams ∧ (s.takeBack ls ix).1.ctxs = s.ctxs := by
  have key : ∀ (ps : List (Late × Nat)) (f : Late × Nat → State → List Byte) (u : State), u.mem.wf = true →
      (ps.foldl (fun u p => u.store p.1.pa (f p u)) u).mem.wf = true ∧ (ps.foldl (fun u p => u.store p.1.pa (f p u)) u).teams = u.teams ∧
        (ps.foldl (fun u p => u.store p.1.pa (f p u)) u).ctxs = u.ctxs := by
    intro ps f
    induction ps with
    | nil => exact fun u h => ⟨h, rfl, rfl⟩
    | cons p ps ih =>
      intro u h
      obtain ⟨h1, h2, h3⟩ := ih (u.store p.1.pa (f p u)) (Memory.write_wf _ _ h)
      exact ⟨h1, by rw [List.foldl_cons, h2]; simp, by rw [List.foldl_cons, h3]; simp⟩
  exact key _ _ s h

/-- With none of them to take back, every access stays in flight and nothing changes. -/
theorem State.takeBack_nil (ls : List Late) : s.takeBack ls [] = (s, ls) := by
  simp [State.takeBack]

end Sys2Proof.Machine
end

