-- ==== Sys2Proof/Tests/Slice0.lean ====
section
/-! SUPPORT. The model's own tests: ill-formed terms that WellFormed refuses, words written out from the spec that decode to their
instructions, single steps with results worked out by hand, and a state and operands that meet the hypotheses of each statement. -/

namespace Sys2Proof.Tests

set_option Elab.async false

open Sys2Proof Sys2Proof.Machine

/-! ### Helpers -/

/-- A word of format F-R, F-M or F-X from OPC, DST, A, B, C and FUNC (R100, R101). -/
def word (opc dst a b c func : Nat) : W64 :=
  BitVec.ofNat 64 (opc * 2 ^ 54 + dst * 2 ^ 37 + a * 2 ^ 30 + b * 2 ^ 23 + c * 2 ^ 16 + func)

/-- The same with U set. -/
def uword (opc dst a b c func : Nat) : W64 := word opc dst a b c func + 0x0000800000000000#64

/-- The same for the active threads of predicate k1. -/
def kword (opc dst a b c func : Nat) : W64 := word opc dst a b c func + 0x0000100000000000#64

/-- The state after reset with a word about to issue (log entry 10). -/
def at' (w : W64) : State := State.reset.placeWord w

/-- Changes to its group, its team and its context. -/
def grp (f : Group → Group) (s : State) : State := s.updGrp (0, 0) f
def team (f : Team → Team) (s : State) : State := s.updTeam 0 f
def ctx (f : Ctx → Ctx) (s : State) : State := s.updCtx 0 f

/-- The number x in s(i), and in the pair from s(i). -/
def uni (i x : Nat) (g : Group) : Group := g.setS i (BitVec.ofNat 32 x)
def uni2 (i x : Nat) (g : Group) : Group := (g.setS i (BitVec.ofNat 32 x)).setS (i + 1) (BitVec.ofNat 32 (x / 2 ^ 32))

/-- The number x in n(i) of every thread, and f th in n(i) of thread th. -/
def named (i x : Nat) (g : Group) : Group := { g with threads := g.threads.map fun t => { t with n := t.n.setIfInBounds i (BitVec.ofNat 32 x) } }
def namedBy (i : Nat) (f : Nat → Nat) (g : Group) : Group :=
  { g with threads := g.threads.zipIdx.map fun p => { p.1 with n := p.1.n.setIfInBounds i (BitVec.ofNat 32 (f p.2)) } }

/-- The same for a pair of named registers. -/
def named2 (i x : Nat) (g : Group) : Group := named (i + 1) (x / 2 ^ 32) (named i x g)

/-- Predicate k1 set in the first n threads. -/
def k1 (n : Nat) (g : Group) : Group := { g with threads := g.threads.zipIdx.map fun p => if p.2 < n then { p.1 with k := p.1.k ||| 2#8 } else p.1 }

/-- The next state that an outcome holds; the state after one step. -/
def answer (o : Host.Outcome State Fault Refusal) : Option State :=
  match o with
  | .next t => some t
  | _ => none
def after (s : State) : Option State := answer (step s)

/-- What f reads from the issuing group after one step. -/
def seen {α : Type} (s : State) (f : Group → α) : Option α := ((after s).bind fun t => t.grp? (0, 0)).map f

/-- Named register i and predicate i of thread th; uniform register i. -/
def nOf (th i : Nat) (g : Group) : Nat := ((g.thread th).ni i).toNat
def kOf (th i : Nat) (g : Group) : Bool := (g.thread th).ki i
def qOf (th i : Nat) (g : Group) : Nat := ((g.thread th).qi i).toNat
def sOf (i : Nat) (g : Group) : Nat := (g.si i).toNat

/-- What the one reservation of the group holds for thread th. -/
def resvOf (th : Nat) (g : Group) : Option Nat := (g.resv.head?).bind fun r => (r.vals[th]?).map BitVec.toNat

/-- Code and detail of the fault that a step took: read from the record of the fault in the queue at PA 0x11000, the queue's
header being at PA 0x10100 of context 0. -/
def faulting (s : State) : State := { ctx (fun c => { c with fqhdr := 0x10100 }) s with mem := s.mem.wr 0x10100 8 0x11004 }
def faultOf (s : State) : Option (Nat × Nat) := (after (faulting s)).map fun t => (t.mem.rd 0x11006 2, t.mem.rd 0x11000 4)

/-- The word at the issuing group of s passes the checks of R114, and p holds of it and of the state past it. -/
def stands (s : State) (e : View → Entry) (p : View → Iss → State → Bool := fun _ _ _ => true) : Bool :=
  match (s.nextWord.bind parse).bind Instr.view with
  | none => false
  | some v =>
    match s.iss? v (e v).sh with
    | none => false
    | some w => (match issueChecks (e v) w with | .ok _ => true | .error _ => false) && (!(s.needs (e v) w).any (s.frozenVa w.c.num) &&
        s.walkPages w.c w.core (s.needs (e v) w) == []) && p v (w.ready (e v)) (s.moved (e v) w)

/-- What `stands` says: some word issues, and p holds of it. -/
theorem stands_issues {s : State} {e : View → Entry} {p : View → Iss → State → Bool} (h : stands s e p = true) :
    ∃ i v w, s.nextWord.bind parse = some i ∧ i.view = some v ∧ s.issues (e v) v w ∧ p v (w.ready (e v)) (s.moved (e v) w) = true := by
  unfold stands at h
  split at h
  · simp at h
  · rename_i v hv
    obtain ⟨i, hi, hiv⟩ := Option.bind_eq_some_iff.mp hv
    split at h
    · simp at h
    · rename_i w hw
      simp only [Bool.and_eq_true, Bool.not_eq_true', beq_iff_eq] at h
      refine ⟨i, v, w, hi, hiv, ⟨hw, ?_, h.1.2⟩, h.2⟩
      revert h
      cases issueChecks (e v) w <;> simp

/-! ### Well-formedness: an ill-formed term for each check (R102 to R106, R110, R113) -/

/-- Common fields: DST n0, no predicate, and the rest zero. -/
def h0 : Hdr := { look := 0#4, hold := 0#2, u := false, pred := 0#3, pneg := false, dst := 0x10#6 }

theorem test_wf_add : (Instr.add ⟨h0, 0x10#7, 0x11#7, 0#7, 0#16⟩).wf = true := by decide
theorem test_wf_unused_field : (Instr.neg ⟨h0, 0x10#7, 0x11#7, 0#7, 0#16⟩).wf = false := by decide
theorem test_wf_reserved_operand : (Instr.add ⟨h0, 0x58#7, 0x11#7, 0#7, 0#16⟩).wf = false := by decide
theorem test_wf_immediate_format : (Instr.ld ⟨h0, 0x57#7, 0#7, 0#23⟩).wf = false := by decide
theorem test_wf_two_immediates : (Instr.add ⟨h0, 0x57#7, 0x57#7, 0#7, 1#16⟩).wf = false := by decide
theorem test_wf_operand_pair : (Instr.lea ⟨h0, 0x11#7, 0x12#7, 0#7, 0#16⟩).wf = false := by decide
theorem test_wf_dst_reserved : (Instr.add ⟨{ h0 with dst := 9#6 }, 0x10#7, 0x11#7, 0#7, 0#16⟩).wf = false := by decide
theorem test_wf_dst_of_none : (Instr.br ⟨h0, 1#37⟩).wf = false := by decide
theorem test_wf_dst_pair : (Instr.lea ⟨{ h0 with dst := 0x11#6 }, 0x10#7, 0x12#7, 0#7, 0#16⟩).wf = false := by decide
theorem test_wf_dst_predicate_wide : (Instr.lea ⟨{ h0 with dst := 1#6 }, 0x10#7, 0x12#7, 0#7, 0#16⟩).wf = false := by decide
theorem test_wf_dst_uniform_word : (Instr.add ⟨{ h0 with u := true }, 0x30#7, 0x31#7, 0#7, 0#16⟩).wf = false := by decide
theorem test_wf_dst_of_thread_word : (Instr.add ⟨{ h0 with dst := 0x30#6 }, 0x10#7, 0x11#7, 0#7, 0#16⟩).wf = false := by decide
theorem test_wf_dst_queue_uniform : (Instr.add ⟨{ h0 with u := true, dst := 0#6 }, 0x30#7, 0x31#7, 0#7, 0#16⟩).wf = false := by decide
theorem test_wf_u_zero : (Instr.br ⟨{ h0 with u := true, dst := 0#6 }, 1#37⟩).wf = false := by decide
theorem test_wf_u_one : (Instr.cwait ⟨{ h0 with dst := 0#6 }, 0#7, 0#14, 0#16⟩).wf = false := by decide
theorem test_wf_uniform_predicated : (Instr.add ⟨{ h0 with u := true, pred := 1#3, dst := 0x30#6 }, 0x30#7, 0x31#7, 0#7, 0#16⟩).wf = false := by decide
theorem test_wf_unpredicated_word : (Instr.split ⟨{ h0 with pneg := true, dst := 0#6 }, 1#37⟩).wf = false := by decide
theorem test_wf_look : (Instr.add ⟨{ h0 with look := 1#4 }, 0x10#7, 0x11#7, 0#7, 0#16⟩).wf = false := by decide
theorem test_wf_hold_unread : (Instr.neg ⟨{ h0 with hold := 2#2 }, 0x10#7, 0#7, 0#7, 0#16⟩).wf = false := by decide
theorem test_wf_hold_none : (Instr.br ⟨{ h0 with hold := 1#2, dst := 0#6 }, 1#37⟩).wf = false := by decide
theorem test_wf_reserved_bits : (Instr.nop ⟨{ h0 with dst := 0#6 }, 0#7, 1#14, 0#16⟩).wf = false := by decide
theorem test_wf_func : (Instr.cmp ⟨h0, 0x10#7, 0x11#7, 0#7, 0x0C00#16⟩).wf = false := by decide
theorem test_wf_marm_form : (Instr.marm ⟨{ h0 with u := true, dst := 0#6 }, 0x30#7, 0x32#7, 0x34#7, 0#16⟩).wf = false := by decide

/-! ### Decoding: the example words of the spec, with the fields of their derivations -/

/-- Common fields with the given DST, U, PRED, LOOK and HOLD. -/
def hd (dst : Nat) (u : Bool := false) (pred : Nat := 0) (look : Nat := 0) (hold : Nat := 0) : Hdr :=
  { look := BitVec.ofNat 4 look, hold := BitVec.ofNat 2 hold, u := u, pred := BitVec.ofNat 3 pred, pneg := false, dst := BitVec.ofNat 6 dst }

/-- Integer and moving words (files 04, 05 and 14). -/
theorem test_decode_scalar :
    decode 0x000002202B8003E8#64 = .ok (.add ⟨hd 0x11, 0x00#7, 0x57#7, 0#7, 0x03E8#16⟩) ∧
    decode 0x098086803FFFFFFB#64 = .ok (.movi ⟨hd 0x34 true, 0#7, 0x3FFFFFFB#30⟩) ∧
    decode 0x08000035B9000400#64 = .ok (.cmp ⟨hd 1, 0x56#7, 0x72#7, 0#7, 0x0400#16⟩) ∧
    decode 0x01000255B6804000#64 = .ok (.mul ⟨hd 0x12, 0x56#7, 0x6D#7, 0#7, 0x4000#16⟩) ∧
    decode 0x058086957D800000#64 = .ok (.shl ⟨hd 0x34 true, 0x55#7, 0x7B#7, 0#7, 0#16⟩) ∧
    decode 0x090086CC1A000000#64 = .ok (.lea ⟨hd 0x36 true, 0x30#7, 0x34#7, 0#7, 0#16⟩) ∧
    decode 0x0940870D00000000#64 = .ok (.mov ⟨hd 0x38 true, 0x34#7, 0#7, 0#7, 0#16⟩) := by decide

/-- Logarithmic words (R142), control words (R162 to R172, R280, R283, R386, R387). -/
theorem test_decode_control :
    decode 0x1840022408800000#64 = .ok (.ladd ⟨hd 0x11, 0x10#7, 0x11#7, 0#7, 0#16⟩) ∧
    decode 0x1800020409000000#64 = .ok (.lmul ⟨hd 0x10, 0x10#7, 0x12#7, 0#7, 0#16⟩) ∧
    decode 0x41C000000000000B#64 = .ok (.split ⟨hd 0, 11#37⟩) ∧
    decode 0x4000100000000007#64 = .ok (.br ⟨hd 0 false 1, 7#37⟩) ∧
    decode 0x4200000000000000#64 = .ok (.join ⟨hd 0, 0#7, 0#7, 0#7, 0#16⟩) ∧
    decode 0x4180000000000000#64 = .ok (.exit ⟨hd 0, 0#7, 0#14, 0#16⟩) ∧
    decode 0x4100000480000000#64 = .ok (.callt ⟨hd 0, 0x12#7, 0#7, 0#7, 0#16⟩) ∧
    decode 0x4240000000000000#64 = .ok (.phase ⟨hd 0, 0#7, 0#14, 0#16⟩) ∧
    decode 0x4280000E9E000000#64 = .ok (.succ ⟨hd 0, 0x3A#7, 0x3C#7, 0#7, 0#16⟩) ∧
    decode 0x42C0100000000021#64 = .ok (.trap ⟨hd 0 false 1, 0#7, 0#14, 0x21#16⟩) ∧
    decode 0x43C0800E00000004#64 = .ok (.sysc ⟨hd 0 true, 0x38#7, 0#14, 4#16⟩) := by decide

/-- Memory words (R206, R232 to R251, R264, R331). -/
theorem test_decode_memory :
    decode 0x500802849EFFFFFE#64 = .ok (.ld ⟨hd 0x14 false 0 2, 0x12#7, 0x3D#7, 0x7FFFFE#23⟩) ∧
    decode 0x504005A48B000008#64 = .ok (.st ⟨hd 0x2D, 0x12#7, 0x16#7, 8#23⟩) ∧
    decode 0x5110030D00000000#64 = .ok (.ldt ⟨hd 0x18 false 0 4, 0x34#7, 0#7, 0#23⟩) ∧
    decode 0x51C002C4B8800300#64 = .ok (.atom ⟨hd 0x16, 0x12#7, 0x71#7, 0#7, 0x0300#16⟩) ∧
    decode 0x5300000000000110#64 = .ok (.fence ⟨hd 0, 0#7, 0#14, 0x0110#16⟩) ∧
    decode 0x5340000E1D000120#64 = .ok (.fencer ⟨hd 0, 0x38#7, 0x3A#7, 0#7, 0x0120#16⟩) ∧
    decode 0x5380800E29800000#64 = .ok (.marm ⟨hd 0 true, 0x38#7, 0x53#7, 0#7, 0#16⟩) ∧
    decode 0x53C0800000000000#64 = .ok (.mwait ⟨hd 0 true, 0#7, 0#7, 0#7, 0#16⟩) ∧
    decode 0x540086AE1D00A500#64 = .ok (.wuc ⟨hd 0x35 true, 0x38#7, 0x3A#7, 0#7, 0xA500#16⟩) ∧
    decode 0x5480128480000000#64 = .ok (.lqry ⟨hd 0x14 false 1, 0x12#7, 0#7, 0#23⟩) := by decide

/-- Matrix words, copies and table words (R187 to R197, R295, R307, R308, R318, R324, R339). -/
theorem test_decode_engines :
    decode 0x6001000D1B530000#64 = .ok (.mma ⟨hd 0 false 0 0 1, 0x34#7, 0x36#7, 0x53#7, 0#16⟩) ∧
    decode 0x610000111B534004#64 = .ok (.drain ⟨hd 0, 0x44#7, 0x36#7, 0x53#7, 0x4004#16⟩) ∧
    decode 0x61C00314C0000001#64 = .ok (.mrd ⟨hd 0x18, 0x53#7, 0#7, 0#7, 1#16⟩) ∧
    decode 0x6800800E1B3CA080#64 = .ok (.cpy ⟨hd 0 true, 0x38#7, 0x36#7, 0x3C#7, 0xA080#16⟩) ∧
    decode 0x6840800D22408000#64 = .ok (.cpyo ⟨hd 0 true, 0x34#7, 0x44#7, 0x40#7, 0x8000#16⟩) ∧
    decode 0x6900801021484000#64 = .ok (.cpys ⟨hd 0 true, 0x40#7, 0x42#7, 0x48#7, 0x4000#16⟩) ∧
    decode 0x694086AE00000001#64 = .ok (.cseal ⟨hd 0x35 true, 0x38#7, 0#14, 1#16⟩) ∧
    decode 0x6980800000000003#64 = .ok (.cwait ⟨hd 0 true, 0#7, 0#14, 3#16⟩) ∧
    decode 0x69C0800F00000002#64 = .ok (.tbind ⟨hd 0 true, 0x3C#7, 0#7, 0#7, 2#16⟩) ∧
    decode 0x6C00800E1C800043#64 = .ok (.bini ⟨hd 0 true, 0x38#7, 0x39#7, 0#7, 0x43#16⟩) ∧
    decode 0x6C40800000000003#64 = .ok (.barv ⟨hd 0 true, 0#7, 0#14, 3#16⟩) ∧
    decode 0x6C80800000000001#64 = .ok (.barw ⟨hd 0 true, 0#7, 0#14, 1#16⟩) ∧
    decode 0x6CC0800E80000003#64 = .ok (.bexp ⟨hd 0 true, 0x3A#7, 0#7, 0#7, 3#16⟩) ∧
    decode 0x79C0800F00000000#64 = .ok (.rcinv ⟨hd 0 true, 0x3C#7, 0#7, 0#7, 0#16⟩) := by decide

/-- Queues, tracing and privileged words (R218, R288, R342 to R348, R384). -/
theorem test_decode_system :
    decode 0x78C0800E38800000#64 = .ok (.jdec ⟨hd 0 true, 0x38#7, 0x71#7, 0#7, 0#16⟩) ∧
    decode 0x7C00800E000000C5#64 = .ok (.trc ⟨hd 0 true, 0x38#7, 0#7, 0#7, 0xC5#16⟩) ∧
    decode 0x7C400005000000C6#64 = .ok (.trcm ⟨hd 0, 0x14#7, 0#7, 0#7, 0xC6#16⟩) ∧
    decode 0x7C80034000000003#64 = .ok (.cnt ⟨hd 0x1A, 0#7, 0#14, 3#16⟩) ∧
    decode 0x8000800E1D3C0000#64 = .ok (.rmap ⟨hd 0 true, 0x38#7, 0x3A#7, 0x3C#7, 0#16⟩) ∧
    decode 0x8040800E00000000#64 = .ok (.rcommit ⟨hd 0 true, 0x38#7, 0#14, 0#16⟩) ∧
    decode 0x808086B000000000#64 = .ok (.eret ⟨hd 0x35 true, 0x40#7, 0#14, 0#16⟩) ∧
    decode 0x8140800E40000000#64 = .ok (.ctxld ⟨hd 0 true, 0x39#7, 0#7, 0#7, 0#16⟩) ∧
    decode 0x8180800E1C800000#64 = .ok (.bdg ⟨hd 0 true, 0x38#7, 0x39#7, 0#7, 0#16⟩) := by decide

/-- Words of the families whose entries give no example word, laid out from R100, R101 and the encodings: `fadd.f32 n0, n0, n1`,
`cvt.f32.i32 n0, n0`, `shf.up n0, n0, n1` over segments of 8, and OPC 0x023, which the map does not list (R115). -/
theorem test_decode_laid_out :
    decode (0b0001000000_00000000000_010000_0010000_0010001_0000000_0000000000000000#64) = .ok (.fadd ⟨hd 0x10, 0x10#7, 0x11#7, 0#7, 0#16⟩) ∧
    decode (0b0010000000_00000000000_010000_0010000_0000000_0000000_0011100100000000#64) = .ok (.cvt ⟨hd 0x10, 0x10#7, 0#7, 0#7, 0x3900#16⟩) ∧
    decode (0b0010100000_00000000000_010000_0010000_0010001_0000000_0100000000000000#64) = .ok (.shf ⟨hd 0x10, 0x10#7, 0x11#7, 0#7, 0x4000#16⟩) ∧
    decode (0b0011000000_00000000000_010000_0000000_00000000000000_0000000000010010#64) = .ok (.rdsr ⟨hd 0x10, 0#7, 0#14, 0x12#16⟩) ∧
    decode (0b0000100011_000000000000000000000000000000000000000000000000000000#64) = .error .illegalOpcode := by decide

/-! ### Single steps, with results worked out from the rules -/

/-- The state with a three-operand word and its values in n0, n1, n2 (or pairs), DST n0 and C only where `c` gives its code. -/
def on (opc func a b c : Nat) (bc cc : Nat) : State := grp (fun g => named 2 c (named 1 b (named 0 a g))) (at' (word opc 0x10 0x10 bc cc func))
def one (opc func a : Nat) : State := on opc func a 0 0 0 0
def two (opc func a b : Nat) : State := on opc func a b 0 0x11 0
def three (opc func a b c : Nat) : State := on opc func a b c 0x11 0x12

/-- n0 of thread 5 after one step, and the reserved value of thread 5. -/
def r (s : State) : Option Nat := seen s (nOf 5 0)
def late (s : State) : Option Nat := (seen s (resvOf 5)).join

/-! Integer words (R129 to R135). -/

theorem test_add_wraps : r (two 0x000 0 0xFFFFFFFF 2) = some 1 := by decide +kernel
theorem test_add_saturates : r (two 0x000 0x1000 0x7FFFFFFF 1) = some 0x7FFFFFFF := by decide +kernel
theorem test_sub_i8_wraps : r (two 0x001 0xC000 0x80 1) = some 0x7F := by decide +kernel
theorem test_addc_carry : seen (three 0x002 0 0xFFFFFFFF 0 1) (fun g => (nOf 5 0 g, nOf 5 1 g)) = some (0, 1) := by decide +kernel
theorem test_subb_borrow : seen (three 0x003 0 0 0 1) (fun g => (nOf 5 0 g, nOf 5 1 g)) = some (0xFFFFFFFF, 1) := by decide +kernel
theorem test_mul_wraps : r (two 0x004 0 0x10001 0x10000) = some 0x10000 := by decide +kernel
theorem test_mulh_signed : r (two 0x005 0 0xFFFFFFFF 1) = some 0xFFFFFFFF := by decide +kernel
theorem test_mulh_unsigned : r (two 0x005 0x2000 0xFFFFFFFF 2) = some 1 := by decide +kernel
theorem test_mad : r (three 0x006 0 3 0xFFFFFFFC 5) = some 0xFFFFFFF9 := by decide +kernel
theorem test_neg_saturates : r (one 0x007 0x1000 0x80000000) = some 0x7FFFFFFF := by decide +kernel
theorem test_abs : r (one 0x008 0 0xFFFFFFFB) = some 5 := by decide +kernel
theorem test_min_signed : r (two 0x009 0 0xFFFFFFFF 1) = some 0xFFFFFFFF := by decide +kernel
theorem test_max_unsigned : r (two 0x00A 0x2000 0xFFFFFFFF 1) = some 0xFFFFFFFF := by decide +kernel
theorem test_clamp : r (three 0x00B 0 10 0 5) = some 5 := by decide +kernel
theorem test_div_by_zero : late (two 0x00C 0 7 0) = some 0xFFFFFFFF := by decide +kernel
theorem test_div_truncates : late (two 0x00C 0 0xFFFFFFF9 2) = some 0xFFFFFFFD := by decide +kernel
theorem test_rem_sign : late (two 0x00D 0 0xFFFFFFF9 2) = some 0xFFFFFFFF := by decide +kernel
theorem test_sad : r (three 0x00E 0 3 10 5) = some 12 := by decide +kernel
theorem test_dot4 : r (three 0x00F 0x2000 0x01020304 0x01010101 10) = some 20 := by decide +kernel
theorem test_and : r (two 0x010 0 0xF0F0 0xFF00) = some 0xF000 := by decide +kernel
theorem test_or : r (two 0x011 0 0xF0F0 0xFF00) = some 0xFFF0 := by decide +kernel
theorem test_xor : r (two 0x012 0 0xF0F0 0xFF00) = some 0x0FF0 := by decide +kernel
theorem test_not : r (one 0x013 0 0x0000FFFF) = some 0xFFFF0000 := by decide +kernel
theorem test_andn : r (two 0x014 0 0xF0F0 0xFF00) = some 0x00F0 := by decide +kernel
theorem test_lgc3_parity : r (three 0x015 0x96 0xC 0xA 0x1) = some 0x7 := by decide +kernel
theorem test_shl_full_width : r (two 0x016 0 1 32) = some 0 := by decide +kernel
theorem test_shr : r (two 0x017 0x2000 0x80000000 31) = some 1 := by decide +kernel
theorem test_sar_beyond_width : r (two 0x018 0 0x80000000 40) = some 0xFFFFFFFF := by decide +kernel
theorem test_rol : r (two 0x019 0 0x80000001 33) = some 3 := by decide +kernel
theorem test_bfx : r (two 0x01A 0x2000 0x12345678 0x0808) = some 0x56 := by decide +kernel
theorem test_bfi : r (three 0x01B 0 0xF000000F 0xAB 0x0804) = some 0xF0000ABF := by decide +kernel
theorem test_pop : r (one 0x01C 0 0xF00F) = some 8 := by decide +kernel
theorem test_clz : r (one 0x01D 0 1) = some 31 := by decide +kernel
theorem test_ctz_of_zero : r (one 0x01E 0 0) = some 32 := by decide +kernel
theorem test_brev : r (one 0x01F 0 1) = some 0x80000000 := by decide +kernel
theorem test_cmp_to_predicate : seen (grp (fun g => named 1 1 (named 0 0xFFFFFFFF g)) (at' (word 0x020 2 0x10 0x11 0 0x0400))) (kOf 5 2) =
    some true := by decide +kernel
theorem test_sel : r (three 0x021 0 1 2 0) = some 2 := by decide +kernel
theorem test_pset_andn : seen (grp (k1 6) (at' (word 0x022 3 0 0 0 0x2C04))) (fun g => (kOf 5 3 g, kOf 6 3 g)) = some (true, false) := by decide +kernel
theorem test_lea_signed : seen (grp (fun g => named 2 0xFFFFFFFF (named2 0 0x100000000 g)) (at' (word 0x024 0x14 0x10 0x12 0 0xA)))
    (fun g => (nOf 5 4 g, nOf 5 5 g)) = some (0xFFFFFFFC, 0) := by decide +kernel
theorem test_mov_pair : seen (grp (named2 0 0x1122334455667788) (at' (word 0x025 0x14 0x10 0 0 0x4000))) (fun g => (nOf 5 4 g, nOf 5 5 g)) =
    some (0x55667788, 0x11223344) := by decide +kernel
theorem test_movi_uniform : seen (at' 0x098086803FFFFFFB#64) (sOf 4) = some 0xFFFFFFFB := by decide +kernel
theorem test_movh : r (on 0x027 0x1234 0xAAAA5678 0 0 0 0) = some 0x12345678 := by decide +kernel

/-- A result with DST 0x00 pushes the queue of every thread; an inactive thread pushes a copy of its q0 (R106, R107). -/
theorem test_push : seen (grp (fun g => k1 6 (named 0 3 g)) (at' (kword 0x000 0 0x10 0x10 0 0))) (fun g => (qOf 5 0 g, qOf 6 0 g)) = some (6, 0) := by
  decide +kernel

/-! Float and logarithmic words (R57, R66, R68, R137 to R142). -/

theorem test_fadd : r (two 0x040 0 0x3F800000 0x40000000) = some 0x40400000 := by decide +kernel
theorem test_fadd_opposite_zeros : r (two 0x040 0 0x80000000 0) = some 0 := by decide +kernel
theorem test_fsub : r (two 0x041 0 0x3F800000 0x40000000) = some 0xBF800000 := by decide +kernel
theorem test_fmul : r (two 0x042 0 0x40000000 0x40400000) = some 0x40C00000 := by decide +kernel
theorem test_fma : r (three 0x043 0 0x40000000 0x40400000 0x3F800000) = some 0x40E00000 := by decide +kernel
theorem test_fmin_zeros : r (two 0x044 0 0 0x80000000) = some 0x80000000 := by decide +kernel
theorem test_fmax : r (two 0x045 0 0x3F800000 0xC0000000) = some 0x3F800000 := by decide +kernel
theorem test_fcmp_nan_is_not_equal : r (two 0x046 0x10 0x7FC00000 0x7FC00000) = some 1 := by decide +kernel
theorem test_frnd_tie_to_even : r (one 0x047 0 0x40200000) = some 0x40000000 := by decide +kernel
theorem test_frcp : late (one 0x048 0 0x40000000) = some 0x3F000000 := by decide +kernel
theorem test_frsq : late (one 0x049 0 0x40800000) = some 0x3F000000 := by decide +kernel
theorem test_fsqrt : late (one 0x04A 0 0x40800000) = some 0x40000000 := by decide +kernel
theorem test_fex2 : late (one 0x04B 0 0x40400000) = some 0x41000000 := by decide +kernel
theorem test_flg2 : late (one 0x04C 0 0x41000000) = some 0x40400000 := by decide +kernel
theorem test_fsin_of_zero : late (one 0x04D 0 0x80000000) = some 0x80000000 := by decide +kernel
theorem test_fcos_of_zero : late (one 0x04E 0 0) = some 0x3F800000 := by decide +kernel
theorem test_fdiv_third : late (two 0x04F 0 0x3F800000 0x40400000) = some 0x3EAAAAAB := by decide +kernel
theorem test_fscale : r (two 0x050 0 0x3F800000 3) = some 0x41000000 := by decide +kernel
theorem test_fclass_minus_zero : r (one 0x051 0 0x80000000) = some 8 := by decide +kernel
theorem test_padd_halves : r (two 0x052 0 0x3C004000 0x3C003C00) = some 0x40004200 := by decide +kernel
theorem test_pmul : r (two 0x053 0 0x40004200 0x40003C00) = some 0x44004200 := by decide +kernel
theorem test_pfma : r (three 0x054 0 0x40003C00 0x40003C00 0x00003C00) = some 0x44004000 := by decide +kernel
theorem test_pmin : r (two 0x055 0 0x40003C00 0x3C004000) = some 0x3C003C00 := by decide +kernel
theorem test_pmax : r (two 0x056 0 0x40003C00 0x3C004000) = some 0x40004000 := by decide +kernel
theorem test_lmul_clamps : r (two 0x060 0 0x3FFF 0x8001) = some 0xBFFF := by decide +kernel
theorem test_ladd_of_equal : r (two 0x061 0 0x0100 0x0100) = some 0x0200 := by decide +kernel
theorem test_lsub_cancels : r (two 0x062 0 0x0100 0x0100) = some 0x4000 := by decide +kernel
theorem test_lmax_zero_above_negative : r (two 0x063 0 0x8100 0x4000) = some 0x4000 := by decide +kernel

/-! Conversions and lanes (R143 to R152). -/

theorem test_cvt_f32_i32_tie : r (one 0x080 0x3900 0x40200000) = some 2 := by decide +kernel
theorem test_pack_slot : r (two 0x081 0x5000 0x11111111 0x1AB) = some 0x11AB1111 := by decide +kernel
theorem test_unpk_signed : r (one 0x082 0x5400 0x00FE0000) = some 0xFFFFFFFE := by decide +kernel
theorem test_bscale_nan_block : r (two 0x084 0x5000 0x3F800000 0xFF) = some 0 := by decide +kernel
theorem test_shf_up : seen (grp (fun g => named 1 1 (namedBy 0 (fun th => 10 * th) g)) (at' (word 0x0A0 0x10 0x10 0x11 0 0x4000)))
    (fun g => (resvOf 5 g, resvOf 8 g)) = some (some 40, some 80) := by decide +kernel
theorem test_vote_ballot : seen (grp (namedBy 0 fun th => th % 2) (at' (word 0x0A1 0x12 0x10 0 0 0x8000))) (resvOf 9) = some (some 0xAA) := by decide +kernel
theorem test_redx_add : seen (grp (namedBy 0 fun th => th) (at' (word 0x0A2 0x10 0x10 0 0 0))) (resvOf 9) = some (some 92) := by decide +kernel
theorem test_bcst : seen (grp (fun g => uni 1 9 (namedBy 0 (fun th => 10 * th) g)) (at' (word 0x0A3 0x10 0x10 0x31 0 0))) (resvOf 12) = some (some 90) := by
  decide +kernel
theorem test_scan_exclusive : seen (grp (namedBy 0 fun th => th) (at' (word 0x0A4 0x10 0x10 0 0 0x0100))) (resvOf 10) = some (some 17) := by decide +kernel
theorem test_rdsr_tid : seen (at' (word 0x0C0 0x10 0 0 0 0)) (nOf 13 0) = some 13 := by decide +kernel
theorem test_wrsr_seed : (after (grp (uni 0 77) (at' (uword 0x0C1 0 0x30 0 0 0xF)))).bind (fun t => (t.ctx? 0).map Ctx.seed) = some 77#32 := by decide +kernel

/-! Control words (R163 to R173, R280, R386, R387). -/

def pcOf (g : Group) : Nat := g.pc.toNat
def top (g : Group) : Option (StkKind × Nat × Nat) := g.stk.head?.map fun e => (e.kind, e.pc.toNat, e.mask.toNat)
/-- The group with one entry of a kind on its stack. -/
def stack (k : StkKind) (n : Nat) (g : Group) : Group := { g with stk := List.replicate n ⟨0x10040#64, 0xFF#64, 0#16, k⟩ }

theorem test_br_takes_all : seen (at' (word 0x100 0 0 0 0 7)) pcOf = some 0x10038 := by decide +kernel
theorem test_br_diverges : seen (grp (k1 6) (at' (kword 0x100 0 0 0 0 7))) (fun g => (pcOf g, top g, g.mask.toNat)) =
    some (0x10038, some (.pending, 0x10010, 0xFFC0), 0x3F) := by decide +kernel
theorem test_br_overflow : faultOf (grp (fun g => stack .call 16 (k1 6 g)) (at' (kword 0x100 0 0 0 0 7))) = some (0x0007, 0) := by decide +kernel
theorem test_call : seen (at' (word 0x103 0 0 0 0 4)) (fun g => (pcOf g, top g)) = some (0x10020, some (.call, 0x10010, 0xFFFF)) := by decide +kernel
theorem test_ret_empty : faultOf (at' (word 0x105 0 0 0 0 0)) = some (0x0007, 1) := by decide +kernel
theorem test_ret : seen (grp (stack .call 1) (at' (word 0x105 0 0 0 0 0))) (fun g => (pcOf g, g.mask.toNat, g.stk.length)) =
    some (0x10040, 0xFF, 0) := by decide +kernel
theorem test_join : seen (grp (stack .reconv 2) (at' (word 0x108 0 0 0 0 0))) (fun g => (pcOf g, g.stk.length)) = some (0x10040, 1) := by decide +kernel
theorem test_join_of_call : faultOf (grp (stack .call 1) (at' (word 0x108 0 0 0 0 0))) = some (0x0007, 2) := by decide +kernel
theorem test_split : seen (at' 0x41C000000000000B#64) top = some (some (.reconv, 0x10058, 0xFFFF)) := by decide +kernel
theorem test_loop_ends : seen (grp (uni 0 1) (at' (uword 0x10E 0x30 0 0 0 3))) (fun g => (sOf 0 g, pcOf g)) = some (0, 0x10010) := by decide +kernel
theorem test_loop_again : seen (grp (uni 0 2) (at' (uword 0x10E 0x30 0 0 0 3))) (fun g => (sOf 0 g, pcOf g)) = some (1, 0x10018) := by decide +kernel
theorem test_exit_some : seen (grp (k1 6) (at' (kword 0x106 0 0 0 0 0))) (fun g => (g.live.toNat, g.mask.toNat, pcOf g)) = some (0xFFC0, 0xFFC0, 0x10010) := by
  decide +kernel
theorem test_trap : faultOf (at' (word 0x10B 0 0 0 0 0x21)) = some (0x000E, 0x21) := by decide +kernel
theorem test_brk_without_brken : seen (at' (word 0x10C 0 0 0 0 0x21)) pcOf = some 0x10010 := by decide +kernel
theorem test_nop : seen (at' (word 0x10D 0 0 0 0 0)) pcOf = some 0x10010 := by decide +kernel
theorem test_land : seen (at' (word 0x102 0 4 0 0 0xA5)) pcOf = some 0x10010 := by decide +kernel
theorem test_sysc_without_queue : faultOf (at' (uword 0x10F 0 0x38 0 0 4)) = some (0x0011, 7) := by decide +kernel

/-- A jump table at VA 0x10200 with one table of two targets, labelled 0xA5: words 6 and 8 from ENTRY. -/
def tabled (s : State) : State :=
  let m := ((s.mem.wr 0x10200 8 1).wr 0x10208 8 0x00A5000200000010).wr 0x10210 8 0x0000000800000006
  team (fun t => { t with kd := { t.kd with jtab := 0x10200#64 } }) { s with mem := m }

theorem test_jt : seen (grp (uni 0 1) (tabled (at' (word 0x101 0 0x30 0 0 0)))) (fun g => (pcOf g, g.land)) = some (0x10040, some (0xA5#16, false)) := by
  decide +kernel
theorem test_jt_range : faultOf (grp (uni 0 2) (tabled (at' (word 0x101 0 0x30 0 0 0)))) = some (0x0008, 2) := by decide +kernel
theorem test_callt : seen (grp (namedBy 2 fun th => if th < 8 then 1 else 0) (tabled (at' 0x4100000480000000#64)))
    (fun g => (pcOf g, g.mask.toNat, g.stk.map fun e => (e.kind, e.pc.toNat, e.mask.toNat))) =
    some (0x10030, 0xFF00, [(.target, 0x10040, 0xFF), (.call, 0x10010, 0xFFFF)]) := by decide +kernel

/-! Memory words (R232 to R256, R264, R332). -/

/-- The number x in the eight bytes at VA and PA 0x10800. -/
def data (x : Nat) (s : State) : State := { s with mem := s.mem.wr 0x10800 8 x }
/-- Eight bytes at 0x10800 after one step. -/
def stored (s : State) : Option Nat := (after s).map fun t => t.mem.rd 0x10800 8
/-- The address of 0x10800 in n0:n1, and the number x in n2:n3. -/
def to800 (x : Nat) (g : Group) : Group := named2 2 x (named2 0 0x10800 g)
/-- The same with one address for each thread, 8 bytes apart from thread 0 on. -/
def spread (g : Group) : Group := namedBy 0 (fun th => 0x10800 + 8 * th) g

theorem test_ld_signed_byte : seen (grp (to800 0) (data 0x00000000000080FF (at' (word 0x140 0x14 0x10 0x10 0 1)))) (resvOf 3) = some (some 0xFFFFFF80) := by
  decide +kernel
theorem test_ld_misaligned : faultOf (grp (to800 0) (at' (word 0x140 0x14 0x10 0x40 0 2))) = some (0x0012, 0) := by decide +kernel
theorem test_st_byte : stored (grp (to800 0x1122) (data 0x1111111111111111 (at' (word 0x141 0x00 0x10 0x12 0 3)))) = some 0x1111111122111111 := by
  decide +kernel
theorem test_st_highest_thread : stored (grp (fun g => namedBy 2 (fun th => th) (to800 0 g)) (at' (word 0x141 0x20 0x10 0x12 0 0))) = some 15 := by
  decide +kernel
theorem test_lds_after_sts : ((after (grp (fun g => named 2 77 (named 0 0x40 g)) (at' (word 0x143 0x20 0x10 0x12 0 0)))).map fun t =>
    t.lsBytes 0 (coreId 2 0 0) 0x40 4) = some (leBytes 4 77) := by decide +kernel
theorem test_lds_reads_zero : seen (grp (named 0 0x40) (at' (word 0x142 0x14 0x10 0x40 0 0))) (resvOf 0) = some (some 0) := by decide +kernel
theorem test_uld : seen (grp (uni2 0 0x10800) (data 0x99 (at' (uword 0x145 0x34 0x30 0x10 0 0)))) (fun g => g.resv.map fun x => (x.uni, x.vals)) =
    some [(some 4, [0x99#64])] := by decide +kernel
theorem test_pfx_of_nowhere : seen (grp (named2 0 0xDEAD00000000) (at' (word 0x146 0 0x10 0 0 0))) pcOf = some 0x10010 := by decide +kernel
theorem test_atom_add_serial : stored (grp (to800 1) (data 100 (at' (word 0x147 0x14 0x10 0x12 0 0x0200)))) = some 116 := by decide +kernel
theorem test_atom_old_values : seen (grp (to800 1) (data 100 (at' (word 0x147 0x14 0x10 0x12 0 0x0200)))) (resvOf 5) = some (some 105) := by decide +kernel
theorem test_red_min_signed : stored (grp (to800 0xFFFFFFFF) (data 5 (at' (word 0x148 0 0x10 0x12 0 0x1000)))) = some 0xFFFFFFFF := by decide +kernel
theorem test_cas_once : stored (grp (fun g => named 4 9 (to800 5 g)) (data 5 (at' (word 0x149 0x18 0x10 0x12 0x14 0x0200)))) = some 9 := by decide +kernel
theorem test_atomv : ((after (grp (fun g => (List.range 8).foldl (fun g j =>
    named (4 + j) (j + 1) g) (to800 0 g)) (at' (word 0x14A 0x20 0x10 0x14 0 0x0200)))).map fun t =>
    t.mem.rd 0x1081C 4) = some 128 := by decide +kernel
theorem test_zln : stored (grp (fun g => k1 1 (to800 0 g)) (data 0x1234 (at' (kword 0x151 0 0x10 0 0 0)))) = some 0 := by decide +kernel
theorem test_fence : seen (at' 0x5300000000000100#64) pcOf = some 0x10010 := by decide +kernel
theorem test_mwait_unarmed : seen (at' 0x53C0800000000000#64) (fun g => g.wait) = some .monitor := by decide +kernel

/-! Matrix, copy and table words (R189 to R197, R307, R319, R325). -/

/-- One accumulator element of octet 0 of the group. -/
def accOf (tile i : Nat) (t : State) : Option Nat := (t.team? 0).map fun x => (x.accTileOf 0 0 tile).getD i 0
/-- The element i of every octet's tile set to x. -/
def acc (tile : Nat) (xs : List Nat) (s : State) : State := team (fun t => (List.range 2).foldl (fun t o => t.setAcc 0 o tile xs) t) s

theorem test_mzero : ((after (acc 1 (List.replicate 256 5) (at' (word 0x182 1 0 0 0x53 0)))).bind (accOf 1 255)) = some 0 := by decide +kernel
theorem test_mscl_doubles : ((after (grp (uni 0 1) (acc 1 [0x3F800000] (at' (word 0x186 1 0x30 0 0x53 0))))).bind (accOf 1 0)) =
    some 0x40000000 := by decide +kernel
theorem test_mrd_element : seen (grp (named 0 3) (acc 1 [0, 0, 0, 0x3F800000] (at' 0x61C0020400000001#64))) (resvOf 2) = some (some 0x3F800000) := by
  decide +kernel
theorem test_mrd_status : seen (grp (fun g => { g with mstat := 5#32, keep := true }) (at' (word 0x187 0x10 0 0 0 0x6000)))
    (fun g => (resvOf 2 g, g.mstat)) = some (some 0x105, 0#32) := by decide +kernel
theorem test_mrel : seen (grp (fun g => { g with keep := true }) (at' (word 0x185 0 0 0 0 0))) (fun g => g.keep) = some false := by decide +kernel

theorem test_cseal_number : seen (grp (uni2 8 0) (at' (uword 0x1A5 0x35 0 0 0 0))) (fun g => (sOf 5 g, g.seq)) = some (1, 1#32) := by decide +kernel
theorem test_cwait : seen (at' 0x6980800000000003#64) (fun g => g.wait) = some (.batch false 3) := by decide +kernel
theorem test_cpy_of_nothing : seen (grp (fun g => uni 4 0 (uni2 2 0x10900 (uni2 0 0x10800 g))) (at' (uword 0x1A0 0 0x30 0x32 0x34 0))) (fun g =>
    (g.unsealed, pcOf g)) =
    some ([], 0x10010) := by decide +kernel

def tileOf (n : Nat) (t : State) : Option Tile := (t.team? 0).bind fun x => (x.tiles.getD 0 [])[n]?
def barOf (n : Nat) (t : State) : Option Barrier := (t.team? 0).bind fun x => x.barriers[n]?
def tile (n : Nat) (x : Tile) (s : State) : State := s.updTile 0 0 n fun _ => x
def bar (n : Nat) (f : Barrier → Barrier) (s : State) : State := s.updBar 0 n f

theorem test_tset_ready : ((after (grp (fun g => uni 1 4 (uni 0 0x80 g)) (at' (uword 0x1A8 0 0x30 0x31 0 0x42)))).bind (tileOf 2)).map (fun t =>
    (t.st, t.base, t.size)) =
    some (.ready, 0x80, 4) := by decide +kernel
theorem test_tset_misaligned : faultOf (grp (fun g => uni 1 4 (uni 0 0x90 g)) (at' (uword 0x1A8 0 0x30 0x31 0 0x42))) = some (0x0012, 0) := by decide +kernel
theorem test_tbind : ((after (grp (uni2 12 0x10840) (tile 2 { Tile.reset with size := 4, st := .ready } (at' 0x69C0800F00000002#64)))).bind (tileOf 2)).map
    (fun t => (t.st, t.absent, t.rcp)) = some (.empty, true, 0x10840#64) := by decide +kernel
theorem test_tget : seen (tile 2 { Tile.reset with size := 4, st := .ready, base := 0x80 } (at' (uword 0x1A9 0x34 0 0 0 2))) (fun g => (sOf 4 g, sOf 5 g)) =
    some (0x04000080, 0x8000) := by decide +kernel
theorem test_trel_rebinds : ((after (tile 2 { Tile.reset with size := 4, st := .ready, rcp := 0x40#64 } (at' (uword 0x1AB 0 0 0 0 2)))).bind (tileOf 2)).map
    (fun t => (t.st, t.absent)) = some (.empty, true) := by decide +kernel
theorem test_twait : seen (at' (uword 0x1AA 0 0 0 0 0x42)) (fun g => g.wait) = some (.tile 2 1 0#16) := by decide +kernel

theorem test_bini_all : ((after (at' (uword 0x1B0 0 0x30 0x31 0 0x43))).bind (barOf 3)).map (fun b => (b.memb, b.autodrop)) = some (1#16, true) := by
  decide +kernel
theorem test_barv_completes : ((after (at' 0x6C40800000000003#64)).bind (barOf 3)).map (fun b => (b.arrm, b.ph)) = some (0#16, true) := by decide +kernel
theorem test_barv_waits_for_bytes : ((after (bar 3 (fun b => { b with txb := 4#32 }) (at' 0x6C40800000000003#64))).bind (barOf 3)).map (fun b =>
    (b.arrm, b.ph)) =
    some (1#16, false) := by decide +kernel
theorem test_barv_twice : faultOf (bar 3 (fun b => { b with arrm := 1#16 }) (at' 0x6C40800000000003#64)) = some (0x0023, 2) := by decide +kernel
theorem test_barw : seen (at' 0x6C80800000000001#64) (fun g => g.wait) = some (.barrier 1) := by decide +kernel
theorem test_bexp_overflow : faultOf (grp (uni 10 1) (bar 3 (fun b => { b with txb := 0x7FFFFFFF#32 }) (at' 0x6CC0800E80000003#64))) =
    some (0x0023, 4) := by decide +kernel
theorem test_bdrop : ((after (bar 3 (fun b => { b with memb := 3#16 }) (at' (uword 0x1B4 0 0 0 0 3)))).bind (barOf 3)).map (fun b => b.memb) =
    some 2#16 := by decide +kernel
theorem test_bget_clears_error : seen (bar 3 (fun b => { b with err := true }) (at' (uword 0x1B5 0x34 0 0 0 0xC3))) (sOf 4) = some 0x60000 := by decide +kernel

/-! Queue, tracing and privileged words (R218, R281, R289, R342, R361, R387). -/

/-- A queue of four items of the given kind at VA 0x11000, its ring at 0x12000, registered in a directory at PA 0x13000, and 64 bytes of LS
from 0x40 on with the number x in front. -/
def queue (kind head tail x : Nat) (s : State) : State :=
  let m := (((s.mem.wr 0x11000 8 0x12000).wr 0x11008 8 (kind * 2 ^ 56 + 2 * 2 ^ 51 + 2 ^ 48)).wr 0x11010 8 head).wr 0x11018 8 tail
  let m := if kind = 3 then m.wr 0x11020 8 0x14000 else m
  let u := { s with mem := (m.wr 0x13000 8 0x11000).wr 0x12000 8 0x5A, pkg := { s.pkg with mgmt := { s.pkg.mgmt with qdir := 0x13000 } } }
  team (fun t => { t with ls := [[(0x40, BitVec.ofNat 8 x)].filter fun c => c.2 != 0#8] }) u
/-- The queue's header in s8:s9 and the LS offset 0x40 in s10. -/
def queued (g : Group) : Group := uni 10 0x40 (uni2 8 0x11000 g)
def qword (opc dst : Nat) : W64 := uword opc dst 0x38 0x3A 0 0

theorem test_qenq : (after (grp queued (queue 2 5 6 0x77 (at' (qword 0x1E0 0x34))))).map (fun t => (t.mem.rd 0x11018 8, t.mem.rd 0x12080 8,
    ((t.grp? (0, 0)).map (sOf 4)))) = some (7, 0x77, some 6) := by decide +kernel
theorem test_qenq_full : (after (grp queued (queue 2 5 9 0x77 (at' (qword 0x1E0 0x34))))).map (fun t => (t.mem.rd 0x11018 8,
    ((t.grp? (0, 0)).map (sOf 4)))) = some (9, some 0xFFFFFFFF) := by decide +kernel
theorem test_spawn_wrong_kind : faultOf (grp queued (queue 2 0 0 0 (at' (qword 0x1E5 0x08)))) = some (0x0041, 15) := by decide +kernel
theorem test_qtry_takes_head : (after (grp queued (queue 3 4 5 0 (at' (qword 0x1E2 0x34))))).map (fun t => (t.mem.rd 0x11010 8,
    t.lsBytes 0 (coreId 2 0 0) 0x40 1)) = some (5, [0x5A#8]) := by decide +kernel
theorem test_qdeq_waits : seen (grp queued (queue 3 4 4 0 (at' (qword 0x1E1 0x34)))) (fun g => g.wait) = some (.qdeq 0x11000 0x40 0x34) := by decide +kernel
theorem test_jdec_stops_at_zero : stored (grp (uni2 8 0x10800) (data 1 (at' 0x78C0800E38800000#64))) = some 0 := by decide +kernel
theorem test_jset : stored (grp (fun g => uni 10 9 (uni2 8 0x10800 g)) (data 1 (at' (qword 0x1E4 0)))) = some 9 := by decide +kernel
theorem test_qnt_misaligned_header : faultOf (grp (uni2 8 0x11040) (queue 4 0 0 0 (at' (qword 0x1E6 0x08)))) = some (0x0012, 0) := by decide +kernel
theorem test_rcinv_one : (after (grp (uni2 12 0x10800) { at' 0x79C0800F00000000#64 with shapes := [⟨64, 0, 0x10800, []⟩, ⟨64, 0, 0x10840, []⟩] })).map (fun t => t.shapes.length) =
    some 1 := by decide +kernel
theorem test_cnt_privileged_bank : faultOf (ctx (fun c => { c with priv := false }) (at' (word 0x1F2 0x10 0 0 0 0x8000))) = some (0x0011, 8) := by
  decide +kernel
theorem test_trc_without_filter : seen (at' 0x7C00800E000000C5#64) pcOf = some 0x10010 := by decide +kernel

theorem test_rmap_stages : (after (grp (fun g => uni 12 7 (uni2 10 0x10800 (uni 8 0 g))) (data 0x70001 (at' 0x8000800E1D3C0000#64)))).bind
    (fun t => (t.ctx? 0).map fun c => ((c.staged.getD 7 Range.zero).d0, (c.committed.getD 7 Range.zero).d0)) = some (0x70001#64, 0#64) := by decide +kernel
theorem test_rmap_user_mode : faultOf (ctx (fun c => { c with priv := false }) (at' 0x8000800E1D3C0000#64)) = some (0x0011, 0) := by decide +kernel
def committing : Option State :=
  after (ctx (fun c => { c with staged := c.staged.set 7 ⟨0x70001#64, 0x70000#64, 0x70000#64, 0#64⟩ }) (at' 0x8040800E00000000#64))
def freeze0 : Freeze := { ctx := 0, team := 0, grp := 0, page := none }
theorem test_rcommit_stalls : committing.map (fun t => (t.freezes, (t.grp? (0, 0)).map Group.wait)) = some ([freeze0], some .stall) := by decide +kernel
theorem test_rcommit_takes_effect : (committing.bind fun t => ((t.thaw freeze0).ctx? 0).map fun c => (c.committed.getD 7 Range.zero).d0) =
    some 0x70001#64 := by decide +kernel
theorem test_tlbi_all : (after { at' (uword 0x203 0 0x38 0 0 2) with tlb := [⟨.core 64, 3, 0, 16, 0, 0⟩] }).map (fun t => t.tlb) = some [] := by decide +kernel
theorem test_eret_stale_token : seen (grp (uni2 16 0xFFFF00000000) (at' 0x808086B000000000#64)) (sOf 5) = some 2 := by decide +kernel
theorem test_ctxld_of_running : faultOf (at' 0x8140800E40000000#64) = some (0x0011, 8) := by decide +kernel
theorem test_bdg_waits_for_period : (after (grp (fun g => uni 9 100 (uni 8 3 g)) (at' 0x8180800E1C800000#64))).map (fun t => t.sch.rows.map fun r =>
    (r.tenant, r.pend)) =
    some [(3, [(0, 0, 100)])] := by decide +kernel

/-! Events (R91, R109, R239, R322, R361, R397). -/

theorem test_illegal_opcode : faultOf (at' (word 0x023 0 0 0 0 0)) = some (0x0001, 0) := by decide +kernel
theorem test_privileged_word_in_user_mode : faultOf (ctx (fun c => { c with priv := false }) (at' (uword 0x203 0 0x38 0 0 2))) =
    some (0x0011, 0) := by decide +kernel
theorem test_store_acknowledged : ((answer (exec (.storeAcknowledged 0 0) (grp (fun g => { g with pendingStores := 2 }) (at' 0#64)))).bind
    fun t => t.grp? (0, 0)).map (fun g => g.pendingStores) = some 1 := by decide +kernel
/-- An image of a TYPE for a die with a VERSION, signed by the owner of a chamber die's keys. -/
def signed (typ die ver : Nat) (k : KeyHash) : ImageIn :=
  let d := Config.imageDigest typ (BitVec.ofNat 32 ver) 1 [0x5A#8]
  { typ := typ, die := die, version := BitVec.ofNat 32 ver, len := 1, body := [0x5A#8], ecdsa := Config.ecdsaOwn k.ecdsa d, lms := Config.lmsOwn k.lms d, rules := 1 }
theorem test_owner_signs (typ die ver : Nat) (k : KeyHash) : imageSigned k (signed typ die ver k) = true := by simp [imageSigned, signed]
theorem test_image_rollback (p : Phimus) (i : ImageIn) (h : i.version.toNat < getKey p.rollback i.typ) : p.accepts i = false := by
  simp [Phimus.accepts, Nat.not_le.mpr h]

/-! ### Witnesses: a state and operands that meet the hypotheses of each statement -/

/-- The opposite of an Except. -/
def isOk {ε α : Type} (x : Except ε α) : Bool := match x with | .ok _ => true | .error _ => false
def isErr {ε α : Type} (x : Except ε α) : Bool := !isOk x

/-- The instruction of the word at the issuing group with its moment of issue (R114). -/
def issued (s : State) : Option (Instr × View × Iss) := do
  let i ← s.nextWord.bind parse
  let v ← i.view
  let w ← s.iss? v (i.shape v)
  some (i, v, w)

def user (s : State) : State := ctx (fun c => { c with priv := false }) s
def nop : W64 := word 0x10D 0 0 0 0 0

theorem witness_StepKeepsMemory : (at' nop).mem.wf = true ∧ (after (at' nop)).isSome = true := by decide +kernel

theorem witness_StepRuns_word : (at' nop).heldNow = false ∧ (at' nop).agenda = [] ∧ (at' nop).cmds = [] ∧ ((at' nop).nextWord.bind parse).isSome = true := by
  decide +kernel
theorem witness_StepRuns_event : ({ State.reset with agenda := [.budgetUseExchange] } : State).heldNow = false ∧
    Instr.budgetUseExchange.view = none := by decide +kernel
theorem witness_StepRuns_command : ({ State.reset with cmds := [.ctxcmdSave 0] } : State).heldNow = false ∧
    ({ State.reset with cmds := [.ctxcmdSave 0] } : State).agenda = [] := by
  decide +kernel
theorem witness_StepRuns_illegal : let s := at' (word 0x023 0 0 0 0 0)
    s.heldNow = false ∧ s.agenda = [] ∧ s.cmds = [] ∧ s.cur = some (0, 0) ∧ (((s.tick.grp? (0, 0)).bind Group.nextWord).map parse) = some none := by
  decide +kernel

def boot0 : BootIn := { bridge := true, hbm := true, fuse := 0#14, train := 0x3FFF#14, images := [] }
theorem witness_ModelStops_held : let s := { State.reset with pkg := { State.reset.pkg with phimus := { State.reset.pkg.phimus with held := true } } }
    s.pkg.phimus.held = true ∧ s.agenda = [] ∧ ({ s with agenda := [.powerOnReset boot0] } : State).agenda = [.powerOnReset boot0] := by decide +kernel
theorem witness_ModelStops_group : (issued (at' nop)).isSome = true ∧ (State.reset.cur = none) := by decide +kernel

theorem witness_DecodeEncode : (Instr.nop ⟨hd 0, 0#7, 0#14, 0#16⟩).wf = true ∧ encode (.nop ⟨hd 0, 0#7, 0#14, 0#16⟩) = some nop := by decide +kernel
theorem witness_EncodeDecode : decode nop = .ok (.nop ⟨hd 0, 0#7, 0#14, 0#16⟩) := by decide +kernel

theorem witness_PrivilegedWords : ([0x0C1, 0x200, 0x206] : List Nat).all (fun opc =>
    (issued (user (at' (uword opc 0 0 0 0 0)))).any fun p => p.2.1.opc == opc && !p.2.2.c.priv) = true := by decide +kernel

theorem witness_IllegalEncodings : ((issued (at' (word 0x007 0x10 0x10 0x11 0 0))).any fun p => !(p.1.shape p.2.1).priv &&
    !p.2.1.encOk (p.1.shape p.2.1)) = true ∧
    ((issued (at' (uword 0x200 0x10 0x30 0x32 0x34 0))).any fun p => (p.1.shape p.2.1).priv && p.2.2.c.priv && !p.2.1.encOk (p.1.shape p.2.1)) = true := by
  decide +kernel

theorem witness_Faults : let s := at' nop
    (s.team? 0).isSome = true ∧ (s.grp? (0, 0)).isSome = true ∧ ((s.team? 0).map Team.ctx = some 0) ∧ (s.ctx? 0).isSome = true ∧
    0x0011 ∉ ([0x22, 0x50, 0x60, 0x61, 0x62] : List Nat) ∧ 0x22 ∈ ([0x22, 0x50, 0x60, 0x61, 0x62] : List Nat) ∧
        0x62 ∈ ([0x22, 0x50, 0x60, 0x61, 0x62] : List Nat) := by
  decide +kernel

/-- A fault queue of 16 records at PA 0x11000 with its header at PA 0x10100, WR and RD. -/
def fq (wr rd : Nat) : State := let s := faulting (at' nop); { s with mem := (s.mem.wr 0x10108 8 wr).wr 0x10110 8 rd }
theorem witness_FaultRecords : (at' nop).fqOf 0 = 0 ∧ (fq 16 0).fqOf 0 = 0x10100 ∧ (fq 16 0).mem.wf = true ∧ (fq 15 0).mem.wf = true ∧
    (fq 16 0).mem.rd 0x10108 8 - (fq 16 0).mem.rd 0x10110 8 = 2 ^ natBits ((fq 16 0).mem.rd 0x10100 8) 0 5 ∧
    natBits ((fq 15 0).mem.rd 0x10100 8) 12 40 * 4096 = 0x11000 ∧ (fq 15 0).mem.rd 0x10108 8 = 15 := by decide +kernel

/-! Arithmetic. -/

/-- A word of each integer and float opcode on n0, n1 and n2. -/
def arith (opc arity func : Nat) : W64 := word opc 0x10 0x10 (if 2 ≤ arity then 0x11 else 0) (if 3 ≤ arity then 0x12 else 0) func
def wideDst (opc : Nat) : Bool := opc == 0x002 || opc == 0x003

theorem witness_ScalarWords : (List.range 0x22).all (fun opc => stands (at' (arith opc (intArity opc) 0)) fun v => { sh := shInt v }) = true ∧
    stands (at' (word 0x022 3 0 0 0 0x2C04)) (fun v => { sh := shPset v }) = true ∧
        stands (at' (word 0x024 0x14 0x10 0x12 0 0)) (fun v => { sh := shLea v }) = true ∧
    stands (at' (word 0x025 0x14 0x10 0 0 0)) (fun v => { sh := shMov v }) = true ∧ stands (at' 0x0980020000000064#64) (fun v => { sh := shMovi v }) = true ∧
    stands (at' (word 0x027 0x10 0x10 0 0 1)) (fun v => { sh := shMovh v }) = true := by decide +kernel

theorem witness_IntegerResults : tyBits 4 < 32 ∧
    (let n := tyBits 6; tySigned 6 = true ∧ (-2 ^ (n - 1) : Int) ≤ -128 ∧ (-129 : Int) < -2 ^ (n - 1) ∧ (127 : Int) ≤ 2 ^ (n - 1) - 1 ∧
        (2 ^ (n - 1) - 1 : Int) < 128) := by
  decide +kernel

theorem witness_Division : ([(7, 0), (7, 2)] : List (Nat × Nat)).all (fun p => [0x00C, 0x00D].all fun opc =>
      stands (two opc 0 p.1 p.2) (fun v => { sh := shInt v }) fun _ w _ => (w.b 5 == p.2) && (w.a 5 == p.1)) = true ∧
    [0x00C, 0x00D].all (fun opc => stands (two opc 0 0x80000000 0xFFFFFFFF) (fun v => { sh := shInt v }) fun _ w _ =>
      decide (intArg 0 (w.a 5) = -2 ^ 31) && decide (intArg 0 (w.b 5) = -1)) = true := by decide +kernel

theorem witness_FloatWords : ((List.range 0x11).filter fun k => k != 6).all (fun k =>
    stands (at' (arith (0x040 + k) (floatArity (0x040 + k)) 0)) fun v => { sh := shFloat v }) = true ∧
    (List.range 5).all (fun k => stands (at' (arith (0x052 + k) (floatArity (0x052 + k)) 0)) fun v => { sh := shFloat v }) = true ∧
    (List.range 4).all (fun k => [0, 0x8000].all fun f => stands (at' (arith (0x060 + k) 2 f)) fun v => { sh := shLns v }) = true := by decide +kernel

theorem witness_FloatExact : (Val.fin true 3 (-1)).rat.isSome = true ∧ (Val.fin false 0 0).rat.isSome = true ∧ (Val.fin false 1 9).rat.isSome = true := by
  simp [Val.rat]

theorem witness_RoundingModes : (0 : Nat) < 2 ^ 32 ∧ 2 ^ 32 - 1 < 2 ^ 32 := by decide

theorem witness_FloatRoundTrip : (0x3F800000 < 2 ^ (1 + (ffOf 0).eb + (ffOf 0).fb) ∧ decFloat (ffOf 0) 0x3F800000 ≠ .nan ∧ (ffOf 0).flush = false) ∧
    ((ffOf 2).flush = true ∧ 2 ^ (ffOf 2).fb ≤ 0x80 % 2 ^ ((ffOf 2).eb + (ffOf 2).fb) ∧ decFloat (ffOf 2) 0x80 ≠ .nan ∧ decFloat (ffOf 2) 0x8000 ≠ .nan ∧
      0x8000 % 2 ^ ((ffOf 2).eb + (ffOf 2).fb) = 0) := by decide +kernel

theorem witness_FloatCompare : (List.range 8).all (fun cc => stands (two 0x046 (16 * cc) 0x3F800000 0x40000000) (fun v => { sh := shFloat v }) fun v w _ =>
      natBits v.efunc 4 4 == cc && decide (decFloat (ffOf 0) (w.a 5) ≠ .nan) && decide (decFloat (ffOf 0) (w.b 5) ≠ .nan)) = true ∧
    stands (two 0x046 0 0x7FC00000 0) (fun v => { sh := shFloat v }) (fun _ w _ => decide (decFloat (ffOf 0) (w.a 5) = .nan)) = true ∧
    ((issued (two 0x046 0x80 0 0)).any fun p => decide (8 ≤ natBits p.2.1.efunc 4 4)) = true := by decide +kernel

theorem witness_FloatClass : stands (one 0x051 0 0) (fun v => { sh := shFloat v }) = true ∧
    ((issued (one 0x051 0x400 0)).any fun p => decide (natBits p.2.1.efunc 8 3 ≠ 0)) = true := by decide +kernel

theorem witness_LogMultiply : (0xC000 = lnsNaR 16 ∧ 0x4000 = lnsZero 16 ∧ 0xC0000000 = lnsNaR 32 ∧ 0x40000000 = lnsZero 32) ∧
    (0x3FFF < 2 ^ 16 ∧ 0x3FFF ≠ lnsNaR 16 ∧ 0x3FFF ≠ lnsZero 16) ∧ (0x8001 < 2 ^ 16 ∧ 0x8001 ≠ lnsNaR 16 ∧ 0x8001 ≠ lnsZero 16) := by decide +kernel

theorem witness_ConversionWords : [0x3900, 0x3920].all (fun f => stands (at' (word 0x080 0x10 0x10 0 0 f)) fun v => { sh := shCvt v }) = true ∧
    stands (at' (word 0x081 0x10 0x10 0x11 0 0x5000)) (fun v => { sh := shPack v }) = true ∧
        stands (at' (word 0x082 0x10 0x10 0 0 0x5400)) (fun v => { sh := shPack v }) = true ∧
    stands (at' (word 0x083 0x10 0x10 0 0 0x5200)) (fun v => { sh := shBmax v }) = true ∧
    [0x5000, 0x5400].all (fun f => stands (at' (word 0x084 0x10 0x10 0x11 0 f)) fun v => { sh := shBscale v }) = true := by decide +kernel

theorem witness_Shuffle : [0, 0x4000, 0x8000, 0xC000, 0x0400].all (fun f => stands (at' (word 0x0A0 0x10 0x10 0x12 0 f)) laneEntry) = true ∧
    [0x2000, 1].all (fun f => (issued (at' (word 0x0A0 0x10 0x10 0x11 0 f))).any fun p => natBit p.2.1.efunc 13 || natBits p.2.1.efunc 0 10 != 0) = true := by
  decide +kernel

theorem witness_LaneWords : [0, 0x4000, 0x8000, 0xC000].all (fun f => stands (at' (word 0x0A1 0x12 0x10 0 0 f)) laneEntry) = true ∧
    stands (at' (word 0x0A2 0x10 0x10 0 0 0)) laneEntry = true ∧ stands (at' (word 0x0A3 0x10 0x10 0x31 0 0)) laneEntry = true ∧
    stands (at' (word 0x0A3 0x10 0x10 0 0 0x8000)) laneEntry = true ∧ stands (at' (word 0x0A4 0x10 0x10 0 0 0x0100)) laneEntry = true := by decide +kernel

/-- DST at the bounds of each range of R105, for words of the two kinds and of both widths. -/
theorem witness_ResultRules : [0x00, 0x01, 0x07, 0x08, 0x10, 0x2F].all (fun d => stands (at' (word 0x000 d 0x10 0x11 0 0)) fun v => { sh := shInt v }) = true ∧
    [0x00, 0x10, 0x2E].all (fun d => stands (at' (word 0x000 d 0x10 0x12 0 0x4000)) fun v => { sh := shInt v }) = true ∧
    [0x01, 0x07, 0x08, 0x30, 0x3F].all (fun d => stands (at' (uword 0x000 d 0x30 0x31 0 0)) fun v => { sh := shInt v }) = true ∧
    [0x30, 0x3E].all (fun d => stands (at' (uword 0x000 d 0x30 0x32 0 0x4000)) fun v => { sh := shInt v }) = true ∧
        0 < (Group.fresh placedKernel 0 0 0 0 0#64).width := by
  decide +kernel

theorem witness_RegisterFrame : stands (two 0x000 0 1 2) (fun v => { sh := shInt v }) = true ∧ (seen (two 0x000 0 1 2) pcOf).isSome = true ∧
    stands (at' (word 0x0A4 0x10 0x10 0 0 0)) laneEntry = true ∧ (seen (at' (word 0x0A4 0x10 0x10 0 0 0)) pcOf).isSome = true ∧
    stands (at' (uword 0x000 0x30 0x30 0x31 0 0)) (fun v => { sh := shInt v }) = true ∧
        (seen (at' (uword 0x000 0x30 0x30 0x31 0 0)) pcOf).isSome = true := by decide +kernel

theorem witness_MemoryFrame : ([0x000, 0x0C1, 0x1B5, 0x206] : List Nat).all (fun opc => storesNothing opc && (issued (at' (uword opc 0 0 0 0 0))).any fun p =>
    p.2.1.opc == opc && (answer (exec p.1 (at' (uword opc 0 0 0 0 0)))).isSome) = true := by decide +kernel

/-! Control. -/

def eBranch (v : View) : Entry := { sh := shBranch v }
def noneOf (_ : View) (w : Iss) (_ : State) : Bool := w.mask == 0#64
def someOf (_ : View) (w : Iss) (_ : State) : Bool := w.mask != 0#64

theorem witness_Branch : stands (at' (kword 0x100 0 0 0 0 7)) eBranch noneOf = true ∧
    stands (at' (word 0x100 0 0 0 0 7)) eBranch (fun _ w _ => w.mask != 0#64 && w.g.mask &&& ~~~ w.mask == 0#64) = true ∧
    stands (grp (fun g => stack .call 15 (k1 6 g)) (at' (kword 0x100 0 0 0 0 7))) eBranch (fun _ w _ => w.mask != 0#64 &&
        w.g.mask &&& ~~~ w.mask != 0#64 && w.g.stk.length == 15) = true ∧
    stands (grp (fun g => stack .call 16 (k1 6 g)) (at' (kword 0x100 0 0 0 0 7))) eBranch (fun _ w _ => w.mask != 0#64 &&
        w.g.mask &&& ~~~ w.mask != 0#64 && w.g.stk.length == 16) = true ∧
    (let g := Group.fresh placedKernel 0 0 0 0 0#64; g.width ≤ 64 ∧ (List.range 64).all (fun i => decide (i < g.width) ||
        !g.mask.getLsbD i) = true) := by decide +kernel

theorem witness_SubroutineWords_call : stands (at' (kword 0x103 0 0 0 0 7)) eBranch noneOf = true ∧
    stands (grp (stack .call 15) (at' (word 0x103 0 0 0 0 7))) eBranch (fun _ w _ => w.mask != 0#64 && w.g.stk.length == 15) = true ∧
    stands (grp (stack .call 16) (at' (word 0x103 0 0 0 0 7))) eBranch (fun _ w _ => w.mask != 0#64 && w.g.stk.length == 16) = true := by decide +kernel
theorem witness_SubroutineWords_stack : ([(0x108, .reconv), (0x108, .pending), (0x108, .call), (0x105, .call), (0x105, .target), (0x105, .pending)] : List (Nat × StkKind)).all
      (fun p => stands (grp (stack p.2 1) (at' (word p.1 0 0 0 0 0))) (fun v => { sh := shRet v }) fun _ w _ => w.g.stk.head?.any fun e =>
          e.kind == p.2) = true ∧
    [0x105, 0x108].all (fun opc => stands (at' (word opc 0 0 0 0 0)) (fun v => { sh := shRet v }) fun _ w _ => w.g.stk == []) = true := by decide +kernel
theorem witness_SubroutineWords_dead : let g := { Group.fresh placedKernel 0 0 0 0 0#64 with live := 0xFF#64 }
    let dead : StkEnt := ⟨0#64, 0xFF00#64, 0#16, .pending⟩
    dead.mask &&& g.live = 0#64 ∧ (⟨0#64, 0x0F#64, 0#16, .target⟩ : StkEnt).mask &&& g.live ≠ 0#64 := by decide +kernel

theorem witness_StraightControl : stands (at' nop) (fun v => { sh := shNop v }) = true ∧
    stands (at' (word 0x102 0 4 0 0 0xA5)) (fun v => { sh := shLand v }) = true ∧
    stands (grp (stack .call 15) (at' 0x41C000000000000B#64)) eBranch (fun _ w _ => w.g.stk.length == 15) = true ∧
    stands (grp (stack .call 16) (at' 0x41C000000000000B#64)) eBranch (fun _ w _ => w.g.stk.length == 16) = true ∧
    [0, 1, 2].all (fun x => stands (grp (uni 15 x) (at' (uword 0x10E 0x3F 0 0 0 3))) (fun v => { sh := shLoop v, touch := fun _ =>
        [(v.dst, false)] }) fun v w _ =>
      (w.g.si (v.dst - 0x30)).toNat == x) = true := by decide +kernel

def eJt (v : View) : Entry := { sh := shTable v, vas := tableVas, more := tableMore (natBits v.efunc 0 8) fun i => [i.ua] }
def eCallt (v : View) : Entry := { sh := shTable v, vas := tableVas, more := tableMore (natBits v.efunc 0 8) Iss.indices }
def jtS (x : Nat) : State := grp (uni 0 x) (tabled (at' (word 0x101 0 0x30 0 0 0)))
def ctS (f : Nat → Nat) (w : W64) : State := grp (namedBy 2 f) (tabled (at' w))
def tableIs (s : State) (p : JTab → Bool) (w : Iss) : Bool := match readTable s w 0 with | .ok t => p t | .error _ => false

theorem witness_TableWords_jt : stands (jtS 1) eJt (fun _ w _ => tableIs (jtS 1) (fun t => decide (w.ua < t.len) &&
    isOk (tableTarget (jtS 1) w t w.ua)) w) = true ∧
    stands (jtS 2) eJt (fun _ w _ => tableIs (jtS 2) (fun t => decide (t.len ≤ w.ua)) w) = true := by decide +kernel
theorem witness_TableWords_callt : stands (ctS (fun _ => 0) (kword 0x104 0 0x12 0 0 0)) eCallt (fun v w _ => w.g.actives v == [] &&
    tableIs (ctS (fun _ => 0) (kword 0x104 0 0x12 0 0 0)) (fun _ => true) w) = true ∧
    (let s := ctS (fun th => th % 2) 0x4100000480000000#64
     stands s eCallt fun v w _ => tableIs s (fun t => [0, 1].all (fun d => decide (d < t.len) && isOk (tableTarget s w t d) &&
         (w.g.actives v).any fun th => w.a th == d) &&
       (w.g.actives v).all (fun th => w.a th == 0 || w.a th == 1) && decide (w.g.stk.length + 1 < 16)) w) = true := by decide +kernel

theorem witness_LeavingWords_exit : stands (at' (kword 0x106 0 0 0 0 0)) (fun v => { sh := shExit v }) noneOf = true ∧
    stands (grp (k1 6) (at' (kword 0x106 0 0 0 0 0))) (fun v => { sh := shExit v })
      (fun _ w _ => w.mask != 0#64 && w.g.live &&& ~~~ w.mask != 0#64 && w.g.mask &&& ~~~ w.mask != 0#64) = true ∧
    stands (grp (fun g => { g with mask := 0x3F#64 }) (at' (word 0x106 0 0 0 0 0))) (fun v => { sh := shExit v })
      (fun _ w _ => w.mask != 0#64 && w.g.live &&& ~~~ w.mask != 0#64 && w.g.mask &&& ~~~ w.mask == 0#64) = true ∧
    stands (at' (word 0x106 0 0 0 0 0)) (fun v => { sh := shExit v }) (fun _ w _ => w.mask != 0#64 && w.g.live &&& ~~~ w.mask == 0#64) = true := by
  decide +kernel

/-- A kernel descriptor at VA 0x10840: GEN, one group of width 16, eight named registers (R34). -/
def succS (va : Nat) (w : W64) : State :=
  grp (uni2 10 va) (let s := at' w; { s with mem := (s.mem.wr 0x10840 8 0x10000).wr 0x10848 8 (5 * 2 ^ 56 + 8 * 2 ^ 44) })
theorem witness_LeavingWords_succ : stands (at' (word 0x109 0 0 0 0 0)) (fun v => { sh := shPhase v }) = true ∧
    stands (succS 0x10840 (word 0x10A 0 0x3A 0x53 0 0)) (fun v => { sh := shSucc v }) (fun _ w s => isOk (s.succRead w.c w.own w.ua (2 ^ 64))) = true ∧
    stands (succS 0x10848 (word 0x10A 0 0x3A 0x53 0 0)) (fun v => { sh := shSucc v }) (fun _ w s => isErr (s.succRead w.c w.own w.ua (2 ^ 64))) =
        true := by decide +kernel

def breaks (s : State) : State := ctx (fun c => { c with dbg := 1#32 }) s
theorem witness_TrapWords : [0x10B, 0x10C].all (fun opc => stands (at' (kword opc 0 0 0 0 3)) (fun v => { sh := shTrap v }) noneOf) = true ∧
    stands (at' (word 0x10B 0 0 0 0 3)) (fun v => { sh := shTrap v }) someOf = true ∧
    stands (at' (word 0x10C 0 0 0 0 3)) (fun v => { sh := shTrap v }) (fun _ w _ => !w.c.dbg.getLsbD 0) = true ∧
    stands (breaks (at' (word 0x10C 0 0 0 0 3))) (fun v => { sh := shTrap v }) (fun _ w _ => w.mask != 0#64 && w.c.dbg.getLsbD 0) = true := by decide +kernel

/-! Memory. -/

/-- Page tables that map the granule of VA 0 to PA 0x10000, writable, and nothing by ranges (R215). -/
def paged (s : State) : State :=
  ctx (fun c => { c with ptroot := 0x100000 }) { s with mem := (((s.mem.wr 0x100000 8 0x200001).wr 0x200000 8 0x300001).wr 0x300000 8 0x400001).wr 0x400000 8 0x10025 }
/-- The word at the issuing group of s passes the checks of R114, and p holds of it and of the state past it; whether a translation of it
stalls is for p to say. -/
def poised (s : State) (e : View → Entry) (p : Entry → Iss → Bool) : Bool :=
  match (s.nextWord.bind parse).bind Instr.view with
  | none => false
  | some v =>
    match s.iss? v (e v).sh with
    | none => false
    | some w => (match issueChecks (e v) w with | .ok _ => true | .error _ => false) && p (e v) w

/-- The checks of a load or a store of n bytes. -/
def access (ls : Bool) (n : Nat) (k : Kind) (ok : Bool) (v : View) (w : Iss) (s : State) : Bool :=
  let addr := fun th => wrapInt (if ls then 32 else 64) ((w.a th : Int) + v.imm)
  isOk (checkThreads (w.g.actives v) fun th => s.checkAddr w ls (addr th) n n k) == ok
def eLoad (ls : Bool) (v : View) : Entry := { sh := shLoad v, vas := fun w => w.memVas ls }
def eStore (ls : Bool) (v : View) : Entry := { sh := shStore v, vas := fun w => w.memVas ls }

theorem witness_LoadAndStoreWords_load :
    stands (grp (to800 0) (at' (word 0x140 0x14 0x10 0x40 0 4))) (eLoad false) (access false 4 .read true) = true ∧
    stands (grp (to800 0) (at' (word 0x140 0x14 0x10 0x40 0 2))) (eLoad false) (access false 4 .read false) = true ∧
    stands (grp (named 0 0x40) (at' (word 0x142 0x14 0x10 0x40 0 0))) (eLoad true) (access true 4 .read true) = true ∧
    stands (grp (named 0 0x41) (at' (word 0x142 0x14 0x10 0x40 0 0))) (eLoad true) (access true 4 .read false) = true := by decide +kernel

theorem witness_LoadAndStoreWords_store :
    stands (grp (to800 7) (at' (word 0x141 0x20 0x10 0x12 0 4))) (eStore false) (access false 4 .write true) = true ∧
    stands (grp (to800 7) (at' (word 0x141 0x20 0x10 0x12 0 2))) (eStore false) (access false 4 .write false) = true ∧
    stands (grp (named 0 0x40) (at' (word 0x143 0x20 0x10 0x12 0 0))) (eStore true) (access true 4 .write true) = true ∧
    stands (grp (named 0 0x41) (at' (word 0x143 0x20 0x10 0x12 0 0))) (eStore true) (access true 4 .write false) = true := by
  decide +kernel

/-- A word that stalls for a walk, one that stalls while the ranges of its context are being committed, and one that is to fault at an address of
its second thread once the walk of its first thread's is over. -/
theorem witness_LoadAndStoreWords_stall :
    (let s := grp (named2 0 0x800) (paged (at' (word 0x140 0x14 0x10 0x40 0 0)))
     poised s (eLoad false) fun e w => !(s.needs e w).any (s.frozenVa w.c.num) && s.walkPages w.c w.core (s.needs e w) != []) = true ∧
    (let s := { grp (to800 0) (at' (word 0x140 0x14 0x10 0x40 0 4)) with freezes := [{ freeze0 with team := 9 }] }
     poised s (eLoad false) fun e w => (s.needs e w).any (s.frozenVa w.c.num)) = true ∧
    (let s := grp (fun g => named 1 0 (namedBy 0 (fun th => if th = 0 then 0x800 else 0x20000) g)) (paged (at' (word 0x140 0x14 0x10 0x40 0 0)))
     poised s (eLoad false) fun e w => !(s.needs e w).any (s.frozenVa w.c.num) && match s.translate w.c w.own 0x20000 4 .read false with
       | .error x => s.leafWalks w.c w.core x (s.walkPages w.c w.core (s.needs e w)) != []
       | .ok _ => false) = true := by decide +kernel

def eZln (v : View) : Entry :=
  { sh := shZln v, vas := fun w => (w.g.actives v).flatMap fun th => (List.range (natBits v.b 0 5 + 1)).map fun j => (w.memAddr false th + 128 * j) % 2 ^ 64 }
theorem witness_LoadAndStoreWords_zln : stands (grp (to800 0) (at' (word 0x151 0 0x10 0 0 0))) eZln
    (fun v w s => isOk (checkThreads (w.g.actives v) fun th => (s.translate w.c w.own (w.memAddr false th) 128 .write false).map fun t => [t]) &&
        w.memAddr false 0 % 128 == 0) = true := by
  decide +kernel

/-- A line present in the L1 of the core, with the bytes of memory. -/
def line0 : L1Line := { home := 64, line := 0x10800 / 128, va := 0x10800, bits := 16, ctx := 0, bytes := List.replicate 128 0#8, fenced := [] }
theorem witness_LoadValues : let s := { at' nop with l1 := [line0] }
    s.l1.all (fun l => l.bytes == s.mem.bytes (128 * l.line) 128) = true ∧ s.lineEvent (.phys 0x1083C false false) 4 = none ∧ 0x1087C % 128 + 4 ≤ 128 ∧
        (issued s).isSome = true := by decide +kernel

theorem witness_StoreBytes : let s := at' nop
    let ts : List (Nat × Target) := [(0, .phys 0x10800 false false), (1, .phys 0x10802 false false)]
    s.mem.wf = true ∧ ts.all (fun p => s.lineEvent p.2 4 == none) = true ∧
        ts = [(0, .phys 0x10800 false false)] ++ (1, .phys 0x10802 false false) :: [] ∧ (issued s).isSome = true := by
  decide +kernel

theorem witness_OtherLoads_uld : stands (grp (uni2 0 0x10800) (at' (uword 0x145 0x3F 0x30 0x00 0 0))) (fun v =>
      { sh := shUld v, touch := fun _ => [(0x30 + (v.dst - 0x30 + (if natBit v.b 6 then 16 else 0)), natBits v.b 4 2 == 1)],
        vas := fun w => [w.memAddr false 0] })
      (fun _ w s => match s.checkAddr w false (w.memAddr false 0) 4 4 .read with
        | .ok t => isOk (s.readOne w (w.memAddr false 0) t 4 (osCached 0)).1
        | .error _ => false) = true := by decide +kernel

theorem witness_OtherLoads_lqry : stands (grp (to800 0) (at' (word 0x152 0x14 0x10 0 0 0))) (fun v => { sh := shLqry v, vas := fun w => w.memVas false }) (fun v w s =>
      (w.g.actives v).all fun th => match s.translate w.c w.own (w.memAddr false th) 1 .read false with
        | .ok (.phys pa _ _) => (regionOf s.pkg.hbmsplit pa).hbm
        | _ => false) = true ∧
    stands (grp (to800 0) (at' (word 0x146 0 0x10 0 0 0))) (fun v => { sh := shPfx v }) = true := by decide +kernel

/-- Tile 0 READY at LS offset 0 with 4 KiB, the descriptor of its int8 rows in s4 and a pitch of 64 in s5 (R206, R207). -/
def ldtS (w : W64) : State := grp (fun g => uni 5 64 (uni 4 0x40010000 g)) (tile 0 { Tile.reset with st := .ready, size := 64 } (at' w))
theorem witness_OtherLoads_ldt : stands (ldtS (word 0x144 0x18 0x34 0 0 0)) (fun v =>
      { sh := shLdt v, cls := fun w => if w.t.kd.named < v.dst - 0x10 + 4 + ldtBytes w then some { code := 0x0006 } else none,
        touch := fun w => (ldtRegs v.dst (ldtBytes w)).map fun n => (0x10 + n, false), tiles := fun w => (descOf (w.ua % 2 ^ 32)).tiles })
      (fun _ w _ => isOk (ldtCheck w (descOf (w.ua % 2 ^ 32)) (geoOf (w.ua / 2 ^ 32)) 1) && w.mask != 0#64) = true := by decide +kernel

/-- The checks of an atomic, and whether it gets through its elements of n bytes before a soft cap. -/
def atomic (size n : Nat) (soft : Bool) (_ : View) (w : Iss) (s : State) : Bool :=
  match atomCheck w s size with
  | .ok ts => ((atomRun w s size n ts fun _ _ old => some old).2.2 == []) != soft && decide (ts ≠ [])
  | .error _ => false
/-- A budget row whose soft cap of slice atomics is reached. -/
def capped (s : State) : State := { s with sch := { s.sch with rows := [{ Row.fresh 0 0 with soft := List.replicate 6 1, use0 := List.replicate 6 1, use1 := List.replicate 6 1 }] } }
def eAtom (v : View) : Entry := { sh := shAtom v, vas := atomVas }

theorem witness_AtomicWords_scalar : ([(0x147, 0x14, 0), (0x148, 0, 0), (0x149, 0x18, 0x14)] : List (Nat × Nat × Nat)).all (fun p =>
    stands (grp (to800 1) (at' (word p.1 p.2.1 0x10 0x12 p.2.2 0x0200))) eAtom (atomic 4 4 false) &&
    stands (grp (to800 1) (capped (at' (word p.1 p.2.1 0x10 0x12 p.2.2 0x0200)))) eAtom (atomic 4 4 true) &&
    stands (grp (named2 0 0x10801) (at' (word p.1 p.2.1 0x10 0x12 p.2.2 0x0200))) eAtom fun _ w s => isErr (atomCheck w s 4)) = true := by decide +kernel
theorem witness_AtomicWords_vector : ([(0x14A, 0x20), (0x14B, 0)] : List (Nat × Nat)).all (fun p =>
    let e := fun v => ({ sh := shAtom v, cls := vecCls, touch := fun _ => vecTouch v, vas := atomVas } : Entry)
    stands (grp (to800 1) (at' (word p.1 p.2 0x10 0x14 0 0x0200))) e (atomic 32 4 false) &&
    stands (grp (to800 1) (capped (at' (word p.1 p.2 0x10 0x14 0 0x0200)))) e (atomic 32 4 true) &&
    stands (grp (named2 0 0x10808) (at' (word p.1 p.2 0x10 0x14 0 0x0200))) e fun _ w s => isErr (atomCheck w s 32)) = true := by decide +kernel

theorem witness_AtomicOperations : let s := at' nop
    s.mem.wf = true ∧ s.lineEvent (.phys 0x10800 false false) 4 = none ∧
        ((issued s).any fun p => !(s.sliceCharge p.2.2 (.phys 0x10800 false false)).1 == .hard) = true ∧
    (leBytes 4 7).length = 4 := by decide +kernel

def hbmAt (s : State) (w : Iss) (va n : Nat) (k : Kind) : Bool :=
  match s.translate w.c w.own va n k false with
  | .ok (.phys pa _ _) => (regionOf s.pkg.hbmsplit pa).hbm
  | _ => false

theorem witness_OrderingWords_range : (0 : Nat) < 128 ∧ spanMeets 0x10840 4 0x10800 128 = true ∧ (2 : Nat) ≤ 2 ∧
    ({ placedKernel with pair := true } : KDesc).fusel1 = false ∧ ({ placedKernel with fusel1 := true } : KDesc).fusel1 = true := by decide +kernel
theorem witness_OrderingWords_fence : [0x0000, 0x0110, 0x0120].all (fun f => stands (at' (word 0x14C 0 0 0 0 f)) fun v => { sh := shFence v }) = true ∧
    stands (grp (fun g => uni 10 128 (uni2 8 0x10800 g)) (at' (word 0x14D 0 0x38 0x3A 0 0x0110))) (fun v => { sh := shFencer v }) = true ∧
    placedKernel.fusel1 = false ∧ placedKernel.pair = false := by decide +kernel

/-- Eight bytes x at 0x10800, its address in s8:s9, 0x10900 in s10:s11 and the number 5 in s12:s13. -/
def watch (x : Nat) (s : State) : State := grp (fun g => uni2 12 5 (uni2 10 0x10900 (uni2 8 0x10800 g))) (data x s)
def slice0 : Nat := homeSlice 0 0x10800
def roostEnt (k : RoostKind) : Roost :=
  { slice := slice0, kind := k, fired := false, line := 1, ctx := 0, core := 64, gslot := 0, jcva := 0#64, expv := 0#64, word := 0, team := 9, grp := 0 }

theorem witness_OrderingWords_marm : stands (watch 5 (at' 0x5380800E29800000#64)) (fun v => { sh := shMarm v, vas := fun w => [w.ua] })
      (fun _ w s => hbmAt s w w.ua 1 .read) = true ∧
    ([(5, 0), (6, 0), (6, 47), (6, 48)] : List (Nat × Nat)).all (fun p =>
      stands { watch p.1 (at' (uword 0x14E 0 0x38 0x3A 0x3C 0)) with roost := List.replicate p.2 (roostEnt .count) } (fun v =>
          { sh := shMarm v, vas := fun w => [w.ua, w.ub] }) fun _ w s =>
        hbmAt s w w.ua 8 .read && hbmAt s w w.ub 4 .atomic && decide (w.ua % 8 = 0 ∧ w.ub % 4 = 0) && (decide (s.mem.rd 0x10800 8 = w.uc) == (p.1 == 5)) &&
        s.sliceOf (0x10800 / 128) == slice0 && s.roostCounts slice0 == p.2 && decide (s.roostUsed slice0 < 64)) = true ∧
    stands { watch 6 (at' (uword 0x14E 0 0x38 0x3A 0x3C 0)) with roost := List.replicate 64 (roostEnt .wait) } (fun v =>
        { sh := shMarm v, vas := fun w => [w.ua, w.ub] }) (fun _ _ s => decide (64 ≤ s.roostUsed slice0)) = true := by decide +kernel

theorem witness_OrderingWords_wait : stands (at' 0x53C0800000000000#64) (fun v => { sh := shMwait v }) = true ∧
    stands (watch 5 (at' 0x540086AE1D00A500#64)) (fun v =>
        { sh := shWuc v, touch := fun _ => if 0x30 ≤ v.dst then [(v.dst, natBit v.efunc 12)] else [], vas := fun w => [w.ua] })
      (fun _ w s => decide (w.ua % 4 = 0) && hbmAt s w w.ua 4 .read) = true := by decide +kernel

/-! Matrix, copies and tables. -/

/-- Operand A from n0 to n7 and B from tile 0, both int8 (R180, R202); the descriptors are in s4 and s6. -/
def mmaS (w : W64) : State := grp (fun g => uni 6 0x40010000 (uni 4 0x00010000 g)) (tile 0 { Tile.reset with st := .ready, size := 64 } (at' w))
theorem witness_MatrixWords_mma : ([(0x180, 0), (0x181, 1)] : List (Nat × Nat)).all (fun p => stands (mmaS (word p.1 0 0x34 0x36 0x53 p.2))
      (fun v => { sh := shMma v, cls := matCls (if p.1 = 0x180 then [v.dst] else [v.dst, natBits v.func 0 3]), touch := matTouch, tiles := mmaTiles,
                  vas := Iss.retireVas })
      fun _ w s => isOk (mmaCheck s w) && (s.charge w.t.tenant w.t.bcls actMatrix (chamberOf (coreDie w.core)) w.parts.length).1 == .ok) = true := by
  decide +kernel

def eMat (v : View) (sh : Shape) : Entry := { sh := sh, cls := matCls [v.dst], vas := Iss.retireVas }
def eFoot (add : Bool) (v : View) : Entry := { sh := shMld v, cls := matCls [v.dst], tiles := footTiles, vas := fun w => footVas w add }
theorem witness_MatrixWords_tile : stands (at' (word 0x182 7 0 0 0x53 0)) (fun v => eMat v (shMzero v)) (fun _ w s => isOk (retireCheck s w)) = true ∧
    stands (at' (word 0x186 7 0x30 0 0x53 0)) (fun v => eMat v (shMscl v)) (fun _ w s => isOk (retireCheck s w)) = true ∧
    stands (at' (word 0x185 0 0 0 0 0)) (fun v => { sh := shMrel v, cls := matCls [] }) = true ∧
    stands (at' (word 0x187 0x10 0x10 0 0 7)) (fun v => { sh := shMrd v, cls := matCls [natBits v.efunc 0 3] }) = true ∧
    stands (at' (word 0x187 0x10 0 0 0 0x6000)) (fun v => { sh := shMrd v, cls := matCls [] }) = true := by decide +kernel

/-- A tile's image at VA 0x10800, or in LS tile 0, with a pitch of 64 bytes in s6. -/
def imageS (a : Nat) (w : W64) : State := grp (fun g => uni 6 64 (uni2 4 a g)) (tile 0 { Tile.reset with st := .ready, size := 64 } (at' w))
theorem witness_MatrixWords_image : stands (imageS 0x10800 (word 0x183 0 0x34 0x36 0x53 0x4007)) (eFoot false) (fun _ w s =>
      isOk (xfmtCheck w false) && isOk (retireCheck s w) && (match footCheck s w 4 false false with
        | .ok rows => rows.all fun r => r.2.2.all fun t => s.lineEvent t.1 t.2 == none
        | .error _ => false)) = true ∧
    stands (imageS 0x10800 (word 0x184 0 0x34 0x36 0x53 0x4007)) (eFoot true) (fun _ w s =>
      isOk (xfmtCheck w true) && isOk (retireCheck s w) && isOk (footCheck s w 4 true false)) = true ∧
    stands (imageS 0x10000 (word 0x184 0 0x34 0x36 0x53 0xC007)) (eFoot true) (fun _ w s =>
      isOk (xfmtCheck w true) && isOk (footCheck s w 4 true true)) = true ∧
    stands (imageS 0x40000000 (word 0x184 0 0x34 0x36 0x53 0x2007)) (eFoot true) (fun _ w s =>
      isOk (xfmtCheck w true) && isOk (footCheck s w 4 true false)) = true := by decide +kernel

/-- A `drain.add` with room for each of its octets, and one that a soft cap holds before the first. -/
def drainHolds (held : Bool) (_ : View) (w : Iss) (s : State) : Bool := isOk (xfmtCheck w true) && isOk (retireCheck s w) &&
  match footCheck s w 4 true true with
  | .ok rows => (drainAdds w 4 s rows).held == held
  | .error _ => false
theorem witness_MatrixWords_drain : let s := imageS 0x10000 (word 0x184 0 0x34 0x36 0x53 0xC007)
    stands s (eFoot true) (drainHolds false) = true ∧ stands (capped s) (eFoot true) (drainHolds true) = true := by decide +kernel

theorem witness_Accumulation : (-2 ^ 574 < (2 ^ 574 - 1 : Int) ∧ (2 ^ 574 - 1 : Int) < 2 ^ 574) ∧ ((2 : Int) ^ 574 ≤ 2 ^ 574 - 1 + 1) ∧
    ((-2 ^ 574 : Int) ≥ -(2 ^ 574 - 1) + -1) ∧
    [Val.fin true 1 0].map Val.rat = [(-1 : ℚ)].map some := by
  refine ⟨by decide +kernel, by decide +kernel, by decide +kernel, ?_⟩
  simp [Val.rat]

/-- Destination 0x10900 and source 0x10800 in s0 to s3, the control block from s8 on: COUNT, flags, REC 0, OPID or stamp address 0x10A00 and
value 7; a one-dimensional int8 shape record of four elements at 0x10840. -/
def copyS (dst src count cw : Nat) (w : W64) : State :=
  let s := at' w
  let m := ((s.mem.wr 0x10840 8 0x10800).wr 0x10848 8 (2 ^ 56 + 2 ^ 53)).wr 0x10850 8 (4 * 2 ^ 48)
  let s := { s with mem := m.wr 0x10858 8 (4 * 2 ^ 24) }
  grp (fun g => uni2 14 7 (uni2 12 0x10A00 (uni2 10 0 (uni 9 cw (uni 8 count (uni2 2 src (uni2 0 dst g))))))) (team (fun t => { t with ls := [[(0, 5#8)]] }) s)
def eCopy (op : CopyOp) (v : View) : Entry := { sh := shCopy v, touch := cpTouch, vas := cpVas op, more := cpMore op }
def copyIs (op : CopyOp) (p : Except Exc (Copy × State) → Bool) (_ : View) (w : Iss) (s : State) : Bool := p (cpCheck (w.cpIn op) s w)
def joins (n : Nat) (x : Except Exc (Copy × State)) : Bool := match x with | .ok (c, _) => c.n == n | .error _ => false

theorem witness_CopyWords_cpy : stands (copyS 0x10900 0x10800 64 0 (uword 0x1A0 0 0x30 0x32 0x38 0)) (eCopy .cpy) (copyIs .cpy (joins 64)) = true ∧
    stands (copyS 0x10900 0x10800 0 0 (uword 0x1A0 0 0x30 0x32 0x38 0)) (eCopy .cpy) (copyIs .cpy (joins 0)) = true ∧
    stands (copyS 0x10900 0x10800 64 0x4000 (uword 0x1A0 0 0x30 0x32 0x38 0)) (eCopy .cpy) (copyIs .cpy isErr) = true := by decide +kernel
theorem witness_CopyWords_others : stands (copyS 0x10900 0x10840 0 0 (uword 0x1A1 0 0x30 0x32 0x38 0)) (eCopy .cpyo) (copyIs .cpyo (joins 4)) = true ∧
    stands (copyS 0x10900 0x10800 64 0 (uword 0x1A2 0 0x30 0x32 0x38 0)) (eCopy .cpyr) (copyIs .cpyr (joins 16)) = true ∧
    stands (copyS 0x40 0x10800 64 1 (uword 0x1A3 0 0x30 0x32 0x38 0x8000)) (eCopy .cpym) (copyIs .cpym (joins 64)) = true ∧
    stands (copyS 0x10900 0x10800 0 0 (uword 0x1A4 0 0x30 0x32 0x38 0)) (eCopy .cpys) (copyIs .cpys (joins 0)) = true ∧
    stands (copyS 0x10900 0x10800 64 0 (uword 0x1A4 0 0x30 0x32 0x38 0)) (eCopy .cpys) (copyIs .cpys (joins 64)) = true := by decide +kernel
theorem witness_CopyWords_seal : [0, 63, 64].all (fun n => stands (grp (fun g =>
    { uni2 8 0x10800 g with outb := List.replicate n ⟨0#32, [], none⟩ }) (at' 0x694086AE00000001#64))
      (fun v => { sh := shCseal v, touch := fun _ => if 0x30 ≤ v.dst then [(v.dst, false)] else [], vas := fun w => if natBit v.func 0 then [w.ua] else [] }) fun _ w s =>
          isOk (s.counterPa w.c w.own w.ua) && w.g.outb.length == n) = true ∧
    stands (at' 0x6980800000000003#64) (fun v => { sh := shCwait v }) = true := by decide +kernel

def hasTile (f : View → Nat) (p : Tile → Bool) (v : View) (w : Iss) (_ : State) : Bool :=
  decide (f v < w.t.kd.tiles) && (match (w.t.tiles.getD w.half [])[f v]? with | some t => p t | none => false)
def idle (t : Tile) : Bool := t.st != .filling && t.st != .draining
def nOfE (v : View) : Nat := natBits v.efunc 0 6

theorem witness_TableEntryWords_tile : ([(0, 0x80, 1), (63, 0, 8192)] : List (Nat × Nat × Nat)).all (fun p =>
      stands (grp (fun g => uni 1 p.2.2 (uni 0 p.2.1 g)) (at' (uword 0x1A8 0 0x30 0x31 0 p.1))) (fun v => { sh := shTset v }) fun v w s =>
          hasTile nOfE idle v w s &&
        decide (natBits w.ua 0 19 % 64 = 0 ∧ natBits w.ub 0 14 ≠ 0 ∧ natBits w.ub 0 14 ≤ 8192 ∧
            natBits w.ua 0 19 + 64 * natBits w.ub 0 14 ≤ 1024 * w.t.kd.scratch)) = true ∧
    stands (grp (uni2 12 0x10840) (tile 2 { Tile.reset with size := 4 } (at' 0x69C0800F00000002#64))) (fun v => { sh := shTbind v })
      (fun v w s => hasTile nOfE (fun t => idle t && t.size != 0) v w s && decide (w.ua % 64 = 0)) = true ∧
    stands (at' (uword 0x1A9 0x34 0 0 0 63)) (fun v => { sh := shTget v }) (hasTile nOfE fun _ => true) = true ∧
    stands (at' (uword 0x1AB 0 0 0 0 63)) (fun v => { sh := shTrel v }) (hasTile nOfE idle) = true ∧
    [0, 0x40, 0x80].all (fun f => stands (at' (uword 0x1AA 0 (if f = 0x80 then 0x30 else 0) 0 0 (f + 2))) (fun v =>
        { sh := shTwait v }) (hasTile nOfE fun t => !t.absent)) = true ∧
    stands (tile 2 { Tile.reset with size := 4, absent := true, rcp := 0x10840#64 } (at' (uword 0x1AA 0 0 0 0 2))) (fun v =>
        { sh := shTwait v }) (hasTile nOfE fun t => t.absent) = true := by
  decide +kernel

def hasBar (p : Barrier → Iss → Bool) (v : View) (w : Iss) (_ : State) : Bool :=
  decide (nOfE v < w.t.kd.barriers) && (match w.t.barriers[nOfE v]? with | some b => p b w | none => false)
def sumOf (b : Barrier) (w : Iss) : Int := b.txb.toInt + sInt 32 w.ua

/-- A `twait` that would start a fill while the ranges of its context are being committed. -/
theorem witness_TableEntryWords_frozen : stands { tile 2 { Tile.reset with size := 4, absent := true, rcp := 0x10840#64 } (at' (uword 0x1AA 0 0 0 0 2)) with
      freezes := [{ freeze0 with team := 9 }] } (fun v => { sh := shTwait v })
    (fun v w s => hasTile nOfE (fun t => t.absent) v w s && s.frozenCtx w.c.num) = true := by decide +kernel

theorem witness_TableEntryWords_barrier : stands (at' (uword 0x1B0 0 0x30 0x31 0 0x7F)) (fun v => { sh := shBini v }) (hasBar fun b _ =>
    b.arrm == 0#16 && b.txb == 0#32) = true ∧
    stands (at' (uword 0x1B1 0 0 0 0 63)) (fun v => { sh := shBar v }) (hasBar fun b w => b.memb.getLsbD w.g.idx && !b.arrm.getLsbD w.g.idx) = true ∧
    stands (bar 3 (fun b => { b with memb := 2#16 }) (at' (uword 0x1B1 0 0 0 0 3))) (fun v => { sh := shBar v }) (hasBar fun b w =>
        !b.memb.getLsbD w.g.idx) = true ∧
    stands (bar 3 (fun b => { b with arrm := 1#16 }) (at' (uword 0x1B1 0 0 0 0 3))) (fun v => { sh := shBar v }) (hasBar fun b w =>
        b.memb.getLsbD w.g.idx && b.arrm.getLsbD w.g.idx) = true ∧
    [0x1B2, 0x1B4].all (fun opc => stands (at' (uword opc 0 0 0 0 63)) (fun v => { sh := shBar v }) (hasBar fun _ _ => true)) = true ∧
    stands (at' (uword 0x1B5 0x34 0 0 0 63)) (fun v => { sh := shBget v }) (hasBar fun _ _ => true) = true := by decide +kernel

theorem witness_TableEntryWords_expect : ([(0x7FFFFFFE, 1, 0), (0x7FFFFFFF, 1, 1), (0x80000001, 0xFFFFFFFF, 0), (0x80000000, 0xFFFFFFFF, 2)] : List (Nat × Nat × Nat)).all (fun p =>
      stands (grp (uni 10 p.2.1) (bar 3 (fun b => { b with txb := BitVec.ofNat 32 p.1 }) (at' 0x6CC0800E80000003#64))) (fun v => { sh := shBexp v })
        (hasBar fun b w => if p.2.2 = 0 then decide (-2 ^ 31 ≤ sumOf b w ∧
            sumOf b w < 2 ^ 31) else if p.2.2 = 1 then decide (2 ^ 31 ≤ sumOf b w) else decide (sumOf b w < -2 ^ 31))) = true ∧
    stands (at' 0x79C0800F00000000#64) (fun v => { sh := shRcinv v }) = true := by decide +kernel

theorem witness_BarrierPhases : (-2 ^ 31 ≤ (0x80000001#32).toInt - (1 : Nat)) ∧ ((0x80000000#32).toInt - (1 : Nat) < -2 ^ 31) := by decide

/-! Queues, special registers and system words. -/

def eQueue (more : Iss → State → List Nat) (v : View) : Entry := { sh := shQueue v, touch := fun _ => pairTouch v, vas := fun w => [w.ua], more := more }
def eEnqueue (kinds : List Nat) (v : View) : Entry := eQueue (slotVas kinds QHdr.tail) v
def eDequeue (opc : Nat) (v : View) : Entry := eQueue (if opc = 0x1E1 then deqVas else slotVas [3] QHdr.head) v
/-- The queue opens for the word, its next slot is in reach, and p holds of its header. -/
def opens (kinds : List Nat) (p : QHdr → Iss → State → Nat → Bool) (_ : View) (w : Iss) (s : State) : Bool :=
  match s.openQueue w.c w.ua kinds with
  | .error _ => false
  | .ok (pa, h) => isOk (s.queuePa w.c (h.base + 64 * (h.tail % h.cap)) 64) && isOk (s.queuePa w.c (h.base + 64 * (h.head % h.cap)) 64) && p h w s pa &&
      decide (w.ub % 64 = 0 ∧ w.ub + 64 ≤ 1024 * w.t.kd.scratch)

theorem witness_QueueWords_enqueue : ([(0x1E0, 2, 6), (0x1E0, 3, 9), (0x1E5, 1, 6), (0x1E6, 4, 6)] : List (Nat × Nat × Nat)).all (fun p =>
      stands (grp queued (queue p.2.1 5 p.2.2 7 (at' (qword p.1 0x34)))) (eEnqueue (if p.1 = 0x1E0 then [2, 3] else [p.2.1])) (opens [p.2.1] fun h w s pa =>
          isOk (s.enqueue w.c pa h (s.lsBytes w.id.1 w.core w.ub 64)) &&
        (s.chargeAns h.tenant h.bcls actLaunch (homeSlice s.pkg.hbmsplit pa / 96) 1) != .hard)) = true := by decide +kernel
/-- A `spawn` past the hard cap on launches, and a `qdeq` with nothing to take whose item number goes nowhere. -/
theorem witness_QueueWords_spawn : stands (grp queued { queue 1 5 6 7 (at' (qword 0x1E5 0x34)) with
      sch := { State.reset.sch with rows := [{ Row.fresh 0 0 with hard := List.replicate 6 1, use0 := List.replicate 6 1 }] } }) (eEnqueue [1])
    (opens [1] fun h _ s pa => h.kind == 1 && s.chargeAns h.tenant h.bcls actLaunch (homeSlice s.pkg.hbmsplit pa / 96) 1 == .hard) = true ∧
    stands (grp queued (queue 3 4 4 0 (at' (qword 0x1E1 0x08)))) (eDequeue 0x1E1) (opens [3] fun h _ _ _ => decide (h.head = h.tail)) = true := by decide +kernel
theorem witness_QueueWords_dequeue : [0x1E1, 0x1E2].all (fun opc =>
    stands (grp queued (queue 3 4 5 0 (at' (qword opc 0x34)))) (eDequeue opc) (opens [3] fun h _ _ _ => decide (h.count ≠ 0)) &&
      stands (grp queued (queue 3 4 4 0 (at' (qword opc 0x34)))) (eDequeue opc) (opens [3] fun h _ _ _ => decide (h.head = h.tail ∧
          h.tail < 2 ^ 64))) = true := by decide +kernel
theorem witness_QueueWords_counter : [0x1E3, 0x1E4].all (fun opc => [0, 9].all fun x => stands (grp (fun g =>
    uni 10 x (uni2 8 0x10800 g)) (data 3 (at' (qword opc 0))))
      (fun v => { sh := shQueue v, vas := fun w => [w.ua] }) fun _ w s => isOk (s.counterPa w.c w.own w.ua)) = true ∧ (data 3 (at' nop)).mem.wf = true ∧
          (data 3 (at' nop)).mem.rd 0x10800 4 = 3 := by decide +kernel

theorem witness_Enqueue : ([(2, 6), (2, 9), (3, 6)] : List (Nat × Nat)).all (fun p => let s := queue p.1 5 p.2 7 (at' nop)
    s.mem.wf && (match s.ctx? 0 with
      | none => false
      | some c => match s.openQueue c 0x11000 [p.1] with
        | .error _ => false
        | .ok (pa, h) => isOk (s.queuePa c (h.base + 64 * (h.tail % h.cap)) 64) && isOk (s.enqueue c pa h (List.replicate 64 1#8)) &&
            (decide (h.count = h.cap) == (p.2 == 9)))) = true := by
  decide +kernel

/-- An empty WORK queue with a group that waits for its next item, and whose WLIST area lies elsewhere or over TAIL. -/
def waiter0 (a : Nat) : Waiter := { hdr := 0x11000, team := 0, grp := 0, ls := 0x40, dst := 0x34, area := [(a, 64)] }
theorem witness_Enqueue_waiter : [0x14000, 0x11000].all (fun a => let s := { queue 3 5 5 0 (at' nop) with waiters := [waiter0 a] }
    s.mem.wf && (match s.ctx? 0 with
      | none => false
      | some c => match s.openQueue c 0x11000 [3] with
        | .error _ => false
        | .ok (pa, h) => h.kind == 3 && h.count == 0 && h.cap != 0 && (s.waiters.find? fun w => w.hdr == pa) == some (waiter0 a) &&
            isOk (s.queuePa c (h.base + 64 * (h.tail % h.cap)) 64) && isOk (s.enqueue c pa h (List.replicate 64 1#8)))) = true := by decide +kernel

theorem witness_TraceAndSpecial_trace : stands (at' 0x7C00800E000000C5#64) (fun v => { sh := shTrc v }) = true ∧
    stands (at' 0x7C400005000000C6#64) (fun v => { sh := shTrc v }) = true ∧
    [0x0003, 0x4000, 0x8001].all (fun f => stands (at' (word 0x1F2 0x10 0 0 0 f)) (fun v => { sh := shCnt v }) fun _ w _ => w.c.priv) = true ∧
    stands (user (at' (word 0x1F2 0x10 0 0 0 0x8000))) (fun v => { sh := shCnt v }) (fun v w _ => decide (8 ≤ natBits v.func 12 4) &&
        !w.c.priv) = true := by decide +kernel
theorem witness_TraceAndSpecial_rdsr : [0x0000, 0x0012, 0x0101, 0x010D].all (fun f => stands (at' (word 0x0C0 0x10 0 0 0 f)) (fun v =>
    { sh := shRdsr v }) fun v _ _ => selWidth v.func != 64) = true ∧
    [0x0010, 0x0011].all (fun f => stands (at' (word 0x0C0 0x10 0 0 0 f)) (fun v => { sh := shRdsr v }) fun v _ _ => selWidth v.func == 64) = true ∧
    stands (user (at' (word 0x0C0 0x10 0 0 0 0x100))) (fun v => { sh := shRdsr v }) (fun v w _ => decide (0x100 ≤ v.func) && !w.c.priv) = true ∧
        (63 : Nat) < 64 := by decide +kernel
theorem witness_TraceAndSpecial_wrsr : [0x00F, 0x100].all (fun f => stands (at' (uword 0x0C1 0 0x30 0 0 f)) fun v => { sh := shWrsr v }) = true ∧
    stands (grp (uni 0 0x10000000) (at' (uword 0x0C1 0 0x30 0 0 0x102))) (fun v => { sh := shWrsr v })
      (fun _ w s => match s.selected w.g with | some c => (ctxCmd c w.ua).isSome | none => false) = true ∧
    ([(0x103, true), (0x104, false), (0x10A, false), (0x10B, true), (0x10D, true)] : List (Nat × Bool)).all (fun p =>
        stands (at' (uword 0x0C1 0 0x30 0 0 p.1)) (fun v => { sh := shWrsr v })
        fun v w s => (s.selected w.g).any fun c => decide (0x104 ≤ v.func ∧ v.func ≤ 0x10A ∧ c.st = .running) == !p.2) = true := by decide +kernel

def callS (tail : Nat) : State := ctx (fun c => { c with svcq := 0x11000#64 }) (queue 3 5 tail 0 (at' 0x43C0800E00000004#64))
theorem witness_ServiceCalls_sysc : stands (at' 0x43C0800E00000004#64) (fun v => { sh := shSysc v, touch := fun _ => (List.range 8).map fun j =>
    (v.a + j, false) }) (fun _ w _ => w.c.svcq == 0#64) = true ∧
    [6, 9].all (fun n => stands (callS n) (fun v => { sh := shSysc v, touch := fun _ => (List.range 8).map fun j => (v.a + j, false) }) fun v w s =>
      decide (w.c.svcq ≠ 0#64 ∧ s.ctx? w.c.num = some w.c) && (match s.openSvcq w.c with
        | .ok (z, pa, h) => let vas := [w.c.svcq.toNat, h.base + 64 * (h.tail % h.cap)]
          !vas.any (s.frozenVa z.num) && s.walkPages z w.core vas == [] && isOk (((s.coreFills z w.core w.id vas).updCtx w.c.num fun c => { c with epoch := c.epoch + 1#32 }).enqueueFor w.id (z, pa, h) (syscItem w.c w.g w.c.epoch v.func 8 w.g.wordPc))
        | .error _ => false)) = true := by decide +kernel
/-- A call whose service queue lies in a context that is committing its ranges. -/
theorem witness_ServiceCalls_frozen : let s := { callS 6 with freezes := [{ freeze0 with team := 9 }] }
    stands s (fun v => { sh := shSysc v, touch := fun _ => (List.range 8).map fun j => (v.a + j, false) }) (fun _ w s => match s.openSvcq w.c with
      | .ok (z, _, h) => [w.c.svcq.toNat, h.base + 64 * (h.tail % h.cap)].any (s.frozenVa z.num)
      | .error _ => false) = true := by decide +kernel
/-- A store of the 4 bytes 1 at VA and PA 0x10A00, of thread 0 of the word at VA 0x10008, which is not acknowledged. -/
def farStore : Late :=
  { th := some 0, pc := 0x10008#64, va := 0x10A00, pa := 0x10A00, old := leBytes 4 0, new := leBytes 4 1, kind := .put, far := true }
def eretTouch (v : View) : Touch := (if 0x30 ≤ v.dst then [(v.dst, false)] else []) ++ (List.range 6).map fun j => (v.a + j, false)
theorem witness_ServiceCalls_eret : stands (at' 0x808086B000000000#64) (fun v => { sh := shEret v, touch := fun _ => eretTouch v }) = true ∧
    natBits 0xFFFF00000000 32 24 ≠ 0 := by decide +kernel
/-- A queue with room for the item of a group whose stores are out. -/
theorem witness_ServiceCalls_release : let s := queue 3 5 6 0 (grp (fun g => { g with late := [farStore] }) (at' nop))
    (match s.ctx? 0 with
      | none => false
      | some c => match s.openQueue c 0x11000 [3] with
        | .error _ => false
        | .ok q => (match s.enqueueFor (0, 0) (c, q) (List.replicate 64 1#8) with | .ok (some _, _) => true | _ => false) &&
            match s.enqueue c q.1 q.2 (List.replicate 64 1#8) with
              | .ok (_, t) => (t.grp? (0, 0)).isSome
              | .error _ => false) = true := by decide +kernel
/-- Context 1, saved, with an empty area of one unit at PA 0x15000. -/
def savedCtx : Ctx := { Ctx.zero with num := 1, st := .saved, savebase := 0x15000, savesz := 1 }
def loadS : State :=
  let s := at' 0x8140800E40000000#64
  grp (uni 9 1) { s with ctxs := s.ctxs ++ [savedCtx], mem := s.mem.wr 0x15000 4 1 }
theorem witness_ServiceCalls_ctxld : stands (at' 0x8140800E40000000#64) (fun v => { sh := shCtxld v }) (fun _ w s => (s.ctx? w.ua).any fun c =>
    c.st == .running) = true ∧
    stands loadS (fun v => { sh := shCtxld v }) (fun _ w s => (s.ctx? w.ua).any fun c => c.st == .saved && isOk (s.checkArea c)) = true := by decide +kernel
theorem witness_ServiceCalls_bdg : ([(0, 0), (1, 5), (2, 0)] : List (Nat × Nat)).all (fun p => stands (grp (fun g =>
    uni 9 16 (uni 8 3 g)) (at' (0x8180800E1C800000#64 + BitVec.ofNat 64 (16 * p.2 + p.1))))
      (fun v => { sh := shBdg v }) fun v w s => decide (natBits w.ua 19 13 = 0 ∧ w.ub ≠ 0 ∧ w.ub ≤ 16 ∧ natBits w.ua 16 3 = 0 ∧ s.row? 3 0 = none ∧
          s.sch.rows.length < 256) &&
        (let row := { Row.fresh 3 0 with pend := [(natBits v.efunc 0 2, natBits v.efunc 4 3, w.ub)] }
         decide (row.future.soft.getD (natBits v.efunc 4 3) 0 = 0 ∨ row.future.hard.getD (natBits v.efunc 4 3) 0 = 0)) && natBits v.efunc 0 2 == p.1) = true ∧
    stands (grp (fun g => uni 9 16 (uni 8 0 g)) (capped (at' 0x8180800E1C800000#64))) (fun v => { sh := shBdg v }) (fun _ _ s =>
        (s.row? 0 0).isSome) = true := by decide +kernel

def existing (w : Iss) (s : State) (p : Ctx → Bool) : Bool :=
  decide (w.ua < 256) && (s.ctx? w.ua).any fun c => c.num == w.ua && c.st != .free && !s.frozenCtx c.num && p c
theorem witness_TranslationWords : [0, 31].all (fun n => stands (grp (fun g =>
    uni 12 n (uni2 10 0x10800 (uni 8 0 g))) (at' 0x8000800E1D3C0000#64)) (fun v => { sh := shRmap v })
      fun _ w s => existing w s (fun _ => true) && decide (w.uc < 32 ∧ w.ub % 32 = 0) && isOk (s.loadSpan w.c w.own w.ub 32 .read false)) = true ∧
    stands (at' 0x8040800E00000000#64) (fun v => { sh := shRcommit v }) (fun _ w s => existing w s fun c => badRange s.pkg.hbmsplit c.staged == none) = true ∧
    [0, 1, 2].all (fun m => stands (at' (uword 0x203 0 0x38 (if m = 0 then 0x3A else 0) 0 m)) (fun v => { sh := shTlbi v }) fun _ w s =>
        existing w s (fun _ => true) && s.freezes == []) = true ∧
    (State.reset.ctx? 0).isSome = true ∧
    stands (grp (uni2 12 0x20000) (paged (at' (uword 0x204 0 0x38 0x3A 0x3C 0)))) (fun v => { sh := shRmap v }) (fun _ w s => existing w s fun c =>
      decide (findRange c.committed w.ub = none ∧ natBits w.ub 56 8 = 0) && (match walk s.mem.entries w.ub 3 c.ptroot with
        | .ok (lf, _) => decide (w.uc % 2 ^ lf.bits = 0 ∧ lf.base + 2 ^ lf.bits ≤ w.uc) && isOk (leafRegion s.pkg.hbmsplit lf w.ub) &&
            !s.migMeets lf.base (2 ^ lf.bits) && !s.migMeets w.uc (2 ^ lf.bits) && (regionOf s.pkg.hbmsplit w.uc).hbm &&
            regionOf s.pkg.hbmsplit w.uc == regionOf s.pkg.hbmsplit (w.uc + 2 ^ lf.bits - 1)
        | .error _ => false)) = true := by decide +kernel

/-- A `tlbi` of every context while another one waits. -/
theorem witness_TranslationWords_tlbi : stands { at' (uword 0x203 0 0x38 0 0 2) with freezes := [{ freeze0 with team := 9, inval := some true }] }
    (fun v => { sh := shTlbi v }) (fun _ _ s => s.freezes.all fun z => z.inval.isSome) = true := by decide +kernel
/-- A migration of the page of VA 0 from PA 0x10000 to PA 0x20000 that is about to take effect. -/
def moveS : State := { paged (at' nop) with freezes := [{ freeze0 with page := some (0, 16, 0x20000) }] }
theorem witness_TranslationWords_thaw : moveS.mem.wf = true ∧ (match moveS.ctx? 0 with
    | some c => (match walk moveS.mem.entries 0 3 c.ptroot with
      | .ok (lf, entry) => decide (lf.bits = 16 ∧ lf.base = 0x10000 ∧ entry = 0x400000)
      | .error _ => false)
    | none => false) = true ∧ 0x20000 % 2 ^ 16 = 0 ∧ (List.range 512).all (fun j => !moveS.badLine (512 + j)) = true := by decide +kernel
/-- The moved page: a byte of it, and the ADDR of its leaf (R230, steps 3 and 4). -/
theorem test_page_moves : (moveS.freezes.map fun z => let t := moveS.thaw z
    (t.mem.rd 0x20000 8 == moveS.mem.rd 0x10000 8, t.mem.rd 0x400000 8)) = [(true, 0x20025)] := by decide +kernel

/-! ### Witnesses for the events -/

def base : State := at' nop
/-- The reading of a state's team, group and context. -/
def party (s : State) (p : Team → Group → Ctx → Bool) : Bool :=
  match s.team? 0, s.grp? (0, 0), s.ctx? 0 with
  | some t, some g, some c => p t g c
  | _, _, _ => false
def waiting (w : GWait) : State := grp (fun g => { g with wait := w, pos := 0, clause := [] }) base
def resv0 : Resv := { qi := none, wide := false, named := [2], uni := none, uniN := 0, mask := 1#64, vals := [7#64], rem := 0, arrived := false, load := false }
def exc0 : Exc := { code := 0x0061 }

/-- The state before a boundary of the group, and the same with a clause whose header waits for barrier 0, and one whose first word is a fault. -/
def atEdge : State := { waiting .none with cur := none }
def edge (s : State) (p : Team → Group → Ctx → List W64 → State → Bool) : Bool :=
  !s.canIssue (0, 0) && s.atBoundary (0, 0) && s.pauseLeft == 0 && party s fun t g c => !s.frozenVa c.num g.pc.toNat && match s.fetchClause (0, 0) c t g with
    | (.ok ws, s1) => p t g c ws s1
    | (.error _, _) => false
/-- The clause's pages are at hand, and neither a trace nor a save nor a fault is in the way. -/
def clear (s : State) (t : Team) (g : Group) (c : Ctx) (ws : List W64) : Bool :=
  let x : Group := { g with clause := ws }
  let vas := g.pc.toNat :: g.clauseVas (clauseHdr (ws.headD 0#64))
  !vas.any (s.frozenVa c.num) && s.walkPages c (t.coreOf 0) vas == [] && !(s.filter t.ctx).en && g.deferred == [] && !s.wantSave t &&
    (clauseTiles t x.descReady ws.tail).all fun i => (t.tileAt x i).st == .ready
theorem witness_GroupEvents_turn : (at' nop).canIssue (0, 0) = true := by decide +kernel
theorem witness_GroupEvents_boundary : edge atEdge (fun t g c ws _ => clear atEdge t g c ws && State.headerMet t { g with clause := ws }) = true ∧
    (let s := grp (fun g => { g with pc := 0x10010#64 }) atEdge
     s.canIssue (0, 0) = false ∧ s.atBoundary (0, 0) = true ∧ s.pauseLeft = 0 ∧ party s (fun t g c => match s.fetchClause (0, 0) c t g with | (.error x, _) => s.leafWalks c (t.coreOf 0) x (s.walkPages c (t.coreOf 0) [x.addr]) == [] | _ => false) = true) ∧
    (let s := paged (grp (fun g => { g with pc := 0x800#64 }) atEdge)
     s.canIssue (0, 0) = false ∧ s.atBoundary (0, 0) = true ∧ s.pauseLeft = 0 ∧ party s (fun t g c => !s.frozenVa c.num g.pc.toNat && match s.fetchClause (0, 0) c t g with
       | (.error x, _) => s.leafWalks c (t.coreOf 0) x (s.walkPages c (t.coreOf 0) [x.addr]) != []
       | _ => false) = true) := by
  decide +kernel
/-- A clause of one word whose header waits until the group has no copy outstanding (R93). -/
def headS : State := grp (fun g => { g with outb := [⟨0#32, [], none⟩] }) { atEdge with mem := atEdge.mem.wr 0x10000 8 0xD0A1000000000000 }
theorem witness_GroupEvents_header : edge headS (fun t g c ws _ => clear headS t g c ws && !State.headerMet t { g with clause := ws }) = true := by decide +kernel
/-- A boundary whose clause needs a walk. -/
def walkS : State :=
  let s := paged (grp (fun g => { g with pc := 0x800#64 }) atEdge)
  { s with mem := ((s.mem.wr 0x400000 8 0x10027).wr 0x10800 8 0xD0A0000000000000).wr 0x10808 8 0x4340000000000000 }
theorem witness_GroupEvents_walk : edge walkS (fun t g c ws _ =>
    let vas := g.pc.toNat :: g.clauseVas (clauseHdr (ws.headD 0#64))
    !vas.any (walkS.frozenVa c.num) && walkS.walkPages c (t.coreOf 0) vas != []) = true := by decide +kernel
theorem witness_GroupEvents_arrival : (seen (at' nop) (fun g => ({ g with resv := [resv0] } : Group).resv[0]?)).isSome = true ∧
    resv0.due = true ∧ party (grp (fun g => { g with pendingStores := 1 }) base) (fun _ g _ => g.pendingStores != 0) = true := by decide +kernel
theorem witness_GroupEvents_deferred : 0x0060 ∈ deferCodes ∧ party (grp (fun g => { g with pendingStores := 1 }) base)
      (fun _ g _ => g.resv == [] && g.pendingStores != 0 && g.late == [] && lateMet g.late 0x10A00 0#64 0#64 == []) = true ∧
    (let s := data 1 (grp (fun g => { g with pendingStores := 1, late := [{ farStore with va := 0x10800, pa := 0x10800 }] }) base)
     party s (fun _ g _ => g.resv == [] && g.late == [{ farStore with va := 0x10800, pa := 0x10800 }]) = true ∧
       s.mem.wf = true ∧ s.mem.bytes 0x10800 4 = leBytes 4 1) ∧
    (∃ l ∈ [farStore, { farStore with far := false }], l.far = false) ∧ (1 < 2) ∧
    party (grp (fun g => { g with resv := [{ resv0 with load := true }] }) base) (fun _ g _ => g.resv[0]? == some { resv0 with load := true } && g.resv.take 0 == []) =
      true ∧ ({ resv0 with load := true } : Resv).due = true := by decide +kernel
/-- Two threads stored 1 and 2 at one word of a host; the link fails for the second, or for the first (R235): the other's store stands. -/
theorem test_link_down_of_one_thread : [(2, 1), (1, 2)].map (fun p =>
    let second := { farStore with th := some 1, old := leBytes 4 1, new := leBytes 4 2 }
    let s := grp (fun g => { g with pendingStores := 2, late := [farStore, second] }) { base with mem := base.mem.wr 0x10A00 4 2 }
    (answer (exec (.deferredAccessFault 0 0 0x0060 0x10A00 0 (BitVec.ofNat 64 p.1) 0x10008#64) s)).map fun u =>
      (u.mem.rd 0x10A00 4, ((u.grp? (0, 0)).map fun g => (g.pendingStores, g.late.map Late.th)))) =
    [some (1, some (1, [some 0])), some (2, some (1, [some 1]))] := by decide +kernel
theorem witness_GroupEvents_stall : party (waiting .stall) (fun _ g _ => g.wait == .stall) = true ∧ (waiting .stall).handing 0 0 = false ∧
    (waiting .stall).freezes = [] ∧
    (let s := { waiting .stall with freezes := [freeze0] }
     (s.freezes.find? fun z => z.team == 0 && z.grp == 0) = some freeze0 ∧ s.drainedFor freeze0 = true) := by decide +kernel
theorem witness_GroupEvents_release : ([.batch true 0, .barrier 63, .room, .frozen] : List GWait).all (fun x => party (waiting x) fun t g c =>
      c.st == .running && g.idx == 0 && g.deferred == [] && g.wait == x && g.outb == [] && (t.barriers[63]?).any (fun b => !b.arrm.getLsbD 0) &&
      !(waiting x).frozenCtx 0) = true ∧
    (let s := grp (fun g => { g with clause := g.clause.take 0 ++ [0xD180000000000000#64, nop] }) (waiting .header)
     s.pauseLeft = 0 ∧ party s fun t g c => c.st == .running && g.wait == .header && State.headerMet t g && g.deferred == []) ∧
    (let s := waiting (.tile 2 1 0#16)
     party s fun t g c => c.st == .running && g.deferred == [] && tileWait (t.tileAt g 2) 1 0#16) = true ∧
    (let s := grp (fun g => { g with monitor := some ⟨0#64, 0, true⟩ }) (waiting .monitor)
     party s fun _ g c => c.st == .running && g.deferred == [] && (g.monitor.any fun m => m.fired)) = true ∧
    (let s := grp (fun g => { g with call := some ⟨0#32, 8, true⟩ }) (waiting .sysc)
     party s fun _ g c => c.st == .running && g.deferred == [] && s.calls == [] && (g.call.any fun x => x.answered)) = true ∧
    party (grp (fun g => { g with deferred := [(exc0, 0#64)] }) (waiting .halted)) (fun _ g c => c.st == .running && g.deferred != [] &&
        g.wait == .halted) = true := by decide +kernel
def roomS : State :=
  { ctx (fun c => { c with svcq := 0x11000#64 }) (queue 3 5 6 0 (grp (fun g => { g with call := some ⟨0#32, 8, false⟩ }) (waiting .sysc))) with
    calls := [⟨0, 0, 0, List.replicate 64 7#8⟩] }
theorem witness_GroupEvents_room : (roomS.calls.find? fun p => p.team == 0 && p.grp == 0) = some ⟨0, 0, 0, List.replicate 64 7#8⟩ ∧ roomS.mem.wf = true ∧
    roomS.waiters = [] ∧ roomS.frozenCtx 0 = false ∧ party roomS (fun _ _ c => match ({ roomS with calls := [] } : State).openSvcq c with
    | .ok (z, pa, h) => decide (h.count ≠ h.cap) && (match roomS.queuePa z (h.base + 64 * (h.tail % h.cap)) 64 with
      | .ok slot => decide (slot + 64 ≤ pa + 24 ∨ pa + 32 ≤ slot)
      | .error _ => false)
    | .error _ => false) = true := by decide +kernel
def traceS : State := { waiting (.trace 0 3) with echo := { base.echo with filters := [{ tag := 0, tenant := 0, sink := 0, stallmax := 1, lossless := true, en := true, cmask := 0#256, resv := 0#26, rest := [] }] } }
theorem witness_GroupEvents_lossless : party traceS (fun t g _ => g.wait == .trace 0 3 && (traceS.filter t.ctx).stallmax != 0 &&
    (traceS.filter t.ctx).lossless) = true := by decide +kernel
theorem witness_GroupEvents_lantern : let s := bar 3 (fun b => { b with clock := some 5, tmo := 1#16 }) base
    party s (fun t _ _ => (t.barriers[3]?).any (fun b => b.clock == some 5 && decide (5 < b.budget)) && !s.lanternHeld t) = true := by decide +kernel

def settling (f : SettleFor) : State := team (fun t => { t with slot := .settle, settle := f, frame := 0x10A00#64 }) (succS 0x10840 nop)
/-- The team of a phase end, scrubbed for the next phase p. -/
def scrubbed (s : State) (t : Team) (c : Ctx) (p : Nat) (k : Team → State → Bool) : Bool :=
  match s.carryEntry c t.kd (if p = 0 then 2 ^ 32 else p) with
  | .error _ => false
  | .ok m =>
    let t1 : Team := { t.scrubPhase m c.seed.toNat p with settle := .none }
    match ((s.disarmTeam t).updTeam 0 fun _ => t1).writePcode c t1 t1.codePtr with
    | .ok s2 => k t1 s2
    | .error _ => false
theorem witness_TeamEvents_settle : (party (settling .ended) fun t _ _ => t.slot == .settle && t.settle == .ended && t.quiet && (settling .ended).copiesDone t) =
      true ∧
    party (settling .phase) (fun t _ c => let s := settling .phase
      t.slot == .settle && t.settle == .phase && t.quiet && s.copiesDone t && !t.kd.restart &&
        scrubbed s t c ((t.phase.toNat + 1) % 2 ^ 32) fun t1 s2 => !s2.wantSave t1 && !s2.dieDraining (coreDie t.core) &&
          match s2.readRec c none (t.frame.toNat + 16) 4 with
          | .ok bs => leNat bs == 0
          | .error _ => false) = true := by decide +kernel
/-- A `succ` that can start in place, with a save of its context requested or not. -/
theorem witness_TeamEvents_succ : [true, false].all fun save =>
    let s := ctx (fun c => { c with saving := if save then some .cmd else none }) (settling (.succ 0x10840 (2 ^ 64)))
    party s (fun t _ c => t.slot == .settle && t.quiet && (t.groups[t.last]?).any fun l =>
      match s.succRead c (some (t, t.coreOf l.idx)) 0x10840 (2 ^ 64) with
      | .error _ => false
      | .ok (k, m) => match s.succPlan t k m with
        | .error _ => false
        | .ok pl => pl.go == .here && !pl.k.restart &&
          s.walkPages c (t.coreOf l.idx) [0x10840] == [] && !s.frozenCtx c.num &&
          let t1 : Team := { t.scrubSucc pl.k 0x10840#64 pl.m c.seed.toNat with settle := .none }
          let s0 := (s.disarmTeam t).emitTeam t1 0x04 0
          (match ((s0.updTeam 0 fun _ => t1).updIdent 0 fun i => { i with maps := some pl.m, starting := s0.wantSave t }).writePcode c t1 pl.k.entry with
            | .ok s2 => s2.wantSave t == save
            | .error _ => false)) = true := by decide +kernel
def starting (l : Load) : State := team (fun t => { t with slot := .start, load := l, frame := 0x10A00#64 }) base
theorem witness_TeamEvents_start : [Load.succ, .image 64 true].all (fun l => party (starting l) fun t _ _ => t.slot == .start && t.load == l) = true ∧
    [true, false].all (fun h => party (starting (.fresh h)) fun t _ c => t.load == .fresh h &&
      isOk (if h then (starting (.fresh h)).writeRec c t.frame.toNat t.frameHeader else (starting (.fresh h)).writePcode c t t.kd.entry)) = true ∧
    [0, 1].all (fun p => party (starting (.task 0x10000#64 p none)) fun t _ c => t.load == .task 0x10000#64 p none &&
      isOk ((starting (.task 0x10000#64 p none)).loadTask c t 0x10000#64 p none)) = true := by decide +kernel
def leave0 : Leave := { tk := 1, code := 0x10000#64, phase := 1#32, kva := 0x10840#64, ctr := 0, bound := 0, maps := none }
def spillS : State := team (fun t => { t with slot := .spill, leave := some leave0, tq := 0x11000#64 }) (queue 2 5 6 0 base)
theorem witness_TeamEvents_spill : party spillS (fun t _ c => t.slot == .spill && t.leave == some leave0 && c.st == .running &&
    leave0.maps == none && (match spillS.openOwn c t.tq.toNat [2] with
    | .ok (pa, h) => decide (h.count ≠ h.cap) && isOk (spillS.enqueue c pa h (t.taskItem leave0))
    | .error _ => false)) = true := by decide +kernel
/-- Tile 2 FILLING from a fill record at VA 0x10A00 that names the shape record of `copyS`. -/
def fillJob : TileJob := { tile := 2, upper := false, drain := false, retire := none, grp := 0, pc := 0#64, paid := 0 }
def fillS : State :=
  let s := copyS 0 0 0 0 nop
  team (fun t => { t with jobs := [fillJob, { fillJob with drain := true }, { fillJob with drain := true, retire := some ⟨0, 0x10800#64, 0x10800⟩ }] })
    (tile 2 { Tile.reset with st := .filling, size := 4, rcp := 0x10A00#64 } { s with mem := s.mem.wr 0x10A00 8 0x10840 })
theorem witness_TeamEvents_jobs : party fillS (fun t _ c => t.jobs[0]? == some fillJob && (match fillS.runFill c t fillJob with | .done _ => true | _ => false) &&
    ((t.tiles.getD 0 [])[fillJob.tile]?).isSome &&
    (t.jobs[1]?).any (fun j => j.drain && j.retire.isNone) &&
    (t.jobs[2]?).any fun j => j.drain && j.retire.isSome) = true := by decide +kernel
/-- A matrix fetch fault of a team, which is restartable or not. -/
def matrixS (r : Bool) : State := team (fun t => { t with retires := [⟨0, 0x10800#64, 0x10800⟩], mfetch := some (0, exc0, 0#64), frame := 0x10A00#64, kd := { t.kd with restart := r } }) base
theorem witness_TeamEvents_matrix : party (matrixS false) (fun t _ _ => (t.retires[0]?).isSome && t.mfetch.isSome && !t.kd.restart) = true ∧
    (let s := ctx (fun c => { c with rstlim := 1 }) (matrixS true)
     party s fun t _ c => t.kd.restart && t.mfetch == some (0, exc0, 0#64) && decide (((s.sch.idents.find? fun i => i.id == 0).map Ident.relaunch).getD t.relaunch < c.rstlim) &&
       isOk ((((s.fetchRecord t 0 exc0 0#64 0 2).dropTeamWork 0).updIdent 0 fun i => { i with relaunch := 1 }).readRec c none (t.frame.toNat + 56) 8)) = true := by
  decide +kernel

/-- No commit of ranges or migration stands in the way of these events. -/
theorem witness_TeamEvents_thawed : [settling .ended, settling .phase, starting .succ, starting (.fresh true), spillS, matrixS true].all (fun s =>
    !s.frozenCtx 0) = true := by decide +kernel

def cand0 : Cand := { ctx := 0, off := 64, id := 3, ready := true, single := true, since := 0, lines := [], slices := [] }
def restoreS : State :=
  let s := succS 0x10840 nop
  ctx (fun c => { c with savebase := 0x15000, savesz := 1 }) { s with sch := { s.sch with cands := [cand0] }, mem := ((s.mem.wr 0x15000 4 3).wr 0x15040 8 0x10840).wr 0x15068 8 0x100 }
theorem witness_SchedulerEvents_restore : restoreS.imageReady cand0 = true ∧ (restoreS.imageTeam cand0).any (fun t => t.gang.isEmpty &&
      (restoreS.imageCore t (chamberOf (coreDie (restoreS.leftCore 3)))).isSome) = true ∧
    restoreS.sch.cands.find? (fun x => x.ctx == 0 && x.id == 3 && x.single) = some cand0 := by decide +kernel
/-- A state without gangs that the scheduler of H0 sweeps, and what the round chooses for the matrix class. -/
def rounds (s : State) (p : List Offer → Option Offer → Bool) : Bool :=
  s.hubsOf 0 == [0] && s.sch.gangs.length == 0 &&
    let swept := (s.updSch fun h => { h with gangs := [] }).sweep 0
    let os := (swept.offers 0).filter fun o => o.cls == .m
    p os (swept.choose 0 .m os).1
theorem witness_SchedulerEvents_round : rounds restoreS (fun os o => os != [] && o.isSome) = true ∧
    rounds (restoreS.updMgmt fun m => { m with diepres := 0#14 }) (fun os o => os != [] && o.isNone) = true ∧
    rounds base (fun os _ => os == []) = true := by decide +kernel
def gang0 : Gang := { id := 1, cls := .m, place := some (2, 3), launch := 0, first := 0, ids := [], teams := [0], rounds := 64, closed := false }
theorem witness_SchedulerEvents_gang : let s := { base with sch := { base.sch with gangs := [gang0] } }
    gang0 ∈ s.sch.gangs ∧ gang0.place = some (2, 3) ∧ gang0.teams ≠ [] ∧ 64 ≤ gang0.rounds := by decide +kernel
/-- Entry 0 of the directory, where it opens as a queue of H0. -/
theorem queue_of {s : State} {kinds : List Nat} {p : Ctx × QRef} (h : s.queueAt s.serves kinds 0 = some p) (hq : s.pkg.mgmt.qdir ≠ 0)
    (hh : homeSlice s.pkg.hbmsplit p.2.pa / 96 = 0) : p ∈ s.queuesOf 0 kinds := by
  unfold State.queuesOf State.queuesBy
  rw [if_neg hq, List.mem_filter, List.mem_filterMap]
  exact ⟨⟨0, by simp, h⟩, by simp [hh]⟩
def scanS : State := queue 2 0 1 0 base
/-- The queue of entry 0, and the one task in it, whose counter is 0. -/
theorem witness_SchedulerEvents_scan : scanS.pkg.mgmt.qdir ≠ 0 ∧ (match scanS.queueAt scanS.serves [2] 0 with
    | some p => homeSlice scanS.pkg.hbmsplit p.2.pa / 96 == 0 && p.2.hdr.items.contains 0x12000 && (scanS.zeroCtr p.1 0x12000).isSome
    | none => false) = true := by decide +kernel
theorem witness_SchedulerEvents_scan_queue : ∃ p ∈ scanS.queuesOf 0 [2], 0x12000 ∈ p.2.hdr.items ∧ (scanS.zeroCtr p.1 0x12000).isSome := by
  obtain ⟨hq, h⟩ := witness_SchedulerEvents_scan
  split at h
  · rename_i p hp
    simp only [Bool.and_eq_true, beq_iff_eq, List.contains_iff_mem] at h
    exact ⟨p, queue_of hp hq h.1.1, h.1.2, h.2⟩
  · simp at h
/-- A LAUNCH queue whose TAIL has been written since its last doorbell, or not. -/
def bellS (tail : Nat) (rings : Bool) : State :=
  let s := queue 1 0 tail 0 base
  s.updSch fun h => { h with tails := [(0x11000, rings)] }
def bell (s : State) (p : Ctx → Nat → Nat → Bool) : Bool := match s.tailOf 0 with | some (c, va, pa) => p c va pa | none => false
theorem witness_SchedulerEvents_doorbell : (bell (bellS 1 true) fun c va pa => (bellS 1 true).rung 0 && c.dispatches && pa == 0x11000 &&
      (match (bellS 1 true).openOwn c va [1, 2, 3, 4] with | .ok (_, h) => h.kind == 1 | .error _ => false)) = true ∧
    (bell (bellS 9 true) fun c va _ => (bellS 9 true).rung 0 &&
      (match (bellS 9 true).openOwn c va [1, 2, 3, 4] with | .ok _ => false | .error x => x.code == 0x0041)) = true ∧
    (bell (bellS 1 false) fun _ _ pa => !(bellS 1 false).sch.tails.contains (pa, true)) = true := by decide +kernel
/-- A store of one byte at either end of a watched TAIL, outside the directory. -/
theorem witness_SchedulerEvents_tail : let s := bellS 1 false
    (0x11000, false) ∈ s.sch.tails ∧ ([0x11018, 0x1101F].all fun pa => decide (pa < 0x11000 + 32 ∧ 0x11000 + 24 < pa + [0#8].length ∧
      pa + [0#8].length ≤ s.pkg.mgmt.qdir)) = true := by decide +kernel
theorem witness_SchedulerEvents_period : (let s := { base with sch := { base.sch with rows := [{ Row.fresh 0 0 with pend := [(0, 1, 9), (1, 2, 8), (2, 0, 7)] }] } }
     s.periodHeld 0 = false ∧ s.echo.drops = [] ∧ s.sch.rows.all (fun r => r.tenant == 0 && r.after.isSome) = true) := by decide +kernel
theorem test_bdg_after_period : let r : Row := { Row.fresh 0 0 with pend := [(0, 1, 9), (2, 0, 7)] }
    (r.after.map fun x => (x.soft, x.wt)) = some ([0, 9, 0, 0, 0, 0], 7) := by decide
/-- A QUANT queue with one job: from the shape record at 0x10840 to the one at 0x10880. -/
def quantS : State :=
  let s := queue 4 0 1 0 (copyS 0 0 0 0 nop)
  let m := (((s.mem.wr 0x10880 8 0x10900).wr 0x10888 8 (2 ^ 56 + 2 ^ 53)).wr 0x10890 8 (4 * 2 ^ 48)).wr 0x10898 8 (4 * 2 ^ 24)
  { s with mem := (m.wr 0x12000 8 0x10840).wr 0x12008 8 0x10880 }
/-- The same machine with the directory at PA 0x1000 and the rest from PA 0x1000000 on. -/
def quantLow : State :=
  let m := Memory.wr [] 0x1000 8 0x11000
  let m := (((m.wr 0x1000840 8 0x10800).wr 0x1000848 8 (2 ^ 56 + 2 ^ 53)).wr 0x1000850 8 (4 * 2 ^ 48)).wr 0x1000858 8 (4 * 2 ^ 24)
  let m := (((m.wr 0x1000880 8 0x10900).wr 0x1000888 8 (2 ^ 56 + 2 ^ 53)).wr 0x1000890 8 (4 * 2 ^ 48)).wr 0x1000898 8 (4 * 2 ^ 24)
  let m := ((m.wr 0x1001000 8 0x12000).wr 0x1001008 8 (4 * 2 ^ 56 + 2 * 2 ^ 51 + 2 ^ 48)).wr 0x1001018 8 1
  { State.reset.updMgmt (fun x => { x with qdir := 0x1000 }) with
    mem := (m.wr 0x1002000 8 0x10840).wr 0x1002008 8 0x10880
    ctxs := [{ Ctx.zero with committed := ⟨0x10001#64, 0x10000#64, 0x1000000#64, 0#64⟩ :: List.replicate 31 Range.zero }] }
def quantRef : QRef :=
  { ctx := 0, va := 0x11000, pa := 0x1001000, hdr := { base := 0x12000, kind := 4, cap := 4, tenant := 0, prio := 0, bcls := 0, head := 0, tail := 1 } }
theorem get_absent {m : Memory} {a : Nat} (h : ∀ c ∈ m, c.1 ≠ a) : m.get a = 0#8 := by
  induction m with
  | nil => rfl
  | cons c m ih =>
    have h1 := h c (by simp)
    simp only [Memory.get, if_neg h1, ih fun d hd => h d (by simp [hd]), ite_self]
theorem quantLow_cells : quantLow.mem.all (fun c => decide (c.1 < 0x1003 ∨ 0x1000840 ≤ c.1)) = true ∧ quantLow.pkg.mgmt.qdir = 0x1000 := by decide +kernel
/-- Entry 0 of the directory is the only one. -/
theorem quantLow_queues : (List.range 4096).filterMap (quantLow.queueAt quantLow.serves [kQuant]) = (quantLow.queueAt quantLow.serves [kQuant] 0).toList := by
  have h : ∀ i, i < 4095 → quantLow.queueAt quantLow.serves [kQuant] (i + 1) = none := by
    intro i hi
    have hz : (quantLow.dirEntry (i + 1)).1 = 0 := by
      have hg : ∀ j, j < 8 → quantLow.mem.get (0x1000 + 16 * (i + 1) + j) = 0#8 := fun j hj => get_absent fun c hc => by
        have := of_decide_eq_true (List.all_eq_true.mp quantLow_cells.1 c hc)
        omega
      simp only [State.dirEntry, quantLow_cells.2, Memory.rd, Memory.bytes]
      rw [List.map_congr_left (g := fun _ => 0#8) fun j hj => hg j (List.mem_range.mp hj)]
      decide
    simp only [State.queueAt, hz, if_true]
  have hr : List.range 4096 = 0 :: (List.range 4095).map Nat.succ := List.range_succ_eq_map
  rw [hr, List.filterMap_cons]
  have hn : ((List.range 4095).map Nat.succ).filterMap (quantLow.queueAt quantLow.serves [kQuant]) = [] := by
    rw [List.filterMap_eq_nil_iff]
    intro x hx
    obtain ⟨i, hi, rfl⟩ := List.mem_map.mp hx
    exact h i (List.mem_range.mp hi)
  cases hq : quantLow.queueAt quantLow.serves [kQuant] 0 <;> simp [hn]
def quantCtx : Ctx := quantLow.ctxs.headD Ctx.zero
theorem quantLow_pa : (match quantLow.queuePa quantCtx 0x11000 64 with | .ok pa => pa == 0x1001000 | .error _ => false) = true := by decide +kernel
theorem quantLow_bytes : quantLow.registered quantCtx.num 0x11000 = true ∧ badHdr (quantLow.mem.bytes 0x1001000 64) = none ∧
    qhdrOf (quantLow.mem.bytes 0x1001000 64) = quantRef.hdr ∧ quantLow.dirEntry 0 = (0x11000, 0) ∧ quantLow.serves quantCtx = true := by decide +kernel
theorem quantLow_open : quantLow.openOwn quantCtx 0x11000 [kQuant] = .ok (0x1001000, quantRef.hdr) := by
  have h := quantLow_pa
  split at h
  · rename_i pa hp
    unfold State.openOwn State.openQueue
    rw [hp, eq_of_beq h]
    simp [quantLow_bytes.1, quantLow_bytes.2.1, quantLow_bytes.2.2.1, bind, Except.bind, pure, Except.pure, Except.mapError, quantRef, kQuant]
  · simp at h
theorem quantLow_at : quantLow.queueAt quantLow.serves [kQuant] 0 = some (quantCtx, quantRef) := by
  have hc : quantLow.ctx? 0 = some quantCtx := rfl
  unfold State.queueAt
  simp [quantLow_bytes.2.2.2.1, hc, quantLow_bytes.2.2.2.2, quantLow_open]
  rfl
def quantNext : State := quantLow.updSch fun h => { h with qdef := (h.qdef.filter fun d => d.1 != 0) ++ [(0, 0, 0)], qlast := setKey h.qlast 0 0 }
theorem quantLow_queuesOf : quantLow.queuesOf 0 [kQuant] = [(quantCtx, quantRef)] := by
  have hs : homeSlice quantLow.pkg.hbmsplit quantRef.pa / 96 = 0 := by decide +kernel
  unfold State.queuesOf State.queuesBy
  rw [quantLow_cells.2, if_neg (by decide), quantLow_queues, quantLow_at, Option.toList_some]
  simp [hs]
theorem next_of_one {s : State} {c : Ctx} {q : QRef} (h : s.queuesOf 0 [kQuant] = [(c, q)]) (hc : q.hdr.count = 1) (ht : q.hdr.tenant =
    0) (hw : s.weightOf 0 = 16)
    (hl : s.sch.qlast = []) (hd : s.sch.qdef = []) :
    s.nextQuant 0 = some ((c, q), s.updSch fun h => { h with qdef := (h.qdef.filter fun d => d.1 != 0) ++ [(0, 0, 0)], qlast := setKey h.qlast 0 0 }) := by
  unfold State.nextQuant
  rw [h]
  simp [hc, ht, insertIdx, visit, hw, hl, hd, getKey, setKey, List.replicate]
theorem quantLow_next : quantLow.nextQuant 0 = some ((quantCtx, quantRef), quantNext) :=
  next_of_one quantLow_queuesOf (by decide +kernel) rfl (by decide +kernel) rfl rfl
theorem quantNext_span : (match quantNext.spanOf quantCtx none .read (granules 64) (quantRef.hdr.item quantRef.hdr.head) 64 with
    | .ok ts => decide (ts = [(.phys 0x1002000 false false, 64)])
    | .error _ => false) = true := by decide +kernel
theorem witness_SchedulerEvents_quant : quantLow.eng.qjobs = [] ∧ quantLow.nextQuant 0 = some ((quantCtx, quantRef), quantNext) ∧
    quantNext.readRec quantCtx none (quantRef.hdr.item quantRef.hdr.head) 64 = .ok (quantLow.mem.bytes 0x1002000 64) ∧
    isOk (quantNext.jobPlan quantCtx (quantRef.hdr.item quantRef.hdr.head) (quantLow.mem.bytes 0x1002000 64)) = true := by
  refine ⟨rfl, quantLow_next, ?_, by decide +kernel⟩
  have h := quantNext_span
  unfold State.readRec
  split at h
  · rename_i ts hts
    rw [hts, of_decide_eq_true h]
    show Except.ok (quantLow.mem.bytes 0x1002000 64 ++ []) = _
    rw [List.append_nil]
  · simp at h
def qjob0 : QJob := { die := 0, ctx := 0, tenant := 0, bcls := 0, bytes := quantS.mem.bytes 0x12000 64, bad := none, next := 0 }
def runS : State := { quantS with eng := { quantS.eng with qjobs := [qjob0] } }
theorem witness_SchedulerEvents_job : runS.jobHeld qjob0 = false ∧ runS.jobHeld { qjob0 with bad := some exc0 } = false ∧ party runS (fun _ _ c => match runS.jobPlan c 0 qjob0.bytes with
    | .ok p => (match State.jobUnits c qjob0 p runS (List.range (((shapeOf p.dst).count + unitLen p.cv.dfmt - 1) / unitLen p.cv.dfmt)) with
      | .done _ => true
      | _ => false)
    | .error _ => false) = true := by decide +kernel

/-- The state after a copy has been handed to its engine, and one unit of it. -/
def engS (w : W64) (dst cw : Nat) : State := (after (copyS dst 0x10800 64 cw w)).getD State.reset
def unitS (s : State) (die : Nat) (p : Cmd → Copy → Bool) : Bool :=
  match s.cmd? die 256 0 with
  | none => false
  | some k => (s.copy? k.copy).any fun c => p k c
theorem witness_EngineEvents_unit : ([0x1A0, 0x1A2] : List Nat).all (fun q =>
      let s := (engS (uword q 0 0x30 0x32 0x38 0) 0x10900 0).updDie 2 fun d => { d with rerouted := true }
      unitS s 0 fun k c => s.dieRerouted (coreDie c.core) && k.due 0 && s.engineUp 0 && !s.stampEarly c 0 && isOk (s.performUnit c 0 256 0)) = true ∧
    (let s0 := engS (uword 0x1A0 0 0x30 0x32 0x38 0) 0x10900 0
     let s := ctx (fun c => { c with committed := List.replicate 32 Range.zero }) s0
     unitS s 0 fun k c => k.due 0 && s.engineUp 0 && !s.stampEarly c 0 && (match s.performUnit c 0 256 0 with | .error (some x) => !cancels x.code | _ => false)) = true := by
  decide +kernel
/-- A command of 64 elements of which element 2 has been performed before the first one. -/
def cmd0 : Cmd := { die := 0, unit := 256, slot := 0, copy := 0, lo := 0, hi := 64, p := 0, above := [2], held := none }
theorem witness_EngineEvents_mark : [0, 1, 63].all (fun n => cmd0.due n) = true ∧ cmd0.due 2 = false ∧ cmd0.due 64 = false := by decide +kernel
theorem witness_EngineEvents_copy : (let s0 := engS (uword 0x1A0 0 0x30 0x32 0x38 0) 0x10900 0
     let s := s0.updEng fun e => { e with cmds := [] }
     (s.eng.copies.all fun c => decide (c.units ≤ c.placed) && !(s.eng.cmds.any fun k => k.copy == c.id)) = true ∧ s.eng.copies ≠ []) ∧
    (engS (uword 0x1A3 0 0x30 0x32 0x38 0x8000) 0x40 1).eng.copies.all (fun c => (c.cores.find? fun p => p.1 == 64).isSome && c.bar == none &&
        c.tile == none) = true ∧
    (engS (uword 0x1A3 0 0x30 0x32 0x38 0x8000) 0x40 1).eng.copies ≠ [] := by decide +kernel
theorem witness_EngineEvents_memory : (let s := { base with roost := [{ roostEnt .wait with fired := true }] }
     s.roost.all (fun e => e.kind == .wait) = true ∧ s.ovf = []) ∧
    (let s := { paged base with misses := [{ die := 2, cluster := 0, ctx := 0, va := 0x800, cores := [64] }] }
     party s (fun _ _ c => c.ptroot == 0x100000 && isOk (walk (s.entries 0 0 0x800) 0x800 3 c.ptroot)) = true) ∧
    [0, 0xFF].all (fun x => party { data x base with resident := [⟨0x10800 / 128, true⟩] } fun _ _ c =>
      match (data x base).translate c none 0x10800 1 .read true with | .ok (.phys pa _ _) => pa == 0x10800 | _ => false) = true ∧
    ([0, 48].all (fun k => base.spanIn (fun r => r.hbm || r == .peer) (k + 0x10800) 4 && base.spanIn (fun r => r.hbm || r == .host) (k + 0x10800) 4) = true ∧
      (partLines 0x10800 4).all (fun l => !base.poison.contains l && !base.badLine l) = true ∧ partLines 0x10800 128 = [] ∧
      base.lineEvent (.phys 0x10800 false false) 4 = none ∧ base.mem.wf = true) := by
  decide +kernel

/-- The team of a state with a small image. -/
def slight (s : State) : State := team (fun t => { t with kd := { t.kd with scratch := 0, acc := 0, tiles := 0, barriers := 0 }, ls := [[]], tiles := [[]], barriers := [] }) s
def wouldWrite (s : State) (ts : List Team) (k : Cause) : Bool :=
  match s.ctx? 0 with
  | some c => (match s.writeArea c ts k with | .ok _ => true | .error _ => false)
  | none => false
/-- A save of context 0 under way with its group at rest, and an area of so many units. -/
def saveS (n : Nat) : State := ctx (fun c => { c with saving := some .cmd, saveAt := 9, savebase := 0x20000, savesz := n }) (slight (waiting .halted))
/-- A save of the team alone, not yet written. -/
def singleS : State :=
  let s := ctx (fun c => { c with savebase := 0x20000, savesz := 0x1000 }) (slight (waiting .halted))
  { s with sch := { s.sch with cands := [{ ctx := 0, off := 0, id := 0, ready := false, single := true, since := 5, lines := [], slices := [] }] } }
theorem witness_ContextEvents_save : party base (fun _ _ c => c.st == .running && c.num == 0) = true ∧
    party (saveS 0x1000) (fun _ _ c => c.saving == some .cmd && (saveS 0x1000).saveBegan c == some 9) = true ∧ (saveS 0x1000).saveReady 0 = true ∧
    wouldWrite (saveS 0x1000) ((saveS 0x1000).imaged 0) .cmd = true ∧
    (saveS 0x1000).ctxStalled 0 = false ∧ (grp (fun g => { g with wait := .frozen }) (saveS 0x1000)).ctxStalled 0 = true ∧ (saveS 0x1000).ptp < 9 + saveTicks ∧
    party (saveS 0) (fun _ _ c => (saveS 0).saveFails c == some 2) = true ∧
    ((saveS 0x1000).waiters = [] ∧ ((saveS 0x1000).filter 0).en = false) := by decide +kernel
theorem witness_ContextEvents_single : party singleS (fun _ _ c => c.saving == none && (singleS.pendingSingle 0).any fun p =>
      singleS.savable p.2 && wouldWrite singleS [p.2] .sched) = true := by decide +kernel
theorem witness_ContextEvents_others :
    ((engS (uword 0x1A0 0 0x30 0x32 0x38 0) 0x10900 0).updCmd 0 256 0 fun k => { k with held := some exc0 }).heldCmd 0 0 256 0 ≠ none ∧
    base.ctx? 255 = none ∧ badRange base.pkg.hbmsplit (ctxRanges [(0x10001#64, 0x10000#64, 0x10000#64, 0#64)]) = none ∧ base.waiters = [] := by decide +kernel

def ev0 : Ev := { ts := 0, seq := 0, die := 2, unit := 0, code := 1, tag := 0, payload := 0#32 }
/-- A locked time master that has heard of its source at tick 3, with the pins in use and the line of second 5 heard at tick `at`. -/
def timed (st : TimeSt) (pins : Bool) (line : Nat) : State :=
  ({ base with ptp := 20 } : State).updTime fun t => { t with pins := pins, tod := some (5, line), heard := some 3, st := st }
theorem witness_EchoAndTimeEvents_events : (let s := { base with echo := { base.echo with bufs := [{ die := 2, unit := 0, kind := .core, evs := [ev0] }] } }
     s.echo.bufs[0]?.map Buf.evs = some ([] ++ ev0 :: []) ∧ s.drainHeld ev0.tag = false) ∧
    (let s := { base with ptps := List.replicate 14 16, echo := { base.echo with hub0 := [ev0, { ev0 with ts := 8 }], hub1 := [{ ev0 with seq := 1 }] } }
     leastEv (s.echo.held.filter fun e => !s.writeHeld e) = some ev0 ∧ s.settledEv ev0 = true) ∧ base.echo.held = [] ∧
    (let s := { base with eng := { base.eng with counts := [{ die := 2, unit := 0x200, sat := 1#64, nar := 0#64 }] } }
     s.dieSat 2 - getKey s.echo.reported 2 ≠ 0) := by decide +kernel
theorem witness_EchoAndTimeEvents_time :
    (let s := timed .locked true 8
     s.echo.time.pins = true ∧ s.echo.time.tod = some (5, 8) ∧ ((8 : Int) ≤ (s.ptp : Int) - 4 ∧ (s.ptp : Int) - 4 - 8 ≤ todTicks) ∧
       ((s.ptp : Int) - 13 < 8)) ∧
    (timed .locked false 0).echo.time.heard = some 3 ∧ (timed .locked false 0).echo.time.st = .locked ∧
    [TimeSt.freerun, .acquiring, .holdover].all (fun x => (timed x false 0).echo.time.st != .locked) = true ∧
    (ticks1us : Int) < 4001 ∧ (timed .freerun false 0).echo.time.st = .freerun ∧
    ((399 : Int).natAbs < ticks100ns ∧ ((timed .acquiring false 0).updTime fun t => { t with good := 7 }).echo.time.good + 1 = 8) := by decide +kernel

/-- A time master that has chosen the master of port 9 and heard its Sync 5 at tick 10, with the path delay known or not. -/
def ptpS (path : Option Int) : State := ({ base with ptp := 20 } : State).updTime fun t =>
  { t with masters := [{ source := 9, rank := 3, heard := [7, 2] }], parent := some 9, sync := some (5, 10), ms := some 4, path := path }
def msg0 (domain source : Nat) (b : PtpBody) : PtpMsg := { domain := domain, source := source, seq := 5, body := b }
theorem witness_EchoAndTimeEvents_ptp : (ptpS none).echo.time.pins = false ∧ (ptpS none).echo.time.domain = 0 ∧
    bestMaster (ptpS none).echo.time.masters (ptpS none).ptp = some 9 ∧ (ptpS none).echo.time.parent = some 9 ∧
    (ptpS none).echo.time.sync = some (5, 10) ∧ (ptpS none).echo.time.ms = some 4 ∧ (ptpS none).echo.time.path = none ∧
    (ptpS (some 3)).echo.time.path = some 3 ∧ (3 : Int) - sInt 56 (wrapInt 56 (10 + (ptpS none).echo.time.epoch - 10)) ≤ (ticks1us : Int) ∧
    (timed .locked true 0).echo.time.pins = true := by decide +kernel
/-- A master stands with two Announces within four intervals, and of two the one with the lesser data set is chosen (R354). -/
theorem test_best_master : bestMaster [⟨9, 3, [7, 2]⟩, ⟨8, 2, [7]⟩, ⟨7, 3, [7, 6]⟩, ⟨6, 4, [9, 8]⟩] 20 = some 7 ∧
    bestMaster [⟨9, 3, [7, 2]⟩] (3 + announceTicks) = none := by decide +kernel
/-- The message of a Follow_Up: sent at 6, received at 10, a path of 3 ticks leaves the timebase 1 tick ahead (R354, R355). -/
theorem test_follow_up : (answer (exec (.ptpMessage (msg0 0 9 (.followUp 6))) (ptpS (some 3)))).map (fun u => (u.ptp, u.echo.time.ms, u.echo.time.good)) =
    some (20, some 4, 1) := by decide +kernel
def line5 (last : Nat) : List Byte := 0x54#8 :: (List.replicate 11 0x30#8 ++ [0x35#8, 0x0D#8, BitVec.ofNat 8 last])
theorem test_tod_line : todSecs (line5 0x0A) = some 5 ∧ todSecs (line5 0x0B) = none ∧ todSecs ((line5 0x0A).drop 1) = none := by decide

theorem accepts_signed {p : Phimus} {typ die ver : Nat} {k : KeyHash} (hk : k ∈ p.keys) (hd : k.die = chamberOf die)
    (hv : getKey p.rollback typ ≤ ver) (hb : ver < 2 ^ 32) : p.accepts (signed typ die ver k) = true := by
  unfold Phimus.accepts
  rw [List.any_eq_true.mpr ⟨k, hk, by rw [test_owner_signs]; simp [signed, hd]⟩]
  have : (signed typ die ver k).version.toNat = ver := (BitVec.toNat_ofNat _ _).trans (Nat.mod_eq_of_lt hb)
  rw [this]
  simp [signed, hv]
/-- The keys fused in H0 and H1, and the images of a package of two chamber dies, signed by their owner. -/
def keyOf (die : Nat) : KeyHash := ⟨die, 0#384, 0#384⟩
def hubPairs : List (Nat × Nat) := [(0, 0), (0, 1), (1, 0), (1, 1), (4, 0), (4, 1)]
def hubImages : List ImageIn := hubPairs.map fun x => signed x.1 x.2 0 (keyOf x.2)
theorem judge_signed {p : Phimus} {typ die : Nat} (hf : (typ, die) ∈ hubPairs) (hk : p.keys = fusedKeys) (hv : p.rollback = []) :
    p.judge hubImages typ die = (true, p.load (signed typ die 0 (keyOf die))) ∧ (p.load (signed typ die 0 (keyOf die))).keys = fusedKeys ∧
      (p.load (signed typ die 0 (keyOf die))).rollback = [] := by
  have hd : die = 0 ∨ die = 1 := by simp [hubPairs] at hf; omega
  have ha : p.accepts (signed typ die 0 (keyOf die)) = true := by
    refine accepts_signed ?_ ?_ (by simp [hv, getKey]) (by decide)
    · rcases hd with rfl | rfl <;> simp [hk, fusedKeys, keyOf]
    · rcases hd with rfl | rfl <;> rfl
  refine ⟨?_, by simp [Phimus.load, hk], by simp [Phimus.load, hv, signed]⟩
  have hfind : (hubImages.find? fun i => i.typ == typ && i.die == die) = some (signed typ die 0 (keyOf die)) := by
    simp only [hubPairs, List.mem_cons, List.not_mem_nil, or_false, Prod.mk.injEq] at hf
    rcases hf with ⟨rfl, rfl⟩ | ⟨rfl, rfl⟩ | ⟨rfl, rfl⟩ | ⟨rfl, rfl⟩ | ⟨rfl, rfl⟩ | ⟨rfl, rfl⟩ <;> simp [hubImages, hubPairs, signed, List.find?]
  simp [Phimus.judge, hfind, ha]
theorem rest_signed (xs : List (Nat × Nat)) : ∀ p : Phimus, (∀ x ∈ xs, x ∈ hubPairs) → p.keys = fusedKeys → p.rollback = [] →
    ∃ q, Phimus.rest hubImages xs p = (true, q) := by
  induction xs with
  | nil => exact fun p _ _ _ => ⟨p, rfl⟩
  | cons x xs ih =>
    intro p h hk hv
    obtain ⟨h1, h2, h3⟩ := judge_signed (h x (by simp)) hk hv
    obtain ⟨q, hq⟩ := ih _ (fun y hy => h y (by simp [hy])) h2 h3
    exact ⟨q, by simp only [Phimus.rest, h1]; exact hq⟩
theorem boot_signed (p : Phimus) (hk : p.keys = fusedKeys) (hv : p.rollback = []) : (p.roms hubImages).1 = true ∧ (p.roms hubImages).2.1 = true ∧
    ∃ q, Phimus.rest hubImages (stepSeven (presentDies 0#14 0#14)) (p.roms hubImages).2.2 = (true, q) := by
  obtain ⟨a1, a2, a3⟩ := judge_signed (p := p.unloaded) (typ := 0) (die := 0) (by decide) hk hv
  obtain ⟨b1, b2, b3⟩ := judge_signed (typ := 0) (die := 1) (by decide) a2 a3
  refine ⟨by simp [Phimus.roms, a1], by simp [Phimus.roms, a1, b1], ?_⟩
  have hr : (p.roms hubImages).2.2 = (p.unloaded.load (signed 0 0 0 (keyOf 0))).load (signed 0 1 0 (keyOf 1)) := by simp [Phimus.roms, a1, b1]
  rw [hr]
  exact rest_signed _ _ (by decide) b2 b3
/-- A package with only its chamber dies boots on signed images; one without images, a bridge or memory does not. -/
theorem witness_PackageEvents_boot : (State.reset.pkg.phimus.keys = fusedKeys ∧ State.reset.pkg.phimus.rollback = []) ∧
    ((State.reset.pkg.phimus.roms []).1 = false ∧ (State.reset.pkg.phimus.roms []).2.1 = false) ∧
    (bootOutcome { boot0 with train := 0#14, images := hubImages } State.reset.pkg.phimus).1 = true ∧
    ∃ p, bootOutcome boot0 State.reset.pkg.phimus = (false, p) := by
  refine ⟨⟨rfl, rfl⟩, ⟨rfl, rfl⟩, ?_, _, rfl⟩
  obtain ⟨h1, h2, q, h3⟩ := boot_signed State.reset.pkg.phimus rfl rfl
  simp [bootOutcome, boot0, h1, h2, h3]

/-- A die under a drain that is over or not. -/
def draining (die : Nat) (done : Bool) (s : State) : State := s.updMgmt fun m => { m with drains := [{ die := die, since := 0, drained := done }] }
def drained : State := draining 2 true State.reset
theorem witness_PackageEvents_fatal : (State.reset.pkg.phimus.host = 0 ∧ State.reset.pkg.phimus.standby = true) ∧
    (State.reset.updPkg fun p => { p with phimus := { p.phimus with standby := false } }).pkg.phimus.standby = false ∧
    State.reset.pkg.phimus.fatal = none ∧
    (let s := ctx (fun c => { c with st := .saved }) (base.updPkg fun p => { p with phimus := { p.phimus with fatal := some (3, 0, [0]) } })
     s.pkg.phimus.fatal = some (3, 0, [0]) ∧ s.ctxs.all (fun c => c.st != .running) = true) := by decide +kernel
/-- The state in which the link of a die has failed, and perhaps a side link of it. -/
def linkDown (die : Nat) (sides : Bool) : State := (State.reset.updDie die fun d => { d with rerouted := true }).updPkg fun p =>
  { p with sides := if sides then addLines [die, ringPrev die] p.sides else p.sides, logs := p.logs ++ [{ pa := 0, die := die, unit := 0, code := 0x0060 }] }
theorem witness_PackageEvents_link : [2, 7, 8, 13].all (fun d => State.reset.dieLinked d &&
      ((linkDown d false).pkg.dies.all fun x => !x.rerouted || !(linkDown d false).dieLinked x.num || (linkDown d false).sidePath x.num) &&
      (((linkDown d true).pkg.dies.find? fun x => x.rerouted && (linkDown d true).dieLinked x.num && !(linkDown d true).sidePath x.num).map Die.num) ==
        some d) = true ∧ (State.reset.updDie 13 fun d => { d with out := true }).dieLinked 13 = true := by decide +kernel
theorem witness_PackageEvents_retrain : ((State.reset.die? 2).any fun d => !d.lost && !d.inReset) = true ∧
    (let s := State.reset.updDie 13 fun d => { d with lost := true }
     (s.die? 13).any (fun d => d.lost) = true ∧ s.pkg.numbered.getLsbD 13 = true ∧ (s.updPkg fun p => { p with numbered := 0x1FFF#14 }).pkg.numbered.getLsbD 13 = false) ∧
    (State.reset.teams = [] ∧ State.reset.eng.cmds = []) := by decide +kernel
theorem witness_PackageEvents_point : State.reset.pkg.mgmt.busy = false ∧ State.reset.pkg.mgmt.cur ≠ 3#2 ∧
    ([none, some 2#2].all fun v => (State.reset.updMgmt fun m => { m with busy := true, req := 1#2, opptNext := v }).pkg.mgmt.busy) = true := by decide +kernel
theorem witness_PackageEvents_gates : [2, 13].all (fun d =>
      let s := (draining d true State.reset).updMgmt fun m => { m with greq := BitVec.ofNat 14 (2 ^ d) }
      let u := State.reset.updMgmt fun m => { m with gcur := BitVec.ofNat 14 (2 ^ d) }
      s.pkg.mgmt.greq.getLsbD d && !s.pkg.mgmt.gcur.getLsbD d && s.dieDrained d && s.dieAlive d &&
        !u.pkg.mgmt.greq.getLsbD d && u.pkg.mgmt.gcur.getLsbD d && !State.reset.dieDraining d &&
        ((draining d false State.reset).updMgmt fun m => { m with dmax := 5#32 }).nextDrain == some { die := d, since := 0, drained := false }) = true ∧
    (draining 2 false base).nextDrain = some { die := 2, since := 0, drained := false } ∧
    State.reset.onlyZero = true ∧ [0, 256].all splitOk = true := by decide +kernel
theorem witness_PackageEvents_report : (State.reset.signers.all fun d => decide (getKey State.reset.pkg.phimus.leaves d < 1024)) = true ∧
    (let s := State.reset.updPkg fun p => { p with phimus := { p.phimus with leaves := setKey p.phimus.leaves 13 1024 } }
     (s.signers.any fun d => decide (1024 ≤ getKey s.pkg.phimus.leaves d)) = true) ∧
    (let p := { State.reset.pkg.phimus with reports := [(0, 1023), (2, 1024)] }
     getKey p.reports 0 < 1024 ∧ 1024 ≤ getKey p.reports 2) := by decide +kernel
/-- A report that fills the boot key of H0 half way: the rest of it is signed under the key of the next leaf (R398). -/
theorem test_sign_rolls_over : let p := { State.reset.pkg.phimus with reports := [(0, 1023)], leaves := [(0, 1023)] }
    let q := (p.sign 0).sign 0
    (getKey q.reports 0, getKey q.leaves 0) = (1, 1024) := by decide +kernel

/-- The owner's image for H1's scheduler, and for the siphons of a drained chiplet, is accepted; one below the counter is not. -/
theorem witness_ImageUpdate : ([(1, 1, 0), (3, 2, 7)] : List (Nat × Nat × Nat)).all (fun x => drained.imageNow (signed x.1 x.2.1 x.2.2 (keyOf (chamberOf x.2.1))) &&
      drained.pkg.phimus.keys.contains (keyOf (chamberOf x.2.1))) = true ∧ getKey drained.pkg.phimus.rollback 3 ≤ 7 ∧
    (∀ typ die ver k, imageSigned k (signed typ die ver k) = true) ∧
    (let s := drained.updPkg fun p => { p with phimus := { p.phimus with rollback := [(3, 8)] } }
     7 < getKey s.pkg.phimus.rollback 3) := ⟨by decide +kernel, by decide +kernel, test_owner_signs, by decide +kernel⟩
/-- The scheduler of one chamber die while that of the other loads. -/
def loadingS (die : Nat) : State := State.reset.updPkg fun p => { p with phimus := { p.phimus with loading := [(die, 9)] } }
theorem witness_ImageUpdate_loading : [0, 1].all (fun d => (loadingS d).hubLoading d && !(loadingS d).hubLoading (1 - d) &&
    !State.reset.hubLoading d && (loadingS d).hubsOf (1 - d) == [1 - d, d]) = true := by decide +kernel

end Sys2Proof.Tests
end

section
/-! The logarithmic multiply (R66). `lnsCode` is read back by `lnsSign` and `lnsLog` when its log lies in the range of the field. A product's
log does: `satLog` clamps that of `lnsMul`, and the sum of two 15-bit logs, shifted by 15, fits the 31 bits of `prod32`. -/

namespace Sys2Proof.Machine

/-! ### The model's bit fields as bit vectors -/

theorem natBit_eq_testBit (x i : Nat) : natBit x i = x.testBit i := by
  rw [Nat.testBit_eq_decide_div_mod_eq, natBit, Nat.shiftRight_eq_div_pow]
  rfl

theorem wrapInt_eq_toNat_ofInt (n : Nat) (l : Int) : wrapInt n l = (BitVec.ofInt n l).toNat := by
  simp [wrapInt]

theorem sInt_eq_toInt_ofNat {n : Nat} (hn : 0 < n) (x : Nat) : sInt n x = (BitVec.ofNat n x).toInt := by
  have hsign : natBit x (n - 1) = (BitVec.ofNat n x).msb := by
    rw [natBit_eq_testBit, BitVec.msb_eq_getLsbD_last, BitVec.getLsbD_ofNat, decide_eq_true (by omega), Bool.true_and]
  simp [sInt, hsign, BitVec.toInt_eq_msb_cond]

theorem wrapInt_lt (n : Nat) (l : Int) : wrapInt n l < 2 ^ n := by
  rw [wrapInt_eq_toNat_ofInt]
  exact (BitVec.ofInt n l).isLt

/-- An integer in the range of an n-bit two's complement field is read back from it. -/
theorem sInt_wrapInt {n : Nat} {l : Int} (hn : 0 < n) (hlo : -2 ^ (n - 1) ≤ l) (hhi : l < 2 ^ (n - 1)) : sInt n (wrapInt n l) = l := by
  rw [sInt_eq_toInt_ofNat hn, wrapInt_eq_toNat_ofInt, BitVec.ofNat_toNat, BitVec.setWidth_eq, BitVec.toInt_ofInt_eq_self hn hlo hhi]

theorem sInt_bounds {n : Nat} (hn : 0 < n) (x : Nat) : -2 ^ (n - 1) ≤ sInt n x ∧ sInt n x < 2 ^ (n - 1) := by
  rw [sInt_eq_toInt_ofNat hn]
  exact ⟨BitVec.le_toInt _, BitVec.toInt_lt⟩

/-! ### Sign and log of a code -/

theorem lnsSign_lnsCode (w : Nat) (s : Bool) (l : Int) : lnsSign w (lnsCode w s l) = s := by
  have hfield : (wrapInt (w - 1) l).testBit (w - 1) = false := Nat.testBit_lt_two_pow (wrapInt_lt _ _)
  cases s <;> simp [lnsSign, lnsCode, natBit_eq_testBit, Nat.testBit_two_pow_add_eq, hfield]

theorem lnsCode_mod (w : Nat) (s : Bool) (l : Int) : lnsCode w s l % 2 ^ (w - 1) = wrapInt (w - 1) l := by
  have hfield := Nat.mod_eq_of_lt (wrapInt_lt (w - 1) l)
  cases s <;> simp [lnsCode, hfield]

theorem lnsLog_lnsCode {w : Nat} {l : Int} (hw : 2 ≤ w) (s : Bool) (hlo : -2 ^ (w - 2) ≤ l) (hhi : l < 2 ^ (w - 2)) :
    lnsLog w (lnsCode w s l) = l := by
  rw [lnsLog, lnsCode_mod]
  exact sInt_wrapInt (by omega) hlo hhi

theorem lnsLog_bounds {w : Nat} (hw : 2 ≤ w) (c : Nat) : -2 ^ (w - 2) ≤ lnsLog w c ∧ lnsLog w c < 2 ^ (w - 2) :=
  sInt_bounds (n := w - 1) (by omega) _

theorem satLog_bounds (w : Nat) (l : Int) : -lnsMax w ≤ satLog w l ∧ satLog w l ≤ lnsMax w := by
  have hpow : (0 : Int) < 2 ^ (w - 2) := Int.pow_pos (by decide)
  simp only [satLog, clampInt, lnsMax]
  omega

theorem lnsLog_lnsCode_satLog {w : Nat} (hw : 2 ≤ w) (s : Bool) (l : Int) : lnsLog w (lnsCode w s (satLog w l)) = satLog w l := by
  obtain ⟨hlo, hhi⟩ := satLog_bounds w l
  rw [lnsMax] at hlo hhi
  exact lnsLog_lnsCode hw s (by omega) (by omega)

/-! ### The products -/

theorem lnsMul_of_nar {w x y : Nat} (h : x = lnsNaR w ∨ y = lnsNaR w) : lnsMul w x y = lnsNaR w := if_pos h

theorem lnsMul_of_zero {w x y : Nat} (hx : x ≠ lnsNaR w) (hy : y ≠ lnsNaR w) (h : x = lnsZero w ∨ y = lnsZero w) :
    lnsMul w x y = lnsZero w := by
  simp [lnsMul, hx, hy, h]

theorem lnsMul_of_finite {w x y : Nat} (hx : x ≠ lnsNaR w) (hy : y ≠ lnsNaR w) (hx0 : x ≠ lnsZero w) (hy0 : y ≠ lnsZero w) :
    lnsMul w x y = lnsCode w (xor (lnsSign w x) (lnsSign w y)) (satLog w (lnsLog w x + lnsLog w y)) := by
  simp [lnsMul, hx, hy, hx0, hy0]

theorem prod32_of_finite {x y : Nat} (hx : x ≠ lnsNaR 16) (hy : y ≠ lnsNaR 16) (hx0 : x ≠ lnsZero 16) (hy0 : y ≠ lnsZero 16) :
    prod32 x y = lnsCode 32 (xor (lnsSign 16 x) (lnsSign 16 y)) ((lnsLog 16 x + lnsLog 16 y) * 2 ^ 15) := by
  simp [prod32, hx, hy, hx0, hy0]

/-- The product of two LNS16 codes needs no clamp in LNS32. -/
theorem lnsLog_prod32 {x y : Nat} (hx : x ≠ lnsNaR 16) (hy : y ≠ lnsNaR 16) (hx0 : x ≠ lnsZero 16) (hy0 : y ≠ lnsZero 16) :
    lnsLog 32 (prod32 x y) = (lnsLog 16 x + lnsLog 16 y) * 2 ^ 15 := by
  obtain ⟨hxlo, hxhi⟩ := lnsLog_bounds (w := 16) (by decide) x
  obtain ⟨hylo, hyhi⟩ := lnsLog_bounds (w := 16) (by decide) y
  rw [prod32_of_finite hx hy hx0 hy0]
  exact lnsLog_lnsCode (by decide) _ (by omega) (by omega)

/-- The range that R66 states is the one to which `satLog` clamps. -/
theorem satLog_eq_of_width {w : Nat} (hw : w ∈ [16, 32]) (l : Int) :
    satLog w l = max (-(if w = 16 then 16383 else 2 ^ 30 - 1)) (min l (if w = 16 then 16383 else 2 ^ 30 - 1)) := by
  have htop : lnsMax w = if w = 16 then 16383 else 2 ^ 30 - 1 := by
    revert w
    decide
  rw [satLog, clampInt, htop]

/-- Settles O23: the code of a product is read back, its log being in range by the clamp or, for the widened product, by its width. -/
theorem logMultiply : Obligations.LogMultiply := by
  refine ⟨fun w hw x y _ _ => ?_, fun x y _ _ hx hy hx0 hy0 => ⟨?_, lnsLog_prod32 hx hy hx0 hy0⟩⟩
  · have hw2 : 2 ≤ w := (by decide : ∀ v ∈ [16, 32], 2 ≤ v) w hw
    refine ⟨lnsMul_of_nar, lnsMul_of_zero, fun hx hy hx0 hy0 => ?_⟩
    rw [lnsMul_of_finite hx hy hx0 hy0, lnsLog_lnsCode_satLog hw2]
    exact ⟨lnsSign_lnsCode _ _ _, satLog_eq_of_width hw _⟩
  · rw [prod32_of_finite hx hy hx0 hy0, lnsSign_lnsCode]

end Sys2Proof.Machine
end

section
/-! The opcodes that each clause class admits (R95): one row per class. `nop` is admitted in every class, so only CTL, whose own range holds
0x10D, loses the separate case of `nop`. -/

namespace Sys2Proof.Machine

theorem clsAdmits_alu_iff (opc : Nat) : clsAdmits 0 opc = true ↔ opc = 0x10D ∨ opc ≤ 0x0C1 := by
  simp [clsAdmits]

theorem clsAdmits_mem_iff (opc : Nat) : clsAdmits 1 opc = true ↔ opc = 0x10D ∨ (0x140 ≤ opc ∧ opc ≤ 0x152) := by
  simp [clsAdmits]

theorem clsAdmits_mat_iff (opc : Nat) : clsAdmits 2 opc = true ↔ opc = 0x10D ∨ (0x180 ≤ opc ∧ opc ≤ 0x187) := by
  simp [clsAdmits]

theorem clsAdmits_asy_iff (opc : Nat) : clsAdmits 3 opc = true ↔
    opc = 0x10D ∨ (0x1A0 ≤ opc ∧ opc ≤ 0x1B5) ∨ (0x1E0 ≤ opc ∧ opc ≤ 0x1E7) ∨ (0x1F0 ≤ opc ∧ opc ≤ 0x1F2) := by
  simp [clsAdmits, or_assoc]

/-- The opcode of `nop` lies in the first range of CTL. -/
theorem clsAdmits_ctl_iff (opc : Nat) :
    clsAdmits 4 opc = true ↔ (0x100 ≤ opc ∧ opc ≤ 0x10F) ∨ (0x200 ≤ opc ∧ opc ≤ 0x206) := by
  have hnop : opc = 0x10D → (0x100 ≤ opc ∧ opc ≤ 0x10F) ∨ (0x200 ≤ opc ∧ opc ≤ 0x206) := by
    rintro rfl
    decide
  simpa [clsAdmits] using hnop

theorem clsAdmits_mix (opc : Nat) : clsAdmits 5 opc = true := by
  simp [clsAdmits]

/-- Settles O11: the rows of R95, one lemma per class. -/
theorem clauseClasses : Obligations.ClauseClasses := fun opc =>
  ⟨clsAdmits_alu_iff opc, clsAdmits_mem_iff opc, clsAdmits_mat_iff opc, clsAdmits_asy_iff opc, clsAdmits_ctl_iff opc, clsAdmits_mix opc⟩

end Sys2Proof.Machine
end

section
/-! What the words of chapter 5 share: words that run by `runVal` or `runLater`, entries whose own encoding conditions fail, and truth values
and bit fields as numbers. -/

namespace Sys2Proof.Machine

theorem wordWrites_of_exec {i : Instr} {e : Entry} {v : View} {wide : Bool} {x : Iss → Nat → Nat} (h : ∀ s, exec i s = runVal e v wide s x) :
    wordWrites i e v wide x := by
  intro s w hi
  rw [h s, runVal_ok hi, State.did, State.didReg, (State.iss?_some hi.1).1]

theorem wordReserves_of_exec {i : Instr} {e : Entry} {v : View} {wide load : Bool} {x : Iss → Nat → Nat}
    (h : ∀ s, exec i s = runLater e v wide load s x) : wordReserves i e v wide load x := by
  intro s w hi
  rw [h s, runLater_ok hi, State.didLater, State.didReg, (State.iss?_some hi.1).1]

theorem encOk_of_not_ok {v : View} {sh : Shape} (h : sh.ok = false) : v.encOk sh = false := by
  simp [View.encOk, h]

theorem boolRes_eq_one (b : Bool) : boolRes b = 1 ↔ b = true := by
  cases b <;> simp [boolRes]

theorem boolRes_eq_zero (b : Bool) : boolRes b = 0 ↔ b = false := by
  cases b <;> simp [boolRes]

theorem boolRes_eq_zero_or_one (b : Bool) : boolRes b = 0 ∨ boolRes b = 1 := by
  cases b <;> simp [boolRes]

theorem natBits_eq (x lo len : Nat) : natBits x lo len = x / 2 ^ lo % 2 ^ len := by
  rw [natBits, Nat.shiftRight_eq_div_pow]

theorem natBits_lt (x lo len : Nat) : natBits x lo len < 2 ^ len := Nat.mod_lt _ (Nat.two_pow_pos _)

/-- A field of three bits that is not zero has one of its bits set. -/
theorem natBits_three_ne_zero {x lo : Nat} (h : natBits x lo 3 ≠ 0) :
    natBit x lo = true ∨ natBit x (lo + 1) = true ∨ natBit x (lo + 2) = true := by
  simp only [natBits, natBit, Nat.shiftRight_add, beq_iff_eq] at *
  omega

end Sys2Proof.Machine
end

section
/-! Integer division (R131). `intArg` reads a result of `intRes` back modulo 2^w, so unchanged where it lies in the range of TY. Of the
quotients only that of the most negative number by -1 lies outside; the remainders all lie between 0 and the dividend. -/

namespace Sys2Proof.Machine

/-! ### Reading a result back (R129) -/

theorem tyBits_le_or_eq (ty : Nat) : 0 < tyBits ty ∧ (tyBits ty ≤ 32 ∨ tyBits ty = 64) := by
  unfold tyBits
  split <;> decide

theorem tyBits_pos (ty : Nat) : 0 < tyBits ty := (tyBits_le_or_eq ty).1

theorem wrapInt_mod {n m : Nat} (h : n ≤ m) (z : Int) : wrapInt m z % 2 ^ n = wrapInt n z := by
  have hdvd : (2 : Int) ^ n ∣ 2 ^ m := pow_dvd_pow 2 h
  have hnonneg := Int.emod_nonneg z (b := 2 ^ m) (by positivity)
  have hcast : ((2 : Int) ^ n).toNat = 2 ^ n := by exact_mod_cast Int.toNat_natCast (2 ^ n)
  rw [wrapInt, wrapInt, ← Int.emod_emod_of_dvd z hdvd, Int.toNat_emod hnonneg (by positivity), hcast]

theorem wrapInt_sInt {n : Nat} (hn : 0 < n) (x : Nat) : wrapInt n (sInt n x) = x % 2 ^ n := by
  rw [wrapInt_eq_toNat_ofInt, sInt_eq_toInt_ofNat hn, BitVec.ofInt_toInt, BitVec.toNat_ofNat]

theorem intExtend_mod (ty x : Nat) : intExtend ty x % 2 ^ tyBits ty = x % 2 ^ tyBits ty := by
  obtain ⟨hpos, hn⟩ := tyBits_le_or_eq ty
  unfold intExtend
  split
  case isTrue h64 => rw [h64, Nat.mod_mod]
  case isFalse h64 =>
    split
    · rw [wrapInt_mod (hn.resolve_right h64), wrapInt_sInt hpos]
    · rw [Nat.mod_mod]

theorem intRes_mod (ty : Nat) (x : Int) : intRes ty false x % 2 ^ tyBits ty = wrapInt (tyBits ty) x := by
  rw [intRes, intExtend_mod]
  exact Nat.mod_eq_of_lt (wrapInt_lt _ _)

theorem ofNat_intRes (ty : Nat) (x : Int) : BitVec.ofNat (tyBits ty) (intRes ty false x) = BitVec.ofInt (tyBits ty) x :=
  BitVec.eq_of_toNat_eq (by rw [BitVec.toNat_ofNat, intRes_mod, wrapInt_eq_toNat_ofInt])

theorem intArg_intRes (ty : Nat) (x : Int) :
    intArg ty (intRes ty false x) = if tySigned ty then x.bmod (2 ^ tyBits ty) else x % 2 ^ tyBits ty := by
  have hpos : (0 : Int) < 2 ^ tyBits ty := by positivity
  rw [intArg, sInt_eq_toInt_ofNat (tyBits_pos ty), ofNat_intRes, BitVec.toInt_ofInt, intRes_mod, wrapInt,
    Int.toNat_of_nonneg (Int.emod_nonneg x hpos.ne')]

theorem intArg_bounds (ty x : Nat) :
    intMin (tyBits ty) (tySigned ty) ≤ intArg ty x ∧ intArg ty x ≤ intMax (tyBits ty) (tySigned ty) := by
  obtain ⟨hlo, hhi⟩ := sInt_bounds (tyBits_pos ty) x
  have hmod : ((x % 2 ^ tyBits ty : Nat) : Int) < 2 ^ tyBits ty := by exact_mod_cast Nat.mod_lt x (Nat.two_pow_pos _)
  unfold intArg intMin intMax
  split <;> omega

theorem intArg_intRes_of_range {ty : Nat} {x : Int} (hlo : intMin (tyBits ty) (tySigned ty) ≤ x)
    (hhi : x ≤ intMax (tyBits ty) (tySigned ty)) : intArg ty (intRes ty false x) = x := by
  rw [intArg_intRes]
  unfold intMin intMax at *
  split
  case isTrue hs =>
    have hpow := mul_pow_sub_one (tyBits_pos ty).ne' (2 : Int)
    rw [if_pos hs] at hlo hhi
    refine Int.bmod_eq_of_le ?_ ?_ <;> push_cast <;> omega
  case isFalse hs =>
    rw [if_neg hs] at hlo hhi
    exact Int.emod_eq_of_lt hlo (by omega)

/-! ### Quotients and remainders -/

theorem abs_tdiv (a b : Int) : |a.tdiv b| = |a| / |b| := by
  rw [Int.abs_eq_natAbs, Int.abs_eq_natAbs, Int.abs_eq_natAbs, Int.natAbs_tdiv]
  rfl

theorem abs_tmod (a b : Int) : |a.tmod b| = |a| % |b| := by
  rw [Int.abs_eq_natAbs, Int.abs_eq_natAbs, Int.abs_eq_natAbs, Int.natAbs_tmod]
  rfl

theorem tdiv_mul_nonneg (a b : Int) : 0 ≤ a.tdiv b * (a * b) := by
  rw [← Int.sign_nonneg_iff, Int.sign_mul, Int.sign_mul, Int.sign_tdiv]
  split
  · simp
  · exact mul_self_nonneg _

theorem tmod_mul_nonneg (a b : Int) : 0 ≤ a.tmod b * a := by
  rw [← Int.sign_nonneg_iff, Int.sign_mul, Int.sign_tmod]
  split
  · simp
  · exact mul_self_nonneg _

/-- The one quotient as large as the most negative dividend is that by -1. -/
theorem eq_neg_one_of_tdiv_neg {p b : Int} (hp : 0 < p) (h : (-p).tdiv b = p) : b = -1 := by
  have hbne : b ≠ 0 := by
    rintro rfl
    rw [Int.tdiv_zero] at h
    omega
  have habs : p.natAbs / b.natAbs = p.natAbs := by
    have := congrArg Int.natAbs h
    rwa [Int.natAbs_tdiv, Int.natAbs_neg] at this
  have hone : b.natAbs = 1 := by
    by_contra hne
    have := Nat.div_lt_self (n := p.natAbs) (k := b.natAbs) (by omega) (by omega)
    omega
  have hb1 : b ≠ 1 := by
    rintro rfl
    rw [Int.tdiv_one] at h
    omega
  omega

theorem tdiv_range {w : Nat} {sg : Bool} {a b : Int} (ha : intMin w sg ≤ a ∧ a ≤ intMax w sg) (hb : intMin w sg ≤ b)
    (hne : ¬ (a = -2 ^ (w - 1) ∧ b = -1)) : intMin w sg ≤ a.tdiv b ∧ a.tdiv b ≤ intMax w sg := by
  have hle := Int.natAbs_tdiv_le_natAbs a b
  have hpos : (0 : Int) < 2 ^ (w - 1) := by positivity
  cases sg with
  | false =>
    have hnonneg := Int.tdiv_nonneg ha.1 hb
    simp only [intMin, intMax, Bool.false_eq_true, if_false] at *
    omega
  | true =>
    have htop : a = -2 ^ (w - 1) → a.tdiv b ≠ 2 ^ (w - 1) := fun h hq => hne ⟨h, eq_neg_one_of_tdiv_neg hpos (h ▸ hq)⟩
    simp only [intMin, intMax, if_true] at *
    omega

/-- A remainder lies between 0 and the dividend. -/
theorem tmod_between (a b : Int) : min 0 a ≤ a.tmod b ∧ a.tmod b ≤ max 0 a := by
  have hle : (a.tmod b).natAbs ≤ a.natAbs := by
    rw [Int.natAbs_tmod]
    exact Nat.mod_le _ _
  have hpos : 0 ≤ a → 0 ≤ a.tmod b := Int.tmod_nonneg b
  have hneg : 0 ≤ -a → 0 ≤ -a.tmod b := fun h => Int.neg_tmod a b ▸ Int.tmod_nonneg b h
  omega

theorem tmod_range {w : Nat} {sg : Bool} {a : Int} (b : Int) (ha : intMin w sg ≤ a ∧ a ≤ intMax w sg) :
    intMin w sg ≤ a.tmod b ∧ a.tmod b ≤ intMax w sg := by
  obtain ⟨hlo, hhi⟩ := tmod_between a b
  have hmin : intMin w sg ≤ 0 := by
    cases sg <;> simp [intMin]
  have hmax : 0 ≤ intMax w sg := by
    cases sg <;> simp [intMax, Int.sub_nonneg, one_le_pow₀]
  omega

/-! ### The rows of R131 -/

theorem wrapInt_neg_one (n : Nat) : wrapInt n (-1) = 2 ^ n - 1 := by
  rw [wrapInt_eq_toNat_ofInt, BitVec.ofInt_neg, BitVec.ofInt_ofNat, BitVec.neg_one_eq_allOnes, BitVec.toNat_allOnes]

theorem divRes_zero {ty f a b c : Nat} (hb : intArg ty b = 0) : divRes ty f a b c % 2 ^ tyBits ty = 2 ^ tyBits ty - 1 := by
  rw [divRes, intRes_mod, intDiv, if_pos hb, wrapInt_neg_one]

/-- The quotient 2^(w-1) wraps to the most negative number. -/
theorem intArg_divRes_overflow {ty f a b c : Nat} (hs : tySigned ty = true) (ha : intArg ty a = -2 ^ (tyBits ty - 1)) (hb : intArg ty b = -1) :
    intArg ty (divRes ty f a b c) = -2 ^ (tyBits ty - 1) := by
  have hpow := mul_pow_sub_one (tyBits_pos ty).ne' (2 : Int)
  have hpos : (0 : Int) < 2 ^ (tyBits ty - 1) := by positivity
  have hwrap : (2 : Int) ^ (tyBits ty - 1) - (2 ^ tyBits ty : Nat) = -2 ^ (tyBits ty - 1) := by
    push_cast
    omega
  rw [divRes, intArg_intRes, if_pos hs, ha, hb, intDiv, if_neg (by decide), Int.tdiv_neg, Int.neg_tdiv, Int.tdiv_one, neg_neg,
    ← Int.sub_bmod_right, hwrap]
  refine Int.bmod_eq_of_le ?_ ?_ <;> push_cast <;> omega

theorem intArg_divRes {ty f a b c : Nat} (hb : intArg ty b ≠ 0) (hne : ¬ (intArg ty a = -2 ^ (tyBits ty - 1) ∧ intArg ty b = -1)) :
    intArg ty (divRes ty f a b c) = (intArg ty a).tdiv (intArg ty b) := by
  obtain ⟨hlo, hhi⟩ := tdiv_range (intArg_bounds ty a) (intArg_bounds ty b).1 hne
  rw [divRes, intDiv, if_neg hb, intArg_intRes_of_range hlo hhi]

theorem intArg_remRes_zero {ty f a b c : Nat} (hb : intArg ty b = 0) : intArg ty (remRes ty f a b c) = intArg ty a := by
  obtain ⟨hlo, hhi⟩ := intArg_bounds ty a
  rw [remRes, intRem, if_pos hb, intArg_intRes_of_range hlo hhi]

theorem intArg_remRes {ty f a b c : Nat} (hb : intArg ty b ≠ 0) : intArg ty (remRes ty f a b c) = (intArg ty a).tmod (intArg ty b) := by
  obtain ⟨hlo, hhi⟩ := tmod_range (intArg ty b) (intArg_bounds ty a)
  rw [remRes, intRem, if_neg hb, intArg_intRes_of_range hlo hhi]

/-- Settles O16: the rows of R131, the quotient and the remainder being read back as they lie in the range of TY. -/
theorem division : Obligations.Division := by
  intro k vd vr ty n
  refine ⟨⟨fun w th => divRes ty vd.efunc (w.a th) (w.b th) (w.cc th), wordReserves_of_exec fun _ => rfl, fun w th => ?_⟩,
    ⟨fun w th => remRes ty vr.efunc (w.a th) (w.b th) (w.cc th), wordReserves_of_exec fun _ => rfl, fun w th => ?_⟩⟩
  · refine ⟨divRes_zero, intArg_divRes_overflow, fun hb hne => ?_⟩
    rw [intArg_divRes hb hne]
    exact ⟨abs_tdiv _ _, tdiv_mul_nonneg _ _⟩
  · refine ⟨intArg_remRes_zero, fun _ _ hb => ?_, fun hb => ?_⟩
    · rw [intArg_remRes (by omega), hb, Int.tmod_neg, Int.tmod_one]
    · rw [intArg_remRes hb]
      exact ⟨abs_tmod _ _, tmod_mul_nonneg _ _⟩

end Sys2Proof.Machine
end

section
/-! The class of a float source (R138). In the layouts of FT the infinity is the least code of the top exponent and the codes above it are
NaN (R57), so sign, exponent and fraction name the class. -/

namespace Sys2Proof.Machine

/-! ### Decoding in a layout with infinity and NaN at the top exponent -/

/-- The infinity of the layout is the least code of its top exponent, and the largest finite code lies just below it. -/
def FFmt.infAtTop (k : FFmt) : Prop := k.inf = some ((2 ^ k.eb - 1) * 2 ^ k.fb) ∧ k.maxc + 1 = (2 ^ k.eb - 1) * 2 ^ k.fb

theorem ffOf_infAtTop (ft : Nat) : (ffOf ft).infAtTop := by
  unfold ffOf FFmt.infAtTop
  split <;> decide

theorem magnitude_eq_fields (x eb fb : Nat) : x % 2 ^ (eb + fb) = natBits x fb eb * 2 ^ fb + natBits x 0 fb := by
  rw [natBits_eq, natBits_eq, pow_zero, Nat.div_one, Nat.add_comm eb fb, pow_add, Nat.mod_mul, Nat.mul_comm, Nat.add_comm]

/-- A code by its sign, exponent and fraction (R57, R58). -/
theorem decFloat_of_infAtTop {k : FFmt} (h : k.infAtTop) (x : Nat) :
    decFloat k x =
      if natBits x k.fb k.eb = 2 ^ k.eb - 1 then (if natBits x 0 k.fb = 0 then .inf (natBit x (k.eb + k.fb)) else .nan)
      else if natBits x k.fb k.eb = 0 then
        (if k.flush then .fin (natBit x (k.eb + k.fb)) 0 0
          else .fin (natBit x (k.eb + k.fb)) (natBits x 0 k.fb) (1 - (k.bias : Int) - k.fb))
      else .fin (natBit x (k.eb + k.fb)) (2 ^ k.fb + natBits x 0 k.fb) ((natBits x k.fb k.eb : Int) - k.bias - k.fb) := by
  obtain ⟨hinf, hmax⟩ := h
  have hE := natBits_lt x k.fb k.eb
  have hF := natBits_lt x 0 k.fb
  simp only [decFloat, magnitude_eq_fields, hinf]
  generalize natBits x k.fb k.eb = E at *
  generalize natBits x 0 k.fb = F at *
  have hex : (E * 2 ^ k.fb + F) / 2 ^ k.fb = E := by
    rw [Nat.mul_comm, Nat.mul_add_div (Nat.two_pow_pos _), Nat.div_eq_of_lt hF, Nat.add_zero]
  have hfr : (E * 2 ^ k.fb + F) % 2 ^ k.fb = F := by
    rw [Nat.mul_comm, Nat.mul_add_mod, Nat.mod_eq_of_lt hF]
  simp only [hex, hfr, Option.some_inj]
  by_cases htop : E = 2 ^ k.eb - 1
  · rw [if_pos htop, ← htop]
    rw [← htop] at hmax
    by_cases hF0 : F = 0
    · rw [if_pos hF0, if_pos (by omega)]
    · rw [if_neg hF0, if_neg (by omega), if_pos (by omega)]
  · have hbelow : E * 2 ^ k.fb + 2 ^ k.fb ≤ (2 ^ k.eb - 1) * 2 ^ k.fb := by
      rw [← Nat.succ_mul]
      exact Nat.mul_le_mul_right _ (by omega)
    rw [if_neg htop, if_neg (by omega), if_neg (by omega)]

/-! ### The class of a source -/

/-- The rows of R138. -/
theorem classBit_of_infAtTop {k : FFmt} (h : k.infAtTop) (x : Nat) :
    classBit k x =
      if natBits x k.fb k.eb = 2 ^ k.eb - 1 then (if natBits x 0 k.fb ≠ 0 then 8 else if natBit x (k.eb + k.fb) then 0 else 7)
      else if natBits x k.fb k.eb = 0 ∧ (natBits x 0 k.fb = 0 ∨ k.flush = true) then (if natBit x (k.eb + k.fb) then 3 else 4)
      else if natBits x k.fb k.eb = 0 then (if natBit x (k.eb + k.fb) then 2 else 5)
      else if natBit x (k.eb + k.fb) then 1 else 6 := by
  have hF := natBits_lt x 0 k.fb
  rw [classBit, decFloat_of_infAtTop h]
  by_cases htop : natBits x k.fb k.eb = 2 ^ k.eb - 1
  · rw [if_pos htop, if_pos htop]
    by_cases hF0 : natBits x 0 k.fb = 0 <;> simp [hF0]
  · rw [if_neg htop, if_neg htop]
    by_cases hE0 : natBits x k.fb k.eb = 0
    · by_cases hflush : k.flush = true
      · simp [hE0, hflush]
      · by_cases hF0 : natBits x 0 k.fb = 0 <;> simp [hE0, hflush, hF0, hF]
    · simp [hE0]

theorem ffOf_eb (ft : Nat) : (ffOf ft).eb = if ft = 1 then 5 else 8 := by
  unfold ffOf
  split <;> simp_all [ffF32, ffF16, ffBf16]

theorem ffOf_fb (ft : Nat) : (ffOf ft).fb = if ft = 0 then 23 else if ft = 1 then 10 else 7 := by
  unfold ffOf
  split <;> simp_all [ffF32, ffF16, ffBf16]

theorem ffOf_flush (ft : Nat) : (ffOf ft).flush = true ↔ 2 ≤ ft := by
  unfold ffOf
  split
  case h_1 => decide
  case h_2 => decide
  case h_3 h0 h1 =>
    have hle : 2 ≤ ft := (Nat.two_le_iff ft).mpr ⟨h0, h1⟩
    simp [ffBf16, hle]

theorem shFloat_fclass_not_ok {v : View} (hopc : v.opc = 0x051) (h : natBits v.efunc 8 3 ≠ 0) : (shFloat v).ok = false := by
  obtain h | h | h := natBits_three_ne_zero h <;> simp [shFloat, hopc, floatArity, h]

/-- Settles O22: the class that the decoded value has is the one that its fields name, in each layout of FT. -/
theorem floatClass : Obligations.FloatClass := by
  intro k v ft eb fb
  refine ⟨fun h => encOk_of_not_ok (shFloat_fclass_not_ok rfl h), wordWrites_of_exec fun s => ?_⟩
  change runVal _ v false s (fun w th => 2 ^ classBit (ffOf ft) (w.a th)) = _
  refine congrArg (runVal _ v false s) (funext₂ fun w th => congrArg (2 ^ ·) ?_)
  have hclass := classBit_of_infAtTop (ffOf_infAtTop ft) (w.a th)
  simpa only [ffOf_eb, ffOf_fb, ffOf_flush] using hclass

end Sys2Proof.Machine
end

section
/-! Comparison of float values (R139). `Val.le` is the order of the extended rationals that the values stand for: magnitudes are compared by
their leading bits first, which bracket them between neighbouring powers of two. -/

namespace Sys2Proof.Machine

/-! ### Magnitudes -/

theorem zpow_floorLog2_le {m : Nat} (hm : m ≠ 0) (e : Int) : (2 : ℚ) ^ floorLog2 m e ≤ m * 2 ^ e := by
  have hlog : (2 : ℚ) ^ Nat.log2 m ≤ m := by exact_mod_cast Nat.log2_self_le hm
  rw [floorLog2, zpow_add₀ two_ne_zero, zpow_natCast]
  gcongr

theorem lt_zpow_floorLog2_succ {m : Nat} (e : Int) : (m : ℚ) * 2 ^ e < 2 ^ (floorLog2 m e + 1) := by
  have hlog : (m : ℚ) < 2 ^ (Nat.log2 m + 1) := by exact_mod_cast Nat.lt_log2_self
  have hexp : floorLog2 m e + 1 = ((Nat.log2 m + 1 : Nat) : Int) + e := by
    rw [floorLog2]
    omega
  rw [hexp, zpow_add₀ two_ne_zero, zpow_natCast]
  gcongr

/-- A magnitude of smaller leading bit is the smaller one. -/
theorem magnitude_lt_of_floorLog2_lt {m n : Nat} {e d : Int} (hn : n ≠ 0) (h : floorLog2 m e < floorLog2 n d) :
    (m : ℚ) * 2 ^ e < n * 2 ^ d :=
  calc (m : ℚ) * 2 ^ e < 2 ^ (floorLog2 m e + 1) := lt_zpow_floorLog2_succ e
    _ ≤ 2 ^ floorLog2 n d := zpow_le_zpow_right₀ one_le_two h
    _ ≤ n * 2 ^ d := zpow_floorLog2_le hn d

theorem magnitude_eq_shift (m : Nat) {e q : Int} (h : q ≤ e) : (m : ℚ) * 2 ^ e = ((m * 2 ^ (e - q).toNat : Nat) : ℚ) * 2 ^ q := by
  have hexp : e = ((e - q).toNat : Int) + q := by omega
  conv_lhs => rw [hexp, zpow_add₀ two_ne_zero, zpow_natCast]
  push_cast
  ring

theorem magLe_iff (m : Nat) (e : Int) (n : Nat) (d : Int) : magLe m e n d = true ↔ (m : ℚ) * 2 ^ e ≤ n * 2 ^ d := by
  have hpow (i : Int) : (0 : ℚ) < 2 ^ i := by positivity
  unfold magLe
  split
  case isTrue hm => simp [hm, mul_nonneg, (hpow d).le]
  case isFalse hm =>
    have hmpos : (0 : ℚ) < m := by exact_mod_cast Nat.pos_of_ne_zero hm
    split
    case isTrue hn => simp [hn, mul_pos hmpos (hpow e)]
    case isFalse hn =>
      dsimp only
      split
      case isTrue hlt => simp [(magnitude_lt_of_floorLog2_lt hn hlt).le]
      case isFalse =>
        split
        case isTrue hlt => simp [magnitude_lt_of_floorLog2_lt hm hlt]
        case isFalse =>
          rw [magnitude_eq_shift m (min_le_left e d), magnitude_eq_shift n (min_le_right e d), mul_le_mul_iff_left₀ (hpow _), Nat.cast_le,
            decide_eq_true_eq]

/-! ### Values -/

theorem Val.le_fin_iff (s : Bool) (m : Nat) (e : Int) (t : Bool) (n : Nat) (d : Int) :
    (Val.fin s m e).le (.fin t n d) = true ↔ (if s then -1 else 1) * (m : ℚ) * 2 ^ e ≤ (if t then -1 else 1) * (n : ℚ) * 2 ^ d := by
  have hmag (k : Nat) (i : Int) (hk : k ≠ 0) : (0 : ℚ) < k * 2 ^ i := by positivity
  rw [mul_assoc, mul_assoc]
  by_cases hm : m = 0 <;> by_cases hn : n = 0
  · simp [Val.le, Val.dy, hm, hn]
  · have hy := hmag n d hn
    cases t <;> simp [Val.le, Val.dy, hm, hn, hy, hy.le]
  · have hx := hmag m e hm
    cases s <;> simp [Val.le, Val.dy, hm, hn, hx, hx.le]
  · have hx := hmag m e hm
    have hy := hmag n d hn
    have hneg : -((m : ℚ) * 2 ^ e) ≤ n * 2 ^ d := by linarith
    have hpos : -((n : ℚ) * 2 ^ d) < m * 2 ^ e := by linarith
    cases s <;> cases t <;> simp [Val.le, Val.dy, hm, hn, magLe_iff, hneg, hpos]

theorem Val.le_iff_ext {a b : Val} {p q : WithBot (WithTop ℚ)} (ha : a.ext = some p) (hb : b.ext = some q) : a.le b = true ↔ p ≤ q := by
  cases a with
  | nan => cases ha
  | log => cases ha
  | inf s =>
    cases b with
    | nan => cases hb
    | log => cases hb
    | inf t =>
      cases ha
      cases hb
      cases s <;> cases t <;> simp [Val.le, Val.dy]
    | fin t n d =>
      cases ha
      cases hb
      cases s <;> simp [Val.le, Val.dy]
  | fin s m e =>
    cases b with
    | nan => cases hb
    | log => cases hb
    | inf t =>
      cases ha
      cases hb
      cases t <;> simp [Val.le, Val.dy]
    | fin t n d =>
      cases ha
      cases hb
      rw [Val.le_fin_iff, WithBot.coe_le_coe, WithTop.coe_le_coe]

theorem Val.isNaN_of_ext {a : Val} {p : WithBot (WithTop ℚ)} (h : a.ext = some p) : a.isNaN = false := by
  cases a with
  | nan => cases h
  | _ => rfl

@[simp] theorem Val.le_nan (a : Val) : a.le .nan = false := by
  have hdy : Val.nan.dy = .nan := rfl
  rw [Val.le, hdy]
  cases a.dy <;> rfl

@[simp] theorem Val.nan_le (a : Val) : Val.nan.le a = false := rfl

theorem decFloat_ne_log (k : FFmt) (x : Nat) (s : Bool) (l : Int) (f : Nat) : decFloat k x ≠ .log s l f := by
  dsimp only [decFloat]
  split_ifs <;> nofun

/-- A source of a float word stands for no number only when it is NaN. -/
theorem fltArg_eq_nan_of_ext {k : FFmt} {ng : Bool} {x : Nat} (h : (fltArg k ng x).ext = none) : fltArg k ng x = .nan := by
  unfold fltArg at *
  cases hx : decFloat k x with
  | nan => cases ng <;> rfl
  | inf s => cases ng <;> simp [hx, Val.neg, Val.ext] at h
  | fin s m e => cases ng <;> simp [hx, Val.neg, Val.ext, Val.rat] at h
  | log s l f => exact absurd hx (decFloat_ne_log k x s l f)

/-! ### The codes of CC (R139) -/

theorem fltCC_of_ext {a b : Val} {p q : WithBot (WithTop ℚ)} (ha : a.ext = some p) (hb : b.ext = some q) :
    (fltCC 0 a b = true ↔ p = q) ∧ (fltCC 1 a b = true ↔ p ≠ q) ∧ (fltCC 2 a b = true ↔ p < q) ∧ (fltCC 3 a b = true ↔ p ≤ q) ∧
    (fltCC 4 a b = true ↔ q < p) ∧ (fltCC 5 a b = true ↔ q ≤ p) ∧ fltCC 6 a b = false ∧ fltCC 7 a b = true := by
  have hab := Val.le_iff_ext ha hb
  have hba := Val.le_iff_ext hb ha
  simp only [fltCC, Val.isNaN_of_ext ha, Val.isNaN_of_ext hb]
  refine ⟨?_, ?_, ?_, hab, ?_, hba, rfl, rfl⟩
  · rw [Bool.and_eq_true, hab, hba, le_antisymm_iff]
  · rw [Bool.not_eq_true', ← Bool.not_eq_true, Bool.and_eq_true, hab, hba, ne_eq, le_antisymm_iff]
  · simp [hba, ← not_le, ← Bool.not_eq_true]
  · simp [hab, ← not_le, ← Bool.not_eq_true]

theorem boolRes_fltCC_of_ext {a b : Val} {p q : WithBot (WithTop ℚ)} (ha : a.ext = some p) (hb : b.ext = some q) (cc : Nat) :
    let x := boolRes (fltCC cc a b)
    (cc = 0 → (x = 1 ↔ p = q)) ∧ (cc = 1 → (x = 1 ↔ p ≠ q)) ∧ (cc = 2 → (x = 1 ↔ p < q)) ∧ (cc = 3 → (x = 1 ↔ p ≤ q)) ∧
    (cc = 4 → (x = 1 ↔ q < p)) ∧ (cc = 5 → (x = 1 ↔ q ≤ p)) ∧ (cc = 6 → x = 0) ∧ (cc = 7 → x = 1) := by
  obtain ⟨heq, hne, hlt, hle, hgt, hge, hun, hord⟩ := fltCC_of_ext ha hb
  simp only [boolRes_eq_one, boolRes_eq_zero]
  exact ⟨fun h => h ▸ heq, fun h => h ▸ hne, fun h => h ▸ hlt, fun h => h ▸ hle, fun h => h ▸ hgt, fun h => h ▸ hge, fun h => h ▸ hun,
    fun h => h ▸ hord⟩

theorem fltCC_of_nan {a b : Val} (h : a = .nan ∨ b = .nan) {cc : Nat} (hcc : cc < 8) : fltCC cc a b = true ↔ cc = 1 ∨ cc = 6 := by
  have hab : a.le b = false := by
    obtain rfl | rfl := h <;> simp
  have hba : b.le a = false := by
    obtain rfl | rfl := h <;> simp
  have hun : (a.isNaN || b.isNaN) = true := by
    obtain rfl | rfl := h <;> simp [Val.isNaN]
  interval_cases cc <;> simp [fltCC, hab, hba, hun]

theorem shFloat_fcmp_not_ok {v : View} (hopc : v.opc = 0x046) (h : 8 ≤ natBits v.efunc 4 4) : (shFloat v).ok = false := by
  simp [shFloat, hopc, floatArity, h]

theorem fcmp_writes (k : FR) :
    let v := k.view .fr 0x046
    wordWrites (.fcmp k) { sh := shFloat v } v false fun w th =>
      boolRes (fltCC (natBits v.efunc 4 4) (fltArg (ffOf (natBits v.efunc 14 2)) (natBit v.efunc 10) (w.a th))
        (fltArg (ffOf (natBits v.efunc 14 2)) (natBit v.efunc 9) (w.b th))) :=
  wordWrites_of_exec fun _ => rfl

/-- Settles O21: the order of the values is that of the extended numbers, and a source that stands for no number is NaN. -/
theorem floatCompare : Obligations.FloatCompare := fun k =>
  ⟨fun h => encOk_of_not_ok (shFloat_fcmp_not_ok rfl h), _, fcmp_writes k, fun _ _ => ⟨boolRes_eq_zero_or_one _,
    fun _ _ hp hq => boolRes_fltCC_of_ext hp hq _,
    fun hnan hcc => (boolRes_eq_one _).trans (fltCC_of_nan (hnan.imp fltArg_eq_nan_of_ext fltArg_eq_nan_of_ext) hcc)⟩⟩

end Sys2Proof.Machine
end

section
/-! The lane word `shf` (R149). -/

namespace Sys2Proof.Machine

/-- The shape of `shf`: A and DST are pairs under WIDE, and the bits of FUNC besides MODE, SEG and WIDE must be zero. -/
theorem shLane_shf (k : FR) : shLane (k.view .fr 0x0A0) =
    { a := if natBit (k.view .fr 0x0A0).efunc 10 then r64 else r32, b := r32, dst := .val (natBit (k.view .fr 0x0A0).efunc 10), u := .zero,
      long := true, ok := !natBit (k.view .fr 0x0A0).efunc 13 && natBits (k.view .fr 0x0A0).efunc 0 10 == 0 } := rfl

theorem shLane_shf_not_ok {k : FR} (h : natBit (k.view .fr 0x0A0).efunc 13 = true ∨ natBits (k.view .fr 0x0A0).efunc 0 10 ≠ 0) :
    (shLane (k.view .fr 0x0A0)).ok = false := by
  rw [shLane_shf]
  obtain h | h := h <;> simp [h]

theorem shLane_shf_wide_iff (k : FR) : (shLane (k.view .fr 0x0A0)).a = .w64 false ↔ natBit (k.view .fr 0x0A0).efunc 10 = true := by
  cases h : natBit (k.view .fr 0x0A0).efunc 10 <;> simp [shLane_shf, h, r64, r32]

/-- Settles O25: the word reads A of the thread `shfSrc`, whose rows are those of R149, and its width is that of its DST. -/
theorem shuffle : Obligations.Shuffle := fun k =>
  ⟨fun h => encOk_of_not_ok (shLane_shf_not_ok h), shLane_shf_wide_iff k, wordReserves_of_exec fun _ => rfl⟩

end Sys2Proof.Machine
end

section
/-! Control words at the clause boundary (R96): what a statement about a terminal word asks of the word's own effect on its group. The effect
sees the group past its clause, at the next one. -/

namespace Sys2Proof.Machine

/-! ### Terminal words -/

theorem State.endClause_congr (s : State) (w : Iss) {f f' : Group → Group} (h : ∀ g : Group, g.pc = w.g.nextClause → f g = f' g) :
    s.endClause w f = s.endClause w f' := by
  simp only [State.endClause, h _ (show (Group.goto _ w.g.nextClause).pc = w.g.nextClause from rfl)]

/-- A control word that completes where p holds; its effect and the stated one need to agree on a group at the next clause only. -/
theorem wordEnds_of_runCtl {i : Instr} {v : View} {sh : Shape} {p : Iss → Prop} {f : Iss → Group → Group}
    {eff : Iss → Except Exc (Group → Group)} (h : ∀ s, exec i s = runCtl v sh s eff)
    (he : ∀ w, w.v = v → p w → ∃ k, eff w = .ok k ∧ ∀ g : Group, g.pc = w.g.nextClause → k g = f w g) : wordEnds i { sh := sh } v p f :=
  wordEnds_of h fun w s hv hp => by
    obtain ⟨k, hk, hf⟩ := he w hv hp
    rw [hk, Except.map, s.endClause_congr w hf]

/-- A control word that faults where p holds. -/
theorem wordFaults_of_runCtl {i : Instr} {v : View} {sh : Shape} {p : Iss → Prop} {x : Iss → Exc}
    {eff : Iss → Except Exc (Group → Group)} (h : ∀ s, exec i s = runCtl v sh s eff) (he : ∀ w, p w → eff w = .error (x w)) :
    wordFaults i { sh := sh } v (fun w _ => p w) x :=
  wordFaults_of h fun w _ _ hp => by rw [he w hp, Except.map]

end Sys2Proof.Machine
end

section
/-! `br` (R163). That an unpredicated branch never diverges is a fact about the active mask: its bits are the active threads, and without a
predicate these are all threads of MASK. -/

namespace Sys2Proof.Machine

/-! ### The active threads as a mask -/

/-- A sum of distinct powers of two has the bits that it names. -/
theorem testBit_foldl_two_pow {l : List Nat} (h : l.SortedLT) (i : Nat) : (l.foldl (fun m th => m + 2 ^ th) 0).testBit i = true ↔ i ∈ l := by
  rw [← List.foldl_map, ← List.sum_eq_foldl, ← Nat.mem_bitIndices, Nat.bitIndices_sum_map_two_pow h]

theorem Group.actives_sorted (g : Group) (v : View) : (g.actives v).SortedLT :=
  (List.pairwise_lt_range.filter _).sortedLT

theorem Group.mem_actives {g : Group} {v : View} {th : Nat} : th ∈ g.actives v ↔ th < g.width ∧ g.active v th = true := by
  simp [Group.actives, Group.ths]

theorem Group.getLsbD_actMask (g : Group) (v : View) (i : Nat) :
    (g.actMask v).getLsbD i = true ↔ i < 64 ∧ i < g.width ∧ g.active v i = true := by
  rw [Group.actMask, BitVec.getLsbD_ofNat, Bool.and_eq_true, decide_eq_true_eq, testBit_foldl_two_pow (g.actives_sorted v), Group.mem_actives]

/-- k0 is always 1 (R125). -/
theorem Group.active_of_unpredicated (g : Group) {v : View} (hp : v.pred = 0) (hn : v.pneg = false) (th : Nat) :
    g.active v th = g.mask.getLsbD th := by
  simp [Group.active, Thread.ki, hp, hn]

theorem Group.actMask_of_unpredicated {g : Group} {v : View} (hp : v.pred = 0) (hn : v.pneg = false)
    (hout : ∀ i, g.width ≤ i → g.mask.getLsbD i = false) : g.actMask v = g.mask := by
  refine BitVec.eq_of_getLsbD_eq fun i hi => Bool.eq_iff_iff.mpr ?_
  rw [Group.getLsbD_actMask, g.active_of_unpredicated hp hn]
  have hin : g.mask.getLsbD i = true → i < g.width := fun hm => by
    by_contra hw
    simp [hout i (by omega)] at hm
  exact ⟨fun ⟨_, _, hm⟩ => hm, fun hm => ⟨hi, hin hm, hm⟩⟩

/-! ### The branch -/

theorem Iss.target_of_view {w : Iss} {k : FB} {opc : Nat} (hv : w.v = k.view opc) :
    w.target = w.g.pc + BitVec.ofInt 64 (8 * k.ofs.toInt) := by
  rw [Iss.target, hv]
  rfl

theorem exec_br (k : FB) (s : State) : exec (.br k) s = execBr k s := rfl

/-- Settles O30: the four cases of R163 are the branches of `br`, and an unpredicated one has every thread of MASK active. -/
theorem branch : Obligations.Branch := by
  intro k v e target
  refine ⟨wordEnds_of_runCtl (exec_br k) fun w _ hp => ?_, wordEnds_of_runCtl (exec_br k) fun w hv hp => ?_,
    wordEnds_of_runCtl (exec_br k) fun w hv hp => ?_, wordFaults_of_runCtl (exec_br k) fun w hp => ?_, fun hp hn g _ hout => ?_⟩
  · exact ⟨id, if_pos hp, fun _ _ => rfl⟩
  · obtain ⟨hact, hrest⟩ := hp
    exact ⟨_, (if_neg hact).trans (if_pos hrest), fun _ _ => by rw [Iss.target_of_view hv]⟩
  · obtain ⟨hact, hrest, hroom⟩ := hp
    refine ⟨_, (if_neg hact).trans ((if_neg hrest).trans (if_neg (by omega))), fun g hpc => ?_⟩
    rw [hpc, Iss.target_of_view hv]
    rfl
  · obtain ⟨hact, hrest, hfull⟩ := hp
    exact (if_neg hact).trans ((if_neg hrest).trans (if_pos hfull))
  · have hpred : v.pred = 0 := congrArg BitVec.toNat hp
    rw [Group.actMask_of_unpredicated hpred hn hout]
    exact BitVec.and_not_self _

end Sys2Proof.Machine
end

section
/-! `call`, `join` and `ret` (R165, R167), and resuming from the stack (R161). `join` and `ret` differ only in the kinds of entry that they
refuse at the top of the stack. -/

namespace Sys2Proof.Machine

/-! ### `join` and `ret` -/

/-- The kinds of entry that `call` and `callt` push. -/
def StkKind.ofCall (x : StkKind) : Bool := decide (x = .call) || decide (x = .target)

/-- What `join` and `ret` do to their group: they resume, unless the stack is empty or the kind of its top entry is refused. -/
def popStk (refused : StkKind → Bool) (w : Iss) : Except Exc (Group → Group) :=
  match w.g.stk with
  | [] => .error { code := cDiverge, detail := 1 }
  | x :: _ => if refused x.kind then .error { code := cDiverge, detail := 2 } else .ok Group.resume

theorem popStk_of_empty {refused : StkKind → Bool} {w : Iss} (h : w.g.stk = []) :
    popStk refused w = .error { code := 0x0007, detail := 1 } := by
  rw [popStk, h]
  rfl

theorem popStk_of_refused {refused : StkKind → Bool} {w : Iss} (h : (w.g.stk.head?.any fun x => refused x.kind) = true) :
    popStk refused w = .error { code := 0x0007, detail := 2 } := by
  obtain ⟨x, hx, hk⟩ := (Option.any_eq_true _ _).mp h
  obtain ⟨rest, hstk⟩ := List.head?_eq_some_iff.mp hx
  rw [popStk, hstk]
  exact if_pos hk

theorem popStk_of_accepted {refused : StkKind → Bool} {w : Iss} (h : (w.g.stk.head?.any fun x => !refused x.kind) = true) :
    popStk refused w = .ok Group.resume := by
  obtain ⟨x, hx, hk⟩ := (Option.any_eq_true _ _).mp h
  obtain ⟨rest, hstk⟩ := List.head?_eq_some_iff.mp hx
  rw [popStk, hstk]
  exact if_neg (by simpa using hk)

theorem StkKind.ofCall_iff (x : StkKind) : x.ofCall = true ↔ x = .call ∨ x = .target := by
  cases x <;> decide

theorem StkKind.not_ofCall_iff (x : StkKind) : (!x.ofCall) = true ↔ x = .reconv ∨ x = .pending := by
  cases x <;> decide

theorem exec_join (k : FR) (s : State) :
    exec (.join k) s = runCtl (k.view .fr 0x108) (shRet (k.view .fr 0x108)) s (popStk StkKind.ofCall) := by
  change execJoin k s = _
  refine congrArg (runCtl _ _ s) (funext fun w => ?_)
  rw [popStk]
  cases w.g.stk with
  | nil => rfl
  | cons x rest => exact if_congr x.kind.ofCall_iff.symm rfl rfl

theorem exec_ret (k : FR) (s : State) :
    exec (.ret k) s = runCtl (k.view .fr 0x105) (shRet (k.view .fr 0x105)) s (popStk fun x => !x.ofCall) := by
  change execRet k s = _
  refine congrArg (runCtl _ _ s) (funext fun w => ?_)
  rw [popStk]
  cases w.g.stk with
  | nil => rfl
  | cons x rest => exact if_congr x.kind.not_ofCall_iff.symm rfl rfl

/-- The three cases of a word that resumes from the stack. -/
theorem popStk_cases {i : Instr} {v : View} {sh : Shape} {refused : StkKind → Bool} (h : ∀ s, exec i s = runCtl v sh s (popStk refused)) :
    wordEnds i { sh := sh } v (fun w => (w.g.stk.head?.any fun x => !refused x.kind) = true) (fun _ g => g.resume) ∧
    wordFaults i { sh := sh } v (fun w _ => w.g.stk = []) (fun _ => { code := 0x0007, detail := 1 }) ∧
    wordFaults i { sh := sh } v (fun w _ => (w.g.stk.head?.any fun x => refused x.kind) = true) (fun _ => { code := 0x0007, detail := 2 }) :=
  ⟨wordEnds_of_runCtl h fun _ _ hp => ⟨Group.resume, popStk_of_accepted hp, fun _ _ => rfl⟩,
    wordFaults_of_runCtl h fun _ => popStk_of_empty, wordFaults_of_runCtl h fun _ => popStk_of_refused⟩

/-! ### Resuming -/

/-- Entries without a live thread are passed over, whatever their kind. -/
theorem resumeFrom_dead (g : Group) (dead rest : List StkEnt) (h : ∀ x ∈ dead, x.mask &&& g.live = 0#64) :
    resumeFrom g (dead ++ rest) = resumeFrom g rest := by
  induction dead with
  | nil => rfl
  | cons x dead ih =>
    rw [List.cons_append, resumeFrom, if_pos (h x List.mem_cons_self), ih fun y hy => h y (List.mem_cons_of_mem _ hy)]

theorem Group.resume_of_dead {g : Group} (h : ∀ x ∈ g.stk, x.mask &&& g.live = 0#64) : g.resume = { g with stk := [] } := by
  rw [Group.resume, ← List.append_nil g.stk, resumeFrom_dead g g.stk [] h, resumeFrom]

theorem Group.resume_of_live {g : Group} {dead rest : List StkEnt} {e : StkEnt} (hstk : g.stk = dead ++ e :: rest)
    (hdead : ∀ x ∈ dead, x.mask &&& g.live = 0#64) (he : e.mask &&& g.live ≠ 0#64) :
    g.resume = { g with stk := rest, mask := e.mask &&& g.live, pc := e.pc,
                        land := if e.kind = .target then some (e.label, true) else none } := by
  rw [Group.resume, hstk, resumeFrom_dead g dead _ hdead, resumeFrom, if_neg he]

/-! ### `call` -/

theorem exec_call (k : FB) (s : State) : exec (.call k) s = execCall k s := rfl

theorem call_cases (k : FB) :
    let v := k.view 0x103
    let e : Entry := { sh := shBranch v }
    wordEnds (.call k) e v (fun w => w.mask = 0#64) (fun _ g => g) ∧
    wordEnds (.call k) e v (fun w => w.mask ≠ 0#64 ∧ w.g.stk.length < 16) (fun w g =>
      { g with stk := ⟨w.g.nextClause, w.g.mask, 0#16, .call⟩ :: g.stk, mask := w.mask, pc := w.g.pc + BitVec.ofInt 64 (8 * k.ofs.toInt) }) ∧
    wordFaults (.call k) e v (fun w _ => w.mask ≠ 0#64 ∧ 16 ≤ w.g.stk.length) (fun _ => { code := 0x0007 }) := by
  refine ⟨wordEnds_of_runCtl (exec_call k) fun w _ hp => ?_, wordEnds_of_runCtl (exec_call k) fun w hv hp => ?_,
    wordFaults_of_runCtl (exec_call k) fun w hp => ?_⟩
  · exact ⟨id, if_pos hp, fun _ _ => rfl⟩
  · obtain ⟨hact, hroom⟩ := hp
    refine ⟨_, (if_neg hact).trans (if_neg (by omega)), fun g hpc => ?_⟩
    rw [hpc, Iss.target_of_view hv]
    rfl
  · obtain ⟨hact, hfull⟩ := hp
    exact (if_neg hact).trans (if_pos hfull)

/-- Settles O31: `join` and `ret` are one word with the refused kinds exchanged, and resuming passes over the entries without a live
thread. -/
theorem subroutineWords : Obligations.SubroutineWords := by
  refine ⟨call_cases, fun k => ?_, fun g dead hdead => ⟨?_, fun e rest hstk he => Group.resume_of_live hstk hdead he⟩⟩
  · obtain ⟨hjoin, hjoinEmpty, hjoinKind⟩ := popStk_cases (exec_join k)
    obtain ⟨hret, hretEmpty, hretKind⟩ := popStk_cases (exec_ret k)
    simp only [Bool.not_not] at hret
    exact ⟨hjoin, hjoinEmpty, hjoinKind, hret, hretEmpty, hretKind⟩
  · rintro rfl
    exact Group.resume_of_dead hdead

end Sys2Proof.Machine
end

section
/-! `trap` and `brk` (R386): each falls through or stops its group, as the word says from its own fields and the active threads. -/

namespace Sys2Proof.Machine

theorem FS.view_u (k : FS) (opc : Nat) : (k.view opc).u = k.h.u := rfl

theorem Iss.idle_iff {w : Iss} {k : FS} {opc : Nat} (hv : w.v = k.view opc) : w.idle = true ↔ k.h.u = false ∧ w.mask = 0#64 := by
  simp [Iss.idle, hv, FS.view_u]

/-- `brk` falls through also where DBG.BRKEN is clear. -/
theorem Iss.idle_or_unarmed_iff {w : Iss} {k : FS} {opc : Nat} (hv : w.v = k.view opc) :
    (w.idle || !w.c.dbg.getLsbD 0) = true ↔ (k.h.u = false ∧ w.mask = 0#64) ∨ w.c.dbg.getLsbD 0 = false := by
  rw [Bool.or_eq_true, Bool.not_eq_true', Iss.idle_iff hv]

/-- The fault of a word that stops its group: detail SEL, and the active threads unless the word is uniform. -/
theorem State.trapAt_eq (s : State) {w : Iss} {k : FS} {opc : Nat} (hv : w.v = k.view opc) (code : Nat) :
    s.trapAt w code = s.takeFault w.id
      { code := code, detail := k.sel.toNat, lanes := if k.h.u then 0#64 else w.mask } w.g.wordPc w.g.nextClause 0 false := by
  rw [State.trapAt, hv]
  rfl

/-- A word whose effect falls through where p holds, and stops its group with `code` elsewhere. -/
theorem trapWord_cases {i : Instr} {k : FS} {opc code : Nat} {e : Entry} {c : Iss → Bool} {p : Iss → Prop}
    (h : ∀ s, exec i s = runWord e (k.view opc) s fun w s1 => .ok (if c w then s1.endClause w id else s1.trapAt w code))
    (hc : ∀ w, w.v = k.view opc → (c w = true ↔ p w)) :
    wordEnds i e (k.view opc) p (fun _ g => g) ∧
    wordDoes i e (k.view opc) (fun w _ => ¬ p w) (fun w s => s.takeFault w.id
      { code := code, detail := k.sel.toNat, lanes := if k.h.u then 0#64 else w.mask } w.g.wordPc w.g.nextClause 0 false) := by
  refine ⟨wordEnds_of h fun w s hv hp => ?_, wordDoes_of h fun w s hv hp => ?_⟩
  · exact congrArg _ (if_pos ((hc w hv).mpr hp))
  · rw [if_neg (mt (hc w hv).mp hp), s.trapAt_eq hv]

theorem exec_trap (k : FS) (s : State) : exec (.trap k) s = execTrap k s := rfl

theorem exec_brk (k : FS) (s : State) : exec (.brk k) s = execBrk k s := rfl

/-- Settles O35: each word has two cases, and `brk` has one more reason to fall through. -/
theorem trapWords : Obligations.TrapWords := by
  intro k e idle x
  obtain ⟨htrapEnds, htrapStops⟩ := trapWord_cases (exec_trap k) fun _ => Iss.idle_iff
  obtain ⟨hbrkEnds, hbrkStops⟩ := trapWord_cases (exec_brk k) fun _ => Iss.idle_or_unarmed_iff
  simp only [not_or, Bool.not_eq_false] at hbrkStops
  exact ⟨htrapEnds, htrapStops, hbrkEnds, hbrkStops⟩

end Sys2Proof.Machine
end

section
/-! Decoding and encoding (R100, R101, R115): the round trip from an instruction collects what each instruction's own lemma says, and a word
that parses is rebuilt from its fields. -/

namespace Sys2Proof.Machine

/-- The round trip of every instruction. -/
theorem roundTrip : ∀ i : Instr, Laws.RoundTrip.Statement i
  | .add w => Laws.RoundTrip.add w
  | .sub w => Laws.RoundTrip.sub w
  | .addc w => Laws.RoundTrip.addc w
  | .subb w => Laws.RoundTrip.subb w
  | .mul w => Laws.RoundTrip.mul w
  | .mulh w => Laws.RoundTrip.mulh w
  | .mad w => Laws.RoundTrip.mad w
  | .neg w => Laws.RoundTrip.neg w
  | .abs w => Laws.RoundTrip.abs w
  | .min w => Laws.RoundTrip.min w
  | .max w => Laws.RoundTrip.max w
  | .clamp w => Laws.RoundTrip.clamp w
  | .div w => Laws.RoundTrip.div w
  | .rem w => Laws.RoundTrip.rem w
  | .sad w => Laws.RoundTrip.sad w
  | .dot4 w => Laws.RoundTrip.dot4 w
  | .and w => Laws.RoundTrip.and w
  | .or w => Laws.RoundTrip.or w
  | .xor w => Laws.RoundTrip.xor w
  | .not w => Laws.RoundTrip.not w
  | .andn w => Laws.RoundTrip.andn w
  | .lgc3 w => Laws.RoundTrip.lgc3 w
  | .shl w => Laws.RoundTrip.shl w
  | .shr w => Laws.RoundTrip.shr w
  | .sar w => Laws.RoundTrip.sar w
  | .rol w => Laws.RoundTrip.rol w
  | .bfx w => Laws.RoundTrip.bfx w
  | .bfi w => Laws.RoundTrip.bfi w
  | .pop w => Laws.RoundTrip.pop w
  | .clz w => Laws.RoundTrip.clz w
  | .ctz w => Laws.RoundTrip.ctz w
  | .brev w => Laws.RoundTrip.brev w
  | .cmp w => Laws.RoundTrip.cmp w
  | .sel w => Laws.RoundTrip.sel w
  | .pset w => Laws.RoundTrip.pset w
  | .lea w => Laws.RoundTrip.lea w
  | .mov w => Laws.RoundTrip.mov w
  | .movi w => Laws.RoundTrip.movi w
  | .movh w => Laws.RoundTrip.movh w
  | .fadd w => Laws.RoundTrip.fadd w
  | .fsub w => Laws.RoundTrip.fsub w
  | .fmul w => Laws.RoundTrip.fmul w
  | .fma w => Laws.RoundTrip.fma w
  | .fmin w => Laws.RoundTrip.fmin w
  | .fmax w => Laws.RoundTrip.fmax w
  | .fcmp w => Laws.RoundTrip.fcmp w
  | .frnd w => Laws.RoundTrip.frnd w
  | .frcp w => Laws.RoundTrip.frcp w
  | .frsq w => Laws.RoundTrip.frsq w
  | .fsqrt w => Laws.RoundTrip.fsqrt w
  | .fex2 w => Laws.RoundTrip.fex2 w
  | .flg2 w => Laws.RoundTrip.flg2 w
  | .fsin w => Laws.RoundTrip.fsin w
  | .fcos w => Laws.RoundTrip.fcos w
  | .fdiv w => Laws.RoundTrip.fdiv w
  | .fscale w => Laws.RoundTrip.fscale w
  | .fclass w => Laws.RoundTrip.fclass w
  | .padd w => Laws.RoundTrip.padd w
  | .pmul w => Laws.RoundTrip.pmul w
  | .pfma w => Laws.RoundTrip.pfma w
  | .pmin w => Laws.RoundTrip.pmin w
  | .pmax w => Laws.RoundTrip.pmax w
  | .lmul w => Laws.RoundTrip.lmul w
  | .ladd w => Laws.RoundTrip.ladd w
  | .lsub w => Laws.RoundTrip.lsub w
  | .lmax w => Laws.RoundTrip.lmax w
  | .cvt w => Laws.RoundTrip.cvt w
  | .pack w => Laws.RoundTrip.pack w
  | .unpk w => Laws.RoundTrip.unpk w
  | .bmax w => Laws.RoundTrip.bmax w
  | .bscale w => Laws.RoundTrip.bscale w
  | .shf w => Laws.RoundTrip.shf w
  | .vote w => Laws.RoundTrip.vote w
  | .redx w => Laws.RoundTrip.redx w
  | .bcst w => Laws.RoundTrip.bcst w
  | .scan w => Laws.RoundTrip.scan w
  | .rdsr w => Laws.RoundTrip.rdsr w
  | .wrsr w => Laws.RoundTrip.wrsr w
  | .br w => Laws.RoundTrip.br w
  | .jt w => Laws.RoundTrip.jt w
  | .land w => Laws.RoundTrip.land w
  | .call w => Laws.RoundTrip.call w
  | .callt w => Laws.RoundTrip.callt w
  | .ret w => Laws.RoundTrip.ret w
  | .exit w => Laws.RoundTrip.exit w
  | .split w => Laws.RoundTrip.split w
  | .join w => Laws.RoundTrip.join w
  | .phase w => Laws.RoundTrip.phase w
  | .succ w => Laws.RoundTrip.succ w
  | .trap w => Laws.RoundTrip.trap w
  | .brk w => Laws.RoundTrip.brk w
  | .nop w => Laws.RoundTrip.nop w
  | .loop w => Laws.RoundTrip.loop w
  | .sysc w => Laws.RoundTrip.sysc w
  | .ld w => Laws.RoundTrip.ld w
  | .st w => Laws.RoundTrip.st w
  | .lds w => Laws.RoundTrip.lds w
  | .sts w => Laws.RoundTrip.sts w
  | .ldt w => Laws.RoundTrip.ldt w
  | .uld w => Laws.RoundTrip.uld w
  | .pfx w => Laws.RoundTrip.pfx w
  | .atom w => Laws.RoundTrip.atom w
  | .red w => Laws.RoundTrip.red w
  | .cas w => Laws.RoundTrip.cas w
  | .atomv w => Laws.RoundTrip.atomv w
  | .redv w => Laws.RoundTrip.redv w
  | .fence w => Laws.RoundTrip.fence w
  | .fencer w => Laws.RoundTrip.fencer w
  | .marm w => Laws.RoundTrip.marm w
  | .marmCounted w => Laws.RoundTrip.marmCounted w
  | .mwait w => Laws.RoundTrip.mwait w
  | .wuc w => Laws.RoundTrip.wuc w
  | .zln w => Laws.RoundTrip.zln w
  | .lqry w => Laws.RoundTrip.lqry w
  | .mma w => Laws.RoundTrip.mma w
  | .mmx w => Laws.RoundTrip.mmx w
  | .mzero w => Laws.RoundTrip.mzero w
  | .mld w => Laws.RoundTrip.mld w
  | .drain w => Laws.RoundTrip.drain w
  | .mrel w => Laws.RoundTrip.mrel w
  | .mscl w => Laws.RoundTrip.mscl w
  | .mrd w => Laws.RoundTrip.mrd w
  | .cpy w => Laws.RoundTrip.cpy w
  | .cpyo w => Laws.RoundTrip.cpyo w
  | .cpyr w => Laws.RoundTrip.cpyr w
  | .cpym w => Laws.RoundTrip.cpym w
  | .cpys w => Laws.RoundTrip.cpys w
  | .cseal w => Laws.RoundTrip.cseal w
  | .cwait w => Laws.RoundTrip.cwait w
  | .tbind w => Laws.RoundTrip.tbind w
  | .tset w => Laws.RoundTrip.tset w
  | .tget w => Laws.RoundTrip.tget w
  | .twait w => Laws.RoundTrip.twait w
  | .trel w => Laws.RoundTrip.trel w
  | .bini w => Laws.RoundTrip.bini w
  | .barv w => Laws.RoundTrip.barv w
  | .barw w => Laws.RoundTrip.barw w
  | .bexp w => Laws.RoundTrip.bexp w
  | .bdrop w => Laws.RoundTrip.bdrop w
  | .bget w => Laws.RoundTrip.bget w
  | .qenq w => Laws.RoundTrip.qenq w
  | .qdeq w => Laws.RoundTrip.qdeq w
  | .qtry w => Laws.RoundTrip.qtry w
  | .jdec w => Laws.RoundTrip.jdec w
  | .jset w => Laws.RoundTrip.jset w
  | .spawn w => Laws.RoundTrip.spawn w
  | .qnt w => Laws.RoundTrip.qnt w
  | .rcinv w => Laws.RoundTrip.rcinv w
  | .trc w => Laws.RoundTrip.trc w
  | .trcm w => Laws.RoundTrip.trcm w
  | .cnt w => Laws.RoundTrip.cnt w
  | .rmap w => Laws.RoundTrip.rmap w
  | .rcommit w => Laws.RoundTrip.rcommit w
  | .eret w => Laws.RoundTrip.eret w
  | .tlbi w => Laws.RoundTrip.tlbi w
  | .mig w => Laws.RoundTrip.mig w
  | .ctxld w => Laws.RoundTrip.ctxld w
  | .bdg w => Laws.RoundTrip.bdg w
  | .clauseBoundary t g => Laws.RoundTrip.clauseBoundary t g
  | .groupWaitRelease t g => Laws.RoundTrip.groupWaitRelease t g
  | .longLatencyArrival t g r => Laws.RoundTrip.longLatencyArrival t g r
  | .storeAcknowledged t g => Laws.RoundTrip.storeAcknowledged t g
  | .deferredAccessFault t g code addr detail lanes pc => Laws.RoundTrip.deferredAccessFault t g code addr detail lanes pc
  | .pageWalkComplete die cluster ctx va => Laws.RoundTrip.pageWalkComplete die cluster ctx va
  | .phaseSettleComplete t => Laws.RoundTrip.phaseSettleComplete t
  | .taskSpillEnqueue t => Laws.RoundTrip.taskSpillEnqueue t
  | .succSettleComplete t => Laws.RoundTrip.succSettleComplete t
  | .teamStartLoaded t => Laws.RoundTrip.teamStartLoaded t
  | .schedulingRound die => Laws.RoundTrip.schedulingRound die
  | .gangClusterClose die cluster => Laws.RoundTrip.gangClusterClose die cluster
  | .taskQueueScan die => Laws.RoundTrip.taskQueueScan die
  | .schedulerRestore ctx id => Laws.RoundTrip.schedulerRestore ctx id
  | .launchDoorbell q => Laws.RoundTrip.launchDoorbell q
  | .copyElementPerformed die unit slot n => Laws.RoundTrip.copyElementPerformed die unit slot n
  | .copyComplete id => Laws.RoundTrip.copyComplete id
  | .copyElementFault die unit slot n link => Laws.RoundTrip.copyElementFault die unit slot n link
  | .mcastDestinationFailure copy core => Laws.RoundTrip.mcastDestinationFailure copy core
  | .reducingElementArrival die unit slot n => Laws.RoundTrip.reducingElementArrival die unit slot n
  | .replayFilterExpiry site => Laws.RoundTrip.replayFilterExpiry site
  | .tileFillComplete t j => Laws.RoundTrip.tileFillComplete t j
  | .tileDrainComplete t j => Laws.RoundTrip.tileDrainComplete t j
  | .matrixUpdateComplete t j => Laws.RoundTrip.matrixUpdateComplete t j
  | .matrixFetchFault t => Laws.RoundTrip.matrixFetchFault t
  | .lanternTimeout t b => Laws.RoundTrip.lanternTimeout t b
  | .roostWake slice => Laws.RoundTrip.roostWake slice
  | .ctxcmdSave ctx => Laws.RoundTrip.ctxcmdSave ctx
  | .contextSaveWritten ctx => Laws.RoundTrip.contextSaveWritten ctx
  | .ctxcmdTerminate ctx => Laws.RoundTrip.ctxcmdTerminate ctx
  | .ctxcmdEngresume ctx die unit slot => Laws.RoundTrip.ctxcmdEngresume ctx die unit slot
  | .ctxcmdEngcancel ctx die unit slot => Laws.RoundTrip.ctxcmdEngcancel ctx die unit slot
  | .contextRegisterWrite ctx sel v => Laws.RoundTrip.contextRegisterWrite ctx sel v
  | .watchdog ctx detail => Laws.RoundTrip.watchdog ctx detail
  | .syscEnqueue t g => Laws.RoundTrip.syscEnqueue t g
  | .budgetPeriodEnd tenant => Laws.RoundTrip.budgetPeriodEnd tenant
  | .budgetUseExchange => Laws.RoundTrip.budgetUseExchange
  | .echoBufferDrain buf => Laws.RoundTrip.echoBufferDrain buf
  | .echoSinkWrite => Laws.RoundTrip.echoSinkWrite
  | .losslessStallTimeout t g => Laws.RoundTrip.losslessStallTimeout t g
  | .saturationReport die => Laws.RoundTrip.saturationReport die
  | .ptpMessage m => Laws.RoundTrip.ptpMessage m
  | .ppsEdge offset => Laws.RoundTrip.ppsEdge offset
  | .todLine line => Laws.RoundTrip.todLine line
  | .timeSourceLost => Laws.RoundTrip.timeSourceLost
  | .powerOnReset b => Laws.RoundTrip.powerOnReset b
  | .phimusFailure => Laws.RoundTrip.phimusFailure
  | .packageFatalError cause die => Laws.RoundTrip.packageFatalError cause die
  | .chipletLinkFailure die sides => Laws.RoundTrip.chipletLinkFailure die sides
  | .packetRetryReturn die unit slot n => Laws.RoundTrip.packetRetryReturn die unit slot n
  | .linkRetrainComplete die ok => Laws.RoundTrip.linkRetrainComplete die ok
  | .packageRecompute => Laws.RoundTrip.packageRecompute
  | .opptReq v => Laws.RoundTrip.opptReq v
  | .opptChangeComplete => Laws.RoundTrip.opptChangeComplete
  | .gateReq v => Laws.RoundTrip.gateReq v
  | .gateChangeComplete die => Laws.RoundTrip.gateChangeComplete die
  | .svcDrain die => Laws.RoundTrip.svcDrain die
  | .svcReadmit die => Laws.RoundTrip.svcReadmit die
  | .drainDeadline => Laws.RoundTrip.drainDeadline
  | .mgmtRegisterWrite ofs v => Laws.RoundTrip.mgmtRegisterWrite ofs v
  | .imageUpdate buf => Laws.RoundTrip.imageUpdate buf
  | .attestationReport nonce => Laws.RoundTrip.attestationReport nonce
  | .ualinkPeerRequest a => Laws.RoundTrip.ualinkPeerRequest a
  | .quantJobTake die => Laws.RoundTrip.quantJobTake die
  | .quantJobComplete die => Laws.RoundTrip.quantJobComplete die
  | .stallOperationComplete t g => Laws.RoundTrip.stallOperationComplete t g
  | .casiumLinkHostAccess a => Laws.RoundTrip.casiumLinkHostAccess a
  | .contextCreate c => Laws.RoundTrip.contextCreate c
  | .contextDestroy ctx => Laws.RoundTrip.contextDestroy ctx
  | .chipletReset die => Laws.RoundTrip.chipletReset die
  | .sliceLineWriteBack ctx va => Laws.RoundTrip.sliceLineWriteBack ctx va

/-- Settles O6: an instruction with a word is one whose own round trip holds. -/
theorem decodeEncode : Obligations.DecodeEncode := by
  intro i x hwf henc
  have h := roundTrip i
  rw [Laws.RoundTrip.Statement, henc] at h
  exact h hwf

theorem encode_marmOf (w : FR) : encode (marmOf w) = some (w.bits 0x14E#10) := by
  unfold marmOf
  split <;> rfl

/-- A word that parses is the word of the instruction it parses to. -/
theorem encode_of_parse {x : W64} {i : Instr} (h : parse x = some i) : encode i = some x := by
  unfold parse at h
  split at h
  case h_158 => cases h
  case h_109 hopc =>
    cases h
    rw [encode_marmOf, frOf_back hopc]
  all_goals
    rename_i hopc
    cases h
    simp [encode, hopc, frOf_back, fiOf_back, fmOf_back, fbOf_back, fsOf_back]

theorem decode_eq_ok {x : W64} {i : Instr} : decode x = .ok i ↔ parse x = some i ∧ i.wf = true := by
  unfold decode
  cases parse x with
  | none => simp
  | some j => by_cases hj : j.wf = true <;> simp [hj] <;> rintro rfl <;> simp [hj]

/-- Settles O7: a word that decodes parses, and its instruction is well formed. -/
theorem encodeDecode : Obligations.EncodeDecode := fun _ _ h =>
  ⟨encode_of_parse (decode_eq_ok.mp h).1, (decode_eq_ok.mp h).2⟩

theorem decode_eq_illegalOpcode {x : W64} : decode x = .error .illegalOpcode ↔ parse x = none := by
  unfold decode
  cases parse x with
  | none => simp
  | some j => by_cases hj : j.wf = true <;> simp [hj]

/-- The ranges of the opcode map (R115). -/
def opcodeRanges : List (Nat × Nat) :=
  [(0x000, 0x022), (0x024, 0x027), (0x040, 0x056), (0x060, 0x063), (0x080, 0x084), (0x0A0, 0x0A4), (0x0C0, 0x0C1), (0x100, 0x10F),
    (0x140, 0x152), (0x180, 0x187), (0x1A0, 0x1AB), (0x1B0, 0x1B5), (0x1E0, 0x1E7), (0x1F0, 0x1F2), (0x200, 0x206)]

/-- An opcode of the map has a word of its own. -/
theorem parse_isSome_of_listed {x : W64} {r : Nat × Nat} (hr : r ∈ opcodeRanges) (hlo : r.1 ≤ opcOf x) (hhi : opcOf x ≤ r.2) :
    (parse x).isSome = true := by
  unfold parse
  generalize opcOf x = n at *
  simp only [opcodeRanges, List.mem_cons, List.not_mem_nil, or_false] at hr
  rcases hr with rfl | rfl | rfl | rfl | rfl | rfl | rfl | rfl | rfl | rfl | rfl | rfl | rfl | rfl | rfl <;> simp only at hlo hhi <;>
    interval_cases n <;> rfl

/-- A word that parses has an opcode of the map. -/
theorem listed_of_parse {x : W64} {i : Instr} (h : parse x = some i) : ∃ r ∈ opcodeRanges, r.1 ≤ opcOf x ∧ opcOf x ≤ r.2 := by
  unfold parse at h
  split at h
  case h_158 => cases h
  all_goals
    rename_i hopc
    rw [hopc]
    decide

/-- Settles O8: the opcodes of the ranges are those that parse. -/
theorem opcodeMap : Obligations.OpcodeMap := by
  intro x
  rw [decode_eq_illegalOpcode]
  constructor
  · rintro hnone ⟨r, hr, hlo, hhi⟩
    have := parse_isSome_of_listed hr hlo hhi
    rw [hnone] at this
    cases this
  · intro hno
    cases hp : parse x with
    | none => rfl
    | some i => exact absurd (listed_of_parse hp) hno

/-- Settles O5: each word decodes by computation. -/
theorem exampleWords : Obligations.ExampleWords := by
  unfold Obligations.ExampleWords
  decide +kernel

end Sys2Proof.Machine
end

section
/-! The step and the issue of a word (R97, R98, R114, R116). Every word runs by `runWord` with an entry of its own shape; what is true of
`runWord` under every entry is so true of every word. -/

namespace Sys2Proof.Machine

/-- A choice between two effects of a word is one effect. -/
theorem ite_runWord (p : Prop) [Decidable p] (e : Entry) (v : View) (s : State) (f g : Iss → State → Except Exc State) :
    (if p then runWord e v s f else runWord e v s g) = runWord e v s (if p then f else g) := (apply_ite (runWord e v s) p f g).symm

/-- Every word runs by `runWord`, with an entry of its own shape. -/
theorem exec_word {i : Instr} {v : View} (h : i.view = some v) :
    ∃ e, Entry.sh e = i.shape v ∧ ∀ s, ∃ eff, exec i s = runWord e v s eff := by
  cases i <;> cases h <;> simp only [exec,
    execAdd, execSub, execAddc, execSubb, execMul, execMulh, execMad, execNeg, execAbs, execMin, execMax, execClamp, execDiv, execRem,
    execSad, execDot4, execAnd, execOr, execXor, execNot, execAndn, execLgc3, execShl, execShr, execSar, execRol, execBfx, execBfi, execPop,
    execClz, execCtz, execBrev, execCmp, execSel, execPset, execLea, execMov, execMovi, execMovh, execFadd, execFsub, execFmul, execFma,
    execFmin, execFmax, execFcmp, execFrnd, execFrcp, execFrsq, execFsqrt, execFex2, execFlg2, execFsin, execFcos, execFdiv, execFscale,
    execFclass, execPadd, execPmul, execPfma, execPmin, execPmax, execLmul, execLadd, execLsub, execLmax, execCvt, execPack, execUnpk,
    execBmax, execBscale, execShf, execVote, execRedx, execBcst, execScan, execRdsr, execWrsr, execBr, execJt, execLand, execCall,
    execCallt, execRet, execExit, execSplit, execJoin, execPhase, execSucc, execTrap, execBrk, execNop, execLoop, execSysc, execLd, execSt,
    execLds, execSts, execLdt, execUld, execPfx, execAtom, execRed, execCas, execAtomv, execRedv, execFence, execFencer, execMarm,
    execMarmCounted, execMwait, execWuc, execZln, execLqry, execMma, execMmx, execMzero, execMld, execDrain, execMrel, execMscl, execMrd,
    execCpy, execCpyo, execCpyr, execCpym, execCpys, execCseal, execCwait, execTbind, execTset, execTget, execTwait, execTrel, execBini,
    execBarv, execBarw, execBexp, execBdrop, execBget, execQenq, execQdeq, execQtry, execJdec, execJset, execSpawn, execQnt, execRcinv,
    execTrc, execTrcm, execCnt, execRmap, execRcommit, execEret, execTlbi, execMig, execCtxld, execBdg,
    runInt, runIntLater, runFlt, runPacked, runLns, runCtl, runLoad, runStore, runAtom, runVec, runCopy, runEnqueue, runVal, runLater, runReg, ite_runWord]
  all_goals exact ⟨_, rfl, fun _ => ⟨_, rfl⟩⟩

/-- With no group issuing a word stops in the model's own fault. -/
theorem exec_noGroup {i : Instr} {v : View} {s : State} (hv : i.view = some v) (h : s.iss? v (i.shape v) = none) :
    exec i s = .fault .noGroup := by
  obtain ⟨e, he, hrun⟩ := exec_word hv
  obtain ⟨eff, hx⟩ := hrun s
  rw [hx, runWord_none (by rw [he, h])]

/-- With a group issuing a word has a next state. -/
theorem exec_next {i : Instr} {v : View} {s : State} (hv : i.view = some v) (h : s.iss? v (i.shape v) ≠ none) :
    ∃ t, exec i s = .next t := by
  obtain ⟨e, he, hrun⟩ := exec_word hv
  obtain ⟨eff, hx⟩ := hrun s
  rw [hx]
  rcases runWord_cases (e := e) (v := v) (s := s) (eff := eff) with ⟨hnone, _⟩ | ⟨w, _, hcase⟩
  · exact absurd (he ▸ hnone) h
  · rcases hcase with ⟨_, _, ht⟩ | ⟨_, ht⟩ | ⟨_, _, _, ht⟩ | ⟨_, _, _, ht⟩ | ⟨_, _, _, ht⟩ <;> exact ⟨_, ht⟩

/-- A privileged word in a context without privilege fails step 2 of R114. -/
theorem issueChecks_permission {e : Entry} {w : Iss} (hp : w.sh.priv = true) (hc : w.c.priv = false) :
    issueChecks e w = .error { code := cPermission } := by
  simp [issueChecks, hp, hc]

/-- A word with a field that fails step 3 of R114. -/
theorem issueChecks_illegal {e : Entry} {w : Iss} (hp : w.sh.priv = true → w.c.priv = true) (henc : w.v.encOk w.sh = false) :
    issueChecks e w = .error { code := cIllegalEncoding } := by
  have : (w.sh.priv && !w.c.priv) = false := by cases h : w.sh.priv <;> simp_all
  simp [issueChecks, this, henc]

/-- A word that fails a check under every entry of its shape. -/
theorem exec_fault {i : Instr} {v : View} {s : State} {w : Iss} {x : Exc} (hv : i.view = some v) (hw : s.iss? v (i.shape v) = some w)
    (hx : ∀ e, issueChecks e w = .error x) : exec i s = .next (s.wordFault w x) := by
  obtain ⟨e, he, hrun⟩ := exec_word hv
  obtain ⟨eff, heff⟩ := hrun s
  rw [heff, runWord_fault (by rw [he, hw]) (hx e)]

/-- The privileged opcodes are those of R116. -/
theorem shape_priv_iff {i : Instr} {v : View} (hv : i.view = some v) :
    (i.shape v).priv = true ↔ v.opc = 0x0C1 ∨ (0x200 ≤ v.opc ∧ v.opc ≤ 0x206) := by
  cases i <;> cases hv <;>
    simp [Instr.shape, FR.view, FI.view, FM.view, FB.view, FS.view, Hdr.view, shAtom, shBar, shBdg, shBexp, shBget, shBini, shBmax, shBranch, shBscale, shCnt, shCopy, shCseal, shCtxld, shCvt, shCwait, shEret, shExit, shFence, shFencer, shFloat, shInt, shLand, shLane, shLdt, shLea, shLns, shLoad, shLoop, shLqry, shMarm, shMld, shMma, shMov, shMovh, shMovi, shMrd, shMrel, shMscl, shMwait, shMzero, shNop, shPack, shPfx, shPhase, shPset, shQueue, shRcinv, shRcommit, shRdsr, shRet, shRmap, shStore, shSucc, shSysc, shTable, shTbind, shTget, shTlbi, shTrap, shTrc, shTrel, shTset, shTwait, shUld, shWrsr, shWuc, shZln]

/-- Settles O9: privilege is the first check of R114, and the shapes of the opcodes of R116 alone ask for it. -/
theorem privilegedWords : Obligations.PrivilegedWords := by
  refine ⟨fun i v s w hv hopc hw hc => ?_, fun i v hv => shape_priv_iff hv⟩
  obtain ⟨-, hsh, -⟩ := State.iss?_some hw
  exact exec_fault hv hw fun e => issueChecks_permission (hsh ▸ (shape_priv_iff hv).mpr hopc) hc

/-- Settles O10: the encoding check follows the one of privilege. -/
theorem illegalEncodings : Obligations.IllegalEncodings := by
  intro i v s w hv hw hpriv henc
  obtain ⟨hwv, hsh, -⟩ := State.iss?_some hw
  subst hwv
  rw [← hsh] at hpriv henc
  exact exec_fault hv hw fun e => issueChecks_illegal hpriv henc

end Sys2Proof.Machine
end

section
/-! What a step does (R97, R98, R114), what stops it (R390), and what boot leaves (R392). The passing of time changes barrier clocks, counts and
deadlines only, so the word that is due is the same after it. -/

namespace Sys2Proof.Machine

/-- A context that boot leaves. -/
theorem mem_reset_ctxs {c : Ctx} (h : c ∈ State.reset.ctxs) : c = Ctx.zero := List.mem_singleton.mp h

/-- Settles O1: every conjunct is a field of the reset state. -/
theorem resetState : Obligations.ResetState := by
  refine ⟨⟨rfl, rfl, rfl, fun c hc => ?_, rfl, rfl, rfl, rfl, rfl, rfl, rfl, rfl⟩, rfl⟩
  rw [mem_reset_ctxs hc]
  decide

/-! ### Time -/

/-- A lookup of a group where every team is changed, but not in its number and its groups. -/
theorem State.grp?_mapTeams {s t : State} {f : Team → Team} (ht : t.teams = s.teams.map f) (hid : ∀ x, (f x).id = x.id)
    (hg : ∀ x, (f x).groups = x.groups) (k : Nat × Nat) : t.grp? k = s.grp? k := by
  have : t.team? k.1 = (s.team? k.1).map f := by
    unfold State.team?
    rw [ht]
    exact find?_map_key _ Team.id _ hid k.1
  unfold State.grp?
  rw [this]
  cases s.team? k.1 <;> simp [hg]

@[simp] theorem Team.cycles_id (t : Team) (n : Nat) : (t.cycles n).id = t.id := by unfold Team.cycles; split <;> rfl
@[simp] theorem Team.cycles_groups (t : Team) (n : Nat) : (t.cycles n).groups = t.groups := by unfold Team.cycles; split <;> rfl

@[simp] theorem State.grp?_clock (s : State) (k : Nat × Nat) : s.clock.grp? k = s.grp? k :=
  State.grp?_mapTeams rfl (fun _ => Team.cycles_id _ _) (fun _ => Team.cycles_groups _ _) k

@[simp] theorem State.grp?_pass (s : State) (n : Nat) (k : Nat × Nat) : (s.pass n).grp? k = s.grp? k :=
  State.grp?_mapTeams rfl (fun _ => by split <;> rfl) (fun _ => by split <;> rfl) k

@[simp] theorem State.grp?_tick (s : State) (k : Nat × Nat) : s.tick.grp? k = s.grp? k :=
  ((s.pass (Config.timeTicks s.freeN % 2 ^ 32)).grp?_clock k).trans (s.grp?_pass _ k)

@[simp] theorem State.tick_cur (s : State) : s.tick.cur = s.cur := rfl
@[simp] theorem State.tick_agenda (s : State) : s.tick.agenda = s.agenda := rfl
@[simp] theorem State.tick_cmds (s : State) : s.tick.cmds = s.cmds := rfl
@[simp] theorem State.tick_mem (s : State) : s.tick.mem = s.mem := rfl

@[simp] theorem State.tick_nextWord (s : State) : s.tick.nextWord = s.nextWord := by simp [State.nextWord]

/-! ### One turn -/

theorem step_eq {s : State} (h : s.heldNow = false) : step s = preempted s.tick.act := by simp [step, h]

theorem State.act_event {s : State} {i : Instr} {rest : List Instr} (h : s.agenda = i :: rest) (hv : i.view = none) :
    s.act = exec i { s with agenda := rest } := by simp [State.act, h, hv]

theorem State.act_cmd {s : State} {i : Instr} {rest : List Instr} (ha : s.agenda = []) (h : s.cmds = i :: rest) :
    s.act = exec i { s with cmds := rest } := by simp [State.act, ha, h]

theorem State.act_word {s : State} {x : W64} (ha : s.agenda = []) (hc : s.cmds = []) (h : s.nextWord = some x) : s.act = s.issue x := by
  simp [State.act, ha, hc, h]

/-- A word that the map does not list, at the group that is issuing. -/
theorem State.issue_unlisted {s : State} {x : W64} {id : Nat × Nat} {g : Group} (hp : parse x = none) (hc : s.cur = some id)
    (hg : s.grp? id = some g) : s.issue x = .next (s.takeFault id { code := cIllegalOpcode } g.wordPc g.pc g.pos false) := by
  simp [State.issue, hp, State.unlisted, hc, hg]

/-- Settles O3: the passing of time leaves the agenda, the commands and the next word. -/
theorem stepRuns : Obligations.StepRuns := by
  refine ⟨fun s x i hh ha hc hx hp => ?_, ⟨fun s i rest hh ha hv => ?_, fun s i rest hh ha hc => ?_⟩, fun s x id g hh ha hc hcur hg hx hp => ?_⟩
  · rw [step_eq hh, State.act_word (s := s.tick) ha hc (s.tick_nextWord.trans hx)]
    simp [State.issue, hp]
  · rw [step_eq hh, State.act_event (s := s.tick) ha hv]
  · rw [step_eq hh, State.act_cmd (s := s.tick) ha hc]
  · have hw : s.tick.nextWord = some x := by rw [State.nextWord, State.tick_cur, hcur, Option.bind_some, hg, Option.bind_some, hx]
    rw [step_eq hh, State.act_word (s := s.tick) ha hc hw, State.issue_unlisted (s := s.tick) hp hcur hg]
    rfl

/-! ### The stops -/

theorem State.heldNow_of_held {s : State} (h : s.pkg.phimus.held = true) (ha : ∀ b rest, s.agenda ≠ .powerOnReset b :: rest) :
    s.heldNow = true := by
  unfold State.heldNow
  rw [h, Bool.true_and]
  split
  · rename_i b rest hb
    exact absurd hb (ha b rest)
  · rfl

theorem State.heldNow_powerOnReset {s : State} {b : BootIn} {rest : List Instr} (h : s.agenda = .powerOnReset b :: rest) :
    s.heldNow = false := by simp [State.heldNow, h]

/-- Settles O4: a word stops only where no group issues, and the package only where Phimus holds it. -/
theorem modelStops : Obligations.ModelStops := by
  refine ⟨⟨fun s hh ha => ?_, fun s b rest ha => ?_⟩, fun i v s hv => ⟨exec_noGroup hv, exec_next hv⟩⟩
  · simp [step, State.heldNow_of_held hh ha]
  · rw [step_eq (State.heldNow_powerOnReset ha), State.act_event (s := s.tick) ha rfl]
    exact ⟨_, rfl⟩

end Sys2Proof.Machine
end

section
/-! What leaves memory as it is: each operation on the state that stores nothing, in the order in which they call each other. An operation that
goes through a list leaves memory where every step of it does. -/

namespace Sys2Proof.Machine

/-- Going through a list leaves memory where each step does. -/
theorem foldl_mem {α : Type} {f : State → α → State} (h : ∀ s x, (f s x).mem = s.mem) (l : List α) (s : State) :
    (l.foldl f s).mem = s.mem := by
  induction l generalizing s with
  | nil => rfl
  | cons x l ih => rw [List.foldl_cons, ih, h]
@[simp] theorem State.advance_mem (s : State) (w : Iss) : (s.advance w).mem = s.mem := rfl
@[simp] theorem State.tlbFill_mem (s : State) (e : TlbEntry) : (s.tlbFill e).mem = s.mem := rfl
@[simp] theorem State.coreFill_mem (s : State) (c : Ctx) (core : Nat) (id : Nat × Nat) (va : Nat) : (s.coreFill c core id va).mem = s.mem := by
  unfold State.coreFill
  (repeat' split) <;> simp
@[simp] theorem State.countWalks_mem (s : State) (id : Nat × Nat) (x : Exc) (pages : List Nat) : (s.countWalks id x pages).mem = s.mem := by
  unfold State.countWalks
  split <;> simp
@[simp] theorem State.freezeStall_mem (s : State) (w : Iss) : (s.freezeStall w).mem = s.mem := rfl
@[simp] theorem State.bumpSeq_mem (s : State) (die : Nat) : (s.bumpSeq die).mem = s.mem := rfl
@[simp] theorem State.emitHub_mem (s : State) (die unit code tag : Nat) (payload : W32) :
    (s.emitHub die unit code tag payload).mem = s.mem := by
  unfold State.emitHub
  split <;> simp
@[simp] theorem State.capEvent_mem (s : State) (tenant bcls act hub : Nat) (hard : Bool) :
    (s.capEvent tenant bcls act hub hard).mem = s.mem := by simp [State.capEvent]
@[simp] theorem State.chargeRaw_mem (s : State) (tenant bcls act hub n : Nat) : (s.chargeRaw tenant bcls act hub n).mem = s.mem := rfl
@[simp] theorem State.hardCap_mem (s : State) (tenant bcls act hub : Nat) : (s.hardCap tenant bcls act hub).mem = s.mem := by simp [State.hardCap]
@[simp] theorem State.dropEv_mem (s : State) (die unit tag : Nat) : (s.dropEv die unit tag).mem = s.mem := rfl
@[simp] theorem State.writeBack_mem (s : State) (x : SliceLine) : (s.writeBack x).mem = s.mem := rfl
@[simp] theorem State.bring_mem (s : State) (cmp : Option Bool) (line : Nat) : (s.bring cmp line).mem = s.mem := by
  obtain ⟨_, _, h⟩ := s.bring_frame cmp line
  rw [h]
theorem State.placeOne_mem {s t : State} {c : Copy} (h : s.placeOne c = some t) : t.mem = s.mem := by
  unfold State.placeOne at h
  obtain ⟨p, -, rfl⟩ := Option.map_eq_some_iff.mp h
  simp

theorem State.placeLoop_mem (n : Nat) (s : State) : (s.placeLoop n).mem = s.mem := by
  induction n generalizing s with
  | zero => rfl
  | succ n ih =>
    unfold State.placeLoop
    split
    · rename_i t ht
      obtain ⟨c, -, hc⟩ := List.exists_of_findSome?_eq_some ht
      rw [ih]
      split at hc
      · exact State.placeOne_mem hc
      · cases hc
    · rfl

@[simp] theorem State.placeAll_mem (s : State) : (s.placeAll).mem = s.mem := State.placeLoop_mem _ _
@[simp] theorem State.dropCopies_mem (s : State) (p : Copy → Bool) : (s.dropCopies p).mem = s.mem := by simp [State.dropCopies]
@[simp] theorem State.dropUnreached_mem (s : State) : (s.dropUnreached).mem = s.mem := by
  unfold State.dropUnreached
  dsimp only
  split <;> simp
@[simp] theorem State.loseDest_mem (s : State) (team : Nat) (killed : Bool) : (s.loseDest team killed).mem = s.mem := by simp [State.loseDest]
@[simp] theorem State.emitStall_mem (s : State) (core code tag : Nat) (payload : W32) : (s.emitStall core code tag payload).mem = s.mem := by simp [State.emitStall]
@[simp] theorem State.endStall_mem (s : State) (t : Team) (g : Group) : (s.endStall t g).mem = s.mem := by
  unfold State.endStall
  split <;> simp
@[simp] theorem State.endStalls_mem (s : State) (id : Nat) : (s.endStalls id).mem = s.mem := by
  obtain ⟨_, h⟩ := s.endStalls_form id
  rw [h]
@[simp] theorem State.testDrained_mem (s : State) : (s.testDrained).mem = s.mem := rfl
@[simp] theorem State.addMiss_mem (s : State) (m : Miss) : (s.addMiss m).mem = s.mem := rfl
@[simp] theorem State.startWalk_mem (s : State) (c : Ctx) (core : Nat) (id : Nat × Nat) (page : Nat) :
    (s.startWalk c core id page).mem = s.mem := by
  unfold State.startWalk
  (repeat' split) <;> simp
@[simp] theorem State.startWalks_mem (s : State) (c : Ctx) (core : Nat) (id : Nat × Nat) (pages : List Nat) :
    (s.startWalks c core id pages).mem = s.mem := foldl_mem (fun _ _ => by simp) _ _
@[simp] theorem State.walkStall_mem (s : State) (w : Iss) (pages : List Nat) : (s.walkStall w pages).mem = s.mem := by simp [State.walkStall]
@[simp] theorem State.unissue_mem (s : State) (w : Iss) : (s.unissue w).mem = s.mem := rfl
@[simp] theorem State.retry_mem (s : State) (w : Iss) : (s.retry w).mem = s.mem := rfl
@[simp] theorem State.acquire_mem (s : State) (t : Team) (core sc : Nat) : (s.acquire t core sc).mem = s.mem := rfl
@[simp] theorem State.l1Touch_mem (s : State) (fused : Bool) (core pa n : Nat) : (s.l1Touch fused core pa n).mem = s.mem := rfl
@[simp] theorem State.logLines_mem (s : State) (code : Nat) (lines : List Nat) : (s.logLines code lines).mem = s.mem := rfl
@[simp] theorem State.poisonLines_mem (s : State) (bad : List Nat) : (s.poisonLines bad).mem = s.mem := rfl
@[simp] theorem State.markPoison_mem (s : State) (t : Target) (n : Nat) : (s.markPoison t n).mem = s.mem := by
  unfold State.markPoison
  split <;> simp
@[simp] theorem State.lsWrite_mem (s : State) (team core off : Nat) (bs : List Byte) : (s.lsWrite team core off bs).mem = s.mem := rfl
@[simp] theorem State.endClause_mem (s : State) (w : Iss) (f : Group → Group) : (s.endClause w f).mem = s.mem := rfl
@[simp] theorem State.endWait_mem (s : State) (w : Iss) (wt : GWait) : (s.endWait w wt).mem = s.mem := rfl
@[simp] theorem State.stall_mem (s : State) (w : Iss) : (s.stall w).mem = s.mem := rfl
@[simp] theorem State.countConv_mem (s : State) (id : Nat × Nat) (sat nar bytes : Nat) : (s.countConv id sat nar bytes).mem = s.mem := rfl
@[simp] theorem State.pass_mem (s : State) (n : Nat) : (s.pass n).mem = s.mem := rfl
@[simp] theorem State.softMet_mem (s : State) (r : Row) (hub : Nat) : (s.softMet r hub).mem = s.mem := foldl_mem (fun _ _ => by simp) _ _
@[simp] theorem State.answer_mem (s : State) (peer ok : Bool) (bs : List Byte) : (s.answer peer ok bs).mem = s.mem := rfl
@[simp] theorem State.outsideRead_mem (s : State) (pa n : Nat) : (s.outsideRead pa n).mem = s.mem := rfl
@[simp] theorem State.clearDie_mem (s : State) (die : Nat) : (s.clearDie die).mem = s.mem := rfl
@[simp] theorem State.notice_mem (s : State) (ctx va pa : Nat) : (s.notice ctx va pa).mem = s.mem := by simp [State.notice]
@[simp] theorem State.post_mem (s : State) (team : Nat) (p : Posting) : (s.post team p).mem = s.mem := by
  unfold State.post
  (repeat' split) <;> simp
@[simp] theorem State.endDest_mem (s : State) (c : Copy) (d : Nat × Nat) (abort : Bool) (st : TileSt) :
    (s.endDest c d abort st).mem = s.mem := by
  unfold State.endDest
  dsimp only
  (repeat' split) <;> simp
@[simp] theorem State.poisonAt_mem (s : State) (c : Ctx) (own : Option (Team × Nat)) (va : Nat) : (s.poisonAt c own va).mem = s.mem := by
  unfold State.poisonAt
  split <;> simp
@[simp] theorem State.l1Fill_mem (s : State) (home ctx va bits pa : Nat) : (s.l1Fill home ctx va bits pa).mem = s.mem := rfl
@[simp] theorem State.freezeGroup_mem (s : State) (id : Nat × Nat) : (s.freezeGroup id).mem = s.mem := rfl
@[simp] theorem State.meetBarrier_mem (s : State) (t : Team) (g : Group) : (s.meetBarrier t g).mem = s.mem := rfl
@[simp] theorem State.meetCopies_mem (s : State) (t : Team) (g : Group) : (s.meetCopies t g).mem = s.mem := rfl
@[simp] theorem State.takeTile_mem (s : State) (id : Option Nat) (team half tile : Nat) : (s.takeTile id team half tile).mem = s.mem := rfl
@[simp] theorem State.startFill_mem (s : State) (team half i grp : Nat) (pc : W64) : (s.startFill team half i grp pc).mem = s.mem := rfl
@[simp] theorem State.stepTiles_mem (s0 : State) (id : Nat × Nat) : (s0.stepTiles id).mem = s0.mem := by
  unfold State.stepTiles
  dsimp only
  split
  · split <;> exact foldl_mem (fun _ _ => by split <;> simp) _ _
  · simp
@[simp] theorem State.stepWait_mem (s : State) (id : Nat × Nat) : (s.stepWait id).mem = s.mem := by
  unfold State.stepWait
  dsimp only
  (repeat' split) <;> simp
@[simp] theorem State.disarm_mem (s : State) (team grp : Nat) : (s.disarm team grp).mem = s.mem := rfl
@[simp] theorem State.disarmTeam_mem (s : State) (t : Team) : (s.disarmTeam t).mem = s.mem := foldl_mem (fun _ _ => by simp) _ _
@[simp] theorem State.unhalt_mem (s : State) (x : Cand) : (s.unhalt x).mem = s.mem := rfl
@[simp] theorem State.setTiles_mem (s : State) (c : Copy) (st : TileSt) : (s.setTiles c st).mem = s.mem := by
  unfold State.setTiles
  split
  · rfl
  · exact foldl_mem (fun _ _ => by simp) _ _
@[simp] theorem State.countAt_mem (s : State) (die unit sat nar : Nat) : (s.countAt die unit sat nar).mem = s.mem := rfl
@[simp] theorem State.noteWrote_mem (s : State) (c : Copy) (lines : List Nat) : (s.noteWrote c lines).mem = s.mem := by
  unfold State.noteWrote
  split <;> simp
@[simp] theorem State.unitDone_mem (s : State) (k : Cmd) (u : Nat) : (s.unitDone k u).mem = s.mem := by
  unfold State.unitDone
  dsimp only
  split <;> simp
@[simp] theorem State.fillTiles_mem (s : State) (c : Copy) : (s.fillTiles c).mem = s.mem := by
  unfold State.fillTiles
  split
  · rfl
  · exact foldl_mem (fun _ _ => by simp) _ _
@[simp] theorem State.touchTile_mem (s : State) (w : Iss) (i : Nat) : (s.touchTile w i).mem = s.mem := rfl
@[simp] theorem State.touchDest_mem (s : State) (c : Copy) (i : Iss) : (s.touchDest c i).mem = s.mem := by
  unfold State.touchDest
  (repeat' split) <;> simp
@[simp] theorem State.addRetire_mem (s : State) (team : Nat) (r : Option Retire) : (s.addRetire team r).mem = s.mem := by
  unfold State.addRetire
  split <;> simp
@[simp] theorem State.beginSingle_mem (s : State) (t : Team) (lines : List Nat) : (s.beginSingle t lines).mem = s.mem := rfl
@[simp] theorem State.dropHeld_mem (s : State) (t : Team) : (s.dropHeld t).mem = s.mem := rfl
@[simp] theorem State.deadlineTeam_mem (s : State) (t : Team) : (s.deadlineTeam t).mem = s.mem := by
  unfold State.deadlineTeam
  (repeat' split) <;> simp
@[simp] theorem State.setSettle_mem (s : State) (id : Nat) (f : SettleFor) : (s.setSettle id f).mem = s.mem := rfl
@[simp] theorem State.acquireRange_mem (s : State) (t : Team) (core sc base len : Nat) : (s.acquireRange t core sc base len).mem = s.mem := by
  unfold State.acquireRange
  split <;> simp
@[simp] theorem State.linksUp_mem (s : State) (die : Nat) : (s.linksUp die).mem = s.mem := rfl
@[simp] theorem State.gateWrite_mem (s : State) (v : BitVec 14) : (s.gateWrite v).mem = s.mem := rfl
@[simp] theorem State.freeWait_mem (s : State) (id : Nat × Nat) : (s.freeWait id).mem = s.mem := rfl
@[simp] theorem State.disarmQ_mem (s : State) (team grp : Nat) : (s.disarmQ team grp).mem = s.mem := rfl
@[simp] theorem State.arm_mem (s : State) (kind : RoostKind) (t : Team) (g : Group) (pa : Nat) : (s.arm kind t g pa).mem = s.mem := by
  unfold State.arm
  dsimp only
  split <;> simp
@[simp] theorem State.wucTurn_mem (s : State) (id : Nat × Nat) : (s.wucTurn id).mem = s.mem := by
  unfold State.wucTurn
  dsimp only
  (repeat' split) <;> simp
@[simp] theorem State.lsPass_mem (s : State) (w : Iss) (ls : Bool) (n : Nat) : (s.lsPass w ls n).mem = s.mem := by
  unfold State.lsPass
  split <;> simp
@[simp] theorem State.vacate_mem (s : State) (t : Team) (l : Leave) : (s.vacate t l).mem = s.mem := by simp [State.vacate]
@[simp] theorem State.echoWrite_mem (s : State) (ofs v : Nat) : (s.echoWrite ofs v).mem = s.mem := by
  unfold State.echoWrite
  (repeat' split) <;> simp
@[simp] theorem State.opptWrite_mem (s : State) (v : BitVec 2) : (s.opptWrite v).mem = s.mem := by
  unfold State.opptWrite
  (repeat' split) <;> simp
@[simp] theorem State.drainStart_mem (s : State) (die : Nat) : (s.drainStart die).mem = s.mem := by
  unfold State.drainStart
  split <;> simp
@[simp] theorem State.drainStop_mem (s : State) (die : Nat) : (s.drainStop die).mem = s.mem := rfl
@[simp] theorem State.svcWrite_mem (s : State) (drain : Bool) (die : Nat) : (s.svcWrite drain die).mem = s.mem := by
  unfold State.svcWrite
  split <;> simp
@[simp] theorem State.freeze_mem (s : State) (i : Iss) (ctx : Nat) (page : Option (Nat × Nat × Nat)) : (s.freeze i ctx page).mem = s.mem := rfl
@[simp] theorem State.bringRows_mem (s : State) (rows : List (Nat × Nat × List (Target × Nat))) : (s.bringRows rows).mem = s.mem := foldl_mem (fun _ _ => foldl_mem (fun _ _ => by split <;> simp) _ _) _ _
@[simp] theorem mmaEff_mem (w : Iss) (r : Option Retire) (s : State) : (mmaEff w r s).mem = s.mem := (State.addRetire_mem _ _ _).trans rfl
@[simp] theorem State.pwcFill_mem (s : State) (e : PwcEntry) : (s.pwcFill e).mem = s.mem := rfl
@[simp] theorem State.pwcWalk_mem (s : State) (die : Nat) (c : Ctx) (va : Nat) : (s.pwcWalk die c va).mem = s.mem := foldl_mem (fun _ _ => by simp) _ _
@[simp] theorem State.prefetch_mem (s : State) (w : Iss) (l1 : Bool) (va : Nat) : (s.prefetch w l1 va).mem = s.mem := by
  unfold State.prefetch
  dsimp only
  (repeat' split) <;> simp
@[simp] theorem State.leaveCore_mem (s : State) (t : Team) : (s.leaveCore t).mem = s.mem := by simp [State.leaveCore]
@[simp] theorem State.acquireTeam_mem (s : State) (t : Team) : (s.acquireTeam t).mem = s.mem := foldl_mem (fun _ _ => by simp) _ _
@[simp] theorem State.emitTime_mem (s : State) (code : Nat) (payload : Nat) : (s.emitTime code payload).mem = s.mem := by simp [State.emitTime]
@[simp] theorem State.timeTo_mem (s : State) (st : TimeSt) : (s.timeTo st).mem = s.mem := by
  unfold State.timeTo
  split <;> simp
@[simp] theorem State.timeUpdate_mem (s : State) (offset : Int) : (s.timeUpdate offset).mem = s.mem := by
  unfold State.timeUpdate
  dsimp only
  (repeat' split) <;> simp
@[simp] theorem State.delayResp_mem (s : State) (at_ : Int) (origin : Nat) : (s.delayResp at_ origin).mem = s.mem := rfl
@[simp] theorem State.followUp_mem (s : State) (at_ : Int) (origin : Nat) : (s.followUp at_ origin).mem = s.mem := by
  unfold State.followUp
  dsimp only
  (repeat' split) <;> simp
@[simp] theorem State.receive_mem (s : State) (i : Iss) (num : Nat) (item : List Byte) : (s.receive i num item).mem = s.mem := rfl
@[simp] theorem State.noteTask_mem (s : State) (c : Ctx) (va : Nat) (bs : List Byte) : (s.noteTask c va bs).mem = s.mem := by
  unfold State.noteTask
  (repeat' split) <;> simp
@[simp] theorem State.ringTouch_mem (s : State) (t : Team) (core slot hdr : Nat) (area : List (Nat × Nat)) :
    (s.ringTouch t core slot hdr area).mem = s.mem := foldl_mem (fun _ _ => by simp) _ _
@[simp] theorem State.fuse_mem (s : State) (k : KDesc) (core : Nat) : (s.fuse k core).mem = s.mem := by
  unfold State.fuse
  dsimp only
  split <;> simp
@[simp] theorem State.seat_mem (s : State) (t : Team) : (s.seat t).mem = s.mem := by simp [State.seat]
@[simp] theorem State.grantImage_mem (s : State) (x : Cand) (hub : Nat) : (s.grantImage x hub).mem = s.mem := by
  unfold State.grantImage
  (repeat' split) <;> simp
@[simp] theorem State.idleSave_mem (s : State) (hub : Nat) (cls : Cls) : (s.idleSave hub cls).mem = s.mem := by
  unfold State.idleSave
  (repeat' split) <;> simp
@[simp] theorem State.placeGang_mem (s : State) (g : Gang) : (s.placeGang g).mem = s.mem := by
  unfold State.placeGang
  split
  · rfl
  · dsimp only
    split
    · exact foldl_mem (fun _ _ => by simp) _ _
    · exact foldl_mem (fun _ _ => by simp) _ _
@[simp] theorem State.remember_mem (s : State) (t : Team) : (s.remember t).mem = s.mem := rfl
@[simp] theorem State.bringAll_mem (s : State) (lines : List Nat) : (s.bringAll lines).mem = s.mem := foldl_mem (fun _ _ => by simp) _ _
@[simp] theorem State.clearWhole_mem (s : State) (ts : List (Nat × Target)) (n : Nat) : (s.clearWhole ts n).mem = s.mem := by simp [State.clearWhole]
@[simp] theorem State.fireRoost_mem (s : State) (p : Roost → Bool) : (s.fireRoost p).mem = s.mem := rfl
@[simp] theorem State.install_mem (s : State) (c : Ctx) : (s.install c).mem = s.mem := rfl
@[simp] theorem State.dropVa_mem (s : State) (c : Ctx) (va : Nat) : (s.dropVa c va).mem = s.mem := rfl
@[simp] theorem State.freezeRetry_mem (s : State) (w : Iss) : (s.freezeRetry w).mem = s.mem := rfl
@[simp] theorem State.takePosts_mem (s : State) (id : Nat) : (s.takePosts id).mem = s.mem := foldl_mem (fun _ _ => by simp) _ _
@[simp] theorem State.dropJob_mem (s : State) (id j : Nat) : (s.dropJob id j).mem = s.mem := rfl
@[simp] theorem State.metFetch_mem (s : State) (id : Nat) (grp : Nat) (x : Exc) (pc : W64) : (s.metFetch id grp x pc).mem = s.mem := rfl
@[simp] theorem State.putImage_mem (s : State) (team half base : Nat) (swizzle : Bool) (img : List (Byte × Bool)) :
    (s.putImage team half base swizzle img).mem = s.mem := rfl
@[simp] theorem State.invalWait_mem (s : State) (i : Iss) (ctx : Nat) (all : Bool) : (s.invalWait i ctx all).mem = s.mem := rfl
@[simp] theorem State.tlbiVa_mem (s : State) (c : Ctx) (va : Nat) : (s.tlbiVa c va).mem = s.mem := rfl
@[simp] theorem State.clock_mem (s : State) : (s.clock).mem = s.mem := rfl
end Sys2Proof.Machine
end

section
/-! What leaves memory as it is, of the operations that answer more than a state: charges, reads, fetches, and the checks of copies and fills. -/

namespace Sys2Proof.Machine

/-! ### What an operation answers where it goes through -/

/-- Whatever the operation answers where it goes through satisfies p. -/
def okAll {ε α : Type} (p : α → Prop) (x : Except ε α) : Prop := ∀ a, x = .ok a → p a

section
variable {ε α β : Type} {p : α → Prop}

@[simp] theorem okAll_ok {a : α} : okAll p (.ok a : Except ε α) ↔ p a := ⟨fun h => h a rfl, fun h b hb => by cases hb; exact h⟩
@[simp] theorem okAll_pure {a : α} : okAll p (pure a : Except ε α) ↔ p a := okAll_ok
@[simp] theorem okAll_error {x : ε} : okAll p (.error x : Except ε α) := fun _ h => by cases h
@[simp] theorem okAll_throw {x : ε} : okAll p (throw x : Except ε α) := okAll_error

/-- What follows an operation is reached with its answer only. -/
theorem okAll_bind {x : Except ε β} {f : β → Except ε α} (h : ∀ b, x = .ok b → okAll p (f b)) : okAll p (x >>= f) := by
  cases x with
  | error e => exact okAll_error
  | ok b => exact h b rfl

/-- The same where the answer does not matter. -/
theorem okAll_then {x : Except ε β} {f : β → Except ε α} (h : ∀ b, okAll p (f b)) : okAll p (x >>= f) := okAll_bind fun b _ => h b

/-- A check that is made under a condition, before what follows in any case. -/
theorem okAll_check {q : Prop} [Decidable q] {x : Except ε Unit} {f : Unit → Except ε α} (h : ∀ r, okAll p (f r)) :
    okAll p (if q then x >>= f else f ()) := by
  split
  · exact okAll_then h
  · exact h ()

/-- A check whose answer is not used. -/
theorem okAll_skip {q : Prop} [Decidable q] {x : Except ε β} {y : Except ε α} (h : okAll p y) :
    okAll p (if q then x >>= fun _ => y else y) := by
  split
  · exact okAll_then fun _ => h
  · exact h

/-- Two ways to an answer, before what follows in any case. -/
theorem okAll_either {q : Prop} [Decidable q] {x y : Except ε β} {f : β → Except ε α} (h : ∀ r, okAll p (f r)) :
    okAll p (if q then x >>= f else y >>= f) := by
  split <;> exact okAll_then h

theorem okAll_ite {q : Prop} [Decidable q] {x y : Except ε α} (hx : okAll p x) (hy : okAll p y) : okAll p (if q then x else y) := by
  split <;> assumption

theorem okAll_map {x : Except ε β} {f : β → α} (h : ∀ b, x = .ok b → p (f b)) : okAll p (x.map f) := by
  cases x with
  | error e => exact okAll_error
  | ok b => exact okAll_ok.mpr (h b rfl)

theorem okAll_mono {q : α → Prop} {x : Except ε α} (h : okAll p x) (hq : ∀ a, p a → q a) : okAll q x := fun a ha => hq a (h a ha)

end

/-! ### Charges -/

@[simp] theorem State.charge_mem (s : State) (tenant bcls act hub n : Nat) : (s.charge tenant bcls act hub n).2.mem = s.mem := by
  unfold State.charge
  split
  · simp
  · rfl
  · dsimp only
    split <;> simp

@[simp] theorem State.sliceCharge_mem (s : State) (w : Iss) (t : Target) : (s.sliceCharge w t).2.mem = s.mem := by
  unfold State.sliceCharge
  split
  · split <;> simp
  · rfl

theorem State.chargeOr_mem (s : State) (c : Copy) (act hub n addr : Nat) : okAll (fun t => t.mem = s.mem) (s.chargeOr c act hub n addr) := by
  have h := s.charge_mem c.tenant c.bcls act hub n
  unfold State.chargeOr
  split <;> simp_all

theorem State.payUnit_mem (s : State) (t : Team) (die : Nat) (conv : Bool) (n addr : Nat) :
    okAll (fun u => u.mem = s.mem) (s.payUnit t die conv n addr) := by
  have one : ∀ (s : State) (act : Nat), okAll (fun u => u.mem = s.mem) (match s.charge t.tenant t.bcls act (chamberOf die) n with
      | (.ok, s1) => Except.ok s1
      | (.soft, _) => .error none
      | (.hard, _) => .error (some ({ code := cBudgetViolation, addr := addr, detail := act } : Exc))) := fun s act => by
    have h := s.charge_mem t.tenant t.bcls act (chamberOf die) n
    split <;> simp_all
  unfold State.payUnit
  refine okAll_bind fun u hu => ?_
  have hu := one s actCopy u hu
  split
  · exact okAll_mono (one u actSiphon) fun _ h => h.trans hu
  · exact okAll_ok.mpr hu

/-! ### Reads and fetches -/

@[simp] theorem State.readHome_mem (s : State) (id : Nat × Nat) (t : Team) (c : Ctx) (core va : Nat) (tg : Target) (n : Nat) (cache : Bool) :
    (s.readHome id t c core va tg n cache).2.mem = s.mem := by
  unfold State.readHome
  split
  · rfl
  · split
    · simp
    · dsimp only
      (repeat' split) <;> simp

@[simp] theorem State.readCore_mem (s : State) (id : Nat × Nat) (t : Team) (c : Ctx) (core va : Nat) (tg : Target) (n : Nat) (cache : Bool) :
    (s.readCore id t c core va tg n cache).2.mem = s.mem := by
  unfold State.readCore
  split
  · rfl
  · dsimp only
    (repeat' split) <;> simp

@[simp] theorem State.readOne_mem (s : State) (w : Iss) (va : Nat) (t : Target) (n : Nat) (cache : Bool) :
    (s.readOne w va t n cache).2.mem = s.mem := s.readCore_mem _ _ _ _ _ _ _ _

@[simp] theorem State.readMany_mem (w : Iss) (addr : Nat → Nat) (n : Nat) (cache : Bool) (s : State) (ts : List (Nat × Target)) :
    (State.readMany w addr n cache s ts).1.mem = s.mem := by
  induction ts generalizing s with
  | nil => rfl
  | cons p ts ih =>
    unfold State.readMany
    dsimp only
    split <;> simp [ih]

@[simp] theorem State.fetchWord_mem (s : State) (id : Nat × Nat) (c : Ctx) (t : Team) (va : Nat) : (s.fetchWord id c t va).2.mem = s.mem := by
  unfold State.fetchWord
  dsimp only
  (repeat' split) <;> simp

@[simp] theorem State.fetchWords_mem (s : State) (id : Nat × Nat) (c : Ctx) (t : Team) (vas : List Nat) :
    (s.fetchWords id c t vas).2.mem = s.mem := by
  induction vas generalizing s with
  | nil => rfl
  | cons va vas ih =>
    have h := s.fetchWord_mem id c t va
    unfold State.fetchWords
    split <;> simp_all

@[simp] theorem State.fetchClause_mem (s : State) (id : Nat × Nat) (c : Ctx) (t : Team) (g : Group) :
    (s.fetchClause id c t g).2.mem = s.mem := by
  have h := s.fetchWord_mem id c t g.pc.toNat
  unfold State.fetchClause
  dsimp only
  split
  · simp_all
  · split <;> simp_all

theorem State.shapeRead_mem (s : State) (c : Ctx) (own : Option (Team × Nat)) (core : Nat) (late : List Late) (va : Nat) (c0 : Int) :
    okAll (fun q => q.2.mem = s.mem) (s.shapeRead c own core late va c0) := by
  unfold State.shapeRead
  dsimp only
  (repeat' first | split | refine okAll_then fun _ => ?_) <;> simp

theorem State.fillPlan_mem (s : State) (c : Ctx) (own : Option (Team × Nat)) (core : Nat) (late : List Late) (rcp : Nat) :
    okAll (fun q => q.2.mem = s.mem) (s.fillPlan c own core late rcp) := by
  unfold State.fillPlan
  dsimp only
  refine okAll_then fun bs => okAll_bind fun rd hrd => ?_
  have hrd := s.shapeRead_mem c own core late _ _ rd hrd
  (repeat' first | split | refine okAll_then fun _ => ?_) <;> simp [hrd]

/-! ### Choices of the schedulers and engines -/

theorem State.nextQuant_mem {s t : State} {die : Nat} {q : Ctx × QRef} (h : s.nextQuant die = some (q, t)) : t.mem = s.mem := by
  unfold State.nextQuant at h
  dsimp only at h
  split at h
  · cases h
  · obtain ⟨x, -, hx⟩ := Option.map_eq_some_iff.mp h
    cases hx
    rfl

@[simp] theorem State.choose_mem (s : State) (hub : Nat) (cls : Cls) (os : List Offer) : (s.choose hub cls os).2.mem = s.mem := by
  unfold State.choose
  dsimp only
  split <;> rfl

/-! ### Copies -/

/-- The checks of a copy word read only, and the copy they give is one of the word's own kind. -/
theorem cpCheck_op_mem (c : CpIn) (s : State) (i : Iss) : okAll (fun q => q.1.op = c.op ∧ q.2.mem = s.mem) (cpCheck c s i) := by
  have key : okAll (fun q => q.2.mem = s.mem)
      (if c.op = .cpyo then s.shapeRead i.c i.own i.core i.g.late (if c.scatter then c.dst else c.src) 0 else .ok ([], s)) :=
    okAll_ite (s.shapeRead_mem _ _ _ _ _ _) (okAll_ok.mpr rfl)
  unfold cpCheck
  refine okAll_then fun _ => ?_
  refine okAll_check fun _ => okAll_bind fun rd hrd => ?_
  have hrd := key rd hrd
  refine okAll_check fun _ => okAll_then fun conv => ?_
  extract_lets -underBinder shp afterRec
  have hrec : ∀ r, okAll (fun q => q.1.op = c.op ∧ q.2.mem = s.mem) (afterRec r) := by
    intro r
    unfold afterRec
    extract_lets -underBinder src dst f n sb db srcAt dstAt afterAlign alignDst
    clear_value src dst f n sb db srcAt dstAt
    have halign : ∀ r, okAll (fun q => q.1.op = c.op ∧ q.2.mem = s.mem) (afterAlign r) := by
      intro r
      unfold afterAlign
      refine okAll_check fun _ => okAll_check fun _ => okAll_check fun _ => ?_
      cases srcAt with
      | none =>
        cases dstAt with
        | none => exact okAll_then fun _ => okAll_either fun _ => okAll_either fun _ => okAll_check fun _ => okAll_check fun _ => okAll_pure.mpr ⟨rfl, hrd⟩
        | some a => exact okAll_either fun _ => okAll_either fun _ => okAll_either fun _ => okAll_check fun _ => okAll_check fun _ => okAll_pure.mpr ⟨rfl, hrd⟩
      | some a0 =>
        refine okAll_skip ?_
        cases dstAt with
        | none => exact okAll_then fun _ => okAll_either fun _ => okAll_either fun _ => okAll_check fun _ => okAll_check fun _ => okAll_pure.mpr ⟨rfl, hrd⟩
        | some a => exact okAll_either fun _ => okAll_either fun _ => okAll_either fun _ => okAll_check fun _ => okAll_check fun _ => okAll_pure.mpr ⟨rfl, hrd⟩
    clear_value afterAlign
    have hdst : ∀ r, okAll (fun q => q.1.op = c.op ∧ q.2.mem = s.mem) (alignDst r) := by
      intro r
      unfold alignDst
      split
      · exact okAll_then halign
      · exact halign ()
    split
    · split
      · exact okAll_then hdst
      · exact hdst ()
    · exact halign ()
  split
  · exact okAll_check hrec
  · exact hrec ()

theorem cpCheck_mem (c : CpIn) (s : State) (i : Iss) : okAll (fun q => q.2.mem = s.mem) (cpCheck c s i) :=
  okAll_mono (cpCheck_op_mem c s i) fun _ h => h.2

theorem cpIssue_mem (c : Copy) (s : State) (i : Iss) : okAll (fun t => t.mem = s.mem) (cpIssue c s i) := by
  unfold cpIssue
  dsimp only
  split
  · simp
  · rw [okAll_pure]
    split <;> simp

end Sys2Proof.Machine
end

section
/-! The integer, predicate and move words 0x000 to 0x027 (R128 to R134). -/

namespace Sys2Proof.Machine

/-- A word whose meaning computes the value that the statement gives. -/
theorem wordWrites_congr {i : Instr} {e : Entry} {v : View} {wide : Bool} {x y : Iss → Nat → Nat} (h : wordWrites i e v wide x)
    (hxy : ∀ w th, x w th = y w th) : wordWrites i e v wide y := by
  have : x = y := funext fun w => funext fun th => hxy w th
  exact this ▸ h

/-- An integer word writes what its row computes. -/
theorem wordWrites_runInt {i : Instr} {v : View} {x : Nat → Nat → Nat → Nat → Nat → Nat} {y : Iss → Nat → Nat}
    (h : ∀ s, exec i s = runInt v s x) (hxy : ∀ (w : Iss) (th : Nat), x (natBits v.efunc 13 3) v.efunc (w.a th) (w.b th) (w.cc th) = y w th) :
    wordWrites i { sh := shInt v } v (Shape.isWide (shInt v)) y :=
  wordWrites_congr (wordWrites_of h) hxy

theorem boolRes_decide (p : Prop) [Decidable p] : boolRes (decide p) = if p then 1 else 0 := by
  by_cases h : p <;> simp [boolRes, h]

theorem absRes_eq (ty f a b c : Nat) : absRes ty f a b c = intRes ty (natBit f 12) |intArg ty a| := by
  rw [absRes, Int.abs_eq_natAbs]

theorem sadRes_eq (ty f a b c : Nat) : sadRes ty f a b c = intRes ty (natBit f 12) (|intArg ty a - intArg ty b| + intArg ty c) := by
  rw [sadRes, Int.abs_eq_natAbs]

theorem addcRes_eq (ty f a b c : Nat) :
    addcRes ty f a b c = (a + b + c % 2) % 2 ^ 32 + 2 ^ 32 * (if 2 ^ 32 ≤ a + b + c % 2 then 1 else 0) := by
  rw [addcRes, boolRes_decide]

theorem subbRes_eq (ty f a b c : Nat) :
    subbRes ty f a b c = (a + 2 ^ 33 - b - c % 2) % 2 ^ 32 + 2 ^ 32 * (if a < b + c % 2 then 1 else 0) := by
  rw [subbRes, boolRes_decide]

/-- Settles O14: each word runs by `runInt`, `runIntLater` or `runVal` with the value of its row. -/
theorem scalarWords : Obligations.ScalarWords := by
  refine ⟨fun k => ⟨?_, ?_, ?_, ?_, ?_, ?_, ?_, ?_, ?_, ?_, ?_, ?_, ?_, ?_, ?_, ?_, ?_, ?_, ?_, ?_, ?_, ?_, ?_, ?_, ?_, ?_, ?_, ?_, ?_, ?_, ?_,
    ?_, ?_, ?_⟩, ⟨fun k => ?_, fun k => ?_, fun k => ?_, fun k => ?_, fun k => ?_⟩⟩
  · exact wordWrites_runInt (x := addRes) (fun _ => rfl) fun _ _ => rfl
  · exact wordWrites_runInt (x := subRes) (fun _ => rfl) fun _ _ => rfl
  · exact wordWrites_runInt (x := addcRes) (fun _ => rfl) fun _ _ => addcRes_eq ..
  · exact wordWrites_runInt (x := subbRes) (fun _ => rfl) fun _ _ => subbRes_eq ..
  · exact wordWrites_runInt (x := mulRes) (fun _ => rfl) fun _ _ => rfl
  · exact wordWrites_runInt (x := mulhRes) (fun _ => rfl) fun _ _ => rfl
  · exact wordWrites_runInt (x := madRes) (fun _ => rfl) fun _ _ => rfl
  · exact wordWrites_runInt (x := negRes) (fun _ => rfl) fun _ _ => rfl
  · exact wordWrites_runInt (x := absRes) (fun _ => rfl) fun _ _ => absRes_eq ..
  · exact wordWrites_runInt (x := minRes) (fun _ => rfl) fun _ _ => rfl
  · exact wordWrites_runInt (x := maxRes) (fun _ => rfl) fun _ _ => rfl
  · exact wordWrites_runInt (x := clampRes) (fun _ => rfl) fun _ _ => rfl
  · exact wordReserves_of fun _ => rfl
  · exact wordReserves_of fun _ => rfl
  · exact wordWrites_runInt (x := sadRes) (fun _ => rfl) fun _ _ => sadRes_eq ..
  · exact wordWrites_runInt (x := dot4Res) (fun _ => rfl) fun _ _ => rfl
  · exact wordWrites_runInt (x := andRes) (fun _ => rfl) fun _ _ => rfl
  · exact wordWrites_runInt (x := orRes) (fun _ => rfl) fun _ _ => rfl
  · exact wordWrites_runInt (x := xorRes) (fun _ => rfl) fun _ _ => rfl
  · exact wordWrites_runInt (x := notRes) (fun _ => rfl) fun _ _ => rfl
  · exact wordWrites_runInt (x := andnRes) (fun _ => rfl) fun _ _ => rfl
  · exact wordWrites_runInt (x := lgc3Res) (fun _ => rfl) fun _ _ => rfl
  · exact wordWrites_runInt (x := shlRes) (fun _ => rfl) fun _ _ => rfl
  · exact wordWrites_runInt (x := shrRes) (fun _ => rfl) fun _ _ => rfl
  · exact wordWrites_runInt (x := sarRes) (fun _ => rfl) fun _ _ => rfl
  · exact wordWrites_runInt (x := rolRes) (fun _ => rfl) fun _ _ => rfl
  · exact wordWrites_runInt (x := bfxRes) (fun _ => rfl) fun _ _ => rfl
  · exact wordWrites_runInt (x := bfiRes) (fun _ => rfl) fun _ _ => rfl
  · exact wordWrites_runInt (x := popRes) (fun _ => rfl) fun _ _ => rfl
  · exact wordWrites_runInt (x := clzRes) (fun _ => rfl) fun _ _ => rfl
  · exact wordWrites_runInt (x := ctzRes) (fun _ => rfl) fun _ _ => rfl
  · exact wordWrites_runInt (x := brevRes) (fun _ => rfl) fun _ _ => rfl
  · exact wordWrites_runInt (x := cmpRes) (fun _ => rfl) fun _ _ => rfl
  · exact wordWrites_runInt (x := selRes) (fun _ => rfl) fun _ _ => rfl
  · exact wordWrites_of fun _ => rfl
  · exact wordWrites_of fun _ => rfl
  · exact wordWrites_of fun _ => rfl
  · exact wordWrites_of fun _ => rfl
  · exact wordWrites_of fun _ => rfl

end Sys2Proof.Machine
end

section
/-! The float, packed-half and logarithmic words 0x040 to 0x063 (R136 to R142). -/

namespace Sys2Proof.Machine

/-- A long-latency word whose meaning computes the value that the statement gives. -/
theorem wordReserves_congr {i : Instr} {e : Entry} {v : View} {wide load : Bool} {x y : Iss → Nat → Nat} (h : wordReserves i e v wide load x)
    (hxy : ∀ w th, x w th = y w th) : wordReserves i e v wide load y := by
  have : x = y := funext fun w => funext fun th => hxy w th
  exact this ▸ h

section
variable {i : Instr} {v : View} {op : Rnd → Val → Val → Val → Val}

/-- A float word of which the entry is not long-latency writes the value of its row, rounded once. -/
theorem wordWrites_runFlt {y : Iss → Nat → Val} (h : ∀ s, exec i s = runFlt v s op) (hs : (shFloat v).long = false)
    (hy : ∀ (w : Iss) (th : Nat), op (fltMode v.efunc) (fltArg (ffOf (natBits v.efunc 14 2)) (natBit v.efunc 10) (w.a th))
      (fltArg (ffOf (natBits v.efunc 14 2)) (natBit v.efunc 9) (w.b th)) (fltArg (ffOf (natBits v.efunc 14 2)) (natBit v.efunc 8) (w.cc th)) = y w th) :
    wordWrites i { sh := shFloat v } v false fun w th => (encFloat (ffOf (natBits v.efunc 14 2)) .ieee (fltMode v.efunc) 0 (y w th)).code := by
  have hr := wordWrites_of (x := fun w th => fltApply op (ffOf (natBits v.efunc 14 2)) v.efunc (w.a th) (w.b th) (w.cc th))
    fun s => (h s).trans (by rw [runFlt, hs]; rfl)
  exact wordWrites_congr hr fun w th => by rw [← hy, fltApply, fltRes]

/-- A long-latency float word reserves the value of its row, rounded once. -/
theorem wordReserves_runFlt {y : Iss → Nat → Val} (h : ∀ s, exec i s = runFlt v s op) (hs : (shFloat v).long = true)
    (hy : ∀ (w : Iss) (th : Nat), op (fltMode v.efunc) (fltArg (ffOf (natBits v.efunc 14 2)) (natBit v.efunc 10) (w.a th))
      (fltArg (ffOf (natBits v.efunc 14 2)) (natBit v.efunc 9) (w.b th)) (fltArg (ffOf (natBits v.efunc 14 2)) (natBit v.efunc 8) (w.cc th)) = y w th) :
    wordReserves i { sh := shFloat v } v false false fun w th =>
      (encFloat (ffOf (natBits v.efunc 14 2)) .ieee (fltMode v.efunc) 0 (y w th)).code := by
  have hr := wordReserves_of (x := fun w th => fltApply op (ffOf (natBits v.efunc 14 2)) v.efunc (w.a th) (w.b th) (w.cc th))
    fun s => (h s).trans (by rw [runFlt, hs]; rfl)
  exact wordReserves_congr hr fun w th => by rw [← hy, fltApply, fltRes]

/-- A packed-half word writes the results of its two halves. -/
theorem wordWrites_runPacked (h : ∀ s, exec i s = runPacked v s op) :
    wordWrites i { sh := shFloat v } v false fun w th =>
      fltApply op (if natBits v.efunc 14 2 = 0 then ffF16 else ffBf16) v.efunc (w.a th / 2 ^ (16 * 0) % 2 ^ 16) (w.b th / 2 ^ (16 * 0) % 2 ^ 16)
        (w.cc th / 2 ^ (16 * 0) % 2 ^ 16) +
      2 ^ 16 * fltApply op (if natBits v.efunc 14 2 = 0 then ffF16 else ffBf16) v.efunc (w.a th / 2 ^ (16 * 1) % 2 ^ 16)
        (w.b th / 2 ^ (16 * 1) % 2 ^ 16) (w.cc th / 2 ^ (16 * 1) % 2 ^ 16) :=
  wordWrites_congr (wordWrites_of h) fun w th => by simp only [natBits_eq]; rfl

end

theorem Val.scl_zero_of_isZero {a : Val} (h : a.isZero = true) : a.scl 0 = a := by
  cases a <;> simp_all [Val.scl, Val.isZero]

/-- Scaling by the operand, where a zero stays as it is, is scaling by 0 at a zero. -/
theorem Val.ite_scl (a : Val) (n : Int) : (if a.isZero then a else a.scl n) = a.scl (if a.isZero then 0 else n) := by
  split
  next h => rw [Val.scl_zero_of_isZero h]
  next => rfl

/-- What `fscale` writes. -/
def fscaleRes (v : View) (w : Iss) (th : Nat) : Nat :=
  let a := fltArg (ffOf (natBits v.efunc 14 2)) (natBit v.efunc 10) (w.a th)
  fltRes (ffOf (natBits v.efunc 14 2)) (fltMode v.efunc) (if a.isZero then a else a.scl (sInt 32 (w.b th)))

theorem fscaleRes_eq (v : View) (w : Iss) (th : Nat) :
    fscaleRes v w th = (encFloat (ffOf (natBits v.efunc 14 2)) .ieee (fltMode v.efunc) 0
      ((fltArg (ffOf (natBits v.efunc 14 2)) (natBit v.efunc 10) (w.a th)).scl
        (if (fltArg (ffOf (natBits v.efunc 14 2)) (natBit v.efunc 10) (w.a th)).isZero then 0 else sInt 32 (w.b th)))).code := by
  rw [fscaleRes, fltRes, Val.ite_scl]

theorem exec_fscale (k : FR) (s : State) :
    exec (.fscale k) s = runVal { sh := shFloat (k.view .fr 0x050) } (k.view .fr 0x050) false s (fscaleRes (k.view .fr 0x050)) := rfl

theorem wordWrites_fscale (k : FR) {v : View} (hv : v = k.view .fr 0x050) :
    wordWrites (.fscale k) { sh := shFloat v } v false fun w th => (encFloat (ffOf (natBits v.efunc 14 2)) .ieee (fltMode v.efunc) 0
      ((fltArg (ffOf (natBits v.efunc 14 2)) (natBit v.efunc 10) (w.a th)).scl
        (if (fltArg (ffOf (natBits v.efunc 14 2)) (natBit v.efunc 10) (w.a th)).isZero then 0 else sInt 32 (w.b th)))).code := by
  subst hv
  exact wordWrites_congr (wordWrites_of (exec_fscale k)) (fscaleRes_eq _)

/-- Settles O17: each word runs by `runFlt`, `runPacked` or `runLns` with the operation of its row. -/
theorem floatWords : Obligations.FloatWords := by
  refine ⟨fun k => ⟨?_, ?_, ?_, ?_, ?_, ?_, ?_, ?_, ?_, ?_, ?_, ?_, ?_, ?_, ?_, wordWrites_fscale k rfl⟩, fun k => ⟨?_, ?_, ?_, ?_, ?_⟩,
    fun k => ⟨?_, ?_, ?_, ?_⟩⟩
  · exact wordWrites_runFlt (op := faddVal) (fun _ => rfl) rfl fun _ _ => rfl
  · exact wordWrites_runFlt (op := fsubVal) (fun _ => rfl) rfl fun _ _ => rfl
  · exact wordWrites_runFlt (op := fmulVal) (fun _ => rfl) rfl fun _ _ => rfl
  · exact wordWrites_runFlt (op := fmaVal) (fun _ => rfl) rfl fun _ _ => rfl
  · exact wordWrites_runFlt (op := fminVal) (fun _ => rfl) rfl fun _ _ => rfl
  · exact wordWrites_runFlt (op := fmaxVal) (fun _ => rfl) rfl fun _ _ => rfl
  · exact wordWrites_runFlt (op := fun md a _ _ => integralVal md a) (fun _ => rfl) rfl fun _ _ => rfl
  · exact wordReserves_runFlt (op := fun _ a _ _ => quoVal (.fin false 1 0) a) (fun _ => rfl) rfl fun _ _ => rfl
  · exact wordReserves_runFlt (op := fun _ a _ _ => rsqrtVal a) (fun _ => rfl) rfl fun _ _ => rfl
  · exact wordReserves_runFlt (op := fun _ a _ _ => rootVal a) (fun _ => rfl) rfl fun _ _ => rfl
  · exact wordReserves_runFlt (op := fun _ a _ _ => powVal a) (fun _ => rfl) rfl fun _ _ => rfl
  · exact wordReserves_runFlt (op := fun _ a _ _ => logVal a) (fun _ => rfl) rfl fun _ _ => rfl
  · exact wordReserves_runFlt (op := fun _ a _ _ => sinOf a) (fun _ => rfl) rfl fun _ _ => rfl
  · exact wordReserves_runFlt (op := fun _ a _ _ => cosOf a) (fun _ => rfl) rfl fun _ _ => rfl
  · exact wordReserves_runFlt (op := fun _ a b _ => quoVal a b) (fun _ => rfl) rfl fun _ _ => rfl
  · exact wordWrites_runPacked (op := faddVal) fun _ => rfl
  · exact wordWrites_runPacked (op := fmulVal) fun _ => rfl
  · exact wordWrites_runPacked (op := fmaVal) fun _ => rfl
  · exact wordWrites_runPacked (op := fminVal) fun _ => rfl
  · exact wordWrites_runPacked (op := fmaxVal) fun _ => rfl
  · exact wordWrites_of fun _ => rfl
  · exact wordWrites_of fun _ => rfl
  · exact wordWrites_of fun _ => rfl
  · exact wordWrites_of fun _ => rfl

end Sys2Proof.Machine
end

section
/-! Integer results as two's complement numbers and as clamped ones (R129). -/

namespace Sys2Proof.Machine

theorem ofInt_intArg (ty a : Nat) : BitVec.ofInt (tyBits ty) (intArg ty a) = BitVec.ofNat (tyBits ty) a := by
  rw [intArg]
  split
  · rw [sInt_eq_toInt_ofNat (tyBits_pos ty), BitVec.ofInt_toInt]
  · rw [BitVec.ofInt_natCast]
    exact BitVec.eq_of_toNat_eq (by simp only [BitVec.toNat_ofNat, Nat.mod_mod])

/-- A result below 32 bits is extended by the sign of TY. -/
theorem intRes_narrow {ty : Nat} (h : tyBits ty < 32) (x : Int) : intRes ty false x =
    if tySigned ty then ((BitVec.ofInt (tyBits ty) x).signExtend 32).toNat else ((BitVec.ofInt (tyBits ty) x).zeroExtend 32).toNat := by
  have hmod : wrapInt (tyBits ty) x % 2 ^ tyBits ty = wrapInt (tyBits ty) x := Nat.mod_eq_of_lt (wrapInt_lt _ _)
  simp only [intRes, intExtend, Bool.false_eq_true, if_false, if_neg (show ¬ tyBits ty = 64 by omega)]
  split
  · rw [sInt_eq_toInt_ofNat (tyBits_pos ty), wrapInt_eq_toNat_ofInt, wrapInt_eq_toNat_ofInt, BitVec.ofNat_toNat, BitVec.setWidth_eq]
    rfl
  · rw [hmod, wrapInt_eq_toNat_ofInt, BitVec.toNat_setWidth, Nat.mod_eq_of_lt]
    exact (BitVec.isLt _).trans_le (Nat.pow_le_pow_right (by decide) h.le)

theorem intRes_sat (ty : Nat) (x : Int) :
    intRes ty true x = intRes ty false (clampInt (intMin (tyBits ty) (tySigned ty)) (intMax (tyBits ty) (tySigned ty)) x) := rfl

theorem intMin_le_intMax (w : Nat) (sg : Bool) : intMin w sg ≤ intMax w sg := by
  have h1 : (1 : Int) ≤ 2 ^ (w - 1) := one_le_pow₀ (by decide)
  have h2 : (1 : Int) ≤ 2 ^ w := one_le_pow₀ (by decide)
  cases sg <;> simp only [intMin, intMax, Bool.false_eq_true, if_true, if_false] <;> omega

/-- A saturating result reads back as the clamped integer. -/
theorem intArg_intRes_sat (ty : Nat) (x : Int) :
    intArg ty (intRes ty true x) = clampInt (intMin (tyBits ty) (tySigned ty)) (intMax (tyBits ty) (tySigned ty)) x := by
  have hle := intMin_le_intMax (tyBits ty) (tySigned ty)
  rw [intRes_sat]
  refine intArg_intRes_of_range ?_ ?_ <;> simp only [clampInt] <;> omega

/-- Settles O15: a result is its integer on w-bit vectors, and clamping keeps to the range of TY. -/
theorem integerResults : Obligations.IntegerResults := by
  refine ⟨fun ty a b c => ⟨?_, ?_, ?_, ?_, intRes_narrow⟩, fun ty x => ?_⟩
  · rw [ofNat_intRes, BitVec.ofInt_add, ofInt_intArg, ofInt_intArg]
  · rw [ofNat_intRes, Int.sub_eq_add_neg, BitVec.ofInt_add, BitVec.ofInt_neg, ofInt_intArg, ofInt_intArg, BitVec.sub_eq_add_neg]
  · rw [ofNat_intRes, BitVec.ofInt_add, BitVec.ofInt_mul, ofInt_intArg, ofInt_intArg, ofInt_intArg]
  · rw [ofNat_intRes, BitVec.ofInt_neg, ofInt_intArg]
  · have hle := intMin_le_intMax (tyBits ty) (tySigned ty)
    have hsat := intArg_intRes_sat ty x
    simp only [clampInt, intMin, intMax] at hle hsat
    refine ⟨fun hlo hhi => ?_, fun hlo => ?_, fun hhi => ?_⟩ <;> rw [hsat] <;> omega

end Sys2Proof.Machine
end

section
/-! The lane words 0x0A1 to 0x0A4 (R150 to R152). -/

namespace Sys2Proof.Machine

/-- Every value of a list is the first one exactly when all are alike. -/
theorem all_eq_head_iff {α : Type} [DecidableEq α] (f : Nat → α) (l : List Nat) :
    (l.all fun j => f j == f (l.headD 0)) = true ↔ ∀ i ∈ l, ∀ j ∈ l, f i = f j := by
  simp only [List.all_eq_true, beq_iff_eq]
  refine ⟨fun h i hi j hj => (h i hi).trans (h j hj).symm, fun h i hi => h i hi _ ?_⟩
  cases l with
  | nil => cases hi
  | cons x xs => exact List.mem_cons_self

theorem voteRes_any (w : Iss) (s th : Nat) : voteRes w 0 s th = if ∃ j ∈ segActs w s th, w.a j ≠ 0 then 1 else 0 := by
  simp only [voteRes, boolRes]
  exact if_congr (by simp) rfl rfl

theorem voteRes_all (w : Iss) (s th : Nat) : voteRes w 1 s th = if ∀ j ∈ segActs w s th, w.a j ≠ 0 then 1 else 0 := by
  simp only [voteRes, boolRes]
  exact if_congr (by simp) rfl rfl

theorem voteRes_eq (w : Iss) (kind s th : Nat) (h : 3 ≤ kind) :
    voteRes w kind s th = if ∀ i ∈ segActs w s th, ∀ j ∈ segActs w s th, w.a i = w.a j then 1 else 0 := by
  obtain ⟨k, rfl⟩ := Nat.exists_eq_add_of_le' h
  exact if_congr (all_eq_head_iff w.a _) rfl rfl

theorem laneFold_add (a b c : Nat) : laneFold 0 0 [a, b, c] = (a + b + c) % 2 ^ 32 := by
  change ((a + b) % 2 ^ 32 + c) % 2 ^ 32 = (a + b + c) % 2 ^ 32
  rw [Nat.mod_add_mod]

/-- Settles O26: the words run by `runLater` with the fold of their row over the active threads of the segment. -/
theorem laneWords : Obligations.LaneWords := by
  refine fun k => ⟨?_, wordReserves_of fun _ => rfl, wordReserves_of fun _ => rfl, wordReserves_of fun _ => rfl, laneFold_add⟩
  refine wordReserves_congr (x := fun w th => voteRes w (natBits (k.view .fr 0x0A1).efunc 14 2) (segLen (k.view .fr 0x0A1)) th)
    (wordReserves_of fun _ => rfl) fun w th => ?_
  split
  next h => rw [h, voteRes_any]; rfl
  next h => rw [h, voteRes_all]; rfl
  next h => rw [h]; rfl
  next h0 h1 h2 =>
    have hk : 3 ≤ natBits (k.view .fr 0x0A1).efunc 14 2 :=
      Nat.lt_of_le_of_ne (Nat.lt_of_le_of_ne (Nat.one_le_iff_ne_zero.mpr h0) (Ne.symm h1)) (Ne.symm h2)
    rw [voteRes_eq w _ _ _ hk]; rfl

end Sys2Proof.Machine
end

section
/-! The counts of a conversion word (R143, R341, R342). The statement adds them with the number of the team in place of that of the group, which
for a team on a pair of cores names the team slot of another core than the one that runs the group. -/

namespace Sys2Proof.Machine

/-- A uniform `cvt` from I8 to U8 of s0 into k1. -/
def pairWord : FR :=
  { h := { pred := 0#3, pneg := false, u := true, look := 0#4, hold := 0#2, dst := 1#6 }, a := 0x30#7, b := 0#7, c := 0#7, func := 0x880#16 }

/-- A kernel of two groups on a pair of cores. -/
def pairKernel : KDesc := { placedKernel with groups := 2, pair := true }

/-- A group of that kernel inside a clause of two words, at the first. -/
def pairGroup (idx : Nat) : Group :=
  { Group.fresh pairKernel idx 0 0 0 pairKernel.entry with pos := 1, clause := [placedHeader, 0#64] }

/-- A team of context 0 on a pair of cores. -/
def pairTeam : Team := { Team.blank 0 0 .m 0#64 pairKernel with slot := .run, groups := [pairGroup 0, pairGroup 1] }

/-- Its second group, which runs on the other core of the pair, is issuing. -/
def pairState : State := { State.reset with teams := [pairTeam], cur := some (0, 1) }

/-- The entry of the word. -/
def pairEntry : Entry := { sh := shCvt (pairWord.view .fr 0x080) }

/-- The word as it stands there. -/
def pairIss : Iss :=
  { id := (0, 1), v := pairWord.view .fr 0x080, sh := pairEntry.sh, t := pairTeam, c := Ctx.zero, g := pairGroup 1 }

theorem pairState_issues : pairState.issues pairEntry (pairWord.view .fr 0x080) pairIss := ⟨rfl, rfl, rfl, rfl⟩

/-- PC14 of every team slot, team by team. -/
def convCounts (s : State) : List (List W64) := s.teams.map fun t => t.counts.map fun c => c.perf.getD 14 0#64

/-- The word counts its byte in the slot of the second core. -/
theorem convCounts_exec {t : State} (h : exec (.cvt pairWord) pairState = .next t) : convCounts t = [[0#64, 1#64]] := by
  cases h
  rfl

/-- Refutes O24: the clause of `cvt` passes `w.id.1`, the team's number, where `countConv` takes the pair of team and group, and the number n is
read as the pair (n, n). With the second group of team 0 on a pair of cores the byte is counted in the slot of the second core, and the
statement has it in that of the first. -/
theorem not_conversionWords : ¬ Obligations.ConversionWords := by
  intro h
  have hcvt := (h.1 pairWord).1 pairState pairIss pairState_issues trivial
  exact absurd (convCounts_exec hcvt) (by decide)

end Sys2Proof.Machine
end

section
/-! Float values as rational numbers: what addition, multiplication and the choice of the smaller one give (R57, R137). -/

namespace Sys2Proof.Machine

/-- A value that stands for a rational number is a finite one. -/
theorem Val.rat_eq_some {a : Val} {p : ℚ} (h : a.rat = some p) : ∃ s m e, a = .fin s m e ∧ p = (if s then -1 else 1) * m * (2 : ℚ) ^ e := by
  cases a with
  | fin s m e => exact ⟨s, m, e, rfl, (Option.some.inj h).symm⟩
  | nan => cases h
  | inf s => cases h
  | log s l f => cases h

theorem Val.ext_of_rat {a : Val} {p : ℚ} (h : a.rat = some p) : a.ext = some ((p : WithTop ℚ) : WithBot (WithTop ℚ)) := by
  obtain ⟨s, m, e, rfl, rfl⟩ := Val.rat_eq_some h
  rfl

theorem Val.le_iff_rat {a b : Val} {p q : ℚ} (ha : a.rat = some p) (hb : b.rat = some q) : a.le b = true ↔ p ≤ q := by
  rw [Val.le_iff_ext (Val.ext_of_rat ha) (Val.ext_of_rat hb), WithBot.coe_le_coe, WithTop.coe_le_coe]

theorem Val.neg_rat {a : Val} {p : ℚ} (h : a.rat = some p) : a.neg.rat = some (-p) := by
  obtain ⟨s, m, e, rfl, rfl⟩ := Val.rat_eq_some h
  cases s <;> simp [Val.neg, Val.rat]

theorem Val.mul_rat {a b : Val} {p q : ℚ} (ha : a.rat = some p) (hb : b.rat = some q) : (a.mul b).rat = some (p * q) := by
  obtain ⟨s, m, e, rfl, rfl⟩ := Val.rat_eq_some ha
  obtain ⟨t, n, d, rfl, rfl⟩ := Val.rat_eq_some hb
  have hpow : (2 : ℚ) ^ (e + d) = 2 ^ e * 2 ^ d := zpow_add₀ (by norm_num) e d
  change some _ = some _
  rw [hpow]
  congr 1
  cases s <;> cases t <;> push_cast <;> simp <;> ring

/-- The signed count of units of 2^q is the number. -/
theorem scaled_mul (s : Bool) (m : Nat) {e q : Int} (h : q ≤ e) :
    (scaled s m e q : ℚ) * 2 ^ q = (if s then -1 else 1) * m * (2 : ℚ) ^ e := by
  have hm := magnitude_eq_shift m h
  cases s
  · simpa [scaled] using hm.symm
  · simp only [scaled, if_true, Int.cast_neg, neg_mul, one_mul, neg_inj]
    simpa using hm.symm

theorem sign_natAbs (t : Int) : (if decide (t < 0) = true then (-1 : ℚ) else 1) * (t.natAbs : ℚ) = t := by
  have h : (t.natAbs : ℚ) = |(t : ℚ)| := by rw [Nat.cast_natAbs, Int.cast_abs]
  rw [h]
  by_cases ht : t < 0
  · have : (t : ℚ) < 0 := by exact_mod_cast ht
    simp [ht, abs_of_neg this]
  · have : (0 : ℚ) ≤ t := by exact_mod_cast not_lt.mp ht
    simp [ht, abs_of_nonneg this]

/-- The sum of two dyadic numbers, whatever the sign of an exact zero. -/
theorem addDy_rat (rdn : Bool) (s : Bool) (m : Nat) (e : Int) (t : Bool) (n : Nat) (d : Int) :
    (addDy rdn s m e t n d).rat = some ((if s then -1 else 1) * m * (2 : ℚ) ^ e + (if t then -1 else 1) * n * (2 : ℚ) ^ d) := by
  unfold addDy
  split
  next h => simp [Val.rat, h.1, h.2]
  next =>
    split
    next h => simp [Val.rat, h]
    next =>
      split
      next h => simp [Val.rat, h]
      next =>
        have hsum : ((scaled s m e (min e d) + scaled t n d (min e d) : Int) : ℚ) * 2 ^ min e d =
            (if s then -1 else 1) * m * (2 : ℚ) ^ e + (if t then -1 else 1) * n * (2 : ℚ) ^ d := by
          rw [Int.cast_add, add_mul, scaled_mul s m (min_le_left e d), scaled_mul t n (min_le_right e d)]
        rw [← hsum]
        dsimp only
        split
        next h => simp [Val.rat, h]
        next => simp only [Val.rat, sign_natAbs]

theorem Val.add_rat {a b : Val} {p q : ℚ} (rdn : Bool) (ha : a.rat = some p) (hb : b.rat = some q) : (a.add rdn b).rat = some (p + q) := by
  obtain ⟨s, m, e, rfl, rfl⟩ := Val.rat_eq_some ha
  obtain ⟨t, n, d, rfl, rfl⟩ := Val.rat_eq_some hb
  exact addDy_rat rdn s m e t n d

theorem Val.isNaN_of_rat {a : Val} {p : ℚ} (h : a.rat = some p) : a.isNaN = false := by
  obtain ⟨s, m, e, rfl, -⟩ := Val.rat_eq_some h
  rfl

/-- A finite value that is a zero stands for 0. -/
theorem Val.rat_of_isZero {a : Val} {p : ℚ} (h : a.rat = some p) (hz : a.isZero = true) : p = 0 := by
  obtain ⟨s, m, e, rfl, rfl⟩ := Val.rat_eq_some h
  have hm : m = 0 := by simpa [Val.isZero] using hz
  simp [hm]

/-- The chosen operand is the lower or the higher number; of two zeros it does not matter which. -/
theorem minVal_rat {a b : Val} {p q : ℚ} (mx : Bool) (ha : a.rat = some p) (hb : b.rat = some q) :
    (minVal mx a b).rat = some (if mx then max p q else min p q) := by
  have hle := Val.le_iff_rat ha hb
  simp only [minVal, Val.isNaN_of_rat ha, Val.isNaN_of_rat hb, Bool.or_self, Bool.false_eq_true, if_false]
  by_cases hz : (a.isZero && b.isZero) = true
  · obtain ⟨hza, hzb⟩ := Bool.and_eq_true_iff.mp hz
    rw [Val.rat_of_isZero ha hza] at *
    rw [Val.rat_of_isZero hb hzb] at *
    have hsel (c : Bool) : (if c then a else b).rat = some 0 := by cases c <;> assumption
    simpa only [max_self, min_self, ite_self] using hsel _
  · rw [if_neg hz]
    by_cases hpq : p ≤ q
    · rw [hle.mpr hpq]
      cases mx <;> simp [ha, hb, hpq]
    · have hqp := (not_le.mp hpq).le
      rw [Bool.eq_false_iff.mpr (mt hle.mp hpq)]
      cases mx <;> simp [ha, hb, hqp]

/-- Settles O18: each operation on finite values is the one on the rational numbers that they stand for. -/
theorem floatExact : Obligations.FloatExact := fun md a b c p q r ha hb hc =>
  ⟨Val.add_rat _ ha hb, by simpa [fsubVal, sub_eq_add_neg] using Val.add_rat (decide (md = .rdn)) ha (Val.neg_rat hb), Val.mul_rat ha hb,
    Val.add_rat _ (Val.mul_rat ha hb) hc, minVal_rat false ha hb, minVal_rat true ha hb, Val.le_iff_rat ha hb⟩

end Sys2Proof.Machine
end

section
/-! Rounding to a grid (R72, R74). Between two neighbours of the grid a mode chooses by the fraction of the magnitude; a magnitude so far
below the grid that only its being nonzero counts lies between 0 and 1. -/

namespace Sys2Proof.Machine

/-- What R72 and R74 ask of the multiples N that the modes choose for a magnitude of y units of the grid. -/
def roundsAs (y : ℚ) (r : Nat) (neg : Bool) (N : Rnd → Nat) : Prop :=
  (N .rtz : Int) = ⌊y⌋ ∧ (N .rdn : Int) = (if neg then ⌈y⌉ else ⌊y⌋) ∧ (N .rup : Int) = (if neg then ⌊y⌋ else ⌈y⌉) ∧
  |y - (N .rne : ℚ)| ≤ 1 / 2 ∧ (|y - (N .rne : ℚ)| = 1 / 2 → N .rne % 2 = 0) ∧
  (N .sr : Int) = ⌊y⌋ + (if y ≠ ⌊y⌋ ∧ (2 ^ 32 : Int) ≤ ⌊(y - ⌊y⌋) * 2 ^ 32⌋ + r then 1 else 0)

/-- A magnitude on the grid stays. -/
theorem roundsAs_of_eq {y : ℚ} {n : Nat} (r : Nat) (neg : Bool) (h : y = n) : roundsAs y r neg fun _ => n := by
  subst h
  refine ⟨?_, ?_, ?_, ?_, ?_, ?_⟩ <;> simp

/-- A magnitude strictly between two neighbours goes to one of them. -/
theorem roundsAs_of_between {y : ℚ} {lo : Nat} {r : Nat} {neg : Bool} {hi : Rnd → Bool} (hlo : (lo : ℚ) < y) (hup : y < lo + 1)
    (hrtz : hi .rtz = false) (hrdn : hi .rdn = neg) (hrup : hi .rup = !neg)
    (hrne : hi .rne = true ↔ 1 / 2 < y - lo ∨ y - lo = 1 / 2 ∧ lo % 2 = 1)
    (hsr : hi .sr = true ↔ (2 ^ 32 : Int) ≤ ⌊(y - lo) * 2 ^ 32⌋ + r) :
    roundsAs y r neg fun md => if hi md then lo + 1 else lo := by
  have hfloor : ⌊y⌋ = lo := Int.floor_eq_iff.mpr ⟨hlo.le, hup⟩
  have hceil : ⌈y⌉ = lo + 1 := Int.ceil_eq_iff.mpr ⟨by push_cast; linarith, by push_cast; exact hup.le⟩
  have hne : y ≠ ((lo : Int) : ℚ) := by
    rw [Int.cast_natCast]
    exact hlo.ne'
  refine ⟨?_, ?_, ?_, ?_, ?_, ?_⟩ <;> dsimp only
  · simp [hrtz, hfloor]
  · cases neg <;> simp [hrdn, hfloor, hceil]
  · cases neg <;> simp [hrup, hfloor, hceil]
  · by_cases h : hi .rne = true
    · rw [if_pos h, abs_le]
      push_cast
      rcases hrne.mp h with h | ⟨h, -⟩ <;> constructor <;> linarith
    · have := mt hrne.mpr h
      rw [if_neg h, abs_le]
      have hle : y - lo ≤ 1 / 2 := not_lt.mp fun hlt => this (.inl hlt)
      constructor <;> linarith
  · by_cases h : hi .rne = true
    · rw [if_pos h, abs_of_nonpos (by push_cast; linarith)]
      push_cast
      intro heq
      rcases hrne.mp h with hlt | ⟨-, hodd⟩
      · linarith
      · omega
    · rw [if_neg h, abs_of_pos (by linarith)]
      intro heq
      by_contra hodd
      exact h (hrne.mpr (.inr ⟨heq, by omega⟩))
  · rw [hfloor, Int.cast_natCast]
    simp only [hsr, Int.cast_natCast] at hne ⊢
    by_cases h : (2 ^ 32 : Int) ≤ ⌊(y - lo) * 2 ^ 32⌋ + r
    · rw [if_pos h, if_pos ⟨hne, h⟩]
      push_cast
      rfl
    · rw [if_neg h, if_neg fun hc => h hc.2, add_zero]

/-- The multiples that the modes choose off the grid. -/
theorem roundsAs_of_remainder {m sh r : Nat} (neg : Bool) :
    roundsAs ((m : ℚ) / 2 ^ sh) r neg fun md =>
      if m % 2 ^ sh = 0 then m / 2 ^ sh else if takeHi md r neg (m / 2 ^ sh) (m % 2 ^ sh) sh then m / 2 ^ sh + 1 else m / 2 ^ sh := by
  have hpow : (0 : ℚ) < 2 ^ sh := by positivity
  have hlt : ((m % 2 ^ sh : Nat) : ℚ) < 2 ^ sh := by exact_mod_cast Nat.mod_lt m (Nat.two_pow_pos sh)
  have hsplit : (m : ℚ) / 2 ^ sh = (m / 2 ^ sh : Nat) + (m % 2 ^ sh : Nat) / (2 : ℚ) ^ sh := by
    have := Nat.div_add_mod m (2 ^ sh)
    rw [div_eq_iff hpow.ne', add_mul, div_mul_cancel₀ _ hpow.ne', mul_comm]
    exact_mod_cast this.symm
  have hfrac : (m : ℚ) / 2 ^ sh - (m / 2 ^ sh : Nat) = (m % 2 ^ sh : Nat) / (2 : ℚ) ^ sh := by rw [hsplit]; ring
  by_cases h0 : m % 2 ^ sh = 0
  · simp only [h0, if_true]
    exact roundsAs_of_eq r neg (by rw [hsplit, h0]; simp)
  · have hpos : (0 : ℚ) < (m % 2 ^ sh : Nat) / (2 : ℚ) ^ sh := div_pos (by exact_mod_cast Nat.pos_of_ne_zero h0) hpow
    have hone : ((m % 2 ^ sh : Nat) : ℚ) / 2 ^ sh < 1 := (div_lt_one hpow).mpr hlt
    simp only [h0, if_false]
    refine roundsAs_of_between (hi := fun md => takeHi md r neg (m / 2 ^ sh) (m % 2 ^ sh) sh) (by rw [hsplit]; linarith)
      (by rw [hsplit]; linarith) rfl rfl rfl ?_ ?_
    · rw [hfrac, lt_div_iff₀ hpow, div_eq_iff hpow.ne']
      simp only [takeHi, Bool.or_eq_true, Bool.and_eq_true, decide_eq_true_eq, beq_iff_eq]
      refine or_congr ⟨fun h => ?_, fun h => ?_⟩ (and_congr_left fun _ => ⟨fun h => ?_, fun h => ?_⟩)
      · have : (2 : ℚ) ^ sh < 2 * (m % 2 ^ sh : Nat) := by exact_mod_cast h
        linarith
      · have : (2 : ℚ) ^ sh < 2 * (m % 2 ^ sh : Nat) := by linarith
        exact_mod_cast this
      · have : 2 * ((m % 2 ^ sh : Nat) : ℚ) = 2 ^ sh := by exact_mod_cast h
        linarith
      · have : 2 * ((m % 2 ^ sh : Nat) : ℚ) = 2 ^ sh := by linarith
        exact_mod_cast this
    · have hfl : ⌊(m % 2 ^ sh : Nat) / (2 : ℚ) ^ sh * 2 ^ 32⌋ = (m % 2 ^ sh * 2 ^ 32 / 2 ^ sh : Nat) := by
        have := Rat.floor_intCast_div_natCast (m % 2 ^ sh * 2 ^ 32 : Nat) (2 ^ sh)
        push_cast at this ⊢
        rw [div_mul_eq_mul_div]
        exact this
      rw [hfrac, hfl]
      simp only [takeHi, decide_eq_true_eq]
      exact_mod_cast Iff.rfl

/-- A nonzero magnitude below 2^-40 units lies between 0 and 1, and no mode that looks at the fraction takes the 1. -/
theorem roundsAs_of_sticky {y : ℚ} {r : Nat} (neg : Bool) (hr : r < 2 ^ 32) (hpos : 0 < y) (hlt : y < 1 / 2 ^ 40) :
    roundsAs y r neg fun md => if takeHi md r neg 0 1 40 then 0 + 1 else 0 := by
  have hfl : ⌊(y - (0 : Nat)) * 2 ^ 32⌋ = 0 := by
    rw [Nat.cast_zero, sub_zero, Int.floor_eq_zero_iff]
    exact ⟨by positivity, by linarith⟩
  refine roundsAs_of_between (lo := 0) (hi := fun md => takeHi md r neg 0 1 40) (by simpa using hpos) (by norm_num at hlt ⊢; linarith)
    rfl rfl rfl ?_ ?_
  · have hhalf : y < 1 / 2 := hlt.trans (by norm_num)
    have hno : takeHi .rne r neg 0 1 40 = false := rfl
    rw [hno, Nat.cast_zero, sub_zero]
    refine iff_of_false Bool.false_ne_true ?_
    rintro (h | ⟨h, -⟩) <;> linarith
  · rw [hfl]
    have hnot : ¬ (2 ^ 32 ≤ r) := not_le.mpr hr
    have : ¬ ((2 ^ 32 : Int) ≤ 0 + r) := by omega
    simp only [takeHi, decide_eq_true_eq]
    norm_num at hnot this ⊢

theorem lt_two_pow_bitLen (m : Nat) : m < 2 ^ bitLen m := by
  unfold bitLen
  split
  · omega
  · exact Nat.lt_log2_self

/-- Settles O19: a magnitude on the grid stays, one off it is its quotient and remainder by the grid, and one far below it has the sticky bit. -/
theorem roundingModes : Obligations.RoundingModes := by
  intro r neg m e q hr
  change roundsAs ((m : ℚ) * (2 : ℚ) ^ (e - q)) r neg fun md => roundGrid md r neg m e q
  by_cases hqe : q ≤ e
  · simp only [roundGrid, if_pos hqe]
    refine roundsAs_of_eq r neg ?_
    have hexp : e - q = ((e - q).toNat : Int) := by omega
    rw [hexp, zpow_natCast]
    push_cast
    congr
  · have hexp : e - q = -((q - e).toNat : Int) := by omega
    have hy : (m : ℚ) * (2 : ℚ) ^ (e - q) = m / 2 ^ (q - e).toNat := by
      rw [hexp, zpow_neg, zpow_natCast, div_eq_mul_inv]
    rw [hy]
    simp only [roundGrid, if_neg hqe]
    generalize (q - e).toNat = sh
    by_cases hbig : bitLen m + 40 < sh
    · by_cases hm : m = 0
      · subst hm
        simpa [hbig] using roundsAs_of_eq (y := 0) (n := 0) r neg (by simp)
      · simp only [hbig, hm, if_true, if_false]
        refine roundsAs_of_sticky neg hr (by positivity) ?_
        have hle : m * 2 ^ 40 < 2 ^ sh :=
          calc m * 2 ^ 40 < 2 ^ bitLen m * 2 ^ 40 := Nat.mul_lt_mul_of_pos_right (lt_two_pow_bitLen m) (by decide)
            _ = 2 ^ (bitLen m + 40) := (Nat.pow_add ..).symm
            _ ≤ 2 ^ sh := Nat.pow_le_pow_right (by decide) hbig.le
        rw [div_lt_div_iff₀ (by positivity) (by positivity), one_mul]
        exact_mod_cast hle
    · simp only [hbig, if_false]
      exact roundsAs_of_remainder neg

end Sys2Proof.Machine
end

section
/-! A float code that is decoded and rounded to its own layout (R57, R58, R72): a finite value lies on the grid of its binade, which gives its
exponent and fraction back. -/

namespace Sys2Proof.Machine

theorem roundGrid_self (md : Rnd) (r : Nat) (neg : Bool) (m : Nat) (q : Int) : roundGrid md r neg m q q = m := by
  simp [roundGrid]

theorem ffOf_bias (ft : Nat) : 1 ≤ (ffOf ft).bias := by
  unfold ffOf
  split <;> decide

/-- The sign, exponent and fraction of a code give it back. -/
theorem code_of_fields {x eb fb : Nat} (hx : x < 2 ^ (1 + eb + fb)) :
    (if natBit x (eb + fb) then 2 ^ (eb + fb) else 0) + (natBits x fb eb * 2 ^ fb + natBits x 0 fb) = x := by
  rw [← magnitude_eq_fields]
  have hpow : 2 ^ (1 + eb + fb) = 2 * 2 ^ (eb + fb) := by rw [Nat.add_assoc, Nat.pow_add, Nat.pow_one]
  have hdm := Nat.div_add_mod x (2 ^ (eb + fb))
  have hq : x / 2 ^ (eb + fb) < 2 := (Nat.div_lt_iff_lt_mul (Nat.two_pow_pos _)).mpr (hpow ▸ hx)
  rw [natBit, Nat.shiftRight_eq_div_pow]
  obtain h | h := Nat.le_one_iff_eq_zero_or_eq_one.mp (Nat.le_of_lt_succ hq)
  · rw [h] at hdm ⊢
    simpa using hdm
  · rw [h] at hdm ⊢
    simpa using hdm

theorem floorLog2_of_bounds {m b : Nat} (e : Int) (hlo : 2 ^ b ≤ m) (hhi : m < 2 ^ (b + 1)) : floorLog2 m e = b + e := by
  have h0 : m ≠ 0 := by have := Nat.two_pow_pos b; omega
  have : Nat.log2 m = b := (Nat.log2_eq_iff h0).mpr ⟨hlo, hhi⟩
  rw [floorLog2, this]

section
variable {k : FFmt} (md : Rnd) (neg : Bool)

/-- A normal value gives its exponent and fraction back. -/
theorem floatMag_normal {E F : Nat} (hE0 : 0 < E) (hE : E < 2 ^ k.eb) (hF : F < 2 ^ k.fb) (hb : 1 ≤ k.bias) :
    floatMag k md 0 neg (2 ^ k.fb + F) ((E : Int) - k.bias - k.fb) = some (E * 2 ^ k.fb + F) := by
  have hpos := Nat.two_pow_pos k.fb
  have hp : floorLog2 (2 ^ k.fb + F) ((E : Int) - k.bias - k.fb) = (E : Int) - k.bias := by
    rw [floorLog2_of_bounds (b := k.fb) _ (by omega) (by rw [Nat.pow_succ]; omega)]
    omega
  have hbig : ¬ (2 : Int) ^ (k.eb + 1) < (E : Int) - k.bias := by
    have : (E : Int) < 2 ^ k.eb := by exact_mod_cast hE
    have hpow : (2 : Int) ^ (k.eb + 1) = 2 * 2 ^ k.eb := by rw [pow_succ, mul_comm]
    omega
  have hmax : max ((E : Int) - k.bias) (1 - (k.bias : Int)) = (E : Int) - k.bias := by omega
  have hcount : ((E : Int) - k.bias - k.fb - (1 - (k.bias : Int) - k.fb)).toNat = E - 1 := by omega
  have hcode : (E - 1) * 2 ^ k.fb + (2 ^ k.fb + F) = E * 2 ^ k.fb + F := by
    obtain ⟨n, rfl⟩ := Nat.exists_eq_add_of_le' hE0
    rw [Nat.add_sub_cancel, Nat.add_mul]
    omega
  have hle : ¬ E * 2 ^ k.fb + F < 2 ^ k.fb := by
    have := Nat.le_mul_of_pos_left (2 ^ k.fb) hE0
    omega
  simp only [floatMag, hp, if_neg hbig, hmax, roundGrid_self, hcount, hcode, hle, decide_false, Bool.and_false, Bool.false_eq_true, if_false,
    if_neg (show 2 ^ k.fb + F ≠ 0 by omega)]

/-- A subnormal value gives its fraction back where the layout has subnormals. -/
theorem floatMag_subnormal {F : Nat} (hF : F < 2 ^ k.fb) (hflush : k.flush = false) :
    floatMag k md 0 neg F (1 - (k.bias : Int) - k.fb) = some F := by
  by_cases h0 : F = 0
  · simp [floatMag, h0]
  · have hlog : Nat.log2 F < k.fb := (Nat.log2_lt h0).mpr hF
    have hbig : ¬ (2 : Int) ^ (k.eb + 1) < floorLog2 F (1 - (k.bias : Int) - k.fb) := by
      have : (0 : Int) < 2 ^ (k.eb + 1) := by positivity
      rw [floorLog2]
      omega
    have hmax : max (floorLog2 F (1 - (k.bias : Int) - k.fb)) (1 - (k.bias : Int)) = 1 - (k.bias : Int) := by
      rw [floorLog2]
      omega
    simp [floatMag, h0, if_neg hbig, hmax, roundGrid_self, hflush]

/-- A magnitude that is a finite code of the layout is rounded to that code. -/
theorem fltRes_of_floatMag {m c : Nat} {e : Int} (h : floatMag k md 0 neg m e = some c) (hc : c ≤ k.maxc) :
    fltRes k md (.fin neg m e) = signBit k neg + c := by
  simp only [fltRes, encFloat, Val.dy, h, if_pos hc]

end

/-- Settles O20: of the codes that are no NaN, an infinity is kept by IEEE, a normal or subnormal value gives its fields back, and a BF16
subnormal is left out. -/
theorem floatRoundTrip : Obligations.FloatRoundTrip := by
  intro ft md x k hx hnan hsub
  have htop : k.infAtTop := ffOf_infAtTop ft
  have hE := natBits_lt x k.fb k.eb
  have hF := natBits_lt x 0 k.fb
  have hcode := code_of_fields hx
  have hdec := decFloat_of_infAtTop htop x
  rw [magnitude_eq_fields] at hsub
  rw [← signBit] at hcode
  by_cases hinf : natBits x k.fb k.eb = 2 ^ k.eb - 1
  · rw [if_pos hinf] at hdec
    by_cases hF0 : natBits x 0 k.fb = 0
    · rw [if_pos hF0] at hdec
      rw [hdec]
      rw [hinf, hF0, Nat.add_zero] at hcode
      simpa only [fltRes, encFloat, Val.dy, htop.1] using hcode
    · exact absurd (hdec.trans (if_neg hF0)) hnan
  · have hmax : natBits x k.fb k.eb * 2 ^ k.fb + natBits x 0 k.fb ≤ k.maxc := by
      have hbelow : natBits x k.fb k.eb * 2 ^ k.fb + 2 ^ k.fb ≤ (2 ^ k.eb - 1) * 2 ^ k.fb := by
        rw [← Nat.succ_mul]
        exact Nat.mul_le_mul_right _ (by omega)
      have := htop.2
      omega
    rw [if_neg hinf] at hdec
    by_cases hE0 : natBits x k.fb k.eb = 0
    · rw [if_pos hE0] at hdec
      rw [hE0, Nat.zero_mul, Nat.zero_add] at hmax hcode hsub
      by_cases hflush : k.flush = true
      · rw [if_pos hflush] at hdec
        have hF0 : natBits x 0 k.fb = 0 := (hsub hflush).resolve_left (by omega)
        rw [hF0] at hcode hmax
        rw [hdec, fltRes_of_floatMag md _ (c := 0) rfl hmax, hcode]
      · rw [if_neg hflush] at hdec
        rw [hdec, fltRes_of_floatMag md _ (floatMag_subnormal md _ hF (Bool.eq_false_iff.mpr hflush)) hmax, hcode]
    · rw [if_neg hE0] at hdec
      rw [hdec, fltRes_of_floatMag md _ (floatMag_normal md _ (Nat.pos_of_ne_zero hE0) hE hF (ffOf_bias ft)) hmax, hcode]

end Sys2Proof.Machine
end

section
/-! `nop`, `land`, `split` and `loop` (R164, R166, R169, R173). -/

namespace Sys2Proof.Machine

theorem exec_split (k : FB) (s : State) :
    exec (.split k) s = runWord { sh := shBranch (k.view 0x107) } (k.view 0x107) s fun i s1 =>
      if 16 ≤ i.g.stk.length then .error { code := cDiverge }
      else .ok (s1.updGrp i.id fun g => g.pushStk ⟨i.target, i.g.mask, 0#16, .reconv⟩) := rfl

/-- What `loop` does to its group at the boundary, x being the register that it counts down. -/
def Group.looped (g : Group) (n : Nat) (x : W32) (target : W64) : Group :=
  if x = 0#32 then g else if x - 1#32 = 0#32 then g.setS n (x - 1#32) else { g.setS n (x - 1#32) with pc := target }

theorem exec_loop (k : FB) (s : State) :
    exec (.loop k) s = runWord { sh := shLoop (k.view 0x10E), touch := fun _ => [(k.h.dst.toNat, false)] } (k.view 0x10E) s fun i s1 =>
      .ok (s1.endClause i fun g => g.looped (i.v.dst - 0x30) (i.g.si (i.v.dst - 0x30)) i.target) := rfl

theorem Iss.dst_of_view {w : Iss} {k : FB} {opc : Nat} (hv : w.v = k.view opc) : w.v.dst = k.h.dst.toNat := by
  rw [hv]
  rfl

theorem Group.looped_zero (g : Group) (n : Nat) (target : W64) : g.looped n 0#32 target = g := if_pos rfl

theorem Group.looped_one (g : Group) (n : Nat) (target : W64) : g.looped n 1#32 target = g.setS n 0#32 := rfl

theorem Group.looped_more (g : Group) (n : Nat) {x : W32} (target : W64) (h0 : x ≠ 0#32) (h1 : x ≠ 1#32) :
    g.looped n x target = { g.setS n (x - 1#32) with pc := target } := by
  rw [Group.looped, if_neg h0, if_neg]
  exact fun h => h1 (sub_eq_zero.mp h)

/-- Settles O32: `nop` and `land` act as the identity, and the cases of `split` and `loop` are the branches of their meanings. -/
theorem straightControl : Obligations.StraightControl := by
  refine ⟨fun k => ⟨wordActs_of fun _ => rfl, wordActs_of fun _ => rfl, by decide⟩, fun k => ⟨?_, ?_⟩, fun k => ⟨?_, ?_, ?_⟩⟩
  · refine wordDoes_of (exec_split k) fun w s hv hroom => ?_
    rw [if_neg (by omega), Iss.target_of_view hv]
    rfl
  · exact wordFaults_of (exec_split k) fun w s _ hfull => if_pos hfull
  · refine wordEnds_of (exec_loop k) fun w s hv hx => ?_
    rw [Iss.dst_of_view hv, hx]
    simp only [Group.looped_zero]
  · refine wordEnds_of (exec_loop k) fun w s hv hx => ?_
    rw [Iss.dst_of_view hv, hx]
    rfl
  · refine wordEnds_of (exec_loop k) fun w s hv hx => ?_
    rw [Iss.dst_of_view hv, Iss.target_of_view hv]
    simp only [Group.looped_more _ _ _ hx.1 hx.2]
    rfl

end Sys2Proof.Machine
end

section
/-! `jt` and `callt` (R170 to R173). -/

namespace Sys2Proof.Machine

/-! ### The distinct indices in ascending order -/

theorem mem_insertIdx (x y : Nat) (l : List Nat) : y ∈ insertIdx x l ↔ y = x ∨ y ∈ l := by
  induction l with
  | nil => simp [insertIdx]
  | cons z zs ih =>
    unfold insertIdx
    split
    · simp
    · split
      · next h => simp [h]
      · simp [ih, or_left_comm]

theorem insertIdx_sorted (x : Nat) {l : List Nat} (h : l.Pairwise (· < ·)) : (insertIdx x l).Pairwise (· < ·) := by
  induction l with
  | nil => simp [insertIdx]
  | cons z zs ih =>
    obtain ⟨hz, hzs⟩ := List.pairwise_cons.mp h
    unfold insertIdx
    split
    next hlt => exact List.pairwise_cons.mpr ⟨fun y hy => (List.mem_cons.mp hy).elim (· ▸ hlt) fun hy => hlt.trans (hz y hy), h⟩
    next hge =>
      split
      · exact h
      next hne =>
        refine List.pairwise_cons.mpr ⟨fun y hy => ?_, ih hzs⟩
        obtain rfl | hy := (mem_insertIdx x y zs).mp hy
        · omega
        · exact hz y hy

/-- Inserting the indices of some threads one by one. -/
theorem foldl_insertIdx (f : Nat → Nat) (ths l : List Nat) (h : l.Pairwise (· < ·)) :
    (ths.foldl (fun l th => insertIdx (f th) l) l).Pairwise (· < ·) ∧
      ∀ x, x ∈ ths.foldl (fun l th => insertIdx (f th) l) l ↔ x ∈ l ∨ ∃ th ∈ ths, f th = x := by
  induction ths generalizing l with
  | nil => simpa using h
  | cons t ts ih =>
    obtain ⟨hsorted, hmem⟩ := ih _ (insertIdx_sorted (f t) h)
    refine ⟨hsorted, fun x => ?_⟩
    rw [List.foldl_cons, hmem, mem_insertIdx]
    simp only [List.mem_cons, exists_eq_or_imp]
    tauto

/-- A strictly ascending list with the indices of the active threads is the list of indices. -/
theorem Iss.indices_eq {w : Iss} {ds : List Nat} (h : ds.Pairwise (· < ·)) (hm : ∀ x, x ∈ ds ↔ ∃ th ∈ w.g.actives w.v, w.a th = x) :
    w.indices = ds := by
  obtain ⟨hsorted, hmem⟩ := foldl_insertIdx w.a (w.g.actives w.v) [] List.Pairwise.nil
  have hperm : List.Perm w.indices ds := by
    refine (List.perm_ext_iff_of_nodup (hsorted.imp Nat.ne_of_lt) (h.imp Nat.ne_of_lt)).mpr fun x => ?_
    rw [hm x]
    simpa using hmem x
  exact hperm.eq_of_pairwise (fun a b _ _ hab hba => absurd hab (Nat.lt_asymm hba)) hsorted h

/-- Reading succeeds for a list where it does for each element. -/
theorem mapM_ok {ε α β : Type} {f : α → Except ε β} {g : α → β} {l : List α} (h : ∀ x ∈ l, f x = .ok (g x)) : l.mapM f = .ok (l.map g) := by
  induction l with
  | nil => rfl
  | cons x xs ih =>
    rw [List.mapM_cons, h x List.mem_cons_self, ih fun y hy => h y (List.mem_cons_of_mem x hy)]
    rfl

/-! ### The words -/

/-- The table that a word names (R170). -/
def tableOf (v : View) : Nat := natBits v.efunc 0 8

/-- The entry of a word that reads a jump table. -/
def tableEntry (v : View) (js : Iss → List Nat) : Entry := { sh := shTable v, vas := tableVas, more := tableMore (tableOf v) js }

theorem exec_jt (k : FR) (s : State) : exec (.jt k) s = execJt k s := rfl
theorem exec_callt (k : FR) (s : State) : exec (.callt k) s = execCallt k s := rfl

section
variable {k : FR} {s : State} {w : Iss} {t : JTab} {e : Entry}

theorem jt_to_target {pc : W64} (he : e = tableEntry (k.view .fr 0x101) fun i => [i.ua]) (hw : s.issues e (k.view .fr 0x101) w)
    (ht : readTable s (w.ready e) (tableOf (k.view .fr 0x101)) = .ok t) (hj : (w.ready e).ua < t.len)
    (hpc : tableTarget s (w.ready e) t (w.ready e).ua = .ok pc) :
    exec (.jt k) s = .next (s.didEnd e w fun g => { g with pc := pc, land := some (t.label, false) }) := by
  rw [tableOf] at ht
  rw [exec_jt, execJt]
  refine (congrArg (fun e => runWord e _ s _) he.symm).trans (runWord_ok hw ?_)
  rw [State.didEnd]
  generalize w.ready e = i at *
  simp only [ht, hpc, bind, Except.bind, if_neg (not_le.mpr hj)]
  rfl

theorem jt_no_entry (he : e = tableEntry (k.view .fr 0x101) fun i => [i.ua]) (hw : s.issues e (k.view .fr 0x101) w)
    (ht : readTable s (w.ready e) (tableOf (k.view .fr 0x101)) = .ok t) (hj : t.len ≤ (w.ready e).ua) :
    exec (.jt k) s = .next ((s.arrived e w).wordFault w { code := 0x0008, addr := w.t.kd.jtab.toNat, detail := (w.ready e).ua }) := by
  obtain ⟨hi, hx, hf, hp⟩ := hw
  rw [tableOf] at ht
  rw [exec_jt, execJt]
  refine (congrArg (fun e => runWord e _ s _) he.symm).trans ((runWord_late hi hx hf
    (x := { code := cJtRange, addr := w.t.kd.jtab.toNat, detail := (w.ready e).ua }) ?_ (by rw [hp]; simp)).trans ?_)
  · have hjt : w.t.kd.jtab = (w.ready e).t.kd.jtab := rfl
    rw [hjt]
    generalize w.ready e = i at *
    simp only [ht, bind, Except.bind, if_pos hj]
  · rw [hp, State.countWalks_nil]
    rfl

theorem callt_idle (he : e = tableEntry (k.view .fr 0x104) Iss.indices) (hw : s.issues e (k.view .fr 0x104) w)
    (ht : readTable s (w.ready e) (tableOf (k.view .fr 0x104)) = .ok t) (ha : (w.ready e).g.actives (k.view .fr 0x104) = []) :
    exec (.callt k) s = .next (s.didEnd e w id) := by
  rw [tableOf] at ht
  rw [exec_callt, execCallt]
  refine (congrArg (fun e => runWord e _ s _) he.symm).trans (runWord_ok hw ?_)
  rw [State.didEnd]
  generalize w.ready e = i at *
  simp only [ht, ha, bind, Except.bind]
  rfl

/-- The thread sets of `callt`, each with its target. -/
theorem callt_to_targets {d : Nat} {ds : List Nat} {f sel : Nat → W64} (he : e = tableEntry (k.view .fr 0x104) Iss.indices)
    (hw : s.issues e (k.view .fr 0x104) w) (ht : readTable s (w.ready e) (tableOf (k.view .fr 0x104)) = .ok t)
    (hds : (d :: ds).Pairwise (· < ·)) (hlen : ∀ x ∈ d :: ds, x < t.len)
    (hmem : ∀ x, x ∈ d :: ds ↔ ∃ th ∈ (w.ready e).g.actives (k.view .fr 0x104), (w.ready e).a th = x)
    (htg : ∀ x ∈ d :: ds, tableTarget s (w.ready e) t x = .ok (f x)) (hroom : w.g.stk.length + ds.length < 16)
    (hsel : ∀ x, sel x = idxMask (w.ready e) ((w.ready e).g.actives (k.view .fr 0x104)) fun y => y == x) :
    exec (.callt k) s = .next (s.didEnd e w fun g =>
      { g with stk := ds.map (fun x => ⟨f x, sel x, t.label, .target⟩) ++ ⟨w.g.nextClause, w.g.mask, 0#16, .call⟩ :: g.stk, mask := sel d,
               pc := f d, land := some (t.label, true) }) := by
  rw [tableOf] at ht
  rw [exec_callt, execCallt]
  refine (congrArg (fun e => runWord e _ s _) he.symm).trans (runWord_ok hw ?_)
  have hv : (w.ready e).v = k.view .fr 0x104 := (State.iss?_some hw.1).1
  rw [State.didEnd, ← w.ready_mask e, ← w.ready_nextClause e]
  rw [← w.ready_stk e] at hroom
  generalize w.ready e = i at *
  have hidx : i.indices = d :: ds := Iss.indices_eq hds (hv.symm ▸ hmem)
  have hact : i.g.actives (k.view .fr 0x104) ≠ [] := fun h => by simpa [h] using hmem d
  have hfind : (i.g.actives (k.view .fr 0x104)).find? (fun th => decide (t.len ≤ i.a th)) = none := by
    refine List.find?_eq_none.mpr fun th hth => ?_
    have := hlen (i.a th) ((hmem _).mpr ⟨th, hth, rfl⟩)
    simpa using this
  obtain ⟨th, ths, hths⟩ := List.exists_cons_of_ne_nil hact
  rw [hths] at hfind hsel
  have hread : (d :: ds).reverse.mapM (fun x => (tableTarget s i t x).map fun pc => (pc, idxMask i (th :: ths) fun y => y == x)) =
      .ok ((d :: ds).reverse.map fun x => (f x, sel x)) := mapM_ok fun x hx => by
    rw [htg x (List.mem_reverse.mp hx), hsel x]
    rfl
  simp only [ht, bind, Except.bind, hths, hfind, hidx, hread]
  rw [if_neg (by rw [List.length_cons]; omega), ← List.map_reverse, List.reverse_reverse, List.map_cons]
  simp only [List.map_map]
  exact congrArg Except.ok (State.endClause_congr _ _ fun g hg => by rw [hg]; rfl)

end

/-- Settles O33: the cases of R171 and R172 are the branches of `jt` and `callt`. -/
theorem tableWords : Obligations.TableWords := by
  intro k
  refine ⟨fun s w t pc hw ht hj hpc => jt_to_target rfl hw ht hj hpc, fun s w t hw ht hj => jt_no_entry rfl hw ht hj,
    fun s w t hw ht ha => callt_idle rfl hw ht ha, fun s w t d ds f hw ht hds hlen hmem htg hroom => ?_⟩
  exact callt_to_targets rfl hw ht hds hlen hmem htg hroom fun _ => rfl

end Sys2Proof.Machine
end

section
/-! `exit`, `phase` and `succ` (R43, R49, R50, R168). -/

namespace Sys2Proof.Machine

/-! ### Words through their meaning -/

/-- A word that issues completes with what its effect answers. -/
theorem exec_next_of {i : Instr} {e : Entry} {v : View} {s t : State} {w : Iss} {eff : Iss → State → Except Exc State}
    (h : exec i s = runWord e v s eff) (hw : s.issues e v w) (he : eff (w.ready e) (s.moved e w) = .ok t) : exec i s = .next t :=
  h.trans (runWord_ok hw he)

/-- A word that issues faults with what its effect raises. -/
theorem exec_fault_of {i : Instr} {e : Entry} {v : View} {s : State} {w : Iss} {x : Exc} {eff : Iss → State → Except Exc State}
    (h : exec i s = runWord e v s eff) (hw : s.issues e v w) (he : eff (w.ready e) (s.moved e w) = .error x) :
    exec i s = .next ((s.arrived e w).wordFault w x) := by
  obtain ⟨hi, hx, hf, hp⟩ := hw
  rw [h, runWord_late hi hx hf he (by rw [hp]; simp), hp, State.countWalks_nil]

/-! ### The group past its clause -/

/-- The group of a terminal word as the word's own change finds it. -/
def Iss.past (e : Entry) (w : Iss) : Group := ((w.ready e).g.advance (w.ready e).g w.v w.sh).goto w.g.nextClause

theorem Iss.past_live (e : Entry) (w : Iss) : (w.past e).live = w.g.live := by
  obtain ⟨_, _, _, _, _, _, _, _, _, h⟩ := (w.ready e).g.advance_form (w.ready e).g w.v w.sh
  rw [Iss.past, h, ← w.ready_live e]
  rfl

theorem Iss.past_mask (e : Entry) (w : Iss) : (w.past e).mask = w.g.mask := by
  obtain ⟨_, _, _, _, _, _, _, _, _, h⟩ := (w.ready e).g.advance_form (w.ready e).g w.v w.sh
  rw [Iss.past, h, ← w.ready_mask e]
  rfl

/-- Two changes of a terminal word's group that agree on that group. -/
theorem State.didEnd_congr (s : State) (e : Entry) (w : Iss) {f f' : Group → Group} (h : f (w.past e) = f' (w.past e)) :
    s.didEnd e w f = s.didEnd e w f' := by
  have := s.moved_congr e w (f := fun g => f (g.goto w.g.nextClause)) (f' := fun g => f' (g.goto w.g.nextClause)) h
  simp only [State.didEnd, State.endClause, Iss.ready_id, Iss.ready_nextClause, this]

theorem State.grp?_didEnd {s : State} {e : Entry} {v : View} {w : Iss} (hw : s.issues e v w) (f : Group → Group) :
    (s.didEnd e w f).grp? w.id = some (f (w.past e)) := by
  obtain ⟨-, -, -, -, -, hg⟩ := State.iss?_some hw.1
  have := State.grp?_updGrp_self (fun g => f (g.goto w.g.nextClause)) (State.grp?_moved (e := e) hg)
  rw [State.didEnd, State.endClause, Iss.ready_id, Iss.ready_nextClause]
  exact this

theorem resumeFrom_live (g : Group) (es : List StkEnt) : (resumeFrom g es).live = g.live := by
  induction es with
  | nil => rfl
  | cons e es ih =>
    rw [resumeFrom]
    split
    · exact ih
    · rfl

theorem Group.resume_live (g : Group) : g.resume.live = g.live := resumeFrom_live g g.stk

/-! ### `exit` -/

/-- What `exit` leaves of its group when the threads of a mask leave (R168). -/
def Group.without (g : Group) (m : W64) : Group :=
  if g.live &&& ~~~ m = 0#64 then
    { ({ g with live := g.live &&& ~~~ m, mask := g.mask &&& ~~~ m } : Group).deliver fun _ => true with resv := [], monitor := none }
  else if g.mask &&& ~~~ m = 0#64 then ({ g with live := g.live &&& ~~~ m, mask := g.mask &&& ~~~ m } : Group).resume
  else { g with live := g.live &&& ~~~ m, mask := g.mask &&& ~~~ m }

theorem Group.without_live (g : Group) (m : W64) : (g.without m).live = g.live &&& ~~~ m := by
  unfold Group.without
  split
  · obtain ⟨_, _, _, h⟩ := Group.deliver_form { g with live := g.live &&& ~~~ m, mask := g.mask &&& ~~~ m } fun _ => true
    rw [h]
  · split
    · rw [Group.resume_live]
    · rfl

theorem exec_exit (k : FS) (s : State) :
    exec (.exit k) s = runWord { sh := shExit (k.view 0x106) } (k.view 0x106) s fun i s1 =>
      .ok (if i.mask = 0#64 then s1.endClause i id
        else if ((s1.endClause i fun g => g.without i.mask).grp? i.id).any Group.exited then (s1.endClause i fun g => g.without i.mask).groupExit i.id
        else s1.endClause i fun g => g.without i.mask) := rfl

section
variable {k : FS} {s : State} {w : Iss} {e : Entry}

/-- With an active thread `exit` takes them out, and the group exits where none is left. -/
theorem exit_active (he : e = { sh := shExit (k.view 0x106) }) (hw : s.issues e (k.view 0x106) w) (hm : (w.ready e).mask ≠ 0#64) :
    exec (.exit k) s = .next (if (w.ready e).g.live &&& ~~~ (w.ready e).mask = 0#64
      then (s.didEnd e w fun g => g.without (w.ready e).mask).groupExit w.id else s.didEnd e w fun g => g.without (w.ready e).mask) := by
  subst he
  have hg := State.grp?_didEnd hw fun g => g.without (w.ready { sh := shExit (k.view 0x106) }).mask
  refine exec_next_of (exec_exit k s) hw ?_
  rw [if_neg hm, ← State.didEnd, Iss.ready_id, hg]
  simp only [Option.any_some, Group.exited, Group.without_live, Iss.past_live, Iss.ready_live, beq_iff_eq]

end

theorem exitWord (k : FS) {v : View} {e : Entry} (hv : v = k.view 0x106) (he : e = { sh := shExit v }) :
    let live := fun (w : Iss) => w.g.live &&& ~~~ w.mask
    let mask := fun (w : Iss) => w.g.mask &&& ~~~ w.mask
    wordEnds (.exit k) e v (fun w => w.mask = 0#64) (fun _ g => g) ∧
    (∀ s w, s.issues e v w → (w.ready e).mask ≠ 0#64 → live (w.ready e) ≠ 0#64 → mask (w.ready e) ≠ 0#64 →
      exec (.exit k) s = .next (s.didEnd e w fun g => { g with live := live (w.ready e), mask := mask (w.ready e) })) ∧
    (∀ s w, s.issues e v w → (w.ready e).mask ≠ 0#64 → live (w.ready e) ≠ 0#64 → mask (w.ready e) = 0#64 →
      exec (.exit k) s = .next (s.didEnd e w fun g => ({ g with live := live (w.ready e), mask := 0#64 } : Group).resume)) ∧
    (∀ s w, s.issues e v w → (w.ready e).mask ≠ 0#64 → live (w.ready e) = 0#64 →
      exec (.exit k) s = .next ((s.didEnd e w fun g =>
        { ({ g with live := 0#64, mask := mask (w.ready e) } : Group).deliver (fun _ => true) with resv := [], monitor := none }).groupExit
          w.id)) := by
  subst hv he
  intro live mask
  refine ⟨wordEnds_of (exec_exit k) fun w s _ hm => by rw [if_pos hm]; rfl, fun s w hw hm hl hk => ?_, fun s w hw hm hl hk => ?_, fun s w hw hm hl => ?_⟩
  · have hl' := hl
    simp only [live, mask, Iss.ready_live, Iss.ready_mask] at hl hk ⊢
    rw [exit_active rfl hw hm, if_neg hl']
    refine congrArg _ (s.didEnd_congr _ w ?_)
    rw [Group.without, Iss.past_live, Iss.past_mask, if_neg hl, if_neg hk]
  · have hl' := hl
    simp only [live, mask, Iss.ready_live, Iss.ready_mask] at hl hk ⊢
    rw [exit_active rfl hw hm, if_neg hl']
    refine congrArg _ (s.didEnd_congr _ w ?_)
    rw [Group.without, Iss.past_live, Iss.past_mask, if_neg hl, if_pos hk, hk]
  · have hl' := hl
    simp only [live, mask, Iss.ready_live, Iss.ready_mask] at hl ⊢
    rw [exit_active rfl hw hm, if_pos hl']
    refine congrArg (fun t => Host.Outcome.next (State.groupExit t w.id)) (s.didEnd_congr _ w ?_)
    rw [Group.without, Iss.past_live, Iss.past_mask, if_pos hl, hl]

/-! ### `phase` and `succ` -/

theorem exec_succ (k : FR) (s : State) : exec (.succ k) s = execSucc k s := rfl

/-- Settles O34: `exit` by the threads that it leaves, `phase` and `succ` by their meanings. -/
theorem leavingWords : Obligations.LeavingWords := by
  refine ⟨fun k => exitWord k rfl rfl, fun k => ?_, fun k => ⟨?_, fun s w x hw hx => ?_⟩⟩
  · exact wordDoes_of (eff := fun i s1 => .ok (((s1.endWait i .phase).updTeam i.id.1 fun t => { t with last := i.id.2 }).arrive i.id.1))
      (fun _ => rfl) fun _ _ _ _ => rfl
  · refine wordDoes_of (fun s => (exec_succ k s).trans (by rw [execSucc])) fun w s _ hp => ?_
    obtain ⟨p, hp⟩ := hp
    simp only [hp, bind, Except.bind]
    rfl
  · refine exec_fault_of ((exec_succ k s).trans (by rw [execSucc])) hw ?_
    simp only [Iss.ready_c, hx, bind, Except.bind]

end Sys2Proof.Machine
end

section
/-! What a result leaves in each thread (R105 to R108). -/

namespace Sys2Proof.Machine

/-! ### One register -/

theorem Thread.ni_setN (t : Thread) (i j : Nat) (x : W32) : (t.setN i x).ni j = if i = j ∧ j < 32 then x else t.ni j := by
  simp only [Thread.ni, Thread.setN, Vector.getD, Vector.getElem_setIfInBounds]
  by_cases hj : j < 32
  · by_cases hij : i = j <;> simp [hj, hij]
  · simp [hj]

theorem Thread.ki_setK (t : Thread) {i : Nat} (j : Nat) (b : Bool) (h0 : i ≠ 0) (h8 : i < 8) :
    (t.setK i b).ki j = if i = j then b else t.ki j := by
  have hbit : (BitVec.ofNat 8 (2 ^ i)).getLsbD j = decide (i = j) := by
    rw [BitVec.getLsbD_ofNat, Nat.testBit_two_pow]
    by_cases hij : i = j <;> simp [hij, h8]
    omega
  have hj : i = j → j ≠ 0 := fun h => h ▸ h0
  rw [Thread.setK, if_neg h0]
  generalize BitVec.ofNat 8 (2 ^ i) = m at hbit ⊢
  cases b
  · simp only [Thread.ki, Bool.false_eq_true, if_false, BitVec.getLsbD_and, BitVec.getLsbD_not, hbit]
    by_cases hij : i = j
    · simp [hij, hj hij]
    · have hk : j < 8 ∨ t.k.getLsbD j = false := (Nat.lt_or_ge j 8).imp_right fun h => BitVec.getLsbD_of_ge _ _ h
      rcases hk with hk | hk <;> simp [hij, hk]
  · simp only [Thread.ki, if_true, BitVec.getLsbD_or, hbit]
    by_cases hij : i = j <;> simp [hij]

theorem Thread.setK_zero (t : Thread) (b : Bool) : t.setK 0 b = t := if_pos rfl

theorem Thread.qi_push (t : Thread) (new : List W32) {i : Nat} (h : i < 16) :
    (t.push new).qi i = if i < new.length then new.getD i 0#32 else t.qi (i - new.length) := by
  simp only [Thread.qi, Thread.push, queueOf, Vector.getD, Array.getD_eq_getD_getElem?, List.getElem?_toArray, List.getElem?_take, if_pos h,
    List.getElem?_append, List.getD_eq_getElem?_getD]
  split
  · rfl
  · rw [Vector.toList, Array.getElem?_toList]

theorem Group.si_setS (g : Group) (i j : Nat) (x : W32) : (g.setS i x).si j = if i = j ∧ j < 32 then x else g.si j := by
  simp only [Group.si, Group.setS, Vector.getD, Vector.getElem_setIfInBounds]
  by_cases hj : j < 32
  · by_cases hij : i = j <;> simp [hj, hij]
  · simp [hj]

theorem Group.thread_mapThreads (g : Group) (f : Nat → Thread → Thread) {th : Nat} (h : th < g.width) :
    (g.mapThreads f).thread th = f th (g.thread th) := by
  have h' : th < g.threads.length := h
  simp [Group.thread, Group.mapThreads, List.getD_eq_getElem?_getD, List.getElem?_mapIdx, h']

/-! ### What a write of one register leaves -/

section
variable (t : Thread) (i : Nat) (x : W32) (b : Bool) (wide : Bool) (y : Nat) (new : List W32)

@[simp] theorem Thread.setK_q : (t.setK i b).q = t.q := by unfold Thread.setK; split <;> rfl
@[simp] theorem Thread.setK_n : (t.setK i b).n = t.n := by unfold Thread.setK; split <;> rfl
@[simp] theorem Thread.setK_sr : (t.setK i b).sr = t.sr := by unfold Thread.setK; split <;> rfl
@[simp] theorem Thread.setK_h : (t.setK i b).h = t.h := by unfold Thread.setK; split <;> rfl
@[simp] theorem Thread.setNamed_q : (t.setNamed i wide y).q = t.q := by cases wide <;> rfl
@[simp] theorem Thread.setNamed_k : (t.setNamed i wide y).k = t.k := by cases wide <;> rfl
@[simp] theorem Thread.setNamed_sr : (t.setNamed i wide y).sr = t.sr := by cases wide <;> rfl
@[simp] theorem Thread.setNamed_h : (t.setNamed i wide y).h = t.h := by cases wide <;> rfl

theorem Thread.ni_setNamed (j : Nat) : (t.setNamed i wide y).ni j =
    if wide = true ∧ i + 1 = j ∧ j < 32 then hi32 y else if i = j ∧ j < 32 then lo32 y else t.ni j := by
  cases wide <;> simp [Thread.setNamed, Thread.ni_setN]

theorem Thread.entries_length (act : Bool) : (t.entries wide act y).length = if wide then 2 else 1 := by
  cases wide <;> cases act <;> rfl

end

/-! ### The result of a non-uniform word in one thread -/

section
variable (t : Thread) {dst : Nat} (wide act : Bool) (x : Nat)

theorem Thread.write_push (h : dst = 0 ∨ 0x10 ≤ dst) :
    ∃ t' : Thread, t'.q = t.q ∧ t.write dst wide act x = t'.push (t.entries wide act x) := by
  unfold Thread.write
  rcases h with rfl | h
  · exact ⟨t, rfl, rfl⟩
  · rw [if_neg (by omega), if_neg (by omega), if_neg (by omega)]
    exact ⟨_, by split <;> simp, rfl⟩

theorem Thread.write_qi (h : dst = 0 ∨ 0x10 ≤ dst) {i : Nat} (hi : i < 16) :
    (t.write dst wide act x).qi i =
      if i < (if wide then 2 else 1) then (t.entries wide act x).getD i 0#32 else t.qi (i - if wide then 2 else 1) := by
  obtain ⟨t', hq, ht⟩ := t.write_push wide act x h
  rw [ht, Thread.qi_push _ _ hi, Thread.entries_length, Thread.qi, hq]
  rfl

theorem Thread.write_q (h : ¬ (dst = 0 ∨ 0x10 ≤ dst)) (h8 : dst ≤ 8) : (t.write dst wide act x).q = t.q := by
  have h0 : dst ≠ 0 := fun h' => h (.inl h')
  unfold Thread.write
  split
  · rfl
  next h1 =>
    rw [if_pos (by omega)]
    split <;> simp

theorem Thread.write_ni (hd : dst ≤ 8 ∨ 0x10 ≤ dst) (j : Nat) : (t.write dst wide act x).ni j =
    if act = true ∧ 0x10 ≤ dst then (t.setNamed (dst - 0x10) wide x).ni j else t.ni j := by
  unfold Thread.write
  split
  next h => subst h; simp
  next h8 =>
    split
    next h => subst h; simp [Thread.ni]
    next h0 =>
      split
      next h => cases act <;> simp [Thread.ni, show ¬ 16 ≤ dst by omega]
      next h => cases act <;> simp [Thread.ni, show 16 ≤ dst by omega]

theorem Thread.write_ki (hd : dst ≤ 8 ∨ 0x10 ≤ dst) (j : Nat) : (t.write dst wide act x).ki j =
    if act = true ∧ 0 < dst ∧ dst < 8 then (t.setK dst (x % 2 == 1)).ki j else t.ki j := by
  unfold Thread.write
  split
  next h => subst h; simp
  next h8 =>
    split
    next h => subst h; simp [Thread.ki]
    next h0 =>
      split
      next h => cases act <;> simp [Thread.ki, h, Nat.pos_of_ne_zero h0]
      next h => cases act <;> simp [Thread.ki, h]

theorem Thread.write_sr : (t.write dst wide act x).sr = t.sr := by
  unfold Thread.write
  (repeat' split) <;> simp

theorem Thread.write_h : (t.write dst wide act x).h = t.h := by
  unfold Thread.write
  (repeat' split) <;> simp

/-- A result changes its destination only (R105). -/
theorem Thread.write_sameBut (hd : dst ≤ 8 ∨ 0x10 ≤ dst) : t.sameBut (t.write dst wide act x) dst wide := by
  refine ⟨fun i hi hne hw => ?_, fun i hne => ?_⟩
  · rw [Thread.write_ni t wide act x hd, Thread.ni_setNamed]
    have h1 : dst - 0x10 ≠ i ∨ ¬ 0x10 ≤ dst := by omega
    have h2 : ¬ (wide = true ∧ dst - 0x10 + 1 = i) ∨ ¬ 0x10 ≤ dst := by
      by_cases hw' : wide = true
      · have := hw hw'
        omega
      · simp [hw']
    by_cases h16 : 0x10 ≤ dst
    · rw [if_neg (c := wide = true ∧ _) (by tauto), if_neg (c := dst - 0x10 = i ∧ _) (by tauto), ite_self]
    · simp [h16]
  · rw [Thread.write_ki t wide act x hd]
    split
    next h => rw [Thread.ki_setK t i _ h.2.1.ne' h.2.2, if_neg (Ne.symm hne)]
    next => rfl

end

/-! ### The result in a group -/

theorem Group.thread_result (g : Group) {v : View} (hu : v.u = false) (wide : Bool) (act : Nat → Bool) (x : Nat → Nat) {th : Nat}
    (h : th < g.width) : (g.result v wide act x).thread th = (g.thread th).write v.dst wide (act th) (x th) := by
  rw [← g.thread_mapThreads (fun th t => t.write v.dst wide (act th) (x th)) h, Group.result, hu, Group.writeAll]
  simp only [Bool.false_eq_true, if_false]
  split <;> rfl

theorem Group.s_result (g : Group) {v : View} (hu : v.u = false) (wide : Bool) (act : Nat → Bool) (x : Nat → Nat) :
    (g.result v wide act x).s = g.s := by
  rw [Group.result, hu, Group.writeAll]
  simp only [Bool.false_eq_true, if_false]
  split <;> rfl

/-- A uniform word writes a predicate of every thread, or a uniform register. -/
theorem Group.thread_writeUni (g : Group) (dst : Nat) (wide : Bool) (x : Nat) {th : Nat} (h : th < g.width) :
    (g.writeUni dst wide x).thread th = if dst < 8 then (g.thread th).setK dst (x % 2 == 1) else g.thread th := by
  unfold Group.writeUni
  split
  next h8 => rw [if_neg (by omega)]
  next =>
    split
    · exact g.thread_mapThreads (fun _ t => t.setK dst (x % 2 == 1)) h
    · split <;> rfl

theorem Group.si_writeUni (g : Group) {dst : Nat} (wide : Bool) (x : Nat) (h : 0x30 ≤ dst) (j : Nat) :
    (g.writeUni dst wide x).si j = if wide = true ∧ dst - 0x2F = j ∧ j < 32 then hi32 x else if dst - 0x30 = j ∧ j < 32 then lo32 x else g.si j := by
  rw [Group.writeUni, if_neg (by omega), if_neg (by omega)]
  cases wide <;> simp [Group.si_setS]

theorem Group.result_uniform (g : Group) {v : View} (hu : v.u = true) (wide : Bool) (act : Nat → Bool) (x : Nat → Nat) :
    g.result v wide act x = g.writeUni v.dst wide (x 0) := by
  rw [Group.result, if_pos hu]

theorem Thread.setK_sameBut (t : Thread) {dst : Nat} (wide b : Bool) (h : dst < 8) : t.sameBut (t.setK dst b) dst wide := by
  refine ⟨fun i _ _ _ => by simp [Thread.ni], fun i hne => ?_⟩
  by_cases h0 : dst = 0
  · rw [h0, Thread.setK_zero]
  · rw [Thread.ki_setK t i b h0 h, if_neg (Ne.symm hne)]

theorem Thread.sameBut_self (t : Thread) (dst : Nat) (wide : Bool) : t.sameBut t dst wide := ⟨fun _ _ _ _ => rfl, fun _ _ => rfl⟩

/-- What a uniform word leaves in a thread. -/
theorem resultRules_uniform (g : Group) (v : View) (wide : Bool) (act : Nat → Bool) (x : Nat → Nat) {th : Nat} (hth : th < g.width)
    (hu : v.u = true) :
    let t := g.thread th
    let u := (g.result v wide act x).thread th
    (u.q = t.q ∧ u.n = t.n ∧ (1 ≤ v.dst → v.dst ≤ 7 → u.ki v.dst = (x 0 % 2 == 1))) ∧ t.sameBut u v.dst wide ∧ u.sr = t.sr ∧ u.h = t.h := by
  intro t u
  have hthread : u = if v.dst < 8 then t.setK v.dst (x 0 % 2 == 1) else t := by
    rw [← g.thread_writeUni v.dst wide (x 0) hth, ← g.result_uniform hu wide act x]
  rw [hthread]
  by_cases h8 : v.dst < 8
  · rw [if_pos h8]
    refine ⟨⟨t.setK_q _ _, t.setK_n _ _, fun h1 _ => ?_⟩, t.setK_sameBut wide _ h8, t.setK_sr _ _, t.setK_h _ _⟩
    rw [Thread.ki_setK t _ _ (by omega) h8, if_pos rfl]
  · rw [if_neg h8]
    exact ⟨⟨rfl, rfl, fun _ h7 => absurd (Nat.lt_succ_of_le h7) h8⟩, t.sameBut_self v.dst wide, rfl, rfl⟩

/-- What a non-uniform word leaves in a thread. -/
theorem resultRules_thread (t : Thread) {dst : Nat} (wide act : Bool) (x : Nat) (hd : dst ≤ 8 ∨ 0x10 ≤ dst) :
    let u := t.write dst wide act x
    let n := if wide then 2 else 1
    (dst = 0 ∨ 0x10 ≤ dst →
      (∀ i, n ≤ i → i < 16 → u.qi i = t.qi (i - n)) ∧ (u.qi 0 = if act then BitVec.ofNat 32 x else t.qi 0) ∧
      (wide = true → u.qi 1 = if act then BitVec.ofNat 32 (x / 2 ^ 32) else t.qi 1)) ∧
    (¬ (dst = 0 ∨ 0x10 ≤ dst) → u.q = t.q) ∧
    (0x10 ≤ dst → dst + n ≤ 0x30 →
      (u.ni (dst - 0x10) = if act then BitVec.ofNat 32 x else t.ni (dst - 0x10)) ∧
      (wide = true → u.ni (dst - 0x0F) = if act then BitVec.ofNat 32 (x / 2 ^ 32) else t.ni (dst - 0x0F))) ∧
    (1 ≤ dst → dst ≤ 7 → u.ki dst = if act then x % 2 == 1 else t.ki dst) := by
  intro u n
  have hn : n = if wide then 2 else 1 := rfl
  refine ⟨fun h => ⟨fun i hni hi => ?_, ?_, fun hw => ?_⟩, fun h => ?_, fun h16 htop => ⟨?_, fun hw => ?_⟩, fun h1 h7 => ?_⟩
  · rw [Thread.write_qi t wide act x h hi, ← hn, if_neg (by omega)]
  · rw [Thread.write_qi t wide act x h (by decide)]
    cases wide <;> cases act <;> rfl
  · subst hw
    rw [Thread.write_qi t true act x h (by decide)]
    cases act <;> rfl
  · exact t.write_q wide act x h (by omega)
  · rw [Thread.write_ni t wide act x hd, Thread.ni_setNamed]
    cases act
    · simp
    · rw [if_pos ⟨rfl, h16⟩, if_neg (by omega), if_pos (by constructor; rfl; split at hn <;> omega)]
      rfl
  · subst hw
    rw [if_pos rfl] at hn
    rw [Thread.write_ni t true act x hd, Thread.ni_setNamed]
    cases act
    · simp
    · rw [if_pos ⟨rfl, h16⟩, if_pos ⟨rfl, by omega, by omega⟩]
      rfl
  · rw [Thread.write_ki t wide act x hd, Thread.ki_setK t _ _ (by omega) (by omega), if_pos rfl]
    cases act
    · rfl
    · rw [if_pos ⟨rfl, by omega, by omega⟩]
      rfl

/-- Settles O27: a non-uniform word writes each thread by R105 and R108, a uniform one a predicate of every thread or a uniform register. -/
theorem resultRules : Obligations.ResultRules := by
  intro g v wide act x th hth hd t u n
  cases hu : v.u with
  | false =>
    have hthread : u = t.write v.dst wide (act th) (x th) := g.thread_result hu wide act x hth
    have hrules := resultRules_thread t wide (act th) (x th) hd
    rw [← hthread] at hrules
    refine ⟨fun _ => ⟨g.s_result hu wide act x, hrules⟩, (fun h => nomatch h), ?_, ?_, ?_⟩ <;> rw [hthread]
    · exact t.write_sameBut wide _ _ hd
    · exact t.write_sr wide _ _
    · exact t.write_h wide _ _
  | true =>
    obtain ⟨⟨hq, hnm, hk⟩, hframe⟩ := resultRules_uniform g v wide act x hth hu
    refine ⟨(fun h => nomatch h), fun _ => ⟨hq, hnm, hk, fun h30 htop => ?_⟩, hframe⟩
    have hn : n = if wide then 2 else 1 := rfl
    rw [g.result_uniform hu, Group.si_writeUni g wide _ h30, Group.si_writeUni g wide _ h30]
    refine ⟨?_, fun hw => ?_⟩
    · rw [if_neg (by omega), if_pos (by constructor; rfl; split at hn <;> omega)]
      rfl
    · rw [if_pos ⟨hw, rfl, by omega⟩]
      rfl

end Sys2Proof.Machine
end

section
/-! The frame of the arithmetic words 0x000 to 0x0A4 (R105 to R110): each runs by `runVal`, `runLater` or `runConv`, which change registers,
reservations and the generators of the issuing group alone. -/

namespace Sys2Proof.Machine

/-! ### How an arithmetic word runs -/

/-- The word writes a value at once, reserves one, or converts under the generators of its threads. -/
def arith (i : Instr) (e : Entry) (v : View) (wide : Bool) : Prop :=
  (∃ x, ∀ s, exec i s = runVal e v wide s x) ∨ (∃ load x, ∀ s, exec i s = runLater e v wide load s x) ∨
  (v.opc = 0x080 ∨ v.opc = 0x084) ∧ wide = false ∧ ∃ sr size x res, ∀ s, exec i s = runConv e v s sr size x res

/-- The entry of an arithmetic word. -/
def arithEntry (i : Instr) (v : View) : Entry := if 0x0A0 ≤ v.opc then laneEntry v else { sh := i.shape v }

section
variable {i : Instr} {v : View}

theorem arith_runInt {x : Nat → Nat → Nat → Nat → Nat → Nat} (h : ∀ s, exec i s = runInt v s x) :
    arith i { sh := shInt v } v (Shape.isWide (shInt v)) := .inl ⟨_, h⟩

theorem arith_runIntLater {x : Nat → Nat → Nat → Nat → Nat → Nat} (h : ∀ s, exec i s = runIntLater v s x) :
    arith i { sh := shInt v } v (Shape.isWide (shInt v)) := .inr (.inl ⟨false, _, h⟩)

theorem arith_runFlt {op : Rnd → Val → Val → Val → Val} (h : ∀ s, exec i s = runFlt v s op) : arith i { sh := shFloat v } v false := by
  by_cases hl : (shFloat v).long = true
  · exact .inr (.inl ⟨false, _, fun s => (h s).trans (if_pos hl)⟩)
  · exact .inl ⟨_, fun s => (h s).trans (if_neg hl)⟩

theorem arith_runPacked {op : Rnd → Val → Val → Val → Val} (h : ∀ s, exec i s = runPacked v s op) : arith i { sh := shFloat v } v false :=
  .inl ⟨_, h⟩

theorem arith_runLns {op : Nat → Nat → Nat → Nat} (h : ∀ s, exec i s = runLns v s op) : arith i { sh := shLns v } v false := .inl ⟨_, h⟩

end

/-- The integer, predicate and move words. -/
theorem arith_integer {i : Instr} {v : View} (h : i.view = some v) (ho : v.opc ≤ 0x027) :
    ∃ wide, (i.shape v).dst = .val wide ∧ arith i (arithEntry i v) v wide := by
  cases i with
  | add k => cases h; exact ⟨_, rfl, arith_runInt fun _ => rfl⟩
  | sub k => cases h; exact ⟨_, rfl, arith_runInt fun _ => rfl⟩
  | addc k => cases h; exact ⟨_, rfl, arith_runInt fun _ => rfl⟩
  | subb k => cases h; exact ⟨_, rfl, arith_runInt fun _ => rfl⟩
  | mul k => cases h; exact ⟨_, rfl, arith_runInt fun _ => rfl⟩
  | mulh k => cases h; exact ⟨_, rfl, arith_runInt fun _ => rfl⟩
  | mad k => cases h; exact ⟨_, rfl, arith_runInt fun _ => rfl⟩
  | neg k => cases h; exact ⟨_, rfl, arith_runInt fun _ => rfl⟩
  | abs k => cases h; exact ⟨_, rfl, arith_runInt fun _ => rfl⟩
  | min k => cases h; exact ⟨_, rfl, arith_runInt fun _ => rfl⟩
  | max k => cases h; exact ⟨_, rfl, arith_runInt fun _ => rfl⟩
  | clamp k => cases h; exact ⟨_, rfl, arith_runInt fun _ => rfl⟩
  | div k => cases h; exact ⟨_, rfl, arith_runIntLater fun _ => rfl⟩
  | rem k => cases h; exact ⟨_, rfl, arith_runIntLater fun _ => rfl⟩
  | sad k => cases h; exact ⟨_, rfl, arith_runInt fun _ => rfl⟩
  | dot4 k => cases h; exact ⟨_, rfl, arith_runInt fun _ => rfl⟩
  | and k => cases h; exact ⟨_, rfl, arith_runInt fun _ => rfl⟩
  | or k => cases h; exact ⟨_, rfl, arith_runInt fun _ => rfl⟩
  | xor k => cases h; exact ⟨_, rfl, arith_runInt fun _ => rfl⟩
  | not k => cases h; exact ⟨_, rfl, arith_runInt fun _ => rfl⟩
  | andn k => cases h; exact ⟨_, rfl, arith_runInt fun _ => rfl⟩
  | lgc3 k => cases h; exact ⟨_, rfl, arith_runInt fun _ => rfl⟩
  | shl k => cases h; exact ⟨_, rfl, arith_runInt fun _ => rfl⟩
  | shr k => cases h; exact ⟨_, rfl, arith_runInt fun _ => rfl⟩
  | sar k => cases h; exact ⟨_, rfl, arith_runInt fun _ => rfl⟩
  | rol k => cases h; exact ⟨_, rfl, arith_runInt fun _ => rfl⟩
  | bfx k => cases h; exact ⟨_, rfl, arith_runInt fun _ => rfl⟩
  | bfi k => cases h; exact ⟨_, rfl, arith_runInt fun _ => rfl⟩
  | pop k => cases h; exact ⟨_, rfl, arith_runInt fun _ => rfl⟩
  | clz k => cases h; exact ⟨_, rfl, arith_runInt fun _ => rfl⟩
  | ctz k => cases h; exact ⟨_, rfl, arith_runInt fun _ => rfl⟩
  | brev k => cases h; exact ⟨_, rfl, arith_runInt fun _ => rfl⟩
  | cmp k => cases h; exact ⟨_, rfl, arith_runInt fun _ => rfl⟩
  | sel k => cases h; exact ⟨_, rfl, arith_runInt fun _ => rfl⟩
  | pset k => cases h; exact ⟨_, rfl, .inl ⟨_, fun s => show execPset k s = _ from rfl⟩⟩
  | lea k => cases h; exact ⟨_, rfl, .inl ⟨_, fun s => show execLea k s = _ from rfl⟩⟩
  | mov k => cases h; exact ⟨_, rfl, .inl ⟨_, fun s => show execMov k s = _ from rfl⟩⟩
  | movi k => cases h; exact ⟨_, rfl, .inl ⟨_, fun s => show execMovi k s = _ from rfl⟩⟩
  | movh k => cases h; exact ⟨_, rfl, .inl ⟨_, fun s => show execMovh k s = _ from rfl⟩⟩
  | _ => cases h <;> exact absurd ho (Nat.not_le_of_gt (Nat.le_of_ble_eq_true rfl))

/-- The scalar float words up to `fdiv`. -/
theorem arith_float {i : Instr} {v : View} (h : i.view = some v) (ho : (0x028 ≤ v.opc && v.opc ≤ 0x04F) = true) :
    ∃ wide, (i.shape v).dst = .val wide ∧ arith i (arithEntry i v) v wide := by
  cases i with
  | fadd k => cases h; exact ⟨_, rfl, arith_runFlt fun _ => rfl⟩
  | fsub k => cases h; exact ⟨_, rfl, arith_runFlt fun _ => rfl⟩
  | fmul k => cases h; exact ⟨_, rfl, arith_runFlt fun _ => rfl⟩
  | fma k => cases h; exact ⟨_, rfl, arith_runFlt fun _ => rfl⟩
  | fmin k => cases h; exact ⟨_, rfl, arith_runFlt fun _ => rfl⟩
  | fmax k => cases h; exact ⟨_, rfl, arith_runFlt fun _ => rfl⟩
  | frnd k => cases h; exact ⟨_, rfl, arith_runFlt fun _ => rfl⟩
  | frcp k => cases h; exact ⟨_, rfl, arith_runFlt fun _ => rfl⟩
  | frsq k => cases h; exact ⟨_, rfl, arith_runFlt fun _ => rfl⟩
  | fsqrt k => cases h; exact ⟨_, rfl, arith_runFlt fun _ => rfl⟩
  | fex2 k => cases h; exact ⟨_, rfl, arith_runFlt fun _ => rfl⟩
  | flg2 k => cases h; exact ⟨_, rfl, arith_runFlt fun _ => rfl⟩
  | fsin k => cases h; exact ⟨_, rfl, arith_runFlt fun _ => rfl⟩
  | fcos k => cases h; exact ⟨_, rfl, arith_runFlt fun _ => rfl⟩
  | fdiv k => cases h; exact ⟨_, rfl, arith_runFlt fun _ => rfl⟩
  | fcmp k => cases h; exact ⟨_, rfl, .inl ⟨_, fun s => show execFcmp k s = _ from rfl⟩⟩
  | _ => cases h <;> exact Bool.noConfusion ho

/-- `fscale`, `fclass`, and the packed-half and logarithmic words. -/
theorem arith_packed {i : Instr} {v : View} (h : i.view = some v) (ho : (0x050 ≤ v.opc && v.opc ≤ 0x063) = true) :
    ∃ wide, (i.shape v).dst = .val wide ∧ arith i (arithEntry i v) v wide := by
  cases i with
  | fscale k => cases h; exact ⟨_, rfl, .inl ⟨_, exec_fscale k⟩⟩
  | fclass k => cases h; exact ⟨_, rfl, .inl ⟨_, fun s => show execFclass k s = _ from rfl⟩⟩
  | padd k => cases h; exact ⟨_, rfl, arith_runPacked fun _ => rfl⟩
  | pmul k => cases h; exact ⟨_, rfl, arith_runPacked fun _ => rfl⟩
  | pfma k => cases h; exact ⟨_, rfl, arith_runPacked fun _ => rfl⟩
  | pmin k => cases h; exact ⟨_, rfl, arith_runPacked fun _ => rfl⟩
  | pmax k => cases h; exact ⟨_, rfl, arith_runPacked fun _ => rfl⟩
  | lmul k => cases h; exact ⟨_, rfl, arith_runLns fun _ => rfl⟩
  | ladd k => cases h; exact ⟨_, rfl, arith_runLns fun _ => rfl⟩
  | lsub k => cases h; exact ⟨_, rfl, arith_runLns (op := fun b x y => lnsAdd b x (lnsNeg b y)) fun _ => rfl⟩
  | lmax k => cases h; exact ⟨_, rfl, arith_runLns fun _ => rfl⟩
  | _ => cases h <;> exact Bool.noConfusion ho

/-- The conversion and lane words. -/
theorem arith_lane {i : Instr} {v : View} (h : i.view = some v) (ho : (0x064 ≤ v.opc && v.opc ≤ 0x0A4) = true) :
    ∃ wide, (i.shape v).dst = .val wide ∧ arith i (arithEntry i v) v wide := by
  cases i with
  | cvt k => cases h; exact ⟨_, rfl, .inr (.inr ⟨.inl rfl, rfl, _, _, _, _, fun s => show execCvt k s = _ from rfl⟩)⟩
  | pack k => cases h; exact ⟨_, rfl, .inl ⟨_, fun s => show execPack k s = _ from rfl⟩⟩
  | unpk k => cases h; exact ⟨_, rfl, .inl ⟨_, fun s => show execUnpk k s = _ from rfl⟩⟩
  | bmax k => cases h; exact ⟨_, rfl, .inl ⟨_, fun s => show execBmax k s = _ from rfl⟩⟩
  | bscale k => cases h; exact ⟨_, rfl, .inr (.inr ⟨.inr rfl, rfl, _, _, _, _, fun s => show execBscale k s = _ from rfl⟩)⟩
  | shf k => cases h; exact ⟨_, rfl, .inr (.inl ⟨false, _, fun s => show execShf k s = _ from rfl⟩)⟩
  | vote k => cases h; exact ⟨_, rfl, .inr (.inl ⟨false, _, fun s => show execVote k s = _ from rfl⟩)⟩
  | redx k => cases h; exact ⟨_, rfl, .inr (.inl ⟨false, _, fun s => show execRedx k s = _ from rfl⟩)⟩
  | bcst k => cases h; exact ⟨_, rfl, .inr (.inl ⟨false, _, fun s => show execBcst k s = _ from rfl⟩)⟩
  | scan k => cases h; exact ⟨_, rfl, .inr (.inl ⟨false, _, fun s => show execScan k s = _ from rfl⟩)⟩
  | _ => cases h <;> exact Bool.noConfusion ho

/-- Every word up to 0x0A4 is one of these. -/
theorem arith_of_opc_le {i : Instr} {v : View} (h : i.view = some v) (ho : v.opc ≤ 0x0A4) :
    ∃ wide, (i.shape v).dst = .val wide ∧ arith i (arithEntry i v) v wide := by
  obtain ho | ho | ho | ho : v.opc ≤ 0x027 ∨ (0x028 ≤ v.opc && v.opc ≤ 0x04F) = true ∨ (0x050 ≤ v.opc && v.opc ≤ 0x063) = true ∨
      (0x064 ≤ v.opc && v.opc ≤ 0x0A4) = true := by
    simp only [Bool.and_eq_true, decide_eq_true_eq]
    omega
  · exact arith_integer h ho
  · exact arith_float h ho
  · exact arith_packed h ho
  · exact arith_lane h ho

end Sys2Proof.Machine
end

section
/-! The frame of the arithmetic words: what their changes leave of a group, and of the state. -/

namespace Sys2Proof.Machine

/-! ### A group with some registers changed -/

/-- From g to g' only registers that a result of the word may write, and what a frame leaves out, has changed. `sr` says that generators may. -/
structure Group.changed (g g' : Group) (v : View) (wide sr : Bool) : Prop where
  besides : g'.besides = g.besides
  width : g'.width = g.width
  named : ∀ th, th < g.width → (g.thread th).sameBut (g'.thread th) v.dst wide
  gen : sr = false → ∀ th, th < g.width → (g'.thread th).sr = (g.thread th).sr
  queue : v.u = true → ∀ th, th < g.width → (g'.thread th).q = (g.thread th).q ∧ (g'.thread th).n = (g.thread th).n
  uni : ∀ k, k < 32 → (v.u = true → 0x30 + k ≠ v.dst ∧ (wide = true → 0x30 + k ≠ v.dst + 1)) → g'.si k = g.si k

section
variable {g g' g'' : Group} {v : View} {wide sr : Bool}

theorem Thread.sameBut_trans {t u x : Thread} {dst : Nat} (h : t.sameBut u dst wide) (h' : u.sameBut x dst wide) : t.sameBut x dst wide :=
  ⟨fun i hi hne hw => (h'.1 i hi hne hw).trans (h.1 i hi hne hw), fun i hne => (h'.2 i hne).trans (h.2 i hne)⟩

theorem Group.changed.trans (h : g.changed g' v wide sr) (h' : g'.changed g'' v wide sr) : g.changed g'' v wide sr where
  besides := h'.besides.trans h.besides
  width := h'.width.trans h.width
  named th hth := Thread.sameBut_trans (h.named th hth) (h'.named th (h.width ▸ hth))
  gen hs th hth := (h'.gen hs th (h.width ▸ hth)).trans (h.gen hs th hth)
  queue hu th hth := ⟨(h'.queue hu th (h.width ▸ hth)).1.trans (h.queue hu th hth).1, (h'.queue hu th (h.width ▸ hth)).2.trans (h.queue hu th hth).2⟩
  uni k hk hne := (h'.uni k hk hne).trans (h.uni k hk hne)

/-- A group of which every thread has kept its queue, named registers and predicates, and which has kept its uniform registers. -/
theorem Group.changed_of_threads (hb : g'.besides = g.besides) (hw : g'.width = g.width) (hs : g'.s = g.s)
    (ht : ∀ th, th < g.width → (g'.thread th).q = (g.thread th).q ∧ (g'.thread th).n = (g.thread th).n ∧ (g'.thread th).k = (g.thread th).k)
    (hsr : sr = false → ∀ th, th < g.width → (g'.thread th).sr = (g.thread th).sr) : g.changed g' v wide sr where
  besides := hb
  width := hw
  named th hth := ⟨fun i _ _ _ => by rw [Thread.ni, (ht th hth).2.1, Thread.ni], fun i _ => by rw [Thread.ki, (ht th hth).2.2, Thread.ki]⟩
  gen := hsr
  queue _ th hth := ⟨(ht th hth).1, (ht th hth).2.1⟩
  uni k _ _ := by rw [Group.si, hs, Group.si]

theorem Group.changed_refl : g.changed g v wide sr := Group.changed_of_threads rfl rfl rfl (fun _ _ => ⟨rfl, rfl, rfl⟩) fun _ _ _ => rfl

theorem Group.width_mapThreads (g : Group) (f : Nat → Thread → Thread) : (g.mapThreads f).width = g.width := by
  simp [Group.width, Group.mapThreads]

/-! ### Moving past the word -/

theorem Group.changed_capture (g : Group) (x : Nat → Nat) : g.changed (g.capture x) v wide sr := by
  have hth : ∀ th, th < g.width → (g.capture x).thread th = { g.thread th with h := #v[BitVec.ofNat 64 (x th), (g.thread th).hi 0, (g.thread th).hi 1] } :=
    fun th h => g.thread_mapThreads (fun th t => { t with h := #v[BitVec.ofNat 64 (x th), t.hi 0, t.hi 1] }) h
  refine Group.changed_of_threads rfl (g.width_mapThreads _) rfl (fun th h => ?_) fun _ th h => ?_ <;> rw [hth th h]
  exact ⟨rfl, rfl, rfl⟩

theorem Group.changed_captureAll (g src : Group) (v' : View) (sh : Shape) : g.changed (g.captureAll src v' sh) v wide sr := by
  unfold Group.captureAll
  split
  · exact Group.changed_refl
  · dsimp only
    split
    · split
      · exact (g.changed_capture _).trans (Group.changed_capture _ _)
      · exact g.changed_capture _
    · split
      · exact g.changed_capture _
      · exact Group.changed_refl

theorem Group.changed_advance (g src : Group) (v' : View) (sh : Shape) : g.changed (g.advance src v' sh) v wide sr := by
  have hage : g.changed g.age v wide sr := Group.changed_of_threads rfl rfl rfl (fun _ _ => ⟨rfl, rfl, rfl⟩) fun _ _ _ => rfl
  refine (hage.trans (g.age.changed_captureAll src v' sh)).trans ?_
  unfold Group.advance
  dsimp only
  split <;> exact Group.changed_of_threads rfl rfl rfl (fun _ _ => ⟨rfl, rfl, rfl⟩) fun _ _ _ => rfl

/-! ### Results -/

theorem Group.besides_setS (g : Group) (i : Nat) (x : W32) : (g.setS i x).besides = g.besides := rfl

theorem Group.besides_writeUni (g : Group) (dst : Nat) (wide : Bool) (x : Nat) : (g.writeUni dst wide x).besides = g.besides := by
  unfold Group.writeUni
  (repeat' split) <;> rfl

theorem Group.width_writeUni (g : Group) (dst : Nat) (wide : Bool) (x : Nat) : (g.writeUni dst wide x).width = g.width := by
  unfold Group.writeUni
  (repeat' split) <;> simp [Group.width, Group.mapThreads]

/-- A uniform word's write. -/
theorem Group.changed_writeUni (g : Group) (x : Nat) (hu : v.u = true) (hd : v.dst ≤ 8 ∨ 0x30 ≤ v.dst) :
    g.changed (g.writeUni v.dst wide x) v wide sr where
  besides := g.besides_writeUni ..
  width := g.width_writeUni ..
  named th hth := by
    rw [g.thread_writeUni _ _ _ hth]
    split
    next h => exact Thread.setK_sameBut _ wide _ h
    next => exact Thread.sameBut_self ..
  gen _ th hth := by
    rw [g.thread_writeUni _ _ _ hth]
    split <;> simp
  queue _ th hth := by
    rw [g.thread_writeUni _ _ _ hth]
    split <;> simp
  uni k hk hne := by
    obtain ⟨h1, h2⟩ := hne hu
    rcases hd with h8 | h30
    · unfold Group.writeUni
      split
      · rfl
      · rw [if_pos (by omega)]
        rfl
    · rw [Group.si_writeUni g wide x h30, if_neg, if_neg]
      · omega
      · rintro ⟨hw, h, -⟩
        have := h2 hw
        omega

/-- A non-uniform word's write with a DST that names a register of the word's own. -/
theorem Group.changed_writeAll (g : Group) (dst : Nat) (act : Nat → Bool) (x : Nat → Nat) (hu : v.u = false)
    (hsame : ∀ th, th < g.width → (g.thread th).sameBut ((g.thread th).write dst wide (act th) (x th)) v.dst wide) :
    g.changed (g.writeAll dst wide act x) v wide sr := by
  have hth : ∀ th, th < g.width → (g.writeAll dst wide act x).thread th = (g.thread th).write dst wide (act th) (x th) := fun th h => by
    rw [← g.thread_mapThreads (fun th t => t.write dst wide (act th) (x th)) h, Group.writeAll]
    split <;> rfl
  refine ⟨?_, ?_, fun th h => ?_, fun _ th h => ?_, fun h => ?_, fun k _ _ => ?_⟩
  · unfold Group.writeAll
    split <;> rfl
  · unfold Group.writeAll
    split <;> exact g.width_mapThreads _
  · rw [hth th h]
    exact hsame th h
  · rw [hth th h, Thread.write_sr]
  · exact absurd h (by rw [hu]; decide)
  · unfold Group.writeAll
    split <;> rfl

theorem Group.changed_result (g : Group) (act : Nat → Bool) (x : Nat → Nat) (hd : v.dst ≤ 8 ∨ if v.u then 0x30 ≤ v.dst else 0x10 ≤ v.dst) :
    g.changed (g.result v wide act x) v wide sr := by
  cases hu : v.u with
  | true =>
    rw [hu, if_pos rfl] at hd
    rw [g.result_uniform hu]
    exact g.changed_writeUni _ hu hd
  | false =>
    simp only [hu, Bool.false_eq_true, if_false] at hd
    rw [Group.result, hu]
    exact g.changed_writeAll v.dst act x hu fun th _ => Thread.write_sameBut _ wide _ _ hd

theorem Group.changed_reserve (g : Group) (r : Resv) : g.changed (g.reserve r) v wide sr :=
  Group.changed_of_threads rfl rfl rfl (fun _ _ => ⟨rfl, rfl, rfl⟩) fun _ _ _ => rfl

/-- Pushing copies changes the queue alone. -/
theorem Thread.push_copies_sameBut (t : Thread) (dst : Nat) (x : Nat) : t.sameBut (t.write 0 wide false x) dst wide := by
  refine ⟨fun i _ _ _ => ?_, fun i _ => ?_⟩
  · rw [Thread.write_ni t wide false x (.inl (by decide))]
    simp
  · rw [Thread.write_ki t wide false x (.inl (by decide))]
    simp

theorem Group.changed_later (g : Group) (load : Bool) (act : Nat → Bool) (mask : W64) (x : Nat → Nat)
    (hd : v.dst ≤ 8 ∨ if v.u then 0x30 ≤ v.dst else 0x10 ≤ v.dst) : g.changed (g.later v wide load act mask x) v wide sr := by
  unfold Group.later
  cases hu : v.u with
  | true =>
    rw [hu, if_pos rfl] at hd
    rw [if_pos rfl]
    split
    · exact g.changed_reserve _
    · exact g.changed_writeUni _ hu hd
  | false =>
    simp only [hu, Bool.false_eq_true, if_false] at hd ⊢
    split
    · exact g.changed_writeAll v.dst act x hu fun th _ => Thread.write_sameBut _ wide _ _ hd
    · have hpush := g.changed_writeAll (sr := sr) (wide := wide) 0 (fun _ => false) x hu fun th _ => Thread.push_copies_sameBut (g.thread th) v.dst (x th)
      split
      · exact hpush
      · exact hpush.trans (Group.changed_reserve _ _)

theorem Group.changed_advanceSr (g : Group) (act : Nat → Bool) : g.changed (g.advanceSr v act) v wide true := by
  have hth : ∀ th, th < g.width → (g.advanceSr v act).thread th =
      if (if v.u then th == 0 else act th) then { g.thread th with sr := BitVec.ofNat 32 (g.thread th).srNext } else g.thread th :=
    fun th h => g.thread_mapThreads _ h
  refine Group.changed_of_threads rfl (g.width_mapThreads _) rfl (fun th h => ?_) fun h => Bool.noConfusion h
  rw [hth th h]
  generalize (if v.u = true then th == 0 else act th) = b
  cases b <;> exact ⟨rfl, rfl, rfl⟩

end

end Sys2Proof.Machine
end

section
/-! From the group to the state: a word that acts on its group alone leaves every other group, and the state besides its teams. -/

namespace Sys2Proof.Machine

/-- Besides the groups and the counts of their slots the teams are the same, and so is the state besides its teams. -/
def State.teamsOnly (s t : State) : Prop :=
  t.besides = s.besides ∧ ∀ k, (t.team? k).map Team.besides = (s.team? k).map Team.besides

section
variable {s t u : State}

theorem State.teamsOnly_refl (s : State) : s.teamsOnly s := ⟨rfl, fun _ => rfl⟩

theorem State.teamsOnly.trans (h : s.teamsOnly t) (h' : t.teamsOnly u) : s.teamsOnly u :=
  ⟨h'.1.trans h.1, fun k => (h'.2 k).trans (h.2 k)⟩

theorem State.teamsOnly_updTeam (s : State) (n : Nat) (f : Team → Team) (hf : ∀ t, (f t).besides = t.besides) : s.teamsOnly (s.updTeam n f) := by
  refine ⟨rfl, fun k => ?_⟩
  rw [s.team?_updTeam n f (fun t => show (f t).besides.id = t.besides.id by rw [hf]) k]
  cases s.team? k with
  | none => rfl
  | some t =>
    rw [Option.map_some, Option.map_some]
    split
    · rw [hf]; rfl
    · rfl

theorem State.teamsOnly_updGrp (s : State) (id : Nat × Nat) (f : Group → Group) : s.teamsOnly (s.updGrp id f) :=
  s.teamsOnly_updTeam id.1 _ fun _ => rfl

theorem State.teamsOnly_perfAdd (s : State) (id : Nat × Nat) (k n : Nat) : s.teamsOnly (s.perfAdd id k n) :=
  s.teamsOnly_updTeam id.1 _ fun _ => rfl

theorem State.teamsOnly_countConv (s : State) (id : Nat × Nat) (sat nar bytes : Nat) : s.teamsOnly (s.countConv id sat nar bytes) :=
  (s.teamsOnly_perfAdd id 14 bytes).trans (State.teamsOnly_updTeam _ id.1 _ fun _ => rfl)

@[simp] theorem State.grp?_countConv (s : State) (id : Nat × Nat) (sat nar bytes : Nat) (k : Nat × Nat) :
    (s.countConv id sat nar bytes).grp? k = s.grp? k :=
  (State.grp?_updTeam_groups (fun t : Team => t.updCount (t.half id.2) fun c =>
    { c with satc := c.satc + BitVec.ofNat 64 sat, narc := c.narc + BitVec.ofNat 64 nar }) (fun _ => rfl) (fun _ => rfl) k).trans
    (State.grp?_perfAdd s id 14 bytes k)

/-- Moving past a word that translates nothing. -/
theorem State.teamsOnly_moved (s : State) {e : Entry} (w : Iss) (he : s.needs e w = []) : s.teamsOnly (s.moved e w) := by
  have harrived : s.teamsOnly (s.arrived e w) := by
    rw [State.arrived, he]
    refine (s.teamsOnly_updGrp w.id fun _ => (w.ready e).g).trans ?_
    change (s.updGrp w.id fun _ => (w.ready e).g).teamsOnly (State.countStall _ w e)
    rcases State.countStall_or (s.updGrp w.id fun _ => (w.ready e).g) e w with h | ⟨n, h⟩ <;> rw [h]
    · exact State.teamsOnly_refl _
    · exact State.teamsOnly_perfAdd ..
  have hadvance : (s.arrived e w).teamsOnly (((s.arrived e w).updGrp w.id fun g => g.advance (w.ready e).g w.v w.sh).perfAdd w.id 2 (w.ready e).passes) :=
    (State.teamsOnly_updGrp _ w.id _).trans (State.teamsOnly_perfAdd _ w.id 2 _)
  exact harrived.trans hadvance

end

/-! ### The arithmetic words -/

theorem needs_arithEntry (i : Instr) (v : View) (s : State) (w : Iss) : s.needs (arithEntry i v) w = [] := by
  unfold State.needs arithEntry
  split <;> rfl

theorem shape_lane {i : Instr} {v : View} (h : i.view = some v) (ho : (0x0A0 ≤ v.opc && v.opc ≤ 0x0A4) = true) : i.shape v = shLane v := by
  cases i with
  | shf k => rfl
  | vote k => rfl
  | redx k => rfl
  | bcst k => rfl
  | scan k => rfl
  | _ => cases h <;> exact Bool.noConfusion ho

theorem sh_arithEntry {i : Instr} {v : View} (h : i.view = some v) (ho : v.opc ≤ 0x0A4) : (arithEntry i v).sh = i.shape v := by
  unfold arithEntry
  split
  next hlo => exact (shape_lane h (by simp [hlo, ho])).symm
  next => rfl

/-- The DST that the encoding checks leave to a word with a result (R105). -/
theorem dst_of_encOk {v : View} {sh : Shape} {wide : Bool} (hd : sh.dst = .val wide) (h : v.encOk sh = true) :
    v.dst ≤ 8 ∨ if v.u then 0x30 ≤ v.dst else 0x10 ≤ v.dst := by
  have hdst : dstEnc (.val wide) v.u v.dst = true := by
    simp only [View.encOk, Bool.and_eq_true, hd] at h
    tauto
  simp only [dstEnc] at hdst
  by_cases h8 : v.dst ≤ 8
  · exact .inl h8
  · rw [if_neg (by omega), if_neg (by omega), if_neg (by omega)] at hdst
    split at hdst
    · cases hdst
    · split at hdst <;> cases hu : v.u <;> simp_all

theorem encOk_of_checks {e : Entry} {w : Iss} (h : issueChecks e w = .ok ()) : w.v.encOk w.sh = true := by
  unfold issueChecks at h
  split at h
  · cases h
  · split at h
    · cases h
    next hne => simp only [Bool.not_eq_true', Bool.not_eq_false, Bool.and_eq_true] at hne; exact hne.1

/-- The change of its group with which an arithmetic word completes. -/
theorem exec_arith {i : Instr} {e : Entry} {v : View} {wide : Bool} (h : arith i e v wide) {s : State} {w : Iss} (hw : s.issues e v w)
    (hd : v.dst ≤ 8 ∨ if v.u then 0x30 ≤ v.dst else 0x10 ≤ v.dst) :
    ∃ (f : Group → Group) (sr : Bool) (t : State), exec i s = .next t ∧ (s.didReg e w f).teamsOnly t ∧ (∀ k, t.grp? k = (s.didReg e w f).grp? k) ∧
      (∀ g : Group, g.changed (f g) v wide sr) ∧ (sr = true → v.opc = 0x080 ∨ v.opc = 0x084) := by
  obtain ⟨x, h⟩ | ⟨load, x, h⟩ | ⟨hopc, rfl, sr, size, x, res, h⟩ := h
  · exact ⟨_, false, _, (h s).trans (runVal_ok hw), State.teamsOnly_refl _, fun _ => rfl, fun g => g.changed_result _ _ hd, fun h => nomatch h⟩
  · exact ⟨_, false, _, (h s).trans (runLater_ok hw), State.teamsOnly_refl _, fun _ => rfl, fun g => g.changed_later _ _ _ _ hd, fun h => nomatch h⟩
  · refine ⟨fun g => (if sr then g.advanceSr v (w.ready e).act else g).result v false (w.ready e).act fun th => res (x (w.ready e) th).code, true, _,
      exec_next_of (h s) hw rfl, State.teamsOnly_countConv .., fun k => ?_, fun g => ?_, fun _ => hopc⟩
    · rw [State.grp?_countConv]
      rfl
    · cases sr
      · exact g.changed_result _ _ hd
      · exact (g.changed_advanceSr _).trans (Group.changed_result _ _ _ hd)

/-- Settles O28: an arithmetic word changes its group by a result or a reservation behind the ageing of its latches. -/
theorem registerFrame : Obligations.RegisterFrame := by
  intro i v s t w g' hv ho e g wide hw hexec hg'
  obtain ⟨wide', hdst, harith⟩ := arith_of_opc_le hv ho
  obtain rfl : wide' = wide := by rw [show wide = Shape.isWide (i.shape v) from rfl, Shape.isWide, hdst]
  have hsh : e.sh = i.shape v := sh_arithEntry hv ho
  obtain ⟨hwv, hws, -, -, -, hgrp⟩ := State.iss?_some hw.1
  have hd := dst_of_encOk (hsh ▸ hdst) (hwv ▸ hws ▸ encOk_of_checks hw.2.1)
  obtain ⟨f, sr, u, hu, honly, hgrps, hch, hsr⟩ := exec_arith harith hw hd
  obtain rfl : u = t := Host.Outcome.next.inj (hu.symm.trans hexec)
  have hframe : s.teamsOnly u := ((s.teamsOnly_moved w (needs_arithEntry i v s w)).trans (State.teamsOnly_updGrp _ w.id f)).trans honly
  have hself : u.grp? w.id = some (f (g.advance g w.v w.sh)) := (hgrps w.id).trans (State.grp?_updGrp_self f (State.grp?_moved hgrp))
  obtain rfl : f (g.advance g w.v w.sh) = g' := Option.some.inj (hself.symm.trans hg')
  have hall : g.changed (f (g.advance g w.v w.sh)) v wide sr := (g.changed_advance g w.v w.sh).trans (hch _)
  refine ⟨⟨hframe.1, hframe.2, fun k hk => ?_⟩, fun a => ?_, hall.besides, fun th hth => ⟨hall.named th hth, fun h80 h84 => ?_, fun hu => hall.queue hu th hth⟩,
    hall.uni⟩
  · rw [hgrps k, State.didReg, State.grp?_updGrp_other f hk, State.grp?_moved_other hk]
  · exact show u.besides.mem.get a = s.besides.mem.get a by rw [hframe.1]
  · exact hall.gen (Bool.eq_false_iff.mpr fun h => (hsr h).elim h80 h84) th hth

end Sys2Proof.Machine
end

section
/-! The memory frame of the words that store nothing (R114, R367): the effect of such a word leaves memory as it is, so that only the record of
its own fault may change it. -/

namespace Sys2Proof.Machine

/-! ### Effects that leave memory as it is -/

section
variable {ε α β : Type} {p : α → Prop}

@[simp] theorem okAll_bind_iff {x : Except ε β} {f : β → Except ε α} : okAll p (x >>= f) ↔ ∀ b, x = .ok b → okAll p (f b) :=
  ⟨fun h b hb a ha => h a (by rw [hb]; exact ha), okAll_bind⟩

@[simp] theorem okAll_fmap_iff {x : Except ε β} {f : β → α} : okAll p (f <$> x) ↔ ∀ b, x = .ok b → p (f b) := by
  cases x <;> simp [Functor.map, Except.map, okAll]

@[simp] theorem okAll_ite_iff {c : Prop} [Decidable c] {x y : Except ε α} : okAll p (if c then x else y) ↔ (c → okAll p x) ∧ (¬ c → okAll p y) := by
  split <;> simp [*]

end

@[simp] theorem State.ite_mem (c : Prop) [Decidable c] (s t : State) : (if c then s else t).mem = if c then s.mem else t.mem :=
  apply_ite State.mem c s t

/-- The word i runs with an effect that leaves memory as it is. -/
def keepsMem (i : Instr) (v : View) : Prop :=
  ∀ s, ∃ (e : Entry) (eff : Iss → State → Except Exc State), exec i s = runWord e v s eff ∧ ∀ w u, okAll (fun t : State => t.mem = u.mem) (eff w u)

@[simp] theorem State.arrived_mem (s : State) (e : Entry) (w : Iss) : (s.arrived e w).mem = s.mem := by simp [State.arrived]

/-- A word with such an effect. -/
theorem memFrame_of_keepsMem {i : Instr} {v : View} (h : keepsMem i v) {s t : State} (ht : exec i s = .next t) :
    (∀ a, t.mem.get a = s.mem.get a) ∨ ∃ (u : State) (w : Iss) (x : Exc), u.mem = s.mem ∧ t = u.wordFault w x := by
  obtain ⟨e, eff, hrun, heff⟩ := h s
  rw [hrun] at ht
  have hsame {u : State} (hu : u.mem = s.mem) (hut : (.next u : Host.Outcome State Fault Refusal) = .next t) :
      ∀ a, t.mem.get a = s.mem.get a := fun a => by rw [← Host.Outcome.next.inj hut, hu]
  rcases runWord_cases (e := e) (v := v) (s := s) (eff := eff) with ⟨_, hc⟩ | ⟨w, _, hc⟩
  · rw [hc] at ht
    cases ht
  · obtain ⟨x, _, hc⟩ | ⟨_, hc⟩ | ⟨_, pages, _, hc⟩ | ⟨t', _, hok, hc⟩ | ⟨x, _, _, hc⟩ := hc <;> rw [hc] at ht
    · exact .inr ⟨s, w, x, rfl, (Host.Outcome.next.inj ht).symm⟩
    · exact .inl (hsame (by simp) ht)
    · exact .inl (hsame (by simp) ht)
    · exact .inl (hsame ((heff _ _ t' hok).trans (by simp)) ht)
    · exact .inr ⟨_, w, x, by simp, (Host.Outcome.next.inj ht).symm⟩

/-! ### Words on registers alone -/

theorem keepsMem_runReg {i : Instr} {e : Entry} {v : View} {f : Iss → Group → Group} (h : ∀ s, exec i s = runReg e v s f) : keepsMem i v :=
  fun s => ⟨e, _, h s, fun _ _ => okAll_ok.mpr (by simp)⟩

theorem keepsMem_runCtl {i : Instr} {v : View} {sh : Shape} {f : Iss → Except Exc (Group → Group)} (h : ∀ s, exec i s = runCtl v sh s f) :
    keepsMem i v :=
  fun s => ⟨_, _, h s, fun _ _ => okAll_map fun _ _ => rfl⟩

theorem keepsMem_arith {i : Instr} {e : Entry} {v : View} {wide : Bool} (h : arith i e v wide) : keepsMem i v := by
  obtain ⟨x, h⟩ | ⟨load, x, h⟩ | ⟨_, _, sr, size, x, res, h⟩ := h
  · exact keepsMem_runReg h
  · exact keepsMem_runReg h
  · exact fun s => ⟨e, _, h s, fun _ _ => okAll_ok.mpr (by simp)⟩

theorem keepsMem_of {i : Instr} {v : View} {e : State → Entry} {eff : State → Iss → State → Except Exc State}
    (h : ∀ s, exec i s = runWord (e s) v s (eff s)) (heff : ∀ s w u, okAll (fun t : State => t.mem = u.mem) (eff s w u)) : keepsMem i v :=
  fun s => ⟨e s, eff s, h s, heff s⟩

/-! ### The other words, one by one -/

theorem rdsr_keepsMem (k : FS) : keepsMem (.rdsr k) (k.view 0x0C0) :=
  keepsMem_of (fun s => execRdsr.eq_1 k s) fun _ w u => by simp

theorem wrsr_keepsMem (k : FS) : keepsMem (.wrsr k) (k.view 0x0C1) :=
  keepsMem_of (fun s => execWrsr.eq_1 k s) fun _ w u => by
  simp
  intros
  split
  · simp
  · simp
    intro
    split <;> simp

theorem jt_keepsMem (k : FR) : keepsMem (.jt k) (k.view .fr 0x101) :=
  keepsMem_of (fun s => execJt.eq_1 k s) fun _ w u => by simp

theorem callt_keepsMem (k : FR) : keepsMem (.callt k) (k.view .fr 0x104) :=
  keepsMem_of (fun s => execCallt.eq_1 k s) fun _ w u => by
  simp
  intros
  split
  · simp
  · split
    · simp
    · simp
      intros
      split <;> simp

theorem split_keepsMem (k : FB) : keepsMem (.split k) (k.view 0x107) :=
  keepsMem_of (fun s => execSplit.eq_1 k s) fun _ w u => by simp

theorem loop_keepsMem (k : FB) : keepsMem (.loop k) (k.view 0x10E) :=
  keepsMem_of (fun s => execLoop.eq_1 k s) fun _ w u => by simp

theorem ldt_keepsMem (k : FM) : keepsMem (.ldt k) (k.view 0x144) :=
  keepsMem_of (fun s => execLdt.eq_1 k s) fun _ w u => by simp

theorem uld_keepsMem (k : FM) : keepsMem (.uld k) (k.view 0x145) :=
  keepsMem_of (fun s => execUld.eq_1 k s) fun _ w u => by
  simp
  intros
  split <;> simp

theorem pfx_keepsMem (k : FM) : keepsMem (.pfx k) (k.view 0x146) :=
  keepsMem_of (fun s => execPfx.eq_1 k s) fun _ w u => by
  simp
  exact foldl_mem (fun _ _ => State.prefetch_mem ..) _ _

theorem fence_keepsMem (k : FS) : keepsMem (.fence k) (k.view 0x14C) :=
  keepsMem_of (fun s => execFence.eq_1 k s) fun _ w u => by simp

theorem fencer_keepsMem (k : FR) : keepsMem (.fencer k) (k.view .fr 0x14D) :=
  keepsMem_of (fun s => execFencer.eq_1 k s) fun _ w u => by simp

theorem mwait_keepsMem (k : FR) : keepsMem (.mwait k) (k.view .fr 0x14F) :=
  keepsMem_of (fun s => execMwait.eq_1 k s) fun _ w u => by simp

theorem wuc_keepsMem (k : FR) : keepsMem (.wuc k) (k.view .fr 0x150) :=
  keepsMem_of (fun s => execWuc.eq_1 k s) fun _ w u => by simp

theorem lqry_keepsMem (k : FM) : keepsMem (.lqry k) (k.view 0x152) :=
  keepsMem_of (fun s => execLqry.eq_1 k s) fun _ w u => by simp

theorem mzero_keepsMem (k : FR) : keepsMem (.mzero k) (k.view .fx 0x182) :=
  keepsMem_of (fun s => execMzero.eq_1 k s) fun _ w u => by
  simp only [okAll_bind_iff, okAll_pure]
  exact fun r _ => State.addRetire_mem ..

theorem mld_keepsMem (k : FR) : keepsMem (.mld k) (k.view .fx 0x183) :=
  keepsMem_of (fun s => execMld.eq_1 k s) fun _ w u => by
  simp only [okAll_bind_iff]
  intro b _ r _ rows _
  split
  · exact okAll_pure.mpr (foldl_mem (fun _ _ => foldl_mem (fun _ _ => State.markPoison_mem ..) _ _) _ _)
  · exact okAll_pure.mpr ((State.addRetire_mem ..).trans (State.bringRows_mem ..))

theorem mscl_keepsMem (k : FR) : keepsMem (.mscl k) (k.view .fx 0x186) :=
  keepsMem_of (fun s => execMscl.eq_1 k s) fun _ w u => by simp

theorem mrd_keepsMem (k : FR) : keepsMem (.mrd k) (k.view .fr 0x187) :=
  keepsMem_of (fun s => execMrd.eq_1 k s) fun _ w u => by simp

theorem tbind_keepsMem (k : FR) : keepsMem (.tbind k) (k.view .fr 0x1A7) :=
  keepsMem_of (fun s => execTbind.eq_1 k s) fun _ w u => by simp

theorem tset_keepsMem (k : FR) : keepsMem (.tset k) (k.view .fr 0x1A8) :=
  keepsMem_of (fun s => execTset.eq_1 k s) fun _ w u => by simp

theorem tget_keepsMem (k : FR) : keepsMem (.tget k) (k.view .fr 0x1A9) :=
  keepsMem_of (fun s => execTget.eq_1 k s) fun _ w u => by simp

theorem twait_keepsMem (k : FS) : keepsMem (.twait k) (k.view 0x1AA) :=
  keepsMem_of (fun s => execTwait.eq_1 k s) fun _ w u => by simp

theorem trel_keepsMem (k : FS) : keepsMem (.trel k) (k.view 0x1AB) :=
  keepsMem_of (fun s => execTrel.eq_1 k s) fun _ w u => by simp

theorem bini_keepsMem (k : FR) : keepsMem (.bini k) (k.view .fr 0x1B0) :=
  keepsMem_of (fun s => execBini.eq_1 k s) fun _ w u => by simp

theorem barv_keepsMem (k : FS) : keepsMem (.barv k) (k.view 0x1B1) :=
  keepsMem_of (fun s => execBarv.eq_1 k s) fun _ w u => by simp

theorem barw_keepsMem (k : FS) : keepsMem (.barw k) (k.view 0x1B2) :=
  keepsMem_of (fun s => execBarw.eq_1 k s) fun _ w u => by simp

theorem bexp_keepsMem (k : FR) : keepsMem (.bexp k) (k.view .fr 0x1B3) :=
  keepsMem_of (fun s => execBexp.eq_1 k s) fun _ w u => by simp

theorem bdrop_keepsMem (k : FS) : keepsMem (.bdrop k) (k.view 0x1B4) :=
  keepsMem_of (fun s => execBdrop.eq_1 k s) fun _ w u => by simp

theorem bget_keepsMem (k : FR) : keepsMem (.bget k) (k.view .fr 0x1B5) :=
  keepsMem_of (fun s => execBget.eq_1 k s) fun _ w u => by simp

theorem rcinv_keepsMem (k : FR) : keepsMem (.rcinv k) (k.view .fr 0x1E7) :=
  keepsMem_of (fun s => execRcinv.eq_1 k s) fun _ w u => by simp

theorem cnt_keepsMem (k : FS) : keepsMem (.cnt k) (k.view 0x1F2) :=
  keepsMem_of (fun s => execCnt.eq_1 k s) fun _ w u => by simp

theorem rmap_keepsMem (k : FR) : keepsMem (.rmap k) (k.view .fr 0x200) :=
  keepsMem_of (fun s => execRmap.eq_1 k s) fun _ w u => by simp

theorem rcommit_keepsMem (k : FS) : keepsMem (.rcommit k) (k.view 0x201) :=
  keepsMem_of (fun s => execRcommit.eq_1 k s) fun _ w u => by
  simp
  intros
  split <;> simp

theorem tlbi_keepsMem (k : FR) : keepsMem (.tlbi k) (k.view .fr 0x203) :=
  keepsMem_of (fun s => execTlbi.eq_1 k s) fun _ w u => by simp

theorem bdg_keepsMem (k : FR) : keepsMem (.bdg k) (k.view .fr 0x206) :=
  keepsMem_of (fun s => execBdg.eq_1 k s) fun _ w u => by simp

theorem br_keepsMem (k : FB) : keepsMem (.br k) (k.view 0x100) := keepsMem_runCtl (execBr.eq_1 k ·)
theorem call_keepsMem (k : FB) : keepsMem (.call k) (k.view 0x103) := keepsMem_runCtl (execCall.eq_1 k ·)
theorem ret_keepsMem (k : FR) : keepsMem (.ret k) (k.view .fr 0x105) := keepsMem_runCtl (exec_ret k)
theorem join_keepsMem (k : FR) : keepsMem (.join k) (k.view .fr 0x108) := keepsMem_runCtl (exec_join k)
theorem land_keepsMem (k : FS) : keepsMem (.land k) (k.view 0x102) := keepsMem_runReg (execLand.eq_1 k ·)
theorem nop_keepsMem (k : FS) : keepsMem (.nop k) (k.view 0x10D) := keepsMem_runReg (execNop.eq_1 k ·)
theorem mrel_keepsMem (k : FR) : keepsMem (.mrel k) (k.view .fx 0x185) := keepsMem_runReg (execMrel.eq_1 k ·)

/-- Both loads run with one effect. -/
theorem keepsMem_runLoad {i : Instr} {v : View} {ls : Bool} (h : ∀ s, exec i s = runLoad v ls s) : keepsMem i v :=
  keepsMem_of (fun s => (h s).trans (runLoad.eq_1 v ls s)) fun _ w u => by
  simp only [okAll_bind_iff, okAll_pure]
  intro ts _
  split <;> simp

theorem ld_keepsMem (k : FM) : keepsMem (.ld k) (k.view 0x140) := keepsMem_runLoad (execLd.eq_1 k ·)
theorem lds_keepsMem (k : FM) : keepsMem (.lds k) (k.view 0x142) := keepsMem_runLoad (execLds.eq_1 k ·)

/-! ### Every word that stores nothing -/


theorem keepsMem_of_control {i : Instr} {v : View} (h : i.view = some v) (ho : (0x0A5 ≤ v.opc && v.opc ≤ 0x10E && storesNothing v.opc) = true) :
    keepsMem i v := by
  cases i with
  | rdsr k => cases h; exact rdsr_keepsMem k
  | wrsr k => cases h; exact wrsr_keepsMem k
  | br k => cases h; exact br_keepsMem k
  | jt k => cases h; exact jt_keepsMem k
  | land k => cases h; exact land_keepsMem k
  | call k => cases h; exact call_keepsMem k
  | callt k => cases h; exact callt_keepsMem k
  | ret k => cases h; exact ret_keepsMem k
  | split k => cases h; exact split_keepsMem k
  | join k => cases h; exact join_keepsMem k
  | nop k => cases h; exact nop_keepsMem k
  | loop k => cases h; exact loop_keepsMem k
  | _ => cases h <;> exact Bool.noConfusion ho

theorem keepsMem_of_access {i : Instr} {v : View} (h : i.view = some v) (ho : (0x10F ≤ v.opc && v.opc ≤ 0x1A6 && storesNothing v.opc) = true) :
    keepsMem i v := by
  cases i with
  | ld k => cases h; exact ld_keepsMem k
  | lds k => cases h; exact lds_keepsMem k
  | ldt k => cases h; exact ldt_keepsMem k
  | uld k => cases h; exact uld_keepsMem k
  | pfx k => cases h; exact pfx_keepsMem k
  | fence k => cases h; exact fence_keepsMem k
  | fencer k => cases h; exact fencer_keepsMem k
  | mwait k => cases h; exact mwait_keepsMem k
  | wuc k => cases h; exact wuc_keepsMem k
  | lqry k => cases h; exact lqry_keepsMem k
  | mzero k => cases h; exact mzero_keepsMem k
  | mld k => cases h; exact mld_keepsMem k
  | mrel k => cases h; exact mrel_keepsMem k
  | mscl k => cases h; exact mscl_keepsMem k
  | mrd k => cases h; exact mrd_keepsMem k
  | _ => cases h <;> exact Bool.noConfusion ho

theorem keepsMem_of_entry {i : Instr} {v : View} (h : i.view = some v) (ho : (0x1A7 ≤ v.opc && storesNothing v.opc) = true) :
    keepsMem i v := by
  cases i with
  | tbind k => cases h; exact tbind_keepsMem k
  | tset k => cases h; exact tset_keepsMem k
  | tget k => cases h; exact tget_keepsMem k
  | twait k => cases h; exact twait_keepsMem k
  | trel k => cases h; exact trel_keepsMem k
  | bini k => cases h; exact bini_keepsMem k
  | barv k => cases h; exact barv_keepsMem k
  | barw k => cases h; exact barw_keepsMem k
  | bexp k => cases h; exact bexp_keepsMem k
  | bdrop k => cases h; exact bdrop_keepsMem k
  | bget k => cases h; exact bget_keepsMem k
  | rcinv k => cases h; exact rcinv_keepsMem k
  | cnt k => cases h; exact cnt_keepsMem k
  | rmap k => cases h; exact rmap_keepsMem k
  | rcommit k => cases h; exact rcommit_keepsMem k
  | tlbi k => cases h; exact tlbi_keepsMem k
  | bdg k => cases h; exact bdg_keepsMem k
  | _ => cases h <;> exact Bool.noConfusion ho

/-- Settles O29: the effect of every such word leaves memory as it is. -/
theorem memoryFrame : Obligations.MemoryFrame := by
  intro i v s t hv ho
  refine memFrame_of_keepsMem (v := v) ?_
  obtain hle | hle | hle | hle : v.opc ≤ 0x0A4 ∨ (0x0A5 ≤ v.opc ∧ v.opc ≤ 0x10E) ∨ (0x10F ≤ v.opc ∧ v.opc ≤ 0x1A6) ∨ 0x1A7 ≤ v.opc := by omega
  · obtain ⟨_, -, h⟩ := arith_of_opc_le hv hle
    exact keepsMem_arith h
  · exact keepsMem_of_control hv (by simp [hle, ho])
  · exact keepsMem_of_access hv (by simp [hle, ho])
  · exact keepsMem_of_entry hv (by simp [hle, ho])

end Sys2Proof.Machine
end

section
/-! The phase of a barrier (R322, R326). -/

namespace Sys2Proof.Machine

/-- A difference that fits its width is the difference of the bit vectors. -/
theorem toInt_sub_ofNat {x : W32} {n : Nat} (h : -2 ^ 31 ≤ x.toInt - n) : (x - BitVec.ofNat 32 n).toInt = x.toInt - n := by
  have hx : x.toInt < 2 ^ 31 := BitVec.toInt_lt
  rw [BitVec.toInt_sub, BitVec.toInt_ofNat', Int.sub_bmod_bmod]
  exact Int.bmod_eq_of_le (by omega) (by omega)

/-- Settles O47: the events of R322 are a change of the barrier and then the test; only a delivery below the range makes none. -/
theorem barrierPhases : Obligations.BarrierPhases := by
  intro b g n x done after bit run
  refine ⟨rfl, rfl, rfl, rfl, fun h => ⟨?_, toInt_sub_ofNat h⟩, fun h => ?_⟩
  · have hin : b.under n = false := decide_eq_false (by omega)
    rw [Barrier.deliver, hin]
    rfl
  · have hout : b.under n = true := decide_eq_true (by omega)
    rw [Barrier.deliver, hout]
    exact ⟨rfl, rfl, rfl⟩

end Sys2Proof.Machine
end

section
/-! The record of a fault (R367, R370). -/

namespace Sys2Proof.Machine

/-! ### Reading outside what is written -/

theorem Memory.get_wr_other {m : Memory} (h : m.wf = true) {a n x y : Nat} (hy : y < a ∨ a + n ≤ y) : (m.wr a n x).get y = m.get y :=
  Memory.get_write_other h (by rwa [leBytes_length])

theorem Memory.bytes_congr {m m' : Memory} {a n : Nat} (h : ∀ i, i < n → m'.get (a + i) = m.get (a + i)) : m'.bytes a n = m.bytes a n :=
  List.map_congr_left fun i hi => h i (List.mem_range.mp hi)

theorem Memory.bytes_wr_other {m : Memory} (h : m.wf = true) {a n x b k : Nat} (hb : b + k ≤ a ∨ a + n ≤ b) :
    (m.wr a n x).bytes b k = m.bytes b k :=
  Memory.bytes_congr fun _ _ => Memory.get_wr_other h (by omega)

/-! ### The cases of a record -/

/-- The slot of the next record in the ring of the fault queue whose header stands at h. -/
def fqSlot (m : Memory) (h : Nat) : Nat :=
  natBits (m.rd h 8) 12 40 * 4096 + 32 * (m.rd (h + 8) 8 % 2 ^ natBits (m.rd h 8) 0 5)

/-- The ring of the fault queue whose header stands at h has no room. -/
def fqFull (m : Memory) (h : Nat) : Prop :=
  (m.rd (h + 8) 8 + 2 ^ 64 - m.rd (h + 16) 8) % 2 ^ 64 = 2 ^ natBits (m.rd h 8) 0 5

section
variable {s : State} {ctx : Nat} {bytes : List Byte}

theorem State.record_of_none (h : s.fqOf ctx = 0) : s.record ctx bytes = s := if_pos h

theorem State.record_mem_of_full (h : s.fqOf ctx ≠ 0) (hfull : fqFull s.mem (s.fqOf ctx)) :
    (s.record ctx bytes).mem = s.mem.wr (s.fqOf ctx + 24) 8 (s.mem.rd (s.fqOf ctx + 24) 8 + 1) :=
  congrArg State.mem ((if_neg h).trans (if_pos hfull))

theorem State.record_mem_of_room (h : s.fqOf ctx ≠ 0) (hroom : ¬ fqFull s.mem (s.fqOf ctx)) :
    (s.record ctx bytes).mem = (s.mem.write (fqSlot s.mem (s.fqOf ctx)) bytes).wr (s.fqOf ctx + 8) 8 (s.mem.rd (s.fqOf ctx + 8) 8 + 1) :=
  congrArg State.mem ((if_neg h).trans (if_neg hroom))

end

/-- Settles O13: with no queue nothing is written, with a full ring LOST is, and else the slot and then WR. -/
theorem faultRecords : Obligations.FaultRecords := by
  intro s ctx bytes hok hlen h base cap wr full slot
  have hslot : (s.mem.write slot bytes).wf = true := Memory.write_wf _ _ hok
  refine ⟨State.record_of_none, fun hh hf a ha => ?_, fun hh hf => ?_, fun hh hf hdis => ?_, fun hh hf => ?_, fun hh hf a ha hs => ?_⟩
  · rw [State.record_mem_of_full hh hf]
    exact Memory.get_wr_other hok (by omega)
  · rw [State.record_mem_of_full hh hf]
    exact Memory.rd_wr hok ..
  · rw [State.record_mem_of_room hh hf]
    exact (Memory.bytes_wr_other hslot (by omega)).trans (hlen ▸ Memory.bytes_write hok ..)
  · rw [State.record_mem_of_room hh hf]
    exact Memory.rd_wr hslot ..
  · rw [State.record_mem_of_room hh hf]
    exact (Memory.get_wr_other hslot ha).trans (Memory.get_write_other hok (by omega))

end Sys2Proof.Machine
end

section
/-! What the state keeps where Echo, the budgets, the fault queues and the engines change: its teams, its contexts, the issuing group and the
timebase. -/

namespace Sys2Proof.Machine

/-- The teams, the contexts, the issuing group and the timebase. -/
def State.core (s : State) : List Team × List Ctx × Option (Nat × Nat) × Nat := (s.teams, s.ctxs, s.cur, s.ptp)

section
variable {s t : State}

theorem State.core_eq (hteams : t.teams = s.teams) (hctxs : t.ctxs = s.ctxs) (hcur : t.cur = s.cur) (hptp : t.ptp = s.ptp) :
    t.core = s.core := by
  rw [State.core, State.core, hteams, hctxs, hcur, hptp]

theorem State.teams_of_core (h : t.core = s.core) : t.teams = s.teams := congrArg Prod.fst h
theorem State.ctxs_of_core (h : t.core = s.core) : t.ctxs = s.ctxs := congrArg (fun x => x.2.1) h
theorem State.cur_of_core (h : t.core = s.core) : t.cur = s.cur := congrArg (fun x => x.2.2.1) h
theorem State.ptp_of_core (h : t.core = s.core) : t.ptp = s.ptp := congrArg (fun x => x.2.2.2) h
theorem State.team?_of_core (h : t.core = s.core) (k : Nat) : t.team? k = s.team? k := by rw [State.team?, State.teams_of_core h, State.team?]
theorem State.grp?_of_core (h : t.core = s.core) (k : Nat × Nat) : t.grp? k = s.grp? k := by
  rw [State.grp?, State.team?_of_core h, State.grp?]
theorem State.ctx?_of_core (h : t.core = s.core) (k : Nat) : t.ctx? k = s.ctx? k := by rw [State.ctx?, State.ctxs_of_core h, State.ctx?]

end

/-- Going through a list keeps what each step keeps. -/
theorem foldl_keep {α β γ : Type} {f : β → α → β} {p : β → γ} (h : ∀ s x, p (f s x) = p s) (l : List α) (s : β) : p (l.foldl f s) = p s := by
  induction l generalizing s with
  | nil => rfl
  | cons x l ih => rw [List.foldl_cons, ih, h]

section
variable (s : State)

/-! ### Single fields -/

@[simp] theorem State.updSch_core (f : Sched → Sched) : (s.updSch f).core = s.core := rfl
@[simp] theorem State.updEcho_core (f : EchoSt → EchoSt) : (s.updEcho f).core = s.core := rfl
@[simp] theorem State.updEng_core (f : Engines → Engines) : (s.updEng f).core = s.core := rfl
@[simp] theorem State.updPkg_core (f : Package → Package) : (s.updPkg f).core = s.core := rfl
@[simp] theorem State.updCopy_core (id : Nat) (f : Copy → Copy) : (s.updCopy id f).core = s.core := rfl
@[simp] theorem State.updRow_core (tenant bcls : Nat) (f : Row → Row) : (s.updRow tenant bcls f).core = s.core := rfl
@[simp] theorem State.storeAs_core (cmp : Option Bool) (pa : Nat) (bs : List Byte) : (s.storeAs cmp pa bs).core = s.core :=
  State.core_eq (by simp) (by simp) (by simp) (by simp)
@[simp] theorem State.store_core (pa : Nat) (bs : List Byte) : (s.store pa bs).core = s.core := s.storeAs_core ..
@[simp] theorem State.storeNat_core (pa n x : Nat) : (s.storeNat pa n x).core = s.core := s.store_core ..
@[simp] theorem State.storeSpans_core (spans : List (Nat × Nat)) (bs : List Byte) : (s.storeSpans spans bs).core = s.core := by
  induction spans generalizing s bs with
  | nil => rfl
  | cons x spans ih => exact (ih _ _).trans (s.store_core ..)

@[simp] theorem State.setWaiters_core (l : List Waiter) : (s.setWaiters l).core = s.core :=
  foldl_keep (fun _ _ => by dsimp only; split <;> simp) _ _
@[simp] theorem State.unwait_core (p : Nat → Nat → Bool) : (s.unwait p).core = s.core := s.setWaiters_core _

/-! ### Echo, budgets and fault records -/

@[simp] theorem State.record_core (ctx : Nat) (bytes : List Byte) : (s.record ctx bytes).core = s.core := by
  unfold State.record
  dsimp only
  split
  · rfl
  · split <;> simp

@[simp] theorem State.emitHub_core (die unit code tag : Nat) (payload : W32) : (s.emitHub die unit code tag payload).core = s.core := by
  obtain ⟨_, h⟩ := s.emitHub_form die unit code tag payload
  rw [h]
  rfl

@[simp] theorem State.bumpSeq_core (die : Nat) : (s.bumpSeq die).core = s.core := rfl
@[simp] theorem State.dropEv_core (die unit tag : Nat) : (s.dropEv die unit tag).core = s.core := rfl
@[simp] theorem State.chargeRaw_core (tenant bcls act hub n : Nat) : (s.chargeRaw tenant bcls act hub n).core = s.core := rfl
@[simp] theorem State.capEvent_core (tenant bcls act hub : Nat) (hard : Bool) : (s.capEvent tenant bcls act hub hard).core = s.core :=
  s.emitHub_core ..
@[simp] theorem State.hardCap_core (tenant bcls act hub : Nat) : (s.hardCap tenant bcls act hub).core = s.core := s.capEvent_core ..

@[simp] theorem State.charge_core (tenant bcls act hub n : Nat) : (s.charge tenant bcls act hub n).2.core = s.core := by
  unfold State.charge
  split
  · simp
  · rfl
  · dsimp only
    split <;> simp

@[simp] theorem State.traceRefused_core (tenant bcls hub tag : Nat) : (s.traceRefused tenant bcls hub tag).core = s.core := by
  unfold State.traceRefused
  split
  · rfl
  · simp

@[simp] theorem State.emitBuf_core (k : BufKind) (row : Option (Nat × Nat)) (die unit code tag : Nat) (payload : W32) :
    (s.emitBuf k row die unit code tag payload).core = s.core := by
  unfold State.emitBuf
  dsimp only
  split
  · rfl
  · split
    · rw [State.bumpSeq_core, State.updEcho_core]
      split <;> simp
    · split <;> simp

@[simp] theorem State.emitCore_core (t : Team) (core code : Nat) (payload : W32) : (s.emitCore t core code payload).core = s.core :=
  s.emitBuf_core ..

@[simp] theorem State.echoFault_core (ctx code grp : Nat) (at_ : Option (Team × Nat)) : (s.echoFault ctx code grp at_).core = s.core := by
  unfold State.echoFault
  dsimp only
  split <;> simp

@[simp] theorem State.logFault_core (ctx code detail addr : Nat) : (s.logFault ctx code detail addr).core = s.core := by simp [State.logFault]

@[simp] theorem State.endStalls_core (id : Nat) : (s.endStalls id).core = s.core := by
  obtain ⟨_, h⟩ := s.endStalls_form id
  rw [h]
  rfl

/-! ### Copies -/

theorem State.placeOne_core {s t : State} {c : Copy} (h : s.placeOne c = some t) : t.core = s.core := by
  unfold State.placeOne at h
  obtain ⟨p, -, rfl⟩ := Option.map_eq_some_iff.mp h
  simp

theorem State.placeLoop_core (n : Nat) (s : State) : (s.placeLoop n).core = s.core := by
  induction n generalizing s with
  | zero => rfl
  | succ n ih =>
    unfold State.placeLoop
    split
    next t ht =>
      obtain ⟨c, -, hc⟩ := List.exists_of_findSome?_eq_some ht
      rw [ih]
      split at hc
      · exact State.placeOne_core hc
      · cases hc
    · rfl

@[simp] theorem State.placeAll_core : s.placeAll.core = s.core := State.placeLoop_core _ _
@[simp] theorem State.dropCopies_core (p : Copy → Bool) : (s.dropCopies p).core = s.core := by simp [State.dropCopies]

@[simp] theorem State.dropUnreached_core : s.dropUnreached.core = s.core := by
  unfold State.dropUnreached
  dsimp only
  split <;> simp

@[simp] theorem State.loseDest_core (team : Nat) (killed : Bool) : (s.loseDest team killed).core = s.core := by simp [State.loseDest]
@[simp] theorem State.dropTeamWork_core (id : Nat) : (s.dropTeamWork id).core = s.core :=
  (State.unwait_core _ _).trans ((State.loseDest_core _ _ _).trans (s.dropCopies_core _))
@[simp] theorem State.dropCtxWork_core (ctx : Nat) : (s.dropCtxWork ctx).core = s.core :=
  (State.unwait_core _ _).trans (s.dropCopies_core _)
@[simp] theorem State.testDrained_core : s.testDrained.core = s.core := rfl

end

/-! ### The end of a team and of a context -/

theorem State.killTeam_teams (s : State) (id : Nat) : (s.killTeam id).teams = s.teams.filter fun t => t.id != id := by
  have h := State.teams_of_core ((State.dropTeamWork_core _ id).trans (s.endStalls_core id))
  exact congrArg (List.filter _) h

theorem State.killTeam_ctxs (s : State) (id : Nat) : (s.killTeam id).ctxs = s.ctxs :=
  show ((s.endStalls id).dropTeamWork id).ctxs = s.ctxs from
    State.ctxs_of_core ((State.dropTeamWork_core _ id).trans (s.endStalls_core id))

theorem State.killTeams_teams (ids : List Nat) (s : State) :
    (ids.foldl State.killTeam s).teams = s.teams.filter fun t => !ids.contains t.id := by
  induction ids generalizing s with
  | nil => simp
  | cons id ids ih =>
    rw [List.foldl_cons, ih, State.killTeam_teams, List.filter_filter]
    refine List.filter_congr fun t _ => ?_
    by_cases h : t.id = id <;> simp [h]

theorem State.killTeams_ctxs (ids : List Nat) (s : State) : (ids.foldl State.killTeam s).ctxs = s.ctxs :=
  foldl_keep (fun s id => s.killTeam_ctxs id) ids s

/-- No team whose number a team of the context has is left. -/
theorem State.terminate_teams (s : State) (ctx : Nat) :
    (s.terminate ctx).teams = s.teams.filter fun k => s.teams.all fun x => x.ctx != ctx || x.id != k.id := by
  refine (State.killTeams_teams _ _).trans ?_
  rw [State.teams_of_core (s.dropCtxWork_core ctx)]
  refine List.filter_congr fun k _ => ?_
  rw [Bool.eq_iff_iff]
  simp [List.all_eq_true]
  grind

theorem State.terminate_ctx? (s : State) (ctx k : Nat) :
    (s.terminate ctx).ctx? k = (s.ctx? k).map fun c => if c.num == ctx then { c with st := .terminated, saving := none } else c := by
  refine (State.ctx?_updCtx _ ctx (fun c => { c with st := .terminated, saving := none }) (fun _ => rfl) k).trans ?_
  rw [State.ctx?, State.killTeams_ctxs, State.ctxs_of_core (s.dropCtxWork_core ctx), State.ctx?]


/-! ### What a fault does -/

/-- The state in which the record of a fault of group `id` is made and told: what the group has out is performed. -/
def State.faulted (s : State) (id : Nat × Nat) (t : Team) (x : Exc) (pc : W64) (kill : Bool) : State :=
  let sv := if kill then (3, 3) else sevOf x
  let core := t.coreOf id.2
  ((s.updGrp id Group.performed).record t.ctx (recordBytes x.code sv.1 sv.2 id.2 t.ctx x.detail core pc x.addr x.lanes)).echoFault t.ctx
    x.code id.2 (some (t, core))

theorem State.faulted_core (s : State) (id : Nat × Nat) (t : Team) (x : Exc) (pc : W64) (kill : Bool) :
    (s.faulted id t x pc kill).core = (s.updGrp id Group.performed).core :=
  (State.echoFault_core ..).trans (State.record_core ..)

/-- The faults that stop their context (R371). -/
theorem sevOf_stops {x : Exc} (h : x.code ∉ [0x22, 0x50, 0x60, 0x61, 0x62]) : (sevOf x).1 ≠ 3 := by
  simp only [List.mem_cons, List.not_mem_nil, or_false, not_or] at h
  obtain ⟨h22, h50, h60, h61, h62⟩ := h
  rw [sevOf, if_neg (by rintro (h | h | h | h | h) <;> contradiction)]
  decide

theorem sevOf_terminates {x : Exc} (h : x.code ∈ [0x22, 0x50, 0x60, 0x61, 0x62]) : (sevOf x).1 = 3 := by
  simp only [List.mem_cons, List.not_mem_nil, or_false] at h
  rw [sevOf, if_pos]
  rcases h with h | h | h | h | h <;> rw [h] <;> decide

section
variable {s : State} {id : Nat × Nat} {t : Team} {x : Exc} {pc hdr : W64} {n : Nat}

theorem cleared_ne (o : Option (Nat × Nat)) (a : Nat × Nat) : (if o = some a then none else o) ≠ some a := by
  split
  · exact (Option.some_ne_none _).symm
  · assumption

theorem State.takeFault_stops (ht : s.team? id.1 = some t) (h : (sevOf x).1 ≠ 3) :
    ∃ cur, s.takeFault id x pc hdr n false =
        { ((s.faulted id t x pc false).updGrp id fun g => g.haltAt hdr n).beginSave t.ctx .stop with cur := cur } ∧ cur ≠ some id := by
  rw [State.takeFault, ht]
  exact ⟨_, if_neg h, cleared_ne _ _⟩

theorem State.takeFault_terminates (ht : s.team? id.1 = some t) (h : (sevOf x).1 = 3) :
    s.takeFault id x pc hdr n false = (s.faulted id t x pc false).terminate t.ctx := by
  rw [State.takeFault, ht]
  exact if_pos h

end

theorem Group.performed_late (g : Group) : g.performed.late = [] := rfl
theorem Group.performed_pendingStores (g : Group) : g.performed.pendingStores = 0 := rfl

/-- What was due has been delivered. -/
theorem Group.performed_resv {g : Group} {r : Resv} (h : r ∈ g.performed.resv) : r.due = false := by
  have h' : r ∈ (g.deliver Resv.due).resv := h
  rw [Group.deliver] at h'
  obtain ⟨y, -, rfl⟩ := List.mem_map.mp (List.mem_filter.mp h').1
  split
  · rfl
  · simpa using ‹¬ y.due = true›

theorem State.beginSave_ctx? (s : State) (ctx : Nat) (cause : Cause) (k : Nat) :
    (s.beginSave ctx cause).ctx? k = (s.ctx? k).map fun c =>
      if c.num == ctx then { c with saving := some (c.saving.getD cause), saveAt := if c.saving.isSome then c.saveAt else s.ptp } else c :=
  State.ctx?_updCtx s ctx (fun c => { c with saving := some (c.saving.getD cause), saveAt := if c.saving.isSome then c.saveAt else s.ptp })
    (fun _ => rfl) k

/-- A change of a team outside the teams kept leaves them. -/
theorem State.updTeam_teams_filter {s : State} {id : Nat} {f : Team → Team} {p : Nat → Bool} (hf : ∀ t, (f t).id = t.id) (hp : p id = false) :
    (s.updTeam id f).teams.filter (fun t => p t.id) = s.teams.filter fun t => p t.id := by
  rw [State.updTeam, List.filter_map]
  have hid : (fun t : Team => p t.id) ∘ (fun t => if t.id == id then f t else t) = fun t : Team => p t.id := by
    funext t
    rw [Function.comp]
    split
    · rw [hf]
    · rfl
  rw [hid]
  refine (List.map_congr_left fun t ht => ?_).trans (List.map_id _)
  refine if_neg fun h => ?_
  rw [beq_iff_eq] at h
  rw [List.mem_filter, h, hp] at ht
  exact Bool.noConfusion ht.2

/-- No team of context `ctx` has the number k. -/
def noneOf (l : List Team) (ctx k : Nat) : Bool := l.all fun x => x.ctx != ctx || x.id != k

theorem noneOf_false {l : List Team} {t : Team} (h : t ∈ l) : noneOf l t.ctx t.id = false := by
  rw [noneOf, List.all_eq_false]
  exact ⟨t, h, by simp⟩

theorem noneOf_updGrp (s : State) (id : Nat × Nat) (f : Group → Group) (ctx k : Nat) :
    noneOf (s.updGrp id f).teams ctx k = noneOf s.teams ctx k := by
  rw [State.updGrp, State.updTeam, noneOf, List.all_map]
  refine List.all_congr rfl fun t => ?_
  rw [Function.comp]
  split <;> rfl

/-- Settles O12: after the record a fault halts its group and begins a save, or terminates the context with every team that has a number of
its teams. -/
theorem faults : Obligations.Faults := by
  refine ⟨fun s id t g c x pc hdr n ht hg hc hx => ?_, fun s id t c x pc hdr n ht hc hx => ?_⟩
  · obtain ⟨cur, hu, hcur⟩ := State.takeFault_stops (pc := pc) (hdr := hdr) (n := n) ht (sevOf_stops hx)
    have hcore := s.faulted_core id t x pc false
    rw [hu]
    refine ⟨?_, rfl, rfl, fun r hr => Group.performed_resv hr, fun k hk => ?_, ?_, fun k hk => ?_, hcur⟩
    · exact State.grp?_updGrp_self _ ((State.grp?_of_core hcore id).trans (State.grp?_updGrp_self _ hg))
    · exact (State.grp?_updGrp_other _ hk).trans ((State.grp?_of_core hcore k).trans (State.grp?_updGrp_other _ hk))
    · refine (State.beginSave_ctx? _ _ _ _).trans ?_
      rw [State.ctx?_updGrp, State.ctx?_of_core hcore, State.ctx?_updGrp, hc, Option.map_some,
        if_pos (by rw [State.ctx?_num hc, beq_self_eq_true]), State.updGrp_ptp, State.ptp_of_core hcore, State.updGrp_ptp]
    · refine (State.beginSave_ctx? _ _ _ _).trans ?_
      rw [State.ctx?_updGrp, State.ctx?_of_core hcore, State.ctx?_updGrp]
      cases h : s.ctx? k with
      | none => rfl
      | some d => rw [Option.map_some, if_neg (by rw [State.ctx?_num h]; simpa using hk)]
  · rw [State.takeFault_terminates ht (sevOf_terminates hx)]
    have hcore := s.faulted_core id t x pc false
    have htid : t.id = id.1 := State.team?_id ht
    have hteams : ((s.faulted id t x pc false).terminate t.ctx).teams = s.teams.filter fun k => noneOf s.teams t.ctx k.id := by
      rw [State.terminate_teams, State.teams_of_core hcore]
      have hnone : noneOf s.teams t.ctx id.1 = false := htid ▸ noneOf_false (List.mem_of_find?_eq_some ht)
      refine (List.filter_congr fun k _ => noneOf_updGrp s id Group.performed t.ctx k.id).trans ?_
      exact State.updTeam_teams_filter (f := fun t => t.updGrp id.2 Group.performed) (fun _ => rfl) hnone
    refine ⟨?_, fun k hk hctx => ?_, fun k hk => ?_, hteams⟩
    · rw [State.terminate_ctx?, State.ctx?_of_core hcore, State.ctx?_updGrp, hc, Option.map_some, Option.map_some,
        if_pos (by rw [State.ctx?_num hc, beq_self_eq_true])]
    · rw [hteams, List.mem_filter] at hk
      exact Bool.noConfusion (hk.2.symm.trans (hctx ▸ noneOf_false hk.1))
    · rw [State.terminate_ctx?, State.ctx?_of_core hcore, State.ctx?_updGrp]
      cases h : s.ctx? k with
      | none => rfl
      | some d => rw [Option.map_some, if_neg (by rw [State.ctx?_num h]; simpa using hk)]

end Sys2Proof.Machine
end

section
/-! The lines that an access cannot use (R211, R235): what brings lines into their slices, charges or counts makes no line bad. -/

namespace Sys2Proof.Machine

/-- No line is poisoned or bad in t that is not in s. -/
def State.noWorse (s t : State) : Prop :=
  (∀ l, t.poison.contains l = true → s.poison.contains l = true) ∧ ∀ l, t.badLine l = true → s.badLine l = true

theorem State.noWorse_refl (s : State) : s.noWorse s := ⟨fun _ h => h, fun _ h => h⟩

section
variable {s t u : State}

theorem State.noWorse.trans (h : s.noWorse t) (h' : t.noWorse u) : s.noWorse u :=
  ⟨fun l hl => h.1 l (h'.1 l hl), fun l hl => h.2 l (h'.2 l hl)⟩

theorem State.noWorse_of_eq (hpoison : t.poison = s.poison) (hecc : t.ecc = s.ecc) (htags : t.tags = s.tags)
    (hres : t.resident = s.resident) : s.noWorse t :=
  ⟨fun l h => hpoison ▸ h, fun l h => by rwa [State.badLine, hecc, htags, hres] at h⟩

theorem State.noWorse_of_poison (hpoison : ∀ l, t.poison.contains l = true → s.poison.contains l = true)
    (hecc : ∀ l, t.ecc.contains l = true → s.ecc.contains l = true) (htags : t.tags = s.tags) (hres : t.resident = s.resident) : s.noWorse t := by
  refine ⟨hpoison, fun l h => ?_⟩
  rw [State.badLine, Bool.or_eq_true] at h ⊢
  rw [htags, hres] at h
  exact h.imp_left (hecc l)

/-- An access that meets no event in s meets none in t. -/
theorem State.noWorse.lineEvent (h : s.noWorse t) {tg : Target} {n : Nat} (hs : s.lineEvent tg n = none) : t.lineEvent tg n = none := by
  cases tg with
  | ls => rfl
  | phys pa pk cm =>
    rw [State.lineEvent] at hs ⊢
    split at hs
    · cases hs
    next hp =>
      split at hs
      · cases hs
      next hb =>
        rw [List.any_eq_true] at hp hb
        rw [if_neg, if_neg]
        · rw [List.any_eq_true]
          rintro ⟨l, hl, hbad⟩
          exact hb ⟨l, hl, h.2 l hbad⟩
        · rw [List.any_eq_true]
          rintro ⟨l, hl, hbad⟩
          exact hp ⟨l, hl, h.1 l hbad⟩

end

/-- The tag of a line written back is one of the good ones. -/
theorem lineTag_lt (bs : List Byte) : (lineTag bs).1 < 8 := by
  unfold lineTag
  repeat' split
  all_goals decide

theorem mem_setTag {tags : List TagLine} {l tag : Nat} {bs : List Byte} {t : TagLine} (h : t ∈ setTag tags l tag bs) (ht : tag < 8)
    (hbad : 8 ≤ t.tag.toNat) : t ∈ tags ∧ t.line ≠ l := by
  have hrest : ∀ {x : TagLine}, x ∈ tags.filter (fun t => t.line != l) → x ∈ tags ∧ x.line ≠ l := fun hx => by
    simpa using List.mem_filter.mp hx
  rw [setTag] at h
  split at h
  · exact hrest h
  · obtain rfl | h := List.mem_cons.mp h
    · simp only [BitVec.toNat_ofNat] at hbad
      omega
    · exact hrest h

theorem State.badLine_iff (s : State) (l : Nat) : s.badLine l = true ↔
    s.ecc.contains l = true ∨ (∃ t ∈ s.tags, t.line = l ∧ 8 ≤ t.tag.toNat) ∧ ∀ r ∈ s.resident, r.line ≠ l := by
  simp [State.badLine]

theorem State.noWorse_writeBack (s : State) (x y : SliceLine) :
    s.noWorse { s.writeBack x with resident := y :: (s.writeBack x).resident } := by
  refine ⟨fun _ h => h, fun l h => ?_⟩
  rw [State.badLine_iff] at h ⊢
  refine h.imp_right fun ⟨⟨t, ht, hl, hbad⟩, hres⟩ => ?_
  have htag : (if x.compress then (lineTag (s.mem.bytes (128 * x.line) 128)).1 else 0) < 8 := by
    split
    · exact lineTag_lt _
    · decide
  obtain ⟨hmem, hne⟩ := mem_setTag ht htag hbad
  refine ⟨⟨t, hmem, hl, hbad⟩, fun r hr hrl => ?_⟩
  exact hres r (.tail _ (List.mem_filter.mpr ⟨hr, by simpa [hrl, ← hl] using hne⟩)) hrl

theorem State.noWorse_bring (s : State) (cmp : Option Bool) (line : Nat) : s.noWorse (s.bring cmp line) := by
  have hcons (y : SliceLine) : s.noWorse { s with resident := y :: s.resident } := by
    refine ⟨fun _ h => h, fun l h => ?_⟩
    rw [State.badLine_iff] at h ⊢
    exact h.imp_right fun ⟨ht, hres⟩ => ⟨ht, fun r hr => hres r (.tail _ hr)⟩
  unfold State.bring
  split
  · split
    · refine ⟨fun _ h => h, fun l h => ?_⟩
      rw [State.badLine_iff] at h ⊢
      refine h.imp_right fun ⟨ht, hres⟩ => ⟨ht, fun r hr => ?_⟩
      have := hres _ (List.mem_map.mpr ⟨r, hr, rfl⟩)
      split at this <;> exact this
    · exact s.noWorse_refl
  · dsimp only
    split
    · exact hcons _
    · generalize (List.filter _ _)[(_ : Nat)]? = o
      cases o with
      | none => exact hcons _
      | some x => exact s.noWorse_writeBack x _

theorem State.noWorse_bringSpan (s : State) (cmp : Option Bool) (pa n : Nat) : s.noWorse (s.bringSpan cmp pa n) := by
  unfold State.bringSpan
  generalize s.homedLines pa n = ls
  induction ls generalizing s with
  | nil => exact s.noWorse_refl
  | cons l ls ih => exact (s.noWorse_bring cmp l).trans (ih _)

theorem State.noWorse_storeAs (s : State) (cmp : Option Bool) (pa : Nat) (bs : List Byte) : s.noWorse (s.storeAs cmp pa bs) := by
  have hfilter : ∀ (p : Nat → Bool) (ls : List Nat) (l : Nat), (ls.filter p).contains l = true → ls.contains l = true := fun p ls l h => by
    rw [List.contains_iff_mem] at h ⊢
    exact (List.mem_filter.mp h).1
  obtain ⟨r, t, hb⟩ := s.bringSpan_frame cmp pa bs.length
  refine (s.noWorse_bringSpan cmp pa bs.length).trans ?_
  have hpoison : (s.bringSpan cmp pa bs.length).poison = s.poison := by rw [hb]
  have hecc : (s.bringSpan cmp pa bs.length).ecc = s.ecc := by rw [hb]
  exact State.noWorse_of_poison (fun l h => hpoison ▸ hfilter _ _ l h) (fun l h => hecc ▸ hfilter _ _ l h) rfl rfl

end Sys2Proof.Machine
end

section
/-! The stores of a word, byte by byte (R239, R256). -/

namespace Sys2Proof.Machine

theorem leBytes_getD {n j : Nat} (x : Nat) (h : j < n) : (leBytes n x).getD j 0#8 = BitVec.ofNat 8 (x / 256 ^ j) := by
  induction n generalizing j x with
  | zero => omega
  | succ n ih =>
    rw [leBytes]
    cases j with
    | zero => simp
    | succ j => rw [List.getD_cons_succ, ih _ (by omega), Nat.div_div_eq_div_mul, Nat.pow_succ']

section
variable (s : State) (w : Iss) (va : Nat)

theorem State.writeThread_ctxs (t : Target) (bs : List Byte) : (s.writeThread w va t bs).ctxs = s.ctxs := by
  unfold State.writeThread
  split
  · rfl
  · split
    · simp only [State.markPoison]
      rfl
    · exact State.storeAs_ctxs ..

/-- A store that meets no event writes its bytes and makes no line bad. -/
theorem State.writeThread_phys {pa : Nat} {pk cm : Bool} {bs : List Byte} (h : s.lineEvent (.phys pa pk cm) bs.length = none) :
    (s.writeThread w va (.phys pa pk cm) bs).mem = s.mem.write pa bs ∧ s.noWorse (s.writeThread w va (.phys pa pk cm) bs) := by
  rw [State.writeThread, h, ite_self]
  exact ⟨rfl, (s.noWorse_storeAs (some cm) pa bs).trans (State.noWorse_of_eq rfl rfl rfl rfl)⟩

theorem State.noWorse_writeThread {t : Target} {bs : List Byte} (h : s.lineEvent t bs.length = none) : s.noWorse (s.writeThread w va t bs) := by
  cases t with
  | ls => exact State.noWorse_of_eq rfl rfl rfl rfl
  | phys => exact (s.writeThread_phys w va h).2

/-- A byte that a store does not cover stays, and so does the form of memory. -/
theorem State.writeThread_other {t : Target} {bs : List Byte} {a : Nat} (hs : s.memOk) (ha : ¬ t.covers bs.length a) :
    (s.writeThread w va t bs).mem.get a = s.mem.get a ∧ (s.writeThread w va t bs).memOk := by
  obtain h | ⟨pa, pk, cm, rfl, h⟩ := s.writeThread_mem w va t bs <;> rw [State.memOk, h]
  · exact ⟨rfl, hs⟩
  · refine ⟨Memory.get_write_other hs ?_, Memory.write_wf _ _ hs⟩
    simp only [Target.covers] at ha
    omega

end

theorem State.writePuts_append (w : Iss) (s : State) (ps qs : List Put) : State.writePuts w s (ps ++ qs) = State.writePuts w (State.writePuts w s ps) qs :=
  List.foldl_append

theorem State.writePuts_cons (w : Iss) (s : State) (p : Put) (ps : List Put) :
    State.writePuts w s (p :: ps) = State.writePuts w (s.writeThread w p.va p.tg p.bs) ps := rfl

theorem State.writePuts_ctxs (w : Iss) (s : State) (ps : List Put) : (State.writePuts w s ps).ctxs = s.ctxs :=
  foldl_keep (fun s p => s.writeThread_ctxs w p.va p.tg p.bs) ps s

theorem State.writePuts_other (w : Iss) {ps : List Put} {a : Nat} (h : ∀ p ∈ ps, ¬ p.tg.covers p.bs.length a) (s : State) (hs : s.memOk) :
    (State.writePuts w s ps).mem.get a = s.mem.get a := by
  induction ps generalizing s with
  | nil => rfl
  | cons p ps ih =>
    obtain ⟨hget, hok⟩ := s.writeThread_other w p.va hs (h p (.head _))
    rw [State.writePuts_cons, ih (fun q hq => h q (.tail _ hq)) _ hok, hget]

theorem State.noWorse_writePuts (w : Iss) {ps : List Put} (s : State) (h : ∀ p ∈ ps, s.lineEvent p.tg p.bs.length = none) :
    s.noWorse (State.writePuts w s ps) := by
  induction ps generalizing s with
  | nil => exact s.noWorse_refl
  | cons p ps ih =>
    have hstep := s.noWorse_writeThread w p.va (h p (.head _))
    exact hstep.trans (ih _ fun q hq => hstep.lineEvent (h q (.tail _ hq)))

/-- Settles O38: the last thread that covers a byte writes it, for no later one changes it and no earlier one makes its line bad. -/
theorem storeBytes : Obligations.StoreBytes := by
  intro s w addr n ts x hs u
  have hputs {p : Put} {l : List (Nat × Target)} (hp : p ∈ threadPuts addr (fun th => leBytes n (x th)) l) :
      p.bs.length = n ∧ ∃ q ∈ l, q.2 = p.tg := by
    obtain ⟨q, hq, rfl⟩ := List.mem_map.mp hp
    exact ⟨leBytes_length .., q, hq, rfl⟩
  have hother {l : List (Nat × Target)} {a : Nat} (ha : ∀ p ∈ l, ¬ p.2.covers n a) (v : State) (hv : v.memOk) :
      (State.writePuts w v (threadPuts addr (fun th => leBytes n (x th)) l)).mem.get a = v.mem.get a := by
    refine State.writePuts_other w (fun p hp => ?_) v hv
    obtain ⟨hlen, q, hq, hqt⟩ := hputs hp
    rw [hlen, ← hqt]
    exact ha q hq
  refine ⟨fun a ha => hother ha s hs, fun hev pre post th pa pk cm j hts hj hpost => ?_, State.writePuts_wf s w _ hs, State.writePuts_ctxs ..⟩
  have hsplit : u = State.writePuts w ((State.writePuts w s (threadPuts addr (fun th => leBytes n (x th)) pre)).writeThread w (addr th)
      (.phys pa pk cm) (leBytes n (x th))) (threadPuts addr (fun th => leBytes n (x th)) post) := by
    rw [← State.writePuts_cons w _ ⟨some th, addr th, .phys pa pk cm, leBytes n (x th)⟩, ← State.writePuts_append]
    exact congrArg _ (by rw [hts, threadPuts, List.map_append]; rfl)
  have hpre : s.noWorse (State.writePuts w s (threadPuts addr (fun th => leBytes n (x th)) pre)) := State.noWorse_writePuts w s fun p hp => by
    obtain ⟨hlen, q, hq, hqt⟩ := hputs hp
    rw [hlen, ← hqt]
    exact hev q (hts ▸ List.mem_append_left _ hq)
  have hok : (State.writePuts w s (threadPuts addr (fun th => leBytes n (x th)) pre)).memOk := State.writePuts_wf s w _ hs
  have hone := (State.writeThread_phys _ w (addr th) (pa := pa) (pk := pk) (cm := cm) (bs := leBytes n (x th))
    (hpre.lineEvent (by rw [leBytes_length]; exact hev _ (hts ▸ List.mem_append_right _ (.head _))))).1
  rw [hsplit, hother hpost _ (by rw [State.memOk, hone]; exact Memory.write_wf _ _ hok), hone, Memory.get_write hok, leBytes_length,
    if_pos (by omega), Nat.add_sub_cancel_left, leBytes_getD _ hj]

end Sys2Proof.Machine
end

section
/-! The value of a load (R237, R238): each read of a word leaves what the next one reads. -/

namespace Sys2Proof.Machine

/-- What a read leaves: memory, the groups, the contexts, the images of LS, the agreement of the L1s with memory, and the lines without an
event. -/
structure State.readsTo (s t : State) : Prop where
  mem : t.mem = s.mem
  grp : ∀ k, t.grp? k = s.grp? k
  ctxs : t.ctxs = s.ctxs
  ls : ∀ team core off n, t.lsBytes team core off n = s.lsBytes team core off n
  agrees : s.l1Agrees → t.l1Agrees
  noWorse : s.noWorse t

section
variable {s t u : State}

theorem State.readsTo_refl (s : State) : s.readsTo s := ⟨rfl, fun _ => rfl, rfl, fun _ _ _ _ => rfl, id, s.noWorse_refl⟩

theorem State.readsTo.trans (h : s.readsTo t) (h' : t.readsTo u) : s.readsTo u :=
  ⟨h'.mem.trans h.mem, fun k => (h'.grp k).trans (h.grp k), h'.ctxs.trans h.ctxs, fun a b c d => (h'.ls a b c d).trans (h.ls a b c d),
    h'.agrees ∘ h.agrees, h.noWorse.trans h'.noWorse⟩

/-- A change outside the teams, the contexts, memory and what the slices hold. -/
theorem State.readsTo_of_eq (hmem : t.mem = s.mem) (hteams : t.teams = s.teams) (hctxs : t.ctxs = s.ctxs)
    (hl1 : ∀ l ∈ t.l1, l ∈ s.l1 ∨ l.bytes = s.mem.bytes (128 * l.line) 128) (hbad : s.noWorse t) : s.readsTo t := by
  refine ⟨hmem, fun k => by rw [State.grp?, State.team?, hteams, State.grp?, State.team?], hctxs,
    fun _ _ _ _ => by rw [State.lsBytes, State.team?, hteams, State.lsBytes, State.team?], fun ha l hl => ?_, hbad⟩
  rw [hmem]
  exact (hl1 l hl).elim (ha l) id

end

section
variable (s : State)

theorem State.readsTo_freeN (n : Nat) : s.readsTo { s with freeN := n } :=
  State.readsTo_of_eq rfl rfl rfl (fun _ => .inl) (State.noWorse_of_eq rfl rfl rfl rfl)

theorem State.readsTo_perfAdd (id : Nat × Nat) (k n : Nat) : s.readsTo (s.perfAdd id k n) := by
  refine ⟨rfl, fun _ => by simp, rfl, fun team core off m => ?_, fun h => h, State.noWorse_of_eq rfl rfl rfl rfl⟩
  rw [State.lsBytes, State.perfAdd, State.team?_updTeam s id.1 (fun t => t.updCount (t.half id.2) fun c => c.add k n) (fun _ => rfl)]
  cases h : s.team? team with
  | none => rw [State.lsBytes, h]; rfl
  | some t =>
    rw [State.lsBytes, h]
    dsimp only [Option.map_some]
    split <;> rfl

theorem State.readsTo_bringSpan (cmp : Option Bool) (pa n : Nat) : s.readsTo (s.bringSpan cmp pa n) := by
  obtain ⟨r, t, h⟩ := s.bringSpan_frame cmp pa n
  refine State.readsTo_of_eq ?_ ?_ ?_ ?_ (s.noWorse_bringSpan cmp pa n) <;> rw [h]
  exact fun _ => .inl

theorem State.readsTo_l1Touch (fused : Bool) (core pa n : Nat) : s.readsTo (s.l1Touch fused core pa n) := by
  refine State.readsTo_of_eq rfl rfl rfl (fun l hl => ?_) (State.noWorse_of_eq rfl rfl rfl rfl)
  obtain ⟨y, hy, rfl⟩ := List.mem_map.mp hl
  split
  · exact .inr rfl
  · exact .inl hy

theorem State.readsTo_l1Fill (home ctx va bits pa : Nat) : s.readsTo (s.l1Fill home ctx va bits pa) := by
  refine State.readsTo_of_eq rfl rfl rfl (fun l hl => ?_) (State.noWorse_of_eq rfl rfl rfl rfl)
  simp only [State.l1Fill, List.mem_cons] at hl
  obtain rfl | hl := hl
  · exact .inr (congrArg (s.mem.bytes · 128) (Nat.mul_comm _ _))
  · refine .inl ?_
    split at hl
    · exact (List.mem_filter.mp hl).1
    · revert hl
      generalize (List.filter _ _)[(_ : Nat)]? = o
      cases o with
      | none => exact fun hl => (List.mem_filter.mp hl).1
      | some x => exact fun hl => (List.mem_filter.mp (List.mem_of_mem_erase hl)).1

end

/-! ### One read -/

section
variable {s : State} {id : Nat × Nat} {t : Team} {c : Ctx} {core va n : Nat} {tg : Target} {cache : Bool}

/-- A read at the home of a line. -/
theorem State.readHome_ok (hev : s.lineEvent tg n = none) :
    (s.readHome id t c core va tg n cache).1 = .ok (s.readTarget tg n) ∧ s.readsTo (s.readHome id t c core va tg n cache).2 := by
  cases tg with
  | ls => exact ⟨rfl, s.readsTo_refl⟩
  | phys pa packed cmp =>
    rw [State.readHome, hev]
    refine ⟨rfl, (s.readsTo_bringSpan (some cmp) pa n).trans ?_⟩
    dsimp only
    split
    · exact State.readsTo_refl _
    · split
      · exact (State.readsTo_l1Fill ..).trans (State.readsTo_perfAdd ..)
      · exact State.readsTo_l1Touch ..

/-- The bytes of a line that agrees with memory are those of memory. -/
theorem State.l1Agrees.bytes {l : L1Line} (ha : s.l1Agrees) (hl : l ∈ s.l1) {pa : Nat} (hline : l.line = pa / 128) (hn : pa % 128 + n ≤ 128) :
    (l.bytes.drop (pa % 128)).take n = s.mem.bytes pa n := by
  rw [ha l hl, hline]
  refine List.ext_getElem (by simp; omega) fun i h1 h2 => ?_
  simp only [Memory.bytes, List.getElem_take, List.getElem_drop, List.getElem_map, List.getElem_range]
  congr 1
  omega

/-- A read of a core, with an L1 that agrees with memory. -/
theorem State.readCore_ok (ha : s.l1Agrees) (hev : s.lineEvent tg n = none) (hn : ∀ pa a b, tg = .phys pa a b → pa % 128 + n ≤ 128) :
    (s.readCore id t c core va tg n cache).1 = .ok (s.readTarget tg n) ∧ s.readsTo (s.readCore id t c core va tg n cache).2 := by
  cases tg with
  | ls => exact ⟨rfl, s.readsTo_refl⟩
  | phys pa packed cmp =>
    rw [State.readCore]
    split
    · exact State.readHome_ok hev
    next l hl =>
      have hfind : s.l1Find (l1Home t.kd.fusel1 core pa) pa = some l := by
        split at hl
        · exact hl
        · cases hl
      have hline : l.line = pa / 128 := by
        have := List.find?_some hfind
        simp only [Bool.and_eq_true, beq_iff_eq] at this
        exact this.2
      have hold := ha.bytes (List.mem_of_find?_eq_some hfind) hline (hn pa packed cmp rfl)
      dsimp only
      split
      · exact State.readHome_ok hev
      · rw [if_pos ⟨hold, hev⟩]
        exact ⟨congrArg _ hold, s.readsTo_perfAdd ..⟩

end

/-- The reads of a word, one after another. -/
theorem State.readMany_ok {w : Iss} {addr : Nat → Nat} {n : Nat} {cache : Bool} (ts : List (Nat × Target)) (s : State) (ha : s.l1Agrees)
    (hev : ∀ p ∈ ts, s.lineEvent p.2 n = none) (hn : ∀ p ∈ ts, ∀ pa a b, p.2 = .phys pa a b → pa % 128 + n ≤ 128) :
    (State.readMany w addr n cache s ts).2 = (ts.map (fun p => (p.1, leNat (s.readTarget p.2 n))), []) ∧
      s.readsTo (State.readMany w addr n cache s ts).1 := by
  induction ts generalizing s with
  | nil => exact ⟨rfl, s.readsTo_refl⟩
  | cons p ts ih =>
    obtain ⟨th, tg⟩ := p
    obtain ⟨hval, hto⟩ := State.readCore_ok (id := w.id) (t := w.t) (c := w.c) (core := w.core) (va := addr th) (cache := cache) ha
      (hev _ (.head _)) (hn _ (.head _))
    obtain ⟨hrest, hto'⟩ := ih _ (hto.agrees ha) (fun q hq => hto.noWorse.lineEvent (hev q (.tail _ hq))) fun q hq => hn q (.tail _ hq)
    have hone : (s.readOne w (addr th) tg n cache).1 = .ok (leNat (s.readTarget tg n)) := congrArg (Except.map leNat) hval
    rw [State.readMany, hone]
    refine ⟨Prod.ext ?_ (congrArg (fun r => r.2) hrest), hto.trans hto'⟩
    refine congrArg (List.cons _) ((congrArg (fun r => r.1) hrest).trans (List.map_congr_left fun q _ => ?_))
    have hread : (s.readOne w (addr th) tg n cache).2.readTarget q.2 n = s.readTarget q.2 n := by
      cases q.2 with
      | ls => exact hto.ls ..
      | phys => exact congrArg (fun m : Memory => m.bytes _ n) hto.mem
    exact congrArg (fun b => (q.1, leNat b)) hread

/-- Settles O37: a read gives the bytes at its target, from the L1 or from the home, and leaves what the reads after it give. -/
theorem loadValues : Obligations.LoadValues := by
  intro s w addr n cache ts ha hev hn q
  obtain ⟨hvals, hto⟩ := State.readMany_ok (w := w) (addr := addr) (cache := cache) ts s ha hev hn
  exact ⟨congrArg Prod.fst hvals, congrArg Prod.snd hvals, hto.mem, hto.grp, hto.ctxs⟩

end Sys2Proof.Machine
end

section
/-! The operations of atomics (R246), and what one of them does at its target (R247). -/

namespace Sys2Proof.Machine

/-! ### On bit vectors -/

section
variable {ty : Nat}

theorem atomBits_pos (ty : Nat) : 0 < atomBits ty := by
  unfold atomBits
  split <;> decide

/-- The order of TY on numbers is that on bit vectors. -/
theorem atomLe_iff (x y : BitVec (atomBits ty)) :
    (if ty % 2 = 0 then decide (sInt (atomBits ty) x.toNat ≤ sInt (atomBits ty) y.toNat)
      else decide (x.toNat % 2 ^ atomBits ty ≤ y.toNat % 2 ^ atomBits ty)) = if ty % 2 = 0 then x.sle y else x.ule y := by
  rw [sInt_eq_toInt_ofNat (atomBits_pos ty), sInt_eq_toInt_ofNat (atomBits_pos ty), BitVec.ofNat_toNat, BitVec.setWidth_eq, BitVec.ofNat_toNat,
    BitVec.setWidth_eq, Nat.mod_eq_of_lt x.isLt, Nat.mod_eq_of_lt y.isLt]
  rfl

/-- The integer operation n of an atomic on bit vectors. -/
def atomVec (n : Nat) (le : Bool) {w : Nat} (x y : BitVec w) : BitVec w :=
  match n with
  | 0 => x + y
  | 1 => if le then x else y
  | 2 => if le then y else x
  | 3 => x &&& y
  | 4 => x ||| y
  | 5 => x ^^^ y
  | _ => y

theorem atomOp_eq (h : ty < 4) (n : Nat) (x y : BitVec (atomBits ty)) :
    atomOp n ty x.toNat y.toNat = (atomVec n (if ty % 2 = 0 then x.sle y else x.ule y) x y).toNat := by
  rw [atomOp, if_neg (by omega), atomLe_iff]
  generalize (if ty % 2 = 0 then x.sle y else x.ule y) = le
  match n with
  | 0 => exact (BitVec.toNat_add ..).symm
  | 1 => exact (apply_ite BitVec.toNat ..).symm
  | 2 => exact (apply_ite BitVec.toNat ..).symm
  | 3 => exact (BitVec.toNat_and ..).symm
  | 4 => exact (BitVec.toNat_or ..).symm
  | 5 => exact (BitVec.toNat_xor ..).symm
  | _ + 6 => rfl

end

/-! ### At the target -/

section
variable (s : State)

/-- A charge changes the budgets and Echo. -/
theorem State.charge_form (tenant bcls act hub n : Nat) : ∃ e h, (s.charge tenant bcls act hub n).2 = { s with echo := e, sch := h } := by
  have hcap (u : State) (hard : Bool) : ∃ e, u.capEvent tenant bcls act hub hard = { u with echo := e } := u.emitHub_form ..
  unfold State.charge
  split
  · obtain ⟨e, h⟩ := hcap s true
    exact ⟨e, s.sch, h⟩
  · exact ⟨s.echo, s.sch, rfl⟩
  · dsimp only
    split
    · obtain ⟨e, h⟩ := hcap (s.chargeRaw tenant bcls act hub n) false
      exact ⟨e, _, h⟩
    · exact ⟨s.echo, _, rfl⟩

theorem State.sliceCharge_form (w : Iss) (t : Target) : ∃ e h, (s.sliceCharge w t).2 = { s with echo := e, sch := h } := by
  unfold State.sliceCharge
  split
  · split
    · exact s.charge_form ..
    · exact ⟨s.echo, s.sch, rfl⟩
  · exact ⟨s.echo, s.sch, rfl⟩

/-- An atomic operation without an event and a cap in the way, by what its operation gives. -/
theorem State.atomOne_phys {w : Iss} {va pa n : Nat} {pk cm : Bool} {f : List Byte → Option (List Byte)}
    (hev : s.lineEvent (.phys pa pk cm) n = none) (hch : (s.sliceCharge w (.phys pa pk cm)).1 = .ok)
    (hlen : ∀ o bs, f o = some bs → bs.length = n) :
    (s.atomOne w va (.phys pa pk cm) n f).1 = some (.ok (s.mem.bytes pa n)) ∧
      (s.atomOne w va (.phys pa pk cm) n f).2.mem = match f (s.mem.bytes pa n) with
        | some bs => s.mem.write pa bs
        | none => s.mem := by
  obtain ⟨e, h, hform⟩ := s.sliceCharge_form w (.phys pa pk cm)
  have hpair : s.sliceCharge w (.phys pa pk cm) = (.ok, { s with echo := e, sch := h }) := Prod.ext hch hform
  rw [State.atomOne, hpair]
  dsimp only
  rw [hev]
  refine ⟨rfl, ?_⟩
  dsimp only
  rw [show State.readTarget { s with echo := e, sch := h } (.phys pa pk cm) n = s.mem.bytes pa n from rfl]
  cases hf : f (s.mem.bytes pa n) with
  | none => rfl
  | some bs => exact (State.writeThread_phys _ w va (by rw [hlen _ _ hf]; exact hev)).1

end

/-- The integer operations of R246. -/
theorem atomOp_vec {ty : Nat} (hty : ty < 4) (x y : BitVec (atomBits ty)) (n : Nat) :
    BitVec.ofNat (atomBits ty) (atomOp n ty x.toNat y.toNat) = atomVec n (if ty % 2 = 0 then x.sle y else x.ule y) x y := by
  rw [atomOp_eq hty, BitVec.ofNat_toNat, BitVec.setWidth_eq]

theorem atomOp_lt {ty : Nat} (hty : ty < 4) (x y : BitVec (atomBits ty)) (n : Nat) : atomOp n ty x.toNat y.toNat < 2 ^ atomBits ty := by
  rw [atomOp_eq hty]
  exact BitVec.isLt _

/-- The effect of R247 on memory. -/
theorem State.atomOne_mem {s : State} {w : Iss} {va pa n : Nat} {pk cm : Bool} {f : List Byte → Option (List Byte)} (hs : s.memOk)
    (hev : s.lineEvent (.phys pa pk cm) n = none) (hch : (s.sliceCharge w (.phys pa pk cm)).1 = .ok)
    (hlen : ∀ o bs, f o = some bs → bs.length = n) :
    (∀ bs, f (s.mem.bytes pa n) = some bs → (s.atomOne w va (.phys pa pk cm) n f).2.mem.bytes pa n = bs) ∧
    (f (s.mem.bytes pa n) = none → (s.atomOne w va (.phys pa pk cm) n f).2.mem = s.mem) ∧
    ∀ a, a < pa ∨ pa + n ≤ a → (s.atomOne w va (.phys pa pk cm) n f).2.mem.get a = s.mem.get a := by
  rw [(s.atomOne_phys (va := va) hev hch hlen).2]
  refine ⟨fun bs hbs => ?_, fun hnone => ?_, fun a ha => ?_⟩
  · rw [hbs, ← hlen _ _ hbs]
    exact Memory.bytes_write hs ..
  · rw [hnone]
  · cases hf : f (s.mem.bytes pa n) with
    | none => rfl
    | some bs => exact Memory.get_write_other hs (by rw [hlen _ _ hf]; exact ha)

/-- Settles O41: on bit vectors the operation is `atomVec`, and at the target its bytes are what an atomic writes. -/
theorem atomicOperations : Obligations.AtomicOperations :=
  ⟨fun _ hty x y => ⟨atomOp_lt hty x y, atomOp_vec hty x y 0, atomOp_vec hty x y 1, atomOp_vec hty x y 2, atomOp_vec hty x y 3,
      atomOp_vec hty x y 4, atomOp_vec hty x y 5, atomOp_vec hty x y 6⟩,
    fun s _ _ _ _ _ _ _ hs hev hch hlen => ⟨(s.atomOne_phys hev hch hlen).1, State.atomOne_mem hs hev hch hlen⟩⟩

end Sys2Proof.Machine
end

section
/-! Accumulation of one K-block (R71, R85 to R88). -/

namespace Sys2Proof.Machine

/-! ### TER and LNS -/

theorem accTer_eq (ng : Bool) (c : Nat) (a b : List Nat) :
    let x := sInt 32 c + (if ng then -1 else 1) * ((a.zip b).map fun p => sInt 8 p.1 * terW p.2).sum
    accTer ng c a b = (wrapInt 32 (clampInt (-(2 ^ 31)) (2 ^ 31 - 1) x), x != clampInt (-(2 ^ 31)) (2 ^ 31 - 1) x) := by
  cases ng <;> simp [accTer]

theorem accLns_fst (ng : Bool) (a b : List Nat) (c : Nat) (f : Bool) :
    (accLns ng a b (c, f)).1 = (a.zip b).foldl (fun acc p => lnsAdd 32 acc (if ng then lnsNeg 32 (prod32 p.1 p.2) else prod32 p.1 p.2)) c := by
  induction a generalizing b c f with
  | nil => rfl
  | cons x a ih =>
    cases b with
    | nil => rfl
    | cons y b => exact ih ..

/-! ### XACC images -/

/-- The bound of the special images is twice that of the finite range. -/
theorem two_pow_575 : (2 : Int) ^ 575 = 2 * xBound := pow_succ' ..

theorem two_lt_xBound : 2 < xBound := lt_of_lt_of_le (by decide : (2 : Int) < 2 ^ 2) (pow_le_pow_right₀ (by decide) (by decide))

/-- An integer between the bounds of the special images comes back from its image. -/
theorem sInt_wrapInt_image {i : Int} (hlo : -(2 * xBound) ≤ i) (hhi : i < 2 * xBound) : sInt 576 (wrapInt 576 i) = i :=
  sInt_wrapInt (by decide) (two_pow_575 ▸ hlo) (two_pow_575 ▸ hhi)

/-- The element of an image, by the integer of the image. -/
theorem xDec_wrapInt {i : Int} (hlo : -(2 * xBound) ≤ i) (hhi : i < 2 * xBound) :
    xDec (wrapInt 576 i) = if i = -(2 * xBound) then .nan else if i = -(2 * xBound) + 1 then .inf false
      else if i = -(2 * xBound) + 2 then .inf true else if i < xBound ∧ -xBound < i then .fin i else .nan := by
  rw [xDec, sInt_wrapInt_image hlo hhi, two_pow_575]

theorem xDec_fin {i : Int} (hlo : -2 ^ 574 < i) (hhi : i < 2 ^ 574) : xDec (xEnc (.fin i)) = .fin i := by
  have hB := two_lt_xBound
  have hlo : -xBound < i := hlo
  have hhi : i < xBound := hhi
  rw [xEnc, xDec_wrapInt (by omega) (by omega), if_neg (by omega), if_neg (by omega), if_neg (by omega), if_pos ⟨hhi, hlo⟩]

theorem xDec_inf (s : Bool) : xDec (xEnc (.inf s)) = .inf s := by
  have hB := two_lt_xBound
  cases s <;> rw [xEnc, two_pow_575, xDec_wrapInt (by omega) (by omega), if_neg (by omega)]
  · rw [if_pos rfl]
  · rw [if_neg (by omega), if_pos rfl]

theorem xDec_nan : xDec (xEnc .nan) = .nan := by
  have hB := two_lt_xBound
  rw [xEnc, two_pow_575, xDec_wrapInt (by omega) (by omega), if_pos rfl]

/-- The sum of finite values, by the range. -/
theorem xRange_cases (i : Int) : (-xBound < i ∧ i < xBound → xRange i = (.fin i, false)) ∧ (xBound ≤ i → xRange i = (.inf false, true)) ∧
    (i ≤ -xBound → xRange i = (.inf true, true)) := by
  have hB := two_lt_xBound
  rw [xRange]
  refine ⟨fun h => if_pos h.symm, fun h => ?_, fun h => ?_⟩
  · rw [if_neg (by omega), decide_eq_false (by omega)]
  · rw [if_neg (by omega), decide_eq_true (by omega)]

/-! ### The sum of products -/

/-- An exact zero is +0.0. -/
theorem Val.rat_of_positive_zero {a : Val} {r : ℚ} (h : a.rat = some r) : (if a.isZero then Val.fin false 0 0 else a).rat = some r := by
  split
  next hz => rw [Val.rat_of_isZero h hz]; simp [Val.rat]
  · exact h

theorem dotVal_rat {ng : Bool} {a b : List Val} {acc : Val} {p q : List ℚ} {r : ℚ} (ha : a.map Val.rat = p.map some)
    (hb : b.map Val.rat = q.map some) (hacc : acc.rat = some r) :
    (dotVal ng a b acc).rat = some (r + (if ng then -1 else 1) * ((p.zip q).map fun x => x.1 * x.2).sum) := by
  have hend := Val.rat_of_positive_zero hacc
  induction a generalizing b acc p q r with
  | nil =>
    obtain rfl : p = [] := List.map_eq_nil_iff.mp ha.symm
    simpa [dotVal] using hend
  | cons x a ih =>
    obtain ⟨u, p, rfl, hu, hp⟩ := List.map_eq_cons_iff.mp ha.symm
    cases b with
    | nil =>
      obtain rfl : q = [] := List.map_eq_nil_iff.mp hb.symm
      simpa [dotVal] using hend
    | cons y b =>
      obtain ⟨v, q, rfl, hv, hq⟩ := List.map_eq_cons_iff.mp hb.symm
      have hprod : (if ng then (x.mul y).neg else x.mul y).rat = some ((if ng then -1 else 1) * (u * v)) := by
        have hmul := Val.mul_rat hu.symm hv.symm
        split
        · rw [Val.neg_rat hmul, neg_one_mul]
        · rw [hmul, one_mul]
      have hsum := Val.add_rat false hacc hprod
      rw [dotVal, ih hp.symm hq.symm hsum (Val.rat_of_positive_zero hsum)]
      simp only [List.zip_cons_cons, List.map_cons, List.sum_cons]
      ring_nf

/-- Settles O44: each class adds what R85 to R88 say, and every image decodes to its element. -/
theorem accumulation : Obligations.Accumulation := by
  refine ⟨⟨fun ng c a b => ?_, accLns_fst, fun _ => xDec_fin, xDec_inf, xDec_nan, fun i j => xRange_cases (i + j)⟩, fun ng a b p q ha hb => ?_⟩
  · intro x
    have hx : accTer ng c a b = (wrapInt 32 (clampInt (-(2 ^ 31)) (2 ^ 31 - 1) x), x != clampInt (-(2 ^ 31)) (2 ^ 31 - 1) x) := accTer_eq ..
    rw [hx, clampInt]
    refine ⟨sInt_wrapInt (by decide) (by omega) (by omega), ?_⟩
    rw [bne_iff_ne]
    omega
  · rw [dotVal_rat ha hb (r := 0) (by simp [Val.rat]), zero_add]

end Sys2Proof.Machine
end

section
/-! The words that act on the entries of a table: tiles (R319, R320), barriers (R325, R326) and shape records (R339). -/

namespace Sys2Proof.Machine

/-! ### The entries -/

section
variable {w : Iss} {v : View} {t : Tile} {b : Barrier}

theorem tileEnt_ok (hv : w.v = v) (hn : natBits v.efunc 0 6 < w.t.kd.tiles) (ht : (w.t.tiles.getD w.half [])[natBits v.efunc 0 6]? = some t) :
    tileEnt w = .ok t := by
  subst hv
  rw [tileEnt, show tileNo w.v = natBits w.v.efunc 0 6 from rfl, if_neg (Nat.not_le.mpr hn), ht]

theorem tileBusy_ok (hf : t.st ≠ .filling) (hd : t.st ≠ .draining) : tileBusy t = .ok () := if_neg (not_or.mpr ⟨hf, hd⟩)

theorem barEnt_ok (hv : w.v = v) (hn : natBits v.efunc 0 6 < w.t.kd.barriers) (hb : w.t.barriers[natBits v.efunc 0 6]? = some b) :
    barEnt w = .ok b := by
  subst hv
  rw [barEnt, show barNo w.v = natBits w.v.efunc 0 6 from rfl, if_neg (Nat.not_le.mpr hn), hb]

end

/-! ### Tile words -/

/-- Settles O46: each word finds its entry, passes its checks and acts on it. -/
theorem tableEntryWords : Obligations.TableEntryWords := by
  refine ⟨⟨?tset, ?tbind, ?tget, ?trel, ?twait⟩, ⟨?bini, ?barv, ?barw, ?bexp, ?bdrop, ?bget⟩, ?rcinv⟩
  case tset =>
    intro k
    refine wordDoes_of (fun s => execTset.eq_1 k s) fun w s hv hp => ?_
    obtain ⟨t, ⟨hn, ht⟩, ⟨hf, hd⟩, hbase, hsize, hmax, hfit⟩ := hp
    have hls : ¬ w.t.lsBytes < natBits w.ua 0 19 + 64 * natBits w.ub 0 14 := by rw [Team.lsBytes]; omega
    simp only [tileEnt_ok hv hn ht, tileBusy_ok hf hd, ht, Option.getD_some, hbase, if_neg hls, ne_eq, not_true, hsize, Nat.not_lt.mpr hmax, or_self,
      if_false, bind, Except.bind, pure, Except.pure]
    rfl
  case tbind =>
    intro k
    refine wordDoes_of (fun s => execTbind.eq_1 k s) fun w s hv hp => ?_
    obtain ⟨t, ⟨hn, ht⟩, ⟨hf, hd⟩, hsize, hrcp⟩ := hp
    simp only [tileEnt_ok hv hn ht, tileBusy_ok hf hd, hsize, hrcp, ne_eq, not_true, if_false, bind, Except.bind, pure, Except.pure]
    rfl
  case tget =>
    intro k v s w t hw ht
    have hv : w.v = k.view .fr 0x1A9 := (State.iss?_some hw.1).1
    refine exec_next_of (execTget.eq_1 k s) hw ?_
    simp only [tileEnt_ok (w := w.ready _) hv ht.1 ht.2, bind, Except.bind, pure, Except.pure]
    rw [State.did, hv]
    rfl
  case trel =>
    intro k
    refine wordDoes_of (fun s => execTrel.eq_1 k s) fun w s hv hp => ?_
    obtain ⟨t, ⟨hn, ht⟩, hf, hd⟩ := hp
    simp only [tileEnt_ok hv hn ht, tileBusy_ok hf hd, bind, Except.bind, pure, Except.pure]
    cases h : natBit (k.view 0x1AB).func 6 <;> rfl
  case twait =>
    intro k
    refine ⟨wordDoes_of (fun s => execTwait.eq_1 k s) fun w s hv hp => ?_, wordDoes_of (fun s => execTwait.eq_1 k s) fun w s hv hp => ?_,
      wordDoes_of (fun s => execTwait.eq_1 k s) fun w s hv hp => ?_⟩
    · obtain ⟨t, ht, hcond⟩ := hp
      have hno : ¬ (natBits (k.view 0x1AA).func 6 2 = 0 ∧ t.absent = true) := fun h => by simp [hcond h.1] at h
      simp only [tileEnt_ok hv ht.1 ht.2, bind, Except.bind, pure, Except.pure]
      rw [if_neg (fun h => hno h.1), if_neg hno]
      rfl
    · obtain ⟨⟨t, ht, hfills⟩, hfz⟩ := hp
      simp only [tileEnt_ok hv ht.1 ht.2, bind, Except.bind, pure, Except.pure]
      rw [if_pos ⟨hfills, hfz⟩]
    · obtain ⟨⟨t, ht, hfills⟩, hfz⟩ := hp
      simp only [tileEnt_ok hv ht.1 ht.2, bind, Except.bind, pure, Except.pure]
      rw [if_neg (fun h => by simp [hfz] at h), if_pos hfills, hfills.1]
      rfl
  case bini =>
    intro k
    refine wordDoes_of (fun s => execBini.eq_1 k s) fun w s hv hp => ?_
    obtain ⟨b, ⟨hn, hb⟩, harrm, htxb⟩ := hp
    simp only [barEnt_ok hv hn hb, harrm, htxb, ne_eq, not_true, or_self, if_false, bind, Except.bind, pure, Except.pure]
    rfl
  case barv =>
    intro k
    refine ⟨wordDoes_of (fun s => execBarv.eq_1 k s) fun w s hv hp => ?_, wordFaults_of (fun s => execBarv.eq_1 k s) fun w s hv hp => ?_,
      wordFaults_of (fun s => execBarv.eq_1 k s) fun w s hv hp => ?_⟩
    · obtain ⟨b, ⟨hn, hb⟩, hmemb, harrm⟩ := hp
      simp only [barEnt_ok hv hn hb, hmemb, harrm, bind, Except.bind, pure, Except.pure]
      rfl
    · obtain ⟨b, ⟨hn, hb⟩, hmemb⟩ := hp
      simp only [barEnt_ok hv hn hb, hmemb, bind, Except.bind]
      rfl
    · obtain ⟨b, ⟨hn, hb⟩, hmemb, harrm⟩ := hp
      simp only [barEnt_ok hv hn hb, hmemb, harrm, bind, Except.bind]
      rfl
  case barw =>
    intro k
    refine wordDoes_of (fun s => execBarw.eq_1 k s) fun w s hv hp => ?_
    obtain ⟨b, hn, hb⟩ := hp
    simp only [barEnt_ok hv hn hb, bind, Except.bind, pure, Except.pure]
    rfl
  case bexp =>
    intro k
    refine ⟨wordDoes_of (fun s => execBexp.eq_1 k s) fun w s hv hp => ?_, wordFaults_of (fun s => execBexp.eq_1 k s) fun w s hv hp => ?_⟩
    · obtain ⟨b, ⟨hn, hb⟩, hlo, hhi⟩ := hp
      simp only [barEnt_ok hv hn hb, bind, Except.bind, pure, Except.pure, if_neg (not_or.mpr ⟨Int.not_lt.mpr hlo, Int.not_le.mpr hhi⟩)]
      rfl
    · obtain ⟨b, ⟨hn, hb⟩, hout⟩ := hp
      simp only [barEnt_ok hv hn hb, bind, Except.bind, if_pos hout]
      rfl
  case bdrop =>
    intro k
    refine wordDoes_of (fun s => execBdrop.eq_1 k s) fun w s hv hp => ?_
    obtain ⟨b, hn, hb⟩ := hp
    simp only [barEnt_ok hv hn hb, bind, Except.bind, pure, Except.pure]
    rfl
  case bget =>
    intro k v n s w b hw hb
    have hv : w.v = k.view .fr 0x1B5 := (State.iss?_some hw.1).1
    refine exec_next_of (execBget.eq_1 k s) hw ?_
    simp only [barEnt_ok (w := w.ready _) hv hb.1 hb.2, bind, Except.bind, pure, Except.pure]
    rw [State.did, hv]
    rfl
  case rcinv => exact fun k => wordDoes_of (fun s => execRcinv.eq_1 k s) fun _ _ _ _ => rfl

end Sys2Proof.Machine
end

section
/-! Traces, counters and special registers (R155 to R157, R342, R343, R361, R366). -/

namespace Sys2Proof.Machine

/-! ### Traces and counters -/

theorem exec_cnt (k : FS) (s : State) : exec (.cnt k) s = execCnt k s := rfl

theorem cntWord (k : FS) {v : View} (hv : v = k.view 0x1F2) {bank : Nat} (hb : bank = natBits v.func 12 4) :
    wordDoes (.cnt k) { sh := shCnt v } v (fun w _ => bank < 8 ∨ w.c.priv = true) (fun w s =>
      (s.updGrp w.id fun g => g.result v true w.act fun _ => cntValue s w v.func % 2 ^ 64).stall w) ∧
    wordFaults (.cnt k) { sh := shCnt v } v (fun w _ => 8 ≤ bank ∧ w.c.priv = false) (fun _ => { code := 0x0011, detail := bank }) := by
  subst hv hb
  refine ⟨wordDoes_of (fun s => execCnt.eq_1 k s) fun w s _ hp => ?_, wordFaults_of (fun s => execCnt.eq_1 k s) fun w s _ hp => ?_⟩
  · have hopen : ¬ (8 ≤ natBits (k.view 0x1F2).func 12 4 ∧ (!w.c.priv) = true) := fun ⟨hbank, hpriv⟩ =>
      hp.elim (Nat.not_lt.mpr hbank) fun h => by simp [h] at hpriv
    simp only [if_neg hopen, bind, Except.bind, pure, Except.pure]
  · have hclosed : 8 ≤ natBits (k.view 0x1F2).func 12 4 ∧ (!w.c.priv) = true := ⟨hp.1, by rw [hp.2]; rfl⟩
    simp only [if_pos hclosed, bind, Except.bind]
    rfl

/-! ### Special registers -/

theorem rdsrWord (k : FS) {v : View} (hv : v = k.view 0x0C0) {sel : Nat} (hsel : sel = k.sel.toNat) {e : Entry} (he : e = { sh := shRdsr v }) :
    let open' := fun (w : Iss) => sel < 0x100 ∨ w.c.priv = true
    wordDoes (.rdsr k) e v (fun w _ => open' w ∧ selWidth sel ≠ 64) (fun w s => s.updGrp w.id fun g => g.result v false w.act (selValue s w sel)) ∧
    wordDoes (.rdsr k) e v (fun w _ => open' w ∧ selWidth sel = 64)
      (fun w s => s.updGrp w.id fun g => g.later v true false w.act w.mask (selValue s w sel)) ∧
    wordFaults (.rdsr k) e v (fun w _ => ¬ open' w) (fun _ => { code := 0x0011, detail := 6 }) := by
  subst hv hsel he
  intro open'
  have hopen {w : Iss} (h : open' w) : ¬ (0x100 ≤ k.sel.toNat ∧ (!w.c.priv) = true) := fun ⟨hs, hpriv⟩ =>
    h.elim (Nat.not_lt.mpr hs) fun h => by simp [h] at hpriv
  have hfunc : (k.view 0x0C0).func = k.sel.toNat := rfl
  refine ⟨wordDoes_of (fun s => execRdsr.eq_1 k s) fun w s _ hp => ?_, wordDoes_of (fun s => execRdsr.eq_1 k s) fun w s _ hp => ?_,
    wordFaults_of (fun s => execRdsr.eq_1 k s) fun w s _ hp => ?_⟩
  · have hw : (selWidth k.sel.toNat == 64) = false := beq_eq_false_iff_ne.mpr hp.2
    simp only [hfunc, if_neg (hopen hp.1), hw, bind, Except.bind, pure, Except.pure]
    rfl
  · simp only [hfunc, if_neg (hopen hp.1), hp.2, bind, Except.bind, pure, Except.pure]
    rfl
  · simp only [open', not_or, Nat.not_lt, Bool.not_eq_true] at hp
    have hclosed : 0x100 ≤ k.sel.toNat ∧ (!w.c.priv) = true := ⟨hp.1, by rw [hp.2]; rfl⟩
    simp only [hfunc, if_pos hclosed, bind, Except.bind]
    rfl

theorem selValue_cases (s : State) (w : Iss) (th : Nat) :
    selValue s w 0x0 th = th % 16 ∧ selValue s w 0x1 th = w.g.idx ∧ selValue s w 0x8 th = w.g.idx * w.g.width + th ∧
    selValue s w 0xB th = coreDie w.core ∧ selValue s w 0xE th = w.t.phase.toNat ∧ selValue s w 0xF th = w.c.seed.toNat ∧
    selValue s w 0x11 th = s.dieTime (coreDie w.core) % 2 ^ 56 ∧ selValue s w 0x12 th = w.c.tenant.toNat * 2 ^ 16 + w.c.num :=
  ⟨rfl, rfl, rfl, rfl, rfl, rfl, rfl, rfl⟩

theorem wrsrWord (k : FS) {v : View} (hv : v = k.view 0x0C1) {sel : Nat} (hsel : sel = k.sel.toNat) {e : Entry} (he : e = { sh := shWrsr v }) :
    let locked := fun (c : Ctx) => 0x104 ≤ sel ∧ sel ≤ 0x10A ∧ c.st = .running
    (sel = 0x00F → wordDoes (.wrsr k) e v (fun _ _ => True) fun w s => (s.updCtx w.c.num fun c => { c with seed := BitVec.ofNat 32 w.ua }).stall w) ∧
    (sel = 0x100 → wordDoes (.wrsr k) e v (fun _ _ => True) fun w s => s.updGrp w.id fun g => { g with csel := w.ua % 256 }) ∧
    (sel = 0x102 → ∀ s w c i, s.issues e v w → (s.moved e w).selected (w.ready e).g = some c → ctxCmd c (w.ready e).ua = some i →
      exec (.wrsr k) s = .next { s.moved e w with cmds := s.cmds ++ [i] }) ∧
    (sel ≠ 0x00F → sel ≠ 0x100 → sel ≠ 0x102 → ∀ s w c, s.issues e v w → (s.moved e w).selected (w.ready e).g = some c →
      (¬ locked c → exec (.wrsr k) s = .next ((s.moved e w).updCtx c.num fun c => c.writeReg sel (w.ready e).ua)) ∧
      (locked c → exec (.wrsr k) s = .next ((s.arrived e w).wordFault w { code := 0x0011, detail := 9 }))) := by
  subst hv hsel he
  intro locked
  have hfunc : (k.view 0x0C1).func = k.sel.toNat := rfl
  refine ⟨fun hsel => wordDoes_of (fun s => execWrsr.eq_1 k s) fun w s _ _ => ?_, fun hsel => wordDoes_of (fun s => execWrsr.eq_1 k s) fun w s _ _ => ?_,
    fun hsel s w c i hw hc hi => exec_next_of (execWrsr.eq_1 k s) hw ?_,
    fun h0F h100 h102 s w c hw hc => ⟨fun hl => exec_next_of (execWrsr.eq_1 k s) hw ?_, fun hl => exec_fault_of (execWrsr.eq_1 k s) hw ?_⟩⟩
  · rw [hfunc, if_pos hsel]
    rfl
  · rw [hfunc, hsel]
    rfl
  · simp only [hfunc, hsel, hc, hi, State.moved_cmds]
    rfl
  · have hopen : (lockedReg k.sel.toNat && c.st == .running) = false := by
      rw [Bool.eq_false_iff]
      simpa [locked, lockedReg, and_assoc] using hl
    rw [hfunc, if_neg h0F, if_neg h100, hc]
    simp only [if_neg h102, hopen, bind, Except.bind, pure, Except.pure]
    rfl
  · have hclosed : (lockedReg k.sel.toNat && c.st == .running) = true := by
      simpa [locked, lockedReg, and_assoc] using hl
    rw [hfunc, if_neg h0F, if_neg h100, hc]
    simp only [if_neg h102, hclosed, bind, Except.bind]
    rfl

/-- Settles O50: `trc` and `trcm` by their meanings, the others by their checks. -/
theorem traceAndSpecial : Obligations.TraceAndSpecial :=
  ⟨⟨fun k => wordDoes_of (fun s => execTrc.eq_1 k s) fun _ _ _ _ => rfl, fun k => wordDoes_of (fun s => execTrcm.eq_1 k s) fun _ _ _ _ => rfl,
      fun k => cntWord k rfl rfl⟩,
    fun k => rdsrWord k rfl rfl rfl, fun s w th _ => selValue_cases s w th, fun k => wrsrWord k rfl rfl rfl⟩

end Sys2Proof.Machine
end

section
/-! Fences and monitors (R264 to R268, R330 to R334). -/

namespace Sys2Proof.Machine

/-- A step that goes through is followed by what comes after it. -/
theorem bind_ok {ε α β : Type} {x : Except ε α} {a : α} {f : α → Except ε β} {r : Except ε β} (hx : x = .ok a) (hf : f a = r) : (x >>= f) = r := by
  rw [hx]
  exact hf

/-- So is a check that is passed. -/
theorem check_ok {ε β : Type} {c : Prop} [Decidable c] {x y r : Except ε β} (hc : ¬ c) (hy : y = r) : (if c then x else y) = r :=
  (if_neg hc).trans hy

/-- Two ways to go through. -/
theorem branch_ok {ε β : Type} {c : Prop} [Decidable c] {x y : Except ε β} {a b : β} (hx : x = .ok a) (hy : y = .ok b) :
    (if c then x else y) = .ok (if c then a else b) := by
  split <;> assumption

/-! ### Fences -/

theorem fenceRel_iff (f : Nat) : fenceRel f = true ↔ natBits f 4 2 ≠ 1 := by rw [fenceRel, bne_iff_ne]
theorem fenceAcq_iff (f : Nat) : fenceAcq f = true ↔ natBits f 4 2 < 2 := by rw [fenceAcq, decide_eq_true_iff]

theorem fenceWord (k : FS) : wordDoes (.fence k) { sh := shFence (k.view 0x14C) } (k.view 0x14C) (fun _ _ => True) fun w s =>
    let u := if natBits (k.view 0x14C).func 4 2 ≠ 1 then s.updGrp w.id fun g => { g with late := [] } else s
    if natBits (k.view 0x14C).func 4 2 < 2 then u.acquire w.t w.core (natBits (k.view 0x14C).func 6 3) else u :=
  wordDoes_of (fun s => execFence.eq_1 k s) fun w s _ _ => by
    simp only [fenceRel_iff, fenceAcq_iff]
    rfl

theorem fencerWord (k : FR) : wordDoes (.fencer k) { sh := shFencer (k.view .fr 0x14D) } (k.view .fr 0x14D) (fun _ _ => True) fun w s =>
    if natBit (k.view .fr 0x14D).efunc 3 then s
    else
      let u := if natBits (k.view .fr 0x14D).efunc 4 2 ≠ 1 then s.updGrp w.id fun g =>
        { g with late := g.late.filter fun l => !spanMeets l.va l.old.length w.ua w.ub } else s
      if natBits (k.view .fr 0x14D).efunc 4 2 < 2 then u.acquireRange w.t w.core (natBits (k.view .fr 0x14D).efunc 6 3) w.ua w.ub else u :=
  wordDoes_of (fun s => execFencer.eq_1 k s) fun w s _ _ => by
    simp only [fenceRel_iff, fenceAcq_iff]
    split <;> rfl

theorem State.mem_l1_acquire (s : State) (t : Team) (core sc : Nat) (l : L1Line) :
    l ∈ (s.acquire t core sc).l1 ↔ l ∈ s.l1 ∧ t.acqReach core sc l = false := by
  simp [State.acquire, State.l1Drop]

/-- A line that is left in the reach of an acquire serves no access that meets the range. -/
theorem State.serves_acquireRange {s : State} {t : Team} {core sc base len va n : Nat} (hlen : 0 < len) {l : L1Line}
    (hl : l ∈ (s.acquireRange t core sc base len).l1) (hr : t.acqReach core sc l = true) (hm : spanMeets va n base len = true) :
    l.serves t.ctx va n = false := by
  rw [State.acquireRange, if_neg (by omega)] at hl
  obtain ⟨y, -, hy⟩ := List.mem_filterMap.mp hl
  split at hy
  · rw [L1Line.fence] at hy
    split at hy
    · cases hy
    · obtain rfl := Option.some.inj hy
      simp [L1Line.serves, hm]
  next hno =>
    obtain rfl := Option.some.inj hy
    exact absurd hr hno

theorem Team.acqReach_cases (t : Team) (core sc : Nat) (l : L1Line) :
    (t.kd.fusel1 = false → 2 ≤ sc → (t.acqReach core sc l = true ↔ l.home = core)) ∧
    (t.kd.fusel1 = false → t.kd.pair = true → sc = 1 → (t.acqReach core sc l = true ↔ l.home = core)) ∧
    (t.kd.fusel1 = false → t.kd.pair = false → sc < 2 → t.acqReach core sc l = false) ∧
    (t.kd.fusel1 = true → (t.acqReach core sc l = true ↔ 3 ≤ sc ∧ l.home / 4 = core / 4)) := by
  rw [Team.acqReach]
  refine ⟨fun hf hs => ?_, fun hf hp hs => ?_, fun hf hp hs => ?_, fun hf => ?_⟩
  · simp [hf, hs]
  · simp [hf, hp, hs]
  · simp [hf, hp, Nat.not_le.mpr hs]
  · simp [hf]

/-! ### Monitors -/

section
variable {s : State} {va pa : Nat} {pk cm : Bool}

theorem State.watchPa_phys (h : (regionOf s.pkg.hbmsplit pa).hbm = true) : s.watchPa va (.phys pa pk cm) = .ok pa := if_pos h

theorem State.roostUsed_moved (s : State) (e : Entry) (w : Iss) (slice : Nat) : (s.moved e w).roostUsed slice = s.roostUsed slice := by
  rw [State.roostUsed, State.moved_roost, State.roostUsed]

theorem State.roostCounts_moved (s : State) (e : Entry) (w : Iss) (slice : Nat) : (s.moved e w).roostCounts slice = s.roostCounts slice := by
  rw [State.roostCounts, State.moved_roost, State.roostCounts]

end

/-- The entry that a counted `marm` takes on a watched word. -/
def Iss.counted (w : Iss) (slice pa : Nat) : Roost :=
  { slice := slice, kind := .count, fired := false, line := pa / 128, ctx := w.c.num, core := w.core, gslot := w.g.slot,
    jcva := BitVec.ofNat 64 w.ub, expv := BitVec.ofNat 64 w.uc, word := pa, team := w.id.1, grp := w.id.2 }

/-- What a counted `marm` does with its two addresses. -/
def State.countOn (s : State) (w : Iss) (pa pc : Nat) : State :=
  if 64 ≤ s.roostUsed (s.sliceOf (pa / 128)) ∨ 48 ≤ s.roostCounts (s.sliceOf (pa / 128)) then s.retry w
  else if s.mem.rd pa 8 = w.uc then s.decrementPa w.c.num w.ub pc 1
  else { s with roost := s.roost ++ [w.counted (s.sliceOf (pa / 128)) pa] }

theorem exec_marm {k : FR} {s : State} {w : Iss} {pa : Nat} {pk cm : Bool} {e : Entry}
    (he : e = { sh := shMarm (k.view .fr 0x14E), vas := fun w => [w.ua] }) (hw : s.issues e (k.view .fr 0x14E) w)
    (ht : (s.moved e w).translate (w.ready e).c (w.ready e).own (w.ready e).ua 1 .read false = .ok (.phys pa pk cm))
    (hpa : (regionOf (s.moved e w).pkg.hbmsplit pa).hbm = true) :
    exec (.marm k) s = .next ((((s.moved e w).disarm (w.ready e).id.1 (w.ready e).id.2).arm .wait (w.ready e).t (w.ready e).g pa).updGrp
      (w.ready e).id fun g => { g with monitor := some { va := BitVec.ofNat 64 (w.ready e).ua, pa := pa, fired := false } }) := by
  refine exec_next_of (he ▸ execMarm.eq_1 k s) hw ?_
  generalize s.moved e w = m at *
  generalize w.ready e = r at *
  exact bind_ok ht (bind_ok (State.watchPa_phys hpa) rfl)

theorem exec_marmCounted {k : FR} {s : State} {w : Iss} {pa pc : Nat} {pk cm pk' cm' : Bool} {e : Entry}
    (he : e = { sh := shMarm (k.view .fr 0x14E), vas := fun w => [w.ua, w.ub] }) (hw : s.issues e (k.view .fr 0x14E) w)
    (ha : (w.ready e).ua % 8 = 0) (hb : (w.ready e).ub % 4 = 0)
    (hta : (s.moved e w).translate (w.ready e).c (w.ready e).own (w.ready e).ua 8 .read false = .ok (.phys pa pk cm))
    (htc : (s.moved e w).translate (w.ready e).c (w.ready e).own (w.ready e).ub 4 .atomic false = .ok (.phys pc pk' cm'))
    (hpa : (regionOf (s.moved e w).pkg.hbmsplit pa).hbm = true) (hpc : (regionOf (s.moved e w).pkg.hbmsplit pc).hbm = true) :
    exec (.marmCounted k) s = .next ((s.moved e w).countOn (w.ready e) pa pc) := by
  refine exec_next_of (he ▸ execMarmCounted.eq_1 k s) hw ?_
  generalize s.moved e w = m at *
  generalize w.ready e = r at *
  refine check_ok (not_not.mpr ha) (check_ok (not_not.mpr hb) (bind_ok hta (bind_ok htc (bind_ok (State.watchPa_phys hpa)
    (bind_ok (State.watchPa_phys hpc) ?_)))))
  exact branch_ok rfl (branch_ok rfl rfl)

/-- Settles O42: fences by their kinds, monitors by the translations of their addresses. -/
theorem orderingWords : Obligations.OrderingWords := by
  refine ⟨⟨fenceWord, fencerWord, fun s t core sc => ⟨rfl, s.mem_l1_acquire t core sc⟩, fun s t core sc base len va n hlen => ⟨by simp, if_pos rfl,
    fun l => State.serves_acquireRange hlen⟩, fun t core sc l => t.acqReach_cases core sc l⟩, ?marm, ?counted, ?mwait, ?wuc⟩
  case marm =>
    intro k v e s w pa pk cm hw m r ht hpa
    exact exec_marm rfl hw ht hpa
  case counted =>
    intro k v e s w pa pc pk cm pk' cm' hw m r ha hb hta htc hpa hpc slice
    have hexec : exec (.marmCounted k) s = .next (m.countOn r pa pc) := exec_marmCounted rfl hw ha hb hta htc hpa hpc
    have hused : m.roostUsed slice = s.roostUsed slice := s.roostUsed_moved e w slice
    have hcounts : m.roostCounts slice = s.roostCounts slice := s.roostCounts_moved e w slice
    have hmem : m.mem = s.mem := s.moved_mem e w
    rw [hexec, State.countOn, show m.sliceOf (pa / 128) = slice from rfl, hused, hcounts, hmem]
    refine ⟨fun hfull => ?_, fun hval hu hc => ?_, fun hval hu hc => ?_⟩
    · rw [if_pos hfull]
    · rw [if_neg (by omega), if_pos hval]
    · rw [if_neg (by omega), if_neg hval, State.moved_roost]
      rfl
  case mwait => exact fun k => wordDoes_of (fun s => execMwait.eq_1 k s) fun _ _ _ _ => rfl
  case wuc =>
    intro k v ty n e
    refine wordDoes_of (fun s => execWuc.eq_1 k s) fun w s _ hp => ?_
    obtain ⟨hal, pa, pk, cm, hta, hpa⟩ := hp
    exact check_ok (not_not.mpr hal) (bind_ok hta (bind_ok (State.watchPa_phys hpa) rfl))

end Sys2Proof.Machine
end

section
/-! The bank conflicts of `ldt` (R241, R342): the word counts them in PC5 of its team slot, and the statement has every count as it was. -/

namespace Sys2Proof.Machine

/-- `ldt` to n8 and on, by the descriptor and the geometry in s4 and s5. -/
def bankWord : FM := { h := { pred := 0#3, pneg := false, u := false, look := 0#4, hold := 0#2, dst := 0x18#6 }, a := 0x34#7, b := 0#7, ofs := 0#23 }

/-- A group inside a clause of two words, at the first: format I8 in tile 0, with a pitch of 2048 bytes between rows. -/
def bankGroup : Group :=
  { (Group.fresh placedKernel 0 0 0 0 placedKernel.entry).setS 4 0x40010000#32 |>.setS 5 2048#32 with pos := 1, clause := [placedHeader, 0#64] }

/-- Its team, with a tile that holds the 32 rows. -/
def bankTeam : Team :=
  { Team.blank 0 0 .m 0#64 placedKernel with
      slot := .run, groups := [bankGroup], tiles := [[{ Tile.reset with st := .ready, size := 2048 }]], ls := [[]] }

def bankState : State := { State.reset with teams := [bankTeam], cur := some (0, 0) }

/-- The entry of the word. -/
def bankEntry : Entry :=
  { sh := shLdt (bankWord.view 0x144)
    cls := fun w => if w.t.kd.named < (bankWord.view 0x144).dst - 0x10 + 4 + ldtBytes w then some { code := 0x0006 } else none
    touch := fun w => (ldtRegs (bankWord.view 0x144).dst (ldtBytes w)).map fun n => (0x10 + n, false)
    tiles := fun w => (descOf (w.ua % 2 ^ 32)).tiles }

/-- The word as it stands there. -/
def bankIss : Iss := { id := (0, 0), v := bankWord.view 0x144, sh := bankEntry.sh, t := bankTeam, c := Ctx.zero, g := bankGroup }

theorem bankState_issues : bankState.issues bankEntry (bankWord.view 0x144) bankIss := ⟨rfl, rfl, rfl, rfl⟩

/-- PC5 of every team slot, team by team. -/
def bankCounts (s : State) : List (List W64) := s.teams.map fun t => t.counts.map fun c => c.perf.getD 5 0#64

/-- The same after a step that goes on. -/
def bankCountsAfter (o : Host.Outcome State Fault Refusal) : Option (List (List W64)) :=
  match o with
  | .next t => some (bankCounts t)
  | _ => none

/-- The 32 rows lie in one bank: 31 cycles more than one. -/
theorem bankCountsAfter_exec : bankCountsAfter (exec (.ldt bankWord) bankState) = some [[31#64]] := by decide +kernel

/-- Refutes O39: the clause of `ldt` has the state past the word with the reservations alone, while the word counts its bank conflicts in PC5.
With 32 rows in one bank PC5 of the team slot is 31 after the word, and 0 in the statement. -/
theorem not_otherLoads : ¬ Obligations.OtherLoads := by
  intro h
  have hldt := h.2 bankWord bankState bankIss { Tile.reset with st := .ready, size := 2048 } bankState_issues rfl
  have hcounts := bankCountsAfter_exec
  rw [hldt] at hcounts
  exact absurd (Option.some.inj hcounts) (by decide)

end Sys2Proof.Machine
end

section
/-! Loads, stores and `zln` (R232 to R243). -/

namespace Sys2Proof.Machine

/-- A step that fails ends what follows it. -/
theorem bind_error {ε α β : Type} {x : Except ε α} {a : ε} {f : α → Except ε β} (hx : x = .error a) : (x >>= f) = .error a := by
  rw [hx]
  rfl

/-! ### Fields of a load -/

theorem natBits_low (b : BitVec 7) : natBits b.toNat 0 4 = b.toNat % 16 := by simp [natBits_eq]
theorem natBits_high (b : BitVec 7) : natBits b.toNat 4 3 = b.toNat / 16 := by
  have := b.isLt
  rw [natBits_eq]
  omega

theorem osAcq_iff (os : Nat) : osAcq os = true ↔ 9 ≤ os := by rw [osAcq, decide_eq_true_iff]
theorem osCached_eq (os : Nat) : osCached os = decide (os = 0 ∨ osScope os < 2) := by
  rw [osCached, Bool.decide_or]
  rfl

/-- The address of a thread (R232). -/
theorem memAddr_view {w : Iss} {k : FM} {opc : Nat} {ls : Bool} {e : Entry} (hv : w.v = k.view opc) :
    (w.ready e).memAddr ls = fun th => wrapInt (if ls then 32 else 64) (((w.ready e).a th : Int) + k.ofs.toInt) := by
  funext th
  rw [Iss.memAddr, Iss.ready_v, hv]
  rfl

/-! ### Loads -/

section
variable {i : Instr} {v : View} {ls : Bool} {e : Entry} {s : State} {w : Iss}

theorem exec_load_fault (h : ∀ s, exec i s = runLoad v ls s) (he : e = { sh := shLoad v, vas := fun w => w.memVas ls }) (hw : s.issues e v w)
    {n : Nat} {addr : Nat → Nat} (hn : ldSize (natBits v.b 4 3) = n) (haddr : (w.ready e).memAddr ls = addr)
    {x : Exc} (hx : (checkThreads ((w.ready e).g.actives v) fun th => (s.moved e w).checkAddr (w.ready e) ls (addr th) n n .read) = .error x) :
    exec i s = .next ((s.arrived e w).wordFault w x) := by
  subst hn haddr
  exact exec_fault_of (he ▸ (h s).trans (runLoad.eq_1 v ls s)) hw (bind_error hx)

theorem exec_load (h : ∀ s, exec i s = runLoad v ls s) (he : e = { sh := shLoad v, vas := fun w => w.memVas ls }) (hw : s.issues e v w)
    {os ty : Nat} {addr : Nat → Nat} (hty : natBits v.b 4 3 = ty) (hos : natBits v.b 0 4 = os) (haddr : (w.ready e).memAddr ls = addr)
    {ts : List (Nat × Target)} (hts : (checkThreads ((w.ready e).g.actives v) fun th => (s.moved e w).checkAddr (w.ready e) ls (addr th)
      (ldSize ty) (ldSize ty) .read) = .ok ts) :
    let r := w.ready e
    let p := (s.moved e w).lsPass r ls (ldSize ty)
    let q := State.readMany r addr (ldSize ty) (os = 0 ∨ osScope os < 2) (if 9 ≤ os then p.acquire r.t r.core (osScope os) else p) ts
    exec i s = .next (q.1.updGrp w.id fun g =>
      (g.later v (ty == 5) true (hasVal q.2.1) (maskOf (q.2.1.map Prod.fst)) fun th => ldExtend ty (valOf q.2.1 th)).deferAll r addr q.2.2) := by
  subst hty hos haddr
  refine exec_next_of (he ▸ (h s).trans (runLoad.eq_1 v ls s)) hw ?_
  rw [← Iss.ready_id e w, ← osCached_eq]
  simp only [← osAcq_iff]
  exact bind_ok hts rfl

end

/-! ### Stores -/

section
variable {i : Instr} {v : View} {ls : Bool} {e : Entry} {s : State} {w : Iss}

theorem exec_store_fault (h : ∀ s, exec i s = runStore v ls s) (he : e = { sh := shStore v, vas := fun w => w.memVas ls }) (hw : s.issues e v w)
    {addr : Nat → Nat} (haddr : (w.ready e).memAddr ls = addr) {x : Exc}
    (hx : (checkThreads ((w.ready e).g.actives v) fun th => (s.moved e w).checkAddr (w.ready e) ls (addr th) (2 ^ natBits v.dst 4 2)
      (2 ^ natBits v.dst 4 2) .write) = .error x) :
    exec i s = .next ((s.arrived e w).wordFault w x) := by
  subst haddr
  exact exec_fault_of (he ▸ (h s).trans (runStore.eq_1 v ls s)) hw (bind_error hx)

theorem exec_store (h : ∀ s, exec i s = runStore v ls s) (he : e = { sh := shStore v, vas := fun w => w.memVas ls }) (hw : s.issues e v w)
    {addr : Nat → Nat} (haddr : (w.ready e).memAddr ls = addr) {ts : List (Nat × Target)}
    (hts : (checkThreads ((w.ready e).g.actives v) fun th => (s.moved e w).checkAddr (w.ready e) ls (addr th) (2 ^ natBits v.dst 4 2)
      (2 ^ natBits v.dst 4 2) .write) = .ok ts) :
    let r := w.ready e
    let m := s.moved e w
    let n := 2 ^ natBits v.dst 4 2
    let ps := threadPuts addr (fun th => leBytes n (r.b th)) ts
    exec i s = .next ((State.writePuts r (if ls then m.lsPass r ls n else m.clearWhole ts n) ps).updGrp w.id fun g =>
      { g with pendingStores := g.pendingStores + ts.length, late := (if 9 ≤ natBits v.dst 0 4 then [] else g.late) ++ m.lates r ps }) := by
  subst haddr
  refine exec_next_of (he ▸ (h s).trans (runStore.eq_1 v ls s)) hw ?_
  rw [← Iss.ready_id e w]
  refine bind_ok hts (congrArg (fun f => Except.ok (State.updGrp _ _ f)) (funext fun g => ?_))
  split <;> rfl

end

theorem exec_zln {k : FM} {e : Entry} {s : State} {w : Iss} {ts : List (Nat × List (Nat × Target))}
    (he : e = { sh := shZln (k.view 0x151), vas := fun w => (w.g.actives (k.view 0x151)).flatMap fun th =>
      (List.range (natBits (k.view 0x151).b 0 5 + 1)).map fun j => (w.memAddr false th + 128 * j) % 2 ^ 64 })
    (hw : s.issues e (k.view 0x151) w)
    (hts : (checkThreads ((w.ready e).g.actives (k.view 0x151)) fun th =>
      if (w.ready e).memAddr false th % 128 ≠ 0 then .error { code := 0x0012, addr := (w.ready e).memAddr false th }
      else ((List.range (natBits (k.view 0x151).b 0 5 + 1)).mapM fun j => ((s.moved e w).translate (w.ready e).c (w.ready e).own
        (((w.ready e).memAddr false th + 128 * j) % 2 ^ 64) 128 .write false).map fun t =>
          (((w.ready e).memAddr false th + 128 * j) % 2 ^ 64, t)).mapError fun x =>
        if x.code = cPacked then x else { x with addr := (w.ready e).memAddr false th }) = .ok ts) :
    exec (.zln k) s = .next (
      let r := w.ready e
      let m := s.moved e w
      let ps := ts.flatMap fun p => p.2.map fun t => { th := some p.1, va := t.1, tg := t.2, bs := List.replicate 128 0#8 : Put }
      (State.writePuts r m ps).updGrp w.id fun g =>
        { g with pendingStores := g.pendingStores + ps.length, late := g.late ++ (m.lates r ps).filter Late.far }) := by
  refine exec_next_of (he ▸ execZln.eq_1 k s) hw ?_
  rw [← Iss.ready_id e w]
  exact bind_ok hts rfl

/-! ### Words that stall for their translations -/

theorem runWord_stalls (e : Entry) (v : View) (s u : State) (w : Iss) (eff : Iss → State → Except Exc State) (h : s.iss? v e.sh = some w)
    (hx : issueChecks e w = .ok ()) :
    let r := w.ready e
    let held := (s.needs e w).any (s.frozenVa w.c.num)
    let pages := s.walkPages w.c w.core (s.needs e w)
    (held = true → runWord e v s eff = .next ((s.arrived e w).freezeStall r)) ∧
    (held = false → eff r (s.moved e w) = .ok u → pages ≠ [] → runWord e v s eff = .next ((s.arrived e w).walkStall r pages)) ∧
    (∀ x, held = false → eff r (s.moved e w) = .error x → s.leafWalks w.c w.core x pages ≠ [] →
      runWord e v s eff = .next ((s.arrived e w).walkStall r (s.leafWalks w.c w.core x pages))) ∧
    ∃ t, runWord e v s eff = .next t := by
  refine ⟨runWord_frozen h hx, fun hf he hp => runWord_walks h hx hf he hp, fun x hf he hl => runWord_leaves h hx hf he hl, ?_⟩
  obtain ⟨hnone, -⟩ | ⟨w', -, hc⟩ := runWord_cases (e := e) (v := v) (s := s) (eff := eff)
  · rw [h] at hnone
    cases hnone
  · obtain ⟨x, -, hc⟩ | ⟨-, hc⟩ | ⟨-, pages, -, hc⟩ | ⟨t, -, -, hc⟩ | ⟨x, -, -, hc⟩ := hc <;> exact ⟨_, hc⟩

/-- Settles O36: the words go by the checks of their threads, and every word stalls for its translations alike. -/
theorem loadAndStoreWords : Obligations.LoadAndStoreWords := by
  refine ⟨?_, ⟨?_, ?_, runWord_stalls⟩⟩
  · intro k i opc ls hmem v e os ty n s w hw m r addr check
    have h : ∀ s, exec i s = runLoad (k.view opc) ls s := by
      simp only [List.mem_cons, Prod.mk.injEq, List.not_mem_nil, or_false] at hmem
      obtain ⟨rfl, rfl, rfl⟩ | ⟨rfl, rfl, rfl⟩ := hmem <;> exact fun _ => rfl
    have hty : natBits (k.view opc).b 4 3 = ty := natBits_high k.b
    have hos : natBits (k.view opc).b 0 4 = os := natBits_low k.b
    have haddr : (w.ready e).memAddr ls = addr := memAddr_view (State.iss?_some hw.1).1
    exact ⟨fun x hx => exec_load_fault h rfl hw (congrArg ldSize hty) haddr hx, fun ts hts => exec_load h rfl hw hty hos haddr hts⟩
  · intro k i opc ls hmem v e n rel s w hw m r addr check
    have h : ∀ s, exec i s = runStore (k.view opc) ls s := by
      simp only [List.mem_cons, Prod.mk.injEq, List.not_mem_nil, or_false] at hmem
      obtain ⟨rfl, rfl, rfl⟩ | ⟨rfl, rfl, rfl⟩ := hmem <;> exact fun _ => rfl
    have haddr : (w.ready e).memAddr ls = addr := memAddr_view (State.iss?_some hw.1).1
    exact ⟨fun x hx => exec_store_fault h rfl hw haddr hx, fun ts hts => exec_store h rfl hw haddr hts⟩
  · intro k v line lines e s w ts hw m r hts
    exact exec_zln rfl hw hts

end Sys2Proof.Machine
end

section
/-! The atomic words (R245 to R250). -/

namespace Sys2Proof.Machine

@[simp] theorem Iss.ready_part (e : Entry) (w : Iss) : (w.ready e).g.part = w.g.part := by obtain ⟨_, _, _, h⟩ := w.ready_form e; rw [h]

/-! ### How an atomic word ends -/

section
variable {w : Iss} {n : Nat} {q : State × List AtomDone × List AtomElem} {k : List AtomDone → Group → Group}

/-- A soft cap holds an element. -/
theorem atomEnd_held (h : q.2.2 ≠ []) :
    atomEnd w n q k = (q.1.retry w).updGrp w.id fun g => { g with part := w.g.part ++ q.2.1 } :=
  if_pos (by simpa using h)

theorem atomEnd_done (h : q.2.2 = []) :
    atomEnd w n q k = q.1.updGrp w.id fun g =>
      { (k (w.g.part ++ q.2.1) (if 2 ≤ atOrd w.v then g.perform else g)).deferEvs w (atomEvs w n (w.g.part ++ q.2.1)) with part := [] } :=
  if_neg (by simp [h])

end

/-! ### The words -/

/-- The operation of `atom`, `red` and `cas` on the old bytes. -/
def atomFun (v : View) (w : Iss) (th : Nat) (_ : Nat) (old : List Byte) : Option (List Byte) :=
  if v.opc = 0x149 then (if leNat old = w.b th % 2 ^ atomBits (atTy v) then some (leBytes (atomBits (atTy v) / 8) (w.cc th)) else none)
  else some (leBytes (atomBits (atTy v) / 8) (atomOp (atOp v) (atTy v) (leNat old) (w.b th % 2 ^ atomBits (atTy v))))

/-- What `atom`, `red` and `cas` leave of their group when every element is done. -/
def atomLeaves (v : View) (w : Iss) (s : State) (ts : List (Nat × Target)) (done : List AtomDone) (g : Group) : Group :=
  let n := atomBits (atTy v) / 8
  let vals := (atomOld n n done (ts.map Prod.fst)).map fun p => (p.1, leNat p.2)
  if v.opc ≠ 0x148 ∧ v.dst ≠ 8 then
    (g.later v (atomBits (atTy v) == 64) true (hasVal vals) (maskOf (vals.map Prod.fst)) (valOf vals)).markAtom g.resv.length
  else { g with pendingStores := g.pendingStores + vals.length, late := g.late ++ s.farLate w n (atomFun v w) done (atomElems w n n ts) }

/-- The operation of `atomv` and `redv` on the old bytes of an element. -/
def vecFun (v : View) (w : Iss) (th k : Nat) (old : List Byte) : Option (List Byte) :=
  some (leBytes (atomBits (atTy v) / 8) (atomOp (atOp v) (atTy v) (leNat old)
    (leNat (((vecOperand w th).drop (atomBits (atTy v) / 8 * k)).take (atomBits (atTy v) / 8)))))

/-- What `atomv` and `redv` leave of their group. -/
def vecLeaves (v : View) (ts : List (Nat × Target)) (done : List AtomDone) (g : Group) : Group :=
  if v.opc = 0x14A ∧ v.dst ≠ 8 then
    g.reserveVec v fun th j => vecWord (atomBits (atTy v) / 8) done ((g.thread th).ni (v.dst - 0x10 + j)) th j
  else { g with pendingStores := g.pendingStores + ((ts.map Prod.fst).filter fun th => done.any fun d => d.th == th && d.ev.isNone).length }

theorem runAtom_eq (v : View) (s : State) : runAtom v s = runWord { sh := shAtom v, vas := atomVas } v s fun w s1 =>
    (atomCheck w s1 (atomBits (atTy v) / 8)).map fun ts =>
      atomEnd w (atomBits (atTy v) / 8) (atomRun w s1 (atomBits (atTy v) / 8) (atomBits (atTy v) / 8) ts (atomFun v w)) (atomLeaves v w s1 ts) := by
  have hret : (v.opc != 0x148 && v.dst != 8) = true ↔ v.opc ≠ 0x148 ∧ v.dst ≠ 8 := by simp
  simp only [runAtom, hret]
  rfl

theorem runVec_eq (v : View) (s : State) : runVec v s = runWord { sh := shAtom v, cls := vecCls, touch := fun _ => vecTouch v, vas := atomVas } v s
    fun w s1 => (atomCheck w s1 32).map fun ts =>
      atomEnd w (atomBits (atTy v) / 8) (atomRun w s1 32 (atomBits (atTy v) / 8) ts (vecFun v w)) (vecLeaves v ts) := rfl

/-- The cases of a word that checks its threads and then performs its elements. -/
theorem atomWord {i : Instr} {v : View} {e : Entry} {size n : Nat} {f : Iss → Nat → Nat → List Byte → Option (List Byte)}
    {k : Iss → State → List (Nat × Target) → List AtomDone → Group → Group} {s : State}
    (h : exec i s = runWord e v s fun w s1 => (atomCheck w s1 size).map fun ts => atomEnd w n (atomRun w s1 size n ts (f w)) (k w s1 ts))
    {w : Iss} (ts : List (Nat × Target)) (hw : s.issues e v w) {op : Nat → Nat → List Byte → Option (List Byte)} (hop : f (w.ready e) = op) :
    let m := s.moved e w
    let r := w.ready e
    (∀ x, atomCheck r m size = .error x → exec i s = .next ((s.arrived e w).wordFault w x)) ∧
    (atomCheck r m size = .ok ts →
      let q := atomRun r m size n ts op
      let done := w.g.part ++ q.2.1
      (q.2.2 ≠ [] → exec i s = .next ((q.1.retry r).updGrp w.id fun g => { g with part := done })) ∧
      (q.2.2 = [] → exec i s = .next (q.1.updGrp w.id fun g =>
        { (k r m ts done (if 2 ≤ atOrd v then g.perform else g)).deferEvs r (atomEvs r n done) with part := [] }))) := by
  subst hop
  intro m r
  refine ⟨fun x hx => exec_fault_of h hw (congrArg (Except.map _) hx), fun hts => ⟨fun hq => ?_, fun hq => ?_⟩⟩
  · refine (exec_next_of h hw (congrArg (Except.map _) hts)).trans (congrArg _ ((atomEnd_held hq).trans ?_))
    rw [Iss.ready_part]
    rfl
  · have hv : r.v = v := (State.iss?_some hw.1).1
    refine (exec_next_of h hw (congrArg (Except.map _) hts)).trans (congrArg _ ((atomEnd_done hq).trans ?_))
    rw [Iss.ready_part, hv]
    rfl

/-- Settles O40: the words check their threads, perform their elements, and leave their group by what is done. -/
theorem atomicWords : Obligations.AtomicWords := by
  refine ⟨?_, ?_⟩
  · intro k i opc hmem v e bits n s w ts hw
    have h : exec i s = runAtom v s := by
      simp only [List.mem_cons, Prod.mk.injEq, List.not_mem_nil, or_false] at hmem
      obtain ⟨rfl, rfl⟩ | ⟨rfl, rfl⟩ | ⟨rfl, rfl⟩ := hmem <;> rfl
    exact atomWord (h.trans (runAtom_eq v s)) ts hw rfl
  · intro k i opc hmem v n e s w ts hw
    have h : exec i s = runVec v s := by
      simp only [List.mem_cons, Prod.mk.injEq, List.not_mem_nil, or_false] at hmem
      obtain ⟨rfl, rfl⟩ | ⟨rfl, rfl⟩ := hmem <;> rfl
    have hv : (w.ready e).v = v := (State.iss?_some hw.1).1
    exact atomWord (h.trans (runVec_eq v s)) ts hw (funext fun th => funext fun j => funext fun old => by rw [vecFun, vecOperand, hv])

end Sys2Proof.Machine
end

section
/-! The matrix words (R183, R186 to R197). -/

namespace Sys2Proof.Machine

theorem State.noWorse_moved (s : State) (e : Entry) (w : Iss) : s.noWorse (s.moved e w) :=
  State.noWorse_of_eq (s.moved_poison e w) (s.moved_ecc e w) (s.moved_tags e w) (s.moved_resident e w)

/-- A charge that goes through is followed by what comes after it. -/
theorem State.charging_ok {s u : State} {w : Iss} {act n : Nat} {k : State → Except Exc State}
    (h : s.charge w.t.tenant w.t.bcls act (chamberOf (coreDie w.core)) n = (.ok, u)) : s.charging w act n k = k u := by
  rw [State.charging, h]

/-! ### `mma` and `mmx` -/

/-- The effect of both words. -/
def mmaRun (w : Iss) (s : State) : Except Exc State := do
  let r ← mmaCheck s w
  s.charging w actMatrix w.parts.length fun u => .ok (mmaEff w r u)

theorem mmaWord {i : Instr} {v : View} {e : Entry} {s u : State} {w : Iss} {rt : Option Retire} (h : exec i s = runWord e v s mmaRun)
    (hw : s.issues e v w) (hc : mmaCheck (s.moved e w) (w.ready e) = .ok rt)
    (hu : (s.moved e w).charge w.t.tenant w.t.bcls actMatrix (chamberOf (coreDie w.core)) (w.ready e).parts.length = (.ok, u)) :
    exec i s = .next (mmaEff (w.ready e) rt u) :=
  exec_next_of h hw (bind_ok hc (State.charging_ok hu))

/-! ### `mld` and `drain` -/

theorem exec_mld {k : FR} {e : Entry} {s : State} {w : Iss} {b : Nat} {rt : Option Retire} {rows : List (Nat × Nat × List (Target × Nat))}
    (he : e = { sh := shMld (k.view .fx 0x183), cls := matCls [(k.view .fx 0x183).dst], tiles := footTiles, vas := fun w => footVas w false })
    (hw : s.issues e (k.view .fx 0x183) w) (hb : xfmtCheck (w.ready e) false = .ok b) (hrt : retireCheck (s.moved e w) (w.ready e) = .ok rt)
    (hrows : footCheck (s.moved e w) (w.ready e) b false false = .ok rows) (hev : ∀ r ∈ rows, ∀ t ∈ r.2.2, s.lineEvent t.1 t.2 = none) :
    let vals := rows.map fun r => (r.1, (List.range 16).map fun j =>
      intoTile w.t.kd.contract (natBits (k.view .fx 0x183).func 0 5) (leNat ((((s.moved e w).readRow r.2.2).drop (b * j)).take b)))
    exec (.mld k) s = .next ((((s.moved e w).bringRows rows).updTeam w.id.1 fun t => (w.ready e).parts.foldl (fun t o =>
      t.setAcc w.id.2 o (k.view .fx 0x183).dst ((vals.filter fun p => p.1 == o).flatMap Prod.snd)) t).addRetire w.id.1 rt) := by
  have hnone : (rows.findSome? fun r => r.2.2.findSome? fun t => (s.moved e w).lineEvent t.1 t.2) = none := by
    simp only [List.findSome?_eq_none_iff]
    exact fun r hr t ht => (s.noWorse_moved e w).lineEvent (hev r hr t ht)
  refine exec_next_of (he ▸ execMld.eq_1 k s) hw (bind_ok hb (bind_ok hrt (bind_ok hrows ?_)))
  rw [hnone]
  rfl

/-- Settles O43: each word passes its checks and has its effect; a `drain` is held by a soft cap or ends by its destination. -/
theorem matrixWords : Obligations.MatrixWords := by
  refine ⟨?mma, ?mzero, ?mscl, ?mrel, ?mrd, ?mld, ?drain⟩
  case mma =>
    intro k i opc hmem v e s u w rt hw hc hu
    have h : exec i s = runWord e v s mmaRun := by
      simp only [List.mem_cons, Prod.mk.injEq, List.not_mem_nil, or_false] at hmem
      obtain ⟨rfl, rfl⟩ | ⟨rfl, rfl⟩ := hmem <;> rfl
    exact mmaWord h hw hc hu
  case mzero => exact fun k rt => wordDoes_of (fun s => execMzero.eq_1 k s) fun w s _ hr => bind_ok hr rfl
  case mscl => exact fun k rt => wordDoes_of (fun s => execMscl.eq_1 k s) fun w s _ hr => bind_ok hr rfl
  case mrel => exact fun k => wordActs_of fun s => execMrel.eq_1 k s
  case mrd => exact fun k => fun s w hw => exec_next_of (execMrd.eq_1 k s) hw rfl
  case mld =>
    intro k v e s w b rt rows hw hb hrt hrows hev
    exact exec_mld rfl hw hb hrt hrows hev
  case drain =>
    intro k v add e s w b rt rows hw hb hrt hrows i m ps q t tl
    refine ⟨fun hq => ?_, fun hq => ?_⟩
    · exact exec_next_of (execDrain.eq_1 k s) hw (bind_ok hb (bind_ok hrt (bind_ok hrows (if_pos hq))))
    · refine exec_next_of (execDrain.eq_1 k s) hw (bind_ok hb (bind_ok hrt (bind_ok hrows ((if_neg (Bool.eq_false_iff.mp hq)).trans ?_))))
      exact branch_ok rfl rfl

end Sys2Proof.Machine
end

section
/-! Copy words and batches (R295 to R308). -/

namespace Sys2Proof.Machine

/-- What an effect that goes through has gone through. -/
theorem of_bind_ok {ε α β : Type} {x : Except ε α} {f : α → Except ε β} {b : β} (h : (x >>= f) = .ok b) : ∃ a, x = .ok a ∧ f a = .ok b := by
  cases x with
  | error e => cases h
  | ok a => exact ⟨a, rfl, h⟩

@[simp] theorem Iss.ready_outb (e : Entry) (w : Iss) : (w.ready e).g.outb = w.g.outb := by obtain ⟨_, _, _, h⟩ := w.ready_form e; rw [h]
@[simp] theorem Iss.ready_seq (e : Entry) (w : Iss) : (w.ready e).g.seq = w.g.seq := by obtain ⟨_, _, _, h⟩ := w.ready_form e; rw [h]
@[simp] theorem Iss.ready_unsealed (e : Entry) (w : Iss) : (w.ready e).g.unsealed = w.g.unsealed := by
  obtain ⟨_, _, _, h⟩ := w.ready_form e; rw [h]

/-! ### The issue of a copy -/

/-- A tile counts as touched where the copy has one and delivers it to the issuing group's own half. -/
theorem State.touchDest_eq (s : State) (c : Copy) (i : Iss) :
    s.touchDest c i = if c.tile.isSome ∧ (c.dests s).contains (i.id.1, i.half) then s.touchTile i (c.tile.getD 0) else s := by
  rw [State.touchDest]
  cases h : c.tile with
  | none => exact (if_neg fun h => by simp at h).symm
  | some t =>
    by_cases hd : (c.dests s).contains (i.id.1, i.half) = true
    · exact (if_pos hd).trans (if_pos ⟨rfl, hd⟩).symm
    · exact (if_neg hd).trans (if_neg fun h => hd h.2).symm

/-- A copy with nothing to move. -/
theorem cpIssue_empty {c : Copy} {s : State} {i : Iss} (h : c.n = 0 ∧ c.op ≠ .cpys) : cpIssue c s i =
    .ok (((({ s.perfAdd i.id 13 1 with nextId := s.nextId + 1 }).fillTiles c).setTiles c .ready).touchDest c i) := if_pos h

theorem cpIssue_handed {c : Copy} {s : State} {i : Iss} (h : ¬ (c.n = 0 ∧ c.op ≠ .cpys)) : cpIssue c s i =
    let joined := ((({ s.perfAdd i.id 13 1 with nextId := s.nextId + 1 }).updEng fun x => { x with copies := x.copies ++ [c] }).updGrp i.id
      fun g => { g with unsealed := g.unsealed ++ [c.id] }).fillTiles c
    let t := (joined.touchDest c i).placeAll
    .ok (if (t.copy? c.id).any fun c => decide (c.placed < c.units) then t.stall i else t) := if_neg h

section
variable {i : Instr} {v : View} {op : CopyOp}

/-- What `cpCheck` and then `cpIssue` do, as the word ends with them. -/
theorem copyWord (hx : ∀ s, exec i s = runCopy op v s) (s : State) (w : Iss) :
    let e : Entry := { sh := shCopy v, touch := cpTouch, vas := cpVas op, more := cpMore op }
    let r := w.ready e
    s.issues e v w →
    (∀ x, cpCheck (r.cpIn op) (s.moved e w) r = .error x → exec i s = .next ((s.arrived e w).wordFault w x)) ∧
    ∀ c u, cpCheck (r.cpIn op) (s.moved e w) r = .ok (c, u) →
      (c.n = 0 → op ≠ .cpys →
        exec i s = .next (((({ u.perfAdd w.id 13 1 with nextId := u.nextId + 1 }).fillTiles c).setTiles c .ready).touchDest c r)) ∧
      (c.n ≠ 0 ∨ op = .cpys →
        let joined := ((({ u.perfAdd w.id 13 1 with nextId := u.nextId + 1 }).updEng fun x => { x with copies := x.copies ++ [c] }).updGrp w.id
          fun g => { g with unsealed := g.unsealed ++ [c.id] }).fillTiles c
        let t := (if c.tile.isSome ∧ (c.dests joined).contains (w.id.1, w.half) then joined.touchTile r (c.tile.getD 0) else joined).placeAll
        exec i s = .next (if (t.copy? c.id).any fun c => decide (c.placed < c.units) then t.stall r else t)) := by
  intro e r hw
  refine ⟨fun x hc => exec_fault_of (hx s) hw (bind_error hc), fun c u hc => ?_⟩
  have hop : c.op = op := (cpCheck_op_mem _ _ _ _ hc).1
  refine ⟨fun hn ho => exec_next_of (hx s) hw (bind_ok hc (cpIssue_empty ⟨hn, hop ▸ ho⟩)), ?_⟩
  intro hn joined t
  have ht : ((joined.touchDest c r).placeAll) = t := congrArg State.placeAll (joined.touchDest_eq c r)
  refine exec_next_of (hx s) hw (bind_ok hc ((cpIssue_handed fun h => hn.elim (absurd h.1) fun ho => h.2 (hop ▸ ho)).trans ?_))
  exact ht ▸ rfl

end

/-! ### Batches -/

/-- What `cseal` makes of its group. -/
def Group.sealed (v : View) (j : Option W64) (g0 g : Group) : Group :=
  let g1 := { g with seq := g.seq + 1#32, outb := g.outb ++ [{ seq := g0.seq + 1#32, ids := g0.unsealed, j := j }], unsealed := [] }
  if v.dst = 8 then g1 else g1.setS (v.dst - 0x30) (g.seq + 1#32)

theorem csealWord (k : FS) (s : State) (w : Iss) {v : View} (hv : v = k.view 0x1A5) {e : Entry}
    (he : e = { sh := shCseal v, touch := fun _ => if 0x30 ≤ v.dst then [(v.dst, false)] else [],
                vas := fun w => if natBit v.func 0 then [w.ua] else [] }) (hw : s.issues e v w)
    (hj : natBit v.func 0 = true → ∃ pa, (s.moved e w).counterPa w.c (w.ready e).own (w.ready e).ua = .ok pa) :
    (64 ≤ w.g.outb.length → exec (.cseal k) s = .next ((s.moved e w).retry (w.ready e))) ∧
    (w.g.outb.length < 64 → exec (.cseal k) s = .next (((s.moved e w).updGrp w.id
      (Group.sealed v (if natBit v.func 0 then some (BitVec.ofNat 64 (w.ready e).ua) else none) w.g)).closeBatches)) := by
  subst hv
  have hx := he ▸ execCseal.eq_1 k s
  have hcheck : ∀ {y r : Except Exc State}, y = r → (if natBit (k.view 0x1A5).func 0 then
      ((s.moved e w).counterPa (w.ready e).c (w.ready e).own (w.ready e).ua >>= fun _ => y) else y) = r := by
    intro y r hy
    split
    next h =>
      obtain ⟨pa, hpa⟩ := hj h
      exact bind_ok hpa hy
    · exact hy
  constructor
  · intro h
    exact exec_next_of hx hw (hcheck (if_pos (by rwa [Iss.ready_outb])))
  · intro h
    refine exec_next_of hx hw (hcheck ((if_neg (by rw [Iss.ready_outb]; omega)).trans ?_))
    rw [Iss.ready_unsealed, Iss.ready_seq]
    rfl

/-- Settles O45: a copy that its checks answer is issued, and `cseal` closes what is unsealed. -/
theorem copyWords : Obligations.CopyWords := by
  refine ⟨fun k i op opc h => ?_, fun k => ?_, fun k => wordDoes_of (fun s => execCwait.eq_1 k s) fun _ _ _ _ => rfl⟩
  case refine_2 =>
    intro v e s w hw hj
    exact csealWord k s w rfl rfl hw hj
  refine copyWord fun s => ?_
  simp only [List.mem_cons, Prod.mk.injEq, List.not_mem_nil, or_false] at h
  rcases h with ⟨rfl, rfl, rfl⟩ | ⟨rfl, rfl, rfl⟩ | ⟨rfl, rfl, rfl⟩ | ⟨rfl, rfl, rfl⟩ | ⟨rfl, rfl, rfl⟩
  · exact execCpy.eq_1 k s
  · exact execCpyo.eq_1 k s
  · exact execCpyr.eq_1 k s
  · exact execCpym.eq_1 k s
  · exact execCpys.eq_1 k s

end Sys2Proof.Machine
end

section
/-! An enqueue on the bytes of memory (R272, R289). -/

namespace Sys2Proof.Machine

/-! ### The wait lists -/

/-- What is written over some spans lies inside them. -/
theorem State.storeSpans_other {a : Nat} (spans : List (Nat × Nat)) : ∀ (s : State) (bs : List Byte), s.mem.wf = true →
    (∀ p ∈ spans, p.1 + p.2 ≤ a ∨ a < p.1) → (s.storeSpans spans bs).mem.wf = true ∧ (s.storeSpans spans bs).mem.get a = s.mem.get a := by
  induction spans with
  | nil => exact fun s _ hm _ => ⟨hm, rfl⟩
  | cons p spans ih =>
    intro s bs hm h
    obtain ⟨hw, hg⟩ := ih (s.store p.1 (bs.take p.2)) (bs.drop p.2) (Memory.write_wf _ _ hm) fun q hq => h q (List.mem_cons_of_mem _ hq)
    refine ⟨hw, hg.trans (Memory.get_write_other hm ?_)⟩
    have := List.length_take_le p.2 bs
    rcases h p List.mem_cons_self with h | h <;> omega

/-- A change of the wait lists writes the WLIST areas of waiters only. -/
theorem State.setWaiters_other {s : State} {ws : List Waiter} {a : Nat} (hm : s.mem.wf = true)
    (h : ∀ w ∈ s.waiters ++ ws, ∀ p ∈ w.area, p.1 + p.2 ≤ a ∨ a < p.1) : (s.setWaiters ws).mem.get a = s.mem.get a := by
  have key : ∀ (l : List Waiter) (t : State) (one : State → Waiter → State), (∀ t w, one t w = t ∨ ∃ bs, one t w = t.storeSpans w.area bs) →
      (∀ w ∈ l, ∀ p ∈ w.area, p.1 + p.2 ≤ a ∨ a < p.1) → t.mem.wf = true → (l.foldl one t).mem.get a = t.mem.get a := by
    intro l
    induction l with
    | nil => exact fun _ _ _ _ _ => rfl
    | cons w l ih =>
      intro t one h1 hl ht
      have hrest : ∀ x ∈ l, ∀ p ∈ x.area, p.1 + p.2 ≤ a ∨ a < p.1 := fun x hx => hl x (List.mem_cons_of_mem _ hx)
      rw [List.foldl_cons]
      rcases h1 t w with he | ⟨bs, he⟩
      · rw [he]
        exact ih t one h1 hrest ht
      · obtain ⟨hwf, hg⟩ := State.storeSpans_other w.area t bs ht (hl w List.mem_cons_self)
        rw [he]
        exact (ih _ one h1 hrest hwf).trans hg
  refine key _ { s with waiters := ws } _ (fun t w => ?_) h hm
  dsimp only
  split
  · exact .inl rfl
  · exact .inr ⟨_, rfl⟩

/-- So does a delivery, of the areas of those that wait. -/
theorem State.deliverItem_other {s : State} (hm : s.mem.wf = true) {a : Nat} (h : ∀ w ∈ s.waiters, ∀ p ∈ w.area, p.1 + p.2 ≤ a ∨ a < p.1)
    (w : Waiter) (item : List Byte) (num : Nat) : (s.deliverItem w item num).mem.get a = s.mem.get a := by
  have hu : (s.unwait fun t g => t == w.team && g == w.grp).mem.get a = s.mem.get a :=
    State.setWaiters_other hm fun x hx => h x ((List.mem_append.mp hx).elim id fun hx => (List.mem_filter.mp hx).1)
  rw [State.deliverItem]
  split
  · exact hu
  · simpa using hu

/-! ### The two ways of an item -/

section
variable {s : State} {c : Ctx} {pa slot : Nat} {h : QHdr} {item : List Byte}

theorem State.enqueue_full (hf : h.count = h.cap) : s.enqueue c pa h item = .ok (none, s) := if_pos hf

/-- The waiter that takes an item. -/
def State.taker (s : State) (pa : Nat) (h : QHdr) : Option Waiter :=
  if h.kind = kWork ∧ h.count = 0 then s.waiters.find? fun w => w.hdr == pa else none

/-- The state with HEAD and TAIL both advanced. -/
def State.passBy (s : State) (pa : Nat) (h : QHdr) : State :=
  (s.storeNat (pa + 16) 8 ((h.tail + 1) % 2 ^ 64)).storeNat (pa + 24) 8 ((h.tail + 1) % 2 ^ 64)

theorem State.passBy_mem (s : State) (pa : Nat) (h : QHdr) :
    (s.passBy pa h).mem = (s.mem.wr (pa + 16) 8 ((h.tail + 1) % 2 ^ 64)).wr (pa + 24) 8 ((h.tail + 1) % 2 ^ 64) := rfl

@[simp] theorem State.passBy_waiters (s : State) (pa : Nat) (h : QHdr) : (s.passBy pa h).waiters = s.waiters := by simp [State.passBy]

/-- HEAD and TAIL of a header that an item has passed by. -/
theorem State.passBy_rd {s : State} (hm : s.mem.wf = true) (pa : Nat) (h : QHdr) :
    (s.passBy pa h).mem.rd (pa + 16) 8 = (h.tail + 1) % 2 ^ 64 ∧ (s.passBy pa h).mem.rd (pa + 24) 8 = (h.tail + 1) % 2 ^ 64 := by
  have hm1 := Memory.wr_wf (pa + 16) 8 ((h.tail + 1) % 2 ^ 64) hm
  have hword : ((h.tail + 1) % 2 ^ 64) % 2 ^ (8 * 8) = (h.tail + 1) % 2 ^ 64 := Nat.mod_eq_of_lt (Nat.mod_lt _ (by norm_num))
  refine ⟨?_, (Memory.rd_wr hm1 _ _ _).trans hword⟩
  rw [Memory.rd, State.passBy_mem, Memory.bytes_wr_other hm1 (by omega)]
  exact (Memory.rd_wr hm _ _ _).trans hword

/-- The state with an item in its slot and TAIL advanced. -/
def State.ringIn (s : State) (pa slot : Nat) (h : QHdr) (item : List Byte) : State :=
  (s.store slot item).storeNat (pa + 24) 8 ((h.tail + 1) % 2 ^ 64)

theorem State.enqueue_taken {w : Waiter} (hf : h.count ≠ h.cap) (hslot : s.queuePa c (h.item h.tail) 64 = .ok slot)
    (hw : s.taker pa h = some w) : s.enqueue c pa h item = .ok (some h.tail, (s.passBy pa h).deliverItem w item h.tail) :=
  (if_neg hf).trans (bind_ok hslot (by rw [← State.taker, hw]; rfl))

theorem State.enqueue_ring (hf : h.count ≠ h.cap) (hslot : s.queuePa c (h.item h.tail) 64 = .ok slot) (hw : s.taker pa h = none) :
    s.enqueue c pa h item = .ok (some h.tail,
      if h.kind = kTask then (s.ringIn pa slot h item).noteTask c (h.item h.tail) item else s.ringIn pa slot h item) :=
  (if_neg hf).trans (bind_ok hslot (by rw [← State.taker, hw]; rfl))

end

theorem State.noteTask_form (s : State) (c : Ctx) (va : Nat) (bs : List Byte) : ∃ h, s.noteTask c va bs = { s with sch := h } := by
  unfold State.noteTask
  split
  · split <;> exact ⟨_, rfl⟩
  · exact ⟨_, rfl⟩

/-- Settles O49: the item goes to the first waiter of an empty WORK queue, or else into the ring. -/
theorem enqueue : Obligations.Enqueue := by
  intro s u c pa slot h item num hm hlen hslot henq
  have hm : s.mem.wf = true := hm
  refine ⟨fun hf => ?_, ?_⟩
  · rw [State.enqueue_full hf] at henq
    cases henq
    exact ⟨rfl, rfl⟩
  intro apart ring hf
  cases hw : s.taker pa h with
  | some w =>
    rw [State.enqueue_taken hf hslot hw] at henq
    cases henq
    have hkind : h.kind = kWork ∧ h.count = 0 := by
      by_contra hk
      rw [State.taker, if_neg hk] at hw
      cases hw
    have hfind : s.waiters.find? (fun w => w.hdr == pa) = some w := by rwa [State.taker, if_pos hkind] at hw
    have hno : ¬ ring := by
      rintro (hr | hr | hr)
      · exact hr hkind.1
      · exact hr hkind.2
      · exact hr w (List.mem_of_find?_eq_some hfind) (by simpa using List.find?_some hfind)
    have hm1 := Memory.wr_wf (pa + 16) 8 ((h.tail + 1) % 2 ^ 64) hm
    have hm2 : (s.passBy pa h).mem.wf = true := Memory.wr_wf (pa + 24) 8 _ hm1
    have hkeep : ∀ {a}, (∀ w ∈ s.waiters, ∀ p ∈ w.area, p.1 + p.2 ≤ a ∨ a < p.1) →
        ((s.passBy pa h).deliverItem w item h.tail).mem.get a = (s.passBy pa h).mem.get a := fun hap =>
      State.deliverItem_other hm2 (by rwa [State.passBy_waiters]) w item _
    have hword : ∀ {b : Nat}, apart b 8 → (s.passBy pa h).mem.rd b 8 = (h.tail + 1) % 2 ^ 64 →
        ((s.passBy pa h).deliverItem w item h.tail).mem.rd b 8 = (h.tail + 1) % 2 ^ 64 := fun {b} hap hrd => by
      rw [← hrd, Memory.rd, Memory.rd, Memory.bytes_congr fun i hi => hkeep fun w hw p hp => by
        rcases hap w hw p hp with h | h <;> omega]
    refine ⟨rfl, fun hr => ?_, fun hr => absurd hr hno, fun w' _ _ hw' => ?_, fun a hs hq hap => ?_⟩
    · exact hword (hr.resolve_left hno) (State.passBy_rd hm pa h).2
    · obtain rfl : w = w' := Option.some.inj (hfind.symm.trans hw')
      exact ⟨rfl, fun hap => hword hap (State.passBy_rd hm pa h).1⟩
    · rw [hkeep fun w hw p hp => by rcases hap w hw p hp with h | h <;> omega, State.passBy_mem,
        Memory.get_wr_other hm1 (by omega), Memory.get_wr_other hm (by omega)]
  | none =>
    rw [State.enqueue_ring hf hslot hw] at henq
    have hform : ∃ sch, u = { s.ringIn pa slot h item with sch := sch } := by
      cases henq
      split
      · exact State.noteTask_form ..
      · exact ⟨_, rfl⟩
    have hnum : num = some h.tail := by cases henq; rfl
    obtain ⟨sch, rfl⟩ := hform
    have hm1 := Memory.write_wf slot item hm
    refine ⟨hnum, fun _ => (Memory.rd_wr hm1 _ _ _).trans (Nat.mod_eq_of_lt (Nat.mod_lt _ (by norm_num))), fun _ hd => ⟨?_, ?_, ?_⟩,
      fun w hk hc hw' => ?_, fun a hs hq _ => ?_⟩
    · show ((s.mem.write slot item).wr (pa + 24) 8 _).bytes slot 64 = item
      rw [Memory.bytes_wr_other hm1 (by omega), ← hlen, Memory.bytes_write hm]
    · show (s.ringIn pa slot h item).teams = _
      simp [State.ringIn]
    · show (s.ringIn pa slot h item).waiters = _
      simp [State.ringIn]
    · rw [State.taker, if_pos ⟨hk, hc⟩, hw'] at hw
      cases hw
    · show ((s.mem.write slot item).wr (pa + 24) 8 _).get a = _
      rw [Memory.get_wr_other hm1 (by omega), Memory.get_write_other hm (by omega)]

end Sys2Proof.Machine
end

section
/-! Queue words, `jdec` and `jset` (R281, R289, R310). -/

namespace Sys2Proof.Machine

/-! ### Join counters -/

theorem State.decrementPa_zero (s : State) (ctx va pa : Nat) : s.decrementPa ctx va pa 0 = s := by simp [State.decrementPa]

theorem State.decrementPa_covered {s : State} {ctx va pa n : Nat} (h0 : n ≠ 0) (h : n ≤ s.mem.rd pa 4) :
    s.decrementPa ctx va pa n = if s.mem.rd pa 4 = n then (s.storeNat pa 4 (s.mem.rd pa 4 - n)).notice ctx va pa
      else s.storeNat pa 4 (s.mem.rd pa 4 - n) := by
  rw [State.decrementPa, if_neg h0]
  simp only [if_neg (Nat.not_lt.mpr h)]
  by_cases hn : s.mem.rd pa 4 = n
  · rw [if_pos hn, if_pos (by omega)]
  · rw [if_neg hn, if_neg (by omega)]

theorem State.mem_ready_notice (s : State) (ctx va pa : Nat) : pa ∈ (s.notice ctx va pa).sch.ready := by
  rw [State.notice]
  obtain ⟨e, he⟩ := State.emitHub_form (s.updSch fun c => { c with ready := if c.ready.contains pa then c.ready else c.ready ++ [pa] })
    (homeSlice s.pkg.hbmsplit pa / 96) 0x300 0x31 ctx (BitVec.ofNat 32 va)
  rw [he]
  show pa ∈ if s.sch.ready.contains pa then s.sch.ready else s.sch.ready ++ [pa]
  split
  next h => simpa using h
  · simp

theorem leNat_lt (bs : List Byte) : leNat bs < 256 ^ bs.length := by
  induction bs with
  | nil => exact Nat.one_pos
  | cons b bs ih =>
    rw [leNat, List.length_cons, Nat.pow_succ]
    have := b.isLt
    omega

theorem Memory.rd_lt (m : Memory) (a n : Nat) : m.rd a n < 256 ^ n := by
  rw [Memory.rd]
  simpa using leNat_lt (m.bytes a n)

/-- A decrement that its counter covers. -/
theorem decrement_covered (s : State) (ctx va pa n : Nat) (hm : s.memOk) :
    let old := s.mem.rd pa 4
    let u := s.decrementPa ctx va pa n
    (n = 0 → u = s) ∧ (n ≤ old → u.mem.rd pa 4 = old - n ∧ ∀ a, a < pa ∨ pa + 4 ≤ a → u.mem.get a = s.mem.get a) ∧
    (n ≤ old → n ≠ 0 → old = n → pa ∈ u.sch.ready) := by
  have hm : s.mem.wf = true := hm
  intro old u
  have hzero : n = 0 → u = s := fun h => by subst h; exact s.decrementPa_zero ..
  refine ⟨hzero, fun hn => ?_, fun hn h0 heq => ?_⟩
  · by_cases h0 : n = 0
    · rw [hzero h0, h0]
      exact ⟨rfl, fun _ _ => rfl⟩
    · have hmem : u.mem = s.mem.wr pa 4 (old - n) := by
        show (s.decrementPa ctx va pa n).mem = _
        rw [State.decrementPa_covered h0 hn]
        split <;> simp [old]
      have hlt : old < 256 ^ 4 := Memory.rd_lt ..
      refine ⟨?_, fun a ha => by rw [hmem, Memory.get_wr_other hm ha]⟩
      rw [hmem, Memory.rd_wr hm, Nat.mod_eq_of_lt (by norm_num at hlt ⊢; omega)]
  · show pa ∈ (s.decrementPa ctx va pa n).sch.ready
    rw [State.decrementPa_covered h0 hn, if_pos heq]
    exact State.mem_ready_notice ..

/-! ### Enqueues -/

section
variable {s : State} {w r : Iss} {pa slot : Nat} {h : QHdr}

theorem checkItemLs_ok (h64 : r.ub % 64 = 0) (hls : r.ub + 64 ≤ 1024 * r.t.kd.scratch) : checkItemLs r = .ok () := by
  rw [checkItemLs, if_neg (by omega), if_neg (by rw [Team.lsBytes]; omega)]

/-- An enqueue whose header, slot and LS offset pass their checks. -/
theorem enqueueWord {i : Instr} {v : View} {kinds : List Nat} (hx : ∀ s, exec i s = runEnqueue v kinds s) (s u : State) (w : Iss) (pa slot : Nat)
    (h : QHdr) (num : Option Nat) :
    let e : Entry := { sh := shQueue v, touch := fun _ => pairTouch v, vas := fun w => [w.ua], more := slotVas kinds QHdr.tail }
    s.issues e v w →
    let m := s.moved e w
    let r := w.ready e
    m.openQueue r.c r.ua kinds = .ok (pa, h) → m.queuePa r.c (h.base + 64 * (h.tail % h.cap)) 64 = .ok slot →
    r.ub % 64 = 0 → r.ub + 64 ≤ 1024 * r.t.kd.scratch →
    let hub := homeSlice m.pkg.hbmsplit pa / 96
    (h.kind = 1 → m.chargeAns h.tenant h.bcls actLaunch hub 1 = .hard →
      exec i s = .next ((m.hardCap h.tenant h.bcls actLaunch hub).refuse r { code := 0x0051 })) ∧
    ((h.kind = 1 → m.chargeAns h.tenant h.bcls actLaunch hub 1 ≠ .hard) →
      m.enqueue r.c pa h (m.lsBytes w.id.1 r.core r.ub 64) = .ok (num, u) →
      let seen := if num.isSome then u.ringTouch r.t r.core slot pa (m.waitSpans pa) else u
      exec i s = .next ((seen.updGrp w.id fun g => Group.setPair { g with late := [] } v.dst (num.getD (2 ^ 64 - 1))).stall r)) := by
  intro e hw m r hq hslot h64 hls hub
  have hcheck := checkItemLs_ok h64 hls
  refine ⟨fun hk hc => ?_, fun hc henq => ?_⟩
  · exact exec_next_of (hx s) hw (bind_ok hq (bind_ok hslot (bind_ok hcheck (if_pos ⟨hk, hc⟩))))
  · exact exec_next_of (hx s) hw (bind_ok hq (bind_ok hslot (bind_ok hcheck ((if_neg fun h => hc h.1 h.2).trans (bind_ok henq rfl)))))

/-! ### Taking an item -/

theorem QHdr.count_eq_zero (heq : h.head = h.tail) : h.count = 0 := by
  rw [QHdr.count, heq, Nat.add_sub_cancel_left, Nat.mod_self]

theorem takeWord_none (hq : s.openQueue r.c r.ua [3] = .ok (pa, h)) (hslot : s.queuePa r.c (h.item h.head) 64 = .ok slot)
    (h64 : r.ub % 64 = 0) (hls : r.ub + 64 ≤ 1024 * r.t.kd.scratch) (hc : h.count = 0) : takeWord r s = .ok ((pa, h), none, s) :=
  bind_ok hq (bind_ok hslot (bind_ok (checkItemLs_ok h64 hls) (bind_ok (show s.takeItem r.c pa h = .ok (none, s) from if_pos hc) rfl)))

theorem takeWord_some (hq : s.openQueue r.c r.ua [3] = .ok (pa, h)) (hslot : s.queuePa r.c (h.item h.head) 64 = .ok slot)
    (h64 : r.ub % 64 = 0) (hls : r.ub + 64 ≤ 1024 * r.t.kd.scratch) (hc : h.count ≠ 0) :
    takeWord r s = .ok ((pa, h), some (h.head, s.mem.bytes slot 64), s.storeNat (pa + 16) 8 ((h.head + 1) % 2 ^ 64)) :=
  have ht : s.takeItem r.c pa h = .ok (some (h.head, s.mem.bytes slot 64), s.storeNat (pa + 16) 8 ((h.head + 1) % 2 ^ 64)) :=
    (if_neg hc).trans (bind_ok hslot rfl)
  bind_ok hq (bind_ok hslot (bind_ok (checkItemLs_ok h64 hls) (bind_ok ht rfl)))

end

theorem qtryWord (k : FR) {e : Entry} 
    (he : e = { sh := shQueue (k.view .fr 0x1E2), touch := fun _ => pairTouch (k.view .fr 0x1E2), vas := fun w => [w.ua]
                more := slotVas [3] QHdr.head }) {s : State} {w : Iss} {q : (Nat × QHdr) × Option (Nat × List Byte) × State}
    (hw : s.issues e (k.view .fr 0x1E2) w) (ht : takeWord (w.ready e) (s.moved e w) = .ok q) :
    exec (.qtry k) s = .next (match q.2.1 with
      | some (num, item) => q.2.2.receive (w.ready e) num item
      | none => q.2.2.updGrp w.id fun g => g.later (k.view .fr 0x1E2) true true (fun _ => true) 0#64 fun _ => 2 ^ 64 - 1) := by
  refine exec_next_of (he ▸ execQtry.eq_1 k s) hw (bind_ok ht ?_)
  cases q.2.1 <;> rfl

theorem qdeqWord (k : FR) {e : Entry} 
    (he : e = { sh := shQueue (k.view .fr 0x1E1), touch := fun _ => pairTouch (k.view .fr 0x1E1), vas := fun w => [w.ua], more := deqVas }) {s : State} {w : Iss} {q : (Nat × QHdr) × Option (Nat × List Byte) × State}
    (hw : s.issues e (k.view .fr 0x1E1) w) (ht : takeWord (w.ready e) (s.moved e w) = .ok q) :
    exec (.qdeq k) s = .next (match q.2.1 with
      | some (num, item) => (q.2.2.endClause (w.ready e) id).receive (w.ready e) num item
      | none =>
        let dst := (k.view .fr 0x1E1).dst
        let waits := (q.2.2.endWait (w.ready e) (.qdeq (w.ready e).ua (w.ready e).ub dst)).register (w.ready e).c (w.ready e).t (w.ready e).g q.1.1
          (w.ready e).ub dst
        if dst = 8 then waits else waits.updGrp w.id fun g =>
          g.reserve { qi := none, wide := true, named := [], uni := some (dst - 0x30), uniN := 2, mask := 0#64, vals := [],
                      rem := (k.view .fr 0x1E1).look, arrived := false, load := true }) := by
  refine exec_next_of (he ▸ execQdeq.eq_1 k s) hw (bind_ok ht ?_)
  cases q.2.1 <;> rfl

theorem jdecWord (k : FR) {e : Entry} (he : e = { sh := shQueue (k.view .fr 0x1E3), vas := fun w => [w.ua] }) {s : State} {w : Iss} {pa : Nat}
    (hw : s.issues e (k.view .fr 0x1E3) w) (hp : (s.moved e w).counterPa w.c (w.ready e).own (w.ready e).ua = .ok pa) :
    exec (.jdec k) s = .next ((((s.moved e w).updGrp w.id fun g => { g with late := [] }).decrementPa w.c.num
      (w.ready e).ua pa (w.ready e).ub).l1Touch w.t.kd.fusel1 w.core pa 4) :=
  exec_next_of (he ▸ execJdec.eq_1 k s) hw (bind_ok hp rfl)

theorem jsetWord (k : FR) {e : Entry} (he : e = { sh := shQueue (k.view .fr 0x1E4), vas := fun w => [w.ua] }) {s : State} {w : Iss} {pa : Nat}
    (hw : s.issues e (k.view .fr 0x1E4) w) (hp : (s.moved e w).counterPa (w.ready e).c (w.ready e).own (w.ready e).ua = .ok pa) :
    let u := ((s.moved e w).storeNat pa 4 (w.ready e).ub).l1Touch w.t.kd.fusel1 w.core pa 4
    exec (.jset k) s = .next (if (w.ready e).ub = 0 ∧ s.mem.rd pa 4 ≠ 0 then u.notice (w.ready e).c.num (w.ready e).ua pa else u) := by
  refine exec_next_of (he ▸ execJset.eq_1 k s) hw (bind_ok hp ?_)
  rw [State.moved_mem]
  rfl

/-- Settles O48: each word that its checks pass, and the law of a decrement. -/
theorem queueWords : Obligations.QueueWords := by
  refine ⟨⟨fun k i opc kinds h => ?_, ?take⟩, ?counter, decrement_covered⟩
  case take =>
    intro k e s w pa slot h opc hw m r hq hslot h64 hls
    have hnone := fun heq => takeWord_none hq hslot h64 hls (QHdr.count_eq_zero (h := h) heq)
    have hsome := fun hc => takeWord_some hq hslot h64 hls hc
    refine ⟨fun ho heq _ => ?_, fun ho hc => ?_, fun ho hc => ?_, ?_⟩
    · subst ho
      exact qtryWord k rfl hw (hnone heq)
    · subst ho
      exact qtryWord k rfl hw (hsome hc)
    · subst ho
      exact qdeqWord k rfl hw (hsome hc)
    · intro ho heq _
      subst ho
      exact qdeqWord k rfl hw (hnone heq)
  case counter =>
    intro k e
    refine ⟨fun s w pa hw hp => jdecWord k rfl hw hp, ?_⟩
    intro s w pa hw m r hp u
    exact jsetWord k rfl hw hp
  refine enqueueWord fun s => ?_
  simp only [List.mem_cons, Prod.mk.injEq, List.not_mem_nil, or_false] at h
  rcases h with ⟨rfl, rfl, rfl⟩ | ⟨rfl, rfl, rfl⟩ | ⟨rfl, rfl, rfl⟩
  · exact execQenq.eq_1 k s
  · exact execSpawn.eq_1 k s
  · exact execQnt.eq_1 k s

end Sys2Proof.Machine
end

section
/-! Service calls, `eret`, `ctxld` and `bdg` (R348, R349, R385 to R388). -/

namespace Sys2Proof.Machine

/-! ### `sysc` -/

theorem syscNoQueue (k : FS) :
    wordFaults (.sysc k) { sh := shSysc (k.view 0x10F), touch := fun _ => (List.range 8).map fun j => ((k.view 0x10F).a + j, false) } (k.view 0x10F)
      (fun w _ => w.c.svcq = 0#64) (fun _ => { code := 0x0011, detail := 7 }) :=
  wordFaults_of (fun s => execSysc.eq_1 k s) fun w s _ hp => by
    rw [if_pos hp]
    rfl

/-- The call that waits for room where its item has found none. -/
def State.pendCall (u : State) (w : Iss) (num : Option Nat) (item : List Byte) : State :=
  if num.isSome then u else { u with calls := u.calls ++ [{ team := w.id.1, grp := w.id.2, ctx := w.c.num, item := item }] }

/-- A call with its service queue open. -/
theorem syscCall (k : FS) {e : Entry}
    (he : e = { sh := shSysc (k.view 0x10F), touch := fun _ => (List.range 8).map fun j => ((k.view 0x10F).a + j, false) })
    {s u : State} {w : Iss} {q : Ctx × Nat × QHdr} {num : Option Nat} (hw : s.issues e (k.view 0x10F) w) (hs : w.c.svcq ≠ 0#64)
    (hq : (s.moved e w).openSvcq w.c = .ok q) (hc : s.ctx? w.c.num = some w.c) :
    let m := s.moved e w
    let r := w.ready e
    let a := (k.view 0x10F).a - 0x30
    let item := syscItem w.c r.g w.c.epoch (k.view 0x10F).func a r.g.wordPc
    ((syscVas w.c q).any (m.frozenVa q.1.num) = true → exec (.sysc k) s = .next (m.freezeRetry r)) ∧
    ((syscVas w.c q).any (m.frozenVa q.1.num) = false → m.walkPages q.1 r.core (syscVas w.c q) = [] →
      ((m.coreFills q.1 r.core w.id (syscVas w.c q)).updCtx w.c.num fun c => { c with epoch := c.epoch + 1#32 }).enqueueFor w.id q item = .ok (num, u) →
      exec (.sysc k) s = .next (((u.pendCall w num item).endWait r .sysc).updGrp w.id fun g =>
        { g with call := some { epoch := w.c.epoch, a := a, answered := false } })) := by
  intro m r a item
  refine ⟨fun hz => ?_, fun hz hp henq => ?_⟩
  · exact exec_next_of (he ▸ execSysc.eq_1 k s) hw (check_ok hs (bind_ok hq (if_pos hz)))
  · have hep : (((m.coreFills q.1 r.core w.id (syscVas w.c q)).ctx? w.c.num).map Ctx.epoch).getD 0#32 = w.c.epoch := by
      rw [State.ctx?, State.coreFills_ctxs, ← State.ctx?, State.moved_ctx?, hc]
      rfl
    refine exec_next_of (he ▸ execSysc.eq_1 k s) hw (check_ok hs (bind_ok hq ((if_neg (ne_true_of_eq_false hz)).trans
      ((if_neg (not_not_intro hp)).trans ?_))))
    dsimp only
    rw [show (((((s.moved e w).coreFills q.1 (w.ready e).core (w.ready e).id (syscVas (w.ready e).c q)).ctx? (w.ready e).c.num).map
      Ctx.epoch).getD 0#32) = w.c.epoch from hep]
    exact bind_ok henq rfl

/-! ### The queue and the answer of a call -/

/-- An item that enters performs what its group stored before. -/
theorem State.enqueueFor_performs {s u t : State} {id : Nat × Nat} {q : Ctx × Nat × QHdr} {item : List Byte} {n : Nat} {g : Group}
    (h : s.enqueueFor id q item = .ok (some n, u)) (ht : (s.enqueue q.1 q.2.1 q.2.2 item).toOption.map Prod.snd = some t)
    (hg : t.grp? id = some g) : u.grp? id = some { g with late := [] } ∧ u.mem = t.mem := by
  obtain ⟨slot, -, h⟩ := of_bind_ok h
  obtain ⟨⟨m, v⟩, hv, h⟩ := of_bind_ok h
  rw [hv] at ht
  obtain rfl : v = t := Option.some.inj ht
  have hl1 : ∃ l, u = ({ v with l1 := l }).updGrp id Group.perform := by
    cases ht : s.team? id.1 with
    | some w =>
      obtain ⟨l, hl⟩ := State.ringTouch_form (s := v) w (w.coreOf id.2) slot q.2.1 (s.waitSpans q.2.1)
      simp only [ht, hl] at h
      cases h
      exact ⟨l, rfl⟩
    | none =>
      simp only [ht] at h
      cases h
      exact ⟨v.l1, rfl⟩
  obtain ⟨l, rfl⟩ := hl1
  exact ⟨State.grp?_updGrp_self (s := { v with l1 := l }) Group.perform hg, rfl⟩

/-- A call is answered, or there is none to answer. -/
theorem State.answerCall_or (s : State) (token : Nat) (xs : List W32) : (s.answerCall token xs).1 < 2 ∨ s.answerCall token xs = (2, s) := by
  rw [State.answerCall]
  split
  · exact .inr rfl
  · split
    · exact .inl (by norm_num)
    · split
      · exact .inl (by norm_num)
      · exact .inr rfl

/-- What became of a call: 0, 1 or 2, and 2 leaves everything. -/
theorem State.answerCall_code (s : State) (token : Nat) (xs : List W32) :
    (s.answerCall token xs).1 ≤ 2 ∧ ((s.answerCall token xs).1 = 2 → (s.answerCall token xs).2 = s) ∧
    (natBits token 32 24 ≠ 0 → (s.answerCall token xs).1 = 2) := by
  refine ⟨?_, ?_, fun h => by rw [State.answerCall, if_neg h]⟩ <;> rcases s.answerCall_or token xs with h | h
  · exact le_of_lt h
  · exact h ▸ le_refl _
  · exact fun h2 => absurd h2 (Nat.ne_of_lt h)
  · exact fun _ => by rw [h]

theorem eretWord (k : FS) :
    let v := k.view 0x202
    let a := v.a - 0x30
    wordDoes (.eret k) { sh := shEret v, touch := fun _ =>
        (if 0x30 ≤ v.dst then [(v.dst, false)] else []) ++ (List.range 6).map fun j => (v.a + j, false) } v (fun _ _ => True) fun w s =>
      let q := s.answerCall (w.g.spair a) ((List.range 4).map fun j => w.g.si (a + 2 + j))
      (q.2.endClause w id).updGrp w.id fun g => Group.result (if q.1 = 2 then g else { g with late := [] }) v false w.act fun _ => q.1 := by
  intro v a
  refine wordDoes_of (fun s => execEret.eq_1 k s) fun w s _ _ => ?_
  have hcode : ((s.answerCall (w.g.spair a) ((List.range 4).map fun j => w.g.si (a + 2 + j))).1 < 2) ↔
      ¬ (s.answerCall (w.g.spair a) ((List.range 4).map fun j => w.g.si (a + 2 + j))).1 = 2 := by
    have := (s.answerCall_code (w.g.spair a) ((List.range 4).map fun j => w.g.si (a + 2 + j))).1
    omega
  simp only [show (FS.view k 0x202).a - 0x30 = a from rfl, hcode, ite_not]
  rfl

/-! ### `ctxld` and `bdg` -/

theorem ctxldWord (k : FR) {e : Entry} (he : e = { sh := shCtxld (k.view .fr 0x205) }) {s : State} {w : Iss} {c : Ctx}
    (hw : s.issues e (k.view .fr 0x205) w) (hua : (w.ready e).ua < 256) (hc : s.ctx? (w.ready e).ua = some c) (hf : c.st ≠ .free) :
    (c.st ≠ .saved → exec (.ctxld k) s = .next ((s.arrived e w).wordFault w { code := 0x0011, detail := 8 })) ∧
    ∀ fs, c.st = .saved → (s.moved e w).checkArea c = .ok fs →
      exec (.ctxld k) s = .next (((fs.zipIdx).foldl (fun u p => u.enlist c p)
        ((s.moved e w).updCtx c.num fun c => { c with st := .running })).endClause (w.ready e) id) := by
  have hsel : (if (w.ready e).ua < 256 then ((s.moved e w).ctx? (w.ready e).ua).filter fun c => c.st != .free else none) = some c := by
    rw [if_pos hua, State.moved_ctx?, hc]
    simpa [Option.filter] using hf
  have hx := he ▸ execCtxld.eq_1 k s
  refine ⟨fun hs => exec_fault_of hx hw ?_, fun fs hs ha => exec_next_of hx hw ?_⟩ <;> dsimp only <;> rw [hsel]
  · exact if_pos hs
  · exact check_ok (not_not_intro hs) (bind_ok ha rfl)

theorem bdgWord (k : FR) {v : View} (hv : v = k.view .fr 0x206) {e : Entry} (he : e = { sh := shBdg v }) {s : State} {w : Iss}
    (hw : s.issues e v w) :
    let r := w.ready e
    let act := natBits v.efunc 4 3
    let field := natBits v.efunc 0 2
    let tenant := natBits r.ua 0 16
    let bcls := natBits r.ua 16 3
    let old := s.row? tenant bcls
    let base := old.getD { Row.fresh tenant bcls with elapsed := s.elapsed tenant }
    let row : Row := { base with pend := base.pend ++ [(field, act, r.ub)] }
    natBits r.ua 19 13 = 0 → (field = 2 → r.ub ≠ 0 ∧ r.ub ≤ 16 ∧ bcls = 0) →
    (field < 2 → row.future.soft.getD act 0 = 0 ∨ row.future.hard.getD act 0 = 0 ∨ row.future.soft.getD act 0 ≤ row.future.hard.getD act 0) →
    (old = none → s.sch.rows.length < 256) →
    exec (.bdg k) s = .next ((if old.isSome then (s.moved e w).updRow tenant bcls fun _ => row
      else (s.moved e w).updSch fun c => { c with rows := c.rows ++ [row] }).stall r) := by
  subst hv
  intro r act field tenant bcls old base row hres hscale hcaps hroom
  have hrow : ∀ t b, (s.moved e w).row? t b = s.row? t b := fun _ _ => by rw [State.row?, State.moved_sch, State.row?]
  have hel : ∀ t, (s.moved e w).elapsed t = s.elapsed t := fun _ => by rw [State.elapsed, State.moved_sch, State.elapsed]
  refine exec_next_of (he ▸ execBdg.eq_1 k s) hw ?_
  simp only [hrow, hel, State.moved_sch]
  refine check_ok (not_not_intro hres) (check_ok (fun h => ?_) (check_ok (fun h => ?_) (check_ok (fun h => ?_) rfl)))
  · obtain ⟨h0, h16, hb⟩ := hscale h.1
    exact h.2.elim h0 fun h => h.elim (Nat.not_lt.mpr h16) fun h => h hb
  · obtain ⟨hf, hs, hh, hlt⟩ := h
    rcases hcaps hf with h | h | h
    · exact hs h
    · exact hh h
    · exact absurd hlt (Nat.not_lt.mpr h)
  · have := hroom (Option.isNone_iff_eq_none.mp h.1)
    exact absurd h.2 (Nat.not_le.mpr this)

/-- Settles O51: the words that open and answer a call, load a context and change a budget row. -/
theorem serviceCalls : Obligations.ServiceCalls := by
  refine ⟨⟨fun k => ⟨syscNoQueue k, ?_⟩, eretWord, fun s u id q item n h t g ht hg => State.enqueueFor_performs h ht hg, State.answerCall_code⟩,
    ?ctxld, ?bdg⟩
  case ctxld =>
    intro k s w c v e hw r hua hc hf
    exact ctxldWord k rfl hw hua hc hf
  case bdg =>
    intro k s w v act field e hw
    exact bdgWord k rfl rfl hw
  intro s u w z pa h num hw hs m r hq hc
  exact syscCall k rfl hw hs hq hc

end Sys2Proof.Machine
end

section
/-! `rmap`, `rcommit`, `tlbi` and `mig`, and what ends their waits (R218, R219, R222, R230). -/

namespace Sys2Proof.Machine

/-! ### The words -/

theorem State.targetCtx_ok {s : State} {a : Nat} {c : Ctx} (hc : s.ctx? a = some c) (hf : c.st ≠ .free) (ha : a < 256) : s.targetCtx a = .ok c := by
  rw [State.targetCtx, if_pos (by omega), hc]
  exact if_neg hf

section
variable {s : State} {e : Entry} {w : Iss} {c : Ctx}

theorem State.targetCtx_moved (hc : s.ctx? (w.ready e).ua = some c) (hf : c.st ≠ .free) (ha : (w.ready e).ua < 256) :
    (s.moved e w).targetCtx (w.ready e).ua = .ok c := State.targetCtx_ok (by rw [State.moved_ctx?, hc]) hf ha

theorem State.frozenCtx_moved (s : State) (e : Entry) (w : Iss) (n : Nat) : (s.moved e w).frozenCtx n = s.frozenCtx n := by
  rw [State.frozenCtx, State.moved_freezes, State.frozenCtx]

theorem State.stall_grp? {t : State} {r : Iss} {g : Group} (h : t.grp? r.id = some g) : ((t.stall r).grp? r.id).map Group.wait = some .stall := by
  show ((t.updGrp r.id fun g => { g with wait := .stall }).grp? r.id).map Group.wait = _
  rw [State.grp?_updGrp_self _ h]
  rfl

/-- What the wait of a `tlbi` leaves, from a state with the groups of the moved one. -/
theorem State.invalWait_leaves {u : State} (n : Nat) (hg : s.grp? w.id = some w.g) (hteams : u.teams = (s.moved e w).teams)
    (hmem : u.mem = (s.moved e w).mem) (hctxs : u.ctxs = (s.moved e w).ctxs) (hfz : u.freezes = (s.moved e w).freezes) :
    let t := u.invalWait (w.ready e) n false
    t.mem = s.mem ∧ t.ctxs = s.ctxs ∧
    t.freezes = s.freezes ++ [{ ctx := n, team := w.id.1, grp := w.id.2, page := none, inval := some false
                                awaits := (s.moved e w).unacked fun t => false || t.ctx == n }] ∧
    (t.grp? w.id).map Group.wait = some .stall := by
  refine ⟨hmem.trans (s.moved_mem e w), hctxs.trans (s.moved_ctxs e w), ?_,
     State.stall_grp? (r := w.ready e) (g := (w.ready e).g.advance (w.ready e).g w.v w.sh) ?_⟩
  · show u.freezes ++ [{ ctx := n, team := w.id.1, grp := w.id.2, page := none, inval := some false
                         awaits := u.unacked fun t => false || t.ctx == n }] = _
    rw [hfz, State.moved_freezes, State.unacked, hteams, State.unacked]
  · show u.grp? w.id = _
    rw [State.grp?, State.team?, hteams]
    exact State.grp?_moved hg

theorem rmapWord (k : FR) (he : e = { sh := shRmap (k.view .fr 0x200), vas := fun w => [w.ub] }) {bs : List Byte}
    (hw : s.issues e (k.view .fr 0x200) w) :
    let r := w.ready e
    s.ctx? r.ua = some c → c.st ≠ .free → s.frozenCtx c.num = false → r.ua < 256 → r.uc < 32 → r.ub % 32 = 0 →
    (s.moved e w).loadSpan r.c r.own r.ub 32 .read false = .ok bs →
    let d := fun j => BitVec.ofNat 64 (leNat ((bs.drop (8 * j)).take 8))
    exec (.rmap k) s = .next (((s.moved e w).updCtx c.num fun c => { c with staged := c.staged.set r.uc ⟨d 0, d 1, d 2, d 3⟩ }).stall r) := by
  intro r hc hf hz ha hu h32 hbs d
  have hcheck : ¬ (31 < r.uc ∨ r.ub % 32 ≠ 0) := by omega
  refine exec_next_of (he ▸ execRmap.eq_1 k s) hw (bind_ok (State.targetCtx_moved hc hf ha) (check_ok hcheck (bind_ok hbs (if_neg ?_))))
  rw [State.frozenCtx_moved, hz]
  decide

theorem rcommitWord (k : FS) (he : e = { sh := shRcommit (k.view 0x201) }) (hw : s.issues e (k.view 0x201) w) :
    let r := w.ready e
    s.ctx? r.ua = some c → c.st ≠ .free → s.frozenCtx c.num = false → r.ua < 256 → badRange s.pkg.hbmsplit c.staged = none →
    exec (.rcommit k) s = .next (({ s.moved e w with freezes := s.freezes ++ [{
      ctx := c.num, team := w.id.1, grp := w.id.2, page := none, awaits := (s.moved e w).unacked fun t => t.ctx == c.num }] } : State).stall r) := by
  intro r hc hf hz ha hb
  refine exec_next_of (he ▸ execRcommit.eq_1 k s) hw (bind_ok (State.targetCtx_moved hc hf ha) ((if_neg ?_).trans ?_))
  · rw [State.frozenCtx_moved, hz]
    decide
  · rw [State.moved_pkg, hb, State.freeze, State.moved_freezes]
    rfl

theorem tlbiAll (k : FR) (he : e = { sh := shTlbi (k.view .fr 0x203) }) (hw : s.issues e (k.view .fr 0x203) w)
    (hm : natBits (k.view .fr 0x203).efunc 0 2 = 2) (hz : ∀ z ∈ s.freezes, z.inval ≠ none) :
    exec (.tlbi k) s = .next (State.stall { s.moved e w with
      tlb := [], pwc := [], l1 := [], shapes := []
      freezes := s.freezes ++ [{ ctx := 0, team := w.id.1, grp := w.id.2, page := none, inval := some true
                                 awaits := (s.moved e w).unacked fun t => true || t.ctx == 0 }] } (w.ready e)) := by
  have hno : ¬ (natBits (k.view .fr 0x203).efunc 0 2 = 2 ∧ ((s.moved e w).freezes.any fun z => z.inval.isNone) = true) := fun h => by
    rw [State.moved_freezes, List.any_eq_true] at h
    obtain ⟨z, hm, hi⟩ := h.2
    exact hz z hm (Option.isNone_iff_eq_none.mp hi)
  refine exec_next_of (he ▸ execTlbi.eq_1 k s) hw ((if_neg hno).trans ((if_pos hm).trans ?_))
  show Except.ok (State.stall { s.moved e w with
    tlb := [], pwc := [], l1 := [], shapes := []
    freezes := (s.moved e w).freezes ++ _ } (w.ready e)) = _
  rw [State.moved_freezes]
  rfl

theorem tlbiOne (k : FR) (he : e = { sh := shTlbi (k.view .fr 0x203) }) (hw : s.issues e (k.view .fr 0x203) w) :
    let r := w.ready e
    let mode := natBits (k.view .fr 0x203).efunc 0 2
    s.ctx? r.ua = some c → c.st ≠ .free → s.frozenCtx c.num = false → r.ua < 256 → mode ≠ 2 →
    ∃ t, exec (.tlbi k) s = .next t ∧ t.mem = s.mem ∧ t.ctxs = s.ctxs ∧
      t.freezes = s.freezes ++ [{ ctx := c.num, team := w.id.1, grp := w.id.2, page := none, inval := some false
                                  awaits := (s.moved e w).unacked fun t => false || t.ctx == c.num }] ∧
      (t.grp? w.id).map Group.wait = some .stall ∧
      (mode = 0 → ∀ l ∈ t.tlb, ¬ (l.ctx = c.num ∧ l.va / 2 ^ l.bits = r.ub / 2 ^ l.bits)) ∧
      (mode = 1 ∨ mode = 3 → (∀ l ∈ t.tlb, l.ctx ≠ c.num) ∧ (∀ l ∈ t.pwc, l.ctx ≠ c.num) ∧ ∀ l ∈ t.l1, l.ctx ≠ c.num) := by
  intro r mode hc hf hz ha hm
  have hfz : ¬ (s.moved e w).frozenCtx c.num = true := by rw [State.frozenCtx_moved, hz]; decide
  have hx := he ▸ execTlbi.eq_1 k s
  have hgo := fun (t : State) hy => exec_next_of (i := .tlbi k) (t := t) hx hw ((if_neg fun h => hm h.1).trans ((if_neg hm).trans
    (bind_ok (State.targetCtx_moved hc hf ha) ((if_neg hfz).trans hy))))
  obtain ⟨-, -, -, -, -, hg⟩ := State.iss?_some hw.1
  by_cases h0 : mode = 0
  · obtain ⟨hmem, hctxs, hfr, hst⟩ := State.invalWait_leaves (u := (s.moved e w).tlbiVa c r.ub) c.num hg rfl rfl rfl rfl
    refine ⟨_, hgo _ (if_pos h0), hmem, hctxs, hfr, hst, fun _ l hl => ?_, fun h => by omega⟩
    have := (List.mem_filter.mp hl).2
    exact not_and_or.mpr (by simpa [TlbEntry.covers] using this)
  · have hgo' := hgo _ (if_neg h0)
    refine ⟨_, hgo', ?_⟩
    obtain ⟨hmem, hctxs, hfr, hst⟩ := State.invalWait_leaves (e := e) (w := w) (s := s) c.num hg rfl rfl rfl rfl
    refine ⟨hmem, hctxs, hfr, hst, fun h => absurd h h0, fun _ => ⟨fun l hl => ?_, fun l hl => ?_, fun l hl => ?_⟩⟩
    all_goals simpa using (List.mem_filter.mp hl).2

theorem migWord (k : FR) (he : e = { sh := shRmap (k.view .fr 0x204) }) (hw : s.issues e (k.view .fr 0x204) w) {lf : Leaf} {entry : Nat} :
    let r := w.ready e
    let n := 2 ^ lf.bits
    s.ctx? r.ua = some c → c.st ≠ .free → s.frozenCtx c.num = false → r.ua < 256 → findRange c.committed r.ub = none → natBits r.ub 56 8 = 0 →
    walk s.mem.entries r.ub 3 c.ptroot = .ok (lf, entry) → leafRegion s.pkg.hbmsplit lf r.ub = .ok () →
    (s.moved e w).migMeets lf.base n = false → (s.moved e w).migMeets r.uc n = false → r.uc % n = 0 →
    (regionOf s.pkg.hbmsplit r.uc).hbm = true → regionOf s.pkg.hbmsplit r.uc = regionOf s.pkg.hbmsplit (r.uc + n - 1) →
    (lf.base + n ≤ r.uc ∨ r.uc + n ≤ lf.base) →
    exec (.mig k) s = .next (({ s.moved e w with
      freezes := s.freezes ++ [{ ctx := c.num, team := w.id.1, grp := w.id.2, page := some (r.ub, lf.bits, r.uc)
                                 awaits := (s.moved e w).unacked fun t => t.ctx == c.num }] } : State).stall r) := by
  intro r n hc hf hz ha hrange hhigh hwalk hregion hold hnew hal hhbm hone hap
  refine exec_next_of (he ▸ execMig.eq_1 k s) hw (bind_ok (State.targetCtx_moved hc hf ha) ((if_neg ?_).trans (check_ok ?_ (check_ok ?_ ?_))))
  · rw [State.frozenCtx_moved, hz]
    decide
  · rw [hrange]
    decide
  · exact not_not_intro hhigh
  · refine bind_ok (a := (lf, entry)) (by rw [State.moved_mem]; exact hwalk) (bind_ok (by rw [State.moved_pkg]; exact hregion) ((if_neg ?_).trans
      (check_ok (not_not_intro hal) (check_ok ?_ ?_))))
    · show ¬ ((s.moved e w).migMeets lf.base n || (s.moved e w).migMeets r.uc n) = true
      rw [hold, hnew]
      decide
    · have hin : ((regionOf s.pkg.hbmsplit r.uc).hbm && regionOf s.pkg.hbmsplit r.uc == regionOf s.pkg.hbmsplit (r.uc + n - 1)) = true := by
        rw [hhbm, ← hone, beq_self_eq_true, Bool.and_self]
      rw [State.moved_pkg]
      refine not_or.mpr ⟨ne_true_of_eq_false (congrArg Bool.not hin), ?_⟩
      show ¬ (r.uc < lf.base + n ∧ lf.base < r.uc + n)
      omega
    · rw [State.freeze, State.moved_freezes]
      rfl

end

/-! ### A commit takes effect -/

theorem thaw_commit {s : State} {c : Ctx} {z : Freeze} (hc : s.ctx? z.ctx = some c) (hp : z.page = none) (hi : z.inval = none) :
    let t := s.thaw z
    t.ctx? z.ctx = some { c with committed := c.staged } ∧ t.mem = s.mem ∧ t.freezes = s.freezes.erase z ∧
    (∀ l ∈ t.l1, l.ctx ≠ z.ctx) ∧ (∀ l ∈ t.tlb, l.ctx ≠ z.ctx) ∧ (∀ l ∈ t.shapes, l.ctx ≠ z.ctx) := by
  intro t
  have ht : t = (({ s with freezes := s.freezes.erase z } : State).install c).watch := by
    show s.thaw z = _
    rw [State.thaw, if_neg (by rw [hi]; decide), show ({ s with freezes := s.freezes.erase z } : State).ctx? z.ctx = some c from hc, hp]
  have hnum := State.ctx?_num hc
  rw [ht, ← hnum]
  refine ⟨State.ctx?_updCtx_self (s := { s with freezes := s.freezes.erase z }) (fun c => { c with committed := c.staged }) (fun _ => rfl)
    (hnum ▸ hc), rfl, rfl, fun l hl => ?_, fun l hl => ?_, fun l hl => ?_⟩
  all_goals simpa using (List.mem_filter.mp hl).2

end Sys2Proof.Machine
end

section
/-! A page moves (R230, steps 3 to 5). -/

namespace Sys2Proof.Machine

/-! ### Copying bytes of memory -/

theorem Memory.get_of_mem {m : Memory} (hm : m.wf = true) {c : Host.Cell} (hc : c ∈ m) : m.get c.1 = c.2 := by
  induction m with
  | nil => cases hc
  | cons d m ih =>
    obtain ⟨-, ha, hw⟩ := (Memory.wf_cons d m).1 hm
    rw [Memory.get]
    rcases List.mem_cons.mp hc with rfl | hc
    · exact if_pos rfl
    · have := ha c hc
      rw [if_neg (by omega), if_neg (by omega)]
      exact ih hw hc

theorem Memory.get_eq_zero {m : Memory} {a : Nat} (h : ∀ c ∈ m, c.1 ≠ a) : m.get a = 0#8 := by
  induction m with
  | nil => rfl
  | cons d m ih =>
    rw [Memory.get, if_neg (h d List.mem_cons_self)]
    split
    · rfl
    · exact ih fun c hc => h c (List.mem_cons_of_mem _ hc)

/-- Reading what is left of the cells. -/
theorem Memory.get_filter {m : Memory} (hm : m.wf = true) (p : Nat → Bool) (a : Nat) :
    Memory.get (m.filter fun c => p c.1) a = if p a then m.get a else 0#8 := by
  by_cases h : ∃ c ∈ m, c.1 = a ∧ p a = true
  · obtain ⟨c, hc, rfl, hp⟩ := h
    rw [if_pos hp, Memory.get_of_mem hm hc]
    exact Memory.get_of_mem (Memory.filter_wf _ hm) (List.mem_filter.mpr ⟨hc, hp⟩)
  · rw [Memory.get_eq_zero fun c hc hca => h ⟨c, (List.mem_filter.mp hc).1, hca, hca ▸ (List.mem_filter.mp hc).2⟩]
    split
    next hp => exact (Memory.get_eq_zero fun c hc hca => h ⟨c, hc, hca, hp⟩).symm
    · rfl

/-- Reading after the cells of a memory are written elsewhere. -/
theorem Memory.get_setAll {f : Nat → Nat} (l : Memory) : ∀ (m : Memory), m.wf = true → Memory.wf l = true → (∀ c ∈ l, ∀ d ∈ l, f c.1 = f d.1 → c.1 = d.1) →
    ∀ x, (∀ c ∈ l, f c.1 = x → (l.foldl (fun m c => m.set (f c.1) c.2) m).get x = c.2) ∧
      ((∀ c ∈ l, f c.1 ≠ x) → (l.foldl (fun m c => m.set (f c.1) c.2) m).get x = m.get x) := by
  induction l with
  | nil => exact fun m _ _ _ x => ⟨fun c hc => absurd hc List.not_mem_nil, fun _ => rfl⟩
  | cons d l ih =>
    intro m hm hl hinj x
    obtain ⟨-, ha, hlw⟩ := (Memory.wf_cons d l).1 hl
    obtain ⟨hhit, hmiss⟩ := ih (m.set (f d.1) d.2) (Memory.set_wf _ _ hm) hlw
      (fun a ha b hb => hinj a (List.mem_cons_of_mem _ ha) b (List.mem_cons_of_mem _ hb)) x
    refine ⟨fun c hc hcx => ?_, fun h => ?_⟩
    · rcases List.mem_cons.mp hc with rfl | hc
      · refine (hmiss fun e he hex => ?_).trans (by rw [Memory.get_set hm, if_pos hcx.symm])
        have := hinj c List.mem_cons_self e (List.mem_cons_of_mem _ he) (hcx.trans hex.symm)
        have := ha e he
        omega
      · exact hhit c hc hcx
    · refine (hmiss fun c hc => h c (List.mem_cons_of_mem _ hc)).trans ?_
      rw [Memory.get_set hm, if_neg fun hx => h d List.mem_cons_self hx.symm]

theorem Memory.setAll_wf {f : Nat → Nat} (l m : Memory) (hm : m.wf = true) : (l.foldl (fun m c => m.set (f c.1) c.2) m).wf = true := by
  induction l generalizing m with
  | nil => exact hm
  | cons d l ih => exact ih _ (Memory.set_wf _ _ hm)

theorem Memory.copy_wf {m : Memory} (hm : m.wf = true) (a b n : Nat) : (m.copy a b n).wf = true :=
  Memory.setAll_wf (f := fun x => x - a + b) _ _ (Memory.filter_wf _ hm)

/-- A copy from one span to another. -/
theorem Memory.get_copy {m : Memory} (hm : m.wf = true) (a b n x : Nat) :
    (m.copy a b n).get x = if b ≤ x ∧ x < b + n then m.get (x - b + a) else m.get x := by
  have hl : ∀ c ∈ m.filter fun c => decide (a ≤ c.1) && decide (c.1 < a + n), c ∈ m ∧ a ≤ c.1 ∧ c.1 < a + n := fun c hc => by
    simpa using List.mem_filter.mp hc
  obtain ⟨hhit, hmiss⟩ := Memory.get_setAll (f := fun x => x - a + b) (m.filter fun c => decide (a ≤ c.1) && decide (c.1 < a + n))
    (m.filter fun c => !(decide (b ≤ c.1) && decide (c.1 < b + n))) (Memory.filter_wf _ hm) (Memory.filter_wf _ hm)
    (fun c hc d hd h => by have := (hl c hc).2; have := (hl d hd).2; omega) x
  have hrest := Memory.get_filter hm (fun y => !(decide (b ≤ y) && decide (y < b + n))) x
  by_cases hx : b ≤ x ∧ x < b + n
  · rw [if_pos hx]
    by_cases hc : ∃ c ∈ m, c.1 = x - b + a
    · obtain ⟨c, hc, hcx⟩ := hc
      rw [← hcx, Memory.get_of_mem hm hc]
      exact hhit c (List.mem_filter.mpr ⟨hc, by simp; omega⟩) (by omega)
    · rw [Memory.get_eq_zero fun c hcm hcx => hc ⟨c, hcm, hcx⟩]
      refine (hmiss fun c hcl hcx => hc ⟨c, (hl c hcl).1, ?_⟩).trans (hrest.trans (if_neg (by simp [hx])))
      have := (hl c hcl).2
      omega
  · rw [if_neg hx]
    refine (hmiss fun c hcl hcx => hx ?_).trans (hrest.trans (if_pos (by simp; omega)))
    have := (hl c hcl).2
    omega

theorem Memory.rd_copy_other {m : Memory} (hm : m.wf = true) {a b n entry : Nat} (he : entry + 8 ≤ b ∨ b + n ≤ entry) :
    (m.copy a b n).rd entry 8 = m.rd entry 8 := by
  rw [Memory.rd, Memory.bytes_congr (m := m) fun i hi => (Memory.get_copy hm a b n (entry + i)).trans (if_neg (by omega)), Memory.rd]

/-- A page and the entry of its leaf, moved. -/
theorem Memory.get_moved {m : Memory} (hm : m.wf = true) {a b n entry x : Nat} (he : entry + 8 ≤ b ∨ b + n ≤ entry) (hx : x < 2 ^ 64) :
    let m' := (m.copy a b n).wr entry 8 x
    (∀ j, j < n → m'.get (b + j) = m.get (a + j)) ∧ m'.rd entry 8 = x ∧
    ∀ y, ¬ (b ≤ y ∧ y < b + n) → y < entry ∨ entry + 8 ≤ y → m'.get y = m.get y := by
  have hmc := Memory.copy_wf hm a b n
  refine ⟨fun j hj => ?_, (Memory.rd_wr hmc _ _ _).trans (Nat.mod_eq_of_lt hx), fun y hy hye => ?_⟩
  · rw [Memory.get_wr_other hmc (by omega), Memory.get_copy hm, if_pos ⟨by omega, by omega⟩, Nat.add_sub_cancel_left, Nat.add_comm]
  · rw [Memory.get_wr_other hmc hye, Memory.get_copy hm, if_neg hy]

/-! ### Leaves of a walk -/

/-- A leaf maps a page of 2^16, 2^21 or 2^30 bytes, aligned to its size. -/
def Leaf.aligned (l : Leaf) : Prop := (l.bits = 16 ∨ l.bits = 21 ∨ l.bits = 30) ∧ l.base % 2 ^ l.bits = 0

theorem walkStep_leaf {rd : Entries} {va lvl table : Nat} {l : Leaf} {e : Nat} (h : walkStep rd va lvl table = .ok (.leaf l e)) : l.aligned := by
  rw [walkStep] at h
  dsimp only at h
  split at h
  · cases h
  split at h
  · cases h
  split at h
  · split at h
    · cases h
    next hb =>
      cases h
      refine ⟨?_, by simpa using fun hne => hb (.inr hne)⟩
      show leafBits lvl = _ ∨ leafBits lvl = _ ∨ leafBits lvl = _
      unfold leafBits
      split <;> simp
  · split at h <;> cases h

theorem walk_leaf {rd : Entries} {va : Nat} {l : Leaf} {e : Nat} : ∀ {lvl table : Nat}, walk rd va lvl table = .ok (l, e) → l.aligned
  | 0, table, h => by
    obtain ⟨a, ha, h⟩ := of_bind_ok h
    cases a with
    | leaf l' e' => cases h; exact walkStep_leaf ha
    | table n => cases h
  | lvl + 1, table, h => by
    obtain ⟨a, ha, h⟩ := of_bind_ok h
    cases a with
    | leaf l' e' => cases h; exact walkStep_leaf ha
    | table n => exact walk_leaf h

/-- The entry of a leaf with another address keeps its other bits. -/
theorem leafEntry_lt {old pa : Nat} (h : old < 2 ^ 64) (hp : pa % 256 = 0) : old - natBits old 8 44 * 256 + pa % 2 ^ 52 < 2 ^ 64 := by
  rw [natBits]
  omega

/-! ### The move -/

theorem State.noWorse_writtenBack (s : State) (x : SliceLine) : s.noWorse (s.writeBack x) := by
  refine ⟨fun _ h => h, fun l h => (s.noWorse_writeBack x { line := l + 1, compress := false }).2 l ?_⟩
  rw [State.badLine_iff] at h ⊢
  refine h.imp_right fun ⟨ht, hr⟩ => ⟨ht, fun r hm => ?_⟩
  rcases List.mem_cons.mp hm with rfl | hm
  · exact Nat.succ_ne_self l
  · exact hr r hm

/-- Writing lines back changes tags and resident lines only, and makes no line bad. -/
theorem State.writeBacks_keep (l : List SliceLine) (s : State) :
    let t := l.foldl State.writeBack s
    s.noWorse t ∧ t.mem = s.mem ∧ t.freezes = s.freezes ∧ t.tlb = s.tlb ∧ t.pwc = s.pwc ∧ t.l1 = s.l1 := by
  induction l generalizing s with
  | nil => exact ⟨s.noWorse_refl, rfl, rfl, rfl, rfl, rfl⟩
  | cons x l ih =>
    obtain ⟨hn, h⟩ := ih (s.writeBack x)
    exact ⟨(s.noWorse_writtenBack x).trans hn, h⟩

theorem State.leafPages_congr {s t : State} (htlb : t.tlb = s.tlb) (hl1 : t.l1 = s.l1) (hmem : t.mem = s.mem) (c : Ctx) (va : Nat) :
    t.leafPages c va = s.leafPages c va := by rw [State.leafPages, htlb, hl1, hmem, State.leafPages]

/-- What a migration without an uncorrectable line leaves of memory and of what is cached. -/
theorem State.migrate_leaves (s : State) (c : Ctx) (va entry newPa : Nat) (lf : Leaf)
    (hbad : ∀ k, k < 2 ^ lf.bits / 128 → s.badLine (lf.base / 128 + k) = false) :
    let t := s.migrate c va lf entry newPa
    let m := s.mem.copy lf.base newPa (2 ^ lf.bits)
    t.mem = m.wr entry 8 (m.rd entry 8 - natBits (m.rd entry 8) 8 44 * 256 + newPa % 2 ^ 52) ∧ t.freezes = s.freezes ∧
    t.tlb = s.tlb.filter (fun e => !e.covers c.num va) ∧ t.pwc = s.pwc.filter (fun e => !(e.ctx == c.num && e.key == va / 2 ^ keyBits e.lvl)) ∧
    t.l1 = s.l1.filter fun l => !(s.leafPages c va).any fun p => decide (p.1 / 128 ≤ l.line) && decide (l.line < (p.1 + 2 ^ p.2) / 128) := by
  intro t m
  have ht : t = s.migrate c va lf entry newPa := rfl
  unfold State.migrate at ht
  extract_lets n inOld inNew shift sw bad s0 tags poison ecc resident ready waiters roost s1 s2 old s3 s4 at ht
  obtain ⟨hn, hmem, hfr, htlb, hpwc, hl1⟩ : s.noWorse sw ∧ sw.mem = s.mem ∧ sw.freezes = s.freezes ∧ sw.tlb = s.tlb ∧ sw.pwc = s.pwc ∧
    sw.l1 = s.l1 := State.writeBacks_keep (s.resident.filter fun r => inOld r.line) s
  have hb : bad = [] := by
    refine List.filter_eq_nil_iff.mpr fun l hl => ?_
    obtain ⟨k, hk, rfl⟩ := List.mem_map.mp hl
    have := mt (hn.2 (lf.base / 128 + k)) (ne_true_of_eq_false (hbad k (List.mem_range.mp hk)))
    simp [this]
  have hcopy : s2.mem = m := congrArg (fun x : Memory => x.copy lf.base newPa n) hmem
  have hmem3 : s3.mem = s2.mem.wr entry 8 (s2.mem.rd entry 8 - natBits (s2.mem.rd entry 8) 8 44 * 256 + newPa % 2 ^ 52) := s2.storeNat_mem ..
  have hfr3 : s3.freezes = s2.freezes := s2.storeNat_freezes ..
  have htlb3 : s3.tlb = s2.tlb := s2.storeNat_tlb ..
  have hpwc3 : s3.pwc = s2.pwc := s2.storeNat_pwc ..
  have hl13 : s3.l1 = s2.l1 := s2.storeNat_l1 ..
  have hl12 : s2.l1 = sw.l1.filter fun l =>
    !(sw.leafPages c va).any fun p => decide (p.1 / 128 ≤ l.line) && decide (l.line < (p.1 + 2 ^ p.2) / 128) := rfl
  rw [State.leafPages_congr htlb hl1 hmem, hl1] at hl12
  rw [hcopy] at hmem3
  rw [hb, List.foldl_nil] at ht
  rw [ht]
  clear_value s3
  exact ⟨hmem3, hfr3.trans hfr, htlb3.trans (congrArg (List.filter _) htlb), hpwc3.trans (congrArg (List.filter _) hpwc), hl13.trans hl12⟩

/-- No line of the page of a leaf is left in an L1. -/
theorem State.leafPages_drop {s : State} {c : Ctx} {va entry : Nat} {lf : Leaf} (hwalk : walk s.mem.entries va 3 c.ptroot = .ok (lf, entry))
    {l : L1Line} (hl : l ∈ s.l1.filter fun l =>
      !(s.leafPages c va).any fun p => decide (p.1 / 128 ≤ l.line) && decide (l.line < (p.1 + 2 ^ p.2) / 128)) :
    ¬ (lf.base / 128 ≤ l.line ∧ l.line < (lf.base + 2 ^ lf.bits) / 128) := by
  have hpage : (lf.base, lf.bits) ∈ s.leafPages c va := by
    refine List.mem_append_right _ ?_
    rw [hwalk]
    exact List.mem_singleton_self _
  have hno := (List.mem_filter.mp hl).2
  rw [Bool.not_eq_true', List.any_eq_false] at hno
  simpa using hno _ hpage

/-- The page of a leaf starts and ends at multiples of 2^16. -/
theorem Leaf.aligned.dvd {l : Leaf} (h : l.aligned) {a : Nat} (ha : a % 2 ^ l.bits = 0) : 2 ^ l.bits % 65536 = 0 ∧ a % 65536 = 0 := by
  have hn : 2 ^ l.bits % 65536 = 0 := by
    obtain ⟨hb, -⟩ := h
    rcases hb with h | h | h <;> norm_num [h]
  exact ⟨hn, Nat.mod_eq_zero_of_dvd ((Nat.dvd_of_mod_eq_zero hn).trans (Nat.dvd_of_mod_eq_zero ha))⟩

/-- What ends the wait of a `mig`. -/
theorem thaw_migration {s : State} {c : Ctx} {z : Freeze} {va newPa entry : Nat} {lf : Leaf} (hm : s.memOk) (hc : s.ctx? z.ctx = some c)
    (hi : z.inval = none) (hp : z.page = some (va, lf.bits, newPa)) (hwalk : walk s.mem.entries va 3 c.ptroot = .ok (lf, entry)) :
    let n := 2 ^ lf.bits
    let inOld := fun a : Nat => lf.base ≤ a ∧ a < lf.base + n
    let inNew := fun a : Nat => newPa ≤ a ∧ a < newPa + n
    newPa % n = 0 → (lf.base + n ≤ newPa ∨ newPa + n ≤ lf.base) → (entry + 8 ≤ newPa ∨ newPa + n ≤ entry) →
    (∀ l, inOld (128 * l) → s.badLine l = false) →
    let t := s.thaw z
    let old := s.mem.rd entry 8
    t.freezes = s.freezes.erase z ∧ (∀ j, j < n → t.mem.get (newPa + j) = s.mem.get (lf.base + j)) ∧
    t.mem.rd entry 8 = old - natBits old 8 44 * 256 + newPa % 2 ^ 52 ∧
    (∀ a, ¬ inNew a → a < entry ∨ entry + 8 ≤ a → t.mem.get a = s.mem.get a) ∧
    (∀ e ∈ t.tlb, e.covers c.num va = false) ∧ (∀ e ∈ t.pwc, ¬ (e.ctx = c.num ∧ e.key = va / 2 ^ keyBits e.lvl)) ∧
    ∀ l ∈ t.l1, ¬ inOld (128 * l.line) := by
  have hm : s.mem.wf = true := hm
  intro n inOld inNew hal hap hent hbad t old
  have hleaf := walk_leaf hwalk
  obtain ⟨hn, hbase⟩ : n % 65536 = 0 ∧ lf.base % 65536 = 0 := hleaf.dvd hleaf.2
  have hnew : newPa % 65536 = 0 := (hleaf.dvd hal).2
  have ht : t = ({ s with freezes := s.freezes.erase z } : State).migrate c va lf entry newPa := by
    show s.thaw z = _
    rw [State.thaw, if_neg (by rw [hi]; decide), show ({ s with freezes := s.freezes.erase z } : State).ctx? z.ctx = some c from hc, hp]
    dsimp only
    rw [hwalk]
    exact if_pos rfl
  clear_value t
  obtain ⟨hmem, hfr, htlb, hpwc, hl1⟩ := State.migrate_leaves { s with freezes := s.freezes.erase z } c va entry newPa lf fun k hk => by
    refine hbad _ ?_
    have hk : k < n / 128 := hk
    show lf.base ≤ 128 * (lf.base / 128 + k) ∧ 128 * (lf.base / 128 + k) < lf.base + n
    omega
  rw [← ht] at hmem hfr htlb hpwc hl1
  have hold : old < 2 ^ 64 := (Memory.rd_lt s.mem entry 8).trans_eq (by norm_num)
  have hmem : t.mem = (s.mem.copy lf.base newPa n).wr entry 8 (old - natBits old 8 44 * 256 + newPa % 2 ^ 52) :=
    hmem.trans (congrArg (fun x => (s.mem.copy lf.base newPa n).wr entry 8 (x - natBits x 8 44 * 256 + newPa % 2 ^ 52))
      (Memory.rd_copy_other hm hent))
  obtain ⟨hbytes, hentry, hrest⟩ := Memory.get_moved hm (a := lf.base) hent (leafEntry_lt (pa := newPa) hold (by omega))
  rw [← hmem] at hbytes hentry hrest
  refine ⟨hfr, hbytes, hentry, hrest, fun e he => ?_, fun e he => ?_, fun l hl => ?_⟩
  · rw [htlb] at he
    simpa using (List.mem_filter.mp he).2
  · rw [hpwc] at he
    exact not_and_or.mpr (by simpa using (List.mem_filter.mp he).2)
  · rw [hl1] at hl
    rintro ⟨hlo, hhi⟩
    refine State.leafPages_drop (s := { s with freezes := s.freezes.erase z }) hwalk hl ?_
    show lf.base / 128 ≤ l.line ∧ l.line < (lf.base + n) / 128
    omega

/-- Settles O52: the words, and the two effects of a thaw. -/
theorem translationWords : Obligations.TranslationWords := by
  refine ⟨?rmap, ?rcommit, fun s c z hc hp hi => thaw_commit hc hp hi, ?tlbi, ?mig, fun s c z va newPa entry lf hm hc hi hp hwalk =>
    thaw_migration hm hc hi hp hwalk⟩
  case rmap =>
    intro k s w c bs v e hw r hc _
    exact rmapWord k rfl hw hc
  case rcommit =>
    intro k s w c v e hw r hc _
    exact rcommitWord k rfl hw hc
  case tlbi =>
    intro k s w c v mode e hw r wait
    exact ⟨fun hm hz => tlbiAll k rfl hw hm hz, fun hc _ hf hz ha hm => tlbiOne k rfl hw hc hf hz ha hm⟩
  case mig =>
    intro k s w c lf entry v e hw r n hc _
    exact migWord k rfl hw hc

end Sys2Proof.Machine
end

section
/-! Image updates and the scheduler that loads firmware (R397, R403). -/

namespace Sys2Proof.Machine

theorem getKey_setKey_same (xs : List (Nat × Nat)) (k v : Nat) : getKey (setKey xs k v) k = v := by simp [getKey, setKey]

theorem getKey_setKey_other {xs : List (Nat × Nat)} {k j v : Nat} (h : j ≠ k) : getKey (setKey xs k v) j = getKey xs j := by
  rw [getKey, setKey, List.find?_cons_of_neg (by simpa using h.symm), List.find?_filter, getKey]
  congr 3
  funext p
  by_cases hp : p.1 = j <;> simp [hp, h]

/-! ### What is accepted -/

/-- Some fused key of the chamber die verifies an image. -/
def Phimus.verifies (p : Phimus) (i : ImageIn) : Prop := ∃ k ∈ p.keys, k.die = chamberOf i.die ∧ imageSigned k i = true

theorem Phimus.accepts_iff (p : Phimus) (i : ImageIn) :
    p.accepts i = true ↔ p.verifies i ∧ getKey p.rollback i.typ ≤ i.version.toNat ∧ (i.typ = 3 → i.rules = 1) := by
  simp only [Phimus.accepts, Phimus.verifies, Bool.and_eq_true, List.any_eq_true, beq_iff_eq, decide_eq_true_eq, Bool.or_eq_true, bne_iff_ne,
    ne_eq, and_assoc]
  exact and_congr_right fun _ => and_congr_right fun _ => (imp_iff_not_or).symm

theorem imageUpdate_rejects {s : State} {i : ImageIn} (h : ¬ s.pkg.phimus.verifies i ∨ i.version.toNat < getKey s.pkg.phimus.rollback i.typ) :
    exec (.imageUpdate i) s = .next s := by
  refine congrArg Host.Outcome.next (if_pos ?_)
  rw [Bool.not_eq_true', Bool.and_eq_false_iff]
  refine .inr (Bool.eq_false_iff.mpr fun ha => ?_)
  obtain ⟨hv, hr, -⟩ := (Phimus.accepts_iff _ _).mp ha
  exact h.elim (fun h => h hv) fun h => by omega

/-! ### What is loaded -/

/-- The rollback counters after a load. -/
theorem Phimus.load_rollback (p : Phimus) (i : ImageIn) :
    getKey (p.load i).rollback i.typ = max (getKey p.rollback i.typ) i.version.toNat ∧
    ∀ k, k ≠ i.typ → getKey (p.load i).rollback k = getKey p.rollback k := by
  rw [Phimus.load]
  dsimp only
  split
  next h => exact ⟨(getKey_setKey_same ..).trans (by omega), fun k hk => getKey_setKey_other hk⟩
  next h => exact ⟨by omega, fun _ _ => rfl⟩

theorem Phimus.load_last (p : Phimus) (i : ImageIn) :
    (p.load i).images.getLast? = some { typ := i.typ, die := i.die, version := i.version, len := i.len, body := i.body } := by
  simp [Phimus.load]

/-- Scheduler firmware that begins to load on a chamber die leaves the other as it is. -/
theorem loading_other {xs : List (Nat × Nat)} {d e t v : Nat} (h : e ≠ d) :
    ((setKey xs d v).any fun p => p.1 == e && decide (t < p.2)) = true → (xs.any fun p => p.1 == e && decide (t < p.2)) = true := by
  simp only [setKey, List.any_eq_true, List.mem_cons, List.mem_filter]
  rintro ⟨p, rfl | ⟨hp, -⟩, hq⟩
  · exact absurd (beq_iff_eq.mp (Bool.and_eq_true_iff.mp hq).1).symm h
  · exact ⟨p, hp, hq⟩

theorem imageUpdate_loads {s : State} {i : ImageIn} (ha : s.pkg.phimus.accepts i = true) (hn : s.imageNow i = true) :
    ∃ u, exec (.imageUpdate i) s = .next u ∧
      u.pkg.phimus.images.getLast? = some { typ := i.typ, die := i.die, version := i.version, len := i.len, body := i.body } ∧
      getKey u.pkg.phimus.rollback i.typ = max (getKey s.pkg.phimus.rollback i.typ) i.version.toNat ∧
      (∀ k, k ≠ i.typ → getKey u.pkg.phimus.rollback k = getKey s.pkg.phimus.rollback k) ∧
      (i.typ = 1 → s.ptp ≤ getKey u.pkg.phimus.loading i.die ∧ u.hubLoading (1 - i.die) = false) ∧
      (i.typ ≠ 1 → u.pkg.phimus.loading = s.pkg.phimus.loading) ∧ u.mem = s.mem ∧ u.teams = s.teams ∧ u.ctxs = s.ctxs := by
  have hgo : ∀ {t : State}, (if i.typ ≠ 1 then s.updPkg fun p => { p with phimus := p.phimus.load i }
      else { (s.updPkg fun p => { p with phimus := p.phimus.load i }).updPkg fun p =>
        { p with phimus := { p.phimus with loading := setKey p.phimus.loading i.die (s.ptp + Config.loadTicks s.freeN) } } with freeN := s.freeN + 1 }) = t →
      exec (.imageUpdate i) s = .next t := fun ht => congrArg Host.Outcome.next ((if_neg (by rw [hn, ha]; decide)).trans ht)
  obtain ⟨hroll, hother⟩ := s.pkg.phimus.load_rollback i
  by_cases h1 : i.typ = 1
  · refine ⟨_, hgo (if_neg (not_not_intro h1)), s.pkg.phimus.load_last i, hroll, hother, fun _ => ⟨?_, ?_⟩, fun h => absurd h1 h, rfl, rfl, rfl⟩
    · exact (Nat.le_add_right _ _).trans_eq (getKey_setKey_same ..).symm
    · simp only [State.imageNow, Bool.and_eq_true, h1, if_true, Bool.not_eq_true'] at hn
      obtain ⟨⟨⟨-, hdie⟩, -⟩, hload⟩ := hn
      have hne : 1 - i.die ≠ i.die := by
        have : i.die = 0 ∨ i.die = 1 := by simpa [imageDies] using hdie
        omega
      exact Bool.eq_false_iff.mpr fun h => absurd (loading_other hne h) (ne_true_of_eq_false hload)
  · exact ⟨_, hgo (if_pos h1), s.pkg.phimus.load_last i, hroll, hother, fun h => absurd h h1, fun _ => rfl, rfl, rfl, rfl⟩

/-! ### Who makes the rounds -/

theorem rounds_of_loading {s : State} {die : Nat} (hd : die < 2) :
    (s.hubLoading die = true → s.hubsOf die = [] ∧ exec (.schedulingRound die) s = .next s) ∧
    (s.hubLoading die = false → s.hubLoading (1 - die) = false → s.hubsOf die = [die]) ∧
    (s.hubLoading die = false → s.hubLoading (1 - die) = true →
      s.hubsOf die = [die, 1 - die] ∧ exec (.schedulingRound die) s = .next ((s.round die).round (1 - die))) := by
  have hround : ∀ {l}, s.hubsOf die = l → exec (.schedulingRound die) s = .next (l.foldl State.round s) := fun h => h ▸ execSchedulingRound.eq_1 die s
  have hserves : s.hubLoading die = false → ¬ (1 < die ∨ s.hubLoading die = true) := fun h => by rw [h]; simp; omega
  refine ⟨fun h => ?_, fun h h' => ?_, fun h h' => ?_⟩
  · have hh : s.hubsOf die = [] := if_pos (.inr h)
    exact ⟨hh, hround hh⟩
  · exact (if_neg (hserves h)).trans (if_neg (ne_true_of_eq_false h'))
  · have hh : s.hubsOf die = [die, 1 - die] := (if_neg (hserves h)).trans (if_pos h')
    have hr := hround hh
    rw [List.foldl_cons, List.foldl_cons, List.foldl_nil] at hr
    exact ⟨hh, hr⟩

/-- Settles O60: an image is loaded where it is accepted, and a scheduler that loads makes no rounds. -/
theorem imageUpdate : Obligations.ImageUpdate :=
  ⟨fun _ _ => ⟨imageUpdate_rejects, fun hs hv hn hr => imageUpdate_loads ((Phimus.accepts_iff _ _).mpr ⟨hs, hv, hr⟩) hn⟩,
    fun _ _ => rounds_of_loading⟩

end Sys2Proof.Machine
end

section
/-! A clause boundary (R91 to R97): what a fetch leaves, and how the group goes on. -/

namespace Sys2Proof.Machine

/-! ### What fetches leave -/

/-- A team without its performance counts. -/
def Team.uncounted (t : Team) : Team := { t with counts := [] }

/-- What of a state decides how a group goes on at a boundary. -/
def State.plain (s : State) : List Team × List Ctx × List Cand × List Filter × Memory :=
  (s.teams.map Team.uncounted, s.ctxs, s.sch.cands, s.echo.filters, s.mem)

@[simp] theorem State.perfAdd_plain (s : State) (id : Nat × Nat) (k n : Nat) : (s.perfAdd id k n).plain = s.plain := by
  have h : (fun t : Team => (if t.id == id.1 then t.updCount (t.half id.2) (fun c => c.add k n) else t).uncounted) = Team.uncounted := by
    funext t
    split <;> rfl
  simp only [State.plain, State.perfAdd, State.updTeam, List.map_map, Function.comp_def, h]

@[simp] theorem State.bringSpan_plain (s : State) (cmp : Option Bool) (pa n : Nat) : (s.bringSpan cmp pa n).plain = s.plain := by
  obtain ⟨_, _, h⟩ := s.bringSpan_frame cmp pa n
  rw [h]
  rfl

@[simp] theorem State.l1Touch_plain (s : State) (fused : Bool) (core pa n : Nat) : (s.l1Touch fused core pa n).plain = s.plain := rfl
@[simp] theorem State.l1Fill_plain (s : State) (home ctx va bits pa : Nat) : (s.l1Fill home ctx va bits pa).plain = s.plain := rfl
@[simp] theorem State.freeN_plain (s : State) (n : Nat) : ({ s with freeN := n } : State).plain = s.plain := rfl
@[simp] theorem State.markPoison_plain (s : State) (t : Target) (n : Nat) : (s.markPoison t n).plain = s.plain := by
  unfold State.markPoison
  split <;> rfl

@[simp] theorem State.readHome_plain (s : State) (id : Nat × Nat) (t : Team) (c : Ctx) (core va : Nat) (tg : Target) (n : Nat) (cache : Bool) :
    (s.readHome id t c core va tg n cache).2.plain = s.plain := by
  unfold State.readHome
  split
  · rfl
  · split
    · simp
    · dsimp only
      (repeat' split) <;> simp

@[simp] theorem State.readCore_plain (s : State) (id : Nat × Nat) (t : Team) (c : Ctx) (core va : Nat) (tg : Target) (n : Nat) (cache : Bool) :
    (s.readCore id t c core va tg n cache).2.plain = s.plain := by
  unfold State.readCore
  split
  · rfl
  · dsimp only
    (repeat' split) <;> simp

@[simp] theorem State.fetchWord_plain (s : State) (id : Nat × Nat) (c : Ctx) (t : Team) (va : Nat) : (s.fetchWord id c t va).2.plain = s.plain := by
  unfold State.fetchWord
  dsimp only
  (repeat' split) <;> simp

theorem State.fetchWords_plain (s : State) (id : Nat × Nat) (c : Ctx) (t : Team) (vas : List Nat) :
    (s.fetchWords id c t vas).2.plain = s.plain := by
  induction vas generalizing s with
  | nil => rfl
  | cons va vas ih =>
    have h := s.fetchWord_plain id c t va
    unfold State.fetchWords
    split
    next he => rwa [he] at h
    next he =>
      rw [he] at h
      exact (ih _).trans h

theorem State.fetchClause_plain (s : State) (id : Nat × Nat) (c : Ctx) (t : Team) (g : Group) : (s.fetchClause id c t g).2.plain = s.plain := by
  have h := s.fetchWord_plain id c t g.pc.toNat
  unfold State.fetchClause
  dsimp only
  split
  next he => rwa [he] at h
  next he =>
    rw [he] at h
    split
    · exact h
    · exact (State.fetchWords_plain ..).trans h

theorem State.coreFills_plain (s : State) (c : Ctx) (core : Nat) (id : Nat × Nat) (vas : List Nat) : (s.coreFills c core id vas).plain = s.plain := by
  unfold State.coreFills
  induction vas generalizing s with
  | nil => rfl
  | cons va vas ih =>
    rw [List.foldl_cons, ih]
    rcases s.coreFill_form c core id va with h | ⟨l, h⟩
    · rw [h]
    · rw [h]
      exact s.perfAdd_plain id 8 1

/-! ### Looking up what they leave -/

section
variable {s u : State} (h : u.plain = s.plain)
include h

theorem State.ctxs_of_plain : u.ctxs = s.ctxs := congrArg (fun p => p.2.1) h
theorem State.mem_of_plain : u.mem = s.mem := congrArg (fun p => p.2.2.2.2) h
theorem State.cands_of_plain : u.sch.cands = s.sch.cands := congrArg (fun p => p.2.2.1) h
theorem State.filter_of_plain (tag : Nat) : u.filter tag = s.filter tag := by
  have : u.echo.filters = s.echo.filters := congrArg (fun p => p.2.2.2.1) h
  rw [State.filter, this, State.filter]

theorem State.team?_of_plain {id : Nat} {t : Team} (ht : s.team? id = some t) : ∃ n, u.team? id = some { t with counts := n } := by
  have hmap : (u.team? id).map Team.uncounted = (s.team? id).map Team.uncounted := by
    refine (find?_map_key u.teams Team.id Team.uncounted (fun _ => rfl) id).symm.trans
      (Eq.trans ?_ (find?_map_key s.teams Team.id Team.uncounted (fun _ => rfl) id))
    exact congrArg (fun p => List.find? (fun t : Team => t.id == id) p.1) h
  rw [ht] at hmap
  obtain ⟨t', ht', he⟩ := Option.map_eq_some_iff.mp hmap
  refine ⟨t'.counts, ht'.trans (congrArg some ?_)⟩
  have := congrArg (fun x : Team => { x with counts := t'.counts }) he
  exact this

end

/-! ### Delivered descriptors -/

theorem Group.fill_s_congr {g g' : Group} (hs : g'.s = g.s) (r : Resv) : (g'.fill r).s = (g.fill r).s := by
  unfold Group.fill
  split
  · split <;> simp only [Group.setS, hs]
  · exact hs

theorem Group.deliver_s_congr {g g' : Group} (hs : g'.s = g.s) (hr : g'.resv = g.resv) (p : Resv → Bool) : (g'.deliver p).s = (g.deliver p).s := by
  have key : ∀ (l : List Resv) (g g' : Group), g'.s = g.s → (l.foldl Group.fill g').s = (l.foldl Group.fill g).s := by
    intro l
    induction l with
    | nil => exact fun _ _ h => h
    | cons r l ih => exact fun g g' h => ih _ _ (Group.fill_s_congr h r)
  rw [Group.deliver, Group.deliver, hr]
  exact key _ _ _ hs

theorem Group.descReady_s_congr {g g' : Group} (hs : g'.s = g.s) (hr : g'.resv = g.resv) (hc : g'.clause = g.clause) :
    g'.descReady.s = g.descReady.s := by
  rw [Group.descReady, Group.descReady, hc]
  exact Group.deliver_s_congr hs hr _

theorem Group.descReady_form (g : Group) : ∃ th s r, g.descReady = { g with threads := th, s := s, resv := r } := g.deliver_form _

theorem clauseTiles_congr {t t' : Team} {g g' : Group} (hk : t'.kd = t.kd) (hs : g'.s = g.s) (ws : List W64) :
    clauseTiles t' g' ws = clauseTiles t g ws := by simp only [clauseTiles, Group.si, hs, hk]

/-! ### Fills that begin -/

theorem State.grp?_startFill (s : State) (team half i grp : Nat) (pc : W64) (k : Nat × Nat) : (s.startFill team half i grp pc).grp? k = s.grp? k := by
  unfold State.startFill
  refine (State.grp?_updTeam_groups (s := s.takeTile none team half i) (id := team) _ ?_ ?_ k).trans rfl <;> exact fun _ => rfl

/-- Step 5 at one tile (R315): an ABSENT one starts its fill, unless a freeze stalls it. -/
def State.firstFill (id : Nat × Nat) (t : Team) (g : Group) (s : State) (i : Nat) : State :=
  if ((s.team? id.1).map fun t => (t.tileAt g i).absent).getD false && !s.frozenCtx t.ctx then s.startFill id.1 (t.half g.idx) i g.idx (touchPc g i)
  else s

theorem State.firstFills_keep (id : Nat × Nat) (t : Team) (g : Group) (l : List Nat) :
    ∀ s : State, (∀ k, (l.foldl (State.firstFill id t g) s).grp? k = s.grp? k) ∧ (l.foldl (State.firstFill id t g) s).mem = s.mem := by
  induction l with
  | nil => exact fun _ => ⟨fun _ => rfl, rfl⟩
  | cons i l ih =>
    intro s
    obtain ⟨hg, hm⟩ := ih (s.firstFill id t g i)
    have hone : (∀ k, (s.firstFill id t g i).grp? k = s.grp? k) ∧ (s.firstFill id t g i).mem = s.mem := by
      unfold State.firstFill
      split
      · exact ⟨fun k => s.grp?_startFill _ _ i _ _ k, rfl⟩
      · exact ⟨fun _ => rfl, rfl⟩
    exact ⟨fun k => (hg k).trans (hone.1 k), hm.trans hone.2⟩

/-- Step 5 of a group whose tiles are all READY (R97): it begins. -/
theorem State.stepTiles_ready {s : State} {id : Nat × Nat} {t : Team} {g : Group} (ht : s.team? id.1 = some t) (hg : s.grp? id = some g)
    (hr : ∀ i ∈ clauseTiles t g.descReady g.clause.tail, (t.tileAt g i).st = .ready) :
    ∃ th r x, (s.stepTiles id).grp? id = some ({ g with threads := th, s := r, resv := x } : Group).begin ∧ (s.stepTiles id).mem = s.mem := by
  obtain ⟨th, r, x, hd⟩ := g.descReady_form
  refine ⟨th, r, x, ?_⟩
  have hg1 := State.grp?_updGrp_self Group.descReady hg
  have ht1 := State.team?_updGrp_self Group.descReady ht
  have hall : ((clauseTiles (t.updGrp id.2 Group.descReady) g.descReady g.descReady.clause.tail).all fun i =>
      ((t.updGrp id.2 Group.descReady).tileAt g.descReady i).st == .ready) = true := by
    rw [List.all_eq_true]
    intro i hi
    have hclause : g.descReady.clause = g.clause := by rw [hd]
    rw [clauseTiles_congr (t := t) (t' := t.updGrp id.2 Group.descReady) (g := g.descReady) (g' := g.descReady) rfl rfl, hclause] at hi
    have : (t.updGrp id.2 Group.descReady).tileAt g.descReady i = t.tileAt g i := by rw [hd]; rfl
    rw [this, hr i hi, beq_self_eq_true]
  rw [State.stepTiles]
  simp only [ht1, hg1]
  rw [if_pos hall]
  obtain ⟨hkg, hkm⟩ := State.firstFills_keep id (t.updGrp id.2 Group.descReady) g.descReady
    (clauseTiles (t.updGrp id.2 Group.descReady) g.descReady g.descReady.clause.tail) (s.updGrp id Group.descReady)
  refine ⟨?_, hkm⟩
  rw [← hd]
  exact State.grp?_updGrp_self Group.begin ((State.grp?_perfAdd ..).trans ((hkg id).trans hg1))

end Sys2Proof.Machine
end

section
/-! The events at a clause boundary, and what begins there (R91 to R97). -/

namespace Sys2Proof.Machine

/-! ### Steps 2 to 4 -/

theorem State.traceNeed_off {s : State} {ctx : Nat} (h : (s.filter ctx).en = false) (width : Nat) (ws : List W64) : s.traceNeed ctx width ws = 0 := by
  have hk : ∀ code, s.kept ctx code = false := fun _ => by rw [State.kept, h, Bool.false_and]
  simp [State.traceNeed, hk]

theorem State.traceGo_off {s : State} {t : Team} (h : (s.filter t.ctx).en = false) (g : Group) : s.traceGo t g = true := by
  rw [State.traceGo, State.traceFits, State.traceNeed_off h, h]
  rfl

/-- A group passes step 2 where no event of its tag is kept. -/
theorem State.stepTrace_off {s : State} {id : Nat × Nat} {t : Team} {g : Group} (ht : s.team? id.1 = some t) (hg : s.grp? id = some g)
    (h : (s.filter t.ctx).en = false) : s.stepTrace id = s.reserve2 id 0 false := by
  rw [State.stepTrace, ht, hg]
  dsimp only
  rw [if_pos (State.traceGo_off h g), State.traceNeed_off h]

theorem State.stepThree_passes {s : State} {id : Nat × Nat} {t : Team} {g : Group} (ht : s.team? id.1 = some t) (hg : s.grp? id = some g)
    (hd : g.deferred = []) (hw : s.wantSave t = false) : s.stepThree id = s.stepWait id := by
  rw [State.stepThree, ht, hg]
  dsimp only
  rw [if_neg (by rw [hd]; decide), if_neg (by rw [hw]; decide)]

/-- A group that its header holds waits for it. -/
theorem State.stepWait_held {s : State} {id : Nat × Nat} {t : Team} {g : Group} (ht : s.team? id.1 = some t) (hg : s.grp? id = some g)
    (hh : State.headerMet t g = false) : s.stepWait id = s.updGrp id fun g => { g with wait := .header } := by
  rw [State.stepWait, ht, hg]
  exact if_neg (ne_true_of_eq_false hh)

/-- What the group observes as its header is met (R269). -/
def State.meetHeader (s : State) (t : Team) (g : Group) : State :=
  if (clauseHdr (g.clause.headD 0#64)).wait = 3 then s.meetBarrier t g
  else if (clauseHdr (g.clause.headD 0#64)).wait = 1 then s.meetCopies t g else s

theorem State.stepWait_met {s : State} {id : Nat × Nat} {t : Team} {g : Group} (ht : s.team? id.1 = some t) (hg : s.grp? id = some g)
    (hh : State.headerMet t g = true) : s.stepWait id = (s.meetHeader t g).stepTiles id := by
  rw [State.stepWait, ht, hg]
  exact if_pos hh

/-- The copies that a group has met leave its teams but for what it has written. -/
theorem State.meetHeader_leaves {s : State} {id : Nat × Nat} {t : Team} {g : Group} (ht : s.team? id.1 = some t) (hg : s.grp? id = some g) :
    ∃ gs w, (s.meetHeader t g).team? id.1 = some { t with groups := gs } ∧ (s.meetHeader t g).grp? id = some { g with wrote := w } ∧
      (s.meetHeader t g).mem = s.mem := by
  unfold State.meetHeader
  split
  · exact ⟨t.groups, g.wrote, ht, hg, rfl⟩
  split
  · have hid := State.team?_id ht
    rw [State.meetCopies, show (t.id, g.idx) = (id.1, g.idx) by rw [hid]]
    generalize hf : (fun g : Group => if g.outb.isEmpty && g.unsealed.isEmpty then { g with wrote := [] } else g) = f
    have hfw : ∃ w, f g = { g with wrote := w } := by
      subst hf
      dsimp only
      split <;> exact ⟨_, rfl⟩
    obtain ⟨w, hw⟩ := hfw
    by_cases hk : id = (id.1, g.idx)
    · exact ⟨_, w, State.team?_updGrp_self (id := (id.1, g.idx)) f ht, by
        rw [← hk]
        exact (State.grp?_updGrp_self f (s := s.l1Drop _) hg).trans (congrArg some hw), rfl⟩
    · exact ⟨_, g.wrote, State.team?_updGrp_self (id := (id.1, g.idx)) f ht, (State.grp?_updGrp_other (s := s.l1Drop _) f hk).trans hg, rfl⟩
  · exact ⟨t.groups, g.wrote, ht, hg, rfl⟩

/-! ### A fetched clause -/

/-- That the tiles of a clause are READY is read in the tables of the team, its clause and its descriptors. -/
theorem tilesReady_congr {t t' : Team} {g g' : Group} (hk : t'.kd = t.kd) (htl : t'.tiles = t.tiles) (hs : g'.s = g.s) (hr : g'.resv = g.resv)
    (hc : g'.clause = g.clause) (hi : g'.idx = g.idx) (h : ∀ i ∈ clauseTiles t g.descReady g.clause.tail, (t.tileAt g i).st = .ready) :
    ∀ i ∈ clauseTiles t' g'.descReady g'.clause.tail, (t'.tileAt g' i).st = .ready := by
  rw [clauseTiles_congr hk (Group.descReady_s_congr hs hr hc), hc]
  simpa only [Team.tileAt, Team.half, hk, htl, hi] using h

theorem State.wantSave_congr {s u : State} {t t' : Team} (hc : u.ctxs = s.ctxs) (hcand : u.sch.cands = s.sch.cands) (hid : t'.id = t.id)
    (hctx : t'.ctx = t.ctx) : u.wantSave t' = s.wantSave t := by
  rw [State.wantSave, State.wantSave, hcand, hid, hctx, State.ctx?, State.ctx?, hc]

/-- A clause that is fetched where nothing but its header may hold the group. -/
theorem fetched_goes_on {s u : State} {id : Nat × Nat} {tm : Team} {gr : Group} {ws : List W64} (hu : u.plain = s.plain) (ht : s.team? id.1 = some tm)
    (hg : u.grp? id = some gr) (hpos : gr.pos = 0) (hen : (s.filter tm.ctx).en = false) (hd : gr.deferred = []) (hs : s.wantSave tm = false) :
    let x : Group := { gr with clause := ws }
    let v := (u.updGrp id fun x => { x with clause := ws }).stepTrace id
    (State.headerMet tm x = false → ∃ y, v.grp? id = some y ∧ y.clause = ws ∧ y.pos = 0 ∧ y.wait = .header ∧ v.mem = s.mem) ∧
    (State.headerMet tm x = true → (∀ i ∈ clauseTiles tm x.descReady ws.tail, (tm.tileAt x i).st = .ready) →
      ∃ y, v.grp? id = some y ∧ y.clause = ws ∧ y.pos = max 1 gr.resw ∧ y.resw = 0 ∧
        y.wait = .none ∧ y.land = none ∧ y.touched = [] ∧ y.pc = gr.pc ∧ y.mask = gr.mask ∧ y.live = gr.live ∧ y.stk = gr.stk ∧ v.mem = s.mem) := by
  intro x v
  have hmem := State.mem_of_plain hu
  obtain ⟨n, htu⟩ := State.team?_of_plain hu ht
  -- the state at step 2
  let u1 := u.updGrp id fun x => { x with clause := ws }
  have ht1 : u1.team? id.1 = some (({ tm with counts := n } : Team).updGrp id.2 fun x => { x with clause := ws }) := State.team?_updGrp_self _ htu
  have hg1 : u1.grp? id = some x := State.grp?_updGrp_self _ hg
  have hen1 : (u1.filter tm.ctx).en = false := (congrArg Filter.en (State.filter_of_plain hu tm.ctx)).trans hen
  -- the state at steps 3 and 4
  let u2 := u1.updGrp id fun g => { g with wait := .none, tslots := 0, traceDrop := false }
  let x2 : Group := { x with wait := .none, tslots := 0, traceDrop := false }
  obtain ⟨gs, ht2⟩ : ∃ gs, u2.team? id.1 = some { tm with counts := n, groups := gs } := ⟨_, State.team?_updGrp_self _ ht1⟩
  have hg2 : u2.grp? id = some x2 := State.grp?_updGrp_self _ hg1
  have hs2 : u2.wantSave { tm with counts := n, groups := gs } = false :=
    (State.wantSave_congr (u := u2) (State.ctxs_of_plain hu : u.ctxs = s.ctxs)
      (State.cands_of_plain hu : u.sch.cands = s.sch.cands) rfl rfl).trans hs
  have hv : v = u2.stepWait id := (State.stepTrace_off ht1 hg1 hen1).trans (State.stepThree_passes ht2 hg2 hd hs2)
  constructor
  · intro hh
    rw [hv, State.stepWait_held ht2 hg2 hh]
    exact ⟨_, State.grp?_updGrp_self _ hg2, rfl, hpos, rfl, hmem⟩
  · intro hh hr
    rw [hv, State.stepWait_met ht2 hg2 hh]
    obtain ⟨gs3, w, ht3, hg3, hm3⟩ := State.meetHeader_leaves ht2 hg2
    obtain ⟨th, r, rs, hg4, hm4⟩ := State.stepTiles_ready ht3 hg3 (tilesReady_congr (t := tm) (g := x) rfl rfl rfl rfl rfl rfl hr)
    exact ⟨_, hg4, rfl, rfl, rfl, rfl, rfl, rfl, rfl, rfl, rfl, rfl, hm4.trans (hm3.trans hmem)⟩

/-! ### The event -/

/-- The fetch of a clause by a group at its boundary, and what comes of it. -/
def State.fetchBoundary (s : State) (id : Nat × Nat) (c : Ctx) (tm : Team) (gr : Group) : State :=
  match s.fetchClause id c tm gr with
  | (.error x, s1) =>
    let pages := s.walkPages c (tm.coreOf id.2) [x.addr]
    match s.leafWalks c (tm.coreOf id.2) x pages with
    | [] => (s1.countWalks id x pages).takeFault id x gr.pc gr.pc gr.resw false
    | leaves => s.startWalks c (tm.coreOf id.2) id leaves
  | (.ok ws, s1) =>
    let vas := gr.pc.toNat :: gr.clauseVas (clauseHdr (ws.headD 0#64))
    if vas.any (s.frozenVa c.num) then s.freezeGroup id
    else match s.walkPages c (tm.coreOf id.2) vas with
    | [] => ((s1.coreFills c (tm.coreOf id.2) id vas).updGrp id fun g => { g with clause := ws }).stepTrace id
    | pages => s.startWalks c (tm.coreOf id.2) id pages

section
variable {s : State} {t g : Nat} {tm : Team} {gr : Group} {c : Ctx}

theorem boundary_issues (h : s.canIssue (t, g) = true) : exec (.clauseBoundary t g) s = .next { s with cur := some (t, g), last := (t, g) } :=
  congrArg Host.Outcome.next (if_pos h)

/-- The group of a team at a boundary. -/
theorem State.atBoundary_pos {id : Nat × Nat} (ht : s.team? id.1 = some tm) (hg : s.grp? id = some gr) (h : s.atBoundary id = true) : gr.pos = 0 := by
  rw [State.atBoundary, ht, hg] at h
  simp only [Bool.and_eq_true, beq_iff_eq] at h
  exact h.1.2

variable (hi : s.canIssue (t, g) = false) (hb : s.atBoundary (t, g) = true) (hp : s.pauseLeft = 0) (ht : s.team? t = some tm)
  (hg : s.grp? (t, g) = some gr) (hc : s.ctx? tm.ctx = some c) (hz : s.frozenVa c.num gr.pc.toNat = false)
include hi hb hp ht hg hc hz

/-- At a boundary without a pause the clause is fetched. -/
theorem boundary_eq : exec (.clauseBoundary t g) s = .next (s.fetchBoundary (t, g) c tm gr) := by
  show execClauseBoundary t g s = _
  rw [execClauseBoundary, if_neg (ne_true_of_eq_false hi), if_neg (by rw [hb, hp]; decide), ht, hg]
  dsimp only
  rw [hc]
  exact congrArg Host.Outcome.next (if_neg (ne_true_of_eq_false hz))

end

section
variable {s : State} {id : Nat × Nat} {tm : Team} {gr : Group} {c : Ctx}

/-- A fault of the fetch comes behind the walks that find a leaf. -/
theorem State.fetchBoundary_faults {x : Exc} {s1 : State} (hf : s.fetchClause id c tm gr = (.error x, s1)) :
    let pages := s.walkPages c (tm.coreOf id.2) [x.addr]
    let leaves := s.leafWalks c (tm.coreOf id.2) x pages
    (leaves = [] → s.fetchBoundary id c tm gr = (s1.countWalks id x pages).takeFault id x gr.pc gr.pc gr.resw false) ∧
    (leaves ≠ [] → s.fetchBoundary id c tm gr = s.startWalks c (tm.coreOf id.2) id leaves) := by
  intro pages leaves
  rw [State.fetchBoundary, hf]
  change (_ → (match leaves with | [] => _ | l => _) = _) ∧ (_ → (match leaves with | [] => _ | l => _) = _)
  cases leaves with
  | nil => exact ⟨fun _ => rfl, fun h => absurd rfl h⟩
  | cons p ps => exact ⟨fun h => (List.cons_ne_nil _ _ h).elim, fun _ => rfl⟩

/-- A fetched clause comes behind the walks that it needs. -/
theorem State.fetchBoundary_fetches {ws : List W64} {s1 : State} (hf : s.fetchClause id c tm gr = (.ok ws, s1)) :
    let vas := gr.pc.toNat :: gr.clauseVas (clauseHdr (ws.headD 0#64))
    let pages := s.walkPages c (tm.coreOf id.2) vas
    vas.any (s.frozenVa c.num) = false →
    (pages ≠ [] → s.fetchBoundary id c tm gr = s.startWalks c (tm.coreOf id.2) id pages) ∧
    (pages = [] → s.fetchBoundary id c tm gr =
      ((s1.coreFills c (tm.coreOf id.2) id vas).updGrp id fun x => { x with clause := ws }).stepTrace id) := by
  intro vas pages hv
  have hno : ¬ vas.any (s.frozenVa c.num) = true := ne_true_of_eq_false hv
  rw [State.fetchBoundary, hf]
  dsimp only
  rw [if_neg hno]
  change (_ → (match pages with | [] => _ | l => _) = _) ∧ (_ → (match pages with | [] => _ | l => _) = _)
  cases pages with
  | nil => exact ⟨fun h => absurd rfl h, fun _ => rfl⟩
  | cons p ps => exact ⟨fun _ => rfl, fun h => (List.cons_ne_nil _ _ h).elim⟩

end

end Sys2Proof.Machine
end

section
/-! The other events of groups: values, acknowledgements, failures, stalls, waits and calls. -/

namespace Sys2Proof.Machine

/-! ### One group changes -/

/-- The group `id` stands as g in u; every other group, memory and the contexts are as in s. -/
def State.regroups (s u : State) (id : Nat × Nat) (g : Group) : Prop :=
  u.grp? id = some g ∧ (∀ k, k ≠ id → u.grp? k = s.grp? k) ∧ u.mem = s.mem ∧ u.ctxs = s.ctxs

section
variable {s u v : State} {id : Nat × Nat} {g g' : Group}

theorem State.regroups_updGrp (hg : s.grp? id = some g) (f : Group → Group) : s.regroups (s.updGrp id f) id (f g) :=
  ⟨State.grp?_updGrp_self f hg, fun _ hk => State.grp?_updGrp_other f hk, rfl, rfl⟩

theorem State.regroups.trans (h : s.regroups u id g) (h' : u.regroups v id g') : s.regroups v id g' := by
  obtain ⟨-, ho, hm, hc⟩ := h
  obtain ⟨hg', ho', hm', hc'⟩ := h'
  exact ⟨hg', fun k hk => (ho' k hk).trans (ho k hk), hm'.trans hm, hc'.trans hc⟩

/-- What is neither a group, memory nor a context may change besides. -/
theorem State.regroups_of_eq (hg : s.grp? id = some g) (ht : u.teams = s.teams) (hm : u.mem = s.mem) (hc : u.ctxs = s.ctxs) : s.regroups u id g := by
  have hk : ∀ k, u.grp? k = s.grp? k := fun k => by rw [State.grp?, State.team?, ht, State.grp?, State.team?]
  exact ⟨(hk id).trans hg, fun k _ => hk k, hm, hc⟩

theorem groupEvent_of {i : Instr} (hx : exec i s = .next u) (h : s.regroups u id g) : groupEvent i s id g := ⟨u, hx, h⟩

end

/-! ### Values and acknowledgements -/

@[simp] theorem Group.fill_resv (g : Group) (r : Resv) : (g.fill r).resv = g.resv := by obtain ⟨_, _, h⟩ := g.fill_form r; rw [h]

theorem arrival_event {s : State} {t g r : Nat} {gr : Group} {x : Resv} (hg : s.grp? (t, g) = some gr) (hr : gr.resv[r]? = some x) (hd : x.due = true) :
    groupEvent (.longLatencyArrival t g r) s (t, g) { gr.fill x with
      resv := (gr.resv.modify r fun y => { y with arrived := true }).filter fun y => !(y.arrived && y.rem == 0) } := by
  have ha : gr.arrival r = { gr.fill x with
      resv := (gr.resv.modify r fun y => { y with arrived := true }).filter fun y => !(y.arrived && y.rem == 0) } := by
    rw [Group.arrival, hr]
    dsimp only
    rw [if_neg (by rw [hd]; decide), Group.fill_resv]
  exact groupEvent_of rfl (ha ▸ State.regroups_updGrp hg fun x => x.arrival r)

theorem State.regroups_storeDone {s : State} {id : Nat × Nat} {g : Group} (hg : s.grp? id = some g) (f : Group → Group) :
    s.regroups (s.storeDone id f) id (f g) :=
  (State.regroups_updGrp hg f).trans (State.regroups_of_eq (State.grp?_updGrp_self f hg) rfl rfl rfl)

/-- An acknowledgement keeps what is in flight but for one, which is at a slice where one is. -/
theorem lateAcked_keeps (n : Nat) (ls : List Late) :
    (∀ l ∈ lateAcked n ls, l ∈ ls) ∧ (1 < n → (∃ l ∈ ls, l.far = false) → ∀ l ∈ ls, l.far = true → l ∈ lateAcked n ls) := by
  unfold lateAcked
  constructor
  · intro l hl
    split at hl
    · cases hl
    split at hl
    · exact hl
    split at hl
    · exact List.mem_of_mem_eraseIdx hl
    · exact List.mem_of_mem_drop hl
  · rintro h1 ⟨l0, hl0, hfar⟩ l hl hlf
    rw [if_neg (by omega)]
    split
    · exact hl
    split
    next i hi =>
      obtain ⟨hlt, hnear, -⟩ := List.findIdx?_eq_some_iff_getElem.mp hi
      obtain ⟨j, hj, rfl⟩ := List.mem_iff_getElem.mp hl
      refine List.mem_eraseIdx_iff_getElem.mpr ⟨j, hj, fun h => ?_, rfl⟩
      subst h
      rw [hlf] at hnear
      cases hnear
    next hnone =>
      have := List.findIdx?_eq_none_iff.mp hnone l0 hl0
      rw [hfar] at this
      cases this

/-! ### Accesses that fail -/

theorem filter_zipIdx_all {α : Type} (l : List α) : ((l.zipIdx.filter fun p => !([] : List Nat).contains p.2).map Prod.fst) = l := by
  have h : (l.zipIdx.filter fun p => !([] : List Nat).contains p.2) = l.zipIdx := List.filter_eq_self.mpr fun _ _ => rfl
  rw [h]
  exact List.zipIdx_map_fst 0 l

theorem State.takeBack_none (s : State) (ls : List Late) : s.takeBack ls [] = (s, ls) := by
  have hgone : ((ls.zipIdx.filter fun p => p.1.far).filter fun p => ([] : List Nat).contains p.2) = [] :=
    List.filter_eq_nil_iff.mpr fun _ _ => by simp
  rw [State.takeBack]
  dsimp only
  rw [hgone]
  refine Prod.ext rfl ?_
  refine Eq.trans (List.map_congr_left fun p _ => if_neg (by simp)) (filter_zipIdx_all ls)

section
variable {s : State} {t g code addr detail : Nat} {lanes pc : W64} {gr : Group}

/-- A failure of an access that is out is noted in the group. -/
theorem deferred_eq (hg : s.grp? (t, g) = some gr) (hc : code ∈ deferCodes) (hu : code ≠ 0x0061)
    (hout : (gr.resv.any fun r => r.load && r.due) = true ∨ gr.pendingStores ≠ 0) :
    exec (.deferredAccessFault t g code addr detail lanes pc) s = .next ((s.failAccess (t, g) code addr lanes pc).updGrp (t, g) fun x =>
      x.defer { code := code, addr := addr, detail := detail, lanes := lanes } pc) := by
  obtain ⟨tm, ht, -⟩ := Option.bind_eq_some_iff.mp hg
  have hno : ¬ (!deferCodes.contains code || (!(gr.resv.any fun r => r.load && r.due) && gr.pendingStores == 0)) = true := by
    have : deferCodes.contains code = true := by simpa using hc
    rw [this]
    rcases hout with h | h <;> simp [h]
  show execDeferredAccessFault t g code addr detail lanes pc s = _
  rw [execDeferredAccessFault, show s.team? t = some tm from ht, hg]
  dsimp only
  rw [if_neg hno, if_neg (show ¬ code = cUncorrectable from hu)]

theorem failAccess_load (hg : s.grp? (t, g) = some gr) {i : Nat} {r : Resv} (hr : gr.resv[i]? = some r) (hl : r.load = true) (hd : r.due = true)
    (hfirst : ∀ y ∈ gr.resv.take i, (y.load && y.due) = false) : s.failAccess (t, g) code addr lanes pc =
      s.updGrp (t, g) fun x => { x with resv := x.resv.take i ++ (x.resv[i]?.bind fun r => r.drop lanes).toList ++ x.resv.drop (i + 1) } := by
  obtain ⟨hi, hri⟩ := List.getElem?_eq_some_iff.mp hr
  have hidx : gr.resv.findIdx? (fun r => r.load && r.due) = some i := by
    refine List.findIdx?_eq_some_iff_getElem.mpr ⟨hi, by rw [hri, hl, hd]; rfl, fun j hj => ?_⟩
    have hj' : j < (gr.resv.take i).length := by rw [List.length_take]; omega
    have hm := List.getElem_mem hj'
    rw [List.getElem_take] at hm
    rw [hfirst _ hm]
    decide
  rw [State.failAccess, hg]
  dsimp only
  rw [hidx]

/-- What fails of the stores in flight, and what stays there. -/
def State.failStores (s : State) (gr : Group) (code addr : Nat) (lanes pc : W64) : State × List Late :=
  let ix := lateMet gr.late addr lanes pc
  if code = cLinkDown then s.takeBack gr.late ix else (s, (gr.late.zipIdx.filter fun p => !ix.contains p.2).map Prod.fst)

theorem failAccess_store (hg : s.grp? (t, g) = some gr) (hno : ∀ y ∈ gr.resv, (y.load && y.due) = false)
    (hone : (lateMet gr.late addr lanes pc).length ≤ 1) : s.failAccess (t, g) code addr lanes pc =
      ((s.failStores gr code addr lanes pc).1.storeDone (t, g) fun x => { x with pendingStores := x.pendingStores - 1 }).updGrp (t, g)
        fun x => { x with late := (s.failStores gr code addr lanes pc).2 } := by
  have hidx : gr.resv.findIdx? (fun r => r.load && r.due) = none := List.findIdx?_eq_none_iff.mpr hno
  rw [State.failAccess, hg]
  dsimp only
  rw [hidx]
  dsimp only
  rw [show max 1 (lateMet gr.late addr lanes pc).length = 1 by omega]
  rfl

theorem deferred_load (hg : s.grp? (t, g) = some gr) (hc : code ∈ deferCodes) (hu : code ≠ 0x0061) {i : Nat} {r : Resv}
    (hr : gr.resv[i]? = some r) (hl : r.load = true) (hd : r.due = true) (hfirst : ∀ y ∈ gr.resv.take i, (y.load && y.due) = false) :
    groupEvent (.deferredAccessFault t g code addr detail lanes pc) s (t, g)
      { gr with resv := gr.resv.take i ++ (r.drop lanes).toList ++ gr.resv.drop (i + 1)
                deferred := gr.deferred ++ [({ code := code, addr := addr, detail := detail, lanes := lanes }, pc)] } := by
  have hany : (gr.resv.any fun r => r.load && r.due) = true :=
    List.any_eq_true.mpr ⟨r, List.mem_of_getElem? hr, by rw [hl, hd]; rfl⟩
  refine groupEvent_of (deferred_eq hg hc hu (.inl hany)) ?_
  rw [failAccess_load hg hr hl hd hfirst]
  have h1 := State.regroups_updGrp hg fun x => { x with resv := x.resv.take i ++ (x.resv[i]?.bind fun r => r.drop lanes).toList ++ x.resv.drop (i + 1) }
  have h2 := h1.trans (State.regroups_updGrp h1.1 fun x => x.defer { code := code, addr := addr, detail := detail, lanes := lanes } pc)
  rw [hr] at h2
  exact h2

theorem deferred_store (hg : s.grp? (t, g) = some gr) (hc : code ∈ deferCodes) (hu : code ≠ 0x0061) (hno : ∀ y ∈ gr.resv, (y.load && y.due) = false)
    (hp : gr.pendingStores ≠ 0) (hl : lateMet gr.late addr lanes pc = []) :
    groupEvent (.deferredAccessFault t g code addr detail lanes pc) s (t, g)
      { gr with pendingStores := gr.pendingStores - 1
                deferred := gr.deferred ++ [({ code := code, addr := addr, detail := detail, lanes := lanes }, pc)] } := by
  have hstores : s.failStores gr code addr lanes pc = (s, gr.late) := by
    rw [State.failStores, hl, State.takeBack_none, filter_zipIdx_all]
    exact ite_self _
  refine groupEvent_of (deferred_eq hg hc hu (.inr hp)) ?_
  rw [failAccess_store hg hno (by rw [hl]; decide), hstores]
  have h1 := State.regroups_storeDone hg fun x => { x with pendingStores := x.pendingStores - 1 }
  have h2 := h1.trans (State.regroups_updGrp h1.1 fun x => { x with late := gr.late })
  exact h2.trans (State.regroups_updGrp h2.1 fun x => x.defer { code := code, addr := addr, detail := detail, lanes := lanes } pc)

/-- The bytes that the one store in flight has written go back to what they were. -/
theorem State.takeBack_one {l : Late} (hm : s.mem.wf = true) (hf : l.far = true) (hk : l.kind = .put) (hlen : l.old.length = l.new.length)
    (hb : s.mem.bytes l.pa l.new.length = l.new) : s.takeBack [l] [0] = (s.store l.pa l.old, []) := by
  have hw0 := Memory.write_wf l.pa l.old hm
  have hold : (s.mem.write l.pa l.old).bytes l.pa l.new.length = l.old := hlen ▸ Memory.bytes_write hm ..
  have hnew : ((s.mem.write l.pa l.old).write l.pa l.new).bytes l.pa l.new.length = l.new := Memory.bytes_write hw0 ..
  have hagain : l.again l.old = l.new := by rw [Late.again, hk]
  have hback : l.back l.new l.new l.old l.new = l.old := by
    rw [Late.back, if_neg (by rw [hk]; simp)]
    refine List.ext_getElem (by simp [hlen]) fun i h1 h2 => ?_
    simp [List.getD_eq_getElem?_getD, h2]
  rw [State.takeBack]
  simp only [List.zipIdx_cons, List.zipIdx_nil, hf, List.filter_cons, List.filter_nil, if_true, List.contains_cons, beq_self_eq_true, Bool.true_or,
    Bool.not_true, Bool.false_eq_true, if_false, List.map_nil, List.map_cons, List.foldr_cons, List.foldr_nil, lateChain, hold, hagain, hnew, hb,
    List.foldl_cons, List.foldl_nil, hback]

theorem deferred_far_store {l : Late} (hg : s.grp? (t, g) = some gr) (hno : ∀ y ∈ gr.resv, (y.load && y.due) = false)
    (hp : gr.pendingStores ≠ 0) (hl : gr.late = [l]) (hva : l.va = addr) (hlanes : lanes = 0#64) (hc : code = 0x0060) (hf : l.far = true)
    (hk : l.kind = .put) (hlen : l.old.length = l.new.length) (hm : s.memOk) (hb : s.mem.bytes l.pa l.new.length = l.new) :
    ∃ u, exec (.deferredAccessFault t g code addr detail lanes pc) s = .next u ∧ u.mem.bytes l.pa l.new.length = l.old ∧
      (∀ a, a < l.pa ∨ l.pa + l.new.length ≤ a → u.mem.get a = s.mem.get a) ∧
      u.grp? (t, g) = some { gr with pendingStores := gr.pendingStores - 1, late := [], deferred := gr.deferred ++
        [({ code := code, addr := addr, detail := detail, lanes := lanes }, pc)] } := by
  have hm : s.mem.wf = true := hm
  have hmet : lateMet gr.late addr lanes pc = [0] := by rw [hl, lateMet, if_pos hlanes, List.findIdx?_cons, hva, beq_self_eq_true]; rfl
  have hstores : s.failStores gr code addr lanes pc = (s.store l.pa l.old, []) := by
    rw [State.failStores, hmet, hl, State.takeBack_one hm hf hk hlen hb]
    exact if_pos hc
  have hg1 : (s.store l.pa l.old).grp? (t, g) = some gr := by rw [State.grp?, State.team?, State.store_teams]; exact hg
  have hx := deferred_eq (code := code) (addr := addr) (detail := detail) (lanes := lanes) (pc := pc) hg (by rw [hc]; decide) (by rw [hc]; decide)
    (.inr hp)
  rw [failAccess_store hg hno (by rw [hmet]; decide), hstores] at hx
  have h1 := State.regroups_storeDone hg1 fun x => { x with pendingStores := x.pendingStores - 1 }
  have h2 := h1.trans (State.regroups_updGrp h1.1 fun x => { x with late := [] })
  obtain ⟨hgrp, -, hmem, -⟩ := h2.trans (State.regroups_updGrp h2.1 fun x => x.defer { code := code, addr := addr, detail := detail, lanes := lanes } pc)
  refine ⟨_, hx, ?_, fun a ha => ?_, hgrp⟩
  · rw [hmem, State.store_mem, ← hlen]
    exact Memory.bytes_write hm ..
  · rw [hmem, State.store_mem]
    exact Memory.get_write_other hm (by rw [hlen]; exact ha)

end

/-! ### Stalls -/

theorem stall_ends {s : State} {t g : Nat} {gr : Group} (hg : s.grp? (t, g) = some gr) (hw : gr.wait = .stall) (hh : s.handing t g = false) :
    ((∀ z ∈ s.freezes, ¬ (z.team = t ∧ z.grp = g)) → groupEvent (.stallOperationComplete t g) s (t, g) { gr with wait := .none }) ∧
    ∀ z, (s.freezes.find? fun z => z.team == t && z.grp == g) = some z → s.drainedFor z = true →
      exec (.stallOperationComplete t g) s = .next ((s.thaw z).updGrp (t, g) fun x => { x with wait := .none }).closeBatches := by
  have hgo : ∀ {u}, (match s.freezes.find? fun z => z.team == t && z.grp == g with
      | none => s.freeWait (t, g)
      | some z => if s.drainedFor z then ((s.thaw z).freeWait (t, g)).closeBatches else s) = u →
      exec (.stallOperationComplete t g) s = .next u := fun hu => by
    show execStallOperationComplete t g s = _
    rw [execStallOperationComplete, hg, ← hu]
    exact congrArg Host.Outcome.next (if_neg (by rw [hw, hh]; simp))
  refine ⟨fun hz => ?_, fun z hz hd => hgo (by rw [hz]; exact if_pos hd)⟩
  have hnone : s.freezes.find? (fun z => z.team == t && z.grp == g) = none := List.find?_eq_none.mpr fun z hm h => hz z hm (by simpa using h)
  exact groupEvent_of (hgo (by rw [hnone]; rfl)) (State.regroups_updGrp hg fun g => { g with wait := .none })

end Sys2Proof.Machine
end

section
/-! Waits that end, calls that enter their queue, and the two timeouts of groups. -/

namespace Sys2Proof.Machine

/-! ### Waits -/

section
variable {s : State} {t g : Nat} {tm : Team} {gr : Group} {c : Ctx} (ht : s.team? t = some tm) (hg : s.grp? (t, g) = some gr)
  (hc : s.ctx? tm.ctx = some c) (hr : c.st = .running)
include ht hg hc hr

theorem release_faults (hd : gr.deferred ≠ []) (ho : gr.outside = true ∨ gr.exited = true ∨ gr.wait = .halted) :
    exec (.groupWaitRelease t g) s = .next (s.takeDeferred (t, g) tm gr) := by
  show execGroupWaitRelease t g s = _
  rw [execGroupWaitRelease, ht, hg]
  refine congrArg Host.Outcome.next ((if_neg (by rw [hc]; simp [hr])).trans (if_pos ?_))
  have hne : gr.deferred.isEmpty = false := by simpa using hd
  rcases ho with h | h | h <;> simp [hne, h]

theorem release_tries (hd : gr.deferred = []) : exec (.groupWaitRelease t g) s = .next (s.tryRelease (t, g)) := by
  show execGroupWaitRelease t g s = _
  rw [execGroupWaitRelease, ht, hg]
  exact congrArg Host.Outcome.next ((if_neg (by rw [hc]; simp [hr])).trans (if_neg (by simp [hd])))

/-- A wait that its condition ends. -/
theorem release_frees (hd : gr.deferred = []) {u : State} {g' : Group} (hx : s.tryRelease (t, g) = u.freeWait (t, g))
    (hu : s.regroups u (t, g) g') : groupEvent (.groupWaitRelease t g) s (t, g) { g' with wait := .none } :=
  groupEvent_of ((release_tries ht hg hc hr hd).trans (congrArg _ hx)) (hu.trans (State.regroups_updGrp hu.1 fun g => { g with wait := .none }))

end

section
variable {s : State} {id : Nat × Nat} {tm : Team} {gr : Group} (ht : s.team? id.1 = some tm) (hg : s.grp? id = some gr)
include ht hg

theorem tryRelease_header (hw : gr.wait = .header) (hh : State.headerMet tm gr = true) (hp : s.pauseLeft = 0) :
    s.tryRelease id = s.stepWait id := by
  rw [State.tryRelease, ht, hg]
  dsimp only
  rw [hw]
  exact if_pos (by rw [hh, hp]; rfl)

theorem tryRelease_batch {all : Bool} {n : Nat} (hw : gr.wait = .batch all n) (ha : ∀ b ∈ gr.outb, all = false ∧ batchUpTo n b = false) :
    s.tryRelease id = (s.meetCopies tm gr).freeWait id := by
  rw [State.tryRelease, ht, hg]
  dsimp only
  rw [hw]
  refine if_neg fun h => ?_
  obtain ⟨b, hb, h⟩ := List.any_eq_true.mp h
  rw [(ha b hb).1, (ha b hb).2] at h
  cases h

theorem tryRelease_barrier {b : Nat} {x : Barrier} (hw : gr.wait = .barrier b) (hb : tm.barriers[b]? = some x)
    (ha : x.arrm.getLsbD gr.idx = false) : s.tryRelease id = (s.meetBarrier tm gr).freeWait id := by
  rw [State.tryRelease, ht, hg]
  dsimp only
  rw [hw]
  exact if_neg (by rw [hb]; simp [ha])

theorem tryRelease_tile {i cond : Nat} {own : W16} (hw : gr.wait = .tile i cond own) (h : tileWait (tm.tileAt gr i) cond own = true) :
    s.tryRelease id = s.freeWait id := by
  rw [State.tryRelease, ht, hg]
  dsimp only
  rw [hw]
  exact if_pos h

theorem tryRelease_monitor {m : Monitor} (hw : gr.wait = .monitor) (hm : gr.monitor = some m) (hf : m.fired = true) :
    s.tryRelease id = ((s.disarm id.1 id.2).updGrp id fun g => { g with monitor := none }).freeWait id := by
  rw [State.tryRelease, ht, hg]
  dsimp only
  rw [hw]
  exact if_neg (by rw [hm]; simp [hf])

theorem tryRelease_sysc {call : OpenCall} (hw : gr.wait = .sysc) (hc : gr.call = some call) (ha : call.answered = true)
    (hn : ∀ p ∈ s.calls, ¬ (p.team = id.1 ∧ p.grp = id.2)) : s.tryRelease id = (s.updGrp id fun g => { g with call := none }).freeWait id := by
  have hno : (s.calls.any fun p => p.team == id.1 && p.grp == id.2) = false := List.any_eq_false.mpr fun p hp h => hn p hp (by simpa using h)
  rw [State.tryRelease, ht, hg]
  dsimp only
  rw [hw]
  exact if_pos (by rw [hno, hc]; simp [ha])

theorem tryRelease_room (hw : gr.wait = .room) : s.tryRelease id = s.freeWait id := by
  rw [State.tryRelease, ht, hg]
  dsimp only
  rw [hw]

theorem tryRelease_frozen (hw : gr.wait = .frozen) (hf : s.frozenCtx tm.ctx = false) : s.tryRelease id = s.freeWait id := by
  rw [State.tryRelease, ht, hg]
  dsimp only
  rw [hw]
  exact if_neg (ne_true_of_eq_false hf)

end

/-- What a group has met of its copies is written in the group alone. -/
theorem State.regroups_meetCopies {s : State} {id : Nat × Nat} {tm : Team} {gr : Group} (ht : s.team? id.1 = some tm) (hg : s.grp? id = some gr)
    (hi : gr.idx = id.2) :
    s.regroups (s.meetCopies tm gr) id { gr with wrote := if gr.outb = [] ∧ gr.unsealed = [] then [] else gr.wrote } := by
  have hid : (tm.id, gr.idx) = id := Prod.ext (State.team?_id ht) hi
  rw [State.meetCopies, hid]
  have hdrop : ∀ p, s.regroups (s.l1Drop p) id gr := fun _ => State.regroups_of_eq hg rfl rfl rfl
  have h := (hdrop fun l => gr.wrote.contains l.line && l.home == l1Home tm.kd.fusel1 (tm.coreOf gr.idx) (128 * l.line)).trans
    (State.regroups_updGrp (s := s.l1Drop _) hg fun g => if g.outb.isEmpty && g.unsealed.isEmpty then { g with wrote := [] } else g)
  have hw : (if gr.outb.isEmpty && gr.unsealed.isEmpty then { gr with wrote := [] } else gr) =
      { gr with wrote := if gr.outb = [] ∧ gr.unsealed = [] then [] else gr.wrote } := by
    simp only [Bool.and_eq_true, List.isEmpty_iff]
    split <;> rfl
  exact hw ▸ h

theorem releases {s : State} {t g : Nat} {tm : Team} {gr : Group} {c : Ctx} (ht : s.team? t = some tm) (hg : s.grp? (t, g) = some gr)
    (hc : s.ctx? tm.ctx = some c) (hr : c.st = .running) (hi : gr.idx = g) (hd : gr.deferred = []) :
    let frees := groupEvent (.groupWaitRelease t g) s (t, g)
    (gr.wait = .header → State.headerMet tm gr = true → s.pauseLeft = 0 → exec (.groupWaitRelease t g) s = .next (s.stepWait (t, g))) ∧
    (∀ all n, gr.wait = .batch all n → (∀ b ∈ gr.outb, all = false ∧ batchUpTo n b = false) →
      frees { gr with wait := .none, wrote := if gr.outb = [] ∧ gr.unsealed = [] then [] else gr.wrote }) ∧
    (∀ b x, gr.wait = .barrier b → tm.barriers[b]? = some x → x.arrm.getLsbD g = false → frees { gr with wait := .none }) ∧
    (∀ i cond own, gr.wait = .tile i cond own → tileWait (tm.tileAt gr i) cond own = true → frees { gr with wait := .none }) ∧
    (∀ m, gr.wait = .monitor → gr.monitor = some m → m.fired = true → frees { gr with wait := .none, monitor := none }) ∧
    (∀ call, gr.wait = .sysc → gr.call = some call → call.answered = true → (∀ p ∈ s.calls, ¬ (p.team = t ∧ p.grp = g)) →
      frees { gr with wait := .none, call := none }) ∧
    (gr.wait = .room → frees { gr with wait := .none }) ∧
    (gr.wait = .frozen → s.frozenCtx tm.ctx = false → frees { gr with wait := .none }) := by
  intro frees
  have hsame : s.regroups s (t, g) gr := State.regroups_of_eq hg rfl rfl rfl
  have hend := fun {u : State} {g' : Group} => release_frees (u := u) (g' := g') ht hg hc hr hd
  have ht' : s.team? (t, g).1 = some tm := ht
  refine ⟨fun hw hh hp => ?_, fun all n hw ha => ?_, fun b x hw hb ha => ?_, fun i cond own hw h => ?_, fun m hw hm hf => ?_,
    fun call hw hcall ha hn => ?_, fun hw => ?_, fun hw hz => ?_⟩
  · exact (release_tries ht hg hc hr hd).trans (congrArg _ (tryRelease_header ht' hg hw hh hp))
  · exact hend (tryRelease_batch ht' hg hw ha) (State.regroups_meetCopies ht' hg hi)
  · exact hend (tryRelease_barrier ht' hg hw hb (hi ▸ ha)) (State.regroups_of_eq hg rfl rfl rfl)
  · exact hend (tryRelease_tile ht' hg hw h) hsame
  · exact hend (tryRelease_monitor ht' hg hw hm hf) ((State.regroups_of_eq (u := s.disarm t g) hg rfl rfl rfl).trans
      (State.regroups_updGrp (s := s.disarm t g) hg fun g => { g with monitor := none }))
  · exact hend (tryRelease_sysc ht' hg hw hcall ha hn) (State.regroups_updGrp hg fun g => { g with call := none })
  · exact hend (tryRelease_room ht' hg hw) hsame
  · exact hend (tryRelease_frozen ht' hg hw hz) hsame

/-! ### Calls that enter their queue -/

theorem State.grp?_updGrp_map (s : State) (id : Nat × Nat) (f : Group → Group) : (s.updGrp id f).grp? id = (s.grp? id).map f := by
  cases h : s.grp? id with
  | some g => exact State.grp?_updGrp_self f h
  | none =>
    rw [State.grp?, State.updGrp, State.team?_updTeam s id.1 (fun t => t.updGrp id.2 f) (fun _ => rfl)]
    rw [State.grp?] at h
    cases ht : s.team? id.1 with
    | none => rfl
    | some t =>
      rw [ht] at h
      have h : t.groups[id.2]? = none := h
      dsimp only [Option.map_some, Option.bind_some]
      split
      · simp [Team.updGrp, h]
      · exact h

theorem syscEnters {s : State} {t g pa slot : Nat} {p : PendCall} {c z : Ctx} {h : QHdr}
    (hp : (s.calls.find? fun p => p.team == t && p.grp == g) = some p) (hc : s.ctx? p.ctx = some c) (hz : s.frozenCtx 0 = false)
    (hq : ({ s with calls := s.calls.erase p } : State).openSvcq c = .ok (z, pa, h)) (hroom : h.count ≠ h.cap)
    (hslot : s.queuePa z (h.base + 64 * (h.tail % h.cap)) 64 = .ok slot) (hw : ∀ w ∈ s.waiters, w.hdr ≠ pa) (hlen : p.item.length = 64) (hm : s.memOk)
    (hap : slot + 64 ≤ pa + 24 ∨ pa + 32 ≤ slot) :
    ∃ u, exec (.syscEnqueue t g) s = .next u ∧ u.calls = s.calls.erase p ∧ u.mem.bytes slot 64 = p.item ∧
      u.mem.rd (pa + 24) 8 = (h.tail + 1) % 2 ^ 64 ∧ u.grp? (t, g) = (s.grp? (t, g)).map (fun g => { g with late := [] }) ∧
      ∀ k, k ≠ (t, g) → u.grp? k = s.grp? k := by
  have hm : s.mem.wf = true := hm
  obtain ⟨hpt, hpg⟩ : p.team = t ∧ p.grp = g := by simpa using List.find?_some hp
  let s0 : State := { s with calls := s.calls.erase p }
  have htaker : s0.taker pa h = none := by
    rw [State.taker]
    split
    · exact List.find?_eq_none.mpr fun w hwm h => hw w hwm (by simpa using h)
    · rfl
  -- the item in its ring
  obtain ⟨u, henq, hcalls, hteams, hmem⟩ : ∃ u, s0.enqueue z pa h p.item = .ok (some h.tail, u) ∧ u.calls = s0.calls ∧ u.teams = s0.teams ∧
      u.mem = (s.mem.write slot p.item).wr (pa + 24) 8 ((h.tail + 1) % 2 ^ 64) := by
    refine ⟨_, State.enqueue_ring (s := s0) hroom hslot htaker, ?_⟩
    obtain ⟨sch, hsch⟩ := State.noteTask_form (s0.ringIn pa slot h p.item) z (h.item h.tail) p.item
    have hring : (s0.ringIn pa slot h p.item).calls = s0.calls ∧ (s0.ringIn pa slot h p.item).teams = s0.teams ∧
        (s0.ringIn pa slot h p.item).mem = (s.mem.write slot p.item).wr (pa + 24) 8 ((h.tail + 1) % 2 ^ 64) := by
      refine ⟨?_, ?_, rfl⟩ <;> simp [State.ringIn]
    split
    · rw [hsch]
      exact hring
    · exact hring
  -- what the group's core sees of it
  obtain ⟨l, henq'⟩ : ∃ l, s0.enqueueFor (p.team, p.grp) (z, pa, h) p.item = .ok (some h.tail, ({ u with l1 := l }).updGrp (t, g) Group.perform) := by
    rw [hpt, hpg]
    cases hteam : s0.team? t with
    | none => exact ⟨u.l1, bind_ok hslot (bind_ok henq (by simp only [hteam]; rfl))⟩
    | some tm =>
      obtain ⟨l, hl⟩ := State.ringTouch_form (s := u) tm (tm.coreOf g) slot pa (s0.waitSpans pa)
      exact ⟨l, bind_ok hslot (bind_ok henq (by simp only [hteam, hl]; rfl))⟩
  have hx : exec (.syscEnqueue t g) s = .next (({ u with l1 := l }).updGrp (t, g) Group.perform) := by
    show execSyscEnqueue t g s = _
    have hcall : s0.enqueueCall c p = .ok (some h.tail, ({ u with l1 := l }).updGrp (t, g) Group.perform) := bind_ok hq henq'
    rw [execSyscEnqueue, hp]
    dsimp only
    rw [hc]
    dsimp only
    rw [if_neg (ne_true_of_eq_false hz), show ({ s with calls := s.calls.erase p } : State).enqueueCall c p = _ from hcall]
  have hgrp : ∀ k, ({ u with l1 := l } : State).grp? k = s.grp? k := fun k => by
    show (u.grp? k) = _
    rw [State.grp?, State.team?, hteams, State.grp?, State.team?]
  have hm1 := Memory.write_wf slot p.item hm
  refine ⟨_, hx, hcalls, ?_, ?_, ?_, fun k hk => ?_⟩
  · show u.mem.bytes slot 64 = _
    rw [hmem, Memory.bytes_wr_other hm1 (by omega), ← hlen, Memory.bytes_write hm]
  · show u.mem.rd (pa + 24) 8 = _
    rw [hmem]
    exact (Memory.rd_wr hm1 _ _ _).trans (Nat.mod_eq_of_lt (Nat.mod_lt _ (by norm_num)))
  · rw [State.grp?_updGrp_map, hgrp]
    rfl
  · rw [State.grp?_updGrp_other _ hk, hgrp]

/-! ### Timeouts -/

theorem State.emitHub_filter (s : State) (die unit code tag : Nat) (payload : W32) (n : Nat) :
    (s.emitHub die unit code tag payload).filter n = s.filter n := by
  unfold State.emitHub
  split
  · rfl
  · show ((s.echo.toHub _ _).filters.find? _).getD _ = _
    unfold EchoSt.toHub
    split <;> rfl

theorem State.record_echo (s : State) (ctx : Nat) (bytes : List Byte) : (s.record ctx bytes).echo = s.echo := by
  unfold State.record
  dsimp only
  (repeat' split) <;> simp

theorem State.logFault_filter (s : State) (ctx code detail addr n : Nat) : (s.logFault ctx code detail addr).filter n = s.filter n := by
  rw [State.logFault, State.echoFault]
  refine (State.emitHub_filter ..).trans ?_
  rw [State.filter, State.record_echo, State.filter]

/-- A tag whose filter is made lossy. -/
theorem filter_lossy (s : State) (tag : Nat) : ((s.updEcho fun e =>
    { e with filters := e.filters.map fun x => if x.tag == tag then { x with lossless := false } else x }).filter tag).lossless = false := by
  show (((s.echo.filters.map fun x => if x.tag == tag then { x with lossless := false } else x).find? fun f => f.tag == tag).getD _).lossless = false
  rw [find?_map_key s.echo.filters Filter.tag (fun x => if x.tag == tag then { x with lossless := false } else x) (fun x => by split <;> rfl)]
  cases h : s.echo.filters.find? fun f => f.tag == tag with
  | none => rfl
  | some f =>
    have hf : (f.tag == tag) = true := List.find?_some (p := fun f : Filter => f.tag == tag) h
    simp only [Option.map_some, hf, if_true, Option.getD_some]

theorem losslessTimeout {s : State} {t g since n : Nat} {tm : Team} {gr : Group} (ht : s.team? t = some tm) (hg : s.grp? (t, g) = some gr)
    (hw : gr.wait = .trace since n) (hs : (s.filter tm.ctx).stallmax ≠ 0) (hl : (s.filter tm.ctx).lossless = true) :
    ∃ u, exec (.losslessStallTimeout t g) s = .next u ∧ (u.filter tm.ctx).lossless = false ∧ since + (s.filter tm.ctx).stallmax * 64000 < u.ptp ∧
      ∀ k, u.grp? k = s.grp? k := by
  let s1 := s.pass (since + (s.filter tm.ctx).stallmax * 64000 + 1 - s.ptp)
  let s2 := s1.updEcho fun e => { e with filters := e.filters.map fun x => if x.tag == tm.ctx then { x with lossless := false } else x }
  let s3 := s2.emitHub (chamberOf (coreDie tm.core)) 0x400 0x53 tm.ctx (BitVec.ofNat 32 tm.ctx)
  have hx : exec (.losslessStallTimeout t g) s = .next (s3.logFault tm.ctx cTraceOverflow tm.ctx (s3.sinkOf tm.ctx)) := by
    show execLosslessStallTimeout t g s = _
    rw [execLosslessStallTimeout, ht, hg]
    dsimp only
    rw [hw]
    exact congrArg Host.Outcome.next (if_neg (by rw [hl]; simp [hs]))
  have hcore : (s3.logFault tm.ctx cTraceOverflow tm.ctx (s3.sinkOf tm.ctx)).core = s1.core :=
    (State.logFault_core ..).trans ((State.emitHub_core ..).trans (State.updEcho_core ..))
  refine ⟨_, hx, ?_, ?_, fun k => (State.grp?_of_core hcore k).trans (s.grp?_pass _ k)⟩
  · rw [State.logFault_filter, State.emitHub_filter]
    exact filter_lossy s1 tm.ctx
  · rw [State.ptp_of_core hcore]
    show since + (s.filter tm.ctx).stallmax * 64000 < s.ptp + (since + (s.filter tm.ctx).stallmax * 64000 + 1 - s.ptp)
    omega

theorem lanternRunsOut {s : State} {t b n : Nat} {tm : Team} {x : Barrier} (ht : s.team? t = some tm) (hb : tm.barriers[b]? = some x)
    (hc : x.clock = some n) (hn : n < x.budget) (hh : s.lanternHeld tm = false) :
    let g := tm.timeoutGrp b x
    let pc := ((tm.groups[g]?).map Group.wordPc).getD 0#64
    let detail := b + x.missing * 65536
    exec (.lanternTimeout t b) s = .next (((s.pass (s.pauseLeft + (x.budget - n))).emitCore tm (tm.coreOf g) 0x11 (BitVec.ofNat 32 detail)).takeFault
      (t, g) { code := 0x0022, addr := wrapInt 64 x.txb.toInt, detail := detail } pc pc 0 false) := by
  intro g pc detail
  show execLanternTimeout t b s = _
  rw [execLanternTimeout, ht]
  dsimp only
  rw [hb]
  dsimp only
  rw [hc]
  dsimp only
  rw [if_neg (by rw [hh]; simp), if_pos hn]
  rfl

/-- Settles O53: each event under the conditions of its rules. -/
theorem groupEvents : Obligations.GroupEvents := by
  refine ⟨fun _ _ _ => boundary_issues, ?boundary, fun _ _ _ _ _ _ => arrival_event, ?acked, lateAcked_keeps, ?deferred,
    fun _ _ _ _ => stall_ends, ?release, fun _ _ _ _ _ _ _ _ _ => syscEnters, fun _ _ _ _ _ _ _ => losslessTimeout,
    fun _ _ _ _ _ _ => lanternRunsOut⟩
  case boundary =>
    intro s t g tm gr c hi hb hp ht hg hc hz
    have hx := boundary_eq hi hb hp ht hg hc hz
    refine ⟨fun x s1 hf => ?_, fun ws s1 hf => ?_⟩
    · obtain ⟨h1, h2⟩ := State.fetchBoundary_faults hf
      exact ⟨fun h => hx.trans (congrArg _ (h1 h)), fun h => hx.trans (congrArg _ (h2 h))⟩
    · intro vas x hv
      obtain ⟨h1, h2⟩ := State.fetchBoundary_fetches hf hv
      refine ⟨fun h => hx.trans (congrArg _ (h1 h)), fun h => ⟨hx.trans (congrArg _ (h2 h)), fun hen hd hs => ?_⟩⟩
      have hplain : (s1.coreFills c (tm.coreOf g) (t, g) vas).plain = s.plain :=
        (State.coreFills_plain ..).trans (by have := s.fetchClause_plain (t, g) c tm gr; rwa [hf] at this)
      have hg1 : (s1.coreFills c (tm.coreOf g) (t, g) vas).grp? (t, g) = some gr := by
        obtain ⟨n, hn⟩ := State.team?_of_plain hplain ht
        rw [State.grp?, hn]
        rwa [State.grp?, show s.team? (t, g).1 = some tm from ht] at hg
      obtain ⟨hheld, hbegins⟩ := fetched_goes_on (ws := ws) hplain (id := (t, g)) ht hg1 (State.atBoundary_pos ht hg hb) hen hd hs
      refine ⟨fun hh => ?_, fun hh hr => ?_⟩
      · exact ⟨_, _, hx.trans (congrArg _ (h2 h)), (hheld hh).choose_spec⟩
      · exact ⟨_, _, hx.trans (congrArg _ (h2 h)), (hbegins hh hr).choose_spec⟩
  case acked =>
    intro s t g gr hg _
    exact groupEvent_of rfl (State.regroups_storeDone hg Group.acked)
  case deferred =>
    intro s t g code addr detail lanes pc gr hg hc hu x
    exact ⟨fun i r hr hl hd hfirst => deferred_load hg hc hu hr hl hd hfirst, fun hno hp hl => deferred_store hg hc hu hno hp hl,
      fun l hno hp hl hva hlanes hcode hf hk hlen hm hb => deferred_far_store hg hno hp hl hva hlanes hcode hf hk hlen hm hb⟩
  case release =>
    intro s t g tm gr c ht hg hc hr hi
    exact ⟨fun hd ho => release_faults ht hg hc hr hd ho, fun hd => releases ht hg hc hr hi hd⟩

end Sys2Proof.Machine
end

section
/-! What the records and the ends of teams leave of teams and contexts. -/

namespace Sys2Proof.Machine

/-- A team replaced by one of its number. -/
theorem State.team?_setTeam {s : State} {id : Nat} {t t1 : Team} (ht : s.team? id = some t) (hid : t1.id = id) :
    (s.updTeam id fun _ => t1).team? id = some t1 := by
  have hf : (s.updTeam id fun _ => t1) = s.updTeam id fun x => { t1 with id := x.id } := by
    refine congrArg (fun l => ({ s with teams := l } : State)) (List.map_congr_left fun x _ => ?_)
    by_cases hx : x.id = id
    · rw [if_pos (by simpa using hx), if_pos (by simpa using hx)]
      exact congrArg (fun n => { t1 with id := n }) (hid.trans hx.symm)
    · rw [if_neg (by simpa using hx), if_neg (by simpa using hx)]
  rw [hf, State.team?_updTeam_self (fun x => { t1 with id := x.id }) (fun _ => rfl) ht, State.team?_id ht, ← hid]

section
variable (s : State)

@[simp] theorem State.updIdent_core (id : Nat) (f : Ident → Ident) : (s.updIdent id f).core = s.core := rfl
@[simp] theorem State.acquireTeam_core (t : Team) : (s.acquireTeam t).core = s.core := foldl_keep (f := fun (s : State) c => s.acquire t c 4) (p := State.core) (fun _ _ => rfl) t.cores s
@[simp] theorem State.disarmTeam_core (t : Team) : (s.disarmTeam t).core = s.core := foldl_keep (f := fun (s : State) (g : Group) => s.disarm t.id g.idx) (p := State.core) (fun _ _ => rfl) t.groups s
@[simp] theorem State.emitTeam_core (t : Team) (code phase : Nat) : (s.emitTeam t code phase).core = s.core := State.emitCore_core ..
@[simp] theorem State.fetchRecord_core (t : Team) (grp : Nat) (x : Exc) (pc : W64) (sev scope : Nat) :
    (s.fetchRecord t grp x pc sev scope).core = s.core := (State.echoFault_core ..).trans (State.record_core ..)
@[simp] theorem State.notice_core (ctx va pa : Nat) : (s.notice ctx va pa).core = s.core := (State.emitHub_core ..).trans rfl

@[simp] theorem State.decrementPa_core (ctx va pa k : Nat) : (s.decrementPa ctx va pa k).core = s.core := by
  rw [State.decrementPa]
  dsimp only
  split
  · rfl
  · refine Eq.trans ?_ (s.storeNat_core pa 4 (if s.mem.rd pa 4 < k then 0 else s.mem.rd pa 4 - k))
    generalize s.storeNat pa 4 _ = u
    split <;> split
    · exact (State.notice_core ..).trans (State.logFault_core ..)
    · exact State.logFault_core ..
    · exact State.notice_core ..
    · rfl

@[simp] theorem State.decrement_core (ctx va : Nat) : (s.decrement ctx va).core = s.core := by
  rw [State.decrement]
  split
  · rfl
  · split
    · exact State.decrementPa_core ..
    · exact State.logFault_core ..

@[simp] theorem State.endLaunch_core (t : Team) : (s.endLaunch t).core = s.core := by
  rw [State.endLaunch]
  dsimp only
  split
  · rfl
  · split
    · rfl
    · split
      · rfl
      · exact (State.decrement_core ..).trans rfl

/-- No access of a scheduler reaches the LS of a team: it stands on no core (R213). -/
theorem State.translate_none_phys {c : Ctx} {va n : Nat} {kind : Kind} {engine : Bool} {tg : Target}
    (h : s.translate c none va n kind engine = .ok tg) : ∃ pa packed cmp, tg = .phys pa packed cmp := by
  rw [State.translate] at h
  split at h
  · cases h
  · split at h
    · rw [State.window] at h
      split at h
      · cases h
      · split at h <;> cases h
    · split at h
      · dsimp only at h
        split at h
        · cases h
        · obtain ⟨_, _, h⟩ := of_bind_ok h
          exact ⟨_, _, _, (Except.ok.inj h).symm⟩
      · obtain ⟨_, _, h⟩ := of_bind_ok h
        obtain ⟨_, _, h⟩ := of_bind_ok h
        obtain ⟨_, _, h⟩ := of_bind_ok h
        exact ⟨_, _, _, (Except.ok.inj h).symm⟩

theorem State.spanOf_none_phys {c : Ctx} {kind : Kind} (fuel va n : Nat) {ts : List (Target × Nat)}
    (h : s.spanOf c none kind fuel va n = .ok ts) : ∀ x ∈ ts, ∃ pa packed cmp, x.1 = .phys pa packed cmp := by
  induction fuel generalizing va n ts with
  | zero => cases h; simp
  | succ fuel ih =>
    rw [State.spanOf] at h
    split at h
    · cases h; simp
    · obtain ⟨tg, htg, h⟩ := of_bind_ok h
      split at h
      · cases h
      · obtain ⟨more, hmore, h⟩ := of_bind_ok h
        cases h
        exact List.forall_mem_cons.mpr ⟨s.translate_none_phys htg, ih _ _ hmore⟩

theorem writeParts_core {ts : List (Target × Nat)} (h : ∀ x ∈ ts, ∃ pa packed cmp, x.1 = .phys pa packed cmp) (s : State) (bs : List Byte) :
    (writeParts s ts bs).core = s.core := by
  induction ts generalizing s bs with
  | nil => rfl
  | cons x ts ih =>
    obtain ⟨⟨pa, packed, cmp, hx⟩, hts⟩ := List.forall_mem_cons.mp h
    obtain ⟨tg, n⟩ := x
    subst hx
    exact (ih hts _ _).trans (State.storeAs_core ..)

theorem State.writeRec_core {s u : State} {c : Ctx} {va : Nat} {bs : List Byte} (h : s.writeRec c va bs = .ok u) : u.core = s.core := by
  rw [State.writeRec] at h
  cases hts : s.spanOf c none .write (granules bs.length) va bs.length with
  | error x => rw [hts] at h; cases h
  | ok ts =>
    rw [hts] at h
    cases h
    exact writeParts_core (s.spanOf_none_phys _ _ _ hts) s bs

theorem State.leaveCore_teams (t : Team) : (s.leaveCore t).teams = s.teams.filter fun u => u.id != t.id :=
  congrArg (List.filter _) (State.teams_of_core ((State.loseDest_core _ _ _).trans (s.updIdent_core _ _)))

theorem State.team?_leaveCore (t : Team) (k : Nat) : (s.leaveCore t).team? k = if k = t.id then none else s.team? k := by
  rw [State.team?, State.leaveCore_teams, List.find?_filter]
  split
  next h => exact List.find?_eq_none.mpr fun x _ => by simp [h]
  next h =>
    refine List.find?_congr fun x _ => ?_
    by_cases hx : x.id = k
    · simp [hx, h]
    · simp [hx]

end

end Sys2Proof.Machine
end

section
/-! Phases and successors that settle (R42, R49, R54). -/

namespace Sys2Proof.Machine

section
variable {s : State} {id : Nat} {t : Team} {c : Ctx} (ht : s.team? id = some t) (hc : s.ctx? t.ctx = some c) (hslot : t.slot = .settle)
  (hq : t.quiet = true) (hf : s.frozenCtx c.num = false)
include ht hc hslot hq hf

theorem phaseSettle_ended (hd : s.copiesDone t = true) (hs : t.settle = .ended) : exec (.phaseSettleComplete id) s = .next (s.endTeam t) := by
  show execPhaseSettleComplete id s = _
  rw [execPhaseSettleComplete, ht]
  dsimp only
  rw [hc, hs]
  exact congrArg _ (if_neg (by simp [hslot, hq, hd, hf]))

theorem phaseSettle_phase (hd : s.copiesDone t = true) (hs : t.settle = .phase) : exec (.phaseSettleComplete id) s = .next (s.phaseEnd c t) := by
  show execPhaseSettleComplete id s = _
  rw [execPhaseSettleComplete, ht]
  dsimp only
  rw [hc, hs]
  exact congrArg _ (if_neg (by simp [hslot, hq, hd, hf]))

theorem succSettle_here {kva inh : Nat} {l : Group} {k : KDesc} {m : Maps} {pl : SuccPlan} (hs : t.settle = .succ kva inh)
    (hl : t.groups[t.last]? = some l) (hr : s.succRead c (some (t, t.coreOf l.idx)) kva inh = .ok (k, m)) (hp : s.succPlan t k m = .ok pl)
    (hgo : pl.go = .here) (hw : s.walkPages c (t.coreOf l.idx) (kva :: if 2 ^ 64 ≤ inh then [] else [inh]) = []) :
    exec (.succSettleComplete id) s = .next (s.succEnd c t kva pl) := by
  show execSuccSettleComplete id s = _
  rw [execSuccSettleComplete, ht]
  dsimp only
  rw [hc, hs, hl]
  dsimp only
  rw [hr, Except.bind, hp]
  exact congrArg _ ((if_neg (by simp [hslot, hq, hf])).trans ((if_neg (by simpa using hw)).trans (if_pos (Or.inl hgo))))

end

theorem State.team?_endTeam {s : State} (t : Team) (k : Nat) : (s.endTeam t).team? k = if k = t.id then none else s.team? k := by
  rw [State.endTeam, State.team?_of_core (State.endLaunch_core ..), State.team?_leaveCore, State.team?_of_core (s.emitTeam_core ..)]

/-- The test of NEXTJC with a zero counter, no drain and no relaunch: the team continues in place. -/
theorem State.gate_continues {s : State} {c : Ctx} {t t0 : Team} {p : Nat} {m : Maps} {bs : List Byte} (ht : s.team? t.id = some t0)
    (hr : s.readRec c none (t.frame.toNat + 16) 4 = .ok bs) (hz : leNat bs = 0) (hd : s.dieDraining (coreDie t.core) = false)
    (hk : t.kd.restart = false) :
    (s.gate c t p m false).team? t.id = some { t with
      phase := BitVec.ofNat 32 p, slot := .run, settle := .none, stepTest := false, relaunch := 0
      groups := t.groups.map fun g => { g with wait := .none } } := by
  rw [State.gate, hr]
  dsimp only
  rw [if_pos ⟨hz, by rw [hd]; rfl⟩, if_neg (by simp [hk])]
  refine (State.team?_of_core ((State.emitTeam_core ..).trans ((State.acquireTeam_core ..).trans (State.updIdent_core ..))) _).trans ?_
  exact State.team?_setTeam ht rfl

/-- The state in which the PCODE of a settled phase is written. -/
theorem State.phaseEnd_gate {s s2 : State} {c : Ctx} {t : Team} {m : Maps}
    (hm : s.carryEntry c t.kd (if (t.phase.toNat + 1) % 2 ^ 32 = 0 then 2 ^ 32 else (t.phase.toNat + 1) % 2 ^ 32) = .ok m)
    (hw : ((s.disarmTeam t).updTeam t.id fun _ => { t.scrubPhase m c.seed.toNat ((t.phase.toNat + 1) % 2 ^ 32) with settle := .none }).writePcode c
      { t.scrubPhase m c.seed.toNat ((t.phase.toNat + 1) % 2 ^ 32) with settle := .none }
      ({ t.scrubPhase m c.seed.toNat ((t.phase.toNat + 1) % 2 ^ 32) with settle := .none } : Team).codePtr = .ok s2) (hs : s2.wantSave t = false) :
    s.phaseEnd c t = s2.gate c { t.scrubPhase m c.seed.toNat ((t.phase.toNat + 1) % 2 ^ 32) with settle := .none }
      ((t.phase.toNat + 1) % 2 ^ 32) m false := by
  rw [State.phaseEnd]
  dsimp only
  rw [bind_ok hm (bind_ok hw rfl)]
  exact if_neg (by simp [hs])

/-- A settled `succ` that starts in place, as far as the write of PCODE. -/
theorem State.succEnd_here {s s2 : State} {c : Ctx} {t t1 : Team} {kva : Nat} {pl : SuccPlan} (hgo : pl.go = .here) (hk : pl.k.restart = false)
    (ht1 : { t.scrubSucc pl.k (BitVec.ofNat 64 kva) pl.m c.seed.toNat with settle := .none } = t1)
    (hw : ((((s.disarmTeam t).emitTeam t1 0x04 0).updTeam t.id fun _ => t1).updIdent t.id fun i =>
      { i with maps := some pl.m, starting := ((s.disarmTeam t).emitTeam t1 0x04 0).wantSave t }).writePcode c t1 pl.k.entry = .ok s2) :
    s.succEnd c t kva pl = if s2.wantSave t then s2.updTeam t.id Team.halt else s2.updTeam t.id fun t => { t with slot := .start, load := .succ } := by
  rw [State.succEnd, ht1, hgo]
  dsimp only
  rw [show ((SuccGo.here == SuccGo.park) || ((s.disarmTeam t).emitTeam t1 0x04 0).wantSave t) = ((s.disarmTeam t).emitTeam t1 0x04 0).wantSave t from rfl]
  rw [bind_ok hw (if_neg (by simp [hk]))]
  dsimp only
  rw [if_pos rfl]

/-- The first group of clauses of the statement. -/
theorem teams_settle (s : State) (id : Nat) (t : Team) (c : Ctx) (ht : s.team? id = some t) (hc : s.ctx? t.ctx = some c) (hslot : t.slot = .settle)
    (hq : t.quiet = true) (hf : s.frozenCtx c.num = false) :
    (t.settle = .ended → s.copiesDone t = true →
      ∃ u, exec (.phaseSettleComplete id) s = .next u ∧ u.team? id = none ∧ ∀ k, k ≠ id → u.team? k = s.team? k) ∧
    (t.settle = .phase → s.copiesDone t = true → t.kd.restart = false →
      let p := (t.phase.toNat + 1) % 2 ^ 32
      ∀ m s2 bs, s.carryEntry c t.kd (if p = 0 then 2 ^ 32 else p) = .ok m →
        let t1 : Team := { t.scrubPhase m c.seed.toNat p with settle := .none }
        ((s.disarmTeam t).updTeam id fun _ => t1).writePcode c t1 t1.codePtr = .ok s2 → s2.wantSave t1 = false →
        s2.readRec c none (t.frame.toNat + 16) 4 = .ok bs → leNat bs = 0 → s2.dieDraining (coreDie t.core) = false →
        ∃ u, exec (.phaseSettleComplete id) s = .next u ∧ u.team? id = some { t1 with
          phase := BitVec.ofNat 32 p, slot := .run, settle := .none, stepTest := false, relaunch := 0
          groups := t1.groups.map fun g => { g with wait := .none } }) ∧
    ∀ kva inh l k m pl s2, t.settle = .succ kva inh → t.groups[t.last]? = some l → s.succRead c (some (t, t.coreOf l.idx)) kva inh = .ok (k, m) →
      s.succPlan t k m = .ok pl → pl.go = .here → pl.k.restart = false →
      s.walkPages c (t.coreOf l.idx) (kva :: if 2 ^ 64 ≤ inh then [] else [inh]) = [] →
      let t1 : Team := { t.scrubSucc pl.k (BitVec.ofNat 64 kva) pl.m c.seed.toNat with settle := .none }
      let s0 := (s.disarmTeam t).emitTeam t1 0x04 0
      ((s0.updTeam id fun _ => t1).updIdent id fun i => { i with maps := some pl.m, starting := s0.wantSave t }).writePcode c t1 pl.k.entry = .ok s2 →
      (s2.wantSave t = false → ∃ u, exec (.succSettleComplete id) s = .next u ∧ u.team? id = some { t1 with slot := .start, load := .succ }) ∧
      (s2.wantSave t = true → ∃ u, exec (.succSettleComplete id) s = .next u ∧ u.team? id = some (Team.halt t1)) := by
  have hid : t.id = id := State.team?_id ht
  refine ⟨fun hs hd => ⟨_, phaseSettle_ended ht hc hslot hq hf hd hs, ?_, fun k hk => ?_⟩, ?_, ?_⟩
  · rw [State.team?_endTeam, hid, if_pos rfl]
  · rw [State.team?_endTeam, hid, if_neg hk]
  · intro hs hd hk p m s2 bs hm t1 hw hsave hr hz hdr
    refine ⟨_, phaseSettle_phase ht hc hslot hq hf hd hs, ?_⟩
    rw [State.phaseEnd_gate hm (hid ▸ hw) hsave]
    have ht1 : s2.team? id = some t1 := (State.team?_of_core (State.writeRec_core hw) id).trans
      (State.team?_setTeam ((State.team?_of_core (s.disarmTeam_core t) id).trans ht) hid)
    exact hid ▸ State.gate_continues (t := t1) (hid.symm ▸ ht1) hr hz hdr hk
  · intro kva inh l k m pl s2 hs hl hr hp hgo hk hpages t1 s0 hw
    have hx := succSettle_here ht hc hslot hq hf hs hl hr hp hgo hpages
    have hend := State.succEnd_here (t1 := t1) hgo hk rfl (hid ▸ hw)
    have ht1 : s2.team? id = some t1 := (State.team?_of_core (State.writeRec_core hw) id).trans
      (State.team?_setTeam ((State.team?_of_core ((State.emitTeam_core ..).trans (s.disarmTeam_core t)) id).trans ht) hid)
    refine ⟨fun hsave => ⟨_, hx, ?_⟩, fun hsave => ⟨_, hx, ?_⟩⟩
    · rw [hend, if_neg (by simp [hsave]), hid]
      exact State.team?_updTeam_self (fun t => { t with slot := .start, load := .succ }) (fun _ => rfl) ht1
    · rw [hend, if_pos hsave, hid]
      exact State.team?_updTeam_self Team.halt (fun _ => rfl) ht1

end Sys2Proof.Machine
end

section
/-! Teams that start and park, their tile jobs, and the fault of a matrix fetch (R54, R183, R315, R379). -/

namespace Sys2Proof.Machine

/-! ### A fill -/

theorem State.shapeRead_core {s : State} {c : Ctx} {own : Option (Team × Nat)} {core va : Nat} {late : List Late} {c0 : Int}
    {r : List Byte × State} (h : s.shapeRead c own core late va c0 = .ok r) : r.2.core = s.core := by
  rw [State.shapeRead] at h
  split at h
  case h_2 =>
    split at h
    · cases h
    · obtain ⟨bs, -, h⟩ := of_bind_ok h
      dsimp only at h
      split at h
      · cases h
      · exact (Except.ok.inj h) ▸ rfl
  case h_1 =>
    obtain ⟨bs, -, h⟩ := of_bind_ok h
    dsimp only at h
    split at h
    · cases h
    · exact (Except.ok.inj h) ▸ rfl

theorem State.fillPlan_core {s : State} {c : Ctx} {own : Option (Team × Nat)} {core rcp : Nat} {late : List Late} {r : FillPlan × State}
    (h : s.fillPlan c own core late rcp = .ok r) : r.2.core = s.core := by
  rw [State.fillPlan] at h
  obtain ⟨bs, -, h⟩ := of_bind_ok h
  obtain ⟨rd, hrd, h⟩ := of_bind_ok h
  split at h
  · cases h
  · obtain ⟨conv, -, h⟩ := of_bind_ok h
    have hfin : r = ({ box := rd.1, conv := conv, org := fillOrigin bs }, rd.2) := by
      split at h
      · split at h
        · cases h
        · exact (Except.ok.inj h).symm
      · exact (Except.ok.inj h).symm
    rw [hfin]
    exact State.shapeRead_core hrd

theorem State.payUnit_core {s u : State} {t : Team} {die n addr : Nat} {conv : Bool} (h : s.payUnit t die conv n addr = .ok u) : u.core = s.core := by
  have hone : ∀ {s u : State} {act : Nat}, (match s.charge t.tenant t.bcls act (chamberOf die) n with
      | (.ok, s1) => Except.ok s1
      | (.soft, _) => .error none
      | (.hard, _) => .error (some ({ code := cBudgetViolation, addr := addr, detail := act } : Exc))) = .ok u → u.core = s.core := by
    intro s u act h
    split at h
    next s1 hs1 =>
      cases h
      rw [show u = (s.charge t.tenant t.bcls act (chamberOf die) n).2 from (congrArg Prod.snd hs1).symm]
      exact State.charge_core ..
    next => cases h
    next => cases h
  rw [State.payUnit] at h
  obtain ⟨s1, h1, h⟩ := of_bind_ok h
  split at h
  · exact (hone h).trans (hone h1)
  · cases h
    exact hone h1

theorem State.payFill_core {t : Team} {die : Nat} {conv : Bool} (l : List (Nat × Nat)) {s u : State} {paid : Nat}
    (h : s.payFill t die conv paid l = .done u) : u.core = s.core := by
  induction l generalizing s paid with
  | nil => cases h; rfl
  | cons x l ih =>
    rw [State.payFill] at h
    split at h
    next s1 hs1 => exact (ih h).trans (State.payUnit_core hs1)
    next => cases h
    next => cases h

/-- A finished fill has brought its image into LS and made its tile READY. -/
theorem State.runFill_done {s u : State} {c : Ctx} {t : Team} {j : TileJob} (h : s.runFill c t j = .done u) :
    ∃ (s0 s1 : State) (vas : List Nat) (base : Nat) (sw : Bool) (img : List (Byte × Bool)), s0.core = s.core ∧
      s1.core = (s0.coreFills c (t.core + if j.upper then 1 else 0) (t.id, j.grp) vas).core ∧
      u = (s1.putImage t.id (if j.upper then 1 else 0) base sw img).updTile t.id (if j.upper then 1 else 0) j.tile fun x => { x with st := .ready } := by
  rw [State.runFill] at h
  dsimp only at h
  split at h
  next => cases h
  next p s0 us img hread =>
    obtain ⟨pl, hpl, hread⟩ := of_bind_ok hread
    obtain ⟨us', -, hread⟩ := of_bind_ok hread
    obtain ⟨img', -, hread⟩ := of_bind_ok hread
    have hs0 : s0.core = s.core := by
      have hpair := Prod.mk.inj (Prod.mk.inj (Except.ok.inj hread)).2
      exact hpair.1 ▸ State.fillPlan_core hpl
    split at h
    · cases h
    · split at h
      next s1 hpay =>
        cases h
        have hcount : ∀ (p : Prop) [Decidable p] (d sat nar : Nat), (if p then s1 else s1.countAt d 0x200 sat nar).core = s1.core := by
          intro p _ d sat nar
          split <;> rfl
        exact ⟨s0, _, _, _, _, img, hs0, (hcount _ _ _ _).trans (State.payFill_core _ hpay), rfl⟩
      next hno => exact absurd h (hno u)

end Sys2Proof.Machine
end

section
/-! Teams that start and park, their tile jobs, and the fault of a matrix fetch (R54, R183, R315, R379). -/

namespace Sys2Proof.Machine

section
variable {s : State} {id : Nat} {t : Team} {c : Ctx} (ht : s.team? id = some t) (hc : s.ctx? t.ctx = some c) (hslot : t.slot = .start)
  (hf : s.frozenCtx c.num = false)
include ht hc hslot hf

theorem teamStart_succ (hl : t.load = .succ) :
    exec (.teamStartLoaded id) s = .next ((s.updTeam id fun t => { t with slot := .run, load := .none }).acquireTeam t) := by
  show execTeamStartLoaded id s = _
  rw [execTeamStartLoaded, ht]
  dsimp only
  rw [hc, hl]
  exact congrArg _ (if_neg (by simp [hslot, hf]))

theorem teamStart_image {off : Nat} {single : Bool} (hl : t.load = .image off single) :
    exec (.teamStartLoaded id) s = .next (s.loadImage c t off single) := by
  show execTeamStartLoaded id s = _
  rw [execTeamStartLoaded, ht]
  dsimp only
  rw [hc, hl]
  exact congrArg _ (if_neg (by simp [hslot, hf]))

theorem teamStart_fresh {header : Bool} {u : State} (hl : t.load = .fresh header)
    (hw : (if header then s.writeRec c t.frame.toNat t.frameHeader else s.writePcode c t t.kd.entry) = .ok u) :
    exec (.teamStartLoaded id) s = .next (((u.updTeam id fun _ => { t with slot := .run, load := .none }).acquireTeam
      { t with slot := .run, load := .none }).emitTeam { t with slot := .run, load := .none } 0x01 t.phase.toNat) := by
  show execTeamStartLoaded id s = _
  rw [execTeamStartLoaded, ht]
  dsimp only
  rw [hc, hl]
  dsimp only
  rw [hw]
  exact congrArg _ (if_neg (by simp [hslot, hf]))

theorem teamStart_task {code : W64} {phase : W32} {maps : Option Maps} {t1 : Team} (hl : t.load = .task code phase maps)
    (h1 : s.loadTask c t code phase maps = .ok t1) :
    exec (.teamStartLoaded id) s = .next ((((s.updIdent id fun i => { i with starting := false }).updTeam id fun _ => t1).acquireTeam t1).emitTeam
      t1 0x01 t1.phase.toNat) := by
  show execTeamStartLoaded id s = _
  rw [execTeamStartLoaded, ht]
  dsimp only
  rw [hc, hl]
  dsimp only
  rw [h1]
  exact congrArg _ (if_neg (by simp [hslot, hf]))

end

theorem taskSpill_leaves {s u : State} {id pa : Nat} {t : Team} {c : Ctx} {l : Leave} {h : QHdr} {num : Option Nat} (ht : s.team? id = some t)
    (hc : s.ctx? t.ctx = some c) (hslot : t.slot = .spill) (hl : t.leave = some l) (hr : c.st = .running) (hf : s.frozenCtx c.num = false)
    (ho : s.openOwn c t.tq.toNat [2] = .ok (pa, h)) (hroom : h.count ≠ h.cap) (hm : l.maps = none)
    (he : s.enqueue c pa h (t.taskItem l) = .ok (num, u)) : exec (.taskSpillEnqueue id) s = .next (u.leaveCore t) := by
  show execTaskSpillEnqueue id s = _
  rw [execTaskSpillEnqueue, ht]
  dsimp only
  rw [hl, hc]
  dsimp only
  rw [show s.openOwn c t.tq.toNat [kTask] = .ok (pa, h) from ho]
  dsimp only
  rw [hm]
  refine congrArg _ ((if_neg (by simp [hslot, hr, hf])).trans ((if_neg hroom).trans ?_))
  rw [show (Except.ok s >>= fun s1 : State => s1.enqueue c pa h (t.taskItem l) >>= fun r => pure r.2) = .ok u from bind_ok rfl (bind_ok he rfl)]
  exact congrArg (fun x : State => x.leaveCore t) (if_neg Bool.false_ne_true)

/-! ### Tile jobs -/

/-- A tile that the team has, after a change of its entry. -/
theorem Team.updTile_get {t : Team} {half i : Nat} {e : Tile} (f : Tile → Tile) (he : (t.tiles.getD half [])[i]? = some e) :
    ((t.updTile half i f).tiles.getD half []).getD i Tile.reset = f e := by
  cases hts : t.tiles[half]? with
  | none => simp [List.getD_eq_getElem?_getD, hts] at he
  | some ts =>
    have hi : ts[i]? = some e := by simpa [List.getD_eq_getElem?_getD, hts] using he
    simp [Team.updTile, List.getD_eq_getElem?_getD, hts, hi]

/-- The image of a fill, put into an LS. -/
def putBytes (base : Nat) (sw : Bool) (img : List (Byte × Bool)) (m : Memory) : Memory :=
  img.zipIdx.foldl (fun m x => Memory.set m (base + fillPlace sw x.2 x.1.2) x.1.1) m

theorem State.runFill_ready {s u : State} {c : Ctx} {t j : Nat} {tm : Team} {job : TileJob} {e : Tile} (ht : s.team? t = some tm)
    (h : s.runFill c tm job = .done u) (he : (tm.tiles.getD (if job.upper then 1 else 0) [])[job.tile]? = some e) :
    ((u.dropJob t j).team? t).map (fun x => ((x.tiles.getD (if job.upper then 1 else 0) []).getD job.tile Tile.reset).st) = some .ready := by
  have hid : tm.id = t := State.team?_id ht
  obtain ⟨s0, s1, vas, base, sw, img, hs0, hs1, rfl⟩ := State.runFill_done h
  have ht0 : s0.team? t = some tm := (State.team?_of_core hs0 t).trans ht
  obtain ⟨n, hn⟩ := State.team?_of_plain (s0.coreFills_plain c (tm.core + if job.upper then 1 else 0) (tm.id, job.grp) vas) ht0
  have ht1 : s1.team? t = some { tm with counts := n } := (State.team?_of_core hs1 t).trans hn
  rw [hid]
  have hput := State.team?_updTeam_self (fun x : Team => { x with ls := x.ls.modify (if job.upper then 1 else 0) (putBytes base sw img) })
    (fun _ => rfl) ht1
  have htile := State.team?_updTeam_self (fun x => x.updTile (if job.upper then 1 else 0) job.tile fun x => { x with st := .ready })
    (fun _ => rfl) hput
  have hdrop := State.team?_updTeam_self (fun x => { x with jobs := x.jobs.eraseIdx j }) (fun _ => rfl) htile
  refine (congrArg (Option.map _) hdrop).trans (congrArg some (congrArg Tile.st (Team.updTile_get _ (e := e) he)))

section
variable {s : State} {t j : Nat} {tm : Team} (ht : s.team? t = some tm)
include ht

theorem tileFill_done {job : TileJob} {c : Ctx} {u : State} (hj : tm.jobs[j]? = some job) (hc : s.ctx? tm.ctx = some c) (hd : job.drain = false)
    (h : s.runFill c tm job = .done u) : exec (.tileFillComplete t j) s = .next (u.dropJob t j) := by
  show execTileFillComplete t j s = _
  rw [execTileFillComplete, ht]
  dsimp only
  rw [hj, hc]
  dsimp only
  rw [h]
  exact congrArg _ (if_neg (by simp [hd]))

/-- The state that a finished drain leaves but for its retire decrement. -/
theorem tileDrain_done {job : TileJob} (hj : tm.jobs[j]? = some job) (hd : job.drain = true) :
    exec (.tileDrainComplete t j) s = .next (match job.retire with
      | some r => ((s.dropJob t j).updTile t (if job.upper then 1 else 0) job.tile fun x => { x with st := .ready }).retire tm.ctx r
      | none => (s.dropJob t j).updTile t (if job.upper then 1 else 0) job.tile fun x => { x with st := .ready }) := by
  show execTileDrainComplete t j s = _
  rw [execTileDrainComplete, ht]
  dsimp only
  rw [hj]
  exact congrArg _ (if_neg (by simp [hd]))

theorem matrixUpdate_retires {r : Retire} (hr : tm.retires[j]? = some r) : exec (.matrixUpdateComplete t j) s =
    .next ((s.updTeam t fun t => { t with retires := t.retires.eraseIdx j }).decrementPa tm.ctx r.va.toNat r.pa 1) := by
  show execMatrixUpdateComplete t j s = _
  rw [execMatrixUpdateComplete, ht]
  dsimp only
  rw [hr]
  rfl

end

/-! ### The fault of a matrix fetch -/

/-- How often a team was relaunched, as the scheduler has it. -/
def State.relaunches (s : State) (t : Team) (id : Nat) : Nat := ((s.sch.idents.find? fun i => i.id == id).map Ident.relaunch).getD t.relaunch

section
variable {s : State} {id g : Nat} {t : Team} {c : Ctx} {x : Exc} {pc : W64} (ht : s.team? id = some t) (hm : t.mfetch = some (g, x, pc))
  (hc : s.ctx? t.ctx = some c) (hf : s.frozenCtx c.num = false)
include ht hm hc hf

theorem matrixFetch_terminates (h : t.kd.restart = false ∨ c.rstlim ≤ s.relaunches t id) :
    exec (.matrixFetchFault id) s = .next (((s.fetchRecord t g x pc 3 3).killTeam id).terminate t.ctx) := by
  show execMatrixFetchFault id s = _
  rw [execMatrixFetchFault, ht]
  dsimp only
  rw [hm, hc]
  refine congrArg Host.Outcome.next ((if_neg (by simp [hf])).trans (if_neg fun ⟨hk, hn⟩ => ?_))
  rcases h with h | h
  · rw [h] at hk
    cases hk
  · exact absurd hn (Nat.not_lt.mpr h)

theorem matrixFetch_relaunches {bs : List Byte} (hk : t.kd.restart = true) (hn : s.relaunches t id < c.rstlim)
    (hr : (((s.fetchRecord t g x pc 0 2).dropTeamWork id).updIdent id fun i => { i with relaunch := s.relaunches t id + 1 }).readRec c none
      (t.frame.toNat + 56) 8 = .ok bs) :
    exec (.matrixFetchFault id) s = .next ((((s.fetchRecord t g x pc 0 2).dropTeamWork id).updIdent id fun i =>
      { i with relaunch := s.relaunches t id + 1 }).vacate { t with relaunch := s.relaunches t id + 1, mfetch := none } (t.relaunchTask (leNat bs))) := by
  show execMatrixFetchFault id s = _
  rw [execMatrixFetchFault, ht]
  dsimp only
  rw [hm, hc]
  refine congrArg Host.Outcome.next ((if_neg (by simp [hf])).trans ((if_pos ⟨hk, hn⟩).trans ?_))
  rw [State.relaunches] at hr
  rw [hr]
  rfl

end

/-- Nothing of a context that is terminated is left on a core. -/
theorem State.terminate_none (s : State) (ctx : Nat) : ∀ k ∈ (s.terminate ctx).teams, k.ctx ≠ ctx := by
  intro k hk hctx
  rw [State.terminate_teams, List.mem_filter] at hk
  exact Bool.noConfusion (hk.2.symm.trans (hctx ▸ noneOf_false hk.1))

/-- What a team that gave up its core stands at. -/
def Team.vacated (x t : Team) (l : Leave) : Team :=
  { x with slot := .spill, settle := .none, leave := some l, groups := [], acc := [], tiles := [], ls := [], barriers := [], core := 0, jobs := [],
           retires := [], mfetch := none, relaunch := t.relaunch, gang := [] }

theorem State.vacate_team {s : State} {t y : Team} (l : Leave) (h : s.team? t.id = some y) : (s.vacate t l).team? t.id = some (y.vacated t l) :=
  State.team?_updTeam_self (fun x => x.vacated t l) (fun _ => rfl)
    ((State.team?_of_core ((State.loseDest_core _ _ _).trans (s.updIdent_core t.id fun i => { i with core := t.core })) _).trans h)

/-- Settles O54: each event does the effect of its clause; what the schedulers write and read is memory alone, so the teams stay as they were. -/
theorem teamEvents : Obligations.TeamEvents := by
  refine ⟨teams_settle, fun s id t c ht hc hslot hf => ⟨teamStart_succ ht hc hslot hf, fun off single => teamStart_image ht hc hslot hf,
      fun header u hl hw => teamStart_fresh ht hc hslot hf hl hw, fun code phase maps t1 => teamStart_task ht hc hslot hf⟩,
    fun s u id pa t c l h num ht hc hslot hl hr hf ho hroom hm he => ⟨taskSpill_leaves ht hc hslot hl hr hf ho hroom hm he, ?_⟩,
    fun s t j tm job ht hj => ?_, fun s t j tm r ht hr => matrixUpdate_retires ht hr, fun s id g t c x pc ht hm hc hf => ?_⟩
  · rw [State.team?_leaveCore, if_pos (State.team?_id ht).symm]
  · refine ⟨fun c u hc hd h => ⟨tileFill_done ht hj hc hd h, fun e he => State.runFill_ready ht h he⟩, fun hd hr => ?_, fun r hd hr => ?_⟩
    · rw [tileDrain_done ht hj hd, hr]
    · rw [tileDrain_done ht hj hd, hr]
      rfl
  · refine ⟨fun h => ⟨_, matrixFetch_terminates ht hm hc hf h, ?_, State.terminate_none _ _⟩, ?_⟩
    · have hctx : ((s.fetchRecord t g x pc 3 3).killTeam id).ctx? t.ctx = some c := by
        rw [State.ctx?, State.killTeam_ctxs, State.ctxs_of_core (s.fetchRecord_core ..)]
        exact hc
      rw [State.terminate_ctx?, hctx, Option.map_some, Option.map_some, if_pos (by rw [State.ctx?_num hc, beq_self_eq_true])]
    · intro hk hn s2 bs hr
      have hid : t.id = id := State.team?_id ht
      have ht2 : s2.team? id = some t := (State.team?_of_core ((State.updIdent_core _ _ _).trans
        ((State.dropTeamWork_core _ _).trans (s.fetchRecord_core ..))) id).trans ht
      refine ⟨_, t.vacated { t with relaunch := s.relaunches t id + 1, mfetch := none } (t.relaunchTask (leNat bs)),
        matrixFetch_relaunches ht hm hc hf hk hn hr, ?_, rfl, rfl, rfl, rfl⟩
      subst hid
      exact State.vacate_team (t := { t with relaunch := s.relaunches t t.id + 1, mfetch := none }) _ ht2

end Sys2Proof.Machine
end

section
/-! The events of the schedulers: rounds, scans, doorbells, periods and the jobs of the quantisation engines. -/

namespace Sys2Proof.Machine

/-! ### Rounds and gangs (R51, R281, R282, R335, R389) -/

/-- What a round has done before it arbitrates: its gangs are counted and placed, its queues cleared. -/
def State.roundSwept (s : State) (die : Nat) : State :=
  let mine := s.sch.gangs.filter fun g => s.gangHub g == die
  let wait := fun (g : Gang) => if (mine.any fun x => x.id == g.id) && g.teams != [] then { g with rounds := g.rounds + 1 } else g
  (mine.foldl State.placeGang (s.updSch fun h => { h with gangs := h.gangs.map wait })).sweep die

/-- What a round does after the arbitration of class M. -/
def State.roundRest (die : Nat) (u : State) : State :=
  [Cls.m, .l, .x, .t].foldl (fun u c => u.idleSave die c) ([Cls.l, .x, .t].foldl (fun u c => u.roundCls die c) u)

theorem schedulingRound_alone {s : State} {die : Nat} (h : s.hubsOf die = [die]) :
    exec (.schedulingRound die) s = .next (State.roundRest die ((s.roundSwept die).roundCls die .m)) := by
  show execSchedulingRound die s = _
  rw [execSchedulingRound, h, List.foldl_cons, List.foldl_nil, State.round, State.roundRest, State.roundSwept]
  rw [List.foldl_cons (f := fun (s : State) c => s.roundCls die c)]

section
variable {s : State} {hub : Nat} {cls : Cls}

theorem State.roundCls_none (h : ((s.offers hub).filter fun o => o.cls == cls) = []) : s.roundCls hub cls = s.updSch fun h =>
    { h with deficits := h.deficits.filter fun d => !(d.die == hub && d.cls == cls) } := by
  rw [State.roundCls, h]

theorem State.roundCls_grants {o : Offer} (h : ((s.offers hub).filter fun o => o.cls == cls) ≠ [])
    (hc : (s.choose hub cls ((s.offers hub).filter fun o => o.cls == cls)).1 = some o) :
    s.roundCls hub cls = (s.choose hub cls ((s.offers hub).filter fun o => o.cls == cls)).2.grant hub o := by
  obtain ⟨x, os, ho⟩ := List.exists_cons_of_ne_nil h
  rw [ho] at hc
  rw [State.roundCls, ho]
  dsimp only
  rw [hc]

theorem State.roundCls_passes (h : ((s.offers hub).filter fun o => o.cls == cls) ≠ [])
    (hc : (s.choose hub cls ((s.offers hub).filter fun o => o.cls == cls)).1 = none) :
    s.roundCls hub cls = (s.choose hub cls ((s.offers hub).filter fun o => o.cls == cls)).2 := by
  obtain ⟨x, os, ho⟩ := List.exists_cons_of_ne_nil h
  rw [ho] at hc
  rw [State.roundCls, ho]
  dsimp only
  rw [hc]

end

/-- The addresses that a scan adds to those it knows. -/
theorem mem_foldl_insert (found l : List Nat) (x : Nat) :
    x ∈ found.foldl (fun l pa => if l.contains pa then l else l ++ [pa]) l ↔ x ∈ l ∨ x ∈ found := by
  induction found generalizing l with
  | nil => simp
  | cons a found ih =>
    rw [List.foldl_cons, ih, List.mem_cons]
    by_cases h : a ∈ l
    · rw [if_pos (List.contains_iff_mem.mpr h)]
      constructor
      · exact fun hx => hx.imp_right Or.inr
      · rintro (hx | rfl | hx)
        exacts [.inl hx, .inl h, .inr hx]
    · rw [if_neg (fun hc => h (List.contains_iff_mem.mp hc)), List.mem_append, List.mem_singleton, or_assoc]

theorem schedulerRestore_seats {s : State} {ctx id core : Nat} {x : Cand} {t : Team}
    (hx : (s.sch.cands.find? fun x => x.ctx == ctx && x.id == id && x.single) = some x) (hr : s.imageReady x = true)
    (ht : s.imageTeam x = some t) (hg : t.gang = []) (hc : s.imageCore t (chamberOf (coreDie (s.leftCore id))) = some core) :
    exec (.schedulerRestore ctx id) s = .next ((s.updSch fun h =>
      { h with cands := h.cands.filter fun y => !(y.ctx == x.ctx && y.id == x.id) }).seat { t with core := core }) := by
  show execSchedulerRestore ctx id s = _
  rw [execSchedulerRestore, hx]
  dsimp only
  rw [if_pos (by rw [hr, ht]; simp [hg]), State.grantImage, ht]
  dsimp only
  rw [hc]

/-! ### Doorbells (R52, R399) -/

/-- A store that meets TAIL of a registered header, and leaves the directory alone, is noted. -/
theorem State.store_tails {s : State} {pa : Nat} {bs : List Byte} {t : Nat × Bool} (ht : t ∈ s.sch.tails) (h1 : pa < t.1 + 32)
    (h2 : t.1 + 24 < pa + bs.length) (hq : s.pkg.mgmt.qdir = 0 ∨ pa + bs.length ≤ s.pkg.mgmt.qdir ∨ s.pkg.mgmt.qdir + 65536 ≤ pa) :
    (t.1, true) ∈ (s.store pa bs).sch.tails := by
  show (t.1, true) ∈ ({ s with mem := s.mem.write pa bs } : State).tailsAfter pa bs.length
  have hdir : ¬ ((s.pkg.mgmt.qdir != 0 && spansMeet pa bs.length s.pkg.mgmt.qdir 65536) = true) := by
    simp only [spansMeet, Bool.and_eq_true, bne_iff_ne, decide_eq_true_eq]
    omega
  rw [State.tailsAfter]
  dsimp only
  rw [if_neg hdir]
  refine List.mem_map.mpr ⟨t, ht, if_pos ?_⟩
  simp only [spansMeet, Bool.and_eq_true, decide_eq_true_eq]
  omega

section
variable {s : State} {q va pa : Nat} {c : Ctx} (ht : s.tailOf q = some (c, va, pa))
include ht

theorem doorbell_unnoted (h : (pa, true) ∉ s.sch.tails) : exec (.launchDoorbell q) s = .next s := by
  show execLaunchDoorbell q s = _
  have hr : ¬ s.rung q = true := by
    rw [State.rung, ht]
    simp [h]
  rw [execLaunchDoorbell, if_neg hr]

variable (hr : s.rung q = true)
include hr

/-- The state in which a doorbell has taken its note. -/
def State.noteTaken (s : State) (pa : Nat) : State :=
  s.updSch fun h => { h with tails := h.tails.map fun t => if t.1 == pa then (pa, false) else t }

omit ht hr in
theorem State.noteTaken_tails (s : State) (pa : Nat) : (pa, true) ∉ (s.noteTaken pa).sch.tails := by
  intro h
  obtain ⟨t, -, ht⟩ := List.mem_map.mp h
  split at ht
  · cases ht
  · exact absurd (congrArg Prod.fst ht) (by simpa using ‹¬(t.1 == pa) = true›)

theorem doorbell_invalid {x : Exc} (hx : s.openOwn c va [1, 2, 3, 4] = .error x) (hc : x.code = 0x0041) :
    exec (.launchDoorbell q) s = .next ((s.noteTaken pa).logFault c.num 0x0041 x.detail va) := by
  show execLaunchDoorbell q s = _
  rw [execLaunchDoorbell, if_pos hr, ht]
  dsimp only
  rw [show s.openOwn c va [kLaunch, kTask, kWork, kQuant] = .error x from hx]
  exact congrArg _ (if_pos hc)

theorem doorbell_sweeps {hp : Nat} {h : QHdr} (ho : s.openOwn c va [1, 2, 3, 4] = .ok (hp, h)) (hk : h.kind = 1) (hd : c.dispatches = true) :
    exec (.launchDoorbell q) s = .next (State.sweepLaunch (homeSlice s.pkg.hbmsplit hp / 96) c h.count (s.noteTaken pa)
      { ctx := c.num, va := va, pa := hp, hdr := h }) := by
  show execLaunchDoorbell q s = _
  rw [execLaunchDoorbell, if_pos hr, ht]
  dsimp only
  rw [show s.openOwn c va [kLaunch, kTask, kWork, kQuant] = .ok (hp, h) from ho]
  exact congrArg _ (if_neg (by simp [hk, hd, kLaunch]))

end

/-! ### Budget periods (R346 to R349) -/

/-- What the writes of `bdg` set in a row, with whose row it is. -/
def Row.caps (r : Row) : Nat × Nat × List Nat × List Nat × Nat := (r.tenant, r.bcls, r.soft, r.hard, r.wt)

theorem Row.put_caps {r r' : Row} (h : r'.caps = r.caps) (p : Nat × Nat × Nat) : (r'.put p).caps = (r.put p).caps := by
  simp only [Row.caps, Prod.mk.injEq] at h
  obtain ⟨ht, hb, hs, hh, hw⟩ := h
  rw [Row.put, Row.put]
  split <;> simp only [Row.caps, ht, hb, hs, hh, hw]

theorem Row.put_owner (r : Row) (p : Nat × Nat × Nat) : (r.put p).tenant = r.tenant ∧ (r.put p).bcls = r.bcls := by
  rw [Row.put]
  split <;> exact ⟨rfl, rfl⟩

/-- One noted write, made on the row or on a new one. -/
def Row.write (blank : Row) (o : Option Row) (p : Nat × Nat × Nat) : Option Row := if p.1 == 3 then none else some ((o.getD blank).put p)

theorem Row.writes_caps {b b' : Row} (hb : b'.caps = b.caps) (l : List (Nat × Nat × Nat)) {o o' : Option Row}
    (ho : o'.map Row.caps = o.map Row.caps) : (l.foldl (Row.write b') o').map Row.caps = (l.foldl (Row.write b) o).map Row.caps := by
  induction l generalizing o o' with
  | nil => exact ho
  | cons p l ih =>
    refine ih ?_
    rw [Row.write, Row.write]
    split
    · rfl
    · refine congrArg some (Row.put_caps ?_ p)
      cases o <;> cases o' <;> simp_all

theorem Row.writes_owner {b : Row} {t n : Nat} (hb : b.tenant = t ∧ b.bcls = n) (l : List (Nat × Nat × Nat)) {o : Option Row}
    (ho : ∀ x ∈ o, x.tenant = t ∧ x.bcls = n) : ∀ x ∈ l.foldl (Row.write b) o, x.tenant = t ∧ x.bcls = n := by
  induction l generalizing o with
  | nil => exact ho
  | cons p l ih =>
    refine ih fun x hx => ?_
    rw [Row.write] at hx
    split at hx
    · cases hx
    · cases hx
      have hget : (o.getD b).tenant = t ∧ (o.getD b).bcls = n := by
        cases o with
        | none => exact hb
        | some y => exact ho y rfl
      exact ⟨(Row.put_owner _ p).1.trans hget.1, (Row.put_owner _ p).2.trans hget.2⟩

theorem Row.after_owner {r y : Row} (h : r.after = some y) : y.tenant = r.tenant ∧ y.bcls = r.bcls :=
  Row.writes_owner (b := { Row.fresh r.tenant r.bcls with elapsed := r.elapsed }) ⟨rfl, rfl⟩ r.pend
    (fun x hx => by cases hx; exact ⟨rfl, rfl⟩) y h

/-- The time that has passed does not matter to the noted writes. -/
theorem Row.after_elapsed (r : Row) (n : Nat) : ({ r with elapsed := n } : Row).after.map Row.caps = r.after.map Row.caps :=
  Row.writes_caps (b := { Row.fresh r.tenant r.bcls with elapsed := r.elapsed }) (b' := { Row.fresh r.tenant r.bcls with elapsed := n })
    rfl r.pend rfl

/-- The rows at the end of a period of a tenant. -/
def State.periodRows (s : State) (tenant : Nat) : List Row :=
  s.sch.rows.filterMap fun r => if r.tenant == tenant then r.renew else some r

theorem budgetPeriod_ends {s : State} {tenant : Nat} (hh : s.periodHeld tenant = false) (hd : s.echo.drops = []) :
    exec (.budgetPeriodEnd tenant) s = .next ((s.pass (periodTicks - s.elapsed tenant)).updSch fun c =>
      { c with rows := (s.pass (periodTicks - s.elapsed tenant)).periodRows tenant }) := by
  show execBudgetPeriodEnd tenant s = _
  rw [execBudgetPeriodEnd, if_neg (by simp [hh])]
  refine congrArg Host.Outcome.next ?_
  rw [State.tellDrops]
  exact congrArg (fun l => List.foldl State.tellDrop _ (List.filter _ l)) hd

theorem periodRows_zero {s : State} {tenant : Nat} {r : Row} (hr : r ∈ s.periodRows tenant) (ht : r.tenant = tenant) :
    r.use0 = List.replicate 6 0 ∧ r.use1 = List.replicate 6 0 ∧ r.pend = [] ∧ r.told = false := by
  obtain ⟨x, -, hx⟩ := List.mem_filterMap.mp hr
  split at hx
  next =>
    obtain ⟨y, -, rfl⟩ := Option.map_eq_some_iff.mp hx
    exact ⟨rfl, rfl, rfl, rfl⟩
  next hne =>
    cases hx
    exact absurd (beq_iff_eq.mpr ht) hne

theorem periodRows_written {s : State} {tenant n : Nat} (hh : s.periodHeld tenant = false) {r y : Row} (hr : r ∈ s.sch.rows)
    (ht : r.tenant = tenant) (hy : r.after = some y) : ∃ x ∈ (s.pass n).periodRows tenant, x.caps = y.caps := by
  have hrow : ({ r with elapsed := r.elapsed + n } : Row) ∈ (s.pass n).sch.rows :=
    List.mem_map.mpr ⟨r, hr, if_neg (by rw [ht, hh]; exact Bool.false_ne_true)⟩
  have hcaps := r.after_elapsed (r.elapsed + n)
  rw [hy] at hcaps
  obtain ⟨z, hz, hzy⟩ := Option.map_eq_some_iff.mp hcaps
  refine ⟨_, List.mem_filterMap.mpr ⟨_, hrow, (if_pos (beq_iff_eq.mpr ht)).trans (congrArg (Option.map _) hz)⟩, hzy⟩

end Sys2Proof.Machine
end

section
/-! The exchange of uses and the quantisation engines; the events of the schedulers settled. -/

namespace Sys2Proof.Machine

/-! ### The exchange (R346) -/

theorem State.emitHub_sch (s : State) (die unit code tag : Nat) (payload : W32) : (s.emitHub die unit code tag payload).sch = s.sch := by
  rw [State.emitHub]
  split <;> rfl

/-- What an exchange leaves alone: what it tells goes to Echo. -/
def State.sched (s : State) : Sched × Nat := (s.sch, s.ptp)

theorem State.capEvent_sched (s : State) (tenant bcls act hub : Nat) (hard : Bool) : (s.capEvent tenant bcls act hub hard).sched = s.sched :=
  Prod.ext (s.emitHub_sch ..) (State.ptp_of_core (s.emitHub_core ..))

theorem State.softMet_sched (s : State) (r : Row) (hub : Nat) : (s.softMet r hub).sched = s.sched := by
  rw [State.softMet]
  exact foldl_keep (f := fun (s : State) act => s.capEvent r.tenant r.bcls act hub false) (fun s act => s.capEvent_sched ..) _ s

theorem softMets_sched (rows : List Row) (s : State) : (rows.foldl (fun s r => (s.softMet r 0).softMet r 1) s).sched = s.sched :=
  foldl_keep (fun s r => (State.softMet_sched _ r 1).trans (s.softMet_sched r 0)) rows s

theorem budgetExchange_hears (s : State) : ∃ u, exec .budgetUseExchange s = .next u ∧ u.ptp = max s.ptp (s.sch.exchAt + exchangeTicks) ∧
    u.sch.exchAt = u.ptp ∧ u.sch.rows.map Row.use0 = s.sch.rows.map Row.use0 ∧ u.sch.rows.map Row.use1 = s.sch.rows.map Row.use1 ∧
    ∀ r ∈ u.sch.rows, r.heard0 = r.use1 ∧ r.heard1 = r.use0 := by
  have h := softMets_sched (s.pass (s.sch.exchAt + exchangeTicks - s.ptp)).sch.rows ((s.pass (s.sch.exchAt + exchangeTicks - s.ptp)).updSch fun c =>
    { c with rows := c.rows.map Row.exchanged, exchAt := (s.pass (s.sch.exchAt + exchangeTicks - s.ptp)).ptp })
  have hsch := congrArg Prod.fst h
  have hptp := congrArg Prod.snd h
  have huse : ∀ f : Row → List Nat, (∀ r, f r.exchanged = f r) → (∀ r n, f { r with elapsed := n } = f r) →
      ((s.pass (s.sch.exchAt + exchangeTicks - s.ptp)).sch.rows.map Row.exchanged).map f = s.sch.rows.map f := by
    intro f hf he
    refine (List.map_map.trans (List.map_congr_left fun r _ => hf r)).trans ?_
    refine List.map_map.trans (List.map_congr_left fun r _ => ?_)
    rw [Function.comp]
    split
    · rfl
    · exact he r _
  refine ⟨_, rfl, hptp.trans ?_, (congrArg Sched.exchAt hsch).trans hptp.symm, (congrArg (fun c => c.rows.map Row.use0) hsch).trans ?_,
    (congrArg (fun c => c.rows.map Row.use1) hsch).trans ?_, fun r hr => ?_⟩
  · show s.ptp + _ = _
    omega
  · exact huse Row.use0 (fun _ => rfl) fun _ _ => rfl
  · exact huse Row.use1 (fun _ => rfl) fun _ _ => rfl
  · obtain ⟨x, -, rfl⟩ := List.mem_map.mp ((congrArg Sched.rows hsch) ▸ hr)
    exact ⟨rfl, rfl⟩

theorem Row.after_one {r : Row} {p : Nat × Nat × Nat} (h : r.pend = [p]) :
    r.after = Row.write { Row.fresh r.tenant r.bcls with elapsed := r.elapsed } (some r) p := congrArg (List.foldl _ (some r)) h

/-! ### Quantisation engines (R312) -/

theorem quantTake_takes {s u : State} {die : Nat} {c : Ctx} {q : QRef} {bs : List Byte} {p : JobPlan} (hd : die < 2)
    (hidle : ∀ j ∈ s.eng.qjobs, j.die ≠ die) (hn : s.nextQuant die = some ((c, q), u))
    (hr : u.readRec c none (q.hdr.item q.hdr.head) 64 = .ok bs) (hp : u.jobPlan c (q.hdr.item q.hdr.head) bs = .ok p) :
    exec (.quantJobTake die) s = .next ((u.storeNat (q.pa + 16) 8 ((q.hdr.head + 1) % 2 ^ 64)).updEng fun e => { e with qjobs := e.qjobs ++
      [{ die := die, ctx := c.num, tenant := q.hdr.tenant, bcls := q.hdr.bcls, bytes := bs, bad := none, next := 0 }] }) := by
  show execQuantJobTake die s = _
  have hany : ¬ (2 ≤ die ∨ (s.eng.qjobs.any fun j => j.die == die) = true) := by
    rintro (h | h)
    · omega
    · obtain ⟨j, hj, he⟩ := List.any_eq_true.mp h
      exact hidle j hj (beq_iff_eq.mp he)
  rw [execQuantJobTake, if_neg hany, hn]
  dsimp only
  rw [hr]
  dsimp only
  rw [hp]

section
variable {s : State} {die : Nat} {j : QJob} {c : Ctx} (hj : (s.eng.qjobs.find? fun j => j.die == die) = some j) (hc : s.ctx? j.ctx = some c)
  (hh : s.jobHeld j = false)
include hj hc hh

theorem quantComplete_done {p : JobPlan} {u : State} (hb : j.bad = none) (hp : s.jobPlan c 0 j.bytes = .ok p)
    (hu : State.jobUnits c j p s ((List.range (((shapeOf p.dst).count + unitLen p.cv.dfmt - 1) / unitLen p.cv.dfmt)).drop j.next) = .done u) :
    exec (.quantJobComplete die) s =
      .next ((u.updEng fun e => { e with qjobs := e.qjobs.filter fun x => x.die != die }).jobSignal c j false) := by
  show execQuantJobComplete die s = _
  rw [execQuantJobComplete, hj]
  dsimp only
  rw [hc]
  dsimp only
  rw [if_neg (by simp [hh]), hb]
  dsimp only
  rw [hp]
  dsimp only
  rw [hu]

theorem quantComplete_fails {x : Exc} (hb : j.bad = some x) : exec (.quantJobComplete die) s =
    .next (((s.updEng fun e => { e with qjobs := e.qjobs.filter fun x => x.die != die }).jobFailed c j x).jobSignal c j true) := by
  show execQuantJobComplete die s = _
  rw [execQuantJobComplete, hj]
  dsimp only
  rw [hc]
  dsimp only
  rw [if_neg (by simp [hh]), hb]

end

/-- Settles O55: each event does the effect of its clause. -/
theorem schedulerEvents : Obligations.SchedulerEvents := by
  refine ⟨?_, fun s die cluster g hg hp hn hr => ⟨_, rfl, ?_, rfl, rfl, fun x hx hne => ?_⟩,
    fun s die va pa p hp hv hz => ⟨_, rfl, ?_, fun x hx => ?_, rfl, rfl⟩, fun s ctx id core x t hx hr ht hg hc => schedulerRestore_seats hx hr ht hg hc,
    fun s pa bs t ht h1 h2 hq => State.store_tails ht h1 h2 hq, fun s q va pa c ht h => doorbell_unnoted ht h, ?_,
    fun s tenant hh hd => ⟨_, budgetPeriod_ends hh hd, rfl, rfl, fun r hr ht => periodRows_zero hr ht, fun r hr ht y hy => ?_⟩,
    fun r act v => ⟨Row.after_one, Row.after_one, Row.after_one, Row.after_one⟩, budgetExchange_hears,
    fun s u die c q bs p hd hidle hn hr hp => quantTake_takes hd hidle hn hr hp, ?_⟩
  · intro s die hh mine wait swept rest os
    have hx : exec (.schedulingRound die) s = .next (rest (swept.roundCls die .m)) := schedulingRound_alone hh
    refine ⟨fun o hne ho => hx.trans ?_, fun hne ho => hx.trans ?_, fun hos => hx.trans ?_⟩
    · rw [State.roundCls_grants hne ho]
    · rw [State.roundCls_passes hne ho]
    · rw [State.roundCls_none hos]
  · exact List.mem_map.mpr ⟨g, hg, if_pos ⟨hp, hn, hr⟩⟩
  · exact List.mem_map.mpr ⟨x, hx, if_neg fun h => hne h.1⟩
  · exact (mem_foldl_insert _ _ _).mpr (.inr (List.mem_flatMap.mpr ⟨p, hp, List.mem_filterMap.mpr ⟨va, hv, hz⟩⟩))
  · exact (mem_foldl_insert _ _ _).mpr (.inl hx)
  · intro s q va pa c hr ht s1
    exact ⟨s.noteTaken_tails pa, fun x hx hc => doorbell_invalid ht hr hx hc, fun hp h ho hk hd => doorbell_sweeps ht hr ho hk hd⟩
  · obtain ⟨x, hx, hcaps⟩ := periodRows_written (n := periodTicks - s.elapsed tenant) hh hr ht hy
    obtain ⟨htenant, hbcls⟩ := Row.after_owner hy
    simp only [Row.caps, Prod.mk.injEq] at hcaps
    obtain ⟨h1, h2, h3, h4, h5⟩ := hcaps
    exact ⟨x, hx, h1.trans (htenant.trans ht), h2.trans hbcls, h3, h4, h5⟩
  · intro s die j c hj hc hh gone
    refine ⟨?_, fun x hb => quantComplete_fails hj hc hh hb⟩
    intro p u hb hp len hu
    exact quantComplete_done hj hc hh hb hp hu

end Sys2Proof.Machine
end

section
/-! The events of the engines and of the memories. -/

namespace Sys2Proof.Machine

/-! ### Copy elements (R294, R299, R303, R305) -/

section
variable {s u : State} {die unit slot n : Nat} {k : Cmd} {c : Copy} (hk : s.cmd? die unit slot = some k) (hc : s.copy? k.copy = some c)
  (hd : k.due n = true) (he : s.engineUp die = true) (hs : s.stampEarly c n = false)
include hk hc hd he hs

theorem State.performEv_done (hu : s.performUnit c die unit n = .ok u) {p : Copy → Bool} (hp : p c = true) :
    s.performEv die unit slot n p = (u.unitDone k n).tryStamp c.id := by
  rw [State.performEv, hk]
  dsimp only
  rw [hc]
  dsimp only
  rw [if_neg (by simp [he, hd, hp, hs]), hu]

theorem copyFault_met {x : Exc} (hx : s.performUnit c die unit n = .error (some x)) :
    exec (.copyElementFault die unit slot n false) s = .next (s.faultUnit k c x) := by
  show execCopyElementFault die unit slot n false s = _
  rw [execCopyElementFault, hk]
  dsimp only
  rw [hc]
  dsimp only
  rw [if_neg (by simp [he, hd, hs]), if_neg Bool.false_ne_true, hx]

theorem copyFault_link : exec (.copyElementFault die unit slot n true) s =
    .next (s.faultUnit k c { code := 0x0060, addr := c.dst.unitAddr (fmtsOf c.conv c.src c.dst).2 n }) := by
  show execCopyElementFault die unit slot n true s = _
  rw [execCopyElementFault, hk]
  dsimp only
  rw [hc]
  dsimp only
  rw [if_neg (by simp [he, hd, hs]), if_pos rfl]
  rfl

end

theorem le_skipDone (k p : Nat) (l : List Nat) : p ≤ skipDone k p l := by
  induction k generalizing p with
  | zero => exact Nat.le_refl _
  | succ k ih =>
    rw [skipDone]
    split
    · exact Nat.le_of_succ_le (ih (p + 1))
    · exact Nat.le_refl _

/-- A performed element is entered in the bitmap; the lowest one moves P on. -/
theorem Cmd.mark_records (k : Cmd) (n : Nat) : (n ≠ k.p → (k.mark n).p = k.p ∧ n ∈ (k.mark n).above) ∧
    (n = k.p → k.p < (k.mark n).p ∧ (k.mark n).due n = false) := by
  refine ⟨fun h => ?_, fun h => ?_⟩
  · rw [Cmd.mark, if_neg h]
    exact ⟨rfl, List.mem_append_right _ List.mem_cons_self⟩
  · have hp : k.p < (k.mark n).p := by
      rw [Cmd.mark, if_pos h]
      exact le_skipDone _ _ _
    refine ⟨hp, ?_⟩
    rw [Cmd.due, decide_eq_false (by omega)]
    rfl

theorem State.record_eng (s : State) (ctx : Nat) (bytes : List Byte) : (s.record ctx bytes).eng = s.eng := by
  unfold State.record
  dsimp only
  (repeat' split) <;> simp

theorem State.emitHub_eng (s : State) (die unit code tag : Nat) (payload : W32) : (s.emitHub die unit code tag payload).eng = s.eng := by
  rw [State.emitHub]
  split <;> rfl

theorem State.faultUnit_holds {s : State} {k : Cmd} {c : Copy} {x : Exc} (h : cancels x.code = false) :
    ∃ u : State, s.faultUnit k c x = u.updCmd k.die k.unit k.slot (fun k => { k with held := some x }) ∧ u.eng = s.eng ∧ u.teams = s.teams := by
  refine ⟨_, if_neg (by simp [h]), (State.emitHub_eng ..).trans (State.record_eng ..), ?_⟩
  exact State.teams_of_core ((State.echoFault_core ..).trans (State.record_core ..))

theorem copyComplete_ends {s : State} {id : Nat} {c : Copy} (hc : s.copy? id = some c) (hp : c.units ≤ c.placed)
    (hn : (s.eng.cmds.any fun k => k.copy == id) = false) : exec (.copyComplete id) s = .next ((((s.logMcast id).setTiles c .ready).updEng fun e =>
      { e with copies := e.copies.filter fun x => x.id != id }).closeBatches) := by
  show execCopyComplete id s = _
  rw [execCopyComplete, hc]
  exact congrArg Host.Outcome.next (if_neg (by simp [hn, hp]))

theorem mcastFailure_loses {s : State} {id core : Nat} {c : Copy} {p : Nat × Nat} (hc : s.copy? id = some c)
    (hp : (c.cores.find? fun p => p.1 == core) = some p) (hb : c.bar = none) (ht : c.tile = none) :
    exec (.mcastDestinationFailure id (some core)) s = .next (((s.updCopy id fun c =>
      { c with cores := c.cores.filter fun q => q.1 != p.1, failed := c.failed ++ [p.1], told := false }).logMcast id).dropUnreached) := by
  show execMcastDestinationFailure id (some core) s = _
  rw [execMcastDestinationFailure, hc]
  dsimp only [Option.bind]
  rw [hp]
  have hend : ∀ d, s.endDest c d true .empty = s := by
    intro d
    rw [State.endDest]
    exact if_pos (by simp [hb, ht])
  dsimp only
  rw [hend]

theorem replayFilter_expires (s : State) (site : Nat) : ∃ u, exec (.replayFilterExpiry site) s = .next u ∧ u.mem = s.mem ∧ u.teams = s.teams ∧
    ∀ r, r ∈ u.eng.replay ↔ r ∈ s.eng.replay ∧ ¬ (r.site = site ∧ r.tick + replayTicks ≤ s.ptp) := by
  refine ⟨_, rfl, rfl, rfl, fun r => ?_⟩
  show r ∈ List.filter _ _ ↔ _
  rw [List.mem_filter]
  simp [imp_iff_not_or]

/-! ### Wakes (R330, R332, R333) -/

/-- The entries that a wake of a slice takes. -/
def State.dueEntry (s : State) (slice : Nat) (e : Roost) : Bool := e.slice == slice && e.fired && !(e.kind == .count && s.frozenCtx e.ctx)

theorem roostWake_wakes (s : State) (slice : Nat) :
    exec (.roostWake slice) s = .next ((s.roost.filter fun e => s.dueEntry slice e && e.kind == .count).foldl
      (fun u e => u.decrement e.ctx e.jcva.toNat)
      ((((s.roost.filter fun e => s.dueEntry slice e && e.kind == .wait).map fun e => (e.team, e.grp)) ++
        ((s.ovf.filter fun o => o.slice == slice && o.fired).filter fun o => s.ovfMonitor o.slice o.team o.grp).map fun o => (o.team, o.grp)).foldl
        (fun u k => u.updGrp k Group.wake)
        { s with roost := s.roost.filter fun e => !s.dueEntry slice e, ovf := s.ovf.filter fun o => !(o.slice == slice && o.fired) })) := by
  show execRoostWake slice s = _
  rw [List.foldl_append, List.foldl_map, List.foldl_map]
  have hfilter : ∀ kind : RoostKind, (s.roost.filter fun e => s.dueEntry slice e && e.kind == kind) =
      (s.roost.filter (s.dueEntry slice)).filter fun e => e.kind == kind := by
    intro kind
    rw [List.filter_filter]
    exact List.filter_congr fun e _ => Bool.and_comm _ _
  rw [hfilter, hfilter]
  rfl

/-! ### Page walks (R221) -/

theorem mem_erase_place {l : List TlbEntry} {x v : TlbEntry} (hx : x ∈ l) (hv : x.place ≠ v.place) : x ∈ l.erase v :=
  (List.mem_erase_of_ne fun h => hv (congrArg TlbEntry.place h)).mpr hx

theorem State.tlbFill_self (s : State) (e : TlbEntry) : e ∈ (s.tlbFill e).tlb := List.mem_cons_self

/-- A fill evicts entries of its own place alone. -/
theorem State.tlbFill_other {s : State} {e x : TlbEntry} (hx : x ∈ s.tlb) (hp : x.place ≠ e.place) : x ∈ (s.tlbFill e).tlb := by
  rw [State.tlbFill]
  dsimp only
  refine List.mem_cons_of_mem _ ?_
  have hrest : x ∈ s.tlb.filter fun y => !(y.place == e.place && y.covers e.ctx e.va) := List.mem_filter.mpr ⟨hx, by simp [hp]⟩
  revert hrest
  generalize (s.tlb.filter fun y => !(y.place == e.place && y.covers e.ctx e.va)) = rest
  intro hrest
  split
  · exact hrest
  · cases hv : (rest.filter fun y => y.place == e.place)[Config.victim s.freeN e.va % (rest.filter fun y => y.place == e.place).length]? with
    | none => exact hrest
    | some v =>
      have hvp : v.place = e.place := beq_iff_eq.mp (List.mem_filter.mp (List.mem_of_getElem? hv)).2
      exact mem_erase_place hrest (hvp ▸ hp)

section
variable {leaf : TlbPlace → TlbEntry} (hleaf : ∀ p, (leaf p).place = p)
include hleaf

theorem tlbFills_keep {x : TlbEntry} (places : List TlbPlace) {s : State} (hx : x ∈ s.tlb) (hp : x.place ∉ places) :
    x ∈ (places.foldl (fun s p => s.tlbFill (leaf p)) s).tlb := by
  induction places generalizing s with
  | nil => exact hx
  | cons p places ih =>
    rw [List.mem_cons, not_or] at hp
    exact ih (State.tlbFill_other hx ((hleaf p).symm ▸ hp.1)) hp.2

/-- Leaves entered at several places are all there. -/
theorem tlbFills_mem {places : List TlbPlace} (hn : places.Nodup) (s : State) :
    ∀ p ∈ places, leaf p ∈ (places.foldl (fun s p => s.tlbFill (leaf p)) s).tlb := by
  induction places generalizing s with
  | nil => exact fun _ h => absurd h List.not_mem_nil
  | cons q places ih =>
    rw [List.nodup_cons] at hn
    intro p hp
    rcases List.mem_cons.mp hp with rfl | hp
    · exact tlbFills_keep hleaf places (s.tlbFill_self _) ((hleaf p).symm ▸ hn.1)
    · exact ih hn.2 _ p hp

end

/-- What the fills of translations leave alone. -/
def State.mapped (s : State) : Memory × List Team × List Miss := (s.mem, s.teams, s.misses)

theorem State.pwcWalk_mapped (s : State) (die : Nat) (c : Ctx) (va : Nat) : (s.pwcWalk die c va).mapped = s.mapped :=
  foldl_keep (f := fun (s : State) (p : Nat × Nat) => s.pwcFill { die := die, ctx := c.num, lvl := p.1, key := va / 2 ^ keyBits p.1, val := BitVec.ofNat 64 p.2 })
    (fun _ _ => rfl) _ s

theorem tlbFills_mapped (leaf : TlbPlace → TlbEntry) (places : List TlbPlace) (s : State) :
    (places.foldl (fun s p => s.tlbFill (leaf p)) s).mapped = s.mapped := foldl_keep (f := fun (s : State) p => s.tlbFill (leaf p)) (fun _ _ => rfl) _ s

theorem nodup_places (die cluster : Nat) (cores : List Nat) : (TlbPlace.cluster die cluster :: cores.dedup.map TlbPlace.core).Nodup := by
  rw [List.nodup_cons]
  refine ⟨by simp, (List.nodup_dedup cores).map fun a b h => ?_⟩
  cases h
  rfl

/-- The misses that a walk of a leaf of 2^bits bytes serves. -/
def Miss.servedBy (die cluster ctx va bits : Nat) (m : Miss) : Bool :=
  m.die == die && m.cluster == cluster && m.ctx == ctx && m.va / 2 ^ bits == va / 2 ^ bits

/-- The entry of a walked leaf at a place. -/
def Leaf.entryAt (l : Leaf) (ctx va : Nat) (p : TlbPlace) : TlbEntry :=
  { place := p, ctx := ctx, va := va / 2 ^ l.bits * 2 ^ l.bits, bits := l.bits, pa := l.base, attr := l.attr }

theorem pageWalk_fills {s : State} {die cluster ctx va entry : Nat} {c : Ctx} {l : Leaf} (hc : s.ctx? ctx = some c)
    (hw : walk (s.entries (chamberOf die) ctx va) va 3 c.ptroot = .ok (l, entry)) :
    ∃ u, exec (.pageWalkComplete die cluster ctx va) s = .next u ∧ u.mem = s.mem ∧ u.teams = s.teams ∧
      l.entryAt ctx va (.cluster die cluster) ∈ u.tlb ∧
      (∀ m ∈ s.misses, m.servedBy die cluster ctx va l.bits = true → ∀ core ∈ m.cores, l.entryAt ctx va (.core core) ∈ u.tlb) ∧
      ∀ m, m ∈ u.misses ↔ m ∈ s.misses ∧ ¬ m.servedBy die cluster ctx va l.bits = true := by
  let places := TlbPlace.cluster die cluster ::
    (((s.misses.filter (Miss.servedBy die cluster ctx va l.bits)).flatMap Miss.cores).dedup).map TlbPlace.core
  let filled := places.foldl (fun s p => s.tlbFill (l.entryAt ctx va p)) (s.pwcWalk (chamberOf die) c va)
  have hx : exec (.pageWalkComplete die cluster ctx va) s =
      .next { filled with misses := filled.misses.filter fun m => !m.servedBy die cluster ctx va l.bits } := by
    show execPageWalkComplete die cluster ctx va s = _
    rw [execPageWalkComplete, hc]
    dsimp only
    rw [hw]
    rfl
  have hmapped : filled.mapped = s.mapped := (tlbFills_mapped _ _ _).trans (s.pwcWalk_mapped ..)
  have hleaves := tlbFills_mem (leaf := l.entryAt ctx va) (fun _ => rfl) (nodup_places die cluster
    ((s.misses.filter (Miss.servedBy die cluster ctx va l.bits)).flatMap Miss.cores)) (s.pwcWalk (chamberOf die) c va)
  refine ⟨_, hx, congrArg Prod.fst hmapped, congrArg (fun x => x.2.1) hmapped, hleaves _ List.mem_cons_self, fun m hm hmine core hcore => ?_,
    fun m => ?_⟩
  · refine hleaves _ (List.mem_cons_of_mem _ (List.mem_map_of_mem (List.mem_dedup.mpr ?_)))
    exact List.mem_flatMap.mpr ⟨m, List.mem_filter.mpr ⟨hm, hmine⟩, hcore⟩
  · show m ∈ List.filter _ filled.misses ↔ _
    rw [show filled.misses = s.misses from congrArg (fun x => x.2.2) hmapped, List.mem_filter]
    simp

end Sys2Proof.Machine
end

section
/-! Written-back lines and accesses from outside; the events of the engines settled. -/

namespace Sys2Proof.Machine

/-! ### Lines written back (R227, R228) -/

theorem mem_setTag_zero (tags : List TagLine) (l : Nat) (bs : List Byte) : ∀ t ∈ setTag tags l 0 bs, t.line ≠ l := by
  intro t ht
  rw [setTag] at ht
  exact bne_iff_ne.mp (List.mem_filter.mp ht).2

theorem setTag_tagged {tags : List TagLine} {l tag : Nat} {bs : List Byte} (h : tag ≠ 0) :
    { line := l, tag := BitVec.ofNat 4 tag, image := storedImage bs tag } ∈ setTag tags l tag bs := by
  rw [setTag]
  exact (if_neg h).symm ▸ List.mem_cons_self

theorem sliceWriteBack_writes {s : State} {ctx va pa : Nat} {pk cm : Bool} {c : Ctx} (hc : s.ctx? ctx = some c)
    (ht : s.translate c none va 1 .read true = .ok (.phys pa pk cm)) (hr : ∃ r ∈ s.resident, r.line = pa / 128) :
    exec (.sliceLineWriteBack ctx va) s = .next (s.writeBack { line := pa / 128, compress := cm }) := by
  show execSliceLineWriteBack ctx va s = _
  rw [execSliceLineWriteBack, hc]
  dsimp only
  rw [ht]
  obtain ⟨r, hr, hl⟩ := hr
  have hany : (s.resident.any fun r => r.line == pa / 128) = true := List.any_eq_true.mpr ⟨r, hr, beq_iff_eq.mpr hl⟩
  exact congrArg Host.Outcome.next (if_pos hany)

/-! ### Accesses from outside (R21, R399) -/

/-- The regions that a party outside reaches. -/
def outsideRegion (peer : Bool) (r : Region) : Bool := r.hbm || r == (if peer then .peer else .host)

/-- The access of a party outside. -/
def outsideAccess (peer : Bool) (a : HostAcc) : Instr := if peer then .ualinkPeerRequest a else .casiumLinkHostAccess a

section
variable {s : State} {peer : Bool} {pa : Nat} {bs : List Byte} (hs : s.spanIn (outsideRegion peer) pa bs.length = true)
include hs

theorem outside_write (hl : ∀ l ∈ partLines pa bs.length, l ∉ s.poison ∧ s.badLine l = false) :
    exec (outsideAccess peer (.write pa bs)) s = .next ((s.store pa bs).answer peer true []) := by
  have hgood : s.outsideWrite pa bs = s.store pa bs := by
    refine if_neg fun h => ?_
    obtain ⟨l, hmem, hbad⟩ := List.any_eq_true.mp h
    rw [(hl l hmem).2, Bool.or_false, List.contains_iff_mem] at hbad
    exact (hl l hmem).1 hbad
  cases peer <;> exact congrArg Host.Outcome.next ((if_pos hs).trans (congrArg (fun u : State => u.answer _ true []) hgood))

theorem outside_read (hl : s.lineEvent (.phys pa false false) bs.length = none) :
    exec (outsideAccess peer (.read pa bs.length)) s =
      .next ((s.outsideRead pa bs.length).answer peer true (s.mem.bytes pa bs.length)) := by
  have hbytes : s.outsideBytes pa bs.length = s.mem.bytes pa bs.length := if_neg (by rw [hl]; exact Bool.false_ne_true)
  cases peer <;> exact congrArg Host.Outcome.next ((if_pos hs).trans (congrArg ((s.outsideRead pa bs.length).answer _ true) hbytes))

end

/-- Settles O56: each event does the effect of its clause. -/
theorem engineEvents : Obligations.EngineEvents := by
  refine ⟨fun s u die unit slot n k c hk hc hd he hs hu => ⟨fun hop => ?_, fun hop => ?_, fun hr => ?_⟩, fun k n _ => k.mark_records n,
    fun s die unit slot n k c hk hc hd he hs => ⟨fun x hx => copyFault_met hk hc hd he hs hx, copyFault_link hk hc hd he hs⟩,
    fun s k c x h => State.faultUnit_holds h, fun s id c hc hp hn => copyComplete_ends hc hp hn,
    fun s id core c p hc hp hb ht => mcastFailure_loses hc hp hb ht, replayFilter_expires, fun s slice => roostWake_wakes s slice, ?_, ?_, ?_,
    fun s => rfl⟩
  · exact congrArg Host.Outcome.next (State.performEv_done hk hc hd he hs hu (bne_iff_ne.mpr hop))
  · exact congrArg Host.Outcome.next (State.performEv_done hk hc hd he hs hu (beq_iff_eq.mpr hop))
  · exact congrArg Host.Outcome.next (State.performEv_done hk hc hd he hs hu (by rcases hr with h | h <;> simp [h]))
  · intro s die cluster ctx va entry c l hc hw leaf mine
    obtain ⟨u, hx, hmem, hteams, hleaf, hcores, hmiss⟩ := pageWalk_fills (cluster := cluster) hc hw
    have hmine : ∀ m, m.servedBy die cluster ctx va l.bits = true ↔ mine m := fun m => by
      simp only [Miss.servedBy, Bool.and_eq_true, beq_iff_eq, and_assoc, mine]
    refine ⟨u, hx, hmem, hteams, hleaf, fun m hm h => hcores m hm ((hmine m).mpr h), fun m => ?_⟩
    rw [hmiss, hmine]
  · intro s ctx va pa pk cm c hc ht hr bs tag
    refine ⟨_, sliceWriteBack_writes hc ht hr, rfl, fun r => ?_, fun h0 t hm => ?_, fun h0 => setTag_tagged h0⟩
    · show r ∈ List.filter _ _ ↔ _
      rw [List.mem_filter, bne_iff_ne]
    · exact mem_setTag_zero s.tags (pa / 128) bs t (h0 ▸ hm)
  · intro s peer pa bs hs hl hm i
    have hi : i = outsideAccess peer := by cases peer <;> rfl
    rw [hi]
    refine ⟨⟨_, outside_write hs hl, ?_, fun a ha => ?_, rfl⟩, fun hev => ⟨_, outside_read hs hev, ?_, rfl⟩⟩
    · exact Memory.bytes_write hm pa bs
    · exact Memory.get_write_other hm ha
    · exact State.markPoison_mem s _ _

end Sys2Proof.Machine
end

section
/-! What the end of a team or of a context leaves of the caches, the copies and the roost (R365, R375). -/

namespace Sys2Proof.Machine

/-! ### Copies -/

/-- A change of the engines alone after which the copies are those of the contexts `l`. -/
def State.copiesOf (s u : State) (l : List Nat) : Prop := ∃ e : Engines, u = { s with eng := e } ∧ e.copies.map Copy.ctx = l

theorem map_ctx_of_keep {f : Copy → Copy} (h : ∀ c, (f c).ctx = c.ctx) (l : List Copy) : (l.map f).map Copy.ctx = l.map Copy.ctx := by
  rw [List.map_map]
  exact List.map_congr_left fun c _ => h c

section
variable (s : State)

theorem State.placeOne_copies {t : State} {c : Copy} (h : s.placeOne c = some t) : s.copiesOf t (s.eng.copies.map Copy.ctx) := by
  unfold State.placeOne at h
  obtain ⟨p, -, rfl⟩ := Option.map_eq_some_iff.mp h
  refine ⟨_, rfl, map_ctx_of_keep (fun x => ?_) s.eng.copies⟩
  split <;> rfl

theorem State.placeLoop_copies (n : Nat) (s : State) : s.copiesOf (s.placeLoop n) (s.eng.copies.map Copy.ctx) := by
  induction n generalizing s with
  | zero => exact ⟨_, rfl, rfl⟩
  | succ n ih =>
    unfold State.placeLoop
    split
    next t ht =>
      obtain ⟨c, -, hc⟩ := List.exists_of_findSome?_eq_some ht
      split at hc
      · obtain ⟨e, rfl, he⟩ := s.placeOne_copies hc
        obtain ⟨e', hp, he'⟩ := ih { s with eng := e }
        exact ⟨e', hp, he'.trans he⟩
      · cases hc
    · exact ⟨_, rfl, rfl⟩

theorem State.dropCopies_copies (p : Copy → Bool) : s.copiesOf (s.dropCopies p) ((s.eng.copies.filter fun c => !p c).map Copy.ctx) := by
  obtain ⟨e, he, hl⟩ := State.placeLoop_copies 4096 (s.updEng fun e => { e with
    copies := e.copies.filter fun c => !p c, cmds := e.cmds.filter fun c => !((s.eng.copies.filter p).map Copy.id).contains c.copy })
  exact ⟨e, he, hl⟩

theorem State.dropUnreached_copies : s.copiesOf s.dropUnreached (s.eng.copies.map Copy.ctx) := by
  rw [State.dropUnreached]
  dsimp only
  split
  · exact ⟨_, rfl, rfl⟩
  · obtain ⟨e, he, hl⟩ := State.placeLoop_copies 4096 (s.updEng fun e => { e with
      cmds := e.cmds.filter fun k => !((s.eng.copies.filter fun c => c.op == .cpym && c.cores.isEmpty).map Copy.id).contains k.copy
      copies := e.copies.map fun c => if c.op == .cpym && c.cores.isEmpty then { c with placed := c.units } else c })
    refine ⟨e, he, hl.trans (map_ctx_of_keep (fun x => ?_) s.eng.copies)⟩
    split <;> rfl

theorem State.loseDest_copies (team : Nat) (killed : Bool) : s.copiesOf (s.loseDest team killed) (s.eng.copies.map Copy.ctx) := by
  rw [State.loseDest]
  dsimp only
  obtain ⟨e, he, hl⟩ := State.dropUnreached_copies (s.updEng fun e => { e with copies := e.copies.map fun c =>
    if ((c.cores.filter fun p => p.2 == team).map Prod.fst).isEmpty || s.allDone c then c
    else { c with
      cores := c.cores.filter fun p => p.2 != team, told := false
      failed := if killed then c.failed ++ (c.cores.filter fun p => p.2 == team).map Prod.fst else c.failed
      dropped := if killed then c.dropped else c.dropped ++ (c.cores.filter fun p => p.2 == team).map Prod.fst } })
  refine ⟨e, he, hl.trans (map_ctx_of_keep (fun x => ?_) s.eng.copies)⟩
  split <;> rfl

end

/-! ### What is spared -/

/-- The caches and the timebase. -/
def State.lasting (s : State) : List TlbEntry × List PwcEntry × List L1Line × List ShapeEnt × Nat := (s.tlb, s.pwc, s.l1, s.shapes, s.ptp)

/-- The caches and the timebase stay, and no copy and no roost entry of another context comes up. -/
structure State.spares (s u : State) : Prop where
  lasting : u.lasting = s.lasting
  copies : ∀ k ∈ u.eng.copies, k.ctx ∈ s.eng.copies.map Copy.ctx
  roost : ∀ e ∈ u.roost, e.ctx ∈ s.roost.map Roost.ctx

section
variable {s u w : State}

theorem State.spares.trans (h : s.spares u) (h' : u.spares w) : s.spares w := by
  refine ⟨h'.lasting.trans h.lasting, fun k hk => ?_, fun e he => ?_⟩
  · obtain ⟨c, hc, hcx⟩ := List.mem_map.mp (h'.copies k hk)
    exact hcx ▸ h.copies c hc
  · obtain ⟨c, hc, hcx⟩ := List.mem_map.mp (h'.roost e he)
    exact hcx ▸ h.roost c hc

theorem State.spares_of_eq (hl : u.lasting = s.lasting) (hc : u.eng.copies.map Copy.ctx = s.eng.copies.map Copy.ctx)
    (hr : u.roost.map Roost.ctx = s.roost.map Roost.ctx) : s.spares u :=
  ⟨hl, fun _ hk => hc ▸ List.mem_map_of_mem hk, fun _ he => hr ▸ List.mem_map_of_mem he⟩

theorem State.spares_refl (s : State) : s.spares s := State.spares_of_eq rfl rfl rfl

theorem State.spares_copiesOf {l : List Nat} (h : s.copiesOf u l) (hl : ∀ x ∈ l, x ∈ s.eng.copies.map Copy.ctx) : s.spares u := by
  obtain ⟨e, rfl, he⟩ := h
  exact ⟨rfl, fun k hk => hl _ (he ▸ List.mem_map_of_mem hk), fun _ he => List.mem_map_of_mem he⟩

theorem foldl_spares {α : Type} {f : State → α → State} (h : ∀ (s : State) x, s.spares (f s x)) (l : List α) (s : State) : s.spares (l.foldl f s) := by
  induction l generalizing s with
  | nil => exact s.spares_refl
  | cons x l ih => exact (h s x).trans (ih _)

theorem State.storeAs_spares (cmp : Option Bool) (pa : Nat) (bs : List Byte) : s.spares (s.storeAs cmp pa bs) := by
  refine State.spares_of_eq ?_ ?_ ?_
  · simp [State.lasting]
  · simp
  · show (s.roost.map (Roost.mark _ _)).map Roost.ctx = _
    rw [List.map_map]
    refine List.map_congr_left fun e _ => ?_
    rw [Function.comp, Roost.mark]
    split <;> rfl

theorem State.storeSpans_spares (spans : List (Nat × Nat)) (bs : List Byte) (s : State) : s.spares (s.storeSpans spans bs) := by
  induction spans generalizing s bs with
  | nil => exact s.spares_refl
  | cons x spans ih => exact (State.storeAs_spares ..).trans (ih ..)

theorem State.unwait_spares (s : State) (p : Nat → Nat → Bool) : s.spares (s.unwait p) := by
  refine State.spares.trans (u := { s with waiters := s.waiters.filter fun w => !p w.team w.grp }) (State.spares_of_eq rfl rfl rfl) ?_
  refine foldl_spares (fun u w => ?_) _ _
  dsimp only
  split
  · exact u.spares_refl
  · exact State.storeSpans_spares ..

theorem State.dropTeamWork_spares (s : State) (id : Nat) : s.spares (s.dropTeamWork id) := by
  have hcopies := State.spares_copiesOf (s.dropCopies_copies fun c => c.team == id) fun x hx => by
    obtain ⟨c, hc, rfl⟩ := List.mem_map.mp hx
    exact List.mem_map_of_mem (List.mem_filter.mp hc).1
  have hdest := State.spares_copiesOf ((s.dropCopies fun c => c.team == id).loseDest_copies id true) fun _ hx => hx
  refine ((hcopies.trans hdest).trans (State.unwait_spares _ fun t _ => t == id)).trans ⟨rfl, fun k hk => List.mem_map_of_mem hk, fun e he => ?_⟩
  exact List.mem_map_of_mem (List.mem_filter.mp he).1

theorem State.killTeam_spares (s : State) (id : Nat) : s.spares (s.killTeam id) := by
  obtain ⟨e, he⟩ := s.endStalls_form id
  refine State.spares.trans (u := s.endStalls id) (he ▸ State.spares_of_eq rfl rfl rfl) ?_
  exact (State.dropTeamWork_spares _ id).trans (State.spares_of_eq rfl rfl rfl)

theorem State.dropCtxWork_spares (s : State) (ctx : Nat) : s.spares (s.dropCtxWork ctx) ∧ (∀ k ∈ (s.dropCtxWork ctx).eng.copies, k.ctx ≠ ctx) ∧
    ∀ e ∈ (s.dropCtxWork ctx).roost, e.ctx ≠ ctx := by
  have hdrop := s.dropCopies_copies fun c => c.ctx == ctx
  have hcopies := State.spares_copiesOf hdrop fun x hx => by
    obtain ⟨c, hc, rfl⟩ := List.mem_map.mp hx
    exact List.mem_map_of_mem (List.mem_filter.mp hc).1
  have hwait := State.unwait_spares (s.dropCopies fun c => c.ctx == ctx) fun t _ =>
    ((s.sch.idents.filter fun i => i.ctx == ctx).map Ident.id).contains t
  refine ⟨(hcopies.trans hwait).trans ⟨rfl, fun k hk => List.mem_map_of_mem hk, fun e he => ?_⟩, fun k hk => ?_, fun e he => ?_⟩
  · exact List.mem_map_of_mem (List.mem_filter.mp he).1
  · obtain ⟨e, he, hl⟩ := hdrop
    have hmem := hwait.copies k hk
    rw [he, hl] at hmem
    obtain ⟨c, hc, hcx⟩ := List.mem_map.mp hmem
    rw [← hcx]
    simpa using (List.mem_filter.mp hc).2
  · simpa using (List.mem_filter.mp he).2

theorem State.terminate_spares (s : State) (ctx : Nat) : s.spares (s.terminate ctx) ∧ (∀ k ∈ (s.terminate ctx).eng.copies, k.ctx ≠ ctx) ∧
    ∀ e ∈ (s.terminate ctx).roost, e.ctx ≠ ctx := by
  obtain ⟨hs, hc, hr⟩ := s.dropCtxWork_spares ctx
  have hk : (s.dropCtxWork ctx).spares (s.terminate ctx) :=
    (foldl_spares State.killTeam_spares ((s.teams.filter fun t => t.ctx == ctx).map Team.id) _).trans (State.spares_of_eq rfl rfl rfl)
  refine ⟨hs.trans hk, fun k hmem => ?_, fun e hmem => ?_⟩
  · obtain ⟨c, hmem, hcx⟩ := List.mem_map.mp (hk.copies k hmem)
    exact hcx ▸ hc c hmem
  · obtain ⟨x, hmem, hx⟩ := List.mem_map.mp (hk.roost e hmem)
    exact hx ▸ hr x hmem

/-! ### With nobody waiting at a queue, no list of waiters is written -/

/-- With no waiters there are none afterwards, and memory is as it was. -/
def State.hushed (s u : State) : Prop := s.waiters = [] → u.waiters = [] ∧ u.mem = s.mem

theorem State.hushed.trans (h : s.hushed u) (h' : u.hushed w) : s.hushed w := fun hw =>
  ⟨(h' (h hw).1).1, (h' (h hw).1).2.trans (h hw).2⟩

theorem State.hushed_of_eq (hw : u.waiters = s.waiters) (hm : u.mem = s.mem) : s.hushed u := fun h => ⟨hw.trans h, hm⟩

theorem State.hushed_copiesOf {l : List Nat} (h : s.copiesOf u l) : s.hushed u := by
  obtain ⟨e, rfl, -⟩ := h
  exact State.hushed_of_eq rfl rfl

theorem State.unwait_hushed (s : State) (p : Nat → Nat → Bool) : s.hushed (s.unwait p) := by
  intro h
  rw [State.unwait, State.setWaiters, h]
  exact ⟨rfl, rfl⟩

theorem State.killTeam_hushed (s : State) (id : Nat) : s.hushed (s.killTeam id) := by
  obtain ⟨e, he⟩ := s.endStalls_form id
  refine State.hushed.trans (u := s.endStalls id) (he ▸ State.hushed_of_eq rfl rfl) ?_
  exact ((State.hushed_copiesOf (State.dropCopies_copies _ _)).trans (State.hushed_copiesOf (State.loseDest_copies _ id true))).trans
    ((State.unwait_hushed _ fun t _ => t == id).trans (State.hushed_of_eq rfl rfl))

theorem foldl_hushed {α : Type} {f : State → α → State} (h : ∀ (s : State) x, s.hushed (f s x)) (l : List α) (s : State) : s.hushed (l.foldl f s) := by
  induction l generalizing s with
  | nil => exact State.hushed_of_eq rfl rfl
  | cons x l ih => exact (h s x).trans (ih _)

theorem State.terminate_hushed (s : State) (ctx : Nat) : s.hushed (s.terminate ctx) := by
  have hwait := State.hushed.trans (State.hushed_copiesOf (s.dropCopies_copies fun c => c.ctx == ctx))
    (State.unwait_hushed _ fun t _ => ((s.sch.idents.filter fun i => i.ctx == ctx).map Ident.id).contains t)
  have hdrop : s.hushed (s.dropCtxWork ctx) := fun h => ⟨(hwait h).1, (hwait h).2⟩
  have hkill := foldl_hushed State.killTeam_hushed ((s.teams.filter fun t => t.ctx == ctx).map Team.id) (s.dropCtxWork ctx)
  exact fun h => ⟨((hdrop.trans hkill) h).1, ((hdrop.trans hkill) h).2⟩

end

end Sys2Proof.Machine
end

section
/-! The events of contexts. -/

namespace Sys2Proof.Machine

/-- A context that is terminated, as far as anything of it is left. -/
theorem State.terminate_st {s : State} {ctx : Nat} {c : Ctx} (hc : s.ctx? ctx = some c) :
    ((s.terminate ctx).ctx? ctx).map Ctx.st = some .terminated := by
  rw [State.terminate_ctx?, hc, Option.map_some, Option.map_some, if_pos (by rw [State.ctx?_num hc, beq_self_eq_true])]

/-! ### Commands to CTXCMD (R366) -/

section
variable {s : State} {ctx : Nat} {c : Ctx} (hc : s.ctx? ctx = some c)
include hc

theorem ctxcmdSave_begins (hr : c.st = .running) : exec (.ctxcmdSave ctx) s = .next (s.beginSave ctx .cmd) := by
  show execCtxcmdSave ctx s = _
  rw [execCtxcmdSave, hc]
  exact congrArg _ (if_pos (by simp [hr]))

theorem ctxcmdTerminate_ends (hr : c.st = .running ∨ c.st = .saved) : exec (.ctxcmdTerminate ctx) s = .next (s.terminate ctx) := by
  show execCtxcmdTerminate ctx s = _
  rw [execCtxcmdTerminate, hc]
  exact congrArg _ (if_pos (by rcases hr with h | h <;> simp [h]))

theorem registerWrite_writes {sel v : Nat} (hf : c.st ≠ .free) (hl : ¬ (0x104 ≤ sel ∧ sel ≤ 0x10A ∧ c.st = .running)) :
    exec (.contextRegisterWrite ctx sel v) s = .next (s.updCtx ctx fun c => c.writeReg sel (v % 2 ^ 32)) := by
  show execContextRegisterWrite ctx sel v s = _
  rw [execContextRegisterWrite, hc]
  refine congrArg _ (if_neg ?_)
  simp only [lockedReg, Bool.and_eq_true, decide_eq_true_eq, beq_iff_eq, not_or]
  exact ⟨hf, fun h => hl ⟨h.1.1, h.1.2, h.2⟩⟩

/-! ### The watchdog (R376) -/

theorem State.watchdog_st (d : Nat) :
    ((s.watchdog ctx d).ctx? ctx).map Ctx.st = some .terminated :=
  State.terminate_st ((State.ctx?_of_core ((State.echoFault_core ..).trans (State.record_core ..)) ctx).trans hc)

omit hc in
theorem State.watchdog_ptp (s : State) (ctx d : Nat) : (s.watchdog ctx d).ptp = s.ptp := by
  have h := (State.terminate_spares ((s.record ctx (recordBytes cWatchdog 3 3 0 ctx d 0 0#64 0 0#64)).echoFault ctx cWatchdog 0 none) ctx).1.lasting
  exact (congrArg (fun x => x.2.2.2.2) h).trans (State.ptp_of_core ((State.echoFault_core ..).trans (State.record_core ..)))

omit hc in
/-- The state in which the deadline of a save that began at t is reached. -/
def State.atDeadline (s : State) (t : Nat) : State :=
  if s.ptp < t + saveTicks then s.pass (s.pauseLeft + (t + saveTicks - s.ptp)) else s

omit hc in
theorem State.atDeadline_ptp (s : State) (t : Nat) : t + saveTicks ≤ (s.atDeadline t).ptp := by
  rw [State.atDeadline]
  split
  · show _ ≤ s.ptp + _
    omega
  · omega

theorem State.atDeadline_ctx (t : Nat) : ∃ x, (s.atDeadline t).ctx? ctx = some x := by
  rw [State.atDeadline]
  split
  · refine ⟨_, (find?_map_key s.ctxs Ctx.num (fun c => if c.saving.isSome then { c with saveAt := c.saveAt + _ } else c) (fun c => ?_) ctx).trans
      (congrArg (Option.map _) hc)⟩
    split <;> rfl
  · exact ⟨c, hc⟩

theorem watchdog_waits {t : Nat} (ht : s.saveBegan c = some t) (hp : s.ptp < t + saveTicks) (hs : s.ctxStalled ctx = true) :
    exec (.watchdog ctx 1) s = .next s := by
  show execWatchdog ctx 1 s = _
  rw [execWatchdog, hc]
  dsimp only
  rw [if_pos rfl, ht]
  exact congrArg _ ((if_pos hp).trans (if_pos hs))

theorem watchdog_deadline {t : Nat} (ht : s.saveBegan c = some t) (h : t + saveTicks ≤ s.ptp ∨ s.ctxStalled ctx = false) :
    exec (.watchdog ctx 1) s = .next ((s.atDeadline t).watchdog ctx 1) := by
  show execWatchdog ctx 1 s = _
  rw [execWatchdog, hc]
  dsimp only
  rw [if_pos rfl, ht, State.atDeadline]
  dsimp only
  by_cases hp : s.ptp < t + saveTicks
  · rcases h with h | h
    · omega
    · rw [if_pos hp, if_pos hp, if_neg (by simp [h])]
  · rw [if_neg hp, if_neg hp]

theorem watchdog_fails {d : Nat} (hd : d ≠ 1) (hf : s.saveFails c = some d) : exec (.watchdog ctx d) s = .next (s.watchdog ctx d) := by
  show execWatchdog ctx d s = _
  rw [execWatchdog, hc]
  exact congrArg _ ((if_neg hd).trans (if_pos hf))

/-! ### Destruction (R365) -/

theorem contextDestroy_frees (h0 : ctx ≠ 0) : exec (.contextDestroy ctx) s = .next { s.terminate ctx with
    ctxs := (s.terminate ctx).ctxs.filter fun c => c.num != ctx, misses := (s.terminate ctx).misses.filter fun m => m.ctx != ctx } := by
  show execContextDestroy ctx s = _
  rw [execContextDestroy, if_neg (by simp [h0, hc])]

end

/-- What a destroyed context leaves. -/
theorem destroyed_leaves {s u : State} {ctx : Nat} (hu : { s.terminate ctx with
      ctxs := (s.terminate ctx).ctxs.filter fun c => c.num != ctx, misses := (s.terminate ctx).misses.filter fun m => m.ctx != ctx } = u) :
    u.ctx? ctx = none ∧ (∀ k ∈ u.teams, k.ctx ≠ ctx) ∧ (∀ m ∈ u.misses, m.ctx ≠ ctx) ∧
      (∀ e ∈ u.roost, e.ctx ≠ ctx) ∧ u.tlb = s.tlb ∧ u.pwc = s.pwc ∧ u.l1 = s.l1 ∧ u.shapes = s.shapes ∧ (s.waiters = [] → u.mem = s.mem) := by
  obtain ⟨hs, -, hr⟩ := s.terminate_spares ctx
  have hl := hs.lasting
  simp only [State.lasting, Prod.mk.injEq] at hl
  obtain ⟨htlb, hpwc, hl1, hshapes, -⟩ := hl
  subst hu
  refine ⟨List.find?_eq_none.mpr fun x hx => ?_, s.terminate_none ctx, fun m hm => ?_, hr, htlb, hpwc, hl1, hshapes,
    fun hw => (s.terminate_hushed ctx hw).2⟩
  · exact fun he => bne_iff_ne.mp (List.mem_filter.mp hx).2 (beq_iff_eq.mp he)
  · exact bne_iff_ne.mp (List.mem_filter.mp hm).2

/-! ### Creation (R365) -/

/-- A created context runs at once, with both range sets as given (log entry 29). -/
theorem Ctx.created_given (c : CtxIn) : (Ctx.created c).num = c.num ∧ (Ctx.created c).st = .running ∧ (Ctx.created c).priv = c.priv ∧
    (Ctx.created c).tenant = c.tenant ∧ (Ctx.created c).seed = c.seed ∧ (Ctx.created c).svcq = c.svcq ∧ (Ctx.created c).epoch = 0#32 ∧
    (Ctx.created c).committed = ctxRanges c.ranges ∧ (Ctx.created c).staged = ctxRanges c.ranges :=
  ⟨rfl, rfl, rfl, rfl, rfl, rfl, rfl, rfl, rfl⟩

end Sys2Proof.Machine
end

section
/-! Saves that are written (R380, R389), and the events of contexts settled. -/

namespace Sys2Proof.Machine

/-! ### Whose candidates there are -/

/-- The contexts of the saved images that the schedulers know. -/
def State.candCtxs (s : State) : List Nat := s.sch.cands.map Cand.ctx

section
variable (s : State)

theorem State.storeAs_candCtxs (cmp : Option Bool) (pa : Nat) (bs : List Byte) : (s.storeAs cmp pa bs).candCtxs = s.candCtxs := by
  show (s.sch.cands.map (Cand.mark _ _)).map Cand.ctx = _
  rw [List.map_map]
  refine List.map_congr_left fun c _ => ?_
  rw [Function.comp, Cand.mark]
  split <;> rfl

theorem State.record_candCtxs (ctx : Nat) (bytes : List Byte) : (s.record ctx bytes).candCtxs = s.candCtxs := by
  rw [State.record]
  dsimp only
  split
  · rfl
  · split
    · exact State.storeAs_candCtxs ..
    · exact (State.storeAs_candCtxs ..).trans (State.storeAs_candCtxs ..)

theorem State.emitHub_candCtxs (die unit code tag : Nat) (payload : W32) : (s.emitHub die unit code tag payload).candCtxs = s.candCtxs :=
  congrArg (fun c : Sched => c.cands.map Cand.ctx) (s.emitHub_sch ..)

theorem State.charge_candCtxs (tenant bcls act hub n : Nat) : (s.charge tenant bcls act hub n).2.candCtxs = s.candCtxs := by
  rw [State.charge]
  split
  · exact State.emitHub_candCtxs ..
  · rfl
  · dsimp only
    split
    · exact State.emitHub_candCtxs ..
    · rfl

theorem State.traceRefused_candCtxs (tenant bcls hub tag : Nat) : (s.traceRefused tenant bcls hub tag).candCtxs = s.candCtxs := by
  rw [State.traceRefused]
  split
  · rfl
  · exact (State.emitHub_candCtxs ..).trans ((State.record_candCtxs ..).trans (s.charge_candCtxs ..))

theorem State.emitBuf_candCtxs (k : BufKind) (row : Option (Nat × Nat)) (die unit code tag : Nat) (payload : W32) :
    (s.emitBuf k row die unit code tag payload).candCtxs = s.candCtxs := by
  rw [State.emitBuf]
  dsimp only
  split
  · rfl
  · split
    · refine Eq.trans (b := State.candCtxs (match row.map fun r => (r, s.chargeAns r.1 r.2 actTrace (chamberOf die) 16) with
        | some (r, .ok) => (s.charge r.1 r.2 actTrace (chamberOf die) 16).2
        | some (r, _) => s.chargeRaw r.1 r.2 actTrace (chamberOf die) 16
        | none => s)) rfl ?_
      split
      · exact State.charge_candCtxs ..
      · rfl
      · rfl
    · split
      · exact State.traceRefused_candCtxs ..
      · rfl

theorem State.emitMasks_candCtxs (ctx code : Nat) (ts : List Team) : (s.emitMasks ctx code ts).candCtxs = s.candCtxs := by
  rw [State.emitMasks]
  refine foldl_keep (p := State.candCtxs) (fun u p => ?_) _ s
  split
  · exact State.emitBuf_candCtxs ..
  · rfl

theorem State.emitMasks_core (ctx code : Nat) (ts : List Team) : (s.emitMasks ctx code ts).core = s.core := by
  rw [State.emitMasks]
  refine foldl_keep (p := State.core) (fun u p => ?_) _ s
  split
  · exact State.emitBuf_core ..
  · rfl

/-- A context whose events are filtered out tells nothing. -/
theorem State.emitMasks_filtered {ctx : Nat} (h : (s.filter ctx).en = false) (code : Nat) (ts : List Team) : s.emitMasks ctx code ts = s := by
  have hone : ∀ (l : List (Nat × Nat)), l.foldl (fun s p => match ts.find? fun t => t.cores.contains p.1 with
      | some t => s.emitCore { t with ctx := ctx } p.1 code (BitVec.ofNat 32 p.2)
      | none => s) s = s := by
    intro l
    induction l with
    | nil => rfl
    | cons p l ih =>
      have hk : s.kept ctx code = false := by rw [State.kept, h]; rfl
      rw [List.foldl_cons]
      split
      · rw [State.emitCore, State.emitBuf, if_pos (by rw [hk]; rfl)]
        exact ih
      · exact ih
  rw [State.emitMasks]
  exact hone _

end

/-! ### The area -/

/-- Writing an area changes memory, the record of the images in it, and the place of images in the area alone. -/
theorem State.writeArea_ok {s u : State} {c : Ctx} {ts : List Team} {cause : Cause} (h : s.writeArea c ts cause = .ok u) :
    u.teams = s.teams ∧ u.waiters = s.waiters ∧ u.echo = s.echo ∧ ∀ k x, s.ctx? k = some x → ∃ y, u.ctx? k = some y := by
  rw [State.writeArea] at h
  dsimp only at h
  split at h
  · cases h
  · split at h
    · cases h
    · cases h
      refine ⟨?_, ?_, ?_, fun k x hx => ?_⟩
      · simp only [State.updSch, State.updCtx, State.store_teams]
      · simp only [State.updSch, State.updCtx, State.store_waiters]
      · simp only [State.updSch, State.updCtx, State.store_echo]
      · simp only [State.updSch, State.updCtx, State.ctx?, State.store_ctxs]
        refine ⟨_, (find?_map_key s.ctxs Ctx.num (fun c' => if c'.num == c.num then { c' with saveIds := _ } else c') (fun c' => ?_) k).trans
          (congrArg (Option.map _) hx)⟩
        split <;> rfl

/-! ### Teams that leave with their image -/

theorem State.unwait_none {s : State} (h : s.waiters = []) (p : Nat → Nat → Bool) : s.unwait p = s := by
  rw [State.unwait, State.setWaiters, h]
  obtain ⟨⟩ := s
  cases h
  rfl

section
variable (s : State) (t : Team)

theorem State.removeSaved_teams : (s.removeSaved t).teams = s.teams.filter (fun u => u.id != t.id) ∧ (s.removeSaved t).ctxs = s.ctxs := by
  have h : (((s.disarmTeam t).unwait fun u _ => u == t.id).updIdent t.id fun i =>
    { i with core := t.core, outb := t.groups.map fun g => (g.idx, g.outb, g.unsealed), posts := [] }).core = s.core :=
    (State.updIdent_core _ _ _).trans ((State.unwait_core _ _).trans (s.disarmTeam_core t))
  have hctxs := State.ctxs_of_core h
  exact ⟨congrArg (List.filter _) (State.teams_of_core h), hctxs⟩

/-- What nobody waiting at a queue leaves of memory and of what is told. -/
def State.tells (s : State) : List Waiter × Memory × EchoSt := (s.waiters, s.mem, s.echo)

theorem State.disarmTeam_tells : (s.disarmTeam t).tells = s.tells :=
  foldl_keep (f := fun (s : State) (g : Group) => s.disarm t.id g.idx) (fun _ _ => rfl) t.groups s

theorem State.removeSaved_tells (h : s.waiters = []) : (s.removeSaved t).tells = s.tells := by
  have hw : (s.disarmTeam t).waiters = [] := (congrArg Prod.fst (s.disarmTeam_tells t)).trans h
  rw [State.removeSaved, State.unwait_none hw]
  exact s.disarmTeam_tells t

end

theorem removeAll_teams (ts : List Team) (s : State) : (ts.foldl State.removeSaved s).teams = s.teams.filter (fun u => !(ts.map Team.id).contains u.id) ∧
    (ts.foldl State.removeSaved s).ctxs = s.ctxs := by
  induction ts generalizing s with
  | nil => simp
  | cons t ts ih =>
    obtain ⟨ht, hc⟩ := s.removeSaved_teams t
    obtain ⟨iht, ihc⟩ := ih (s.removeSaved t)
    rw [List.foldl_cons]
    refine ⟨iht.trans ?_, ihc.trans hc⟩
    rw [ht, List.filter_filter]
    refine List.filter_congr fun u _ => ?_
    by_cases h : u.id = t.id <;> simp [h]

theorem removeAll_tells (ts : List Team) {s : State} (h : s.waiters = []) : (ts.foldl State.removeSaved s).tells = s.tells := by
  induction ts generalizing s with
  | nil => rfl
  | cons t ts ih =>
    have ht := s.removeSaved_tells t h
    exact (ih ((congrArg Prod.fst ht).trans h)).trans ht

end Sys2Proof.Machine
end

section
/-! Saves that are written (R380, R389), and the events of contexts settled. -/

namespace Sys2Proof.Machine

section
variable {s s1 : State} {ctx : Nat} {c : Ctx}

/-- The state in which a written save of a context has taken its teams from their cores. -/
def State.saved (s1 : State) (ctx : Nat) (ts : List Team) : State :=
  ((ts.foldl State.removeSaved { s1 with tlb := s1.tlb.filter fun e => e.ctx != ctx, pwc := s1.pwc.filter fun e => e.ctx != ctx }).updCtx ctx fun c =>
    { c with st := .saved, saving := none }).updSch fun h => { h with cands := h.cands.filter fun x => x.ctx != ctx }

theorem saveWritten_saves {cause : Cause} (hc : s.ctx? ctx = some c) (hs : c.saving = some cause) (hr : s.saveReady ctx = true)
    (hw : s.writeArea c (s.imaged c.num) cause = .ok s1) :
    exec (.contextSaveWritten ctx) s = .next ((s1.saved c.num (s.imaged c.num)).emitMasks c.num 0x12 (s.imaged c.num)).testDrained := by
  show execContextSaveWritten ctx s = _
  rw [execContextSaveWritten, hc]
  dsimp only
  rw [hs]
  dsimp only
  rw [if_pos hr, State.finishSave]
  dsimp only
  rw [hw]
  rfl

theorem State.saved_teams (s1 : State) (ctx : Nat) (ts : List Team) :
    (s1.saved ctx ts).teams = s1.teams.filter fun u => !(ts.map Team.id).contains u.id := (removeAll_teams ts _).1

theorem State.saved_ctx? (s1 : State) (ctx : Nat) (ts : List Team) {x : Ctx} (h : s1.ctx? ctx = some x) :
    (s1.saved ctx ts).ctx? ctx = some { x with st := .saved, saving := none } := by
  have hx : (ts.foldl State.removeSaved { s1 with tlb := s1.tlb.filter fun e => e.ctx != ctx, pwc := s1.pwc.filter fun e => e.ctx != ctx }).ctx? ctx =
      some x := by
    rw [State.ctx?, (removeAll_teams ts _).2]
    exact h
  exact State.ctx?_updCtx_self (fun c => { c with st := .saved, saving := none }) (fun _ => rfl) hx

/-- A team of the context that has an image is saved with it. -/
theorem imaged_removed {k : Team} (hk : k ∈ s.teams.filter fun u => !((s.imaged ctx).map Team.id).contains u.id) (hctx : k.ctx = ctx) :
    k.groups = [] := by
  obtain ⟨hmem, hnot⟩ := List.mem_filter.mp hk
  by_contra hg
  have himg : k ∈ s.imaged ctx := List.mem_filter.mpr ⟨hmem, by simp [hctx, hg]⟩
  simp only [Bool.not_eq_true', ← Bool.not_eq_true, List.contains_iff_mem] at hnot
  exact hnot (List.mem_map_of_mem himg)

theorem saveWritten_leaves {cause : Cause} (hc : s.ctx? ctx = some c) (hw : s.writeArea c (s.imaged c.num) cause = .ok s1) {u : State}
    (hu : ((s1.saved c.num (s.imaged c.num)).emitMasks c.num 0x12 (s.imaged c.num)).testDrained = u) :
    (u.ctx? ctx).map (fun c => (c.st, c.saving)) = some (.saved, none) ∧ (∀ k ∈ u.teams, k.ctx = ctx → k.groups = []) ∧
      (∀ x ∈ u.sch.cands, x.ctx ≠ ctx) ∧ (s.waiters = [] → (s.filter ctx).en = false → u.mem = s1.mem) := by
  have hnum : c.num = ctx := State.ctx?_num hc
  obtain ⟨hteams, hwait, hecho, hctxs⟩ := State.writeArea_ok hw
  obtain ⟨y, hy⟩ := hctxs ctx c hc
  have hcore : u.core = (s1.saved c.num (s.imaged c.num)).core := by
    subst hu
    exact (State.testDrained_core _).trans (State.emitMasks_core _ _ _ _)
  have hcands : u.candCtxs = (s1.saved c.num (s.imaged c.num)).candCtxs := by
    subst hu
    exact State.emitMasks_candCtxs _ _ _ _
  refine ⟨?_, fun k hk hctx => ?_, fun x hx => ?_, fun hq hf => ?_⟩
  · rw [State.ctx?_of_core hcore, hnum, State.saved_ctx? s1 ctx _ hy]
    rfl
  · rw [State.teams_of_core hcore, State.saved_teams, hteams, hnum] at hk
    exact imaged_removed hk hctx
  · have hmem : x.ctx ∈ (s1.saved c.num (s.imaged c.num)).candCtxs := hcands ▸ List.mem_map_of_mem hx
    obtain ⟨z, hz, hzx⟩ := List.mem_map.mp hmem
    exact hzx ▸ hnum ▸ bne_iff_ne.mp (List.mem_filter.mp hz).2
  · have htells := removeAll_tells (s.imaged c.num) (s := { s1 with
      tlb := s1.tlb.filter fun e => e.ctx != c.num, pwc := s1.pwc.filter fun e => e.ctx != c.num }) (hwait.trans hq)
    have hfilter : ((s1.saved c.num (s.imaged c.num)).filter c.num).en = false := by
      have he : (s1.saved c.num (s.imaged c.num)).echo = s.echo := (congrArg (fun x => x.2.2) htells).trans hecho
      rw [State.filter, he, hnum, ← State.filter]
      exact hf
    rw [State.emitMasks_filtered _ hfilter] at hu
    subst hu
    exact congrArg (fun x => x.2.1) htells

/-- The state in which the image of a single team is written and its place noted. -/
def State.savedSingle (s1 : State) (t : Team) (x : Cand) (off : Nat) : State :=
  (s1.removeSaved t).updSch fun h => { h with cands := h.cands.map fun y => if y.ctx = x.ctx ∧ y.id = x.id then { y with off := off } else y }

theorem saveWritten_single {x : Cand} {t : Team} (hc : s.ctx? ctx = some c) (hs : c.saving = none) (hp : s.pendingSingle ctx = some (x, t))
    (hr : s.savable t = true) (hw : s.writeArea c [t] .sched = .ok s1) :
    exec (.contextSaveWritten ctx) s = .next (s1.savedSingle t x (s.planArea c).start).testDrained := by
  show execContextSaveWritten ctx s = _
  rw [execContextSaveWritten, hc]
  dsimp only
  rw [hs, hp]
  dsimp only
  rw [if_pos hr, State.finishSingle]
  dsimp only
  rw [hw]
  rfl

theorem saveWritten_single_leaves {x : Cand} {t : Team} (hw : s.writeArea c [t] .sched = .ok s1) {u : State}
    (hu : (s1.savedSingle t x (s.planArea c).start).testDrained = u) :
    u.team? t.id = none ∧ (∀ y ∈ u.sch.cands, y.ctx = x.ctx → y.id = x.id → y.off = (s.planArea c).start) ∧
      (s.waiters = [] → u.mem = s1.mem) := by
  subst hu
  refine ⟨?_, fun y hy h1 h2 => ?_, fun hq => ?_⟩
  · refine List.find?_eq_none.mpr fun k hk he => ?_
    have hk' : k ∈ (s1.removeSaved t).teams := hk
    rw [(s1.removeSaved_teams t).1] at hk'
    exact bne_iff_ne.mp (List.mem_filter.mp hk').2 (beq_iff_eq.mp he)
  · obtain ⟨z, -, rfl⟩ := List.mem_map.mp hy
    by_cases hz : z.ctx = x.ctx ∧ z.id = x.id
    · rw [if_pos hz]
    · rw [if_neg hz] at h1 h2
      exact absurd ⟨h1, h2⟩ hz
  · obtain ⟨-, hwait, -, -⟩ := State.writeArea_ok hw
    exact congrArg (fun x => x.2.1) (s1.removeSaved_tells t (hwait.trans hq))

end

/-! ### Creation (R365) -/

theorem contextCreate_runs {s : State} {c : CtxIn} (hn : c.num < 256) (hf : ∀ x, s.ctx? c.num = some x → x.st = .free)
    (hr : badRange s.pkg.hbmsplit (ctxRanges c.ranges) = none) :
    ∃ u : State, exec (.contextCreate c) s = .next u ∧ u.ctx? c.num = some (Ctx.created c) ∧ u.mem = s.mem ∧ ∀ k, k ≠ c.num → u.ctx? k = s.ctx? k := by
  have hfree : ¬ ((s.ctx? c.num).any fun x => x.st != .free) = true := by
    cases hc : s.ctx? c.num with
    | none => simp
    | some x => simp [hf x hc]
  have hnum : (Ctx.created c).num = c.num := (Ctx.created_given c).1
  refine ⟨_, congrArg Host.Outcome.next (if_neg (by rw [hr]; rintro (h | h | h); exacts [by omega, hfree h, by cases h])), ?_, rfl, fun k hk => ?_⟩
  · show List.find? _ (_ ++ [Ctx.created c]) = _
    rw [List.find?_append, List.find?_eq_none.mpr fun x hx => ?_]
    · simp [hnum]
    · exact fun he => bne_iff_ne.mp (List.mem_filter.mp hx).2 (beq_iff_eq.mp he)
  · show List.find? _ (_ ++ [Ctx.created c]) = _
    rw [List.find?_append, List.find?_filter]
    have hold : s.ctxs.find? (fun a => decide ((a.num != c.num) = true ∧ (a.num == k) = true)) = s.ctx? k := by
      refine List.find?_congr fun x _ => ?_
      by_cases hx : x.num = k
      · simp [hx, hk]
      · simp [hx]
    rw [hold]
    simp [hnum, Ne.symm hk]

/-- Settles O57: each event does the effect of its clause. -/
theorem contextEvents : Obligations.ContextEvents := by
  refine ⟨fun s ctx c hc => ⟨fun hr => ctxcmdSave_begins hc hr, fun hr => ⟨_, ctxcmdTerminate_ends hc hr, State.terminate_st hc, s.terminate_none ctx,
      (s.terminate_spares ctx).2.1, fun hw => (s.terminate_hushed ctx hw).2⟩, fun sel v hf hl => registerWrite_writes hc hf hl,
      fun cause s1 hs hr hw => ⟨_, saveWritten_saves hc hs hr hw, saveWritten_leaves hc hw rfl⟩,
      fun x t s1 hs hp hr hw => ⟨_, saveWritten_single hc hs hp hr hw, saveWritten_single_leaves hw rfl⟩,
      fun t ht => ⟨fun hp hs => watchdog_waits hc ht hp hs, fun h => ⟨_, watchdog_deadline hc ht h, rfl, ?_, ?_⟩⟩,
      fun d hd hf => ⟨_, watchdog_fails hc hd hf, rfl, State.watchdog_st hc d⟩,
      fun h0 => ⟨_, contextDestroy_frees hc h0, destroyed_leaves rfl⟩⟩,
    fun s ctx die unit slot k hk => ⟨?_, ?_⟩, fun s c hn hf hr => ?_⟩
  · obtain ⟨x, hx⟩ := State.atDeadline_ctx hc t
    exact State.watchdog_st hx 1
  · rw [State.watchdog_ptp]
    exact s.atDeadline_ptp t
  · show execCtxcmdEngresume ctx die unit slot s = _
    rw [execCtxcmdEngresume, hk]
  · show execCtxcmdEngcancel ctx die unit slot s = _
    rw [execCtxcmdEngcancel, hk]
  · obtain ⟨u, hx, hu, hmem, hother⟩ := contextCreate_runs hn hf hr
    obtain ⟨-, hst, hpriv, htenant, hseed, hsvcq, hepoch, hcom, hsta⟩ := Ctx.created_given c
    exact ⟨u, _, hx, hu, hst, hpriv, htenant, hseed, hsvcq, hepoch, hcom, hsta, hmem, hother⟩

end Sys2Proof.Machine
end

section
/-! The events of Echo and of the timebase. -/

namespace Sys2Proof.Machine

/-! ### Echo (R352, R358 to R362) -/

theorem find?_split {α : Type} {p : α → Bool} {xs ys : List α} {x : α} (hxs : ∀ y ∈ xs, p y = false) (hx : p x = true) :
    (xs ++ x :: ys).find? p = some x := by
  rw [List.find?_append, List.find?_eq_none.mpr fun y hy => by simp [hxs y hy], List.find?_cons, hx]
  rfl

theorem bufferDrain_takes {s : State} {i : Nat} {b : Buf} {x : Ev} {xs ys : List Ev} (hb : s.echo.bufs[i]? = some b) (he : b.evs = xs ++ x :: ys)
    (hxs : ∀ y ∈ xs, s.drainHeld y.tag = true) (hx : s.drainHeld x.tag = false) : exec (.echoBufferDrain i) s = .next ((s.updEcho fun e =>
      { (e.toHub (chamberOf b.die) [x]) with bufs := e.bufs.set i { b with evs := xs ++ ys } }).tellDrops fun d => d.die == b.die && d.unit == b.unit) := by
  have hfind : (b.evs.find? fun e => !s.drainHeld e.tag) = some x := he ▸ find?_split (fun y hy => by simp [hxs y hy]) (by simp [hx])
  have herase : b.evs.erase x = xs ++ ys := by
    rw [he, List.erase_append_right _ fun hm => ?_, List.erase_cons_head]
    rw [hxs x hm] at hx
    cases hx
  show execEchoBufferDrain i s = _
  rw [execEchoBufferDrain, hb]
  dsimp only
  rw [hfind]
  dsimp only
  rw [herase]

theorem sinkWrite_writes {s : State} {x : Ev} (hx : leastEv (s.echo.held.filter fun e => !s.writeHeld e) = some x) (hs : s.settledEv x = true) :
    exec .echoSinkWrite s = .next ((s.updEcho fun e => e.take x).sinkEvent x) := by
  show execEchoSinkWrite s = _
  rw [execEchoSinkWrite, hx]
  exact congrArg _ (if_pos hs)

theorem sinkWrite_tells {s : State} (h : ∀ e ∈ s.echo.held, s.writeHeld e = true) : exec .echoSinkWrite s = .next (s.tellDrops fun _ => true) := by
  show execEchoSinkWrite s = _
  rw [execEchoSinkWrite, List.filter_eq_nil_iff.mpr fun e he => by simp [h e he]]
  rfl

/-! ### Messages of the time protocol (R354) -/

theorem TimeMaster.choose_parent (t : TimeMaster) (now : Nat) : (t.choose now).parent = bestMaster t.masters now := by
  rw [TimeMaster.choose]
  split
  · exact Eq.symm ‹_›
  · rfl

theorem TimeMaster.choose_same {t : TimeMaster} {now : Nat} (h : bestMaster t.masters now = t.parent) : t.choose now = t := if_pos h

/-- The time master after an Announce is noted, or any other message. -/
def TimeMaster.noted (t : TimeMaster) (m : PtpMsg) (now : Nat) : TimeMaster :=
  match m.body with
  | .announce rank => { t with masters := noteMaster t.masters m.source rank now }
  | _ => t

/-- What a message of the chosen master does. -/
def State.hear (s : State) (m : PtpMsg) : State :=
  match m.body with
  | .announce _ => s
  | .sync age => s.updTime fun t => { t with sync := some (m.seq, (s.ptp : Int) - age) }
  | .followUp origin =>
    match s.echo.time.sync with
    | some (n, at_) => if n = m.seq then s.followUp at_ origin else s
    | none => s
  | .delayResp origin age => s.delayResp ((s.ptp : Int) - age) origin
  | .other => s

section
variable {s : State} {m : PtpMsg}

theorem ptpMessage_deaf (h : s.echo.time.pins = true ∨ m.domain ≠ s.echo.time.domain) : exec (.ptpMessage m) s = .next s := by
  show execPtpMessage m s = _
  rw [execPtpMessage, if_pos (by rcases h with h | h <;> simp [h])]

variable (hp : s.echo.time.pins = false) (hd : m.domain = s.echo.time.domain)
include hp hd

theorem ptpMessage_heard : exec (.ptpMessage m) s = .next (
    if (s.updTime fun t => (t.noted m s.ptp).choose s.ptp).echo.time.parent ≠ some m.source then s.updTime fun t => (t.noted m s.ptp).choose s.ptp
    else (s.updTime fun t => (t.noted m s.ptp).choose s.ptp).hear m) := by
  show execPtpMessage m s = _
  rw [execPtpMessage, if_neg (by simp [hp, hd])]
  rfl

theorem ptpMessage_announce {rank : Nat} (hb : m.body = .announce rank) : exec (.ptpMessage m) s = .next (s.updTime fun t =>
    ({ t with masters := noteMaster t.masters m.source rank s.ptp } : TimeMaster).choose s.ptp) := by
  have hn : ∀ t : TimeMaster, t.noted m s.ptp = { t with masters := noteMaster t.masters m.source rank s.ptp } := fun t => by rw [TimeMaster.noted, hb]
  rw [ptpMessage_heard hp hd, State.hear, hb]
  simp only [hn]
  exact congrArg _ (ite_self _)

theorem ptpMessage_other (hbest : bestMaster s.echo.time.masters s.ptp ≠ some m.source) (hb : ∀ rank, m.body ≠ .announce rank) :
    exec (.ptpMessage m) s = .next (s.updTime fun t => t.choose s.ptp) := by
  have hn : ∀ t : TimeMaster, t.noted m s.ptp = t := fun t => by
    rw [TimeMaster.noted]
    split
    next h => exact absurd h (hb _)
    next => rfl
  rw [ptpMessage_heard hp hd]
  simp only [hn]
  refine congrArg _ (if_pos ?_)
  show (s.echo.time.choose s.ptp).parent ≠ _
  rw [TimeMaster.choose_parent]
  exact hbest

theorem ptpMessage_chosen (hpar : s.echo.time.parent = some m.source) (hbest : bestMaster s.echo.time.masters s.ptp = some m.source)
    (hb : ∀ rank, m.body ≠ .announce rank) : exec (.ptpMessage m) s = .next (s.hear m) := by
  have hn : ∀ t : TimeMaster, t.noted m s.ptp = t := fun t => by
    rw [TimeMaster.noted]
    split
    next h => exact absurd h (hb _)
    next => rfl
  have hsame : (s.updTime fun t => (t.noted m s.ptp).choose s.ptp) = s := by
    simp only [hn]
    exact congrArg (fun t => s.updEcho fun e => { e with time := t }) (TimeMaster.choose_same (hbest.trans hpar.symm))
  rw [ptpMessage_heard hp hd, hsame, if_neg (not_not.mpr hpar)]

end

theorem State.followUp_noPath {s : State} {arr : Int} {origin : Nat} (h : s.echo.time.path = none) : s.followUp arr origin = s.updTime fun t =>
    { t with sync := none, ms := some (sInt 56 (wrapInt 56 (arr + s.echo.time.epoch - origin))) } := by
  rw [State.followUp, h]

theorem State.followUp_path {s : State} {arr p : Int} {origin : Nat} (h : s.echo.time.path = some p)
    (hle : p - sInt 56 (wrapInt 56 (arr + s.echo.time.epoch - origin)) ≤ (ticks1us : Int)) : s.followUp arr origin = (s.updTime fun t =>
      { t with sync := none, ms := some (sInt 56 (wrapInt 56 (arr + s.echo.time.epoch - origin))) }).timeUpdate
        (p - sInt 56 (wrapInt 56 (arr + s.echo.time.epoch - origin))) := by
  rw [State.followUp, h]
  exact if_neg (not_lt.mpr hle)

theorem State.delayResp_path {s : State} {at_ ms : Int} {origin : Nat} (h : s.echo.time.ms = some ms) : s.delayResp at_ origin =
    s.updTime fun t => { t with path := some ((ms + sInt 56 (wrapInt 56 ((origin : Int) - t.epoch - at_))) / 2) } := by
  show ({ s with echo := { s.echo with time := match s.echo.time.ms with
    | none => s.echo.time
    | some ms => { s.echo.time with path := some ((ms + sInt 56 (wrapInt 56 ((origin : Int) - s.echo.time.epoch - at_))) / 2) } } } : State) = _
  rw [h]
  rfl

/-! ### The pins (R354) -/

section
variable {s : State} {offset : Int} {secs line : Nat} (hp : s.echo.time.pins = true) (ht : s.echo.time.tod = some (secs, line))
include hp ht

theorem ppsEdge_marks (h1 : (line : Int) ≤ (s.ptp : Int) - offset) (h2 : (s.ptp : Int) - offset - line ≤ todTicks) :
    exec (.ppsEdge offset) s = .next ((s.updTime fun t => { t with tod := none }).timeUpdate
      (sInt 56 (wrapInt 56 ((secs * ticks1s : Int) - s.echo.time.epoch + offset - s.ptp)))) := by
  show execPpsEdge offset s = _
  rw [execPpsEdge, if_neg (by simp [hp]), ht]
  exact congrArg _ (if_pos ⟨h1, h2⟩)

theorem ppsEdge_lost (h : (s.ptp : Int) - offset < line ∨ todTicks < (s.ptp : Int) - offset - line) :
    exec (.ppsEdge offset) s = .next (s.updTime fun t => { t with tod := none }) := by
  show execPpsEdge offset s = _
  rw [execPpsEdge, if_neg (by simp [hp]), ht]
  refine congrArg _ (if_neg fun hc => ?_)
  rcases h with h | h
  · exact absurd hc.1 (not_le.mpr h)
  · exact absurd hc.2 (not_le.mpr h)

end

theorem todSecs_iff (line : List Byte) (n : Nat) : todSecs line = some n ↔ ∃ ds : List Byte, line = 0x54#8 :: (ds ++ [0x0D#8, 0x0A#8]) ∧
    ds.length = 12 ∧ (∀ d ∈ ds, 0x30 ≤ d.toNat ∧ d.toNat ≤ 0x39) ∧ n = ds.foldl (fun n d => 10 * n + (d.toNat - 0x30)) 0 := by
  constructor
  · intro h
    rw [todSecs] at h
    split at h
    next hc =>
      obtain ⟨hlen, htag, hend, hds⟩ := hc
      refine ⟨(line.drop 1).take 12, ?_, by simp [hlen], fun d hd => of_decide_eq_true (List.all_eq_true.mp hds d hd), (Option.some.inj h).symm⟩
      calc line = line.take 1 ++ ((line.drop 1).take 12 ++ (line.drop 1).drop 12) := by rw [List.take_append_drop, List.take_append_drop]
        _ = [0x54#8] ++ ((line.drop 1).take 12 ++ [0x0D#8, 0x0A#8]) := by rw [htag, List.drop_drop, hend]
        _ = _ := rfl
    next => cases h
  · rintro ⟨ds, rfl, hlen, hds, rfl⟩
    have htake : (((0x54#8 :: (ds ++ [0x0D#8, 0x0A#8])).drop 1).take 12) = ds := by
      rw [List.drop_succ_cons, List.drop_zero, ← hlen, List.take_left]
    rw [todSecs, htake]
    refine if_pos ⟨by simp [hlen], rfl, ?_, List.all_eq_true.mpr fun d hd => decide_eq_true (hds d hd)⟩
    rw [List.drop_succ_cons, ← hlen, List.drop_left]

/-! ### The timebase (R354 to R356) -/

theorem State.emitHub_time (s : State) (die unit code tag : Nat) (payload : W32) : (s.emitHub die unit code tag payload).echo.time = s.echo.time := by
  rw [State.emitHub]
  split
  · rfl
  · show (s.echo.toHub _ _).time = _
    rw [EchoSt.toHub]
    split <;> rfl

/-- What the time master tells leaves memory and the timebase alone. -/
def State.clocked (s : State) : Memory × Nat := (s.mem, s.ptp)

theorem State.emitHub_clocked (s : State) (die unit code tag : Nat) (payload : W32) : (s.emitHub die unit code tag payload).clocked = s.clocked :=
  Prod.ext (s.emitHub_mem ..) (State.ptp_of_core (s.emitHub_core ..))

theorem State.timeTo_clocked (s : State) (st : TimeSt) : (s.timeTo st).clocked = s.clocked := by
  rw [State.timeTo]
  split
  · rfl
  · exact State.emitHub_clocked ..

theorem State.timeTo_st (s : State) (st : TimeSt) : (s.timeTo st).echo.time.st = st := by
  rw [State.timeTo]
  split
  · assumption
  · exact congrArg TimeMaster.st (State.emitHub_time ..)

end Sys2Proof.Machine
end

section
/-! Updates and losses of the time source; the events of Echo and of the timebase settled. -/

namespace Sys2Proof.Machine

/-- The state in which an update is counted as near or not (R355). -/
def State.updateCounted (s : State) (offset : Int) : State :=
  s.updTime fun t => { t with good := if decide (offset.natAbs < ticks100ns) then t.good + 1 else 0 }

/-- The state in which an update has entered its state of the time master (R355). -/
def State.updateEntered (s : State) (offset : Int) : State :=
  if (s.updateCounted offset).echo.time.st = .freerun then (s.updateCounted offset).timeTo .acquiring
  else if 8 ≤ (s.updateCounted offset).echo.time.good then (s.updateCounted offset).timeTo .locked else s.updateCounted offset

/-- The state in which an update has stepped the timebase, where it does (R356). -/
def State.updateStepped (s : State) (offset : Int) : State :=
  if (ticks1us : Int) < offset then (s.setTime (s.ptp + offset.toNat)).emitTime 0x62 (min offset.toNat (2 ^ 31 - 1)) else s

theorem State.timeUpdate_eq (s : State) (offset : Int) : s.timeUpdate offset = ((s.updateEntered offset).updateStepped offset).updTime fun t =>
    { t with heard := some ((s.updateEntered offset).updateStepped offset).ptp } := rfl

section
variable (s : State) (offset : Int)

theorem State.updateEntered_clocked : (s.updateEntered offset).clocked = s.clocked := by
  rw [State.updateEntered]
  split
  · exact State.timeTo_clocked _ _
  · split
    · exact State.timeTo_clocked _ _
    · rfl

theorem State.updateEntered_acquiring (h : s.echo.time.st = .freerun) : (s.updateEntered offset).echo.time.st = .acquiring := by
  rw [State.updateEntered]
  exact (congrArg (fun u : State => u.echo.time.st) (if_pos h)).trans (State.timeTo_st _ _)

theorem State.updateEntered_locked (h : s.echo.time.st ≠ .freerun) (hn : offset.natAbs < ticks100ns) (hg : 8 ≤ s.echo.time.good + 1) :
    (s.updateEntered offset).echo.time.st = .locked := by
  rw [State.updateEntered]
  refine (congrArg (fun u : State => u.echo.time.st) ((if_neg h).trans (if_pos ?_))).trans (State.timeTo_st _ _)
  show 8 ≤ (if decide (offset.natAbs < ticks100ns) then s.echo.time.good + 1 else 0)
  rw [if_pos (decide_eq_true hn)]
  exact hg

theorem State.updateStepped_time : (s.updateStepped offset).echo.time = s.echo.time := by
  rw [State.updateStepped]
  split
  · exact State.emitHub_time ..
  · rfl

theorem State.updateStepped_far (h : (ticks1us : Int) < offset) : (s.updateStepped offset).clocked = (s.mem, s.ptp + offset.toNat) := by
  rw [State.updateStepped, if_pos h]
  exact State.emitHub_clocked ..

theorem State.updateStepped_near (h : offset ≤ (ticks1us : Int)) : s.updateStepped offset = s := if_neg (not_lt.mpr h)

theorem State.timeUpdate_time : (s.timeUpdate offset).echo.time.st = (s.updateEntered offset).echo.time.st := by
  have h := congrArg TimeMaster.st (State.updateStepped_time (s.updateEntered offset) offset)
  exact h

theorem State.timeUpdate_clocked : (s.timeUpdate offset).clocked = ((s.updateEntered offset).updateStepped offset).clocked := rfl

theorem State.timeUpdate_far (h : (ticks1us : Int) < offset) : (s.timeUpdate offset).clocked = (s.mem, s.ptp + offset.toNat) := by
  have he := s.updateEntered_clocked offset
  rw [State.timeUpdate_clocked, State.updateStepped_far _ _ h]
  exact congrArg (fun x : Memory × Nat => (x.1, x.2 + offset.toNat)) he

theorem State.timeUpdate_near (h : offset ≤ (ticks1us : Int)) : (s.timeUpdate offset).clocked = s.clocked := by
  rw [State.timeUpdate_clocked, State.updateStepped_near _ _ h, State.updateEntered_clocked]

end

/-! ### A lost source (R355) -/

section
variable {s : State} {h : Nat} (hh : s.echo.time.heard = some h)
include hh

theorem timeSourceLost_holds (hs : s.echo.time.st = .locked) :
    exec .timeSourceLost s = .next ((s.pass (h + 2 * ticks1s - s.ptp)).timeTo .holdover) := by
  show execTimeSourceLost s = _
  rw [execTimeSourceLost, hh]
  dsimp only
  rw [hs]

theorem timeSourceLost_frees (hs : s.echo.time.st ≠ .locked) : exec .timeSourceLost s = .next
    (((s.pass (h + 16 * ticks1s - s.ptp)).timeTo .freerun).updTime fun t => { t with good := 0, heard := none }) := by
  show execTimeSourceLost s = _
  rw [execTimeSourceLost, hh]
  dsimp only
  split
  · contradiction
  · rfl

end

/-- Time passes up to a moment, and memory stays. -/
theorem State.pass_reaches (s : State) (t : Nat) (st : TimeSt) :
    t ≤ ((s.pass (t - s.ptp)).timeTo st).ptp ∧ ((s.pass (t - s.ptp)).timeTo st).mem = s.mem := by
  have h := State.timeTo_clocked (s.pass (t - s.ptp)) st
  refine ⟨?_, congrArg Prod.fst h⟩
  rw [show ((s.pass (t - s.ptp)).timeTo st).ptp = s.ptp + (t - s.ptp) from congrArg Prod.snd h]
  omega

/-- Settles O58: each event does the effect of its clause. -/
theorem echoAndTimeEvents : Obligations.EchoAndTimeEvents := by
  refine ⟨fun s i b x xs ys hb he hxs hx => bufferDrain_takes hb he hxs hx, fun s x hx hs => sinkWrite_writes hx hs, fun s h => sinkWrite_tells h,
    fun s die hn => congrArg Host.Outcome.next (if_neg hn), fun s m => ⟨fun h => ptpMessage_deaf h, fun hp hd => ⟨fun rank hb => ptpMessage_announce hp hd hb,
      fun hbest hb => ptpMessage_other hp hd hbest hb, fun hpar hbest => ?_⟩⟩, ?_, ?_, todSecs_iff, ?_, ?_⟩
  · have hchosen : ∀ {body}, m.body = body → (∀ rank, body ≠ .announce rank) → exec (.ptpMessage m) s = .next (s.hear m) := fun hb hne =>
      ptpMessage_chosen hp hd hpar hbest fun rank => hb ▸ hne rank
    refine ⟨fun age hb => ?_, ?_, fun origin age ms hb hms => ?_⟩
    · rw [hchosen hb (by simp), State.hear, hb]
    · intro origin arr hb hsync ms u
      have hx : exec (.ptpMessage m) s = .next (s.followUp arr origin) := by
        rw [hchosen hb (by simp), State.hear, hb]
        dsimp only
        rw [hsync]
        exact congrArg _ (if_pos rfl)
      exact ⟨fun hpath => hx.trans (congrArg _ (State.followUp_noPath hpath)), fun p hpath hle => hx.trans (congrArg _ (State.followUp_path hpath hle))⟩
    · rw [hchosen hb (by simp), State.hear, hb]
      exact congrArg _ (State.delayResp_path hms)
  · intro s offset secs line hp ht edge u
    exact ⟨fun h1 h2 => ppsEdge_marks hp ht h1 h2, fun h => ppsEdge_lost hp ht h⟩
  · intro s line
    exact ⟨fun hp => congrArg Host.Outcome.next (if_pos hp), fun hp => congrArg Host.Outcome.next (if_neg (by simp [hp]))⟩
  · intro s h hh
    refine ⟨fun hs => ?_, fun hs => ?_⟩
    · obtain ⟨hptp, hmem⟩ := s.pass_reaches (h + 2 * ticks1s) .holdover
      exact ⟨_, timeSourceLost_holds hh hs, rfl, State.timeTo_st _ _, hptp, hmem⟩
    · obtain ⟨hptp, hmem⟩ := s.pass_reaches (h + 16 * ticks1s) .freerun
      exact ⟨_, timeSourceLost_frees hh hs, State.timeTo_st _ _, rfl, rfl, hptp, hmem⟩
  · intro s offset u
    have hcases : u.clocked = (s.mem, if (ticks1us : Int) < offset then s.ptp + offset.toNat else s.ptp) := by
      split
      next h => exact s.timeUpdate_far offset h
      next h => exact s.timeUpdate_near offset (not_lt.mp h)
    have hptp : u.ptp = if (ticks1us : Int) < offset then s.ptp + offset.toNat else s.ptp := congrArg Prod.snd hcases
    refine ⟨?_, congrArg Prod.fst hcases, rfl, fun h => hptp.trans (if_pos h), fun h => hptp.trans (if_neg (not_lt.mpr h)), fun h => ?_, fun h hn hg => ?_⟩
    · rw [hptp]
      split <;> omega
    · exact (s.timeUpdate_time offset).trans (s.updateEntered_acquiring offset h)
    · exact (s.timeUpdate_time offset).trans (s.updateEntered_locked offset h hn hg)

end Sys2Proof.Machine
end

section
/-! What events of contexts, copies and dies leave of the package and of the caches of the dies. -/

namespace Sys2Proof.Machine

/-- Cycle counts, caches and misses of the dies, and which dies there are. -/
def State.ground (s : State) : (List (BitVec 64) × List L1Line × List TlbEntry × List Miss) × BitVec 14 × List Die × BitVec 14 × BitVec 14 :=
  ((s.clks, s.l1, s.tlb, s.misses), s.pkg.numbered, s.pkg.dies, s.pkg.mgmt.gcur, s.pkg.mgmt.diepres)

/-- Where the teams sit. -/
def State.seats (s : State) : List (Nat × List Nat) := s.teams.map fun t => (t.core, t.cores)

/-- The ground, with the contexts and where the teams sit. -/
def State.footing (s : State) : ((List (BitVec 64) × List L1Line × List TlbEntry × List Miss) × BitVec 14 × List Die × BitVec 14 × BitVec 14) ×
    List Ctx × List (Nat × List Nat) := (s.ground, s.ctxs, s.seats)

section
variable (s : State)

/-! ### Stores, records and what is told -/

@[simp] theorem State.updSch_footing (f : Sched → Sched) : (s.updSch f).footing = s.footing := rfl
@[simp] theorem State.updEcho_footing (f : EchoSt → EchoSt) : (s.updEcho f).footing = s.footing := rfl
@[simp] theorem State.updEng_footing (f : Engines → Engines) : (s.updEng f).footing = s.footing := rfl
@[simp] theorem State.updCopy_footing (id : Nat) (f : Copy → Copy) : (s.updCopy id f).footing = s.footing := rfl
@[simp] theorem State.updIdent_footing (id : Nat) (f : Ident → Ident) : (s.updIdent id f).footing = s.footing := rfl
@[simp] theorem State.testDrained_footing : s.testDrained.footing = s.footing := rfl

@[simp] theorem State.storeAs_footing (cmp : Option Bool) (pa : Nat) (bs : List Byte) : (s.storeAs cmp pa bs).footing = s.footing := by
  simp [State.footing, State.ground, State.seats]
@[simp] theorem State.store_footing (pa : Nat) (bs : List Byte) : (s.store pa bs).footing = s.footing := s.storeAs_footing ..
@[simp] theorem State.storeNat_footing (pa n x : Nat) : (s.storeNat pa n x).footing = s.footing := s.storeAs_footing ..

theorem State.storeSpans_footing (spans : List (Nat × Nat)) (bs : List Byte) (s : State) : (s.storeSpans spans bs).footing = s.footing := by
  induction spans generalizing s bs with
  | nil => rfl
  | cons x spans ih => exact (ih ..).trans (s.store_footing ..)

@[simp] theorem State.unwait_footing (p : Nat → Nat → Bool) : (s.unwait p).footing = s.footing :=
  foldl_keep (p := State.footing) (fun u w => by
    dsimp only
    split
    · rfl
    · exact State.storeSpans_footing ..) _ ({ s with waiters := s.waiters.filter fun w => !p w.team w.grp } : State)

@[simp] theorem State.record_footing (ctx : Nat) (bytes : List Byte) : (s.record ctx bytes).footing = s.footing := by
  rw [State.record]
  dsimp only
  split
  · rfl
  · split <;> simp

@[simp] theorem State.emitHub_footing (die unit code tag : Nat) (payload : W32) : (s.emitHub die unit code tag payload).footing = s.footing := by
  obtain ⟨_, h⟩ := s.emitHub_form die unit code tag payload
  rw [h]
  rfl

@[simp] theorem State.charge_footing (tenant bcls act hub n : Nat) : (s.charge tenant bcls act hub n).2.footing = s.footing := by
  obtain ⟨_, _, h⟩ := s.charge_form tenant bcls act hub n
  rw [h]
  rfl

theorem State.traceRefused_footing (tenant bcls hub tag : Nat) : (s.traceRefused tenant bcls hub tag).footing = s.footing := by
  rw [State.traceRefused]
  split
  · rfl
  · exact (State.emitHub_footing ..).trans ((State.record_footing ..).trans (s.charge_footing ..))

/-- The state in which an event that is taken has been charged. -/
def State.traceCharged (s : State) (row : Option (Nat × Nat)) (hub : Nat) : State :=
  match row.map fun r => (r, s.chargeAns r.1 r.2 actTrace hub 16) with
  | some (r, .ok) => (s.charge r.1 r.2 actTrace hub 16).2
  | some (r, _) => s.chargeRaw r.1 r.2 actTrace hub 16
  | none => s

theorem State.traceCharged_footing (row : Option (Nat × Nat)) (hub : Nat) : (s.traceCharged row hub).footing = s.footing := by
  rw [State.traceCharged]
  split
  · exact s.charge_footing ..
  · rfl
  · rfl

theorem State.emitBuf_footing (k : BufKind) (row : Option (Nat × Nat)) (die unit code tag : Nat) (payload : W32) :
    (s.emitBuf k row die unit code tag payload).footing = s.footing := by
  rw [State.emitBuf]
  dsimp only
  split
  · rfl
  · split
    · exact s.traceCharged_footing row (chamberOf die)
    · split
      · exact State.traceRefused_footing ..
      · rfl

@[simp] theorem State.emitCore_footing (t : Team) (core code : Nat) (payload : W32) : (s.emitCore t core code payload).footing = s.footing :=
  s.emitBuf_footing ..
@[simp] theorem State.tellFault_footing (ctx code grp : Nat) : (s.echoFault ctx code grp none).footing = s.footing := s.emitHub_footing ..
@[simp] theorem State.logFault_footing (ctx code detail addr : Nat) : (s.logFault ctx code detail addr).footing = s.footing :=
  (State.tellFault_footing ..).trans (s.record_footing ..)
theorem State.notice_footing (ctx va pa : Nat) : (s.notice ctx va pa).footing = s.footing := (State.emitHub_footing ..).trans rfl

theorem State.decrementPa_footing (ctx va pa k : Nat) : (s.decrementPa ctx va pa k).footing = s.footing := by
  rw [State.decrementPa]
  dsimp only
  split
  · rfl
  · refine Eq.trans ?_ (s.storeNat_footing pa 4 (if s.mem.rd pa 4 < k then 0 else s.mem.rd pa 4 - k))
    generalize s.storeNat pa 4 _ = u
    split <;> split
    · exact (State.notice_footing ..).trans (State.logFault_footing ..)
    · exact State.logFault_footing ..
    · exact State.notice_footing ..
    · rfl

theorem State.decrement_footing (ctx va : Nat) : (s.decrement ctx va).footing = s.footing := by
  rw [State.decrement]
  split
  · rfl
  · split
    · exact State.decrementPa_footing ..
    · exact State.logFault_footing ..

/-! ### The end of a team and of a context -/

theorem State.footing_copiesOf {s u : State} {l : List Nat} (h : s.copiesOf u l) : u.footing = s.footing := by
  obtain ⟨e, rfl, -⟩ := h
  rfl

@[simp] theorem State.dropCopies_footing (p : Copy → Bool) : (s.dropCopies p).footing = s.footing := State.footing_copiesOf (s.dropCopies_copies p)

/-- Tables of what teams wait for are no part of the footing. -/
theorem State.waits_footing (r : List Roost) (o : List Ovf) (f : List Freeze) (c : List PendCall) :
    ({ s with roost := r, ovf := o, freezes := f, calls := c } : State).footing = s.footing := rfl

theorem State.dropTeamWork_footing (id : Nat) : (s.dropTeamWork id).footing = s.footing := by
  have hdest := (State.footing_copiesOf (State.loseDest_copies (s.dropCopies fun c => c.team == id) id true)).trans (s.dropCopies_footing _)
  unfold State.dropTeamWork
  rw [State.waits_footing, State.unwait_footing]
  exact hdest

theorem State.dropCtxWork_footing (ctx : Nat) : (s.dropCtxWork ctx).footing = s.footing := (State.unwait_footing _ _).trans (s.dropCopies_footing _)

theorem State.killTeam_ground (id : Nat) : (s.killTeam id).ground = s.ground := by
  obtain ⟨_, h⟩ := s.endStalls_form id
  refine (congrArg Prod.fst ((s.endStalls id).dropTeamWork_footing id)).trans ?_
  rw [h]
  rfl

theorem State.terminate_ground (ctx : Nat) : (s.terminate ctx).ground = s.ground := by
  have hkill := foldl_keep (f := State.killTeam) (p := State.ground) State.killTeam_ground ((s.teams.filter fun t => t.ctx == ctx).map Team.id)
    (s.dropCtxWork ctx)
  exact hkill.trans (congrArg Prod.fst (s.dropCtxWork_footing ctx))

/-! ### Copies that are cancelled -/

/-- A change of a team that does not move it. -/
theorem State.updTeam_footing {s : State} {id : Nat} {f : Team → Team} (h : ∀ t, (f t).core = t.core ∧ (f t).cores = t.cores) :
    (s.updTeam id f).footing = s.footing := by
  have hseats : (s.updTeam id f).seats = s.seats := by
    refine List.map_map.trans (List.map_congr_left fun t _ => ?_)
    rw [Function.comp]
    split
    · exact Prod.ext (h t).1 (h t).2
    · rfl
  exact congrArg (fun x => (s.ground, s.ctxs, x)) hseats

theorem State.updGrp_footing (id : Nat × Nat) (f : Group → Group) : (s.updGrp id f).footing = s.footing := State.updTeam_footing fun _ => ⟨rfl, rfl⟩

theorem State.post_footing (team : Nat) (p : Posting) : (s.post team p).footing = s.footing := by
  have hbar : ∀ i (u : State), (u.updBar team i Barrier.abort).footing = u.footing := fun i u => State.updTeam_footing fun _ => ⟨rfl, rfl⟩
  have htile : ∀ half i st (u : State), (u.updTile team half i fun e => e.filled st).footing = u.footing := fun half i st u =>
    State.updTeam_footing fun _ => ⟨rfl, rfl⟩
  rw [State.post]
  cases p.bar <;> cases p.tile
  · rfl
  · exact htile _ _ _ _
  · exact hbar _ _
  · exact (htile _ _ _ _).trans (hbar _ _)

theorem State.endDest_footing (c : Copy) (d : Nat × Nat) (abort : Bool) (st : TileSt) : (s.endDest c d abort st).footing = s.footing := by
  have hposted : ∀ p : Posting, (if p.bar.isNone && p.tile.isNone then s
      else if s.away d.1 then s.updIdent d.1 fun i => { i with posts := i.posts ++ [p] } else s.post d.1 p).footing = s.footing := by
    intro p
    split
    · rfl
    · split
      · rfl
      · exact State.post_footing ..
  exact hposted _

theorem State.logMcast_footing (id : Nat) : (s.logMcast id).footing = s.footing := by
  rw [State.logMcast]
  split
  · rfl
  · split
    · rfl
    · exact (State.updCopy_footing ..).trans ((State.tellFault_footing ..).trans (s.record_footing ..))

theorem State.closeBatch_footing (id : Nat × Nat) (t : Team) (g : Group) (b : Batch) : (s.closeBatch id t g b).footing = s.footing := by
  have hcore := (State.emitCore_footing (s.updGrp id fun g => { g with outb := g.outb.filter fun x => x.seq != b.seq }) t (t.coreOf id.2) 0x20
    (BitVec.ofNat 32 (g.slot * 2 ^ 24 + b.seq.toNat % 2 ^ 24))).trans (s.updGrp_footing _ _)
  rw [State.closeBatch]
  split
  · exact (State.decrement_footing ..).trans hcore
  · exact hcore

theorem State.closeBatches_footing : s.closeBatches.footing = s.footing := by
  rw [State.closeBatches]
  refine foldl_keep (p := State.footing) (fun u _ => ?_) _ s
  dsimp only
  split
  · exact State.closeBatch_footing ..
  · rfl

theorem State.cancelCopy_footing (id : Nat) : (s.cancelCopy id).footing = s.footing := by
  rw [State.cancelCopy]
  split
  · rfl
  next c _ =>
    have hdests := foldl_keep (f := fun (u : State) d => u.endDest c d true .empty) (p := State.footing) (fun u d => u.endDest_footing ..)
      (c.dests s) (s.logMcast id)
    exact (State.testDrained_footing _).trans <| (State.closeBatches_footing _).trans <| (State.logFault_footing ..).trans ((State.dropCopies_footing _ _).trans
      (hdests.trans (s.logMcast_footing id)))

/-- A link that is down cancels the copy whose element meets it. -/
theorem State.faultUnit_linkDown (k : Cmd) (c : Copy) (x : Exc) (h : x.code = cLinkDown) : (s.faultUnit k c x).footing = s.footing := by
  rw [State.faultUnit]
  dsimp only
  rw [h, if_pos (by decide), if_neg (by decide)]
  refine (State.cancelCopy_footing _ _).trans ?_
  have htold := (State.tellFault_footing (s.record c.ctx (recordBytes cCopyFault 1 1 c.grp c.ctx (0x20000 + cLinkDown) 0 0#64 x.addr
    (BitVec.ofNat 64 (k.die * 2 ^ 24 + k.unit * 2 ^ 12 + k.slot)))) c.ctx cCopyFault c.grp).trans (s.record_footing ..)
  split
  · rw [if_neg (by decide)]
    exact htold
  · exact htold

end

end Sys2Proof.Machine
end

section
/-! A die that is LOST, and what the check of the side-link paths leaves (R20, R22, R394). -/

namespace Sys2Proof.Machine

theorem setDie_false_other {x : BitVec 14} {e : Nat} (d : Nat) (h : x.getLsbD e = false) : (setDie x d false).getLsbD e = false := by
  rw [setDie, if_neg Bool.false_ne_true, BitVec.getLsbD_and, h, Bool.false_and]

theorem setDie_false_self (x : BitVec 14) {d : Nat} (h : d < 14) : (setDie x d false).getLsbD d = false := by
  rw [setDie, if_neg Bool.false_ne_true, BitVec.getLsbD_and, BitVec.getLsbD_not, BitVec.getLsbD_ofNat, Nat.testBit_two_pow_self]
  simp [h]

theorem State.die?_updDie (s : State) (d : Nat) {f : Die → Die} (hf : ∀ x, (f x).num = x.num) (e : Nat) :
    (s.updDie d f).die? e = (s.die? e).map fun x => if x.num == d then f x else x :=
  find?_map_key s.pkg.dies Die.num (fun x => if x.num == d then f x else x) (fun x => by split <;> simp [hf]) e

theorem State.die?_num {s : State} {d : Nat} {x : Die} (h : s.die? d = some x) : x.num = d := by simpa using List.find?_some h

theorem mem_ctxsOf (on : List Team) (l : List Nat) (y : Nat) : y ∈ on.foldl (fun l t => insertIdx t.ctx l) l ↔ y ∈ l ∨ ∃ t ∈ on, t.ctx = y := by
  induction on generalizing l with
  | nil => simp
  | cons t on ih =>
    rw [List.foldl_cons, ih, mem_insertIdx, List.exists_mem_cons_iff, ← or_assoc, or_comm (a := y = t.ctx), eq_comm (a := y)]

/-! ### A LOST die -/

section
variable (s : State)

theorem State.lostCtx_ground (ctx : Nat) : (s.lostCtx ctx).ground = s.ground :=
  (State.terminate_ground _ ctx).trans (congrArg Prod.fst ((State.tellFault_footing ..).trans (s.record_footing ..)))

theorem State.lostCtx_teams (ctx : Nat) : ∀ t ∈ (s.lostCtx ctx).teams, t ∈ s.teams := by
  intro t ht
  rw [State.lostCtx, State.terminate_teams, State.teams_of_core ((State.echoFault_core ..).trans (State.record_core ..))] at ht
  exact (List.mem_filter.mp ht).1

theorem State.lostCtx_ctx? (ctx k : Nat) : (s.lostCtx ctx).ctx? k =
    (s.ctx? k).map fun c => if c.num == ctx then { c with st := .terminated, saving := none } else c := by
  rw [State.lostCtx, State.terminate_ctx?, State.ctx?_of_core ((State.echoFault_core ..).trans (State.record_core ..))]

/-- The teams with a core on a die. -/
def State.teamsOnDie (die : Nat) : List Team := s.teams.filter fun t => t.core != 0 && t.cores.any fun c => coreDie c == die

/-- The state in which a die is marked LOST. -/
def State.markLost (die : Nat) : State :=
  (s.updDie die fun d => { d with lost := true, rerouted := false, out := false }).updMgmt fun m => { m with diepres := setDie m.diepres die false }

/-- The state in which the teams of a LOST die are killed and their contexts terminated. -/
def State.emptyDie (die : Nat) : State :=
  ((s.teamsOnDie die).foldl (fun l t => insertIdx t.ctx l) []).foldl State.lostCtx ((s.teamsOnDie die).foldl (fun s t => s.killTeam t.id) (s.markLost die))

theorem State.loseDie_eq (die : Nat) : s.loseDie die = ((((s.emptyDie die).clearDie die).loseEngines die).dropCounts die).testDrained := rfl

theorem killTeams_teams_subset (on : List Team) (s : State) : ∀ t ∈ (on.foldl (fun s t => s.killTeam t.id) s).teams, t ∈ s.teams ∧ ∀ x ∈ on, x.id ≠ t.id := by
  induction on generalizing s with
  | nil => exact fun t ht => ⟨ht, fun x hx => absurd hx List.not_mem_nil⟩
  | cons x on ih =>
    intro t ht
    obtain ⟨hmem, hne⟩ := ih (s.killTeam x.id) t ht
    rw [State.killTeam_teams, List.mem_filter] at hmem
    exact ⟨hmem.1, List.forall_mem_cons.mpr ⟨fun h => bne_iff_ne.mp hmem.2 h.symm, hne⟩⟩

theorem lostCtxs_teams (l : List Nat) (s : State) : ∀ t ∈ (l.foldl State.lostCtx s).teams, t ∈ s.teams := by
  induction l generalizing s with
  | nil => exact fun _ h => h
  | cons ctx l ih => exact fun t ht => s.lostCtx_teams ctx t (ih _ t ht)

/-- A context that is terminated stays so while others are. -/
theorem lostCtxs_stay (l : List Nat) {s : State} {k : Nat} (h : ∀ c, s.ctx? k = some c → c.st = .terminated) :
    ∀ c, (l.foldl State.lostCtx s).ctx? k = some c → c.st = .terminated := by
  induction l generalizing s with
  | nil => exact h
  | cons ctx l ih =>
    refine ih fun c hc => ?_
    rw [State.lostCtx_ctx?] at hc
    obtain ⟨x, hx, rfl⟩ := Option.map_eq_some_iff.mp hc
    split
    · rfl
    · exact h x hx

theorem lostCtxs_end (l : List Nat) (s : State) {k : Nat} (hk : k ∈ l) : ∀ c, (l.foldl State.lostCtx s).ctx? k = some c → c.st = .terminated := by
  induction l generalizing s with
  | nil => exact absurd hk List.not_mem_nil
  | cons ctx l ih =>
    rcases List.mem_cons.mp hk with rfl | hk
    · refine lostCtxs_stay l fun c hc => ?_
      rw [State.lostCtx_ctx?] at hc
      obtain ⟨x, hx, rfl⟩ := Option.map_eq_some_iff.mp hc
      rw [if_pos (by rw [State.ctx?_num hx, beq_self_eq_true])]
    · exact ih _ hk

theorem State.emptyDie_ground (die : Nat) : (s.emptyDie die).ground = (s.markLost die).ground :=
  (foldl_keep (f := State.lostCtx) (p := State.ground) State.lostCtx_ground _ _).trans
    (foldl_keep (f := fun (s : State) (t : Team) => s.killTeam t.id) (p := State.ground) (fun s t => s.killTeam_ground t.id) _ _)

/-- No team that is left sits on the die. -/
theorem State.emptyDie_teams (die : Nat) : ∀ t ∈ (s.emptyDie die).teams, t.core ≠ 0 → ∀ c ∈ t.cores, coreDie c ≠ die := by
  intro t ht h0 c hc he
  obtain ⟨hmem, hne⟩ := killTeams_teams_subset _ _ t (lostCtxs_teams _ _ t ht)
  refine hne t (List.mem_filter.mpr ⟨hmem, ?_⟩) rfl
  rw [Bool.and_eq_true, bne_iff_ne]
  exact ⟨h0, List.any_eq_true.mpr ⟨c, hc, beq_iff_eq.mpr he⟩⟩

theorem State.emptyDie_ctxs (die : Nat) : ∀ t ∈ s.teams, t.core ≠ 0 → (∃ c ∈ t.cores, coreDie c = die) →
    ∀ c, (s.emptyDie die).ctx? t.ctx = some c → c.st = .terminated := by
  rintro t ht h0 ⟨k, hk, he⟩
  refine lostCtxs_end _ _ ((mem_ctxsOf _ _ _).mpr (.inr ⟨t, List.mem_filter.mpr ⟨ht, ?_⟩, rfl⟩))
  rw [Bool.and_eq_true, bne_iff_ne]
  exact ⟨h0, List.any_eq_true.mpr ⟨k, hk, beq_iff_eq.mpr he⟩⟩

theorem State.loseEngines_footing (die : Nat) : (s.loseEngines die).footing = s.footing := by
  rw [State.loseEngines]
  refine (State.updEng_footing _ _).trans (foldl_keep (p := State.footing) (fun u k => ?_) _ s)
  split
  · exact u.faultUnit_linkDown _ _ _ rfl
  · rfl

theorem State.dropCounts_footing (die : Nat) : (s.dropCounts die).footing = s.footing := rfl

theorem State.loseDie_footing (die : Nat) : (s.loseDie die).footing = ((s.emptyDie die).clearDie die).footing := by
  rw [State.loseDie_eq]
  exact (State.testDrained_footing _).trans ((State.dropCounts_footing _ die).trans (State.loseEngines_footing _ die))

/-- The ground of a lost die: its caches and misses are gone, and it is marked. -/
theorem State.loseDie_ground (die : Nat) : (s.loseDie die).ground =
    ((s.clks, s.l1.filter fun l => !(coreDie l.home == die), s.tlb.filter fun e => !e.place.onDie die, s.misses.filter fun m => m.die != die),
      s.pkg.numbered, (s.updDie die fun d => { d with lost := true, rerouted := false, out := false }).pkg.dies, s.pkg.mgmt.gcur,
      setDie s.pkg.mgmt.diepres die false) := by
  have hempty := s.emptyDie_ground die
  simp only [State.ground, Prod.mk.injEq] at hempty
  obtain ⟨⟨hclks, hl1, htlb, hmisses⟩, hnum, hdies, hgcur, hpres⟩ := hempty
  refine (congrArg Prod.fst (s.loseDie_footing die)).trans ?_
  show ((_, (s.emptyDie die).l1.filter _, (s.emptyDie die).tlb.filter _, (s.emptyDie die).misses.filter _), _, _, _, _) = _
  rw [hl1, htlb, hmisses]
  simp only [Prod.mk.injEq]
  exact ⟨⟨hclks, rfl, rfl, rfl⟩, hnum, hdies, hgcur, hpres⟩

end

end Sys2Proof.Machine
end

section
/-! A die that is LOST, and what the check of the side-link paths leaves (R20, R22, R394). -/

namespace Sys2Proof.Machine

/-! ### What a LOST die leaves -/

/-- What the ground says, field by field. -/
theorem State.ground_eq {s : State} {clks : List (BitVec 64)} {l1 : List L1Line} {tlb : List TlbEntry} {misses : List Miss} {num gcur pres : BitVec 14}
    {dies : List Die} (h : s.ground = ((clks, l1, tlb, misses), num, dies, gcur, pres)) : s.clks = clks ∧ s.l1 = l1 ∧ s.tlb = tlb ∧
      s.misses = misses ∧ s.pkg.numbered = num ∧ s.pkg.dies = dies ∧ s.pkg.mgmt.gcur = gcur ∧ s.pkg.mgmt.diepres = pres := by
  simp only [State.ground, Prod.mk.injEq] at h
  obtain ⟨⟨h1, h2, h3, h4⟩, h5, h6, h7, h8⟩ := h
  exact ⟨h1, h2, h3, h4, h5, h6, h7, h8⟩

theorem State.die?_of_dies {s u : State} (h : u.pkg.dies = s.pkg.dies) (d : Nat) : u.die? d = s.die? d := by rw [State.die?, h, State.die?]

section
variable (s : State)

theorem State.loseDie_die? (die e : Nat) : (s.loseDie die).die? e = (s.die? e).map fun x =>
    if x.num == die then { x with lost := true, rerouted := false, out := false } else x := by
  obtain ⟨-, -, -, -, -, hdies, -, -⟩ := State.ground_eq (s.loseDie_ground die)
  exact (State.die?_of_dies hdies e).trans (s.die?_updDie die
    (f := fun x => { x with lost := true, rerouted := false, out := false }) (fun _ => rfl) e)

theorem State.loseDie_leaves {die : Nat} (hd : die < 14) : (s.loseDie die).diePresent die = false ∧
    (∀ t ∈ (s.loseDie die).teams, t.core ≠ 0 → ∀ c ∈ t.cores, coreDie c ≠ die) ∧ (∀ l ∈ (s.loseDie die).l1, coreDie l.home ≠ die) ∧
    (∀ x ∈ (s.loseDie die).eng.counts, x.die ≠ die) ∧ (∀ k ∈ (s.loseDie die).eng.cmds, k.die ≠ die) ∧
    (∀ x ∈ (s.loseDie die).echo.drops, x.ofEngines die = false) ∧ (∀ x, (s.loseDie die).die? die = some x → x.lost = true ∧ x.out = false) ∧
    ∀ t ∈ s.teams, t.core ≠ 0 → (∃ c ∈ t.cores, coreDie c = die) → ∀ c, (s.loseDie die).ctx? t.ctx = some c → c.st = .terminated := by
  obtain ⟨-, hl1, -, -, -, -, -, hpres⟩ := State.ground_eq (s.loseDie_ground die)
  have hfoot := s.loseDie_footing die
  have hseats : (s.loseDie die).seats = (s.emptyDie die).seats := congrArg (fun x => x.2.2) hfoot
  have hctxs : (s.loseDie die).ctxs = (s.emptyDie die).ctxs := congrArg (fun x => x.2.1) hfoot
  refine ⟨?_, fun t ht h0 c hc => ?_, fun l hl => ?_, fun x hx => ?_, fun k hk => ?_, fun x hx => ?_, fun x hx => ?_, fun t ht h0 hc c hctx => ?_⟩
  · rw [State.diePresent, hpres]
    exact setDie_false_self _ hd
  · have hseat : (t.core, t.cores) ∈ (s.emptyDie die).seats := hseats ▸ List.mem_map_of_mem (f := fun t : Team => (t.core, t.cores)) ht
    obtain ⟨x, hx, hxt⟩ := List.mem_map.mp hseat
    obtain ⟨hcore, hcores⟩ := Prod.mk.inj hxt
    exact s.emptyDie_teams die x hx (hcore ▸ h0) c (hcores ▸ hc)
  · rw [hl1] at hl
    simpa using (List.mem_filter.mp hl).2
  · rw [State.loseDie_eq] at hx
    exact bne_iff_ne.mp (List.mem_filter.mp hx).2
  · rw [State.loseDie_eq] at hk
    exact bne_iff_ne.mp (List.mem_filter.mp hk).2
  · rw [State.loseDie_eq] at hx
    simpa using (List.mem_filter.mp hx).2
  · rw [State.loseDie_die?] at hx
    obtain ⟨y, hy, rfl⟩ := Option.map_eq_some_iff.mp hx
    rw [if_pos (by rw [State.die?_num hy, beq_self_eq_true])]
    exact ⟨rfl, rfl⟩
  · rw [State.ctx?, hctxs] at hctx
    exact s.emptyDie_ctxs die t ht h0 hc c hctx

end

/-! ### The check of the paths -/

/-- What a check of the paths may change of the ground: dies are LOST, and their caches go. -/
structure State.shrinks (s u : State) : Prop where
  clks : u.clks = s.clks
  l1 : ∀ l ∈ u.l1, l ∈ s.l1
  tlb : ∀ e ∈ u.tlb, e ∈ s.tlb
  misses : ∀ m ∈ u.misses, m ∈ s.misses
  numbered : u.pkg.numbered = s.pkg.numbered
  gcur : u.pkg.mgmt.gcur = s.pkg.mgmt.gcur
  absent : ∀ d, s.diePresent d = false → u.diePresent d = false
  lost : ∀ d, (s.die? d).map Die.lost = some true → (u.die? d).map Die.lost = some true
  inReset : ∀ d, (u.die? d).map Die.inReset = (s.die? d).map Die.inReset

theorem State.shrinks_refl (s : State) : s.shrinks s :=
  ⟨rfl, fun _ h => h, fun _ h => h, fun _ h => h, rfl, rfl, fun _ h => h, fun _ h => h, fun _ => rfl⟩

theorem State.shrinks.trans {s u w : State} (h : s.shrinks u) (h' : u.shrinks w) : s.shrinks w :=
  ⟨h'.clks.trans h.clks, fun x hx => h.l1 x (h'.l1 x hx), fun x hx => h.tlb x (h'.tlb x hx), fun x hx => h.misses x (h'.misses x hx),
    h'.numbered.trans h.numbered, h'.gcur.trans h.gcur, fun d hd => h'.absent d (h.absent d hd), fun d hd => h'.lost d (h.lost d hd),
    fun d => (h'.inReset d).trans (h.inReset d)⟩

theorem State.loseDie_shrinks (s : State) (die : Nat) : s.shrinks (s.loseDie die) := by
  obtain ⟨hclks, hl1, htlb, hmisses, hnum, -, hgcur, hpres⟩ := State.ground_eq (s.loseDie_ground die)
  refine ⟨hclks, fun x hx => ?_, fun x hx => ?_, fun x hx => ?_, hnum, hgcur, fun d hd => ?_, fun d hd => ?_, fun d => ?_⟩
  · exact (List.mem_filter.mp (hl1 ▸ hx)).1
  · exact (List.mem_filter.mp (htlb ▸ hx)).1
  · exact (List.mem_filter.mp (hmisses ▸ hx)).1
  · rw [State.diePresent, hpres]
    exact setDie_false_other die hd
  · obtain ⟨x, hx, hl⟩ := Option.map_eq_some_iff.mp hd
    rw [State.loseDie_die?, hx, Option.map_some, Option.map_some]
    split
    · rfl
    · exact congrArg some hl
  · rw [State.loseDie_die?, Option.map_map]
    refine congrArg (fun f => (s.die? d).map f) (funext fun x => ?_)
    rw [Function.comp]
    split <;> rfl

theorem checkPaths_shrinks (n : Nat) (s : State) : s.shrinks (State.checkPaths n s) := by
  induction n generalizing s with
  | zero => exact s.shrinks_refl
  | succ n ih =>
    rw [State.checkPaths]
    split
    · exact (s.loseDie_shrinks _).trans (ih _)
    · exact s.shrinks_refl

/-- Each die whose link is down has its path round the ring. -/
theorem checkPaths_stands {s : State} (n : Nat) (h : ∀ d ∈ s.pkg.dies, d.rerouted = true → s.dieLinked d.num = true → s.sidePath d.num = true) :
    State.checkPaths n s = s := by
  cases n with
  | zero => rfl
  | succ n =>
    rw [State.checkPaths, List.find?_eq_none.mpr fun d hd => ?_]
    intro hc
    rw [Bool.and_eq_true, Bool.and_eq_true] at hc
    rw [h d hd hc.1.1 hc.1.2] at hc
    exact Bool.noConfusion hc.2

theorem checkPaths_loses {s : State} {d : Die} (n : Nat)
    (h : (s.pkg.dies.find? fun d => d.rerouted && s.dieLinked d.num && !s.sidePath d.num) = some d) :
    State.checkPaths (n + 1) s = State.checkPaths n (s.loseDie d.num) := by
  rw [State.checkPaths, h]

end Sys2Proof.Machine
end

section
/-! The other events of the package: boot, fatal errors, links, recomputation, points and gates, drains, registers and reports. -/

namespace Sys2Proof.Machine

/-! ### Boot and fatal errors (R390 to R392) -/

theorem powerOn_boots (s : State) (b : BootIn) (p : Phimus) : ∃ u, exec (.powerOnReset b) s = .next u ∧ u.teams = [] ∧ u.cur = none ∧
    u.mem = s.mem.filter (fun c => decide (2 ^ 50 ≤ c.1)) ∧
    (bootOutcome b s.pkg.phimus = (false, p) → u.pkg.phimus = { p.unloaded with held := true } ∧ u.ctxs = []) ∧
    (bootOutcome b s.pkg.phimus = (true, p) → u.pkg.phimus = p ∧ u.ctxs = State.reset.ctxs ∧
      u.pkg.mgmt.diepres = presentDies (b.fuse &&& ~~~ 3#14) b.train ∧ u.pkg.numbered = u.pkg.mgmt.diepres) := by
  have hx : exec (.powerOnReset b) s = execPowerOnReset b s := rfl
  rw [hx, execPowerOnReset]
  rcases bootOutcome b s.pkg.phimus with ⟨ok, q⟩
  cases ok
  · exact ⟨_, rfl, rfl, rfl, rfl, fun h => ⟨(Prod.mk.inj h).2 ▸ rfl, rfl⟩, fun h => Bool.noConfusion (Prod.mk.inj h).1⟩
  · exact ⟨_, rfl, rfl, rfl, rfl, fun h => Bool.noConfusion (Prod.mk.inj h).1, fun h => ⟨(Prod.mk.inj h).2, rfl, rfl, rfl⟩⟩

theorem bootOutcome_held {b : BootIn} {p : Phimus} (h : ((p.roms b.images).1 = false ∧ (p.roms b.images).2.1 = false) ∨ b.bridge = false ∨ b.hbm = false) :
    (bootOutcome b p).1 = false := by
  rw [bootOutcome]
  rw [if_pos]
  rcases h with ⟨h1, h2⟩ | h | h
  · rw [h1, h2]
    rfl
  · rw [h]
    simp
  · rw [h]
    simp

theorem bootOutcome_boots {b : BootIn} {p q : Phimus} (h1 : (p.roms b.images).1 = true ∨ (p.roms b.images).2.1 = true) (h2 : b.bridge = true)
    (h3 : b.hbm = true)
    (h4 : Phimus.rest b.images (stepSeven (presentDies (b.fuse &&& ~~~ 3#14) b.train)) (p.roms b.images).2.2 = (true, q)) :
    bootOutcome b p = (true, bootPhimus q (presentDies (b.fuse &&& ~~~ 3#14) b.train) (if (p.roms b.images).1 then 0 else 1)
      ((p.roms b.images).1 && (p.roms b.images).2.1)) := by
  rw [bootOutcome]
  rw [if_neg (by rcases h1 with h | h <;> simp [h, h2, h3]), h4]

theorem phimusFailure_standby {s : State} (h0 : s.pkg.phimus.host = 0) (h1 : s.pkg.phimus.standby = true) :
    exec .phimusFailure s = .next (s.updPkg fun p => { p with phimus := { p.phimus with host := 1, standby := false } }) :=
  congrArg Host.Outcome.next (if_pos ⟨h0, h1⟩)

theorem phimusFailure_fatal {s : State} (h : s.pkg.phimus.host ≠ 0 ∨ s.pkg.phimus.standby = false) :
    exec .phimusFailure s = exec (.packageFatalError 3 s.pkg.phimus.host) s := by
  refine congrArg Host.Outcome.next (if_neg fun hc => ?_)
  rcases h with h | h
  · exact h hc.1
  · rw [h] at hc
    exact Bool.noConfusion hc.2

/-- Saves that begin leave memory and the package alone, and every context but its `saving`. -/
theorem beginSaves_frame (ns : List Nat) (cause : Cause) (s : State) : (ns.foldl (fun s n => s.beginSave n cause) s).mem = s.mem ∧
    (ns.foldl (fun s n => s.beginSave n cause) s).pkg = s.pkg :=
  ⟨foldl_keep (f := fun (s : State) n => s.beginSave n cause) (p := State.mem) (fun _ _ => rfl) ns s,
    foldl_keep (f := fun (s : State) n => s.beginSave n cause) (p := State.pkg) (fun _ _ => rfl) ns s⟩

theorem beginSaves_saving (ns : List Nat) (cause : Cause) (s : State) : ∀ c ∈ (ns.foldl (fun s n => s.beginSave n cause) s).ctxs,
    ∃ x ∈ s.ctxs, c.num = x.num ∧ c.st = x.st ∧ (x.num ∈ ns ∨ x.saving.isSome = true → c.saving.isSome = true) := by
  induction ns generalizing s with
  | nil => exact fun c hc => ⟨c, hc, rfl, rfl, fun h => h.resolve_left List.not_mem_nil⟩
  | cons n ns ih =>
    intro c hc
    obtain ⟨y, hy, hnum, hst, hsav⟩ := ih (s.beginSave n cause) c hc
    obtain ⟨x, hx, rfl⟩ := List.mem_map.mp hy
    split at hnum
    next hn =>
      rw [if_pos hn] at hst hsav
      exact ⟨x, hx, hnum, hst, fun _ => hsav (.inr rfl)⟩
    next hn =>
      rw [if_neg hn] at hst hsav
      refine ⟨x, hx, hnum, hst, fun h => hsav (h.imp_left fun h => ?_)⟩
      exact (List.mem_cons.mp h).resolve_left fun he => hn (beq_iff_eq.mpr he)

theorem fatalError_saves {s : State} (cause die : Nat) (h : s.pkg.phimus.fatal = none) : ∃ u, exec (.packageFatalError cause die) s = .next u ∧ u.mem = s.mem ∧
    u.pkg.phimus.fatal = some (cause, die, (s.ctxs.filter fun c => c.st == .running).map Ctx.num) ∧ ∀ c ∈ u.ctxs, c.st = .running → c.saving.isSome = true := by
  have hx : exec (.packageFatalError cause die) s = .next ((((s.ctxs.filter fun c => c.st == .running).map Ctx.num).foldl (fun s n => s.beginSave n .cmd)
      s).updPkg fun p => { p with phimus := { p.phimus with fatal := some (cause, die, (s.ctxs.filter fun c => c.st == .running).map Ctx.num) } }) := by
    show Host.Outcome.next (s.fatalGo cause die) = _
    rw [State.fatalGo, h]
  refine ⟨_, hx, (beginSaves_frame _ _ s).1, rfl, fun c hc hr => ?_⟩
  obtain ⟨x, hx, -, hst, hsav⟩ := beginSaves_saving _ _ s c hc
  exact hsav (.inl (List.mem_map_of_mem (List.mem_filter.mpr ⟨hx, by rw [← hst, hr]; rfl⟩)))

theorem fatalError_dumps {s : State} (cause die : Nat) {x d : Nat} {saved : List Nat} (h : s.pkg.phimus.fatal = some (x, d, saved))
    (hr : ∀ c ∈ s.ctxs, c.st ≠ .running) : exec (.packageFatalError cause die) s = .next (s.dumpAndHold x d saved) := by
  have hnone : (s.ctxs.filter fun c => c.st == .running) = [] := List.filter_eq_nil_iff.mpr fun c hc => by simpa using hr c hc
  show Host.Outcome.next (s.fatalGo cause die) = _
  rw [State.fatalGo, h, hnone]
  rfl

/-! ### Links (R393, R394) -/

theorem linkFailure_checks {s : State} {die : Nat} (sides : Bool) (h : s.dieLinked die = true) : exec (.chipletLinkFailure die sides) s =
    .next (State.checkPaths 14 ((s.updDie die fun d => { d with rerouted := true }).updPkg fun p =>
      { p with sides := if sides then addLines [die, ringPrev die] p.sides else p.sides
               logs := p.logs ++ [{ pa := 0, die := die, unit := 0, code := 0x0060 }] })) :=
  congrArg Host.Outcome.next (if_neg (by simp [h]))

section
variable {s : State} {die : Nat} {d : Die} (hd : s.die? die = some d)
include hd

theorem retrain_carries (h1 : d.lost = false) (h2 : d.inReset = false) : exec (.linkRetrainComplete die true) s = .next (s.linksUp die) := by
  show execLinkRetrainComplete die true s = _
  rw [execLinkRetrainComplete, hd]
  exact congrArg Host.Outcome.next ((if_pos (by rw [h1, h2]; rfl)).trans (if_pos rfl))

variable (h : d.lost = true ∨ d.inReset = true)
include h

theorem retrain_back : exec (.linkRetrainComplete die true) s =
    .next (if s.pkg.numbered.getLsbD die then ((s.linksUp die).updDie die fun d => { d with lost := false, inReset := false }).updMgmt fun m =>
        { m with diepres := setDie m.diepres die true }
      else ((s.linksUp die).updDie die fun d => { d with lost := false, inReset := false }).updDie die fun d => { d with out := true }) := by
  show execLinkRetrainComplete die true s = _
  rw [execLinkRetrainComplete, hd]
  exact congrArg Host.Outcome.next ((if_neg (by rcases h with h | h <;> simp [h])).trans (if_neg (by simp)))

/-- The state in which a die whose link did not train is LOST. -/
def State.retrainFailed (s : State) (die : Nat) : State :=
  ((s.updDie die fun d => { d with lost := true, inReset := false }).updMgmt fun m => { m with diepres := setDie m.diepres die false }).dropCounts die

omit h in
theorem State.retrainFailed_lost : ((s.retrainFailed die).die? die).map Die.lost = some true := by
  have hdies : (s.retrainFailed die).pkg.dies = (s.updDie die fun d => { d with lost := true, inReset := false }).pkg.dies := rfl
  rw [State.die?_of_dies hdies, State.die?_updDie s die (f := fun d => { d with lost := true, inReset := false }) (fun _ => rfl), hd, Option.map_some,
    if_pos (by rw [State.die?_num hd, beq_self_eq_true])]
  rfl

theorem retrain_loses (h14 : die < 14) : ∃ u, exec (.linkRetrainComplete die false) s = .next u ∧ u.diePresent die = false ∧
    (u.die? die).map Die.lost = some true := by
  have hx : exec (.linkRetrainComplete die false) s = .next (State.checkPaths 14 (s.retrainFailed die)) := by
    show execLinkRetrainComplete die false s = _
    rw [execLinkRetrainComplete, hd]
    exact congrArg Host.Outcome.next ((if_neg (by rcases h with h | h <;> simp [h])).trans (if_pos rfl))
  have habsent : (s.retrainFailed die).diePresent die = false := setDie_false_self _ h14
  have hs := checkPaths_shrinks 14 (s.retrainFailed die)
  exact ⟨_, hx, hs.absent die habsent, hs.lost die (State.retrainFailed_lost hd)⟩

end

/-! ### Recomputation (R13, R14) -/

section
variable {γ : Type} {p : State → γ} (hp : ∀ (s : State) cmp pa bs, p (s.storeAs cmp pa bs) = p s)
include hp

/-- What stores leave alone, records written for a scheduler leave alone too. -/
theorem writeParts_keep {ts : List (Target × Nat)} (h : ∀ x ∈ ts, ∃ pa packed cmp, x.1 = .phys pa packed cmp) (s : State) (bs : List Byte) :
    p (writeParts s ts bs) = p s := by
  induction ts generalizing s bs with
  | nil => rfl
  | cons x ts ih =>
    obtain ⟨⟨pa, packed, cmp, hx⟩, hts⟩ := List.forall_mem_cons.mp h
    obtain ⟨tg, n⟩ := x
    subst hx
    exact (ih hts _ _).trans (hp ..)

theorem State.patch_keep (s : State) (c : Ctx) (va : Nat) (bs : List Byte) : p (s.patch c va bs) = p s := by
  rw [State.patch]
  split
  next ts hts => exact writeParts_keep hp (s.spanOf_none_phys _ _ _ hts) s bs
  next => rfl

theorem State.patchWord_keep (s : State) (c : Ctx) (va x : Nat) : p (s.patchWord c va x) = p s := by
  rw [State.patchWord]
  split
  · exact State.patch_keep hp ..
  · rfl

theorem State.patchConst_keep (s : State) (c : Ctx) (k : KDesc) : p (s.patchConst c k) = p s := by
  rw [State.patchConst]
  dsimp only
  split
  · rfl
  · split
    · rfl
    · have hslots := fun (l : List Nat) (u : State) => foldl_keep (f := fun (s : State) i => s.patch c (k.const.toNat + 8 * (1 + i)) (dword s.ncores))
        (fun s i => State.patch_keep hp ..) l u
      split
      · exact hslots ..
      · exact (foldl_keep (fun s i => State.patchWord_keep hp ..) _ _).trans (hslots ..)

theorem State.rebindTask_keep (s : State) (c : Ctx) (va : Nat) : p (s.rebindTask c va) = p s := by
  rw [State.rebindTask]
  split
  · rfl
  · split
    · rfl
    · split
      · exact State.patch_keep hp ..
      · rfl

theorem State.rebindImage_keep (s : State) (x : Cand) : p (s.rebindImage x) = p s := by
  rw [State.rebindImage]
  split
  · rfl
  · dsimp only
    split
    · rfl
    · split
      · exact hp ..
      · rfl

end

end Sys2Proof.Machine
end

section
/-! Recomputation, points and gates, drains, registers and reports; the events of the package settled. -/

namespace Sys2Proof.Machine

/-! ### Recomputation (R13, R14) -/

/-- What a recomputation rewrites is memory: the teams, the contexts and the package stay. -/
def State.site (s : State) : List Team × List Ctx × Package := (s.teams, s.ctxs, s.pkg)

theorem State.storeAs_site (s : State) (cmp : Option Bool) (pa : Nat) (bs : List Byte) : (s.storeAs cmp pa bs).site = s.site := by simp [State.site]

/-- The state in which the dies that retrained are admitted and the indices assigned anew. -/
def State.renumbered (s : State) : State :=
  let pres := ((s.pkg.dies.filter Die.out).map Die.num).foldl (fun x d => setDie x d true) s.pkg.mgmt.diepres
  let s0 := s.updPkg fun p => { p with numbered := pres, mgmt := { p.mgmt with diepres := pres }, dies := p.dies.map fun d => { d with out := false } }
  { s0 with freeN := s0.freeN + 1 }

/-- The state in which the CONST slots of the kernels are rewritten. -/
def State.repatched (s : State) : State :=
  let named := (Config.loadedKernels s.freeN).filterMap fun p =>
    (s.renumbered.ctx? p.1).bind fun c => (s.renumbered.kdescAt c p.2).map fun k => (c, k)
  (named ++ s.renumbered.knownKernels).foldl (fun s p => s.patchConst p.1 p.2) s.renumbered

/-- The state in which parked tasks and images are rebound. -/
def State.rebound (s : State) : State :=
  let tasks := (s.queuesBy Ctx.holdsWork [kTask]).flatMap fun p => p.2.hdr.items.map fun va => (p.1, va)
  s.sch.cands.foldl State.rebindImage (tasks.foldl (fun s p => s.rebindTask p.1 p.2) s)

theorem packageRecompute_drained {s : State} (ht : s.teams = []) (hc : s.eng.cmds = []) : exec .packageRecompute s = .next s.repatched.rebound := by
  refine congrArg Host.Outcome.next (if_neg ?_)
  rw [State.allDrained, ht, hc]
  simp

theorem State.repatched_site (s : State) : s.repatched.site = s.renumbered.site :=
  foldl_keep (f := fun (s : State) (p : Ctx × KDesc) => s.patchConst p.1 p.2) (p := State.site)
    (fun s p => State.patchConst_keep State.storeAs_site s p.1 p.2) _ s.renumbered

theorem State.rebound_site (s : State) : s.rebound.site = s.site := by
  rw [State.rebound]
  exact (foldl_keep (f := State.rebindImage) (State.rebindImage_keep State.storeAs_site) _ _).trans
    (foldl_keep (f := fun (s : State) (p : Ctx × Nat) => s.rebindTask p.1 p.2) (fun s p => State.rebindTask_keep State.storeAs_site s p.1 p.2) _ s)

theorem packageRecompute_admits {s : State} (ht : s.teams = []) (hc : s.eng.cmds = []) :
    ∃ u, exec .packageRecompute s = .next u ∧ (∀ d ∈ u.pkg.dies, d.out = false) ∧ u.pkg.numbered = u.pkg.mgmt.diepres ∧
      u.pkg.mgmt.diepres = ((s.pkg.dies.filter Die.out).map Die.num).foldl (fun x d => setDie x d true) s.pkg.mgmt.diepres ∧ u.teams = [] ∧
      u.ctxs = s.ctxs := by
  have hsite := (State.rebound_site s.repatched).trans s.repatched_site
  have hpkg : s.repatched.rebound.pkg = s.renumbered.pkg := congrArg (fun x => x.2.2) hsite
  refine ⟨_, packageRecompute_drained ht hc, fun d hd => ?_, ?_, ?_, ?_, ?_⟩
  · rw [hpkg] at hd
    obtain ⟨x, -, rfl⟩ := List.mem_map.mp hd
    rfl
  · rw [hpkg]
    rfl
  · rw [hpkg]
    rfl
  · exact (congrArg Prod.fst hsite).trans ht
  · exact congrArg (fun x => x.2.1) hsite

/-! ### Operating points and gates (R400, R401) -/

theorem opptReq_begins {s : State} {v : BitVec 2} (hb : s.pkg.mgmt.busy = false) (hv : v ≠ s.pkg.mgmt.cur) : ∃ u, exec (.opptReq v) s = .next u ∧
    u.pkg.mgmt.req = v ∧ u.pkg.mgmt.busy = true ∧ u.pkg.mgmt.cur = s.pkg.mgmt.cur ∧ u.pkg.mgmt.pauseTill ≤ s.ptp + 80000 ∧ u.mem = s.mem ∧
    u.teams = s.teams := by
  refine ⟨_, congrArg Host.Outcome.next ((if_neg (by simp [hb])).trans (if_neg hv)), rfl, rfl, rfl, ?_, rfl, rfl⟩
  show s.ptp + Config.pauseTicks s.freeN % 80001 ≤ _
  omega

theorem opptReq_same {s : State} {v : BitVec 2} (hb : s.pkg.mgmt.busy = false) (hv : v = s.pkg.mgmt.cur) :
    exec (.opptReq v) s = .next (s.updMgmt fun m => { m with req := v }) :=
  congrArg Host.Outcome.next ((if_neg (by simp [hb])).trans (if_pos hv))

theorem State.emitHub_pkg (s : State) (die unit code tag : Nat) (payload : W32) : (s.emitHub die unit code tag payload).pkg = s.pkg := by
  obtain ⟨_, h⟩ := s.emitHub_form die unit code tag payload
  rw [h]

/-- The state in which a change of operating point is over. -/
def State.pointReached (s : State) : State :=
  ((s.pass s.pauseLeft).updMgmt fun m => { m with cur := m.req, busy := false, opptNext := none }).emitHub s.pkg.phimus.host 0x500 0x60 0
    (BitVec.ofNat 32 s.pkg.mgmt.req.toNat)

theorem State.pointReached_leaves (s : State) : s.pointReached.mem = s.mem ∧ s.pointReached.pkg.mgmt =
    { s.pkg.mgmt with cur := s.pkg.mgmt.req, busy := false, opptNext := none } :=
  ⟨State.emitHub_mem _ _ _ _ _ _, congrArg Package.mgmt (State.emitHub_pkg _ _ _ _ _ _)⟩

theorem opptComplete_reaches {s : State} (hb : s.pkg.mgmt.busy = true) (hn : s.pkg.mgmt.opptNext = none) :
    exec .opptChangeComplete s = .next s.pointReached := by
  show execOpptChangeComplete s = _
  rw [execOpptChangeComplete, hn]
  exact congrArg Host.Outcome.next (if_neg (by simp [hb]))

theorem opptComplete_goesOn {s : State} {v : BitVec 2} (hb : s.pkg.mgmt.busy = true) (hn : s.pkg.mgmt.opptNext = some v) :
    exec .opptChangeComplete s = .next (s.pointReached.opptWrite v) := by
  show execOpptChangeComplete s = _
  rw [execOpptChangeComplete, hn]
  exact congrArg Host.Outcome.next (if_neg (by simp [hb]))

/-- A request while no change is in progress. -/
theorem State.opptWrite_leaves {s : State} (v : BitVec 2) (hb : s.pkg.mgmt.busy = false) : (s.opptWrite v).mem = s.mem ∧
    (s.opptWrite v).pkg.mgmt.cur = s.pkg.mgmt.cur ∧ (s.opptWrite v).pkg.mgmt.opptNext = s.pkg.mgmt.opptNext ∧
    (s.opptWrite v).pkg.mgmt.req = v ∧ (s.opptWrite v).pkg.mgmt.busy = (v != s.pkg.mgmt.cur) := by
  rw [State.opptWrite, if_neg (by simp [hb])]
  by_cases hv : v = s.pkg.mgmt.cur
  · rw [if_pos hv]
    exact ⟨rfl, rfl, rfl, rfl, by rw [hv, bne_self_eq_false]; exact hb⟩
  · rw [if_neg hv]
    exact ⟨rfl, rfl, rfl, rfl, (bne_iff_ne.mpr hv).symm⟩

theorem opptComplete_leaves {s : State} (hb : s.pkg.mgmt.busy = true) : ∃ u, exec .opptChangeComplete s = .next u ∧
    u.pkg.mgmt.cur = s.pkg.mgmt.req ∧ u.mem = s.mem ∧ u.pkg.mgmt.opptNext = none ∧ (s.pkg.mgmt.opptNext = none → u.pkg.mgmt.busy = false) ∧
    ∀ v, s.pkg.mgmt.opptNext = some v → u.pkg.mgmt.req = v ∧ u.pkg.mgmt.busy = (v != s.pkg.mgmt.req) := by
  obtain ⟨hmem, hmgmt⟩ := s.pointReached_leaves
  cases hn : s.pkg.mgmt.opptNext with
  | none => exact ⟨_, opptComplete_reaches hb hn, by rw [hmgmt], hmem, by rw [hmgmt], fun _ => by rw [hmgmt], fun _ h => by cases h⟩
  | some w =>
    obtain ⟨hm, hcur, hnext, hreq, hbusy⟩ := State.opptWrite_leaves (s := s.pointReached) w (by rw [hmgmt])
    refine ⟨_, opptComplete_goesOn hb hn, ?_, hm.trans hmem, ?_, (fun h => by cases h), fun v h => ?_⟩
    · rw [hcur, hmgmt]
    · rw [hnext, hmgmt]
    · cases h
      exact ⟨hreq, by rw [hbusy, hmgmt]⟩

theorem gateChange_gates {s : State} {die : Nat} (h2 : 2 ≤ die) (h14 : die < 14) (hr : s.pkg.mgmt.greq.getLsbD die = true)
    (hc : s.pkg.mgmt.gcur.getLsbD die = false) (hd : s.dieDrained die = true) : exec (.gateChangeComplete die) s =
      .next (State.checkPaths 14 (s.updMgmt fun m => { m with gcur := setDie m.gcur die true })) := by
  show execGateChangeComplete die s = _
  rw [execGateChangeComplete]
  dsimp only
  rw [hr, hc, hd, if_neg (by simp; omega), if_pos rfl]

theorem gateChange_ungates {s : State} {die : Nat} (h2 : 2 ≤ die) (h14 : die < 14) (hr : s.pkg.mgmt.greq.getLsbD die = false)
    (hc : s.pkg.mgmt.gcur.getLsbD die = true) : exec (.gateChangeComplete die) s =
      .next ((s.updMgmt fun m => { m with gcur := setDie m.gcur die false }).linksUp die) := by
  show execGateChangeComplete die s = _
  rw [execGateChangeComplete]
  dsimp only
  rw [hr, hc, if_neg (by simp; omega), if_neg Bool.false_ne_true]

/-! ### Drains and registers (R402, R404) -/

theorem svcDrain_starts {s : State} {die : Nat} (h2 : 2 ≤ die) (h14 : die < 14) (hd : s.dieDraining die = false) : exec (.svcDrain die) s =
    .next ((((s.updMgmt fun m => { m with svcDrain := true, svcDie := BitVec.ofNat 4 die }).updMgmt fun m =>
      { m with drains := m.drains ++ [{ die := die, since := s.ptp, drained := false }] }).testDrained)) := by
  have hx : exec (.svcDrain die) s = .next (State.drainStart (s.updMgmt fun m => { m with svcDrain := true, svcDie := BitVec.ofNat 4 die }) die) := rfl
  have hno : ¬ (die < 2 ∨ 14 ≤ die ∨ s.dieDraining die = true) := by
    rw [hd]
    simp
    omega
  exact hx.trans (congrArg Host.Outcome.next (if_neg hno))

theorem drainDeadline_saves {s : State} {x : Drain} (h : s.nextDrain = some x) : exec .drainDeadline s =
    .next ((((s.pass (x.since + s.pkg.mgmt.dmax.toNat * 4000 - s.ptp)).onDie x.die).foldl State.deadlineTeam
      (s.pass (x.since + s.pkg.mgmt.dmax.toNat * 4000 - s.ptp))).testDrained) := by
  show execDrainDeadline s = _
  rw [execDrainDeadline, h]
  rfl

/-- The registered headers are watched. -/
theorem mem_watchTails {s : State} {i : Nat} {p : Ctx × Nat × Nat} (hi : i < 4096) (hp : s.tailOf i = some p) : ∃ b, (p.2.2, b) ∈ s.watchTails := by
  have hq : s.pkg.mgmt.qdir ≠ 0 := by
    intro h0
    rw [State.tailOf] at hp
    simp [h0] at hp
  rw [State.watchTails, if_neg hq]
  exact ⟨_, List.mem_map_of_mem (f := fun p : Ctx × Nat × Nat => (p.2.2, s.sch.tails.contains (p.2.2, true)))
    (List.mem_filterMap.mpr ⟨i, List.mem_range.mpr hi, hp⟩)⟩

theorem registerWrite_svc (s : State) (v : Nat) : exec (.mgmtRegisterWrite 0x38 v) s =
    exec (if natBit v 8 then .svcDrain (natBits v 0 4) else .svcReadmit (natBits v 0 4))
      (s.updMgmt fun m => { m with dmax := BitVec.ofNat 32 (natBits v 16 32) }) := by
  have hx : exec (.mgmtRegisterWrite 0x38 v) s = .next (State.svcWrite (s.updMgmt fun m => { m with dmax := BitVec.ofNat 32 (natBits v 16 32) })
    (natBit v 8) (natBits v 0 4)) := rfl
  rw [hx]
  cases natBit v 8 <;> rfl

/-! ### Reports (R396, R398) -/

theorem Phimus.sign_boot {p : Phimus} {d : Nat} (h : getKey p.reports d < 1024) :
    getKey (p.sign d).reports d = getKey p.reports d + 1 ∧ (p.sign d).leaves = p.leaves := by
  rw [Phimus.sign, if_pos h]
  exact ⟨getKey_setKey_same .., rfl⟩

theorem Phimus.sign_leaf {p : Phimus} {d : Nat} (h : 1024 ≤ getKey p.reports d) :
    getKey (p.sign d).reports d = 1 ∧ getKey (p.sign d).leaves d = getKey p.leaves d + 1 := by
  rw [Phimus.sign, if_neg (Nat.not_lt.mpr h)]
  exact ⟨getKey_setKey_same .., getKey_setKey_same ..⟩

theorem report_signs {s : State} (nonce : W64) (h : ∀ d ∈ s.signers, getKey s.pkg.phimus.leaves d < 1024) : ∃ u r, exec (.attestationReport nonce) s = .next u ∧
    u.pkg.phimus = { s.signers.foldl Phimus.sign s.pkg.phimus with exhausted := false, report := some r } ∧ r.nonce = nonce ∧
    r.diepres = s.pkg.mgmt.diepres ∧ r.diefuse = s.pkg.mgmt.diefuse ∧ r.images = s.pkg.phimus.images ∧ r.sig.length = 2604 * (r.signers.length + 1) ∧
    (∀ d, d ∈ r.signers ↔ s.diePresent d = true) ∧ u.mem = s.mem := by
  have hfresh : ¬ s.leavesUsed = true := by
    intro hc
    obtain ⟨d, hd, hu⟩ := List.any_eq_true.mp hc
    exact absurd (of_decide_eq_true hu) (Nat.not_le.mpr (h d hd))
  refine ⟨_, _, congrArg Host.Outcome.next (if_neg hfresh), rfl, rfl, rfl, rfl, rfl, ?_, fun d => ?_, rfl⟩
  · show ((List.range (sigBytes s.signers.length)).map _).length = _
    rw [List.length_map, List.length_range, sigBytes, State.signers, List.length_append]
    rfl
  · rw [List.mem_filter, List.mem_range, and_iff_right_iff_imp]
    intro hp
    by_contra hd
    rw [State.diePresent, BitVec.getLsbD_of_ge _ _ (Nat.not_lt.mp hd)] at hp
    cases hp

theorem report_exhausted {s : State} (nonce : W64) (h : ∃ d ∈ s.signers, 1024 ≤ getKey s.pkg.phimus.leaves d) :
    exec (.attestationReport nonce) s = .next (s.updPkg fun k => { k with phimus := { k.phimus with exhausted := true, report := none } }) := by
  obtain ⟨d, hd, hu⟩ := h
  exact congrArg Host.Outcome.next (if_pos (List.any_eq_true.mpr ⟨d, hd, decide_eq_true hu⟩))

/-! ### Resets of chiplets (R403) -/

/-- The state in which a drained chiplet is reset, before the paths are checked. -/
def State.chipletCleared (s : State) (die : Nat) : State :=
  let s1 := (s.updDie die fun d => { d with inReset := true, rerouted := false }).clearDie die
  { s1 with clks := s1.clks.set die 0#64 }

theorem chipletReset_clears {s : State} {die : Nat} (hd : s.dieDrained die = true) (ha : s.dieAlive die = true) :
    ∃ u, exec (.chipletReset die) s = .next u ∧ (u.die? die).map Die.inReset = some true ∧ u.clks = s.clks.set die 0#64 ∧
      (∀ l ∈ u.l1, coreDie l.home ≠ die) ∧ (∀ e ∈ u.tlb, e.place.onDie die = false) ∧ ∀ m ∈ u.misses, m.die ≠ die := by
  have hx : exec (.chipletReset die) s = .next (State.checkPaths 14 (s.chipletCleared die)) :=
    congrArg Host.Outcome.next (if_pos (by rw [hd, ha]; rfl))
  have hs := checkPaths_shrinks 14 (s.chipletCleared die)
  refine ⟨_, hx, (hs.inReset die).trans ?_, hs.clks, fun l hl => ?_, fun e he => ?_, fun m hm => ?_⟩
  · have hdies : (s.chipletCleared die).pkg.dies = (s.updDie die fun d => { d with inReset := true, rerouted := false }).pkg.dies := rfl
    obtain ⟨x, hdie⟩ : ∃ x, s.die? die = some x := by
      rw [State.dieAlive, Bool.and_eq_true, Option.any_eq_true] at ha
      exact ⟨_, ha.2.choose_spec.1⟩
    rw [State.die?_of_dies hdies, State.die?_updDie s die (f := fun d => { d with inReset := true, rerouted := false }) (fun _ => rfl), hdie,
      Option.map_some, if_pos (by rw [State.die?_num hdie, beq_self_eq_true])]
    rfl
  · simpa using (List.mem_filter.mp (hs.l1 l hl)).2
  · simpa using (List.mem_filter.mp (hs.tlb e he)).2
  · exact bne_iff_ne.mp (List.mem_filter.mp (hs.misses m hm)).2

end Sys2Proof.Machine
end

section
/-! The events of the package settled. -/

namespace Sys2Proof.Machine

/-- Settles O59: each event does the effect of its clause; what a LOST die takes with it, and what the check of the paths leaves, is proved of the
ground of the package. -/
theorem packageEvents : Obligations.PackageEvents := by
  refine ⟨powerOn_boots, ?_, fun s => ⟨fun h0 h1 => phimusFailure_standby h0 h1, fun h => phimusFailure_fatal h⟩,
    fun s cause die => ⟨fun h => fatalError_saves cause die h, fun x d saved h hr => ⟨_, fatalError_dumps cause die h hr, rfl, rfl, rfl⟩⟩, ?_, ?_, ?_,
    fun s ht hc => packageRecompute_admits ht hc, fun s v => ⟨fun hb => congrArg Host.Outcome.next (if_pos hb), fun hb hv => opptReq_same hb hv,
      fun hb hv => opptReq_begins hb hv⟩, fun s hb => opptComplete_leaves hb, fun s v => rfl, ?_, ?_, ?_, ?_,
    fun s nonce => ⟨fun h => report_signs nonce h, fun h => report_exhausted nonce h⟩, fun p d => ⟨Phimus.sign_boot, Phimus.sign_leaf⟩,
    fun s die hd ha => chipletReset_clears hd ha⟩
  · intro b p q one pres
    exact ⟨bootOutcome_held, bootOutcome_boots⟩
  · intro s die sides hl s1
    have hx : exec (.chipletLinkFailure die sides) s = .next (State.checkPaths 14 s1) := linkFailure_checks sides hl
    exact ⟨fun h => hx.trans (congrArg _ (checkPaths_stands 14 h)), fun d h => hx.trans (congrArg _ (checkPaths_loses 13 h))⟩
  · intro s die h14 u
    exact s.loseDie_leaves h14
  · intro s die d hd up
    refine ⟨fun h1 h2 => retrain_carries hd h1 h2, ?_⟩
    intro h s1
    have hx : exec (.linkRetrainComplete die true) s = .next (if s.pkg.numbered.getLsbD die then s1.updMgmt fun m =>
      { m with diepres := setDie m.diepres die true } else s1.updDie die fun d => { d with out := true }) := retrain_back hd h
    refine ⟨fun hn => hx.trans (congrArg _ (if_pos hn)), fun hn => hx.trans (congrArg _ (if_neg (by simp [hn]))), fun h14 => retrain_loses hd h h14⟩
  · intro s die h2 h14
    refine ⟨?_, fun hr hc => gateChange_ungates h2 h14 hr hc⟩
    intro hr hc hd s1
    have hx : exec (.gateChangeComplete die) s = .next (State.checkPaths 14 s1) := gateChange_gates h2 h14 hr hc hd
    have hs := checkPaths_shrinks 14 s1
    exact ⟨⟨_, hx, hs.gcur, hs.numbered⟩, fun h => hx.trans (congrArg _ (checkPaths_stands 14 h))⟩
  · intro s die h2 h14 set
    exact ⟨fun hd => svcDrain_starts h2 h14 hd, rfl⟩
  · intro s x hx u
    refine ⟨?_, drainDeadline_saves hx⟩
    show _ ≤ s.ptp + _
    omega
  · intro s v
    refine ⟨rfl, rfl, ⟨_, rfl, rfl, rfl, fun i hi p hp => mem_watchTails hi hp⟩, rfl, rfl, registerWrite_svc s v, fun h0 hs => ?_⟩
    exact congrArg Host.Outcome.next (if_pos (by rw [h0, hs]; rfl))

end Sys2Proof.Machine
end

section
/-! The canonical form of memory (09_memories.md): what writes memory keeps it. First the writes themselves and the records of faults, events
and saves, then the copies of the engines. -/

namespace Sys2Proof.Machine

/-- Going through a list keeps the canonical form where each step does. -/
theorem foldl_wf {α : Type} {f : State → α → State} (h : ∀ s x, s.mem.wf = true → (f s x).mem.wf = true) (l : List α) (s : State)
    (hs : s.mem.wf = true) : (l.foldl f s).mem.wf = true := by
  induction l generalizing s with
  | nil => exact hs
  | cons x l ih => exact ih _ (h s x hs)

/-- A condition that picks one of two memories in canonical form. -/
@[simp] theorem Memory.ite_wf {p : Prop} [Decidable p] {a b : Memory} (ha : a.wf = true) (hb : b.wf = true) :
    (if p then a else b).wf = true := by
  split <;> assumption

/-- The same for the states that hold them. -/
theorem wf_ite {p : Prop} [Decidable p] {a b : State} (ha : a.mem.wf = true) (hb : b.mem.wf = true) : (if p then a else b).mem.wf = true := by
  split <;> assumption

/-- An effect that leaves memory as it is keeps its canonical form. -/
theorem okAll_wf {ε : Type} {s : State} {x : Except ε State} (h : s.mem.wf = true) (hx : okAll (fun t => t.mem = s.mem) x) :
    okAll (fun t => t.mem.wf = true) x :=
  okAll_mono hx fun _ ht => ht ▸ h

/-- Going through a list with a step that may fail. -/
theorem foldlM_wf {ε α : Type} {f : State → α → Except ε State} (h : ∀ s x, s.mem.wf = true → okAll (fun t => t.mem.wf = true) (f s x))
    (l : List α) (s : State) (hs : s.mem.wf = true) : okAll (fun t => t.mem.wf = true) (l.foldlM f s) := by
  induction l generalizing s with
  | nil => exact okAll_pure.mpr hs
  | cons x l ih =>
    rw [List.foldlM_cons]
    exact okAll_bind fun t ht => ih t (h s x hs t ht)

theorem okAll_orFault {x : Except Exc State} {p : State → Prop} (h : okAll p x) : okAll p (orFault x) := by
  cases x with
  | error e => exact okAll_error
  | ok t => exact okAll_ok.mpr (okAll_ok.mp h)

theorem State.chargeOr_wf {s : State} {c : Copy} {act hub n addr : Nat} (h : s.mem.wf = true) :
    okAll (fun t => t.mem.wf = true) (s.chargeOr c act hub n addr) :=
  okAll_wf h (s.chargeOr_mem c act hub n addr)

/-- Two ways to the same continuation. -/
theorem okAll_both {ε α β : Type} {p : α → Prop} {q : β → Prop} {c : Prop} [Decidable c] {x y : Except ε β} {f : β → Except ε α}
    (hx : okAll q x) (hy : okAll q y) (h : ∀ r, q r → okAll p (f r)) : okAll p (if c then x >>= f else y >>= f) :=
  okAll_ite (okAll_bind fun r hr => h r (hx r hr)) (okAll_bind fun r hr => h r (hy r hr))

/-! ### Writes, records and what is told -/

@[simp] theorem State.storeAs_wf (s : State) (cmp : Option Bool) (pa : Nat) (bs : List Byte) (h : s.mem.wf = true) :
    (s.storeAs cmp pa bs).mem.wf = true := Memory.write_wf pa bs h

@[simp] theorem State.store_wf (s : State) (pa : Nat) (bs : List Byte) (h : s.mem.wf = true) : (s.store pa bs).mem.wf = true := s.storeAs_wf none pa bs h

@[simp] theorem State.storeNat_wf (s : State) (pa n x : Nat) (h : s.mem.wf = true) : (s.storeNat pa n x).mem.wf = true := s.store_wf pa _ h

@[simp] theorem State.record_wf (s : State) (ctx : Nat) (bytes : List Byte) (h : s.mem.wf = true) : (s.record ctx bytes).mem.wf = true := by
  unfold State.record
  dsimp only
  (repeat' split) <;> simp [h, Memory.write_wf, Memory.wr_wf]

@[simp] theorem State.traceRefused_wf (s : State) (tenant bcls hub tag : Nat) (h : s.mem.wf = true) :
    (s.traceRefused tenant bcls hub tag).mem.wf = true := by simp [State.traceRefused, h]

@[simp] theorem State.emitBuf_wf (s : State) (k : BufKind) (row : Option (Nat × Nat)) (die unit code tag : Nat) (payload : W32) (h : s.mem.wf = true) :
    (s.emitBuf k row die unit code tag payload).mem.wf = true := by
  unfold State.emitBuf
  dsimp only
  (repeat' split) <;> simp [h]

@[simp] theorem State.emitCore_wf (s : State) (t : Team) (core code : Nat) (payload : W32) (h : s.mem.wf = true) :
    (s.emitCore t core code payload).mem.wf = true := by simp [State.emitCore, h]

@[simp] theorem State.echoFault_wf (s : State) (ctx code grp : Nat) (core : Option (Team × Nat)) (h : s.mem.wf = true) :
    (s.echoFault ctx code grp core).mem.wf = true := by
  unfold State.echoFault
  split <;> simp [h]

@[simp] theorem State.storeSpans_wf (s : State) (spans : List (Nat × Nat)) (bs : List Byte) (h : s.mem.wf = true) :
    (s.storeSpans spans bs).mem.wf = true := by
  induction spans generalizing s bs with
  | nil => exact h
  | cons p spans ih => exact ih _ _ (s.store_wf _ _ h)

@[simp] theorem State.setWaiters_wf (s : State) (ws : List Waiter) (h : s.mem.wf = true) : (s.setWaiters ws).mem.wf = true := by
  unfold State.setWaiters
  refine foldl_wf (fun _ _ h => ?_) _ _ (by simp [h])
  simp [h]

/-! ### The end of teams and contexts, and faults -/

@[simp] theorem State.unwait_wf (s : State) (p : Nat → Nat → Bool) (h : s.mem.wf = true) : (s.unwait p).mem.wf = true := by simp [State.unwait, h]

@[simp] theorem State.dropTeamWork_wf (s : State) (id : Nat) (h : s.mem.wf = true) : (s.dropTeamWork id).mem.wf = true := by
  simp [State.dropTeamWork, h]

@[simp] theorem State.killTeam_wf (s : State) (id : Nat) (h : s.mem.wf = true) : (s.killTeam id).mem.wf = true := by simp [State.killTeam, h]

@[simp] theorem State.dropCtxWork_wf (s : State) (ctx : Nat) (h : s.mem.wf = true) : (s.dropCtxWork ctx).mem.wf = true := by
  simp [State.dropCtxWork, h]

@[simp] theorem State.terminate_wf (s : State) (ctx : Nat) (h : s.mem.wf = true) : (s.terminate ctx).mem.wf = true := by
  simp +contextual [State.terminate, foldl_wf, h]

@[simp] theorem State.takeFault_wf (s : State) (id : Nat × Nat) (x : Exc) (pc hdr : W64) (resw : Nat) (kill : Bool) (h : s.mem.wf = true) :
    (s.takeFault id x pc hdr resw kill).mem.wf = true := by
  unfold State.takeFault
  split
  · exact h
  · next t _ =>
    have hr : ∀ bytes, (((s.updGrp id Group.performed).record t.ctx bytes).echoFault t.ctx x.code id.2 (some (t, t.coreOf id.2))).mem.wf = true :=
      fun _ => State.echoFault_wf _ _ _ _ _ (State.record_wf _ _ _ (by simp [h]))
    dsimp only
    (repeat' split) <;> simp [hr]

/-! ### Atomics, traps and accesses from outside -/

@[simp] theorem State.writeThread_wf (s : State) (w : Iss) (va : Nat) (t : Target) (bs : List Byte) (h : s.mem.wf = true) :
    (s.writeThread w va t bs).mem.wf = true := by
  unfold State.writeThread
  (repeat' split) <;> simp [h, Memory.write_wf]

@[simp] theorem State.atomOne_wf (s : State) (w : Iss) (va : Nat) (t : Target) (n : Nat) (f : List Byte → Option (List Byte))
    (h : s.mem.wf = true) : (s.atomOne w va t n f).2.mem.wf = true := by
  have hc : (s.sliceCharge w t).2.mem.wf = true := by simp [h]
  unfold State.atomOne
  split
  · exact h
  · simp_all
  · next s1 hs =>
    have hw : s1.mem.wf = true := by rw [hs] at hc; exact hc
    split
    · simp [h]
    · dsimp only
      split <;> simp [hw]

@[simp] theorem State.atomMany_wf (w : Iss) (n : Nat) (f : Nat → Nat → List Byte → Option (List Byte)) (s : State) (l : List AtomElem)
    (h : s.mem.wf = true) : (State.atomMany w n f s l).1.mem.wf = true := by
  induction l generalizing s with
  | nil => exact h
  | cons e l ih =>
    have ho := s.atomOne_wf w e.va e.tg n (f e.th e.elem) h
    unfold State.atomMany
    split
    · exact h
    · next r s1 hr => exact ih s1 (by rw [hr] at ho; exact ho)

@[simp] theorem atomRun_wf (w : Iss) (s : State) (size n : Nat) (ts : List (Nat × Target)) (f : Nat → Nat → List Byte → Option (List Byte))
    (h : s.mem.wf = true) : (atomRun w s size n ts f).1.mem.wf = true := by simp [atomRun, h]

@[simp] theorem State.trapAt_wf (s : State) (i : Iss) (code : Nat) (h : s.mem.wf = true) : (s.trapAt i code).mem.wf = true := by
  simp [State.trapAt, h]

@[simp] theorem State.tellDrop_wf (s : State) (d : Drop) (h : s.mem.wf = true) : (s.tellDrop d).mem.wf = true := by
  unfold State.tellDrop
  dsimp only
  (repeat' split) <;> simp [h]

@[simp] theorem State.tellDrops_wf (s : State) (p : Drop → Bool) (h : s.mem.wf = true) : (s.tellDrops p).mem.wf = true := by
  simp +contextual [State.tellDrops, foldl_wf, h]

@[simp] theorem State.outsideAtomic_wf (s : State) (pa op ty v cmp : Nat) (h : s.mem.wf = true) :
    (s.outsideAtomic pa op ty v cmp).mem.wf = true := by
  unfold State.outsideAtomic
  dsimp only
  (repeat' split) <;> simp [h, Memory.wr_wf]

@[simp] theorem State.outsideWrite_wf (s : State) (pa : Nat) (bs : List Byte) (h : s.mem.wf = true) : (s.outsideWrite pa bs).mem.wf = true := by
  simp [State.outsideWrite, h, Memory.write_wf]

@[simp] theorem State.outside_wf (s : State) (peer : Bool) (ok : Region → Bool) (ops : Nat → Bool) (a : HostAcc) (h : s.mem.wf = true) :
    (s.outside peer ok ops a).mem.wf = true := by
  unfold State.outside
  split <;> simp [h]

/-! ### Counters, batches and copies -/

@[simp] theorem State.logFault_wf (s : State) (ctx code detail addr : Nat) (h : s.mem.wf = true) :
    (s.logFault ctx code detail addr).mem.wf = true := by simp [State.logFault, h]

@[simp] theorem State.decrementPa_wf (s : State) (ctx va pa k : Nat) (h : s.mem.wf = true) : (s.decrementPa ctx va pa k).mem.wf = true := by
  unfold State.decrementPa
  dsimp only
  (repeat' split) <;> simp [h, Memory.wr_wf]

@[simp] theorem State.decrement_wf (s : State) (ctx va : Nat) (h : s.mem.wf = true) : (s.decrement ctx va).mem.wf = true := by
  unfold State.decrement
  (repeat' split) <;> simp [h]

@[simp] theorem State.closeBatch_wf (s : State) (id : Nat × Nat) (t : Team) (g : Group) (b : Batch) (h : s.mem.wf = true) :
    (s.closeBatch id t g b).mem.wf = true := by
  unfold State.closeBatch
  split <;> simp [h]

@[simp] theorem State.closeBatches_wf (s : State) (h : s.mem.wf = true) : (s.closeBatches).mem.wf = true := by
  refine foldl_wf (fun s _ hs => ?_) _ _ h
  dsimp only
  split <;> simp [hs]

@[simp] theorem State.logMcast_wf (s : State) (id : Nat) (h : s.mem.wf = true) : (s.logMcast id).mem.wf = true := by
  unfold State.logMcast
  (repeat' split) <;> simp [h]

@[simp] theorem State.cancelCopy_wf (s : State) (id : Nat) (h : s.mem.wf = true) : (s.cancelCopy id).mem.wf = true := by
  unfold State.cancelCopy
  split
  · exact h
  · have hd : ∀ (l : List (Nat × Nat)) (c : Copy), (l.foldl (fun s d => s.endDest c d true .empty) (s.logMcast id)).mem.wf = true :=
      fun l c => foldl_wf (fun _ _ hs => by simp [hs]) l _ (s.logMcast_wf id h)
    simpa using State.closeBatches_wf _ (State.logFault_wf _ _ _ _ _ (by simp [hd]))

@[simp] theorem State.faultUnit_wf (s : State) (k : Cmd) (c : Copy) (x : Exc) (h : s.mem.wf = true) : (s.faultUnit k c x).mem.wf = true := by
  unfold State.faultUnit
  dsimp only
  split
  · refine State.cancelCopy_wf _ _ ?_
    (repeat' split) <;> simp [h]
  · simp [h]

/-! ### Lost dies and groups that leave -/

@[simp] theorem State.loseEngines_wf (s : State) (die : Nat) (h : s.mem.wf = true) : (s.loseEngines die).mem.wf = true := by
  unfold State.loseEngines
  refine foldl_wf (fun _ _ h => ?_) _ _ (by simp [h])
  split <;> simp [h]

@[simp] theorem State.lostCtx_wf (s : State) (ctx : Nat) (h : s.mem.wf = true) : (s.lostCtx ctx).mem.wf = true :=
  State.terminate_wf _ _ (State.echoFault_wf _ _ _ _ _ (s.record_wf _ _ h))

@[simp] theorem State.loseDie_wf (s : State) (die : Nat) (h : s.mem.wf = true) : (s.loseDie die).mem.wf = true := by
  have hk := foldl_wf (f := fun s (t : Team) => s.killTeam t.id) (fun _ _ hs => State.killTeam_wf _ _ hs)
  have hc := foldl_wf State.lostCtx_wf
  have hs : ((s.updDie die fun d => { d with lost := true, rerouted := false, out := false }).updMgmt fun m =>
      { m with diepres := setDie m.diepres die false }).mem.wf = true := h
  unfold State.loseDie
  simpa using State.loseEngines_wf _ _ (by simpa using hc _ _ (hk _ _ hs))

@[simp] theorem State.checkPaths_wf (n : Nat) (s : State) (h : s.mem.wf = true) : (State.checkPaths n s).mem.wf = true := by
  induction n generalizing s with
  | zero => exact h
  | succ n ih =>
    unfold State.checkPaths
    split
    · exact ih _ (s.loseDie_wf _ h)
    · exact h

@[simp] theorem State.withdraw_wf (s : State) (id : Nat × Nat) (h : s.mem.wf = true) : (s.withdraw id).mem.wf = true := by simp [State.withdraw, h]

@[simp] theorem State.takeDeferred_wf (s : State) (id : Nat × Nat) (t : Team) (g : Group) (h : s.mem.wf = true) :
    (s.takeDeferred id t g).mem.wf = true := by
  unfold State.takeDeferred
  split <;> simp +contextual [foldl_wf, h]

@[simp] theorem State.takeGroup_wf (s : State) (id : Nat × Nat) (t : Team) (g : Group) (h : s.mem.wf = true) :
    (s.takeGroup id t g).mem.wf = true := by simp [State.takeGroup, h]

@[simp] theorem State.stepThree_wf (s : State) (id : Nat × Nat) (h : s.mem.wf = true) : (s.stepThree id).mem.wf = true := by
  unfold State.stepThree
  (repeat' split) <;> simp [h]

@[simp] theorem State.reserve2_wf (s : State) (id : Nat × Nat) (slots : Nat) (drop : Bool) (h : s.mem.wf = true) :
    (s.reserve2 id slots drop).mem.wf = true := by simp [State.reserve2, h]

@[simp] theorem State.stepTrace_wf (s : State) (id : Nat × Nat) (h : s.mem.wf = true) : (s.stepTrace id).mem.wf = true := by
  unfold State.stepTrace
  dsimp only
  (repeat' split) <;> simp [h]

/-! ### Saves -/

@[simp] theorem State.emitMasks_wf (s : State) (ctx code : Nat) (ts : List Team) (h : s.mem.wf = true) :
    (s.emitMasks ctx code ts).mem.wf = true := by
  unfold State.emitMasks
  refine foldl_wf (fun _ _ h => ?_) _ _ (by simp [h])
  split <;> simp [h]

@[simp] theorem State.removeSaved_wf (s : State) (t : Team) (h : s.mem.wf = true) : (s.removeSaved t).mem.wf = true := by simp [State.removeSaved, h]

@[simp] theorem State.watchdog_wf (s : State) (ctx detail : Nat) (h : s.mem.wf = true) : (s.watchdog ctx detail).mem.wf = true :=
  State.terminate_wf _ _ (State.echoFault_wf _ _ _ _ _ (s.record_wf _ _ h))

@[simp] theorem State.writeArea_wf (s : State) (c : Ctx) (ts : List Team) (cause : Cause) (h : s.mem.wf = true) :
    okAll (fun t => t.mem.wf = true) (s.writeArea c ts cause) := by
  unfold State.writeArea
  refine okAll_ite okAll_error (okAll_ite okAll_error (okAll_ok.mpr ?_))
  simpa using State.store_wf _ _ _ (State.store_wf _ _ _ (s.store_wf _ _ h))

@[simp] theorem State.finishSave_wf (s : State) (c : Ctx) (cause : Cause) (h : s.mem.wf = true) : (s.finishSave c cause).mem.wf = true := by
  have ha := s.writeArea_wf c (s.imaged c.num) cause h
  unfold State.finishSave
  dsimp only
  split
  · simp [h]
  · next s1 hs =>
    have hr := foldl_wf State.removeSaved_wf
    simp [hr, ha s1 hs]

@[simp] theorem State.finishSingle_wf (s : State) (c : Ctx) (x : Cand) (t : Team) (h : s.mem.wf = true) : (s.finishSingle c x t).mem.wf = true := by
  have ha := s.writeArea_wf c [t] .sched h
  unfold State.finishSingle
  dsimp only
  split
  · simp [h]
  · next s1 hs => simp [ha s1 hs]

/-! ### Units of copies -/

@[simp] theorem State.deliverBytes_wf (s : State) (team i n addr : Nat) (h : s.mem.wf = true) : (s.deliverBytes team i n addr).mem.wf = true := by
  unfold State.deliverBytes
  (repeat' split) <;> simp [h]

@[simp] theorem State.postBytes_wf (s : State) (c : Copy) (n addr : Nat) (h : s.mem.wf = true) : (s.postBytes c n addr).mem.wf = true := by
  unfold State.postBytes
  (repeat' split) <;> simp +contextual [foldl_wf, h]

@[simp] theorem State.writeTarget_wf (s : State) (t : Target) (bs : List Byte) (h : s.mem.wf = true) : (s.writeTarget t bs).mem.wf = true := by
  unfold State.writeTarget
  (repeat' split) <;> simp [h, Memory.write_wf]

@[simp] theorem writeTargets_wf (s : State) (ts : List (Target × Nat)) (bs : List Byte) (h : s.mem.wf = true) :
    (writeTargets s ts bs).mem.wf = true := by
  induction ts generalizing s bs with
  | nil => exact h
  | cons p ts ih => exact ih _ _ (s.writeTarget_wf _ _ h)

@[simp] theorem unitWrites_wf (s : State) (c : Ctx) (own : Option (Team × Nat)) (ep : Endp) (f : Nat) (org : List Int) (n0 : Nat) (u : UnitOut)
    (h : s.mem.wf = true) : okAll (fun t => t.mem.wf = true) (unitWrites s c own ep f org n0 u) := by
  have put : ∀ (s : State) (addr : Nat) (bs : List Byte), s.mem.wf = true →
      okAll (fun t => t.mem.wf = true) (ep.target s c own addr bs.length .write >>= fun ts => pure (writeTargets s ts bs)) :=
    fun s addr bs hs => okAll_then fun ts => okAll_pure.mpr (writeTargets_wf s ts bs hs)
  unfold unitWrites
  dsimp only
  split
  · refine okAll_both (okAll_pure.mpr h) (put s _ _ h) fun s1 hs1 => foldlM_wf (fun s k hs => ?_) _ _ hs1
    split
    · exact okAll_ok.mpr hs
    · exact okAll_either fun _ => put s _ _ hs
  · refine okAll_bind fun s1 hs1 => foldlM_wf (fun s k hs => ?_) _ _ (Except.ok.inj hs1 ▸ h)
    split
    · exact okAll_ok.mpr hs
    · exact okAll_either fun _ => put s _ _ hs

@[simp] theorem State.moveUnit_wf (s : State) (c : Copy) (x : Ctx) (die unit u : Nat) (h : s.mem.wf = true) :
    okAll (fun t => t.mem.wf = true) (s.moveUnit c x die unit u) := by
  unfold State.moveUnit
  dsimp only
  refine okAll_then fun xs => okAll_bind fun s1 h1 => ?_
  have w1 := State.chargeOr_wf h s1 h1
  refine okAll_both (State.chargeOr_wf w1) (okAll_ok.mpr w1) fun s2 w2 => okAll_bind fun s4 h4 => okAll_pure.mpr ?_
  refine State.postBytes_wf _ _ _ _ (foldlM_wf (fun s ep hs => okAll_orFault (unitWrites_wf s x _ ep _ _ _ _ hs)) _ _ ?_ s4 h4)
  simp [w2]

@[simp] theorem State.reduceUnit_wf (s : State) (c : Copy) (x : Ctx) (die unit u : Nat) (h : s.mem.wf = true) :
    okAll (fun t => t.mem.wf = true) (s.reduceUnit c x die unit u) := by
  unfold State.reduceUnit
  dsimp only
  split
  all_goals
    refine okAll_then fun w => ?_
    split
    · exact okAll_pure.mpr h
    · refine okAll_then fun ts => ?_
      split
      · exact okAll_pure.mpr h
      · refine okAll_check fun _ => ?_
        split
        · exact okAll_error
        · refine okAll_ite (okAll_pure.mpr (by simp [h])) (okAll_ite okAll_error (okAll_bind fun s1 h1 => ?_))
          have w1 := State.chargeOr_wf h s1 h1
          refine okAll_both (State.chargeOr_wf w1) (okAll_ok.mpr w1) fun s2 w2 => ?_
          refine okAll_both (State.chargeOr_wf w2) (okAll_ok.mpr w2) fun s3 w3 => okAll_pure.mpr (State.postBytes_wf _ _ _ _ ?_)
          simp [w3]

@[simp] theorem State.emitEngine_wf (s : State) (die unit code tag : Nat) (payload : W32) (h : s.mem.wf = true) :
    (s.emitEngine die unit code tag payload).mem.wf = true := by simp [State.emitEngine, h]

@[simp] theorem State.writeStamp_wf (s : State) (c : Copy) (die unit : Nat) (h : s.mem.wf = true) :
    okAll (fun t => t.mem.wf = true) (s.writeStamp c die unit) := by
  unfold State.writeStamp
  split
  · exact okAll_pure.mpr h
  · exact okAll_then fun t => okAll_pure.mpr (by simp [h])

@[simp] theorem State.performUnit_wf (s : State) (c : Copy) (die unit u : Nat) (h : s.mem.wf = true) :
    okAll (fun t => t.mem.wf = true) (s.performUnit c die unit u) := by
  unfold State.performUnit
  split
  · exact okAll_error
  · next x _ =>
    refine okAll_ite okAll_error (okAll_ite (okAll_map fun t ht => ?_)
      (okAll_ite (okAll_orFault (s.writeStamp_wf c die unit h)) (okAll_map fun t ht => ?_)))
    · simp [s.reduceUnit_wf c x die unit u h t ht]
    · simp [s.moveUnit_wf c x die unit u h t ht]

@[simp] theorem State.tryStamp_wf (s : State) (id : Nat) (h : s.mem.wf = true) : (s.tryStamp id).mem.wf = true := by
  unfold State.tryStamp
  split
  · exact h
  · next c _ =>
    split
    · exact h
    · next k _ =>
      split
      · next s1 hs => simp [s.performUnit_wf c k.die k.unit (c.units - 1) h s1 hs]
      · exact h

@[simp] theorem State.performEv_wf (s : State) (die unit slot u : Nat) (p : Copy → Bool) (h : s.mem.wf = true) :
    (s.performEv die unit slot u p).mem.wf = true := by
  unfold State.performEv
  split
  · exact h
  · split
    · exact h
    · next c _ =>
      split
      · exact h
      · split
        · next s1 hs => simp [s.performUnit_wf c die unit u h s1 hs]
        · exact h

end Sys2Proof.Machine
end

section
/-! The canonical form of memory: accesses, queues, calls, waits and phases. -/

namespace Sys2Proof.Machine

/-! ### Images, accesses that fail, sinks and calls -/

@[simp] theorem State.enlist_wf (s : State) (c : Ctx) (p : (Found × Option Cls) × Nat) (h : s.mem.wf = true) :
    (s.enlist c p).mem.wf = true := by
  unfold State.enlist
  (repeat' split) <;> simp [h, Memory.wr_wf]

@[simp] theorem State.takeBack_wf (s : State) (ls : List Late) (ix : List Nat) (h : s.mem.wf = true) : (s.takeBack ls ix).1.mem.wf = true :=
  foldl_wf (fun _ _ hs => State.store_wf _ _ _ hs) _ _ h

@[simp] theorem State.failAccess_wf (s : State) (id : Nat × Nat) (code addr : Nat) (lanes pc : W64) (h : s.mem.wf = true) :
    (s.failAccess id code addr lanes pc).mem.wf = true := by
  have hb : ∀ (p : Prop) [Decidable p] (ls : List Late) (ix : List Nat) (l : List Late), (if p then s.takeBack ls ix else (s, l)).1.mem.wf = true :=
    fun p _ ls ix l => by split <;> simp [h]
  have hd : ∀ (l : List Nat) (u : State), u.mem.wf = true → (l.foldl (fun s _ =>
      s.storeDone id fun x => { x with pendingStores := x.pendingStores - 1 }) u).mem.wf = true :=
    foldl_wf fun _ _ hs => by simp [hs]
  unfold State.failAccess
  dsimp only
  split
  · exact h
  · split
    · simp [h]
    · simpa using hd _ _ (hb _ _ _ _)

@[simp] theorem State.sinkEvent_wf (s : State) (e : Ev) (h : s.mem.wf = true) : (s.sinkEvent e).mem.wf = true := by
  unfold State.sinkEvent
  dsimp only
  (repeat' split) <;> simp [h, Memory.write_wf, Memory.wr_wf]

@[simp] theorem State.answerSaved_wf (s : State) (p : Nat × KDesc × Nat) (xs : List W32) (h : s.mem.wf = true) :
    (s.answerSaved p xs).mem.wf = true := by simp [State.answerSaved, h, Memory.write_wf, Memory.wr_wf]

@[simp] theorem State.answerCall_wf (s : State) (token : Nat) (xs : List W32) (h : s.mem.wf = true) : (s.answerCall token xs).2.mem.wf = true := by
  unfold State.answerCall
  split
  · exact h
  · dsimp only
    split
    · simp [h]
    · split <;> simp [h]

/-! ### Waits, arrivals and deliveries -/

@[simp] theorem State.faultAtWait_wf (s : State) (id : Nat) (g : Group) (x : Exc) (kill : Bool) (h : s.mem.wf = true) :
    (s.faultAtWait id g x kill).mem.wf = true := by simp [State.faultAtWait, h]

@[simp] theorem State.arrive_wf (s : State) (id : Nat) (h : s.mem.wf = true) : (s.arrive id).mem.wf = true := by
  unfold State.arrive
  dsimp only
  (repeat' split) <;> simp [h]

@[simp] theorem State.groupExit_wf (s : State) (id : Nat × Nat) (h : s.mem.wf = true) : (s.groupExit id).mem.wf = true := by simp [State.groupExit, h]

@[simp] theorem State.deliverItem_wf (s : State) (w : Waiter) (item : List Byte) (num : Nat) (h : s.mem.wf = true) :
    (s.deliverItem w item num).mem.wf = true := by
  unfold State.deliverItem
  dsimp only
  split <;> simp [h]

@[simp] theorem State.failDeq_wf (s : State) (id : Nat × Nat) (x : Exc) (h : s.mem.wf = true) : (s.failDeq id x).mem.wf = true := by
  simp [State.failDeq, h]

@[simp] theorem State.register_wf (s : State) (c : Ctx) (t : Team) (g : Group) (pa ls dst : Nat) (h : s.mem.wf = true) :
    (s.register c t g pa ls dst).mem.wf = true := by
  unfold State.register
  split <;> simp +contextual [foldl_wf, h]

@[simp] theorem State.takeItem_wf (s : State) (c : Ctx) (pa : Nat) (q : QHdr) (h : s.mem.wf = true) :
    okAll (fun r => r.2.mem.wf = true) (s.takeItem c pa q) :=
  okAll_ite (okAll_pure.mpr h) (okAll_then fun _ => okAll_pure.mpr (s.storeNat_wf _ _ _ h))

@[simp] theorem State.retryDeq_wf (s : State) (id : Nat × Nat) (h : s.mem.wf = true) : (s.retryDeq id).mem.wf = true := by
  unfold State.retryDeq
  split
  · next t g _ _ =>
    split
    · next c _ _ =>
      dsimp only
      split
      · exact h
      · split
        · split <;> simp [h]
        · next q _ =>
          have ht := fun u hu => State.takeItem_wf u c q.1 q.2 hu
          refine wf_ite h (wf_ite (by simp [h]) (wf_ite ?_ (wf_ite (by simp [h]) (by simp [h]))))
          split
          · next num item s2 hs => simp [ht _ (by simp [h]) _ hs]
          · simp [h]
          · simp [h]
    · exact h
  · exact h

@[simp] theorem State.tryRelease_wf (s : State) (id : Nat × Nat) (h : s.mem.wf = true) : (s.tryRelease id).mem.wf = true := by
  unfold State.tryRelease
  split
  · split <;> (repeat' split) <;> simp [h]
  · exact h

/-! ### Faults of launches, teams and words -/

@[simp] theorem State.reject_wf (s : State) (ctx tenant bcls hub : Nat) (x : Exc) (h : s.mem.wf = true) :
    (s.reject ctx tenant bcls hub x).mem.wf = true := by simp [State.reject, h]

@[simp] theorem State.sweepLaunch_wf (hub : Nat) (c : Ctx) (n : Nat) (s : State) (q : QRef) (h : s.mem.wf = true) :
    (State.sweepLaunch hub c n s q).mem.wf = true := by
  induction n generalizing s q with
  | zero => exact h
  | succ n ih =>
    unfold State.sweepLaunch
    split
    · exact h
    · split
      · exact h
      · exact ih _ _ (State.storeNat_wf _ _ _ _ (s.reject_wf _ _ _ _ _ h))

@[simp] theorem State.carryFail_wf (s : State) (t : Team) (x : Exc) (h : s.mem.wf = true) : (s.carryFail t x).mem.wf = true :=
  State.terminate_wf _ _ (State.killTeam_wf _ _ (State.echoFault_wf _ _ _ _ _ (s.record_wf _ _ h)))

@[simp] theorem State.fetchRecord_wf (s : State) (t : Team) (grp : Nat) (x : Exc) (pc : W64) (sev scope : Nat) (h : s.mem.wf = true) :
    (s.fetchRecord t grp x pc sev scope).mem.wf = true := by simp [State.fetchRecord, h]

@[simp] theorem State.retire_wf (s : State) (ctx : Nat) (r : Retire) (h : s.mem.wf = true) : (s.retire ctx r).mem.wf = true := by
  simp [State.retire, h]

@[simp] theorem State.refuse_wf (s : State) (w : Iss) (x : Exc) (h : s.mem.wf = true) : (s.refuse w x).mem.wf = true := by simp [State.refuse, h]

@[simp] theorem State.charging_wf (s : State) (w : Iss) (act n : Nat) (k : State → Except Exc State) (h : s.mem.wf = true)
    (hk : ∀ u, u.mem.wf = true → okAll (fun t => t.mem.wf = true) (k u)) : okAll (fun t => t.mem.wf = true) (s.charging w act n k) := by
  have hc : ∀ a b act hub n, (s.charge a b act hub n).2.mem.wf = true := fun _ _ _ _ _ => by simp [h]
  unfold State.charging
  split
  · next s1 hs => exact hk s1 (hs ▸ hc _ _ _ _ _ : (Charge.ok, s1).2.mem.wf = true)
  · exact okAll_ok.mpr (by simp [h])
  · next s1 hs => exact okAll_ok.mpr (State.refuse_wf _ _ _ (hs ▸ hc _ _ _ _ _ : (Charge.hard, s1).2.mem.wf = true))

@[simp] theorem State.dumpAndHold_wf (s : State) (cause die : Nat) (saved : List Nat) (h : s.mem.wf = true) :
    (s.dumpAndHold cause die saved).mem.wf = true := by simp [State.dumpAndHold, h, Memory.write_wf]

@[simp] theorem State.fatalGo_wf (s : State) (cause die : Nat) (h : s.mem.wf = true) : (s.fatalGo cause die).mem.wf = true := by
  unfold State.fatalGo
  split <;> simp +contextual [foldl_wf, h]

/-! ### Records in memory -/

@[simp] theorem writeParts_wf (s : State) (ts : List (Target × Nat)) (bs : List Byte) (h : s.mem.wf = true) : (writeParts s ts bs).mem.wf = true := by
  induction ts generalizing s bs with
  | nil => exact h
  | cons p ts ih => exact ih _ _ (s.writeTarget_wf _ _ h)

@[simp] theorem State.patch_wf (s : State) (c : Ctx) (va : Nat) (bs : List Byte) (h : s.mem.wf = true) :
    (s.patch c va bs).mem.wf = true := by
  unfold State.patch
  split
  · exact writeParts_wf _ _ _ h
  · exact h

@[simp] theorem State.patchWord_wf (s : State) (c : Ctx) (va x : Nat) (h : s.mem.wf = true) : (s.patchWord c va x).mem.wf = true := by
  unfold State.patchWord
  split <;> simp [h]

@[simp] theorem State.patchConst_wf (s : State) (c : Ctx) (k : KDesc) (h : s.mem.wf = true) : (s.patchConst c k).mem.wf = true := by
  unfold State.patchConst
  dsimp only
  split
  · exact h
  · split
    · exact h
    · split
      · exact foldl_wf (fun s _ hs => s.patch_wf _ _ _ hs) _ _ h
      · exact foldl_wf (fun s _ hs => s.patchWord_wf _ _ _ hs) _ _ (foldl_wf (fun s _ hs => s.patch_wf _ _ _ hs) _ _ h)

@[simp] theorem State.rebindImage_wf (s : State) (x : Cand) (h : s.mem.wf = true) : (s.rebindImage x).mem.wf = true := by
  unfold State.rebindImage
  dsimp only
  (repeat' split) <;> simp [h, Memory.wr_wf]

@[simp] theorem State.rebindTask_wf (s : State) (c : Ctx) (va : Nat) (h : s.mem.wf = true) : (s.rebindTask c va).mem.wf = true := by
  unfold State.rebindTask
  (repeat' split) <;> simp [h]

/-! ### The end of teams and phases -/

@[simp] theorem State.emitTeam_wf (s : State) (t : Team) (code phase : Nat) (h : s.mem.wf = true) :
    (s.emitTeam t code phase).mem.wf = true := by simp [State.emitTeam, h]

@[simp] theorem State.endLaunch_wf (s : State) (t : Team) (h : s.mem.wf = true) : (s.endLaunch t).mem.wf = true := by
  unfold State.endLaunch
  dsimp only
  (repeat' split) <;> simp [h]

@[simp] theorem State.endTeam_wf (s : State) (t : Team) (h : s.mem.wf = true) : (s.endTeam t).mem.wf = true := by simp [State.endTeam, h]

@[simp] theorem State.writeRec_wf (s : State) (c : Ctx) (va : Nat) (bs : List Byte) (h : s.mem.wf = true) :
    okAll (fun t => t.mem.wf = true) (s.writeRec c va bs) := okAll_map fun ts _ => writeParts_wf s ts bs h

@[simp] theorem State.writeSpill_wf (s : State) (c : Ctx) (t : Team) (m : Maps) (h : s.mem.wf = true) :
    okAll (fun t => t.mem.wf = true) (s.writeSpill c t m) :=
  okAll_bind fun s1 h1 => s1.writeRec_wf c _ _ (s.writeRec_wf c _ _ h s1 h1)

@[simp] theorem State.gate_wf (s : State) (c : Ctx) (t : Team) (p : Nat) (m : Maps) (start : Bool) (h : s.mem.wf = true) :
    (s.gate c t p m start).mem.wf = true := by
  unfold State.gate
  split
  · exact s.carryFail_wf _ _ h
  · split
    · split
      · exact s.carryFail_wf _ _ h
      · next s1 hs =>
        have h1 : s1.mem.wf = true := okAll_ite (s.writeSpill_wf c t m h) (okAll_ok.mpr h) s1 hs
        simp [h1]
    · dsimp only
      split <;> simp [h]

@[simp] theorem State.writePcode_wf (s : State) (c : Ctx) (t : Team) (pc : W64) (h : s.mem.wf = true) :
    okAll (fun t => t.mem.wf = true) (s.writePcode c t pc) := s.writeRec_wf _ _ _ h

@[simp] theorem State.phaseEnd_wf (s : State) (c : Ctx) (t : Team) (h : s.mem.wf = true) : (s.phaseEnd c t).mem.wf = true := by
  unfold State.phaseEnd
  dsimp only
  split
  · exact s.carryFail_wf _ _ h
  · next s1 hs =>
    refine okAll_then (p := fun t : State => t.mem.wf = true) (fun m => okAll_bind fun s2 h2 => okAll_pure.mpr ?_) s1 hs
    have w2 := State.writePcode_wf _ c _ _ (by simp [h]) s2 h2
    simp [w2]

/-! ### Queues -/

@[simp] theorem takeWord_wf (w : Iss) (s : State) (h : s.mem.wf = true) : okAll (fun r => r.2.2.mem.wf = true) (takeWord w s) :=
  okAll_then fun _ => okAll_then fun _ => okAll_then fun _ => okAll_bind fun r hr => okAll_pure.mpr (s.takeItem_wf _ _ _ h r hr)

@[simp] theorem State.enqueue_wf (s : State) (c : Ctx) (pa : Nat) (q : QHdr) (item : List Byte) (h : s.mem.wf = true) :
    okAll (fun r => r.2.mem.wf = true) (s.enqueue c pa q item) := by
  unfold State.enqueue
  refine okAll_ite (okAll_pure.mpr h) (okAll_then fun slot => ?_)
  dsimp only
  split
  · exact okAll_pure.mpr (State.deliverItem_wf _ _ _ _ (State.storeNat_wf _ _ _ _ (s.storeNat_wf _ _ _ h)))
  · have h1 := State.storeNat_wf (s.store slot item) (pa + 24) 8 ((q.tail + 1) % 2 ^ 64) (s.store_wf _ _ h)
    have h2 : (State.noteTask ((s.store slot item).storeNat (pa + 24) 8 ((q.tail + 1) % 2 ^ 64)) c (q.item q.tail) item).mem.wf = true := by
      rw [State.noteTask_mem]; exact h1
    exact okAll_pure.mpr (wf_ite h2 h1)

end Sys2Proof.Machine
end

section
/-! The canonical form of memory: jobs, the schedulers, migrations, images and the turn of a step without a word. -/

namespace Sys2Proof.Machine

/-! ### Jobs -/

@[simp] theorem State.jobFailed_wf (s : State) (c : Ctx) (j : QJob) (x : Exc) (h : s.mem.wf = true) : (s.jobFailed c j x).mem.wf = true := by
  simp [State.jobFailed, h]

@[simp] theorem State.jobSignal_wf (s : State) (c : Ctx) (j : QJob) (failed : Bool) (h : s.mem.wf = true) :
    (s.jobSignal c j failed).mem.wf = true := by
  unfold State.jobSignal
  dsimp only
  (repeat' split) <;> simp [h]

@[simp] theorem State.jobUnit_wf (s : State) (c : Ctx) (j : QJob) (p : JobPlan) (u : Nat) (h : s.mem.wf = true) :
    okAll (fun t => t.mem.wf = true) (s.jobUnit c j p u) := by
  have hc : ∀ act hub n, (s.charge j.tenant j.bcls act hub n).2.mem.wf = true := fun _ _ _ => by simp [h]
  unfold State.jobUnit
  dsimp only
  refine okAll_then fun xs => ?_
  split
  · next s1 hs =>
    have w1 : s1.mem.wf = true := (hs ▸ hc _ _ _ : (Charge.ok, s1).2.mem.wf = true)
    exact okAll_bind fun s2 h2 => okAll_orFault (unitWrites_wf _ _ _ _ _ _ _ _ (by cases h2; simp [w1]))
  · exact okAll_error
  · exact okAll_error

/-! ### Gangs and grants -/

@[simp] theorem State.lastTaken_wf (s : State) (id : Nat) (h : s.mem.wf = true) : (s.lastTaken id).mem.wf = true := by
  unfold State.lastTaken
  (repeat' split) <;> simp [h, Memory.wr_wf]

@[simp] theorem State.reserve_wf (s : State) (id : Nat) (h : s.mem.wf = true) : (s.reserve id).mem.wf = true := by
  unfold State.reserve
  (repeat' split) <;> simp [h]

@[simp] theorem State.formGang_wf (s : State) (k : KDesc) (cls : Cls) (hub launch first : Nat) (ids : List Nat) (ok : Nat → Bool) (h : s.mem.wf = true) :
    (s.formGang k cls hub launch first ids ok).mem.wf = true := by simp [State.formGang, h]

@[simp] theorem State.dispatchNext_wf (s : State) (id : Nat) (cls : Cls) (hub : Nat) (h : s.mem.wf = true) :
    (s.dispatchNext id cls hub).mem.wf = true := by
  unfold State.dispatchNext
  (repeat' split) <;> simp [h]

@[simp] theorem State.grantImages_wf (s : State) (xs : List Cand) (cls : Cls) (hub : Nat) (h : s.mem.wf = true) :
    (s.grantImages xs cls hub).mem.wf = true := by
  unfold State.grantImages
  split <;> simp [h]

@[simp] theorem State.takeTask_wf (s : State) (c : Ctx) (q : QRef) (va : Nat) (h : s.mem.wf = true) : (s.takeTask c q va).mem.wf = true := by
  unfold State.takeTask
  split
  · exact h
  · next s1 hs => exact State.storeNat_wf _ _ _ _ (okAll_then (p := fun t : State => t.mem.wf = true) (fun b => s.writeRec_wf _ _ _ h) s1 hs)

@[simp] theorem State.grantTask_wf (s : State) (q : QRef) (va : Nat) (bs : List Byte) (k : KDesc) (cls : Cls) (core : Nat) (h : s.mem.wf = true) :
    (s.grantTask q va bs k cls core).mem.wf = true := by
  unfold State.grantTask
  split
  · exact h
  · next c _ =>
    have h1 := s.takeTask_wf c q va h
    dsimp only
    split
    · exact State.carryFail_wf _ _ _ h1
    · simp [h1]

@[simp] theorem State.takeLaunch_wf (s : State) (l : Launch) (cls : Cls) (hub : Nat) (h : s.mem.wf = true) :
    (s.takeLaunch l cls hub).mem.wf = true := by simp [State.takeLaunch, h]

@[simp] theorem State.grant_wf (s : State) (hub : Nat) (o : Offer) (h : s.mem.wf = true) : (s.grant hub o).mem.wf = true := by
  unfold State.grant
  (repeat' split) <;> simp [h]

@[simp] theorem State.roundCls_wf (s : State) (hub : Nat) (cls : Cls) (h : s.mem.wf = true) : (s.roundCls hub cls).mem.wf = true := by
  unfold State.roundCls
  dsimp only
  (repeat' split) <;> simp [h]

/-! ### Rounds -/

@[simp] theorem State.sweepTaken_wf (hub : Nat) (s : State) (l : Launch) (h : s.mem.wf = true) : (State.sweepTaken hub s l).mem.wf = true := by
  unfold State.sweepTaken
  (repeat' split) <;> simp [h, Memory.wr_wf]

@[simp] theorem State.sweepTask_wf (s : State) (c : Ctx) (q : QRef) (hub va : Nat) (h : s.mem.wf = true) :
    (s.sweepTask c q hub va).mem.wf = true := by
  unfold State.sweepTask
  (repeat' split) <;> simp [h]

theorem State.sweepLaunches_wf (hub : Nat) (l : List (Ctx × QRef)) (s : State) (h : s.mem.wf = true) :
    (l.foldl (fun s p => State.sweepLaunch hub p.1 p.2.hdr.count s p.2) s).mem.wf = true := by
  induction l generalizing s with
  | nil => exact h
  | cons p l ih =>
    rw [List.foldl_cons]
    exact ih _ (State.sweepLaunch_wf hub p.1 p.2.hdr.count s p.2 h)

theorem State.sweepTasks_wf (hub : Nat) (l : List (Ctx × QRef)) (s : State) (h : s.mem.wf = true) :
    (l.foldl (fun s p => p.2.hdr.items.foldl (fun s va => s.sweepTask p.1 p.2 hub va) s) s).mem.wf = true := by
  induction l generalizing s with
  | nil => exact h
  | cons p l ih =>
    rw [List.foldl_cons]
    refine ih _ ?_
    generalize p.2.hdr.items = vas
    exact foldl_wf (fun s va hs => s.sweepTask_wf p.1 p.2 hub va hs) vas s h

@[simp] theorem State.sweep_wf (s : State) (hub : Nat) (h : s.mem.wf = true) : (s.sweep hub).mem.wf = true := by
  unfold State.sweep
  dsimp only
  refine State.sweepTasks_wf hub _ _ (State.sweepLaunches_wf hub _ _ (foldl_wf (State.sweepTaken_wf hub) _ _ ?_))
  simp [h]

@[simp] theorem State.round_wf (s : State) (hub : Nat) (h : s.mem.wf = true) : (s.round hub).mem.wf = true := by
  unfold State.round
  exact foldl_wf (fun s c hs => by simp [hs]) _ _ (foldl_wf (fun s c hs => s.roundCls_wf hub c hs) _ _
    (State.sweep_wf _ _ (foldl_wf (fun s c hs => by simp [hs]) _ _ h)))

/-! ### Migrations and successors -/

@[simp] theorem State.migrate_wf (s : State) (c : Ctx) (va : Nat) (lf : Leaf) (entry newPa : Nat) (h : s.mem.wf = true) :
    (s.migrate c va lf entry newPa).mem.wf = true := by
  have hb : ∀ l : List SliceLine, (l.foldl State.writeBack s).mem.wf = true := fun l => foldl_wf (fun s c hs => by simp [hs]) _ _ h
  unfold State.migrate
  refine foldl_wf (fun s _ hs => by simp [hs]) _ _ ?_
  simpa using Memory.wr_wf _ _ _ (Memory.copy_wf (hb _) _ _ _)

@[simp] theorem State.thaw_wf (s : State) (z : Freeze) (h : s.mem.wf = true) : (s.thaw z).mem.wf = true := by
  unfold State.thaw
  dsimp only
  (repeat' split) <;> simp [h]

@[simp] theorem State.succEnd_wf (s : State) (c : Ctx) (t : Team) (kva : Nat) (pl : SuccPlan) (h : s.mem.wf = true) :
    (s.succEnd c t kva pl).mem.wf = true := by
  have hf : ∀ (u : State) (t : Team) (x : Exc), u.mem.wf = true → (u.carryFail t x).mem.wf = true := fun u t x hu => u.carryFail_wf t x hu
  unfold State.succEnd
  dsimp only
  split
  · simp [h]
  · split
    · exact hf _ _ _ (by simp [h])
    · next s2 hs =>
      have h2 : s2.mem.wf = true := okAll_bind (p := fun t : State => t.mem.wf = true)
        (fun s1 h1 => okAll_ite (State.writeSpill_wf _ _ _ _ (State.writePcode_wf _ _ _ _ (by simp [h]) s1 h1))
          (okAll_ok.mpr (State.writePcode_wf _ _ _ _ (by simp [h]) s1 h1))) s2 hs
      simp [h2]

/-! ### Calls and images -/

@[simp] theorem State.enqueueFor_wf (s : State) (id : Nat × Nat) (q : Ctx × Nat × QHdr) (item : List Byte) (h : s.mem.wf = true) :
    okAll (fun r => r.2.mem.wf = true) (s.enqueueFor id q item) := by
  refine okAll_then fun slot => okAll_bind fun r hr => okAll_pure.mpr ?_
  have h1 := s.enqueue_wf q.1 q.2.1 q.2.2 item h r hr
  refine wf_ite ?_ h1
  split <;> simp [h1]

@[simp] theorem State.enqueueCall_wf (s : State) (c : Ctx) (p : PendCall) (h : s.mem.wf = true) : okAll (fun r => r.2.mem.wf = true) (s.enqueueCall c p) :=
  okAll_then fun q => s.enqueueFor_wf _ q _ h

@[simp] theorem State.restored_wf (s : State) (ctx : Nat) (h : s.mem.wf = true) : (s.restored ctx).mem.wf = true := by simp [State.restored, h]

@[simp] theorem State.restoredGate_wf (s : State) (c : Ctx) (t : Team) (h : s.mem.wf = true) : (s.restoredGate c t).mem.wf = true := by
  unfold State.restoredGate
  dsimp only
  split
  · exact s.gate_wf _ _ _ _ _ h
  · split
    · exact s.gate_wf _ _ _ _ _ h
    · exact s.carryFail_wf _ _ h

@[simp] theorem State.setRst_wf (s : State) (c : Ctx) (off : Nat) (h : s.mem.wf = true) : (s.setRst c off).mem.wf = true := by
  unfold State.setRst
  dsimp only
  (repeat' split) <;> simp [h, Memory.wr_wf]

@[simp] theorem State.loadImage_wf (s : State) (c : Ctx) (t : Team) (off : Nat) (single : Bool) (h : s.mem.wf = true) :
    (s.loadImage c t off single).mem.wf = true := by
  unfold State.loadImage
  refine State.closeBatches_wf _ ?_
  have h2 : ∀ u : State, u.mem.wf = true → (if single then u.setRst c off else u).mem.wf = true := fun u hu => wf_ite (u.setRst_wf _ _ hu) hu
  have h3 : ∀ u : State, u.mem.wf = true → (if single then u else u.restored c.num).mem.wf = true := fun u hu => wf_ite hu (u.restored_wf _ hu)
  refine h3 _ ?_
  split
  · refine wf_ite (State.restoredGate_wf _ _ _ (h2 _ ?_)) (wf_ite ?_ (State.emitTeam_wf _ _ _ _ ?_))
    · simp [h]
    · rw [State.setSettle_mem]
      refine State.emitTeam_wf _ _ _ _ ?_
      rw [State.acquireTeam_mem]
      exact h2 _ (by simp [h])
    · rw [State.acquireTeam_mem]
      exact h2 _ (by simp [h])
  · exact h2 _ (by simp [h])

/-! ### Traces, unlisted words and pre-emption -/

@[simp] theorem State.emitTrc_wf (s : State) (i : Iss) (code payload : Nat) (h : s.mem.wf = true) :
    (s.emitTrc i code payload).mem.wf = true := by
  unfold State.emitTrc
  (repeat' split) <;> simp [h]

@[simp] theorem State.unlisted_wf (s : State) (h : s.mem.wf = true) : (s.unlisted).mem.wf = true := by
  unfold State.unlisted
  (repeat' split) <;> simp [h]

@[simp] theorem State.preemptGroup_wf (s : State) (id : Nat × Nat) (h : s.mem.wf = true) : (s.preemptGroup id).mem.wf = true := by
  unfold State.preemptGroup
  dsimp only
  (repeat' split) <;> simp [h]

@[simp] theorem State.preemptTeam_wf (s : State) (t : Team) (h : s.mem.wf = true) : (s.preemptTeam t).mem.wf = true := by
  unfold State.preemptTeam
  refine wf_ite (by simp [h]) (wf_ite (wf_ite (by simp [h]) h) ?_)
  simpa using foldl_wf (f := fun s g => s.preemptGroup (t.id, g)) (fun s _ hs => s.preemptGroup_wf _ hs) _ _ h

@[simp] theorem State.preempt_wf (s : State) (h : s.mem.wf = true) : (s.preempt).mem.wf = true := by simp +contextual [State.preempt, foldl_wf, h]

end Sys2Proof.Machine
end

section
/-! The canonical form of memory: every word that issues keeps it. -/

namespace Sys2Proof.Machine

/-- The instruction keeps the canonical form of memory. -/
def keepsWf (i : Instr) : Prop := ∀ s t, s.mem.wf = true → exec i s = .next t → t.mem.wf = true

/-- A word whose effect keeps the canonical form keeps it however it ends. -/
theorem runWord_wf {e : Entry} {v : View} {s t : State} {eff : Iss → State → Except Exc State} (hs : s.mem.wf = true)
    (heff : ∀ w u, u.mem.wf = true → okAll (fun t => t.mem.wf = true) (eff w u)) (ht : runWord e v s eff = .next t) : t.mem.wf = true := by
  rcases runWord_cases (e := e) (v := v) (s := s) (eff := eff) with ⟨_, hc⟩ | ⟨w, _, hc⟩
  · rw [hc] at ht
    cases ht
  · obtain ⟨x, _, hc⟩ | ⟨_, hc⟩ | ⟨_, pages, _, hc⟩ | ⟨t', _, hok, hc⟩ | ⟨x, _, _, hc⟩ := hc <;>
      obtain rfl := Host.Outcome.next.inj (hc.symm.trans ht)
    · exact s.takeFault_wf _ _ _ _ _ _ hs
    · simpa using hs
    · simpa using hs
    · exact heff _ _ (by simpa using hs) _ hok
    · exact State.takeFault_wf _ _ _ _ _ _ _ (by simpa using hs)

theorem keepsWf_of_word {i : Instr} {v : View} {e : State → Entry} {eff : State → Iss → State → Except Exc State}
    (h : ∀ s, exec i s = runWord (e s) v s (eff s))
    (heff : ∀ s w u, u.mem.wf = true → okAll (fun t => t.mem.wf = true) (eff s w u)) : keepsWf i :=
  fun s _ hs ht => runWord_wf hs (heff s) ((h s).symm.trans ht)

theorem keepsWf_of_keepsMem {i : Instr} {v : View} (h : keepsMem i v) : keepsWf i := fun s _ hs ht => by
  obtain ⟨e, eff, hrun, heff⟩ := h s
  exact runWord_wf hs (fun w u hu => okAll_wf hu (heff w u)) (hrun.symm.trans ht)

/-! ### Words that leave or wait -/

theorem exit_keepsWf (k : FS) : keepsWf (.exit k) :=
  keepsWf_of_word (execExit.eq_1 k ·) fun s w u hu => okAll_ok.mpr
    (wf_ite (by simp [hu]) (wf_ite (State.groupExit_wf _ _ (by simp [hu])) (by simp [hu])))

theorem phase_keepsWf (k : FS) : keepsWf (.phase k) :=
  keepsWf_of_word (execPhase.eq_1 k ·) fun s w u hu => okAll_ok.mpr (by simp [hu])

theorem succ_keepsWf (k : FR) : keepsWf (.succ k) :=
  keepsWf_of_word (execSucc.eq_1 k ·) fun s w u hu => okAll_then fun _ => okAll_pure.mpr (by simp [hu])

theorem trap_keepsWf (k : FS) : keepsWf (.trap k) :=
  keepsWf_of_word (execTrap.eq_1 k ·) fun s w u hu => okAll_ok.mpr (wf_ite (by simp [hu]) (by simp [hu]))

theorem brk_keepsWf (k : FS) : keepsWf (.brk k) :=
  keepsWf_of_word (execBrk.eq_1 k ·) fun s w u hu => okAll_ok.mpr (wf_ite (by simp [hu]) (by simp [hu]))

theorem cwait_keepsWf (k : FS) : keepsWf (.cwait k) :=
  keepsWf_of_word (execCwait.eq_1 k ·) fun s w u hu => okAll_ok.mpr (by simp [hu])

/-! ### Stores and atomics -/

theorem keepsWf_of_runStore {i : Instr} {v : View} {ls : Bool} (h : ∀ s, exec i s = runStore v ls s) : keepsWf i :=
  keepsWf_of_word (fun s => (h s).trans (runStore.eq_1 v ls s)) fun s w u hu => okAll_then fun ts => okAll_pure.mpr
    (by simpa using State.writePuts_wf _ w _ (wf_ite (by simp [hu]) (by simp [hu])))

theorem zln_keepsWf (k : FM) : keepsWf (.zln k) :=
  keepsWf_of_word (execZln.eq_1 k ·) fun s w u hu => okAll_then fun ts => okAll_pure.mpr (by simpa using State.writePuts_wf _ w _ hu)

theorem atomEnd_wf {w : Iss} {n : Nat} {r : State × List AtomDone × List AtomElem} {k : List AtomDone → Group → Group} (h : r.1.mem.wf = true) :
    (atomEnd w n r k).mem.wf = true := wf_ite (by simp [h]) (by simp [h])

theorem keepsWf_of_runAtom {i : Instr} {v : View} (h : ∀ s, exec i s = runAtom v s) : keepsWf i :=
  keepsWf_of_word (fun s => (h s).trans (runAtom.eq_1 v s)) fun s w u hu => okAll_then fun ts => okAll_pure.mpr
    (atomEnd_wf (atomRun_wf w u _ _ ts _ hu))

theorem keepsWf_of_runVec {i : Instr} {v : View} (h : ∀ s, exec i s = runVec v s) : keepsWf i :=
  keepsWf_of_word (fun s => (h s).trans (runVec.eq_1 v s)) fun s w u hu => okAll_then fun ts => okAll_pure.mpr
    (atomEnd_wf (atomRun_wf w u _ _ ts _ hu))

/-! ### Matrix words -/

theorem mma_keepsWf (k : FR) : keepsWf (.mma k) :=
  keepsWf_of_word (execMma.eq_1 k ·) fun s w u hu => okAll_then fun r => u.charging_wf w _ _ _ hu fun x hx => okAll_ok.mpr (by simp [hx])

theorem mmx_keepsWf (k : FR) : keepsWf (.mmx k) :=
  keepsWf_of_word (execMmx.eq_1 k ·) fun s w u hu => okAll_then fun r => u.charging_wf w _ _ _ hu fun x hx => okAll_ok.mpr (by simp [hx])

@[simp] theorem State.writeRow_wf (w : Iss) (va : Nat) (s : State) (ts : List (Target × Nat)) (bs : List Byte) (h : s.mem.wf = true) :
    (State.writeRow w va s ts bs).mem.wf = true := by
  induction ts generalizing s va bs with
  | nil => exact h
  | cons p ts ih => exact ih _ _ _ (s.writeThread_wf _ _ _ _ h)

theorem drainOctet_wf {w : Iss} {b : Nat} {rows : List (Nat × Nat × List (Target × Nat))} {r : DrainRun} {o : Nat} (h : r.s.mem.wf = true) :
    (drainOctet w b rows r o).s.mem.wf = true := by
  have put : ∀ (s : State) n rows, s.mem.wf = true → (drainUpTo w b n s rows).mem.wf = true := fun s n rows hs =>
    foldl_wf (fun s r hs => State.writeRow_wf w _ s _ _ hs) rows s hs
  unfold drainOctet
  dsimp only
  split
  · exact h
  · split
    · exact put _ _ _ h
    · split
      · exact h
      · exact put _ _ _ (wf_ite (by simp [h]) (wf_ite h (by simp [h])))

theorem drainAdds_wf (w : Iss) (b : Nat) (s : State) (rows : List (Nat × Nat × List (Target × Nat))) (h : s.mem.wf = true) :
    (drainAdds w b s rows).s.mem.wf = true := by
  have go : ∀ (l : List Nat) (r : DrainRun), r.s.mem.wf = true → (l.foldl (drainOctet w b rows) r).s.mem.wf = true := by
    intro l
    induction l with
    | nil => exact fun r hr => hr
    | cons o l ih => exact fun r hr => ih _ (drainOctet_wf hr)
  exact go _ _ h

theorem drain_keepsWf (k : FR) : keepsWf (.drain k) :=
  keepsWf_of_word (execDrain.eq_1 k ·) fun s w u hu => okAll_then fun b => okAll_then fun rt => okAll_then fun rows => by
    have hq : ∀ (c : Prop) [Decidable c] ps,
        (if c then drainAdds w b u rows else { s := State.writePuts w u ps, done := [], held := false }).s.mem.wf = true := fun c _ ps => by
      split
      · exact drainAdds_wf w b u rows hu
      · exact State.writePuts_wf u w ps hu
    dsimp only
    refine okAll_ite (okAll_pure.mpr ?_) (okAll_ite (okAll_pure.mpr ?_) (okAll_pure.mpr ?_)) <;> simp [hq]

/-! ### Copies -/

theorem keepsWf_of_runCopy {i : Instr} {op : CopyOp} {v : View} (h : ∀ s, exec i s = runCopy op v s) : keepsWf i :=
  keepsWf_of_word (fun s => (h s).trans (runCopy.eq_1 op v s)) fun s w u hu => okAll_bind fun r hr =>
    okAll_wf ((cpCheck_mem _ _ _ r hr).symm ▸ hu) (cpIssue_mem _ _ _)

theorem cseal_keepsWf (k : FS) : keepsWf (.cseal k) :=
  keepsWf_of_word (execCseal.eq_1 k ·) fun s w u hu => by
    dsimp only
    refine okAll_skip (okAll_ite (okAll_pure.mpr (by simp [hu])) (okAll_pure.mpr (State.closeBatches_wf _ (by simp [hu]))))

/-! ### Queues, counters, monitors and traces -/

theorem keepsWf_of_runEnqueue {i : Instr} {v : View} {kinds : List Nat} (h : ∀ s, exec i s = runEnqueue v kinds s) : keepsWf i :=
  keepsWf_of_word (fun s => (h s).trans (runEnqueue.eq_1 v kinds s)) fun s w u hu => okAll_then fun q => okAll_then fun slot => okAll_then fun _ => by
    refine okAll_ite (okAll_pure.mpr (State.refuse_wf _ _ _ (by simp [hu]))) (okAll_bind fun r hr => okAll_pure.mpr ?_)
    have hr : r.2.mem.wf = true := u.enqueue_wf _ _ _ _ hu r hr
    simp [hr]

theorem qdeq_keepsWf (k : FR) : keepsWf (.qdeq k) :=
  keepsWf_of_word (execQdeq.eq_1 k ·) fun s w u hu => okAll_bind fun r hr => by
    have hr := takeWord_wf w u hu r hr
    split
    · exact okAll_pure.mpr (by simp [hr])
    · exact okAll_pure.mpr (wf_ite (by simp [hr]) (by simp [hr]))

theorem qtry_keepsWf (k : FR) : keepsWf (.qtry k) :=
  keepsWf_of_word (execQtry.eq_1 k ·) fun s w u hu => okAll_bind fun r hr => by
    have hr := takeWord_wf w u hu r hr
    split <;> exact okAll_pure.mpr (by simp [hr])

theorem jdec_keepsWf (k : FR) : keepsWf (.jdec k) :=
  keepsWf_of_word (execJdec.eq_1 k ·) fun s w u hu => okAll_then fun pa => okAll_pure.mpr (by simp [hu])

theorem jset_keepsWf (k : FR) : keepsWf (.jset k) :=
  keepsWf_of_word (execJset.eq_1 k ·) fun s w u hu => okAll_then fun pa => okAll_pure.mpr (by simp [Memory.wr_wf, hu])

theorem marm_keepsWf (k : FR) : keepsWf (.marm k) :=
  keepsWf_of_word (execMarm.eq_1 k ·) fun s w u hu => okAll_then fun t => okAll_then fun pa => okAll_pure.mpr (by simp [hu])

theorem marmCounted_keepsWf (k : FR) : keepsWf (.marmCounted k) :=
  keepsWf_of_word (execMarmCounted.eq_1 k ·) fun s w u hu => by
    dsimp only
    refine okAll_check fun _ => okAll_check fun _ => okAll_then fun t => okAll_then fun tc => okAll_then fun pa => okAll_then fun pc => ?_
    exact okAll_ite (okAll_pure.mpr (by simp [hu])) (okAll_ite (okAll_pure.mpr (by simp [hu])) (okAll_pure.mpr hu))

theorem trc_keepsWf (k : FR) : keepsWf (.trc k) :=
  keepsWf_of_word (execTrc.eq_1 k ·) fun s w u hu => okAll_ok.mpr (by simp [hu])

theorem trcm_keepsWf (k : FR) : keepsWf (.trcm k) :=
  keepsWf_of_word (execTrcm.eq_1 k ·) fun s w u hu => okAll_ok.mpr (foldl_wf (fun _ _ hs => State.emitTrc_wf _ _ _ _ hs) _ _ hu)

/-! ### Calls, contexts and migrations -/

theorem sysc_keepsWf (k : FS) : keepsWf (.sysc k) :=
  keepsWf_of_word (execSysc.eq_1 k ·) fun s w u hu => by
    dsimp only
    refine okAll_check fun _ => okAll_then fun q => okAll_ite (okAll_pure.mpr (by simp [hu])) (okAll_ite (okAll_pure.mpr (by simp [hu])) ?_)
    refine okAll_bind fun r hr => okAll_pure.mpr ?_
    have hr : r.2.mem.wf = true := State.enqueueFor_wf _ _ q _ (by simp [hu]) r hr
    simp [hr]

theorem eret_keepsWf (k : FS) : keepsWf (.eret k) :=
  keepsWf_of_word (execEret.eq_1 k ·) fun s w u hu => okAll_ok.mpr (by simp [hu])

theorem ctxld_keepsWf (k : FR) : keepsWf (.ctxld k) :=
  keepsWf_of_word (execCtxld.eq_1 k ·) fun s w u hu => by
    dsimp only
    split
    · exact okAll_error
    · next c _ =>
      refine okAll_check fun _ => okAll_then fun fs => okAll_pure.mpr ?_
      simpa using foldl_wf (f := fun s p => s.enlist c p) (fun s p hs => s.enlist_wf c p hs) fs.zipIdx _ (by simpa using hu)

theorem mig_keepsWf (k : FR) : keepsWf (.mig k) :=
  keepsWf_of_word (execMig.eq_1 k ·) fun s w u hu => by
    dsimp only
    refine okAll_then fun c => okAll_ite (okAll_pure.mpr (by simp [hu])) (okAll_check fun _ => okAll_check fun _ => okAll_then fun lf => ?_)
    refine okAll_then fun _ => ?_
    refine okAll_ite (okAll_pure.mpr (by simp [hu])) (okAll_check fun _ => okAll_check fun _ => okAll_pure.mpr (by simp [hu]))

end Sys2Proof.Machine
end

section
/-! The canonical form of memory: every event keeps it. -/

namespace Sys2Proof.Machine

/-- The instruction is an event that leads to f of the state. -/
theorem keepsWf_of_event {i : Instr} {f : State → State} (h : ∀ s, exec i s = .next (f s)) (hf : ∀ s, s.mem.wf = true → (f s).mem.wf = true) :
    keepsWf i := fun s t hs ht => by
  obtain rfl := Host.Outcome.next.inj ((h s).symm.trans ht)
  exact hf s hs

/-! ### Groups -/

theorem clauseBoundary_keepsWf (t g : Nat) : keepsWf (.clauseBoundary t g) :=
  keepsWf_of_event (execClauseBoundary.eq_1 t g ·) fun s hs => by
  refine wf_ite hs (wf_ite hs ?_)
  split
  · next tm gr _ _ =>
    split
    · exact hs
    · next c _ =>
      have hf := s.fetchClause_mem (t, g) c tm gr
      split
      · simp [hs]
      · split
        · next x s1 h1 =>
          have h1 : s1.mem.wf = true := by rw [h1] at hf; exact (congrArg Memory.wf hf).trans hs
          dsimp only
          split <;> simp [hs, h1]
        · next ws s1 h1 =>
          have h1 : s1.mem.wf = true := by rw [h1] at hf; exact (congrArg Memory.wf hf).trans hs
          dsimp only
          split
          · simp [hs]
          · split <;> simp [hs, h1]
  · exact hs

theorem groupWaitRelease_keepsWf (t g : Nat) : keepsWf (.groupWaitRelease t g) :=
  keepsWf_of_event (execGroupWaitRelease.eq_1 t g ·) fun s hs => by
  split
  · exact wf_ite hs (wf_ite (s.takeDeferred_wf _ _ _ hs) (s.tryRelease_wf _ hs))
  · exact hs

theorem longLatencyArrival_keepsWf (t g r : Nat) : keepsWf (.longLatencyArrival t g r) :=
  keepsWf_of_event (execLongLatencyArrival.eq_1 t g r ·) fun _ hs => hs

theorem storeAcknowledged_keepsWf (t g : Nat) : keepsWf (.storeAcknowledged t g) :=
  keepsWf_of_event (execStoreAcknowledged.eq_1 t g ·) fun _ hs => by simp [hs]

theorem deferredAccessFault_keepsWf (t g code addr detail : Nat) (lanes pc : BitVec 64) :
    keepsWf (.deferredAccessFault t g code addr detail lanes pc) :=
  keepsWf_of_event (execDeferredAccessFault.eq_1 t g code addr detail lanes pc ·) fun s hs => by
  split
  · refine wf_ite hs ?_
    dsimp only
    split
    · simp [hs]
    · split <;> simp [hs]
  · exact hs

theorem pageWalkComplete_keepsWf (die cluster ctx va : Nat) : keepsWf (.pageWalkComplete die cluster ctx va) :=
  keepsWf_of_event (execPageWalkComplete.eq_1 die cluster ctx va ·) fun s hs => by
  split
  · exact hs
  · split
    · exact hs
    · exact foldl_wf (fun _ _ hs => by simp [hs]) _ _ (by simp [hs])

theorem stallOperationComplete_keepsWf (t g : Nat) : keepsWf (.stallOperationComplete t g) :=
  keepsWf_of_event (execStallOperationComplete.eq_1 t g ·) fun s hs => by
  split
  · exact hs
  · refine wf_ite hs ?_
    split
    · simp [hs]
    · exact wf_ite (State.closeBatches_wf _ (by simp [hs])) hs

theorem syscEnqueue_keepsWf (t g : Nat) : keepsWf (.syscEnqueue t g) :=
  keepsWf_of_event (execSyscEnqueue.eq_1 t g ·) fun s hs => by
  split
  · exact hs
  · next p _ =>
    dsimp only
    have h0 : ({ s with calls := s.calls.erase p } : State).mem.wf = true := hs
    generalize ({ s with calls := s.calls.erase p } : State) = s0 at h0 ⊢
    split
    · exact h0
    · next c _ =>
      refine wf_ite hs ?_
      split
      · next n s1 h1 => exact s0.enqueueCall_wf c p h0 _ h1
      · exact hs
      · exact wf_ite (by simp [h0]) (s0.logFault_wf _ _ _ _ h0)

theorem losslessStallTimeout_keepsWf (t g : Nat) : keepsWf (.losslessStallTimeout t g) :=
  keepsWf_of_event (execLosslessStallTimeout.eq_1 t g ·) fun s hs => by
  split
  · split
    · exact wf_ite hs (State.logFault_wf _ _ _ _ _ (by simp [hs]))
    · exact hs
  · exact hs

theorem lanternTimeout_keepsWf (t b : Nat) : keepsWf (.lanternTimeout t b) :=
  keepsWf_of_event (execLanternTimeout.eq_1 t b ·) fun s hs => by
  split
  · exact hs
  · split
    · exact hs
    · split
      · exact hs
      · exact wf_ite hs (State.takeFault_wf _ _ _ _ _ _ _ (State.emitCore_wf _ _ _ _ _ (by simp [hs])))

/-! ### Teams -/

theorem phaseSettleComplete_keepsWf (id : Nat) : keepsWf (.phaseSettleComplete id) :=
  keepsWf_of_event (execPhaseSettleComplete.eq_1 id ·) fun s hs => by
  split
  · exact hs
  · split
    · exact hs
    · refine wf_ite hs ?_
      split <;> simp [hs]

theorem taskSpillEnqueue_keepsWf (id : Nat) : keepsWf (.taskSpillEnqueue id) :=
  keepsWf_of_event (execTaskSpillEnqueue.eq_1 id ·) fun s hs => by
  split
  · exact hs
  · next t _ =>
    split
    · next l c _ _ =>
      refine wf_ite hs ?_
      split
      · exact s.carryFail_wf _ _ hs
      · next q _ =>
        refine wf_ite hs ?_
        dsimp only
        split
        · exact s.carryFail_wf _ _ hs
        · next s1 h1 =>
          have h1 : s1.mem.wf = true := by
            revert h1
            split
            · exact fun h1 => okAll_bind (p := fun t : State => t.mem.wf = true) (fun u hu => okAll_bind fun r hr => okAll_pure.mpr
                (u.enqueue_wf _ _ _ _ (s.writeSpill_wf _ _ _ hs u hu) r hr)) s1 h1
            · exact fun h1 => okAll_bind (p := fun t : State => t.mem.wf = true) (fun u hu => okAll_bind fun r hr => okAll_pure.mpr
                (u.enqueue_wf _ _ _ _ (Except.ok.inj hu ▸ hs) r hr)) s1 h1
          simp [h1]
    · exact hs

theorem succSettleComplete_keepsWf (id : Nat) : keepsWf (.succSettleComplete id) :=
  keepsWf_of_event (execSuccSettleComplete.eq_1 id ·) fun s hs => by
  split
  · exact hs
  · split
    · refine wf_ite hs ?_
      split
      · exact State.faultAtWait_wf _ _ _ _ _ hs
      · exact wf_ite (by simp [hs]) (wf_ite (s.succEnd_wf _ _ _ _ hs) hs)
    · exact hs

theorem teamStartLoaded_keepsWf (id : Nat) : keepsWf (.teamStartLoaded id) :=
  keepsWf_of_event (execTeamStartLoaded.eq_1 id ·) fun s hs => by
  split
  · exact hs
  · next t _ =>
    split
    · exact hs
    · next c _ =>
      refine wf_ite hs ?_
      dsimp only
      split
      · exact hs
      · simp [hs]
      · split
        · exact s.carryFail_wf _ _ hs
        · next s1 h1 =>
          have h1 : s1.mem.wf = true := okAll_ite (s.writeRec_wf _ _ _ hs) (s.writePcode_wf _ _ _ hs) s1 h1
          simp [h1]
      · split
        · exact s.carryFail_wf _ _ hs
        · simp [hs]
      · exact s.loadImage_wf _ _ _ _ hs

/-! ### Matrix work -/

/-- The state that a fill leaves, however it ends. -/
def FillEnd.left : FillEnd → State
  | .done s | .held s _ | .walks s _ | .fault s _ => s

theorem State.payFill_left (s : State) (t : Team) (die : Nat) (conv : Bool) (paid : Nat) (l : List (Nat × Nat)) :
    (s.payFill t die conv paid l).left.mem = s.mem := by
  induction l generalizing s paid with
  | nil => rfl
  | cons u l ih =>
    rw [State.payFill]
    split
    · next s1 h1 => exact (ih s1 _).trans (s.payUnit_mem _ _ _ _ _ s1 h1)
    · rfl
    · rfl

theorem State.runFill_left (s : State) (c : Ctx) (t : Team) (j : TileJob) : (s.runFill c t j).left.mem = s.mem := by
  rw [State.runFill]
  dsimp only
  split
  · rfl
  · next p s0 us img hread =>
    have h0 : s0.mem = s.mem := by
      refine okAll_bind (p := fun q : FillPlan × State × List UnitOut × List (Byte × Bool) => q.2.1.mem = s.mem) (fun pl hpl => ?_) _ hread
      exact okAll_then fun _ => okAll_then fun _ => okAll_pure.mpr (s.fillPlan_mem _ _ _ _ _ pl hpl)
    split
    · simp [FillEnd.left]
    · have hp := fun u : State => u.payFill_left t (coreDie (t.core + if j.upper = true then 1 else 0)) p.conv.isSome j.paid
      split
      · next s1 h1 =>
        have h1' := (congrArg (fun r => r.left.mem) h1).symm.trans (hp _ _)
        simp_all [FillEnd.left]
      · simp [hp, h0]

theorem tileFillComplete_keepsWf (t j : Nat) : keepsWf (.tileFillComplete t j) :=
  keepsWf_of_event (execTileFillComplete.eq_1 t j ·) fun s hs => by
  split
  · exact hs
  · next tm _ =>
    split
    · next job c _ _ =>
      refine wf_ite hs ?_
      have hl := congrArg Memory.wf (s.runFill_left c tm job)
      split
      all_goals
        next hrun =>
          rw [hrun] at hl
          have h1 := hl.trans hs
          simp only [FillEnd.left] at h1
          simp [h1]
    · exact hs

theorem tileDrainComplete_keepsWf (t j : Nat) : keepsWf (.tileDrainComplete t j) :=
  keepsWf_of_event (execTileDrainComplete.eq_1 t j ·) fun s hs => by
  split
  · exact hs
  · split
    · exact hs
    · refine wf_ite hs ?_
      dsimp only
      split <;> simp [hs]

theorem matrixUpdateComplete_keepsWf (t j : Nat) : keepsWf (.matrixUpdateComplete t j) :=
  keepsWf_of_event (execMatrixUpdateComplete.eq_1 t j ·) fun s hs => by
  split
  · exact hs
  · split <;> simp [hs]

theorem matrixFetchFault_keepsWf (id : Nat) : keepsWf (.matrixFetchFault id) :=
  keepsWf_of_event (execMatrixFetchFault.eq_1 id ·) fun s hs => by
  split
  · exact hs
  · split
    · have hf := fun t g x pc a b => s.fetchRecord_wf t g x pc a b hs
      refine wf_ite hs (wf_ite ?_ (by simp [hf]))
      dsimp only
      split
      · exact State.carryFail_wf _ _ _ (by simp [hf])
      · simp [hf]
    · exact hs

/-! ### Schedulers and budgets -/

theorem schedulingRound_keepsWf (die : Nat) : keepsWf (.schedulingRound die) :=
  keepsWf_of_event (execSchedulingRound.eq_1 die ·) fun _ hs => foldl_wf State.round_wf _ _ hs

theorem gangClusterClose_keepsWf (die cluster : Nat) : keepsWf (.gangClusterClose die cluster) :=
  keepsWf_of_event (execGangClusterClose.eq_1 die cluster ·) fun _ hs => hs

theorem taskQueueScan_keepsWf (die : Nat) : keepsWf (.taskQueueScan die) := keepsWf_of_event (execTaskQueueScan.eq_1 die ·) fun _ hs => hs

theorem schedulerRestore_keepsWf (ctx id : Nat) : keepsWf (.schedulerRestore ctx id) :=
  keepsWf_of_event (execSchedulerRestore.eq_1 ctx id ·) fun s hs => by
  split
  · exact wf_ite (by simp [hs]) hs
  · exact hs

theorem launchDoorbell_keepsWf (q : Nat) : keepsWf (.launchDoorbell q) :=
  keepsWf_of_event (execLaunchDoorbell.eq_1 q ·) fun s hs => by
  split
  · exact hs
  · split
    · exact wf_ite (State.logFault_wf _ _ _ _ _ hs) hs
    · exact wf_ite hs (State.sweepLaunch_wf _ _ _ _ _ hs)

theorem budgetPeriodEnd_keepsWf (tenant : Nat) : keepsWf (.budgetPeriodEnd tenant) :=
  keepsWf_of_event (execBudgetPeriodEnd.eq_1 tenant ·) fun s hs => wf_ite hs (State.tellDrops_wf _ _ (by simp [hs]))

theorem budgetUseExchange_keepsWf : keepsWf .budgetUseExchange :=
  keepsWf_of_event execBudgetUseExchange.eq_1 fun s hs => foldl_wf (fun _ _ hs => by simp [hs]) _ _ (by simp [hs])

/-! ### Quantisation jobs -/

/-- The state that the units of a job leave, however they end. -/
def JobEnd.left : JobEnd → State
  | .done s | .held s _ | .failed s _ => s

theorem State.jobUnits_wf (c : Ctx) (j : QJob) (p : JobPlan) (us : List Nat) (s : State) (h : s.mem.wf = true) :
    (State.jobUnits c j p s us).left.mem.wf = true := by
  induction us generalizing s with
  | nil => exact h
  | cons u us ih =>
    rw [State.jobUnits]
    split
    · next s1 h1 => exact ih s1 (s.jobUnit_wf c j p u h s1 h1)
    · exact h
    · exact h

theorem quantJobTake_keepsWf (die : Nat) : keepsWf (.quantJobTake die) :=
  keepsWf_of_event (execQuantJobTake.eq_1 die ·) fun s hs => by
  refine wf_ite hs ?_
  split
  · exact hs
  · next c q s1 h1 => exact State.storeNat_wf s1 _ _ _ ((congrArg Memory.wf (State.nextQuant_mem h1)).trans hs)

theorem quantJobComplete_keepsWf (die : Nat) : keepsWf (.quantJobComplete die) :=
  keepsWf_of_event (execQuantJobComplete.eq_1 die ·) fun s hs => by
  split
  · exact hs
  · next j _ =>
    split
    · exact hs
    · next c _ =>
      have hfail : ∀ (u : State) (x : Exc), u.mem.wf = true →
          (((u.updEng fun e => { e with qjobs := e.qjobs.filter fun x => x.die != die }).jobFailed c j x).jobSignal c j true).mem.wf = true :=
        fun u x hu => State.jobSignal_wf _ _ _ _ (State.jobFailed_wf _ _ _ _ hu)
      refine wf_ite hs ?_
      split
      · exact hfail _ _ hs
      · split
        · exact hfail _ _ hs
        · next p _ =>
          have hu := fun us => State.jobUnits_wf c j p us s hs
          dsimp only
          split
          · next s1 h1 =>
            have h1 : s1.mem.wf = true := (congrArg (fun r => r.left.mem.wf) h1).symm.trans (hu _)
            exact State.jobSignal_wf _ _ _ _ h1
          · next s1 u h1 => exact (congrArg (fun r => r.left.mem.wf) h1).symm.trans (hu _)
          · next s1 x h1 =>
            have h1 : s1.mem.wf = true := (congrArg (fun r => r.left.mem.wf) h1).symm.trans (hu _)
            exact hfail _ _ h1

end Sys2Proof.Machine
end

section
/-! The canonical form of memory: the events of engines, contexts, Echo and the package, and every step. -/

namespace Sys2Proof.Machine

/-! ### Engines and memories -/

theorem copyElementPerformed_keepsWf (die unit slot n : Nat) : keepsWf (.copyElementPerformed die unit slot n) :=
  keepsWf_of_event (execCopyElementPerformed.eq_1 die unit slot n ·) fun s hs => s.performEv_wf _ _ _ _ _ hs

theorem reducingElementArrival_keepsWf (die unit slot n : Nat) : keepsWf (.reducingElementArrival die unit slot n) :=
  keepsWf_of_event (execReducingElementArrival.eq_1 die unit slot n ·) fun s hs => s.performEv_wf _ _ _ _ _ hs

theorem packetRetryReturn_keepsWf (die unit slot n : Nat) : keepsWf (.packetRetryReturn die unit slot n) :=
  keepsWf_of_event (execPacketRetryReturn.eq_1 die unit slot n ·) fun s hs => s.performEv_wf _ _ _ _ _ hs

theorem copyComplete_keepsWf (id : Nat) : keepsWf (.copyComplete id) :=
  keepsWf_of_event (execCopyComplete.eq_1 id ·) fun s hs => by
  split
  · exact hs
  · exact wf_ite hs (State.closeBatches_wf _ (by simp [hs]))

theorem copyElementFault_keepsWf (die unit slot n : Nat) (link : Bool) : keepsWf (.copyElementFault die unit slot n link) :=
  keepsWf_of_event (execCopyElementFault.eq_1 die unit slot n link ·) fun s hs => by
  split
  · exact hs
  · split
    · exact hs
    · refine wf_ite hs (wf_ite (s.faultUnit_wf _ _ _ hs) ?_)
      split
      · exact s.faultUnit_wf _ _ _ hs
      · exact hs

theorem mcastDestinationFailure_keepsWf (copy : Nat) (core : Option Nat) : keepsWf (.mcastDestinationFailure copy core) :=
  keepsWf_of_event (execMcastDestinationFailure.eq_1 copy core ·) fun s hs => by
  split
  · exact hs
  · split
    · exact s.logMcast_wf _ hs
    · simpa using State.logMcast_wf _ copy (by simpa using hs)

theorem replayFilterExpiry_keepsWf (site : Nat) : keepsWf (.replayFilterExpiry site) :=
  keepsWf_of_event (execReplayFilterExpiry.eq_1 site ·) fun _ hs => hs

theorem roostWake_keepsWf (slice : Nat) : keepsWf (.roostWake slice) :=
  keepsWf_of_event (execRoostWake.eq_1 slice ·) fun s hs => by
  refine foldl_wf (fun s _ hs => s.decrement_wf _ _ hs) _ _ (foldl_wf (fun u _ hu => ?_) _ _ (foldl_wf (fun u _ hu => ?_) _ _ hs)) <;> exact hu

theorem sliceLineWriteBack_keepsWf (ctx va : Nat) : keepsWf (.sliceLineWriteBack ctx va) :=
  keepsWf_of_event (execSliceLineWriteBack.eq_1 ctx va ·) fun s hs => by
  split
  · exact hs
  · split
    · exact wf_ite (by simp [hs]) hs
    · exact hs

theorem ualinkPeerRequest_keepsWf (a : HostAcc) : keepsWf (.ualinkPeerRequest a) :=
  keepsWf_of_event (execUalinkPeerRequest.eq_1 a ·) fun s hs => s.outside_wf _ _ _ _ hs

theorem casiumLinkHostAccess_keepsWf (a : HostAcc) : keepsWf (.casiumLinkHostAccess a) :=
  keepsWf_of_event (execCasiumLinkHostAccess.eq_1 a ·) fun s hs => s.outside_wf _ _ _ _ hs

/-! ### Contexts -/

theorem ctxcmdSave_keepsWf (ctx : Nat) : keepsWf (.ctxcmdSave ctx) :=
  keepsWf_of_event (execCtxcmdSave.eq_1 ctx ·) fun _ hs => wf_ite (by simp [hs]) hs

theorem contextSaveWritten_keepsWf (ctx : Nat) : keepsWf (.contextSaveWritten ctx) :=
  keepsWf_of_event (execContextSaveWritten.eq_1 ctx ·) fun s hs => by
  split
  · exact hs
  · split
    · exact wf_ite (s.finishSave_wf _ _ hs) hs
    · exact wf_ite (s.finishSingle_wf _ _ _ hs) hs
    · exact hs

theorem ctxcmdTerminate_keepsWf (ctx : Nat) : keepsWf (.ctxcmdTerminate ctx) :=
  keepsWf_of_event (execCtxcmdTerminate.eq_1 ctx ·) fun s hs => wf_ite (s.terminate_wf _ hs) hs

theorem ctxcmdEngresume_keepsWf (ctx die unit slot : Nat) : keepsWf (.ctxcmdEngresume ctx die unit slot) :=
  keepsWf_of_event (execCtxcmdEngresume.eq_1 ctx die unit slot ·) fun s hs => by
  split <;> exact hs

theorem ctxcmdEngcancel_keepsWf (ctx die unit slot : Nat) : keepsWf (.ctxcmdEngcancel ctx die unit slot) :=
  keepsWf_of_event (execCtxcmdEngcancel.eq_1 ctx die unit slot ·) fun s hs => by
  split
  · exact s.cancelCopy_wf _ hs
  · exact hs

theorem contextRegisterWrite_keepsWf (ctx sel v : Nat) : keepsWf (.contextRegisterWrite ctx sel v) :=
  keepsWf_of_event (execContextRegisterWrite.eq_1 ctx sel v ·) fun s hs => by
  split
  · exact hs
  · exact wf_ite hs (by simp [hs])

theorem watchdog_keepsWf (ctx detail : Nat) : keepsWf (.watchdog ctx detail) :=
  keepsWf_of_event (execWatchdog.eq_1 ctx detail ·) fun s hs => by
  split
  · exact hs
  · refine wf_ite ?_ (wf_ite (s.watchdog_wf _ _ hs) hs)
    split
    · refine wf_ite (wf_ite hs (State.watchdog_wf _ _ _ ?_)) (s.watchdog_wf _ _ hs)
      rw [State.pass_mem]
      exact hs
    · exact hs

theorem contextCreate_keepsWf (c : CtxIn) : keepsWf (.contextCreate c) :=
  keepsWf_of_event (execContextCreate.eq_1 c ·) fun _ hs => wf_ite hs hs

theorem contextDestroy_keepsWf (ctx : Nat) : keepsWf (.contextDestroy ctx) :=
  keepsWf_of_event (execContextDestroy.eq_1 ctx ·) fun s hs => wf_ite hs (s.terminate_wf ctx hs)

/-! ### Echo and the timebase -/

theorem echoBufferDrain_keepsWf (i : Nat) : keepsWf (.echoBufferDrain i) :=
  keepsWf_of_event (execEchoBufferDrain.eq_1 i ·) fun s hs => by
  split
  · exact hs
  · split
    · exact hs
    · exact State.tellDrops_wf _ _ hs

theorem echoSinkWrite_keepsWf : keepsWf .echoSinkWrite :=
  keepsWf_of_event execEchoSinkWrite.eq_1 fun s hs => by
  split
  · exact s.tellDrops_wf _ hs
  · exact wf_ite (State.sinkEvent_wf _ _ hs) hs

theorem saturationReport_keepsWf (die : Nat) : keepsWf (.saturationReport die) :=
  keepsWf_of_event (execSaturationReport.eq_1 die ·) fun _ hs => wf_ite hs (State.emitEngine_wf _ _ _ _ _ _ hs)

theorem ptpMessage_keepsWf (m : PtpMsg) : keepsWf (.ptpMessage m) :=
  keepsWf_of_event (execPtpMessage.eq_1 m ·) fun s hs => by
  refine wf_ite hs (wf_ite (by simp [hs]) ?_)
  split
  · simp [hs]
  · simp [hs]
  · split
    · exact wf_ite (by simp [hs]) (by simp [hs])
    · simp [hs]
  · simp [hs]
  · simp [hs]

theorem ppsEdge_keepsWf (offset : Int) : keepsWf (.ppsEdge offset) :=
  keepsWf_of_event (execPpsEdge.eq_1 offset ·) fun s hs => by
  refine wf_ite hs ?_
  split
  · exact hs
  · exact wf_ite (by simp [hs]) (by simp [hs])

theorem todLine_keepsWf (line : List Byte) : keepsWf (.todLine line) :=
  keepsWf_of_event (execTodLine.eq_1 line ·) fun _ hs => wf_ite (by simp [hs]) hs

theorem timeSourceLost_keepsWf : keepsWf .timeSourceLost :=
  keepsWf_of_event execTimeSourceLost.eq_1 fun s hs => by
  split
  · exact hs
  · split
    · rw [State.timeTo_mem, State.pass_mem]
      exact hs
    · rw [State.updTime_mem, State.timeTo_mem, State.pass_mem]
      exact hs

/-! ### The package -/

theorem powerOnReset_keepsWf (b : BootIn) : keepsWf (.powerOnReset b) :=
  keepsWf_of_event (execPowerOnReset.eq_1 b ·) fun s hs => by
  split <;> exact Memory.filter_wf _ hs

theorem phimusFailure_keepsWf : keepsWf .phimusFailure :=
  keepsWf_of_event execPhimusFailure.eq_1 fun s hs => wf_ite hs (s.fatalGo_wf _ _ hs)

theorem packageFatalError_keepsWf (cause die : Nat) : keepsWf (.packageFatalError cause die) :=
  keepsWf_of_event (execPackageFatalError.eq_1 cause die ·) fun s hs => s.fatalGo_wf _ _ hs

theorem chipletLinkFailure_keepsWf (die : Nat) (sides : Bool) : keepsWf (.chipletLinkFailure die sides) :=
  keepsWf_of_event (execChipletLinkFailure.eq_1 die sides ·) fun s hs => wf_ite hs (State.checkPaths_wf _ _ (by simp [hs]))

theorem linkRetrainComplete_keepsWf (die : Nat) (ok : Bool) : keepsWf (.linkRetrainComplete die ok) :=
  keepsWf_of_event (execLinkRetrainComplete.eq_1 die ok ·) fun s hs => by
  split
  · exact hs
  · exact wf_ite (wf_ite (by simp [hs]) hs) (wf_ite (State.checkPaths_wf _ _ (by simp [hs])) (wf_ite (by simp [hs]) (by simp [hs])))

theorem packageRecompute_keepsWf : keepsWf .packageRecompute :=
  keepsWf_of_event execPackageRecompute.eq_1 fun s hs => wf_ite hs (foldl_wf State.rebindImage_wf _ _
    (foldl_wf (fun s p hs => s.rebindTask_wf p.1 p.2 hs) _ _ (foldl_wf (fun s p hs => s.patchConst_wf p.1 p.2 hs) _ _ hs)))

theorem opptReq_keepsWf (v : BitVec 2) : keepsWf (.opptReq v) := keepsWf_of_event (execOpptReq.eq_1 v ·) fun _ hs => by simp [hs]

theorem opptChangeComplete_keepsWf : keepsWf .opptChangeComplete :=
  keepsWf_of_event execOpptChangeComplete.eq_1 fun s hs => by
  refine wf_ite hs ?_
  dsimp only
  split <;> simp [hs]

theorem gateReq_keepsWf (v : BitVec 14) : keepsWf (.gateReq v) := keepsWf_of_event (execGateReq.eq_1 v ·) fun _ hs => by simp [hs]

theorem gateChangeComplete_keepsWf (die : Nat) : keepsWf (.gateChangeComplete die) :=
  keepsWf_of_event (execGateChangeComplete.eq_1 die ·) fun _ hs => wf_ite hs (wf_ite (State.checkPaths_wf _ _ (by simp [hs])) (by simp [hs]))

theorem svcDrain_keepsWf (die : Nat) : keepsWf (.svcDrain die) := keepsWf_of_event (execSvcDrain.eq_1 die ·) fun _ hs => by simp [hs]
theorem svcReadmit_keepsWf (die : Nat) : keepsWf (.svcReadmit die) := keepsWf_of_event (execSvcReadmit.eq_1 die ·) fun _ hs => by simp [hs]

theorem drainDeadline_keepsWf : keepsWf .drainDeadline :=
  keepsWf_of_event execDrainDeadline.eq_1 fun s hs => by
  split
  · exact hs
  · simpa using foldl_wf (f := State.deadlineTeam) (fun _ _ hs => by simp [hs]) _ _ (by simpa using hs)

theorem mgmtRegisterWrite_keepsWf (ofs v : Nat) : keepsWf (.mgmtRegisterWrite ofs v) :=
  fun s t hs ht => by
  change execMgmtRegisterWrite ofs v s = _ at ht
  unfold execMgmtRegisterWrite at ht
  obtain rfl := Host.Outcome.next.inj ht
  split
  · exact wf_ite (by simp [hs]) hs
  all_goals simp [hs]

theorem imageUpdate_keepsWf (i : ImageIn) : keepsWf (.imageUpdate i) :=
  keepsWf_of_event (execImageUpdate.eq_1 i ·) fun _ hs => wf_ite hs (wf_ite hs hs)

theorem attestationReport_keepsWf (nonce : BitVec 64) : keepsWf (.attestationReport nonce) :=
  keepsWf_of_event (execAttestationReport.eq_1 nonce ·) fun _ hs => wf_ite hs hs

theorem chipletReset_keepsWf (die : Nat) : keepsWf (.chipletReset die) :=
  keepsWf_of_event (execChipletReset.eq_1 die ·) fun _ hs => wf_ite (State.checkPaths_wf _ _ (by simp [hs])) hs

end Sys2Proof.Machine
end

section
/-! The canonical form of memory: every instruction and every step keeps it. -/

namespace Sys2Proof.Machine

/-! ### Every word -/

theorem keepsWf_of_storesNothing {i : Instr} {v : View} (hv : i.view = some v) (ho : storesNothing v.opc = true) : keepsWf i := by
  refine keepsWf_of_keepsMem (v := v) ?_
  obtain hle | hle | hle | hle :
      v.opc ≤ 0x0A4 ∨ (0x0A5 ≤ v.opc ∧ v.opc ≤ 0x10E) ∨ (0x10F ≤ v.opc ∧ v.opc ≤ 0x1A6) ∨ 0x1A7 ≤ v.opc := by omega
  · obtain ⟨_, -, h⟩ := arith_of_opc_le hv hle
    exact keepsMem_arith h
  · exact keepsMem_of_control hv (by simp [hle, ho])
  · exact keepsMem_of_access hv (by simp [hle, ho])
  · exact keepsMem_of_entry hv (by simp [hle, ho])

/-- A word that may store: one of those above. -/
theorem keepsWf_of_stores {i : Instr} {v : View} (hv : i.view = some v) (ho : storesNothing v.opc = false) : keepsWf i := by
  cases i with
  | exit k => exact exit_keepsWf k
  | phase k => exact phase_keepsWf k
  | succ k => exact succ_keepsWf k
  | trap k => exact trap_keepsWf k
  | brk k => exact brk_keepsWf k
  | sysc k => exact sysc_keepsWf k
  | st k => exact keepsWf_of_runStore (execSt.eq_1 k ·)
  | sts k => exact keepsWf_of_runStore (execSts.eq_1 k ·)
  | atom k => exact keepsWf_of_runAtom (execAtom.eq_1 k ·)
  | red k => exact keepsWf_of_runAtom (execRed.eq_1 k ·)
  | cas k => exact keepsWf_of_runAtom (execCas.eq_1 k ·)
  | atomv k => exact keepsWf_of_runVec (execAtomv.eq_1 k ·)
  | redv k => exact keepsWf_of_runVec (execRedv.eq_1 k ·)
  | marm k => exact marm_keepsWf k
  | marmCounted k => exact marmCounted_keepsWf k
  | zln k => exact zln_keepsWf k
  | mma k => exact mma_keepsWf k
  | mmx k => exact mmx_keepsWf k
  | drain k => exact drain_keepsWf k
  | cpy k => exact keepsWf_of_runCopy (execCpy.eq_1 k ·)
  | cpyo k => exact keepsWf_of_runCopy (execCpyo.eq_1 k ·)
  | cpyr k => exact keepsWf_of_runCopy (execCpyr.eq_1 k ·)
  | cpym k => exact keepsWf_of_runCopy (execCpym.eq_1 k ·)
  | cpys k => exact keepsWf_of_runCopy (execCpys.eq_1 k ·)
  | cseal k => exact cseal_keepsWf k
  | cwait k => exact cwait_keepsWf k
  | qenq k => exact keepsWf_of_runEnqueue (execQenq.eq_1 k ·)
  | qdeq k => exact qdeq_keepsWf k
  | qtry k => exact qtry_keepsWf k
  | jdec k => exact jdec_keepsWf k
  | jset k => exact jset_keepsWf k
  | spawn k => exact keepsWf_of_runEnqueue (execSpawn.eq_1 k ·)
  | qnt k => exact keepsWf_of_runEnqueue (execQnt.eq_1 k ·)
  | trc k => exact trc_keepsWf k
  | trcm k => exact trcm_keepsWf k
  | eret k => exact eret_keepsWf k
  | mig k => exact mig_keepsWf k
  | ctxld k => exact ctxld_keepsWf k
  | _ => cases hv <;> exact Bool.noConfusion ho

/-! ### Every event -/

theorem keepsWf_of_noView {i : Instr} (h : i.view = none) : keepsWf i := by
  cases i with
  | clauseBoundary t g => exact clauseBoundary_keepsWf t g
  | groupWaitRelease t g => exact groupWaitRelease_keepsWf t g
  | longLatencyArrival t g r => exact longLatencyArrival_keepsWf t g r
  | storeAcknowledged t g => exact storeAcknowledged_keepsWf t g
  | deferredAccessFault t g code addr detail lanes pc => exact deferredAccessFault_keepsWf t g code addr detail lanes pc
  | pageWalkComplete die cluster ctx va => exact pageWalkComplete_keepsWf die cluster ctx va
  | phaseSettleComplete t => exact phaseSettleComplete_keepsWf t
  | taskSpillEnqueue t => exact taskSpillEnqueue_keepsWf t
  | succSettleComplete t => exact succSettleComplete_keepsWf t
  | teamStartLoaded t => exact teamStartLoaded_keepsWf t
  | schedulingRound die => exact schedulingRound_keepsWf die
  | gangClusterClose die cluster => exact gangClusterClose_keepsWf die cluster
  | taskQueueScan die => exact taskQueueScan_keepsWf die
  | schedulerRestore ctx id => exact schedulerRestore_keepsWf ctx id
  | launchDoorbell q => exact launchDoorbell_keepsWf q
  | copyElementPerformed die unit slot n => exact copyElementPerformed_keepsWf die unit slot n
  | copyComplete id => exact copyComplete_keepsWf id
  | copyElementFault die unit slot n link => exact copyElementFault_keepsWf die unit slot n link
  | mcastDestinationFailure copy core => exact mcastDestinationFailure_keepsWf copy core
  | reducingElementArrival die unit slot n => exact reducingElementArrival_keepsWf die unit slot n
  | replayFilterExpiry site => exact replayFilterExpiry_keepsWf site
  | tileFillComplete t j => exact tileFillComplete_keepsWf t j
  | tileDrainComplete t j => exact tileDrainComplete_keepsWf t j
  | matrixUpdateComplete t j => exact matrixUpdateComplete_keepsWf t j
  | matrixFetchFault t => exact matrixFetchFault_keepsWf t
  | lanternTimeout t b => exact lanternTimeout_keepsWf t b
  | roostWake slice => exact roostWake_keepsWf slice
  | ctxcmdSave ctx => exact ctxcmdSave_keepsWf ctx
  | contextSaveWritten ctx => exact contextSaveWritten_keepsWf ctx
  | ctxcmdTerminate ctx => exact ctxcmdTerminate_keepsWf ctx
  | ctxcmdEngresume ctx die unit slot => exact ctxcmdEngresume_keepsWf ctx die unit slot
  | ctxcmdEngcancel ctx die unit slot => exact ctxcmdEngcancel_keepsWf ctx die unit slot
  | contextRegisterWrite ctx sel v => exact contextRegisterWrite_keepsWf ctx sel v
  | watchdog ctx detail => exact watchdog_keepsWf ctx detail
  | syscEnqueue t g => exact syscEnqueue_keepsWf t g
  | budgetPeriodEnd tenant => exact budgetPeriodEnd_keepsWf tenant
  | budgetUseExchange => exact budgetUseExchange_keepsWf
  | echoBufferDrain i => exact echoBufferDrain_keepsWf i
  | echoSinkWrite => exact echoSinkWrite_keepsWf
  | losslessStallTimeout t g => exact losslessStallTimeout_keepsWf t g
  | saturationReport die => exact saturationReport_keepsWf die
  | ptpMessage m => exact ptpMessage_keepsWf m
  | ppsEdge offset => exact ppsEdge_keepsWf offset
  | todLine line => exact todLine_keepsWf line
  | timeSourceLost => exact timeSourceLost_keepsWf
  | powerOnReset b => exact powerOnReset_keepsWf b
  | phimusFailure => exact phimusFailure_keepsWf
  | packageFatalError cause die => exact packageFatalError_keepsWf cause die
  | chipletLinkFailure die sides => exact chipletLinkFailure_keepsWf die sides
  | packetRetryReturn die unit slot n => exact packetRetryReturn_keepsWf die unit slot n
  | linkRetrainComplete die ok => exact linkRetrainComplete_keepsWf die ok
  | packageRecompute => exact packageRecompute_keepsWf
  | opptReq v => exact opptReq_keepsWf v
  | opptChangeComplete => exact opptChangeComplete_keepsWf
  | gateReq v => exact gateReq_keepsWf v
  | gateChangeComplete die => exact gateChangeComplete_keepsWf die
  | svcDrain die => exact svcDrain_keepsWf die
  | svcReadmit die => exact svcReadmit_keepsWf die
  | drainDeadline => exact drainDeadline_keepsWf
  | mgmtRegisterWrite ofs v => exact mgmtRegisterWrite_keepsWf ofs v
  | imageUpdate i => exact imageUpdate_keepsWf i
  | attestationReport nonce => exact attestationReport_keepsWf nonce
  | ualinkPeerRequest a => exact ualinkPeerRequest_keepsWf a
  | quantJobTake die => exact quantJobTake_keepsWf die
  | quantJobComplete die => exact quantJobComplete_keepsWf die
  | stallOperationComplete t g => exact stallOperationComplete_keepsWf t g
  | casiumLinkHostAccess a => exact casiumLinkHostAccess_keepsWf a
  | contextCreate c => exact contextCreate_keepsWf c
  | contextDestroy ctx => exact contextDestroy_keepsWf ctx
  | chipletReset die => exact chipletReset_keepsWf die
  | sliceLineWriteBack ctx va => exact sliceLineWriteBack_keepsWf ctx va
  | _ => cases h

theorem exec_keepsWf (i : Instr) : keepsWf i := by
  cases hv : i.view with
  | none => exact keepsWf_of_noView hv
  | some v =>
    cases ho : storesNothing v.opc with
    | true => exact keepsWf_of_storesNothing hv ho
    | false => exact keepsWf_of_stores hv ho

/-! ### Steps -/

theorem firstChange_wf {s t : State} (is : List Instr) (hs : s.mem.wf = true) (h : firstChange s is = some t) : t.mem.wf = true := by
  induction is with
  | nil => cases h
  | cons i is ih =>
    rw [firstChange] at h
    split at h
    · next u hu =>
      split at h
      · exact ih h
      · exact Option.some.inj h ▸ exec_keepsWf i s u hs hu
    · exact ih h

theorem State.groupTurn_wf {s t : State} (hs : s.mem.wf = true) (h : s.groupTurn = some t) : t.mem.wf = true := by
  obtain ⟨id, -, hid⟩ := List.exists_of_findSome?_eq_some h
  obtain ⟨u, hu, rfl⟩ := Option.map_eq_some_iff.mp hid
  exact firstChange_wf (t := u) _ hs hu

/-- An alternative that may be taken, and another in its place. -/
theorem orElse_wf {x : Option State} {y : Unit → Option State}
    (hx : ∀ t, x = some t → t.mem.wf = true) (hy : ∀ t, y () = some t → t.mem.wf = true) :
    ∀ t, x.orElse y = some t → t.mem.wf = true := by
  cases x with
  | none => exact hy
  | some u => exact hx

theorem State.defaultTurn_wf {s : State} (hs : s.mem.wf = true) : s.defaultTurn.mem.wf = true := by
  have hchange : ∀ is t, firstChange { s with turn := s.turn + 1 } is = some t → t.mem.wf = true := fun is t => firstChange_wf is hs
  have hgroup : ∀ t, State.groupTurn { s with turn := s.turn + 1 } = some t → t.mem.wf = true := fun t => State.groupTurn_wf hs
  have hget : ∀ x : Option State, (∀ t, x = some t → t.mem.wf = true) → (x.getD { s with turn := s.turn + 1 }).mem.wf = true := by
    rintro (_ | u) hu
    · exact hs
    · exact hu u rfl
  unfold State.defaultTurn
  refine hget _ (orElse_wf ?_ (hchange _))
  split
  · exact orElse_wf (orElse_wf (hchange _) (hchange _)) hgroup
  · exact orElse_wf (orElse_wf (hchange _) hgroup) (hchange _)

theorem State.issue_wf {s t : State} {w : W64} (hs : s.mem.wf = true) (h : s.issue w = .next t) : t.mem.wf = true := by
  unfold State.issue at h
  split at h
  · next i _ => exact exec_keepsWf i s t hs h
  · exact Host.Outcome.next.inj h ▸ s.unlisted_wf hs

theorem State.act_wf {s t : State} (hs : s.mem.wf = true) (h : s.act = .next t) : t.mem.wf = true := by
  unfold State.act at h
  split at h
  · next i rest _ =>
    split at h
    · exact exec_keepsWf i { s with agenda := rest } t hs h
    · exact Host.Outcome.next.inj h ▸ hs
  · split at h
    · next i rest _ => exact exec_keepsWf i { s with cmds := rest } t hs h
    · split at h
      · exact State.issue_wf hs h
      · split at h
        · next id _ =>
          dsimp only at h
          split at h
          · exact State.issue_wf (s := { s with cur := some id }) hs h
          · exact Host.Outcome.next.inj h ▸ hs
        · exact Host.Outcome.next.inj h ▸ State.defaultTurn_wf hs

/-- Settles O2: time passes without a write, what the step executes keeps the form (`exec_keepsWf`), and so does the saving of groups. -/
theorem stepKeepsMemory : Obligations.StepKeepsMemory := by
  intro s t hs h
  have hs : s.mem.wf = true := hs
  unfold step at h
  split at h
  · cases h
  · cases ha : s.tick.act with
    | next u =>
      rw [ha] at h
      exact Host.Outcome.next.inj h ▸ u.preempt_wf (State.act_wf (by simp [hs]) ha)
    | fault f =>
      rw [ha] at h
      cases h
    | refused r =>
      rw [ha] at h
      cases h

end Sys2Proof.Machine
end
